-- ==== Sys2Proof/Word.lean ====
section
/-!
DEFINITION. The word types of the OX-4 (R6, R35, R78) and the address of one byte of memory (R208).
Every other helper on bits stands in Machine/Bits.lean.
-/
namespace Sys2Proof

/-- One byte (R6). -/
abbrev Byte := BitVec 8

/-- An instruction word of any engine (R35). -/
abbrev IWord := BitVec 32

/-- A sequencer register or a control register (R59, R78). -/
abbrev Word := BitVec 64

/-- The three kinds of memory a context sees (R208); R89 codes them 0, 1 and 2. -/
inductive Space where
  | hbm
  | window
  | host
  deriving DecidableEq, Repr

/-- The place of one byte. `hbm`: device-physical address (R213). `window`: 2^22 × (128 × die + core) + offset in that
core's local store (R209). `host`: host address (R213). -/
structure PAddr where
  space : Space
  addr  : Nat
  deriving DecidableEq, Repr

/-- The byte `n` places further on. -/
def PAddr.plus (p : PAddr) (n : Nat) : PAddr := ⟨p.space, p.addr + n⟩

end Sys2Proof
end

