-- ==== Sys2Proof/Machine/Bits.lean ====
section
/-!
DEFINITION. Bit fields, sign extension, byte order and saturation (R6, R7), on natural numbers, integers and bit vectors.
-/
namespace Sys2Proof.Machine

/-- `bits(x, hi, lo)` of R7. -/
def bitsOf (x hi lo : Nat) : Nat := x / 2 ^ lo % 2 ^ (hi - lo + 1)

/-- `sext(x, n)` of R7: the low n bits read as two's complement. -/
def sextNat (n x : Nat) : Int :=
  if x % 2 ^ n < 2 ^ (n - 1) then (x % 2 ^ n : Int) else (x % 2 ^ n : Int) - 2 ^ n

/-- x mod 2^n for an integer. -/
def wrapInt (n : Nat) (x : Int) : Nat := (x % 2 ^ n).toNat

/-- x clamped to the signed range of n bits (R7 sat8, sat32). -/
def satInt (n : Nat) (x : Int) : Int :=
  if x > 2 ^ (n - 1) - 1 then 2 ^ (n - 1) - 1 else if x < -(2 ^ (n - 1)) then -(2 ^ (n - 1)) else x

/-- x clamped to [0, 2^n − 1] (R7 satn8). -/
def satNat (n : Nat) (x : Int) : Int :=
  if x > 2 ^ n - 1 then 2 ^ n - 1 else if x < 0 then 0 else x

/-- The first n bytes of x, lowest first (R6). -/
def bytesOfNat : Nat → Nat → List Byte
  | 0, _ => []
  | n + 1, x => BitVec.ofNat 8 x :: bytesOfNat n (x / 256)

/-- The number whose bytes are given, lowest first (R6). -/
def natOfBytes : List Byte → Nat
  | [] => 0
  | b :: t => b.toNat + 256 * natOfBytes t

/-- The number n of bytes read as two's complement. -/
def intOfBytes (l : List Byte) : Int := sextNat (8 * l.length) (natOfBytes l)

/-- The bits of a field placed at bit lo. -/
def put (lo width x : Nat) : Nat := x % 2 ^ width * 2 ^ lo

/-- Sign extension to 64 bits. -/
def sext64 {n : Nat} (x : BitVec n) : Word := x.signExtend 64

/-- Zero extension to 64 bits. -/
def zext64 {n : Nat} (x : BitVec n) : Word := x.setWidth 64

/-- A 64-bit word from an integer, wrapping (R7 wrap64). -/
def wordOfInt (x : Int) : Word := BitVec.ofInt 64 x

def wordOfNat (x : Nat) : Word := BitVec.ofNat 64 x

/-- Leading zeros of the low n bits of x, n when they are all zero. -/
def clzNat : Nat → Nat → Nat
  | 0, _ => 0
  | n + 1, x => if x.testBit n then 0 else 1 + clzNat n x

/-- One bits among the low n bits of x. -/
def popNat : Nat → Nat → Nat
  | 0, _ => 0
  | n + 1, x => (if x.testBit n then 1 else 0) + popNat n x

/-- Quotient rounded towards zero. -/
def truncDiv (a b : Int) : Int := a.tdiv b

/-- ⌈a ÷ b⌉. -/
def ceilDiv (a b : Nat) : Nat := (a + b - 1) / b

/-- a, a + 1, …, a + n − 1. -/
def rangeFrom (a n : Nat) : List Nat := (List.range n).map (a + ·)

/-- The list with later repeats left out. -/
def dedup : List Nat → List Nat
  | [] => []
  | a :: t => if (dedup t).contains a then dedup t else a :: dedup t

def insertNat (a : Nat) : List Nat → List Nat
  | [] => [a]
  | b :: t => if a ≤ b then a :: b :: t else b :: insertNat a t

/-- The list in ascending order. -/
def sortNat (l : List Nat) : List Nat := l.foldr insertNat []

/-- Whether two stretches [a, a + n) and [b, b + m) share a number. -/
def overlaps (a n b m : Nat) : Bool := decide (a < b + m) && decide (b < a + n) && decide (0 < n) && decide (0 < m)

end Sys2Proof.Machine
end

