-- ==== Sys2Proof/Machine/Sparse.lean ====
section
/-!
DEFINITION. Tables held as lists of (key, value) in one canonical form: keys strictly rising and no entry equal to the value
an unlisted key has. Memory, the tree, the weight buffer and the accumulators are such tables.
-/
namespace Sys2Proof.Machine

/-- The value at a key; `d` where the table lists none. -/
def sparseGet {α : Type} (d : α) : List (Nat × α) → Nat → α
  | [], _ => d
  | (k, v) :: t, a => if a = k then v else if a < k then d else sparseGet d t a

/-- The table with one value changed. -/
def sparseSet {α : Type} [DecidableEq α] (d : α) : List (Nat × α) → Nat → α → List (Nat × α)
  | [], a, x => if x = d then [] else [(a, x)]
  | (k, v) :: t, a, x =>
    if a < k then (if x = d then (k, v) :: t else (a, x) :: (k, v) :: t)
    else if a = k then (if x = d then t else (a, x) :: t)
    else (k, v) :: sparseSet d t a x

/-- Every key of the table is at least `lo`, keys rise strictly, and no value is `d`. -/
def sparseWf {α : Type} [DecidableEq α] (d : α) : Nat → List (Nat × α) → Bool
  | _, [] => true
  | lo, (k, v) :: t => decide (lo ≤ k) && decide (v ≠ d) && sparseWf d (k + 1) t

/-- The entries with keys in [lo, lo + n), and those outside it. -/
def sparseIn {α : Type} (lo n : Nat) (l : List (Nat × α)) : List (Nat × α) :=
  l.filter (fun e => decide (lo ≤ e.1) && decide (e.1 < lo + n))

def sparseOut {α : Type} (lo n : Nat) (l : List (Nat × α)) : List (Nat × α) :=
  l.filter (fun e => !(decide (lo ≤ e.1) && decide (e.1 < lo + n)))

/-- Write the entries of a list, in order. -/
def sparseSetAll {α : Type} [DecidableEq α] (d : α) (t : List (Nat × α)) (l : List (Nat × α)) : List (Nat × α) :=
  l.foldl (fun t e => sparseSet d t e.1 e.2) t

/-- Replace a bound key's value, or add one at the end (small tables keyed by a number). -/
def assocSet {α : Type} : List (Nat × α) → Nat → α → List (Nat × α)
  | [], a, x => [(a, x)]
  | (k, v) :: t, a, x => if a = k then (a, x) :: t else (k, v) :: assocSet t a x

def assocGet {α : Type} (d : α) : List (Nat × α) → Nat → α
  | [], _ => d
  | (k, v) :: t, a => if a = k then v else assocGet d t a

end Sys2Proof.Machine
end

