-- ==== Sys2Proof/Syntax.lean ====
section
/-!
DEFINITION. The instructions and steps of the OX-4: one constructor of `Instr` for each row of spec/opcode_table.json.
The first 233 are the words of the four engines (R39, R45, R48, R50); the last 82 are the table's steps that have no word
(events: a queue drains, a block lands, a strike is reported, the host or the firmware acts). An event carries the data
that the step needs and that no register of the machine holds.
-/
namespace Sys2Proof

/-- A register g0 to g31 (R38). -/
abbrev Reg := Fin 32

/-- A handle slot h0 to h63 (R38). -/
abbrev Hnd := Fin 64

/-- A k register k0 to k7 of the issuing engine (R44). -/
abbrev KIx := Fin 8

/-- The four streams of a core, numbered 0 to 3 (R19, R301). -/
inductive StreamId where
  | seq
  | vec
  | mat
  | xfer
  deriving DecidableEq, Repr

/-- The three engine streams that the sequencer starts, numbered 1 to 3 (R39). -/
inductive Eng where
  | vec
  | mat
  | xfer
  deriving DecidableEq, Repr

/-- Scope codes 0 to 10 (R41, R241). -/
inductive Scope where
  | engine
  | core
  | quad
  | crew
  | die
  | package
  | context
  | host
  | peer
  | group
  | time
  deriving DecidableEq, Repr

/-- Path codes 0 to 6 (R41, R240). -/
inductive Path where
  | lq
  | sq
  | vp
  | xp
  | wp
  | cp
  | hp
  deriving DecidableEq, Repr

/-- The control and status registers, numbered 0x000 to 0x011 (R42). -/
inductive Csr where
  | tvec
  | tcause
  | taddr
  | tpc
  | clkmax
  | ceil
  | govstall
  | yreq
  | ydl
  | menddepth
  | mendretry
  | coreId
  | dieId
  | crewSize
  | crewRank
  | ctxId
  | encv
  | flags
  deriving DecidableEq, Repr

/-- Element types, coded 0 to 8 (R46). -/
inductive EType where
  | i8
  | n8
  | i16
  | n16
  | i32
  | n32
  | bf16
  | f32
  | e4m3u
  deriving DecidableEq, Repr

/-- Size of an atom word: 4 or 8 bytes (R39). -/
inductive AtomSize where
  | w
  | d
  deriving DecidableEq, Repr

/-- Modes of a reduction, coded 0 to 2 (R48). -/
inductive MatMode where
  | tern
  | int8
  | sparse
  deriving DecidableEq, Repr

/-- Index of a tree operand: 0 to 23, or a k register (R37). -/
inductive Idx where
  | lit (i : Fin 24)
  | k (r : KIx)
  deriving DecidableEq, Repr

/-- A tree operand byte: view and index (R37). -/
structure TreeOp where
  view : Fin 8
  idx  : Idx
  deriving DecidableEq, Repr

/-- A transfer endpoint (R49). -/
inductive EndPt where
  | tree (t : TreeOp)
  | hnd (h : Hnd) (k : KIx)
  deriving DecidableEq, Repr

/-- The fields of `x.shape`, numbered 0 to 6 (R51). -/
inductive ShapeField where
  | rows
  | rowbytes
  | spitch
  | dpitch
  | ratio
  | stype
  | dtype
  deriving DecidableEq, Repr

/-- The fields of `x.win`, numbered 0 to 14 (R51). -/
inductive WinField where
  | wh
  | ww
  | sy
  | sx
  | dy
  | dx
  | pt
  | pl
  | pb
  | pr
  | pmode
  | pconst
  | ih
  | iw
  | ch
  deriving DecidableEq, Repr

/-- The part of the device that a soft error struck (R303). `fixable` tells an upset that ECC corrects from one that
it can only detect (R223). An undo line is named by its stream, how many regions lie inside its own, and its place among that region's
saved lines and then its held effects. -/
inductive StruckPart where
  | stream (core : Nat) (s : StreamId)
  | shared (core : Nat)
  | matrixArray (core : Nat)
  | transferPath (core : Nat)
  | treeLine (core line : Nat) (fixable : Bool)
  | wbRow (core row : Nat) (fixable : Bool)
  | undo (core : Nat) (s : StreamId) (depth item : Nat) (fixable : Bool)
  | memory (p : PAddr) (fixable : Bool)
  | tag (p : PAddr)
  | collective (core op : Nat)
  | walker (die : Fin 4)
  | scheduler (die : Fin 4)
  | flopor
  deriving DecidableEq, Repr

/-- What one participant on another member device brings to a GROUP-scope collective (R185). -/
structure Remote where
  member : Nat
  rank   : Nat
  op     : Nat
  bytes  : List Byte
  deriving DecidableEq, Repr

/-- A TIMEFRAME (R233): member number, E and W in ns (W is none while unbounded), F_PACKAGE, agreement number. -/
structure TimeFrame where
  member    : Nat
  e         : Int
  w         : Option Nat
  fPackage  : Int
  agreement : Nat
  deriving DecidableEq, Repr

/-- A notice as an ACK for a join passes it on (R233): a member's limit, a join announced by a device, a leave or removal. -/
inductive Notice where
  | limit (member limit : Nat) (stamp : Int)
  | joins (device limit : Nat) (stamp : Int)
  | leaves (member : Nat) (stamp : Int)
  deriving DecidableEq, Repr

/-- What a JOIN says of the joiner (R233, R234): its limit; the join stamp too, once the joiner has chosen it. -/
structure Joiner where
  limit : Nat
  stamp : Option Int
  deriving DecidableEq, Repr

/-- The agreement in force as an ACK of a join brings it (R231, R233): its number, its ceiling, the moment at which it took effect. -/
structure AgreementInfo where
  number  : Nat
  ceiling : Nat
  moment  : Int
  deriving DecidableEq, Repr

/-- What an ACK acknowledges (R233): the message itself; for a join it brings the current agreement, the lowest free member number, the
members' numbers and limits, and every notice pending. -/
inductive AckOf where
  | limit (member limit : Nat) (stamp : Int)
  | join (device limit : Nat) (agreement : AgreementInfo) (number : Nat) (members : List (Nat × Nat)) (notices : List Notice)
  | joins (device limit : Nat) (stamp : Int)
  | leave (member : Nat) (stamp : Int)
  deriving DecidableEq, Repr

/-- The stamp of a LIMIT (R232), and, where the notice is sent again, the stamp of the notice that its sender has withdrawn for it. -/
structure LimitStamp where
  stamp : Int
  old   : Option Int
  deriving DecidableEq, Repr

/-- Which issued access of a core's vector engine is performed, the oldest: all that is left of it, or n of the elements left, after the first a
of them (R147, R239). -/
structure VpPart where
  core  : Nat
  elems : Option (Nat × Nat)
  deriving DecidableEq, Repr

/-- Which block lands, by its number: all that is left of it, or its bytes up to one (R160, R161). -/
structure Landing where
  block : Nat
  upto  : Option Nat
  deriving DecidableEq, Repr

/-- A PCIe AtomicOp of which the device is the completer (R274). -/
inductive HostAtomic where
  | fetchAdd
  | swap
  | cas
  deriving DecidableEq, Repr

/-- A host access to the device (R240, R274, R275): to a partition's memory over CXL.mem at a partition-physical address; an AtomicOp on n
bytes there; a read of a BAR0 register; a read or a write of a vector in the MSI-X table of BAR4. -/
inductive HostAccess where
  | read (part ppa len : Nat)
  | write (part ppa : Nat) (bytes : List Byte)
  | atomic (op : HostAtomic) (part ppa n : Nat) (value compare : Word)
  | bar0 (off : Nat)
  | msixRead (vector : Fin 65)
  | msixWrite (vector : Fin 65) (addr : Word) (data : BitVec 32) (masked : Bool)
  deriving DecidableEq, Repr

/-- A command packet as the firmware takes it (R276): op, part, ctx (0xFF for none), tag and the six arguments. `zero` tells
that every zero field of the packet was zero. -/
structure Packet where
  op   : Nat
  part : Nat
  ctx  : Nat
  tag  : Nat
  a0   : Word
  a1   : Word
  a2   : Word
  a3   : Word
  a4   : Word
  a5   : Word
  zero : Bool
  deriving DecidableEq, Repr

/-- One constructor for each row of spec/opcode_table.json, in the table's order. -/
inductive Instr where
  -- sequencer words (R39)
  /-- R79: Writes the 64-bit wrapped sum of two registers to gd. -/
  | add (rd ra rb : Reg)
  /-- R79: Writes the wrapped difference of two registers to gd. -/
  | sub (rd ra rb : Reg)
  /-- R79: Writes the bitwise and of two registers to gd. -/
  | and (rd ra rb : Reg)
  /-- R79: Writes the bitwise or of two registers to gd. -/
  | or (rd ra rb : Reg)
  /-- R79: Writes the bitwise exclusive or of two registers to gd. -/
  | xor (rd ra rb : Reg)
  /-- R79: Shifts left by the whole unsigned count, giving 0 for counts of 64 or more. -/
  | shl (rd ra rb : Reg)
  /-- R79: Shifts right logically by the whole unsigned count. -/
  | shr (rd ra rb : Reg)
  /-- R79: Shifts right arithmetically by the whole unsigned count. -/
  | sar (rd ra rb : Reg)
  /-- R79: Writes 1 if the first register is signed-less than the second, else 0. -/
  | slt (rd ra rb : Reg)
  /-- R79: Writes 1 if the first register is unsigned-less than the second, else 0. -/
  | sltn (rd ra rb : Reg)
  /-- R79: Writes the signed minimum of two registers. -/
  | min (rd ra rb : Reg)
  /-- R79: Writes the signed maximum of two registers. -/
  | max (rd ra rb : Reg)
  /-- R79: Writes the unsigned minimum of two registers. -/
  | minn (rd ra rb : Reg)
  /-- R79: Writes the unsigned maximum of two registers. -/
  | maxn (rd ra rb : Reg)
  /-- R79: Writes the low 64 bits of the product. -/
  | mul (rd ra rb : Reg)
  /-- R79: Writes the high 64 bits of the signed product. -/
  | mulh (rd ra rb : Reg)
  /-- R79: Writes the high 64 bits of the unsigned product. -/
  | mulhn (rd ra rb : Reg)
  /-- R79: Writes the signed quotient truncated toward zero, with fixed results for division by zero and overflow. -/
  | div (rd ra rb : Reg)
  /-- R79: Writes the unsigned quotient, all ones for division by zero. -/
  | divn (rd ra rb : Reg)
  /-- R79: Writes the signed remainder with fixed results for zero divisor and overflow. -/
  | rem (rd ra rb : Reg)
  /-- R79: Writes the unsigned remainder, the dividend for a zero divisor. -/
  | remn (rd ra rb : Reg)
  /-- R79: Writes the count of leading zero bits, 64 for zero. -/
  | clz (rd ra : Reg)
  /-- R79: Writes the count of one bits. -/
  | popc (rd ra : Reg)
  /-- R80: Adds a sign-extended immediate to a register. -/
  | addi (rd ra : Reg) (imm : BitVec 16)
  /-- R80: Ands a register with a zero-extended immediate. -/
  | andi (rd ra : Reg) (imm : BitVec 16)
  /-- R80: Ors a register with a zero-extended immediate. -/
  | ori (rd ra : Reg) (imm : BitVec 16)
  /-- R80: Exclusive-ors a register with a zero-extended immediate. -/
  | xori (rd ra : Reg) (imm : BitVec 16)
  /-- R80: Shifts left by an immediate count 0-63. -/
  | shli (rd ra : Reg) (n : BitVec 6)
  /-- R80: Shifts right logically by an immediate count 0-63. -/
  | shri (rd ra : Reg) (n : BitVec 6)
  /-- R80: Shifts right arithmetically by an immediate count 0-63. -/
  | sari (rd ra : Reg) (n : BitVec 6)
  /-- R80: Writes 1 if the register is signed-less than the sign-extended immediate. -/
  | slti (rd ra : Reg) (imm : BitVec 16)
  /-- R80: Writes the sign-extended immediate to gd. -/
  | movi (rd : Reg) (imm : BitVec 16)
  /-- R80: Replaces one 16-bit chunk of gd with the immediate, keeping the rest. -/
  | movk (rd : Reg) (p : Fin 4) (imm : BitVec 16)
  /-- R81: Branches when two registers are equal. -/
  | beq (ra rb : Reg) (off : BitVec 16)
  /-- R81: Branches when two registers differ. -/
  | bne (ra rb : Reg) (off : BitVec 16)
  /-- R81: Branches when signed less than. -/
  | blt (ra rb : Reg) (off : BitVec 16)
  /-- R81: Branches when signed greater than or equal. -/
  | bge (ra rb : Reg) (off : BitVec 16)
  /-- R81: Branches when unsigned less than. -/
  | bltn (ra rb : Reg) (off : BitVec 16)
  /-- R81: Branches when unsigned greater than or equal. -/
  | bgen (ra rb : Reg) (off : BitVec 16)
  /-- R81: Writes PC+4 to gd and jumps by a word offset. -/
  | jal (rd : Reg) (off : BitVec 21)
  /-- R81: Jumps to a register plus immediate and writes PC+4 to gd. -/
  | jalr (rd ra : Reg) (imm : BitVec 16)
  /-- R82: Issues a zero-extending byte load into the load queue. -/
  | ldB (rd ra : Reg) (imm : BitVec 16)
  /-- R82: Issues a sign-extending byte load. -/
  | ldBs (rd ra : Reg) (imm : BitVec 16)
  /-- R82: Issues a zero-extending halfword load. -/
  | ldH (rd ra : Reg) (imm : BitVec 16)
  /-- R82: Issues a sign-extending halfword load. -/
  | ldHs (rd ra : Reg) (imm : BitVec 16)
  /-- R82: Issues a zero-extending word load. -/
  | ldW (rd ra : Reg) (imm : BitVec 16)
  /-- R82: Issues a sign-extending word load. -/
  | ldWs (rd ra : Reg) (imm : BitVec 16)
  /-- R82: Issues a 64-bit load. -/
  | ldD (rd ra : Reg) (imm : BitVec 16)
  /-- R82: Queues a byte store of the data register. -/
  | stB (rd ra : Reg) (imm : BitVec 16)
  /-- R82: Queues a halfword store. -/
  | stH (rd ra : Reg) (imm : BitVec 16)
  /-- R82: Queues a word store. -/
  | stW (rd ra : Reg) (imm : BitVec 16)
  /-- R82: Queues a 64-bit store. -/
  | stD (rd ra : Reg) (imm : BitVec 16)
  /-- R245: Atomically adds to a 4- or 8-byte word at a scope, returning the old value. -/
  | atomAdd (rd ra rb : Reg) (size : AtomSize) (scope : Scope)
  /-- R245: Atomically swaps a word, returning the old value. -/
  | atomSwap (rd ra rb : Reg) (size : AtomSize) (scope : Scope)
  /-- R245: Atomically compares and swaps a word. -/
  | atomCas (rd ra rb : Reg) (size : AtomSize) (scope : Scope)
  /-- R245: Atomically stores the signed minimum. -/
  | atomMin (rd ra rb : Reg) (size : AtomSize) (scope : Scope)
  /-- R245: Atomically stores the signed maximum. -/
  | atomMax (rd ra rb : Reg) (size : AtomSize) (scope : Scope)
  /-- R245: Atomically ors into a word. -/
  | atomOr (rd ra rb : Reg) (size : AtomSize) (scope : Scope)
  /-- R245: Atomically ands into a word. -/
  | atomAnd (rd ra rb : Reg) (size : AtomSize) (scope : Scope)
  /-- R243: Places markers on the named paths and holds the sequencer until all reach their heads. -/
  | mark (paths : BitVec 7)
  /-- R244: Makes a pending fence holding later pb accesses until earlier pa accesses are performed at the scope. -/
  | fence (pa pb : Path) (scope : Scope)
  /-- R87: Checks a range, walks every page and makes a new LIVE binding in the slot. -/
  | hndBind (rd ra : Reg) (h : Hnd)
  /-- R88: Detaches the slot's LIVE binding, making it DRAINING. -/
  | hndFree (h : Hnd)
  /-- R89: Writes a snapshot of the slot's binding state to gd. -/
  | hndStat (rd : Reg) (h : Hnd)
  /-- R92: Starts an engine stream at an entry, waiting first for a running stream to end or stop. -/
  | engStart (e : Eng) (entry : BitVec 14)
  /-- R93: Requests a stream stop at its next pre-emption boundary without waiting. -/
  | engStop (e : Eng)
  /-- R95: Writes a one-cycle snapshot of a stream's state, wait kind and pc. -/
  | engStat (rd : Reg) (e : Eng)
  /-- R94: Waits while the stream is RUN or WAIT. -/
  | engJoin (e : Eng)
  /-- R98: Waits for an empty store queue, then sets a sync word's target and clears count, code and flags. -/
  | swArm (rd ra : Reg) (h : Hnd)
  /-- R99: Waits until a sync word's generation differs from gd or its code is nonzero. -/
  | swWait (rd ra : Reg) (h : Hnd)
  /-- R100: Reads a sync word's target. -/
  | swReadTarget (rd ra : Reg) (h : Hnd)
  /-- R100: Reads a sync word's count. -/
  | swReadCount (rd ra : Reg) (h : Hnd)
  /-- R100: Reads a sync word's generation. -/
  | swReadGen (rd ra : Reg) (h : Hnd)
  /-- R100: Reads a sync word's error code and flags. -/
  | swReadCode (rd ra : Reg) (h : Hnd)
  /-- R102: Drains the store queue, marks arrival and waits for every rank of the crew. -/
  | crewBar
  /-- R267: Appends a launch block to a core's launch queue, waiting for room. -/
  | wqPush (ra rb : Reg)
  /-- R96: Checks and installs a view descriptor. -/
  | viewSet (v : Fin 8) (ra : Reg)
  /-- R289: Opens a sequencer mend region with a begin snapshot. -/
  | mendOpen
  /-- R290: Copies local-store bytes into the undo buffer for the innermost region. -/
  | mendSave (rd ra : Reg) (h : Hnd)
  /-- R292: Closes the innermost sequencer region after the strike window, handing it up or releasing it. -/
  | mendClose
  /-- R246: Opens a cinch grouping later stores at a scope. -/
  | cinchOpen (scope : Scope)
  /-- R246: Performs the cinch group as one action once earlier stores are performed. -/
  | cinchClose
  /-- R246: Discards the cinch group. -/
  | cinchDrop
  /-- R229: Writes the die's earliest and latest clock bounds after the width check. -/
  | clkRead (rd rb : Reg)
  /-- R229: Holds the sequencer until the earliest bound exceeds a limit. -/
  | clkWait (ra : Reg)
  /-- R205: After the commit wait, stamps with the latest bound and queues a stamped version. -/
  | stStamp (rd ra rb : Reg) (scope : Scope)
  /-- R206: Stalls until t is surely past in scope, then reads the cell version current at t. -/
  | ldAsof (rd ra rb : Reg) (scope : Scope)
  /-- R259: Atomically claims a row of the given phase or returns all ones. -/
  | bilClaim (rd ra : Reg) (h : Hnd)
  /-- R260: Queues a store that advances a busy billet to a new phase. -/
  | bilAdv (rd ra : Reg) (h : Hnd)
  /-- R261: Queues a store that places a free billet into a stage phase. -/
  | bilPost (rd ra : Reg) (h : Hnd)
  /-- R270: When a yield is requested, closes regions, marks the rank yielded and waits for the crew. -/
  | yield
  /-- R103: Reads a control or status register. -/
  | csrRead (rd : Reg) (csr : Csr)
  /-- R103: Writes a writable control register. -/
  | csrWrite (ra : Reg) (csr : Csr)
  /-- R103: Reads and writes a writable control register in one action. -/
  | csrSwap (rd ra : Reg) (csr : Csr)
  /-- R298: Raises a synchronous trap with a program code. -/
  | trap (imm : BitVec 16)
  /-- R299: Returns from a trap, resuming a stopped stream if named. -/
  | tret
  /-- R294: Makes a test strike report pending for a stream after a delay. -/
  | injStrike (st : StreamId) (imm : BitVec 16)
  /-- R104: Does nothing. -/
  | nop
  /-- R104: Waits for streams, queues and regions, then ends the core program. -/
  | endProg
  -- vector engine words (R45)
  /-- R136: Adds lanes. -/
  | vAdd (d a b : TreeOp) (wa wb : Bool)
  /-- R136: Subtracts lanes. -/
  | vSub (d a b : TreeOp) (wa wb : Bool)
  /-- R136: Multiplies lanes. -/
  | vMul (d a b : TreeOp) (wa wb : Bool)
  /-- R136: Fused multiply-add into the destination. -/
  | vFma (d a b : TreeOp) (wa wb : Bool)
  /-- R136: Lane minimum. -/
  | vMin (d a b : TreeOp) (wa wb : Bool)
  /-- R136: Lane maximum. -/
  | vMax (d a b : TreeOp) (wa wb : Bool)
  /-- R136: Lane absolute value. -/
  | vAbs (d a : TreeOp) (wa : Bool)
  /-- R136: Lane negation. -/
  | vNeg (d a : TreeOp) (wa : Bool)
  /-- R137: Lane bitwise and. -/
  | vAnd (d a b : TreeOp) (wa wb : Bool)
  /-- R137: Lane bitwise or. -/
  | vOr (d a b : TreeOp) (wa wb : Bool)
  /-- R137: Lane bitwise exclusive or. -/
  | vXor (d a b : TreeOp) (wa wb : Bool)
  /-- R137: Lane shift left. -/
  | vShl (d a b : TreeOp) (wa wb : Bool)
  /-- R137: Lane logical shift right. -/
  | vShr (d a b : TreeOp) (wa wb : Bool)
  /-- R137: Lane arithmetic shift right. -/
  | vSar (d a b : TreeOp) (wa wb : Bool)
  /-- R138: Writes a mask of lanes that compare equal. -/
  | vCmpeq (n : Fin 8) (a b : TreeOp) (wa wb : Bool)
  /-- R138: Writes a mask of lanes that compare less than. -/
  | vCmplt (n : Fin 8) (a b : TreeOp) (wa wb : Bool)
  /-- R138: Writes a mask of lanes that compare less or equal. -/
  | vCmple (n : Fin 8) (a b : TreeOp) (wa wb : Bool)
  /-- R139: Selects lanes from two sources by the SHAPE mask. -/
  | vSel (d a b : TreeOp) (wa wb : Bool)
  /-- R141: Converts lanes to another type. -/
  | vCvt (d a : TreeOp) (t : EType) (wa : Bool)
  /-- R136: Adds a signed immediate to lanes. -/
  | vAddi (d a : TreeOp) (wa : Bool) (imm : BitVec 9)
  /-- R136: Multiplies lanes by a signed immediate. -/
  | vMuli (d a : TreeOp) (wa : Bool) (imm : BitVec 9)
  /-- R136: Writes an immediate to every active lane. -/
  | vMovi (d : TreeOp) (imm : BitVec 9)
  /-- R142: Broadcasts one lane to all active lanes. -/
  | vBcast (d a : TreeOp) (wa : Bool) (imm : BitVec 9)
  /-- R142: Permutes lanes by an index vector. -/
  | vPerm (d a b : TreeOp) (wa wb : Bool)
  /-- R143: Sums active lanes by the fixed tree. -/
  | vRedsum (d a : TreeOp) (wa : Bool)
  /-- R143: Reduces active lanes to their maximum. -/
  | vRedmax (d a : TreeOp) (wa : Bool)
  /-- R143: Reduces active lanes to their minimum. -/
  | vRedmin (d a : TreeOp) (wa : Bool)
  /-- R144: Writes the winning value and its lane index. -/
  | vArgmax (d a : TreeOp) (wa : Bool)
  /-- R145: Loads lanes from a local store through a handle. -/
  | vLd (d : TreeOp) (h : Hnd) (j : KIx)
  /-- R145: Stores active lanes to a local store through a handle. -/
  | vSt (d : TreeOp) (h : Hnd) (j : KIx) (wa : Bool)
  /-- R146: Loads lanes from indexed elements of a binding. -/
  | vGather (d a : TreeOp) (h : Hnd) (wa : Bool)
  /-- R146: Stores lanes to indexed elements, higher lanes last. -/
  | vScatter (d a : TreeOp) (h : Hnd) (wa wb : Bool)
  /-- R150: Table estimate of the reciprocal. -/
  | vRcpa (d a : TreeOp) (wa : Bool)
  /-- R150: Table estimate of the reciprocal square root. -/
  | vRsqa (d a : TreeOp) (wa : Bool)
  /-- R151: Refines a reciprocal estimate. -/
  | vRcpf (d a b : TreeOp) (wa wb : Bool)
  /-- R151: Refines a reciprocal square root estimate. -/
  | vRsqf (d a b : TreeOp) (wa wb : Bool)
  /-- R152: Circular CORDIC rotation. -/
  | vCorCrot (d a : TreeOp) (wa : Bool) (n : BitVec 5)
  /-- R152: Circular CORDIC vectoring. -/
  | vCorCvec (d a : TreeOp) (wa : Bool) (n : BitVec 5)
  /-- R152: Hyperbolic CORDIC rotation. -/
  | vCorHrot (d a : TreeOp) (wa : Bool) (n : BitVec 5)
  /-- R152: Hyperbolic CORDIC vectoring. -/
  | vCorHvec (d a : TreeOp) (wa : Bool) (n : BitVec 5)
  /-- R152: Linear CORDIC rotation. -/
  | vCorLrot (d a : TreeOp) (wa : Bool) (n : BitVec 5)
  /-- R152: Linear CORDIC vectoring. -/
  | vCorLvec (d a : TreeOp) (wa : Bool) (n : BitVec 5)
  /-- R155: Maps Q8 logits to P16 probabilities. -/
  | vSigq (d a : TreeOp) (wa : Bool)
  /-- R156: Builds a cumulative frequency table per lane. -/
  | vCdfq (d a : TreeOp) (wa : Bool)
  /-- R157: Writes the keyed hash of each lane's counter. -/
  | vHash (d a b : TreeOp) (wa wb : Bool)
  /-- R158: Writes keyed Gumbel noise per lane. -/
  | vNoise (d a b : TreeOp) (wa wb : Bool)
  /-- R137: Turns bits of a 2,048-bit string into lane masks. -/
  | vBitt (d a : TreeOp) (wa : Bool) (imm : BitVec 9)
  /-- R137: Lane leading-zero count. -/
  | vClz (d a : TreeOp) (wa : Bool)
  /-- R137: Lane population count. -/
  | vPopc (d a : TreeOp) (wa : Bool)
  /-- R131: Sets SHAPE type and lane count with mask off. -/
  | vShape (t : EType) (lanes : BitVec 9)
  /-- R131: Sets SHAPE type, lane count and governing mask. -/
  | vShapeMasked (n : Fin 8) (t : EType) (lanes : BitVec 9)
  /-- R140: Ands two mask registers. -/
  | vMaskAnd (d a b : Fin 8)
  /-- R140: Ors two mask registers. -/
  | vMaskOr (d a b : Fin 8)
  /-- R140: Exclusive-ors two mask registers. -/
  | vMaskXor (d a b : Fin 8)
  /-- R140: Ands a mask with the complement of another. -/
  | vMaskAndn (d a b : Fin 8)
  /-- R140: Complements a mask register. -/
  | vMaskNot (d a : Fin 8)
  /-- R140: Sets a mask register to all ones. -/
  | vMaskSet (d : Fin 8)
  /-- R140: Clears a mask register. -/
  | vMaskClear (d : Fin 8)
  /-- R47: Zeroes a k register and sets its loop limit. -/
  | vLoop (k : KIx) (n : BitVec 23)
  /-- R47: Increments a k register and branches while below its limit. -/
  | vBr (k : KIx) (off : BitVec 23)
  /-- R47: Sets a k register to an immediate. -/
  | vKop (k : KIx) (v : BitVec 21)
  /-- R47: Adds a signed immediate to a k register. -/
  | vKopAdd (k : KIx) (v : BitVec 21)
  /-- R47: Copies one k register to another. -/
  | vKopMov (k i : KIx)
  /-- R304: Opens a vector mend region after VP accesses drain. -/
  | vMendOpen
  /-- R304: Saves tree lines into the undo buffer. -/
  | vMendSave (k : KIx) (n : BitVec 12)
  /-- R307: Closes a vector mend region after the strike window. -/
  | vMendClose
  /-- R18: Ends the vector stream once its operations complete. -/
  | vEnd
  /-- R190: Initialises decoder lanes and reads four stream bytes. -/
  | rcInitDec (c : TreeOp) (h : Hnd)
  /-- R195: Initialises encoder lanes. -/
  | rcInitEnc (c : TreeOp) (h : Hnd)
  /-- R191: Decodes one binary symbol per active lane. -/
  | rcDec (c a b : TreeOp) (wa : Bool)
  /-- R198: Decodes one table symbol per active lane. -/
  | rcDecm (c a b : TreeOp) (wa : Bool)
  /-- R196: Encodes one binary symbol per active lane. -/
  | rcEnc (c a b : TreeOp) (wa wb : Bool)
  /-- R198: Encodes one table symbol per active lane. -/
  | rcEncm (c a b : TreeOp) (wa wb : Bool)
  /-- R199: Writes out an encoder lane's final bytes and resets it. -/
  | rcFlush (c : TreeOp)
  /-- R192: Copies lane state into its shadow slot and sets SPEC. -/
  | rcSpec (c : TreeOp)
  /-- R192: Clears SPEC, discarding the shadow. -/
  | rcKeep (c : TreeOp)
  /-- R192: Restores speculating lanes from their shadow slots. -/
  | rcUndo (c : TreeOp)
  /-- R202: Writes each lane's END, SPEC, VALID and ROOM. -/
  | rcStat (c b : TreeOp)
  /-- R147: Waits until earlier VP accesses are performed. -/
  | vMark
  -- matrix engine words (R48)
  /-- R107: Opens a reduction and takes its begin snapshot. -/
  | mBegin (mode : MatMode) (n : BitVec 11)
  /-- R108: Zeroes every accumulator. -/
  | mZero
  /-- R109: Loads accumulators of in-segment rows from an I32 tile. -/
  | mLdacc (t : TreeOp) (w : Bool)
  /-- R113: Performs one ternary k-step. -/
  | mAcc (t : TreeOp) (row : BitVec 12) (w : Bool)
  /-- R113: Performs one INT8 k-step over declared planes. -/
  | mAcc8 (t : TreeOp) (row : BitVec 12) (planes : Fin 8) (w : Bool)
  /-- R116: Performs one 2:4 sparse ternary k-step. -/
  | mAccsTern (t : TreeOp) (row : BitVec 12) (w : Bool)
  /-- R116: Performs one 2:4 sparse INT8 k-step. -/
  | mAccsInt8 (t : TreeOp) (row : BitVec 12) (planes : Fin 8) (w : Bool)
  /-- R110: Loads and checks a segment record. -/
  | mSeg (t : TreeOp) (w : Bool)
  /-- R111: Loads row and column scales. -/
  | mScale (a b : TreeOp) (w : Bool)
  /-- R118: Retires the scaled tile as F32 into a holding slot. -/
  | mRetF32 (t : TreeOp)
  /-- R118: Retires the scaled tile as BF16 into a holding slot. -/
  | mRetBf16 (t : TreeOp)
  /-- R118: Retires the scaled tile added to the destination's F32 values. -/
  | mRetF32Add (t : TreeOp)
  /-- R118: Retires saturated I32 accumulators into a holding slot. -/
  | mRetraw (t : TreeOp)
  /-- R112: Sets the weight-buffer base row. -/
  | mWbase (row : BitVec 12)
  /-- R47: Starts a matrix k-register loop. -/
  | mLoop (k : KIx) (n : BitVec 23)
  /-- R47: Matrix loop branch. -/
  | mBr (k : KIx) (off : BitVec 23)
  /-- R47: Sets a matrix k register. -/
  | mKop (k : KIx) (v : BitVec 21)
  /-- R47: Adds to a matrix k register. -/
  | mKopAdd (k : KIx) (v : BitVec 21)
  /-- R47: Copies a matrix k register. -/
  | mKopMov (k i : KIx)
  /-- R121: Sets a pending perturbation for the next reduction. -/
  | mPert (row col : BitVec 6) (j : KIx)
  /-- R122: Ends the matrix stream once its slots are released. -/
  | mEnd
  -- transfer engine words (R50)
  /-- R166: Starts a linear or row copy between endpoints. -/
  | xCopy (d s : EndPt) (l : KIx)
  /-- R165: Sets a shape field from an immediate. -/
  | xShapeImm (f : ShapeField) (v : BitVec 21)
  /-- R165: Sets a shape field from a k register. -/
  | xShapeReg (f : ShapeField) (j : KIx)
  /-- R172: Emits patch rows of a convolution window. -/
  | xUnfold (d s : EndPt) (n : KIx)
  /-- R171: Sets a window field from an immediate. -/
  | xWinImm (f : WinField) (v : BitVec 21)
  /-- R171: Sets a window field from a k register. -/
  | xWinReg (f : WinField) (j : KIx)
  /-- R173: Unpacks T5P coded blocks to I8 trits. -/
  | xUnpackT5p (d s : EndPt) (l : KIx)
  /-- R173: Unpacks block-scaled I8 to BF16 or F32. -/
  | xUnpackBsi8 (d s : EndPt) (l : KIx)
  /-- R173: Unpacks 2:4 sparse I8 blocks. -/
  | xUnpackSp24 (d s : EndPt) (l : KIx)
  /-- R173: Unpacks zero-run coded blocks. -/
  | xUnpackZrun (d s : EndPt) (l : KIx)
  /-- R170: Converts elements between shape types. -/
  | xConv (d s : EndPt) (l : KIx)
  /-- R176: Multicasts bytes into the quad's multicast windows. -/
  | xMcast (d s : EndPt) (l : KIx)
  /-- R168: Gathers elements by an index list in the tree. -/
  | xGather (d s : EndPt) (l i : KIx)
  /-- R168: Scatters elements by an index list in the tree. -/
  | xScatter (d s : EndPt) (l i : KIx)
  /-- R167: Fills a destination with a 32-bit pattern. -/
  | xFill (d : EndPt) (l v : KIx)
  /-- R169: Writes bytes into weight-buffer rows. -/
  | xWbfill (row : BitVec 12) (s : EndPt) (l : KIx)
  /-- R180: Attaches a sync word to the open batch, opening a new batch if needed. -/
  | xSync (h : Hnd) (j : KIx)
  /-- R180: Closes an open batch that has a sync word. -/
  | xSyncDetach
  /-- R179: Closes the open batch. -/
  | xClose
  /-- R179: Closes the open batch and waits until at most n batches are outstanding. -/
  | xWait (n : BitVec 16)
  /-- R185: Hands an I32 sum collective to the collective engine. -/
  | xCollSumI32 (scope : Scope) (e : EndPt) (l i : KIx)
  /-- R185: Hands an F32 tree-sum collective to the collective engine. -/
  | xCollSumF32 (scope : Scope) (e : EndPt) (l i : KIx)
  /-- R185: Hands a broadcast collective to the collective engine. -/
  | xCollBcast (scope : Scope) (e : EndPt) (l i : KIx)
  /-- R185: Hands an argmax collective to the collective engine. -/
  | xCollArgmax (scope : Scope) (e : EndPt) (l i : KIx)
  /-- R47: Starts a transfer k-register loop. -/
  | xLoop (k : KIx) (n : BitVec 23)
  /-- R47: Transfer loop branch. -/
  | xBr (k : KIx) (off : BitVec 23)
  /-- R47: Sets a transfer k register. -/
  | xKop (k : KIx) (v : BitVec 21)
  /-- R47: Adds to a transfer k register. -/
  | xKopAdd (k : KIx) (v : BitVec 21)
  /-- R47: Copies a transfer k register. -/
  | xKopMov (k i : KIx)
  /-- R304: Opens a transfer mend region after earlier operations complete. -/
  | xMendOpen
  /-- R304: Saves tree lines for a transfer region. -/
  | xMendSave (k : KIx) (n : BitVec 12)
  /-- R307: Closes a transfer mend region after the strike window. -/
  | xMendClose
  /-- R186: Waits until every earlier operation has completed. -/
  | xMark
  /-- R18: Closes the batch, waits for all batches and ends the transfer stream. -/
  | xEnd
  -- steps without a word of their own
  /-- R17: An awaited line, register, sync word, barrier or queue condition holds and the waiting instruction issues. -/
  | waitSatisfied (core : Nat) (st : StreamId)
  /-- R322: A stream named by eng.stop reaches its boundary, ends unfinished operations and writes its stop record. -/
  | stopBoundaryReached (core : Nat) (e : Eng)
  /-- R296: The sequencer takes a pending asynchronous trap at an instruction boundary. -/
  | trapEntry (core : Nat)
  /-- R313: Once every halt record is written, the firmware posts the halted event. -/
  | haltComplete (ctx : Nat)
  /-- R84: A load's data returns and writes its register, or DATA_LOST traps or rolls back. -/
  | loadReturn (core : Nat)
  /-- R83: A queued store is written at its memory and frees its entry. -/
  | storePerformed (core : Nat)
  /-- R205: A stamped version is written once every earliest bound in scope exceeds its stamp. -/
  | stampedStorePerformed (core : Nat)
  /-- R244: A pending fence completes and releases the accesses it held. -/
  | fenceComplete (core n : Nat)
  /-- R214: A page walk finishes, succeeding or faulting. -/
  | walkComplete (core n : Nat)
  /-- R149: An in-flight v.ld or v.gather writes its destination lines. -/
  | vectorLoadLand (part : VpPart)
  /-- R147: A VP store or stream byte write is performed at its memory. -/
  | vpAccessPerformed (part : VpPart)
  /-- R160: The transfer engine takes a block's source lines and hands the block to the data path. -/
  | transferBlockIssue (core : Nat)
  /-- R160: A block lands its bytes, marks lines full and may complete its operation. -/
  | transferBlockLand (core : Nat) (l : Landing)
  /-- R185: Once all participants have issued, the collective engine writes the result to every endpoint. -/
  | collectiveResult (core op : Nat) (remote : List Remote)
  /-- R119: A holding slot older than D with no pending strike writes its tile to the tree. -/
  | holdingSlotRelease (core : Nat)
  /-- R307: An outermost close whose wait is met performs held effects, deferred marks and flags. -/
  | mendRelease (core : Nat) (st : StreamId)
  /-- R303: A soft-error strike hits device logic and is sensed. -/
  | softErrorStrike (part : StruckPart)
  /-- R311: A strike report is delivered to a core's streams, rolling back or failing at command level. -/
  | strikeReport (core : Nat)
  /-- R294: An injected strike's delay expires and its report is delivered. -/
  | injectedStrikeDue (core : Nat) (st : StreamId)
  /-- R22: A waiting launch is placed once all its cores and resources are free. -/
  | crewPlacement (n : Nat) (cores : List Nat)
  /-- R268: A free core takes the head of its launch queue and places or refuses the crew. -/
  | launchBlockTaken (core : Nat) (cores : List Nat)
  /-- R266: At its interval the scheduler moves cores between stages. -/
  | schedulerDecision (ctx : Nat) (cores withdraw : List Nat)
  /-- R264: The home scheduler block reads a billet row and updates counts. -/
  | schedulerScanRow (ctx : Nat)
  /-- R271: YDL reaches 0 with a request open and forced pre-emption of the crew begins. -/
  | ydlExpiry (crew : Nat)
  /-- R272: Once every stream is at its boundary, the crew's state is written to the save area. -/
  | crewSave (crew : Nat)
  /-- R273: A pre-empted crew resumes on its cores once they are free. -/
  | crewResume (crew : Nat)
  /-- R128: A new 256-cycle governor window begins with a fresh issue budget, no more than a local excess allows (R236). -/
  | budgetWindow (core budget : Nat)
  /-- R226: A host precision time exchange yields bounds that correct the clock. -/
  | ptmExchange (lo hi : Int)
  /-- R227: A die-to-die time word corrects a die's clock and updates the package floor. -/
  | dieTimeWord (die : Fin 4) (lo hi : Int)
  /-- R233: Every 1 µs a TIMEFRAME goes out on every port, with a HEARTBEAT every tenth. -/
  | timeframeSend
  /-- R233: A received time frame corrects the clock and the time floor. -/
  | timeframe (f : TimeFrame) (lo hi : Int)
  /-- R233: A received heartbeat carries a member's agreement and limit. -/
  | heartbeat (member agreement limit : Nat)
  /-- R232: A received limit notice is acknowledged and recorded. -/
  | limit (member limit : Nat) (stamp : LimitStamp)
  /-- R233: A received acknowledgement of a notice, join or leave. -/
  | ack (member : Nat) (what : AckOf)
  /-- R234: A received join request from a device, or its announcement of the join stamp. -/
  | join (device : Nat) (joiner : Joiner)
  /-- R234: A received leave or removal notice. -/
  | leave (member : Nat) (stamp : Int)
  /-- R235: A received silence notice applies the floor agreement. -/
  | silent (sender member : Nat) (stamp : Int) (agreement : Nat)
  /-- R235: A received confirmation of silence, possibly triggering a removal. -/
  | confirm (sender member : Nat)
  /-- R232: The power and clock controller issues a LIMIT notice before a limit bites. -/
  | limitForecast (limit : Nat)
  /-- R232: Acknowledgements are missing by stamp minus 10 µs and the notice is resent. -/
  | limitAckTimeout
  /-- R232: The earliest bound passes a notice's stamp and the next agreement forms. -/
  | limitStampPassed
  /-- R231: Every 0.5 µs of a ramp the clock moves 25 MHz. -/
  | rampStep
  /-- R234: An ACK is missing 100 µs after JOIN and the join fails. -/
  | joinAckTimeout
  /-- R234: The joiner's earliest bound passes the join stamp and it becomes IN. -/
  | joinStampPassed
  /-- R234: The leave stamp passes and the device is out. -/
  | leaveStampPassed
  /-- R235: A member has heard no TIMEFRAME for 100 µs and applies the floor and sends SILENT. -/
  | silenceDetected (member : Nat)
  /-- R238: All fabric ports go down and the device is cut from its group. -/
  | fabricPortsDown
  /-- R240: The host reads or writes partition memory over CXL.mem on the HP path. -/
  | hostCxlMemAccess (a : HostAccess)
  /-- R277: The host writes a producer index and the firmware consumes submission slots. -/
  | notifyWrite (q : Fin 64) (n : BitVec 32)
  /-- R275: Setting enable latches a queue interface's configuration and resets its indices. -/
  | interfaceEnable (q : Fin 64) (v : Word)
  /-- R275: A host write to a BAR0 register with no behaviour of its own. -/
  | bar0RegisterWrite (off : Nat) (v : Word)
  /-- R282: Builds a partition with keys, stage-2 table, decoder and share. -/
  | partCreate (q : Fin 64) (p : Packet)
  /-- R280: Destroys a partition's contexts and scrubs its resources. -/
  | partDestroy (q : Fin 64) (p : Packet)
  /-- R280: Creates a context and returns its number. -/
  | ctxCreate (q : Fin 64) (p : Packet)
  /-- R280: Halts, discards, unmaps, scrubs and releases a context. -/
  | ctxDestroy (q : Fin 64) (p : Packet)
  /-- R280: Checks a kernel object and places its sections, image and template. -/
  | load (q : Fin 64) (p : Packet)
  /-- R280: Checks a launch packet and queues the crew for placement. -/
  | launch (q : Fin 64) (p : Packet)
  /-- R257: Checks and declares a harness and launches minimum instances. -/
  | harness (q : Fin 64) (p : Packet)
  /-- R280: Stops scheduling and discards pre-empted instances. -/
  | harnessEnd (q : Fin 64) (p : Packet)
  /-- R217: Lets a held sequencer instruction re-execute its translation. -/
  | resolve (q : Fin 64) (p : Packet)
  /-- R217: Halts the context with BOUNDS for a translation fault. -/
  | refuse (q : Fin 64) (p : Packet)
  /-- R219: Revokes bindings over a page and completes when in-flight accesses drain. -/
  | unmap (q : Fin 64) (p : Packet)
  /-- R286: Saves covered crews and writes an encrypted signed memory image to the host. -/
  | checkpoint (q : Fin 64) (p : Packet)
  /-- R287: Checks a checkpoint image, writes it back and resumes crews. -/
  | restore (q : Fin 64) (p : Packet)
  /-- R226: Sets the time base once per boot at the next PTM exchange. -/
  | timeSet (q : Fin 64) (p : Packet)
  /-- R234: Starts joining a collective group. -/
  | groupJoin (q : Fin 64) (p : Packet)
  /-- R234: Starts leaving the collective group. -/
  | groupLeave (q : Fin 64) (p : Packet)
  /-- R280: Binds a collective identifier to a crew for GROUP scope. -/
  | collBind (q : Fin 64) (p : Packet)
  /-- R314: Halts a context with debug permission. -/
  | debugHalt (q : Fin 64) (p : Packet)
  /-- R314: Drains holding buffers and resumes a debug-halted context. -/
  | debugResume (q : Fin 64) (p : Packet)
  /-- R314: Copies a halted context's save areas and holding buffers to the host. -/
  | debugReadState (q : Fin 64) (p : Packet)
  /-- R280: Copies up to 64 error-log entries to the host. -/
  | logRead (q : Fin 64) (p : Packet)
  /-- R284: Writes a signed attestation report. -/
  | attest (q : Fin 64) (p : Packet)
  /-- R283: Checks and accepts a signed configuration image. -/
  | config (q : Fin 64) (p : Packet)
  /-- R283: Checks and accepts a signed firmware patch. -/
  | patch (q : Fin 64) (p : Packet)
  /-- R285: The Flopor die boots through its stages. -/
  | powerOn
  /-- R288: A die reaches 105 °C and its issue budget is lowered. -/
  | dieOver105c (die : Fin 4) (budget : Nat)
  /-- R288: A die reaches 115 °C and the device halts every context and drops its rails. -/
  | dieOver115c (die : Fin 4)
  /-- R125: An engine detects a parity error in its own logic and rolls back its innermost region or unreleased reduction. -/
  | engineParityError (core : Nat) (e : Eng)
  /-- R292: An inner mend.close's D-cycle window passes with no strike report pending, and the region hands its state to the enclosing region. -/
  | innerClose (core : Nat) (st : StreamId)
  /-- R237: A fabric receiver drops a flit that fails its check and asks the sender to replay it. -/
  | droppedFlit (port : Fin 12)
  /-- R237: A single fabric port's link goes down or comes back up, and its state is recorded in the error log. -/
  | fabricPortLinkChange (port : Fin 12) (up : Bool)
  deriving DecidableEq, Repr

end Sys2Proof
end

