-- ==== Sys2Proof/WellFormed.lean ====
section
/-!
DEFINITION. Which instructions have a word: the field ranges of R36, R39, R45, R47, R48 and R50 that the operand types
do not already hold. An event has no word, and is well-formed as it stands.
-/
namespace Sys2Proof

/-- Element width in bytes (R46, R59, R64, R67). -/
def EType.width : EType → Nat
  | .i8 => 1
  | .n8 => 1
  | .i16 => 2
  | .n16 => 2
  | .i32 => 4
  | .n32 => 4
  | .bf16 => 2
  | .f32 => 4
  | .e4m3u => 1

/-- The registers that `csr.write` and `csr.swap` accept (R103). -/
def Csr.writable : Csr → Bool
  | .tvec => true
  | .tcause => true
  | .taddr => true
  | .tpc => true
  | .clkmax => true
  | .ceil => false
  | .govstall => true
  | .yreq => false
  | .ydl => false
  | .menddepth => false
  | .mendretry => true
  | .coreId => false
  | .dieId => false
  | .crewSize => false
  | .crewRank => false
  | .ctxId => false
  | .encv => false
  | .flags => true

/-- A handle endpoint names handle 1 to 63 (R49). -/
def EndPt.wf : EndPt → Bool
  | .tree _ => true
  | .hnd h _ => decide (h ≠ 0)

/-- Lane counts that `v.shape` holds: 1 to the type's limit (R45, R131). -/
def lanesOk (t : EType) (l : BitVec 9) : Bool :=
  decide (1 ≤ l.toNat) && decide (l.toNat * t.width ≤ 256)

/-- Line counts that an engine `mend.save` holds: 1 to 2,048 (R47). -/
def saveOk (n : BitVec 12) : Bool :=
  decide (1 ≤ n.toNat) && decide (n.toNat ≤ 2048)

/-- The field ranges of one instruction. -/
def Instr.wf : Instr → Bool
  | .add _ _ _ => true
  | .sub _ _ _ => true
  | .and _ _ _ => true
  | .or _ _ _ => true
  | .xor _ _ _ => true
  | .shl _ _ _ => true
  | .shr _ _ _ => true
  | .sar _ _ _ => true
  | .slt _ _ _ => true
  | .sltn _ _ _ => true
  | .min _ _ _ => true
  | .max _ _ _ => true
  | .minn _ _ _ => true
  | .maxn _ _ _ => true
  | .mul _ _ _ => true
  | .mulh _ _ _ => true
  | .mulhn _ _ _ => true
  | .div _ _ _ => true
  | .divn _ _ _ => true
  | .rem _ _ _ => true
  | .remn _ _ _ => true
  | .clz _ _ => true
  | .popc _ _ => true
  | .addi _ _ _ => true
  | .andi _ _ _ => true
  | .ori _ _ _ => true
  | .xori _ _ _ => true
  | .shli _ _ _ => true
  | .shri _ _ _ => true
  | .sari _ _ _ => true
  | .slti _ _ _ => true
  | .movi _ _ => true
  | .movk _ _ _ => true
  | .beq _ _ _ => true
  | .bne _ _ _ => true
  | .blt _ _ _ => true
  | .bge _ _ _ => true
  | .bltn _ _ _ => true
  | .bgen _ _ _ => true
  | .jal _ _ => true
  | .jalr _ _ _ => true
  | .ldB _ _ _ => true
  | .ldBs _ _ _ => true
  | .ldH _ _ _ => true
  | .ldHs _ _ _ => true
  | .ldW _ _ _ => true
  | .ldWs _ _ _ => true
  | .ldD _ _ _ => true
  | .stB _ _ _ => true
  | .stH _ _ _ => true
  | .stW _ _ _ => true
  | .stD _ _ _ => true
  | .atomAdd _ _ _ _ _ => true
  | .atomSwap _ _ _ _ _ => true
  | .atomCas _ _ _ _ _ => true
  | .atomMin _ _ _ _ _ => true
  | .atomMax _ _ _ _ _ => true
  | .atomOr _ _ _ _ _ => true
  | .atomAnd _ _ _ _ _ => true
  | .mark paths => decide (paths ≠ 0)
  | .fence _ _ _ => true
  | .hndBind _ _ h => decide (h ≠ 0)
  | .hndFree h => decide (h ≠ 0)
  | .hndStat _ h => decide (h ≠ 0)
  | .engStart _ _ => true
  | .engStop _ => true
  | .engStat _ _ => true
  | .engJoin _ => true
  | .swArm _ _ _ => true
  | .swWait _ _ _ => true
  | .swReadTarget _ _ _ => true
  | .swReadCount _ _ _ => true
  | .swReadGen _ _ _ => true
  | .swReadCode _ _ _ => true
  | .crewBar => true
  | .wqPush _ _ => true
  | .viewSet _ _ => true
  | .mendOpen => true
  | .mendSave _ _ h => decide (h ≠ 0)
  | .mendClose => true
  | .cinchOpen _ => true
  | .cinchClose => true
  | .cinchDrop => true
  | .clkRead _ _ => true
  | .clkWait _ => true
  | .stStamp _ _ _ _ => true
  | .ldAsof _ _ _ _ => true
  | .bilClaim _ _ _ => true
  | .bilAdv _ _ _ => true
  | .bilPost _ _ _ => true
  | .yield => true
  | .csrRead _ _ => true
  | .csrWrite _ c => c.writable
  | .csrSwap _ _ c => c.writable
  | .trap imm => decide (imm.toNat ≥ 0x8000)
  | .tret => true
  | .injStrike _ _ => true
  | .nop => true
  | .endProg => true
  | .vAdd _ _ _ _ _ => true
  | .vSub _ _ _ _ _ => true
  | .vMul _ _ _ _ _ => true
  | .vFma _ _ _ _ _ => true
  | .vMin _ _ _ _ _ => true
  | .vMax _ _ _ _ _ => true
  | .vAbs _ _ _ => true
  | .vNeg _ _ _ => true
  | .vAnd _ _ _ _ _ => true
  | .vOr _ _ _ _ _ => true
  | .vXor _ _ _ _ _ => true
  | .vShl _ _ _ _ _ => true
  | .vShr _ _ _ _ _ => true
  | .vSar _ _ _ _ _ => true
  | .vCmpeq _ _ _ _ _ => true
  | .vCmplt _ _ _ _ _ => true
  | .vCmple _ _ _ _ _ => true
  | .vSel _ _ _ _ _ => true
  | .vCvt _ _ _ _ => true
  | .vAddi _ _ _ _ => true
  | .vMuli _ _ _ _ => true
  | .vMovi _ _ => true
  | .vBcast _ _ _ _ => true
  | .vPerm _ _ _ _ _ => true
  | .vRedsum _ _ _ => true
  | .vRedmax _ _ _ => true
  | .vRedmin _ _ _ => true
  | .vArgmax _ _ _ => true
  | .vLd _ h _ => decide (h ≠ 0)
  | .vSt _ h _ _ => decide (h ≠ 0)
  | .vGather _ _ _ _ => true
  | .vScatter _ _ _ _ _ => true
  | .vRcpa _ _ _ => true
  | .vRsqa _ _ _ => true
  | .vRcpf _ _ _ _ _ => true
  | .vRsqf _ _ _ _ _ => true
  | .vCorCrot _ _ _ n => decide (4 ≤ n.toNat) && decide (n.toNat ≤ 30)
  | .vCorCvec _ _ _ n => decide (4 ≤ n.toNat) && decide (n.toNat ≤ 30)
  | .vCorHrot _ _ _ n => decide (4 ≤ n.toNat) && decide (n.toNat ≤ 30)
  | .vCorHvec _ _ _ n => decide (4 ≤ n.toNat) && decide (n.toNat ≤ 30)
  | .vCorLrot _ _ _ n => decide (4 ≤ n.toNat) && decide (n.toNat ≤ 30)
  | .vCorLvec _ _ _ n => decide (4 ≤ n.toNat) && decide (n.toNat ≤ 30)
  | .vSigq _ _ _ => true
  | .vCdfq _ _ _ => true
  | .vHash _ _ _ _ _ => true
  | .vNoise _ _ _ _ _ => true
  | .vBitt _ _ _ _ => true
  | .vClz _ _ _ => true
  | .vPopc _ _ _ => true
  | .vShape t l => lanesOk t l
  | .vShapeMasked _ t l => lanesOk t l
  | .vMaskAnd _ _ _ => true
  | .vMaskOr _ _ _ => true
  | .vMaskXor _ _ _ => true
  | .vMaskAndn _ _ _ => true
  | .vMaskNot _ _ => true
  | .vMaskSet _ => true
  | .vMaskClear _ => true
  | .vLoop _ n => decide (n ≠ 0)
  | .vBr _ _ => true
  | .vKop _ _ => true
  | .vKopAdd _ _ => true
  | .vKopMov _ _ => true
  | .vMendOpen => true
  | .vMendSave _ n => saveOk n
  | .vMendClose => true
  | .vEnd => true
  | .rcInitDec _ _ => true
  | .rcInitEnc _ _ => true
  | .rcDec _ _ _ _ => true
  | .rcDecm _ _ _ _ => true
  | .rcEnc _ _ _ _ _ => true
  | .rcEncm _ _ _ _ _ => true
  | .rcFlush _ => true
  | .rcSpec _ => true
  | .rcKeep _ => true
  | .rcUndo _ => true
  | .rcStat _ _ => true
  | .vMark => true
  | .mBegin _ n => decide (1 ≤ n.toNat) && decide (n.toNat ≤ 1024)
  | .mZero => true
  | .mLdacc _ _ => true
  | .mAcc _ _ _ => true
  | .mAcc8 _ _ _ _ => true
  | .mAccsTern _ _ _ => true
  | .mAccsInt8 _ _ _ _ => true
  | .mSeg _ _ => true
  | .mScale _ _ _ => true
  | .mRetF32 _ => true
  | .mRetBf16 _ => true
  | .mRetF32Add _ => true
  | .mRetraw _ => true
  | .mWbase _ => true
  | .mLoop _ n => decide (n ≠ 0)
  | .mBr _ _ => true
  | .mKop _ _ => true
  | .mKopAdd _ _ => true
  | .mKopMov _ _ => true
  | .mPert _ _ _ => true
  | .mEnd => true
  | .xCopy d s _ => d.wf && s.wf
  | .xShapeImm _ _ => true
  | .xShapeReg _ _ => true
  | .xUnfold d s _ => d.wf && s.wf
  | .xWinImm _ _ => true
  | .xWinReg _ _ => true
  | .xUnpackT5p d s _ => d.wf && s.wf
  | .xUnpackBsi8 d s _ => d.wf && s.wf
  | .xUnpackSp24 d s _ => d.wf && s.wf
  | .xUnpackZrun d s _ => d.wf && s.wf
  | .xConv d s _ => d.wf && s.wf
  | .xMcast d s _ => d.wf && s.wf
  | .xGather d s _ _ => d.wf && s.wf
  | .xScatter d s _ _ => d.wf && s.wf
  | .xFill d _ _ => d.wf
  | .xWbfill _ s _ => s.wf
  | .xSync h _ => decide (h ≠ 0)
  | .xSyncDetach => true
  | .xClose => true
  | .xWait _ => true
  | .xCollSumI32 _ e _ _ => e.wf
  | .xCollSumF32 _ e _ _ => e.wf
  | .xCollBcast _ e _ _ => e.wf
  | .xCollArgmax _ e _ _ => e.wf
  | .xLoop _ n => decide (n ≠ 0)
  | .xBr _ _ => true
  | .xKop _ _ => true
  | .xKopAdd _ _ => true
  | .xKopMov _ _ => true
  | .xMendOpen => true
  | .xMendSave _ n => saveOk n
  | .xMendClose => true
  | .xMark => true
  | .xEnd => true
  | .waitSatisfied _ _ => true
  | .stopBoundaryReached _ _ => true
  | .trapEntry _ => true
  | .haltComplete _ => true
  | .loadReturn _ => true
  | .storePerformed _ => true
  | .stampedStorePerformed _ => true
  | .fenceComplete _ _ => true
  | .walkComplete _ _ => true
  | .vectorLoadLand _ => true
  | .vpAccessPerformed _ => true
  | .transferBlockIssue _ => true
  | .transferBlockLand _ _ => true
  | .collectiveResult _ _ _ => true
  | .holdingSlotRelease _ => true
  | .mendRelease _ _ => true
  | .softErrorStrike _ => true
  | .strikeReport _ => true
  | .injectedStrikeDue _ _ => true
  | .crewPlacement _ _ => true
  | .launchBlockTaken _ _ => true
  | .schedulerDecision _ _ _ => true
  | .schedulerScanRow _ => true
  | .ydlExpiry _ => true
  | .crewSave _ => true
  | .crewResume _ => true
  | .budgetWindow _ _ => true
  | .ptmExchange _ _ => true
  | .dieTimeWord _ _ _ => true
  | .timeframeSend => true
  | .timeframe _ _ _ => true
  | .heartbeat _ _ _ => true
  | .limit _ _ _ => true
  | .ack _ _ => true
  | .join _ _ => true
  | .leave _ _ => true
  | .silent _ _ _ _ => true
  | .confirm _ _ => true
  | .limitForecast _ => true
  | .limitAckTimeout => true
  | .limitStampPassed => true
  | .rampStep => true
  | .joinAckTimeout => true
  | .joinStampPassed => true
  | .leaveStampPassed => true
  | .silenceDetected _ => true
  | .fabricPortsDown => true
  | .hostCxlMemAccess _ => true
  | .notifyWrite _ _ => true
  | .interfaceEnable _ _ => true
  | .bar0RegisterWrite _ _ => true
  | .partCreate _ _ => true
  | .partDestroy _ _ => true
  | .ctxCreate _ _ => true
  | .ctxDestroy _ _ => true
  | .load _ _ => true
  | .launch _ _ => true
  | .harness _ _ => true
  | .harnessEnd _ _ => true
  | .resolve _ _ => true
  | .refuse _ _ => true
  | .unmap _ _ => true
  | .checkpoint _ _ => true
  | .restore _ _ => true
  | .timeSet _ _ => true
  | .groupJoin _ _ => true
  | .groupLeave _ _ => true
  | .collBind _ _ => true
  | .debugHalt _ _ => true
  | .debugResume _ _ => true
  | .debugReadState _ _ => true
  | .logRead _ _ => true
  | .attest _ _ => true
  | .config _ _ => true
  | .patch _ _ => true
  | .powerOn => true
  | .dieOver105c _ _ => true
  | .dieOver115c _ => true
  | .engineParityError _ _ => true
  | .innerClose _ _ => true
  | .droppedFlit _ => true
  | .fabricPortLinkChange _ _ => true

end Sys2Proof
end

