-- ==== Sys2Proof/Decode.lean ====
section
/-!
DEFINITION. From words to instructions and back (R35 to R53). A word is read as a number below 2^32, and a field as
quotient and remainder. Each refusal has a name; the sequencer and the engines take every one of them as ILLEGAL (R36).
-/
namespace Sys2Proof

/-- Why a word is no instruction of the engine that fetched it (R36). -/
inductive Reject where
  /-- The major opcode is not assigned, or not in this encoding version (R53). -/
  | unassigned
  /-- A reserved or unused field is not zero. -/
  | reserved
  /-- A sub-function, operation, type, mode, scope or path code is not assigned. -/
  | badCode
  /-- A field lies outside its range. -/
  | outOfRange
  /-- Fewer than four bytes were given. -/
  | tooShort
  deriving DecidableEq, Repr

/-- Bits [lo + n − 1 : lo] of a word. -/
def fld (w lo n : Nat) : Nat := w / 2 ^ lo % 2 ^ n

/-- Go on when the condition holds, else refuse. -/
def need (c : Bool) (r : Reject) (k : Except Reject Instr) : Except Reject Instr :=
  if c then k else .error r

def finOf (n : Nat) [NeZero n] (x : Nat) : Fin n := Fin.ofNat n x

/-! ### Codes shared by the engines -/

/-- R41. -/
def scopeOf : Nat → Option Scope
  | 0 => some .engine
  | 1 => some .core
  | 2 => some .quad
  | 3 => some .crew
  | 4 => some .die
  | 5 => some .package
  | 6 => some .context
  | 7 => some .host
  | 8 => some .peer
  | 9 => some .group
  | 10 => some .time
  | _ => none

def Scope.code : Scope → Nat
  | .engine => 0
  | .core => 1
  | .quad => 2
  | .crew => 3
  | .die => 4
  | .package => 5
  | .context => 6
  | .host => 7
  | .peer => 8
  | .group => 9
  | .time => 10

/-- R41. -/
def pathOf : Nat → Option Path
  | 0 => some .lq
  | 1 => some .sq
  | 2 => some .vp
  | 3 => some .xp
  | 4 => some .wp
  | 5 => some .cp
  | 6 => some .hp
  | _ => none

def Path.code : Path → Nat
  | .lq => 0
  | .sq => 1
  | .vp => 2
  | .xp => 3
  | .wp => 4
  | .cp => 5
  | .hp => 6

/-- R46, R53: code 8 is assigned in version 3 alone. -/
def etypeOf (v : Nat) : Nat → Option EType
  | 0 => some .i8
  | 1 => some .n8
  | 2 => some .i16
  | 3 => some .n16
  | 4 => some .i32
  | 5 => some .n32
  | 6 => some .bf16
  | 7 => some .f32
  | 8 => if v = 3 then some .e4m3u else none
  | _ => none

def EType.code : EType → Nat
  | .i8 => 0
  | .n8 => 1
  | .i16 => 2
  | .n16 => 3
  | .i32 => 4
  | .n32 => 5
  | .bf16 => 6
  | .f32 => 7
  | .e4m3u => 8

/-- R42. -/
def csrOf : Nat → Option Csr
  | 0x000 => some .tvec
  | 0x001 => some .tcause
  | 0x002 => some .taddr
  | 0x003 => some .tpc
  | 0x004 => some .clkmax
  | 0x005 => some .ceil
  | 0x006 => some .govstall
  | 0x007 => some .yreq
  | 0x008 => some .ydl
  | 0x009 => some .menddepth
  | 0x00A => some .mendretry
  | 0x00B => some .coreId
  | 0x00C => some .dieId
  | 0x00D => some .crewSize
  | 0x00E => some .crewRank
  | 0x00F => some .ctxId
  | 0x010 => some .encv
  | 0x011 => some .flags
  | _ => none

def Csr.code : Csr → Nat
  | .tvec => 0x000
  | .tcause => 0x001
  | .taddr => 0x002
  | .tpc => 0x003
  | .clkmax => 0x004
  | .ceil => 0x005
  | .govstall => 0x006
  | .yreq => 0x007
  | .ydl => 0x008
  | .menddepth => 0x009
  | .mendretry => 0x00A
  | .coreId => 0x00B
  | .dieId => 0x00C
  | .crewSize => 0x00D
  | .crewRank => 0x00E
  | .ctxId => 0x00F
  | .encv => 0x010
  | .flags => 0x011

/-- R51. -/
def shapeFieldOf : Nat → Option ShapeField
  | 0 => some .rows
  | 1 => some .rowbytes
  | 2 => some .spitch
  | 3 => some .dpitch
  | 4 => some .ratio
  | 5 => some .stype
  | 6 => some .dtype
  | _ => none

def ShapeField.code : ShapeField → Nat
  | .rows => 0
  | .rowbytes => 1
  | .spitch => 2
  | .dpitch => 3
  | .ratio => 4
  | .stype => 5
  | .dtype => 6

/-- R51. -/
def winFieldOf : Nat → Option WinField
  | 0 => some .wh
  | 1 => some .ww
  | 2 => some .sy
  | 3 => some .sx
  | 4 => some .dy
  | 5 => some .dx
  | 6 => some .pt
  | 7 => some .pl
  | 8 => some .pb
  | 9 => some .pr
  | 10 => some .pmode
  | 11 => some .pconst
  | 12 => some .ih
  | 13 => some .iw
  | 14 => some .ch
  | _ => none

def WinField.code : WinField → Nat
  | .wh => 0
  | .ww => 1
  | .sy => 2
  | .sx => 3
  | .dy => 4
  | .dx => 5
  | .pt => 6
  | .pl => 7
  | .pb => 8
  | .pr => 9
  | .pmode => 10
  | .pconst => 11
  | .ih => 12
  | .iw => 13
  | .ch => 14

/-- R19, R301: stream numbers. -/
def StreamId.code : StreamId → Nat
  | .seq => 0
  | .vec => 1
  | .mat => 2
  | .xfer => 3

def streamOf : Nat → StreamId
  | 1 => .vec
  | 2 => .mat
  | 3 => .xfer
  | _ => .seq

/-- R39: stream codes of the `eng` words; 0 is reserved. -/
def engOf : Nat → Option Eng
  | 1 => some .vec
  | 2 => some .mat
  | 3 => some .xfer
  | _ => none

def Eng.code : Eng → Nat
  | .vec => 1
  | .mat => 2
  | .xfer => 3

def Eng.stream : Eng → StreamId
  | .vec => .vec
  | .mat => .mat
  | .xfer => .xfer

/-- R48. -/
def modeOf : Nat → Option MatMode
  | 0 => some .tern
  | 1 => some .int8
  | 2 => some .sparse
  | _ => none

def MatMode.code : MatMode → Nat
  | .tern => 0
  | .int8 => 1
  | .sparse => 2

/-- The tree operand byte (R37). -/
def treeOpOf (b : Nat) : TreeOp :=
  ⟨finOf 8 (b / 32), if h : b % 32 < 24 then .lit ⟨b % 32, h⟩ else .k (finOf 8 (b % 32 - 24))⟩

def Idx.code : Idx → Nat
  | .lit i => i.val
  | .k r => 24 + r.val

def TreeOp.code (t : TreeOp) : Nat := 32 * t.view.val + t.idx.code

/-- The ten bits of a transfer endpoint (R49). -/
def endPtOf (x : Nat) : Except Reject EndPt :=
  if x / 512 % 2 = 0 then
    if x / 256 % 2 = 0 then .ok (.tree (treeOpOf (x % 256))) else .error .reserved
  else if x / 8 % 64 = 0 then .error .outOfRange
  else .ok (.hnd (finOf 64 (x / 8)) (finOf 8 x))

def EndPt.code : EndPt → Nat
  | .tree t => t.code
  | .hnd h k => 512 + 8 * h.val + k.val

def boolOf (x : Nat) : Bool := decide (x % 2 = 1)

def bit (b : Bool) : Nat := if b then 1 else 0

/-! ### Fields by form (R38, R44, R50) -/

def fRd (w : Nat) : Reg := finOf 32 (w / 2 ^ 21)
def fRa (w : Nat) : Reg := finOf 32 (w / 2 ^ 16)
def fRb (w : Nat) : Reg := finOf 32 (w / 2 ^ 11)
def fH (w : Nat) : Hnd := finOf 64 (w / 2 ^ 10)
def fImm (w : Nat) : BitVec 16 := BitVec.ofNat 16 w
def fVd (w : Nat) : TreeOp := treeOpOf (fld w 18 8)
def fVa (w : Nat) : TreeOp := treeOpOf (fld w 10 8)
def fVb (w : Nat) : TreeOp := treeOpOf (fld w 2 8)
def fWa (w : Nat) : Bool := boolOf (w / 2)
def fWb (w : Nat) : Bool := boolOf w
def fK (w : Nat) : KIx := finOf 8 (w / 2 ^ 23)

/-! ### The sequencer (R39) -/

/-- Major 0x01: the integer group (R40). -/
def decodeInteger (w : Nat) : Except Reject Instr :=
  let d := fRd w
  let a := fRa w
  let b := fRb w
  match fld w 0 11 with
  | 0 => .ok (.add d a b)
  | 1 => .ok (.sub d a b)
  | 2 => .ok (.and d a b)
  | 3 => .ok (.or d a b)
  | 4 => .ok (.xor d a b)
  | 5 => .ok (.shl d a b)
  | 6 => .ok (.shr d a b)
  | 7 => .ok (.sar d a b)
  | 8 => .ok (.slt d a b)
  | 9 => .ok (.sltn d a b)
  | 10 => .ok (.min d a b)
  | 11 => .ok (.max d a b)
  | 12 => .ok (.minn d a b)
  | 13 => .ok (.maxn d a b)
  | 14 => .ok (.mul d a b)
  | 15 => .ok (.mulh d a b)
  | 16 => .ok (.mulhn d a b)
  | 17 => .ok (.div d a b)
  | 18 => .ok (.divn d a b)
  | 19 => .ok (.rem d a b)
  | 20 => .ok (.remn d a b)
  | 21 => need (fld w 11 5 == 0) .reserved (.ok (.clz d a))
  | 22 => need (fld w 11 5 == 0) .reserved (.ok (.popc d a))
  | _ => .error .badCode

/-- Major 0x06: shifts by an immediate (R39). -/
def decodeShift (w : Nat) : Except Reject Instr :=
  need (fld w 6 8 == 0) .reserved <|
  let n := BitVec.ofNat 6 w
  match fld w 14 2 with
  | 0 => .ok (.shli (fRd w) (fRa w) n)
  | 1 => .ok (.shri (fRd w) (fRa w) n)
  | 2 => .ok (.sari (fRd w) (fRa w) n)
  | _ => .error .badCode

/-- Major 0x1D: atoms (R39, R245). -/
def decodeAtom (w : Nat) : Except Reject Instr :=
  need (fld w 4 2 == 0) .reserved <|
  match scopeOf (fld w 0 4) with
  | none => .error .badCode
  | some c =>
    let z : AtomSize := if fld w 6 1 = 0 then .w else .d
    match fld w 7 4 with
    | 0 => .ok (.atomAdd (fRd w) (fRa w) (fRb w) z c)
    | 1 => .ok (.atomSwap (fRd w) (fRa w) (fRb w) z c)
    | 2 => .ok (.atomCas (fRd w) (fRa w) (fRb w) z c)
    | 3 => .ok (.atomMin (fRd w) (fRa w) (fRb w) z c)
    | 4 => .ok (.atomMax (fRd w) (fRa w) (fRb w) z c)
    | 5 => .ok (.atomOr (fRd w) (fRa w) (fRb w) z c)
    | 6 => .ok (.atomAnd (fRd w) (fRa w) (fRb w) z c)
    | _ => .error .badCode

/-- Major 0x1E: mark and fence (R39). -/
def decodeOrder (w : Nat) : Except Reject Instr :=
  need (fld w 11 15 == 0) .reserved <|
  if fld w 10 1 = 0 then
    need (fld w 7 3 == 0) .reserved <|
    need (fld w 0 7 != 0) .reserved <|
    .ok (.mark (BitVec.ofNat 7 w))
  else
    match pathOf (fld w 7 3), pathOf (fld w 4 3), scopeOf (fld w 0 4) with
    | some p, some q, some c => .ok (.fence p q c)
    | _, _, _ => .error .badCode

/-- Major 0x1F: handles (R39); handle 0 is reserved in all three. -/
def decodeHandle (w : Nat) : Except Reject Instr :=
  need (fld w 2 8 == 0) .reserved <|
  need (fld w 10 6 != 0) .reserved <|
  match fld w 0 2 with
  | 0 => .ok (.hndBind (fRd w) (fRa w) (fH w))
  | 1 => need (fld w 16 10 == 0) .reserved (.ok (.hndFree (fH w)))
  | 2 => need (fld w 16 5 == 0) .reserved (.ok (.hndStat (fRd w) (fH w)))
  | _ => .error .badCode

/-- Major 0x20: engine streams (R39). -/
def decodeEng (w : Nat) : Except Reject Instr :=
  match engOf (fld w 16 2) with
  | none => .error .badCode
  | some e =>
    match fld w 18 3 with
    | 0 =>
      need (fld w 21 5 == 0) .reserved <|
      need (fld w 14 2 == 0) .outOfRange <|
      .ok (.engStart e (BitVec.ofNat 14 w))
    | 1 =>
      need (fld w 21 5 == 0) .reserved <|
      need (fld w 0 16 == 0) .reserved <|
      .ok (.engStop e)
    | 2 => need (fld w 0 16 == 0) .reserved (.ok (.engStat (fRd w) e))
    | 3 =>
      need (fld w 21 5 == 0) .reserved <|
      need (fld w 0 16 == 0) .reserved <|
      .ok (.engJoin e)
    | _ => .error .badCode

/-- Major 0x21: sync words (R39). -/
def decodeSync (w : Nat) : Except Reject Instr :=
  need (fld w 4 6 == 0) .reserved <|
  match fld w 0 4 with
  | 0 => .ok (.swArm (fRd w) (fRa w) (fH w))
  | 1 => .ok (.swWait (fRd w) (fRa w) (fH w))
  | 2 => .ok (.swReadTarget (fRd w) (fRa w) (fH w))
  | 6 => .ok (.swReadCount (fRd w) (fRa w) (fH w))
  | 10 => .ok (.swReadGen (fRd w) (fRa w) (fH w))
  | 14 => .ok (.swReadCode (fRd w) (fRa w) (fH w))
  | 4 => .error .reserved
  | 5 => .error .reserved
  | 8 => .error .reserved
  | 9 => .error .reserved
  | 12 => .error .reserved
  | 13 => .error .reserved
  | _ => .error .badCode

/-- Major 0x25: the sequencer's mend words (R39). -/
def decodeMend (w : Nat) : Except Reject Instr :=
  need (fld w 2 8 == 0) .reserved <|
  match fld w 0 2 with
  | 0 => need (fld w 10 16 == 0) .reserved (.ok .mendOpen)
  | 1 => need (fld w 10 6 != 0) .reserved (.ok (.mendSave (fRd w) (fRa w) (fH w)))
  | 2 => need (fld w 10 16 == 0) .reserved (.ok .mendClose)
  | _ => .error .badCode

/-- Major 0x26: cinches (R39). -/
def decodeCinch (w : Nat) : Except Reject Instr :=
  need (fld w 11 15 == 0) .reserved <|
  need (fld w 4 4 == 0) .reserved <|
  match fld w 8 3 with
  | 0 =>
    match scopeOf (fld w 0 4) with
    | some c => .ok (.cinchOpen c)
    | none => .error .badCode
  | 1 => need (fld w 0 4 == 0) .reserved (.ok .cinchClose)
  | 2 => need (fld w 0 4 == 0) .reserved (.ok .cinchDrop)
  | _ => .error .badCode

/-- Major 0x27: the clock (R39, R229). -/
def decodeClock (w : Nat) : Except Reject Instr :=
  need (fld w 1 10 == 0) .reserved <|
  if fld w 0 1 = 0 then
    need (fld w 16 5 == 0) .reserved (.ok (.clkRead (fRd w) (fRb w)))
  else
    need (fld w 21 5 == 0) .reserved <|
    need (fld w 11 5 == 0) .reserved <|
    .ok (.clkWait (fRa w))

/-- Majors 0x28 and 0x29: stamped cells (R39). -/
def decodeStamp (w : Nat) (mk : Reg → Reg → Reg → Scope → Instr) : Except Reject Instr :=
  need (fld w 4 7 == 0) .reserved <|
  match scopeOf (fld w 0 4) with
  | some c => .ok (mk (fRd w) (fRa w) (fRb w) c)
  | none => .error .badCode

/-- Major 0x2A: billets (R39). -/
def decodeBillet (w : Nat) : Except Reject Instr :=
  need (fld w 2 8 == 0) .reserved <|
  match fld w 0 2 with
  | 0 => .ok (.bilClaim (fRd w) (fRa w) (fH w))
  | 1 => .ok (.bilAdv (fRd w) (fRa w) (fH w))
  | 2 => .ok (.bilPost (fRd w) (fRa w) (fH w))
  | _ => .error .badCode

/-- Major 0x2C: control registers (R39, R42, R103). -/
def decodeCsr (w : Nat) : Except Reject Instr :=
  need (fld w 12 2 == 0) .reserved <|
  match csrOf (fld w 0 12) with
  | none => .error .badCode
  | some c =>
    match fld w 14 2 with
    | 0 => need (fld w 16 5 == 0) .reserved (.ok (.csrRead (fRd w) c))
    | 1 =>
      need (fld w 21 5 == 0) .reserved <|
      need c.writable .badCode <|
      .ok (.csrWrite (fRa w) c)
    | 2 => need c.writable .badCode (.ok (.csrSwap (fRd w) (fRa w) c))
    | _ => .error .badCode

/-- Major 0x2D: trap and tret (R39, R298). -/
def decodeTrap (w : Nat) : Except Reject Instr :=
  need (fld w 21 5 == 0) .reserved <|
  match fld w 16 5 with
  | 0 => need (decide (fld w 0 16 ≥ 0x8000)) .outOfRange (.ok (.trap (fImm w)))
  | 1 => need (fld w 0 16 == 0) .reserved (.ok .tret)
  | _ => .error .badCode

/-- A sequencer word under encoding version v (R39, R53). -/
def decodeSeq (v w : Nat) : Except Reject Instr :=
  match fld w 26 6 with
  | 0x01 => decodeInteger w
  | 0x02 => .ok (.addi (fRd w) (fRa w) (fImm w))
  | 0x03 => .ok (.andi (fRd w) (fRa w) (fImm w))
  | 0x04 => .ok (.ori (fRd w) (fRa w) (fImm w))
  | 0x05 => .ok (.xori (fRd w) (fRa w) (fImm w))
  | 0x06 => decodeShift w
  | 0x07 => .ok (.slti (fRd w) (fRa w) (fImm w))
  | 0x08 => need (fld w 16 5 == 0) .reserved (.ok (.movi (fRd w) (fImm w)))
  | 0x09 => need (fld w 18 3 == 0) .reserved (.ok (.movk (fRd w) (finOf 4 (w / 2 ^ 16)) (fImm w)))
  | 0x0A => .ok (.beq (fRd w) (fRa w) (fImm w))
  | 0x0B => .ok (.bne (fRd w) (fRa w) (fImm w))
  | 0x0C => .ok (.blt (fRd w) (fRa w) (fImm w))
  | 0x0D => .ok (.bge (fRd w) (fRa w) (fImm w))
  | 0x0E => .ok (.bltn (fRd w) (fRa w) (fImm w))
  | 0x0F => .ok (.bgen (fRd w) (fRa w) (fImm w))
  | 0x10 => .ok (.jal (fRd w) (BitVec.ofNat 21 w))
  | 0x11 => .ok (.jalr (fRd w) (fRa w) (fImm w))
  | 0x12 => .ok (.ldB (fRd w) (fRa w) (fImm w))
  | 0x13 => .ok (.ldBs (fRd w) (fRa w) (fImm w))
  | 0x14 => .ok (.ldH (fRd w) (fRa w) (fImm w))
  | 0x15 => .ok (.ldHs (fRd w) (fRa w) (fImm w))
  | 0x16 => .ok (.ldW (fRd w) (fRa w) (fImm w))
  | 0x17 => .ok (.ldWs (fRd w) (fRa w) (fImm w))
  | 0x18 => .ok (.ldD (fRd w) (fRa w) (fImm w))
  | 0x19 => .ok (.stB (fRd w) (fRa w) (fImm w))
  | 0x1A => .ok (.stH (fRd w) (fRa w) (fImm w))
  | 0x1B => .ok (.stW (fRd w) (fRa w) (fImm w))
  | 0x1C => .ok (.stD (fRd w) (fRa w) (fImm w))
  | 0x1D => decodeAtom w
  | 0x1E => decodeOrder w
  | 0x1F => decodeHandle w
  | 0x20 => decodeEng w
  | 0x21 => decodeSync w
  | 0x22 => need (fld w 0 26 == 0) .reserved (.ok .crewBar)
  | 0x23 =>
    need (fld w 21 5 == 0) .reserved <|
    need (fld w 0 11 == 0) .reserved <|
    .ok (.wqPush (fRa w) (fRb w))
  | 0x24 =>
    need (fld w 24 2 == 0) .reserved <|
    need (fld w 0 16 == 0) .reserved <|
    .ok (.viewSet (finOf 8 (w / 2 ^ 21)) (fRa w))
  | 0x25 => decodeMend w
  | 0x26 => need (decide (2 ≤ v)) .unassigned (decodeCinch w)
  | 0x27 => decodeClock w
  | 0x28 => need (decide (2 ≤ v)) .unassigned (decodeStamp w .stStamp)
  | 0x29 => need (decide (2 ≤ v)) .unassigned (decodeStamp w .ldAsof)
  | 0x2A => need (decide (3 ≤ v)) .unassigned (decodeBillet w)
  | 0x2B => need (fld w 0 26 == 0) .reserved (.ok .yield)
  | 0x2C => decodeCsr w
  | 0x2D => decodeTrap w
  | 0x2E =>
    need (fld w 21 5 == 0) .reserved <|
    need (fld w 18 3 == 0) .reserved <|
    .ok (.injStrike (streamOf (fld w 16 2)) (fImm w))
  | 0x2F =>
    match fld w 0 26 with
    | 0 => .ok .nop
    | 1 => .ok .endProg
    | _ => .error .badCode
  | _ => .error .unassigned

/-! ### Loop and mend words of the engines (R47) -/

/-- `loop`: a count of 0 is reserved. -/
def decodeLoop (w : Nat) (mk : KIx → BitVec 23 → Instr) : Except Reject Instr :=
  need (fld w 0 23 != 0) .outOfRange (.ok (mk (fK w) (BitVec.ofNat 23 w)))

/-- `br`. -/
def decodeBr (w : Nat) (mk : KIx → BitVec 23 → Instr) : Except Reject Instr :=
  .ok (mk (fK w) (BitVec.ofNat 23 w))

/-- `kop`, `kop.add` and `kop.mov`. -/
def decodeKop (w : Nat) (set add : KIx → BitVec 21 → Instr) (mov : KIx → KIx → Instr) : Except Reject Instr :=
  match fld w 21 2 with
  | 0 => .ok (set (fK w) (BitVec.ofNat 21 w))
  | 1 => .ok (add (fK w) (BitVec.ofNat 21 w))
  | 2 => need (fld w 3 18 == 0) .reserved (.ok (mov (fK w) (finOf 8 w)))
  | _ => .error .badCode

/-- `mend.open`, `mend.save` and `mend.close` of an engine. -/
def decodeEngMend (w : Nat) (opn : Instr) (save : KIx → BitVec 12 → Instr) (close : Instr) : Except Reject Instr :=
  match fld w 21 2 with
  | 0 =>
    need (fld w 0 21 == 0) .reserved <|
    need (fld w 23 3 == 0) .reserved (.ok opn)
  | 1 =>
    need (fld w 12 9 == 0) .reserved <|
    need (saveOk (BitVec.ofNat 12 w)) .outOfRange <|
    .ok (save (fK w) (BitVec.ofNat 12 w))
  | 2 =>
    need (fld w 0 21 == 0) .reserved <|
    need (fld w 23 3 == 0) .reserved (.ok close)
  | _ => .error .badCode

/-! ### The vector engine (R45) -/

/-- VA with every field in use. -/
def decodeVab (w : Nat) (mk : TreeOp → TreeOp → TreeOp → Bool → Bool → Instr) : Except Reject Instr :=
  .ok (mk (fVd w) (fVa w) (fVb w) (fWa w) (fWb w))

/-- VA with b and Wb zero. -/
def decodeVa (w : Nat) (mk : TreeOp → TreeOp → Bool → Instr) : Except Reject Instr :=
  need (fld w 2 8 == 0) .reserved <|
  need (fld w 0 1 == 0) .reserved <|
  .ok (mk (fVd w) (fVa w) (fWa w))

/-- A compare: dst[7:3] zero. -/
def decodeCmp (w : Nat) (mk : Fin 8 → TreeOp → TreeOp → Bool → Bool → Instr) : Except Reject Instr :=
  need (fld w 21 5 == 0) .reserved (.ok (mk (finOf 8 (w / 2 ^ 18)) (fVa w) (fVb w) (fWa w) (fWb w)))

/-- VI with a source. -/
def decodeVi (w : Nat) (mk : TreeOp → TreeOp → Bool → BitVec 9 → Instr) : Except Reject Instr :=
  .ok (mk (fVd w) (fVa w) (boolOf (w / 2 ^ 9)) (BitVec.ofNat 9 w))

/-- `v.cor`: mode 0 to 5 and n from 4 to 30. -/
def decodeCor (w : Nat) : Except Reject Instr :=
  let n := BitVec.ofNat 5 w
  need (decide (4 ≤ fld w 0 5) && decide (fld w 0 5 ≤ 30)) .outOfRange <|
  let d := fVd w
  let a := fVa w
  let p := boolOf (w / 2 ^ 9)
  match fld w 5 4 with
  | 0 => .ok (.vCorCrot d a p n)
  | 1 => .ok (.vCorCvec d a p n)
  | 2 => .ok (.vCorHrot d a p n)
  | 3 => .ok (.vCorHvec d a p n)
  | 4 => .ok (.vCorLrot d a p n)
  | 5 => .ok (.vCorLvec d a p n)
  | _ => .error .badCode

/-- `v.shape`, masked or not. -/
def decodeShape (v w : Nat) : Except Reject Instr :=
  need (fld w 9 9 == 0) .reserved <|
  match etypeOf v (fld w 18 4) with
  | none => .error .badCode
  | some t =>
    let l := BitVec.ofNat 9 w
    need (lanesOk t l) .outOfRange <|
    if fld w 22 1 = 0 then
      need (fld w 23 3 == 0) .reserved (.ok (.vShape t l))
    else .ok (.vShapeMasked (finOf 8 (w / 2 ^ 23)) t l)

/-- `v.mask`. -/
def decodeMask (w : Nat) : Except Reject Instr :=
  need (fld w 21 2 == 0) .reserved <|
  need (fld w 13 5 == 0) .reserved <|
  need (fld w 5 5 == 0) .reserved <|
  need (fld w 0 2 == 0) .reserved <|
  let d := finOf 8 (w / 2 ^ 18)
  let a := finOf 8 (w / 2 ^ 10)
  let b := finOf 8 (w / 2 ^ 2)
  match fld w 23 3 with
  | 0 => .ok (.vMaskAnd d a b)
  | 1 => .ok (.vMaskOr d a b)
  | 2 => .ok (.vMaskXor d a b)
  | 3 => .ok (.vMaskAndn d a b)
  | 4 => need (fld w 2 3 == 0) .reserved (.ok (.vMaskNot d a))
  | 5 =>
    need (fld w 10 3 == 0) .reserved <|
    need (fld w 2 3 == 0) .reserved (.ok (.vMaskSet d))
  | 6 =>
    need (fld w 10 3 == 0) .reserved <|
    need (fld w 2 3 == 0) .reserved (.ok (.vMaskClear d))
  | _ => .error .badCode

/-- `rc.init`: b[0] is 0 for dec and 1 for enc. -/
def decodeRcInit (w : Nat) : Except Reject Instr :=
  need (fld w 10 2 == 0) .reserved <|
  need (fld w 3 7 == 0) .reserved <|
  need (fld w 0 2 == 0) .reserved <|
  let h := finOf 64 (w / 2 ^ 12)
  if fld w 2 1 = 0 then .ok (.rcInitDec (fVd w) h) else .ok (.rcInitEnc (fVd w) h)

/-- A coder word with nothing but its coder operand. -/
def decodeRc (w : Nat) (mk : TreeOp → Instr) : Except Reject Instr :=
  need (fld w 0 18 == 0) .reserved (.ok (mk (fVd w)))

/-- A vector engine word under encoding version v (R45, R53). -/
def decodeVec (v w : Nat) : Except Reject Instr :=
  match fld w 26 6 with
  | 0x01 => decodeVab w .vAdd
  | 0x02 => decodeVab w .vSub
  | 0x03 => decodeVab w .vMul
  | 0x04 => decodeVab w .vFma
  | 0x05 => decodeVab w .vMin
  | 0x06 => decodeVab w .vMax
  | 0x07 => decodeVa w .vAbs
  | 0x08 => decodeVa w .vNeg
  | 0x09 => decodeVab w .vAnd
  | 0x0A => decodeVab w .vOr
  | 0x0B => decodeVab w .vXor
  | 0x0C => decodeVab w .vShl
  | 0x0D => decodeVab w .vShr
  | 0x0E => decodeVab w .vSar
  | 0x0F => decodeCmp w .vCmpeq
  | 0x10 => decodeCmp w .vCmplt
  | 0x11 => decodeCmp w .vCmple
  | 0x12 => decodeVab w .vSel
  | 0x13 =>
    need (fld w 2 4 == 0) .reserved <|
    need (fld w 0 1 == 0) .reserved <|
    (match etypeOf v (fld w 6 4) with
    | some t => .ok (.vCvt (fVd w) (fVa w) t (fWa w))
    | none => .error .badCode)
  | 0x14 => decodeVi w .vAddi
  | 0x15 => decodeVi w .vMuli
  | 0x16 => need (fld w 9 9 == 0) .reserved (.ok (.vMovi (fVd w) (BitVec.ofNat 9 w)))
  | 0x17 => decodeVi w .vBcast
  | 0x18 => decodeVab w .vPerm
  | 0x19 => decodeVa w .vRedsum
  | 0x1A => decodeVa w .vRedmax
  | 0x1B => decodeVa w .vRedmin
  | 0x1C => decodeVa w .vArgmax
  | 0x1D =>
    need (fld w 10 2 == 0) .reserved <|
    need (fld w 5 5 == 0) .reserved <|
    need (fld w 0 2 == 0) .reserved <|
    need (fld w 12 6 != 0) .outOfRange <|
    .ok (.vLd (fVd w) (finOf 64 (w / 2 ^ 12)) (finOf 8 (w / 2 ^ 2)))
  | 0x1E =>
    need (fld w 10 2 == 0) .reserved <|
    need (fld w 5 5 == 0) .reserved <|
    need (fld w 0 1 == 0) .reserved <|
    need (fld w 12 6 != 0) .outOfRange <|
    .ok (.vSt (fVd w) (finOf 64 (w / 2 ^ 12)) (finOf 8 (w / 2 ^ 2)) (fWa w))
  | 0x1F =>
    need (fld w 2 2 == 0) .reserved <|
    need (fld w 0 1 == 0) .reserved <|
    .ok (.vGather (fVd w) (fVa w) (finOf 64 (w / 2 ^ 4)) (fWa w))
  | 0x20 =>
    need (fld w 2 2 == 0) .reserved <|
    .ok (.vScatter (fVd w) (fVa w) (finOf 64 (w / 2 ^ 4)) (fWa w) (fWb w))
  | 0x21 => decodeVa w .vRcpa
  | 0x22 => decodeVa w .vRsqa
  | 0x23 => decodeVab w .vRcpf
  | 0x24 => decodeVab w .vRsqf
  | 0x25 => decodeCor w
  | 0x26 => decodeVa w .vSigq
  | 0x27 => decodeVa w .vCdfq
  | 0x28 => decodeVab w .vHash
  | 0x29 => decodeVab w .vNoise
  | 0x2A => decodeVi w .vBitt
  | 0x2B => decodeVa w .vClz
  | 0x2C => decodeVa w .vPopc
  | 0x2D => decodeShape v w
  | 0x2E => decodeMask w
  | 0x2F => decodeLoop w .vLoop
  | 0x30 => decodeBr w .vBr
  | 0x31 => decodeKop w .vKop .vKopAdd .vKopMov
  | 0x32 => decodeEngMend w .vMendOpen .vMendSave .vMendClose
  | 0x33 => need (fld w 0 26 == 0) .reserved (.ok .vEnd)
  | 0x34 => need (decide (2 ≤ v)) .unassigned (decodeRcInit w)
  | 0x35 =>
    need (decide (2 ≤ v)) .unassigned <|
    need (fld w 0 1 == 0) .reserved (.ok (.rcDec (fVd w) (fVa w) (fVb w) (fWa w)))
  | 0x36 =>
    need (decide (2 ≤ v)) .unassigned <|
    need (fld w 0 1 == 0) .reserved (.ok (.rcDecm (fVd w) (fVa w) (fVb w) (fWa w)))
  | 0x37 => need (decide (2 ≤ v)) .unassigned (decodeVab w .rcEnc)
  | 0x38 => need (decide (2 ≤ v)) .unassigned (decodeVab w .rcEncm)
  | 0x39 => need (decide (2 ≤ v)) .unassigned (decodeRc w .rcFlush)
  | 0x3A => need (decide (2 ≤ v)) .unassigned (decodeRc w .rcSpec)
  | 0x3B => need (decide (2 ≤ v)) .unassigned (decodeRc w .rcKeep)
  | 0x3C => need (decide (2 ≤ v)) .unassigned (decodeRc w .rcUndo)
  | 0x3D =>
    need (decide (2 ≤ v)) .unassigned <|
    need (fld w 10 8 == 0) .reserved <|
    need (fld w 0 2 == 0) .reserved (.ok (.rcStat (fVd w) (fVb w)))
  | 0x3E => need (fld w 0 26 == 0) .reserved (.ok .vMark)
  | _ => .error .unassigned

/-! ### The matrix engine (R48) -/

def fMw (w : Nat) : Bool := boolOf (w / 2 ^ 2)
def fRow (w : Nat) : BitVec 12 := BitVec.ofNat 12 (w / 2 ^ 6)

/-- A word with one tree source and its W bit. -/
def decodeMt (w : Nat) (mk : TreeOp → Bool → Instr) : Except Reject Instr :=
  need (fld w 3 15 == 0) .reserved <|
  need (fld w 0 2 == 0) .reserved (.ok (mk (fVd w) (fMw w)))

/-- A matrix engine word under encoding version v (R48, R53). -/
def decodeMat (v w : Nat) : Except Reject Instr :=
  match fld w 26 6 with
  | 0x01 =>
    need (fld w 0 13 == 0) .reserved <|
    need (decide (1 ≤ fld w 13 11) && decide (fld w 13 11 ≤ 1024)) .outOfRange <|
    (match modeOf (fld w 24 2) with
    | some m => .ok (.mBegin m (BitVec.ofNat 11 (w / 2 ^ 13)))
    | none => .error .badCode)
  | 0x02 => need (fld w 0 26 == 0) .reserved (.ok .mZero)
  | 0x03 => decodeMt w .mLdacc
  | 0x04 =>
    need (fld w 3 3 == 0) .reserved <|
    need (fld w 0 2 == 0) .reserved (.ok (.mAcc (fVd w) (fRow w) (fMw w)))
  | 0x05 => need (fld w 0 2 == 0) .reserved (.ok (.mAcc8 (fVd w) (fRow w) (finOf 8 (w / 2 ^ 3)) (fMw w)))
  | 0x06 =>
    (match fld w 0 2 with
    | 1 => need (fld w 3 3 == 0) .reserved (.ok (.mAccsTern (fVd w) (fRow w) (fMw w)))
    | 2 => .ok (.mAccsInt8 (fVd w) (fRow w) (finOf 8 (w / 2 ^ 3)) (fMw w))
    | _ => .error .badCode)
  | 0x07 => decodeMt w .mSeg
  | 0x08 =>
    need (fld w 3 7 == 0) .reserved <|
    need (fld w 0 2 == 0) .reserved (.ok (.mScale (fVd w) (fVa w) (fMw w)))
  | 0x09 =>
    need (fld w 0 15 == 0) .reserved <|
    (match fld w 15 3 with
    | 0 => .ok (.mRetF32 (fVd w))
    | 1 => .ok (.mRetBf16 (fVd w))
    | 2 => need (decide (3 ≤ v)) .badCode (.ok (.mRetF32Add (fVd w)))
    | _ => .error .badCode)
  | 0x0A => need (fld w 0 18 == 0) .reserved (.ok (.mRetraw (fVd w)))
  | 0x0B =>
    need (fld w 18 8 == 0) .reserved <|
    need (fld w 0 6 == 0) .reserved (.ok (.mWbase (fRow w)))
  | 0x0C => decodeLoop w .mLoop
  | 0x0D => decodeBr w .mBr
  | 0x0E => decodeKop w .mKop .mKopAdd .mKopMov
  | 0x0F =>
    need (fld w 0 11 == 0) .reserved <|
    .ok (.mPert (BitVec.ofNat 6 (w / 2 ^ 20)) (BitVec.ofNat 6 (w / 2 ^ 14)) (finOf 8 (w / 2 ^ 11)))
  | 0x10 => need (fld w 0 26 == 0) .reserved (.ok .mEnd)
  | _ => .error .unassigned

/-! ### The transfer engine (R50) -/

/-- The copy form with extra zero or the format. -/
def decodeCopy (w : Nat) (mk : EndPt → EndPt → KIx → Instr) : Except Reject Instr :=
  match endPtOf (fld w 16 10), endPtOf (fld w 6 10) with
  | .ok d, .ok s => .ok (mk d s (finOf 8 (w / 2 ^ 3)))
  | .error r, _ => .error r
  | _, .error r => .error r

/-- The copy form with an index register in the extra field. -/
def decodeCopyI (w : Nat) (mk : EndPt → EndPt → KIx → KIx → Instr) : Except Reject Instr :=
  match endPtOf (fld w 16 10), endPtOf (fld w 6 10) with
  | .ok d, .ok s => .ok (mk d s (finOf 8 (w / 2 ^ 3)) (finOf 8 w))
  | .error r, _ => .error r
  | _, .error r => .error r

/-- `x.coll`. -/
def decodeColl (w : Nat) : Except Reject Instr :=
  need (fld w 0 2 == 0) .reserved <|
  match scopeOf (fld w 18 4), endPtOf (fld w 8 10) with
  | some c, .ok e =>
    let l := finOf 8 (w / 2 ^ 5)
    let i := finOf 8 (w / 2 ^ 2)
    (match fld w 22 4 with
    | 0 => .ok (.xCollSumI32 c e l i)
    | 1 => .ok (.xCollSumF32 c e l i)
    | 2 => .ok (.xCollBcast c e l i)
    | 3 => .ok (.xCollArgmax c e l i)
    | _ => .error .badCode)
  | none, _ => .error .badCode
  | _, .error r => .error r

/-- A transfer engine word (R50). -/
def decodeXfer (w : Nat) : Except Reject Instr :=
  match fld w 26 6 with
  | 0x01 => need (fld w 0 3 == 0) .reserved (decodeCopy w .xCopy)
  | 0x02 =>
    (match shapeFieldOf (fld w 22 4) with
    | none => .error .badCode
    | some f =>
      if fld w 21 1 = 0 then .ok (.xShapeImm f (BitVec.ofNat 21 w))
      else need (fld w 0 18 == 0) .reserved (.ok (.xShapeReg f (finOf 8 (w / 2 ^ 18)))))
  | 0x03 => need (fld w 0 3 == 0) .reserved (decodeCopy w .xUnfold)
  | 0x04 =>
    (match winFieldOf (fld w 22 4) with
    | none => .error .badCode
    | some f =>
      if fld w 21 1 = 0 then .ok (.xWinImm f (BitVec.ofNat 21 w))
      else need (fld w 0 18 == 0) .reserved (.ok (.xWinReg f (finOf 8 (w / 2 ^ 18)))))
  | 0x05 =>
    (match fld w 0 3 with
    | 0 => decodeCopy w .xUnpackT5p
    | 1 => decodeCopy w .xUnpackBsi8
    | 2 => decodeCopy w .xUnpackSp24
    | 3 => decodeCopy w .xUnpackZrun
    | _ => .error .badCode)
  | 0x06 => need (fld w 0 3 == 0) .reserved (decodeCopy w .xConv)
  | 0x07 => need (fld w 0 3 == 0) .reserved (decodeCopy w .xMcast)
  | 0x08 => decodeCopyI w .xGather
  | 0x09 => decodeCopyI w .xScatter
  | 0x0A =>
    need (fld w 6 10 == 0) .reserved <|
    (match endPtOf (fld w 16 10) with
    | .ok d => .ok (.xFill d (finOf 8 (w / 2 ^ 3)) (finOf 8 w))
    | .error r => .error r)
  | 0x0B =>
    need (fld w 0 1 == 0) .reserved <|
    (match endPtOf (fld w 4 10) with
    | .ok s => .ok (.xWbfill (BitVec.ofNat 12 (w / 2 ^ 14)) s (finOf 8 (w / 2)))
    | .error r => .error r)
  | 0x0C =>
    need (fld w 0 17 == 0) .reserved <|
    if fld w 20 6 = 0 then need (fld w 17 3 == 0) .reserved (.ok .xSyncDetach)
    else .ok (.xSync (finOf 64 (w / 2 ^ 20)) (finOf 8 (w / 2 ^ 17)))
  | 0x0D => need (fld w 0 26 == 0) .reserved (.ok .xClose)
  | 0x0E => need (fld w 16 10 == 0) .reserved (.ok (.xWait (BitVec.ofNat 16 w)))
  | 0x0F => decodeColl w
  | 0x10 => decodeLoop w .xLoop
  | 0x11 => decodeBr w .xBr
  | 0x12 => decodeKop w .xKop .xKopAdd .xKopMov
  | 0x13 => decodeEngMend w .xMendOpen .xMendSave .xMendClose
  | 0x14 => need (fld w 0 26 == 0) .reserved (.ok .xMark)
  | 0x15 => need (fld w 0 26 == 0) .reserved (.ok .xEnd)
  | _ => .error .unassigned

/-! ### Words and bytes -/

/-- The instruction that stream st of a core with ENCV v reads from a word (R35, R53). -/
def decode (st : StreamId) (v : Nat) (w : IWord) : Except Reject Instr :=
  match st with
  | .seq => decodeSeq v w.toNat
  | .vec => decodeVec v w.toNat
  | .mat => decodeMat v w.toNat
  | .xfer => decodeXfer w.toNat

/-- The word that four bytes hold, little-endian (R35). -/
def wordOfBytes (b0 b1 b2 b3 : Byte) : IWord :=
  BitVec.ofNat 32 (b0.toNat + 2 ^ 8 * b1.toNat + 2 ^ 16 * b2.toNat + 2 ^ 24 * b3.toNat)

/-- The four bytes of a word, lowest address first (R35). -/
def bytesOfWord (w : IWord) : List Byte :=
  [BitVec.ofNat 8 w.toNat, BitVec.ofNat 8 (w.toNat / 2 ^ 8), BitVec.ofNat 8 (w.toNat / 2 ^ 16),
    BitVec.ofNat 8 (w.toNat / 2 ^ 24)]

/-- The first instruction of a string of bytes and the rest of it. -/
def decodeBytes (st : StreamId) (v : Nat) : List Byte → Except Reject (Instr × List Byte)
  | b0 :: b1 :: b2 :: b3 :: rest =>
    match decode st v (wordOfBytes b0 b1 b2 b3) with
    | .ok i => .ok (i, rest)
    | .error r => .error r
  | _ => .error .tooShort

/-- The streams whose words a number is tried as, in order: the four families share their bits (R35), and the opcode table
does not say which engine fetches. Assumption log 2. -/
def tableStreams : List StreamId := [.seq, .vec, .mat, .xfer]

/-- The first stream of the list that reads an instruction from the word under ENCV 3, with that instruction. -/
def firstDecode (w : IWord) : List StreamId → Option (StreamId × Instr)
  | [] => none
  | st :: rest =>
    match decode st 3 w with
    | .ok i => some (st, i)
    | .error _ => firstDecode w rest

/-- The instruction the decoder reads from a table word of at most 32 bits. -/
def decodeTableWord (nbits w : Nat) : Option Instr :=
  if nbits ≤ 32 then (firstDecode (BitVec.ofNat 32 w) tableStreams).map Prod.snd else none

/-! ### The encoder -/

/-- S3 (R38). -/
def encS3 (maj d a b func : Nat) : Nat := maj * 2 ^ 26 + d * 2 ^ 21 + a * 2 ^ 16 + b * 2 ^ 11 + func
/-- SI and SB (R38). -/
def encSI (maj d a imm : Nat) : Nat := maj * 2 ^ 26 + d * 2 ^ 21 + a * 2 ^ 16 + imm
/-- SX (R38). -/
def encSX (maj d a h sub : Nat) : Nat := maj * 2 ^ 26 + d * 2 ^ 21 + a * 2 ^ 16 + h * 2 ^ 10 + sub
/-- VA (R44). -/
def encVA (maj d a b wa wb : Nat) : Nat := maj * 2 ^ 26 + d * 2 ^ 18 + a * 2 ^ 10 + b * 2 ^ 2 + wa * 2 + wb
/-- VI (R44). -/
def encVI (maj d a wa imm : Nat) : Nat := maj * 2 ^ 26 + d * 2 ^ 18 + a * 2 ^ 10 + wa * 2 ^ 9 + imm
/-- VC (R44). -/
def encVC (maj k op v : Nat) : Nat := maj * 2 ^ 26 + k * 2 ^ 23 + op * 2 ^ 21 + v
/-- The copy form (R50). -/
def encCopy (maj d s l x : Nat) : Nat := maj * 2 ^ 26 + d * 2 ^ 16 + s * 2 ^ 6 + l * 2 ^ 3 + x

def sizeBit : AtomSize → Nat
  | .w => 0
  | .d => 1

/-- func of an atom (R39). -/
def atomFunc (op : Nat) (z : AtomSize) (c : Scope) : Nat := op * 2 ^ 7 + sizeBit z * 2 ^ 6 + c.code

/-- The number of an instruction's word, from the layouts of R39, R45, R47, R48 and R50; none for an event. -/
def encodeNat : Instr → Option Nat
  | .add rd ra rb => some (encS3 0x1 rd.val ra.val rb.val 0)
  | .sub rd ra rb => some (encS3 0x1 rd.val ra.val rb.val 1)
  | .and rd ra rb => some (encS3 0x1 rd.val ra.val rb.val 2)
  | .or rd ra rb => some (encS3 0x1 rd.val ra.val rb.val 3)
  | .xor rd ra rb => some (encS3 0x1 rd.val ra.val rb.val 4)
  | .shl rd ra rb => some (encS3 0x1 rd.val ra.val rb.val 5)
  | .shr rd ra rb => some (encS3 0x1 rd.val ra.val rb.val 6)
  | .sar rd ra rb => some (encS3 0x1 rd.val ra.val rb.val 7)
  | .slt rd ra rb => some (encS3 0x1 rd.val ra.val rb.val 8)
  | .sltn rd ra rb => some (encS3 0x1 rd.val ra.val rb.val 9)
  | .min rd ra rb => some (encS3 0x1 rd.val ra.val rb.val 10)
  | .max rd ra rb => some (encS3 0x1 rd.val ra.val rb.val 11)
  | .minn rd ra rb => some (encS3 0x1 rd.val ra.val rb.val 12)
  | .maxn rd ra rb => some (encS3 0x1 rd.val ra.val rb.val 13)
  | .mul rd ra rb => some (encS3 0x1 rd.val ra.val rb.val 14)
  | .mulh rd ra rb => some (encS3 0x1 rd.val ra.val rb.val 15)
  | .mulhn rd ra rb => some (encS3 0x1 rd.val ra.val rb.val 16)
  | .div rd ra rb => some (encS3 0x1 rd.val ra.val rb.val 17)
  | .divn rd ra rb => some (encS3 0x1 rd.val ra.val rb.val 18)
  | .rem rd ra rb => some (encS3 0x1 rd.val ra.val rb.val 19)
  | .remn rd ra rb => some (encS3 0x1 rd.val ra.val rb.val 20)
  | .clz rd ra => some (encS3 0x1 rd.val ra.val 0 21)
  | .popc rd ra => some (encS3 0x1 rd.val ra.val 0 22)
  | .addi rd ra imm => some (encSI 0x2 rd.val ra.val imm.toNat)
  | .andi rd ra imm => some (encSI 0x3 rd.val ra.val imm.toNat)
  | .ori rd ra imm => some (encSI 0x4 rd.val ra.val imm.toNat)
  | .xori rd ra imm => some (encSI 0x5 rd.val ra.val imm.toNat)
  | .shli rd ra n => some (encSI 0x6 rd.val ra.val (0 * 2 ^ 14 + n.toNat))
  | .shri rd ra n => some (encSI 0x6 rd.val ra.val (1 * 2 ^ 14 + n.toNat))
  | .sari rd ra n => some (encSI 0x6 rd.val ra.val (2 * 2 ^ 14 + n.toNat))
  | .slti rd ra imm => some (encSI 0x7 rd.val ra.val imm.toNat)
  | .movi rd imm => some (encSI 0x8 rd.val 0 imm.toNat)
  | .movk rd p imm => some (encSI 0x9 rd.val p.val imm.toNat)
  | .beq ra rb off => some (encSI 0xa ra.val rb.val off.toNat)
  | .bne ra rb off => some (encSI 0xb ra.val rb.val off.toNat)
  | .blt ra rb off => some (encSI 0xc ra.val rb.val off.toNat)
  | .bge ra rb off => some (encSI 0xd ra.val rb.val off.toNat)
  | .bltn ra rb off => some (encSI 0xe ra.val rb.val off.toNat)
  | .bgen ra rb off => some (encSI 0xf ra.val rb.val off.toNat)
  | .jal rd off => some (0x10 * 2 ^ 26 + rd.val * 2 ^ 21 + off.toNat)
  | .jalr rd ra imm => some (encSI 0x11 rd.val ra.val imm.toNat)
  | .ldB rd ra imm => some (encSI 0x12 rd.val ra.val imm.toNat)
  | .ldBs rd ra imm => some (encSI 0x13 rd.val ra.val imm.toNat)
  | .ldH rd ra imm => some (encSI 0x14 rd.val ra.val imm.toNat)
  | .ldHs rd ra imm => some (encSI 0x15 rd.val ra.val imm.toNat)
  | .ldW rd ra imm => some (encSI 0x16 rd.val ra.val imm.toNat)
  | .ldWs rd ra imm => some (encSI 0x17 rd.val ra.val imm.toNat)
  | .ldD rd ra imm => some (encSI 0x18 rd.val ra.val imm.toNat)
  | .stB rd ra imm => some (encSI 0x19 rd.val ra.val imm.toNat)
  | .stH rd ra imm => some (encSI 0x1a rd.val ra.val imm.toNat)
  | .stW rd ra imm => some (encSI 0x1b rd.val ra.val imm.toNat)
  | .stD rd ra imm => some (encSI 0x1c rd.val ra.val imm.toNat)
  | .atomAdd rd ra rb size scope => some (encS3 0x1d rd.val ra.val rb.val (atomFunc 0 size scope))
  | .atomSwap rd ra rb size scope => some (encS3 0x1d rd.val ra.val rb.val (atomFunc 1 size scope))
  | .atomCas rd ra rb size scope => some (encS3 0x1d rd.val ra.val rb.val (atomFunc 2 size scope))
  | .atomMin rd ra rb size scope => some (encS3 0x1d rd.val ra.val rb.val (atomFunc 3 size scope))
  | .atomMax rd ra rb size scope => some (encS3 0x1d rd.val ra.val rb.val (atomFunc 4 size scope))
  | .atomOr rd ra rb size scope => some (encS3 0x1d rd.val ra.val rb.val (atomFunc 5 size scope))
  | .atomAnd rd ra rb size scope => some (encS3 0x1d rd.val ra.val rb.val (atomFunc 6 size scope))
  | .mark paths => some (encS3 0x1e 0 0 0 paths.toNat)
  | .fence pa pb scope => some (encS3 0x1e 0 0 0 (2 ^ 10 + pa.code * 2 ^ 7 + pb.code * 2 ^ 4 + scope.code))
  | .hndBind rd ra h => some (encSX 0x1f rd.val ra.val h.val 0)
  | .hndFree h => some (encSX 0x1f 0 0 h.val 1)
  | .hndStat rd h => some (encSX 0x1f rd.val 0 h.val 2)
  | .engStart e entry => some (encSI 0x20 0 (0 * 2 ^ 2 + e.code) entry.toNat)
  | .engStop e => some (encSI 0x20 0 (1 * 2 ^ 2 + e.code) 0)
  | .engStat rd e => some (encSI 0x20 rd.val (2 * 2 ^ 2 + e.code) 0)
  | .engJoin e => some (encSI 0x20 0 (3 * 2 ^ 2 + e.code) 0)
  | .swArm rd ra h => some (encSX 0x21 rd.val ra.val h.val 0)
  | .swWait rd ra h => some (encSX 0x21 rd.val ra.val h.val 1)
  | .swReadTarget rd ra h => some (encSX 0x21 rd.val ra.val h.val 2)
  | .swReadCount rd ra h => some (encSX 0x21 rd.val ra.val h.val 6)
  | .swReadGen rd ra h => some (encSX 0x21 rd.val ra.val h.val 10)
  | .swReadCode rd ra h => some (encSX 0x21 rd.val ra.val h.val 14)
  | .crewBar => some (0x22 * 2 ^ 26 + 0)
  | .wqPush ra rb => some (encS3 0x23 0 ra.val rb.val 0)
  | .viewSet v ra => some (encSI 0x24 v.val ra.val 0)
  | .mendOpen => some (encSX 0x25 0 0 0 0)
  | .mendSave rd ra h => some (encSX 0x25 rd.val ra.val h.val 1)
  | .mendClose => some (encSX 0x25 0 0 0 2)
  | .cinchOpen scope => some (encS3 0x26 0 0 0 (0 + scope.code))
  | .cinchClose => some (encS3 0x26 0 0 0 256)
  | .cinchDrop => some (encS3 0x26 0 0 0 512)
  | .clkRead rd rb => some (encS3 0x27 rd.val 0 rb.val 0)
  | .clkWait ra => some (encS3 0x27 0 ra.val 0 1)
  | .stStamp rd ra rb scope => some (encS3 0x28 rd.val ra.val rb.val scope.code)
  | .ldAsof rd ra rb scope => some (encS3 0x29 rd.val ra.val rb.val scope.code)
  | .bilClaim rd ra h => some (encSX 0x2a rd.val ra.val h.val 0)
  | .bilAdv rd ra h => some (encSX 0x2a rd.val ra.val h.val 1)
  | .bilPost rd ra h => some (encSX 0x2a rd.val ra.val h.val 2)
  | .yield => some (0x2b * 2 ^ 26 + 0)
  | .csrRead rd csr => some (encSI 0x2c rd.val 0 (0 * 2 ^ 14 + csr.code))
  | .csrWrite ra csr => some (encSI 0x2c 0 ra.val (1 * 2 ^ 14 + csr.code))
  | .csrSwap rd ra csr => some (encSI 0x2c rd.val ra.val (2 * 2 ^ 14 + csr.code))
  | .trap imm => some (encSI 0x2d 0 0 imm.toNat)
  | .tret => some (encSI 0x2d 0 1 0)
  | .injStrike st imm => some (encSI 0x2e 0 st.code imm.toNat)
  | .nop => some (0x2f * 2 ^ 26 + 0)
  | .endProg => some (0x2f * 2 ^ 26 + 1)
  | .vAdd d a b wa wb => some (encVA 0x1 d.code a.code b.code (bit wa) (bit wb))
  | .vSub d a b wa wb => some (encVA 0x2 d.code a.code b.code (bit wa) (bit wb))
  | .vMul d a b wa wb => some (encVA 0x3 d.code a.code b.code (bit wa) (bit wb))
  | .vFma d a b wa wb => some (encVA 0x4 d.code a.code b.code (bit wa) (bit wb))
  | .vMin d a b wa wb => some (encVA 0x5 d.code a.code b.code (bit wa) (bit wb))
  | .vMax d a b wa wb => some (encVA 0x6 d.code a.code b.code (bit wa) (bit wb))
  | .vAbs d a wa => some (encVA 0x7 d.code a.code 0 (bit wa) 0)
  | .vNeg d a wa => some (encVA 0x8 d.code a.code 0 (bit wa) 0)
  | .vAnd d a b wa wb => some (encVA 0x9 d.code a.code b.code (bit wa) (bit wb))
  | .vOr d a b wa wb => some (encVA 0xa d.code a.code b.code (bit wa) (bit wb))
  | .vXor d a b wa wb => some (encVA 0xb d.code a.code b.code (bit wa) (bit wb))
  | .vShl d a b wa wb => some (encVA 0xc d.code a.code b.code (bit wa) (bit wb))
  | .vShr d a b wa wb => some (encVA 0xd d.code a.code b.code (bit wa) (bit wb))
  | .vSar d a b wa wb => some (encVA 0xe d.code a.code b.code (bit wa) (bit wb))
  | .vCmpeq n a b wa wb => some (encVA 0xf n.val a.code b.code (bit wa) (bit wb))
  | .vCmplt n a b wa wb => some (encVA 0x10 n.val a.code b.code (bit wa) (bit wb))
  | .vCmple n a b wa wb => some (encVA 0x11 n.val a.code b.code (bit wa) (bit wb))
  | .vSel d a b wa wb => some (encVA 0x12 d.code a.code b.code (bit wa) (bit wb))
  | .vCvt d a t wa => some (encVA 0x13 d.code a.code (t.code * 2 ^ 4) (bit wa) 0)
  | .vAddi d a wa imm => some (encVI 0x14 d.code a.code (bit wa) imm.toNat)
  | .vMuli d a wa imm => some (encVI 0x15 d.code a.code (bit wa) imm.toNat)
  | .vMovi d imm => some (encVI 0x16 d.code 0 0 imm.toNat)
  | .vBcast d a wa imm => some (encVI 0x17 d.code a.code (bit wa) imm.toNat)
  | .vPerm d a b wa wb => some (encVA 0x18 d.code a.code b.code (bit wa) (bit wb))
  | .vRedsum d a wa => some (encVA 0x19 d.code a.code 0 (bit wa) 0)
  | .vRedmax d a wa => some (encVA 0x1a d.code a.code 0 (bit wa) 0)
  | .vRedmin d a wa => some (encVA 0x1b d.code a.code 0 (bit wa) 0)
  | .vArgmax d a wa => some (encVA 0x1c d.code a.code 0 (bit wa) 0)
  | .vLd d h j => some (encVA 0x1d d.code (h.val * 4) j.val 0 0)
  | .vSt d h j wa => some (encVA 0x1e d.code (h.val * 4) j.val (bit wa) 0)
  | .vGather d a h wa => some (encVA 0x1f d.code a.code (h.val * 4) (bit wa) 0)
  | .vScatter d a h wa wb => some (encVA 0x20 d.code a.code (h.val * 4) (bit wa) (bit wb))
  | .vRcpa d a wa => some (encVA 0x21 d.code a.code 0 (bit wa) 0)
  | .vRsqa d a wa => some (encVA 0x22 d.code a.code 0 (bit wa) 0)
  | .vRcpf d a b wa wb => some (encVA 0x23 d.code a.code b.code (bit wa) (bit wb))
  | .vRsqf d a b wa wb => some (encVA 0x24 d.code a.code b.code (bit wa) (bit wb))
  | .vCorCrot d a wa n => some (encVI 0x25 d.code a.code (bit wa) (0 * 2 ^ 5 + n.toNat))
  | .vCorCvec d a wa n => some (encVI 0x25 d.code a.code (bit wa) (1 * 2 ^ 5 + n.toNat))
  | .vCorHrot d a wa n => some (encVI 0x25 d.code a.code (bit wa) (2 * 2 ^ 5 + n.toNat))
  | .vCorHvec d a wa n => some (encVI 0x25 d.code a.code (bit wa) (3 * 2 ^ 5 + n.toNat))
  | .vCorLrot d a wa n => some (encVI 0x25 d.code a.code (bit wa) (4 * 2 ^ 5 + n.toNat))
  | .vCorLvec d a wa n => some (encVI 0x25 d.code a.code (bit wa) (5 * 2 ^ 5 + n.toNat))
  | .vSigq d a wa => some (encVA 0x26 d.code a.code 0 (bit wa) 0)
  | .vCdfq d a wa => some (encVA 0x27 d.code a.code 0 (bit wa) 0)
  | .vHash d a b wa wb => some (encVA 0x28 d.code a.code b.code (bit wa) (bit wb))
  | .vNoise d a b wa wb => some (encVA 0x29 d.code a.code b.code (bit wa) (bit wb))
  | .vBitt d a wa imm => some (encVI 0x2a d.code a.code (bit wa) imm.toNat)
  | .vClz d a wa => some (encVA 0x2b d.code a.code 0 (bit wa) 0)
  | .vPopc d a wa => some (encVA 0x2c d.code a.code 0 (bit wa) 0)
  | .vShape t lanes => some (0x2d * 2 ^ 26 + t.code * 2 ^ 18 + lanes.toNat)
  | .vShapeMasked n t lanes => some (0x2d * 2 ^ 26 + n.val * 2 ^ 23 + 2 ^ 22 + t.code * 2 ^ 18 + lanes.toNat)
  | .vMaskAnd d a b => some (encVA 0x2e (0 * 2 ^ 5 + d.val) a.val b.val 0 0)
  | .vMaskOr d a b => some (encVA 0x2e (1 * 2 ^ 5 + d.val) a.val b.val 0 0)
  | .vMaskXor d a b => some (encVA 0x2e (2 * 2 ^ 5 + d.val) a.val b.val 0 0)
  | .vMaskAndn d a b => some (encVA 0x2e (3 * 2 ^ 5 + d.val) a.val b.val 0 0)
  | .vMaskNot d a => some (encVA 0x2e (4 * 2 ^ 5 + d.val) a.val 0 0 0)
  | .vMaskSet d => some (encVA 0x2e (5 * 2 ^ 5 + d.val) 0 0 0 0)
  | .vMaskClear d => some (encVA 0x2e (6 * 2 ^ 5 + d.val) 0 0 0 0)
  | .vLoop k n => some (encVC 0x2f k.val 0 n.toNat)
  | .vBr k off => some (encVC 0x30 k.val 0 off.toNat)
  | .vKop k v => some (encVC 0x31 k.val 0 v.toNat)
  | .vKopAdd k v => some (encVC 0x31 k.val 1 v.toNat)
  | .vKopMov k i => some (encVC 0x31 k.val 2 i.val)
  | .vMendOpen => some (encVC 0x32 0 0 0)
  | .vMendSave k n => some (encVC 0x32 k.val 1 n.toNat)
  | .vMendClose => some (encVC 0x32 0 2 0)
  | .vEnd => some (0x33 * 2 ^ 26)
  | .rcInitDec c h => some (encVA 0x34 c.code (h.val * 4) 0 0 0)
  | .rcInitEnc c h => some (encVA 0x34 c.code (h.val * 4) 1 0 0)
  | .rcDec c a b wa => some (encVA 0x35 c.code a.code b.code (bit wa) 0)
  | .rcDecm c a b wa => some (encVA 0x36 c.code a.code b.code (bit wa) 0)
  | .rcEnc c a b wa wb => some (encVA 0x37 c.code a.code b.code (bit wa) (bit wb))
  | .rcEncm c a b wa wb => some (encVA 0x38 c.code a.code b.code (bit wa) (bit wb))
  | .rcFlush c => some (encVA 0x39 c.code 0 0 0 0)
  | .rcSpec c => some (encVA 0x3a c.code 0 0 0 0)
  | .rcKeep c => some (encVA 0x3b c.code 0 0 0 0)
  | .rcUndo c => some (encVA 0x3c c.code 0 0 0 0)
  | .rcStat c b => some (encVA 0x3d c.code 0 b.code 0 0)
  | .vMark => some (0x3e * 2 ^ 26)
  | .mBegin mode n => some (0x1 * 2 ^ 26 + mode.code * 2 ^ 24 + n.toNat * 2 ^ 13)
  | .mZero => some (0x2 * 2 ^ 26)
  | .mLdacc t w => some (0x3 * 2 ^ 26 + t.code * 2 ^ 18 + bit w * 2 ^ 2)
  | .mAcc t row w => some (0x4 * 2 ^ 26 + t.code * 2 ^ 18 + row.toNat * 2 ^ 6 + 0 * 2 ^ 3 + bit w * 2 ^ 2 + 0)
  | .mAcc8 t row planes w => some (0x5 * 2 ^ 26 + t.code * 2 ^ 18 + row.toNat * 2 ^ 6 + planes.val * 2 ^ 3 + bit w * 2 ^ 2 + 0)
  | .mAccsTern t row w => some (0x6 * 2 ^ 26 + t.code * 2 ^ 18 + row.toNat * 2 ^ 6 + 0 * 2 ^ 3 + bit w * 2 ^ 2 + 1)
  | .mAccsInt8 t row planes w => some (0x6 * 2 ^ 26 + t.code * 2 ^ 18 + row.toNat * 2 ^ 6 + planes.val * 2 ^ 3 + bit w * 2 ^ 2 + 2)
  | .mSeg t w => some (0x7 * 2 ^ 26 + t.code * 2 ^ 18 + bit w * 2 ^ 2)
  | .mScale a b w => some (0x8 * 2 ^ 26 + a.code * 2 ^ 18 + b.code * 2 ^ 10 + bit w * 2 ^ 2)
  | .mRetF32 t => some (0x9 * 2 ^ 26 + t.code * 2 ^ 18 + 0 * 2 ^ 15)
  | .mRetBf16 t => some (0x9 * 2 ^ 26 + t.code * 2 ^ 18 + 1 * 2 ^ 15)
  | .mRetF32Add t => some (0x9 * 2 ^ 26 + t.code * 2 ^ 18 + 2 * 2 ^ 15)
  | .mRetraw t => some (0xa * 2 ^ 26 + t.code * 2 ^ 18 + 0 * 2 ^ 15)
  | .mWbase row => some (0xb * 2 ^ 26 + row.toNat * 2 ^ 6)
  | .mLoop k n => some (encVC 0xc k.val 0 n.toNat)
  | .mBr k off => some (encVC 0xd k.val 0 off.toNat)
  | .mKop k v => some (encVC 0xe k.val 0 v.toNat)
  | .mKopAdd k v => some (encVC 0xe k.val 1 v.toNat)
  | .mKopMov k i => some (encVC 0xe k.val 2 i.val)
  | .mPert row col j => some (0xf * 2 ^ 26 + row.toNat * 2 ^ 20 + col.toNat * 2 ^ 14 + j.val * 2 ^ 11)
  | .mEnd => some (0x10 * 2 ^ 26)
  | .xCopy d s l => some (encCopy 0x1 d.code s.code l.val 0)
  | .xShapeImm f v => some (0x2 * 2 ^ 26 + f.code * 2 ^ 22 + v.toNat)
  | .xShapeReg f j => some (0x2 * 2 ^ 26 + f.code * 2 ^ 22 + 2 ^ 21 + j.val * 2 ^ 18)
  | .xUnfold d s n => some (encCopy 0x3 d.code s.code n.val 0)
  | .xWinImm f v => some (0x4 * 2 ^ 26 + f.code * 2 ^ 22 + v.toNat)
  | .xWinReg f j => some (0x4 * 2 ^ 26 + f.code * 2 ^ 22 + 2 ^ 21 + j.val * 2 ^ 18)
  | .xUnpackT5p d s l => some (encCopy 0x5 d.code s.code l.val 0)
  | .xUnpackBsi8 d s l => some (encCopy 0x5 d.code s.code l.val 1)
  | .xUnpackSp24 d s l => some (encCopy 0x5 d.code s.code l.val 2)
  | .xUnpackZrun d s l => some (encCopy 0x5 d.code s.code l.val 3)
  | .xConv d s l => some (encCopy 0x6 d.code s.code l.val 0)
  | .xMcast d s l => some (encCopy 0x7 d.code s.code l.val 0)
  | .xGather d s l i => some (encCopy 0x8 d.code s.code l.val i.val)
  | .xScatter d s l i => some (encCopy 0x9 d.code s.code l.val i.val)
  | .xFill d l v => some (encCopy 0xa d.code 0 l.val v.val)
  | .xWbfill row s l => some (0xb * 2 ^ 26 + row.toNat * 2 ^ 14 + s.code * 2 ^ 4 + l.val * 2)
  | .xSync h j => some (0xc * 2 ^ 26 + h.val * 2 ^ 20 + j.val * 2 ^ 17)
  | .xSyncDetach => some (0xc * 2 ^ 26)
  | .xClose => some (0xd * 2 ^ 26)
  | .xWait n => some (0xe * 2 ^ 26 + n.toNat)
  | .xCollSumI32 scope e l i => some (0xf * 2 ^ 26 + 0 * 2 ^ 22 + scope.code * 2 ^ 18 + e.code * 2 ^ 8 + l.val * 2 ^ 5 + i.val * 2 ^ 2)
  | .xCollSumF32 scope e l i => some (0xf * 2 ^ 26 + 1 * 2 ^ 22 + scope.code * 2 ^ 18 + e.code * 2 ^ 8 + l.val * 2 ^ 5 + i.val * 2 ^ 2)
  | .xCollBcast scope e l i => some (0xf * 2 ^ 26 + 2 * 2 ^ 22 + scope.code * 2 ^ 18 + e.code * 2 ^ 8 + l.val * 2 ^ 5 + i.val * 2 ^ 2)
  | .xCollArgmax scope e l i => some (0xf * 2 ^ 26 + 3 * 2 ^ 22 + scope.code * 2 ^ 18 + e.code * 2 ^ 8 + l.val * 2 ^ 5 + i.val * 2 ^ 2)
  | .xLoop k n => some (encVC 0x10 k.val 0 n.toNat)
  | .xBr k off => some (encVC 0x11 k.val 0 off.toNat)
  | .xKop k v => some (encVC 0x12 k.val 0 v.toNat)
  | .xKopAdd k v => some (encVC 0x12 k.val 1 v.toNat)
  | .xKopMov k i => some (encVC 0x12 k.val 2 i.val)
  | .xMendOpen => some (encVC 0x13 0 0 0)
  | .xMendSave k n => some (encVC 0x13 k.val 1 n.toNat)
  | .xMendClose => some (encVC 0x13 0 2 0)
  | .xMark => some (0x14 * 2 ^ 26)
  | .xEnd => some (0x15 * 2 ^ 26)
  | .waitSatisfied _ _ => none
  | .stopBoundaryReached _ _ => none
  | .trapEntry _ => none
  | .haltComplete _ => none
  | .loadReturn _ => none
  | .storePerformed _ => none
  | .stampedStorePerformed _ => none
  | .fenceComplete _ _ => none
  | .walkComplete _ _ => none
  | .vectorLoadLand _ => none
  | .vpAccessPerformed _ => none
  | .transferBlockIssue _ => none
  | .transferBlockLand _ _ => none
  | .collectiveResult _ _ _ => none
  | .holdingSlotRelease _ => none
  | .mendRelease _ _ => none
  | .softErrorStrike _ => none
  | .strikeReport _ => none
  | .injectedStrikeDue _ _ => none
  | .crewPlacement _ _ => none
  | .launchBlockTaken _ _ => none
  | .schedulerDecision _ _ _ => none
  | .schedulerScanRow _ => none
  | .ydlExpiry _ => none
  | .crewSave _ => none
  | .crewResume _ => none
  | .budgetWindow _ _ => none
  | .ptmExchange _ _ => none
  | .dieTimeWord _ _ _ => none
  | .timeframeSend => none
  | .timeframe _ _ _ => none
  | .heartbeat _ _ _ => none
  | .limit _ _ _ => none
  | .ack _ _ => none
  | .join _ _ => none
  | .leave _ _ => none
  | .silent _ _ _ _ => none
  | .confirm _ _ => none
  | .limitForecast _ => none
  | .limitAckTimeout => none
  | .limitStampPassed => none
  | .rampStep => none
  | .joinAckTimeout => none
  | .joinStampPassed => none
  | .leaveStampPassed => none
  | .silenceDetected _ => none
  | .fabricPortsDown => none
  | .hostCxlMemAccess _ => none
  | .notifyWrite _ _ => none
  | .interfaceEnable _ _ => none
  | .bar0RegisterWrite _ _ => none
  | .partCreate _ _ => none
  | .partDestroy _ _ => none
  | .ctxCreate _ _ => none
  | .ctxDestroy _ _ => none
  | .load _ _ => none
  | .launch _ _ => none
  | .harness _ _ => none
  | .harnessEnd _ _ => none
  | .resolve _ _ => none
  | .refuse _ _ => none
  | .unmap _ _ => none
  | .checkpoint _ _ => none
  | .restore _ _ => none
  | .timeSet _ _ => none
  | .groupJoin _ _ => none
  | .groupLeave _ _ => none
  | .collBind _ _ => none
  | .debugHalt _ _ => none
  | .debugResume _ _ => none
  | .debugReadState _ _ => none
  | .logRead _ _ => none
  | .attest _ _ => none
  | .config _ _ => none
  | .patch _ _ => none
  | .powerOn => none
  | .dieOver105c _ _ => none
  | .dieOver115c _ => none
  | .engineParityError _ _ => none
  | .innerClose _ _ => none
  | .droppedFlit _ => none
  | .fabricPortLinkChange _ _ => none

/-- The stream that fetches an instruction; none for an event. -/
def Instr.stream : Instr → Option StreamId
  | .add _ _ _ => some .seq
  | .sub _ _ _ => some .seq
  | .and _ _ _ => some .seq
  | .or _ _ _ => some .seq
  | .xor _ _ _ => some .seq
  | .shl _ _ _ => some .seq
  | .shr _ _ _ => some .seq
  | .sar _ _ _ => some .seq
  | .slt _ _ _ => some .seq
  | .sltn _ _ _ => some .seq
  | .min _ _ _ => some .seq
  | .max _ _ _ => some .seq
  | .minn _ _ _ => some .seq
  | .maxn _ _ _ => some .seq
  | .mul _ _ _ => some .seq
  | .mulh _ _ _ => some .seq
  | .mulhn _ _ _ => some .seq
  | .div _ _ _ => some .seq
  | .divn _ _ _ => some .seq
  | .rem _ _ _ => some .seq
  | .remn _ _ _ => some .seq
  | .clz _ _ => some .seq
  | .popc _ _ => some .seq
  | .addi _ _ _ => some .seq
  | .andi _ _ _ => some .seq
  | .ori _ _ _ => some .seq
  | .xori _ _ _ => some .seq
  | .shli _ _ _ => some .seq
  | .shri _ _ _ => some .seq
  | .sari _ _ _ => some .seq
  | .slti _ _ _ => some .seq
  | .movi _ _ => some .seq
  | .movk _ _ _ => some .seq
  | .beq _ _ _ => some .seq
  | .bne _ _ _ => some .seq
  | .blt _ _ _ => some .seq
  | .bge _ _ _ => some .seq
  | .bltn _ _ _ => some .seq
  | .bgen _ _ _ => some .seq
  | .jal _ _ => some .seq
  | .jalr _ _ _ => some .seq
  | .ldB _ _ _ => some .seq
  | .ldBs _ _ _ => some .seq
  | .ldH _ _ _ => some .seq
  | .ldHs _ _ _ => some .seq
  | .ldW _ _ _ => some .seq
  | .ldWs _ _ _ => some .seq
  | .ldD _ _ _ => some .seq
  | .stB _ _ _ => some .seq
  | .stH _ _ _ => some .seq
  | .stW _ _ _ => some .seq
  | .stD _ _ _ => some .seq
  | .atomAdd _ _ _ _ _ => some .seq
  | .atomSwap _ _ _ _ _ => some .seq
  | .atomCas _ _ _ _ _ => some .seq
  | .atomMin _ _ _ _ _ => some .seq
  | .atomMax _ _ _ _ _ => some .seq
  | .atomOr _ _ _ _ _ => some .seq
  | .atomAnd _ _ _ _ _ => some .seq
  | .mark _ => some .seq
  | .fence _ _ _ => some .seq
  | .hndBind _ _ _ => some .seq
  | .hndFree _ => some .seq
  | .hndStat _ _ => some .seq
  | .engStart _ _ => some .seq
  | .engStop _ => some .seq
  | .engStat _ _ => some .seq
  | .engJoin _ => some .seq
  | .swArm _ _ _ => some .seq
  | .swWait _ _ _ => some .seq
  | .swReadTarget _ _ _ => some .seq
  | .swReadCount _ _ _ => some .seq
  | .swReadGen _ _ _ => some .seq
  | .swReadCode _ _ _ => some .seq
  | .crewBar => some .seq
  | .wqPush _ _ => some .seq
  | .viewSet _ _ => some .seq
  | .mendOpen => some .seq
  | .mendSave _ _ _ => some .seq
  | .mendClose => some .seq
  | .cinchOpen _ => some .seq
  | .cinchClose => some .seq
  | .cinchDrop => some .seq
  | .clkRead _ _ => some .seq
  | .clkWait _ => some .seq
  | .stStamp _ _ _ _ => some .seq
  | .ldAsof _ _ _ _ => some .seq
  | .bilClaim _ _ _ => some .seq
  | .bilAdv _ _ _ => some .seq
  | .bilPost _ _ _ => some .seq
  | .yield => some .seq
  | .csrRead _ _ => some .seq
  | .csrWrite _ _ => some .seq
  | .csrSwap _ _ _ => some .seq
  | .trap _ => some .seq
  | .tret => some .seq
  | .injStrike _ _ => some .seq
  | .nop => some .seq
  | .endProg => some .seq
  | .vAdd _ _ _ _ _ => some .vec
  | .vSub _ _ _ _ _ => some .vec
  | .vMul _ _ _ _ _ => some .vec
  | .vFma _ _ _ _ _ => some .vec
  | .vMin _ _ _ _ _ => some .vec
  | .vMax _ _ _ _ _ => some .vec
  | .vAbs _ _ _ => some .vec
  | .vNeg _ _ _ => some .vec
  | .vAnd _ _ _ _ _ => some .vec
  | .vOr _ _ _ _ _ => some .vec
  | .vXor _ _ _ _ _ => some .vec
  | .vShl _ _ _ _ _ => some .vec
  | .vShr _ _ _ _ _ => some .vec
  | .vSar _ _ _ _ _ => some .vec
  | .vCmpeq _ _ _ _ _ => some .vec
  | .vCmplt _ _ _ _ _ => some .vec
  | .vCmple _ _ _ _ _ => some .vec
  | .vSel _ _ _ _ _ => some .vec
  | .vCvt _ _ _ _ => some .vec
  | .vAddi _ _ _ _ => some .vec
  | .vMuli _ _ _ _ => some .vec
  | .vMovi _ _ => some .vec
  | .vBcast _ _ _ _ => some .vec
  | .vPerm _ _ _ _ _ => some .vec
  | .vRedsum _ _ _ => some .vec
  | .vRedmax _ _ _ => some .vec
  | .vRedmin _ _ _ => some .vec
  | .vArgmax _ _ _ => some .vec
  | .vLd _ _ _ => some .vec
  | .vSt _ _ _ _ => some .vec
  | .vGather _ _ _ _ => some .vec
  | .vScatter _ _ _ _ _ => some .vec
  | .vRcpa _ _ _ => some .vec
  | .vRsqa _ _ _ => some .vec
  | .vRcpf _ _ _ _ _ => some .vec
  | .vRsqf _ _ _ _ _ => some .vec
  | .vCorCrot _ _ _ _ => some .vec
  | .vCorCvec _ _ _ _ => some .vec
  | .vCorHrot _ _ _ _ => some .vec
  | .vCorHvec _ _ _ _ => some .vec
  | .vCorLrot _ _ _ _ => some .vec
  | .vCorLvec _ _ _ _ => some .vec
  | .vSigq _ _ _ => some .vec
  | .vCdfq _ _ _ => some .vec
  | .vHash _ _ _ _ _ => some .vec
  | .vNoise _ _ _ _ _ => some .vec
  | .vBitt _ _ _ _ => some .vec
  | .vClz _ _ _ => some .vec
  | .vPopc _ _ _ => some .vec
  | .vShape _ _ => some .vec
  | .vShapeMasked _ _ _ => some .vec
  | .vMaskAnd _ _ _ => some .vec
  | .vMaskOr _ _ _ => some .vec
  | .vMaskXor _ _ _ => some .vec
  | .vMaskAndn _ _ _ => some .vec
  | .vMaskNot _ _ => some .vec
  | .vMaskSet _ => some .vec
  | .vMaskClear _ => some .vec
  | .vLoop _ _ => some .vec
  | .vBr _ _ => some .vec
  | .vKop _ _ => some .vec
  | .vKopAdd _ _ => some .vec
  | .vKopMov _ _ => some .vec
  | .vMendOpen => some .vec
  | .vMendSave _ _ => some .vec
  | .vMendClose => some .vec
  | .vEnd => some .vec
  | .rcInitDec _ _ => some .vec
  | .rcInitEnc _ _ => some .vec
  | .rcDec _ _ _ _ => some .vec
  | .rcDecm _ _ _ _ => some .vec
  | .rcEnc _ _ _ _ _ => some .vec
  | .rcEncm _ _ _ _ _ => some .vec
  | .rcFlush _ => some .vec
  | .rcSpec _ => some .vec
  | .rcKeep _ => some .vec
  | .rcUndo _ => some .vec
  | .rcStat _ _ => some .vec
  | .vMark => some .vec
  | .mBegin _ _ => some .mat
  | .mZero => some .mat
  | .mLdacc _ _ => some .mat
  | .mAcc _ _ _ => some .mat
  | .mAcc8 _ _ _ _ => some .mat
  | .mAccsTern _ _ _ => some .mat
  | .mAccsInt8 _ _ _ _ => some .mat
  | .mSeg _ _ => some .mat
  | .mScale _ _ _ => some .mat
  | .mRetF32 _ => some .mat
  | .mRetBf16 _ => some .mat
  | .mRetF32Add _ => some .mat
  | .mRetraw _ => some .mat
  | .mWbase _ => some .mat
  | .mLoop _ _ => some .mat
  | .mBr _ _ => some .mat
  | .mKop _ _ => some .mat
  | .mKopAdd _ _ => some .mat
  | .mKopMov _ _ => some .mat
  | .mPert _ _ _ => some .mat
  | .mEnd => some .mat
  | .xCopy _ _ _ => some .xfer
  | .xShapeImm _ _ => some .xfer
  | .xShapeReg _ _ => some .xfer
  | .xUnfold _ _ _ => some .xfer
  | .xWinImm _ _ => some .xfer
  | .xWinReg _ _ => some .xfer
  | .xUnpackT5p _ _ _ => some .xfer
  | .xUnpackBsi8 _ _ _ => some .xfer
  | .xUnpackSp24 _ _ _ => some .xfer
  | .xUnpackZrun _ _ _ => some .xfer
  | .xConv _ _ _ => some .xfer
  | .xMcast _ _ _ => some .xfer
  | .xGather _ _ _ _ => some .xfer
  | .xScatter _ _ _ _ => some .xfer
  | .xFill _ _ _ => some .xfer
  | .xWbfill _ _ _ => some .xfer
  | .xSync _ _ => some .xfer
  | .xSyncDetach => some .xfer
  | .xClose => some .xfer
  | .xWait _ => some .xfer
  | .xCollSumI32 _ _ _ _ => some .xfer
  | .xCollSumF32 _ _ _ _ => some .xfer
  | .xCollBcast _ _ _ _ => some .xfer
  | .xCollArgmax _ _ _ _ => some .xfer
  | .xLoop _ _ => some .xfer
  | .xBr _ _ => some .xfer
  | .xKop _ _ => some .xfer
  | .xKopAdd _ _ => some .xfer
  | .xKopMov _ _ => some .xfer
  | .xMendOpen => some .xfer
  | .xMendSave _ _ => some .xfer
  | .xMendClose => some .xfer
  | .xMark => some .xfer
  | .xEnd => some .xfer
  | .waitSatisfied _ _ => none
  | .stopBoundaryReached _ _ => none
  | .trapEntry _ => none
  | .haltComplete _ => none
  | .loadReturn _ => none
  | .storePerformed _ => none
  | .stampedStorePerformed _ => none
  | .fenceComplete _ _ => none
  | .walkComplete _ _ => none
  | .vectorLoadLand _ => none
  | .vpAccessPerformed _ => none
  | .transferBlockIssue _ => none
  | .transferBlockLand _ _ => none
  | .collectiveResult _ _ _ => none
  | .holdingSlotRelease _ => none
  | .mendRelease _ _ => none
  | .softErrorStrike _ => none
  | .strikeReport _ => none
  | .injectedStrikeDue _ _ => none
  | .crewPlacement _ _ => none
  | .launchBlockTaken _ _ => none
  | .schedulerDecision _ _ _ => none
  | .schedulerScanRow _ => none
  | .ydlExpiry _ => none
  | .crewSave _ => none
  | .crewResume _ => none
  | .budgetWindow _ _ => none
  | .ptmExchange _ _ => none
  | .dieTimeWord _ _ _ => none
  | .timeframeSend => none
  | .timeframe _ _ _ => none
  | .heartbeat _ _ _ => none
  | .limit _ _ _ => none
  | .ack _ _ => none
  | .join _ _ => none
  | .leave _ _ => none
  | .silent _ _ _ _ => none
  | .confirm _ _ => none
  | .limitForecast _ => none
  | .limitAckTimeout => none
  | .limitStampPassed => none
  | .rampStep => none
  | .joinAckTimeout => none
  | .joinStampPassed => none
  | .leaveStampPassed => none
  | .silenceDetected _ => none
  | .fabricPortsDown => none
  | .hostCxlMemAccess _ => none
  | .notifyWrite _ _ => none
  | .interfaceEnable _ _ => none
  | .bar0RegisterWrite _ _ => none
  | .partCreate _ _ => none
  | .partDestroy _ _ => none
  | .ctxCreate _ _ => none
  | .ctxDestroy _ _ => none
  | .load _ _ => none
  | .launch _ _ => none
  | .harness _ _ => none
  | .harnessEnd _ _ => none
  | .resolve _ _ => none
  | .refuse _ _ => none
  | .unmap _ _ => none
  | .checkpoint _ _ => none
  | .restore _ _ => none
  | .timeSet _ _ => none
  | .groupJoin _ _ => none
  | .groupLeave _ _ => none
  | .collBind _ _ => none
  | .debugHalt _ _ => none
  | .debugResume _ _ => none
  | .debugReadState _ _ => none
  | .logRead _ _ => none
  | .attest _ _ => none
  | .config _ _ => none
  | .patch _ _ => none
  | .powerOn => none
  | .dieOver105c _ _ => none
  | .dieOver115c _ => none
  | .engineParityError _ _ => none
  | .innerClose _ _ => none
  | .droppedFlit _ => none
  | .fabricPortLinkChange _ _ => none

/-- The word of an instruction of encoding version 3; none for an event. -/
def encode (i : Instr) : Option IWord := (encodeNat i).map (BitVec.ofNat 32)

end Sys2Proof
end

