-- ==== Sys2Proof/Machine/State.lean ====
section
/-!
DEFINITION. Everything the spec gives the machine, as plain data, and the machine right after power-on. One core, the
focused one, stands in `State.core`; the others stand in `State.others`. Sparse tables are lists of (key, value) with
rising keys that leave out default values. Fields marked MODEL are the model's own and no state of the OX-4: the schedule of
turns, the cycle counter, the counters that number accesses, bindings and free choices (assumption log 1, 5, 8).
-/
namespace Sys2Proof.Machine

/-- Bytes of memory, rising addresses, no byte listed that is 0 (Memory.wf; assumption log 4). -/
abbrev Memory := List Host.Cell

/-- A register g with its full/empty bit (R78). -/
structure GReg where
  val  : Word
  full : Bool
  deriving DecidableEq, Repr

/-- A k register with its loop limit (R44, R47). -/
structure KReg where
  val   : BitVec 32
  limit : BitVec 32
  deriving DecidableEq, Repr

/-- A tree line with its full/empty bit (R3, R29). -/
structure Line where
  data : BitVec 512
  full : Bool
  deriving DecidableEq, Repr

/-- One translated stretch of a binding: `len` bytes from offset `off` lie at `pa` onward (R87, R216). -/
structure Seg where
  off : Nat
  len : Nat
  pa  : PAddr
  deriving DecidableEq, Repr

/-- A binding of a handle slot (R87 to R91). `id` is MODEL: it tells bindings apart. -/
structure Binding where
  id       : Nat
  slot     : Hnd
  base     : Nat
  len      : Nat
  kind     : Space
  writable : Bool
  segs     : List Seg
  revoking : Bool
  revoked  : Bool
  deriving DecidableEq, Repr

/-- A load in the load queue (R83). `cells` are the bytes to read, ascending; `binds` the bindings it is in flight on; `got` the bytes
that a misaligned load has read so far (R82). -/
structure LoadEntry where
  seq    : Nat
  pc     : Word
  rd     : Reg
  va     : Nat
  cells  : List PAddr
  signed : Bool
  binds  : List Nat
  got    : List Byte
  deriving DecidableEq, Repr

/-- What a queued or grouped store does when it is performed (R82, R205, R260, R261). -/
inductive StoreKind where
  /-- Plain bytes. -/
  | plain (cells : List (PAddr × Byte))
  /-- A stamped version for the cell at `pa` (R205). -/
  | stamp (scope : Scope) (s : Int) (pa : PAddr) (value : Word)
  /-- `bil.adv` of a row, whose first byte lies at `pa` (R260). -/
  | adv (row phase : Nat) (pa : PAddr)
  /-- `bil.post` of a row (R261). -/
  | post (row phase : Nat) (pa : PAddr)
  deriving DecidableEq, Repr

/-- A store in the store queue or in a cinch group (R83, R246). `begun`: some bytes of a misaligned store are performed, `kind` holds
the others (R82); `told`: one of them met DATA_LOST, and the sequencer has been told (R224). -/
structure StoreEntry where
  seq   : Nat
  pc    : Word
  va    : Nat
  kind  : StoreKind
  binds : List Nat
  begun : Bool
  told  : Bool
  deriving DecidableEq, Repr

/-- A pending fence (R244). `until` is the issuing die's latest bound at issue, for TIME scope. -/
structure Fence where
  seq   : Nat
  pa    : Path
  pb    : Path
  scope : Scope
  limit : Int
  deriving DecidableEq, Repr

/-- An open cinch with its group, oldest store first (R246, R247). -/
structure Cinch where
  scope  : Scope
  pc     : Word
  seq    : Nat
  stores : List StoreEntry
  deriving DecidableEq, Repr

/-- What an `atom` does to its word (R245). -/
inductive AtomOp where
  | add
  | swap
  | cas
  | min
  | max
  | or
  | and
  deriving DecidableEq, Repr

/-- A held effect of the sequencer with its operands (R291). `begun` and `told` are those of a store whose bytes are being performed one
by one (R82). -/
inductive HeldEffect where
  | store (va : Nat) (cells : List (PAddr × Byte)) (binds : List Nat) (begun told : Bool)
  | atom (op : AtomOp) (n : Nat) (scope : Scope) (va : Nat) (pa : PAddr) (b e : Int) (binds : List Nat)
  | push (va target : Nat)
  | billet (k : StoreKind) (va : Nat) (binds : List Nat)
  | cinch (scope : Scope) (stores : List StoreEntry)
  deriving DecidableEq, Repr

/-- Saved local-store bytes of a sequencer region (R290); `lost`: a line of the undo buffer that holds them is uncorrectable (R223). -/
structure SavedBytes where
  pa    : PAddr
  bytes : List Byte
  lost  : Bool
  deriving DecidableEq, Repr

/-- An open mend region of the sequencer stream (R289 to R293). `saved` is newest first; `held` oldest first. -/
structure SeqRegion where
  pc      : Word
  seq     : Nat
  snap    : Vector GReg 32
  mask    : BitVec 5
  saved   : List SavedBytes
  held    : List HeldEffect
  charge  : Nat
  retries : Nat
  deriving DecidableEq, Repr

/-- A bind whose page walks are running (R87, R218): the stretches of its range whose pages are walked, each with its page's leave to
write; the 64 KiB pieces whose pages are still to be walked; the failures, each with its page's first address, cause, entry and level.
`stale`: an unmap has found walked pages in it, so that the binding falls under R91 as soon as it is LIVE (R219). -/
structure WalkJob where
  slot   : Hnd
  base   : Nat
  len    : Nat
  access : Nat
  done   : List (Seg × Bool)
  todo   : List Nat
  failed : List (Nat × Nat × Word × Nat)
  stale  : Bool
  deriving DecidableEq, Repr

/-- A translation fault record that the host has not answered (R217): the record's 64 bytes. -/
structure FaultHold where
  record : BitVec 512
  deriving DecidableEq, Repr

/-- An asynchronous trap cause that waits for a boundary (R296, R297). A stop keeps the cycle in which the stream stopped (R19). -/
inductive TrapCause where
  | strike (mayLeft mayCore : Bool)
  | dataLost (va : Word) (pc : Word)
  | stop (e : Eng) (code : BitVec 16) (cycle : Nat)
  deriving DecidableEq, Repr

/-- A region or reduction that was rolled back and has not opened again: how deep it stands, the offset of its opening word,
its rollbacks so far (R125, R293, R308). -/
structure Again where
  depth   : Nat
  pc      : Word
  retries : Nat
  deriving DecidableEq, Repr

/-- The states of an engine stream (R17). A wait names its kind and its tree line (R95). -/
inductive EngState where
  | idle
  | run
  | wait (kind line : Nat)
  | ended
  | stopped
  deriving DecidableEq, Repr

/-- MAYCORE and MAYLEFT as they are when a strike report is delivered (R311). -/
structure StrikeBits where
  mayCore : Bool
  mayLeft : Bool
  deriving DecidableEq, Repr

/-- What the three engine streams have alike (R16, R17, R95, R307, R310): the program counter as a byte offset; the code of
the last stop; a stop request; a strike report that waits for a resumption, with its bits; the cycle of the last retirement; whether an
outermost close is releasing its held effects. -/
structure Engine where
  st      : EngState
  pc      : Word
  code    : BitVec 16
  stopReq : Bool
  strike  : Option StrikeBits
  retired : Nat
  releasing : Bool
  k       : Vector KReg 8
  deriving DecidableEq, Repr

/-- `SHAPE` (R130). -/
structure Shape where
  mask  : Fin 8
  on    : Bool
  ty    : EType
  lanes : Nat
  deriving DecidableEq, Repr

/-- An issued access of the vector engine on VP (R147). A load's cells pair a tree byte with the memory byte it receives;
`zero` are the tree bytes that receive zero; `lines` the lines it fills; `wwait` that it writes through a write-wait view. -/
inductive VpKind where
  | load (cells : List (Nat × PAddr)) (zero : List Nat) (lines : List Nat) (wwait : Bool)
  | store (cells : List (PAddr × Byte))
  deriving DecidableEq, Repr

/-- An access with its number and its word. `width` is the bytes of an element, each of which is single-copy atomic (R147). `eaten` are
the lines that the word emptied, for a word that may execute again after a loss (R159), none for an `rc.` word; `lost`: the access is held
in a line of the undo buffer that is uncorrectable (R223). `got` are the bytes that a load has read so far, `begun` tells that a write has
performed some of its elements, the others standing in `kind`. `detail` is the detail that a DATA_LOST of it has, fixed when its word issued
(R5). -/
structure VpEntry where
  seq   : Nat
  pc    : Word
  detail : Word
  kind  : VpKind
  width : Nat
  binds : List Nat
  eaten : Option (List Nat)
  lost  : Bool
  got   : List Byte
  begun : Bool
  deriving DecidableEq, Repr

/-- A deferred mark of a tree line: true marks it full (R305). -/
abbrev Mark := Nat × Bool

/-- A saved tree line (R304); `lost`: its line of the undo buffer is uncorrectable (R223). -/
structure SavedLine where
  line : Nat
  old  : Line
  lost : Bool
  deriving DecidableEq, Repr

/-- The begin snapshot of a vector region (R304). -/
structure VecSnap where
  shape  : Shape
  masks  : Vector (BitVec 256) 8
  k      : Vector KReg 8
  shadow : Vector (BitVec 192) 64
  deriving DecidableEq, Repr

/-- An open mend region of the vector stream (R304 to R308). -/
structure VecRegion where
  pc      : Word
  snap    : VecSnap
  mask    : BitVec 5
  saved   : List SavedLine
  held    : List VpEntry
  marks   : List Mark
  charge  : Nat
  retries : Nat
  deriving DecidableEq, Repr

/-- The vector engine (R16): `vp` lists issued accesses not yet performed, oldest first; `lostAt` is the failed access that
stops the engine once the others complete, with its detail, `lastVp` the access that the youngest issued word made (R159), `struck` a strike report that
stops the engine once every issued instruction has completed (R159, R311). -/
structure VecEngine where
  eng     : Engine
  shape   : Shape
  masks   : Vector (BitVec 256) 8
  shadow  : Vector (BitVec 192) 64
  vp      : List VpEntry
  regions : List VecRegion
  again   : List Again
  lostAt  : Option (Word × Word)
  lastVp  : Option Nat
  struck  : Option StrikeBits
  deriving DecidableEq, Repr

/-- A pending perturbation (R121). -/
structure Pert where
  row : Nat
  col : Nat
  val : Int
  deriving DecidableEq, Repr

/-- The begin snapshot of a reduction (R107). Accumulator (r, n) has key 64r + n. -/
structure MatSnap where
  pc    : Word
  acc   : List (Nat × Int)
  k     : Vector KReg 8
  base  : Nat
  seg   : BitVec 512
  rows  : BitVec 512
  cols  : BitVec 512
  pert  : Option Pert
  deriving DecidableEq, Repr

/-- A retired tile in a holding slot (R118, R119): its lines, its view's wwait, the cycle it was computed. -/
structure Tile where
  lines : List (Nat × BitVec 512)
  wwait : Bool
  made  : Nat
  deriving DecidableEq, Repr

/-- A reduction not yet released, open while it has no tile (R105, R106, R119, R120, R125). -/
structure Reduction where
  snap    : MatSnap
  mode    : MatMode
  n       : Nat
  p       : Nat
  marks   : List Nat
  mask    : BitVec 5
  retries : Nat
  tile    : Option Tile
  deriving DecidableEq, Repr

/-- What a k-step has read before it takes effect: the tree lines of its A operand and some of its weight-buffer rows, each at an instant of
its own (R127). -/
structure StepReads where
  lines : List (Nat × BitVec 512)
  rows  : List (Nat × BitVec 2048)
  deriving DecidableEq, Repr

/-- The matrix engine (R105). `reds` are the unreleased reductions, oldest first; `issues` the array cycles still due of the
k-step in progress, `spent` and `budget` the governor's (R128); `spilled` tells that a spill image belongs to the last stop
(R123), and `spill` is that image's accumulators, header words and tables; `window` is the cycle in which the governor's window
began (R128); `begun` is what the k-step at issue has read so far (R127); `fault` is a fault, with its detail, that waits for the holding slots (R123); `atRet` tells that the stream has retired
a reduction since it was asked to stop, so that it issues no more (R129, R271). -/
structure MatEngine where
  eng     : Engine
  acc     : List (Nat × Int)
  seg     : BitVec 512
  rows    : BitVec 512
  cols    : BitVec 512
  base    : Nat
  pert    : Option Pert
  reds    : List Reduction
  again   : List Again
  issues  : Option Nat
  begun   : Option StepReads
  spent   : Nat
  budget  : Nat
  window  : Nat
  fault   : Option (BitVec 16 × Word)
  atRet   : Bool
  spilled : Bool
  spill   : List Word
  deriving DecidableEq, Repr

/-- A resolved endpoint of a transfer (R163). -/
inductive XEnd where
  | tree (line : Nat) (consume wwait : Bool)
  | mem (b : Binding) (off : Nat)
  deriving DecidableEq, Repr

/-- The operations of `x.coll` (R185). -/
inductive CollOp where
  | sumI32
  | sumF32
  | bcast
  | argmax
  deriving DecidableEq, Repr

/-- The formats of `x.unpack` (R173). -/
inductive PackFmt where
  | t5p
  | bsi8
  | sp24
  | zrun
  deriving DecidableEq, Repr

/-- What a data operation does, with the fields it captured at issue (R165 to R176, R185). -/
inductive XKind where
  | copy (rows rowbytes spitch dpitch : Nat)
  | fill (v : BitVec 32)
  | gather (e : Nat) (idx : List Nat)
  | scatter (e : Nat) (idx : List Nat)
  | wbfill (row : Nat)
  | conv (st dt : EType)
  | unfold (win : Vector (BitVec 32) 15) (t : EType) (spitch dpitch p0 : Nat)
  | unpack (fmt : PackFmt) (ratio : Nat) (dt : EType)
  | mcast
  | coll (op : CollOp) (scope : Scope) (ident m : Nat)
  deriving DecidableEq, Repr

/-- A block handed over and not yet landed (R160): its first destination byte, its bytes, the tree lines it consumes when it
lands (R175), the bindings it is in flight on, and the lines and sectors of its sources that were lost. `landed` counts the bytes of it
that have landed already; `bytes` are the others. `formed` tells that a collective's block holds the result, which has still to land (R185). -/
structure Block where
  seq     : Nat
  first   : Nat
  bytes   : List Byte
  consume : List Nat
  binds   : List Nat
  lost    : Bool
  badTag  : Bool
  landed  : Nat
  formed  : Bool
  deriving DecidableEq, Repr

/-- An endpoint as a step word names it, its register values read (R49): view and index, or handle and byte offset. -/
inductive XPoint where
  | tree (view : Fin 8) (i : Nat)
  | hnd (h : Hnd) (off : Nat)
  deriving DecidableEq, Repr

/-- A data operation (R160). `src` is none for a fill. `len` counts destination bytes, for `unpack` source bytes. `next` is
the first byte not handed over (destination byte, for `unpack` source byte), `out` the next output byte of an `unpack`;
`taken` the source lines already taken for the block at issue. `dstPt` and `srcPt` are what the word names: a held word is placed
again when it is issued (R91, R305). `done` are the blocks, or parts of blocks, that have landed; `later` are the bytes of memory, in units
that the operation has landed a part of, which other operations have landed in since, each with that operation's core and number,
`laterTree` the same for bytes of the tree with the operation's number (R161). -/
structure XOp where
  id      : Nat
  seq     : Nat
  pc      : Word
  word    : IWord
  kind    : XKind
  dstPt   : XPoint
  srcPt   : Option XPoint
  dst     : XEnd
  src     : Option XEnd
  len     : Nat
  batch   : Nat
  next    : Nat
  out     : Nat
  taken   : List (Nat × BitVec 512)
  blocks  : List Block
  done    : List Block
  later   : List (Nat × Nat × PAddr)
  laterTree : List (Nat × Nat)
  issued  : Bool
  failed  : Option (BitVec 16)
  /-- The bits of the strike report that has failed it (R311). -/
  bits    : StrikeBits
  written : Bool
  left    : Bool
  mask    : BitVec 5
  /-- The operation runs in place inside an open region: its additions are deferred (R305). -/
  inside  : Bool
  /-- The line and the length of the word's index list (R168); none where it has none. -/
  index   : Option (Nat × Nat)
  /-- A held word that still has to make its checks at the release (R162, R305). -/
  unissued : Bool
  deriving DecidableEq, Repr

/-- A sync word as a batch names it (R180): its place and its binding. -/
structure SyncRef where
  pa   : PAddr
  bind : Nat
  deriving DecidableEq, Repr

/-- A batch (R178): `landed` counts the bytes its operations landed before it had a sync word. -/
structure Batch where
  id     : Nat
  sync   : Option SyncRef
  landed : Nat
  used   : Bool
  deriving DecidableEq, Repr

/-- A recorded run failure (R184), with the bits of its record (R311). -/
structure XFail where
  seq     : Nat
  pc      : Word
  word    : IWord
  code    : BitVec 16
  mayCore : Bool
  mayLeft : Bool
  deriving DecidableEq, Repr

/-- A deferred addition to a sync word (R305): bytes, and code with flags when it is a failure. -/
structure SyncAdd where
  pa    : PAddr
  bytes : Nat
  code  : BitVec 16
  flags : BitVec 16
  deriving DecidableEq, Repr

/-- The begin snapshot of a transfer region (R304). -/
structure XferSnap where
  k         : Vector KReg 8
  shape     : Vector (BitVec 32) 7
  win       : Vector (BitVec 32) 15
  openBatch : Option Batch
  deriving DecidableEq, Repr

/-- An open mend region of the transfer stream (R304 to R308). `held` are held step words with their captured fields. -/
structure XferRegion where
  pc      : Word
  snap    : XferSnap
  mask    : BitVec 5
  saved   : List SavedLine
  held    : List XOp
  marks   : List Mark
  adds    : List SyncAdd
  charge  : Nat
  retries : Nat
  deriving DecidableEq, Repr

/-- The transfer engine (R16). `cur` is the operation whose blocks are being handed over (R160); `ops` the operations all of
whose blocks are handed over and that have not completed; `batches` the outstanding ones; `colls` how many collectives of
each identifier this participant has issued (R185). -/
structure XferEngine where
  eng       : Engine
  shape     : Vector (BitVec 32) 7
  win       : Vector (BitVec 32) 15
  openBatch : Option Batch
  batches   : List Batch
  cur       : Option XOp
  ops       : List XOp
  fails     : List XFail
  regions   : List XferRegion
  again     : List Again
  colls     : List (Nat × Nat)
  /-- Collectives (identifier, number) that have ended before this participant issued them, with their code (R184, R322). -/
  lostColls : List (Nat × Nat × BitVec 16)
  /-- The lines of an index list that the word at issue has read so far (R168). -/
  index     : List (Nat × BitVec 512)
  deriving DecidableEq, Repr

/-- The resources of a launch (R23, R25). `lens` are the four section lengths in words. -/
structure Resources where
  encv    : Nat
  ls      : Nat
  tree    : Nat
  handles : Nat
  wb      : Nat
  undo    : Nat
  lens    : Vector Nat 4
  deriving DecidableEq, Repr

/-- Which crew holds a core, and where the core stands in it (R15). -/
structure Seat where
  crew : Nat
  ctx  : Nat
  rank : Nat
  size : Nat
  res  : Resources
  deriving DecidableEq, Repr

/-- The sequencer of a core (R16, R103). `wait` tells that the next instruction has tried to issue and waits; `retired` is the
cycle in which the last instruction retired; `barMarked` and `barDone` count the barriers this rank has arrived at and left
(R102); `markAt` is the access number at which a waiting `mark`, `atom` or `bil.claim` issued (R243), and `bars` tells that the word is an
`atom` or a claim, which holds the engines' accesses too (R245, R259). -/
structure Sequencer where
  pc        : Word
  g         : Vector GReg 32
  h         : Vector (Option Binding) 64
  k         : Vector KReg 8
  draining  : List Binding
  lq        : List LoadEntry
  sq        : List StoreEntry
  tvec      : Word
  tcause    : BitVec 16
  taddr     : Word
  tpc       : Word
  clkmax    : BitVec 32
  govstall  : Word
  yreq      : Bool
  ydl       : Nat
  mendretry : Word
  flags     : BitVec 5
  tactive   : Bool
  /-- MODEL: the access number at the latest trap entry, which tells the regions that its handler has opened (R300). -/
  trapSeq   : Nat
  /-- The stream whose stop the active trap reports (R299). -/
  trapStop  : Option Eng
  /-- That stream is still STOPPED by the stop that the trap reports (R300). -/
  stopHeld  : Bool
  ended     : Bool
  endCode   : BitVec 16
  wait      : Bool
  retired   : Nat
  regions   : List SeqRegion
  again     : List Again
  cinch     : Option Cinch
  fences    : List Fence
  walk      : Option WalkJob
  hold      : Option FaultHold
  traps     : List TrapCause
  barMarked : Nat
  barDone   : Nat
  yielded   : Bool
  /-- The rank waits at its `yield` (R270). -/
  atYield   : Bool
  /-- `YDL` reached 0 in an earlier cycle, while the request stands (R271). -/
  overdue   : Bool
  markAt    : Option Nat
  bars      : Bool
  /-- The offset of the instruction that retired last (R301: the word that an asynchronous trap's record concerns). -/
  last      : Word
  /-- An outermost close is releasing its held effects (R292). -/
  releasing : Bool
  /-- The rollbacks, while a trap is active, of regions that had not opened again when it was taken (R300, R308). -/
  kept      : List Again
  deriving DecidableEq, Repr

/-- When a stream last did something another stream of the core could read, or that reached memory beyond it (R310, R311). -/
structure Effects where
  seen : Option Nat
  left : Option Nat
  deriving DecidableEq, Repr

/-- A strike report on its way to a core (R303): the streams it names. -/
structure Report where
  streams : List StreamId
  born    : Nat
  deriving DecidableEq, Repr

/-- A pending injected report (R294). -/
structure Injected where
  stream : StreamId
  due    : Nat
  deriving DecidableEq, Repr

/-- One core. `id` is 128 × die + core. -/
structure Core where
  id       : Nat
  seat     : Option Seat
  /-- The context whose bytes the multicast window holds (R177). -/
  lastCtx  : Option Nat
  seq      : Sequencer
  vec      : VecEngine
  mat      : MatEngine
  xfer     : XferEngine
  views    : Vector (BitVec 64) 8
  tree     : List (Nat × Line)
  wb       : List (Nat × BitVec 2048)
  /-- Lines and rows whose ECC finds them uncorrectable (R223). -/
  treeLost : List Nat
  wbLost   : List Nat
  reports  : List Report
  injected : List Injected
  effects  : Vector Effects 4
  /-- The record slots of the save area, and how many records each stream has written (R301, R302). -/
  records  : Vector (BitVec 512) 4
  /-- Records that wait until the sequencer has taken the trap of the record in their stream's slot (R302), oldest first. -/
  waiting  : List (StreamId × BitVec 512)
  written  : Vector (BitVec 32) 4
  /-- MODEL: numbers issued accesses, bindings, operations and batches. -/
  issue    : Nat
  deriving DecidableEq, Repr

/-- A block in a launch queue (R267). -/
structure LaunchBlock where
  va     : Nat
  bytes  : List Byte
  ctx    : Nat
  pusher : Nat
  deriving DecidableEq, Repr

/-- A launch packet's fields (R23, R256). -/
structure LaunchPacket where
  crew  : Nat
  res   : Resources
  code  : Nat
  done  : Nat
  args  : Vector Word 8
  phase : Nat
  cmax  : Nat
  cmin  : Nat
  bound : Nat
  ydl   : Nat
  deriving DecidableEq, Repr

/-- Where a crew comes from (R25, R266, R268). -/
inductive Origin where
  | host (q : Fin 64) (tag : Nat) (image len : Nat)
  | block (pusher target : Nat)
  | stage (s : Nat)
  deriving DecidableEq, Repr

/-- What a save keeps for one core (R272): its state, the bytes of its local store, the sectors of it that ECC cannot correct. -/
structure SavedCore where
  core  : Core
  store : Memory
  lost  : List PAddr
  deriving DecidableEq, Repr

/-- A crew's life (R22, R271 to R273). -/
inductive CrewState where
  | running
  | stopping (forced : Bool)
  | saved
  | ended
  deriving DecidableEq, Repr

/-- A crew (R21, R25, R272). `cores` is in order of rank. -/
structure Crew where
  num    : Nat
  ctx    : Nat
  packet : LaunchPacket
  cores  : List Nat
  origin : Origin
  state  : CrewState
  saved  : List SavedCore
  /-- An outstanding yield request, with the stage on whose behalf it was made (R266, R269). -/
  asked  : Option (Option Nat)
  /-- Whether its last yield request was a checkpoint's: the crew then resumes before anything else takes its cores (R286 step 3). -/
  forCheckpoint : Bool
  /-- Crews that stood still when this one was saved and held stores to its cores, with each such core: what they hold is for this crew, and
  does not keep it from that core (R220, R273). -/
  stood  : List (Nat × Nat)
  deriving DecidableEq, Repr

/-- A launch that waits for cores (R22, R268). -/
structure Waiting where
  ctx    : Nat
  packet : LaunchPacket
  origin : Origin
  num    : Nat
  deriving DecidableEq, Repr

/-- A harness in force (R255 to R257, R264 to R266). `counts` are the rows with busy 0 per phase in the latest full scan,
`partials` those of the scan in progress, `row` the next row to read, `owed` the freed cores that go to a stage (R266 step 3). -/
structure Harness where
  table     : Nat
  wlim      : Nat
  rows      : Nat
  final     : BitVec 64
  home      : Fin 4
  stages    : List LaunchPacket
  row       : Nat
  scanned   : Bool
  counts    : List (Nat × Nat)
  partials  : List (Nat × Nat)
  owed      : List (Nat × Nat)
  suspended : Bool
  ended     : Bool
  deriving DecidableEq, Repr

/-- An entry of an error log (R8, R265, R267, R280): kind, error code, detail. -/
inductive LogKind where
  | badDone
  | refusedAdvance
  | refusedPost
  | refusedBlock
  | suspended
  | resumed
  | lostRow
  | clock
  | notify
  | corrected
  | joinFailed
  | port
  | flit
  deriving DecidableEq, Repr

structure LogEntry where
  kind   : LogKind
  ctx    : Nat
  code   : BitVec 16
  detail : Nat
  deriving DecidableEq, Repr

/-- A halt of a context (R312, R313): the code and the detail of its cause, the halting core, whether `debug` asked for it, whether
the event is posted, the cycle in which it was raised. -/
structure Halt where
  code   : BitVec 16
  detail : Word
  core   : Nat
  debug  : Bool
  posted : Bool
  cycle  : Nat
  deriving DecidableEq, Repr

/-- A context (R280, R282). -/
structure Context where
  num     : Nat
  part    : Nat
  root    : Nat
  iface   : Fin 64
  debug   : Bool
  ydl     : Nat
  harness : Option Harness
  halt    : Option Halt
  objects : List Byte
  log     : List LogEntry
  /-- Identifiers bound to crews for GROUP-scope collectives (R280 coll.bind). -/
  binds   : List (Nat × Nat)
  deriving DecidableEq, Repr

/-- A stage-2 entry that is valid (R213). -/
structure Stage2 where
  frame : Nat
  die   : Fin 4
  w     : Bool
  kind  : Fin 4
  deriving DecidableEq, Repr

/-- A partition (R282). `s2` is the firmware's record of the valid stage-2 entries that it wrote, by extent; every lookup reads the table
itself in HBM (R213). `draw` numbers its drawing of keys. -/
structure Partition where
  num    : Nat
  quads  : List Nat
  s2     : List (Nat × Stage2)
  /-- How many bytes of its address space its HDM decoder gives the host (R274, R283). -/
  window : Nat
  share  : Nat
  ifaces : BitVec 64
  draw   : Nat
  deriving DecidableEq, Repr

/-- A queue interface (R275, R277, R278). `busy`: the firmware is carrying out a packet of it. -/
structure Iface where
  sqbase : Word
  evbase : Word
  cnt    : Word
  vector : Nat
  enable : Bool
  evlog  : Nat
  sqlog  : Nat
  pasid  : Nat
  notify : BitVec 32
  cons   : BitVec 32
  event  : Nat
  stall  : Bool
  busy   : Bool
  deriving DecidableEq, Repr

/-- A command that waits for a condition (R281), and how far it has come. -/
structure Pending where
  q     : Fin 64
  p     : Packet
  stage : Nat
  deriving DecidableEq, Repr

/-- The interval clock of a Slagon die (R225, R226), in units of 1/20,000 ns. `wide`: the width is unbounded. `word` is the
earliest bound in the die's newest die-to-die time word, `wordW` the width it carried in ns (R227). -/
structure DieClock where
  wide  : Bool
  e     : Int
  u     : Int
  l     : Int
  word  : Int
  wordW : Option Nat
  deriving DecidableEq, Repr

/-- The states of a membership (R234). -/
inductive Membership where
  | out
  | joining
  | member
  | leaving
  deriving DecidableEq, Repr

/-- What this device knows of another member (R227, R233, R235): its number, its limit, the earliest bound of its package in its latest
time frame, the width in it, the latest bound of this device when it came. -/
structure Member where
  number   : Nat
  limit    : Nat
  fPackage : Int
  w        : Option Nat
  heard    : Int
  deriving DecidableEq, Repr

/-- What happens at a stamp (R232, R234, R235): a limit changes, a device comes in, a member goes. -/
inductive Change where
  | limit (member limit : Nat)
  | joins (device limit : Nat)
  | leaves (member : Nat)
  deriving DecidableEq, Repr

/-- A change announced for a stamp, with the members whose acknowledgement is still missing when this device sent it. -/
structure Announced where
  change  : Change
  stamp   : Int
  mine    : Bool
  missing : List Nat
  deriving DecidableEq, Repr

/-- A silence in progress (R235): the silent member and the members that confirmed it; `told`: this device has sent or received a SILENT
about it. -/
structure Silence where
  member    : Nat
  confirms  : List Nat
  told      : Bool
  removed   : Bool
  cancelled : List Announced
  deriving DecidableEq, Repr

/-- A SILENT that a joiner hears before it holds the group's agreements (R234, R235). -/
structure HeardSilent where
  member : Nat
  number : Nat
  stamp  : Int
  deriving DecidableEq, Repr

/-- A control message handed to the fabric ports (R233). -/
inductive Message where
  | timeframe (f : TimeFrame)
  | heartbeat (member agreement limit : Nat)
  | limit (member limit : Nat) (stamp : LimitStamp)
  | ack (member : Nat) (what : AckOf)
  | join (device limit : Nat) (stamp : Option Int)
  | leave (member : Nat) (stamp : Int)
  | silent (member : Nat) (stamp : Int) (agreement : Nat)
  | confirm (member sender : Nat)
  deriving DecidableEq, Repr

/-- Ceiling, clock in force and membership (R231 to R238). `moment` is the stamp at which the agreement in force took effect, `rampFrom`
the frequency and `rampAt` the stamp at which its ramp began here; `awaiting` are the members whose ACK to the JOIN is still missing,
`joinAcks` the ACKs, `heardSilents` the SILENTs and `withdrawn` the withdrawn LIMITs (member, stamp) that have come meanwhile; `nextLimit` is a limit of this device that waits until its
membership has changed; `retries` and `dropped` count flits port by port; `frames` counts the time frames sent; `sent` keeps what the ports
have been given, oldest first. -/
structure Group where
  state     : Membership
  number    : Nat
  limit     : Nat
  agreement : Nat
  ceiling   : Nat
  moment    : Int
  rampFrom  : Nat
  rampAt    : Int
  freq      : Nat
  members   : List Member
  changes   : List Announced
  silences  : List Silence
  joinBegan : Option Int
  joinStamp : Option Int
  awaiting  : List Nat
  joinAcks  : List AckOf
  heardSilents : List HeardSilent
  withdrawn : List (Nat × Int)
  nextLimit : Option Nat
  ports     : BitVec 12
  retries   : Vector Nat 12
  dropped   : Vector Nat 12
  frames    : Nat
  sent      : List Message
  deriving DecidableEq, Repr

/-- MODEL: what the save areas in one checkpoint image say, by the image's header (R286; log 22). -/
structure SaveImage where
  header : List Byte
  parts  : List Partition
  ctxs   : List Context
  crews  : List Crew
  deriving DecidableEq, Repr

/-- A vector of the MSI-X table in BAR4, with its pending bit (R275). -/
structure MsixEntry where
  addr    : Word
  data    : BitVec 32
  masked  : Bool
  pending : Bool
  deriving DecidableEq, Repr

/-- MODEL: what the host's last access to the device gave it (R274, R275): bytes, or DATA_LOST. -/
structure HostReply where
  bytes : List Byte
  lost  : Bool
  deriving DecidableEq, Repr

/-- The firmware and the Flopor die (R275, R280 to R285). `msix` counts the messages sent on each vector. -/
structure Firmware where
  stage        : Nat
  ready        : Bool
  config       : Option Nat
  configDigest : List Byte
  patch        : Option Nat
  patchDigest  : List Byte
  patches      : Nat
  timeset      : Bool
  timeWait     : Option Int
  ifaces       : Vector Iface 64
  msix         : List (Nat × Nat)
  msixTable    : Vector MsixEntry 65
  reply        : HostReply
  pending      : List Pending
  draws        : Nat
  log          : List LogEntry
  railsDown    : Bool
  images       : List SaveImage
  deriving DecidableEq, Repr

/-- MODEL: a part of an access that is made before the rest of it (R127, R160, R185): source bytes of the next block, from the byte `a` of the
source on, or for a tree source up to n of its lines; a weight-buffer row of the k-step at issue; the result of a collective formed, its
blocks left to land. -/
inductive Early where
  | source (a n : Nat)
  | row (r : Nat)
  | result (op : Nat) (remote : List Remote)
  deriving DecidableEq, Repr

/-- MODEL: who acts next: a stream, an event of the table, a part of an access of a core that comes before the rest of it, or the firmware
with a packet that it has taken from a ring. -/
inductive Agent where
  | stream (core : Nat) (st : StreamId)
  | event (i : Instr)
  | early (core : Nat) (what : Early)
  | command (q : Fin 64) (p : Packet)
  deriving DecidableEq, Repr

/-- MODEL: a turn: the cycles and the ns of real time that pass before it, the dies whose oscillators count another number of ns
meanwhile, and who acts (assumption log 1). -/
structure Turn where
  cycles : Nat
  ns     : Nat
  osc    : List (Nat × Nat)
  agent  : Agent
  deriving DecidableEq, Repr

/-- The whole machine. -/
structure State where
  core     : Core
  others   : List Core
  hbm      : Memory
  window   : Memory
  host     : Memory
  /-- Sectors that ECC cannot correct (R223): first bytes. -/
  lost     : List PAddr
  /-- Sectors whose integrity tag does not match (R223): first bytes. -/
  badTag   : List PAddr
  clocks   : Vector DieClock 4
  group    : Group
  /-- The budget that a die at 105 °C lowers its cores to, until the next agreement (R236, R288). -/
  heat     : Vector (Option Nat) 4
  fw       : Firmware
  parts    : List Partition
  ctxs     : List Context
  crews    : List Crew
  waiting  : List Waiting
  launchQ  : List (Nat × List LaunchBlock)
  /-- Numbers given to crews so far. -/
  crewNum  : Nat
  /-- MODEL: cycles since power-on. -/
  now      : Nat
  /-- MODEL: the place in the order of R320 that the turns of this cycle have reached. -/
  phase    : Nat
  /-- MODEL: real time τ in the host's time base (R225), in units of 1/20,000 ns. -/
  tau      : Int
  /-- MODEL: the turns to come. -/
  sched    : List Turn
  /-- MODEL: how many rows have been claimed, for the choices of `bil.claim` (assumption log 5). -/
  choices  : Nat
  deriving DecidableEq, Repr

/-- Why a step stops the machine. -/
inductive Fault where
  /-- Raised by `step` alone, when a turn names a core that the package does not have (die above 3 or core above 95, R15).
  Safe: no run of the OX-4 takes such a turn. -/
  | noSuchCore
  deriving DecidableEq, Repr

/-- Why an instruction has no meaning here. -/
inductive Refusal where
  /-- Raised by `exec` for an instruction whose meaning is not written yet. Safe: nothing is claimed of it. -/
  | notModelled (mnemonic : String)
  deriving DecidableEq, Repr

/-! ### Power-on -/

def GReg.zero : GReg := ⟨0, true⟩
def KReg.zero : KReg := ⟨0, 0⟩
def Line.zero : Line := ⟨0, false⟩
def Engine.zero : Engine := ⟨.idle, 0, 0, false, none, 0, false, Vector.replicate 8 KReg.zero⟩
def Shape.zero : Shape := ⟨0, false, .i32, 64⟩

/-- 64 scales of 0x38, that is 1.0 (R105). -/
def unitScales : BitVec 512 := BitVec.ofNat 512 (0x38 * ((2 ^ 512 - 1) / 255))

/-- The segment state at launch (R105, R10): count 1, mode 0, entry (0, 64), fill 0. -/
def wholeSegment : BitVec 512 := BitVec.ofNat 512 (1 + 64 * 2 ^ 72)

/-- The matrix engine at launch (R105). -/
def MatEngine.zero : MatEngine :=
  { eng := Engine.zero, acc := [], seg := wholeSegment, rows := unitScales, cols := unitScales, base := 0, pert := none,
    reds := [], again := [], issues := none, begun := none, spent := 0, budget := 256, window := 0, fault := none, atRet := false, spilled := false, spill := [] }

/-- The vector engine at launch (R25). -/
def VecEngine.zero : VecEngine :=
  { eng := Engine.zero, shape := Shape.zero, masks := Vector.replicate 8 0, shadow := Vector.replicate 64 0, vp := [],
    regions := [], again := [], lostAt := none, lastVp := none, struck := none }

/-- The transfer engine at launch (R25, R51). -/
def XferEngine.zero : XferEngine :=
  { eng := Engine.zero, shape := Vector.replicate 7 0, win := Vector.replicate 15 0, openBatch := none, batches := [],
    cur := none, ops := [], fails := [], regions := [], again := [], colls := [], lostColls := [], index := [] }

/-- The sequencer at launch (R25, R103). -/
def Sequencer.zero : Sequencer :=
  { pc := 0, g := Vector.replicate 32 GReg.zero, h := Vector.replicate 64 none, k := Vector.replicate 8 KReg.zero,
    draining := [], lq := [], sq := [], tvec := 0, tcause := 0, taddr := 0, tpc := 0, clkmax := 2000, govstall := 0,
    yreq := false, ydl := 0, mendretry := 0, flags := 0, tactive := false, trapSeq := 0, trapStop := none, stopHeld := false, ended := false, endCode := 0,
    wait := false, retired := 0, regions := [], again := [], cinch := none, fences := [], walk := none, hold := none, traps := [],
    barMarked := 0, barDone := 0, yielded := false, atYield := false, overdue := false, markAt := none, bars := false, last := 0,
    releasing := false, kept := [] }

/-- A core that no crew holds, scrubbed (R282). -/
def Core.blank (id : Nat) : Core :=
  { id := id, seat := none, lastCtx := none, seq := Sequencer.zero, vec := VecEngine.zero, mat := MatEngine.zero, xfer := XferEngine.zero,
    views := Vector.replicate 8 0, tree := [], wb := [], treeLost := [], wbLost := [], reports := [],
    injected := [], effects := Vector.replicate 4 ⟨none, none⟩, records := Vector.replicate 4 0, waiting := [],
    written := Vector.replicate 4 0, issue := 0 }

def DieClock.zero : DieClock := ⟨true, 0, 0, 0, 0, none⟩

def Group.zero : Group :=
  { state := .out, number := 0, limit := 1350, agreement := 0, ceiling := 1350, moment := 0, rampFrom := 1350, rampAt := 0, freq := 1350, members := [],
    changes := [], silences := [], joinBegan := none, joinStamp := none, awaiting := [], joinAcks := [], heardSilents := [], withdrawn := [], nextLimit := none,
    ports := BitVec.ofNat 12 0xFFF, retries := Vector.replicate 12 0, dropped := Vector.replicate 12 0,
    frames := 0, sent := [] }

def Iface.zero : Iface :=
  { sqbase := 0, evbase := 0, cnt := 0, vector := 0, enable := false, evlog := 0, sqlog := 0, pasid := 0, notify := 0,
    cons := 0, event := 0, stall := false, busy := false }

def Firmware.zero : Firmware :=
  { stage := 0, ready := false, config := none, configDigest := [], patch := none, patchDigest := [], patches := 0,
    timeset := false, timeWait := none, ifaces := Vector.replicate 64 Iface.zero, msix := [],
    msixTable := Vector.replicate 65 ⟨0, 0, true, false⟩, reply := ⟨[], false⟩, pending := [], draws := 0,
    log := [], railsDown := false, images := [] }

/-- The machine right after power-on (R285): boot stage 0, no partition, no crew, nothing in memory. The values the spec does
not give are those of assumption log 4 and 10. -/
def State.reset : State :=
  { core := Core.blank 0, others := [], hbm := [], window := [], host := [], lost := [], badTag := [],
    clocks := Vector.replicate 4 DieClock.zero, group := Group.zero, heat := Vector.replicate 4 none, fw := Firmware.zero, parts := [], ctxs := [],
    crews := [], waiting := [], launchQ := [], crewNum := 0, now := 0, phase := 0, tau := 0, sched := [], choices := 0 }

end Sys2Proof.Machine
end

