-- ==== Sys2Proof/Machine/Memory.lean ====
section
/-!
DEFINITION. The three memories (R208), their sectors and their errors (R222 to R224), and the focused core among the others.
A byte that nothing has written reads as 0 (assumption log 4). Every access is performed at one instant (assumption log 3).
-/
namespace Sys2Proof.Machine

/-- The canonical form: addresses strictly rising, no byte listed that is 0. -/
def Memory.wf (m : Memory) : Bool := sparseWf (0 : Byte) 0 m

def Memory.read (m : Memory) (a : Nat) : Byte := sparseGet (0 : Byte) m a

def Memory.write (m : Memory) (a : Nat) (b : Byte) : Memory := sparseSet (0 : Byte) m a b

def State.mem (s : State) : Space → Memory
  | .hbm => s.hbm
  | .window => s.window
  | .host => s.host

def State.setMem (s : State) : Space → Memory → State
  | .hbm, m => { s with hbm := m }
  | .window, m => { s with window := m }
  | .host, m => { s with host := m }

/-- One byte of memory. -/
def State.readByte (s : State) (p : PAddr) : Byte := Memory.read (s.mem p.space) p.addr

def State.writeByte (s : State) (p : PAddr) (b : Byte) : State :=
  s.setMem p.space (Memory.write (s.mem p.space) p.addr b)

def State.readBytes (s : State) (l : List PAddr) : List Byte := l.map s.readByte

/-- Write the bytes of a list, in order. -/
def State.writeCells (s : State) (l : List (PAddr × Byte)) : State :=
  l.foldl (fun s c => s.writeByte c.1 c.2) s

/-- n consecutive places. -/
def placesFrom (p : PAddr) (n : Nat) : List PAddr := (List.range n).map p.plus

/-- n consecutive bytes as a number, lowest byte first (R6). -/
def State.readNat (s : State) (p : PAddr) (n : Nat) : Nat := natOfBytes (s.readBytes (placesFrom p n))

def cellsAt (p : PAddr) (bytes : List Byte) : List (PAddr × Byte) := (placesFrom p bytes.length).zip bytes

def State.writeNat (s : State) (p : PAddr) (n x : Nat) : State := s.writeCells (cellsAt p (bytesOfNat n x))

/-! ### Sectors and their errors (R223, R224) -/

/-- The first byte of the 64-byte sector (or SRAM line) that holds a byte. -/
def sectorOf (p : PAddr) : PAddr := ⟨p.space, p.addr / 64 * 64⟩

/-- What the check of the sectors of an access answers. -/
inductive Ecc where
  | ok
  | lost
  | badTag
  deriving DecidableEq, Repr

/-- The check of a read (R223): a failed tag counts before an uncorrectable sector, and the tag of an uncorrectable sector is
not evaluated. -/
def State.eccRead (s : State) (l : List PAddr) : Ecc :=
  if l.any (fun p => s.badTag.contains (sectorOf p) && !s.lost.contains (sectorOf p)) then .badTag
  else if l.any (fun p => s.lost.contains (sectorOf p)) then .lost
  else .ok

/-- Whether the cells cover the whole sector. -/
def coversSector (l : List (PAddr × Byte)) (q : PAddr) : Bool :=
  (placesFrom q 64).all (fun p => l.any (fun c => decide (c.1 = p)))

/-- The check of a write (R224): only the sectors it covers in part are read. -/
def State.eccWrite (s : State) (l : List (PAddr × Byte)) : Ecc :=
  s.eccRead ((l.map (·.1)).filter (fun p =>
    (s.lost.contains (sectorOf p) || s.badTag.contains (sectorOf p)) && !coversSector l (sectorOf p)))

/-- The sectors that a write covers whole are good again (R223). -/
def State.heal (s : State) (l : List (PAddr × Byte)) : State :=
  { s with lost := s.lost.filter (fun q => !coversSector l q), badTag := s.badTag.filter (fun q => !coversSector l q) }

/-- A write with its check: nothing is written where the check fails (R224). -/
def State.store (s : State) (l : List (PAddr × Byte)) : Ecc × State :=
  match s.eccWrite l with
  | .ok => (.ok, (s.heal l).writeCells l)
  | e => (e, s)

/-- A write of which each sector is one action (R224): in a sector that it covers in part and that is lost, nothing is written. -/
def State.storeParts (s : State) (l : List (PAddr × Byte)) : State :=
  (s.heal l).writeCells (l.filter (fun c => decide (s.eccRead [c.1] = .ok) || coversSector l (sectorOf c.1)))

/-! ### The focused core -/

def takeCore : List Core → Nat → Option (Core × List Core)
  | [], _ => none
  | c :: t, n => if c.id = n then some (c, t) else (takeCore t n).map (fun r => (r.1, c :: r.2))

/-- Core n, whichever list holds it; a core that no list holds is blank. -/
def State.coreOf (s : State) (n : Nat) : Core :=
  if s.core.id = n then s.core else match takeCore s.others n with
    | some r => r.1
    | none => Core.blank n

/-- Make core n the focused one. -/
def State.focus (s : State) (n : Nat) : State :=
  if s.core.id = n then s else match takeCore s.others n with
    | some r => { s with core := r.1, others := s.core :: r.2 }
    | none => { s with core := Core.blank n, others := s.core :: s.others }

/-- Change a core that need not be the focused one. -/
def State.putCore (s : State) (c : Core) : State :=
  if s.core.id = c.id then { s with core := c } else match takeCore s.others c.id with
    | some r => { s with others := c :: r.2 }
    | none => { s with others := c :: s.others }

def State.updCore (s : State) (n : Nat) (f : Core → Core) : State := s.putCore (f (s.coreOf n))

def State.upd (s : State) (f : Core → Core) : State := { s with core := f s.core }

/-- Every core that some list holds. -/
def State.cores (s : State) : List Core := s.core :: s.others

def State.mapCores (s : State) (f : Core → Core) : State := { s with core := f s.core, others := s.others.map f }

/-- Whether the package has a core (R15). -/
def coreExists (n : Nat) : Bool := decide (n / 128 < 4) && decide (n % 128 < 96)

def Core.die (c : Core) : Fin 4 := Fin.ofNat 4 (c.id / 128)
def Core.num (c : Core) : Nat := c.id % 128

/-- The quad of a core within its die (R15). -/
def quadOf (id : Nat) : Nat := 4 * (id % 128 / 8 / 2) + id % 128 % 8 / 2

/-- The quad numbered over the package (R280). -/
def packageQuad (id : Nat) : Nat := 24 * (id / 128) + quadOf id

/-! ### Setters of a core's parts -/

def Core.updSeq (c : Core) (f : Sequencer → Sequencer) : Core := { c with seq := f c.seq }
def Core.updVec (c : Core) (f : VecEngine → VecEngine) : Core := { c with vec := f c.vec }
def Core.updMat (c : Core) (f : MatEngine → MatEngine) : Core := { c with mat := f c.mat }
def Core.updXfer (c : Core) (f : XferEngine → XferEngine) : Core := { c with xfer := f c.xfer }

def State.updSeq (s : State) (f : Sequencer → Sequencer) : State := s.upd (·.updSeq f)
def State.updVec (s : State) (f : VecEngine → VecEngine) : State := s.upd (·.updVec f)
def State.updMat (s : State) (f : MatEngine → MatEngine) : State := s.upd (·.updMat f)
def State.updXfer (s : State) (f : XferEngine → XferEngine) : State := s.upd (·.updXfer f)

/-- The engine part of a stream. -/
def Core.eng (c : Core) : Eng → Engine
  | .vec => c.vec.eng
  | .mat => c.mat.eng
  | .xfer => c.xfer.eng

def Core.setEng (c : Core) : Eng → Engine → Core
  | .vec, e => c.updVec (fun v => { v with eng := e })
  | .mat, e => c.updMat (fun m => { m with eng := e })
  | .xfer, e => c.updXfer (fun x => { x with eng := e })

def Core.updEng (c : Core) (e : Eng) (f : Engine → Engine) : Core := c.setEng e (f (c.eng e))

def State.updEng (s : State) (e : Eng) (f : Engine → Engine) : State := s.upd (·.updEng e f)

/-- The tree (R3). -/
def Core.line (c : Core) (n : Nat) : Line := sparseGet Line.zero c.tree n

def Core.setLine (c : Core) (n : Nat) (l : Line) : Core := { c with tree := sparseSet Line.zero c.tree n l }

def Core.setFull (c : Core) (n : Nat) (f : Bool) : Core := c.setLine n { c.line n with full := f }

def Core.wbRow (c : Core) (n : Nat) : BitVec 2048 := sparseGet 0 c.wb n

/-- A write of a weight-buffer row replaces it whole, so that it is good again (R223). -/
def Core.setWbRow (c : Core) (n : Nat) (v : BitVec 2048) : Core := { c with wb := sparseSet 0 c.wb n v }

/-- The next access number; it also numbers bindings, operations and batches. -/
def Core.bump (c : Core) : Core := { c with issue := c.issue + 1 }

end Sys2Proof.Machine
end

