-- ==== Sys2Proof/Machine/Flags.lean ====
section
/-!
DEFINITION. The sticky flags (R74 to R76): where a flag goes that the sequencer's, the vector, the matrix or the transfer
stream raises. A flag raised inside an open region, or while a reduction is unreleased, goes into a pending mask.
-/
namespace Sys2Proof.Machine

/-- R74. -/
def flagSatAcc : BitVec 5 := 1
def flagScaleInv : BitVec 5 := 2
def flagProbClamp : BitVec 5 := 4
def flagInvalid : BitVec 5 := 8
def flagDz : BitVec 5 := 16

/-- A flag where the condition holds. -/
def flagIf (c : Bool) (f : BitVec 5) : BitVec 5 := if c then f else 0

def Core.orFlags (c : Core) (f : BitVec 5) : Core := c.updSeq (fun q => { q with flags := q.flags ||| f })

/-- Flags raised by a vector instruction. -/
def Core.vecFlags (c : Core) (f : BitVec 5) : Core :=
  match c.vec.regions with
  | [] => c.orFlags f
  | r :: t => c.updVec (fun v => { v with regions := { r with mask := r.mask ||| f } :: t })

/-- The list with its last element changed. -/
def mapLast {α : Type} (f : α → α) : List α → List α
  | [] => []
  | [a] => [f a]
  | a :: b :: t => a :: mapLast f (b :: t)

/-- Flags raised by a matrix word: the youngest unreleased reduction takes them (R76). -/
def Core.matFlags (c : Core) (f : BitVec 5) : Core :=
  match c.mat.reds with
  | [] => c.orFlags f
  | l => c.updMat (fun m => { m with reds := mapLast (fun r => { r with mask := r.mask ||| f }) l })

/-- Flags raised by a transfer operation; `inside` tells that it runs in place in an open region. -/
def Core.xferFlags (c : Core) (inside : Bool) (f : BitVec 5) : Core :=
  match inside, c.xfer.regions with
  | true, r :: t => c.updXfer (fun x => { x with regions := { r with mask := r.mask ||| f } :: t })
  | _, _ => c.orFlags f

end Sys2Proof.Machine
end

