-- ==== Sys2Proof/Machine/Float.lean ====
section
/-!
DEFINITION. Number formats and exact arithmetic (R59 to R73): BF16, F32 and E4M3U values as exact dyadic numbers, the one
rounding, comparison orders, and the one table of conversions.
-/
namespace Sys2Proof.Machine

/-- A float: NaN, a signed infinity, or ±m × 2^e (R67). -/
inductive FVal where
  | nan
  | inf (neg : Bool)
  | fin (neg : Bool) (m : Nat) (e : Int)
  deriving DecidableEq, Repr

/-- m ÷ 2^k rounded to nearest, ties to even. -/
def rneShift (m k : Nat) : Nat :=
  let q := m / 2 ^ k
  let r := m % 2 ^ k
  if 2 * r > 2 ^ k ∨ (2 * r = 2 ^ k ∧ q % 2 = 1) then q + 1 else q

/-- The exponent field and fraction of m × 2^e rounded once to w fraction bits with least normal exponent `emin` (R68): the
field counts from the subnormals. -/
def roundBits (w : Nat) (emin : Int) (m : Nat) (e : Int) : Nat :=
  if m = 0 then 0 else
    let u := max ((Nat.log2 m : Int) + e - w) (emin - w)
    let mant := if u ≤ e then m * 2 ^ (e - u).toNat else rneShift m (u - e).toNat
    (u - (emin - w)).toNat * 2 ^ w + mant

/-- Fraction width of BF16 and F32. -/
def fracWidth : EType → Nat
  | .bf16 => 7
  | _ => 23

def signBit (w : Nat) (neg : Bool) : Nat := if neg then 2 ^ (w + 8) else 0

/-- The canonical NaN (R67). -/
def nanBits (w : Nat) : Nat := 255 * 2 ^ w + 2 ^ (w - 1)

def infBits (w : Nat) (neg : Bool) : Nat := signBit w neg + 255 * 2 ^ w

/-- `rne_f32` and `rne_bf16` of an exact value (R7, R68). -/
def encodeF (w : Nat) : FVal → Nat
  | .nan => nanBits w
  | .inf n => infBits w n
  | .fin n m e => signBit w n + min (roundBits w (-126) m e) (255 * 2 ^ w)

/-- The value of BF16 or F32 bits (R67). -/
def decodeF (w x : Nat) : FVal :=
  let neg := decide (x / 2 ^ (w + 8) % 2 = 1)
  let ex := x / 2 ^ w % 256
  let f := x % 2 ^ w
  if ex = 255 then (if f = 0 then .inf neg else .nan)
  else if ex = 0 then .fin neg f (-126 - w)
  else .fin neg (2 ^ w + f) ((ex : Int) - 127 - w)

def FVal.neg : FVal → FVal
  | .nan => .nan
  | .inf n => .inf (!n)
  | .fin n m e => .fin (!n) m e

/-- ±m as an integer over 2^e for a common exponent. -/
def scaled (n : Bool) (m : Nat) (e base : Int) : Int :=
  let v : Int := (m * 2 ^ (e - base).toNat : Nat)
  if n then -v else v

/-- The exact sum (R68); an exact zero is −0 only when both addends are −0. -/
def FVal.add : FVal → FVal → FVal
  | .nan, _ => .nan
  | _, .nan => .nan
  | .inf a, .inf b => if a = b then .inf a else .nan
  | .inf a, _ => .inf a
  | _, .inf b => .inf b
  | .fin a m e, .fin b n f =>
    let base := min e f
    let x := scaled a m e base + scaled b n f base
    if x = 0 then .fin (a && b && decide (m = 0) && decide (n = 0)) 0 0 else .fin (decide (x < 0)) x.natAbs base

/-- The exact product (R68). -/
def FVal.mul : FVal → FVal → FVal
  | .nan, _ => .nan
  | _, .nan => .nan
  | .inf a, .inf b => .inf (a != b)
  | .inf a, .fin b n _ => if n = 0 then .nan else .inf (a != b)
  | .fin a m _, .inf b => if m = 0 then .nan else .inf (a != b)
  | .fin a m e, .fin b n f => .fin (a != b) (m * n) (e + f)

def FVal.isNan : FVal → Bool
  | .nan => true
  | _ => false

/-- An integer as a float value; zero is +0. -/
def fvalOfInt (x : Int) : FVal := .fin (decide (x < 0)) x.natAbs 0

/-- The key of R69: bits of BF16 or F32 in the order −∞ < … < −0 < +0 < … < +∞. -/
def orderKey (w x : Nat) : Int :=
  let mag : Int := (x % 2 ^ (w + 8) : Nat)
  if x / 2 ^ (w + 8) % 2 = 1 then -mag - 1 else mag

/-- A numeric key in which −0 and +0 agree. -/
def valueKey (w x : Nat) : Int :=
  let mag : Int := (x % 2 ^ (w + 8) : Nat)
  if x / 2 ^ (w + 8) % 2 = 1 then -mag else mag

def isNanBits (w x : Nat) : Bool := (decodeF w x).isNan

/-! ### E4M3U (R64, R65) -/

/-- M and E of a code, or none for NaN. -/
def e4Parts (x : Nat) : Option (Nat × Int) :=
  if x ≥ 0x7F then none
  else if x / 8 = 0 then some (x % 8, -9)
  else some (8 + x % 8, ((x / 8 : Nat) : Int) - 10)

def e4Value (x : Nat) : FVal := match e4Parts x with
  | none => .nan
  | some (m, e) => .fin false m e

/-- Whether reading a code sets SCALEINV (R65). -/
def e4Inv (x : Nat) : Bool := decide (x ≥ 0x80)

/-- Rounded to the nearest code; above 448 it is 0x7E (R70). -/
def encodeE4 (m : Nat) (e : Int) : Nat := min (roundBits 3 (-6) m e) 0x7E

/-! ### Types -/

end Sys2Proof.Machine

namespace Sys2Proof

def EType.isFloat : EType → Bool
  | .bf16 => true
  | .f32 => true
  | .e4m3u => true
  | _ => false

def EType.signed : EType → Bool
  | .i8 => true
  | .i16 => true
  | .i32 => true
  | _ => false

/-- Width in bits. -/
def EType.bitsW (t : EType) : Nat := 8 * t.width

end Sys2Proof

namespace Sys2Proof.Machine

/-- The integer a lane of an integer type holds (R59). -/
def intLane (t : EType) (x : Nat) : Int :=
  if t.signed then sextNat t.bitsW x else ((x % 2 ^ t.bitsW : Nat) : Int)

/-- The bits of an integer in a lane, wrapped (R60). -/
def laneOfInt (t : EType) (x : Int) : Nat := wrapInt t.bitsW x

/-- An integer saturated to an integer type (R60, R70). -/
def satType (t : EType) (x : Int) : Nat :=
  laneOfInt t (if t.signed then satInt t.bitsW x else satNat t.bitsW x)

/-- ±m × 2^e rounded to an integer, ties to even (R70). -/
def roundInt (neg : Bool) (m : Nat) (e : Int) : Int :=
  let v : Int := ((if 0 ≤ e then m * 2 ^ e.toNat else rneShift m (-e).toNat : Nat) : Int)
  if neg then -v else v

/-- A float source element as R70 reads it, subnormals flushed, with SCALEINV. -/
def readFloat (t : EType) (x : Nat) : FVal × BitVec 5 :=
  match t with
  | .e4m3u => (match e4Parts x with
      | none => .nan
      | some (m, e) => if x / 8 = 0 then .fin false 0 0 else .fin false m e, flagIf (e4Inv x) flagScaleInv)
  | _ =>
    let w := fracWidth t
    (if x / 2 ^ w % 256 = 0 then .fin (decide (x / 2 ^ (w + 8) % 2 = 1)) 0 0 else decodeF w x, 0)

/-- An exact, already flushed value in a destination type (R70). -/
def writeValue (t : EType) (v : FVal) : Nat × BitVec 5 :=
  match t with
  | .bf16 => (encodeF 7 v, 0)
  | .f32 => (encodeF 23 v, 0)
  | .e4m3u => match v with
    | .nan => (0x7F, 0)
    | .inf n => if n then (0, flagInvalid) else (0x7E, 0)
    | .fin n m e => if m = 0 then (0, 0) else if n then (0, flagInvalid) else (encodeE4 m e, 0)
  | _ => match v with
    | .nan => (0, flagInvalid)
    | .inf n => (satType t (if n then -(2 ^ 64) else 2 ^ 64), 0)
    | .fin n m e => (satType t (roundInt n m e), 0)

/-- The conversion table (R70): the result's bits and the flags it sets. -/
def convert (src dst : EType) (x : Nat) : Nat × BitVec 5 :=
  if src.isFloat then
    let r := readFloat src x
    let o := writeValue dst r.1
    (o.1, r.2 ||| o.2)
  else
    let i := intLane src x
    if dst.isFloat then writeValue dst (fvalOfInt i) else (satType dst i, 0)

/-! ### Sums in fixed orders (R73) -/

/-- One F32 addition. -/
def addF32 (a b : Nat) : Nat := encodeF 23 (FVal.add (decodeF 23 a) (decodeF 23 b))

/-- One level of the pairwise tree. -/
def pairUp : List Nat → List Nat
  | a :: b :: t => addF32 a b :: pairUp t
  | [a] => [a]
  | [] => []

/-- `levels` levels of the pairwise tree. -/
def pairTree : Nat → List Nat → List Nat
  | 0, l => l
  | n + 1, l => pairTree n (pairUp l)

/-- ⌈log2 n⌉ for n ≥ 1. -/
def ceilLog2 (n : Nat) : Nat := if n ≤ 1 then 0 else Nat.log2 (n - 1) + 1

/-! ### Trits (R62) -/

/-- The five trits of a T5P byte; none for a reserved byte. -/
def trits (v : Nat) : Option (List Int) :=
  if v > 242 then none
  else some ((List.range 5).map (fun i => match v / 3 ^ i % 3 with
    | 0 => 0
    | 1 => 1
    | _ => -1))

end Sys2Proof.Machine
end

