-- ==== Sys2Proof/Config.lean ====
section
/-!
DEFINITION. What one part fixes, and the free values: constants with no body, so that no proof can see what they are.
Assumption log 5 (claimed row, unnamed details), 6 (identity, signatures, encryption), 7 (power and clock).
-/
namespace Sys2Proof.Config

/-- R5, R259: which claimable row `bil.claim` takes is not fixed. Applied to the model's counter of free choices; the row
taken is the one at this number modulo the count of claimable rows. -/
opaque claimChoice : Nat → Nat

/-- The detail of a trap or stop record whose rule names none (R296, R301). R5 fixes it by the program and its inputs, so it is
applied to the stream, the offset and the bits of the word concerned, and the stream's registers. -/
opaque freeDetail : Nat → Nat → Nat → List Nat → BitVec 64

/-- The RSA-3072 signature (384 bytes, R284) that this part's device key gives to a digest. -/
opaque deviceSign : List Byte → List Byte

/-- Whether Qorham's public key in ROM accepts a `config` or `patch` image (R283). -/
opaque imageAccepted : List Byte → Bool

/-- The version a `config` or `patch` image carries (R283). -/
opaque imageVersion : List Byte → Nat

/-- The certificate of the device key, read by `attest` with a nonce of zero length (R284). -/
opaque certificate : List Byte

/-- SHA-256 of the ROM firmware (R284). -/
opaque romDigest : List Byte

/-- ROM firmware version and patch level, bits [63:32] of BAR0 0x0000 (R275), by number of patches accepted. -/
opaque firmwareVersion : Nat → BitVec 32

/-- The 64-byte XTS key of a drawing of keys (R222, R282). -/
opaque sectorKey : Nat → List Byte

/-- The 32-byte second key of a drawing, under which tags are computed (R222, R282). -/
opaque tagKey : Nat → List Byte

/-- The 4-byte integrity tag of a sector (R222): tag key, device-physical address, ciphertext. -/
opaque sectorTag : List Byte → Nat → List Byte → List Byte

/-- The 32-byte key derived from the device key, under which an image's keys are wrapped (R286). -/
opaque wrapKey : List Byte

/-- The device-physical address of the save areas of a context, by its number (R302). -/
opaque saveAreaAt : Nat → Nat

/-- The shares that a `config` image sets, as far as its signed tables allow (R283): partition, share in 1/256. -/
opaque imageShares : List Byte → List (Nat × Nat)

/-- The decoder windows that a `config` image sets, as far as its signed tables allow (R283): partition, bytes of its address space. -/
opaque imageWindows : List Byte → List (Nat × Nat)

/-- The signed tables' verdict on the boot steps (R285): `bootStep n` is true when step n succeeds. -/
opaque bootStep : Nat → Bool

/-- The issue budget that the power and clock controller derives from the ceiling in force and a partition's static share (R236). -/
opaque budgetOf : Nat → Nat → Nat

/-- This device's own limit in MHz when boot reaches stage 6 (R231, R232). -/
opaque ownLimit : Nat

/-- The identity a device names in JOIN (R233, R234). -/
opaque deviceIdentity : Nat

/-- The bytes one error-log entry takes in host memory (R280 log.read): kind, context, code, detail. -/
opaque logEntryBytes : Nat → Nat → BitVec 16 → Nat → List Byte

/-- Where a `debug` read state puts the pieces of the save areas and holding buffers that it copies (R302, R314). -/
opaque saveLayout : List (List Byte) → List Byte

/-- The host extents of a partition's stage-2 table (R213), by partition number: extent, host frame, whether it may be written. No
command of R280 names them. -/
opaque hostExtents : Nat → List (Nat × Nat × Bool)

/-- How many bytes the table that `group.join` names has (R234, R280). -/
opaque memberTableLength : Nat

/-- The member numbers in that table, given its bytes. -/
opaque memberTable : List Byte → List Nat

/-- The integrity tag of a sector that a strike has changed (R222, R223), by device-physical address: it does not match. -/
opaque struckTag : Nat → List Byte

end Sys2Proof.Config
end

