-- ==== Sys2Proof/Machine/Translate.lean ====
section
/-!
DEFINITION. The address map, the two translation stages and bindings (R208 to R221). Log 11: an address with a bit of [63:56]
set faults as NOTMAPPED at level 4 with entry 0; a sequencer access is translated byte by byte where it leaves a binding.
-/
namespace Sys2Proof.Machine

def State.ctx (s : State) (n : Nat) : Option Context := s.ctxs.find? (·.num = n)

def State.part (s : State) (n : Nat) : Option Partition := s.parts.find? (·.num = n)

def State.crew (s : State) (n : Nat) : Option Crew := s.crews.find? (·.num = n)

def State.updCtx (s : State) (n : Nat) (f : Context → Context) : State :=
  { s with ctxs := s.ctxs.map (fun c => if c.num = n then f c else c) }

def State.updCrew (s : State) (n : Nat) (f : Crew → Crew) : State :=
  { s with crews := s.crews.map (fun c => if c.num = n then f c else c) }

def State.updPart (s : State) (n : Nat) (f : Partition → Partition) : State :=
  { s with parts := s.parts.map (fun c => if c.num = n then f c else c) }

def Core.ctxNum (c : Core) : Nat := match c.seat with
  | some x => x.ctx
  | none => 0

def Core.res (c : Core) : Resources := match c.seat with
  | some x => x.res
  | none => ⟨0, 0, 0, 0, 0, 0, Vector.replicate 4 0⟩

/-- The first byte of the flat on-chip window (R208). -/
def windowBase : Nat := 0xFFFFFF80000000

/-- The first byte of a core's local store in `State.window`. -/
def storeBase (id : Nat) : Nat := id * 2 ^ 22

/-- The first byte of the multicast window within a local store (R177). -/
def castBase : Nat := 0x3C0000

/-- Whether a byte of a core's local store may be reached by a context (R209). -/
def State.storeReach (s : State) (ctx id off : Nat) : Bool :=
  match (s.coreOf id).seat with
  | some x => decide (x.ctx = ctx) && (decide (off < x.res.ls * 4096) || decide (castBase ≤ off)) && decide (off < 2 ^ 22)
  | none => false

/-- The core that a window address names; 127 names `own` (R209). -/
def windowCore (own : Option Nat) (va : Nat) : Option Nat :=
  if bitsOf va 28 22 = 127 then own
  else if bitsOf va 28 22 < 96 then some (128 * bitsOf va 30 29 + bitsOf va 28 22) else none

/-- A byte of the window (R209). -/
def State.windowPlace (s : State) (ctx : Nat) (own : Option Nat) (va : Nat) : Option PAddr :=
  match windowCore own va with
  | some id => if s.storeReach ctx id (bitsOf va 21 0) then some ⟨.window, storeBase id + bitsOf va 21 0⟩ else none
  | none => none

def isWindow (va : Nat) : Bool := decide (windowBase ≤ va) && decide (va < 2 ^ 56)

/-! ### Tables -/

/-- The bits of a stage-2 entry (R213). -/
def Stage2.bits (e : Stage2) : Nat :=
  put 30 22 e.frame + put 4 2 e.die.val + put 3 1 (if e.w then 1 else 0) + put 1 2 e.kind.val + 1

/-- A failed translation (R217): cause, level, entry. -/
structure XlFault where
  cause : Nat
  level : Nat
  entry : Nat
  deriving DecidableEq, Repr

def spaceOfKind (k : Nat) : Space := if k = 1 then .host else .hbm

/-- Whole 1 GiB frames of the device's 768 GB (R213): 178 on each die. -/
def framesPerDie : Nat := 178
def frameCount : Nat := 4 * framesPerDie

/-- The first byte of a partition's stage-2 table, in the HBM above the frames, which no context reaches (R213; log 11). -/
def stage2Base (num : Nat) : Nat := frameCount * 2 ^ 30 + num * 2 ^ 21

/-- The place of the stage-2 entry of an address. -/
def Partition.entryPlace (p : Partition) (ppa : Nat) : PAddr := ⟨.hbm, stage2Base p.num + 8 * (ppa % 2 ^ 48 / 2 ^ 30)⟩

/-- A read of a stage-2 entry (R214, R223): its bits, or the error of its sector. -/
def State.stage2Entry (s : State) (p : Partition) (ppa : Nat) : Ecc × Nat :=
  (s.eccRead (placesFrom (p.entryPlace ppa) 8), s.readNat (p.entryPlace ppa) 8)

/-- The place that a valid entry gives an address (R213). -/
def stage2Place (e ppa : Nat) : PAddr := ⟨spaceOfKind (bitsOf e 2 1), bitsOf e 51 30 * 2 ^ 30 + ppa % 2 ^ 30⟩

/-- What stage 2 answers. -/
inductive Stage2Out where
  | ok (pa : PAddr)
  | fault (f : XlFault)
  | badTag
  deriving DecidableEq, Repr

/-- Stage 2 of one address (R214). -/
def State.stage2 (s : State) (p : Partition) (ppa : Nat) (write : Bool) : Stage2Out :=
  match s.stage2Entry p ppa with
  | (.badTag, _) => .badTag
  | (.lost, _) => .fault ⟨6, 5, 0⟩
  | (.ok, e) =>
    if !e.testBit 0 || decide (bitsOf e 2 1 > 1) || (write && !e.testBit 3) then .fault ⟨5, 5, e⟩ else .ok (stage2Place e ppa)

/-- The index of a level (R211). -/
def walkIndex (va : Nat) : Nat → Nat
  | 4 => bitsOf va 55 48
  | 3 => bitsOf va 47 39
  | 2 => bitsOf va 38 30
  | 1 => bitsOf va 29 21
  | _ => bitsOf va 20 16

/-- The bits of the page a leaf of a level maps (R211). -/
def pageBits : Nat → Nat
  | 2 => 30
  | 1 => 21
  | _ => 16

/-- The bits of the alignment of the table of a level (R211). -/
def tableBits : Nat → Nat
  | 4 => 11
  | 0 => 8
  | _ => 12

def entryV (e : Nat) : Bool := e.testBit 0
def entryL (e : Nat) : Bool := e.testBit 1
def entryW (e : Nat) : Bool := e.testBit 2
def entryKind (e : Nat) : Nat := bitsOf e 5 4
def entryAddr (e : Nat) : Nat := bitsOf e 47 8 * 256

/-- Whether a valid entry is well-formed at a level (R212). -/
def entryOk (lvl e : Nat) : Bool :=
  decide (bitsOf e 63 48 = 0) && decide (bitsOf e 7 6 = 0) && !e.testBit 3 &&
  (if entryL e then decide (lvl ≤ 2) && decide (entryKind e ≤ 1) && decide (entryAddr e % 2 ^ pageBits lvl = 0)
   else decide (lvl ≠ 0) && decide (entryKind e = 0) && !entryW e && decide (entryAddr e % 2 ^ tableBits (lvl - 1) = 0))

/-- What a walk answers: the byte and whether its page is writable, a fault, or a halt for INTEGRITY (R214, R223). `bits` is the size of
the page (R211); where the walk found no leaf, that of the smallest page (log 11). -/
inductive Walk where
  | ok (pa : PAddr) (writable : Bool) (bits : Nat)
  | fault (f : XlFault) (bits : Nat)
  | badTag
  deriving DecidableEq, Repr

/-- The end of a walk at a leaf (R214). -/
def State.walkLeaf (s : State) (p : Partition) (lvl e va : Nat) (write : Bool) : Walk :=
  let n := pageBits lvl
  let ppa := entryAddr e + va % 2 ^ n
  if write && !entryW e then .fault ⟨3, lvl, e⟩ n
  else match s.stage2Entry p ppa with
  | (.badTag, _) => .badTag
  | (.lost, _) => .fault ⟨6, 5, 0⟩ n
  | (.ok, t) =>
    if t.testBit 0 && decide (bitsOf t 2 1 ≠ entryKind e) then .fault ⟨2, lvl, e⟩ n
    else match s.stage2 p ppa write with
    | .ok pa => .ok pa (entryW e && t.testBit 3) n
    | .fault f => .fault f n
    | .badTag => .badTag

/-- A walk from the table at `a` (R214), `fuel` levels at most. DESIGN CHOICE: a TABLELOST fault has entry 0, since the entry cannot be read
(R217: log 11). -/
def State.walkFrom (s : State) (p : Partition) (va : Nat) (write : Bool) : (fuel a lvl : Nat) → Walk
  | 0, _, lvl => .fault ⟨2, lvl, 0⟩ 16
  | fuel + 1, a, lvl =>
    match s.stage2 p (a + 8 * walkIndex va lvl) false with
    | .badTag => .badTag
    | .fault f => .fault f 16
    | .ok pa =>
      match s.eccRead (placesFrom pa 8) with
      | .badTag => .badTag
      | .lost => .fault ⟨6, lvl, 0⟩ 16
      | .ok =>
        let e := s.readNat pa 8
        if !entryV e then .fault ⟨1, lvl, e⟩ 16
        else if !entryOk lvl e then .fault ⟨2, lvl, e⟩ 16
        else if entryL e then s.walkLeaf p lvl e va write
        else s.walkFrom p va write fuel (entryAddr e) (lvl - 1)

/-- A byte of the context's address space (R208, R214), without bindings. -/
def State.walk (s : State) (ctx : Nat) (own : Option Nat) (va : Nat) (write : Bool) : Walk :=
  if va ≥ 2 ^ 56 then .fault ⟨1, 4, 0⟩ 16
  else if isWindow va then match s.windowPlace ctx own va with
    | some pa => .ok pa true 12
    | none => .fault ⟨4, 7, 0⟩ 12
  else match s.ctx ctx with
    | none => .fault ⟨1, 4, 0⟩ 16
    | some c => match s.part c.part with
      | none => .fault ⟨5, 5, 0⟩ 16
      | some p => s.walkFrom p va write 5 c.root 4

/-! ### Bindings -/

/-- The place of a byte of a binding. -/
def Binding.place (b : Binding) (off : Nat) : Option PAddr :=
  match b.segs.find? (fun g => decide (g.off ≤ off) && decide (off < g.off + g.len)) with
  | some g => some (g.pa.plus (off - g.off))
  | none => none

/-- n bytes of a binding from an offset; the null place where the binding has none (no caller asks outside its length). -/
def Binding.places (b : Binding) (off n : Nat) : List PAddr :=
  (List.range n).map (fun i => (b.place (off + i)).getD ⟨b.kind, 0⟩)

/-- A LIVE binding that no unmap has begun to revoke (R90, R91). -/
def Binding.usable (b : Binding) : Bool := !b.revoked && !b.revoking

def Sequencer.bindings (q : Sequencer) : List Binding := q.h.toList.filterMap id

/-- The LIVE binding of the core through which an access is translated (R216); DESIGN CHOICE: of several that hold the byte, the one in the
lowest slot (log 11). -/
def Core.bindingFor (c : Core) (va : Nat) (write : Bool) : Option Binding :=
  c.seq.bindings.find? (fun b =>
    b.usable && decide (b.base ≤ va) && decide (va < b.base + b.len) && (b.writable || !write))

/-- What the translation of a sequencer access answers. -/
inductive Xl where
  | ok (cells : List PAddr) (binds : List Nat)
  | fault (f : XlFault) (va : Nat)
  | badTag
  deriving DecidableEq, Repr

/-- One byte of a sequencer access (R216). -/
def State.xlByte (s : State) (va : Nat) (write : Bool) : Xl :=
  match s.core.bindingFor va write with
  | some b => match b.place (va - b.base) with
    | some pa => .ok [pa] [b.id]
    | none => .fault ⟨1, 4, 0⟩ va
  | none => match s.walk s.core.ctxNum (some s.core.id) va write with
    | .ok pa _ _ => .ok [pa] []
    | .fault f _ => .fault f va
    | .badTag => .badTag

/-- The bytes of an access one after the other; the lowest failing byte counts. DESIGN CHOICE: an access that begins before a binding's range and
runs into it uses the binding's pinned page for the bytes in the range, and walks for those before it (R216: log 11). -/
def State.xlBytes (s : State) (write : Bool) : List Nat → Xl
  | [] => .ok [] []
  | va :: t => match s.xlByte va write with
    | .ok p b => match s.xlBytes write t with
      | .ok p' b' => .ok (p ++ p') (dedup (b ++ b'))
      | r => r
    | r => r

/-- The bytes within which one translation holds: 64 KiB, the least page (R211); 4 KiB in the on-chip window, where a core's bytes end at a
multiple of that (R209). -/
def pieceBytes (va : Nat) : Nat := if isWindow va then 4096 else 65536

/-- The n bytes of a sequencer access at va (R82, R216): in one piece where they lie in one such stretch and one binding. -/
def State.xlAccess (s : State) (va n : Nat) (write : Bool) : Xl :=
  if va % pieceBytes va + n ≤ pieceBytes va ∧ s.core.bindingFor va write = s.core.bindingFor (va + n - 1) write then
    match s.xlByte va write with
    | .ok [pa] b => .ok (placesFrom pa n) b
    | r => r
  else s.xlBytes write (rangeFrom va n)

end Sys2Proof.Machine
end

