-- ==== Sys2Proof/Machine/Ops.lean ====
section
/-!
DEFINITION. The named operations that many meanings share: error codes, records, host events and logs, context halts, taking
a trap and returning from one, register reads and writes, fences and markers, performing stores, sync-word additions, and the
frames in which an instruction of the sequencer or of an engine issues.
-/
namespace Sys2Proof.Machine

/-! ### Error codes (R8) -/

abbrev Code := BitVec 16

def codeOk : Code := 0
def codeStrike : Code := 0x0101
def codeDataLost : Code := 0x0102
def codeIntegrity : Code := 0x0103
def codeBounds : Code := 0x0201
def codeSpmeta : Code := 0x0202
def codeBadTrit : Code := 0x0203
def codeRatio : Code := 0x0204
def codeIllegal : Code := 0x0205
def codeQFull : Code := 0x0301
def codeQEmpty : Code := 0x0302
def codeEmptyRead : Code := 0x0303
def codeClkWide : Code := 0x0401
def codeStale : Code := 0x0402
def codeMendFull : Code := 0x0501
def codeMendRetry : Code := 0x0502
def codeLate : Code := 0x0601
def codePreempted : Code := 0x0701

/-- The strike window D in cycles (R303). -/
def strikeWindow : Nat := 4096

/-! ### Code area and fetched words (R20, R23) -/

/-- Words before a stream's section in the code image (R23). -/
def Resources.before (r : Resources) (st : StreamId) : Nat :=
  (r.lens.toList.take st.code).foldl (· + ·) 0

def Resources.len (r : Resources) (st : StreamId) : Nat := r.lens.toList.getD st.code 0

def Resources.words (r : Resources) : Nat := r.lens.toList.foldl (· + ·) 0

/-- The first byte of a core's code area in `State.window` (R23): just above the reserved local-store bytes. -/
def codeBase (id : Nat) (r : Resources) : Nat := storeBase id + r.ls * 4096

/-- The place of the word at a byte offset of a stream's section; none outside the section (R20). -/
def Core.codePlace (c : Core) (st : StreamId) (pc : Word) : Option PAddr :=
  if pc.toNat / 4 < c.res.len st ∧ pc.toNat % 4 = 0 then
    some ⟨.window, codeBase c.id c.res + 4 * c.res.before st + pc.toNat⟩
  else none

/-- The word a stream fetches at a byte offset: all zero outside its section (R20). -/
def State.wordAt (s : State) (c : Core) (st : StreamId) (pc : Word) : IWord :=
  match c.codePlace st pc with
  | some p => BitVec.ofNat 32 (s.readNat p 4)
  | none => 0

/-- The byte offset at which a stream fetches. -/
def Core.pcOf (c : Core) : StreamId → Word
  | .seq => c.seq.pc
  | .vec => c.vec.eng.pc
  | .mat => c.mat.eng.pc
  | .xfer => c.xfer.eng.pc

/-- The check of the line of the code area that holds a stream's word (R223: log 14). -/
def State.codeEcc (s : State) (c : Core) (st : StreamId) : Ecc := match c.codePlace st (c.pcOf st) with
  | some p => s.eccRead (placesFrom p 4)
  | none => .ok

/-! ### Records (R301) -/

/-- What varies from record to record. -/
structure RecordInfo where
  code    : Code
  kind    : Nat
  pc      : Word
  at_     : Word
  addr    : Word
  spill   : Bool
  mayCore : Bool
  mayLeft : Bool

def Core.depth (c : Core) : StreamId → Nat
  | .seq => c.seq.regions.length
  | .vec => c.vec.regions.length
  | .mat => 0
  | .xfer => c.xfer.regions.length

/-- The 64 bytes of a stop, trap or halt record (R301). -/
def recordBits (c : Core) (st : StreamId) (word : IWord) (n : BitVec 32) (r : RecordInfo) : BitVec 512 :=
  BitVec.ofNat 512 (
    put 0 2 st.code + put 5 3 (c.depth st) + put 8 4 r.kind + put 16 16 r.code.toNat +
    put 32 16 (r.at_.toNat / 4) + put 48 16 (r.pc.toNat / 4) +
    put 64 32 word.toNat +
    put 96 1 (bit r.mayLeft) + put 97 1 (bit r.mayCore) + put 98 1 (bit r.spill) +
    put 99 1 (bit (decide (st = .seq) && c.seq.tactive)) +
    put 128 64 r.addr.toNat + put 192 32 n.toNat +
    put 256 32 (match c.seat with
      | some x => x.rank
      | none => 0) +
    put 288 7 c.num + put 296 2 c.die.val + put 320 6 c.ctxNum)

/-- An engine stream's k registers as numbers. None for the sequencer: whether a load has written its register, and how often a rollback
has repeated a loop, is timing, and R5 lets no detail depend on it. -/
def Core.regsOf (c : Core) : StreamId → List Nat
  | .seq => []
  | .vec => c.vec.eng.k.toList.map (·.val.toNat)
  | .mat => c.mat.eng.k.toList.map (·.val.toNat)
  | .xfer => c.xfer.eng.k.toList.map (·.val.toNat)

/-- The detail of a cause whose rule names none: a free value of the word concerned and its stream's registers (log 5). -/
def State.openDetailOf (s : State) (st : StreamId) : Word :=
  Config.freeDetail st.code (s.core.pcOf st).toNat (s.wordAt s.core st (s.core.pcOf st)).toNat (s.core.regsOf st)

def State.openDetail (s : State) : Word := s.openDetailOf .seq

/-- Whether the sequencer still has to take a trap that a stream's record caused (R302). -/
def Sequencer.stopPending (q : Sequencer) (st : StreamId) : Bool := q.traps.any (fun t => match t with
  | .stop e _ _ => decide (e.stream = st)
  | _ => false)

/-- Write a stream's record into the focused core's save area; while the trap of the record in the slot is still to be taken it
waits (R302). A halt record does not wait: no trap is taken any more (log 24). -/
def State.record (s : State) (st : StreamId) (r : RecordInfo) : State :=
  let c := s.core
  let i : Fin 4 := Fin.ofNat 4 st.code
  let n := c.written[i] + 1
  let bits := recordBits c st (s.wordAt c st r.at_) n r
  let hold := c.seq.stopPending st && decide (r.kind ≠ 3)
  s.upd (fun c => { c with
    written := c.written.set i n
    records := if hold then c.records else c.records.set i bits
    waiting := if hold then c.waiting ++ [(st, bits)] else c.waiting })

/-- The kind of a record (R301). -/
def recordKind (b : BitVec 512) : Nat := bitsOf b.toNat 11 8

/-- Records that take their slot once a trap of their stream has been taken: up to the first that causes a trap itself (R302). -/
def takeRecords (st : StreamId) : List (StreamId × BitVec 512) → Option (BitVec 512) × List (StreamId × BitVec 512)
  | [] => (none, [])
  | x :: t =>
    if x.1 ≠ st then ((takeRecords st t).1, x :: (takeRecords st t).2)
    else if recordKind x.2 = 0 then (some x.2, t)
    else ((takeRecords st t).1.or (some x.2), (takeRecords st t).2)

/-- The next waiting record of a stream whose trap the sequencer has taken (R302). -/
def Core.nextRecord (c : Core) (st : StreamId) : Core :=
  match takeRecords st c.waiting with
  | (some b, rest) => { c with records := c.records.set (Fin.ofNat 4 st.code : Fin 4) b, waiting := rest }
  | (none, _) => c

/-! ### Host events and error logs (R278, R265) -/

/-- The 128 bytes of an event record (R278). -/
def eventBytes (code part ctx tag kind reason e phase : Nat) (body : List Byte) : List Byte :=
  bytesOfNat 8 (put 0 8 kind + put 16 16 tag + put 32 8 ctx + put 40 8 part + put 48 16 code) ++
  bytesOfNat 8 (put 0 32 e + put 32 32 reason) ++ bytesOfNat 47 0 ++ bytesOfNat 1 (put 7 1 phase) ++
  (body ++ List.replicate 64 (0 : Byte)).take 64

/-- A host address as an interface's requests name it: with the interface's PASID, which keeps the interfaces' host memories apart (R275,
R283; log 22). -/
def Iface.host (i : Iface) (a : Nat) : PAddr := ⟨.host, a + i.pasid * 2 ^ 64⟩

def State.updIface (s : State) (q : Fin 64) (f : Iface → Iface) : State :=
  { s with fw := { s.fw with ifaces := s.fw.ifaces.set q (f s.fw.ifaces[q]) } }

/-- Write an event record to a queue interface that runs (R278); an interface that does not run receives none. -/
def State.postEvent (s : State) (q : Fin 64) (kind code part ctx tag reason : Nat) (body : List Byte) : State :=
  let i := s.fw.ifaces[q]
  if i.enable then
    let slot := i.event % 2 ^ i.evlog
    let phase := (i.event / 2 ^ i.evlog + 1) % 2
    let p := i.host (i.evbase.toNat + 128 * slot)
    (s.storeParts (cellsAt p (eventBytes code part ctx tag kind reason i.event phase body))).updIface q
      (fun i => { i with event := i.event + 1 })
  else s

/-- The MSI-X message of an interface (R278); one whose vector is masked stays pending (R275). -/
def State.signal (s : State) (q : Fin 64) : State :=
  let v : Fin 65 := Fin.ofNat 65 s.fw.ifaces[q].vector
  let e := s.fw.msixTable[v]
  if e.masked then { s with fw := { s.fw with msixTable := s.fw.msixTable.set v { e with pending := true } } }
  else { s with fw := { s.fw with msix := assocSet s.fw.msix v.val (assocGet 0 s.fw.msix v.val + 1) } }

/-- One less in an interface's counter; a counter whose host sector is poisoned cannot be read, and nothing is written (R223, R224). -/
def State.countDown (s : State) (p : PAddr) : State :=
  if s.eccRead (placesFrom p 8) = .ok then s.writeNat p 8 (s.readNat p 8 + 2 ^ 64 - 1) else s

/-- A completion (R278): the record, then the counter, then the signal. The interface then takes its next packet (R281). -/
def State.complete (s : State) (q : Fin 64) (code part ctx tag reason : Nat) (results : List Word) : State :=
  let s1 := s.postEvent q 0 code part ctx tag reason (results.flatMap (fun r => bytesOfNat 8 r.toNat))
  let i := s1.fw.ifaces[q]
  if i.enable then
    ((s1.countDown (i.host i.cnt.toNat)).signal q).updIface q (fun i => { i with busy := false })
  else s1.updIface q (fun i => { i with busy := false })

/-- The number under which the firmware's refusals and events name a partition of a context. -/
def State.partOf (s : State) (ctx : Nat) : Nat := match s.ctx ctx with
  | some c => c.part
  | none => 0xFF

/-- An entry in a context's error log, and its notice (R265, R278 kind 4). -/
def State.logCtx (s : State) (ctx : Nat) (kind : LogKind) (detail : Nat) (code : Code := codeOk) : State :=
  match s.ctx ctx with
  | none => s
  | some c =>
    (s.updCtx ctx (fun c => { c with log := c.log ++ [⟨kind, ctx, code, detail⟩] })).postEvent c.iface 4 0 c.part ctx 0 0
      (bytesOfNat 8 c.log.length)

/-- An entry in the device's error log. -/
def State.logDevice (s : State) (kind : LogKind) (detail : Nat) (code : Code := codeOk) : State :=
  { s with fw := { s.fw with log := s.fw.log ++ [⟨kind, 0xFF, code, detail⟩] } }

/-! ### Context halts (R312, R313) -/

/-- Raise a halt: the first cause stands. Every stream of the context stands still from here; HALT_COMPLETE writes the
records (log 12: the skid is zero). -/
def State.haltContext (s : State) (ctx : Nat) (code : Code) (core : Nat) (debug : Bool) (detail : Word) : State :=
  s.updCtx ctx (fun c => match c.halt with
    | none => { c with halt := some ⟨code, detail, core, debug, false, s.now⟩ }
    | some _ => c)

/-- The code of an access to memory that fails: INTEGRITY halts the context (R214, R223). -/
def State.integrity (s : State) (ctx core : Nat) (e : Code) : State :=
  if e = codeIntegrity then s.haltContext ctx codeIntegrity core false (s.focus core).openDetail else s

/-- A halt that the focused core raises for a cause with a detail (R297, R301). -/
def State.haltWith (s : State) (code : Code) (detail : Word) : State :=
  s.haltContext s.core.ctxNum code s.core.id false detail

/-- A halt that the focused core raises for a cause whose rule names no detail. -/
def State.haltHere (s : State) (code : Code) : State := s.haltWith code s.openDetail

/-- A halt that an access brings which its word issued earlier: the detail is a free value of that word and of the numbers it was issued
with, since where the sequencer stands by now is timing (R5; log 5). -/
def State.haltAccess (s : State) (st : StreamId) (pc : Word) (l : List Nat) : State :=
  s.haltWith codeIntegrity (Config.freeDetail st.code pc.toNat (s.wordAt s.core st pc).toNat l)

/-- A halt for a cause of a core whose rule names no detail (log 5). -/
def State.haltPlain (s : State) (ctx : Nat) (code : Code) (core : Nat) (debug : Bool) : State :=
  s.haltContext ctx code core debug (s.focus core).openDetail

def State.ctxHalted (s : State) (ctx : Nat) : Bool := match s.ctx ctx with
  | some c => c.halt.isSome
  | none => false

/-! ### What a stream did lately (R310, R311) -/

def Core.touch (c : Core) (st : StreamId) (now : Nat) (left : Bool) : Core :=
  let i : Fin 4 := Fin.ofNat 4 st.code
  { c with effects := c.effects.set i ⟨some now, if left then some now else c.effects[i].left⟩ }

/-- The sequencer of the focused core changed what the core's engine streams read: a view or a handle slot (R311: log 20). -/
def State.seqSeen (s : State) : State := s.upd (fun c => c.touch .seq s.now false)

def within (now : Nat) : Option Nat → Bool
  | some t => decide (now < t + strikeWindow)
  | none => false

def Core.mayCore (c : Core) (st : StreamId) (now : Nat) : Bool :=
  within now (c.effects[(Fin.ofNat 4 st.code : Fin 4)]).seen

def Core.mayLeft (c : Core) (st : StreamId) (now : Nat) : Bool :=
  within now (c.effects[(Fin.ofNat 4 st.code : Fin 4)]).left

/-- Whether a byte lies beyond a core: not in its own local store. -/
def beyond (id : Nat) (p : PAddr) : Bool :=
  !(decide (p.space = .window) && decide (p.addr / 2 ^ 22 = id))

/-- Note that a stream of the focused core wrote the places. -/
def State.wrote (s : State) (st : StreamId) (l : List PAddr) : State :=
  if l.isEmpty then s else s.upd (fun c => c.touch st s.now (l.any (beyond c.id)))

/-! ### Taking a trap and returning from one (R296 to R300) -/

/-- What trap entry clears: a waiting instruction is abandoned (R19), an open cinch is dropped (R247). A close that was releasing goes on
with what is left when it re-executes; until then reports to the stream go on waiting (R292, R293: log 9). -/
def Sequencer.abandon (q : Sequencer) : Sequencer :=
  { q with wait := false, atYield := false, walk := none, markAt := none, cinch := none }

/-- The resume point inside an open cinch is its `cinch.open` (R247). -/
def Sequencer.resumePoint (q : Sequencer) (pc : Word) : Word := match q.cinch with
  | some c => c.pc
  | none => pc

/-- Trap entry (R296): the cause, its detail, the resume point and the record are saved, `tactive` is set, and the program
counter goes to the handler. The rollbacks of regions that have still to open again are kept for the return (R308). -/
def State.trapEntry (s : State) (code : Code) (detail tpc at_ : Word) (stop : Option Eng) (mayLeft mayCore : Bool) : State :=
  let t := s.core.seq.resumePoint tpc
  let s1 := s.record .seq
    { code := code, kind := 2, pc := t, at_ := at_, addr := detail, spill := false, mayCore := mayCore, mayLeft := mayLeft }
  s1.updSeq (fun q => { q.abandon with
    tcause := code, taddr := detail, tpc := t, tactive := true, again := [], kept := q.again, trapSeq := s.core.issue, trapStop := stop,
    stopHeld := stop.isSome, pc := q.tvec })

/-- A trap: with no handler, or for a synchronous cause while a trap is active, the context halts instead (R297). -/
def State.takeTrap (s : State) (sync : Bool) (code : Code) (detail tpc at_ : Word) (stop : Option Eng)
    (mayLeft mayCore : Bool) : State :=
  if s.core.seq.tvec = 0 ∨ (sync ∧ s.core.seq.tactive) then s.haltWith code detail
  else s.trapEntry code detail tpc at_ stop mayLeft mayCore

/-- A synchronous trap of the instruction at the program counter. -/
def State.syncTrap (s : State) (code : Code) (detail : Word) : State :=
  s.takeTrap true code detail s.core.seq.pc s.core.seq.pc none false false

/-- Where a cause stands in the order of R297: its class, and for an engine stop the cycle and the stream (R19). -/
def TrapCause.rank : TrapCause → Nat × Nat × Nat
  | .strike _ _ => (0, 0, 0)
  | .dataLost _ _ => (1, 0, 0)
  | .stop e _ n => (2, n, e.code)

/-- Whether a cause is taken before another that has waited longer: a lesser class, an earlier cycle, a lesser stream. -/
def TrapCause.before (a b : TrapCause) : Bool :=
  decide (a.rank.1 < b.rank.1) || (decide (a.rank.1 = b.rank.1) &&
    (decide (a.rank.2.1 < b.rank.2.1) || (decide (a.rank.2.1 = b.rank.2.1) && decide (a.rank.2.2 < b.rank.2.2))))

/-- The first asynchronous cause in the order of R297, and the others. -/
def firstCause : List TrapCause → Option (TrapCause × List TrapCause)
  | [] => none
  | c :: t => match firstCause t with
    | none => some (c, [])
    | some (d, rest) => if d.before c then some (d, c :: rest) else some (c, t)

def Sequencer.asyncReady (q : Sequencer) : Bool := !q.tactive && !q.traps.isEmpty

/-- Take the first pending asynchronous cause (R296, R297; DATA_LOST resumes at the load, R86: log 13). The record of a strike or of
an engine's stop concerns the instruction that retired last (R301: log 24); once an engine's trap is taken, the stream's next record
may take the slot (R302). -/
def State.takeAsync (s : State) : State :=
  match firstCause s.core.seq.traps with
  | none => s
  | some (c, rest) =>
    let s1 := s.updSeq (fun q => { q with traps := rest })
    let pc := s.core.seq.pc
    match c with
    | .strike l m => s1.takeTrap false codeStrike s.openDetail pc s.core.seq.last none l m
    | .dataLost va at_ => s1.takeTrap false codeDataLost va at_ at_ none false false
    | .stop e code _ =>
      (s1.takeTrap false code (wordOfNat e.code) pc s.core.seq.last (some e) false false).upd (·.nextRecord e.stream)

def State.addCause (s : State) (c : TrapCause) : State := s.updSeq (fun q => { q with traps := q.traps ++ [c] })

/-! ### The frame in which a sequencer instruction issues (R78, R297) -/

/-- What a sequencer instruction answers. -/
inductive Issue where
  /-- It retires; the state holds its effect and the new program counter. -/
  | done (s : State)
  /-- A synchronous cause found by the checks at issue, before any effect: code and detail. -/
  | trap (code : Code) (detail : Word)
  /-- A synchronous cause found after a wait (R297). -/
  | late (code : Code) (detail : Word)
  /-- A synchronous cause of a word that has closed its regions first (R205, R291): the state holds the closing. -/
  | closed (s : State) (code : Code) (detail : Word)
  /-- `trap`: the resume point is the next word (R296). -/
  | program (code : Code)
  /-- It waits; the state holds what the wait keeps. -/
  | wait (s : State)
  /-- The state is settled: a translation failed, its record is posted and the sequencer is held (R217); or a rollback. -/
  | fault (s : State)
  /-- The context halts with a code (R223). -/
  | halt (code : Code)

def State.next (s : State) : State := s.updSeq (fun q => { q with pc := q.pc + 4 })

/-- The instruction at the program counter issues. A synchronous cause comes first, then a pending asynchronous one, then the
instruction itself; one that has been waiting is abandoned by an asynchronous cause that has become ready meanwhile (R297). -/
def State.issueSeq (s : State) (r : Issue) : State :=
  if s.core.seq.wait && s.core.seq.asyncReady then s.takeAsync
  else match r with
  | .trap code detail => s.syncTrap code detail
  | .halt code => s.haltHere code
  | .fault t => t
  | .program code =>
    if s.core.seq.tvec = 0 ∨ s.core.seq.tactive then s.haltWith code 0
    else s.trapEntry code 0 (s.core.seq.pc + 4) s.core.seq.pc none false false
  | .late code detail => if s.core.seq.asyncReady then s.takeAsync else s.syncTrap code detail
  | .closed t code detail =>
    if s.core.seq.asyncReady then s.takeAsync else if t.core.seq.asyncReady then t.takeAsync else t.syncTrap code detail
  | .wait t => if s.core.seq.asyncReady then s.takeAsync else t.updSeq (fun q => { q with wait := true })
  | .done t =>
    if s.core.seq.asyncReady then s.takeAsync
    else t.updSeq (fun q => { q with wait := false, markAt := none, retired := s.now, last := s.core.seq.pc })

/-! ### Registers (R78) -/

def Sequencer.targeted (q : Sequencer) (r : Reg) : Bool := q.lq.any (fun l => decide (l.rd = r))

/-- The value of a register; g0 reads as zero. -/
def Sequencer.reg (q : Sequencer) (r : Reg) : Word := if r = 0 then 0 else q.g[r].val

def Sequencer.regFull (q : Sequencer) (r : Reg) : Bool := decide (r = 0) || q.g[r].full

/-- Write a register; a write to g0 is discarded. -/
def Sequencer.setReg (q : Sequencer) (r : Reg) (v : Word) : Sequencer :=
  if r = 0 then q else { q with g := q.g.set r ⟨v, true⟩ }

/-- Mark a register empty, for a load that targets it. -/
def Sequencer.emptyReg (q : Sequencer) (r : Reg) : Sequencer :=
  if r = 0 then q else { q with g := q.g.set r { q.g[r] with full := false } }

/-- Read the sources, wait for the destination, then go on (R78). `dst` is 0 where there is no destination. DESIGN CHOICE: of several empty
untargeted sources the first of the meaning's own list is named (log 5). -/
def State.withRegs (s : State) (src : List Reg) (dst : Reg) (k : Issue) : Issue :=
  match src.find? (fun r => !s.core.seq.regFull r && !s.core.seq.targeted r) with
  | some r => .trap codeQEmpty (wordOfNat r.val)
  | none =>
    if src.any (fun r => !s.core.seq.regFull r) ∨ (dst ≠ 0 ∧ s.core.seq.targeted dst) then .wait s else k

def State.reg (s : State) (r : Reg) : Word := s.core.seq.reg r

def State.setReg (s : State) (r : Reg) (v : Word) : State := s.updSeq (·.setReg r v)

/-- An instruction that computes a register from registers. -/
def State.compute (s : State) (src : List Reg) (rd : Reg) (v : Word) : State :=
  s.issueSeq (s.withRegs src rd (.done (s.setReg rd v).next))

/-! ### Paths, markers and fences (R240, R243, R244) -/

/-- The kinds of operation that travel on WP and CP; the others travel on XP. -/
def XKind.path : XKind → Path
  | .wbfill _ => .wp
  | .coll _ _ _ _ => .cp
  | _ => .xp

def XferEngine.all (x : XferEngine) : List XOp := x.cur.toList ++ x.ops

/-- The endpoints of an operation, and the bindings among them. -/
def XOp.ends (o : XOp) : List XEnd := o.dst :: o.src.toList

def XOp.bindings (o : XOp) : List Binding := o.ends.filterMap (fun e => match e with
  | .mem b _ => some b
  | .tree _ _ _ => none)

def XferEngine.batch (x : XferEngine) (n : Nat) : Option Batch := (x.openBatch.toList ++ x.batches).find? (·.id = n)

/-- Whether a block of an `x.wbfill`, or of a collective whose result is formed, still brings an addition to a sync word: that is an access on
XP, issued with the block (R240: log 24). -/
def Core.addsLater (c : Core) (o : XOp) (b : Block) : Bool :=
  (decide (o.kind.path = .wp) || (decide (o.kind.path = .cp) && b.formed)) && (match c.xfer.batch o.batch with
    | some a => a.sync.isSome
    | none => false)

/-- Whether an access of a path with a number below n is not yet performed; a block is one from when it is handed over (R160). -/
def Core.pathBusy (c : Core) (p : Path) (n : Nat) : Bool :=
  match p with
  | .lq => c.seq.lq.any (fun l => decide (l.seq < n))
  | .sq => c.seq.sq.any (fun l => decide (l.seq < n))
  | .vp => c.vec.vp.any (fun l => decide (l.seq < n))
  | .cp => c.xfer.all.any (fun o => decide (o.kind.path = .cp) && o.blocks.any (fun b => decide (b.seq < n) && !b.bytes.isEmpty))
  | .xp => c.xfer.all.any (fun o => o.blocks.any (fun b => decide (b.seq < n) && (decide (o.kind.path = .xp) || c.addsLater o b)))
  | .wp => c.xfer.all.any (fun o => decide (o.kind.path = .wp) && o.blocks.any (fun b => decide (b.seq < n) && !b.bytes.isEmpty))
  | .hp => false

/-- Whether a pending fence holds an access of path pb with number n. -/
def Core.fenceHolds (c : Core) (pb : Path) (n : Nat) : Bool :=
  c.seq.fences.any (fun f => decide (f.pb = pb) && decide (f.seq < n))

/-- Whether a pending fence holds a new access of a path. -/
def Core.fenceHoldsNew (c : Core) (pb : Path) : Bool := c.seq.fences.any (fun f => decide (f.pb = pb))

/-- Whether a new access of an engine is held: by a pending fence, or by an `atom` or a `bil.claim` that waits, which is a fence to every
path (R245, R259). -/
def Core.holdsNew (c : Core) (p : Path) : Bool := c.fenceHoldsNew p || (c.seq.markAt.isSome && c.seq.bars)

/-- The floors of R227 in units of 1/20,000 ns: the least earliest bound among the dies' newest time words, and over the group
the least among the members' newest time frames as well. -/
def State.floorPackage (s : State) : Int :=
  s.clocks.toList.foldl (fun m d => min m d.word) (s.clocks[(0 : Fin 4)]).word

def inGroup : Membership → Bool
  | .member => true
  | .leaving => true
  | _ => false

def State.floorTime (s : State) : Int :=
  if inGroup s.group.state then s.group.members.foldl (fun m x => min m (x.fPackage * 20000)) s.floorPackage
  else s.floorPackage

/-- The floor of a scope that takes stamps: TIME, else PACKAGE (R205). -/
def State.floor (s : State) (c : Scope) : Int := if c = .time then s.floorTime else s.floorPackage

/-- Whether every earliest bound in the scope exceeds t ns (R227). -/
def State.surelyPast (s : State) (c : Scope) (t : Int) : Bool := decide (s.floor c / 20000 > t)

/-- A pending fence's wait (R244). -/
def State.fenceDone (s : State) (f : Fence) : Bool :=
  !s.core.pathBusy f.pa f.seq && (decide (f.scope ≠ .time) || decide (s.floorTime / 20000 > f.limit))

/-! ### Sync words and completions (R182, R183, R262, R321) -/

/-- What an addition of b bytes writes into a sync word: count and generation (R182). -/
def State.countCells (s : State) (pa : PAddr) (b : Nat) : List (PAddr × Byte) :=
  let target := s.readNat pa 4
  let count := (s.readNat (pa.plus 4) 4 + b) % 2 ^ 32
  let gen := s.readNat (pa.plus 8) 4
  let count' := if target = 0 then count else count % target
  let gen' := if target = 0 then gen else (gen + count / target) % 2 ^ 32
  cellsAt (pa.plus 4) (bytesOfNat 4 count' ++ bytesOfNat 4 gen')

/-- What a failure writes into a sync word: code and flags, only where code is 0 (R183). -/
def State.failCells (s : State) (pa : PAddr) (code : Code) (flags : BitVec 16) : List (PAddr × Byte) :=
  if code ≠ 0 ∧ s.readNat (pa.plus 12) 2 = 0 then cellsAt (pa.plus 12) (bytesOfNat 2 code.toNat ++ bytesOfNat 2 flags.toNat)
  else []

/-- One action on a sync word: the addition of b bytes, none where b is 0, and a failure's code and flags (R182, R183); with the
check of the write (R224). -/
def State.syncAct (s : State) (pa : PAddr) (b : Nat) (code : Code) (flags : BitVec 16) : Ecc × State :=
  s.store ((if b = 0 then [] else s.countCells pa b) ++ s.failCells pa code flags)

def State.syncAdd (s : State) (pa : PAddr) (b : Nat) (code : Code) (flags : BitVec 16) : State := (s.syncAct pa b code flags).2

/-- The place of a completion sync word (R321): `own` is the core that core 127 names; `extra` is a crew that is being discarded, whose
cores still count as held, with its reserved bytes. DESIGN CHOICE: such a core that another crew holds by then is not reachable (R321: log 11). -/
def State.donePlace (s : State) (ctx done : Nat) (own : Option Nat) (extra : Option Crew) : Option PAddr :=
  if done % 16 = 0 ∧ isWindow done then
    match s.windowPlace ctx own done with
    | some p => some p
    | none => match windowCore own done, extra with
      | some id, some k =>
        if k.cores.contains id ∧ (s.coreOf id).seat.isNone ∧
            (bitsOf done 21 0 < k.packet.res.ls * 4096 ∨ castBase ≤ bitsOf done 21 0) then
          some ⟨.window, storeBase id + bitsOf done 21 0⟩
        else none
      | _, _ => none
  else none

/-- A completion addition of 1, or the firmware's log entry where none can be made (R25, R262, R321). -/
def State.doneAdd (s : State) (ctx done : Nat) (own : Option Nat) (extra : Option Crew) (code : Code) (flags : BitVec 16) : State :=
  if done = 0 then s else match s.donePlace ctx done own extra with
    | some p => match s.syncAct p 1 code flags with
      | (.ok, t) => t
      | (.lost, _) => s.logCtx ctx .badDone done codeDataLost
      | (.badTag, _) => s.haltContext ctx codeIntegrity (own.getD 0) false (wordOfNat done)
    | none => s.logCtx ctx .badDone done codeBounds

/-! ### Performing stores (R82, R205, R260 to R262) -/

/-- The fields of a billet's control word (R253). -/
def rowPhase (w : Nat) : Nat := w % 64
def rowBusy (w : Nat) : Bool := w.testBit 6
def rowSeq (w : Nat) : Nat := bitsOf w 63 32

def rowWord (seq : Nat) (busy : Bool) (phase : Nat) : Nat := put 0 6 phase + put 6 1 (bit busy) + put 32 32 seq

def finalPhase (h : Harness) (p : Nat) : Bool := h.final.toNat.testBit p

/-- The completion of a row that enters phase p by an advance of core `own` (R262). -/
def State.rowDone (s : State) (ctx own p : Nat) (pa : PAddr) : State :=
  match (s.ctx ctx).bind (·.harness) with
  | none => s
  | some h =>
    if p = 62 then s.doneAdd ctx (s.readNat (pa.plus 0x10) 8) (some own) none (BitVec.ofNat 16 (s.readNat (pa.plus 0x28) 2)) 0
    else if finalPhase h p then s.doneAdd ctx (s.readNat (pa.plus 0x10) 8) (some own) none 0 0
    else s

/-- A stamped version for a cell (R205): the older slot, slot 0 on a tie; nothing where the stamp is older still. -/
def State.putStamp (s : State) (pa : PAddr) (st : Int) (v : Word) : Ecc × State :=
  let s0 := sextNat 64 (s.readNat pa 8)
  let s1 := sextNat 64 (s.readNat (pa.plus 16) 8)
  let m := if s0 ≤ s1 then 0 else 16
  let old := if s0 ≤ s1 then s0 else s1
  if st ≥ old then s.store (cellsAt (pa.plus m) (bytesOfNat 8 (wrapInt 64 st) ++ bytesOfNat 8 v.toNat))
  else (s.eccRead (placesFrom pa 32), s)

/-- The cells that a performed advance or post writes, or none where it is refused (R260, R261). -/
def State.rowCells (s : State) : StoreKind → Option (List (PAddr × Byte))
  | .adv _ p pa =>
    let w := s.readNat pa 8
    if rowBusy w then some (cellsAt pa (bytesOfNat 8 (rowWord (rowSeq w + 1) false p))) else none
  | .post _ p pa =>
    let w := s.readNat pa 8
    if rowPhase w = 0 ∧ !rowBusy w then some (cellsAt pa (bytesOfNat 8 (rowWord (rowSeq w + 1) false p))) else none
  | .plain l => some l
  | .stamp _ _ _ _ => some []

/-- Perform one store of a core of context ctx (R83). -/
def State.performStore (s : State) (ctx own : Nat) (k : StoreKind) : Ecc × State :=
  match k with
  | .plain l => s.store l
  | .stamp _ st pa v => s.putStamp pa st v
  | .adv row p pa =>
    match s.eccRead (placesFrom pa 8) with
    | .ok => match s.rowCells k with
      | some l => ((s.store l).1, ((s.store l).2).rowDone ctx own p pa)
      | none => (.ok, s.logCtx ctx .refusedAdvance row)
    | e => (e, s)
  | .post row _ pa =>
    match s.eccRead (placesFrom pa 8) with
    | .ok => match s.rowCells k with
      | some l => s.store l
      | none => (.ok, s.logCtx ctx .refusedPost row)
    | e => (e, s)

def StoreKind.places : StoreKind → List PAddr
  | .plain l => l.map (·.1)
  | .stamp _ _ pa _ => placesFrom pa 32
  | .adv _ _ pa => placesFrom pa 8
  | .post _ _ pa => placesFrom pa 8

/-- Whether a load or store is performed as its bytes: it is not naturally aligned (R82). -/
def bytewise (l : List PAddr) : Bool := match l with
  | [] => false
  | p :: _ => !([1, 2, 4, 8].contains l.length && decide (p.addr % l.length = 0))

/-- The next access of a store, and what is left of it: one byte of a misaligned store (R82). -/
def StoreEntry.split (e : StoreEntry) : StoreEntry × Option StoreEntry :=
  match e.kind with
  | .plain (c :: d :: l) =>
    if e.begun || bytewise ((c :: d :: l).map Prod.fst) then
      ({ e with kind := .plain [c] }, some { e with kind := .plain (d :: l), begun := true })
    else (e, none)
  | _ => (e, none)

/-- The accesses of a store (R82). -/
def StoreEntry.accesses (e : StoreEntry) : List StoreEntry :=
  match e.kind with
  | .plain l => if e.begun || bytewise (l.map Prod.fst) then l.map (fun c => { e with kind := .plain [c] }) else [e]
  | _ => [e]

/-- Perform one access of a sequencer store of the focused core, and tell whether it met DATA_LOST; what its error leads to is R86 and
R224. -/
def State.performAccess (s : State) (e : StoreEntry) : State × Bool :=
  match s.performStore s.core.ctxNum s.core.id e.kind with
  | (.ok, t) => (t.wrote .seq e.kind.places, e.told)
  | (.lost, _) => (if e.told then s else s.addCause (.dataLost (wordOfNat e.va) e.pc), true)
  | (.badTag, _) => (s.haltAccess .seq e.pc [e.va], e.told)

def State.performSeqStore (s : State) (e : StoreEntry) : State := (s.performAccess e).1

/-! ### Undo bytes and held effects (R309) -/

def Core.undoUsed (c : Core) : Nat :=
  (c.seq.regions.map (·.charge)).foldl (· + ·) 0 + (c.vec.regions.map (·.charge)).foldl (· + ·) 0 +
  (c.xfer.regions.map (·.charge)).foldl (· + ·) 0

def Core.heldCount (c : Core) : Nat :=
  (c.seq.regions.map (·.held.length)).foldl (· + ·) 0 + (c.vec.regions.map (·.held.length)).foldl (· + ·) 0 +
  (c.xfer.regions.map (·.held.length)).foldl (· + ·) 0

/-- Whether undo bytes and held effects still fit (R309). -/
def Core.roomFor (c : Core) (undo held : Nat) : Bool :=
  decide (c.undoUsed + undo ≤ c.res.undo * 64) && decide (c.heldCount + held ≤ 64)

def roundUp (m n : Nat) : Nat := (n + m - 1) / m * m

/-! ### Bindings in flight (R90) -/

def HeldEffect.binds : HeldEffect → List Nat
  | .store _ _ b _ _ => b
  | .atom _ _ _ _ _ _ _ b => b
  | .push _ _ => []
  | .billet _ _ b => b
  | .cinch _ l => l.flatMap (·.binds)

/-- How many accesses are in flight on a binding. Held effects count: they were translated and are still to be performed (log
11). -/
def Core.inFlight (c : Core) (b : Nat) : Nat :=
  (c.seq.regions.map (fun r => r.held.countP (·.binds.contains b))).foldl (· + ·) 0 +
  (c.vec.regions.map (fun r => r.held.countP (fun v => v.binds.contains b))).foldl (· + ·) 0 +
  (c.seq.lq.countP (·.binds.contains b)) + (c.seq.sq.countP (·.binds.contains b)) +
  (match c.seq.cinch with
    | some x => x.stores.countP (·.binds.contains b)
    | none => 0) +
  c.vec.vp.countP (fun v => v.binds.contains b) +
  (c.xfer.all.map (fun o => o.blocks.countP (·.binds.contains b))).foldl (· + ·) 0 +
  (c.xfer.batches ++ c.xfer.openBatch.toList).countP (fun a => match a.sync with
    | some r => decide (r.bind = b)
    | none => false)

/-- Whether the step word at issue keeps its reference to a binding for the blocks that it has still to hand over (R90, R91). -/
def Core.referred (c : Core) (b : Nat) : Bool := match c.xfer.cur with
  | some o => !o.unissued && o.bindings.any (fun x => decide (x.id = b))
  | none => false

/-- Whether a draining binding stays: accesses are in flight on it, or the step word at issue still refers to it (log 11). -/
def Core.drains (c : Core) (b : Binding) : Bool := decide (c.inFlight b.id ≠ 0) || c.referred b.id

/-- Drop the draining bindings that nothing uses any more (R90 RELEASED). -/
def Core.release (c : Core) : Core := c.updSeq (fun q => { q with draining := q.draining.filter c.drains })

/-- Detach a slot's binding: a LIVE one drains, a REVOKED one is released (R88, R90). -/
def Core.detach (c : Core) (h : Hnd) : Core :=
  match c.seq.h[h] with
  | none => c
  | some b => (c.updSeq (fun q => { q with h := q.h.set h none, draining := if b.revoked then q.draining else q.draining ++ [b] })).release

/-! ### The frame in which an engine instruction issues (R17) -/

def EngState.waiting : EngState → Bool
  | .wait _ _ => true
  | _ => false

/-- Whether an engine stream is in RUN or WAIT (R17). -/
def EngState.live : EngState → Bool
  | .run => true
  | .wait _ _ => true
  | _ => false

/-- What an engine instruction answers. -/
inductive EngIssue where
  /-- It retires; the state holds its effect and the new program counter. -/
  | done (s : State)
  /-- It waits: kind and line of R95. -/
  | wait (kind line : Nat) (s : State)
  /-- A fault, with its detail where a rule names one (R301). -/
  | stop (code : Code) (detail : Option Word := none)
  /-- A fault whose record names another word (R184): code, that word's offset, MAYCORE and MAYLEFT. -/
  | stopAt (code : Code) (at_ : Word) (mayCore mayLeft : Bool) (s : State)
  /-- The context halts with a code (R223). -/
  | halt (code : Code)
  /-- The stream's state is settled by the meaning itself (an end, a rollback). -/
  | set (s : State)

def State.engNext (s : State) (e : Eng) : State := s.updEng e (fun x => { x with pc := x.pc + 4 })

/-- Enter STOPPED with a record of kind 0, and queue the sequencer's trap (R17, R19); kind 1 with code OK for `eng.stop`. R18 has
the record name the last instruction that completed, R301 has its at equal its pc, the word at which the stream resumes: the model
follows R301 (log 24). A release under way is given up: the close makes its waits again (R307, log 9). -/
def State.stopWith (s : State) (e : Eng) (kind : Nat) (code : Code) (at_ : Word) (spill mayCore mayLeft : Bool) (detail : Word) :
    State :=
  let s1 := s.record e.stream
    { code := code, kind := kind, pc := (s.core.eng e).pc, at_ := at_, addr := detail, spill := spill, mayCore := mayCore,
      mayLeft := mayLeft }
  let s2 := s1.updEng e (fun x => { x with st := .stopped, code := code, stopReq := false, releasing := false })
  if kind = 0 then s2.addCause (.stop e code s.now) else s2

/-- A stop whose detail no rule names (log 5). -/
def State.stopEngine (s : State) (e : Eng) (kind : Nat) (code : Code) (at_ : Word) (spill mayCore mayLeft : Bool) : State :=
  s.stopWith e kind code at_ spill mayCore mayLeft (s.openDetailOf e.stream)

/-- An instruction of a vector or transfer stream issues (the matrix stream's frame is that of R123, in Matrix.lean). -/
def State.issueEng (s : State) (e : Eng) : EngIssue → State
  | .done t => t.updEng e (fun x => { x with st := .run, retired := s.now })
  | .wait k l t => t.updEng e (fun x => { x with st := .wait k l })
  | .stop code d => s.stopWith e 0 code (s.core.eng e).pc false false false (d.getD (s.openDetailOf e.stream))
  | .stopAt code at_ m l t => t.stopEngine e 0 code at_ false m l
  | .halt code => s.haltWith code (s.openDetailOf e.stream)
  | .set t => t

end Sys2Proof.Machine
end

