-- ==== Sys2Proof/Machine/Operands.lean ====
section
/-!
DEFINITION. The operand forms of the engines: view descriptors and tree operands (R26, R27), k registers and loop words (R44,
R47), the full/empty test (R29), lanes (R132), the tree as a stream with open regions sees it (R305), handle operands (R91),
and the frame of a vector instruction (R132, R135).
-/
namespace Sys2Proof.Machine

/-! ### Views (R26, R27) -/

def viewBase (v : BitVec 64) : Nat := bitsOf v.toNat 10 0
def viewStride (v : BitVec 64) : Nat := bitsOf v.toNat 26 16
def viewExtent (v : BitVec 64) : Nat := bitsOf v.toNat 43 32
def viewKind (v : BitVec 64) : Nat := bitsOf v.toNat 46 44
def viewConsume (v : BitVec 64) : Bool := v.toNat.testBit 48
def viewWwait (v : BitVec 64) : Bool := v.toNat.testBit 49

/-- Whether `view.set` accepts a descriptor (R26). -/
def viewOk (v : BitVec 64) : Bool :=
  decide (bitsOf v.toNat 63 50 = 0) && !v.toNat.testBit 47 && decide (bitsOf v.toNat 31 27 = 0) &&
  decide (bitsOf v.toNat 15 11 = 0) && decide (viewKind v ≤ 2) && decide (viewExtent v ≠ 0) &&
  decide (viewBase v + viewExtent v ≤ 2048)

def kindVec : Nat := 0
def kindTile : Nat := 1
def kindCoder : Nat := 2

/-- An index operand (R37). -/
def idxValue (k : Vector KReg 8) : Idx → Nat
  | .lit i => i.val
  | .k r => k[r].val.toNat

/-- A tree operand placed (R27): its first line and its view's flags. -/
structure Placed where
  line    : Nat
  lines   : Nat
  consume : Bool
  wwait   : Bool
  deriving DecidableEq, Repr

/-- Place index i of a view for a use of `n` lines; none where R27 gives BOUNDS. -/
def Core.placeAt (c : Core) (view : Fin 8) (i n : Nat) (kinds : List Nat) : Option Placed :=
  let v := c.views[view]
  let l := viewBase v + i * viewStride v
  if i < viewExtent v ∧ l + n - 1 < c.res.tree ∧ kinds.contains (viewKind v) then
    some ⟨l, n, viewConsume v, viewWwait v⟩
  else none

def Core.place (c : Core) (k : Vector KReg 8) (t : TreeOp) (n : Nat) (kinds : List Nat) : Option Placed :=
  c.placeAt t.view (idxValue k t.idx) n kinds

/-- `m` consecutive indices of an operand (R133). -/
def Core.placeMany (c : Core) (k : Vector KReg 8) (t : TreeOp) (m n : Nat) (kinds : List Nat) : Option (List Placed) :=
  (List.range m).mapM (fun i => c.placeAt t.view (idxValue k t.idx + i) n kinds)

def Placed.all (p : Placed) : List Nat := rangeFrom p.line p.lines

/-! ### Loop words (R47) -/

def Engine.setK (e : Engine) (j : KIx) (v : BitVec 32) : Engine := { e with k := e.k.set j { e.k[j] with val := v } }

def Engine.loop (e : Engine) (j : KIx) (n : BitVec 23) : Engine :=
  { e with k := e.k.set j ⟨0, n.setWidth 32⟩, pc := e.pc + 4 }

/-- A branch target: the offset in words counts from the branch, at encoding version 1 from the word after it (R53). -/
def branchTarget (encv : Nat) (pc off : Word) : Word := (if encv = 1 then pc + 4 else pc) + 4 * off

def Engine.br (e : Engine) (encv : Nat) (j : KIx) (off : BitVec 23) : Engine :=
  let v := e.k[j].val + 1
  let e1 := e.setK j v
  if v < e.k[j].limit then { e1 with pc := branchTarget encv e.pc (sext64 off) } else { e1 with pc := e.pc + 4 }

def Engine.kop (e : Engine) (j : KIx) (v : BitVec 21) : Engine :=
  { e.setK j (v.setWidth 32) with pc := e.pc + 4 }

def Engine.kopAdd (e : Engine) (j : KIx) (v : BitVec 21) : Engine :=
  { e.setK j (e.k[j].val + v.signExtend 32) with pc := e.pc + 4 }

def Engine.kopMov (e : Engine) (j i : KIx) : Engine :=
  { e.setK j e.k[i].val with pc := e.pc + 4 }

/-! ### Lines as a stream sees them (R305) -/

/-- The newest deferred mark of a line; marks are kept newest first. -/
def markOf (l : List Mark) (n : Nat) : Option Bool := (l.find? (·.1 = n)).map (·.2)

def VecEngine.marks (v : VecEngine) : List Mark := v.regions.flatMap (·.marks)

def XferEngine.marks (x : XferEngine) : List Mark := x.regions.flatMap (·.marks)

/-- A line's bit as a stream with these deferred marks sees it. -/
def Core.fullAs (c : Core) (l : List Mark) (n : Nat) : Bool := (markOf l n).getD (c.line n).full

/-- The vector stream marks a line: deferred while a region is open. -/
def Core.vecMark (c : Core) (n : Nat) (f : Bool) : Core :=
  match c.vec.regions with
  | [] => c.setFull n f
  | r :: t => c.updVec (fun v => { v with regions := { r with marks := (n, f) :: r.marks } :: t })

/-- The transfer stream marks a line; `inside` as for its flags. -/
def Core.xferMark (c : Core) (inside : Bool) (n : Nat) (f : Bool) : Core :=
  match inside, c.xfer.regions with
  | true, r :: t => c.updXfer (fun x => { x with regions := { r with marks := (n, f) :: r.marks } :: t })
  | _, _ => c.setFull n f

/-- Replace the bytes of a line and keep its bit. -/
def Core.putData (c : Core) (n : Nat) (d : BitVec 512) : Core := c.setLine n { c.line n with data := d }

/-- Apply deferred marks, oldest first (R307). -/
def Core.applyMarks (c : Core) (l : List Mark) : Core := l.reverse.foldl (fun c m => c.setFull m.1 m.2) c


/-! ### Bytes and lanes of the tree (R132) -/

/-- n bytes of the tree from a tree byte, as a number; they lie in one line. -/
def Core.treeNat (c : Core) (b n : Nat) : Nat := (c.line (b / 64)).data.toNat / 2 ^ (8 * (b % 64)) % 2 ^ (8 * n)

def Core.treeByte (c : Core) (b : Nat) : Byte := BitVec.ofNat 8 (c.treeNat b 1)

/-- Lanes 0 to n − 1, w bytes each, of an operand that starts at a line. -/
def Core.lanes (c : Core) (line w n : Nat) : List Nat := (List.range n).map (fun i => c.treeNat (64 * line + w * i) w)

/-- The low 8m bits of a line replaced. -/
def mergeLow (old : BitVec 512) (m x : Nat) : BitVec 512 :=
  BitVec.ofNat 512 (old.toNat / 2 ^ (8 * m) * 2 ^ (8 * m) + x % 2 ^ (8 * m))

/-- A line written whole is good again (R223: log 14). -/
def Core.healLine (c : Core) (n : Nat) : Core := { c with treeLost := c.treeLost.filter (fun x => decide (x ≠ n)) }

/-- Restore saved lines, newest first (R308): the bytes, and the bit so that the stream sees it as it was saved. `full` is how the
stream sees a line, `mark` how it marks one; both go through its regions that stay open. A line that the undo buffer has lost is
uncorrectable from here (log 14). -/
def Core.restoreLines (c : Core) (full : Core → Nat → Bool) (mark : Core → Nat → Bool → Core) (l : List SavedLine) : Core :=
  l.foldl (fun c x =>
    let c1 := if x.lost then { c with treeLost := x.line :: c.treeLost } else (c.putData x.line x.old.data).healLine x.line
    if full c1 x.line = x.old.full then c1 else mark c1 x.line x.old.full) c

/-- Write bytes into lines from the first byte of a line onward; `fuel` bounds the lines. -/
def Core.putBytes (c : Core) : (fuel line : Nat) → List Byte → Core
  | 0, _, _ => c
  | fuel + 1, line, l =>
    if l.isEmpty then c
    else ((if l.length < 64 then c else c.healLine line).putData line
      (mergeLow (c.line line).data (min 64 l.length) (natOfBytes (l.take 64)))).putBytes fuel (line + 1) (l.drop 64)

/-- One tree byte replaced. -/
def Core.putByte (c : Core) (b : Nat) (x : Byte) : Core :=
  let d := (c.line (b / 64)).data.toNat
  let p := 2 ^ (8 * (b % 64))
  c.putData (b / 64) (BitVec.ofNat 512 (d / (p * 256) * (p * 256) + x.toNat * p + d % p))

def lanesBytes (w : Nat) (l : List Nat) : List Byte := l.flatMap (bytesOfNat w)

/-- Lines that n bytes from the start of a line touch. -/
def linesFor (n : Nat) : Nat := ceilDiv n 64

/-- Lane i's activity under SHAPE (R132). -/
def VecEngine.active (v : VecEngine) (i : Nat) : Bool :=
  decide (i < v.shape.lanes) && (!v.shape.on || (v.masks[v.shape.mask]).toNat.testBit i)

/-! ### Handle operands (R91, R135) -/

/-- The binding through which an engine issues: BOUNDS, a wait while an unmap revokes it, or the binding. -/
inductive EngBind where
  | bounds
  | revoking
  | ok (b : Binding)
  deriving DecidableEq, Repr

def Core.engBinding (c : Core) (h : Hnd) (write : Bool) : EngBind :=
  match c.seq.h[h] with
  | none => .bounds
  | some b =>
    if b.revoked then .bounds
    else if b.revoking then .revoking
    else if write && !b.writable then .bounds
    else .ok b

/-! ### The frame of a vector instruction -/

/-- A source: where it lies, its W bit. -/
structure VSrc where
  at_ : Placed
  w   : Bool
  deriving DecidableEq, Repr

/-- Lines that an in-flight load of the vector engine will write (R149). -/
def VecEngine.landing (v : VecEngine) : List Nat := v.vp.flatMap (fun e => match e.kind with
  | .load _ _ l _ => l
  | .store _ => [])

/-- Whether an open vector region lets a line be written: some open region saved it (R305). -/
def VecEngine.mayWrite (v : VecEngine) (n : Nat) : Bool :=
  v.regions.isEmpty || v.regions.any (fun r => r.saved.any (fun x => decide (x.line = n)))

/-- What a vector instruction computes once its sources are read: bytes for destination lines, the lines it marks full, flags, and
changes to the engine's own registers. -/
structure VOut where
  dst   : List (Nat × List Byte)
  full  : List Nat
  flags : BitVec 5
  post  : Core → Core

/-- The effect of a vector instruction: consume marks, destination bytes, full marks, flags, the engine's own registers; the
program counter moves on. What it marks or flags outside a region other streams can read (R311). -/
def State.vecEffect (s : State) (eaten : List Nat) (o : VOut) : State :=
  let c1 := (dedup eaten).foldl (fun c n => c.vecMark n false) s.core
  let c2 := o.dst.foldl (fun c d => c.putBytes 64 d.1 d.2) c1
  let c3 := (dedup o.full).foldl (fun c n => c.vecMark n true) c2
  let quiet := o.full.isEmpty && eaten.isEmpty && decide (o.flags = 0)
  let c4 := if quiet || !c3.vec.regions.isEmpty then c3 else c3.touch .vec s.now false
  ({ s with core := o.post (c4.vecFlags o.flags) } : State).engNext .vec

/-- The lines that sources with the consume flag empty. -/
def eatenLines (srcs : List VSrc) : List Nat := srcs.flatMap (fun x => if x.at_.consume then x.at_.all else [])

/-- The first wait or fault of R29 for the sources and destinations of one instruction, none where it may go on. `hold` is a wait
of the instruction's own (an unmap, a fence). A destination line that the instruction itself consumes is not waited for. R305's BOUNDS, of a
line that no open region saved, which R135 does not place, comes after the handle checks and before the waits and EMPTYREAD (log 24). -/
def State.vecTest (s : State) (srcs : List VSrc) (dsts : List Placed) (hold : Option Nat) : Option EngIssue :=
  let c := s.core
  let reads := srcs.flatMap (·.at_.all)
  let writes := dsts.flatMap Placed.all
  let full := c.fullAs c.vec.marks
  match writes.find? (fun n => !c.vec.mayWrite n) with
  | some n => some (.stop codeBounds (some (wordOfNat n)))
  | none => match hold with
  | some k => some (.wait k 0 s)
  | none => match (reads ++ writes).find? (fun n => c.vec.landing.contains n) with
  | some n => some (.wait 9 n s)
  | none => match ((srcs.filter (·.w)).flatMap (·.at_.all)).find? (fun n => !full n) with
  | some n => some (.wait 1 n s)
  | none => match ((srcs.filter (!·.w)).flatMap (·.at_.all)).find? (fun n => !full n) with
  | some n => some (.stop codeEmptyRead (some (wordOfNat n)))
  | none => match ((dsts.filter (·.wwait)).flatMap Placed.all).find? (fun n => full n && !(eatenLines srcs).contains n) with
  | some n => some (.wait 2 n s)
  | none => none

/-- A fault of a vector instruction: its code, and its detail where a rule names one (R301). -/
abbrev VFail := Code × Option Word

/-- A vector instruction: the tests of R29, then what it computes (R132, R135). `run` may answer BOUNDS, MENDFULL, DATA_LOST (R135
steps 5 and 6) or INTEGRITY, which halts the context (R221); lines that cannot be read give DATA_LOST. -/
def State.vecRun (s : State) (srcs : List VSrc) (dsts : List Placed) (hold : Option Nat) (run : Except VFail VOut) : EngIssue :=
  match s.vecTest srcs dsts hold with
  | some r => r
  | none => match run with
    | .error (code, d) => if code = codeIntegrity then .halt code else .stop code d
    | .ok o => match (srcs.flatMap (·.at_.all)).find? (fun n => s.core.treeLost.contains n) with
      | some n => .stop codeDataLost (some (wordOfNat n))
      | none => .done (s.vecEffect (eatenLines srcs) o)

/-- The first line of the first of some uses of views (view, index, lines) that R27 refuses: the detail of its BOUNDS (log 5). -/
def Core.badUse (c : Core) (kinds : List Nat) (ops : List (Fin 8 × Nat × Nat)) : Option Word :=
  (ops.find? (fun o => (c.placeAt o.1 o.2.1 o.2.2 kinds).isNone)).map (fun o =>
    wordOfNat (viewBase c.views[o.1] + o.2.1 * viewStride c.views[o.1]))

/-- The uses of an operand of m consecutive indices. -/
def usesOf (t : TreeOp) (k : Vector KReg 8) (m n : Nat) : List (Fin 8 × Nat × Nat) :=
  (List.range m).map (fun i => (t.view, idxValue k t.idx + i, n))

/-- The same for operands of one index each, with their lines. -/
def Core.badPlace (c : Core) (k : Vector KReg 8) (kinds : List Nat) (ops : List (TreeOp × Nat)) : Option Word :=
  c.badUse kinds (ops.flatMap (fun o => usesOf o.1 k 1 o.2))

/-- BOUNDS of a vector instruction whose operands R27 refuses. -/
def State.vecMisplaced (s : State) (ops : List (TreeOp × Nat)) : EngIssue :=
  .stop codeBounds (s.core.badPlace s.core.vec.eng.k [kindVec] ops)

/-- Operands of one index each, with the lines they occupy, of views of kind vec. -/
def State.vecPlaces (s : State) (ops : List (TreeOp × Nat)) : Option (List Placed) :=
  ops.mapM (fun o => s.core.place s.core.vec.eng.k o.1 o.2 [kindVec])

end Sys2Proof.Machine
end

