-- ==== Sys2Proof/Machine/XferCore.lean ====
section
/-!
DEFINITION. How a data operation of the transfer engine runs (R160 to R177, R182 to R184): which bytes it reads and writes,
handing a block over, landing a block, failing and completing.
-/
namespace Sys2Proof.Machine

/-! ### Which byte goes where -/

/-- The windows' fields by name (R51, R171). -/
def winAt (w : Vector (BitVec 32) 15) (f : WinField) : Nat := (w[(Fin.ofNat 15 f.code : Fin 15)]).toNat

/-- Output rows and columns (R171), as integers. -/
def unfoldRows (w : Vector (BitVec 32) 15) : Int :=
  ((winAt w .ih : Int) + winAt w .pt + winAt w .pb - winAt w .dy * ((winAt w .wh : Int) - 1) - 1) / (winAt w .sy : Int) + 1

def unfoldCols (w : Vector (BitVec 32) 15) : Int :=
  ((winAt w .iw : Int) + winAt w .pl + winAt w .pr - winAt w .dx * ((winAt w .ww : Int) - 1) - 1) / (winAt w .sx : Int) + 1

/-- Bytes of one patch row (R172). -/
def patchBytes (w : Vector (BitVec 32) 15) (t : EType) : Nat := winAt w .wh * winAt w .ww * winAt w .ch * t.width

/-- The bytes between input rows (R172). -/
def inputPitch (w : Vector (BitVec 32) 15) (t : EType) (spitch : Nat) : Nat :=
  if spitch = 0 then winAt w .iw * winAt w .ch * t.width else spitch

def reflect (y n : Int) : Int := if y < 0 then -y else if y ≥ n then 2 * (n - 1) - y else y

def clampIn (y n : Int) : Int := if y < 0 then 0 else if y ≥ n then n - 1 else y

/-- Where an output byte comes from: a source byte, or a constant. -/
inductive ByteFrom where
  | src (off : Nat)
  | const (b : Byte)
  deriving DecidableEq, Repr

/-- Output byte i of an unfold (R172). -/
def unfoldByte (w : Vector (BitVec 32) 15) (t : EType) (spitch p0 i : Nat) : ByteFrom :=
  let row := patchBytes w t
  let p := p0 + i / row
  let ow := (unfoldCols w).toNat
  let el := i % row / t.width
  let r := i % row % t.width
  let ch := winAt w .ch
  let c := el % ch
  let kx := el / ch % winAt w .ww
  let ky := el / ch / winAt w .ww
  let ih : Int := winAt w .ih
  let iw : Int := winAt w .iw
  let y : Int := (p / ow * winAt w .sy : Nat) - (winAt w .pt : Int) + (ky * winAt w .dy : Nat)
  let x : Int := (p % ow * winAt w .sx : Nat) - (winAt w .pl : Int) + (kx * winAt w .dx : Nat)
  let from_ : Int → Int → ByteFrom := fun y x =>
    .src (y.toNat * inputPitch w t spitch + x.toNat * ch * t.width + c * t.width + r)
  if 0 ≤ y ∧ y < ih ∧ 0 ≤ x ∧ x < iw then from_ y x
  else match winAt w .pmode with
    | 0 => .const 0
    | 1 => .const (BitVec.ofNat 8 (winAt w .pconst / 2 ^ (8 * r)))
    | 2 => from_ (reflect y ih) (reflect x iw)
    | _ => from_ (clampIn y ih) (clampIn x iw)

/-- Where output byte i comes from, for the kinds that move bytes. -/
def XOp.byteFrom (o : XOp) (i : Nat) : ByteFrom :=
  match o.kind with
  | .copy rows rb sp _ => .src (if rows = 0 then i else i / rb * sp + i % rb)
  | .fill v => .const (BitVec.ofNat 8 (v.toNat / 2 ^ (8 * (i % 4))))
  | .gather e idx => .src (idx.getD (i / e) 0 * e + i % e)
  | .unfold w t sp _ p0 => unfoldByte w t sp p0 i
  | _ => .src i

/-- The destination byte of output byte i. -/
def XOp.byteTo (o : XOp) (i : Nat) : Nat :=
  match o.kind with
  | .copy rows rb _ dp => if rows = 0 then i else i / rb * dp + i % rb
  | .scatter e idx => idx.getD (i / e) 0 * e + i % e
  | .unfold w t _ dp _ => i / patchBytes w t * (if dp = 0 then patchBytes w t else dp) + i % patchBytes w t
  | _ => i

/-- Source bytes that output bytes a to a + n − 1 need, in source order (R160, R172). -/
def XOp.needs (o : XOp) (a n : Nat) : List Nat :=
  match o.kind with
  | .conv st dt => rangeFrom (a / dt.width * st.width) (n / dt.width * st.width)
  | _ => (rangeFrom a n).filterMap (fun i => match o.byteFrom i with
    | .src x => some x
    | .const _ => none)

/-- Output bytes in one block (R160, R168). -/
def XOp.blockSize (o : XOp) : Nat := match o.kind with
  | .scatter e _ => 4096 / e * e
  | _ => 4096

/-- The tree lines of a list of source bytes, in order of first use; ascending for an unfold (R172). -/
def XOp.sourceLines (o : XOp) (offs : List Nat) : List Nat :=
  match o.src with
  | some (.tree line _ _) =>
    let l := (dedup (offs.map (fun x => line + x / 64)).reverse).reverse
    match o.kind with
    | .unfold _ _ _ _ _ => sortNat l
    | _ => l
  | _ => []

/-- Tree lines that output bytes a to a + n − 1 of an operation with a tree destination go to. -/
def XOp.destLines (o : XOp) (a n : Nat) : List Nat :=
  match o.kind, o.dst with
  | .wbfill _, _ => []
  | _, .tree line _ _ => dedup ((rangeFrom a n).map (fun i => line + o.byteTo i / 64))
  | _, .mem _ _ => []

/-! ### Reading the source -/

/-- Whether the source view consumes (R160; a collective never does, R185). -/
def XOp.consumes (o : XOp) : Bool := match o.kind, o.src with
  | .coll _ _ _ _, _ => false
  | _, some (.tree _ c _) => c
  | _, _ => false

/-- Take a block's source lines one after the other (R14, R160): a line that is not full stops the taking. While a region is being
released the marks join its deferred ones, which are applied after it (R307). A block takes each of its lines once. -/
def Core.takeLines (c : Core) (o : XOp) (consume : Bool) : List Nat → Core × XOp × Option Nat
  | [] => (c, o, none)
  | n :: t =>
    if o.taken.any (fun x => decide (x.1 = n)) then c.takeLines o consume t
    else if !c.fullAs c.xfer.marks n then (c, o, some n)
    else (if consume then c.xferMark (o.inside || c.xfer.eng.releasing) n false else c).takeLines { o with taken := o.taken ++ [(n, (c.line n).data)] }
      consume t

def XOp.isUnpack (o : XOp) : Bool := match o.kind with
  | .unpack _ _ _ => true
  | _ => false

/-- A block that is to be read anew from its first source byte: one that reads memory, and a coded block (R175, R187). Lines that any other
block has consumed stay taken. -/
def XOp.forget (o : XOp) : XOp := match o.src with
  | some (.tree _ _ _) => if o.isUnpack then { o with taken := [] } else o
  | _ => { o with taken := [] }

/-- Lines that an operation has consumed in the open other streams see empty (R311). -/
def Core.tookLines (c : Core) (now : Nat) (o o1 : XOp) : Core :=
  if o.consumes && decide (o.taken.length < o1.taken.length) && !(o.inside || c.xfer.eng.releasing) then c.touch .xfer now false else c

/-- The number of the sector that a byte of memory lies in. -/
def sectorNum (p : PAddr) : Nat := p.addr / 64

/-- A source byte: of the lines or sectors taken, or of memory as it stands (log 15). -/
def State.sourceByte (s : State) (o : XOp) (off : Nat) : Byte :=
  match o.src with
  | some (.tree line _ _) =>
    BitVec.ofNat 8 ((assocGet 0 o.taken (line + off / 64)).toNat / 2 ^ (8 * (off % 64)))
  | some (.mem b base) => match b.place (base + off) with
    | some p => (match o.taken.find? (fun x => decide (x.1 = sectorNum p)) with
      | some x => BitVec.ofNat 8 (x.2.toNat / 2 ^ (8 * (p.addr % 64)))
      | none => s.readByte p)
    | none => 0
  | none => 0

/-- The check of the source bytes of a block that are still to be read (R223). -/
def State.sourceEcc (s : State) (o : XOp) (offs : List Nat) : Ecc :=
  match o.src with
  | some (.tree line _ _) => if offs.any (fun x => s.core.treeLost.contains (line + x / 64)) then .lost else .ok
  | some (.mem b base) =>
    s.eccRead ((offs.filterMap (fun x => b.place (base + x))).filter (fun p => !o.taken.any (fun x => decide (x.1 = sectorNum p))))
  | none => .ok

/-- A number of `w` source bytes, lowest first. -/
def State.sourceNat (s : State) (o : XOp) (off w : Nat) : Nat :=
  natOfBytes ((rangeFrom off w).map (s.sourceByte o))

/-- The output bytes a to a + n − 1, with the flags of a conversion (R170). -/
def State.outputBytes (s : State) (o : XOp) (a n : Nat) : List Byte × BitVec 5 :=
  match o.kind with
  | .conv st dt =>
    let l := (rangeFrom (a / dt.width) (n / dt.width)).map (fun j => convert st dt (s.sourceNat o (st.width * j) st.width))
    (l.flatMap (fun r => bytesOfNat dt.width r.1), (l.map (·.2)).foldl (· ||| ·) 0)
  | _ => ((rangeFrom a n).map (fun i => match o.byteFrom i with
    | .src x => s.sourceByte o x
    | .const b => b), 0)

/-! ### Unpacking (R173, R174) -/

def PackFmt.code : PackFmt → Nat
  | .t5p => 0
  | .bsi8 => 1
  | .sp24 => 2
  | .zrun => 3

/-- Trits of T5P bytes as I8, the first `n`. -/
def unpackT5p : Nat → List Byte → Except Code (List Byte)
  | 0, _ => .ok []
  | _, [] => .error codeRatio
  | n, b :: t => match trits b.toNat with
    | none => .error codeBadTrit
    | some l => match unpackT5p (n - 5) t with
      | .ok r => .ok ((l.map (BitVec.ofInt 8)).take n ++ r)
      | .error e => .error e
  termination_by structural _ l => l

/-- Groups of up to 32 I8 values behind one scale (R174); `n` elements are still to come. DEDUCED: the product of a negative value and the scale
zero is −0, by the sign rule of R68 (log 24). -/
def unpackBsi8 (dt : EType) : (fuel n : Nat) → List Byte → Except Code (List Byte × BitVec 5)
  | _, 0, [] => .ok ([], 0)
  | _, 0, _ :: _ => .error codeRatio
  | 0, _, _ => .error codeRatio
  | _, _ + 1, [] => .error codeRatio
  | fuel + 1, n + 1, sc :: t =>
    let m := min 32 (n + 1)
    if t.length < m then .error codeRatio
    else
      let vals := (t.take m).flatMap (fun b =>
        bytesOfNat dt.width (writeValue dt (FVal.mul (fvalOfInt b.toInt) (e4Value sc.toNat))).1)
      match unpackBsi8 dt fuel (n + 1 - m) (t.drop m) with
      | .ok (r, f) => .ok (vals ++ r, flagIf (e4Inv sc.toNat) flagScaleInv ||| f)
      | .error e => .error e

/-- One 2:4 group: its nibble and its two kept values (R116); none for a malformed nibble. -/
def sparseGroup (nib : Nat) (a b : Byte) : Option (List Byte) :=
  let i := nib % 4
  let j := nib / 4 % 4
  if i < j then some ((List.range 4).map (fun p => if p = i then a else if p = j then b else 0)) else none

def unpackSp24 : (fuel n : Nat) → List Byte → Except Code (List Byte)
  | _, 0, [] => .ok []
  | _, 0, _ :: _ => .error codeRatio
  | 0, _, _ => .error codeRatio
  | fuel + 1, n, m :: a :: b :: c :: d :: t =>
    if n < 8 then .error codeRatio
    else match sparseGroup (m.toNat % 16) a b, sparseGroup (m.toNat / 16) c d with
      | some x, some y => match unpackSp24 fuel (n - 8) t with
        | .ok r => .ok (x ++ y ++ r)
        | .error e => .error e
      | _, _ => .error codeSpmeta
  | _ + 1, _, _ => .error codeRatio

def unpackZrun : (fuel n : Nat) → List Byte → Except Code (List Byte)
  | _, 0, [] => .ok []
  | _, 0, _ :: _ => .error codeRatio
  | 0, _, _ => .error codeRatio
  | _, _ + 1, [] => .error codeRatio
  | fuel + 1, n + 1, b :: t =>
    let m := if b.toNat < 128 then b.toNat + 1 else b.toNat - 127
    let lit := if b.toNat < 128 then t.take m else List.replicate m (0 : Byte)
    let rest := if b.toNat < 128 then t.drop m else t
    if m > n + 1 ∨ lit.length < m then .error codeRatio
    else match unpackZrun fuel (n + 1 - m) rest with
      | .ok r => .ok (lit ++ r)
      | .error e => .error e

/-- Decode one payload to exactly `out` bytes (R174). DESIGN CHOICE: where several causes hold at once the code is that of the first one met
here; a wrong length of a t5p payload comes before its bytes, a malformed sp24 nibble before the payload's end (log 24). -/
def unpackPayload (fmt : PackFmt) (dt : EType) (out : Nat) (l : List Byte) : Except Code (List Byte × BitVec 5) :=
  match fmt with
  | .t5p => if l.length = ceilDiv out 5 then (unpackT5p out l).map (·, 0)
            else .error codeRatio
  | .bsi8 => unpackBsi8 dt (l.length + 1) (out / dt.width) l
  | .sp24 => (unpackSp24 (l.length + 1) out l).map (·, 0)
  | .zrun => (unpackZrun (l.length + 1) out l).map (·, 0)

/-- The bytes a format's output comes in (R174). -/
def PackFmt.unit (f : PackFmt) (dt : EType) : Nat := match f with
  | .bsi8 => dt.width
  | .sp24 => 8
  | _ => 1

/-- Header checks (R174): `rest` source bytes from the header on, `room` destination bytes. -/
def headerFault (fmt : PackFmt) (ratio : Nat) (dt : EType) (h rest room : Nat) : Option Code :=
  let inlen := bitsOf h 31 16
  let out := bitsOf h 15 0
  if bitsOf h 63 40 ≠ 0 ∨ bitsOf h 39 32 ≠ fmt.code then some codeRatio
  else if inlen = 0 ∨ out = 0 ∨ out > 4096 then some codeRatio  -- R173: outlen is 1 to 4,096; R174 names 0 alone (log 24)
  else if out * 16 > ratio * (8 + inlen) then some codeRatio
  else if 8 + inlen > rest then some codeRatio
  else if out % fmt.unit dt ≠ 0 then some codeRatio
  else if out > room then some codeBounds
  else none

/-! ### Batches, failures, completion (R178, R183, R184) -/

/-- An outstanding batch ends once none of its operations is left (R178). -/
def XferEngine.sweep (x : XferEngine) : XferEngine :=
  { x with batches := x.batches.filter (fun b => x.all.any (fun o => decide (o.batch = b.id)) ||
      x.regions.any (fun r => r.held.any (fun o => decide (o.batch = b.id)))) }

def XferEngine.inAir (x : XferEngine) : Nat := (x.all.map (·.blocks.length)).foldl (· + ·) 0

/-- PARTIAL and MAYLEFT of a failed operation (R181, R184); a strike report brings its own bit (R311). -/
def failFlags (o : XOp) : BitVec 16 := BitVec.ofNat 16 (2 * bit o.written + bit (o.left || o.bits.mayLeft))

/-- A halt for a tag that does not match and that an operation meets: its detail is a free value of its step word (log 5). -/
def State.haltFor (s : State) (o : XOp) : State := s.haltWith codeIntegrity (Config.freeDetail 3 o.pc.toNat o.word.toNat [o.len])

/-- An action of the transfer engine on a sync word: whether it was made (R182, R183, R224); a failed tag halts the context. -/
def State.addSync (s : State) (a : SyncAdd) : Bool × State :=
  match s.syncAct a.pa a.bytes a.code a.flags with
  | (.ok, t) => (true, t.wrote .xfer [a.pa])
  | (.lost, _) => (false, s)
  | (.badTag, _) => (true, s.haltWith codeIntegrity (Config.freeDetail 3 0 0 [a.pa.addr]))

/-- An addition to a batch's sync word, or its deferral inside a region (R182, R305): whether it was made or deferred. A failure in a
batch without a sync word is recorded, with the bits of the strike report that caused it, if one did (R311). -/
def State.batchAdd (s : State) (o : XOp) (n : Nat) (code : Code) (flags : BitVec 16) : Bool × State :=
  match s.core.xfer.batch o.batch with
  | none => (true, s)
  | some b => match b.sync with
    | some r =>
      match o.inside, s.core.xfer.regions with
      | true, g :: t => (true, s.updXfer (fun x => { x with regions := { g with adds := g.adds ++ [⟨r.pa, n, code, flags⟩] } :: t }))
      | _, _ => s.addSync ⟨r.pa, n, code, flags⟩
    | none =>
      let s1 := s.updXfer (fun x => { x with
        openBatch := x.openBatch.map (fun b => if b.id = o.batch then { b with landed := b.landed + n } else b) })
      if code = 0 then (true, s1)
      else (true, s1.updXfer (fun x => { x with fails := x.fails ++ [⟨o.seq, o.pc, o.word, code, o.bits.mayCore, o.bits.mayLeft⟩] }))

/-- An operation completes: its flags, its failure, its batch (R160, R170, R184). The flags of a word that was held in a region go
into FLAGS here, not into the region's mask (R76 names no place for them: log 24). -/
def State.finishOp (s : State) (o : XOp) : State :=
  let s1 := s.upd (fun c => c.xferFlags o.inside o.mask)
  let s2 := match o.failed with
    | none => s1
    | some code => (s1.batchAdd o 0 code (failFlags o)).2
  s2.upd (fun c => (c.updXfer (fun x => ({ x with ops := x.ops.filter (fun y => decide (y.id ≠ o.id)) }).sweep)).release)

/-- Put an operation back after a change, or complete it once all its blocks have landed. -/
def State.settleOp (s : State) (o : XOp) : State :=
  if o.issued ∧ o.blocks.isEmpty then s.finishOp o
  else if (s.core.xfer.cur.map (·.id)) = some o.id then s.updXfer (fun x => { x with cur := some o })
  else s.updXfer (fun x => { x with ops := x.ops.map (fun y => if y.id = o.id then o else y) })

/-- The operation whose blocks are being handed over has no more to hand over; the step word has issued (R160). A held word
that is issued at a release leaves the program counter at the close (R307). -/
def State.allHanded (s : State) (o : XOp) : State :=
  let own := decide (o.pc = s.core.xfer.eng.pc)
  let s1 := s.updXfer (fun x => { x with
    cur := none, ops := x.ops ++ [{ o with issued := true, taken := [] }],
    eng := { x.eng with st := .run, retired := s.now, pc := if own then x.eng.pc + 4 else x.eng.pc } })
  s1.settleOp { o with issued := true, taken := [] }

/-- A run failure of the operation being issued: what is not handed over is not issued (R184). Inside a region DATA_LOST is
left in `cur` for the rollback (R305). -/
def State.failCur (s : State) (o : XOp) (code : Code) : State :=
  if o.inside ∧ code = codeDataLost then s.updXfer (fun x => { x with cur := some { o with failed := some code } })
  else s.allHanded { o with failed := o.failed.or (some code) }

/-! ### Handing a block over (R160) -/

/-- The binding as it stands now: an unmap may be revoking it or have revoked it (R91); one that drains serves the word that refers to it,
one that is gone was REVOKED when its slot was freed or bound anew, and nothing issues on it any more (R90, R219). -/
def Core.bindingNow (c : Core) (b : Binding) : EngBind :=
  match c.seq.bindings.find? (·.id = b.id) with
  | some x => if x.revoked then .bounds else if x.revoking then .revoking else .ok x
  | none => if c.seq.draining.any (·.id = b.id) then .ok b else .bounds

/-- What a block finds before anything of its source is read. -/
inductive Gate where
  | go
  | gone
  | wait (kind : Nat)
  deriving DecidableEq, Repr

/-- The gate of a block: a binding that is REVOKED by now (R91), a pending fence or waiting atomic (R244, R245), a binding that an unmap
is revoking (R91). -/
def Core.blockGate (c : Core) (o : XOp) : Gate :=
  if o.bindings.any (fun b => decide (c.bindingNow b = .bounds)) then .gone
  else if c.holdsNew o.kind.path then .wait 7
  else if o.bindings.any (fun b => decide (c.bindingNow b = .revoking)) then .wait 10
  else .go

/-- The tree lines that the blocks in flight will write, collectives aside: they are full before and after (R185). -/
def XferEngine.landing (x : XferEngine) : List Nat :=
  x.all.flatMap (fun o => match o.kind with
    | .coll _ _ _ _ => []
    | _ => o.blocks.flatMap (fun b => o.destLines b.first b.bytes.length))

/-- A full line among the destination lines of n output bytes of an operation that writes through a write-wait view (R29); none for a
collective (R185). -/
def Core.fullLine (c : Core) (o : XOp) (a n : Nat) : Option Nat := match o.kind, o.dst with
  | .coll _ _ _ _, _ => none
  | _, .tree _ _ true => (o.destLines a n).find? (c.fullAs c.xfer.marks)
  | _, _ => none

/-- A destination line that a block waits for at its hand-over: full, or about to be filled by a block in flight (R29, R160). -/
def Core.lineAwaited (c : Core) (o : XOp) (a n : Nat) : Option Nat := match o.kind, o.dst with
  | .coll _ _ _ _, _ => none
  | _, .tree _ _ true => (o.destLines a n).find? (fun l => c.fullAs c.xfer.marks l || c.xfer.landing.contains l)
  | _, _ => none

/-- What holds a block back once its source lines are taken (R160): a line of a write-wait view, the block limit. -/
def Core.blockWait (c : Core) (o : XOp) (a n : Nat) : Option (Nat × Nat) := match c.lineAwaited o a n with
  | some l => some (2, l)
  | none => if c.xfer.inAir ≥ 16 then some (8, 0) else none

def State.xferWait (s : State) (o : XOp) (kind line : Nat) : State :=
  s.updXfer (fun x => { x with cur := some o, eng := { x.eng with st := .wait kind line } })

/-- Hand over a block whose bytes are known; the next block takes its own lines. A conversion's flags are kept even where a source of
the block was lost (R65, R170 are silent: log 24). -/
def State.hand (s : State) (o : XOp) (first : Nat) (bytes : List Byte) (consume : List Nat) (e : Ecc) (f : BitVec 5)
    (next out : Nat) (last : Bool) : State :=
  let b : Block := { seq := s.core.issue, first := first, bytes := bytes, consume := consume, binds := o.bindings.map (·.id),
                     lost := decide (e = .lost), badTag := decide (e = .badTag), landed := 0, formed := false }
  let o1 := { o with next := next, out := out, blocks := o.blocks ++ [b], mask := o.mask ||| f }
  let s1 := s.upd Core.bump
  if last then s1.allHanded o1
  else s1.updXfer (fun x => { x with cur := some { o1 with taken := [] }, eng := { x.eng with st := .run } })

/-- A block of any operation but an unpack. -/
def State.handBlock (s : State) (o : XOp) : State :=
  let n := min o.blockSize (o.len - o.next)
  let offs := o.needs o.next n
  match s.core.takeLines o o.consumes (o.sourceLines offs) with
  | (c, o1, some l) => ({ s with core := c.tookLines s.now o o1 }).xferWait o1 1 l
  | (c, o1, none) =>
    let s1 : State := { s with core := c.tookLines s.now o o1 }
    match c.blockWait o1 o1.next n with
    | some (k, l) => s1.xferWait o1 k l
    | none =>
      let r := s1.outputBytes o1 o1.next n
      s1.hand o1 o1.next r.1 [] (s1.sourceEcc o1 offs) r.2 (o1.next + n) (o1.out + n) (decide (o1.next + n ≥ o1.len))

/-- Room left at a destination from output byte `out` on (R174). -/
def State.roomAt (s : State) (o : XOp) : Nat := match o.dst with
  | .mem b off => b.len - (off + o.out)
  | .tree line _ _ => 64 * (s.core.res.tree - line) - o.out

/-- Whether the output of a coded block would run over the operation's own source (R164), as far as its header tells. -/
def XOp.unpackOverlaps (o : XOp) (out n : Nat) : Bool :=
  match o.dst, o.src with
  | .tree x _ _, some (.tree y _ _) => overlaps (x + out / 64) (ceilDiv (out % 64 + n) 64) y (ceilDiv o.len 64)
  | .mem x a, some (.mem y b) => overlaps (x.base + a + out) n (y.base + b) o.len
  | _, _ => false

/-- A coded block of an unpack (R173 to R175): consume marks wait for the landing, and are those of the block's own lines. A block that
fails raises no flag of its scales (R65, R174 are silent: log 24). -/
def State.handCoded (s : State) (o : XOp) (fmt : PackFmt) (ratio : Nat) (dt : EType) : State :=
  let rest := o.len - o.next
  let hd := rangeFrom o.next (min 8 rest)
  match s.core.takeLines o false (o.sourceLines hd) with
  | (c, o1, some l) => ({ s with core := c }).xferWait o1 1 l
  | (c, o1, none) =>
    let s1 : State := { s with core := c }
    if s1.sourceEcc o1 hd = .badTag then s1.haltFor o1
    else if s1.sourceEcc o1 hd = .lost then s1.failCur o1 codeDataLost
    else if rest < 8 then s1.failCur o1 codeRatio
    else
      let h := s1.sourceNat o1 o1.next 8
      match headerFault fmt ratio dt h rest (s1.roomAt o1) with
      | some code => s1.failCur o1 code
      | none =>
        let inlen := bitsOf h 31 16
        let out := bitsOf h 15 0
        let pay := rangeFrom (o1.next + 8) inlen
        if o1.unpackOverlaps o1.out out then s1.failCur o1 codeBounds
        else match c.takeLines o1 false (o1.sourceLines pay) with
        | (c2, o2, some l) => ({ s1 with core := c2 }).xferWait o2 1 l
        | (c2, o2, none) =>
          let s2 : State := { s1 with core := c2 }
          match c2.blockWait o2 o2.out out with
          | some (k, l) => s2.xferWait o2 k l
          | none =>
            let e := s2.sourceEcc o2 pay
            if e = .badTag then s2.haltFor o2
            else if e = .lost then s2.failCur o2 codeDataLost
            else match unpackPayload fmt dt out (pay.map (s2.sourceByte o2)) with
              | .error code => s2.failCur o2 code
              | .ok (bytes, f) =>
                let consume := match o2.src with
                  | some (.tree _ true _) => o2.taken.map (·.1)
                  | _ => []
                s2.hand o2 o2.out bytes consume .ok f (o2.next + 8 + inlen) (o2.out + out)
                  (decide (o2.next + 8 + inlen ≥ o2.len))

/-- The slot that an endpoint names, where its binding is REVOKED by now. -/
def Core.goneSlot (c : Core) : XPoint → XEnd → Option Word
  | .hnd h _, .mem b _ => if c.bindingNow b = .bounds then some (wordOfNat h.val) else none
  | _, _ => none

/-- A binding of the operation at issue is gone: its word stops the engine with BOUNDS and the slot as detail (R91, R301). What it handed
over lands; it counts as complete, without a failure, in its batch (log 24). -/
def State.bindingGone (s : State) (o : XOp) : State :=
  ((s.updXfer (fun x => { x with cur := none, ops := x.ops ++ [{ o with issued := true, taken := [] }] })).settleOp
    { o with issued := true, taken := [] }).stopWith .xfer 0 codeBounds o.pc false false false
    (((s.core.goneSlot o.dstPt o.dst).or (o.srcPt.bind (fun p => o.src.bind (s.core.goneSlot p)))).getD (s.openDetailOf .xfer))

/-- The next block of the operation at issue, once its gate is open. -/
def State.handNext (s : State) (o : XOp) : State :=
  match s.core.blockGate o with
  | .gone => s.bindingGone o
  | .wait k => s.xferWait o.forget k 0
  | .go => match o.kind with
    | .unpack fmt ratio dt => s.handCoded o fmt ratio dt
    | _ => s.handBlock o

/-- The tree lines that the next block reads, in order, as far as they are known: those of a coded block's payload only once its header is
read (R160, R173). -/
def State.nextLines (s : State) (o : XOp) : List Nat :=
  match o.kind with
  | .unpack _ _ _ =>
    let hd := o.sourceLines (rangeFrom o.next (min 8 (o.len - o.next)))
    if o.len - o.next ≥ 8 ∧ hd.all (fun n => o.taken.any (fun x => decide (x.1 = n))) then
      hd ++ o.sourceLines (rangeFrom (o.next + 8) (min (bitsOf (s.sourceNat o o.next 8) 31 16) (o.len - o.next - 8)))
    else hd
  | _ => o.sourceLines (o.needs o.next (min o.blockSize (o.len - o.next)))

/-- Part of the next block's source is read before the rest: up to n further lines of the tree, in order, or the sectors of n bytes of memory
from byte `a` of the source on. The memory keeps no order among them (R160, R316: log 15). -/
def State.readEarly (s : State) (o : XOp) (a n : Nat) : State :=
  match o.src with
  | some (.tree _ _ _) =>
    let l := ((s.nextLines o).filter (fun m => !o.taken.any (fun x => decide (x.1 = m)))).take n
    (match s.core.takeLines o (o.consumes && !o.isUnpack) l with
      | (c, o1, some m) => ({ s with core := c.tookLines s.now o o1 }).xferWait o1 1 m
      | (c, o1, none) => ({ s with core := c.tookLines s.now o o1 }).updXfer (fun x => { x with cur := some o1 }))
  | some (.mem b base) =>
    let l := ((((rangeFrom a n).filter (fun x => decide (x < o.len))).filterMap (fun x => b.place (base + x))).map sectorOf).eraseDups
    let l1 := l.filter (fun p => !o.taken.any (fun x => decide (x.1 = sectorNum p)))
    if s.eccRead l1 ≠ .ok then s
    else s.updXfer (fun x => { x with cur := some { o with
      taken := o.taken ++ l1.map (fun p => (sectorNum p, BitVec.ofNat 512 (natOfBytes (s.readBytes (placesFrom p 64))))) } })
  | none => s

/-! ### Landing a block (R160, R161, R176, R177, R184) -/

/-- The cores whose windows a multicast of a core writes (R177): those of its quad that a crew of its context holds. -/
def State.castCores (s : State) (c : Core) : List Nat :=
  (s.cores.filter (fun x => decide (packageQuad x.id = packageQuad c.id) && (match x.seat with
    | some y => decide (y.ctx = c.ctxNum)
    | none => false))).map (·.id)

/-- The memory bytes that a landed block writes. -/
def XOp.cells (o : XOp) (b : Block) : List (PAddr × Byte) :=
  match o.dst with
  | .tree _ _ _ => []
  | .mem d off => (b.bytes.zipIdx).filterMap (fun (x : Byte × Nat) => (d.place (off + o.byteTo (b.first + x.2))).map (fun (p : PAddr) => (p, x.1)))

/-- The bytes that a landed block writes beside them: in the other windows of a multicast (R176). -/
def State.castCells (s : State) (o : XOp) (l : List (PAddr × Byte)) : List (PAddr × Byte) :=
  match o.kind with
  | .mcast => (s.castCores s.core).flatMap (fun id => l.map (fun (c : PAddr × Byte) => ((⟨.window, storeBase id + c.1.addr % 2 ^ 22⟩ : PAddr), c.2)))
  | _ => l

/-- Bytes of a block in the weight buffer: whole rows in one action each (R127, R169). -/
def Core.putRows (c : Core) : (fuel row : Nat) → List Byte → Core
  | 0, _, _ => c
  | fuel + 1, row, l =>
    if l.isEmpty then c
    else
      let m := min 256 l.length
      let old := (c.wbRow row).toNat
      let c1 := c.setWbRow row (BitVec.ofNat 2048 (old / 2 ^ (8 * m) * 2 ^ (8 * m) + natOfBytes (l.take 256)))
      (if m < 256 then c1 else { c1 with wbLost := c1.wbLost.filter (fun x => decide (x ≠ row)) }).putRows fuel (row + 1)
        (l.drop 256)

/-- The weight-buffer rows, counted from the first, that a block writes. -/
def XOp.rows (o : XOp) (b : Block) : List Nat := match o.kind with
  | .wbfill _ => rangeFrom (b.first / 256) (ceilDiv (b.first % 256 + b.bytes.length) 256)
  | _ => []

/-- Whether two blocks, or two parts of one, write the same destination unit (R161). -/
def XOp.sharesUnit (o : XOp) (a b : Block) : Bool :=
  let units : Block → List PAddr := fun x => (o.cells x).map (fun c => sectorOf c.1)
  (units a).any (units b).contains || (o.destLines a.first a.bytes.length).any (o.destLines b.first b.bytes.length).contains ||
  (o.rows a).any (o.rows b).contains

/-- The first n bytes of a block, and what is left of it. -/
def Block.cut (b : Block) (n : Nat) : Block × Block :=
  ({ b with bytes := b.bytes.take n }, { b with first := b.first + n, bytes := b.bytes.drop n, landed := b.landed + n })

/-- Tree bytes of a block, each with its place. -/
def XOp.treeBytes (o : XOp) (line : Nat) (b : Block) : List (Nat × Byte) :=
  (b.bytes.zipIdx).map (fun (x : Byte × Nat) => (64 * line + o.byteTo (b.first + x.2), x.1))

/-- The memory bytes that a block writes: those of its bytes that no other operation has written since this one landed a part of their unit.
The unit ends as if the whole of this operation had come before that one (R161: log 16). -/
def XOp.newCells (o : XOp) (b : Block) : List (PAddr × Byte) :=
  (o.cells b).filter (fun c => !o.later.any (fun e => decide (e.2.2 = c.1)))

/-- The tree bytes that a block writes, on the same rule. A line seen through a write-wait view is empty again when a later block writes it:
its reader has taken what landed before, and the line takes what the operation landed in it once more where another operation has
written since, so that it ends as this operation's (R161: log 16). -/
def XOp.newBytes (o : XOp) (line : Nat) (wwait : Bool) (b : Block) : List (Nat × Byte) :=
  let newer : Nat → Bool := fun p => o.laterTree.any (fun e => decide (e.2 = p))
  if wwait then
    let lines := o.destLines b.first b.bytes.length
    (o.done.flatMap (o.treeBytes line)).filter (fun x => lines.contains (x.1 / 64) && newer x.1) ++ o.treeBytes line b
  else (o.treeBytes line b).filter (fun x => !newer x.1)

/-- A block's effect on the focused core's tree and weight buffer: lines marked full (R160), those written whole good again (R223). -/
def Core.landTree (c : Core) (o : XOp) (b : Block) : Core :=
  match o.kind, o.dst with
  | .wbfill row, _ => c.putRows 32 (row + b.first / 256) b.bytes
  | _, .tree line _ wwait =>
    let l := o.newBytes line wwait b
    let c1 := l.foldl (fun (c : Core) (x : Nat × Byte) => c.putByte x.1 x.2) c
    let at_ := l.map (fun x => x.1 / 64)
    (o.destLines b.first b.bytes.length).foldl (fun c n => (if at_.count n = 64 then c.healLine n else c).xferMark o.inside n true) c1
  | _, .mem _ _ => c

/-- An operation takes note of what the operation `by_` of core `core` has landed, in memory at `l` and in the tree at `tree`: of the bytes in
units that it has landed a part of itself, unless that operation began to land in the unit before it did (R161). -/
def XOp.noteOver (x : XOp) (me core : Nat) (by_ : XOp) (l : List PAddr) (tree : List Nat) : XOp :=
  if x.done.isEmpty ∨ (me = core ∧ x.id = by_.id) then x
  else
    let units := (x.done.flatMap x.cells).map (fun c => sectorOf c.1)
    let lines := match x.dst with
      | .tree _ _ _ => x.done.flatMap (fun (b : Block) => x.destLines b.first b.bytes.length)
      | .mem _ _ => []
    let older : PAddr → Bool := fun p => by_.later.any (fun e => decide (e.1 = me ∧ e.2.1 = x.id ∧ sectorOf e.2.2 = sectorOf p))
    let olderLine : Nat → Bool := fun p => match by_.dst with
      | .tree _ _ false => by_.laterTree.any (fun e => decide (e.1 = x.id ∧ e.2 / 64 = p / 64))
      | _ => false
    { x with
      later := x.later ++ (l.filter (fun p => units.contains (sectorOf p) && !older p)).map (fun p => (core, by_.id, p)),
      laterTree := x.laterTree ++ (if me = core then (tree.filter (fun p => lines.contains (p / 64) && !olderLine p)).map (fun p => (by_.id, p))
        else []) }

def Core.mapOps (c : Core) (f : XOp → XOp) : Core :=
  c.updXfer (fun x => { x with cur := x.cur.map f, ops := x.ops.map f })

/-- Every other operation, those of saved crews among them, takes note of what a block of the focused core's operation has landed. -/
def State.noteLanded (s : State) (o : XOp) (b : Block) (cells : List (PAddr × Byte)) : State :=
  let l := cells.map Prod.fst
  let tree := match o.kind, o.dst with
    | .wbfill _, _ => []
    | _, .tree line _ wwait => (o.newBytes line wwait b).map Prod.fst
    | _, .mem _ _ => []
  let f : Core → Core := fun c => c.mapOps (fun x => x.noteOver c.id s.core.id o l tree)
  let s1 := s.mapCores f
  { s1 with crews := s1.crews.map (fun k => { k with saved := k.saved.map (fun v => { v with core := f v.core }) }) }

/-- A run failure of an operation after the landing of a block: one whose blocks are still being handed over ends with it (R184). -/
def State.failLanded (s : State) (o : XOp) (code : Code) : State :=
  if o.issued then s.settleOp { o with failed := o.failed.or (some code) } else s.failCur o code

/-- A block, or a part of one, lands well: bytes and marks, and with its last part the deferred consume marks and one addition (R160, R175,
R182); `cells` are all the bytes of memory that it wrote, `rest` is what is left of the block. An addition that meets DATA_LOST fails the
operation (R224). -/
def State.landOk (s : State) (o : XOp) (b : Block) (rest : Option Block) (cells : List (PAddr × Byte)) : State :=
  let c1 := s.core.landTree o b
  let c2 := if rest.isSome then c1 else b.consume.foldl (fun c n => c.xferMark o.inside n false) c1
  let s1 := (({ s with core := c2 }).noteLanded o b cells).wrote .xfer (cells.map Prod.fst)
  let s2 := if cells.isEmpty ∧ !o.inside then s1.upd (fun c => c.touch .xfer s1.now false) else s1
  let o1 := { o with blocks := o.blocks.filterMap (fun x => if x.seq = b.seq then rest else some x), done := o.done ++ [b],
                     written := true, left := o.left || !cells.isEmpty }
  let s3 := s2.updXfer (fun x => if o.inside then { x with eng := { x.eng with retired := s.now } } else x)
  if rest.isSome then s3.settleOp o1
  else match s3.batchAdd o1 (b.landed + b.bytes.length) 0 0 with
  | (true, t) => t.settleOp o1
  | (false, t) => t.failLanded o1 codeDataLost

/-- A block whose source or destination is lost ends its operation (R184). -/
def State.landLost (s : State) (o : XOp) (b : Block) : State :=
  s.failLanded { o with blocks := o.blocks.filter (fun x => decide (x.seq ≠ b.seq)) } codeDataLost

/-- What the landing of a block, or of a part of it, finds: it is done, or data is lost, or a tag fails. -/
def State.landPart (s : State) (o : XOp) (b : Block) (rest : Option Block) : Ecc × State :=
  if b.badTag then (.badTag, s)
  else if b.lost then (.lost, s)
  else
    let cells := s.castCells o (o.newCells b)
    match s.store cells with
    | (.ok, t) => (.ok, t.landOk o b rest cells)
    | (e, _) => (e, s)

/-- Whether a fence on XP that was issued before a block holds its addition, which travels there though the block does not (R240, R244). -/
def Core.addHeld (c : Core) (o : XOp) (b : Block) : Bool :=
  c.addsLater o b && c.seq.fences.any (fun f => decide (f.pb = .xp) && decide (f.seq < b.seq))

/-- What stays of a block all of whose bytes land: nothing, or its addition, while a fence holds that. -/
def Core.restHeld (c : Core) (o : XOp) (b : Block) : Option Block := if c.addHeld o b then some (b.cut b.bytes.length).2 else none

/-- A whole block, or all that is left of it. -/
def State.land (s : State) (o : XOp) (b : Block) : Ecc × State := s.landPart o b (s.core.restHeld o b)

end Sys2Proof.Machine
end

