-- ==== Sys2Proof/Machine/Rollback.lean ====
section
/-!
DEFINITION. Rolling back (R125, R293, R300, R308), strike reports (R311, R323), vector accesses being performed (R147, R159),
the spill image (R123), and the frames in which vector, matrix and transfer instructions issue. A rollback that passes to the
enclosing region counts once (log 17).
-/
namespace Sys2Proof.Machine

def Core.countRollback (c : Core) : Core := c.updSeq (fun q => { q with mendretry := q.mendretry + 1 })

/-- The rollbacks that a region opening at an offset, at a depth, has behind it. -/
def againCount (l : List Again) (depth : Nat) (pc : Word) : Nat :=
  match l.find? (fun a => decide (a.depth = depth) && decide (a.pc = pc)) with
  | some a => a.retries
  | none => 0

/-- Forget what is known of regions at a depth and deeper. -/
def againDrop (l : List Again) (depth : Nat) : List Again := l.filter (fun a => decide (a.depth < depth))

/-! ### Vector accesses (R147 to R149, R159) -/

def VpKind.places : VpKind → List PAddr
  | .load l _ _ _ => l.map Prod.snd
  | .store l => l.map Prod.fst

/-- A load's bytes land: the tree bytes, then the marks (R149). `got` are those that it has read before, `l` pairs every tree byte with
its memory byte. -/
def State.landVector (s : State) (got : List Byte) (l : List (Nat × PAddr)) (zero lines : List Nat) : State :=
  let c0 := ((l.map Prod.fst).zip got).foldl (fun (c : Core) (x : Nat × Byte) => c.putByte x.1 x.2) s.core
  let c1 := (l.drop got.length).foldl (fun (c : Core) (x : Nat × PAddr) => c.putByte x.1 (s.readByte x.2)) c0
  let c2 := zero.foldl (fun (c : Core) (x : Nat) => c.putByte x 0) c1
  let bytes := (l.map Prod.fst ++ zero).map (· / 64)
  let c3 := lines.foldl (fun (c : Core) (n : Nat) => (if bytes.count n = 64 then c.healLine n else c).vecMark n true) c2
  { s with core := if c3.vec.regions.isEmpty then c3.touch .vec s.now false else c3 }

/-- Perform one issued access, or what is left of it, without taking it off the list; one that the undo buffer has lost is not performed.
A write that has begun, or that belongs to an `rc.` word, was checked whole before; `State.loseSector` performs it before a sector of it
is damaged, so that the check passes (R132, R189, R224: log 20). -/
def State.performVp (s : State) (x : VpEntry) : Ecc × State :=
  if x.lost then (.lost, s) else match x.kind with
  | .load l zero lines _ => match s.eccRead ((l.drop x.got.length).map Prod.snd) with
    | .ok => (.ok, s.landVector x.got l zero lines)
    | e => (e, s)
  | .store l => match s.store l with
    | (.ok, t) => (.ok, t.wrote .vec (l.map Prod.fst))
    | (e, _) => (e, s)

def State.popVp (s : State) : State :=
  s.upd (fun c => (c.updVec (fun v => { v with vp := v.vp.tail, eng := { v.eng with retired := s.now } })).release)

/-- A stop that waits for the vector engine's issued accesses: a loss found among them (R159), or a strike report (R311). Where both wait,
the loss stops the stream, and the report stays pending for its resumption (R310: log 24). -/
def State.vecStops (s : State) : State :=
  let v := s.core.vec
  if !(v.vp.isEmpty && v.eng.st.live) then s
  else match v.lostAt, v.struck with
    | some (at_, detail), b => (s.updVec (fun v => { v with lostAt := none, struck := none, eng := { v.eng with strike := b } })).stopWith .vec 0
        codeDataLost at_ false false false detail
    | none, some b => (s.updVec (fun v => { v with struck := none })).stopEngine .vec 0 codeStrike v.eng.pc false b.mayCore b.mayLeft
    | none, none => s

/-- Whether an access is a write that must complete: it has begun, or its `rc.` word is one action with it (R132, R189). -/
def VpEntry.bound (e : VpEntry) : Bool := match e.kind with
  | .store _ => e.begun || e.eaten.isNone
  | .load _ _ _ _ => false

/-- Whether a vector release that has begun still holds a write that a test picks (R307). -/
def VecEngine.heldPicks (v : VecEngine) (f : VpEntry → Bool) : Bool := v.eng.releasing && v.regions.any (fun r => r.held.any f)

/-- The next held write of a vector release is issued (R307). -/
def Core.issueHeldVp (c : Core) : Core := match c.vec.regions with
  | r :: t => (match r.held with
    | e :: rest => (c.updVec (fun v => { v with vp := [{ e with seq := c.issue }], regions := { r with held := rest } :: t })).bump
    | [] => c)
  | [] => c

/-- The oldest access of the focused core is performed, where a test picks it and it must complete, or where a release has issued it before
others that the test picks. -/
def State.finishHead (s : State) (f : VpEntry → Bool) : State :=
  match s.core.vec.vp with
  | [] => s
  | e :: _ =>
    if (f e && (e.bound || s.core.vec.eng.releasing)) || s.core.vec.heldPicks f then match s.performVp e with
      | (.ok, t) => t.popVp.vecStops
      | _ => s
    else s

/-- The writes of the focused core that must complete are performed up to the last that a test picks, those of a release that has begun one
after the other; a fence that holds a release's next write holds it here too. At most n + 1 of them. -/
def State.finishWork (s : State) (f : VpEntry → Bool) : Nat → State
  | 0 => s.finishHead f
  | n + 1 =>
    let t := s.finishHead f
    if t.core.vec.vp.isEmpty && t.core.vec.heldPicks f && !t.core.holdsNew .vp then (t.upd Core.issueHeldVp).finishWork f n else t

/-- The writes of the focused core that a loss must not find half done: one that has begun, that belongs to an `rc.` word, or that a release
under way has still to perform (R132, R189, R224, R307: log 20). -/
def State.finishCore (s : State) (f : VpEntry → Bool) : State :=
  s.finishWork f ((s.core.vec.regions.map (fun r => r.held.length)).foldl (· + ·) 0)

def VpEntry.touches (q : PAddr) (e : VpEntry) : Bool := e.kind.places.any (fun p => decide (sectorOf p = q))

/-- The writes of every core that must complete and touch a sector are performed before the sector is damaged: the upset comes after them
(R132, R189, R224: log 20). -/
def State.finishWrites (s : State) (q : PAddr) : State :=
  (s.cores.foldl (fun s c => (s.focus c.id).finishCore (VpEntry.touches q)) s).focus s.core.id

/-- A sector becomes uncorrectable (R223). -/
def State.loseSector (s : State) (q : PAddr) : State :=
  let t := s.finishWrites q
  { t with lost := q :: t.lost }

/-- A sector's tag no longer matches (R223). -/
def State.breakTag (s : State) (q : PAddr) : State :=
  let t := s.finishWrites q
  { t with badTag := q :: t.badTag }

/-! ### The sequencer (R293, R300) -/

/-- Restore saved bytes, newest first. Bytes that the undo buffer has lost leave their sectors uncorrectable (log 14). -/
def State.restoreBytes (s : State) (l : List SavedBytes) : State :=
  l.foldl (fun s x =>
    if x.lost then ((placesFrom x.pa x.bytes.length).map sectorOf).eraseDups.foldl (fun s q => s.loseSector q) s
    else (s.store (cellsAt x.pa x.bytes)).2) s

/-- The handler that a rollback abandons met an engine's stop; the replay meets it again if the stream is still STOPPED by it (R300). It
is the oldest, since it was taken before the others. -/
def Core.requeueStop (c : Core) : List TrapCause := match c.seq.trapStop with
  | some e => if c.seq.tactive && c.seq.stopHeld && decide ((c.eng e).st = .stopped) then [.stop e (c.eng e).code 0] else []
  | none => []

/-- Whether the handler of the active trap has opened a region: it did not stand open when the trap was taken (R300). -/
def Sequencer.handlerOpened (q : Sequencer) (r : SeqRegion) : Bool := q.tactive && decide (q.trapSeq ≤ r.seq)

/-- The rollback of a region that stood open when the active trap was taken abandons the handler (R300). -/
def Core.leaveHandler (c : Core) (r : SeqRegion) : Core :=
  if c.seq.handlerOpened r then c
  else c.updSeq (fun q => { q with tactive := false, trapStop := none, stopHeld := false, traps := c.requeueStop ++ q.traps,
                                    again := if q.tactive then q.kept else q.again, kept := [] })

/-- Regions from the innermost outward until one is replayed; the outermost traps with MENDRETRY. -/
def State.seqUnwind (s : State) : List SeqRegion → State
  | [] => s
  | r :: t =>
    let s1 := (s.restoreBytes r.saved).upd (fun c => c.leaveHandler r)
    if r.retries + 1 < 4 then
      s1.updSeq (fun q => { q with g := r.snap, regions := t, pc := r.pc,
                                   again := ⟨t.length, r.pc, r.retries + 1⟩ :: againDrop q.again t.length })
    else if t.isEmpty then
      let s2 := s1.updSeq (fun q => { q with g := r.snap, regions := [], pc := r.pc, again := [] })
      s2.takeTrap true codeMendRetry s2.openDetail r.pc r.pc none false false
    else s1.seqUnwind t

/-- Whether an access with this number was issued inside an open region that is not being released. -/
def Sequencer.inRegion (q : Sequencer) (n : Nat) : Bool := !q.releasing && q.regions.any (fun r => decide (r.seq ≤ n))

/-- A store performed by a rollback: one of the region that meets DATA_LOST is rolled back with it (R224). -/
def State.drainStore (s : State) (e : StoreEntry) : State :=
  let told := e.told || s.core.seq.inRegion e.seq
  (e.accesses.foldl (fun (x : State × Bool) a => x.1.performAccess { a with told := x.2 }) (s, told)).1

/-- Whether a store may be performed now: no fence that still waits holds it (R244), and the stamp of a stamped one is surely past (R205). -/
def State.storeMay (s : State) (e : StoreEntry) : Bool :=
  s.core.seq.fences.all (fun f => !(decide (f.pb = .sq) && decide (f.seq < e.seq)) || s.fenceDone f) && (match e.kind with
    | .stamp c st _ _ => s.surelyPast c st
    | _ => true)

/-- The stores of the queue are performed, in order, up to one that may not be performed yet; at most n of them. -/
def State.drainStores (s : State) : Nat → State
  | 0 => s
  | n + 1 => match s.core.seq.sq with
    | [] => s
    | e :: t => if s.storeMay e then ((s.drainStore e).updSeq (fun q => { q with sq := t })).drainStores n else s

/-- Steps 1 to 3 of R293 before the restoring: the loads are discarded, the queued stores performed. -/
def State.drainQueues (s : State) : State :=
  (s.updSeq (fun q => { q with lq := [] })).drainStores s.core.seq.sq.length

/-- Whether a rollback of the sequencer's innermost region may take place: every queued store may be performed now. R293 has it perform them
all, which a fence (R244) or a stamp (R205) may still forbid: what brings the rollback waits until then (log 24). -/
def State.rollbackReady (s : State) : Bool := s.core.seq.regions.isEmpty || s.drainQueues.core.seq.sq.isEmpty

/-- R293: the rollback of the innermost open region of the sequencer stream, once it may take place. -/
def State.seqRollback (s : State) : State :=
  if s.core.seq.regions.isEmpty || !s.rollbackReady then s
  else
    let s1 := s.drainQueues
    let s2 := s1.updSeq (fun q => { q.abandon with hold := none })
    (s2.upd (fun c => c.countRollback.release)).seqUnwind s1.core.seq.regions

/-- Whether an access is a load that waits for full lines of its write-wait destination (R29). -/
def Core.vpHeld (c : Core) (e : VpEntry) : Bool := match e.kind with
  | .load _ _ lines true => lines.any (c.fullAs c.vec.marks)
  | _ => false

/-- The accesses in flight at a rollback land (R308 step 1); one that meets lost data, or whose lines are full (R29), is given up, since
the replay repeats it (log 24). A tag that does not match halts the context (R223). -/
def State.landFlight (s : State) : List VpEntry → State
  | [] => s
  | e :: t =>
    if s.core.vpHeld e then s.landFlight t
    else match s.performVp e with
      | (.badTag, _) => (s.haltWith codeIntegrity e.detail).landFlight t
      | (_, u) => u.landFlight t

def State.drainVp (s : State) : State :=
  (s.landFlight s.core.vec.vp).upd (fun c => (c.updVec (fun v => { v with vp := [], lastVp := none })).release)

/-! ### Vector and transfer regions (R308) -/

def Core.vecReplay (c : Core) (r : VecRegion) (t : List VecRegion) (again : List Again) : Core :=
  c.updVec (fun v => { v with
    shape := r.snap.shape, masks := r.snap.masks, shadow := r.snap.shadow, regions := t, again := again, lostAt := none, lastVp := none, struck := none,
    eng := { v.eng with k := r.snap.k, pc := r.pc, st := .run } })

/-- A region's saved lines restored, once its deferred marks are gone. -/
def Core.vecRestore (c : Core) (r : VecRegion) (t : List VecRegion) : Core :=
  (c.updVec (fun v => { v with regions := t })).restoreLines (fun c => c.fullAs c.vec.marks) Core.vecMark r.saved

def State.vecUnwind (s : State) (at_ : Word) : List VecRegion → State
  | [] => s
  | r :: t =>
    let c := s.core.vecRestore r t
    if r.retries + 1 < 4 then
      { s with core := c.vecReplay r t (⟨t.length, r.pc, r.retries + 1⟩ :: againDrop c.vec.again t.length) }
    else if t.isEmpty then
      ({ s with core := c.vecReplay r [] [] } : State).stopEngine .vec 0 codeMendRetry at_ false false false
    else ({ s with core := c } : State).vecUnwind at_ t

/-- R308 for the vector stream. DESIGN CHOICE: the record of a MENDRETRY stop, of which R301 gives the pc alone, concerns the word `at_` that
brought the last rollback: the word at issue or the word of the access that met DATA_LOST, and for a report, which is no input of the
program (R5), the word at which the stream stands (log 5). -/
def State.vecRollback (s : State) (at_ : Word) : State :=
  if s.core.vec.regions.isEmpty then s
  else
    let s1 := s.drainVp.upd Core.countRollback
    s1.vecUnwind at_ s1.core.vec.regions

/-- Batches that a word held in a region that stays open belongs to (R305). -/
def heldBatches (t : List XferRegion) (l : List Batch) : List Batch :=
  l.filter (fun b => t.any (fun r => r.held.any (fun o => decide (o.batch = b.id))))

def Core.xferReplay (c : Core) (r : XferRegion) (t : List XferRegion) (again : List Again) : Core :=
  c.updXfer (fun x => { x with
    shape := r.snap.shape, win := r.snap.win, openBatch := r.snap.openBatch,
    batches := heldBatches t ((x.batches ++ x.openBatch.toList).filter (fun b => decide (some b.id ≠ r.snap.openBatch.map (·.id)))),
    cur := none, ops := [], index := [],
    regions := t, again := again, eng := { x.eng with k := r.snap.k, pc := r.pc, st := .run } })

/-- A region's saved lines restored, once its deferred marks are gone. -/
def Core.xferRestore (c : Core) (r : XferRegion) (t : List XferRegion) : Core :=
  (c.updXfer (fun x => { x with regions := t })).restoreLines (fun c => c.fullAs c.xfer.marks) (fun c n f => c.xferMark true n f) r.saved

def State.xferUnwind (s : State) (at_ : Word) : List XferRegion → State
  | [] => s
  | r :: t =>
    let c := s.core.xferRestore r t
    if r.retries + 1 < 4 then
      { s with core := c.xferReplay r t (⟨t.length, r.pc, r.retries + 1⟩ :: againDrop c.xfer.again t.length) }
    else if t.isEmpty then
      ({ s with core := c.xferReplay r [] [] } : State).stopEngine .xfer 0 codeMendRetry at_ false false false
    else ({ s with core := c } : State).xferUnwind at_ t

/-- The blocks that were handed over inside the region land (R308 step 1), in lines that some open region has saved; one that meets lost
data, or whose lines are full (R29), is given up, since the replay repeats it (log 24). Their marks and additions go with the region's. -/
def Core.landBlocks (c : Core) : Core :=
  c.xfer.all.foldl (fun c o => o.blocks.foldl (fun c b =>
    if b.lost || (c.fullLine o b.first b.bytes.length).isSome then c else c.landTree o b) c) c

/-- R308 for the transfer stream; `at_` as for the vector stream (DESIGN CHOICE, log 5). A tag that does not match halts the context (R223). -/
def State.xferRollback (s : State) (at_ : Word) : State :=
  if s.core.xfer.regions.isEmpty then s
  else
    let s1 := match s.core.xfer.all.find? (fun o => o.blocks.any (·.badTag)) with
      | some o => s.haltFor o
      | none => s
    let s2 := (s1.upd Core.landBlocks).upd Core.countRollback
    (s2.xferUnwind at_ s2.core.xfer.regions).upd Core.release

/-! ### The matrix engine (R123 to R125) -/

def pertWord (p : Option Pert) : Word := match p with
  | some p => wordOfNat (put 0 6 p.row + put 6 6 p.col + put 32 32 (wrapInt 32 p.val))
  | none => 0

def splitWords (v : BitVec 512) : List Word := (List.range 8).map (fun i => wordOfNat (v.toNat / 2 ^ (64 * i)))

/-- The open reduction: the youngest one, while it has no tile. -/
def MatEngine.openRed (m : MatEngine) : Option Reduction := match m.reds.getLast? with
  | some r => if r.tile.isNone then some r else none
  | none => none

def MatEngine.held (m : MatEngine) : List Reduction := m.reds.filter (·.tile.isSome)

/-- The spill image, 8 bytes a word (R123). -/
def Core.spillImage (c : Core) (code : Code) : List Word :=
  let m := c.mat
  let head := match m.openRed with
    | some r => put 0 16 r.p + put 16 16 r.n + put 32 2 r.mode.code + put 35 1 1
    | none => 0
  (List.range 4096).map (fun i => wordOfInt (sparseGet 0 m.acc i)) ++
  [wordOfNat (head + put 34 1 (bit m.pert.isSome)),
   wordOfNat (put 0 16 (m.eng.pc.toNat / 4) + put 16 16 code.toNat + put 32 12 m.base),
   pertWord m.pert, 0, 0, 0, 0, 0] ++
  splitWords m.seg ++ splitWords m.rows ++ splitWords m.cols ++
  (m.eng.k.toList.map (fun k => wordOfNat (k.val.toNat + 2 ^ 32 * k.limit.toNat)))

def Core.spillNow (c : Core) (code : Code) : Core :=
  c.updMat (fun m => { m with spilled := true, spill := c.spillImage code, issues := none, begun := none })

def MatSnap.restore (n : MatSnap) (m : MatEngine) : MatEngine :=
  { m with acc := n.acc, base := n.base, seg := n.seg, rows := n.rows, cols := n.cols, pert := n.pert, issues := none, begun := none, fault := none, atRet := false,
           eng := { m.eng with k := n.k, pc := n.pc } }

/-- R125: the rollback of the matrix stream to the oldest unreleased reduction. `lost` tells that DATA_LOST caused it: then a
fourth rollback leaves the reduction where it is, and the frame below stops the engine. -/
def State.matRollback (s : State) (lost : Bool) : State :=
  match s.core.mat.reds with
  | [] => s
  | r :: t =>
    let s1 := s.upd Core.countRollback
    if r.retries + 1 < 4 then
      s1.updMat (fun m => { r.snap.restore m with
        reds := [], again := [⟨0, r.snap.pc, r.retries + 1⟩],
        eng := { (r.snap.restore m).eng with st := .run } })
    else if lost then s1.updMat (fun m => { m with reds := { r with retries := r.retries + 1 } :: t })
    else
      (s1.updMat (fun m => { r.snap.restore m with reds := [], again := [] })).stopEngine .mat 0 codeMendRetry
        s.core.mat.eng.pc false false false

def isSpillCode (c : Code) : Bool :=
  decide (c = codeBounds) || decide (c = codeEmptyRead) || decide (c = codeSpmeta) || decide (c = codeBadTrit) ||
  decide (c = codeDataLost)

/-- A fault that spills (R123): the holding slots are released first, then the state is spilled and the engine stops. -/
def State.matSpill (s : State) (code : Code) (detail : Word) : State :=
  if s.core.mat.held.isEmpty then
    (s.upd (fun c => c.spillNow code)).stopWith .mat 0 code s.core.mat.eng.pc true false false detail
  else (s.updMat (fun m => { m with fault := some (code, detail) })).updEng .mat (fun x => { x with st := .wait 6 0 })

/-- A fault of a matrix word. A first to third DATA_LOST of the oldest unreleased reduction replays it (R125). -/
def State.matFault (s : State) (code : Code) (detail : Word) : State :=
  let m := s.core.mat
  let oldest : Nat := (m.reds.head?.map Reduction.retries).getD 4
  if code = codeDataLost ∧ oldest < 4 then
    if oldest + 1 < 4 then s.matRollback true else (s.matRollback true).matSpill code detail
  else if m.openRed.isSome ∧ isSpillCode code then s.matSpill code detail
  else s.stopWith .mat 0 code m.eng.pc false false false detail

/-- Whether a crew is being stopped to be saved. -/
def State.crewStopping (s : State) (n : Nat) : Bool := match s.crew n with
  | some k => (match k.state with
    | .stopping _ => true
    | _ => false)
  | none => false

/-! ### The frames of the engines -/

/-- The access that a word has just issued, when `old` accesses were under way before it. -/
def VecEngine.newVp (v : VecEngine) (old : Nat) : Option Nat :=
  if v.vp.length > old then v.vp.getLast?.map (·.seq) else none

/-- A vector instruction issues. It stops only once every earlier access has been performed (R159), and waits till then as R95's kind 4,
which no rule names for it (log 24); DATA_LOST inside a region rolls back (R305). -/
def State.issueVec (s : State) : EngIssue → State
  | .done t => s.issueEng .vec (.done (t.updVec (fun v => { v with lastVp := v.newVp s.core.vec.vp.length })))
  | .stop code d =>
    if !s.core.vec.vp.isEmpty then s.updEng .vec (fun x => { x with st := .wait 4 0 })
    else if code = codeDataLost ∧ !s.core.vec.regions.isEmpty ∧ !s.core.vec.eng.releasing then s.vecRollback s.core.vec.eng.pc
    else s.issueEng .vec (.stop code d)
  | r => s.issueEng .vec r

def State.issueMat (s : State) : EngIssue → State
  | .stop code d => s.matFault code (d.getD (s.openDetailOf .mat))
  | r => s.issueEng .mat r

def State.issueXfer (s : State) (r : EngIssue) : State := s.issueEng .xfer r

/-! ### Ending a collective (R184, R303, R322) -/

/-- The ranks of a crew, in order, as core numbers; one that has ended has none. -/
def State.ranks (s : State) (n : Nat) : List Nat := match s.crew n with
  | some k => if k.state = .ended then [] else k.cores
  | none => []

/-- The crew of a core; 0 where none holds it (no crew of a statement about it). -/
def Core.crewNum (c : Core) : Nat := match c.seat with
  | some x => x.crew
  | none => 0

/-- Whether an engine's stream is being stopped, for `eng.stop` or for a save: what it has issued must then complete (R159, R271). -/
def State.beingStopped (s : State) (e : Eng) : Bool := (s.core.eng e).stopReq || s.crewStopping s.core.crewNum

/-- A participant of a collective: the crew of a rank and the rank's core. -/
structure Rank where
  crew : Nat
  core : Nat
  deriving DecidableEq, Repr

def State.ranksOf (s : State) (n : Nat) : List Rank := (s.ranks n).map (⟨n, ·⟩)

/-- The participants on this device of a collective that the focused core has issued (R185); a crew bound twice takes part once. -/
def State.participants (s : State) (scope : Scope) (ident : Nat) : List Rank :=
  let c := s.core
  let mine := s.ranksOf c.crewNum
  match scope with
  | .quad => mine.filter (fun n => decide (packageQuad n.core = packageQuad c.id))
  | .die => mine.filter (fun n => decide (n.core / 128 = c.id / 128))
  | .group => (match s.ctx c.ctxNum with
    | some x => ((x.binds.filter (fun b => decide (b.1 = ident))).map Prod.snd).eraseDups.flatMap s.ranksOf
    | none => [])
  | _ => mine

/-- Whether a participant's crew holds its core now; the crew of one that does not is pre-empted. -/
def State.seated (s : State) (r : Rank) : Bool := (s.coreOf r.core).seat.isSome && decide ((s.coreOf r.core).crewNum = r.crew)

/-- What a collective operation knows of itself: op, scope, identifier, number. -/
def XOp.collInfo (o : XOp) : Option (CollOp × Scope × Nat × Nat) := match o.kind with
  | .coll op scope ident m => some (op, scope, ident, m)
  | _ => none

/-- A core's operation for the m-th collective of an identifier. -/
def Core.collOp (c : Core) (ident m : Nat) : Option XOp :=
  c.xfer.all.find? (fun o => match o.collInfo with
    | some (_, _, i, n) => decide (i = ident) && decide (n = m)
    | none => false)

/-- The block of an operation that starts at a byte; one that holds a collective's result already is none of it. -/
def XOp.blockAt (o : XOp) (first : Nat) : Option Block := o.blocks.find? (fun b => decide (b.first = first) && !b.formed)

/-- Whether every participant has handed over the block of a collective that starts at a byte, so that its result can be formed. -/
def State.blockShared (s : State) (ident m : Nat) (l : List Rank) (first : Nat) : Bool :=
  l.all (fun r => s.seated r && (((s.coreOf r.core).collOp ident m).bind (·.blockAt first)).isSome)

/-- A collective is over for a participant that has not issued it yet: its word fails as soon as it is issued (R322). -/
def XferEngine.loseColl (x : XferEngine) (ident m : Nat) (code : Code) : XferEngine :=
  { x with lostColls := x.lostColls ++ [(ident, m, code)] }

/-- Fail one core's operation of a collective, or the word that it still has to issue (R322); the focus moves to that core. Of the blocks
that it has handed over those stay that `keep` picks, which can still land (R184). -/
def State.failCollAt (s : State) (ident m : Nat) (code : Code) (bits : StrikeBits) (keep : Nat → Bool) (core : Nat) : State :=
  let t := s.focus core
  match t.core.collOp ident m with
  | some o =>
    let o1 := { o with failed := o.failed.or (some code), bits := if o.failed.isNone then bits else o.bits,
                       blocks := o.blocks.filter (fun b => b.formed || keep b.first) }
    if (t.core.xfer.cur.map (·.id)) = some o.id then t.allHanded o1 else t.settleOp o1
  | none => if assocGet 0 t.core.xfer.colls ident ≤ m then t.updXfer (·.loseColl ident m code) else t

/-- The same for a participant of a pre-empted crew: its operation fails when it is issued again, its word when it is issued (R322). -/
def Crew.failColl (k : Crew) (ident m : Nat) (code : Code) (core : Nat) : Crew :=
  { k with saved := (k.cores.zip k.saved).map (fun x =>
      if x.1 = core ∧ (assocGet 0 x.2.core.xfer.colls ident ≤ m ∨ (x.2.core.collOp ident m).isSome) then
        { x.2 with core := { x.2.core with xfer := x.2.core.xfer.loseColl ident m code } }
      else x.2) }

def noBits : StrikeBits := ⟨false, false⟩

/-- Fail a collective for every participant (R184, R185, R322). -/
def State.failColl (s : State) (ident m : Nat) (code : Code) (bits : StrikeBits) (l : List Rank) (keep : Nat → Bool) : State :=
  let home := s.core.id
  (l.foldl (fun s r => if s.seated r then s.failCollAt ident m code bits keep r.core
    else s.updCrew r.crew (·.failColl ident m code r.core)) s).focus home

/-! ### Strike reports (R311, R323) -/

/-- What a strike report does to an operation: it fails, with the bits of the report. -/
def XOp.strike (o : XOp) (bits : StrikeBits) : XOp :=
  if o.failed.isSome then o else { o with failed := some codeStrike, bits := bits }

/-- Every operation of the transfer engine that has not completed fails with STRIKE; blocks handed over still land (R184). A collective
that this core has not wholly handed over can never be formed: it fails so for every participant, as at a struck collective engine
(R303: log 19). -/
def State.strikeOps (s : State) (bits : StrikeBits) : State :=
  let s1 := match s.core.xfer.cur with
    | some o => match o.collInfo with
      | some (_, scope, ident, m) =>
        let l := s.participants scope ident
        s.failColl ident m codeStrike bits l (s.blockShared ident m l)
      | none => s.failCur { o with bits := bits } codeStrike
    | none => s
  s1.core.xfer.ops.foldl (fun s o => match s.core.xfer.ops.find? (·.id = o.id) with
    | some x => s.settleOp (x.strike bits)
    | none => s) s1

/-- A report for a stream that is releasing an outermost region waits until the release is over (R293), also where the close has been
abandoned in the middle (log 9). -/
def Core.deferReport (c : Core) : StreamId → Bool
  | .seq => c.seq.releasing
  | .vec => c.vec.eng.releasing
  | .mat => false
  | .xfer => c.xfer.eng.releasing

/-- The bits of a report that is delivered now to a stream (R311). -/
def State.bitsNow (s : State) (st : StreamId) : StrikeBits := ⟨s.core.mayCore st s.now, s.core.mayLeft st s.now⟩

/-- The fate of a report to an engine stream in RUN or WAIT: a rollback, or a failure at the command level. The vector engine stops before
its next instruction, once every issued one has completed (R159, R311). -/
def State.strikeRunning (s : State) (e : Eng) (bits : StrikeBits) : State :=
  let c := s.core
  match e with
  | .vec =>
    if !c.vec.regions.isEmpty then s.vecRollback c.vec.eng.pc
    else (s.updVec (fun v => { v with struck := v.struck.or (some bits) })).vecStops
  | .mat =>
    if !c.mat.reds.isEmpty then s.matRollback false
    else s.stopEngine .mat 0 codeStrike c.mat.eng.pc false false false
  | .xfer => if !c.xfer.regions.isEmpty then s.xferRollback c.xfer.eng.pc else s.strikeOps bits

/-- A report to an engine stream (R323). -/
def State.strikeEngine (s : State) (e : Eng) : State :=
  let c := s.core
  let bits := s.bitsNow e.stream
  match (c.eng e).st with
  | .run => s.strikeRunning e bits
  | .wait _ _ => s.strikeRunning e bits
  | .stopped => s.updEng e (fun x => { x with strike := x.strike.or (some bits) })
  | .idle => s.stopEngine e 0 codeStrike (c.eng e).pc false false false
  | .ended => s.stopEngine e 0 codeStrike (c.eng e).pc false bits.mayCore bits.mayLeft

/-- A report to the sequencer stream (R293, R295, R297). -/
def State.strikeSeq (s : State) : State :=
  let c := s.core
  if !c.seq.regions.isEmpty then s.seqRollback
  else if c.seq.tactive then s.haltHere codeStrike
  else s.addCause (.strike (c.mayLeft .seq s.now) (c.mayCore .seq s.now))

/-- A report is delivered to one stream of the focused core; none once the core program has ended (R323). -/
def State.strike (s : State) (st : StreamId) : State :=
  if s.core.seat.isNone ∨ s.core.seq.ended then s
  else match st with
    | .seq => s.strikeSeq
    | .vec => s.strikeEngine .vec
    | .mat => s.strikeEngine .mat
    | .xfer => s.strikeEngine .xfer

/-- Whether a stream of the focused core takes a report now. -/
def State.takesReport (s : State) (st : StreamId) : Bool := !s.core.deferReport st && (decide (st ≠ .seq) || s.rollbackReady)

/-- The streams of the focused core that a pending report names and that take it now, in the order of R30 and R320. -/
def State.dueStreams (s : State) : List StreamId :=
  [StreamId.seq, .xfer, .mat, .vec].filter (fun st => s.core.reports.any (fun r => r.streams.contains st) && s.takesReport st)

/-- Reports without the streams that have taken them. -/
def dropStreams (l : List StreamId) (r : List Report) : List Report :=
  (r.map (fun x => { x with streams := x.streams.filter (fun st => !l.contains st) })).filter (fun x => !x.streams.isEmpty)

/-- The pending reports of a core are delivered, each stream on its own (R308, R311). -/
def State.deliver (s : State) : State :=
  let l := s.dueStreams
  l.foldl (fun s st => s.strike st) (s.upd (fun c => { c with reports := dropStreams l c.reports }))

/-- The reports that came while streams stood still are applied as they resume (R125, R310, R314). -/
def State.deliverAll (s : State) (cores : List Nat) : State :=
  (cores.foldl (fun s n => (s.focus n).deliver) s).focus s.core.id

/-- Whether a report for a stream is pending on a core (R292, R307, R119). -/
def Core.reportPending (c : Core) (st : StreamId) : Bool :=
  c.reports.any (fun r => r.streams.contains st) || c.injected.any (fun r => decide (r.stream = st))

end Sys2Proof.Machine
end

