-- ==== Sys2Proof/Machine/Turn.lean ====
section
/-!
DEFINITION. What happens around an instruction: whose turn it is, the time that passes, the order of what falls in one cycle, whether a
stream may issue, the fetch and the decoding of its word (R17, R20, R35, R225, R226, R269, R271, R313, R320). Assumption log 1 says
what a turn is; log 2 what
the host's table words are; log 18 where a matrix stream stops.
-/
namespace Sys2Proof.Machine

/-- The next turn; an empty schedule gives the focused core's sequencer one cycle. -/
def State.popTurn (s : State) : Turn × State :=
  match s.sched with
  | [] => (⟨1, 0, [], .stream s.core.id .seq⟩, s)
  | t :: rest => (t, { s with sched := rest })

/-! ### What falls in one cycle (R30, R75, R97, R103, R271, R320) -/

def streamRank : StreamId → Nat
  | .seq => 0
  | .xfer => 1
  | .mat => 2
  | .vec => 3

/-- Where an action stands among those of its cycle, from its first part to its last: the sequencer's, then those of the transfer, matrix
and vector engines, then the end of a yield's deadline. Strike reports, halts, commands, resumptions and whatever else may act on several
streams take the whole cycle, in this order. An access of the sequencer's queues and a walk stand nowhere (log 1). -/
def eventRank : Instr → Option (Nat × Nat)
  | .waitSatisfied _ st => some (streamRank st, streamRank st)
  | .mendRelease _ st => some (streamRank st, streamRank st)
  | .innerClose _ st => some (streamRank st, streamRank st)
  | .stopBoundaryReached _ e => some (streamRank e.stream, streamRank e.stream)
  | .engineParityError _ e => some (streamRank e.stream, streamRank e.stream)
  | .injectedStrikeDue _ st => some (streamRank st, streamRank st)
  | .trapEntry _ => some (0, 0)
  | .transferBlockIssue _ => some (1, 1)
  | .transferBlockLand _ _ => some (1, 1)
  | .collectiveResult _ _ _ => some (1, 1)
  | .holdingSlotRelease _ => some (2, 2)
  | .budgetWindow _ _ => some (2, 2)
  | .vectorLoadLand _ => some (3, 3)
  | .vpAccessPerformed _ => some (3, 3)
  | .ydlExpiry _ => some (4, 4)
  | .loadReturn _ => none
  | .storePerformed _ => none
  | .stampedStorePerformed _ => none
  | .fenceComplete _ _ => none
  | .walkComplete _ _ => none
  | _ => some (0, 3)

def Agent.rank : Agent → Option (Nat × Nat)
  | .stream _ st => some (streamRank st, streamRank st)
  | .event i => eventRank i
  | .early _ (.row _) => some (2, 2)
  | .early _ _ => some (1, 1)
  | .command _ _ => some (0, 3)

/-- The cycles before a turn: a turn that would come out of order in its cycle comes in the next (R320; log 1). -/
def State.turnCycles (s : State) (t : Turn) : Nat :=
  match t.agent.rank with
  | some n => if t.cycles = 0 ∧ n.1 < s.phase then 1 else t.cycles
  | none => t.cycles

/-- How far the order of its cycle has come with a turn. -/
def State.turnPhase (s : State) (t : Turn) : Nat := match t.agent.rank with
  | some n => n.2
  | none => if t.cycles = 0 then s.phase else 0

/-! ### Time -/

/-- The ns that a die's oscillator counts in ns of real time: those that the turn gives where they keep to 50 ppm, else the same
(R226; log 7). -/
def oscNs (l : List (Nat × Nat)) (ns die : Nat) : Nat := match l.find? (fun x => decide (x.1 = die)) with
  | some x => if x.2 * 19999 ≤ ns * 20000 ∧ ns * 20000 ≤ x.2 * 20001 then x.2 else ns
  | none => ns

/-- A die's clock over an oscillator interval of t ns (R226), in 1/20,000 ns. -/
def DieClock.tick (d : DieClock) (t : Nat) : DieClock :=
  { d with e := d.e + t * 19999, u := d.u + t * 20001, l := max d.l (d.u + t * 20001) }

/-- `YDL` counts down while `YREQ` is 1 (R269). -/
def Core.tickYield (c : Core) (n : Nat) : Core :=
  if c.seq.yreq then c.updSeq (fun q => { q with ydl := q.ydl - n, overdue := q.overdue || decide (q.ydl < n) }) else c


/-- Whether a crew that has been asked has a rank that has neither yielded nor ended (R271). -/
def State.unyielded (s : State) (k : Crew) : Bool :=
  k.cores.any (fun id => !(s.coreOf id).seq.yielded && !(s.coreOf id).seq.ended)

/-- Forced pre-emption begins for every crew with a rank whose `YDL` reached 0 in an earlier cycle (R271). -/
def State.overdueCrews (s : State) : State :=
  { s with crews := s.crews.map (fun k =>
      if k.state = .running ∧ s.unyielded k ∧ k.cores.any (fun id => (s.coreOf id).seq.overdue) then
        { k with state := .stopping true }
      else k) }

def State.crewRunning (s : State) (n : Nat) : Bool := match s.crew n with
  | some k => decide (k.state = .running)
  | none => false

/-- Whether an engine stream that has been asked to stop is at the boundary of R271: the vector engine between two
instructions, once the issued ones complete; the matrix engine once it has retired a reduction since it was asked, or at once while it
waits (R129); the transfer engine once every block it handed over has landed. -/
def Core.atBoundary (c : Core) : Eng → Bool
  | .vec => c.vec.vp.isEmpty
  | .mat => c.mat.eng.st.waiting || c.mat.atRet
  | .xfer => c.xfer.all.all (fun o => o.blocks.all (fun b => decide (o.kind.path = .cp) && !b.formed))

/-- Whether a stream of the focused core may issue: a seated core, its context not halted, its crew running; the sequencer
neither ended nor held at a translation fault; an engine in RUN or WAIT that no stop request holds at its boundary. -/
def State.mayIssue (s : State) (st : StreamId) : Bool :=
  let c := s.core
  match c.seat with
  | none => false
  | some x =>
    let stopping := s.crewStopping x.crew
    if s.ctxHalted x.ctx || !(s.crewRunning x.crew || stopping) then false
    else match st with
      | .seq => !stopping && !c.seq.ended && c.seq.hold.isNone
      | .vec => c.vec.eng.st.live && !stopping && !c.vec.eng.stopReq && c.vec.lostAt.isNone && c.vec.struck.isNone
      | .mat => c.mat.eng.st.live && c.mat.fault.isNone && !((stopping || c.mat.eng.stopReq) && c.atBoundary .mat)
      | .xfer => c.xfer.eng.st.live && !stopping && !c.xfer.eng.stopReq && c.xfer.cur.isNone

/-- Whether the governor alone holds a core's next array issue: the window's budget is spent, and nothing else keeps the stream from issuing
it (R128). -/
def State.governed (s : State) (c : Core) : Bool := (match c.mat.eng.st with
  | .wait 5 _ => decide (c.mat.budget ≤ c.mat.spent)
  | _ => false) && (s.focus c.id).mayIssue .mat

/-- `GOVSTALL` counts the cycles in which the governor holds the matrix engine (R128). -/
def Core.tickStall (c : Core) (n : Nat) : Core := c.updSeq (fun q => { q with govstall := q.govstall + BitVec.ofNat 64 n })

/-- Time passes (R128, R225, R226, R269, R271). -/
def State.advance (s : State) (cycles ns : Nat) (osc : List (Nat × Nat)) : State :=
  let s1 := s.mapCores (fun c => if s.governed c then (c.tickYield cycles).tickStall cycles else c.tickYield cycles)
  ({ s1 with now := s1.now + cycles, tau := s1.tau + ns * 20000,
             clocks := Vector.ofFn (fun i => s1.clocks[i].tick (oscNs osc ns i.val)) } : State).overdueCrews

/-- A word that is no instruction (R36): the stream takes ILLEGAL. -/
def State.illegal (s : State) : StreamId → State
  | .seq => s.syncTrap codeIllegal 0
  | .vec => s.issueVec (.stop codeIllegal)
  | .mat => s.issueMat (.stop codeIllegal)
  | .xfer => s.issueXfer (.stop codeIllegal)

/-- A stream's word cannot be read, since its line of the code area is uncorrectable (R223): DATA_LOST, which rolls back an open region
that is not being released (R224, R305; log 14). -/
def State.fetchLost (s : State) : StreamId → State
  | .seq => if s.core.seq.inRegion s.core.issue then s.issueSeq (.fault s.seqRollback) else s.syncTrap codeDataLost s.openDetail
  | .vec => s.issueVec (.stop codeDataLost)
  | .mat => s.issueMat (.stop codeDataLost)
  | .xfer => if !s.core.xfer.regions.isEmpty && !s.core.xfer.eng.releasing then s.xferRollback s.core.xfer.eng.pc else s.issueXfer (.stop codeDataLost)

/-- What a turn comes to: nothing to run, an instruction to run, a part of an access to make early, a command packet to carry out, or a core
that does not exist. -/
inductive TurnResult where
  | idle (s : State)
  | run (i : Instr) (s : State)
  | early (core : Nat) (what : Early) (s : State)
  | command (q : Fin 64) (p : Packet) (s : State)
  | noCore
  deriving DecidableEq, Repr

/-- A stream of the focused core fetches and decodes its word (R20, R35, R53). -/
def State.fetch (s : State) (st : StreamId) : TurnResult :=
  if s.codeEcc s.core st ≠ .ok then .idle (s.fetchLost st)
  else match decode st s.core.res.encv (s.wordAt s.core st (s.core.pcOf st)) with
  | .ok i => .run i s
  | .error _ => .idle (s.illegal st)

/-- An event acts only as an event; a word given as one does nothing. -/
def State.eventTurn (s : State) (i : Instr) : TurnResult :=
  match i.stream with
  | none => .run i s
  | some _ => .idle s

/-- One turn, up to the instruction it runs. -/
def State.takeTurn (s : State) : TurnResult :=
  match s.popTurn with
  | (t, s0) =>
    let s1 : State := { s0.advance (s0.turnCycles t) t.ns t.osc with phase := s0.turnPhase t }
    match t.agent with
    | .event i => s1.eventTurn i
    | .early n w => .early n w s1
    | .command q p => .command q p s1
    | .stream n st =>
      if coreExists n then
        let s2 := s1.focus n
        if s2.mayIssue st then s2.fetch st else .idle s2
      else .noCore

/-! ### Placing a word where the next step fetches -/

/-- The launch resources of the core that `withFetchWord` seats: everything a launch can name, and four sections of 1,024
words (R23). -/
def wholeResources : Resources :=
  { encv := 3, ls := 4, tree := 2048, handles := 63, wb := 4096, undo := 512, lens := Vector.replicate 4 1024 }

def wholePacket : LaunchPacket :=
  { crew := 1, res := wholeResources, code := 0, done := 0, args := Vector.replicate 8 0, phase := 0, cmax := 0, cmin := 0,
    bound := 0, ydl := 0 }

/-- The focused core in a crew of one that runs in a context with debug permission (what the host and the firmware do before a
program runs: log 2). A core that is seated keeps its crew, with ENCV 3. -/
def State.seatFocus (s : State) : State :=
  match s.core.seat with
  | some x => { s with core := { s.core with seat := some { x with res := { x.res with encv := 3 } } } }
  | none =>
    let part : Partition :=
      { num := s.parts.length, quads := [packageQuad s.core.id], s2 := [], window := 0, share := 0, ifaces := 1, draw := 0 }
    let ctx : Context :=
      { num := s.ctxs.length, part := s.parts.length, root := 0, iface := 0, debug := true, ydl := 1000000, harness := none,
        halt := none, objects := [], log := [], binds := [] }
    let crew : Crew :=
      { num := s.crewNum, ctx := s.ctxs.length, packet := wholePacket, cores := [s.core.id], origin := .host 0 0 0 0,
        state := .running, saved := [], asked := none, forCheckpoint := false, stood := [] }
    { s with
      parts := s.parts ++ [part], ctxs := s.ctxs ++ [ctx], crews := s.crews ++ [crew], crewNum := s.crewNum + 1,
      core := { s.core with seat := some ⟨s.crewNum, s.ctxs.length, 0, 1, wholeResources⟩ } }

/-- Nothing holds the streams of the focused core back: its context and its crew run, no stop is asked for. -/
def State.clearWay (s : State) : State :=
  let s1 := match s.core.seat with
    | some x => (s.updCtx x.ctx (fun c => { c with halt := none })).updCrew x.crew (fun k => { k with state := .running })
    | none => s
  s1.upd (fun c => { c with
    seq := { c.seq with ended := false, hold := none },
    vec := { c.vec with lostAt := none, struck := none, eng := { c.vec.eng with stopReq := false } },
    mat := { c.mat with fault := none, atRet := false, eng := { c.mat.eng with stopReq := false } },
    xfer := { c.xfer with cur := none, eng := { c.xfer.eng with stopReq := false } } })

/-- A stream's program counter moved to word 0 where it lies outside the section, and an engine stream put in RUN. -/
def State.startStream (s : State) (st : StreamId) : State :=
  let fix : Word → Word := fun pc => if (s.core.codePlace st pc).isSome then pc else 0
  match st with
  | .seq => s.updSeq (fun q => { q with pc := fix q.pc })
  | .vec => s.updEng .vec (fun e => { e with st := .run, pc := fix e.pc })
  | .mat => s.updEng .mat (fun e => { e with st := .run, pc := fix e.pc })
  | .xfer => s.updEng .xfer (fun e => { e with st := .run, pc := fix e.pc })

/-- A word of the code area written, in a line that can be read. -/
def State.plant (s : State) (p : PAddr) (w : Nat) : State :=
  let t := s.writeNat p 4 w
  { t with lost := t.lost.filter (fun q => decide (q ≠ sectorOf p)), badTag := t.badTag.filter (fun q => decide (q ≠ sectorOf p)) }

/-- A word written where a stream of the focused core fetches, and that stream's turn put first. -/
def State.placeWord (s : State) (st : StreamId) (w : Nat) : State :=
  let s1 := (s.seatFocus.clearWay).startStream st
  let s2 := match s1.core.codePlace st (s1.core.pcOf st) with
    | some p => s1.plant p w
    | none => s1
  { s2 with sched := ⟨1, 0, [], .stream s2.core.id st⟩ :: s2.sched }

/-- The stream that takes a table word: the first whose decoder reads it, else the sequencer. -/
def wordStream (w : Nat) : StreamId := match firstDecode (BitVec.ofNat 32 w) tableStreams with
  | some (st, _) => st
  | none => .seq

end Sys2Proof.Machine
end

