-- ==== Sys2Proof/Machine/Integer.lean ====
section
/-!
DEFINITION. The integer group and the immediates (R79, R80). Sources are read as signed (`toInt`) or unsigned (`toNat`), and
every result is written wrapped to 64 bits.
-/
namespace Sys2Proof.Machine

/-! ### The functions of R79 -/

def fShl (x : Word) (n : Nat) : Word := if n ≥ 64 then 0 else wordOfNat (x.toNat * 2 ^ n)

def fShr (x : Word) (n : Nat) : Word := if n ≥ 64 then 0 else wordOfNat (x.toNat / 2 ^ n)

def fSar (x : Word) (n : Nat) : Word :=
  if n ≥ 64 then (if x.toInt < 0 then wordOfInt (-1) else 0) else wordOfInt (x.toInt / 2 ^ n)

def boolWord (c : Bool) : Word := if c then 1 else 0

def fDiv (x y : Word) : Word :=
  if y.toInt = 0 then wordOfInt (-1)
  else if x.toInt = -(2 ^ 63) ∧ y.toInt = -1 then wordOfInt (-(2 ^ 63))
  else wordOfInt (truncDiv x.toInt y.toInt)

def fRem (x y : Word) : Word :=
  if y.toInt = 0 then x
  else if x.toInt = -(2 ^ 63) ∧ y.toInt = -1 then 0
  else wordOfInt (x.toInt - y.toInt * truncDiv x.toInt y.toInt)

def fDivn (x y : Word) : Word := if y.toNat = 0 then wordOfNat (2 ^ 64 - 1) else wordOfNat (x.toNat / y.toNat)

def fRemn (x y : Word) : Word :=
  if y.toNat = 0 then x else wordOfNat (x.toNat - y.toNat * (x.toNat / y.toNat))

/-- An instruction of two sources. -/
def State.binary (s : State) (f : Word → Word → Word) (rd ra rb : Reg) : State :=
  s.compute [ra, rb] rd (f (s.reg ra) (s.reg rb))

/-- An instruction of one source. -/
def State.unary (s : State) (f : Word → Word) (rd ra : Reg) : State := s.compute [ra] rd (f (s.reg ra))

abbrev Out := Host.Outcome State Fault Refusal

/-! ### R79 -/

def execAdd (rd ra rb : Reg) (s : State) : Out := .next (s.binary (fun x y => wordOfInt (x.toInt + y.toInt)) rd ra rb)
def execSub (rd ra rb : Reg) (s : State) : Out := .next (s.binary (fun x y => wordOfInt (x.toInt - y.toInt)) rd ra rb)
def execAnd (rd ra rb : Reg) (s : State) : Out := .next (s.binary (fun x y => x &&& y) rd ra rb)
def execOr (rd ra rb : Reg) (s : State) : Out := .next (s.binary (fun x y => x ||| y) rd ra rb)
def execXor (rd ra rb : Reg) (s : State) : Out := .next (s.binary (fun x y => x ^^^ y) rd ra rb)
def execShl (rd ra rb : Reg) (s : State) : Out := .next (s.binary (fun x y => fShl x y.toNat) rd ra rb)
def execShr (rd ra rb : Reg) (s : State) : Out := .next (s.binary (fun x y => fShr x y.toNat) rd ra rb)
def execSar (rd ra rb : Reg) (s : State) : Out := .next (s.binary (fun x y => fSar x y.toNat) rd ra rb)

def execSlt (rd ra rb : Reg) (s : State) : Out :=
  .next (s.binary (fun x y => boolWord (decide (x.toInt < y.toInt))) rd ra rb)

def execSltn (rd ra rb : Reg) (s : State) : Out :=
  .next (s.binary (fun x y => boolWord (decide (x.toNat < y.toNat))) rd ra rb)

def execMin (rd ra rb : Reg) (s : State) : Out := .next (s.binary (fun x y => if x.toInt ≤ y.toInt then x else y) rd ra rb)
def execMax (rd ra rb : Reg) (s : State) : Out := .next (s.binary (fun x y => if x.toInt ≤ y.toInt then y else x) rd ra rb)
def execMinn (rd ra rb : Reg) (s : State) : Out := .next (s.binary (fun x y => if x.toNat ≤ y.toNat then x else y) rd ra rb)
def execMaxn (rd ra rb : Reg) (s : State) : Out := .next (s.binary (fun x y => if x.toNat ≤ y.toNat then y else x) rd ra rb)
def execMul (rd ra rb : Reg) (s : State) : Out := .next (s.binary (fun x y => wordOfInt (x.toInt * y.toInt)) rd ra rb)

def execMulh (rd ra rb : Reg) (s : State) : Out :=
  .next (s.binary (fun x y => wordOfInt (x.toInt * y.toInt / 2 ^ 64)) rd ra rb)

def execMulhn (rd ra rb : Reg) (s : State) : Out :=
  .next (s.binary (fun x y => wordOfNat (x.toNat * y.toNat / 2 ^ 64)) rd ra rb)

def execDiv (rd ra rb : Reg) (s : State) : Out := .next (s.binary fDiv rd ra rb)
def execDivn (rd ra rb : Reg) (s : State) : Out := .next (s.binary fDivn rd ra rb)
def execRem (rd ra rb : Reg) (s : State) : Out := .next (s.binary fRem rd ra rb)
def execRemn (rd ra rb : Reg) (s : State) : Out := .next (s.binary fRemn rd ra rb)
def execClz (rd ra : Reg) (s : State) : Out := .next (s.unary (fun x => wordOfNat (clzNat 64 x.toNat)) rd ra)
def execPopc (rd ra : Reg) (s : State) : Out := .next (s.unary (fun x => wordOfNat (popNat 64 x.toNat)) rd ra)

/-! ### R80 -/

def execAddi (rd ra : Reg) (imm : BitVec 16) (s : State) : Out :=
  .next (s.unary (fun x => wordOfInt (x.toInt + imm.toInt)) rd ra)

def execAndi (rd ra : Reg) (imm : BitVec 16) (s : State) : Out := .next (s.unary (fun x => x &&& zext64 imm) rd ra)
def execOri (rd ra : Reg) (imm : BitVec 16) (s : State) : Out := .next (s.unary (fun x => x ||| zext64 imm) rd ra)
def execXori (rd ra : Reg) (imm : BitVec 16) (s : State) : Out := .next (s.unary (fun x => x ^^^ zext64 imm) rd ra)
def execShli (rd ra : Reg) (n : BitVec 6) (s : State) : Out := .next (s.unary (fun x => fShl x n.toNat) rd ra)
def execShri (rd ra : Reg) (n : BitVec 6) (s : State) : Out := .next (s.unary (fun x => fShr x n.toNat) rd ra)
def execSari (rd ra : Reg) (n : BitVec 6) (s : State) : Out := .next (s.unary (fun x => fSar x n.toNat) rd ra)

def execSlti (rd ra : Reg) (imm : BitVec 16) (s : State) : Out :=
  .next (s.unary (fun x => boolWord (decide (x.toInt < imm.toInt))) rd ra)

def execMovi (rd : Reg) (imm : BitVec 16) (s : State) : Out := .next (s.compute [] rd (sext64 imm))

/-- Bits [16p + 15 : 16p] replaced. -/
def replaceChunk (x : Word) (p : Nat) (imm : BitVec 16) : Word :=
  (x &&& ~~~(wordOfNat (0xFFFF * 2 ^ (16 * p)))) ||| (wordOfNat (imm.toNat * 2 ^ (16 * p)))

def execMovk (rd : Reg) (p : Fin 4) (imm : BitVec 16) (s : State) : Out :=
  .next (s.compute [rd] rd (replaceChunk (s.reg rd) p.val imm))

end Sys2Proof.Machine
end

