-- ==== Sys2Proof/Machine/SeqCore.lean ====
section
/-!
DEFINITION. What many sequencer instructions share: the frame of an event on a core, translation faults (R85, R217), stores
inside regions and cinches (R246, R291), atomics (R245), pushes (R267), held effects and closing regions (R291, R292).
-/
namespace Sys2Proof.Machine

/-! ### Events on a core -/

/-- Whether events can act on a core: it exists, a crew holds it and its context is not halted (R313). -/
def State.liveCore (s : State) (n : Nat) : Bool :=
  coreExists n && (match (s.coreOf n).seat with
    | some x => !s.ctxHalted x.ctx
    | none => false)

/-- An event on core n; without a subject it changes nothing. -/
def State.onCore (s : State) (n : Nat) (f : State → State) : State := if s.liveCore n then f (s.focus n) else s

/-! ### Translation (R85, R217) -/

/-- Access codes of R217. -/
def accLoad : Nat := 0
def accStore : Nat := 1
def accBind : Nat := 2
def accWritable : Nat := 3
def accResume : Nat := 4

/-- The record of a failed translation. -/
def faultRecord (c : Core) (f : XlFault) (va access : Nat) : BitVec 512 :=
  BitVec.ofNat 512 (put 0 64 va + put 64 8 f.cause + put 72 8 access + put 80 6 c.ctxNum + put 88 2 c.die.val +
    put 96 7 c.num + put 128 64 f.entry + put 192 3 f.level)

/-- Post the record and hold the sequencer at its instruction. -/
def State.holdAt (s : State) (f : XlFault) (va access : Nat) : State :=
  let r := faultRecord s.core f va access
  let s1 := match s.ctx s.core.ctxNum with
    | some c => s.postEvent c.iface 1 0 c.part c.num 0 0 (bytesOfNat 64 r.toNat)
    | none => s
  s1.updSeq (fun q => { q with hold := some ⟨r⟩, wait := false })

/-- Translate n bytes at va, then go on. -/
def State.translated (s : State) (va n : Nat) (write : Bool) (access : Nat) (k : List PAddr → List Nat → Issue) : Issue :=
  match s.xlAccess va n write with
  | .ok cells binds => k cells binds
  | .fault f a => .fault (s.holdAt f a access)
  | .badTag => .halt codeIntegrity

/-! ### Checks -/

/-- ILLEGAL while a cinch is open (R246). -/
def State.noCinch (s : State) (k : Issue) : Issue := if s.core.seq.cinch.isSome then .trap codeIllegal 0 else k

/-- Whether every access of the paths with a number below n is performed (R243). -/
def Core.pathsClear (c : Core) (l : List Path) (n : Nat) : Bool := l.all (fun p => !c.pathBusy p n)

def allPaths : List Path := [.lq, .sq, .vp, .xp, .wp, .cp, .hp]

/-- The number that the marker of a waiting instruction was placed at (R243). -/
def State.marker (s : State) : Nat := s.core.seq.markAt.getD s.core.issue

def State.placeMarker (s : State) (bars : Bool) : State := s.updSeq (fun q => { q with markAt := some s.marker, bars := bars })

/-- Whether an `atom` or a `bil.claim` may act (R245, R259, R319): both queues empty, every engine access issued before it
performed, no pending fence that holds loads or stores. -/
def State.fenced (s : State) : Bool :=
  let c := s.core
  c.seq.lq.isEmpty && c.seq.sq.isEmpty && !c.fenceHoldsNew .lq && !c.fenceHoldsNew .sq &&
  c.pathsClear allPaths s.marker

/-! ### Atomics (R245) -/

/-- The new value of an atomic's word. -/
def atomNew (op : AtomOp) (n : Nat) (old b e : Int) : Int :=
  match op with
  | .add => old + b
  | .swap => b
  | .cas => if old = e then b else old
  | .min => min old b
  | .max => max old b
  | .or => sextNat (8 * n) (wrapInt (8 * n) old ||| wrapInt (8 * n) b)
  | .and => sextNat (8 * n) (wrapInt (8 * n) old &&& wrapInt (8 * n) b)

/-- Read, modify and write the word at pa in one action; a `cas` that fails writes nothing. -/
def State.rmw (s : State) (op : AtomOp) (n : Nat) (pa : PAddr) (b e : Int) : Ecc × Int × State :=
  match s.eccRead (placesFrom pa n) with
  | .ok =>
    let old := sextNat (8 * n) (s.readNat pa n)
    if op = .cas ∧ old ≠ e then (.ok, old, s)
    else
      let r := s.store (cellsAt pa (bytesOfNat n (wrapInt (8 * n) (atomNew op n old b e))))
      (r.1, old, r.2.wrote .seq (placesFrom pa n))
  | x => (x, 0, s)

/-! ### Cinch groups (R246, R260) -/

/-- The cells of a group and the rows it advances, each store seeing the ones before it; the row of a refused advance. -/
def State.groupCells (s : State) : List StoreEntry → Except Nat (List (PAddr × Byte) × List (Nat × PAddr))
  | [] => .ok ([], [])
  | e :: t =>
    match s.rowCells e.kind with
    | none => .error (match e.kind with
      | .adv row _ _ => row
      | _ => 0)
    | some l => match (s.writeCells l).groupCells t with
      | .error r => .error r
      | .ok (cells, rows) => .ok (l ++ cells, (match e.kind with
        | .adv _ p pa => [(p, pa)]
        | _ => []) ++ rows)

/-- Perform a group as one action: all of it, or nothing where an advance in it is refused or data is lost. -/
def State.performGroup (s : State) (l : List StoreEntry) : Ecc × State :=
  let reads := l.flatMap (fun e => match e.kind with
    | .adv _ _ pa => placesFrom pa 8
    | _ => [])
  match s.eccRead reads with
  | .ok => match s.groupCells l with
    | .error row => (.ok, s.logCtx s.core.ctxNum .refusedAdvance row)
    | .ok (cells, rows) => match s.store cells with
      | (.ok, t) => (.ok, (rows.foldl (fun t r => t.rowDone t.core.ctxNum t.core.id r.1 r.2) t).wrote .seq
          (cells.map Prod.fst))
      | (e, _) => (e, s)
  | e => (e, s)

/-- The address of the store of a group whose line is lost (R224, R247): an advance reads its row, a plain store the lines that the group
covers in part. -/
def State.groupLoss (s : State) (l : List StoreEntry) : Nat :=
  let cells := l.flatMap (fun e => e.kind.places.map (fun p => (p, (0 : Byte))))
  match l.find? (fun e => e.kind.places.any (fun p => s.lost.contains (sectorOf p) && (match e.kind with
    | .plain _ => !coversSector cells (sectorOf p)
    | _ => true))) with
  | some e => e.va
  | none => 0

/-! ### Launch queues (R267) -/

def State.queueOf (s : State) (target : Nat) : List LaunchBlock := assocGet [] s.launchQ target

def State.setQueue (s : State) (target : Nat) (l : List LaunchBlock) : State :=
  { s with launchQ := assocSet s.launchQ target l }

/-- Whether a push may act: the store queue is empty, no fence holds it, the target's queue has room; it reads its block on LQ, after the loads
that are queued there (R240, R267, R319). -/
def State.pushReady (s : State) (target : Nat) : Bool :=
  let c := s.core
  c.seq.sq.isEmpty && c.seq.lq.isEmpty && !c.fenceHoldsNew .sq && !c.fenceHoldsNew .lq && decide ((s.queueOf target).length < 8)

/-- The place of a byte of the core's own local store at va. -/
def Core.ownPlace (c : Core) (va : Nat) : PAddr := ⟨.window, storeBase c.id + bitsOf va 21 0⟩

/-- Append the block at va to the target's queue; a lost block is not appended (R86). -/
def State.push (s : State) (va target : Nat) : State :=
  let l := placesFrom (s.core.ownPlace va) 128
  match s.eccRead l with
  | .ok => (s.setQueue target (s.queueOf target ++ [⟨va, s.readBytes l, s.core.ctxNum, s.core.id⟩])).upd
      (fun c => c.touch .seq s.now true)
  | .lost => s.addCause (.dataLost (wordOfNat va) s.core.seq.pc)
  | .badTag => s.haltHere codeIntegrity

/-! ### Held effects (R291) -/

/-- What performing a held effect comes to. -/
inductive HeldOut where
  | done (s : State)
  | wait (s : State)
  /-- One byte of a misaligned store is performed; the effect holds the others (R82). -/
  | part (s : State) (h : HeldEffect)

/-- The cells of a plain store. -/
def StoreKind.cells : StoreKind → List (PAddr × Byte)
  | .plain l => l
  | _ => []

/-- A store effect makes the waits of a store: the queue is empty and no fence holds it. -/
def State.storeReady (s : State) : Bool := s.core.seq.sq.isEmpty && !s.core.fenceHoldsNew .sq

/-- Perform one held effect, or wait as its own rule says. -/
def State.performHeld (s : State) (h : HeldEffect) : HeldOut :=
  let pc := s.core.seq.pc
  match h with
  | .store va cells binds begun told =>
    if s.storeReady then match (⟨s.core.issue, pc, va, .plain cells, [], begun, told⟩ : StoreEntry).split with
      | (a, none) => .done (s.performSeqStore a)
      | (a, some r) => .part (s.performAccess a).1 (.store va r.kind.cells binds true (s.performAccess a).2)
    else .wait s
  | .billet k va _ => if s.storeReady then .done (s.performSeqStore ⟨s.core.issue, pc, va, k, [], false, false⟩) else .wait s
  | .push va target => if s.pushReady target then .done (s.push va target) else .wait s
  | .cinch _ l =>
    if s.storeReady then match s.performGroup l with
      | (.ok, t) => .done t
      | (.lost, _) => .done (s.addCause (.dataLost (wordOfNat (s.groupLoss l)) pc))
      | (.badTag, _) => .done (s.haltHere codeIntegrity)
    else .wait s
  | .atom op n _ va pa b e _ =>
    if s.fenced then match s.rmw op n pa b e with
      | (.ok, _, t) => .done (t.updSeq (fun q => { q with markAt := none }))
      | (.lost, _, _) => .done ((s.addCause (.dataLost (wordOfNat va) pc)).updSeq (fun q => { q with markAt := none }))
      | (.badTag, _, _) => .done (s.haltHere codeIntegrity)
    else .wait (s.placeMarker true)

/-- Perform held effects in order until one waits; the ones that are left. -/
def State.runHeld (s : State) : List HeldEffect → State × List HeldEffect
  | [] => (s, [])
  | h :: t => match s.performHeld h with
    | .done u => u.runHeld t
    | .wait u => (u, h :: t)
    | .part u g => (u, g :: t)

/-! ### Closing regions (R292) -/

/-- Whether a close's wait is met: D cycles since the youngest retirement, no report pending. -/
def State.seqCloseReady (s : State) : Bool :=
  decide (s.now ≥ s.core.seq.retired + strikeWindow) && !s.core.reportPending .seq

/-- Whether a release that has begun goes on: D cycles have passed since the youngest retirement, which only a trap that abandoned the close
can bring about again. A report that has come meanwhile waits until the release is over (R293: log 9). -/
def State.releaseGoes (s : State) : Bool :=
  s.core.seq.releasing && decide (s.now ≥ s.core.seq.retired + strikeWindow)

/-- The inner of two regions handed to the outer. -/
def SeqRegion.handUp (r p : SeqRegion) : SeqRegion :=
  { p with saved := r.saved ++ p.saved, held := p.held ++ r.held, mask := p.mask ||| r.mask, charge := p.charge + r.charge }

/-- The counts kept at a trap's entry once a region r at a depth closes: a region that the handler has opened has no part in them (R308). -/
def Sequencer.keptAfter (q : Sequencer) (r : SeqRegion) (depth : Nat) : List Again :=
  if q.handlerOpened r then q.kept else againDrop q.kept depth

/-- Close the innermost region into the one that encloses it. -/
def Sequencer.closeInner (q : Sequencer) : Sequencer := match q.regions with
  | r :: p :: t => { q with regions := r.handUp p :: t, again := againDrop q.again (t.length + 1), kept := q.keptAfter r (t.length + 1) }
  | _ => q

/-- What closing comes to. -/
inductive Closing where
  | closed (s : State)
  | waiting (s : State)

/-- Release the outermost region r, whose wait is met. -/
def State.closeOuter (s : State) (r : SeqRegion) : Closing :=
  match s.runHeld r.held with
  | (t, []) => .closed ((t.updSeq (fun q => { q with regions := [], again := [], kept := q.keptAfter r 0, releasing := false })).upd
      (fun c => c.orFlags r.mask))
  | (t, rest) => .waiting (t.updSeq (fun q => { q with regions := [{ r with held := rest }], releasing := true }))

/-- All regions folded into one, innermost first. -/
def foldRegions : List SeqRegion → Option SeqRegion
  | [] => none
  | r :: t => match foldRegions t with
    | none => some r
    | some p => some (r.handUp p)

/-- Close every open region, innermost first, as `mend.close` does. -/
def State.closeAll (s : State) : Closing :=
  match foldRegions s.core.seq.regions with
  | none => .closed s
  | some r =>
    if s.seqCloseReady || (s.releaseGoes && decide (s.core.seq.regions.length = 1)) then s.closeOuter r
    else .waiting s

/-- What a word comes to that has closed its regions: a cause that it finds then leaves the closing as it is (R205, R291). -/
def Issue.after (t : State) : Issue → Issue
  | .trap code detail => .closed t code detail
  | .late code detail => .closed t code detail
  | .halt code => .fault (t.haltHere code)
  | r => r

/-- Close every region, then go on. -/
def State.closeFirst (s : State) (k : State → Issue) : Issue :=
  if s.core.seq.regions.isEmpty then k s
  else match s.closeAll with
  | .closed t => (k t).after t
  | .waiting t => .wait t

/-! ### Stores (R82, R83, R246, R291) -/

/-- Whether a byte is saved by an open region of the sequencer stream. -/
def Sequencer.savedByte (q : Sequencer) (p : PAddr) : Bool :=
  q.regions.any (fun r => r.saved.any (fun x =>
    decide (x.pa.space = p.space) && decide (x.pa.addr ≤ p.addr) && decide (p.addr < x.pa.addr + x.bytes.length)))

/-- The 64-byte lines a list of places touches. -/
def linesOf (l : List PAddr) : List PAddr := (l.map sectorOf).eraseDups

/-- Where the lines of a cinch group may lie: all in HBM, or all in one local store (R246). -/
def sameStore (p q : PAddr) : Bool :=
  decide (p.space = q.space) && (decide (p.space = .hbm) || decide (p.addr / 2 ^ 22 = q.addr / 2 ^ 22))

/-- Whether a store may join an open group (R246). -/
def Cinch.admits (c : Cinch) (l : List PAddr) : Bool :=
  let all := c.stores.flatMap (fun e => e.kind.places) ++ l
  decide (c.stores.length < 16) && decide ((linesOf all).length ≤ 8) && all.all (fun p => decide (p.space ≠ .host)) &&
  (match all with
    | p :: _ => all.all (sameStore p)
    | [] => true)

/-- A new entry of the store queue, or QFULL (R83). -/
def State.enqueue (s : State) (va : Nat) (k : StoreKind) (binds : List Nat) : Issue :=
  if s.core.seq.sq.length ≥ 32 then .trap codeQFull 1
  else .done (((s.updSeq (fun q => { q with sq := q.sq ++ [⟨s.core.issue, q.pc, va, k, binds, false, false⟩] })).upd Core.bump).next)

/-- A held effect added to the innermost region, or MENDFULL (R309). -/
def State.hold (s : State) (h : HeldEffect) : Issue :=
  match s.core.seq.regions with
  | [] => .done s.next
  | r :: t =>
    if s.core.roomFor 0 1 then
      .done (s.updSeq (fun q => { q with regions := { r with held := r.held ++ [h] } :: t })).next
    else .trap codeMendFull s.openDetail

/-- A store joins the open cinch, or BOUNDS. -/
def State.joinCinch (s : State) (c : Cinch) (va : Nat) (k : StoreKind) (binds : List Nat) : Issue :=
  if c.admits k.places then
    .done (((s.updSeq (fun q => { q with
      cinch := some { c with stores := c.stores ++ [⟨s.core.issue, q.pc, va, k, binds, false, false⟩] } })).upd Core.bump).next)
  else .trap codeBounds (wordOfNat va)

/-- A plain store with its cells (R82): into the cinch, into the queue, or held; a store that lies partly in saved bytes is
split (R291). -/
def State.storePlain (s : State) (va : Nat) (cells : List (PAddr × Byte)) (binds : List Nat) : Issue :=
  match s.core.seq.cinch with
  | some c => s.joinCinch c va (.plain cells) binds
  | none =>
    if s.core.seq.regions.isEmpty then s.enqueue va (.plain cells) binds
    else
      let inside := cells.filter (fun c => s.core.seq.savedByte c.1)
      let rest := cells.filter (fun c => !s.core.seq.savedByte c.1)
      if rest.isEmpty then s.enqueue va (.plain inside) binds
      else if inside.isEmpty then s.hold (.store va rest binds false false)
      else if s.core.seq.sq.length ≥ 32 then .trap codeQFull 1
      else match s.hold (.store va rest binds false false) with
        | .done t => .done ((t.updSeq (fun q => { q with
            sq := q.sq ++ [⟨s.core.issue, s.core.seq.pc, va, .plain inside, binds, false, false⟩] })).upd Core.bump)
        | r => r

/-- An SQ store of the billet group: it joins a cinch, is held in a region, or takes a queue entry (R258, R260). -/
def State.storeRow (s : State) (va : Nat) (k : StoreKind) (binds : List Nat) : Issue :=
  match s.core.seq.cinch with
  | some c => s.joinCinch c va k binds
  | none => if s.core.seq.regions.isEmpty then s.enqueue va k binds else s.hold (.billet k va binds)

end Sys2Proof.Machine
end

