-- ==== Sys2Proof/Machine/LoadStore.lean ====
section
/-!
DEFINITION. Sequencer loads and stores (R82 to R86), the return of a load, a store being performed, a stamped store being
performed (R205), a pending fence completing (R244).
-/
namespace Sys2Proof.Machine

/-- va of a load or store (R82). -/
def State.effective (s : State) (ra : Reg) (imm : BitVec 16) : Word := s.reg ra + sext64 imm

/-- A load of n bytes (R82, R83): it takes a queue entry and empties its register. -/
def State.issueLoad (s : State) (rd ra : Reg) (imm : BitVec 16) (n : Nat) (signed : Bool) : State :=
  let va := (s.effective ra imm).toNat
  s.issueSeq (s.withRegs [ra] 0 (s.translated va n false accLoad (fun cells binds =>
    if s.core.seq.lq.length ≥ 32 then .trap codeQFull 0
    else .done (((s.updSeq (fun q => ({ q with
      lq := q.lq ++ [LoadEntry.mk s.core.issue q.pc rd va cells signed binds []] } : Sequencer).emptyReg rd)).upd Core.bump).next))))

/-- A store of the low n bytes of gd (R82). -/
def State.issueStore (s : State) (rd ra : Reg) (imm : BitVec 16) (n : Nat) : State :=
  let va := (s.effective ra imm).toNat
  s.issueSeq (s.withRegs [rd, ra] 0 (s.translated va n true accStore (fun cells binds =>
    s.storePlain va (cells.zip (bytesOfNat n (s.reg rd).toNat)) binds)))

def execLdB (rd ra : Reg) (imm : BitVec 16) (s : State) : Out := .next (s.issueLoad rd ra imm 1 false)
def execLdBs (rd ra : Reg) (imm : BitVec 16) (s : State) : Out := .next (s.issueLoad rd ra imm 1 true)
def execLdH (rd ra : Reg) (imm : BitVec 16) (s : State) : Out := .next (s.issueLoad rd ra imm 2 false)
def execLdHs (rd ra : Reg) (imm : BitVec 16) (s : State) : Out := .next (s.issueLoad rd ra imm 2 true)
def execLdW (rd ra : Reg) (imm : BitVec 16) (s : State) : Out := .next (s.issueLoad rd ra imm 4 false)
def execLdWs (rd ra : Reg) (imm : BitVec 16) (s : State) : Out := .next (s.issueLoad rd ra imm 4 true)
def execLdD (rd ra : Reg) (imm : BitVec 16) (s : State) : Out := .next (s.issueLoad rd ra imm 8 false)
def execStB (rd ra : Reg) (imm : BitVec 16) (s : State) : Out := .next (s.issueStore rd ra imm 1)
def execStH (rd ra : Reg) (imm : BitVec 16) (s : State) : Out := .next (s.issueStore rd ra imm 2)
def execStW (rd ra : Reg) (imm : BitVec 16) (s : State) : Out := .next (s.issueStore rd ra imm 4)
def execStD (rd ra : Reg) (imm : BitVec 16) (s : State) : Out := .next (s.issueStore rd ra imm 8)

/-- The value a load's bytes give (R82). -/
def loadValue (signed : Bool) (l : List Byte) : Word :=
  if signed then wordOfInt (intOfBytes l) else wordOfNat (natOfBytes l)

/-- A load writes its register; the register stays empty while a younger load targets it (R78). -/
def Sequencer.loadReg (q : Sequencer) (r : Reg) (v : Word) : Sequencer :=
  if q.targeted r then (q.setReg r v).emptyReg r else q.setReg r v

/-- The bytes that a load reads next: all of them, or one byte of a misaligned load (R82). -/
def LoadEntry.nextCells (e : LoadEntry) : List PAddr :=
  if bytewise e.cells then (e.cells.drop e.got.length).take 1 else e.cells

/-- The oldest load's data returns (R84, R86), byte by byte where it is misaligned (R82). -/
def State.returnLoad (s : State) : State :=
  match s.core.seq.lq with
  | [] => s
  | e :: t =>
    if s.core.fenceHolds .lq e.seq then s
    else
      let s1 := s.updSeq (fun q => { q with lq := t })
      match s.eccRead e.nextCells with
      | .ok =>
        let got := e.got ++ s.readBytes e.nextCells
        if got.length < e.cells.length then s.updSeq (fun q => { q with lq := { e with got := got } :: t })
        else (s1.updSeq (fun q => q.loadReg e.rd (loadValue e.signed got))).upd Core.release
      | .lost =>
        if s.core.seq.inRegion e.seq then s.seqRollback
        else (s1.addCause (.dataLost (wordOfNat e.va) e.pc)).upd Core.release
      | .badTag => s.haltAccess .seq e.pc [e.va]

def execLoadReturn (core : Nat) (s : State) : Out := .next (s.onCore core State.returnLoad)

/-- What is left of a misaligned store goes back to the head of the queue. -/
def State.putBack (s : State) (told : Bool) : Option StoreEntry → State
  | some r => s.updSeq (fun q => { q with sq := { r with told := told } :: q.sq })
  | none => s.upd Core.release

/-- The oldest store is performed, or the next byte of it, and frees its entry (R82, R83, R224). -/
def State.popStore (s : State) : State :=
  match s.core.seq.sq with
  | [] => s
  | e :: t =>
    let s1 := s.updSeq (fun q => { q with sq := t })
    let a := e.split.1
    match s1.performStore s.core.ctxNum s.core.id a.kind with
    | (.badTag, _) => s.haltAccess .seq e.pc [e.va]
    | (.ok, _) => (s1.performAccess a).1.putBack e.told e.split.2
    | (.lost, _) =>
      if s.core.seq.inRegion e.seq then (if s1.rollbackReady then s1.seqRollback else s) else (s1.performAccess a).1.putBack true e.split.2

def StoreKind.stamped : StoreKind → Bool
  | .stamp _ _ _ _ => true
  | _ => false

/-- A plain store or a billet store at the head of the queue, unless a fence holds it. -/
def State.storeEvent (s : State) : State :=
  match s.core.seq.sq with
  | [] => s
  | e :: _ => if e.kind.stamped || s.core.fenceHolds .sq e.seq then s else s.popStore

def execStorePerformed (core : Nat) (s : State) : Out := .next (s.onCore core State.storeEvent)

/-- A stamped store at the head of the queue, once its stamp is surely past (R205). -/
def State.stampEvent (s : State) : State :=
  match s.core.seq.sq with
  | [] => s
  | e :: _ => match e.kind with
    | .stamp c st _ _ => if s.surelyPast c st && !s.core.fenceHolds .sq e.seq then s.popStore else s
    | _ => s

def execStampedStorePerformed (core : Nat) (s : State) : Out := .next (s.onCore core State.stampEvent)

/-- The fence with number n completes, once its wait is met. -/
def State.fenceEvent (s : State) (n : Nat) : State :=
  match s.core.seq.fences.find? (fun f => decide (f.seq = n)) with
  | some f =>
    if s.fenceDone f then s.updSeq (fun q => { q with fences := q.fences.filter (fun g => decide (g.seq ≠ n)) }) else s
  | none => s

def execFenceComplete (core n : Nat) (s : State) : Out := .next (s.onCore core (fun s => s.fenceEvent n))

end Sys2Proof.Machine
end

