-- ==== Sys2Proof/Machine/Order.lean ====
section
/-!
DEFINITION. `atom`, `mark`, `fence` and the cinches (R243 to R247). Assumption log 13 says where DATA_LOST on an atomic leaves
the program counter.
-/
namespace Sys2Proof.Machine

/-! ### The clock as an instruction reads it (R225, R228) -/

def DieClock.early (d : DieClock) : Int := d.e / 20000
def DieClock.late (d : DieClock) : Int := -((-d.l) / 20000)

/-- The width in ns; none while it is unbounded. -/
def DieClock.width (d : DieClock) : Option Int := if d.wide then none else some (d.late - d.early)

/-- Whether a width passes `CLKMAX`, and the detail of CLKWIDE. -/
def widthFails (w : Option Int) (clkmax : Nat) : Option Word :=
  match w with
  | none => some (wordOfNat (2 ^ 63 - 1))
  | some x => if x > clkmax then some (wordOfInt x) else none

def State.clock (s : State) : DieClock := s.clocks[s.core.die]

/-- The issuing die's width check. -/
def State.widthCheck (s : State) : Option Word := widthFails s.clock.width s.core.seq.clkmax.toNat

/-! ### atom (R245) -/

/-- The scopes that `atom` and `cinch.open` take (R241). -/
def atomScope (c : Scope) : Bool := decide (1 ≤ c.code) && decide (c.code ≤ 8)
def cinchScope (c : Scope) : Bool := decide (1 ≤ c.code) && decide (c.code ≤ 6)

/-- An atomic's operand, the low n bytes read as signed. -/
def atomSigned (n : Nat) (w : Word) : Int := sextNat (8 * n) w.toNat

/-- The atomic acts once everything before it is performed. -/
def State.atomAct (s : State) (op : AtomOp) (n : Nat) (rd : Reg) (va : Nat) (pa : PAddr) (b e : Int) : Issue :=
  if s.fenced then
    match s.rmw op n pa b e with
    | (.ok, old, t) => .done (t.setReg rd (wordOfInt old)).next
    | (.lost, _, _) => .done (s.addCause (.dataLost (wordOfNat va) s.core.seq.pc)).next
    | (.badTag, _, _) => .halt codeIntegrity
  else .wait (s.placeMarker true)

def atomHostOk : AtomOp → Bool
  | .add => true
  | .swap => true
  | .cas => true
  | _ => false

def State.atom (s : State) (op : AtomOp) (rd ra rb : Reg) (size : AtomSize) (scope : Scope) : State :=
  let n := match size with
    | .w => 4
    | .d => 8
  let va := (s.reg ra).toNat
  let b := atomSigned n (s.reg rb)
  let e := atomSigned n (s.reg rd)
  s.issueSeq (if !atomScope scope then .trap codeIllegal 0 else s.noCinch (s.withRegs [rd, ra, rb] 0 (
    if va % n ≠ 0 then .trap codeBounds (wordOfNat va)
    else s.translated va n true accStore (fun cells binds =>
      match cells with
      | [] => .wait s
      | pa :: _ =>
        if pa.space = .host ∧ !atomHostOk op then .trap codeBounds s.openDetail
        else if s.core.seq.regions.isEmpty then s.atomAct op n rd va pa b e
        else if rd = 0 then s.hold (.atom op n scope va pa b e binds)
        else s.closeFirst (fun t => t.atomAct op n rd va pa b e)))))

def execAtomAdd (rd ra rb : Reg) (size : AtomSize) (scope : Scope) (s : State) : Out := .next (s.atom .add rd ra rb size scope)
def execAtomSwap (rd ra rb : Reg) (size : AtomSize) (scope : Scope) (s : State) : Out := .next (s.atom .swap rd ra rb size scope)
def execAtomCas (rd ra rb : Reg) (size : AtomSize) (scope : Scope) (s : State) : Out := .next (s.atom .cas rd ra rb size scope)
def execAtomMin (rd ra rb : Reg) (size : AtomSize) (scope : Scope) (s : State) : Out := .next (s.atom .min rd ra rb size scope)
def execAtomMax (rd ra rb : Reg) (size : AtomSize) (scope : Scope) (s : State) : Out := .next (s.atom .max rd ra rb size scope)
def execAtomOr (rd ra rb : Reg) (size : AtomSize) (scope : Scope) (s : State) : Out := .next (s.atom .or rd ra rb size scope)
def execAtomAnd (rd ra rb : Reg) (size : AtomSize) (scope : Scope) (s : State) : Out := .next (s.atom .and rd ra rb size scope)

/-! ### mark (R243) -/

def pathsOf (m : BitVec 7) : List Path := (allPaths.zipIdx.filter (fun x => m.toNat.testBit x.2)).map Prod.fst

def execMark (paths : BitVec 7) (s : State) : Out :=
  .next (s.issueSeq (s.noCinch (
    if s.core.pathsClear (pathsOf paths) s.marker then .done s.next else .wait (s.placeMarker false))))

/-! ### fence (R244) -/

def execFence (pa pb : Path) (scope : Scope) (s : State) : Out :=
  .next (s.issueSeq (s.noCinch (
    if pb = .hp then .trap codeIllegal 0
    else match (if scope = .time then s.widthCheck else none) with
    | some d => .trap codeClkWide d
    | none =>
      if s.core.seq.fences.length ≥ 8 then .wait s
      else .done ((s.updSeq (fun q => { q with
        fences := q.fences ++ [⟨s.core.issue, pa, pb, scope, s.clock.late⟩] })).upd Core.bump).next)))

/-! ### Cinches (R246, R247) -/

def execCinchOpen (scope : Scope) (s : State) : Out :=
  .next (s.issueSeq (if !cinchScope scope then .trap codeIllegal 0 else s.noCinch (.done ((s.updSeq (fun q => { q with
    cinch := some ⟨scope, q.pc, s.core.issue, []⟩ })).upd Core.bump).next)))

/-- The group is performed once the store queue is empty: every store of the queue was issued before the `cinch.open`. Where it meets
DATA_LOST nothing of it is performed, and the trap of R224 follows, with the `cinch.open` as its resume point (R247). -/
def execCinchClose (s : State) : Out :=
  .next (s.issueSeq (match s.core.seq.cinch with
    | none => .trap codeIllegal 0
    | some c =>
      let s1 := s.updSeq (fun q => { q with cinch := none })
      if !s.core.seq.regions.isEmpty then match s1.hold (.cinch c.scope c.stores) with
        | .done t => .done (t.upd Core.release)
        | r => r
      else if s.storeReady then match s1.performGroup c.stores with
        | (.ok, t) => .done (t.upd Core.release).next
        | (.lost, _) => .done ((s1.addCause (.dataLost (wordOfNat (s.groupLoss c.stores)) c.pc)).upd Core.release).next
        | (.badTag, _) => .halt codeIntegrity
      else .wait s))

def execCinchDrop (s : State) : Out :=
  .next (s.issueSeq (if s.core.seq.cinch.isNone then .trap codeIllegal 0
    else .done ((s.updSeq (fun q => { q with cinch := none })).upd Core.release).next))

end Sys2Proof.Machine
end

