-- ==== Sys2Proof/Machine/Handle.lean ====
section
/-!
DEFINITION. Handles (R87 to R91), page walks (R214, R218) and views (R96). Assumption log 11: a window range is checked in
4,096-byte pieces and takes no walk; every other range is walked page by page, in the sizes that its leaves have.
-/
namespace Sys2Proof.Machine

/-- Whether a launch gives a slot (R23). -/
def Core.slotOk (c : Core) (h : Hnd) : Bool := decide (h.val ≤ c.res.handles)

/-- The page addresses of a range, in pages of m bytes. -/
def pagesOf (base len m : Nat) : List Nat := (rangeFrom (base / m) ((base + len - 1) / m - base / m + 1)).map (· * m)

/-- The bytes of a range that lie in the page at `page` of m bytes, from the range's start. -/
def pageSpan (base len page m : Nat) : Nat × Nat :=
  (max base page - base, min (base + len) (page + m) - max base page)

/-- The first page of a window range that the context does not reach (R209). -/
def State.windowGap (s : State) (base len : Nat) : Option Nat :=
  (pagesOf base len 4096).find? (fun p => (s.windowPlace s.core.ctxNum (some s.core.id) p).isNone)

/-- Whether a range stays within one window core, or wholly outside the window (R87). -/
def oneKind (base len : Nat) : Bool :=
  if isWindow base then decide (base / 2 ^ 22 = (base + len - 1) / 2 ^ 22) else !isWindow (base + len - 1)

/-- A new LIVE binding replaces what the slot held (R87, R90); one with a page that an unmap has named falls under R91 (R219). Engine streams
read the slot (R311). -/
def State.bindSlot (s : State) (h : Hnd) (base len : Nat) (kind : Space) (writable : Bool) (segs : List Seg) (stale : Bool) : State :=
  let s1 := s.upd (·.detach h)
  let b : Binding := { id := s1.core.issue, slot := h, base := base, len := len, kind := kind, writable := writable,
                       segs := segs, revoking := stale, revoked := false }
  (s1.seqSeen.updSeq (fun q => { q with h := q.h.set h (some b), walk := none })).upd Core.bump

/-- A bind of a window range: the whole range or a WINDOW fault. -/
def State.bindWindow (s : State) (h : Hnd) (base len : Nat) : Issue :=
  match s.windowGap base len with
  | some p => .fault (s.holdAt ⟨4, 7, 0⟩ p accBind)
  | none => match s.windowPlace s.core.ctxNum (some s.core.id) base with
    | some pa => .done (s.bindSlot h base len .window true [⟨0, len, pa⟩] false).next
    | none => .fault (s.holdAt ⟨4, 7, 0⟩ base accBind)

/-- The failing page of lowest address. -/
def lowestFault : List (Nat × Nat × Word × Nat) → Option (Nat × Nat × Word × Nat)
  | [] => none
  | x :: t => match lowestFault t with
    | none => some x
    | some y => if x.1 ≤ y.1 then some x else some y

/-- Once every page is walked (R87, R217). DESIGN CHOICE: where a page fails its walk and those that did translate lie in different kinds of memory,
the fault of R85 comes before BOUNDS (log 11). -/
def State.finishBind (s : State) (j : WalkJob) : Issue :=
  match lowestFault j.failed with
  | some (page, cause, entry, level) =>
    .fault (({ s with core := s.core.updSeq (fun q => { q with walk := none }) } : State).holdAt
      ⟨cause, level, entry.toNat⟩ page accBind)
  | none => match j.done with
    | [] => .late codeBounds (wordOfNat j.slot.val)
    | (g, _) :: _ =>
      if j.done.any (fun d => decide (d.1.pa.space ≠ g.pa.space)) then .late codeBounds (wordOfNat j.slot.val)
      else .done (s.bindSlot j.slot j.base j.len g.pa.space (j.done.all (·.2)) (j.done.map (·.1)) j.stale).next

/-- A bind of an HBM or host range: start the walks, wait for them, finish. -/
def State.bindPages (s : State) (h : Hnd) (base len : Nat) : Issue :=
  match s.core.seq.walk with
  | none => .wait (s.updSeq (fun q => { q with walk := some ⟨h, base, len, accBind, [], pagesOf base len 65536, [], false⟩ }))
  | some j => if j.todo.isEmpty then s.finishBind j else .wait s

def execHndBind (rd ra : Reg) (h : Hnd) (s : State) : Out :=
  let base := (s.reg ra).toNat
  let len := (s.reg rd).toNat
  .next (s.issueSeq (s.noCinch (s.withRegs [rd, ra] 0 (
    if !s.core.slotOk h ∨ len = 0 ∨ len > 2 ^ 31 ∨ base + len - 1 ≥ 2 ^ 56 ∨ !oneKind base len then
      .trap codeBounds (wordOfNat h.val)
    else if isWindow base then s.bindWindow h base len
    else s.bindPages h base len))))

/-- The first address of the page of 2^n bytes that holds an address. -/
def pageStart (n a : Nat) : Nat := a / 2 ^ n * 2 ^ n

/-- The stretch of a bind's range that lies in the page of 2^n bytes of an address in it, whose byte lies at pa (R211). -/
def WalkJob.stretch (j : WalkJob) (n piece : Nat) (pa : PAddr) : Seg :=
  let sp := pageSpan j.base j.len (pageStart n piece) (2 ^ n)
  ⟨sp.1, sp.2, ⟨pa.space, pa.addr - piece % 2 ^ n + (j.base + sp.1) % 2 ^ n⟩⟩

/-- The pieces of a bind's range that one walk does not settle: those outside its page. -/
def WalkJob.beyondPage (j : WalkJob) (n piece : Nat) : List Nat := j.todo.filter (fun a => decide (pageStart n a ≠ pageStart n piece))

/-- The walk of the page that holds the n-th piece that a bind still waits for is finished: one walk, and one chain of entries, for a page
(R214, R215, R218). -/
def State.finishWalk (s : State) (n : Nat) : State :=
  match s.core.seq.walk with
  | none => s
  | some j => match j.todo[n]? with
    | none => s
    | some piece =>
      match s.walk s.core.ctxNum (some s.core.id) piece false with
      | .ok pa w m => s.updSeq (fun q => { q with
          walk := some { j with todo := j.beyondPage m piece, done := j.done ++ [(j.stretch m piece pa, w)] } })
      | .fault f m => s.updSeq (fun q => { q with
          walk := some { j with todo := j.beyondPage m piece,
                                failed := j.failed ++ [(pageStart m piece, f.cause, wordOfNat f.entry, f.level)] } })
      | .badTag => s.haltHere codeIntegrity

def execWalkComplete (core n : Nat) (s : State) : Out := .next (s.onCore core (fun s => s.finishWalk n))

/-- R88. Engine streams read the slot (R311). -/
def execHndFree (h : Hnd) (s : State) : Out :=
  .next (s.issueSeq (s.noCinch (
    if !s.core.slotOk h then .trap codeBounds s.openDetail
    else .done (if (s.core.seq.h[h]).isSome then s.seqSeen.upd (·.detach h) else s.upd (·.detach h)).next)))

def spaceCode : Space → Nat
  | .hbm => 0
  | .window => 1
  | .host => 2

/-- The word `hnd.stat` gives (R89). -/
def Core.handleWord (c : Core) (h : Hnd) : Word :=
  let draining := put 61 1 (bit (c.seq.draining.any (fun b => decide (b.slot = h))))
  match c.seq.h[h] with
  | none => wordOfNat draining
  | some b => wordOfNat (draining + put 63 1 1 + put 62 1 (bit b.writable) + put 60 1 (bit b.revoked) +
      put 58 2 (spaceCode b.kind) + put 32 16 (min (c.inFlight b.id) 65535) + put 0 32 b.len)

def execHndStat (rd : Reg) (h : Hnd) (s : State) : Out :=
  .next (s.issueSeq (
    if !s.core.slotOk h then .trap codeBounds s.openDetail
    else s.withRegs [] rd (.done (s.setReg rd (s.core.handleWord h)).next)))

/-- R96. Engine streams read the view (R311). -/
def execViewSet (v : Fin 8) (ra : Reg) (s : State) : Out :=
  .next (s.issueSeq (s.withRegs [ra] 0 (
    if viewOk (s.reg ra) then .done (s.seqSeen.upd (fun c => { c with views := c.views.set v (s.reg ra) })).next
    else .trap codeBounds (wordOfNat v.val))))

end Sys2Proof.Machine
end

