-- ==== Sys2Proof/Machine/Stream.lean ====
section
/-!
DEFINITION. Starting, stopping, joining and reading engine streams (R17, R92 to R95, R310, R323).
-/
namespace Sys2Proof.Machine

/-! ### What a restart does to regions and reductions (R124, R310) -/

/-- The outermost region of the vector stream is restored: deferred marks and held effects are dropped, saved lines put
back. -/
def Core.dropVecRegions (c : Core) : Core :=
  ((c.updVec (fun v => { v with regions := [] })).restoreLines (fun c => c.fullAs c.vec.marks) Core.vecMark
    (c.vec.regions.flatMap (·.saved))).updVec (fun v => { v with
    again := [], lostAt := none, struck := none, eng := { v.eng with releasing := false } })

def Core.dropXferRegions (c : Core) : Core :=
  if c.xfer.regions.isEmpty then c
  else ((c.updXfer (fun x => { x with regions := [] })).restoreLines (fun c => c.fullAs c.xfer.marks) (fun c n f => c.xferMark true n f)
    (c.xfer.regions.flatMap (·.saved))).updXfer (fun x => { x with
    again := [], ops := x.ops.filter (fun o => !o.inside),
    cur := x.cur.filter (fun o => !o.inside), eng := { x.eng with releasing := false } })

/-- A matrix stream started anew loses its open reduction and its spill; the registers keep their values (R124). -/
def MatEngine.dropReduction (m : MatEngine) : MatEngine :=
  match m.openRed with
  | none => { m with issues := none, begun := none, again := [], fault := none, atRet := false, spilled := false }
  | some _ => { m with reds := m.reds.dropLast, issues := none, begun := none, again := [], pert := none, fault := none, atRet := false, spilled := false }

/-- What is put in order before a stream starts. Tiles that a matrix stream with a pending report still holds are struck and are
never released (R119: log 18). -/
def Core.prepareStart (c : Core) : Eng → Core
  | .vec => c.dropVecRegions
  | .mat => (c.updMat (fun m => if m.eng.strike.isSome then { m with reds := m.openRed.toList } else m)).updMat MatEngine.dropReduction
  | .xfer => (c.dropXferRegions.updXfer (fun x => { x with cur := none, index := [] })).release

/-- The active trap no longer reports a stop that its stream still stands at (R300). -/
def Sequencer.stopOver (q : Sequencer) (e : Eng) : Sequencer := { q with stopHeld := q.stopHeld && decide (q.trapStop ≠ some e) }

/-- A stream in IDLE, ENDED or STOPPED starts at an entry; a strike report that was pending for it stops it at once, with the bits it was
delivered with (R311, R323). -/
def State.startEng (s : State) (e : Eng) (entry : BitVec 14) : State :=
  let struck := (s.core.eng e).strike
  let c1 := ((s.core.prepareStart e).updEng e (fun x => { x with
    st := .run, pc := wordOfNat (4 * entry.toNat), code := 0, stopReq := false, strike := none })).updSeq (·.stopOver e)
  let s1 : State := { s with core := c1 }
  match struck with
  | some bits => s1.stopEngine e 0 codeStrike (c1.eng e).pc false bits.mayCore bits.mayLeft
  | none => s1

/-- R92. -/
def execEngStart (e : Eng) (entry : BitVec 14) (s : State) : Out :=
  .next (s.issueSeq (if (s.core.eng e).st.live then .wait s else .done (s.startEng e entry).next))

/-- R93. -/
def execEngStop (e : Eng) (s : State) : Out :=
  .next (s.issueSeq (.done (if (s.core.eng e).st.live then (s.updEng e (fun x => { x with stopReq := true })).next
    else s.next)))

def EngState.code : EngState → Nat
  | .idle => 0
  | .run => 1
  | .wait _ _ => 2
  | .ended => 3
  | .stopped => 4

/-- The word `eng.stat` gives (R95). -/
def Engine.statWord (x : Engine) : Word :=
  wordOfNat (x.st.code +
    (match x.st with
      | .wait kind line => put 4 4 kind + put 8 11 (if kind = 1 ∨ kind = 2 ∨ kind = 9 ∨ kind = 6 then line else 0)
      | _ => 0) +
    (match x.st with
      | .stopped => put 32 16 x.code.toNat
      | _ => 0) +
    (match x.st with
      | .idle => 0
      | _ => put 48 16 (x.pc.toNat / 4)))

def execEngStat (rd : Reg) (e : Eng) (s : State) : Out :=
  .next (s.issueSeq (s.withRegs [] rd (.done (s.setReg rd (s.core.eng e).statWord).next)))

/-- R94. -/
def execEngJoin (e : Eng) (s : State) : Out :=
  .next (s.issueSeq (if (s.core.eng e).st.live then .wait s else .done s.next))

end Sys2Proof.Machine
end

