-- ==== Sys2Proof/Machine/Sync.lean ====
section
/-!
DEFINITION. Sync words as the sequencer uses them (R97 to R101), the crew barrier (R102), control and status registers (R103).
-/
namespace Sys2Proof.Machine

/-! ### Sync words -/

/-- The place of the sync word at an offset of a slot; none where R97 gives BOUNDS (a REVOKED binding counts as none: log 11). -/
def Core.syncPlace (c : Core) (h : Hnd) (off : Nat) : Option (Nat × PAddr) :=
  match c.seq.h[h] with
  | none => none
  | some b =>
    if b.revoked ∨ b.kind ≠ .window ∨ off % 16 ≠ 0 ∨ off + 16 > b.len then none
    else (b.place off).map (fun p => (b.base + off, p))

/-- A sequencer word whose data is lost: inside a region a rollback (R86, R293); outside it retires without its effect, and the trap of
R86 follows (log 13). -/
def State.lostWord (s : State) (va : Nat) : Issue :=
  if s.core.seq.regions.isEmpty || s.core.seq.releasing then .done (s.addCause (.dataLost (wordOfNat va) s.core.seq.pc)).next
  else .fault s.seqRollback

/-- The frame of a word that acts on a sync word. -/
def State.onSync (s : State) (h : Hnd) (off : Nat) (k : Nat → PAddr → Issue) : Issue :=
  match s.core.syncPlace h off with
  | none => .trap codeBounds s.openDetail
  | some (va, pa) => k va pa

/-- `sw.arm` writes target, count, code and flags, and leaves the generation (R98). -/
def State.arm (s : State) (va : Nat) (pa : PAddr) (target : Nat) : Issue :=
  match s.store (cellsAt pa (bytesOfNat 4 target ++ bytesOfNat 4 0) ++ cellsAt (pa.plus 12) (bytesOfNat 4 0)) with
  | (.ok, t) => .done (t.wrote .seq [pa]).next
  | (.lost, _) => s.lostWord va
  | (.badTag, _) => .halt codeIntegrity

def execSwArm (rd ra : Reg) (h : Hnd) (s : State) : Out :=
  let target := (s.reg rd).toNat % 2 ^ 32
  .next (s.issueSeq (s.noCinch (s.withRegs [rd, ra] 0 (s.onSync h (s.reg ra).toNat (fun va pa =>
    if target = 0 then .trap codeBounds s.openDetail
    else s.closeFirst (fun t => if t.storeReady then t.arm va pa target else .wait t))))))

/-- Read the sync word as one action, then go on. -/
def State.readSync (s : State) (va : Nat) (pa : PAddr) (k : Issue) : Issue :=
  match s.eccRead (placesFrom pa 16) with
  | .ok => k
  | .lost => s.lostWord va
  | .badTag => .halt codeIntegrity

/-- R99. -/
def execSwWait (rd ra : Reg) (h : Hnd) (s : State) : Out :=
  .next (s.issueSeq (s.withRegs [rd, ra] 0 (s.onSync h (s.reg ra).toNat (fun va pa => s.withRegs [] rd (s.readSync va pa (
    let gen := s.readNat (pa.plus 8) 4
    if gen ≠ (s.reg rd).toNat % 2 ^ 32 ∨ s.readNat (pa.plus 12) 2 ≠ 0 then .done (s.setReg rd (wordOfNat gen)).next
    else .wait s))))))

/-- One field of a sync word (R100). -/
def State.readField (s : State) (rd ra : Reg) (h : Hnd) (off : Nat) : State :=
  s.issueSeq (s.withRegs [ra] 0 (s.onSync h (s.reg ra).toNat (fun va pa => s.withRegs [] rd (s.readSync va pa (
    .done (s.setReg rd (wordOfNat (s.readNat (pa.plus off) 4))).next)))))

def execSwReadTarget (rd ra : Reg) (h : Hnd) (s : State) : Out := .next (s.readField rd ra h 0)
def execSwReadCount (rd ra : Reg) (h : Hnd) (s : State) : Out := .next (s.readField rd ra h 4)
def execSwReadGen (rd ra : Reg) (h : Hnd) (s : State) : Out := .next (s.readField rd ra h 8)
def execSwReadCode (rd ra : Reg) (h : Hnd) (s : State) : Out := .next (s.readField rd ra h 12)

/-! ### The crew barrier (R102) -/

/-- The cores of the focused core's crew. -/
def State.crewCores (s : State) : List Nat := match s.core.seat with
  | some x => (match s.crew x.crew with
    | some k => k.cores
    | none => [s.core.id])
  | none => [s.core.id]

/-- Whether every rank has arrived at its n-th barrier; one that has ended counts as arrived. -/
def State.allArrived (s : State) (n : Nat) : Bool :=
  s.crewCores.all (fun id => (s.coreOf id).seq.ended || decide ((s.coreOf id).seq.barMarked ≥ n))

def State.barrier (s : State) : Issue :=
  if s.storeReady then
    let n := s.core.seq.barDone + 1
    let t := s.updSeq (fun q => { q with barMarked := max q.barMarked n })
    if t.allArrived n then .done (t.updSeq (fun q => { q with barDone := n })).next else .wait t
  else .wait s

def execCrewBar (s : State) : Out := .next (s.issueSeq (s.noCinch (s.closeFirst State.barrier)))

/-! ### Control and status registers (R103) -/

/-- The deadline that a yield request grants a crew: its template's, or its context's default (R103, R269). -/
def State.grant (s : State) (k : Crew) : Nat :=
  if k.packet.ydl ≠ 0 then k.packet.ydl else match s.ctx k.ctx with
    | some c => c.ydl
    | none => 4096

/-- `YDL`: what is left of a deadline, or without a request the one that a request would grant. -/
def State.deadline (s : State) : Nat :=
  if s.core.seq.yreq then s.core.seq.ydl else match s.core.seat.bind (fun x => s.crew x.crew) with
    | some k => s.grant k
    | none => 0

/-- What `csr.read` gives. -/
def State.csr (s : State) (r : Csr) : Word :=
  let c := s.core
  let q := c.seq
  match r with
  | .tvec => q.tvec
  | .tcause => zext64 q.tcause
  | .taddr => q.taddr
  | .tpc => q.tpc
  | .clkmax => zext64 q.clkmax
  | .ceil => wordOfNat (s.group.ceiling % 2 ^ 16 + 2 ^ 32 * (s.group.agreement % 2 ^ 32))
  | .govstall => q.govstall
  | .yreq => boolWord q.yreq
  | .ydl => wordOfNat s.deadline
  | .menddepth => wordOfNat q.regions.length
  | .mendretry => q.mendretry
  | .coreId => wordOfNat c.num
  | .dieId => wordOfNat c.die.val
  | .crewSize => wordOfNat (match c.seat with
    | some x => x.size
    | none => 0)
  | .crewRank => wordOfNat (match c.seat with
    | some x => x.rank
    | none => 0)
  | .ctxId => wordOfNat c.ctxNum
  | .encv => wordOfNat c.res.encv
  | .flags => zext64 q.flags

/-- Bits [1:0] cleared. -/
def clearLow (w : Word) : Word := w &&& ~~~(3 : Word)

/-- A write of a control register; one that is read alone keeps its value. -/
def Sequencer.setCsr (q : Sequencer) (r : Csr) (w : Word) : Sequencer :=
  match r with
  | .tvec => { q with tvec := clearLow w }
  | .tcause => { q with tcause := w.setWidth 16 }
  | .taddr => { q with taddr := w }
  | .tpc => { q with tpc := clearLow w }
  | .clkmax => { q with clkmax := if (w.setWidth 32 : BitVec 32).toNat < 20 then 20 else w.setWidth 32 }
  | .govstall => { q with govstall := w }
  | .mendretry => { q with mendretry := w }
  | .flags => { q with flags := w.setWidth 5 }
  | _ => q

def State.setCsr (s : State) (r : Csr) (w : Word) : State := s.updSeq (·.setCsr r w)

def execCsrRead (rd : Reg) (csr : Csr) (s : State) : Out := .next (s.compute [] rd (s.csr csr))

def execCsrWrite (ra : Reg) (csr : Csr) (s : State) : Out :=
  .next (s.issueSeq (
    if csr.writable then s.withRegs [ra] 0 (.done (s.setCsr csr (s.reg ra)).next) else .trap codeIllegal 0))

def execCsrSwap (rd ra : Reg) (csr : Csr) (s : State) : Out :=
  .next (s.issueSeq (
    if csr.writable then s.withRegs [ra] rd (.done ((s.setCsr csr (s.reg ra)).setReg rd (s.csr csr)).next)
    else .trap codeIllegal 0))

end Sys2Proof.Machine
end

