-- ==== Sys2Proof/Machine/Mend.lean ====
section
/-!
DEFINITION. The sequencer's mend words (R289, R290, R292), `trap` and `tret` (R298, R299), `inj.strike` and injected reports
(R294), the asynchronous trap entry (R296).
-/
namespace Sys2Proof.Machine

/-- R289. -/
def State.openSeqRegion (s : State) : State :=
  (s.updSeq (fun q => { q with regions :=
    { pc := q.pc, seq := s.core.issue, snap := q.g, mask := 0, saved := [], held := [], charge := 0,
      retries := againCount q.again q.regions.length q.pc } :: q.regions })).upd Core.bump

/-- R289. R58 lists a fifth nested `mend.open` among the words that are ILLEGAL at issue; the model follows R289 and R304, which R58
cites for it, and gives MENDFULL (log 24). -/
def execMendOpen (s : State) : Out :=
  .next (s.issueSeq (
    if s.core.seq.regions.length ≥ 4 then .trap codeMendFull s.openDetail
    else if !s.core.seq.lq.isEmpty then .wait s
    else .done s.openSeqRegion.next))

/-- The bytes a `mend.save` names (R290); none where it gives BOUNDS. -/
def Core.saveBytes (c : Core) (h : Hnd) (off len : Nat) : Option PAddr :=
  match c.seq.h[h] with
  | none => none
  | some b =>
    if b.revoked ∨ b.kind ≠ .window ∨ len = 0 ∨ off + len > b.len then none
    else match b.place off with
      | some p => if p.addr / 2 ^ 22 = c.id then some p else none
      | none => none

/-- R290. Lost bytes roll the region back, as a lost load does (log 13). -/
def State.saveRange (s : State) (p : PAddr) (len : Nat) : Issue :=
  match s.core.seq.regions with
  | [] => .trap codeIllegal 0
  | r :: t =>
    if !s.core.roomFor (roundUp 64 len) 0 then .trap codeMendFull s.openDetail
    else if !s.core.seq.sq.isEmpty then .wait s
    else match s.eccRead (placesFrom p len) with
      | .ok => .done (s.updSeq (fun q => { q with regions :=
          { r with saved := ⟨p, s.readBytes (placesFrom p len), false⟩ :: r.saved, charge := r.charge + roundUp 64 len } :: t })).next
      | .lost => if s.core.seq.releasing then .trap codeDataLost s.openDetail else .fault s.seqRollback
      | .badTag => .halt codeIntegrity

def execMendSave (rd ra : Reg) (h : Hnd) (s : State) : Out :=
  .next (s.issueSeq (
    if s.core.seq.regions.isEmpty then .trap codeIllegal 0
    else s.withRegs [rd, ra] 0 (match s.core.saveBytes h (s.reg ra).toNat (s.reg rd).toNat with
      | none => .trap codeBounds s.openDetail
      | some p => s.saveRange p (s.reg rd).toNat)))

/-- R292. -/
def State.closeOne (s : State) : Issue :=
  match s.core.seq.regions with
  | [] => .trap codeIllegal 0
  | [r] =>
    if s.seqCloseReady || s.releaseGoes then match s.closeOuter r with
      | .closed t => .done t.next
      | .waiting t => .wait t
    else .wait s
  | _ => if s.seqCloseReady then .done (s.updSeq Sequencer.closeInner).next else .wait s

def execMendClose (s : State) : Out := .next (s.issueSeq s.closeOne)

/-- R298. -/
def execTrap (imm : BitVec 16) (s : State) : Out :=
  .next (s.issueSeq (if imm.toNat < 0x8000 then .trap codeIllegal 0 else .program imm))

/-- A stopped stream returns to RUN at the pc of its stop record; a report that waited for this is applied (R299, R310). -/
def State.resumeEng (s : State) (e : Eng) : State :=
  let struck := (s.core.eng e).strike
  let s1 := (s.updEng e (fun x => { x with st := .run, code := 0, strike := none })).updMat (fun m =>
    if e = .mat then { m with spilled := false } else m)
  match struck with
  | some bits => s1.strikeRunning e bits
  | none => s1

/-- R299. The rollbacks kept at the trap's entry count again (R308). -/
def State.trapReturn (s : State) : State :=
  let q := s.core.seq
  let s1 := s.updSeq (fun q => { q with pc := q.tpc, tactive := false, trapStop := none, stopHeld := false, again := q.kept, kept := [] })
  match q.trapStop with
  | some e => if q.taddr = wordOfNat e.code ∧ (s.core.eng e).st = .stopped then s1.resumeEng e else s1
  | none => s1

def execTret (s : State) : Out :=
  .next (s.issueSeq (if s.core.seq.tactive then .done s.trapReturn else .trap codeIllegal 0))

def State.debugAllowed (s : State) : Bool := match s.ctx s.core.ctxNum with
  | some c => c.debug
  | none => false

/-- R294. -/
def execInjStrike (st : StreamId) (imm : BitVec 16) (s : State) : Out :=
  .next (s.issueSeq (
    if !s.debugAllowed then .trap codeIllegal 0
    else if s.core.injected.any (fun r => decide (r.stream = st)) then .wait s
    else .done (s.upd (fun c => { c with injected := c.injected ++ [⟨st, s.now + max 1 imm.toNat⟩] })).next))

/-- An injected report is delivered once its delay has passed (R294). -/
def State.injectedDue (s : State) (st : StreamId) : State :=
  match s.core.injected.find? (fun r => decide (r.stream = st)) with
  | some r =>
    if r.due ≤ s.now ∧ s.takesReport st then
      (s.upd (fun c => { c with injected := c.injected.filter (fun x => decide (x.stream ≠ st)) })).strike st
    else s
  | none => s

def execInjectedStrikeDue (core : Nat) (st : StreamId) (s : State) : Out :=
  .next (s.onCore core (fun s => s.injectedDue st))

/-- A waiting sequencer takes a pending asynchronous trap at once; one that is not waiting takes it at its next turn, which
comes now (R19, R296). DESIGN CHOICE: one that is held at a translation fault, where R85 and R217 know a boundary for pre-emption alone, takes
none before `resolve` ends the hold (log 24). -/
def State.trapNow (s : State) : State :=
  if !s.mayIssue .seq || !s.core.seq.asyncReady then s
  else if s.core.seq.wait then s.takeAsync
  else { s with sched := ⟨1, 0, [], .stream s.core.id .seq⟩ :: s.sched }

def execTrapEntry (core : Nat) (s : State) : Out := .next (s.onCore core State.trapNow)

end Sys2Proof.Machine
end

