-- ==== Sys2Proof/Machine/Billet.lean ====
section
/-!
DEFINITION. The billet words (R258 to R261), `wq.push` (R267) and `yield` (R270). Assumption log 5: which claimable row a claim
takes.
-/
namespace Sys2Proof.Machine

/-- The binding of the billet table, with the harness (R258); none where the slot gives BOUNDS. -/
def State.tableBinding (s : State) (h : Hnd) : Option (Binding × Harness) :=
  match s.core.seq.h[h], (s.ctx s.core.ctxNum).bind (·.harness) with
  | some b, some k => if b.revoked ∨ b.kind ≠ .hbm ∨ b.base ≠ k.table then none else some (b, k)
  | _, _ => none

/-- The place of a row's first byte; none where the row gives BOUNDS. -/
def rowPlace (b : Binding) (k : Harness) (row : Nat) : Option PAddr :=
  if row < k.rows ∧ 128 * row + 128 ≤ b.len then b.place (128 * row) else none

def claimPhase (p : Nat) : Bool := decide (p ≤ 47) || decide (p = 62) || decide (p = 63)
def advPhase (p : Nat) : Bool := decide (p ≤ 47) || decide (p = 62)
def postPhase (p : Nat) : Bool := decide (1 ≤ p) && decide (p ≤ 47)

/-- The rows of the table that the binding covers, with their places. DESIGN CHOICE: rows beyond a binding shorter than the table are not
claimed, and raise nothing in a claim (log 5). -/
def tableRows (b : Binding) (k : Harness) : List (Nat × PAddr) :=
  (List.range (min k.rows (b.len / 128))).filterMap (fun r => (b.place (128 * r)).map (fun p => (r, p)))

/-- Whether a row can be claimed: its control word is readable, in phase p and not busy. -/
def State.claimable (s : State) (p : Nat) (pa : PAddr) : Bool :=
  decide (s.eccRead (placesFrom pa 8) = .ok) && decide (rowPhase (s.readNat pa 8) = p) && !rowBusy (s.readNat pa 8)

/-- The claim (R259). A control word that cannot be read counts only where no row can be claimed (log 5). -/
def State.claim (s : State) (rd : Reg) (b : Binding) (k : Harness) (p : Nat) : Issue :=
  let rows := tableRows b k
  let l := rows.filter (fun r => s.claimable p r.2)
  match l[Config.claimChoice s.choices % l.length]? with
  | some (q, pa) =>
    let w := s.readNat pa 8
    let t := (({ s with choices := s.choices + 1 } : State).store
      (cellsAt pa (bytesOfNat 8 (rowWord (rowSeq w + 1) true p)))).2
    .done ((t.wrote .seq [pa]).setReg rd (wordOfNat q)).next
  | none =>
    if rows.any (fun r => decide (s.eccRead (placesFrom r.2 8) = .badTag)) then .halt codeIntegrity
    else match rows.find? (fun r => decide (s.eccRead (placesFrom r.2 8) = .lost)) with
      | some (q, _) => s.lostWord (k.table + 128 * q)
      | none => .done (s.setReg rd (wordOfNat (2 ^ 64 - 1))).next

def execBilClaim (rd ra : Reg) (h : Hnd) (s : State) : Out :=
  let p := (s.reg ra).toNat
  .next (s.issueSeq (s.noCinch (s.withRegs [ra] 0 (match s.tableBinding h with
    | none => .trap codeBounds (wordOfNat h.val)
    | some (b, k) =>
      if !claimPhase p then .trap codeBounds (wordOfNat p)
      else s.withRegs [] rd (s.closeFirst (fun t => if t.fenced then t.claim rd b k p else .wait (t.placeMarker true)))))))

/-- The checks of `bil.adv` and `bil.post`, then the store. -/
def State.storeBillet (s : State) (rd ra : Reg) (h : Hnd) (ok : Nat → Bool) (mk : Nat → Nat → PAddr → StoreKind) : Issue :=
  let p := (s.reg rd).toNat
  let row := (s.reg ra).toNat
  s.withRegs [rd, ra] 0 (match s.tableBinding h with
    | none => .trap codeBounds (wordOfNat h.val)
    | some (b, k) => match rowPlace b k row with
      | none => .trap codeBounds (wordOfNat row)
      | some pa =>
        if !ok p then .trap codeBounds (wordOfNat p) else s.storeRow (k.table + 128 * row) (mk row p pa) [b.id])

def execBilAdv (rd ra : Reg) (h : Hnd) (s : State) : Out := .next (s.issueSeq (s.storeBillet rd ra h advPhase StoreKind.adv))

def execBilPost (rd ra : Reg) (h : Hnd) (s : State) : Out :=
  .next (s.issueSeq (s.noCinch (s.storeBillet rd ra h postPhase StoreKind.post)))

/-! ### wq.push (R267) -/

/-- Whether 128 bytes at va lie in the issuing core's own local store. -/
def Core.ownBlock (c : Core) (va : Nat) : Bool :=
  decide (va % 8 = 0) && isWindow va && decide (windowCore (some c.id) va = some c.id) &&
  decide (bitsOf va 21 0 + 128 ≤ 2 ^ 22)

/-- Whether a core belongs to the partition of the focused core's context. -/
def State.inPartition (s : State) (target : Nat) : Bool :=
  match (s.ctx s.core.ctxNum).bind (fun c => s.part c.part) with
  | some p => p.quads.contains (packageQuad target)
  | none => false

def execWqPush (ra rb : Reg) (s : State) : Out :=
  let va := (s.reg ra).toNat
  let target := (s.reg rb).toNat
  .next (s.issueSeq (s.noCinch (s.withRegs [ra, rb] 0 (
    if !s.core.ownBlock va then .trap codeBounds (wordOfNat va)
    else if !coreExists target ∨ !s.inPartition target then .trap codeBounds (wordOfNat target)
    else s.translated va 128 false accLoad (fun _ _ =>
      if !s.core.seq.regions.isEmpty then s.hold (.push va target)
      else if s.pushReady target then .done (s.push va target).next
      else .wait s)))))

/-! ### yield (R270) -/

/-- Once every rank of a crew has yielded or ended, its cooperative pre-emption begins. -/
def State.checkYield (s : State) (crew : Nat) : State :=
  match s.crew crew with
  | none => s
  | some k =>
    if k.state = .running ∧ k.cores.all (fun id => (s.coreOf id).seq.yielded || (s.coreOf id).seq.ended) ∧
        k.cores.any (fun id => (s.coreOf id).seq.yielded) then
      s.updCrew crew (fun k => { k with state := .stopping false })
    else s

/-- Without a request `yield` has no effect. With one, it closes every region, also where the request is withdrawn meanwhile; then a rank that
has not yielded does so, and waits, unless no request stands any more. A request that is withdrawn later lets the waiting ranks go on itself
(Crew.lean). -/
def State.yieldNow (s : State) : Issue :=
  if s.core.seq.yreq || s.core.seq.wait then
    s.closeFirst (fun t =>
      if t.core.seq.yreq then .wait ((t.updSeq (fun q => { q with yielded := true, atYield := true })).checkYield t.core.crewNum)
      else .done t.next)
  else .done s.next

def execYield (s : State) : Out := .next (s.issueSeq (s.noCinch s.yieldNow))

end Sys2Proof.Machine
end

