-- ==== Sys2Proof/Machine/Branch.lean ====
section
/-!
DEFINITION. Branches, jumps and `nop` (R81, R104, R43).
-/
namespace Sys2Proof.Machine

/-- A branch: the target is the word at the offset from this one (R43, R53). -/
def State.branch (s : State) (ra rb : Reg) (off : BitVec 16) (c : Word → Word → Bool) : State :=
  let pc := s.core.seq.pc
  s.issueSeq (s.withRegs [ra, rb] 0 (.done (s.updSeq (fun q => { q with
    pc := if c (s.reg ra) (s.reg rb) then branchTarget s.core.res.encv pc (sext64 off) else pc + 4 }))))

def execBeq (ra rb : Reg) (off : BitVec 16) (s : State) : Out := .next (s.branch ra rb off (fun x y => decide (x = y)))
def execBne (ra rb : Reg) (off : BitVec 16) (s : State) : Out := .next (s.branch ra rb off (fun x y => decide (x ≠ y)))

def execBlt (ra rb : Reg) (off : BitVec 16) (s : State) : Out :=
  .next (s.branch ra rb off (fun x y => decide (x.toInt < y.toInt)))

def execBge (ra rb : Reg) (off : BitVec 16) (s : State) : Out :=
  .next (s.branch ra rb off (fun x y => decide (x.toInt ≥ y.toInt)))

def execBltn (ra rb : Reg) (off : BitVec 16) (s : State) : Out :=
  .next (s.branch ra rb off (fun x y => decide (x.toNat < y.toNat)))

def execBgen (ra rb : Reg) (off : BitVec 16) (s : State) : Out :=
  .next (s.branch ra rb off (fun x y => decide (x.toNat ≥ y.toNat)))

def execJal (rd : Reg) (off : BitVec 21) (s : State) : Out :=
  let pc := s.core.seq.pc
  .next (s.issueSeq (s.withRegs [] rd (.done ((s.setReg rd (pc + 4)).updSeq (fun q => { q with
    pc := branchTarget s.core.res.encv pc (sext64 off) })))))

/-- The target is computed from ga before gd is written; one that is no multiple of 4 is ILLEGAL. -/
def execJalr (rd ra : Reg) (imm : BitVec 16) (s : State) : Out :=
  let pc := s.core.seq.pc
  let target := s.reg ra + sext64 imm
  .next (s.issueSeq (s.withRegs [ra] 0 (
    if target.toNat % 4 ≠ 0 then .trap codeIllegal 0
    else s.withRegs [] rd (.done ((s.setReg rd (pc + 4)).updSeq (fun q => { q with pc := target }))))))

/-- R104. -/
def execNop (s : State) : Out := .next (s.issueSeq (.done s.next))

end Sys2Proof.Machine
end

