-- ==== Sys2Proof/Machine/Matrix.lean ====
section
/-!
DEFINITION. The matrix engine (R10, R11, R61 to R63, R71, R72, R105 to R129). A k-step takes effect in one action, once its array
cycles fit the issue budget.
-/
namespace Sys2Proof.Machine

/-! ### Segment records (R10, R11, R110) -/

def segCount (v : BitVec 512) : Nat := bitsOf v.toNat 7 0
def segMode (v : BitVec 512) : Nat := bitsOf v.toNat 15 8
def segFill (v : BitVec 512) : Nat := bitsOf v.toNat 63 32

/-- Start and length of entry i. -/
def segEntry (v : BitVec 512) (i : Nat) : Nat × Nat :=
  (bitsOf v.toNat (64 + 16 * i + 7) (64 + 16 * i), bitsOf v.toNat (64 + 16 * i + 15) (64 + 16 * i + 8))

def segEntries (v : BitVec 512) : List (Nat × Nat) := (List.range (segCount v)).map (segEntry v)

/-- Entries in ascending order that do not overlap. -/
def segAscending : List (Nat × Nat) → Bool
  | a :: b :: t => decide (a.1 + a.2 ≤ b.1) && segAscending (b :: t)
  | _ => true

/-- Whether a record is well-formed (R10). -/
def segOk (v : BitVec 512) : Bool :=
  decide (segCount v ≤ 16) && decide (segMode v ≤ 1) && decide (bitsOf v.toNat 31 16 = 0) && decide (bitsOf v.toNat 511 320 = 0) &&
  (segEntries v).all (fun e => decide (e.2 ≠ 0) && decide (e.1 + e.2 ≤ 64)) && segAscending (segEntries v)

/-- Whether a row lies in some entry. -/
def rowIn (v : BitVec 512) (r : Nat) : Bool := (segEntries v).any (fun e => decide (e.1 ≤ r) && decide (r < e.1 + e.2))

/-- Whether an element is in segment. -/
def inSegment (v : BitVec 512) (r n : Nat) : Bool :=
  (segEntries v).any (fun e => decide (e.1 ≤ r) && decide (r < e.1 + e.2) &&
    (decide (segMode v = 0) || (decide (e.1 ≤ n) && decide (n < e.1 + e.2))))

/-- The lines that hold at least one row in a segment, for rows of `rb` bytes from a line (R11). -/
def segLines (v : BitVec 512) (line rb : Nat) : List Nat :=
  dedup (((List.range 64).filter (rowIn v)).flatMap (fun r => rangeFrom (line + r * rb / 64) (ceilDiv rb 64)))

/-! ### B blocks (R114 to R116) -/

/-- The kinds of accumulate word. -/
inductive BKind where
  | tern
  | int8 (planes : Nat)
  | sparseTern
  | sparseInt8 (planes : Nat)
  deriving DecidableEq, Repr

/-- Weight-buffer rows of a block, array cycles of a k-step (R113). -/
def BKind.rows : BKind → Nat
  | .tern => 2
  | .int8 _ => 8
  | .sparseTern => 2
  | .sparseInt8 _ => 5

def BKind.cycles : BKind → Nat
  | .tern => 4
  | .int8 p => 4 * p
  | .sparseTern => 2
  | .sparseInt8 p => 2 * p

/-- Whether a kind is that of the open mode (R106). -/
def BKind.fits : BKind → MatMode → Bool
  | .tern, .tern => true
  | .int8 _, .int8 => true
  | .sparseTern, .sparse => true
  | .sparseInt8 _, .sparse => true
  | _, _ => false

/-- Byte b of the weight buffer from a row on. -/
def Core.wbByte (c : Core) (row b : Nat) : Nat := (c.wbRow (row + b / 256)).toNat / 2 ^ (8 * (b % 256)) % 256

/-- Digit i of the non-adjacent form of x, with the plane-limited sum: planes from i upward (R115). -/
def nafSum : (planes i : Nat) → Int → Int
  | 0, _, _ => 0
  | n + 1, i, x =>
    let d : Int := if x % 2 = 0 then 0 else 2 - x % 4
    d * 2 ^ i + nafSum n (i + 1) ((x - d) / 2)

/-- The plane-limited value of an I8 weight. -/
def planeValue (planes b : Nat) : Int := nafSum planes 0 (sextNat 8 b)

/-- The trit of column n in K row j of T5P rows of 13 bytes; a reserved byte never gets here. -/
def tritAt (c : Core) (row j n : Nat) : Int := ((trits (c.wbByte row (13 * j + n / 5))).getD []).getD (n % 5) 0

/-- The metadata nibble of group g and column n (R116). -/
def nibbleAt (c : Core) (row meta_ g n : Nat) : Nat :=
  let b := c.wbByte row (meta_ + 32 * g + n / 2)
  if n % 2 = 0 then b % 16 else b / 16

def nibbleOk (x : Nat) : Bool := decide (x % 4 < x / 4 % 4)

/-- w of K row j from the kept values of a 2:4 block. -/
def sparseWeight (nib : Nat) (j : Nat) (kept : Nat → Int) : Int :=
  let g := j / 4
  if j % 4 = nib % 4 then kept (2 * g) else if j % 4 = nib / 4 % 4 then kept (2 * g + 1) else 0

/-- w(j, n) of a block. -/
def Core.weight (c : Core) (k : BKind) (row j n : Nat) : Int := match k with
  | .tern => tritAt c row j n
  | .int8 p => planeValue p (c.wbByte row (64 * j + n))
  | .sparseTern => sparseWeight (nibbleAt c row 256 (j / 4) n) j (fun q => tritAt c row q n)
  | .sparseInt8 p => sparseWeight (nibbleAt c row 1024 (j / 4) n) j (fun q => planeValue p (c.wbByte row (64 * q + n)))

/-- The first fault of decoding a block (R117 step 4): every byte that is read counts, whatever the segments. -/
def Core.blockFault (c : Core) (k : BKind) (row : Nat) : Option Code :=
  let badTrit := fun n => (List.range n).any (fun b => decide (c.wbByte row b > 242))
  let badMeta := fun m => (List.range 8).any (fun g => (List.range 64).any (fun n => !nibbleOk (nibbleAt c row m g n)))
  match k with
  | .tern => if badTrit 416 then some codeBadTrit else none
  | .int8 _ => none
  | .sparseTern => if badTrit 208 then some codeBadTrit else if badMeta 256 then some codeSpmeta else none
  | .sparseInt8 _ => if badMeta 1024 then some codeSpmeta else none

/-! ### Reading the tree (R29, R120) -/

/-- Lines that held slots will write. -/
def MatEngine.heldLines (m : MatEngine) : List Nat := m.reds.flatMap (fun r => match r.tile with
  | some t => t.lines.map (·.1)
  | none => [])

/-- The waits and faults of a matrix read, none where it may go on. A line that a held slot will write is waited for before its bit
is tested, and a lost line is found once every bit is (log 24). -/
def State.matTest (s : State) (lines : List Nat) (w : Bool) : Option EngIssue :=
  match lines.find? (fun n => s.core.mat.heldLines.contains n) with
  | some n => some (.wait 6 n s)
  | none => match lines.find? (fun n => !(s.core.line n).full) with
    | some n => some (if w then .wait 1 n s else .stop codeEmptyRead (some (wordOfNat n)))
    | none => (lines.find? (fun n => s.core.treeLost.contains n)).map (fun n => .stop codeDataLost (some (wordOfNat n)))

/-- A consuming read: deferred to the release of the youngest unreleased reduction (R120). -/
def Core.matConsume (c : Core) (lines : List Nat) : Core :=
  if c.mat.reds.isEmpty then lines.foldl (fun c n => c.setFull n false) c
  else c.updMat (fun m => { m with reds := mapLast (fun r => { r with marks := r.marks ++ lines }) m.reds })

def Core.matRead (c : Core) (p : Placed) (lines : List Nat) : Core := if p.consume then c.matConsume lines else c

/-- Place a tree operand of the matrix engine. -/
def State.matPlace (s : State) (t : TreeOp) (n kind : Nat) : Option Placed := s.core.place s.core.mat.eng.k t n [kind]

/-- BOUNDS of a matrix word whose operands R27 refuses. -/
def State.matMisplaced (s : State) (ops : List (TreeOp × Nat)) (kind : Nat) : EngIssue :=
  .stop codeBounds (s.core.badPlace s.core.mat.eng.k [kind] ops)

/-- Whether the state words of R106 are legal: no reduction is open, or the open one has no progress. -/
def MatEngine.fresh (m : MatEngine) : Bool := match m.openRed with
  | some r => decide (r.p = 0)
  | none => true

/-- A matrix instruction whose effect is on the core. -/
def State.matDone (s : State) (c : Core) : EngIssue := .done (({ s with core := c } : State).engNext .mat)

/-! ### Opening and preparing (R107 to R112, R121) -/

/-- The begin snapshot is taken and the reduction opens. -/
def MatEngine.begin_ (m : MatEngine) (mode : MatMode) (n : Nat) : MatEngine :=
  { m with
    again := []
    reds := m.reds ++ [{ snap := ⟨m.eng.pc, m.acc, m.eng.k, m.base, m.seg, m.rows, m.cols, m.pert⟩, mode := mode, n := n, p := 0,
                         marks := [], mask := 0,
                         retries := if m.reds.isEmpty then againCount m.again 0 m.eng.pc else 0, tile := none }] }

def execMBegin (mode : MatMode) (n : BitVec 11) (s : State) : Out :=
  .next (s.issueMat (if s.core.mat.openRed.isSome then .stop codeIllegal
    else .done ((s.updMat (fun m => m.begin_ mode n.toNat)).engNext .mat)))

def execMZero (s : State) : Out :=
  .next (s.issueMat (if !s.core.mat.fresh then .stop codeIllegal
    else .done ((s.updMat (fun m => { m with acc := [] })).engNext .mat)))

/-- The accumulators rebuilt, element by element. -/
def accOf (f : Nat → Nat → Int) : List (Nat × Int) :=
  (List.range 4096).filterMap (fun i => if f (i / 64) (i % 64) = 0 then none else some (i, f (i / 64) (i % 64)))

def MatEngine.at_ (m : MatEngine) (r n : Nat) : Int := sparseGet 0 m.acc (64 * r + n)

/-- The 4-byte word (r, n) of a tile of 256-byte rows. -/
def Core.tileWord (c : Core) (line r n : Nat) : Nat := c.treeNat (64 * line + 256 * r + 4 * n) 4

def execMLdacc (t : TreeOp) (w : Bool) (s : State) : Out :=
  let m := s.core.mat
  .next (s.issueMat (if !m.fresh then .stop codeIllegal
    else match s.matPlace t 256 kindVec with
    | none => s.matMisplaced [(t, 256)] kindVec
    | some p =>
      let lines := segLines m.seg p.line 256
      match s.matTest lines w with
      | some r => r
      | none => s.matDone ((s.core.matRead p lines).updMat (fun m => { m with
          acc := accOf (fun r n => if rowIn m.seg r then sextNat 32 (s.core.tileWord p.line r n) else m.at_ r n) }))))

/-- The record is checked before anything changes (R10). -/
def execMSeg (t : TreeOp) (w : Bool) (s : State) : Out :=
  .next (s.issueMat (if !s.core.mat.fresh then .stop codeIllegal
    else match s.matPlace t 1 kindVec with
    | none => s.matMisplaced [(t, 1)] kindVec
    | some p => match s.matTest [p.line] w with
      | some r => r
      | none =>
        let v := (s.core.line p.line).data
        if !segOk v then .stop codeBounds
        else s.matDone ((s.core.matRead p [p.line]).updMat (fun m => { m with seg := v }))))

/-- Whether a scale line holds a code with bit 7 set (R65). -/
def scaleInv (v : BitVec 512) : Bool := (List.range 64).any (fun i => v.toNat.testBit (8 * i + 7))

def execMScale (a b : TreeOp) (w : Bool) (s : State) : Out :=
  .next (s.issueMat (match s.matPlace a 1 kindVec, s.matPlace b 1 kindVec with
    | some pa, some pb => match s.matTest [pa.line, pb.line] w with
      | some r => r
      | none =>
        let x := (s.core.line pa.line).data
        let y := (s.core.line pb.line).data
        s.matDone ((((s.core.matRead pa [pa.line]).matRead pb [pb.line]).updMat (fun m => { m with rows := x, cols := y })).matFlags
          (flagIf (scaleInv x || scaleInv y) flagScaleInv))
    | _, _ => s.matMisplaced [(a, 1), (b, 1)] kindVec))

def execMWbase (row : BitVec 12) (s : State) : Out :=
  .next (s.issueMat (.done ((s.updMat (fun m => { m with base := row.toNat })).engNext .mat)))

def execMPert (row col : BitVec 6) (j : KIx) (s : State) : Out :=
  .next (s.issueMat (.done ((s.updMat (fun m => { m with
    pert := some ⟨row.toNat, col.toNat, (m.eng.k[j]).val.toInt⟩ })).engNext .mat)))

/-! ### Accumulating (R61, R113, R117, R128) -/

/-- The bound of I48 (R61). -/
def accAdd (a x : Int) : Int := satInt 48 (a + x)

/-- What one k-step adds to an element. -/
def State.stepSum (s : State) (k : BKind) (line row p r n : Nat) : Int :=
  let c := s.core
  let dot := ((List.range 32).map (fun j =>
    sextNat 8 (c.treeNat (64 * line + 32 * r + j) 1) * c.weight k row j n)).foldl (· + ·) 0
  match c.mat.pert with
  | some q => if p = 0 ∧ q.row = r ∧ q.col = n then dot + q.val else dot
  | none => dot

/-- The accumulators after a k-step, and whether an element met the bound. -/
def State.kstep (s : State) (k : BKind) (line row p : Nat) : List (Nat × Int) × Bool :=
  let m := s.core.mat
  let sums := (List.range 4096).map (fun i =>
    if inSegment m.seg (i / 64) (i % 64) then s.stepSum k line row p (i / 64) (i % 64) else 0)
  let vals := ((List.range 4096).zip sums).map (fun x => (x.1, sparseGet 0 m.acc x.1, x.2))
  (vals.filterMap (fun v => if accAdd v.2.1 v.2.2 = 0 then none else some (v.1, accAdd v.2.1 v.2.2)),
   vals.any (fun v => decide (accAdd v.2.1 v.2.2 ≠ v.2.1 + v.2.2)))

/-- The effect of a k-step: consume marks, accumulators, progress, SATACC; `v` is the machine as the k-step reads it. -/
def State.doStep (s v : State) (k : BKind) (pa : Placed) (lines : List Nat) (row : Nat) (r : Reduction) : EngIssue :=
  let a := v.kstep k pa.line row r.p
  let c := (s.core.matRead pa lines).updMat (fun m => { m with
    acc := a.1, issues := none, begun := none, reds := mapLast (fun r => { r with p := r.p + 1 }) m.reds })
  s.matDone (c.matFlags (flagIf a.2 flagSatAcc))

/-- Spend array cycles of the window's budget (R128): what is still due, and the engine after. -/
def MatEngine.spend (m : MatEngine) (due : Nat) : Nat × MatEngine :=
  let n := Nat.min due (m.budget - m.spent)
  (due - n, { m with spent := m.spent + n, issues := some (due - n) })

/-- What the checks of an accumulate word answer up to the full/empty test: a wait or a fault, or its A operand with its lines, the first row
of its block and the open reduction. -/
inductive AccTest where
  | no (e : EngIssue)
  | go (pa : Placed) (lines : List Nat) (b : Nat) (r : Reduction)

/-- The checks of an accumulate word that come before it reads anything of its block (R117). -/
def State.accTest (s : State) (t : TreeOp) (row : BitVec 12) (k : BKind) (w : Bool) : AccTest :=
  let m := s.core.mat
  let b := m.base + row.toNat
  match m.openRed with
    | none => .no (.stop codeIllegal)
    | some r =>
      if !k.fits r.mode ∨ r.p ≥ r.n then .no (.stop codeIllegal)
      else match s.matPlace t 32 kindTile with
      | none => .no (s.matMisplaced [(t, 32)] kindTile)
      | some pa =>
        if b + k.rows - 1 ≥ s.core.res.wb then .no (.stop codeBounds)
        else
          let lines := segLines m.seg pa.line 32
          match s.matTest lines w with
          | some e => .no e
          | none => .go pa lines b r

/-- The core as the k-step at issue reads it: what it has read before stands as it was then (R127). -/
def Core.asRead (c : Core) : Core := match c.mat.begun with
  | none => c
  | some g =>
    let c1 := g.lines.foldl (fun (c : Core) x => (c.setLine x.1 ⟨x.2, true⟩).healLine x.1) c
    g.rows.foldl (fun (c : Core) x => { c.setWbRow x.1 x.2 with wbLost := c.wbLost.filter (fun n => decide (n ≠ x.1)) }) c1

/-- The machine as the k-step at issue reads it. -/
def State.asRead (s : State) : State := s.upd Core.asRead

/-- A wait leaves the state as it is, whatever has been read. -/
def EngIssue.waitingIn (s : State) : EngIssue → EngIssue
  | .wait k n _ => .wait k n s
  | e => e

/-- An accumulate word (R117). R117 does not place DATA_LOST among its checks: the model finds it between the full/empty test and the
decoding of the block (log 24). -/
def State.accumulate (s : State) (t : TreeOp) (row : BitVec 12) (k : BKind) (w : Bool) : State :=
  let m := s.core.mat
  let v := s.asRead
  s.issueMat (match v.accTest t row k w with
    | .no e => e.waitingIn s
    | .go pa lines b r =>
      if (rangeFrom b k.rows).any (fun n => v.core.wbLost.contains n) then .stop codeDataLost
      else match v.core.blockFault k b with
      | some code => .stop code
      | none =>
        let x := m.spend (m.issues.getD k.cycles)
        let u := s.updMat (fun _ => x.2)
        if x.1 = 0 then u.doStep v k pa lines b r else .wait 5 0 u)

/-- The operands of an accumulate word. -/
structure AccWord where
  t   : TreeOp
  row : BitVec 12
  k   : BKind
  w   : Bool

def accWord : Instr → Option AccWord
  | .mAcc t row w => some ⟨t, row, .tern, w⟩
  | .mAcc8 t row p w => some ⟨t, row, .int8 (p.val + 1), w⟩
  | .mAccsTern t row w => some ⟨t, row, .sparseTern, w⟩
  | .mAccsInt8 t row p w => some ⟨t, row, .sparseInt8 (p.val + 1), w⟩
  | _ => none

/-- The k-step i at issue reads a weight-buffer row before the others; with the first of them it has read its A operand (R127: log 3). -/
def State.readRow (s : State) (i : Instr) (r : Nat) : State :=
  match accWord i with
  | none => s
  | some a => match s.asRead.accTest a.t a.row a.k a.w with
    | .no _ => s
    | .go _ lines b _ =>
      let g := s.core.mat.begun.getD ⟨lines.map (fun n => (n, (s.core.line n).data)), []⟩
      if b ≤ r ∧ r < b + a.k.rows ∧ !s.core.wbLost.contains r ∧ !g.rows.any (fun x => decide (x.1 = r)) then
        s.updMat (fun m => { m with begun := some { g with rows := g.rows ++ [(r, s.core.wbRow r)] } })
      else s

def execMAcc (t : TreeOp) (row : BitVec 12) (w : Bool) (s : State) : Out := .next (s.accumulate t row .tern w)

def execMAcc8 (t : TreeOp) (row : BitVec 12) (planes : Fin 8) (w : Bool) (s : State) : Out :=
  .next (s.accumulate t row (.int8 (planes.val + 1)) w)

def execMAccsTern (t : TreeOp) (row : BitVec 12) (w : Bool) (s : State) : Out := .next (s.accumulate t row .sparseTern w)

def execMAccsInt8 (t : TreeOp) (row : BitVec 12) (planes : Fin 8) (w : Bool) (s : State) : Out :=
  .next (s.accumulate t row (.sparseInt8 (planes.val + 1)) w)

/-- A step of at most 32 from a budget towards another (R128). -/
def stepBudget (old new : Nat) : Nat := min (old + 32) (max (old - 32) new)

/-- The budget that the controller aims at on the focused core: from the ceiling in force and the partition's static share (R236), no
more than the die's heat allows (R288), between 32 and 256 (R128). -/
def State.budgetAim (s : State) : Nat :=
  let share := match s.part (s.partOf s.core.ctxNum) with
    | some p => p.share
    | none => 0
  let b := min 256 (Config.budgetOf s.group.ceiling share)
  max 32 (match s.heat[s.core.die] with
    | some h => min h b
    | none => b)

/-- A new window of the governor (R128), at least 256 cycles after the last. `most` is the budget that a local thermal or power excess
leaves for now: such an excess is met by lowering the budget alone (R236). -/
def State.newWindow (s : State) (most : Nat) : State :=
  if s.now < s.core.mat.window + 256 then s
  else s.updMat (fun m => { m with budget := stepBudget m.budget (max 32 (min most s.budgetAim)), spent := 0, window := s.now })

def execBudgetWindow (core budget : Nat) (s : State) : Out := .next (s.onCore core (fun s => s.newWindow budget))

/-! ### Retirement (R71, R72, R118, R119) -/

inductive RetFmt where
  | f32
  | bf16
  | f32Add
  | raw
  deriving DecidableEq, Repr

def RetFmt.lines : RetFmt → Nat
  | .bf16 => 128
  | _ => 256

def RetFmt.width : RetFmt → Nat
  | .bf16 => 2
  | _ => 4

def scaleByte (v : BitVec 512) (i : Nat) : Nat := v.toNat / 2 ^ (8 * i) % 256

/-- The exact scaled value p of R72; a zero product is +0. -/
def scaledAcc (acc : Int) (sa sb : Nat) : FVal := match e4Parts sa, e4Parts sb with
  | some (ma, ea), some (mb, eb) =>
    let x := acc * (ma * mb : Nat)
    if x = 0 then .fin false 0 0 else .fin (decide (x < 0)) x.natAbs (ea + eb)
  | _, _ => .nan

/-- An element of the retired tile, and whether it was clamped. -/
def Core.retElem (c : Core) (fmt : RetFmt) (line r n : Nat) : Nat × Bool :=
  let m := c.mat
  if inSegment m.seg r n then
    let p := scaledAcc (m.at_ r n) (scaleByte m.rows r) (scaleByte m.cols n)
    match fmt with
    | .f32 => (encodeF 23 p, false)
    | .bf16 => (encodeF 7 p, false)
    | .f32Add => (addF32 (encodeF 23 p) (c.tileWord line r n), false)
    | .raw => (wrapInt 32 (satInt 32 (m.at_ r n)), decide (satInt 32 (m.at_ r n) ≠ m.at_ r n))
  else match fmt with
    | .bf16 => (segFill m.seg / 65536, false)
    | _ => (segFill m.seg, false)

/-- The retired tile, line by line, and whether an element was clamped. -/
def Core.retTile (c : Core) (fmt : RetFmt) (line : Nat) : List (Nat × BitVec 512) × Bool :=
  let per := 64 / fmt.width
  let ls := (List.range fmt.lines).map (fun i =>
    let es := (List.range per).map (fun j => c.retElem fmt line ((i * per + j) / 64) ((i * per + j) % 64))
    (line + i, BitVec.ofNat 512 (natOfBytes (lanesBytes fmt.width (es.map (·.1)))), es.any (·.2)))
  (ls.map (fun x => (x.1, x.2.1)), ls.any (·.2.2))

/-- A retirement (R118): the lines that `f32.add` reads are those with an element in segment. -/
def State.retire (s : State) (t : TreeOp) (fmt : RetFmt) : State :=
  let m := s.core.mat
  s.issueMat (match m.openRed with
    | none => .stop codeIllegal
    | some r =>
      if r.p ≠ r.n then .stop codeIllegal
      else match s.matPlace t fmt.lines kindVec with
      | none => s.matMisplaced [(t, fmt.lines)] kindVec
      | some pd =>
        if m.held.length ≥ 2 then .wait 6 0 s
        else
          let lines := if fmt = .f32Add then segLines m.seg pd.line 256 else []
          match s.matTest lines true with
          | some e => e
          | none =>
            let x := s.core.retTile fmt pd.line
            let c := ((s.core.matRead pd lines).matFlags (flagIf x.2 flagSatAcc)).updMat (fun m => { m with
              pert := none
              atRet := m.eng.stopReq || s.crewStopping s.core.crewNum
              reds := mapLast (fun r => { r with tile := some ⟨x.1, pd.wwait, s.now⟩ }) m.reds })
            s.matDone c)

def execMRetF32 (t : TreeOp) (s : State) : Out := .next (s.retire t .f32)
def execMRetBf16 (t : TreeOp) (s : State) : Out := .next (s.retire t .bf16)
def execMRetF32Add (t : TreeOp) (s : State) : Out := .next (s.retire t .f32Add)
def execMRetraw (t : TreeOp) (s : State) : Out := .next (s.retire t .raw)

/-- A line written whole, full and good again. -/
def Core.fillLine (c : Core) (n : Nat) (d : BitVec 512) : Core := (c.healLine n).setLine n ⟨d, true⟩

/-- The oldest slot is released: consume marks, then the whole tile, then the flags (R119, R120, R76). -/
def Core.releaseTile (c : Core) (r : Reduction) (t : Tile) : Core :=
  let c1 := r.marks.foldl (fun c n => c.setFull n false) c
  let c2 := t.lines.foldl (fun c x => c.fillLine x.1 x.2) c1
  (c2.updMat (fun m => { m with reds := m.reds.tail })).orFlags r.mask

/-- Whether a report for a stream of the core waits for its resumption (R310). -/
def Core.strikeHeld (c : Core) : Bool :=
  c.vec.eng.strike.isSome || c.vec.struck.isSome || c.mat.eng.strike.isSome || c.xfer.eng.strike.isSome

/-- Whether the oldest slot may be released (R119): it is older than D, and no report for the core is pending, on its way or held for a
stream. -/
def State.tileDue (s : State) (r : Reduction) (t : Tile) : Bool :=
  decide (s.now ≥ t.made + strikeWindow) && s.core.reports.isEmpty && s.core.injected.isEmpty && !s.core.strikeHeld &&
  !(t.wwait && t.lines.any (fun x => (s.core.line x.1).full && !r.marks.contains x.1))

/-- A fault that waited for the slots is taken once none is held (R123). -/
def State.matLate (s : State) : State := match s.core.mat.fault with
  | some x => if s.core.mat.held.isEmpty then (s.updMat (fun m => { m with fault := none })).matSpill x.1 x.2 else s
  | none => s

def State.releaseSlot (s : State) : State :=
  match s.core.mat.reds with
  | r :: _ => match r.tile with
    | some t => if s.tileDue r t then ({ s with core := s.core.releaseTile r t } : State).matLate else s
    | none => s
  | [] => s

def execHoldingSlotRelease (core : Nat) (s : State) : Out := .next (s.onCore core State.releaseSlot)

/-! ### Loops and the end (R47, R122) -/

def State.matLoop (s : State) (f : Engine → Engine) : Out := .next (s.issueMat (.done (s.updEng .mat f)))

def execMLoop (k : KIx) (n : BitVec 23) (s : State) : Out := s.matLoop (·.loop k n)
def execMBr (k : KIx) (off : BitVec 23) (s : State) : Out := s.matLoop (·.br s.core.res.encv k off)
def execMKop (k : KIx) (v : BitVec 21) (s : State) : Out := s.matLoop (·.kop k v)
def execMKopAdd (k : KIx) (v : BitVec 21) (s : State) : Out := s.matLoop (·.kopAdd k v)
def execMKopMov (k i : KIx) (s : State) : Out := s.matLoop (·.kopMov k i)

def execMEnd (s : State) : Out :=
  .next (s.issueMat (if s.core.mat.openRed.isSome then .stop codeIllegal
    else if !s.core.mat.reds.isEmpty then .wait 6 0 s
    else .set (s.updEng .mat (fun e => { e with st := .ended, retired := s.now, stopReq := false }))))

end Sys2Proof.Machine
end

