-- ==== Sys2Proof/Machine/Stamp.lean ====
section
/-!
DEFINITION. Clock readings (R203, R228, R229), stamped stores and as-of loads (R204 to R207, R248).
-/
namespace Sys2Proof.Machine

/-- A cause found at issue, or, for an instruction that has been waiting, after the wait (R297). -/
def State.cause (s : State) (code : Code) (detail : Word) : Issue :=
  if s.core.seq.wait then .late code detail else .trap code detail

/-- `clk.read`: gb is written after gd (R229). -/
def execClkRead (rd rb : Reg) (s : State) : Out :=
  .next (s.issueSeq (match s.widthCheck with
    | some d => .trap codeClkWide d
    | none => s.withRegs [] rd (s.withRegs [] rb (
        .done ((s.setReg rd (wordOfInt s.clock.early)).setReg rb (wordOfInt s.clock.late)).next))))

def execClkWait (ra : Reg) (s : State) : Out :=
  .next (s.issueSeq (match s.widthCheck with
    | some d => s.cause codeClkWide d
    | none => s.withRegs [ra] 0 (if s.clock.early > (s.reg ra).toInt then .done s.next else .wait s)))

def stampScope (c : Scope) : Bool := decide (c = .package) || decide (c = .time)

/-- The stamped version takes its place in the store queue (R205 steps 2 to 4). DESIGN CHOICE: a cell on a host page without leave to write, which
is BOUNDS and a translation fault at once, is a translation fault (log 24). -/
def State.stampNow (s : State) (rd ra rb : Reg) (scope : Scope) : Issue :=
  let va := (s.reg ra).toNat
  if va % 32 ≠ 0 then s.cause codeBounds (wordOfNat va)
  else s.translated va 32 true accWritable (fun cells binds =>
    match cells with
    | [] => .wait s
    | pa :: _ =>
      if pa.space = .host then s.cause codeBounds (wordOfNat va)
      else match s.widthCheck with
        | some d => s.cause codeClkWide d
        | none =>
          let e : StoreEntry := ⟨s.core.issue, s.core.seq.pc, va, .stamp scope s.clock.late pa (s.reg rb), binds, false, false⟩
          s.withRegs [] rd (.done (((s.updSeq (fun q => { q with sq := q.sq ++ [e] })).upd Core.bump).setReg rd
            (wordOfInt s.clock.late)).next))

def execStStamp (rd ra rb : Reg) (scope : Scope) (s : State) : Out :=
  .next (s.issueSeq (
    if !stampScope scope then .trap codeIllegal 0
    else s.noCinch (s.withRegs [ra, rb] 0 (s.closeFirst (fun t =>
      if t.core.seq.sq.isEmpty then t.stampNow rd ra rb scope else .wait t)))))

/-- The first width of the scope that `CLKMAX` refuses, as the time words and frames carry it (R227, R228). -/
def State.scopeWidths (s : State) (c : Scope) : List (Option Int) :=
  (s.clocks.toList.map (fun d => d.wordW.map (fun n => (n : Int)))) ++
  (if c = .time ∧ inGroup s.group.state then s.group.members.map (fun m => m.w.map (fun n => (n : Int))) else [])

def State.scopeWidthCheck (s : State) (c : Scope) : Option Word :=
  (s.scopeWidths c).findSome? (fun w => widthFails w s.core.seq.clkmax.toNat)

/-- The version of a cell that was current at t (R206). -/
def State.versionAt (s : State) (pa : PAddr) (t : Int) : Option Word :=
  let s0 := sextNat 64 (s.readNat pa 8)
  let s1 := sextNat 64 (s.readNat (pa.plus 16) 8)
  let d0 := wordOfNat (s.readNat (pa.plus 8) 8)
  let d1 := wordOfNat (s.readNat (pa.plus 24) 8)
  if s0 ≤ t ∧ s1 ≤ t then (if s1 ≥ s0 then some d1 else some d0)
  else if s1 ≤ t then some d1
  else if s0 ≤ t then some d0
  else none

/-- The read at the end of the stall (R206). DESIGN CHOICE: STALE met without any stall, which R297 names only after one, comes before a pending
asynchronous cause, as a check at issue does (log 24). -/
def State.asofNow (s : State) (rd : Reg) (va : Nat) (pa : PAddr) (t : Int) : Issue :=
  match s.eccRead (placesFrom pa 32) with
  | .lost => s.lostWord va
  | .badTag => .halt codeIntegrity
  | .ok => match s.versionAt pa t with
    | some v => .done (s.setReg rd v).next
    | none => s.cause codeStale (wordOfNat va)

/-- Whether some stamped store that a read has to see is still in a store queue (R207): to the same cell, with a stamp of at most t, made
at PACKAGE scope, or at TIME scope where the read is at TIME scope too. A device in no group treats TIME as PACKAGE (R205); DESIGN CHOICE:
whether it is in one is asked when the read is made, and when the store is performed, not when the stamp was made (log 24). -/
def State.stampsDue (s : State) (scope : Scope) (pa : PAddr) (t : Int) : Bool :=
  s.cores.any (fun c => c.seq.sq.any (fun e => match e.kind with
    | .stamp k st p _ => decide (p = pa) && decide (st ≤ t) && (decide (k = .package) || decide (scope = .time) || !inGroup s.group.state)
    | _ => false))

/-- R206. The fault record of a failed translation is that of `st.stamp`, with access code 3; the translation itself asks for no leave to
write, since the word writes nothing (log 24). -/
def execLdAsof (rd ra rb : Reg) (scope : Scope) (s : State) : Out :=
  let va := (s.reg ra).toNat
  let t := (s.reg rb).toInt
  .next (s.issueSeq (
    if !stampScope scope then .trap codeIllegal 0
    else s.noCinch (s.withRegs [ra, rb] 0 (
      if va % 32 ≠ 0 then .trap codeBounds (wordOfNat va)
      else s.translated va 32 false accWritable (fun cells _ =>
        match cells with
        | [] => .wait s
        | pa :: _ =>
          if pa.space = .host then .trap codeBounds (wordOfNat va)
          else match s.widthCheck with
          | some d => s.cause codeClkWide d
          | none =>
            if s.core.seq.lq.isEmpty && !s.core.fenceHoldsNew .lq && s.surelyPast scope t && !s.stampsDue scope pa t then
              s.withRegs [] rd (s.asofNow rd va pa t)
            else match s.scopeWidthCheck scope with
              | some d => if s.core.seq.wait then .late codeClkWide d else .wait s
              | none => .wait s)))))

end Sys2Proof.Machine
end

