-- ==== Sys2Proof/Machine/Transfer.lean ====
section
/-!
DEFINITION. The step words of the transfer engine (R160 to R180, R185, R186, R304, R307) and the issue and landing of blocks.
Assumption log 16 holds the choices this family makes where the spec is brief.
-/
namespace Sys2Proof.Machine

/-! ### Fields -/

def XferEngine.kv (x : XferEngine) (j : KIx) : Nat := (x.eng.k[j]).val.toNat

def XferEngine.field (x : XferEngine) (f : ShapeField) : Nat := (x.shape[(Fin.ofNat 7 f.code : Fin 7)]).toNat

def State.setShape (s : State) (f : ShapeField) (v : BitVec 32) : State :=
  s.issueXfer (.done ((s.updXfer (fun x => { x with shape := x.shape.set (Fin.ofNat 7 f.code : Fin 7) v })).engNext .xfer))

def State.setWin (s : State) (f : WinField) (v : BitVec 32) : State :=
  s.issueXfer (.done ((s.updXfer (fun x => { x with win := x.win.set (Fin.ofNat 15 f.code : Fin 15) v })).engNext .xfer))

def execXShapeImm (f : ShapeField) (v : BitVec 21) (s : State) : Out := .next (s.setShape f (v.setWidth 32))
def execXShapeReg (f : ShapeField) (j : KIx) (s : State) : Out := .next (s.setShape f (s.core.xfer.eng.k[j]).val)
def execXWinImm (f : WinField) (v : BitVec 21) (s : State) : Out := .next (s.setWin f (v.setWidth 32))
def execXWinReg (f : WinField) (j : KIx) (s : State) : Out := .next (s.setWin f (s.core.xfer.eng.k[j]).val)

def State.xferLoop (s : State) (f : Engine → Engine) : State := s.issueXfer (.done (s.updEng .xfer f))

def execXLoop (k : KIx) (n : BitVec 23) (s : State) : Out := .next (s.xferLoop (fun e => e.loop k n))
def execXBr (k : KIx) (off : BitVec 23) (s : State) : Out := .next (s.xferLoop (fun e => e.br s.core.res.encv k off))
def execXKop (k : KIx) (v : BitVec 21) (s : State) : Out := .next (s.xferLoop (fun e => e.kop k v))
def execXKopAdd (k : KIx) (v : BitVec 21) (s : State) : Out := .next (s.xferLoop (fun e => e.kopAdd k v))
def execXKopMov (k i : KIx) (s : State) : Out := .next (s.xferLoop (fun e => e.kopMov k i))

/-! ### Endpoints (R163, R164) -/

/-- What the check of an endpoint answers; BOUNDS with its detail: the line, the offset or the slot (R301: log 5). -/
inductive EndOut where
  | ok (e : XEnd)
  | bounds (detail : Word)
  | revoking
  deriving DecidableEq, Repr

def allKinds : List Nat := [kindVec, kindTile, kindCoder]

/-- An endpoint with its register values read. -/
def XferEngine.point (x : XferEngine) : EndPt → XPoint
  | .tree t => .tree t.view (idxValue x.eng.k t.idx)
  | .hnd h k => .hnd h (x.kv k)

/-- An endpoint over a span of bytes; a span of 0 is checked on its first byte and line (R164). -/
def Core.endOf (c : Core) (e : XPoint) (span : Nat) (write : Bool) : EndOut :=
  match e with
  | .tree v i => match c.placeAt v i (max 1 (ceilDiv span 64)) allKinds with
    | some p => .ok (.tree p.line p.consume p.wwait)
    | none => .bounds (wordOfNat (viewBase c.views[v] + i * viewStride c.views[v]))
  | .hnd h off =>
    if h = 0 then .bounds (wordOfNat h.val)
    else match c.engBinding h write with
    | .bounds => .bounds (wordOfNat h.val)
    | .revoking => .revoking
    | .ok b => if off + max 1 span ≤ b.len then .ok (.mem b off) else .bounds (wordOfNat off)

def Core.endAt (c : Core) (e : EndPt) (span : Nat) (write : Bool) : EndOut := c.endOf (c.xfer.point e) span write

/-- Whether two spans overlap, as tree lines or as virtual addresses (R164). -/
def endsOverlap (a : XEnd) (n : Nat) (b : XEnd) (m : Nat) : Bool :=
  match a, b with
  | .tree x _ _, .tree y _ _ => overlaps x (ceilDiv n 64) y (ceilDiv m 64)
  | .mem x o, .mem y p => overlaps (x.base + o) n (y.base + p) m
  | _, _ => false

def listMax (l : List Nat) : Nat := l.foldl max 0

/-- The source bytes that an operation touches. -/
def XKind.srcSpan (k : XKind) (o : XOp) (len : Nat) : Nat :=
  match k with
  | .copy rows rb sp _ => if rows = 0 ∨ len = 0 then len else (rows - 1) * sp + rb
  | .gather e idx => listMax (idx.map (fun j => (j + 1) * e))
  | .conv st dt => len / dt.width * st.width
  | .unfold _ _ _ _ _ => listMax ((o.needs 0 len).map (· + 1))
  | _ => len

/-- The destination bytes that an operation touches; an `unpack` is known only block by block, and touches its first byte (R174). -/
def XKind.dstSpan (k : XKind) (len : Nat) : Nat :=
  match k with
  | .copy rows rb _ dp => if rows = 0 ∨ len = 0 then len else (rows - 1) * dp + rb
  | .scatter e idx => listMax (idx.map (fun j => (j + 1) * e))
  | .unfold w t _ dp _ => if len = 0 then 0 else (len / patchBytes w t - 1) * (if dp = 0 then patchBytes w t else dp) + patchBytes w t
  | .unpack _ _ _ => min 1 len
  | _ => len

/-! ### Batches (R178 to R180) -/

/-- The batch of a new operation; one is opened where none is open. -/
def Core.useBatch (c : Core) : Nat × Core :=
  match c.xfer.openBatch with
  | some b => (b.id, c.updXfer (fun x => { x with openBatch := some { b with used := true } }))
  | none => (c.issue, (c.updXfer (fun x => { x with openBatch := some ⟨c.issue, none, 0, true⟩ })).bump)

/-- How many outstanding batches a wait counts: those with an operation that is not held (R179, R305). -/
def XferEngine.outstanding (x : XferEngine) : Nat :=
  x.batches.countP (fun b => x.all.any (fun o => decide (o.batch = b.id)))

/-- Close the open batch; none where that would make a 17th outstanding batch. -/
def XferEngine.close (x : XferEngine) : Option XferEngine :=
  match x.openBatch with
  | none => some x
  | some b =>
    let y := ({ x with openBatch := none, batches := x.batches ++ [b] } : XferEngine).sweep
    if y.outstanding > 16 then none else some y

/-! ### Starting an operation -/

/-- The lines that an operation in place would write (R305). -/
def inPlaceLines (c : Core) (k : XKind) (dst : XEnd) (len : Nat) : Option (List Nat) :=
  match k, dst with
  | .wbfill _, _ => none
  | .coll _ _ _ _, _ => none
  | .unpack _ ratio _, .tree line _ _ =>
    some (rangeFrom line (min (ceilDiv (ratio * len / 16) 64) (c.res.tree - line)))
  | _, .tree line _ _ => some (rangeFrom line (ceilDiv (k.dstSpan len) 64))
  | _, _ => none

def XferEngine.saved (x : XferEngine) (n : Nat) : Bool := x.regions.any (fun r => r.saved.any (fun y => decide (y.line = n)))

/-- Whether an operation runs in place inside the open regions. -/
def Core.inPlace (c : Core) (k : XKind) (dst : XEnd) (len : Nat) : Bool :=
  match inPlaceLines c k dst len with
  | some l => l.all c.xfer.saved
  | none => false

/-- The endpoints that a data word names (R163): their points, and what they are now. -/
structure XEnds where
  dstPt : XPoint
  srcPt : Option XPoint
  dst   : XEnd
  src   : Option XEnd

/-- A data step word whose checks have passed: it starts, or is held in an open region (R305), or is complete at once (R164). -/
def State.startOp (s : State) (k : XKind) (e : XEnds) (len : Nat) (index : Option (Nat × Nat)) : State :=
  let c0 := s.core
  let pc := c0.xfer.eng.pc
  let (batch, c) := c0.useBatch
  let region := !c.xfer.regions.isEmpty
  let inside := region && c.inPlace k e.dst len
  let o : XOp := { id := c.issue, seq := c.issue, pc := pc, word := s.wordAt c0 .xfer pc, kind := k, dstPt := e.dstPt,
                   srcPt := e.srcPt, dst := e.dst, src := e.src,
                   len := len, batch := batch, next := 0, out := 0, taken := [], blocks := [], done := [], later := [],
                   laterTree := [], issued := false, failed := none, bits := noBits, written := false, left := false, mask := 0, inside := inside, index := index, unissued := region && !inside }
  let s1 : State := { s with core := (c.updXfer (fun x => { x with index := [] })).bump }
  if len = 0 then s1.issueXfer (.done (s1.engNext .xfer))
  else if region && !inside then
    match c.xfer.regions with
    | [] => s1
    | r :: t =>
      if c0.roomFor 64 1 then
        s1.issueXfer (.done ((s1.updXfer (fun x => { x with regions :=
          { r with held := r.held ++ [o], charge := r.charge + 64 } :: t })).engNext .xfer))
      else s.issueXfer (.stop codeMendFull)
  else s1.updXfer (fun x => { x with cur := some o, eng := { x.eng with st := .run } })

/-- A blank operation of a kind, for the spans of a word at issue. -/
def blankOp (k : XKind) (dst : XEnd) (src : Option XEnd) (len : Nat) : XOp :=
  { id := 0, seq := 0, pc := 0, word := 0, kind := k, dstPt := .tree 0 0, srcPt := none, dst := dst, src := src, len := len,
    batch := 0, next := 0, out := 0, taken := [], blocks := [], done := [], later := [], laterTree := [], issued := false,
    failed := none, bits := noBits, written := false, left := false, mask := 0, inside := false, index := none, unissued := false }

/-- The bytes of the source that a word touches, judged at issue. -/
def XKind.spanAtIssue (k : XKind) (len : Nat) : Nat := k.srcSpan (blankOp k (.tree 0 false false) none len) len

/-- What the checks of a word's two endpoints answer. -/
inductive EndsOut where
  | ok (e : XEnds)
  | bounds (detail : Word)
  | revoking

/-- Whether n bytes at an endpoint lie in the multicast window of a core's own store (R176). -/
def XEnd.inCast (e : XEnd) (id n : Nat) : Bool :=
  match e with
  | .mem b off => (match b.place off with
    | some p => decide (b.kind = .window) && decide (p.addr / 2 ^ 22 = id) && decide (castBase ≤ p.addr % 2 ^ 22) &&
        decide (p.addr % 2 ^ 22 + n ≤ 2 ^ 22)
    | none => false)
  | .tree _ _ _ => false

/-- The checks of R164 and R176 for a destination and, where there is one, a source. R164 names no detail for ranges that overlap: it is 0
(log 24). The destination of an `x.wbfill` is the weight
buffer, which its own rule checks. -/
def Core.checkEnds (c : Core) (k : XKind) (d : XPoint) (e : Option XPoint) (len : Nat) : EndsOut :=
  let src := k.spanAtIssue len
  let dst : EndOut := match k with
    | .wbfill _ => .ok (.tree 0 false false)
    | _ => c.endOf d (k.dstSpan len) true
  match dst, e.map (fun p => c.endOf p src false) with
  | .ok x, none => .ok ⟨d, none, x, none⟩
  | .ok x, some (.ok y) => (match k with
    | .wbfill _ => .ok ⟨d, e, x, some y⟩
    | .mcast => if endsOverlap x len y src || !x.inCast c.id len then .bounds 0 else .ok ⟨d, e, x, some y⟩
    | _ => if endsOverlap x (k.dstSpan len) y src then .bounds 0 else .ok ⟨d, e, x, some y⟩)
  | .bounds n, _ => .bounds n
  | _, some (.bounds n) => .bounds n
  | _, _ => .revoking

/-- The checks of R164, then the start of the operation. -/
def State.checkedOp (s : State) (k : XKind) (d : XPoint) (e : Option XPoint) (len : Nat) (index : Option (Nat × Nat)) : State :=
  match s.core.checkEnds k d e len with
  | .ok ends => s.startOp k ends len index
  | .bounds n => s.issueXfer (.stop codeBounds (some n))
  | .revoking => s.issueXfer (.wait 10 0 s)

/-- A word with two endpoints. -/
def State.twoEnds (s : State) (k : XKind) (d e : EndPt) (len : Nat) : State :=
  s.checkedOp k (s.core.xfer.point d) (some (s.core.xfer.point e)) len none

/-! ### Data step words -/

/-- R166. -/
def execXCopy (d e : EndPt) (l : KIx) (s : State) : Out :=
  let x := s.core.xfer
  let len := x.kv l
  let rows := x.field .rows
  let rb := x.field .rowbytes
  .next (
    if rows = 0 then s.twoEnds (.copy 0 0 0 0) d e len
    else if rows > 65535 ∨ rb < 1 ∨ rb > 4096 ∨ x.field .spitch > 2 ^ 31 ∨ x.field .dpitch > 2 ^ 31 ∨ len ≠ rows * rb then
      s.issueXfer (.stop codeBounds)
    else s.twoEnds (.copy rows rb (x.field .spitch) (x.field .dpitch)) d e len)

/-- R167. -/
def execXFill (d : EndPt) (l v : KIx) (s : State) : Out :=
  let x := s.core.xfer
  .next (s.checkedOp (.fill (x.eng.k[v]).val) (x.point d) none (x.kv l) none)

/-- What reading an index list comes to (R168): it is read, a line is empty, a line is lost. -/
inductive IndexOut where
  | read (s : State)
  | empty (line : Nat) (s : State)
  | lost (line : Nat) (s : State)

/-- Index lines read in order, each once it is full, through no view and without consuming (R168). -/
def State.readIndexLines (s : State) : List Nat → IndexOut
  | [] => .read s
  | m :: t =>
    if !s.core.fullAs s.core.xfer.marks m then .empty m s
    else if s.core.treeLost.contains m then .lost m s
    else (s.updXfer (fun x => { x with index := x.index ++ [(m, (s.core.line m).data)] })).readIndexLines t

/-- The lines of an index list of n entries that are still to be read. -/
def State.readIndex (s : State) (line n : Nat) : IndexOut :=
  s.readIndexLines ((rangeFrom line (ceilDiv (4 * n) 64)).drop s.core.xfer.index.length)

/-- The n entries of an index list whose lines have been read. -/
def XferEngine.indexList (x : XferEngine) (line n : Nat) : List Nat :=
  (List.range n).map (fun j => (assocGet 0 x.index (line + 4 * j / 64)).toNat / 2 ^ (32 * (j % 16)) % 2 ^ 32)

/-- The word at issue forgets the index lines it has read, unless it waits. -/
def State.dropIndex (s : State) : State := match s.core.xfer.eng.st with
  | .wait _ _ => s
  | _ => s.updXfer (fun x => { x with index := [] })

/-- A gather whose destination an open region does not hold is held as it stands, and so is a scatter to memory: the index list is
read when the word is issued at the release (R168, R305). -/
def State.heldUnread (s : State) (mk : Nat → List Nat → XKind) (w n : Nat) (d : XPoint) : Bool :=
  !s.core.xfer.regions.isEmpty && (match d, mk w [] with
    | .hnd _ _, _ => true
    | .tree _ _, .gather _ _ => (match s.core.endOf d (w * n) true with
      | .ok x => !s.core.inPlace (mk w []) x (w * n)
      | _ => false)
    | .tree _ _, _ => false)

/-- A gather or scatter reads its index lines at issue (R168), before its endpoints are checked: R162 and R168 do not order the wait for a
line and BOUNDS of an endpoint (log 24). A list that runs past the tree has its first line as detail (R301: log 5). A lost line is a run failure of the word, and inside a region a
rollback (R305, R315). -/
def State.indexed (s : State) (mk : Nat → List Nat → XKind) (d e : EndPt) (l i : KIx) : State :=
  let c := s.core
  let n := c.xfer.kv l
  let line := c.xfer.kv i
  let w := c.xfer.field .rowbytes
  let index := if n = 0 then none else some (line, n)
  let dp := c.xfer.point d
  let ep := some (c.xfer.point e)
  if w < 1 ∨ w > 4096 then (s.issueXfer (.stop codeBounds)).dropIndex
  else if line + ceilDiv (4 * n) 64 > c.res.tree then (s.issueXfer (.stop codeBounds (some (wordOfNat line)))).dropIndex
  else if s.heldUnread mk w n dp then s.checkedOp (mk w []) dp ep (w * n) index
  else match s.readIndex line n with
  | .empty m t => t.issueXfer (.wait 1 m t)
  | .read t => (t.checkedOp (mk w (t.core.xfer.indexList line n)) dp ep (w * n) index).dropIndex
  | .lost _ t =>
    if !t.core.xfer.regions.isEmpty then t.xferRollback t.core.xfer.eng.pc
    else
      let u := (t.checkedOp (mk w []) dp ep (w * n) index).dropIndex
      match u.core.xfer.cur with
      | some o => u.failCur o codeDataLost
      | none => u

def execXGather (d e : EndPt) (l i : KIx) (s : State) : Out := .next (s.indexed XKind.gather d e l i)
def execXScatter (d e : EndPt) (l i : KIx) (s : State) : Out := .next (s.indexed XKind.scatter d e l i)

/-- R169. BOUNDS has the word's row as its detail (R301: log 5). -/
def execXWbfill (row : BitVec 12) (e : EndPt) (l : KIx) (s : State) : Out :=
  let len := s.core.xfer.kv l
  .next (
    if 256 * row.toNat + len > 256 * s.core.res.wb then s.issueXfer (.stop codeBounds (some (wordOfNat row.toNat)))
    else s.checkedOp (.wbfill row.toNat) (.tree 0 0) (some (s.core.xfer.point e)) len none)

/-- The type that a shape field names at the core's encoding version (R46, R53). -/
def Core.typeField (c : Core) (f : ShapeField) : Option EType := etypeOf c.res.encv (c.xfer.field f)

/-- R170. -/
def execXConv (d e : EndPt) (l : KIx) (s : State) : Out :=
  let x := s.core.xfer
  let len := x.kv l
  .next (match s.core.typeField .stype, s.core.typeField .dtype with
    | some st, some dt =>
      if len % st.width ≠ 0 then s.issueXfer (.stop codeBounds)
      else s.twoEnds (.conv st dt) d e (len / st.width * dt.width)
    | _, _ => s.issueXfer (.stop codeBounds))

/-- The window checks of R171. -/
def winOk (w : Vector (BitVec 32) 15) : Bool :=
  [WinField.wh, .ww, .sy, .sx, .dy, .dx].all (fun f => decide (1 ≤ winAt w f) && decide (winAt w f ≤ 64)) &&
  [WinField.pt, .pl, .pb, .pr].all (fun f => decide (winAt w f ≤ 255)) &&
  [WinField.ih, .iw, .ch].all (fun f => decide (1 ≤ winAt w f) && decide (winAt w f ≤ 65535)) &&
  decide (winAt w .pmode ≤ 3) &&
  (decide (winAt w .pmode ≠ 2) || (decide (winAt w .pt < winAt w .ih) && decide (winAt w .pb < winAt w .ih) &&
    decide (winAt w .pl < winAt w .iw) && decide (winAt w .pr < winAt w .iw))) &&
  decide (unfoldRows w ≥ 1) && decide (unfoldCols w ≥ 1)

/-- R172: P is kn, p0 the next k register. -/
def execXUnfold (d e : EndPt) (n : KIx) (s : State) : Out :=
  let x := s.core.xfer
  let p := x.kv n
  let p0 := x.kv (n + 1)
  .next (match s.core.typeField .stype with
    | none => s.issueXfer (.stop codeBounds)
    | some t =>
      if !winOk x.win ∨ x.field .spitch > 2 ^ 31 ∨ x.field .dpitch > 2 ^ 31 ∨
          ((p0 + p : Nat) : Int) > unfoldRows x.win * unfoldCols x.win then s.issueXfer (.stop codeBounds)
      else s.twoEnds (.unfold x.win t (x.field .spitch) (x.field .dpitch) p0) d e (p * patchBytes x.win t))

/-- R173: L counts source bytes. R174 names no code for a `bsi8` whose dtype is neither BF16 nor F32: BOUNDS at issue, as for the
other fields (log 24). -/
def State.unpack (s : State) (fmt : PackFmt) (d e : EndPt) (l : KIx) : State :=
  let x := s.core.xfer
  let ratio := x.field .ratio
  let go : EType → State := fun t =>
    if ratio < 16 ∨ ratio > 1024 then s.issueXfer (.stop codeBounds)
    else s.twoEnds (.unpack fmt ratio t) d e (x.kv l)
  match fmt with
  | .bsi8 => (match s.core.typeField .dtype with
    | some .bf16 => go .bf16
    | some .f32 => go .f32
    | _ => s.issueXfer (.stop codeBounds))
  | _ => go .i8

def execXUnpackT5p (d e : EndPt) (l : KIx) (s : State) : Out := .next (s.unpack .t5p d e l)
def execXUnpackBsi8 (d e : EndPt) (l : KIx) (s : State) : Out := .next (s.unpack .bsi8 d e l)
def execXUnpackSp24 (d e : EndPt) (l : KIx) (s : State) : Out := .next (s.unpack .sp24 d e l)
def execXUnpackZrun (d e : EndPt) (l : KIx) (s : State) : Out := .next (s.unpack .zrun d e l)

/-- R176. -/
def execXMcast (d e : EndPt) (l : KIx) (s : State) : Out :=
  let len := s.core.xfer.kv l
  .next (if len < 1 ∨ len > 4096 then s.issueXfer (.stop codeBounds) else s.twoEnds .mcast d e len)

/-! ### Batches and waits -/

/-- The recorded failure of the oldest step word, and the others (R184). -/
def oldestFail : List XFail → Option XFail
  | [] => none
  | f :: t => match oldestFail t with
    | none => some f
    | some g => if f.seq ≤ g.seq then some f else some g

/-- Stop for a recorded failure, if there is one. -/
def State.reportFail (s : State) (k : EngIssue) : EngIssue :=
  match oldestFail s.core.xfer.fails with
  | none => k
  | some f => .stopAt f.code f.pc f.mayCore f.mayLeft (s.updXfer (fun x => { x with fails := x.fails.filter (fun g => decide (g.seq ≠ f.seq)) }))

/-- Close the open batch, then go on. -/
def State.closeBatch (s : State) (k : State → EngIssue) : EngIssue :=
  match s.core.xfer.close with
  | none => .wait 3 0 s
  | some x => k { s with core := { s.core with xfer := x } }

def execXClose (s : State) : Out := .next (s.issueXfer (s.closeBatch (fun t => .done (t.engNext .xfer))))

def execXWait (n : BitVec 16) (s : State) : Out :=
  .next (s.issueXfer (s.closeBatch (fun t => t.reportFail (
    if t.core.xfer.outstanding ≤ n.toNat then .done (t.engNext .xfer) else .wait 3 0 t))))

def execXMark (s : State) : Out :=
  .next (s.issueXfer (s.reportFail (if s.core.xfer.all.isEmpty then .done (s.engNext .xfer) else .wait 4 0 s)))

/-- An addition that no operation makes; one that meets DATA_LOST is recorded as a failure of the word at the program counter (R184,
R224: log 24). -/
def State.addOrFail (s : State) (a : SyncAdd) : State :=
  match s.addSync a with
  | (true, t) => t
  | (false, t) =>
    let pc := t.core.xfer.eng.pc
    t.updXfer (fun x => { x with fails := x.fails ++ [⟨t.core.issue, pc, t.wordAt t.core .xfer pc, codeDataLost, false, false⟩] })

/-- Bytes landed before a sync word was attached are added now, or with the region (R180, R305); an addition is an access on XP, which
a pending fence holds (R240, R244). -/
def State.attach (s : State) (b : Batch) (r : SyncRef) : EngIssue :=
  let s1 := s.updXfer (fun x => { x with openBatch := some { b with sync := some r, landed := 0 } })
  if b.landed = 0 then .done (s1.engNext .xfer)
  else match s.core.xfer.regions with
    | [] => if s.core.holdsNew .xp then .wait 7 0 s else .done ((s1.addOrFail ⟨r.pa, b.landed, 0, 0⟩).engNext .xfer)
    | g :: t => .done ((s1.updXfer (fun x => { x with
        regions := { g with adds := g.adds ++ [⟨r.pa, b.landed, 0, 0⟩] } :: t })).engNext .xfer)

/-- A new batch with a sync word. -/
def State.newBatch (s : State) (r : SyncRef) : State :=
  (s.updXfer (fun x => { x with openBatch := some ⟨s.core.issue, some r, 0, false⟩ })).upd Core.bump

/-- R180. -/
def State.syncBatch (s : State) (r : SyncRef) : EngIssue :=
  match s.core.xfer.openBatch with
  | none => .done ((s.newBatch r).engNext .xfer)
  | some b =>
    if !b.used then .done ((s.newBatch r).engNext .xfer)
    else if b.sync.isSome then s.closeBatch (fun t => .done ((t.newBatch r).engNext .xfer))
    else s.attach b r

def execXSync (h : Hnd) (j : KIx) (s : State) : Out :=
  let off := s.core.xfer.kv j
  .next (s.issueXfer (match s.core.engBinding h false with
    | .bounds => .stop codeBounds (some (wordOfNat h.val))
    | .revoking => .wait 10 0 s
    | .ok b => match s.core.syncPlace h off with
      | none => .stop codeBounds (some (wordOfNat off))
      | some (_, pa) => s.syncBatch ⟨pa, b.id⟩))

def execXSyncDetach (s : State) : Out :=
  .next (s.issueXfer (match s.core.xfer.openBatch with
    | some b => if b.sync.isSome then s.closeBatch (fun t => .done (t.engNext .xfer)) else .done (s.engNext .xfer)
    | none => .done (s.engNext .xfer)))

/-! ### Mend words (R304, R307) -/

def execXMendOpen (s : State) : Out :=
  let x := s.core.xfer
  .next (s.issueXfer (
    if x.regions.length ≥ 4 then .stop codeMendFull
    else if !x.all.isEmpty then .wait 4 0 s
    else .done ((s.updXfer (fun x => { x with regions :=
      { pc := x.eng.pc, snap := ⟨x.eng.k, x.shape, x.win, x.openBatch⟩, mask := 0, saved := [], held := [], marks := [],
        adds := [], charge := 0, retries := againCount x.again x.regions.length x.eng.pc } :: x.regions })).engNext .xfer)))

/-- The lines of an engine's `mend.save`, newest first: the bytes, and the bit as the stream with these deferred marks sees it (R304). -/
def Core.saveLines (c : Core) (marks : List Mark) (line n : Nat) : List SavedLine :=
  ((rangeFrom line n).map (fun m => ⟨m, { c.line m with full := c.fullAs marks m }, false⟩)).reverse

def execXMendSave (k : KIx) (n : BitVec 12) (s : State) : Out :=
  let x := s.core.xfer
  let line := x.kv k
  .next (s.issueXfer (match x.regions with
    | [] => .stop codeIllegal
    | r :: t =>
      if line + n.toNat > s.core.res.tree then .stop codeBounds (some (wordOfNat (line + n.toNat - 1)))
      else if !s.core.roomFor (64 * n.toNat) 0 then .stop codeMendFull
      else if (rangeFrom line n.toNat).any (fun m => s.core.treeLost.contains m) then .set (s.xferRollback x.eng.pc)
      else .done ((s.updXfer (fun x => { x with regions :=
        { r with saved := s.core.saveLines x.marks line n.toNat ++ r.saved, charge := r.charge + 64 * n.toNat } :: t })).engNext .xfer)))

/-- Whether an engine's close may go on: D cycles since the youngest retirement, no report pending. -/
def State.engCloseReady (s : State) (e : Eng) : Bool :=
  decide (s.now ≥ (s.core.eng e).retired + strikeWindow) && !s.core.reportPending e.stream

def XferRegion.handUp (r p : XferRegion) : XferRegion :=
  { p with saved := r.saved ++ p.saved, held := p.held ++ r.held, marks := r.marks ++ p.marks, adds := p.adds ++ r.adds,
           mask := p.mask ||| r.mask, charge := p.charge + r.charge }

def foldXfer : List XferRegion → Option XferRegion
  | [] => none
  | r :: t => match foldXfer t with
    | none => some r
    | some p => some (r.handUp p)

/-- The deferred additions, in order. -/
def State.makeAdds (s : State) (l : List SyncAdd) : State := l.foldl State.addOrFail s

/-- The rest of a release once no held word is left: additions, marks, flags (R307). -/
def State.releaseXfer (s : State) (r : XferRegion) : State :=
  let s1 := s.makeAdds r.adds
  s1.upd (fun c =>
    let c1 := ((c.updXfer (fun x => ({ x with regions := [], again := [], eng := { x.eng with releasing := false } }).sweep)).applyMarks
      r.marks).orFlags r.mask
    if r.marks.isEmpty then c1 else c1.touch .xfer s.now false)

/-- Close every open region of the transfer stream, innermost first: wait, then release; a held word becomes the operation at
issue, and the closing word goes on once it is handed over. -/
def State.closeXfer (s : State) (k : State → EngIssue) : EngIssue :=
  match foldXfer s.core.xfer.regions with
  | none => k s
  | some r =>
    let rel := s.core.xfer.eng.releasing && decide (s.core.xfer.regions.length = 1)
    if !rel && (!s.engCloseReady .xfer || s.core.xfer.all.any (·.inside)) then .wait 6 0 s
    else match r.held with
      | [] =>
        if !r.adds.isEmpty && s.core.holdsNew .xp then
          .wait 7 0 (s.updXfer (fun x => { x with regions := [r], eng := { x.eng with releasing := true } }))
        else k (s.releaseXfer r)
      | o :: rest => .set (s.updXfer (fun x => { x with
          cur := some { o with seq := s.core.issue, id := s.core.issue }, regions := [{ r with held := rest }],
          eng := { x.eng with releasing := true, st := .run } }) |>.upd Core.bump)

def execXMendClose (s : State) : Out :=
  .next (s.issueXfer (match s.core.xfer.regions with
    | [] => .stop codeIllegal
    | [_] => s.closeXfer (fun t => .done (t.engNext .xfer))
    | r :: p :: t =>
      if s.engCloseReady .xfer && !s.core.xfer.all.any (·.inside) then
        .done ((s.updXfer (fun x => { x with regions := r.handUp p :: t, again := againDrop x.again (t.length + 1) })).engNext .xfer)
      else .wait 6 0 s))

/-- R18, R186, R310: every region closes, the batch closes, everything completes, recorded failures are reported. -/
def execXEnd (s : State) : Out :=
  .next (s.issueXfer (s.closeXfer (fun t => t.closeBatch (fun u => u.reportFail (
    if u.core.xfer.all.isEmpty then .set (u.updEng .xfer (fun e => { e with st := .ended, retired := u.now, stopReq := false }))
    else .wait 3 0 u)))))

/-! ### Blocks -/

/-- The kind of a gather or scatter with its index list. -/
def XKind.withIndex (k : XKind) (idx : List Nat) : XKind := match k with
  | .gather e _ => .gather e idx
  | .scatter e _ => .scatter e idx
  | k => k

/-- An issue fault of a held word at its release (R162): the record names it, and `tret` re-executes the close, which issues it
again. -/
def State.heldFault (s : State) (o : XOp) (detail : Word) : State :=
  (s.updXfer (fun x => { x with cur := none, index := [], regions := match x.regions with
    | r :: t => { r with held := o :: r.held } :: t
    | [] => [] })).stopWith .xfer 0 codeBounds o.pc false false false detail

/-- A held word is issued at the release (R305): it reads its index list (R168), then its slots and views as they are now, with the
checks of R164 (R91, R162). A word that the undo buffer has lost fails with DATA_LOST (R223). -/
def State.issueHeld (s : State) (o : XOp) : State :=
  let go : State → XOp → State := fun t o => match t.core.checkEnds o.kind o.dstPt o.srcPt o.len with
    | .ok e => t.updXfer (fun x => { x with index := [], cur := some { o with dst := e.dst, src := e.src, unissued := false } })
    | .bounds n => t.heldFault o n
    | .revoking => t.xferWait o 10 0
  if o.failed = some codeDataLost then s.failCur { o with unissued := false } codeDataLost
  else match o.index with
  | none => go s o
  | some (line, n) => match s.readIndex line n with
    | .empty m t => t.xferWait o 1 m
    | .lost _ t => (t.updXfer (fun x => { x with index := [] })).failCur { o with unissued := false } codeDataLost
    | .read t => go t { o with kind := o.kind.withIndex (t.core.xfer.indexList line n) }

/-- The engine hands over the next block of the operation at issue (R160); not while a stop holds it (R271, R322). -/
def State.blockEvent (s : State) : State :=
  let c := s.core
  let stopping := match c.seat with
    | some x => s.crewStopping x.crew
    | none => true
  match c.xfer.cur with
  | none => s
  | some o =>
    if stopping || c.xfer.eng.stopReq || !c.xfer.eng.st.live then s
    else if o.unissued then s.issueHeld o
    else
      let t := s.handNext o
      if (match t.core.xfer.cur with
        | some p => p.inside && decide (p.failed = some codeDataLost)
        | none => false) then t.xferRollback o.pc else t

/-- Part of the next block's source is read ahead of the rest, where the block could be handed over (R160, R316). -/
def State.sourceEarly (s : State) (a n : Nat) : State :=
  match s.core.xfer.cur, s.core.seat with
  | some o, some x =>
    if s.crewStopping x.crew || s.core.xfer.eng.stopReq || !s.core.xfer.eng.st.live || o.unissued || decide (s.core.blockGate o ≠ .go) then s
    else s.readEarly o a n
  | _, _ => s

def execTransferBlockIssue (core : Nat) (s : State) : Out := .next (s.onCore core State.blockEvent)

/-- Whether a block may land now: blocks of a scatter that share a destination unit land in order (R168), a collective's land only
with its result, or once that is formed (R185). -/
def XOp.landable (o : XOp) (n : Nat) : Bool :=
  match o.kind with
  | .coll _ _ _ _ => o.blocks.any (fun b => decide (b.seq = n) && b.formed)
  | .scatter _ _ => (match o.blocks.find? (fun b => decide (b.seq = n)) with
    | some b => (o.blocks.filter (fun a => decide (a.seq < n))).all (fun a => !o.sharesUnit a b)
    | none => false)
  | _ => true

/-- Whether an operation's block may land in parts: the bytes of a multicast become visible all at once (R176). -/
def XKind.inParts : XKind → Bool
  | .mcast => false
  | _ => true

/-- What lands of a block, and what is left of it: all of it, or its first n bytes where no destination unit is cut (R160, R161); where they
are all its bytes, its addition is left. -/
def XOp.piece (o : XOp) (b : Block) : Option Nat → Option (Block × Option Block)
  | none => some (b, none)
  | some n =>
    let c := b.cut n
    if 0 < n ∧ n ≤ b.bytes.length ∧ (o.kind.inParts || decide (n = b.bytes.length)) ∧ !o.sharesUnit c.1 c.2 then some (c.1, some c.2)
    else none

/-- Whether a piece of a block waits for a full line of its write-wait view (R29); it does not while the stream is being stopped, when
nothing may empty the line any more (log 16). -/
def State.pieceWaits (s : State) (o : XOp) (p : Block) : Bool := (s.core.fullLine o p.first p.bytes.length).isSome && !s.beingStopped .xfer

def State.landEvent (s : State) (l : Landing) : State :=
  match s.core.xfer.all.find? (fun o => o.blocks.any (fun b => decide (b.seq = l.block))) with
  | none => s
  | some o => match (o.blocks.find? (fun b => decide (b.seq = l.block))).bind (fun b => o.piece b l.upto) with
    | none => s
    | some (p, rest) =>
      let left := if rest.isNone then s.core.restHeld o p else rest
      if !o.landable l.block || s.pieceWaits o p || (left.isSome && p.bytes.isEmpty) then s
      else match s.landPart o p left with
        | (.ok, t) => t
        | (.badTag, _) => s.haltFor o
        | (.lost, _) => if o.inside then s.xferRollback o.pc else s.landLost o p

def execTransferBlockLand (core : Nat) (l : Landing) (s : State) : Out := .next (s.onCore core (fun s => s.landEvent l))

end Sys2Proof.Machine
end

