-- ==== Sys2Proof/Machine/Coll.lean ====
section
/-!
DEFINITION. Collectives (R185), what ends them early (R184, R322), and the boundary of an `eng.stop` (R17, R271, R322).
Assumption log 19 holds what the spec is brief about.
-/
namespace Sys2Proof.Machine

/-! ### Handing a collective over -/

def collScope (c : Scope) : Bool :=
  decide (c = .quad) || decide (c = .crew) || decide (c = .die) || decide (c = .package) || decide (c = .group)

/-- The unit of an operation's length. -/
def CollOp.unit : CollOp → Nat
  | .sumI32 => 4
  | .sumF32 => 4
  | .bcast => 1
  | .argmax => 8

def hostEnd : XEnd → Bool
  | .mem b _ => decide (b.kind = .host)
  | .tree _ _ _ => false

/-- Whether the firmware has bound an identifier to the crew of the focused core (R280 coll.bind). -/
def State.collBound (s : State) (ident : Nat) : Bool := match s.ctx s.core.ctxNum with
  | some c => c.binds.any (fun b => decide (b.1 = ident) && decide (b.2 = s.core.crewNum))
  | none => false

/-- The number that the next collective of an identifier has on this participant. -/
def XferEngine.collNum (x : XferEngine) (ident : Nat) : Nat := assocGet 0 x.colls ident

/-- The collective becomes the operation at issue; one that another participant's stop has ended fails at once (R322). -/
def State.startColl (s : State) (op : CollOp) (scope : Scope) (ident : Nat) (pt : XPoint) (e : XEnd) (len : Nat) : EngIssue :=
  let m := s.core.xfer.collNum ident
  let s1 := s.updXfer (fun x => { x with colls := assocSet x.colls ident (m + 1) })
  let t := s1.startOp (.coll op scope ident m) ⟨pt, some pt, e, some e⟩ len none
  .set (match s.core.xfer.lostColls.find? (fun x => decide (x.1 = ident) && decide (x.2.1 = m)), t.core.xfer.cur with
    | some x, some o => t.failCur o x.2.2
    | _, _ => t)

/-- The frame of `x.coll`: regions close first (R305). R185 names no code for a length that is no multiple of the op's unit: BOUNDS at
issue (log 24). -/
def State.coll (s : State) (op : CollOp) (scope : Scope) (e : EndPt) (l i : KIx) : State :=
  let x := s.core.xfer
  let len := x.kv l
  let ident := x.kv i
  s.issueXfer (
    if !collScope scope then .stop codeIllegal
    else if len % op.unit ≠ 0 ∨ (scope = .group ∧ !s.collBound ident) then .stop codeBounds
    else match s.core.endAt e len true with
      | .bounds n => .stop codeBounds (some n)
      | .revoking => .wait 10 0 s
      | .ok d => if hostEnd d then .stop codeBounds else s.closeXfer (fun t => t.startColl op scope ident (x.point e) d len))

def execXCollSumI32 (scope : Scope) (e : EndPt) (l i : KIx) (s : State) : Out := .next (s.coll .sumI32 scope e l i)
def execXCollSumF32 (scope : Scope) (e : EndPt) (l i : KIx) (s : State) : Out := .next (s.coll .sumF32 scope e l i)
def execXCollBcast (scope : Scope) (e : EndPt) (l i : KIx) (s : State) : Out := .next (s.coll .bcast scope e l i)
def execXCollArgmax (scope : Scope) (e : EndPt) (l i : KIx) (s : State) : Out := .next (s.coll .argmax scope e l i)

/-! ### The result (R185) -/

/-- Elements of w bytes. -/
def chunks (w : Nat) : (fuel : Nat) → List Byte → List (List Byte)
  | 0, _ => []
  | fuel + 1, l => if l.isEmpty then [] else l.take w :: chunks w fuel (l.drop w)

/-- The values of one element position over the participants. -/
def column (all : List (List (List Byte))) (j : Nat) : List (List Byte) := all.map (fun l => l.getD j [])

/-- The better of two (value, index) pairs, the first standing where they tie (R185, R69). -/
def betterPair (a b : List Byte) : List Byte :=
  let va := natOfBytes (a.take 4)
  let vb := natOfBytes (b.take 4)
  let ia := natOfBytes (a.drop 4)
  let ib := natOfBytes (b.drop 4)
  match isNanBits 23 va, isNanBits 23 vb with
  | true, true => if ib < ia then b else a
  | true, false => b
  | false, true => a
  | false, false =>
    if orderKey 23 vb > orderKey 23 va then b
    else if orderKey 23 vb = orderKey 23 va ∧ ib < ia then b else a

/-- The result at one element position. -/
def collElement (op : CollOp) (col : List (List Byte)) : List Byte :=
  match op with
  | .sumI32 => bytesOfNat 4 (wrapInt 32 (satInt 32 ((col.map intOfBytes).foldl (· + ·) 0)))
  | .sumF32 =>
    let n := ceilLog2 col.length
    let vals := col.map natOfBytes ++ List.replicate (2 ^ n - col.length) 0
    bytesOfNat 4 ((pairTree n vals).headD 0)
  | .bcast => col.headD []
  | .argmax => match col with
    | [] => []
    | a :: t => t.foldl betterPair a

/-- The result over the participants' bytes, in order; one participant keeps its own bytes. -/
def collResult (op : CollOp) (len : Nat) (all : List (List Byte)) : List Byte :=
  match all with
  | [a] => a
  | _ =>
    let parts := all.map (chunks op.unit len)
    (List.range (len / op.unit)).flatMap (fun j => collElement op (column parts j))

/-- A block of the result at one participant: it is written to the endpoint, or, where `form` says so, left to land part by part. -/
def State.landCollAt (s : State) (form : Bool) (ident m first : Nat) (bytes : List Byte) (core : Nat) : State :=
  let t := s.focus core
  match t.core.collOp ident m with
  | none => t
  | some o => match o.blockAt first with
    | none => t
    | some b =>
      let b1 : Block := { b with bytes := bytes, lost := false, badTag := false, formed := true }
      if form then t.settleOp { o with blocks := o.blocks.map (fun x => if x.seq = b.seq then b1 else x) }
      else match t.land o b1 with
      | (.ok, u) => u
      | (.badTag, _) => t.haltFor o
      | (.lost, _) => t.landLost o b

/-- A participant's contribution to a block of the result: member number, rank, op, length of the operation, bytes. -/
structure Contribution where
  member : Nat
  rank   : Nat
  op     : Nat
  len    : Nat
  bytes  : List Byte
  deriving DecidableEq, Repr

def CollOp.code : CollOp → Nat
  | .sumI32 => 0
  | .sumF32 => 1
  | .bcast => 2
  | .argmax => 3

/-- The order of positions (R185): member number, then `CREW_RANK`. -/
def Contribution.notAfter (a b : Contribution) : Bool :=
  decide (a.member < b.member) || (decide (a.member = b.member) && decide (a.rank ≤ b.rank))

def insertBy (a : Contribution) : List Contribution → List Contribution
  | [] => [a]
  | b :: t => if a.notAfter b then a :: b :: t else b :: insertBy a t

/-- Contributions in order of member and rank; equal ranks of different crews keep their order (log 19). -/
def orderMembers (l : List Contribution) : List Contribution := l.foldr insertBy []

/-- What one participant of this device contributes to the block at `first` of a collective; nothing while its crew does not hold its
core. -/
def State.contribution (s : State) (ident m first : Nat) (r : Rank) : Option (XOp × Contribution) :=
  let c := s.coreOf r.core
  if !s.seated r then none else (c.collOp ident m).bind (fun o => (o.blockAt first).map (fun b => (o,
    { member := if inGroup s.group.state then s.group.number else 0,
      rank := (match c.seat with
        | some x => x.rank
        | none => 0),
      op := (match o.kind with
        | .coll op _ _ _ => op.code
        | _ => 0),
      len := o.len, bytes := b.bytes })))

/-- What another device's rank contributes to the block of n bytes at `first`. -/
def remoteContribution (r : Remote) (first n : Nat) : Contribution :=
  { member := r.member, rank := r.rank, op := r.op, len := r.bytes.length, bytes := (r.bytes.drop first).take n }

/-- The core of a participant: the one it holds, or the one saved with its pre-empted crew. -/
def State.rankCore (s : State) (r : Rank) : Option Core :=
  if s.seated r then some (s.coreOf r.core)
  else (s.crew r.crew).bind (fun k => ((k.cores.zip k.saved).find? (fun x => decide (x.1 = r.core))).map (fun x => x.2.core))

/-- Whether a participant has issued the m-th collective and has it no longer: it was of length 0, or it has ended. -/
def State.collGone (s : State) (ident m : Nat) (r : Rank) : Bool := match s.rankCore r with
  | some c => decide (m < c.xfer.collNum ident) && (c.collOp ident m).isNone
  | none => false

/-- Whether a participant's operation has failed with blocks that it will never hand over. -/
def State.collCut (s : State) (ident m : Nat) (r : Rank) : Bool := match (s.rankCore r).bind (·.collOp ident m) with
  | some o => o.failed.isSome && decide (o.next < o.len)
  | none => s.collGone ident m r

/-- Whether the whole result is formed at a participant, and has only to land there: what ends the collective for others leaves it. -/
def State.collFormed (s : State) (ident m : Nat) (r : Rank) : Bool := match (s.rankCore r).bind (·.collOp ident m) with
  | some o => decide (o.len ≤ o.next) && o.blocks.all (·.formed)
  | none => false

/-- The block that n names: the first of operation n, or the block with number n. The blocks of a result are written in no fixed order
(R160). -/
def XferEngine.collBlock (x : XferEngine) (n : Nat) : Option (XOp × Block) :=
  match x.all.find? (fun o => decide (o.id = n)) with
  | some o => (o.blocks.find? (fun b => !b.formed)).map (fun b => (o, b))
  | none => x.all.findSome? (fun o => (o.blocks.find? (fun b => decide (b.seq = n) && !b.formed)).map (fun b => (o, b)))

/-- A block of a collective that the focused core takes part in: its result is formed once every participant has handed it over (R160,
R185). What becomes of the others where one has ended the collective early (BOUNDS), or has lost what it gives (DATA_LOST), the spec does
not say; scopes that the participants give one collective are not compared, and the participants are those of the scope that this core's word
names (DESIGN CHOICE, log 19). With `form` the result is formed and left to land. -/
def State.collEvent (s : State) (form : Bool) (n : Nat) (remote : List Remote) : State :=
  match s.core.xfer.collBlock n with
  | none => s
  | some (o, b) => match o.collInfo with
    | some (op, scope, ident, m) =>
      let l := s.participants scope ident
      let home := s.core.id
      if !l.any (fun r => decide (r.core = home)) then s
      else if l.any (s.collGone ident m) then s.failColl ident m codeBounds noBits l (fun _ => false)
      else match l.mapM (s.contribution ident m b.first) with
      | none => s
      | some got =>
        let all := orderMembers (got.map Prod.snd ++
          (if scope = .group ∧ inGroup s.group.state then remote.map (fun r => remoteContribution r b.first b.bytes.length) else []))
        let lost : XOp × Contribution → Bool := fun x => match x.1.blockAt b.first with
          | some y => y.lost
          | none => false
        let bad : XOp × Contribution → Bool := fun x => match x.1.blockAt b.first with
          | some y => y.badTag
          | none => false
        if got.any bad then s.haltFor o
        else if all.any (fun c => decide (c.op ≠ op.code) || decide (c.len ≠ o.len)) then
          s.failColl ident m codeBounds noBits l (fun _ => false)
        else if got.any lost then
          s.failColl ident m codeDataLost noBits l (fun f => s.blockShared ident m l f && decide (f ≠ b.first))
        else
          let t := (l.foldl (fun s r => s.landCollAt form ident m b.first
            (collResult op b.bytes.length (all.map (·.bytes))) r.core) s).focus home
          if l.any (t.collCut ident m) then
            t.failColl ident m codeDataLost noBits (l.filter (fun r => !t.collFormed ident m r)) (t.blockShared ident m l)
          else t
    | none => s

def execCollectiveResult (core op : Nat) (remote : List Remote) (s : State) : Out :=
  .next (s.onCore core (fun s => s.collEvent false op remote))

/-! ### The boundary of an `eng.stop` (R322) -/

/-- An operation that still has blocks to hand over fails with PREEMPTED; a held word that has not been issued stays held. -/
def State.abandonCur (s : State) : State := match s.core.xfer.cur with
  | some o => if o.unissued then
      s.updXfer (fun x => { x with cur := none, index := [], regions := match x.regions with
        | r :: t => { r with held := o :: r.held } :: t
        | [] => [] })
    else match o.collInfo with
    | some _ => s
    | none => (s.updXfer (fun x => { x with cur := none, ops := x.ops ++ [{ o with issued := true, taken := [] }] })).settleOp
        { o with issued := true, taken := [], failed := o.failed.or (some codePreempted) }
  | none => s

/-- Every collective whose result is not written yet is withdrawn for every participant. -/
def State.withdrawColls (s : State) : State :=
  (s.core.xfer.all.filterMap XOp.collInfo).foldl (fun s i =>
    s.failColl i.2.2.1 i.2.2.2 codePreempted noBits (s.participants i.2.1 i.2.2.1) (fun _ => false)) s

/-- What a transfer stream gives up at an `eng.stop`. -/
def State.dropTransfers (s : State) : State :=
  let pc := s.core.xfer.eng.pc
  let s1 := (s.abandonCur.withdrawColls).updXfer (fun x => { x with eng := { x.eng with pc := pc } })
  s1.updXfer (fun x => ({ x with openBatch := none, batches := x.batches ++ x.openBatch.toList, fails := [] }).sweep)

/-- The stream that `eng.stop` named is at its boundary: it ends what it must and stops with code OK (R17, R271, R322). A matrix
stream in the middle of a reduction spills, its slots released (R123). -/
def State.stopNow (s : State) (e : Eng) : State :=
  let c := s.core
  if !((c.eng e).stopReq && (c.eng e).st.live && c.atBoundary e) then s
  else match e with
    | .vec => s.stopEngine .vec 1 codeOk c.vec.eng.pc false false false
    | .mat =>
      let s1 := s.updMat (fun m => { m with atRet := false })
      if c.mat.openRed.isNone then s1.stopEngine .mat 1 codeOk c.mat.eng.pc false false false
      else if c.mat.held.isEmpty then (s1.upd (fun c => c.spillNow codeOk)).stopEngine .mat 1 codeOk c.mat.eng.pc true false false
      else s
    | .xfer => (s.dropTransfers).stopEngine .xfer 1 codeOk c.xfer.eng.pc false false false

def execStopBoundaryReached (core : Nat) (e : Eng) (s : State) : Out := .next (s.onCore core (fun s => s.stopNow e))

end Sys2Proof.Machine
end

