-- ==== Sys2Proof/Machine/Ring.lean ====
section
/-!
DEFINITION. Queue interfaces: how the firmware takes packets from a submission ring and answers them (R275 to R279, R281).
Assumption log 22 holds what the spec is brief about.
-/
namespace Sys2Proof.Machine

/-! ### Packets (R276, R280) -/

/-- A packet from the 64 bytes of its slot. -/
def packetOf (l : List Byte) : Packet :=
  let w : Nat → Nat := fun i => natOfBytes ((l.drop (8 * i)).take 8)
  { op := bitsOf (w 0) 7 0, part := bitsOf (w 0) 47 40, ctx := bitsOf (w 0) 39 32, tag := bitsOf (w 0) 31 16,
    a0 := wordOfNat (w 1), a1 := wordOfNat (w 2), a2 := wordOfNat (w 3), a3 := wordOfNat (w 4), a4 := wordOfNat (w 5),
    a5 := wordOfNat (w 6),
    zero := decide (bitsOf (w 0) 63 48 = 0) && decide (bitsOf (w 0) 15 8 = 0) && decide (bitsOf (w 7) 62 0 = 0) }

/-- The op values that R280 assigns. -/
def opAssigned (op : Nat) : Bool := decide (1 ≤ op) && decide (op ≤ 0x16)

/-! ### Taking packets (R277) -/

/-- The slot at the consumer index. -/
def Iface.slot (i : Iface) : PAddr := i.host (i.sqbase.toNat + 64 * (i.cons.toNat % 2 ^ i.sqlog))

/-- Whether the firmware takes the next packet of an interface now: it runs, no packet of it is being carried out, a slot is
named, and the last one it looked at was not empty. -/
def Iface.wants (i : Iface) : Bool := i.enable && !i.busy && !i.stall && decide (i.cons ≠ i.notify)

def Agent.isCommand : Agent → Bool
  | .command _ _ => true
  | _ => false

/-- A turn behind the commands that already come next: commands are carried out in the order in which they were taken (R281). -/
def afterCommands (l : List Turn) (t : Turn) : List Turn :=
  l.takeWhile (·.agent.isCommand) ++ t :: l.dropWhile (·.agent.isCommand)

/-- The packet at an interface's consumer index is taken, and its command comes next. -/
def State.takePacket (s : State) (q : Fin 64) : State :=
  let i := s.fw.ifaces[q]
  if !(i.wants && s.fw.ready && !s.fw.railsDown) then s
  else
    let l := s.readBytes (placesFrom i.slot 64)
    if s.eccRead (placesFrom i.slot 64) ≠ .ok ∨ !(natOfBytes (l.drop 56)).testBit 63 then
      s.updIface q (fun i => { i with stall := true })
    else
      let p := packetOf l
      let s1 := (s.writeNat (i.slot.plus 56) 8 0).updIface q (fun i => { i with cons := i.cons + 1, busy := true })
      if p.zero ∧ opAssigned p.op then { s1 with sched := afterCommands s1.sched ⟨0, 0, [], .command q p⟩ }
      else s1.complete q codeIllegal.toNat p.part p.ctx p.tag 1 []

/-- Packets are taken until a command has to be carried out first; a ring holds at most 4,096. -/
def State.pump (s : State) (q : Fin 64) : (fuel : Nat) → State
  | 0 => s
  | fuel + 1 => if s.fw.ifaces[q].wants && s.fw.ready && !s.fw.railsDown then (s.takePacket q).pump q fuel else s

def ringSlots : Nat := 4096

/-! ### Answers (R278, R279, R281) -/

/-- The completion of a command; the interface's next packet is then taken. -/
def State.answer (s : State) (q : Fin 64) (p : Packet) (code : Code) (reason : Nat) (results : List Word) : State :=
  (s.complete q code.toNat p.part p.ctx p.tag reason results).pump q ringSlots

def State.okCmd (s : State) (q : Fin 64) (p : Packet) (results : List Word) : State := s.answer q p codeOk 0 results

def State.refuseCmd (s : State) (q : Fin 64) (p : Packet) (reason : Nat) : State := s.answer q p codeIllegal reason []

/-- A command that waits (R281). -/
def State.waitCmd (s : State) (q : Fin 64) (p : Packet) : State :=
  { s with fw := { s.fw with pending := s.fw.pending ++ [⟨q, p, 0⟩] } }

/-- Whether a packet of an interface is about a partition: the one that it names, or every one (`checkpoint` and `restore` on interface A). -/
def State.touches (s : State) (q : Fin 64) (p : Packet) (part : Nat) : Bool :=
  if q = 0 then (decide (p.op = 0x02) && decide (p.part = part)) || decide (p.op = 0x0C) || decide (p.op = 0x0D)
  else decide (p.part = part) && (match s.part part with
    | some x => x.ifaces.toNat.testBit q.val
    | none => false)

/-- Whether a command has to take effect after one that another interface gave before it and that waits (R281): both are about one
partition, and the earlier one is itself put off, or a checkpoint, or a `debug` halt of the same context, or the later one is a checkpoint or a
restore, or destroys a partition in which a context is still to be created. Every other pair takes effect in the order of taking as it is: what
the earlier command changes, it changed when it was taken (log 22). -/
def State.comesAfter (s : State) (q : Fin 64) (p : Packet) (x : Pending) : Bool :=
  decide (x.q ≠ q) && (List.range 8).any (fun n => s.touches x.q x.p n && s.touches q p n) &&
  (decide (x.stage = 1) || decide (x.p.op = 0x0C) || (decide (x.p.op = 0x12) && decide (x.p.ctx = p.ctx)) ||
    decide (p.op = 0x0C) || decide (p.op = 0x0D) || (decide (p.op = 0x02) && decide (x.p.op = 0x03)))

/-- A command that is put off until those before it have taken effect. -/
def State.putOff (s : State) (q : Fin 64) (p : Packet) : State :=
  { s with fw := { s.fw with pending := s.fw.pending ++ [⟨q, p, 1⟩] } }

/-- Before stage 6 only `config`, `patch` and `attest` are accepted (R285). Commands about one partition take effect in the order in which
they are taken (R281). -/
def State.staged (s : State) (q : Fin 64) (p : Packet) (k : State) : State :=
  if s.fw.stage ≠ 6 then s.refuseCmd q p 7
  else if s.fw.pending.any (s.comesAfter q p) then s.putOff q p
  else k

/-- On interface A alone. -/
def State.onAdmin (s : State) (q : Fin 64) (p : Packet) (k : State) : State :=
  s.staged q p (if q = 0 then k else s.refuseCmd q p 2)

/-- Whether a `part.destroy` of a partition, or a `ctx.destroy` of a context, is under way: to every command taken later they are gone
(R281). -/
def State.partGoing (s : State) (n : Nat) : Bool := s.fw.pending.any (fun x => decide (x.p.op = 0x02) && decide (x.p.part = n))

def State.ctxGoing (s : State) (n : Nat) : Bool := s.fw.pending.any (fun x => decide (x.p.op = 0x04) && decide (x.p.ctx = n))

/-- On an interface of the partition that the packet names. -/
def State.onPart (s : State) (q : Fin 64) (p : Packet) (k : Partition → State) : State :=
  s.staged q p (match s.part p.part with
    | some x => if q ≠ 0 ∧ x.ifaces.toNat.testBit q.val ∧ !s.partGoing x.num then k x else s.refuseCmd q p 2
    | none => s.refuseCmd q p 2)

/-- On an interface of the partition, for one of its contexts. -/
def State.onCtx (s : State) (q : Fin 64) (p : Packet) (k : Partition → Context → State) : State :=
  s.onPart q p (fun x => match s.ctx p.ctx with
    | some c => if c.part ≠ x.num then s.refuseCmd q p 2 else if s.ctxGoing c.num then s.refuseCmd q p 5 else k x c
    | none => s.refuseCmd q p 5)

/-! ### The host's side (R275, R277) -/

/-- R277: a producer index more than the ring's length ahead is ignored and logged. -/
def State.notify (s : State) (q : Fin 64) (n : BitVec 32) : State :=
  let i := s.fw.ifaces[q]
  if !i.enable then s
  else if (n - i.cons).toNat > 2 ^ i.sqlog then s.logDevice .notify q.val
  else (s.updIface q (fun i => { i with notify := n, stall := false })).pump q ringSlots

def execNotifyWrite (q : Fin 64) (n : BitVec 32) (s : State) : Out := .next (s.notify q n)

/-- Whether a value of the register at 0x18 keeps to its ranges. -/
def controlOk (v : Nat) : Bool :=
  decide (bitsOf v 63 48 = 0) && decide (bitsOf v 47 32 ≤ 64) && decide (bitsOf v 30 28 = 0) && decide (4 ≤ bitsOf v 27 24) &&
  decide (bitsOf v 27 24 ≤ 12) && decide (4 ≤ bitsOf v 23 20) && decide (bitsOf v 23 20 ≤ 12)

/-- A write of the register at 0x18 (R275). While the interface runs only a change of enable to 0 counts. IDE keys come with boot
stage 3 (R274, R285). -/
def State.writeControl (s : State) (q : Fin 64) (v : Word) : State :=
  let x := v.toNat
  let on := x.testBit 31
  if s.fw.ifaces[q].enable then
    if on then s else s.updIface q (fun i => { i with enable := false })
  else if !controlOk x ∨ s.fw.stage < 3 then s
  else s.updIface q (fun i =>
    let j := { i with vector := bitsOf x 47 32, evlog := bitsOf x 27 24, sqlog := bitsOf x 23 20, pasid := bitsOf x 19 0 }
    if on then { j with enable := true, cons := 0, event := 0, notify := 0, stall := false, busy := false } else j)

def execInterfaceEnable (q : Fin 64) (v : Word) (s : State) : Out := .next (s.writeControl q v)

/-- The low n bits of a host address cleared. -/
def alignDown (n : Nat) (v : Word) : Word := wordOfNat (v.toNat / 2 ^ n * 2 ^ n)

/-- A write of BAR0: the registers of an interface's page; every other write is ignored (R275). -/
def State.writeBar (s : State) (off : Nat) (v : Word) : State :=
  let page := off / 4096
  if page = 0 ∨ page > 64 then s
  else
    let q : Fin 64 := Fin.ofNat 64 (page - 1)
    let base : (Iface → Iface) → State := fun f => if s.fw.ifaces[q].enable then s else s.updIface q f
    match off % 4096 with
    | 0x00 => base (fun i => { i with sqbase := alignDown 6 v })
    | 0x08 => base (fun i => { i with evbase := alignDown 7 v })
    | 0x10 => base (fun i => { i with cnt := alignDown 3 v })
    | 0x18 => s.writeControl q v
    | 0x20 => s.notify q (v.setWidth 32)
    | _ => s

def execBar0RegisterWrite (off : Nat) (v : Word) (s : State) : Out := .next (s.writeBar off v)

end Sys2Proof.Machine
end

