-- ==== Sys2Proof/Machine/Crew.lean ====
section
/-!
DEFINITION. Crews: the end of a core program and of a crew (R20, R25, R104), launch packets (R23, R24), placing a crew (R22,
R25, R268), forced pre-emption, saving, resuming and discarding (R269 to R273). Assumption log 21 holds what the spec is brief
about.
-/
namespace Sys2Proof.Machine

/-! ### Cores of a partition -/

/-- Every core of the package in ascending order of (DIE_ID, CORE_ID). -/
def allCores : List Nat := (List.range 4).flatMap (fun d => rangeFrom (128 * d) 96)

def Partition.cores (p : Partition) : List Nat := allCores.filter (fun n => p.quads.contains (packageQuad n))

/-- The cores of the partition of a context. -/
def State.partCores (s : State) (ctx : Nat) : List Nat :=
  match (s.ctx ctx).bind (fun c => s.part c.part) with
  | some p => p.cores
  | none => []

/-- The cores that hold crews of a context. -/
def State.ctxCores (s : State) (ctx : Nat) : List Nat :=
  allCores.filter (fun n => match (s.coreOf n).seat with
    | some x => decide (x.ctx = ctx)
    | none => false)

/-- The core that a cause of no core names (R278). -/
def State.lowestCore (s : State) (ctx : Nat) : Nat := (s.ctxCores ctx).headD 0

/-! ### Accesses that still name a core's local store -/

def inStore (id : Nat) (p : PAddr) : Bool := decide (p.space = .window) && decide (p.addr / 2 ^ 22 = id)

def Binding.over (b : Binding) (ids : List Nat) : Bool :=
  decide (b.kind = .window) && b.segs.any (fun g => ids.contains (g.pa.addr / 2 ^ 22))

def HeldEffect.places : HeldEffect → List PAddr
  | .store _ l _ _ _ => l.map Prod.fst
  | .atom _ n _ _ pa _ _ _ => placesFrom pa n
  | .push _ _ => []
  | .billet k _ _ => k.places
  | .cinch _ l => l.flatMap (·.kind.places)

/-- Whether a core still has an access, issued or held, to a place. -/
def Core.pendingAt (c : Core) (f : PAddr → Bool) : Bool :=
  c.seq.lq.any (fun l => l.cells.any f) || c.seq.sq.any (fun e => e.kind.places.any f) ||
  (match c.seq.cinch with
    | some x => x.stores.any (fun e => e.kind.places.any f)
    | none => false) ||
  c.seq.regions.any (fun r => r.held.any (fun h => h.places.any f)) ||
  c.vec.vp.any (fun e => e.kind.places.any f) ||
  c.vec.regions.any (fun r => r.held.any (fun e => e.kind.places.any f)) ||
  c.xfer.regions.any (fun r => r.adds.any (fun a => f a.pa))

/-- Whether a core still has an access to a core's local store, a binding over it with accesses in flight, or one that drains and that a
step word still hands blocks over on (R90). -/
def Core.reaches (c : Core) (id : Nat) : Bool :=
  c.pendingAt (inStore id) || c.seq.bindings.any (fun b => b.over [id] && decide (c.inFlight b.id ≠ 0)) ||
  c.seq.draining.any (fun b => b.over [id] && c.drains b)

/-- Whether every stream of a core is at its boundary, its queues empty and its fences complete; a collective that still waits for its
participants is withdrawn (R187). -/
def Core.saveReady (c : Core) : Bool :=
  c.seq.lq.isEmpty && c.seq.sq.isEmpty && c.seq.fences.isEmpty &&
  (!c.vec.eng.st.live || c.atBoundary .vec) && (!c.mat.eng.st.live || c.atBoundary .mat) &&
  c.vec.vp.isEmpty && c.atBoundary .xfer

/-- Whether a core's crew is being stopped and every core of it stands at its boundary: what they still hold is held until it goes on. -/
def State.crewRests (s : State) (c : Core) : Bool := match s.crew c.crewNum with
  | some k => c.seat.isSome && s.crewStopping k.num && k.cores.all (fun id => (s.coreOf id).saveReady)
  | none => false

/-- Whether some core other than those of `own`, and of no crew that stands still, has an access under way to a core's local store. -/
def State.storeBusyFrom (s : State) (own : List Nat) (id : Nat) : Bool :=
  s.cores.any (fun c => !own.contains c.id && c.reaches id && !s.crewRests c)

/-- Whether a saved crew still has to reach the local store of a core that is not its own: what it holds was translated to that place and is
still to be performed (R220). -/
def Crew.reaches (k : Crew) (id : Nat) : Bool := !k.cores.contains id && k.saved.any (fun v => v.core.reaches id)

/-- Whether a core or a saved crew still reaches the local store of a core, but for those that may. -/
def State.storeBusy (s : State) (may : List (Nat × Nat)) (id : Nat) : Bool :=
  s.cores.any (fun c => decide (c.id ≠ id) && c.reaches id && !may.contains (c.crewNum, id)) ||
  s.crews.any (fun k => k.reaches id && !may.contains (k.num, id))

/-- The crews that stand still or are saved and reach cores of a crew, with those cores. -/
def State.stoodBy (s : State) (own : List Nat) : List (Nat × Nat) :=
  own.flatMap (fun id =>
    ((s.cores.filter (fun c => !own.contains c.id && c.reaches id)).map (fun c => (c.crewNum, id))) ++
    ((s.crews.filter (fun k => k.reaches id)).map (fun k => (k.num, id))))

/-- The cores of saved crews changed. -/
def Crew.mapSaved (f : Core → Core) (k : Crew) : Crew := { k with saved := k.saved.map (fun v => { v with core := f v.core }) }

/-- A core that a crew can be placed on. -/
def State.coreFree (s : State) (id : Nat) : Bool := (s.coreOf id).seat.isNone && !s.storeBusy [] id

/-- Whether a core is kept for a crew that a checkpoint has saved: those crews resume once it is over (R286 step 3). -/
def State.reserved (s : State) (id : Nat) : Bool :=
  s.crews.any (fun k => k.forCheckpoint && decide (k.state = .saved) && !s.ctxHalted k.ctx && k.cores.contains id)

def State.coreOpen (s : State) (id : Nat) : Bool := s.coreFree id && !s.reserved id

def State.freeCores (s : State) (ctx : Nat) : List Nat := (s.partCores ctx).filter s.coreOpen

/-! ### Revoking bindings (R91, R219, R220) -/

/-- Begin to revoke the LIVE bindings that a test picks. -/
def Core.revokeIf (c : Core) (f : Binding → Bool) : Core :=
  c.updSeq (fun q => { q with h := q.h.map (fun o => o.map (fun b => if f b && b.usable then { b with revoking := true } else b)) })

/-- Bindings of a core to the windows of others of these cores fall under an unmap, whichever crew the core belongs to, those of saved crews
with them (R220); a saved crew's windows on its own cores were dealt with when it was saved. -/
def State.revokeWindows (s : State) (ids : List Nat) : State :=
  let s1 := s.mapCores (fun c => c.revokeIf (fun b => b.over (ids.filter (fun n => decide (n ≠ c.id)))))
  { s1 with crews := s1.crews.map (fun k => k.mapSaved (fun c => c.revokeIf (fun b => b.over (ids.filter (fun n => !k.cores.contains n))))) }

/-- In-flight accesses of collectives on a binding: an unmap under a context halt does not wait for them (R219). -/
def Core.collsOn (c : Core) (b : Nat) : Nat :=
  (c.xfer.all.map (fun o => if o.kind.path = .cp then o.blocks.countP (fun x => x.binds.contains b) +
    (match o.dst with
      | .mem x _ => if x.id = b then 1 else 0
      | .tree _ _ _ => 0) else 0)).foldl (· + ·) 0

/-- Whether a binding has nothing in flight that its unmap waits for. -/
def Core.idleOn (c : Core) (halted : Bool) (b : Nat) : Bool :=
  decide (c.inFlight b = 0) || (halted && decide (c.inFlight b ≤ c.collsOn b))

/-- The bindings being revoked whose accesses are all performed become REVOKED (R91). -/
def Core.finishRevoke (c : Core) (halted : Bool) : Core :=
  c.updSeq (fun q => { q with h := q.h.map (fun o => o.map (fun b =>
    if b.revoking && c.idleOn halted b.id then { b with revoking := false, revoked := true } else b)) })

def State.finishRevokes (s : State) : State :=
  let s1 := s.mapCores (fun c => c.finishRevoke (s.ctxHalted c.ctxNum))
  { s1 with crews := s1.crews.map (fun k => k.mapSaved (·.finishRevoke (s.ctxHalted k.ctx))) }

/-! ### The end of a core program and of a crew (R18, R25, R104) -/

/-- The code of the lowest-numbered engine stream in STOPPED with a fault code (R25). -/
def Core.faultCode (c : Core) : Code :=
  match [c.vec.eng, c.mat.eng, c.xfer.eng].find? (fun e => decide (e.st = .stopped) && decide (e.code ≠ 0)) with
  | some e => e.code
  | none => codeOk

/-- Every LIVE binding drains, a REVOKED one is released (R90). -/
def Core.detachAll (c : Core) : Core :=
  (c.updSeq (fun q => { q with
    h := Vector.replicate 64 none, draining := q.draining ++ q.bindings.filter (fun b => !b.revoked) })).release

/-- The core program ends. -/
def State.endCore (s : State) : State :=
  ((s.next.upd Core.detachAll).updSeq (fun q => { q with ended := true, endCode := s.core.faultCode })).checkYield s.core.crewNum

def Core.enginesDone (c : Core) : Bool := !c.vec.eng.st.live && !c.mat.eng.st.live && !c.xfer.eng.st.live

/-- R104. In which order `end` makes its waits is not stated: it begins to close its regions once the engines are done and both queues are
empty (log 24). -/
def execEndProg (s : State) : Out :=
  .next (s.issueSeq (s.noCinch (
    if s.core.enginesDone && s.core.seq.lq.isEmpty && s.core.seq.sq.isEmpty then s.closeFirst (fun t => .done t.endCore)
    else .wait s)))

/-- Whether nothing of an ended core program is under way any more, but for collectives, which are dropped with it. -/
def Core.quiet (c : Core) : Bool := c.seq.ended && c.vec.vp.isEmpty && c.atBoundary .xfer

/-- The core that core 127 names in a crew's done address (R321). -/
def Crew.own (k : Crew) : Option Nat := match k.origin with
  | .block pusher _ => some pusher
  | _ => k.cores.head?

/-- The completion code of a crew (R25): that of the lowest-ranked core that has one. -/
def State.crewCode (s : State) (k : Crew) : Code :=
  match k.cores.find? (fun n => decide ((s.coreOf n).seq.endCode ≠ 0)) with
  | some n => (s.coreOf n).seq.endCode
  | none => codeOk

/-- A crew's cores are no longer held; other cores' bindings to them fall under an unmap. -/
def State.releaseCores (s : State) (ctx : Nat) (ids : List Nat) : State :=
  (ids.foldl (fun s n => s.updCore n (fun c => { c with seat := none, lastCtx := some ctx })) s).revokeWindows ids

/-- A harness that has been ended is given up with its last instance. -/
def State.dropHarness (s : State) (ctx : Nat) : State :=
  if s.crews.any (fun k => decide (k.ctx = ctx) && decide (k.state ≠ .ended) && (match k.origin with
    | .stage _ => true
    | _ => false)) then s
  else s.updCtx ctx (fun c => { c with harness := c.harness.filter (fun h => !h.ended) })

def State.setCrewEnded (s : State) (n : Nat) : State :=
  s.updCrew n (fun k => { k with state := .ended, saved := [], asked := none })

/-- The cores that a donor frees go to the stage on whose behalf it was asked (R266 step 3). -/
def State.oweCores (s : State) (k : Crew) : State := match k.asked with
  | some (some st) => s.updCtx k.ctx (fun c => { c with harness := c.harness.map (fun h => { h with
      owed := h.owed ++ k.cores.map (fun n => (n, st)) }) })
  | _ => s

/-- The last core of a crew has ended: the completion addition, then the release of the cores (R25), which go to the stage that a donor was
asked for (R266). -/
def State.finishCrew (s : State) (n : Nat) : State :=
  match s.crew n with
  | none => s
  | some k =>
    if k.state = .running ∧ !s.ctxHalted k.ctx ∧ k.cores.all (fun id => (s.coreOf id).quiet) then
      let s1 := s.doneAdd k.ctx k.packet.done k.own none (s.crewCode k) 0
      (((s1.releaseCores k.ctx k.cores).oweCores k).setCrewEnded n).dropHarness k.ctx
    else s

/-! ### Launch packets (R23, R24, R256) -/

/-- n bytes at an offset as a number. -/
def fieldAt (l : List Byte) (off n : Nat) : Nat := natOfBytes ((l.drop off).take n)

def launchOf (l : List Byte) : LaunchPacket :=
  { crew := bitsOf (fieldAt l 0 4) 31 16
    res :=
      { encv := bitsOf (fieldAt l 0 4) 7 0, ls := bitsOf (fieldAt l 4 4) 26 16, tree := bitsOf (fieldAt l 4 4) 11 0,
        handles := bitsOf (fieldAt l 8 4) 21 16, wb := bitsOf (fieldAt l 8 4) 12 0, undo := bitsOf (fieldAt l 12 4) 9 0,
        lens := Vector.ofFn (fun i : Fin 4 => fieldAt l (0x18 + 2 * i.val) 2) }
    code := fieldAt l 0x10 8, done := fieldAt l 0x20 8
    args := Vector.ofFn (fun i : Fin 8 => wordOfNat (fieldAt l (0x40 + 8 * i.val) 8))
    phase := bitsOf (fieldAt l 0x28 4) 21 16, cmax := bitsOf (fieldAt l 0x28 4) 8 0, cmin := bitsOf (fieldAt l 0x2C 4) 24 16
    bound := bitsOf (fieldAt l 0x2C 4) 15 0, ydl := fieldAt l 0x30 4 }

def launchKind (l : List Byte) : Nat := bitsOf (fieldAt l 0 4) 15 8

/-- The fields that R23 keeps zero. -/
def reservedOk (l : List Byte) : Bool :=
  decide (bitsOf (fieldAt l 4 4) 31 27 = 0) && decide (bitsOf (fieldAt l 4 4) 15 12 = 0) &&
  decide (bitsOf (fieldAt l 8 4) 31 22 = 0) && decide (bitsOf (fieldAt l 8 4) 15 13 = 0) && decide (bitsOf (fieldAt l 12 4) 31 10 = 0)

/-- Pages of 4,096 bytes of the code area (R23). -/
def Resources.codePages (r : Resources) : Nat := ceilDiv (4 * r.words) 4096

def resourcesOk (r : Resources) : Bool :=
  decide (1 ≤ r.encv) && decide (r.encv ≤ 3) && decide (r.ls ≤ 960) && decide (1 ≤ r.tree) && decide (r.tree ≤ 2048) &&
  decide (r.wb ≤ 4096) && decide (r.undo ≤ 512) && r.lens.all (fun n => decide (n ≤ 16384)) && decide (1 ≤ r.len .seq) &&
  decide (r.ls + r.codePages ≤ 960)

/-- The stage fields of a template (R256). -/
def stageOk (l : List Byte) : Bool :=
  let p := launchOf l
  decide (bitsOf (fieldAt l 0x28 4) 31 22 = 0) && decide (bitsOf (fieldAt l 0x28 4) 15 9 = 0) &&
  decide (bitsOf (fieldAt l 0x2C 4) 31 25 = 0) && decide (fieldAt l 0x34 12 = 0) && decide (1 ≤ p.phase) && decide (p.phase ≤ 47) &&
  decide (1 ≤ p.cmax) && decide (p.cmax ≤ 384) && decide (p.cmin ≤ p.cmax) && decide (1 ≤ p.bound) &&
  (decide (p.ydl = 0) || (decide (4096 ≤ p.ydl) && decide (p.ydl < 2 ^ 31)))

/-- The reason for which a packet of a kind is refused (R24, R257, R279); none where it is accepted. -/
def launchRefused (l : List Byte) (kind cores : Nat) : Option Nat :=
  let p := launchOf l
  if launchKind l ≠ kind ∨ !reservedOk l ∨ !resourcesOk p.res ∨ p.crew = 0 then some 3
  else if kind = 0 ∧ fieldAt l 0x28 24 ≠ 0 then some 3
  else if kind = 1 ∧ !stageOk l then some 3
  else if p.crew > cores then some 6
  else none

/-! ### Reading and writing a context's memory for the firmware (R23, R268, R280) -/

/-- A range cut at multiples of 4,096. -/
def pieces (va n : Nat) : List (Nat × Nat) :=
  if n = 0 then [] else (pagesOf va n 4096).map (fun p => (va + (pageSpan va n p 4096).1, (pageSpan va n p 4096).2))

def Walk.failsWith (f : Nat → Bool) : Walk → Bool
  | .fault x _ => f x.cause
  | _ => false

/-- The places of n bytes of a context: INTEGRITY, BOUNDS for a page not mapped, DATA_LOST where a table is lost. -/
def State.ctxPlaces (s : State) (ctx : Nat) (own : Option Nat) (va n : Nat) (write : Bool) : Except Code (List PAddr) :=
  let l := (pieces va n).map (fun x => (s.walk ctx own x.1 write, x.2))
  if l.any (fun x => decide (x.1 = .badTag)) then .error codeIntegrity
  else if l.any (fun x => x.1.failsWith (fun c => decide (c ≠ 6))) then .error codeBounds
  else if l.any (fun x => x.1.failsWith (fun _ => true)) then .error codeDataLost
  else .ok (l.flatMap (fun x => match x.1 with
    | .ok pa _ _ => placesFrom pa x.2
    | _ => []))

def State.readPlaces (s : State) (l : List PAddr) : Except Code (List Byte) :=
  match s.eccRead l with
  | .ok => .ok (s.readBytes l)
  | .lost => .error codeDataLost
  | .badTag => .error codeIntegrity

def State.ctxRead (s : State) (ctx va n : Nat) : Except Code (List Byte) :=
  match s.ctxPlaces ctx none va n false with
  | .ok l => s.readPlaces l
  | .error e => .error e

/-- The code sections of a packet (R23). DESIGN CHOICE: an unmapped page is told before a sector that is lost (R268: log 21). -/
def State.readCode (s : State) (ctx : Nat) (p : LaunchPacket) : Except Code (List Byte) := s.ctxRead ctx p.code (4 * p.res.words)

/-! ### Placing a crew (R22, R25) -/

/-- A core at its first instruction. -/
def Core.launched (c : Core) (seat : Seat) (args : Vector Word 8) : Core :=
  let g : Vector GReg 32 := Vector.ofFn (fun i : Fin 32 =>
    if 1 ≤ i.val ∧ i.val ≤ 8 then ⟨args[(Fin.ofNat 8 (i.val - 1) : Fin 8)], true⟩ else GReg.zero)
  { Core.blank c.id with
    seat := some seat, lastCtx := some seat.ctx, issue := c.issue, seq := { Sequencer.zero with g := g },
    mat := { MatEngine.zero with budget := c.mat.budget, spent := c.mat.spent, window := c.mat.window } }

/-- Bytes of a core's local store: how many are scrubbed when a crew of context ctx takes the core (R177, R282). -/
def Core.scrubbed (c : Core) (ctx : Nat) : Nat := if c.lastCtx = some ctx then castBase else 2 ^ 22

/-- Zero the first n bytes of a core's local store; they are good again. -/
def State.scrubStore (s : State) (id n : Nat) : State :=
  let out : PAddr → Bool := fun p => !(decide (p.space = .window) && decide (storeBase id ≤ p.addr) && decide (p.addr < storeBase id + n))
  { s with window := sparseOut (storeBase id) n s.window, lost := s.lost.filter out, badTag := s.badTag.filter out }

/-- Bytes written at an offset of a core's local store. -/
def State.fillStore (s : State) (id off : Nat) (l : List Byte) : State := s.writeCells (cellsAt ⟨.window, storeBase id + off⟩ l)

/-- A core passes to a crew: what reached it before has been performed. -/
def State.forgetStood (s : State) (id : Nat) : State :=
  { s with crews := s.crews.map (fun k => { k with stood := k.stood.filter (fun x => decide (x.2 ≠ id)) }) }

/-- One core of a crew takes its place. -/
def State.placeCore (s : State) (crew ctx rank : Nat) (p : LaunchPacket) (code image : List Byte) (id : Nat) : State :=
  let s1 := s.scrubStore id ((s.coreOf id).scrubbed ctx)
  let s2 := (s1.fillStore id 0 image).fillStore id (p.res.ls * 4096) code
  (s2.updCore id (fun c => c.launched ⟨crew, ctx, rank, p.crew, p.res⟩ p.args)).forgetStood id

/-- A crew on its cores, in order of rank. -/
def State.placeCrew (s : State) (num ctx : Nat) (p : LaunchPacket) (ids : List Nat) (o : Origin) (code image : List Byte) : State :=
  let s1 := (ids.zipIdx).foldl (fun s x => s.placeCore num ctx x.2 p code image x.1) s
  { s1 with crews := s1.crews ++ [{ num := num, ctx := ctx, packet := p, cores := ids, origin := o, state := .running, saved := [],
                                    asked := none, forCheckpoint := false, stood := [] }] }

/-- Whether `ids` are n free cores of the context's partition in ascending order. -/
def State.fits (s : State) (ctx n : Nat) (ids : List Nat) : Bool :=
  decide (ids.length = n) && decide (sortNat (dedup ids) = ids) && ids.all (fun i => (s.freeCores ctx).contains i)

/-! ### What waits for cores (R268) -/

/-- A checkpoint that covers a partition lets nobody be placed there while it is carried out (R286). -/
def State.checkpointing (s : State) (part : Nat) : Bool :=
  s.fw.pending.any (fun x => decide (x.p.op = 0x0C) && decide (x.stage = 0) && (decide (x.q = 0) || decide (x.p.part = part)))

/-- Whether placement may go on for a context: it exists, is not halted, no checkpoint covers it. -/
def State.mayPlace (s : State) (ctx : Nat) : Bool :=
  (s.ctx ctx).isSome && !s.ctxHalted ctx && !s.checkpointing (s.partOf ctx)

/-- The block at the head of a free core's launch queue that can be taken now: it is refused, or its crew fits. -/
def State.headBlock (s : State) (target : Nat) : Option LaunchBlock :=
  match s.queueOf target with
  | [] => none
  | b :: _ =>
    if s.mayPlace b.ctx ∧ s.coreOpen target ∧ ((launchRefused b.bytes 0 (s.partCores b.ctx).length).isSome ∨
        (launchOf b.bytes).crew ≤ (s.freeCores b.ctx).length) then some b else none

/-- The lowest target in a context's partition whose head block can be taken now. -/
def State.nextBlock (s : State) (ctx : Nat) : Option Nat := (s.partCores ctx).find? (fun t => (s.headBlock t).isSome)

/-- The first waiting host launch of a partition that fits. -/
def State.nextLaunch (s : State) (part : Nat) : Option Waiting :=
  s.waiting.find? (fun w => decide (s.partOf w.ctx = part) && s.mayPlace w.ctx && decide (w.packet.crew ≤ (s.freeCores w.ctx).length))

/-- Whether something goes before stage instances and resumptions in a context's partition (R266, R268). -/
def State.placeFirst (s : State) (ctx : Nat) : Bool := (s.nextBlock ctx).isSome || (s.nextLaunch (s.partOf ctx)).isSome

/-! ### Host launches (R280 launch) -/

/-- The host command that a waiting launch answers. -/
def State.answerLaunch (s : State) (w : Waiting) (code : Code) (reason : Nat) (r : List Word) : State :=
  match w.origin with
  | .host q tag _ _ => (s.complete q code.toNat (s.partOf w.ctx) w.ctx tag reason r).pump q ringSlots
  | _ => s

def State.dropWaiting (s : State) (n : Nat) : State := { s with waiting := s.waiting.filter (fun w => decide (w.num ≠ n)) }

/-- The data image of a host launch. -/
def State.launchImage (s : State) (w : Waiting) : Except Code (List Byte) :=
  match w.origin with
  | .host _ _ va n => s.ctxRead w.ctx va n
  | _ => .ok []

/-- A waiting launch on its cores (R22, R25); sections or an image that cannot be read refuse it with reason 3. -/
def State.placeWaiting (s : State) (w : Waiting) (ids : List Nat) : State :=
  let s1 := s.dropWaiting w.num
  match s1.readCode w.ctx w.packet, s1.launchImage w with
  | .ok code, .ok image => (s1.placeCrew w.num w.ctx w.packet ids w.origin code image).answerLaunch w codeOk 0 [wordOfNat w.num]
  | r, i =>
    let bad := match r, i with
      | .error e, _ => decide (e = codeIntegrity)
      | _, .error e => decide (e = codeIntegrity)
      | _, _ => false
    let s2 := if bad then s1.integrity w.ctx (ids.headD 0) codeIntegrity else s1
    s2.answerLaunch w codeIllegal 3 []

def State.placementEvent (s : State) (n : Nat) (ids : List Nat) : State :=
  match s.waiting.find? (fun w => decide (w.num = n)) with
  | none => s
  | some w =>
    if s.nextBlock w.ctx = none ∧ s.nextLaunch (s.partOf w.ctx) = some w ∧ s.fits w.ctx w.packet.crew ids then s.placeWaiting w ids
    else s

def execCrewPlacement (n : Nat) (cores : List Nat) (s : State) : Out := .next (s.placementEvent n cores)

/-! ### Launch blocks (R268) -/

/-- The head block is refused: it is removed, logged, and its completion word gets the code. -/
def State.refuseBlock (s : State) (target : Nat) (b : LaunchBlock) (reason : Nat) (code : Code) : State :=
  let s1 := s.setQueue target (s.queueOf target).tail
  (s1.logCtx b.ctx .refusedBlock reason code).doneAdd b.ctx (launchOf b.bytes).done (some b.pusher) none code 0

/-- The head block's crew on its cores: the target is rank 0, the others follow in ascending order. -/
def State.placeBlock (s : State) (target : Nat) (b : LaunchBlock) (rest : List Nat) : State :=
  let p := launchOf b.bytes
  match s.readCode b.ctx p with
  | .ok code =>
    let s1 := s.setQueue target (s.queueOf target).tail
    ({ s1 with crewNum := s1.crewNum + 1 }).placeCrew s1.crewNum b.ctx p (target :: rest) (.block b.pusher target) code []
  | .error e =>
    if e = codeIntegrity then (s.setQueue target (s.queueOf target).tail).integrity b.ctx target e
    else s.refuseBlock target b 3 e

def State.blockTaken (s : State) (target : Nat) (rest : List Nat) : State :=
  match s.headBlock target with
  | none => s
  | some b =>
    if s.nextBlock b.ctx ≠ some target then s
    else match launchRefused b.bytes 0 (s.partCores b.ctx).length with
      | some reason => s.refuseBlock target b reason codeIllegal
      | none =>
        if s.fits b.ctx (launchOf b.bytes).crew (sortNat (target :: rest)) ∧ sortNat rest = rest then s.placeBlock target b rest else s

def execLaunchBlockTaken (core : Nat) (cores : List Nat) (s : State) : Out := .next (s.blockTaken core cores)

/-! ### Yield requests (R269) -/

def State.onRanks (s : State) (k : Crew) (f : Sequencer → Sequencer) : State :=
  k.cores.foldl (fun s n => s.updCore n (·.updSeq f)) s

/-- Request a yield of a crew, on behalf of a stage or of a checkpoint. -/
def State.requestYield (s : State) (k : Crew) (why : Option Nat) : State :=
  (s.onRanks k (fun q => { q with yreq := true, ydl := s.grant k, overdue := false })).updCrew k.num
    (fun k => { k with asked := some why, forCheckpoint := why.isNone })

/-- The sequencer after a request is withdrawn: a rank that waits at its `yield` goes on at the next word (R270). -/
def Sequencer.withdrawn (q : Sequencer) (now : Nat) : Sequencer :=
  let q1 := { q with yreq := false, yielded := false, overdue := false }
  if q.atYield then { q1 with atYield := false, wait := false, markAt := none, retired := now, last := q.pc, pc := q.pc + 4 } else q1

/-- Withdraw a request, while no rank's `YDL` has reached 0. -/
def State.withdrawYield (s : State) (k : Crew) : State :=
  if k.state = .running ∧ k.asked.isSome ∧ k.cores.all (fun n => decide ((s.coreOf n).seq.ydl ≠ 0)) then
    (s.onRanks k (·.withdrawn s.now)).updCrew k.num (fun k => { k with asked := none })
  else s

/-- Forced pre-emption begins in the cycle in which a rank's `YDL` reaches 0 (R271); in a later cycle it has begun (Turn.lean). -/
def State.expire (s : State) (n : Nat) : State :=
  match s.crew n with
  | none => s
  | some k =>
    if k.state = .running ∧ k.cores.any (fun id => (s.coreOf id).seq.yreq && decide ((s.coreOf id).seq.ydl = 0)) ∧ s.unyielded k then
      s.updCrew n (fun k => { k with state := .stopping true })
    else s

def execYdlExpiry (crew : Nat) (s : State) : Out := .next (s.expire crew)

/-! ### Saving a crew (R271, R272) -/

/-- The sequencer as it is saved: a rank that waits at its `yield` goes on after it, any other waiting instruction is abandoned,
an open cinch is dropped, its `cinch.open` being the resume point (R247, R271). -/
def Sequencer.forSave (q : Sequencer) : Sequencer :=
  let pc := if q.atYield then q.pc + 4 else q.resumePoint q.pc
  { q.abandon with pc := pc, yielded := false, overdue := false, hold := none, yreq := false }

/-- A core as it is saved, with the matrix engine's spill image (R34, R61, R272); a stream that is STOPPED with an image of its own keeps
that (R123). A coded block that waits for its destination line restarts on resumption (R175, R187). A close that was releasing goes on with what is left when it re-executes (R307, log 9). -/
def Core.forSave (c : Core) (now : Nat) : Core :=
  let c1 := if c.mat.eng.st = .stopped then (if c.mat.spilled then c else c.updMat (fun m => { m with spill := c.spillImage codePreempted }))
    else c.spillNow codePreempted
  { c1 with mat := { c1.mat with atRet := false }, xfer := { c1.xfer with cur := c1.xfer.cur.map XOp.forget }, seat := none, seq := c1.seq.forSave, injected := c1.injected.map (fun r => { r with due := r.due - now }) }

/-- What the save area keeps of one core. -/
def State.saveCore (s : State) (id : Nat) : SavedCore :=
  { core := (s.coreOf id).forSave s.now, store := sparseIn (storeBase id) (2 ^ 22) s.window, lost := s.lost.filter (inStore id) }

/-- The core that a saved crew leaves behind. -/
def Core.vacate (c : Core) (ctx : Nat) : Core :=
  { Core.blank c.id with
    lastCtx := some ctx, issue := c.issue,
    mat := { MatEngine.zero with budget := c.mat.budget, spent := c.mat.spent, window := c.mat.window } }

/-- A pre-empted crew is discarded (R273). -/
def State.discardCrew (s : State) (n : Nat) : State :=
  match s.crew n with
  | none => s
  | some k => (s.doneAdd k.ctx k.packet.done k.own (some k) codePreempted 0).setCrewEnded n

def State.saveCrew (s : State) (k : Crew) : State :=
  let l := k.cores.map s.saveCore
  let s1 := k.cores.foldl (fun s n => s.updCore n (·.vacate k.ctx)) s
  (s1.updCrew k.num (fun x => { x with state := .saved, saved := l, asked := none, stood := s.stoodBy k.cores })).oweCores k

/-- Whether an instance belongs to a harness that is ending (R280 harness.end). -/
def State.orphaned (s : State) (k : Crew) : Bool := match k.origin, (s.ctx k.ctx).bind (·.harness) with
  | .stage _, some h => h.ended
  | .stage _, none => true
  | _, _ => false

/-- A crew whose streams all stand is saved. The bindings that other crews have to its cores fall under an unmap first, and what running
crews have in flight to its cores' stores is performed before they are saved (R219, R220); what a crew holds that is saved, or that stands
to be saved, is not waited for (log 21). An instance of a harness that has ended is discarded, unless it is saved for a checkpoint, after which it goes on (R286). -/
def State.saveEvent (s : State) (n : Nat) : State :=
  match s.crew n with
  | none => s
  | some k =>
    if s.crewStopping n ∧ !s.ctxHalted k.ctx ∧ k.cores.all (fun id => (s.coreOf id).saveReady) then
      let t := s.revokeWindows k.cores
      if k.cores.any (t.storeBusyFrom k.cores) then t
      else
        let u := t.saveCrew k
        if s.orphaned k ∧ k.asked ≠ some none then (u.discardCrew n).dropHarness k.ctx else u
    else s

def execCrewSave (crew : Nat) (s : State) : Out := .next (s.saveEvent crew)

/-! ### Resuming a crew (R220, R273) -/

/-- The segments of a binding walked anew; none where a page fails or is of another kind. -/
def State.rewalk (s : State) (ctx own : Nat) (b : Binding) : Option (List Seg × Bool) :=
  if b.kind = .window then
    if (pagesOf b.base b.len 4096).all (fun p => (s.windowPlace ctx (some own) p).isSome) then
      (s.windowPlace ctx (some own) b.base).map (fun pa => ([⟨0, b.len, pa⟩], true))
    else none
  else
    let l := (pagesOf b.base b.len 65536).map (fun p => (p, s.walk ctx (some own) p false))
    if l.all (fun x => match x.2 with
      | .ok pa _ _ => decide (pa.space = b.kind)
      | _ => false) then
      some (l.filterMap (fun x => match x.2 with
        | .ok pa _ _ => some ⟨(pageSpan b.base b.len x.1 65536).1, (pageSpan b.base b.len x.1 65536).2,
            pa.plus (b.base + (pageSpan b.base b.len x.1 65536).1 - x.1)⟩
        | _ => none), l.all (fun x => match x.2 with
        | .ok _ w _ => w
        | _ => false))
    else none

/-- A binding after the walk at resumption (R220); an unmap that has found it meanwhile still revokes it (R91). -/
def State.rebound (s : State) (ctx own : Nat) (b : Binding) : Binding :=
  if b.revoked then b else match s.rewalk ctx own b with
    | some (g, w) => { b with segs := g, writable := w }
    | none => { b with revoking := false, revoked := true }

def XEnd.mapBinding (f : Binding → Binding) : XEnd → XEnd
  | .mem b off => .mem (f b) off
  | e => e

def XOp.mapBinding (f : Binding → Binding) (o : XOp) : XOp :=
  { o with dst := o.dst.mapBinding f, src := o.src.map (XEnd.mapBinding f) }

/-- Every binding in a slot of a core changed, there and in the operations that use it; one that drains keeps what it walked (R219). -/
def Core.mapBindings (f : Binding → Binding) (c : Core) : Core :=
  let g : Binding → Binding := fun b => if c.seq.bindings.any (fun x => decide (x.id = b.id)) then f b else b
  (c.updSeq (fun q => { q with h := q.h.map (fun o => o.map f) })).updXfer (fun x => { x with
    cur := x.cur.map (XOp.mapBinding g), ops := x.ops.map (XOp.mapBinding g),
    regions := x.regions.map (fun r => { r with held := r.held.map (XOp.mapBinding g) }) })

/-- Strike windows count afresh from resumption (R129, R310). -/
def Core.freshWindows (c : Core) (now : Nat) : Core :=
  { c with
    seq := { c.seq with retired := now }
    vec := { c.vec with eng := { c.vec.eng with retired := now } }
    xfer := { c.xfer with eng := { c.xfer.eng with retired := now } }
    mat := { c.mat with
             eng := { c.mat.eng with retired := now }, spilled := if c.mat.eng.st = .stopped then c.mat.spilled else false,
             reds := c.mat.reds.map (fun r => { r with tile := r.tile.map (fun t => { t with made := now }) }) }
    injected := c.injected.map (fun r => { r with due := r.due + now }) }

/-- The bytes that a block of a collective hands over, read anew from its endpoint. -/
def State.reread (s : State) (o : XOp) (b : Block) : Block :=
  let t := { o with taken := match o.src with
    | some (.tree line _ _) => (rangeFrom line (ceilDiv o.len 64)).map (fun n => (n, (s.core.line n).data))
    | _ => [] }
  let e := s.sourceEcc t (rangeFrom b.first b.bytes.length)
  { b with bytes := (s.outputBytes t b.first b.bytes.length).1, lost := decide (e = .lost), badTag := decide (e = .badTag) }

def State.reissued (s : State) (o : XOp) : XOp := if o.collInfo.isSome then { o with blocks := o.blocks.map (fun b => if b.formed then b else s.reread o b) } else o

/-- A withdrawn collective is issued again: it reads its endpoint anew (R187); one that has ended meanwhile fails at once (R322). -/
def State.reissueColls (s : State) : State :=
  let s1 := s.updXfer (fun x => { x with cur := x.cur.map s.reissued, ops := x.ops.map s.reissued })
  s1.core.xfer.lostColls.foldl (fun s x =>
    if (s.core.collOp x.1 x.2.1).isSome then s.failCollAt x.1 x.2.1 x.2.2 noBits (fun _ => false) s.core.id else s) s1

/-- Whether a place lies in the code area of a core. -/
def inCode (id : Nat) (r : Resources) (p : PAddr) : Bool :=
  decide (p.space = .window) && decide (codeBase id r ≤ p.addr) && decide (p.addr < codeBase id r + 4 * r.words)

/-- One core of a saved crew takes its place again; its code area is written anew, whole (R272). -/
def State.restoreCore (s : State) (k : Crew) (code : List Byte) (rank id : Nat) (v : SavedCore) : State :=
  let old := s.coreOf id
  let s1 := s.scrubStore id (2 ^ 22)
  let s2 : State := { s1 with window := sparseSetAll (0 : Byte) s1.window v.store, lost := s1.lost ++ v.lost.filter (fun p => !inCode id k.packet.res p) }
  let c : Core := { v.core with
    id := id, seat := some ⟨k.num, k.ctx, rank, k.packet.crew, k.packet.res⟩, lastCtx := some k.ctx, issue := max v.core.issue old.issue,
    mat := { v.core.mat with budget := old.mat.budget, spent := old.mat.spent, window := old.mat.window } }
  ((s2.fillStore id (k.packet.res.ls * 4096) code).putCore (c.freshWindows s.now)).forgetStood id

/-- Whether some table of a core's bindings fails its tag. -/
def State.rewalkBad (s : State) (ctx own : Nat) (c : Core) : Bool :=
  c.seq.bindings.any (fun b => !b.revoked && decide (b.kind ≠ .window) &&
    (pagesOf b.base b.len 65536).any (fun p => decide (s.walk ctx (some own) p false = .badTag)))

/-- The crew's bindings are walked and its collectives issued again, once all its cores are in place. -/
def State.rebind (s : State) (ctx id : Nat) : State :=
  if s.rewalkBad ctx id (s.coreOf id) then s.integrity ctx id codeIntegrity
  else
    let home := s.core.id
    let t := (s.updCore id (fun c => c.mapBindings (s.rebound ctx id))).focus id
    t.reissueColls.focus home

/-- A vector stream whose issued instructions have completed stops where something that came before it stood still makes it (R159, R311). -/
def State.vecResumed (s : State) (id : Nat) : State := (s.focus id).vecStops

/-- A crew goes on where it was saved; the reports that came meanwhile are applied before its streams issue anything (R125, R310), and a
vector stream that a loss or a report was stopping stops (R159). -/
def State.restoreCrew (s : State) (k : Crew) (code : List Byte) : State :=
  let l := (k.cores.zip k.saved).zipIdx
  let s1 := l.foldl (fun s x => s.restoreCore k code x.2 x.1.1 x.1.2) s
  let s2 := s1.updCrew k.num (fun k => { k with state := .running, saved := [], stood := [] })
  let s3 := (k.cores.foldl State.vecResumed (k.cores.foldl (fun s n => s.rebind k.ctx n) s2)).focus s.core.id
  s3.deliverAll k.cores

/-- A saved crew whose cores are all free takes them again; its code is read anew (R272). -/
def State.resumeCrew (s : State) (k : Crew) : State :=
  match s.readCode k.ctx k.packet with
  | .ok code => s.restoreCrew k code
  | .error e => s.integrity k.ctx (k.cores.headD 0) e

/-- Whether a saved crew's own cores are all free and its partition's, and none is kept for another. What held stores to them when it was
saved does not keep it from them (log 21). -/
def State.canResume (s : State) (k : Crew) : Bool :=
  decide (k.state = .saved) && s.mayPlace k.ctx && k.cores.all (fun id =>
    (s.partCores k.ctx).contains id && (s.coreOf id).seat.isNone && !s.storeBusy k.stood id && (k.forCheckpoint || !s.reserved id))

end Sys2Proof.Machine
end

