-- ==== Sys2Proof/Machine/Scheduler.lean ====
section
/-!
DEFINITION. The scheduler block: scans and judgements (R264, R265), decisions (R266), resumptions (R273). Assumption log 21
holds what the spec is brief about.
-/
namespace Sys2Proof.Machine

/-! ### Scans (R264, R265) -/

def Harness.stageOf (h : Harness) (phase : Nat) : Option (LaunchPacket × Nat) :=
  h.stages.zipIdx.find? (fun x => decide (x.1.phase = phase))

/-- The walk to a row's first byte, made when the block reads or writes it (R210). A row that does not lie in HBM any more counts as one
that cannot be read (log 21). -/
def State.rowWalk (s : State) (ctx : Nat) (h : Harness) (row : Nat) (write : Bool) : Walk :=
  match s.walk ctx none (h.table + 128 * row) write with
  | .ok pa w n => if pa.space = .hbm then .ok pa w n else .fault ⟨2, 0, 0⟩ n
  | r => r

def State.updHarness (s : State) (ctx : Nat) (f : Harness → Harness) : State :=
  s.updCtx ctx (fun c => { c with harness := c.harness.map f })

/-- The scan moves on; after the last row its counts are the latest (R264). -/
def Harness.scanNext (h : Harness) (phase : Option Nat) : Harness :=
  let l := match phase with
    | some p => assocSet h.partials p (assocGet 0 h.partials p + 1)
    | none => h.partials
  if h.row + 1 < h.rows then { h with row := h.row + 1, partials := l }
  else { h with row := 0, partials := [], counts := l, scanned := true }

/-- The phase that a row counts for, when its busy bit is 0. -/
def countedPhase (w : Nat) : Option Nat := if rowBusy w then none else some (rowPhase w)

def codeWordOff : Nat := 0x28

/-- The row is judged LATE: control word and code word in one action, then the completion addition (R264). -/
def State.judgeLate (s : State) (ctx : Nat) (pa : PAddr) (w : Nat) : State :=
  let cells := cellsAt pa (bytesOfNat 8 (rowWord (rowSeq w + 1) false 63)) ++
    cellsAt (pa.plus codeWordOff) (bytesOfNat 2 codeLate.toNat)
  (s.store cells).2.doneAdd ctx (s.readNat (pa.plus 0x10) 8) none none codeLate 0

/-- The code that a row which cannot be read or written is logged with (R8). -/
def rowCode (f : XlFault) : Code := if f.cause = 6 then codeDataLost else codeBounds

/-- The judgement of a row of a bound stage phase with a deadline; it tells the control word that the row has afterwards. A row that is
surely past and that the block may read but not write stays as it is, and is logged; R264 does not name that case (log 21). -/
def State.judge (s : State) (ctx : Nat) (h : Harness) (pa : PAddr) (w : Nat) : State × Nat :=
  let d := s.clocks[h.home]
  let limit := if h.wlim = 0 then 2000 else h.wlim
  match widthFails d.width limit with
  | some width =>
    if h.suspended then (s, w)
    else ((s.logCtx ctx .suspended width.toNat).updHarness ctx (fun h => { h with suspended := true }), w)
  | none =>
    let s1 := if h.suspended then (s.logCtx ctx .resumed 0).updHarness ctx (fun h => { h with suspended := false }) else s
    if d.early > sextNat 64 (s.readNat (pa.plus 8) 8) then (match s1.rowWalk ctx h h.row true with
      | .ok _ _ _ => (s1.judgeLate ctx pa w, rowWord (rowSeq w + 1) false 63)
      | .fault f _ => (s1.logCtx ctx .lostRow h.row (rowCode f), w)
      | .badTag => (s1.integrity ctx (s1.lowestCore ctx) codeIntegrity, w))
    else (s1, w)

/-- The scan reads its next row. -/
def State.scanRow (s : State) (ctx : Nat) : State :=
  match (s.ctx ctx).bind (·.harness) with
  | none => s
  | some h =>
    if h.ended then s
    else match s.rowWalk ctx h h.row false with
      | .badTag => s.integrity ctx (s.lowestCore ctx) codeIntegrity
      | .fault f _ =>
        (s.logCtx ctx .lostRow h.row (rowCode f)).updHarness ctx (·.scanNext none)
      | .ok pa _ _ => match s.eccRead (placesFrom pa 64) with
        | .badTag => s.integrity ctx (s.lowestCore ctx) codeIntegrity
        | .lost => (s.logCtx ctx .lostRow h.row codeDataLost).updHarness ctx (·.scanNext none)
        | .ok =>
          let w := s.readNat pa 8
          if (h.stageOf (rowPhase w)).isSome ∧ s.readNat (pa.plus 8) 8 ≠ 0 then
            let r := s.judge ctx h pa w
            r.1.updHarness ctx (·.scanNext (countedPhase r.2))
          else s.updHarness ctx (·.scanNext (countedPhase w))

def execSchedulerScanRow (ctx : Nat) (s : State) : Out := .next (s.scanRow ctx)

/-! ### Decisions (R266) -/

/-- The instances of a stage: running, being stopped, or pre-empted. -/
def State.instances (s : State) (ctx st : Nat) : List Crew :=
  s.crews.filter (fun k => decide (k.ctx = ctx) && decide (k.origin = .stage st) && decide (k.state ≠ .ended))

/-- w(s). -/
def Harness.waitingRows (h : Harness) (p : LaunchPacket) : Nat := assocGet 0 h.counts p.phase

/-- Whether a core is owed to another stage than st (R266 step 3). -/
def Harness.owedElse (h : Harness) (st n : Nat) : Bool := h.owed.any (fun x => decide (x.1 = n) && decide (x.2 ≠ st))

/-- The free cores that a stage may take. -/
def State.freeFor (s : State) (ctx : Nat) (h : Harness) (st : Nat) : List Nat := (s.freeCores ctx).filter (fun n => !h.owedElse st n)

/-- The cores that a decision may give a stage, in the order in which it gives them: those that it is owed first. -/
def State.offered (s : State) (ctx : Nat) (h : Harness) (st : Nat) (cores : List Nat) : List Nat :=
  let free := s.freeFor ctx h st
  let first := (dedup (((h.owed.filter (fun x => decide (x.2 = st))).map (·.1) ++ cores).filter free.contains).reverse).reverse
  first ++ free.filter (fun n => !first.contains n)

/-- A stage that has got an instance is owed nothing any more. -/
def Harness.paid (h : Harness) (st : Nat) : Harness := { h with owed := h.owed.filter (fun x => decide (x.2 ≠ st)) }

/-- A new instance on the next free cores; a template whose code cannot be read launches nothing. -/
def State.launchStage (s : State) (ctx : Nat) (h : Harness) (st : Nat) (p : LaunchPacket) (cores : List Nat) : State × Bool :=
  let ids := sortNat ((s.offered ctx h st cores).take p.crew)
  match s.readCode ctx p with
  | .ok code => ((({ s with crewNum := s.crewNum + 1 }).placeCrew s.crewNum ctx p ids (.stage st) code []).updHarness ctx (·.paid st), true)
  | .error e => if e = codeIntegrity then (s.integrity ctx (ids.headD 0) e, false)
                else (s.logCtx ctx .refusedBlock 3 e, false)

/-- The stages, numbered, without those a decision has given up on. -/
def Harness.live (h : Harness) (skip : List Nat) : List (LaunchPacket × Nat) := h.stages.zipIdx.filter (fun x => !skip.contains x.2)

/-- Step 1: the stage below cmin that free cores fit. DESIGN CHOICE: the lowest where there are several (R266: log 21). -/
def State.step1 (s : State) (ctx : Nat) (h : Harness) (skip : List Nat) : Option (LaunchPacket × Nat) :=
  (h.live skip).find? (fun x => decide ((s.instances ctx x.2).length < x.1.cmin) && decide (x.1.crew ≤ (s.freeFor ctx h x.2).length))

/-- The better of two stages by w ÷ bound, the first on a tie. -/
def betterStage (h : Harness) (a b : LaunchPacket × Nat) : LaunchPacket × Nat :=
  if h.waitingRows b.1 * a.1.bound > h.waitingRows a.1 * b.1.bound then b else a

/-- A stage's pre-empted instance that can resume. -/
def State.resumable (s : State) (ctx : Nat) (h : Harness) (st : Nat) : Option Crew :=
  (s.instances ctx st).find? (fun k => s.canResume k && !k.cores.any (h.owedElse st))

/-- The free cores that a stage is owed. -/
def State.owedFree (s : State) (ctx : Nat) (h : Harness) (st : Nat) : List Nat :=
  (s.freeFor ctx h st).filter (fun n => h.owed.any (fun o => decide (o.1 = n) && decide (o.2 = st)))

/-- A stage to which enough freed cores go for an instance (R266 step 3): as in step 2, an instance of it that can resume does so, else a new one
is launched. -/
def State.stepOwed (s : State) (ctx : Nat) (h : Harness) (skip : List Nat) : Option (LaunchPacket × Nat) :=
  (h.live skip).find? (fun x => decide ((s.instances ctx x.2).length < x.1.cmax) && decide (0 < (s.owedFree ctx h x.2).length) &&
    decide (x.1.crew ≤ (s.owedFree ctx h x.2).length))

/-- Step 2: the stage with rows waiting, below cmax, that free cores fit, of largest w ÷ bound. -/
def State.step2 (s : State) (ctx : Nat) (h : Harness) (skip : List Nat) : Option (LaunchPacket × Nat) :=
  match (h.live skip).filter (fun x => decide (0 < h.waitingRows x.1) && decide ((s.instances ctx x.2).length < x.1.cmax) &&
      ((s.resumable ctx h x.2).isSome || decide (x.1.crew ≤ (s.freeFor ctx h x.2).length))) with
  | [] => none
  | a :: t => some (t.foldl (betterStage h) a)

/-- Step 3: the stage that back-pressure names. DESIGN CHOICE: the lowest where there are several (R266: log 21). -/
def State.step3 (s : State) (ctx : Nat) (h : Harness) : Option (LaunchPacket × Nat) :=
  h.stages.zipIdx.find? (fun x => decide (x.1.bound ≤ h.waitingRows x.1) && decide ((s.instances ctx x.2).length < x.1.cmax) &&
    decide ((s.freeFor ctx h x.2).length < x.1.crew) &&
    !s.crews.any (fun k => decide (k.ctx = ctx) && decide (k.asked = some (some x.2))))

/-- The donor's instance that is asked to yield: the running one launched last; none where every instance of the donor is pre-empted. -/
def State.donor (s : State) (ctx : Nat) (h : Harness) : Option Crew :=
  let fits : LaunchPacket × Nat → Bool := fun x =>
    decide (h.waitingRows x.1 = 0) && decide (x.1.cmin < ((s.instances ctx x.2).filter (fun k => k.asked.isNone)).length)
  match h.stages.zipIdx.reverse.find? fits with
  | none => none
  | some x => ((s.instances ctx x.2).filter (fun k => k.asked.isNone && decide (k.state = .running))).getLast?

/-- Steps until none applies. -/
def State.takeSteps (s : State) (ctx : Nat) (cores skip : List Nat) : (fuel : Nat) → State
  | 0 => s
  | fuel + 1 =>
    match (s.ctx ctx).bind (·.harness) with
    | none => s
    | some h =>
      let place : LaunchPacket × Nat → State := fun x =>
        let r := s.launchStage ctx h x.2 x.1 cores
        r.1.takeSteps ctx cores (if r.2 then skip else x.2 :: skip) fuel
      if !s.mayPlace ctx then s
      else match (if s.placeFirst ctx then none else s.step1 ctx h skip) with
        | some x => place x
        | none => match (if s.placeFirst ctx then none else (s.stepOwed ctx h skip).or (s.step2 ctx h skip)) with
          | some x => match s.resumable ctx h x.2 with
            | some k =>
              let t := s.resumeCrew k
              t.takeSteps ctx cores (if (t.crew k.num).map (·.state) = some .saved then x.2 :: skip else skip) fuel
            | none => place x
          | none => match s.step3 ctx h with
            | some x => match s.donor ctx h with
              | some k => (s.requestYield k (some x.2)).takeSteps ctx cores skip fuel
              | none => s
            | none => s

/-- More steps than any decision has: every step takes a free core, resumes a crew, asks a crew, or gives a stage up. -/
def decisionFuel : Nat := 2048

/-- What is still owed: free cores, to stages that still have rows waiting and room for an instance (log 21). -/
def State.settleOwed (s : State) (ctx : Nat) : State :=
  s.updHarness ctx (fun h => { h with owed := h.owed.filter (fun x => (s.coreOf x.1).seat.isNone && (match h.stages[x.2]? with
    | some p => decide (0 < h.waitingRows p) && decide ((s.instances ctx x.2).length < p.cmax)
    | none => false)) })

/-- A decision: withdrawals first, then the steps, once the whole table has been read (R257). -/
def State.decision (s : State) (ctx : Nat) (cores withdraw : List Nat) : State :=
  match (s.ctx ctx).bind (·.harness) with
  | none => s
  | some h =>
    if h.ended ∨ !h.scanned ∨ s.ctxHalted ctx then s
    else
      let s1 := withdraw.foldl (fun s n => match s.crew n with
        | some k => if k.ctx = ctx ∧ k.asked ≠ some none then s.withdrawYield k else s
        | none => s) s
      (s1.settleOwed ctx).takeSteps ctx cores [] decisionFuel

def execSchedulerDecision (ctx : Nat) (cores withdraw : List Nat) (s : State) : Out := .next (s.decision ctx cores withdraw)

/-! ### Resumptions (R273) -/

/-- Whether a decision would give free cores to a stage first (R266). -/
def State.stageWants (s : State) (ctx : Nat) : Bool :=
  match (s.ctx ctx).bind (·.harness) with
  | some h => !h.ended && h.scanned && ((s.stepOwed ctx h []).isSome || (s.step1 ctx h []).isSome || (s.step2 ctx h []).isSome)
  | none => false

/-- Whether a crew's cores are owed to a stage that is not its own. -/
def State.coresOwed (s : State) (k : Crew) : Bool :=
  match (s.ctx k.ctx).bind (·.harness) with
  | some h => !h.ended && k.cores.any (fun n => h.owed.any (fun x => decide (x.1 = n) && decide (k.origin ≠ .stage x.2)))
  | none => false

/-- A saved crew resumes. One that a checkpoint saved goes before whatever waits for cores (R286); any other goes after that (R266, R268). -/
def State.resumeEvent (s : State) (n : Nat) : State :=
  match s.crew n with
  | none => s
  | some k =>
    if s.canResume k && (k.forCheckpoint || !s.placeFirst k.ctx && !s.coresOwed k && !(match k.origin with
      | .stage _ => s.stageWants k.ctx
      | _ => false)) then s.resumeCrew k
    else s

def execCrewResume (crew : Nat) (s : State) : Out := .next (s.resumeEvent crew)

end Sys2Proof.Machine
end

