-- ==== Sys2Proof/Machine/VectorOps.lean ====
section
/-!
DEFINITION. What vector instructions share: lane-wise instructions (R132, R134), accesses on VP through handles (R145 to R149),
and closing vector regions (R304, R307). Log 20: a load checks its bytes when it issues; a loss found later is R159's.
-/
namespace Sys2Proof.Machine

/-! ### Types an instruction accepts (R134) -/

/-- Every type but E4M3U. -/
def tyArith (t : EType) : Bool := decide (t ≠ .e4m3u)
def tyInt (t : EType) : Bool := !t.isFloat
def tyAny (_ : EType) : Bool := true
def tyFloat (t : EType) : Bool := decide (t = .bf16) || decide (t = .f32)
def tyI32 (t : EType) : Bool := decide (t = .i32)
def tyWord (t : EType) : Bool := decide (t = .i32) || decide (t = .n32)
def tyF32 (t : EType) : Bool := decide (t = .f32)

/-! ### Lane-wise instructions -/

/-- Lines that hold lanes 0 to c − 1 under SHAPE. -/
def VecEngine.span (v : VecEngine) : Nat := linesFor (v.shape.lanes * v.shape.ty.width)

/-- A lane's result and its flags for each lane below c; a lane that `act` leaves out gives zero (R132). -/
def laneResults (lanes : Nat) (act : Nat → Bool) (f : Nat → Nat × BitVec 5) : List (Nat × BitVec 5) :=
  (List.range lanes).map (fun i => if act i then f i else (0, 0))

def resultFlags (l : List (Nat × BitVec 5)) : BitVec 5 := (l.map (·.2)).foldl (· ||| ·) 0

/-- Results as a destination of lanes of w bytes at a line. -/
def laneOut (line w : Nat) (l : List (Nat × BitVec 5)) : VOut :=
  { dst := [(line, lanesBytes w (l.map (·.1)))], full := rangeFrom line (linesFor (w * l.length)), flags := resultFlags l,
    post := id }

/-- A destination of lanes of w bytes computed from sources, one index each. `ok` is the types the instruction accepts; `act` the
lanes it computes; `f` computes lane i from the sources' lanes. DESIGN CHOICE: a destination of more than 256 bytes (R141) is told before an
operand that fails R27, both being of step 2 of R135 (log 24). -/
def State.vecLanes (s : State) (ok : EType → Bool) (act : Nat → Bool) (d : TreeOp) (w : Nat) (srcs : List (TreeOp × Bool))
    (f : List (List Nat) → Nat → Nat × BitVec 5) : Out :=
  let sh := s.core.vec.shape
  .next (s.issueVec (
    if !ok sh.ty then .stop codeIllegal
    else if sh.lanes * w > 256 then .stop codeBounds
    else match s.vecPlaces ((d, linesFor (sh.lanes * w)) :: srcs.map (fun x => (x.1, s.core.vec.span))) with
      | some (pd :: ps) =>
        s.vecRun ((ps.zip srcs).map (fun x => ⟨x.1, x.2.2⟩)) [pd] none
          (.ok (laneOut pd.line w
            (laneResults sh.lanes act (f (ps.map (fun p => s.core.lanes p.line sh.ty.width sh.lanes))))))
      | _ => s.vecMisplaced ((d, linesFor (sh.lanes * w)) :: srcs.map (fun x => (x.1, s.core.vec.span)))))

/-- Lane i from one source. -/
def lane1 (f : Nat → Nat × BitVec 5) (cols : List (List Nat)) (i : Nat) : Nat × BitVec 5 := match cols with
  | [a] => f (a.getD i 0)
  | _ => (0, 0)

/-- Lane i from two sources. -/
def lane2 (f : Nat → Nat → Nat × BitVec 5) (cols : List (List Nat)) (i : Nat) : Nat × BitVec 5 := match cols with
  | [a, b] => f (a.getD i 0) (b.getD i 0)
  | _ => (0, 0)

/-- Lane i from three sources. -/
def lane3 (f : Nat → Nat → Nat → Nat × BitVec 5) (cols : List (List Nat)) (i : Nat) : Nat × BitVec 5 := match cols with
  | [d, a, b] => f (d.getD i 0) (a.getD i 0) (b.getD i 0)
  | _ => (0, 0)

/-- A lane operation without flags. -/
def plain1 (f : Nat → Nat) : List (List Nat) → Nat → Nat × BitVec 5 := lane1 (fun a => (f a, 0))
def plain2 (f : Nat → Nat → Nat) : List (List Nat) → Nat → Nat × BitVec 5 := lane2 (fun a b => (f a b, 0))

def State.ty (s : State) : EType := s.core.vec.shape.ty

/-- An instruction d, a of lanes of the SHAPE type. -/
def State.vec1 (s : State) (ok : EType → Bool) (d a : TreeOp) (wa : Bool) (f : EType → Nat → Nat) : Out :=
  s.vecLanes ok s.core.vec.active d s.ty.width [(a, wa)] (plain1 (f s.ty))

/-- An instruction d, a, b of lanes of the SHAPE type. -/
def State.vec2 (s : State) (ok : EType → Bool) (d a b : TreeOp) (wa wb : Bool) (f : EType → Nat → Nat → Nat) : Out :=
  s.vecLanes ok s.core.vec.active d s.ty.width [(a, wa), (b, wb)] (plain2 (f s.ty))

/-- An instruction whose result is 8 bytes at the start of the destination's first line (R143); `f` takes the active lanes with
their numbers. -/
def State.vecReduce (s : State) (d a : TreeOp) (wa : Bool) (f : EType → List (Nat × Nat) → Nat × Nat) : Out :=
  let v := s.core.vec
  let sh := v.shape
  .next (s.issueVec (
    if !tyArith sh.ty then .stop codeIllegal
    else match s.vecPlaces [(d, 1), (a, v.span)] with
      | some [pd, pa] =>
        let l := ((List.range sh.lanes).zip (s.core.lanes pa.line sh.ty.width sh.lanes)).filter (fun x => v.active x.1)
        let r := f sh.ty l
        s.vecRun [⟨pa, wa⟩] [pd] none
          (.ok { dst := [(pd.line, bytesOfNat 4 r.1 ++ bytesOfNat 4 r.2)], full := [pd.line], flags := 0, post := id })
      | _ => s.vecMisplaced [(d, 1), (a, v.span)]))

/-! ### Lane values -/

/-- Integer lanes exactly and wrapped (R60), or floats with one rounding (R68). -/
def laneArith (fi : Int → Int → Int) (ff : FVal → FVal → FVal) (t : EType) (a b : Nat) : Nat :=
  if t.isFloat then encodeF (fracWidth t) (ff (decodeF (fracWidth t) a) (decodeF (fracWidth t) b))
  else laneOfInt t (fi (intLane t a) (intLane t b))

def FVal.sub (a b : FVal) : FVal := a.add b.neg

/-- The order key of a lane (R69 for floats). -/
def laneKey (t : EType) (x : Nat) : Int := if t.isFloat then orderKey (fracWidth t) x else intLane t x

/-- Whether a lane is a NaN. -/
def laneNan (t : EType) (x : Nat) : Bool := t.isFloat && isNanBits (fracWidth t) x

/-- The canonical NaN of a lane type. -/
def laneCanon (t : EType) : Nat := nanBits (fracWidth t)

/-- Minimum and maximum (R69). -/
def laneMin (t : EType) (a b : Nat) : Nat :=
  if laneNan t a || laneNan t b then laneCanon t else if laneKey t b < laneKey t a then b else a

def laneMax (t : EType) (a b : Nat) : Nat :=
  if laneNan t a || laneNan t b then laneCanon t else if laneKey t a < laneKey t b then b else a

def laneAbs (t : EType) (a : Nat) : Nat :=
  if t.isFloat then (if laneNan t a then laneCanon t else a % 2 ^ (t.bitsW - 1))
  else laneOfInt t (intLane t a).natAbs

def laneNeg (t : EType) (a : Nat) : Nat :=
  if t.isFloat then
    if laneNan t a then laneCanon t
    else if a / 2 ^ (t.bitsW - 1) % 2 = 1 then a % 2 ^ (t.bitsW - 1) else a % 2 ^ (t.bitsW - 1) + 2 ^ (t.bitsW - 1)
  else laneOfInt t (-(intLane t a))

/-- A signed immediate as a lane. -/
def laneImm (t : EType) (imm : BitVec 9) : Nat :=
  if t.isFloat then encodeF (fracWidth t) (fvalOfInt imm.toInt) else laneOfInt t imm.toInt

/-- The least and the greatest value of a type. -/
def laneLeast (t : EType) : Nat :=
  if t.isFloat then infBits (fracWidth t) true else if t.signed then 2 ^ (t.bitsW - 1) else 0

def laneGreatest (t : EType) : Nat :=
  if t.isFloat then infBits (fracWidth t) false
  else if t.signed then 2 ^ (t.bitsW - 1) - 1 else 2 ^ t.bitsW - 1

def allOnes (t : EType) : Nat := 2 ^ t.bitsW - 1

/-! ### Accesses on VP (R145 to R149) -/

/-- The binding of a handle operand, of the on-chip window kind (R135 step 3); `hold` is the wait that an unmap or a fence imposes. -/
def State.vpHandle (s : State) (h : Hnd) (write : Bool) (k : Binding → Option Nat → EngIssue) : EngIssue :=
  let hold := if s.core.holdsNew .vp then some 7 else none
  let bad : EngIssue := .stop codeBounds (some (wordOfNat h.val))
  match s.core.seq.h[h], s.core.engBinding h write with
  | some b, .ok _ => if b.kind ≠ .window then bad else k b hold
  | some b, .revoking => if b.kind ≠ .window ∨ (write ∧ !b.writable) then bad else k b (some 10)
  | _, _ => bad

/-- An access of the word at the program counter, with its elements of `width` bytes and the detail of its loss. -/
def Core.vpEntry (c : Core) (detail : Word) (k : VpKind) (width : Nat) (binds : List Nat) (eaten : Option (List Nat)) : VpEntry :=
  ⟨c.issue, c.vec.eng.pc, detail, k, width, binds, eaten, false, [], false⟩

/-- An access issued on VP. -/
def Core.issueVp (c : Core) (detail : Word) (k : VpKind) (width : Nat) (binds : List Nat) (eaten : Option (List Nat)) : Core :=
  (c.updVec (fun v => { v with vp := v.vp ++ [c.vpEntry detail k width binds eaten] })).bump

/-- A write on VP: issued, or held in the innermost open region (R305). A write of no byte is no access. -/
def Core.vpWrite (c : Core) (detail : Word) (cells : List (PAddr × Byte)) (width : Nat) (binds : List Nat) (eaten : Option (List Nat)) : Core :=
  if cells.isEmpty then c
  else match c.vec.regions with
    | [] => c.issueVp detail (.store cells) width binds eaten
    | r :: t => (c.updVec (fun v => { v with regions :=
        { r with held := r.held ++ [c.vpEntry detail (.store cells) width binds eaten],
                 charge := r.charge + roundUp 64 cells.length } :: t })).bump

/-- Whether a write of n bytes fits the undo buffer where it is held (R309). -/
def Core.vpRoom (c : Core) (n : Nat) : Bool := c.vec.regions.isEmpty || decide (n = 0) || c.roomFor (roundUp 64 n) 1

/-- The outcome of a load's issue: its bytes are checked (R135 step 6); they land later (R149). `offs` pairs active lanes with
byte offsets in the binding. -/
def State.vpLoad (s : State) (b : Binding) (pd : Placed) (eaten : List Nat) (offs : List (Nat × Nat)) : Except VFail VOut :=
  let sh := s.core.vec.shape
  let w := sh.ty.width
  let cells := offs.flatMap (fun x => (List.range w).map (fun j =>
    (64 * pd.line + w * x.1 + j, (b.place (x.2 + j)).getD ⟨b.kind, 0⟩)))
  let zero := (((List.range sh.lanes).filter (fun i => !s.core.vec.active i)).flatMap (fun i =>
    rangeFrom (64 * pd.line + w * i) w))
  match s.eccRead (cells.map Prod.snd) with
  | .badTag => .error (codeIntegrity, none)
  | .lost => .error (codeDataLost, none)
  | .ok => .ok { dst := [], full := [], flags := 0, post := fun c => c.issueVp (s.openDetailOf .vec) (.load cells zero pd.all pd.wwait) w [b.id] (some eaten) }

/-- The outcome of a store's issue (R145, R146): `offs` pairs active lanes with byte offsets; a later lane's bytes stand. R135 does not
place MENDFULL among its tests: it comes after the tests of R29 and the offsets' BOUNDS, before DATA_LOST of the tree lines (log 24). -/
def State.vpStore (s : State) (b : Binding) (data : List Nat) (eaten : List Nat) (offs : List (Nat × Nat)) : Except VFail VOut :=
  let w := s.ty.width
  let cells := offs.flatMap (fun x => cellsOf b x.2 (bytesOfNat w (data.getD x.1 0)))
  if s.core.vpRoom cells.length then
    .ok { dst := [], full := [], flags := 0, post := fun c => c.vpWrite (s.openDetailOf .vec) cells w [b.id] (some eaten) }
  else .error (codeMendFull, none)
where
  cellsOf (b : Binding) (off : Nat) (bytes : List Byte) : List (PAddr × Byte) := (b.places off bytes.length).zip bytes

/-- The lines that sources empty: those they consume and find full. -/
def State.emptied (s : State) (srcs : List VSrc) : List Nat := (eatenLines srcs).filter (fun n => (s.core.line n).full)

/-- Active lanes with the offsets that `f` gives them. -/
def VecEngine.offsets (v : VecEngine) (f : Nat → Nat) : List (Nat × Nat) :=
  ((List.range v.shape.lanes).filter v.active).map (fun i => (i, f i))

/-! ### Performing accesses -/

/-- The word of an access that met DATA_LOST before a later word issued has no effect: the engine stops at it, and `tret` executes it
again (R159). A strike report that was to stop the stream stays pending for its resumption (R310: log 24). -/
def State.vecUndo (s : State) (pc detail : Word) (eaten : List Nat) : State :=
  ((s.popVp.upd (fun c => eaten.foldl (fun c n => c.setFull n true) c)).updVec (fun v => { v with
    lastVp := none, struck := none, eng := { v.eng with pc := pc, strike := v.eng.strike.or v.struck } })).stopWith .vec 0 codeDataLost pc
    false false false detail

/-- An access that met DATA_LOST after later words had issued: the engine stops once the others are performed (R159). Of several, the
oldest is the one that the record names (log 24). -/
def State.vecLost (s : State) (pc detail : Word) : State :=
  (s.popVp.updVec (fun v => { v with lostAt := v.lostAt.or (some (pc, detail)) })).vecStops

/-- The oldest access meets DATA_LOST: a rollback inside a region (R305), else R159. -/
def State.headLost (s : State) (e : VpEntry) : State :=
  if !s.core.vec.regions.isEmpty && !s.core.vec.eng.releasing then s.popVp.vecRollback e.pc
  else match e.eaten with
    | some l =>
      if s.core.vec.lastVp = some e.seq ∧ s.core.vec.lostAt = none ∧ s.core.vec.eng.releasing = false then s.vecUndo e.pc e.detail l
      else s.vecLost e.pc e.detail
    | none => s.vecLost e.pc e.detail

/-- The oldest issued access is performed, or all that is left of it. -/
def State.performHead (s : State) : State :=
  match s.core.vec.vp with
  | [] => s
  | e :: _ => match s.performVp e with
    | (.ok, t) => t.popVp.vecStops
    | (.badTag, _) => s.haltWith codeIntegrity e.detail
    | (.lost, _) => s.headLost e

/-- The oldest access changed. -/
def State.setHead (s : State) (e : VpEntry) : State := s.updVec (fun v => { v with vp := e :: v.vp.tail })

/-- The bytes that an access has still to read or write. -/
def VpEntry.left (e : VpEntry) : Nat := match e.kind with
  | .load l _ _ _ => l.length - e.got.length
  | .store l => l.length

/-- Whether the oldest access is a load that may land: a write-wait destination waits until its lines are empty (R29), but not while the
stream is being stopped, when nothing may empty them any more (log 16). -/
def State.loadDue (s : State) : Bool := match s.core.vec.vp with
  | e :: _ => (match e.kind with
    | .load _ _ _ _ => !s.core.vpHeld e || s.beingStopped .vec
    | .store _ => false)
  | [] => false

def Core.headLoads (c : Core) : Bool := match c.vec.vp with
  | e :: _ => (match e.kind with
    | .load _ _ _ _ => true
    | .store _ => false)
  | [] => false

def Core.headWrites (c : Core) : Bool := !c.vec.vp.isEmpty && !c.headLoads

/-- What is left of the oldest access is performed, if it may be. -/
def State.performRest (s : State) : State := if s.core.headWrites || s.loadDue then s.performHead else s

/-- An access with m bytes of those left, after the first i of them, put before the others; none where a write then loses its place behind
another of the same byte (R146). -/
def VpEntry.picked (e : VpEntry) (i m : Nat) : Option VpEntry := match e.kind with
  | .load l z ls w =>
    let r := l.drop e.got.length
    some { e with kind := .load (l.take e.got.length ++ (r.drop i).take m ++ r.take i ++ r.drop (i + m)) z ls w }
  | .store l =>
    let p := (l.drop i).take m
    if (l.take i).any (fun x => p.any (fun y => decide (x.1 = y.1))) then none
    else some { e with kind := .store (p ++ l.take i ++ l.drop (i + m)) }

/-- The first m bytes left of the oldest access, which is e, are performed. -/
def State.performBytes (s : State) (e : VpEntry) (m : Nat) : State :=
  match e.kind with
    | .load l _ _ _ =>
      let p := ((l.drop e.got.length).take m).map Prod.snd
      (match s.eccRead p with
        | .ok => s.setHead { e with got := e.got ++ s.readBytes p }
        | .badTag => s.haltWith codeIntegrity e.detail
        | .lost => s.headLost e)
    | .store l =>
      if !e.begun && decide (s.eccRead (l.map Prod.fst) ≠ .ok) then s.performHead
      else ((s.writeCells (l.take m)).wrote .vec ((l.take m).map Prod.fst)).setHead { e with kind := .store (l.drop m), begun := true }

/-- Of the elements left of the oldest access n are performed, after the first a of them: each element is single-copy atomic, the whole access
is not, and nothing orders its elements (R147, R316). A load keeps what it has read until all of it lands (R149). A write that meets lost
data anywhere is performed, or fails, as a whole. -/
def State.performElems (s : State) (a n : Nat) : State :=
  match s.core.vec.vp with
  | [] => s
  | e :: _ =>
    let i := a * e.width
    let m := min (n * e.width) (e.left - i)
    if m = 0 ∧ a ≠ 0 then s
    else if m = 0 ∨ e.left ≤ m ∨ e.lost then s.performRest
    else match e.picked i m with
    | some x => s.performBytes x m
    | none => s

/-- Some elements of the oldest access are performed, or all that is left of it. -/
def State.performPart (s : State) : Option (Nat × Nat) → State
  | some n => s.performElems n.1 n.2
  | none => s.performRest

/-! ### Closing vector regions (R307) -/

def VecRegion.handUp (r p : VecRegion) : VecRegion :=
  { p with saved := r.saved ++ p.saved, held := p.held ++ r.held, marks := r.marks ++ p.marks, mask := p.mask ||| r.mask,
           charge := p.charge + r.charge }

def foldVec : List VecRegion → Option VecRegion
  | [] => none
  | r :: t => match foldVec t with
    | none => some r
    | some p => some (r.handUp p)

/-- The rest of a release once every held effect is performed: the deferred marks in one action, the flags. -/
def State.releaseVec (s : State) (r : VecRegion) : State :=
  s.upd (fun c =>
    let c1 := ((c.updVec (fun v => { v with regions := [], again := [], eng := { v.eng with releasing := false } })).applyMarks
      r.marks).orFlags r.mask
    if r.marks.isEmpty then c1 else c1.touch .vec s.now false)

/-- The wait of a close: D cycles since the youngest retirement or landing, nothing in flight, no report pending. -/
def State.vecCloseReady (s : State) : Bool := s.engCloseReady .vec && s.core.vec.vp.isEmpty

/-- The check of the held writes before their release begins: a lost one rolls its region back, as no effect has left it yet (R224, R305). -/
def State.heldEcc (s : State) (l : List VpEntry) : Ecc :=
  let es := l.map (fun e => if e.lost then Ecc.lost else match e.kind with
    | .store cells => s.eccWrite cells
    | .load _ _ _ _ => .ok)
  if es.contains .badTag then .badTag else if es.contains .lost then .lost else .ok

/-- Close every open region of the vector stream, innermost first, then go on. Held writes are issued one after the other, each once
the one before is performed. -/
def State.closeVec (s : State) (k : State → EngIssue) : EngIssue :=
  match foldVec s.core.vec.regions with
  | none => k s
  | some r =>
    let rel := s.core.vec.eng.releasing && decide (s.core.vec.regions.length = 1)
    if !rel && !s.vecCloseReady then .wait 6 0 s
    else if !s.core.vec.vp.isEmpty then .wait 6 0 s
    else if !rel && decide (s.heldEcc r.held = .badTag) then .halt codeIntegrity
    else if !rel && decide (s.heldEcc r.held = .lost) then .set (s.vecRollback s.core.vec.eng.pc)
    else match r.held with
      | [] => k (s.releaseVec r)
      | _ :: _ =>
        if s.core.holdsNew .vp then
          .wait 7 0 (s.updVec (fun v => { v with regions := [r], eng := { v.eng with releasing := true } }))
        else .wait 6 0 ((s.updVec (fun v => { v with regions := [r], eng := { v.eng with releasing := true } })).upd Core.issueHeldVp)

end Sys2Proof.Machine
end

