-- ==== Sys2Proof/Machine/Vector.lean ====
section
/-!
DEFINITION. The vector engine's lane words, masks, SHAPE, reductions and local-store accesses (R131 to R149).
-/
namespace Sys2Proof.Machine

/-! ### Arithmetic (R136) -/

def execVAdd (d a b : TreeOp) (wa wb : Bool) (s : State) : Out := s.vec2 tyArith d a b wa wb (laneArith (· + ·) FVal.add)
def execVSub (d a b : TreeOp) (wa wb : Bool) (s : State) : Out := s.vec2 tyArith d a b wa wb (laneArith (· - ·) FVal.sub)
def execVMul (d a b : TreeOp) (wa wb : Bool) (s : State) : Out := s.vec2 tyArith d a b wa wb (laneArith (· * ·) FVal.mul)

/-- d + a × b, rounded once. -/
def laneFma (t : EType) (d a b : Nat) : Nat :=
  let w := fracWidth t
  if t.isFloat then encodeF w ((decodeF w d).add ((decodeF w a).mul (decodeF w b)))
  else laneOfInt t (intLane t d + intLane t a * intLane t b)

/-- The destination is read as the addend, always waiting. -/
def execVFma (d a b : TreeOp) (wa wb : Bool) (s : State) : Out :=
  s.vecLanes tyArith s.core.vec.active d s.ty.width [(d, true), (a, wa), (b, wb)]
    (lane3 (fun d a b => (laneFma s.ty d a b, 0)))

def execVMin (d a b : TreeOp) (wa wb : Bool) (s : State) : Out := s.vec2 tyArith d a b wa wb laneMin
def execVMax (d a b : TreeOp) (wa wb : Bool) (s : State) : Out := s.vec2 tyArith d a b wa wb laneMax
def execVAbs (d a : TreeOp) (wa : Bool) (s : State) : Out := s.vec1 tyArith d a wa laneAbs
def execVNeg (d a : TreeOp) (wa : Bool) (s : State) : Out := s.vec1 tyArith d a wa laneNeg

/-- An integer lane takes the immediate as a number, a float lane as the float that holds it. -/
def laneWithImm (fi : Int → Int → Int) (ff : FVal → FVal → FVal) (imm : BitVec 9) (t : EType) (a : Nat) : Nat :=
  if t.isFloat then laneArith fi ff t a (laneImm t imm) else laneOfInt t (fi (intLane t a) imm.toInt)

def execVAddi (d a : TreeOp) (wa : Bool) (imm : BitVec 9) (s : State) : Out :=
  s.vec1 tyArith d a wa (laneWithImm (· + ·) FVal.add imm)

def execVMuli (d a : TreeOp) (wa : Bool) (imm : BitVec 9) (s : State) : Out :=
  s.vec1 tyArith d a wa (laneWithImm (· * ·) FVal.mul imm)

def execVMovi (d : TreeOp) (imm : BitVec 9) (s : State) : Out :=
  s.vecLanes tyArith s.core.vec.active d s.ty.width [] (fun _ _ => (laneImm s.ty imm, 0))

/-! ### Logic, shifts, counts (R137) -/

def execVAnd (d a b : TreeOp) (wa wb : Bool) (s : State) : Out := s.vec2 tyInt d a b wa wb (fun _ x y => x &&& y)
def execVOr (d a b : TreeOp) (wa wb : Bool) (s : State) : Out := s.vec2 tyInt d a b wa wb (fun _ x y => x ||| y)
def execVXor (d a b : TreeOp) (wa wb : Bool) (s : State) : Out := s.vec2 tyInt d a b wa wb (fun _ x y => x ^^^ y)

def laneShl (t : EType) (a n : Nat) : Nat := if n ≥ t.bitsW then 0 else a * 2 ^ n % 2 ^ t.bitsW
def laneShr (t : EType) (a n : Nat) : Nat := if n ≥ t.bitsW then 0 else a / 2 ^ n
def laneSar (t : EType) (a n : Nat) : Nat := wrapInt t.bitsW (sextNat t.bitsW a / 2 ^ Nat.min n t.bitsW)

def execVShl (d a b : TreeOp) (wa wb : Bool) (s : State) : Out := s.vec2 tyInt d a b wa wb laneShl
def execVShr (d a b : TreeOp) (wa wb : Bool) (s : State) : Out := s.vec2 tyInt d a b wa wb laneShr
def execVSar (d a b : TreeOp) (wa wb : Bool) (s : State) : Out := s.vec2 tyInt d a b wa wb laneSar
def execVClz (d a : TreeOp) (wa : Bool) (s : State) : Out := s.vec1 tyInt d a wa (fun t x => clzNat t.bitsW x)
def execVPopc (d a : TreeOp) (wa : Bool) (s : State) : Out := s.vec1 tyInt d a wa (fun t x => popNat t.bitsW x)

/-- Bit n of the bit string that starts at a tree line. -/
def Core.treeBit (c : Core) (line n : Nat) : Bool := (c.treeNat (64 * line + n / 8) 1).testBit (n % 8)

/-- All four lines of the source are read, whatever the lane count. -/
def execVBitt (d a : TreeOp) (wa : Bool) (imm : BitVec 9) (s : State) : Out :=
  let v := s.core.vec
  .next (s.issueVec (
    if !tyInt s.ty then .stop codeIllegal
    else match s.vecPlaces [(d, v.span), (a, 4)] with
      | some [pd, pa] => s.vecRun [⟨pa, wa⟩] [pd] none
          (.ok (laneOut pd.line s.ty.width (laneResults v.shape.lanes v.active (fun i =>
            (if s.core.treeBit pa.line (imm.toNat + i) then allOnes s.ty else 0, 0)))))
      | _ => s.vecMisplaced [(d, v.span), (a, 4)]))

/-! ### Compares, select, masks (R138 to R140) -/

/-- 256 mask bits. -/
def maskOf (f : Nat → Bool) : BitVec 256 := BitVec.ofNat 256 (((List.range 256).map (fun i => bit (f i) * 2 ^ i)).foldl (· + ·) 0)

def Core.setMask (c : Core) (n : Fin 8) (m : BitVec 256) : Core := c.updVec (fun v => { v with masks := v.masks.set n m })

/-- A compare: floats by value, false with a NaN. -/
def laneCmp (f : Int → Int → Bool) (t : EType) (a b : Nat) : Bool :=
  if t.isFloat then !laneNan t a && !laneNan t b && f (valueKey (fracWidth t) a) (valueKey (fracWidth t) b)
  else f (intLane t a) (intLane t b)

/-- A compare writes all 256 bits of its mask register; it writes no tree line. -/
def State.vecCompare (s : State) (n : Fin 8) (a b : TreeOp) (wa wb : Bool) (f : Int → Int → Bool) : Out :=
  let v := s.core.vec
  let t := s.ty
  .next (s.issueVec (
    if !tyArith t then .stop codeIllegal
    else match s.vecPlaces [(a, v.span), (b, v.span)] with
      | some [pa, pb] =>
        let x := s.core.lanes pa.line t.width v.shape.lanes
        let y := s.core.lanes pb.line t.width v.shape.lanes
        let m := maskOf (fun i => v.active i && laneCmp f t (x.getD i 0) (y.getD i 0))
        s.vecRun [⟨pa, wa⟩, ⟨pb, wb⟩] [] none (.ok { dst := [], full := [], flags := 0, post := (·.setMask n m) })
      | _ => s.vecMisplaced [(a, v.span), (b, v.span)]))

def execVCmpeq (n : Fin 8) (a b : TreeOp) (wa wb : Bool) (s : State) : Out := s.vecCompare n a b wa wb (fun x y => decide (x = y))
def execVCmplt (n : Fin 8) (a b : TreeOp) (wa wb : Bool) (s : State) : Out := s.vecCompare n a b wa wb (fun x y => decide (x < y))
def execVCmple (n : Fin 8) (a b : TreeOp) (wa wb : Bool) (s : State) : Out := s.vecCompare n a b wa wb (fun x y => decide (x ≤ y))

/-- Every lane below c takes part; the mask that SHAPE names selects. -/
def execVSel (d a b : TreeOp) (wa wb : Bool) (s : State) : Out :=
  let m := s.core.vec.masks[s.core.vec.shape.mask]
  s.vecLanes tyAny (fun _ => true) d s.ty.width [(a, wa), (b, wb)] (fun cols i => match cols with
    | [x, y] => (if m.toNat.testBit i then x.getD i 0 else y.getD i 0, 0)
    | _ => (0, 0))

/-- A mask word (R140). -/
def State.maskWord (s : State) (d : Fin 8) (m : BitVec 256) : Out :=
  .next (s.issueVec (.done ((s.upd (·.setMask d m)).engNext .vec)))

def State.mask (s : State) (n : Fin 8) : BitVec 256 := s.core.vec.masks[n]

def execVMaskAnd (d a b : Fin 8) (s : State) : Out := s.maskWord d (s.mask a &&& s.mask b)
def execVMaskOr (d a b : Fin 8) (s : State) : Out := s.maskWord d (s.mask a ||| s.mask b)
def execVMaskXor (d a b : Fin 8) (s : State) : Out := s.maskWord d (s.mask a ^^^ s.mask b)
def execVMaskAndn (d a b : Fin 8) (s : State) : Out := s.maskWord d (s.mask a &&& ~~~(s.mask b))
def execVMaskNot (d a : Fin 8) (s : State) : Out := s.maskWord d (~~~(s.mask a))
def execVMaskSet (d : Fin 8) (s : State) : Out := s.maskWord d (BitVec.allOnes 256)
def execVMaskClear (d : Fin 8) (s : State) : Out := s.maskWord d 0

/-! ### Conversion, broadcast, permute (R141, R142) -/

def execVCvt (d a : TreeOp) (t : EType) (wa : Bool) (s : State) : Out :=
  s.vecLanes tyAny s.core.vec.active d t.width [(a, wa)] (lane1 (convert s.ty t))

/-- R142. DESIGN CHOICE: a lane L at or beyond c is told before an operand that fails R27, both being of step 2 of R135 (log 24). -/
def execVBcast (d a : TreeOp) (wa : Bool) (imm : BitVec 9) (s : State) : Out :=
  if imm.toNat ≥ s.core.vec.shape.lanes then .next (s.issueVec (.stop codeBounds))
  else s.vecLanes tyAny s.core.vec.active d s.ty.width [(a, wa)] (fun cols _ => match cols with
    | [x] => (x.getD imm.toNat 0, 0)
    | _ => (0, 0))

def execVPerm (d a b : TreeOp) (wa wb : Bool) (s : State) : Out :=
  s.vecLanes tyAny s.core.vec.active d s.ty.width [(a, wa), (b, wb)] (fun cols i => match cols with
    | [x, y] => (x.getD (y.getD i 0) 0, 0)
    | _ => (0, 0))

/-! ### Reductions (R143, R144) -/

/-- The F32 sum by the tree of R73: 64 or 128 positions, lanes widened exactly, +0 elsewhere. -/
def floatSum (t : EType) (l : List (Nat × Nat)) : Nat :=
  let n := if t = .f32 then 64 else 128
  let at_ : Nat → Nat := fun i => if t = .f32 then assocGet 0 l i else assocGet 0 l i * 65536
  ((pairTree (if t = .f32 then 6 else 7) ((List.range n).map at_)).headD 0)

def reduceSum (t : EType) (l : List (Nat × Nat)) : Nat × Nat :=
  if t.isFloat then (floatSum t l, 0)
  else
    let x := (l.map (fun p => intLane t p.2)).foldl (· + ·) 0
    (if t.signed then wrapInt 32 (satInt 32 x) else (min x (2 ^ 32 - 1)).toNat, 0)

def reduceMax (t : EType) (l : List (Nat × Nat)) : Nat × Nat :=
  ((l.map (·.2)).foldl (laneMax t) (laneLeast t), 0)

def reduceMin (t : EType) (l : List (Nat × Nat)) : Nat × Nat :=
  ((l.map (·.2)).foldl (laneMin t) (laneGreatest t), 0)

/-- The rank of a lane in an argmax: a NaN lies below −∞. -/
def argKey (t : EType) (x : Nat) : Int := if laneNan t x then -(2 ^ 40) else laneKey t x

/-- The winner so far against the next lane; a tie keeps the lower lane. -/
def argStep (t : EType) (best x : Nat × Nat) : Nat × Nat := if argKey t best.2 < argKey t x.2 then x else best

def reduceArgmax (t : EType) (l : List (Nat × Nat)) : Nat × Nat := match l with
  | [] => (laneLeast t, 0xFFFFFFFF)
  | x :: r =>
    let b := r.foldl (argStep t) x
    (if laneNan t b.2 then laneCanon t else b.2, b.1)

def execVRedsum (d a : TreeOp) (wa : Bool) (s : State) : Out := s.vecReduce d a wa reduceSum
def execVRedmax (d a : TreeOp) (wa : Bool) (s : State) : Out := s.vecReduce d a wa reduceMax
def execVRedmin (d a : TreeOp) (wa : Bool) (s : State) : Out := s.vecReduce d a wa reduceMin
def execVArgmax (d a : TreeOp) (wa : Bool) (s : State) : Out := s.vecReduce d a wa reduceArgmax

/-! ### Local-store access (R145 to R149) -/

/-- Whether the whole-lane access at o lies in the binding (R145). -/
def laneSpanOk (sh : Shape) (o len : Nat) : Bool := decide (o + sh.ty.width * sh.lanes ≤ len)

def execVLd (d : TreeOp) (h : Hnd) (j : KIx) (s : State) : Out :=
  let v := s.core.vec
  let w := s.ty.width
  let o := (v.eng.k[j]).val.toNat
  .next (s.issueVec (match s.vecPlaces [(d, v.span)] with
    | some [pd] =>
      if o % w ≠ 0 then .stop codeBounds (some (wordOfNat o))
      else s.vpHandle h false (fun b hold =>
        if !laneSpanOk v.shape o b.len then .stop codeBounds (some (wordOfNat o))
        else s.vecRun [] [pd] hold (s.vpLoad b pd [] (v.offsets (fun i => o + w * i))))
    | _ => s.vecMisplaced [(d, v.span)]))

def execVSt (d : TreeOp) (h : Hnd) (j : KIx) (wa : Bool) (s : State) : Out :=
  let v := s.core.vec
  let w := s.ty.width
  let o := (v.eng.k[j]).val.toNat
  .next (s.issueVec (match s.vecPlaces [(d, v.span)] with
    | some [p] =>
      if o % w ≠ 0 then .stop codeBounds (some (wordOfNat o))
      else s.vpHandle h true (fun b hold =>
        if !laneSpanOk v.shape o b.len then .stop codeBounds (some (wordOfNat o))
        else s.vecRun [⟨p, wa⟩] [] hold
          (s.vpStore b (s.core.lanes p.line w v.shape.lanes) (s.emptied [⟨p, wa⟩]) (v.offsets (fun i => o + w * i))))
    | _ => s.vecMisplaced [(d, v.span)]))

/-- Active lanes with the offsets of the elements they name, or BOUNDS with the first offset that lies outside (R146, R301). -/
def elementOffsets (v : VecEngine) (idx : List Nat) (len : Nat) : Except VFail (List (Nat × Nat)) :=
  let w := v.shape.ty.width
  let l := v.offsets (fun i => w * idx.getD i 0)
  match l.find? (fun x => decide (len < x.2 + w)) with
  | some x => .error (codeBounds, some (wordOfNat x.2))
  | none => .ok l

def execVGather (d a : TreeOp) (h : Hnd) (wa : Bool) (s : State) : Out :=
  let v := s.core.vec
  .next (s.issueVec (match s.vecPlaces [(d, v.span), (a, v.span)] with
    | some [pd, pa] => s.vpHandle h false (fun b hold =>
        s.vecRun [⟨pa, wa⟩] [pd] hold
          ((elementOffsets v (s.core.lanes pa.line s.ty.width v.shape.lanes) b.len).bind (s.vpLoad b pd (s.emptied [⟨pa, wa⟩]))))
    | _ => s.vecMisplaced [(d, v.span), (a, v.span)]))

/-- The data's W bit is `wb`, the offsets' `wa`. -/
def execVScatter (d a : TreeOp) (h : Hnd) (wa wb : Bool) (s : State) : Out :=
  let v := s.core.vec
  .next (s.issueVec (match s.vecPlaces [(d, v.span), (a, v.span)] with
    | some [p, pa] => s.vpHandle h true (fun b hold =>
        s.vecRun [⟨p, wb⟩, ⟨pa, wa⟩] [] hold
          ((elementOffsets v (s.core.lanes pa.line s.ty.width v.shape.lanes) b.len).bind
            (s.vpStore b (s.core.lanes p.line s.ty.width v.shape.lanes) (s.emptied [⟨p, wb⟩, ⟨pa, wa⟩]))))
    | _ => s.vecMisplaced [(d, v.span), (a, v.span)]))

/-! ### SHAPE, loops, regions, the end (R18, R47, R131, R147, R304, R307) -/

def State.shapeWord (s : State) (sh : Shape) : Out :=
  .next (s.issueVec (.done ((s.updVec (fun v => { v with shape := sh })).engNext .vec)))

def execVShape (t : EType) (lanes : BitVec 9) (s : State) : Out := s.shapeWord ⟨0, false, t, lanes.toNat⟩
def execVShapeMasked (n : Fin 8) (t : EType) (lanes : BitVec 9) (s : State) : Out := s.shapeWord ⟨n, true, t, lanes.toNat⟩

/-- A loop word of an engine (R47). -/
def State.vecLoop (s : State) (f : Engine → Engine) : Out := .next (s.issueVec (.done (s.updEng .vec f)))

def execVLoop (k : KIx) (n : BitVec 23) (s : State) : Out := s.vecLoop (·.loop k n)
def execVBr (k : KIx) (off : BitVec 23) (s : State) : Out := s.vecLoop (·.br s.core.res.encv k off)
def execVKop (k : KIx) (v : BitVec 21) (s : State) : Out := s.vecLoop (·.kop k v)
def execVKopAdd (k : KIx) (v : BitVec 21) (s : State) : Out := s.vecLoop (·.kopAdd k v)
def execVKopMov (k i : KIx) (s : State) : Out := s.vecLoop (·.kopMov k i)

/-- R304: the begin snapshot. -/
def VecEngine.openRegion (v : VecEngine) : VecEngine :=
  { v with regions := { pc := v.eng.pc, snap := ⟨v.shape, v.masks, v.eng.k, v.shadow⟩, mask := 0, saved := [], held := [],
                        marks := [], charge := 0, retries := againCount v.again v.regions.length v.eng.pc } :: v.regions }

/-- R304. DESIGN CHOICE: while earlier accesses are under way it waits with kind 4; R95 and R304 name no kind for it (log 24). -/
def execVMendOpen (s : State) : Out :=
  .next (s.issueVec (
    if s.core.vec.regions.length ≥ 4 then .stop codeMendFull
    else if !s.core.vec.vp.isEmpty then .wait 4 0 s
    else .done ((s.updVec VecEngine.openRegion).engNext .vec)))

/-- The lines as the vector stream sees them: with its deferred marks (R304, R305). -/
def execVMendSave (k : KIx) (n : BitVec 12) (s : State) : Out :=
  let v := s.core.vec
  let line := (v.eng.k[k]).val.toNat
  .next (s.issueVec (match v.regions with
    | [] => .stop codeIllegal
    | r :: t =>
      if line + n.toNat > s.core.res.tree then .stop codeBounds (some (wordOfNat (line + n.toNat - 1)))
      else if !s.core.roomFor (64 * n.toNat) 0 then .stop codeMendFull
      else match (rangeFrom line n.toNat).find? (fun m => v.landing.contains m) with
      | some m => .wait 9 m s
      | none =>
        match (rangeFrom line n.toNat).find? (fun m => s.core.treeLost.contains m) with
        | some m => .stop codeDataLost (some (wordOfNat m))
        | none => .done ((s.updVec (fun v => { v with regions :=
          { r with saved := s.core.saveLines v.marks line n.toNat ++ r.saved, charge := r.charge + 64 * n.toNat } :: t })).engNext .vec)))

def execVMendClose (s : State) : Out :=
  .next (s.issueVec (match s.core.vec.regions with
    | [] => .stop codeIllegal
    | [_] => s.closeVec (fun t => .done (t.engNext .vec))
    | r :: p :: t =>
      if s.vecCloseReady then
        .done ((s.updVec (fun v => { v with regions := r.handUp p :: t, again := againDrop v.again (t.length + 1) })).engNext .vec)
      else .wait 6 0 s))

/-- R147: what is held in an open region is not issued yet, so it is not waited for (log 20). -/
def execVMark (s : State) : Out :=
  .next (s.issueVec (if s.core.vec.vp.isEmpty then .done (s.engNext .vec) else .wait 4 0 s))

def execVEnd (s : State) : Out :=
  .next (s.issueVec (s.closeVec (fun t =>
    if t.core.vec.vp.isEmpty then .set (t.updEng .vec (fun e => { e with st := .ended, retired := t.now, stopReq := false }))
    else .wait 4 0 t)))

/-! ### Landing and performing -/

/-- R149: a load reads some of its elements, or the rest of them and lands. -/
def execVectorLoadLand (p : VpPart) (s : State) : Out :=
  .next (s.onCore p.core (fun s => if s.core.headLoads then s.performPart p.elems else s))

/-- R147: a write performs some of its elements, or the rest of them. -/
def execVpAccessPerformed (p : VpPart) (s : State) : Out :=
  .next (s.onCore p.core (fun s => if s.core.headWrites then s.performPart p.elems else s))

end Sys2Proof.Machine
end

