-- ==== Sys2Proof/Machine/Strike.lean ====
section
/-!
DEFINITION. Waits that end and closes that come due (R17, R292, R307), halts that are complete (R313), strikes, their reports and
parity errors (R125, R293, R303, R305, R311).
-/
namespace Sys2Proof.Machine

/-! ### Waits and closes -/

/-- A stream's turn comes next. -/
def State.turnNext (s : State) (st : StreamId) : State := { s with sched := ⟨0, 0, [], .stream s.core.id st⟩ :: s.sched }

/-- The awaited condition may hold: the waiting instruction tries again, with the checks of its own meaning. A step word of the
transfer engine that has issued goes on with its next block (R160). -/
def State.tryAgain (s : State) (st : StreamId) : State :=
  match st with
  | .xfer => if s.core.xfer.cur.isSome then s.blockEvent else s.turnNext .xfer
  | _ => s.turnNext st

def execWaitSatisfied (core : Nat) (st : StreamId) (s : State) : Out := .next (s.onCore core (fun s => s.tryAgain st))

/-- The word at a stream's program counter, where the stream may issue it. -/
def State.standing (s : State) (st : StreamId) : Option Instr :=
  if s.mayIssue st then match decode st s.core.res.encv (s.wordAt s.core st (s.core.pcOf st)) with
    | .ok i => some i
    | .error _ => none
  else none

def stateOf (d : State) : Out → State
  | .next t => t
  | _ => d

/-- The close that a stream stands at is tried; any other word that closes regions gets its stream's turn, and so does a word that cannot be
read. -/
def State.tryClose (s : State) (st : StreamId) : State :=
  if s.mayIssue st ∧ s.codeEcc s.core st ≠ .ok then s.turnNext st
  else match s.standing st with
  | some .mendClose => stateOf s (execMendClose s)
  | some .vMendClose => stateOf s (execVMendClose s)
  | some .xMendClose => stateOf s (execXMendClose s)
  | some _ => s.turnNext st
  | none => s

/-- An outermost close whose wait is met (R292, R307). -/
def execMendRelease (core : Nat) (st : StreamId) (s : State) : Out :=
  .next (s.onCore core (fun s => if s.core.depth st = 1 then s.tryClose st else s))

/-- An inner close whose wait is met: the enclosing region takes what it hands over. -/
def execInnerClose (core : Nat) (st : StreamId) (s : State) : Out :=
  .next (s.onCore core (fun s => if s.core.depth st ≥ 2 then s.tryClose st else s))

/-! ### Halts (R313) -/

/-- The issued vector accesses are performed, in order, up to one that waits for full lines (R29) or fails: it and those behind it stay
issued, and fail, or land, once the streams go on (R313, R314: log 12). -/
def State.completeVp (s : State) : List VpEntry → State
  | [] => s
  | e :: t =>
    if s.core.vpHeld e then s
    else match s.performVp e with
      | (.ok, u) => u.popVp.completeVp t
      | _ => s

/-- One core stands still: issued vector accesses are performed, the matrix engine writes its spill image, every stream writes its
record of kind 3. A waiting instruction is abandoned; an open cinch stays as it is. The detail of the halt's cause goes into the record
of the halting core's sequencer; MAYCORE and MAYLEFT are those of a STRIKE, as the halt was raised (R301, R311). -/
def State.haltCore (s : State) (h : Halt) (id : Nat) : State :=
  let s0 := s.focus id
  let strike := decide (h.code = codeStrike)
  let s1 := (s0.completeVp s0.core.vec.vp).upd (fun c => c.spillNow h.code)
  let s2 := s1.updSeq (fun q => { q with wait := false, walk := none, markAt := none })
  [StreamId.seq, .vec, .mat, .xfer].foldl (fun s st => s.record st
    { code := h.code, kind := 3, pc := s.core.pcOf st, at_ := s.core.pcOf st,
      addr := if st = .seq ∧ id = h.core then h.detail else s.openDetailOf st,
      spill := decide (st = .mat), mayCore := strike && s0.core.mayCore st h.cycle, mayLeft := strike && s0.core.mayLeft st h.cycle }) s2

/-- The halted event: code and halting core (R278). -/
def haltBody (h : Halt) : List Byte :=
  bytesOfNat 8 h.code.toNat ++ bytesOfNat 8 (put 0 7 (h.core % 128) + put 8 2 (h.core / 128))

/-- Every record is written, then the event is posted. -/
def State.finishHalt (s : State) (ctx : Nat) : State :=
  match s.ctx ctx with
  | none => s
  | some c => match c.halt with
    | none => s
    | some h =>
      if h.posted then s
      else
        let home := s.core.id
        let s1 := ((s.ctxCores ctx).foldl (fun s n => s.haltCore h n) s).focus home
        (s1.postEvent c.iface 3 h.code.toNat c.part ctx 0 0 (haltBody h)).updCtx ctx
          (fun c => { c with halt := some { h with posted := true } })

def execHaltComplete (ctx : Nat) (s : State) : Out := .next (s.finishHalt ctx)

/-! ### Strikes (R303) -/

def State.addReport (s : State) (core : Nat) (l : List StreamId) : State :=
  if coreExists core ∧ (s.coreOf core).seat.isSome then
    s.updCore core (fun c => { c with reports := c.reports ++ [⟨l, s.now⟩] })
  else s

/-- Every context of the device halts (R303, R288). -/
def State.haltAll (s : State) (code : Code) : State :=
  s.ctxs.foldl (fun s c => s.haltPlain c.num code (s.lowestCore c.num) false) s

/-- An upset that ECC corrects is counted in the error log; one that it can only detect stays in the line, row or sector (R223). -/
def State.memoryUpset (s : State) (fixable : Bool) (f : State → State) : State := if fixable then s.logDevice .corrected 0 else f s

/-- Item i of a list changed. -/
def changeAt {α : Type} (f : α → α) (i : Nat) (l : List α) : List α := l.zipIdx.map (fun x => if x.2 = i then f x.1 else x.1)

def SavedBytes.spoil (x : SavedBytes) : SavedBytes := { x with lost := true }
def SavedLine.spoil (x : SavedLine) : SavedLine := { x with lost := true }
def VpEntry.spoil (e : VpEntry) : VpEntry := { e with lost := true }
def XOp.spoil (o : XOp) : XOp := { o with failed := o.failed.or (some codeDataLost) }

def SeqRegion.spoil (i : Nat) (r : SeqRegion) : SeqRegion := { r with saved := changeAt SavedBytes.spoil i r.saved }

def VecRegion.spoil (i : Nat) (r : VecRegion) : VecRegion :=
  if i < r.saved.length then { r with saved := changeAt SavedLine.spoil i r.saved }
  else { r with held := changeAt VpEntry.spoil (i - r.saved.length) r.held }

def XferRegion.spoil (i : Nat) (r : XferRegion) : XferRegion :=
  if i < r.saved.length then { r with saved := changeAt SavedLine.spoil i r.saved }
  else { r with held := changeAt XOp.spoil (i - r.saved.length) r.held }

/-- A line of the undo buffer is uncorrectable: what it keeps is lost (R223). Item i of the region at a depth is one of its saved bytes or
lines, or, after those, one of its held vector writes or step words (R309), which then fail with DATA_LOST. -/
def Core.loseUndo (c : Core) (st : StreamId) (depth i : Nat) : Core :=
  match st with
  | .seq => c.updSeq (fun q => { q with regions := changeAt (SeqRegion.spoil i) depth q.regions })
  | .vec => c.updVec (fun v => { v with regions := changeAt (VecRegion.spoil i) depth v.regions })
  | .mat => c
  | .xfer => c.updXfer (fun x => { x with regions := changeAt (XferRegion.spoil i) depth x.regions })

/-- The collective that core's operation n belongs to fails with STRIKE for every participant (R184). -/
def State.strikeColl (s : State) (core n : Nat) : State :=
  s.onCore core (fun s => match s.core.xfer.all.find? (fun o => decide (o.id = n)) with
    | some o => match o.collInfo with
      | some (_, scope, ident, m) =>
        let l := s.participants scope ident
        s.failColl ident m codeStrike noBits l (s.blockShared ident m l)
      | none => s
    | none => s)

/-- The write that item i of the vector region at a depth holds. -/
def VecEngine.heldItem (v : VecEngine) (depth i : Nat) : Option VpEntry :=
  v.regions[depth]?.bind (fun r => if i < r.saved.length then none else r.held[i - r.saved.length]?)

/-- A line of a core's undo buffer is lost. A vector write that a release under way has still to perform is issued before, those before it
performed (R132, R189: log 20), and is then lost no more; where a fence forbids that it is lost. -/
def State.undoLost (s : State) (core : Nat) (st : StreamId) (depth i : Nat) : State :=
  let c := s.coreOf core
  match (if st = .vec ∧ c.vec.eng.releasing then c.vec.heldItem depth i else none) with
  | none => s.updCore core (fun c => c.loseUndo st depth i)
  | some e =>
    let f : VpEntry → Bool := fun x => decide (x.seq = e.seq)
    (s.onCore core (fun s => s.finishCore f)).updCore core (fun c => c.updVec (fun v => { v with
      regions := v.regions.map (fun r => { r with held := r.held.map (fun x => if f x then x.spoil else x) }) }))

def State.softError (s : State) (p : StruckPart) : State :=
  match p with
  | .stream core st => s.addReport core [st]
  | .shared core => s.addReport core [.seq, .vec, .mat, .xfer]
  | .matrixArray core => s.addReport core [.mat]
  | .transferPath core => s.addReport core [.xfer]
  | .treeLine core line fix =>
    s.memoryUpset fix (fun s => if coreExists core ∧ line < 2048 then s.updCore core (fun c => { c with treeLost := line :: c.treeLost })
      else s)
  | .wbRow core row fix =>
    s.memoryUpset fix (fun s => if coreExists core ∧ row < 4096 then s.updCore core (fun c => { c with wbLost := row :: c.wbLost }) else s)
  | .undo core st d i fix => s.memoryUpset fix (fun s => if coreExists core then s.undoLost core st d i else s)
  | .memory p fix => s.memoryUpset fix (fun s => s.loseSector (sectorOf p))
  | .tag p => if p.space = .hbm then s.breakTag (sectorOf p) else s
  | .collective core op => s.strikeColl core op
  | .walker _ => s
  | .scheduler _ => s
  | .flopor => s.haltAll codeStrike

def execSoftErrorStrike (part : StruckPart) (s : State) : Out := .next (s.softError part)

/-! ### Reports and parity errors -/

def execStrikeReport (core : Nat) (s : State) : Out := .next (s.onCore core State.deliver)

/-- A parity error is handled as a report to its stream: a rollback inside a region or reduction (R125, R305), pending while the stream
is STOPPED (R310); it waits for a release that is under way. -/
def State.parityError (s : State) (e : Eng) : State :=
  if s.core.deferReport e.stream then s.addReport s.core.id [e.stream] else s.strike e.stream

def execEngineParityError (core : Nat) (e : Eng) (s : State) : Out := .next (s.onCore core (fun s => s.parityError e))

end Sys2Proof.Machine
end

