-- ==== Sys2Proof/Machine/Clock.lean ====
section
/-!
DEFINITION. The exchanges that correct the interval clocks (R226, R227), the power and clock controller's ramps (R231) and heat
(R236, R288), the host's own memory accesses (R240). Assumption log 7 holds what the spec is brief about.
-/
namespace Sys2Proof.Machine

/-! ### Corrections (R226) -/

/-- Whole nanoseconds in a clock's unit of 1/20,000 ns. -/
def nsUnits (t : Int) : Int := t * 20000

/-- Whether the bounds of an exchange agree with the interval. -/
def DieClock.agrees (d : DieClock) (a b : Int) : Bool := !(decide (b < d.e) || decide (a > d.u))

/-- A correction by bounds a ≤ τ ≤ b. -/
def DieClock.correct (d : DieClock) (a b : Int) : DieClock :=
  if d.agrees a b then { d with wide := false, e := max d.e a, u := min d.u b, l := max d.l (min d.u b) }
  else { d with wide := true }

/-- The first exchange after the host has set the time base. DESIGN CHOICE: a die's time word and its carried width, which R227 has from the first
die-to-die time word on, are taken from this exchange until then (log 7). -/
def DieClock.start (d : DieClock) (a b : Int) : DieClock :=
  { d with wide := false, e := a, u := b, l := b, word := a, wordW := some ((b / 20000 - a / 20000).toNat) }

/-- A correction of one die (R226). Bounds that do not agree leave its width unbounded and are logged. -/
def State.correctDie (s : State) (die : Fin 4) (a b : Int) : State :=
  let d := s.clocks[die]
  let t : State := { s with clocks := s.clocks.set die (d.correct a b) }
  if d.agrees a b then t else t.logDevice .clock die.val

/-- The least and the greatest τ that bounds a and b and the interval of every die of bounded width leave (R225). -/
def State.tauRange (s : State) (a b : Int) : Int × Int :=
  let l := s.clocks.toList.filter (fun d => !d.wide)
  (l.foldl (fun m d => max m d.e) a, l.foldl (fun m d => min m d.u) b)

/-- τ lies within the bounds of every exchange, and within every interval of bounded width (R225): where an exchange, or an adjustment of the
host's time base, says so, the model's τ follows (log 7). -/
def State.settleTau (s : State) (a b : Int) : State :=
  let r := s.tauRange a b
  if r.1 ≤ r.2 then { s with tau := max r.1 (min s.tau r.2) } else s

/-- A correction that reaches every die (log 7). -/
def State.correctAll (s : State) (a b : Int) : State :=
  (List.finRange 4).foldl (fun s d => s.correctDie d a b) s

/-- The first exchange after `time.set` starts the clocks, in the time base that the host set (R226, R280). -/
def State.startClocks (s : State) (base lo hi : Int) : State :=
  { s with clocks := s.clocks.map (·.start (nsUnits lo) (nsUnits hi)), tau := nsUnits (max lo (min base hi)), fw := { s.fw with timeWait := none } }

/-- A host exchange (R226): bounds that cross mean nothing. -/
def State.ptm (s : State) (lo hi : Int) : State :=
  if lo > hi then s
  else match s.fw.timeWait with
    | some base => s.startClocks base lo hi
    | none =>
      if s.fw.timeset then (s.correctAll (nsUnits lo) (nsUnits hi)).settleTau (nsUnits lo) (nsUnits hi) else s

def execPtmExchange (lo hi : Int) (s : State) : Out := .next (s.ptm lo hi)

/-- The width in ns that a die's time word carries. -/
def DieClock.widthNat (d : DieClock) : Option Nat := d.width.map Int.toNat

/-- The die's own word goes out with what it knows now (R227). -/
def DieClock.sendWord (d : DieClock) : DieClock := { d with word := d.e, wordW := d.widthNat }

/-- Whether the clocks have been started (R226). -/
def State.timeRuns (s : State) : Bool := s.fw.timeset && s.fw.timeWait.isNone

def State.timeWord (s : State) (die : Fin 4) (lo hi : Int) : State :=
  if !s.timeRuns ∨ lo > hi then s
  else
    let s1 := (s.correctDie die (nsUnits lo) (nsUnits hi)).settleTau (nsUnits lo) (nsUnits hi)
    { s1 with clocks := s1.clocks.set die (s1.clocks[die]).sendWord }

def execDieTimeWord (die : Fin 4) (lo hi : Int) (s : State) : Out := .next (s.timeWord die lo hi)

/-! ### The device's bounds -/

/-- The least earliest bound among the dies, and the greatest latest bound, in ns. -/
def State.earlyAll (s : State) : Int := (s.clocks.toList.map DieClock.early).foldl min (s.clocks[(0 : Fin 4)]).early
def State.lateAll (s : State) : Int := (s.clocks.toList.map DieClock.late).foldl max (s.clocks[(0 : Fin 4)]).late

/-- The device's width: none while some die's is unbounded. -/
def State.widthAll (s : State) : Option Nat :=
  if s.clocks.toList.any (·.wide) then none else some (s.lateAll - s.earlyAll).toNat

/-! ### Agreements and ramps (R231) -/

/-- A ceiling from a limit: 1,350 to 2,700 in steps of 25. -/
def ceilingOf (limit : Nat) : Nat := max 1350 (min 2700 (limit / 25 * 25))

/-- A change of the group's state. A new agreement ends what heat had lowered: the budgets are derived anew (R236). -/
def State.updGroup (s : State) (f : Group → Group) : State :=
  let g := f s.group
  { s with group := g, heat := if g.agreement = s.group.agreement ∧ g.moment = s.group.moment then s.heat else Vector.replicate 4 none }

/-- An agreement takes effect at a stamp: its ramp begins there, at the frequency then in force (R231). -/
def Group.enter (g : Group) (n ceiling : Nat) (stamp : Int) : Group :=
  { g with agreement := n, ceiling := ceiling, moment := stamp, rampFrom := g.freq, rampAt := stamp }

/-- The next agreement takes effect. -/
def Group.agree (g : Group) (ceiling : Nat) (stamp : Int) : Group := g.enter ((g.agreement + 1) % 2 ^ 32) ceiling stamp

/-- The least limit among the members in force; a device that joins is none before its join stamp (R232, R234). -/
def Group.leastLimit (g : Group) : Nat :=
  g.members.foldl (fun m x => min m x.limit) (if g.state = .joining then (g.members.head?.map (·.limit)).getD g.limit else g.limit)

/-- The stamp of the ramp's next step: every step is held for 500 ns, the first is taken at the agreement's stamp (R231); a device that
joins begins its ramp as it adopts the agreement (log 7). -/
def Group.nextStep (g : Group) : Int := g.rampAt + 500 * (((g.freq - g.rampFrom) + (g.rampFrom - g.freq)) / 25 : Nat)

/-- A step of the ramp: 25 MHz towards the ceiling. -/
def Group.ramp (g : Group) : Group :=
  if g.freq < g.ceiling then { g with freq := min g.ceiling (g.freq + 25) }
  else if g.ceiling < g.freq then { g with freq := max g.ceiling (g.freq - 25) }
  else g

/-- A step of the ramp, once the device's earliest bound has come to its stamp. -/
def State.rampStep (s : State) : State :=
  if s.group.nextStep ≤ s.earlyAll then s.updGroup Group.ramp else s

def execRampStep (s : State) : Out := .next s.rampStep

/-! ### Heat (R236, R288) -/

/-- A die at 105 °C: the budgets that its cores' next windows take aim lower, until the next agreement; the step from one window to the
next keeps to R128 (R236, R288). -/
def State.heatDie (s : State) (die : Fin 4) (b : Nat) : State :=
  { s with heat := s.heat.set die (some (match s.heat[die] with
      | some x => min x b
      | none => b)) }

def execDieOver105c (die : Fin 4) (budget : Nat) (s : State) : Out := .next (s.heatDie die budget)

/-- A die at 115 °C: every context halts with STRIKE and the rails drop (R288, R312). -/
def execDieOver115c (_die : Fin 4) (s : State) : Out :=
  let t := s.haltAll codeStrike
  .next { t with fw := { t.fw with railsDown := true } }

/-! ### The host's accesses to the device (R240, R274, R275) -/

/-- The places of a range of a partition's decoder window, through stage 2; none where some byte has none. -/
def State.partPlaces (s : State) (p : Partition) (ppa n : Nat) (write : Bool) : Option (List PAddr) :=
  if ppa + n ≤ p.window then
    (rangeFrom ppa n).mapM (fun a => match s.stage2 p a write with
      | .ok pa => if pa.space = .hbm then some pa else none
      | _ => none)
  else none

/-- What the host gets. -/
def State.hostGets (s : State) (bytes : List Byte) (lost : Bool) : State := { s with fw := { s.fw with reply := ⟨bytes, lost⟩ } }

/-- A bit of the global registers of BAR0 (R275). -/
def State.bar0Word (s : State) (off : Nat) : Nat :=
  let q : Fin 64 := Fin.ofNat 64 (off / 4096 - 1)
  let i := s.fw.ifaces[q]
  if off = 0 then 0x4F580004 + 2 ^ 32 * (Config.firmwareVersion s.fw.patches).toNat
  else if off = 8 then
    put 4 4 s.fw.stage + put 3 1 (bit (s.ctxs.any (·.halt.isSome))) + put 2 1 (bit s.fw.timeset) + put 1 1 (bit s.fw.config.isSome) +
    put 0 1 (bit s.fw.ready)
  else if off < 4096 ∨ off ≥ 65 * 4096 then 0
  else match off % 4096 with
    | 0x00 => i.sqbase.toNat
    | 0x08 => i.evbase.toNat
    | 0x10 => i.cnt.toNat
    | 0x18 => put 32 16 i.vector + put 31 1 (bit i.enable) + put 24 4 i.evlog + put 20 4 i.sqlog + put 0 20 i.pasid
    | _ => 0

def MsixEntry.words (e : MsixEntry) : List Byte :=
  bytesOfNat 8 e.addr.toNat ++ bytesOfNat 4 e.data.toNat ++ bytesOfNat 4 (bit e.masked) ++ bytesOfNat 1 (bit e.pending)

/-- What a PCIe AtomicOp leaves in memory. -/
def atomicNew (op : HostAtomic) (old value compare : Nat) : Nat :=
  match op with
  | .fetchAdd => old + value
  | .swap => value
  | .cas => if old = compare then value else old

/-- An AtomicOp of the host: the value read goes back to it (R274). -/
def State.hostAtomic (s : State) (op : HostAtomic) (l : List PAddr) (value compare : Word) : State :=
  match s.eccRead l with
  | .ok =>
    let old := s.readBytes l
    let new := bytesOfNat l.length (atomicNew op (natOfBytes old) (value.toNat % 2 ^ (8 * l.length)) (compare.toNat % 2 ^ (8 * l.length)))
    (s.store (l.zip new)).2.hostGets old false
  | _ => s.hostGets [] true

/-- A vector written: a pending message of one that is not masked any more is sent (R275; PCIe). -/
def State.writeMsix (s : State) (v : Fin 65) (addr : Word) (data : BitVec 32) (masked : Bool) : State :=
  let e := s.fw.msixTable[v]
  let send := e.pending && !masked
  { s with fw := { s.fw with
      msixTable := s.fw.msixTable.set v ⟨addr, data, masked, e.pending && masked⟩
      msix := if send then assocSet s.fw.msix v.val (assocGet 0 s.fw.msix v.val + 1) else s.fw.msix } }

/-- A host access. A read gives the host its bytes, or poison where they are lost; a write is performed as other writes are (R224). An
access outside the partition's device memory reaches nothing. -/
def State.hostAccess (s : State) (a : HostAccess) : State :=
  match a with
  | .read part ppa n => match (s.part part).bind (fun p => s.partPlaces p ppa n false) with
    | none => s
    | some l => match s.eccRead l with
      | .ok => s.hostGets (s.readBytes l) false
      | _ => s.hostGets [] true
  | .write part ppa bytes => match (s.part part).bind (fun p => s.partPlaces p ppa bytes.length true) with
    | none => s
    | some l => match s.store (l.zip bytes) with
      | (.ok, t) => t.hostGets [] false
      | (_, t) => t.hostGets [] true
  | .atomic op part ppa n value compare =>
    if (n = 4 ∨ n = 8) ∧ ppa % n = 0 then match (s.part part).bind (fun p => s.partPlaces p ppa n true) with
      | none => s
      | some l => s.hostAtomic op l value compare
    else s
  | .bar0 off => s.hostGets (bytesOfNat 8 (s.bar0Word off)) false
  | .msixRead v => s.hostGets s.fw.msixTable[v].words false
  | .msixWrite v addr data masked => s.writeMsix v addr data masked

def execHostCxlMemAccess (a : HostAccess) (s : State) : Out := .next (s.hostAccess a)

end Sys2Proof.Machine
end

