-- ==== Sys2Proof/Machine/Coder.lean ====
section
/-!
DEFINITION. The range coder (R188 to R202): the lane's fields, encoding and decoding of one lane, and the frame of an `rc.` word.
Log 20: the stream bytes that one word writes are one access on VP; a word that uses stream bytes waits for the accesses before it.
-/
namespace Sys2Proof.Machine

/-- A lane of the coder operand (R188). -/
structure CLane where
  low    : Nat
  range  : Nat
  code   : Nat
  cursor : Nat
  endoff : Nat
  hnd    : Nat
  spec   : Bool
  eos    : Bool
  carry  : Nat
  pend   : Nat
  cache  : Nat
  deriving DecidableEq, Repr

/-- A lane from its six words. -/
def CLane.ofWords (l : List Nat) : CLane :=
  let aux := l.getD 5 0
  { low := l.getD 0 0, range := l.getD 1 0, code := l.getD 2 0, cursor := l.getD 3 0, endoff := l.getD 4 0,
    hnd := bitsOf aux 31 26, spec := aux.testBit 25, eos := aux.testBit 24, carry := bitsOf aux 23 23, pend := bitsOf aux 22 8,
    cache := bitsOf aux 7 0 }

def CLane.words (c : CLane) : List Nat :=
  [c.low, c.range, c.code, c.cursor, c.endoff,
   put 26 6 c.hnd + put 25 1 (bit c.spec) + put 24 1 (bit c.eos) + put 23 1 c.carry + put 8 15 c.pend + put 0 8 c.cache]

/-- What a word does to one lane: the lane, the cursors of the bytes it reads, the bytes it puts with their cursors, whether it may
not act (BOUNDS), whether it read a P of 0, and the symbol it gives. -/
structure CRun where
  lane  : CLane
  reads : List Nat
  puts  : List (Nat × Byte)
  bad   : Bool
  clamp : Bool
  sym   : Nat

def CRun.of (c : CLane) : CRun := ⟨c, [], [], false, false, 0⟩

def CRun.upd (r : CRun) (f : CLane → CLane) : CRun := { r with lane := f r.lane }

/-! ### Reading and putting bytes (R190, R194) -/

/-- next_byte of R190; `rd` reads the lane's stream. -/
def CRun.next (r : CRun) (rd : Nat → Byte) : CRun × Nat :=
  let c := r.lane
  if c.cursor < c.endoff then
    ({ r with reads := r.reads ++ [c.cursor], lane := { c with cursor := (c.cursor + 1) % 2 ^ 32 } }, (rd c.cursor).toNat)
  else ({ r with lane := { c with eos := true, cursor := (c.cursor + 1) % 2 ^ 32 } }, 0)

/-- CODE takes one more byte. -/
def CRun.takeByte (r : CRun) (rd : Nat → Byte) : CRun :=
  let x := r.next rd
  x.1.upd (fun c => { c with code := (c.code * 256 + x.2) % 2 ^ 32 })

/-- put of R194. -/
def CRun.put (r : CRun) (b : Nat) : CRun :=
  let c := r.lane
  if c.cursor < c.endoff then
    { r with puts := r.puts ++ [(c.cursor, BitVec.ofNat 8 b)], lane := { c with cursor := (c.cursor + 1) % 2 ^ 32 } }
  else { r with lane := { c with eos := true, cursor := (c.cursor + 1) % 2 ^ 32 } }

/-- The same byte put n times. -/
def CRun.putMany (r : CRun) (b : Nat) : Nat → CRun
  | 0 => r
  | n + 1 => (r.put b).putMany b n

/-- add_low of R194. -/
def CLane.addLow (c : CLane) (x : Nat) : CLane :=
  let v := c.low + c.carry * 2 ^ 32 + x
  { c with carry := bitsOf v 32 32, low := v % 2 ^ 32 }

/-- shift of R194, with its PEND limit. -/
def CRun.shift (r : CRun) : CRun :=
  let c := r.lane
  let t := bitsOf c.low 31 24
  let r1 :=
    if c.pend = 0 then r.upd (fun c => { c with cache := t, pend := 1 })
    else if t = 0xFF ∧ c.carry = 0 then
      { r.upd (fun c => { c with pend := c.pend + 1 }) with bad := r.bad || decide (c.pend ≥ 32767) }
    else ((r.put ((c.cache + c.carry) % 256)).putMany ((0xFF + c.carry) % 256) (c.pend - 1)).upd
      (fun c => { c with cache := t, pend := 1 })
  r1.upd (fun c => { c with low := c.low % 2 ^ 24 * 256, carry := 0 })

/-- renorm_enc of R194. A RANGE of 256 or more takes two rounds at most. -/
def CRun.renormEnc : Nat → CRun → CRun
  | 0, r => r
  | n + 1, r => if r.lane.range < 2 ^ 24 then CRun.renormEnc n (r.shift.upd (fun c => { c with range := c.range * 256 })) else r

/-- The shifts of a decoder (R191). -/
def CRun.renormDec (rd : Nat → Byte) : Nat → CRun → CRun
  | 0, r => r
  | n + 1, r =>
    if r.lane.range < 2 ^ 24 then
      CRun.renormDec rd n ((r.upd (fun c => { c with range := c.range * 256 })).takeByte rd)
    else r

/-! ### The words on one lane -/

def CLane.start (c : CLane) (h : Nat) : CLane :=
  { c with hnd := h, spec := false, eos := false, carry := 0, pend := 0, cache := 0, code := 0, low := 0 }

/-- R190. -/
def laneInitDec (rd : Nat → Byte) (h : Nat) (c : CLane) : CRun :=
  (((((CRun.of (c.start h)).takeByte rd).takeByte rd).takeByte rd).takeByte rd).upd
    (fun c => { c with range := 0xFFFFFFFF })

/-- R195. -/
def laneInitEnc (h : Nat) (c : CLane) : CRun := CRun.of { c.start h with range := 0xFFFFFFFF }

/-- A P16 as it is used, and whether it was 0 (R66). -/
def probOf (p : Nat) : Nat × Bool := if p % 65536 = 0 then (1, true) else (p % 65536, false)

def CLane.decoderOk (c : CLane) : Bool := decide (2 ^ 24 ≤ c.range) && decide (c.code < c.range)

/-- R191. -/
def laneDec (rd : Nat → Byte) (p : Nat) (c : CLane) : CRun :=
  let q := probOf p
  let bound := c.range / 65536 * q.1
  let r : CRun :=
    if c.code < bound then CRun.of { c with range := bound }
    else { CRun.of { c with code := c.code - bound, range := c.range - bound } with sym := 1 }
  { CRun.renormDec rd 4 r with clamp := q.2, bad := !c.decoderOk }

/-- edge(s) of R197. -/
def edgeOf (range : Nat) (cum : List Nat) (s : Nat) : Nat :=
  if s = 16 ∨ cum.getD s 0 = 65536 then range else range / 65536 * cum.getD s 0

/-- A valid table (R197). -/
def tableOk (cum : List Nat) : Bool :=
  decide (cum.getD 0 0 = 0) && (List.range 15).all (fun s => decide (cum.getD s 0 ≤ cum.getD (s + 1) 0)) &&
  decide (cum.getD 15 0 ≤ 65536)

/-- The largest s below n with edge(s) at most CODE. -/
def symbolAt (range code : Nat) (cum : List Nat) : Nat → Nat
  | 0 => 0
  | n + 1 => if edgeOf range cum n ≤ code then n else symbolAt range code cum n

/-- `rc.decm` (R198). -/
def laneDecm (rd : Nat → Byte) (cum : List Nat) (c : CLane) : CRun :=
  let y := symbolAt c.range c.code cum 16
  let lo := edgeOf c.range cum y
  let r := CRun.of { c with code := c.code - lo, range := edgeOf c.range cum (y + 1) - lo }
  { CRun.renormDec rd 4 r with sym := y, bad := !(tableOk cum && c.decoderOk) }

/-- R196. -/
def laneEnc (sym p : Nat) (c : CLane) : CRun :=
  let q := probOf p
  let bound := c.range / 65536 * q.1
  let r := CRun.of (if sym = 0 then { c with range := bound } else { c.addLow bound with range := c.range - bound })
  let e := CRun.renormEnc 4 r
  { e with clamp := q.2, bad := e.bad || decide (sym > 1) || decide (c.range < 2 ^ 24) }

/-- A usable symbol (R197). -/
def usable (cum : List Nat) (s : Nat) : Bool :=
  decide (s < 16) && decide (cum.getD s 0 < 65536) && (decide (s = 15) || decide (cum.getD s 0 < cum.getD (s + 1) 0))

/-- `rc.encm` (R198). -/
def laneEncm (sym : Nat) (cum : List Nat) (c : CLane) : CRun :=
  let lo := edgeOf c.range cum sym
  let e := CRun.renormEnc 4 (CRun.of { c.addLow lo with range := edgeOf c.range cum (sym + 1) - lo })
  { e with bad := e.bad || !(tableOk cum && usable cum sym) || decide (c.range < 2 ^ 24) }

/-- R199. -/
def laneFlush (c : CLane) : CRun :=
  let r := (CRun.of c).shift.shift.shift.shift
  ((r.put r.lane.cache).putMany 0xFF (r.lane.pend - 1)).upd
    (fun c => { c with low := 0, range := 0xFFFFFFFF, code := 0, carry := 0, pend := 0, cache := 0 })

/-- R202. -/
def laneStat (c : CLane) : Nat :=
  put 31 1 (bit c.eos) + put 30 1 (bit c.spec) + put 29 1 (bit c.decoderOk) +
  (max 0 (min (2 ^ 24 - 1) ((c.endoff : Int) - c.cursor - c.pend))).toNat

/-- The lane's six words as a shadow slot holds them (R192): SPEC is stored as 0. -/
def CLane.shadow (c : CLane) : BitVec 192 := BitVec.ofNat 192 (natOfBytes (({ c with spec := false } : CLane).words.flatMap (bytesOfNat 4)))

def CLane.ofShadow (v : BitVec 192) : CLane := CLane.ofWords ((List.range 6).map (fun i => v.toNat / 2 ^ (32 * i) % 2 ^ 32))

/-! ### The frame of an `rc.` word (R189) -/

/-- The binding of a stream byte: none gives BOUNDS (R189, R91). -/
def Core.streamBind (c : Core) (hnd cursor : Nat) (write : Bool) : Option Binding :=
  if hnd = 0 then none
  else match c.seq.h.toList.getD hnd none with
    | some b =>
      if b.revoked ∨ b.kind ≠ .window ∨ cursor ≥ b.len ∨ (write ∧ !b.writable) then none else some b
    | none => none

/-- What a held access writes to a byte. -/
def VpEntry.byteAt (e : VpEntry) (p : PAddr) : Option Byte := match e.kind with
  | .store l => (l.reverse.find? (fun c => decide (c.1 = p))).map (·.2)
  | .load _ _ _ _ => none

/-- The youngest byte that the open regions of the vector stream hold for a place: a later `rc.` word sees it (R193); R305 excepts
`v.ld` and `v.gather` alone. -/
def VecEngine.heldByte (v : VecEngine) (p : PAddr) : Option Byte :=
  (v.regions.flatMap (fun r => r.held.reverse)).findSome? (fun e => e.byteAt p)

/-- A byte of a lane's stream as the word finds it. -/
def State.streamByte (s : State) (hnd cursor : Nat) : Byte :=
  match (s.core.streamBind hnd cursor false).bind (fun b => b.place cursor) with
  | some p => (s.core.vec.heldByte p).getD (s.readByte p)
  | none => 0

/-- Which path waits of an `rc.` word come first: it reads stream bytes, writes them, or neither. -/
inductive CoderUse where
  | reads
  | writes
  | none
  deriving DecidableEq, Repr

/-- The wait shows as R95's kind 4, which no rule names for it (log 24). -/
def State.coderHold (s : State) : CoderUse → Option Nat
  | .none => Option.none
  | .reads => if s.core.holdsNew .vp then some 7 else if s.core.vec.vp.isEmpty then Option.none else some 4
  | .writes => if s.core.holdsNew .vp then some 7 else if s.core.vec.vp.isEmpty then Option.none else some 4

/-- The lanes of a coder operand. -/
def Core.coderLanes (c : Core) (pc : List Placed) (n : Nat) : List CLane :=
  let cols := pc.map (fun p => c.lanes p.line 4 n)
  (List.range n).map (fun i => CLane.ofWords (cols.map (fun l => l.getD i 0)))

/-- Every byte a lane's run reads or puts, with its binding where it has one. -/
def CRun.binds (c : Core) (r : CRun) : List (Option Binding) :=
  r.reads.map (fun x => c.streamBind r.lane.hnd x false) ++ r.puts.map (fun x => c.streamBind r.lane.hnd x.1 true)

/-- The coder operand written back: every lane's words, inactive ones as they were. Where a view's stride makes the six vectors overlap, R188
orders no writes: index i is written first, i + 5 last, then the symbol destination (log 24). -/
def coderOut (pc : List Placed) (l : List CLane) : List (Nat × List Byte) :=
  let ws := l.map CLane.words
  (pc.zip (List.range 6)).map (fun x => (x.1.line, lanesBytes 4 (ws.map (fun w => w.getD x.2 0))))

/-- The places a list of lane runs writes, in lane order and within a lane in cursor order (R193). -/
def putCells (c : Core) (l : List CRun) : List (PAddr × Byte) :=
  l.flatMap (fun r => r.puts.filterMap (fun x =>
    ((c.streamBind r.lane.hnd x.1 true).bind (fun b => b.place x.1)).map (fun p => (p, x.2))))

/-- The check of the stream bytes that a word uses: those it reads from memory, and the sectors it writes in part, which make it fail
before any effect (R189), whether they are held or not. -/
def State.streamEcc (s : State) (reads : List PAddr) (cells : List (PAddr × Byte)) : Ecc :=
  match s.eccRead (reads.filter (fun p => (s.core.vec.heldByte p).isNone)) with
  | .ok => s.eccWrite cells
  | e => e

/-- What a word does once its sources are read: `runs` pairs active lanes with their runs; `back` tells that the coder operand is
written back; `pd` is the symbol destination. R135 does not place MENDFULL of held stream bytes: it comes after BOUNDS of a lane and
DATA_LOST of stream bytes, before DATA_LOST of the tree lines (log 24). -/
def State.coderOutcome (s : State) (pc : List Placed) (lanes : List CLane) (runs : List (Nat × CRun)) (pd : List Placed)
    (post : Core → Core) : Except VFail VOut :=
  let c := s.core
  let rs := runs.map (·.2)
  let reads := rs.flatMap (fun r => r.reads.filterMap (fun x =>
    (c.streamBind r.lane.hnd x false).bind (fun b => b.place x)))
  let cells := putCells c rs
  let binds := dedup (rs.flatMap (fun r => r.puts.filterMap (fun x => (c.streamBind r.lane.hnd x.1 true).map (·.id))))
  if rs.any (·.bad) || rs.any (fun r => (r.binds c).any Option.isNone) then .error (codeBounds, none)
  else if s.streamEcc reads cells = .badTag then .error (codeIntegrity, none)
  else if s.streamEcc reads cells = .lost then .error (codeDataLost, none)
  else if !c.vpRoom cells.length then .error (codeMendFull, none)
  else
    let after := (List.range lanes.length).map (fun i => match runs.find? (·.1 = i) with
      | some (_, r) => r.lane
      | none => lanes.getD i (CLane.ofWords []))
    let syms := (List.range lanes.length).map (fun i => match runs.find? (·.1 = i) with
      | some (_, r) => r.sym
      | none => 0)
    .ok { dst := coderOut pc after ++ pd.map (fun p => (p.line, lanesBytes 4 syms)),
          full := (pc ++ pd).flatMap Placed.all
          flags := flagIf (rs.any (·.clamp)) flagProbClamp
          post := fun c => (post c).vpWrite (s.openDetailOf .vec) cells 1 binds none }

/-- BOUNDS of an `rc.` word whose operands R27 refuses; `ops` are its operands of kind vec with how many indices each takes. -/
def State.coderMisplaced (s : State) (c : TreeOp) (ops : List (TreeOp × Nat)) : EngIssue :=
  let v := s.core.vec
  .stop codeBounds ((s.core.badUse [kindCoder] (usesOf c v.eng.k 6 v.span)).or
    (s.core.badUse [kindVec] (ops.flatMap (fun o => usesOf o.1 v.eng.k o.2 v.span))))

/-- The handle check of an init, after its operand is placed (R135 step 3, R190, R195): a binding under revocation is waited for (R91). -/
def State.coderHandle (s : State) (init : Option (Hnd × Bool)) (k : EngIssue) : EngIssue := match init with
  | none => k
  | some (h, write) => s.vpHandle h write (fun _ hold => if hold = some 10 then .wait 10 0 s else k)

/-- An `rc.` word. `init` is the handle of an init, and whether it must be writable; `n` is how many indices of kind vec each further source
takes; `f` runs a lane from the lanes of those sources. A word that must use a binding under revocation waits. -/
def State.coderWord (s : State) (c : TreeOp) (init : Option (Hnd × Bool)) (use : CoderUse) (srcs : List (TreeOp × Nat × Bool))
    (dst : Option TreeOp) (f : Nat → List (List Nat) → CLane → CRun) (post : List (Nat × CRun) → Core → Core) : Out :=
  let v := s.core.vec
  let ks := v.eng.k
  let n := v.shape.lanes
  .next (s.issueVec (
    if !tyWord s.ty then .stop codeIllegal
    else match s.core.placeMany ks c 6 v.span [kindCoder],
        srcs.mapM (fun x => s.core.placeMany ks x.1 x.2.1 v.span [kindVec]),
        dst.toList.mapM (fun d => s.core.place ks d v.span [kindVec]) with
      | some pc, some ps, some pd =>
        let vs := pc.map (fun p => ⟨p, true⟩) ++ (ps.zip srcs).flatMap (fun x => x.1.map (fun p => ⟨p, x.2.2.2⟩))
        let lanes := s.core.coderLanes pc n
        let cols := ps.map (fun l => l.map (fun p => s.core.lanes p.line 4 n))
        let runs := ((List.range n).filter v.active).map (fun i =>
          (i, f i (cols.map (fun l => l.map (fun col => col.getD i 0))) (lanes.getD i (CLane.ofWords []))))
        s.coderHandle init (match s.vecTest vs (pc ++ pd) (s.coderHold use) with
          | some r => r
          | none =>
            if runs.any (fun r => (r.2.binds s.core).any (fun b => match b with
                | some b => b.revoking
                | none => false)) then .wait 10 0 s
            else s.vecRun vs (pc ++ pd) none (s.coderOutcome pc lanes runs pd (post runs)))
      | _, _, _ => s.coderMisplaced c (srcs.map (fun x => (x.1, x.2.1)) ++ dst.toList.map (·, 1))))

def noPost (_ : List (Nat × CRun)) (c : Core) : Core := c

/-- The first lane value of a source that takes one index. -/
def oneOf (l : List (List Nat)) (i : Nat) : Nat := (l.getD i []).getD 0 0

def execRcInitDec (c : TreeOp) (h : Hnd) (s : State) : Out :=
  s.coderWord c (some (h, false)) .reads [] none (fun _ _ l => laneInitDec (s.streamByte h.val) h.val l) noPost

def execRcInitEnc (c : TreeOp) (h : Hnd) (s : State) : Out :=
  s.coderWord c (some (h, true)) .none [] none (fun _ _ l => laneInitEnc h.val l) noPost

def execRcDec (c a b : TreeOp) (wa : Bool) (s : State) : Out :=
  s.coderWord c none .reads [(a, 1, wa)] (some b) (fun _ x l => laneDec (s.streamByte l.hnd) (oneOf x 0) l) noPost

/-- The table is read under its Wa bit (R45); R198's "always wait" is read as R189's, of the coder vectors (DEDUCED, log 20). -/
def execRcDecm (c a b : TreeOp) (wa : Bool) (s : State) : Out :=
  s.coderWord c none .reads [(a, 16, wa)] (some b) (fun _ x l => laneDecm (s.streamByte l.hnd) (x.getD 0 []) l) noPost

def execRcEnc (c a b : TreeOp) (wa wb : Bool) (s : State) : Out :=
  s.coderWord c none .writes [(a, 1, wa), (b, 1, wb)] none (fun _ x l => laneEnc (oneOf x 1) (oneOf x 0) l) noPost

/-- The table is read under Wa, the symbols under Wb (R45); R198's "always wait" is read as R189's, of the coder vectors (DEDUCED, log 20). -/
def execRcEncm (c a b : TreeOp) (wa wb : Bool) (s : State) : Out :=
  s.coderWord c none .writes [(a, 16, wa), (b, 1, wb)] none (fun _ x l => laneEncm (oneOf x 1) (x.getD 0 []) l) noPost

def execRcFlush (c : TreeOp) (s : State) : Out := s.coderWord c none .writes [] none (fun _ _ l => laneFlush l) noPost

/-! ### Speculation and status (R192, R202) -/

/-- The shadow slots of the active lanes take the lanes. -/
def saveShadows (l : List (Nat × CLane)) (c : Core) : Core :=
  c.updVec (fun v => { v with shadow := l.foldl (fun sh x => sh.set! x.1 x.2.shadow) v.shadow })

def execRcSpec (c : TreeOp) (s : State) : Out :=
  s.coderWord c none .none [] none (fun _ _ l => CRun.of { l with spec := true })
    (fun runs => saveShadows (runs.map (fun r => (r.1, r.2.lane))))

def execRcUndo (c : TreeOp) (s : State) : Out :=
  s.coderWord c none .none [] none
    (fun i _ l => CRun.of (if l.spec then CLane.ofShadow (s.core.vec.shadow.toList.getD i 0) else l)) noPost

def execRcKeep (c : TreeOp) (s : State) : Out :=
  s.coderWord c none .none [] none (fun _ _ l => CRun.of { l with spec := false }) noPost

/-- `rc.stat` reads the coder and writes only its destination. -/
def execRcStat (c b : TreeOp) (s : State) : Out :=
  let v := s.core.vec
  let ks := v.eng.k
  .next (s.issueVec (
    if !tyWord s.ty then .stop codeIllegal
    else match s.core.placeMany ks c 6 v.span [kindCoder], s.core.place ks b v.span [kindVec] with
      | some pc, some pd =>
        let lanes := s.core.coderLanes pc v.shape.lanes
        s.vecRun (pc.map (fun p => ⟨p, true⟩)) [pd] none
          (.ok (laneOut pd.line 4 (laneResults v.shape.lanes v.active (fun i =>
            (laneStat (lanes.getD i (CLane.ofWords [])), 0)))))
      | _, _ => s.coderMisplaced c [(b, 1)]))

end Sys2Proof.Machine
end

