-- ==== Sys2Proof/Machine/Cipher.lean ====
section
/-!
DEFINITION. The ciphers that the spec names: SHA-256 (R283, R284, R286), AES-256 in XTS mode (R222, R286, R287) and AES key wrap (RFC 3394:
R286, R287). Bytes are numbers below 256 here. Assumption log 6: which keys are drawn, how the tag is computed, and the header of an image.
-/
namespace Sys2Proof.Machine

/-! ### SHA-256 -/

/-- The primes below 312: the first 64. -/
def shaPrimes : List Nat :=
  (List.range 312).filter (fun p => decide (2 ≤ p) && [2, 3, 5, 7, 11, 13, 17].all (fun d => decide (p = d) || decide (p % d ≠ 0)))

/-- The greatest number below r + 2 ^ fuel, from r up, whose k-th power is at most n. -/
def rootFrom (k n : Nat) : (fuel r : Nat) → Nat
  | 0, r => r
  | f + 1, r => rootFrom k n f (if (r + 2 ^ f) ^ k ≤ n then r + 2 ^ f else r)

/-- The first 32 bits of the fraction of the k-th root of p. -/
def rootFraction (k p : Nat) : Nat := rootFrom k (p * 2 ^ (32 * k)) 40 0 % 2 ^ 32

/-- The round constants: from the cube roots of the first 64 primes. -/
def shaK : List Nat := shaPrimes.map (rootFraction 3)

/-- The first digest: from the square roots of the first 8 primes. -/
def shaStart : List Nat := (shaPrimes.take 8).map (rootFraction 2)

def rotr32 (n x : Nat) : Nat := (x >>> n ||| x <<< (32 - n)) % 2 ^ 32

/-- A number from its bytes, highest first. -/
def bigEndian (l : List Nat) : Nat := l.foldl (fun n b => 256 * n + b) 0

/-- n bytes of a number, highest first. -/
def bigBytes (n x : Nat) : List Nat := (List.range n).map (fun i => x / 256 ^ (n - 1 - i) % 256)

/-- The next word of the message schedule, whose words so far stand newest first. -/
def shaNext (l : List Nat) : Nat :=
  let a := l.getD 14 0
  let b := l.getD 1 0
  (l.getD 15 0 + (rotr32 7 a ^^^ rotr32 18 a ^^^ a >>> 3) + l.getD 6 0 + (rotr32 17 b ^^^ rotr32 19 b ^^^ b >>> 10)) % 2 ^ 32

def shaSchedule : (fuel : Nat) → List Nat → List Nat
  | 0, l => l
  | n + 1, l => shaSchedule n (shaNext l :: l)

def shaRound (h : List Nat) (x : Nat × Nat) : List Nat :=
  match h with
  | [a, b, c, d, e, f, g, k] =>
    let t1 := k + (rotr32 6 e ^^^ rotr32 11 e ^^^ rotr32 25 e) + ((e &&& f) ^^^ ((2 ^ 32 - 1 - e) &&& g)) + x.1 + x.2
    let t2 := (rotr32 2 a ^^^ rotr32 13 a ^^^ rotr32 22 a) + ((a &&& b) ^^^ (a &&& c) ^^^ (b &&& c))
    [(t1 + t2) % 2 ^ 32, a, b, c, (d + t1) % 2 ^ 32, e, f, g]
  | l => l

/-- One block of 64 bytes. -/
def shaBlock (h block : List Nat) : List Nat :=
  let start := ((List.range 16).map (fun i => bigEndian ((block.drop (4 * i)).take 4))).reverse
  let w := (shaSchedule 48 start).reverse
  List.zipWith (fun a b => (a + b) % 2 ^ 32) h ((shaK.zip w).foldl shaRound h)

def shaBlocks : (fuel : Nat) → List Nat → List Nat → List Nat
  | 0, h, _ => h
  | n + 1, h, l => shaBlocks n (shaBlock h (l.take 64)) (l.drop 64)

/-- The message with its padding: whole blocks. -/
def shaPadded (l : List Nat) : List Nat :=
  l ++ [0x80] ++ List.replicate ((119 - l.length % 64) % 64) 0 ++ bigBytes 8 (8 * l.length)

def toNats (l : List Byte) : List Nat := l.map (·.toNat)
def toBytes (l : List Nat) : List Byte := l.map (BitVec.ofNat 8)

/-- SHA-256 of a string of bytes: 32 bytes. -/
def sha256 (l : List Byte) : List Byte :=
  let p := shaPadded (toNats l)
  toBytes ((shaBlocks (p.length / 64) shaStart p).flatMap (bigBytes 4))

/-! ### AES-256 -/

/-- Multiplication by x in the field of AES. -/
def xtime (a : Nat) : Nat := if a < 128 then 2 * a else 2 * a ^^^ 0x11B

/-- Multiplication in the field of AES, over the low n bits of b. -/
def gmul : (n a b : Nat) → Nat
  | 0, _, _ => 0
  | n + 1, a, b => (if b % 2 = 1 then a else 0) ^^^ gmul n (xtime a) (b / 2)

/-- The inverse, a to the power of 254; 0 for 0. -/
def ginv (a : Nat) : Nat :=
  let sq := fun x => gmul 8 x x
  let a2 := sq a
  let a4 := sq a2
  let a8 := sq a4
  let a16 := sq a8
  let a32 := sq a16
  let a64 := sq a32
  gmul 8 a2 (gmul 8 a4 (gmul 8 a8 (gmul 8 a16 (gmul 8 a32 (gmul 8 a64 (sq a64))))))

def rotl8 (n b : Nat) : Nat := (b <<< n ||| b >>> (8 - n)) % 256

def sbox (a : Nat) : Nat :=
  let b := ginv a
  b ^^^ rotl8 1 b ^^^ rotl8 2 b ^^^ rotl8 3 b ^^^ rotl8 4 b ^^^ 0x63

def sboxInv (a : Nat) : Nat := ginv (rotl8 1 a ^^^ rotl8 3 a ^^^ rotl8 6 a ^^^ 0x05)

def xorBytes (a b : List Nat) : List Nat := List.zipWith (· ^^^ ·) a b

/-- The next word of the key schedule (number i), whose words so far stand newest first. -/
def keyNext (i : Nat) (l : List (List Nat)) : List Nat :=
  let t := l.headD []
  let f := if i % 8 = 0 then xorBytes ((t.drop 1 ++ t.take 1).map sbox) [2 ^ (i / 8 - 1), 0, 0, 0]
           else if i % 8 = 4 then t.map sbox else t
  xorBytes (l.getD 7 []) f

def keySchedule : (fuel i : Nat) → List (List Nat) → List (List Nat)
  | 0, _, l => l
  | n + 1, i, l => keySchedule n (i + 1) (keyNext i l :: l)

/-- The fifteen round keys of a 32-byte key. -/
def roundKeys (key : List Nat) : List (List Nat) :=
  let w := (keySchedule 52 8 ((List.range 8).map (fun i => (key.drop (4 * i)).take 4)).reverse).reverse
  (List.range 15).map (fun i => ((w.drop (4 * i)).take 4).flatten)

def shiftRows (l : List Nat) : List Nat := (List.range 16).map (fun i => l.getD ((i + 4 * (i % 4)) % 16) 0)
def shiftRowsInv (l : List Nat) : List Nat := (List.range 16).map (fun i => l.getD ((i + 12 * (i % 4)) % 16) 0)

/-- Every column times the fixed polynomial with coefficients m. -/
def mixBy (m l : List Nat) : List Nat :=
  (List.range 16).map (fun i => (List.range 4).foldl (fun x j =>
    x ^^^ gmul 8 (l.getD (i / 4 * 4 + (i % 4 + j) % 4) 0) (m.getD j 0)) 0)

def aesEncrypt (key block : List Nat) : List Nat :=
  match roundKeys key with
  | [] => block
  | k :: ks =>
    let s := ks.dropLast.foldl (fun s k => xorBytes (mixBy [2, 3, 1, 1] (shiftRows (s.map sbox))) k) (xorBytes block k)
    xorBytes (shiftRows (s.map sbox)) (ks.getLastD [])

def aesDecrypt (key block : List Nat) : List Nat :=
  match (roundKeys key).reverse with
  | [] => block
  | k :: ks =>
    let s := ks.dropLast.foldl (fun s k => mixBy [14, 11, 13, 9] (xorBytes ((shiftRowsInv s).map sboxInv) k)) (xorBytes block k)
    xorBytes ((shiftRowsInv s).map sboxInv) (ks.getLastD [])

/-! ### XTS over one sector (R222) -/

/-- Multiplication of a tweak by α. -/
def tweakNext (t : List Nat) : List Nat :=
  let n := t.reverse.foldl (fun n b => 256 * n + b) 0
  let m := (2 * n) % 2 ^ 128 ^^^ (if n < 2 ^ 127 then 0 else 0x87)
  (bigBytes 16 m).reverse

/-- The blocks of a sector, each between two additions of its tweak. -/
def xtsBlocks (f : List Nat → List Nat) : (fuel : Nat) → List Nat → List Nat → List Nat
  | 0, _, _ => []
  | n + 1, t, l => xorBytes (f (xorBytes (l.take 16) t)) t ++ xtsBlocks f n (tweakNext t) (l.drop 16)

/-- n bytes of a list, zeros where it is shorter. -/
def fill (n : Nat) (l : List Byte) : List Byte := (l ++ List.replicate n (0 : Byte)).take n

/-- A partition's two keys (R222): that of its XTS, 64 bytes, and that of its tags, 32 bytes. -/
structure SectorKeys where
  xts : List Byte
  tag : List Byte
  deriving DecidableEq, Repr

/-- The keys of a drawing. -/
def keysOf (draw : Nat) : SectorKeys := ⟨fill 64 (Config.sectorKey draw), fill 32 (Config.tagKey draw)⟩

def SectorKeys.data (k : SectorKeys) : List Nat := (toNats k.xts).take 32

/-- The tweak of a sector: its device-physical address, encrypted under the second half of the key. -/
def SectorKeys.tweak (k : SectorKeys) (a : Nat) : List Nat := aesEncrypt ((toNats k.xts).drop 32) ((bigBytes 16 a).reverse)

def SectorKeys.tagOf (k : SectorKeys) (a : Nat) (cipher : List Byte) : List Byte := fill 4 (Config.sectorTag k.tag a cipher)

/-- Ciphertext and tag of one 64-byte sector (R222, R286): 68 bytes. -/
def sealSector (k : SectorKeys) (a : Nat) (plain : List Byte) : List Byte :=
  let c := toBytes (xtsBlocks (aesEncrypt k.data) 4 (k.tweak a) (toNats (fill 64 plain)))
  c ++ k.tagOf a c

/-- A sector whose tag does not match, as an image carries it (R222, R286): the tag is not the one of the ciphertext. -/
def spoilSector (a : Nat) (sealed : List Byte) : List Byte :=
  let t := fill 4 (Config.struckTag a)
  sealed.take 64 ++ (if t = sealed.drop 64 then t.map (fun b => b ^^^ 1) else t)

/-- Whether the tag of a sealed sector matches (R223). -/
def tagMatches (k : SectorKeys) (a : Nat) (sealed : List Byte) : Bool := decide (sealed.drop 64 = k.tagOf a (sealed.take 64))

/-- The plain bytes of a sealed sector (R287). -/
def openSector (k : SectorKeys) (a : Nat) (sealed : List Byte) : List Byte :=
  toBytes (xtsBlocks (aesDecrypt k.data) 4 (k.tweak a) (toNats (fill 64 sealed)))

/-! ### AES key wrap (RFC 3394), as an image's header carries its keys (R286, R287) -/

/-- The integrity check register as wrapping starts and as unwrapping must end. -/
def wrapStart : List Nat := List.replicate 8 0xA6

/-- One pass over the 8-byte blocks: step t takes the first of them. -/
def wrapPass (key : List Nat) : (t : Nat) → List Nat → List (List Nat) → List Nat × List (List Nat)
  | _, a, [] => (a, [])
  | t, a, r :: rs =>
    let b := aesEncrypt key (a ++ r)
    let x := wrapPass key (t + 1) (xorBytes (b.take 8) (bigBytes 8 t)) rs
    (x.1, b.drop 8 :: x.2)

/-- One pass back, over the blocks last first. -/
def unwrapPass (key : List Nat) : (t : Nat) → List Nat → List (List Nat) → List Nat × List (List Nat)
  | _, a, [] => (a, [])
  | t, a, r :: rs =>
    let b := aesDecrypt key (xorBytes a (bigBytes 8 t) ++ r)
    let x := unwrapPass key (t - 1) (b.take 8) rs
    (x.1, b.drop 8 :: x.2)

/-- The first n blocks of 8 bytes. -/
def blocks8 (n : Nat) (l : List Nat) : List (List Nat) := (List.range n).map (fun i => (l.drop (8 * i)).take 8)

/-- A key of 8 n bytes, wrapped: 8 bytes more. -/
def wrapBytes (key plain : List Nat) : List Nat :=
  let n := plain.length / 8
  let x := (List.range 6).foldl (fun x j => wrapPass key (n * j + 1) x.1 x.2) (wrapStart, blocks8 n plain)
  x.1 ++ x.2.flatten

/-- A wrapped key opened; none where its integrity check fails. -/
def unwrapBytes (key wrapped : List Nat) : Option (List Nat) :=
  let n := wrapped.length / 8 - 1
  let x := (List.range 6).foldl (fun x j => unwrapPass key (n * (6 - j)) x.1 x.2) (wrapped.take 8, (blocks8 n (wrapped.drop 8)).reverse)
  if x.1 = wrapStart then some x.2.reverse.flatten else none

def deviceWrapKey : List Nat := toNats (fill 32 Config.wrapKey)

/-- A partition's two keys as a header carries them: 72 and 40 bytes. -/
def SectorKeys.wrapped (k : SectorKeys) : List Byte :=
  toBytes (wrapBytes deviceWrapKey (toNats k.xts)) ++ toBytes (wrapBytes deviceWrapKey (toNats k.tag))

/-- The two keys in 112 bytes of a header. -/
def unwrapKeys (l : List Byte) : Option SectorKeys :=
  match unwrapBytes deviceWrapKey (toNats (l.take 72)), unwrapBytes deviceWrapKey (toNats ((l.drop 72).take 40)) with
  | some x, some t => some ⟨toBytes x, toBytes t⟩
  | _, _ => none

end Sys2Proof.Machine
end

