-- ==== Sys2Proof/Machine/Group.lean ====
section
/-!
DEFINITION. Collective groups: time frames, limits, joining, leaving, silence (R231 to R235, R237, R238). A device acts on the
messages that its ports deliver; what it sends is added to `Group.sent`. Assumption log 7 holds what the spec is brief about.
-/
namespace Sys2Proof.Machine

def notice : Int := 50000
def silence : Int := 100000

def Group.send (g : Group) (m : Message) : Group := if g.ports = 0 then g else { g with sent := g.sent ++ [m] }

/-- The device's membership number while it takes part. -/
def Group.inForce (g : Group) : Bool := inGroup g.state

/-- A device that joins hears the group as a member does. -/
def Group.listens (g : Group) : Bool := decide (g.state ≠ .out)

def Group.knows (g : Group) (n : Nat) : Bool := g.members.any (fun m => decide (m.number = n))

def Group.updMember (g : Group) (n : Nat) (f : Member → Member) : Group :=
  { g with members := g.members.map (fun m => if m.number = n then f m else m) }

/-- No time frame of a member has come yet: its floor holds everything back. -/
def noFrame : Int := -(2 ^ 63)

/-- A member that has just come in. DESIGN CHOICE: until its first frame comes it counts as one of unbounded width (R227: log 7). -/
def Member.fresh (n limit : Nat) (late : Int) : Member := ⟨n, limit, noFrame, none, late⟩

/-- The lowest member number that nobody has. -/
def Group.lowestFree (g : Group) : Nat :=
  let taken := (if g.inForce then [g.number] else []) ++ g.members.map (·.number)
  ((List.range (taken.length + 1)).find? (fun n => !taken.contains n)).getD 0

/-- The device is in no group: it forms agreements from its own limit alone (R231). -/
def Group.alone (g : Group) : Group :=
  { g with state := .out, number := 0, members := [], changes := [], silences := [], joinBegan := none, joinStamp := none,
           awaiting := [], joinAcks := [], heardSilents := [], withdrawn := [], nextLimit := none, limit := g.nextLimit.getD g.limit }

def Group.goOut (stamp : Int) (g : Group) : Group := g.alone.agree (ceilingOf g.alone.limit) stamp

/-- With every port down nothing that the group sends comes in (R238). -/
def State.received (s : State) (t : State) : State := if s.group.ports = 0 then s else t

/-! ### Time frames (R233) -/

def State.ownFrame (s : State) : TimeFrame :=
  { member := s.group.number, e := s.earlyAll, w := s.widthAll, fPackage := s.floorPackage / 20000, agreement := s.group.agreement }

/-- A TIMEFRAME goes out, with a HEARTBEAT every tenth. -/
def State.sendFrame (s : State) : State :=
  if !s.group.inForce then s
  else s.updGroup (fun g =>
    let g1 := (g.send (.timeframe s.ownFrame))
    let g2 := if (g.frames + 1) % 10 = 0 then g1.send (.heartbeat g.number g.agreement g.limit) else g1
    { g2 with frames := g.frames + 1 })

def execTimeframeSend (s : State) : Out := .next s.sendFrame

def Group.silenceOf (g : Group) (n : Nat) : Option Silence := g.silences.find? (fun x => decide (x.member = n))

def Group.updSilence (g : Group) (n : Nat) (f : Silence → Silence) : Group :=
  { g with silences := g.silences.map (fun x => if x.member = n then f x else x) }

/-- A member that is heard again is no longer silent for this device: its confirmation is gone, and a silence found later is told anew
(R235, R238: log 7). -/
def Group.heardAgain (g : Group) (n : Nat) : Group :=
  g.updSilence n (fun x => { x with told := false, confirms := x.confirms.filter (fun m => decide (m ≠ g.number)) })

/-- A member's frame corrects the clock and the floor. The floor that it carries lies at or below real time, as every die's earliest bound
does (R225), and is a bound on it too; a frame whose bounds cross is no member's. -/
def State.frameIn (s : State) (f : TimeFrame) (lo hi : Int) : State :=
  if !(s.group.listens && s.group.knows f.member && s.timeRuns) ∨ max lo f.fPackage > hi then s
  else
    let s1 := (s.correctAll (nsUnits lo) (nsUnits hi)).settleTau (nsUnits (max lo f.fPackage)) (nsUnits hi)
    s1.updGroup (fun g => (g.updMember f.member (fun m => { m with fPackage := f.fPackage, w := f.w, heard := s1.lateAll })).heardAgain f.member)

def execTimeframe (f : TimeFrame) (lo hi : Int) (s : State) : Out := .next (s.received (s.frameIn f lo hi))

/-- A HEARTBEAT repeats what agreements and notices have already told (R233). -/
def execHeartbeat (_member _agreement _limit : Nat) (s : State) : Out := .next s

/-! ### Limits (R232) -/

/-- A change that this device announces, with the members whose acknowledgement it needs. -/
def Group.announce (g : Group) (c : Change) (stamp : Int) : Group :=
  { g with changes := g.changes ++ [⟨c, stamp, true, g.members.map (·.number)⟩] }

/-- The device sends LEAVE, and goes at the stamp (R234). -/
def State.startLeave (s : State) : State :=
  let stamp := s.lateAll + notice
  s.updGroup (fun g => (({ g with state := .leaving }).send (.leave g.number stamp)).announce (.leaves g.number) stamp)

/-- A LIMIT of this device goes out, for a stamp far enough ahead (R232); `old` is the stamp of a notice that it replaces. -/
def Group.sendLimit (late : Int) (old : Option Int) (limit : Nat) (g : Group) : Group :=
  (g.send (.limit g.number limit ⟨late + notice, old⟩)).announce (.limit g.number limit) (late + notice)

/-- This device's limit is about to change (R232). A member announces it; one that cannot run at the floor leaves instead, and the limit
that the others know counts until its leave stamp. A limit that is found while the device leaves stands once it is out. In no group the
device forms its next agreement at once (log 7). While a join is announced the new limit waits until the device is in. -/
def State.forecast (s : State) (limit : Nat) : State :=
  if s.group.inForce then
    if limit < 1350 ∧ s.group.state = .member then (s.updGroup (fun g => { g with nextLimit := some limit })).startLeave
    else
      s.updGroup (fun g =>
        let g1 := if g.state = .leaving then { g with nextLimit := some limit } else g
        if limit < 1350 then g1 else g1.sendLimit s.lateAll none limit)
  else if s.group.state = .out ∧ s.fw.stage = 6 then
    s.updGroup (fun g => ({ g with limit := limit }).agree (ceilingOf limit) s.earlyAll)
  else if s.group.joinStamp.isSome then s.updGroup (fun g => { g with nextLimit := some limit })
  else s.updGroup (fun g => { g with limit := limit })

def execLimitForecast (limit : Nat) (s : State) : Out := .next (s.forecast limit)

/-- Whether an announced change is the one that a notice of change c replaces: a LIMIT of that member with the stamp that its sender has
withdrawn (R232), an older join of the same device. -/
def replaced (c : Change) (old : Option Int) (a : Announced) : Bool :=
  match a.change, c with
  | .limit m _, .limit n _ => decide (m = n) && decide (old = some a.stamp)
  | .joins d _, .joins e _ => decide (d = e)
  | _, _ => false

/-- Record another member's notice, once, in place of the one that it replaces. -/
def Group.record (g : Group) (c : Change) (stamp : Int) (old : Option Int) : Group :=
  let l := g.changes.filter (fun a => a.mine || !replaced c old a)
  { g with changes := if l.contains ⟨c, stamp, false, []⟩ then l else l ++ [⟨c, stamp, false, []⟩] }

/-- Whether a device that joins does not hold the group's members yet: it keeps what it hears until it does. -/
def Group.unaware (g : Group) : Bool := decide (g.state = .joining) && g.joinStamp.isNone

/-- A joiner keeps that a LIMIT has been withdrawn: an ACK may still name it (R232, R234). -/
def Group.keepWithdrawn (member : Nat) (old : Option Int) (g : Group) : Group := match old with
  | some t => if g.unaware then { g with withdrawn := g.withdrawn ++ [(member, t)] } else g
  | none => g

/-- A member acknowledges what it hears; a device that is joining is no member yet (R232). -/
def Group.answer (g : Group) (m : Message) : Group := if g.inForce then g.send m else g

/-- A LIMIT of a member is acknowledged and recorded; one of a number that is no member is ignored (R234). -/
def State.limitIn (s : State) (member limit : Nat) (stamp : LimitStamp) : State :=
  if s.group.listens && (s.group.knows member || s.group.unaware) then
    s.updGroup (fun g => ((g.record (.limit member limit) stamp.stamp stamp.old).keepWithdrawn member stamp.old).answer (.ack g.number (.limit member limit stamp.stamp)))
  else s

def execLimit (member limit : Nat) (stamp : LimitStamp) (s : State) : Out := .next (s.received (s.limitIn member limit stamp))

/-- A LIMIT of this device that some member has not acknowledged: it forms no agreement (R232). -/
def Announced.unacked (a : Announced) : Bool := a.mine && !a.missing.isEmpty && (match a.change with
  | .limit _ _ => true
  | _ => false)

/-- A LIMIT of this device sent again. -/
def Group.again (late : Int) (old : Option Int) (g : Group) (a : Announced) : Group := match a.change with
  | .limit _ l => g.sendLimit late old l
  | _ => g

/-- Notices whose acknowledgements are not all in by stamp − 10,000 ns are withdrawn and sent again. -/
def Group.resend (late : Int) (g : Group) : Group :=
  let old := g.changes.filter (fun a => a.unacked && decide (late ≥ a.stamp - 10000))
  old.foldl (fun g a => g.again late (some a.stamp) a) { g with changes := g.changes.filter (fun a => !old.contains a) }

def execLimitAckTimeout (s : State) : Out := .next (s.updGroup (Group.resend s.lateAll))

/-- What a change does at its stamp. A device that comes in takes the lowest free number then (R234); one that goes out takes its
confirmations with it (R235). -/
def Group.apply (late : Int) (g : Group) (c : Change) : Group :=
  match c with
  | .limit n l => if g.inForce ∧ n = g.number then { g with limit := l } else g.updMember n (fun m => { m with limit := l })
  | .joins d l =>
    if g.state = .joining ∧ d = Config.deviceIdentity then { g with number := g.lowestFree, state := .member }
    else { g with members := g.members ++ [Member.fresh g.lowestFree l late] }
  | .leaves n =>
    let back := (g.silences.filter (fun x => decide (x.member = n))).flatMap (·.cancelled)
    let left : Group := { g with
      members := g.members.filter (fun m => decide (m.number ≠ n)),
      silences := (g.silences.filter (fun x => decide (x.member ≠ n))).map (fun x => { x with
        confirms := x.confirms.filter (fun m => decide (m ≠ n)) }) }
    back.foldl (fun g a => g.again late none a) left

/-- Where a change stands among those of its stamp: joins come in the order of the devices' identities (R234), after the others. -/
def Change.order : Change → Nat
  | .joins d _ => d + 1
  | _ => 0

/-- Changes in that order. -/
def insertChange (a : Announced) : List Announced → List Announced
  | [] => [a]
  | b :: t => if a.change.order < b.change.order then a :: b :: t else b :: insertChange a t

def orderChanges (l : List Announced) : List Announced := l.foldl (fun m a => insertChange a m) []

/-- Whether a change takes this device out. -/
def Group.isOwnLeave (g : Group) (c : Change) : Bool := match c with
  | .leaves n => g.inForce && decide (n = g.number)
  | _ => false

/-- Whether an announced change forms an agreement at its stamp. -/
def Group.forms (g : Group) (a : Announced) : Bool := !g.isOwnLeave a.change && !a.unacked

/-- The changes of one stamp form one agreement (R232). -/
def Group.form (late : Int) (g : Group) (stamp : Int) : Group :=
  let now := g.changes.filter (fun a => decide (a.stamp = stamp) && g.forms a)
  let g1 := (orderChanges now).foldl (fun g a => g.apply late a.change) { g with changes := g.changes.filter (fun a => !now.contains a) }
  g1.agree (ceilingOf g1.leastLimit) stamp

/-- The earliest stamp that a test accepts among the changes that form agreements. -/
def Group.nextStamp (g : Group) (ok : Int → Bool) : Option Int :=
  g.changes.foldl (fun m a => if ok a.stamp && g.forms a then (match m with
    | some x => some (min x a.stamp)
    | none => some a.stamp) else m) none

/-- The agreements of every such stamp, in order. -/
def Group.formAll (late : Int) (ok : Int → Bool) (g : Group) : (fuel : Nat) → Group
  | 0 => g
  | fuel + 1 => match g.nextStamp ok with
    | some t => (g.form late t).formAll late ok fuel
    | none => g

/-- Enough members have confirmed a silence: the lowest-numbered of them sends the removal, unless one is announced already (R235). One whose
ports are all down can send nothing (R238). -/
def State.tryRemove (s : State) (member : Nat) : State :=
  match s.group.silenceOf member with
  | none => s
  | some x =>
    let others := s.group.members.length
    if s.group.inForce ∧ s.group.ports ≠ 0 ∧ !x.removed ∧ !s.group.changes.any (fun a => decide (a.change = .leaves member)) ∧ ceilDiv (2 * others) 3 ≤ x.confirms.length ∧
        x.confirms.contains s.group.number ∧ x.confirms.all (fun n => decide (s.group.number ≤ n)) then
      let stamp := s.lateAll + notice
      s.updGroup (fun g => ((g.updSilence member (fun x => { x with removed := true })).send (.leave member stamp)).announce
        (.leaves member) stamp)
    else s

/-- The same for every silence: fewer members may be needed, or a port is up again. -/
def State.tryAll (s : State) : State := (s.group.silences.map (·.member)).foldl State.tryRemove s

/-- The earliest bound has passed stamps: the agreements are formed. A device whose join is announced forms those that take effect before
it is in, so that it holds the group's numbers (R231, R234). -/
def State.stampsPassed (s : State) : State :=
  if s.group.inForce then (s.updGroup (fun g => g.formAll s.lateAll (fun t => decide (s.earlyAll > t)) (g.changes.length))).tryAll
  else match s.group.joinStamp with
    | some j => s.updGroup (fun g => g.formAll s.lateAll (fun t => decide (s.earlyAll > t) && decide (t < j)) (g.changes.length))
    | none => s

def execLimitStampPassed (s : State) : Out := .next s.stampsPassed

/-! ### Joining and leaving (R234) -/

/-- A change with its stamp as a notice that an ACK carries. -/
def announcedNotice (a : Announced) : Notice := match a.change with
  | .limit n l => .limit n l a.stamp
  | .joins d l => .joins d l a.stamp
  | .leaves n => .leaves n a.stamp

/-- A device asks to join: what it has to know goes out in the ACK, every notice pending with it (R233). A device that announces its join
stamp is recorded. The message that announces the stamp is no row of R233; the model has JOIN carry it (log 7). -/
def State.joinIn (s : State) (device limit : Nat) (stamp : Option Int) : State :=
  match stamp with
  | none =>
    if !s.group.inForce then s
    else s.updGroup (fun g => g.send (.ack g.number (.join device limit ⟨g.agreement, g.ceiling, g.moment⟩ g.lowestFree
      ((g.number, g.limit) :: g.members.map (fun m => (m.number, m.limit))) (g.changes.map announcedNotice))))
  | some t =>
    if s.group.listens then
      s.updGroup (fun g => (g.record (.joins device limit) t none).answer (.ack g.number (.joins device limit t)))
    else s

def execJoin (device : Nat) (joiner : Joiner) (s : State) : Out := .next (s.received (s.joinIn device joiner.limit joiner.stamp))

/-- Strike a member off what an announced change waits for. -/
def Group.acked (g : Group) (member : Nat) (f : Announced → Bool) : Group :=
  { g with changes := g.changes.map (fun a => if a.mine && f a then { a with missing := a.missing.filter (fun n => decide (n ≠ member)) }
                                              else a) }

/-- A notice that an ACK brought. -/
def recordedNotice : Notice → Announced
  | .limit n l t => ⟨.limit n l, t, false, []⟩
  | .joins d l t => ⟨.joins d l, t, false, []⟩
  | .leaves n t => ⟨.leaves n, t, false, []⟩

/-- The agreement that the ACK of a join brings. -/
def ackInfo : AckOf → AgreementInfo
  | .join _ _ a _ _ _ => a
  | _ => ⟨0, 0, 0⟩

/-- Of two ACKs of a join, the one with the later agreement. -/
def laterAck (a b : AckOf) : AckOf := if (ackInfo a).number < (ackInfo b).number then b else a

def ackNotices : AckOf → List Notice
  | .join _ _ _ _ _ l => l
  | _ => []

def isLimit : Change → Bool
  | .limit _ _ => true
  | _ => false

/-- The floor agreement that a silence makes, which takes the number that the SILENT names, and the notices above its stamp cancelled; this
device's own are kept to be sent again. Numbers never decrease within a membership (R231, R235). -/
def Group.fall (g : Group) (member : Nat) (stamp : Int) (agreement : Nat) (confirms : List Nat) : Group :=
  let gone := g.changes.filter (fun a => isLimit a.change && decide (a.stamp > stamp))
  let g1 : Group := { g.enter (max g.agreement agreement) 1350 stamp with changes := g.changes.filter (fun a => !gone.contains a) }
  match g.silenceOf member with
  | some _ => g1.updSilence member (fun x => { x with
      told := true, confirms := (x.confirms ++ confirms).eraseDups, cancelled := x.cancelled ++ gone.filter (·.mine) })
  | none => { g1 with silences := g1.silences ++ [⟨member, confirms, true, false, gone.filter (·.mine)⟩] }

/-- SILENTs in the order of the agreements that they make. -/
def insertSilent (h : HeardSilent) : List HeardSilent → List HeardSilent
  | [] => [h]
  | x :: t => if h.number < x.number then h :: x :: t else x :: insertSilent h t

/-- A SILENT that a joiner has heard, once it holds the group's agreements: what is stamped at or below it takes effect first. -/
def Group.fallHeard (late : Int) (g : Group) (h : HeardSilent) : Group :=
  (g.formAll late (fun t => decide (t ≤ h.stamp)) g.changes.length).fall h.member h.stamp h.number []

/-- The notices that a joiner knows of and that the agreement it adopts has not formed: those of every ACK but the LIMITs that a SILENT has
cancelled or their sender withdrawn since, and those it has heard itself. -/
def Group.pendingNotices (g : Group) (moment : Int) : List Announced :=
  let cancelled : AckOf → Announced → Bool := fun x a =>
    isLimit a.change && g.heardSilents.any (fun h => decide ((ackInfo x).number < h.number) && decide (h.stamp < a.stamp)) ||
    (match a.change with
      | .limit m _ => g.withdrawn.contains (m, a.stamp)
      | _ => false)
  let l := g.joinAcks.flatMap (fun x => ((ackNotices x).map recordedNotice).filter (fun a => !cancelled x a))
  (l ++ g.changes).eraseDups.filter (fun a => decide (moment < a.stamp))

/-- Whether a notice concerns a member that a device knows, or a join. -/
def Group.concerns (g : Group) (a : Announced) : Bool := match a.change with
  | .limit n _ => g.knows n
  | .leaves n => g.knows n
  | .joins _ _ => true

/-- What the members' ACKs tell a joiner, once all of them are in: the latest agreement, its members, every notice that it has not formed,
and the silences found since (R234). -/
def Group.adopt (g : Group) (early late : Int) : Group :=
  match g.joinAcks with
  | [] => g
  | a :: t => match t.foldl laterAck a with
    | .join _ _ info number members _ =>
      let g1 : Group := { g.enter info.number info.ceiling early with
        moment := info.moment, number := number, members := members.map (fun m => Member.fresh m.1 m.2 late), heardSilents := [], withdrawn := [] }
      let g2 := { g1 with changes := (g.pendingNotices info.moment).filter g1.concerns }
      (((g.heardSilents.filter (fun h => decide (info.number < h.number))).foldl (fun l h => insertSilent h l) []).filter
        (fun h => g1.knows h.member)).foldl (fun g h => g.fallHeard late h) g2
    | _ => g

/-- The join stamp is announced once every member has answered: the joiner adopts what they hold, and its own join is among the changes
to come. -/
def State.joinReady (s : State) : State :=
  if s.group.unaware ∧ s.group.awaiting.isEmpty ∧
      (s.group.adopt s.earlyAll s.lateAll).members.length < 1024 then
    let stamp := s.lateAll + notice
    s.updGroup (fun g =>
      let g1 := g.adopt s.earlyAll s.lateAll
      ({ g1 with
                 joinStamp := some stamp, joinAcks := [],
                 changes := g1.changes ++ [(⟨.joins Config.deviceIdentity g1.limit, stamp, true, []⟩ : Announced)] } : Group).send
        (.join Config.deviceIdentity g1.limit (some stamp)))
  else s

/-- An ACK strikes its sender off what the notice that it acknowledges waits for; the ACKs of a join are gathered until 100 µs have passed
(R232, R234). -/
def State.ackIn (s : State) (member : Nat) (what : AckOf) : State :=
  match what with
  | .limit m l stamp => s.updGroup (·.acked member (fun a => decide (a.change = .limit m l) && decide (a.stamp = stamp)))
  | .leave m stamp => s.updGroup (·.acked member (fun a => decide (a.change = .leaves m) && decide (a.stamp = stamp)))
  | .joins d l stamp => s.updGroup (·.acked member (fun a => decide (a.change = .joins d l) && decide (a.stamp = stamp)))
  | .join device _ _ _ _ _ =>
    if s.group.unaware ∧ device = Config.deviceIdentity ∧ s.group.awaiting.contains member ∧
        s.group.joinBegan.all (fun t => decide (s.earlyAll ≤ t + silence)) then
      (s.updGroup (fun g => { g with awaiting := g.awaiting.filter (fun n => decide (n ≠ member)),
                                     joinAcks := g.joinAcks ++ [what] })).joinReady
    else s

def execAck (member : Nat) (what : AckOf) (s : State) : Out := .next (s.received (s.ackIn member what))

/-- The commands that wait for a join, and the others. -/
def State.joinCommands (s : State) : List Pending := s.fw.pending.filter (fun x => decide (x.p.op = 0x0F))

/-- Answer the `group.join` that waits. -/
def State.answerJoin (s : State) (code : Code) (reason : Nat) : State :=
  let l := s.joinCommands
  let s1 : State := { s with fw := { s.fw with pending := s.fw.pending.filter (fun x => decide (x.p.op ≠ 0x0F)) } }
  l.foldl (fun s x => s.answer x.q x.p code reason []) s1

/-- Whether the group that a joiner has heard of is full. -/
def State.groupFull (s : State) : Bool := decide ((s.group.adopt s.earlyAll s.lateAll).members.length ≥ 1024)

/-- The join fails: an ACK is missing after 100 µs, or the group is full. -/
def State.joinFails (s : State) : State :=
  match s.group.joinBegan with
  | some t =>
    if s.group.unaware ∧ (s.earlyAll > t + silence ∨ s.groupFull) then
      ((s.updGroup (Group.goOut s.earlyAll)).logDevice .joinFailed 0 codeIllegal).answerJoin codeIllegal 7
    else s
  | none => s

def execJoinAckTimeout (s : State) : Out := .next s.joinFails

/-- A limit that was found while the join was announced is announced in its turn; a device that cannot run at the floor leaves (R232). -/
def State.tellLimit (s : State) : State := match s.group.nextLimit with
  | some l => (s.updGroup (fun g => { g with nextLimit := none })).forecast l
  | none => if s.group.limit < 1350 then s.startLeave else s

/-- A joiner that its stamp has brought in: the command is answered. -/
def State.comeIn (s : State) : State :=
  if s.group.state = .member ∧ s.group.joinStamp.isSome then
    ((s.updGroup (fun g => { g with joinBegan := none, joinStamp := none })).answerJoin codeOk 0).tellLimit
  else s

/-- The joiner is in: the agreements of earlier stamps, then one that counts its limit with whatever else has its stamp. -/
def State.joinDone (s : State) : State :=
  match s.group.joinStamp with
  | some t =>
    if s.group.state = .joining ∧ s.earlyAll > t then
      (s.updGroup (fun g => g.formAll s.lateAll (fun x => decide (x ≤ t)) g.changes.length)).comeIn
    else s
  | none => s

def execJoinStampPassed (s : State) : Out := .next s.joinDone

/-- A LEAVE or a removal, of another member or of this device, is acknowledged and recorded. -/
def State.leaveIn (s : State) (member : Nat) (stamp : Int) : State :=
  if s.group.listens && (s.group.knows member || s.group.unaware || (s.group.inForce && decide (member = s.group.number))) then
    s.updGroup (fun g => (g.record (.leaves member) stamp none).answer (.ack g.number (.leave member stamp)))
  else s

def execLeave (member : Nat) (stamp : Int) (s : State) : Out := .next (s.received (s.leaveIn member stamp))

/-- The stamp of this device's own leave or removal has passed: it is out. -/
def State.leaveDone (s : State) : State :=
  if s.group.inForce && s.group.changes.any (fun a => s.group.isOwnLeave a.change && decide (s.earlyAll > a.stamp)) then
    s.updGroup (Group.goOut s.earlyAll)
  else s

def execLeaveStampPassed (s : State) : Out := .next s.leaveDone

/-! ### Silence (R235) -/

/-- GROUPSILENT goes to the interface of every context (R235, R278). -/
def State.groupSilent (s : State) (member agreement : Nat) (stamp : Int) : State :=
  s.ctxs.foldl (fun s c => s.postEvent c.iface 2 0 c.part c.num 0 0
    (bytesOfNat 8 (member % 2 ^ 10) ++ bytesOfNat 8 agreement ++ bytesOfNat 8 (wrapInt 64 stamp))) s

/-- A confirmation by this device or by another member (R235); those of others do not count. It may come before the SILENT itself. -/
def Group.confirm (g : Group) (sender member : Nat) : Group :=
  if (g.silenceOf member).isSome then
    g.updSilence member (fun x => if x.confirms.contains sender then x else { x with confirms := x.confirms ++ [sender] })
  else { g with silences := g.silences ++ [⟨member, [sender], false, false, []⟩] }

def State.confirmed (s : State) (sender member : Nat) : State :=
  if (s.group.knows sender ∨ (s.group.inForce ∧ sender = s.group.number)) ∧ s.group.knows member then
    (s.updGroup (·.confirm sender member)).tryRemove member
  else s

/-- This device has heard no frame of a member for 100,000 ns. It forms what is stamped at or below its SILENT, as those will who receive it,
falls to the floor, sends SILENT and posts the event, unless it has had a SILENT about that member: then it confirms. A member that such
a stamp takes out is no member to fall silent (log 7). With every port down it tells nobody, and its confirmation does not count (R238). -/
def State.silenceFound (s : State) (member : Nat) : State :=
  match s.group.members.find? (fun m => decide (m.number = member)) with
  | none => s
  | some m =>
    if !s.group.inForce || !decide (s.earlyAll > m.heard + silence) then s
    else
      let own := if s.group.ports = 0 then [] else [s.group.number]
      let confirms := ((s.group.silenceOf member).map (·.confirms)).getD []
      if ((s.group.silenceOf member).map (·.told)).getD false then
        if s.group.ports = 0 ∨ confirms.contains s.group.number then s
        else (s.updGroup (fun g => g.send (.confirm member g.number))).confirmed s.group.number member
      else
        let stamp := s.lateAll
        let t := s.updGroup (fun g => g.formAll s.lateAll (fun x => decide (x ≤ stamp)) g.changes.length)
        let n := (t.group.agreement + 1) % 2 ^ 32
        if t.group.knows member then
          ((t.updGroup (fun g => (g.fall member stamp n own).send (.silent member stamp n))).groupSilent member n stamp).tryRemove member
        else s

def execSilenceDetected (member : Nat) (s : State) : Out := .next (s.silenceFound member)

/-- A SILENT of a member about another: what is stamped at or below it takes effect first, then the floor. A device that holds the agreement
already when it comes only counts the sender's confirmation. A device that joins keeps it until it holds the group's agreements, and then
falls as the members do, without the event, which is theirs (R231, R234, R235). -/
def State.silentIn (s : State) (sender member : Nat) (stamp : Int) (agreement : Nat) : State :=
  if s.group.unaware then
    s.updGroup (fun g => { g with
      heardSilents := if g.heardSilents.contains ⟨member, agreement, stamp⟩ then g.heardSilents
        else g.heardSilents ++ [⟨member, agreement, stamp⟩],
      changes := g.changes.filter (fun a => !(isLimit a.change && decide (a.stamp > stamp))) })
  else if !s.group.listens || !s.group.knows sender then s
  else if s.group.agreement ≥ agreement then s.confirmed sender member
  else
    let s1 := (s.updGroup (fun g => g.formAll s.lateAll (fun t => decide (t ≤ stamp)) g.changes.length)).comeIn
    let s2 := s1.updGroup (fun g => g.fall member stamp agreement [sender])
    (if s2.group.inForce then s2.groupSilent member agreement stamp else s2).tryAll

def execSilent (sender member : Nat) (stamp : Int) (agreement : Nat) (s : State) : Out :=
  .next (s.received (s.silentIn sender member stamp agreement))

def execConfirm (sender member : Nat) (s : State) : Out :=
  .next (s.received (if s.group.listens then s.confirmed sender member else s))

/-! ### Ports (R237, R238) -/

/-- A port's entry in the error log: its number, its link state, its retry and dropped-flit counts (R237). -/
def Group.portEntry (g : Group) (port : Fin 12) : Nat :=
  port.val + put 4 1 (bit (g.ports.toNat.testBit port.val)) + put 8 32 g.dropped[port] + put 40 32 g.retries[port]

def State.logPort (s : State) (kind : LogKind) (port : Fin 12) : State := s.logDevice kind (s.group.portEntry port)

/-- Every port goes down: nothing reaches the group any more; each member then becomes silent (R238). Each port that was up is logged. -/
def State.portsDown (s : State) : State :=
  ((List.finRange 12).filter (fun i => s.group.ports.toNat.testBit i.val)).foldl (fun t i => t.logPort .port i)
    (s.updGroup (fun g => { g with ports := 0 }))

def execFabricPortsDown (s : State) : Out := .next s.portsDown

def setBit (x : BitVec 12) (i : Nat) (b : Bool) : BitVec 12 :=
  if b then x ||| BitVec.ofNat 12 (2 ^ i) else x &&& ~~~(BitVec.ofNat 12 (2 ^ i))

def execFabricPortLinkChange (port : Fin 12) (up : Bool) (s : State) : Out :=
  .next ((s.updGroup (fun g => { g with ports := setBit g.ports port.val up })).tryAll.logPort .port port)

/-- The flit is counted as dropped and its retry is asked for; nothing is delivered or lost (R237). -/
def execDroppedFlit (port : Fin 12) (s : State) : Out :=
  .next ((s.updGroup (fun g => { g with
    dropped := g.dropped.set port (g.dropped[port] + 1), retries := g.retries.set port (g.retries[port] + 1) })).logPort .flit port)

end Sys2Proof.Machine
end

