-- ==== Sys2Proof/Machine/SaveArea.lean ====
section
/-!
DEFINITION. What the save areas and holding buffers of a context hold (R272, R302, R313), piece by piece, as `debug` copies them
(R314). A piece is in the spec's own layout where it has one: the records (R301), the spill image (R123), `SHAPE` (R130), the view
descriptors (R96), the registers. Log 12: the other pieces' forms and the places of all pieces are not stated.
-/
namespace Sys2Proof.Machine

/-- `SHAPE` in the layout of R130. -/
def Shape.bits (x : Shape) : BitVec 32 :=
  BitVec.ofNat 32 (put 14 3 x.mask.val + put 13 1 (bit x.on) + put 9 4 x.ty.code + put 0 9 x.lanes)

def GReg.bytes (r : GReg) : List Byte := bytesOfNat 8 r.val.toNat ++ bytesOfNat 1 (bit r.full)

def KReg.bytes (r : KReg) : List Byte := bytesOfNat 4 r.val.toNat ++ bytesOfNat 4 r.limit.toNat

def Line.bytes (l : Line) : List Byte := bytesOfNat 64 l.data.toNat ++ bytesOfNat 1 (bit l.full)

def Binding.bytes (b : Binding) : List Byte :=
  bytesOfNat 8 b.base ++ bytesOfNat 8 b.len ++ bytesOfNat 1 (bit b.writable) ++ bytesOfNat 1 (bit b.revoked) ++
  b.segs.flatMap (fun g => bytesOfNat 8 g.off ++ bytesOfNat 8 g.len ++ bytesOfNat 8 g.pa.addr)

/-- The writable control registers, `FLAGS` and `tactive`. -/
def Sequencer.csrBytes (q : Sequencer) : List Byte :=
  bytesOfNat 8 q.tvec.toNat ++ bytesOfNat 8 q.tcause.toNat ++ bytesOfNat 8 q.taddr.toNat ++ bytesOfNat 8 q.tpc.toNat ++
  bytesOfNat 8 q.clkmax.toNat ++ bytesOfNat 8 q.govstall.toNat ++ bytesOfNat 8 q.mendretry.toNat ++ bytesOfNat 8 q.flags.toNat ++
  bytesOfNat 1 (bit q.tactive)

/-! ### Streams, regions and work under way (R159, R187, R272, R305) -/

/-- A number, and a list with its length, in 8-byte words. -/
def num (n : Nat) : List Byte := bytesOfNat 8 n

def nums (l : List Nat) : List Byte := num l.length ++ l.flatMap num

def listOf {α : Type} (f : α → List Byte) (l : List α) : List Byte := num l.length ++ l.flatMap f

def placeBytes (p : PAddr) : List Byte := num (match p.space with
  | .hbm => 0
  | .window => 1
  | .host => 2) ++ num p.addr

def cellBytes (x : PAddr × Byte) : List Byte := placeBytes x.1 ++ [x.2]

def Mark.bytes (m : Mark) : List Byte := num m.1 ++ num (bit m.2)

def EngState.bytes : EngState → List Byte
  | .idle => nums [0]
  | .run => nums [1]
  | .wait k n => nums [2, k, n]
  | .ended => nums [3]
  | .stopped => nums [4]

def StrikeBits.bytes (b : StrikeBits) : List Byte := nums [bit b.mayCore, bit b.mayLeft]

/-- What every engine stream has: its state, program counter, last code and a report that waits for it. -/
def Engine.bytes (e : Engine) : List Byte :=
  e.st.bytes ++ nums [e.pc.toNat, e.code.toNat, bit e.stopReq, bit e.releasing] ++ listOf StrikeBits.bytes e.strike.toList

def Again.bytes (a : Again) : List Byte := nums [a.depth, a.pc.toNat, a.retries]

def StoreKind.bytes : StoreKind → List Byte
  | .plain l => num 0 ++ listOf cellBytes l
  | .stamp sc t pa v => nums [1, sc.code, wrapInt 64 t, v.toNat] ++ placeBytes pa
  | .adv r ph pa => nums [2, r, ph] ++ placeBytes pa
  | .post r ph pa => nums [3, r, ph] ++ placeBytes pa

def StoreEntry.bytes (e : StoreEntry) : List Byte := nums [e.pc.toNat, e.va, bit e.begun, bit e.told] ++ nums e.binds ++ e.kind.bytes

def LoadEntry.bytes (e : LoadEntry) : List Byte :=
  nums [e.pc.toNat, e.rd.val, e.va, bit e.signed] ++ nums e.binds ++ listOf placeBytes e.cells ++ listOf (fun b => [b]) e.got

def AtomOp.tag : AtomOp → Nat
  | .add => 0
  | .swap => 1
  | .cas => 2
  | .min => 3
  | .max => 4
  | .or => 5
  | .and => 6

def HeldEffect.bytes : HeldEffect → List Byte
  | .store va l b begun told => nums [0, va, bit begun, bit told] ++ nums b ++ listOf cellBytes l
  | .atom op n sc va pa b e binds => nums [1, op.tag, n, sc.code, va, wrapInt 64 b, wrapInt 64 e] ++ nums binds ++ placeBytes pa
  | .push va t => nums [2, va, t]
  | .billet k va b => nums [3, va] ++ nums b ++ k.bytes
  | .cinch sc l => nums [4, sc.code] ++ listOf StoreEntry.bytes l

def SavedBytes.bytesOf (x : SavedBytes) : List Byte := placeBytes x.pa ++ num (bit x.lost) ++ listOf (fun b => [b]) x.bytes

def SavedLine.bytesOf (x : SavedLine) : List Byte := nums [x.line, bit x.lost] ++ x.old.bytes

def SeqRegion.bytes (r : SeqRegion) : List Byte :=
  nums [r.pc.toNat, r.seq, r.mask.toNat, r.charge, r.retries] ++ r.snap.toList.flatMap GReg.bytes ++ listOf SavedBytes.bytesOf r.saved ++
  listOf HeldEffect.bytes r.held

def VpKind.bytes : VpKind → List Byte
  | .load l z n w => nums [0, bit w] ++ listOf (fun x => num x.1 ++ placeBytes x.2) l ++ nums z ++ nums n
  | .store l => num 1 ++ listOf cellBytes l

def VpEntry.bytes (e : VpEntry) : List Byte :=
  nums [e.pc.toNat, e.detail.toNat, e.width, bit e.lost, bit e.begun] ++ nums e.binds ++ listOf nums e.eaten.toList ++ listOf (fun b => [b]) e.got ++ e.kind.bytes

def maskBytes (m : Vector (BitVec 256) 8) : List Byte := m.toList.flatMap (fun x => bytesOfNat 32 x.toNat)

def shadowBytes (m : Vector (BitVec 192) 64) : List Byte := m.toList.flatMap (fun x => bytesOfNat 24 x.toNat)

def VecRegion.bytes (r : VecRegion) : List Byte :=
  nums [r.pc.toNat, r.mask.toNat, r.charge, r.retries, r.snap.shape.bits.toNat] ++ maskBytes r.snap.masks ++
  r.snap.k.toList.flatMap KReg.bytes ++ shadowBytes r.snap.shadow ++ listOf SavedLine.bytesOf r.saved ++ listOf VpEntry.bytes r.held ++
  listOf Mark.bytes r.marks

def XPoint.bytes : XPoint → List Byte
  | .tree v i => nums [0, v.val, i]
  | .hnd h o => nums [1, h.val, o]

def XEnd.bytes : XEnd → List Byte
  | .tree n c w => nums [0, n, bit c, bit w]
  | .mem b o => nums [1, o] ++ b.bytes

def CollOp.tag : CollOp → Nat
  | .sumI32 => 0
  | .sumF32 => 1
  | .bcast => 2
  | .argmax => 3

def PackFmt.tag : PackFmt → Nat
  | .t5p => 0
  | .bsi8 => 1
  | .sp24 => 2
  | .zrun => 3

def XKind.bytes : XKind → List Byte
  | .copy r b sp dp => nums [0, r, b, sp, dp]
  | .fill v => nums [1, v.toNat]
  | .gather e l => nums [2, e] ++ nums l
  | .scatter e l => nums [3, e] ++ nums l
  | .wbfill r => nums [4, r]
  | .conv a b => nums [5, a.code, b.code]
  | .unfold w t sp dp p => nums [6, t.code, sp, dp, p] ++ nums (w.toList.map (·.toNat))
  | .unpack f r t => nums [7, f.tag, r, t.code]
  | .mcast => nums [8]
  | .coll op sc i m => nums [9, op.tag, sc.code, i, m]

def Block.bytesOf (b : Block) : List Byte :=
  nums [b.seq, b.first, b.landed, bit b.lost, bit b.badTag, bit b.formed] ++ nums b.consume ++ nums b.binds ++ listOf (fun x => [x]) b.bytes

/-- A step word's operation, with the blocks that it has still to hand over and those that have not landed. -/
def XOp.bytes (o : XOp) : List Byte :=
  nums [o.id, o.seq, o.pc.toNat, o.word.toNat, o.len, o.batch, o.next, o.out, bit o.issued, bit o.written, bit o.left, o.mask.toNat, bit o.inside,
    bit o.unissued] ++ nums (o.failed.toList.map (·.toNat)) ++ o.bits.bytes ++ o.kind.bytes ++ o.dstPt.bytes ++
  listOf XPoint.bytes o.srcPt.toList ++ o.dst.bytes ++ listOf XEnd.bytes o.src.toList ++
  listOf (fun x => num x.1 ++ bytesOfNat 64 x.2.toNat) o.taken ++ listOf Block.bytesOf o.blocks ++ listOf Block.bytesOf o.done ++
  listOf (fun x => nums [x.1, x.2.1] ++ placeBytes x.2.2) o.later ++ listOf (fun x => nums [x.1, x.2]) o.laterTree ++
  listOf (fun x => nums [x.1, x.2]) o.index.toList

def Batch.bytes (b : Batch) : List Byte :=
  nums [b.id, b.landed, bit b.used] ++ listOf (fun x => placeBytes x.pa ++ num x.bind) b.sync.toList

def XFail.bytes (f : XFail) : List Byte := nums [f.seq, f.pc.toNat, f.word.toNat, f.code.toNat, bit f.mayCore, bit f.mayLeft]

def SyncAdd.bytesOf (a : SyncAdd) : List Byte := placeBytes a.pa ++ nums [a.bytes, a.code.toNat, a.flags.toNat]

def XferRegion.bytes (r : XferRegion) : List Byte :=
  nums [r.pc.toNat, r.mask.toNat, r.charge, r.retries] ++ r.snap.k.toList.flatMap KReg.bytes ++
  nums (r.snap.shape.toList.map (·.toNat)) ++ nums (r.snap.win.toList.map (·.toNat)) ++ listOf Batch.bytes r.snap.openBatch.toList ++
  listOf SavedLine.bytesOf r.saved ++ listOf XOp.bytes r.held ++ listOf Mark.bytes r.marks ++ listOf SyncAdd.bytesOf r.adds

def entryBytes (x : Nat × Int) : List Byte := num x.1 ++ num (wrapInt 64 x.2)

def MatSnap.bytes (m : MatSnap) : List Byte :=
  nums [m.pc.toNat, m.base] ++ listOf entryBytes m.acc ++ m.k.toList.flatMap KReg.bytes ++ bytesOfNat 64 m.seg.toNat ++
  bytesOfNat 64 m.rows.toNat ++ bytesOfNat 64 m.cols.toNat ++ listOf (fun p => nums [p.row, p.col, wrapInt 64 p.val]) m.pert.toList

def Tile.bytes (t : Tile) : List Byte := num (bit t.wwait) ++ listOf (fun l => num l.1 ++ bytesOfNat 64 l.2.toNat) t.lines

def Reduction.bytes (r : Reduction) : List Byte :=
  r.snap.bytes ++ nums [r.mode.code, r.n, r.p, r.mask.toNat, r.retries] ++ nums r.marks ++ listOf Tile.bytes r.tile.toList

/-- The sequencer's open regions, what waits in its queues, the fences and the group of an open cinch. -/
def Sequencer.workBytes (q : Sequencer) : List Byte :=
  listOf SeqRegion.bytes q.regions ++ listOf Again.bytes q.again ++ listOf Again.bytes q.kept ++ listOf LoadEntry.bytes q.lq ++ listOf StoreEntry.bytes q.sq ++
  listOf (fun f => nums [f.seq, f.pa.code, f.pb.code, f.scope.code, wrapInt 64 f.limit]) q.fences ++
  listOf (fun c => nums [c.scope.code, c.pc.toNat] ++ listOf StoreEntry.bytes c.stores) q.cinch.toList ++
  listOf (fun h => bytesOfNat 64 h.record.toNat) q.hold.toList ++ nums [q.barMarked, q.barDone, bit q.releasing, q.trapSeq]

/-- The vector stream, its regions, and the accesses that it has issued. -/
def VecEngine.workBytes (v : VecEngine) : List Byte :=
  v.eng.bytes ++ listOf VecRegion.bytes v.regions ++ listOf Again.bytes v.again ++ listOf VpEntry.bytes v.vp ++
  nums (v.lostAt.toList.flatMap (fun x => [x.1.toNat, x.2.toNat])) ++ listOf StrikeBits.bytes v.struck.toList

/-- The matrix stream and its reductions, open and held. -/
def MatEngine.workBytes (m : MatEngine) : List Byte :=
  m.eng.bytes ++ listOf Reduction.bytes m.reds ++ listOf Again.bytes m.again ++ nums [m.base, bit m.spilled] ++
  listOf (fun f => nums [f.1.toNat, f.2.toNat]) m.fault.toList

/-- The transfer stream, its batches, regions and recorded failures, the word at issue and the operations that it has handed over. -/
def XferEngine.workBytes (x : XferEngine) : List Byte :=
  x.eng.bytes ++ listOf XferRegion.bytes x.regions ++ listOf Again.bytes x.again ++ listOf Batch.bytes (x.openBatch.toList ++ x.batches) ++
  listOf XFail.bytes x.fails ++ listOf XOp.bytes (x.cur.toList ++ x.ops) ++ listOf (fun c => nums [c.1, c.2]) x.colls ++
  listOf (fun c => nums [c.1, c.2.1, c.2.2.toNat]) x.lostColls ++ listOf (fun l => num l.1 ++ bytesOfNat 64 l.2.toNat) x.index

/-- The saved bytes and lines of open regions: the undo bytes that hold them. -/
def Core.undoBytes (c : Core) : List Byte :=
  c.seq.regions.flatMap (fun r => r.saved.flatMap (·.bytes)) ++
  c.vec.regions.flatMap (fun r => r.saved.flatMap (fun x => bytesOfNat 2 x.line ++ x.old.bytes)) ++
  c.xfer.regions.flatMap (fun r => r.saved.flatMap (fun x => bytesOfNat 2 x.line ++ x.old.bytes))

/-- The blocks that a core has handed over: its holding buffer while it is halted (R313). -/
def Core.holdingBuffer (c : Core) : List Byte := c.xfer.all.flatMap (fun o => o.blocks.flatMap (·.bytes))

/-- The save area of one core and its holding buffer, given the bytes of its local store. -/
def Core.areaPieces (c : Core) (store : Nat → Byte) : List (List Byte) :=
  c.records.toList.map (fun r => bytesOfNat 64 r.toNat) ++
  [c.mat.spill.flatMap (fun w => bytesOfNat 8 w.toNat),
   (List.range c.res.tree).flatMap (fun n => (c.line n).bytes),
   (List.range (c.res.ls * 4096)).map store,
   (rangeFrom castBase (2 ^ 22 - castBase)).map store,
   (List.range c.res.wb).flatMap (fun n => bytesOfNat 256 (c.wbRow n).toNat),
   c.undoBytes,
   c.seq.g.toList.flatMap GReg.bytes,
   bytesOfNat 8 c.seq.pc.toNat ++ (c.seq.k.toList ++ c.vec.eng.k.toList ++ c.mat.eng.k.toList ++ c.xfer.eng.k.toList).flatMap KReg.bytes,
   c.seq.bindings.flatMap Binding.bytes,
   c.views.toList.flatMap (fun v => bytesOfNat 8 v.toNat),
   c.seq.csrBytes,
   c.seq.workBytes,
   bytesOfNat 4 c.vec.shape.bits.toNat ++ maskBytes c.vec.masks ++ shadowBytes c.vec.shadow ++ c.vec.workBytes,
   c.mat.workBytes,
   c.xfer.shape.toList.flatMap (fun x => bytesOfNat 4 x.toNat) ++ c.xfer.win.toList.flatMap (fun x => bytesOfNat 4 x.toNat) ++
     c.xfer.workBytes,
   c.holdingBuffer]

/-- The pieces of every core of a context: those of the cores that its crews hold, then those of pre-empted crews. -/
def State.areaPieces (s : State) (ctx : Nat) : List (List Byte) :=
  (s.ctxCores ctx).flatMap (fun n => (s.coreOf n).areaPieces (fun a => s.readByte ⟨.window, storeBase n + a⟩)) ++
  (s.crews.filter (fun k => decide (k.ctx = ctx))).flatMap (fun k => k.saved.flatMap (fun v =>
    ({ v.core with seat := some ⟨k.num, k.ctx, 0, k.packet.crew, k.packet.res⟩ } : Core).areaPieces
      (fun a => Memory.read v.store (storeBase v.core.id + a))))

end Sys2Proof.Machine
end

