-- ==== Sys2Proof/Machine/Firmware.lean ====
section
/-!
DEFINITION. The firmware's command set (R217, R219, R257, R280 to R287, R314), the boot (R285), and what waiting commands come to.
Assumption logs 6 (identity, keys), 7 (clock and group) and 22 (firmware) hold what the spec is brief about.
-/
namespace Sys2Proof.Machine

/-! ### Host memory -/

/-- A host address as a command of an interface names it. -/
def State.hostPlace (s : State) (q : Fin 64) (a : Nat) : PAddr := s.fw.ifaces[q].host a

/-- Bytes of host memory; none where the host has poisoned them (R223). -/
def State.hostRead (s : State) (q : Fin 64) (a n : Nat) : Option (List Byte) :=
  let l := placesFrom (s.hostPlace q a) n
  if s.eccRead l = .ok then some (s.readBytes l) else none

/-- Bytes written to host memory, sector by sector (R224). -/
def State.hostWrite (s : State) (q : Fin 64) (a : Nat) (l : List Byte) : State := s.storeParts (cellsAt (s.hostPlace q a) l)

/-- Whether such a write meets a poisoned sector that it covers in part (R223, R224). -/
def State.hostLost (s : State) (q : Fin 64) (a : Nat) (l : List Byte) : Bool := decide (s.eccWrite (cellsAt (s.hostPlace q a) l) ≠ .ok)

/-- A command that ends with bytes written to host memory: DATA_LOST where a sector that they cover in part is lost (R224; log 22). -/
def State.hostDone (s : State) (q : Fin 64) (p : Packet) (a : Nat) (l : List Byte) (results : List Word) : State :=
  if s.hostLost q a l then (s.hostWrite q a l).answer q p codeDataLost 0 [] else (s.hostWrite q a l).okCmd q p results

/-! ### Partitions (R282) -/

def State.usedFrames (s : State) : List Nat :=
  s.parts.flatMap (fun p => p.s2.filterMap (fun e => if e.2.kind.val = 0 then some e.2.frame else none))

def State.freeFrames (s : State) : List Nat := (List.range frameCount).filter (fun f => !s.usedFrames.contains f)

/-- The set bits of a mask below n. -/
def maskBits (n x : Nat) : List Nat := (List.range n).filter (fun i => x.testBit i)

/-- Write every byte of what a partition owns to zero (R282). -/
def State.scrubCore (s : State) (id : Nat) : State :=
  (s.scrubStore id (2 ^ 22)).updCore id (fun c => { Core.blank c.id with
    issue := c.issue
    mat := { MatEngine.zero with budget := c.mat.budget, spent := c.mat.spent, window := c.mat.window } })

def State.scrubFrame (s : State) (f : Nat) : State :=
  let out : PAddr → Bool := fun p => !(decide (p.space = .hbm) && decide (p.addr / 2 ^ 30 = f))
  { s with hbm := sparseOut (f * 2 ^ 30) (2 ^ 30) s.hbm, lost := s.lost.filter out, badTag := s.badTag.filter out }

def Partition.frames (p : Partition) : List Nat := p.s2.filterMap (fun e => if e.2.kind.val = 0 then some e.2.frame else none)

/-- A partition's stage-2 table written whole: its valid entries, zero elsewhere (R213, R282). -/
def State.writeTable (s : State) (num : Nat) (l : List (Nat × Stage2)) : State :=
  let out : PAddr → Bool := fun p =>
    !(decide (p.space = .hbm) && decide (stage2Base num ≤ p.addr) && decide (p.addr < stage2Base num + 2 ^ 21))
  let s1 : State := { s with
    hbm := sparseOut (stage2Base num) (2 ^ 21) s.hbm, lost := s.lost.filter out, badTag := s.badTag.filter out }
  l.foldl (fun s e => s.writeNat ⟨.hbm, stage2Base num + 8 * e.1⟩ 8 e.2.bits) s1

def State.scrubPart (s : State) (p : Partition) : State :=
  let s1 := p.cores.foldl State.scrubCore s
  let s2 := p.frames.foldl State.scrubFrame s1
  { s2 with launchQ := s2.launchQ.filter (fun x => !p.cores.contains x.1) }

/-- The stage-2 table of a new partition: its HBM extents from address 0 up, then the host extents. -/
def stage2Table (num extents : Nat) (frames : List Nat) : List (Nat × Stage2) :=
  ((frames.take extents).zipIdx.map (fun x => (x.2, ⟨x.1, Fin.ofNat 4 (x.1 / framesPerDie), true, 0⟩))) ++
  ((Config.hostExtents num).filter (fun x => decide (extents ≤ x.1))).map (fun x => (x.1, ⟨x.2.1, 0, x.2.2, 1⟩))

def State.freePart (s : State) : Option Nat := (List.range 8).find? (fun n => (s.part n).isNone)

/-- The arguments of part.create in their ranges. -/
def partArgsOk (p : Packet) : Bool :=
  decide (p.a1.toNat < 2 ^ 32) && decide (p.a3.toNat < 256) && !p.a4.toNat.testBit 0

def State.partTaken (s : State) (p : Packet) : Bool :=
  let quads := maskBits 64 p.a0.toNat ++ (maskBits 32 p.a1.toNat).map (64 + ·)
  s.parts.any (fun x => quads.any x.quads.contains) || s.parts.any (fun x => decide (x.ifaces &&& p.a4 ≠ 0)) ||
  decide (s.freeFrames.length < p.a2.toNat) || decide ((s.parts.map (·.share)).foldl (· + ·) 0 + p.a3.toNat > 256)

def State.buildPart (s : State) (q : Fin 64) (p : Packet) (num : Nat) : State :=
  let x : Partition :=
    { num := num, quads := maskBits 64 p.a0.toNat ++ (maskBits 32 p.a1.toNat).map (64 + ·),
      s2 := stage2Table num p.a2.toNat s.freeFrames, window := p.a2.toNat * 2 ^ 30, share := p.a3.toNat, ifaces := p.a4,
      draw := s.fw.draws }
  let s1 := (s.scrubPart x).writeTable num x.s2
  ({ s1 with parts := s1.parts ++ [x], fw := { s1.fw with draws := s1.fw.draws + 1 } }).okCmd q p [wordOfNat num]

def execPartCreate (q : Fin 64) (p : Packet) (s : State) : Out :=
  .next (s.onAdmin q p (
    if !partArgsOk p then s.refuseCmd q p 3
    else if s.partTaken p then s.refuseCmd q p 6
    else match s.freePart with
      | none => s.refuseCmd q p 6
      | some n => s.buildPart q p n))

/-- The contexts of a partition halt for its destruction. -/
def State.haltPart (s : State) (n : Nat) : State :=
  (s.ctxs.filter (fun c => decide (c.part = n))).foldl (fun s c => s.haltPlain c.num codeOk (s.lowestCore c.num) false) s

/-- R280: its contexts are destroyed first; the rest follows once they are (`progressOne`). -/
def execPartDestroy (q : Fin 64) (p : Packet) (s : State) : Out :=
  .next (s.onAdmin q p (match s.part p.part with
    | none => s.refuseCmd q p 5
    | some x => (s.haltPart x.num).waitCmd q p))

/-! ### Contexts -/

def State.freeCtx (s : State) : Option Nat := (List.range 64).find? (fun n => (s.ctx n).isNone)

/-- The arguments of ctx.create in their ranges. -/
def ctxArgsOk (x : Partition) (p : Packet) : Bool :=
  decide (p.a0.toNat < 2 ^ 48) && decide (p.a0.toNat % 2 ^ tableBits 4 = 0) && decide (bitsOf p.a1.toNat 63 9 = 0) &&
  decide (bitsOf p.a1.toNat 7 6 = 0) && x.ifaces.toNat.testBit (bitsOf p.a1.toNat 5 0) && decide (4096 ≤ p.a2.toNat) &&
  decide (p.a2.toNat < 2 ^ 31)

/-- A new context under a number. -/
def State.buildCtx (s : State) (q : Fin 64) (p : Packet) (part n : Nat) : State :=
  let c : Context :=
    { num := n, part := part, root := p.a0.toNat, iface := Fin.ofNat 64 (bitsOf p.a1.toNat 5 0), debug := p.a1.toNat.testBit 8,
      ydl := p.a2.toNat, harness := none, halt := none, objects := [], log := [], binds := [] }
  ({ s with ctxs := s.ctxs ++ [c] }).okCmd q p [wordOfNat n]

/-- Whether some context is being given up by a destruction taken earlier. -/
def State.someGoing (s : State) : Bool := s.ctxs.any (fun c => s.ctxGoing c.num || s.partGoing c.part)

/-- R280. While every number is taken and one of them is being given up by a destruction taken earlier, the command waits for it (R281: log
22). -/
def execCtxCreate (q : Fin 64) (p : Packet) (s : State) : Out :=
  .next (s.onPart q p (fun x =>
    if !ctxArgsOk x p then s.refuseCmd q p 3
    else match s.freeCtx with
      | none => if s.someGoing then s.waitCmd q p else s.refuseCmd q p 6
      | some n => s.buildCtx q p x.num n))

/-- R280: the context halts; the rest follows once it has (`progressOne`). -/
def execCtxDestroy (q : Fin 64) (p : Packet) (s : State) : Out :=
  .next (s.onCtx q p (fun _ c => (s.haltPlain c.num codeOk (s.lowestCore c.num) false).waitCmd q p))

/-- A halted context is taken apart: pre-empted crews are discarded, launches and blocks that wait are dropped, its cores are scrubbed
and released with all that was under way on them, its handles with them (R273, R280, R314). -/
def State.dropContext (s : State) (n : Nat) : State :=
  let saved := s.crews.filter (fun k => decide (k.ctx = n) && decide (k.state = .saved))
  let s1 := saved.foldl (fun s k => s.discardCrew k.num) s
  let gone := s1.waiting.filter (fun w => decide (w.ctx = n))
  let s2 := gone.foldl (fun s w => (s.dropWaiting w.num).answerLaunch w codeIllegal 5 []) s1
  let s3 : State := { s2 with launchQ := s2.launchQ.map (fun x => (x.1, x.2.filter (fun b => decide (b.ctx ≠ n)))) }
  let s4 := (s3.ctxCores n).foldl State.scrubCore s3
  { s4 with ctxs := s4.ctxs.filter (fun c => decide (c.num ≠ n)), crews := s4.crews.filter (fun k => decide (k.ctx ≠ n)) }

/-! ### Objects and launches (R52, R280) -/

/-- What `load` finds wrong with an object (R52): magic, encoding version, reserved bytes, sections or data that it does not hold. -/
def objectOk (l : List Byte) : Bool :=
  let r : Resources := { (launchOf (l.drop 0x40)).res with lens := Vector.ofFn (fun i : Fin 4 => fieldAt l (0x08 + 2 * i.val) 2) }
  decide (192 ≤ l.length) && decide (fieldAt l 0 4 = 0x4B58514F) && decide (fieldAt l 5 3 = 0) && decide (1 ≤ fieldAt l 4 1) &&
  decide (fieldAt l 4 1 ≤ 3) && decide (fieldAt l 0x14 44 = 0) && decide (192 + 4 * r.words + fieldAt l 0x10 4 ≤ l.length)

def objectWords (l : List Byte) : Nat :=
  fieldAt l 0x08 2 + fieldAt l 0x0A 2 + fieldAt l 0x0C 2 + fieldAt l 0x0E 2

/-- The launch template with its code and lengths filled in. -/
def filledTemplate (l : List Byte) (code : Nat) : List Byte :=
  let t := (l.drop 0x40).take 128
  t.take 0x10 ++ bytesOfNat 8 code ++ (l.drop 0x08).take 8 ++ t.drop 0x20

/-- The graver of two answers (R223). -/
def Ecc.worse : Ecc → Ecc → Ecc
  | .badTag, _ => .badTag
  | .lost, .badTag => .badTag
  | .lost, _ => .lost
  | .ok, e => e

/-- Several writes, each performed or not as R224 gives; the gravest error among them. -/
def State.writeAll (s : State) : List (List PAddr × List Byte) → Ecc × State
  | [] => (.ok, s)
  | x :: t =>
    let r := s.store (x.1.zip x.2)
    let u := r.2.writeAll t
    (r.1.worse u.1, u.2)

/-- A code among the errors of several accesses: INTEGRITY where one has it. -/
def worstCode (l : List Code) : Code := if l.contains codeIntegrity then codeIntegrity else l.headD codeOk

def exceptCode {α : Type} : Except Code α → List Code
  | .ok _ => []
  | .error e => [e]

/-- A refusal with reason 3 of a command that could not reach its context's memory; INTEGRITY halts the context (R214, R223). -/
def State.unreachable (s : State) (q : Fin 64) (p : Packet) (ctx : Nat) (l : List Code) : State :=
  (s.integrity ctx (s.lowestCore ctx) (worstCode l)).refuseCmd q p 3

/-- What `load` answers once it has written, r: DATA_LOST where a sector that it covers in part is lost (R224; log 22). Where a tag does not
match it is refused, and nothing of it is carried out (R279). -/
def State.loaded (s : State) (q : Fin 64) (p : Packet) (ctx : Nat) (r : Ecc × State) (object : List Byte) (d : Nat) : State :=
  match r.1 with
  | .ok => (r.2.updCtx ctx (fun c => { c with objects := c.objects ++ object })).okCmd q p [wordOfNat d]
  | .lost => r.2.answer q p codeDataLost 0 []
  | .badTag => s.unreachable q p ctx [codeIntegrity]

def execLoad (q : Fin 64) (p : Packet) (s : State) : Out :=
  .next (s.onCtx q p (fun _ c => match s.hostRead q p.a0.toNat p.a1.toNat with
    | none => s.refuseCmd q p 3
    | some l =>
      if !objectOk l then s.refuseCmd q p 3
      else
        let n := 4 * objectWords l
        let d := fieldAt l 0x10 4
        match s.ctxPlaces c.num none p.a2.toNat n true, s.ctxPlaces c.num none p.a3.toNat d true,
            s.ctxPlaces c.num none p.a4.toNat 128 true with
        | .ok x, .ok y, .ok z =>
          s.loaded q p c.num (s.writeAll [(x, (l.drop 192).take n), (y, (l.drop (192 + n)).take d), (z, filledTemplate l p.a2.toNat)]) l d
        | x, y, z => s.unreachable q p c.num (exceptCode x ++ exceptCode y ++ exceptCode z)))

/-- R280: the packet is checked, then the crew waits for its cores. -/
def execLaunch (q : Fin 64) (p : Packet) (s : State) : Out :=
  .next (s.onCtx q p (fun x c =>
    if c.halt.isSome then s.refuseCmd q p 7
    else match s.ctxRead c.num p.a0.toNat 128 with
      | .error e => s.unreachable q p c.num [e]
      | .ok l => match launchRefused l 0 x.cores.length with
        | some r => s.refuseCmd q p r
        | none =>
          if p.a2.toNat > (launchOf l).res.ls * 4096 then s.refuseCmd q p 3
          else { s with
            crewNum := s.crewNum + 1
            waiting := s.waiting ++ [⟨c.num, launchOf l, .host q p.tag p.a1.toNat p.a2.toNat, s.crewNum⟩] }))

/-! ### Harnesses (R255 to R257) -/

/-- The templates behind a record. -/
def templatesOf (l : List Byte) : List (List Byte) := (List.range (bitsOf (fieldAt l 0x18 8) 4 0)).map (fun i => (l.drop (64 + 128 * i)).take 128)

/-- The record's own fields (R255). -/
def recordOk (l : List Byte) : Bool :=
  let n := bitsOf (fieldAt l 0x18 8) 4 0
  decide (fieldAt l 0 8 % 128 = 0) && decide (fieldAt l 0x0B 1 = 0) && decide (1 ≤ fieldAt l 8 3) &&
  decide (bitsOf (fieldAt l 0x18 8) 63 10 = 0) && decide (bitsOf (fieldAt l 0x18 8) 7 5 = 0) && decide (1 ≤ n) && decide (n ≤ 16) &&
  decide (fieldAt l 0x20 32 = 0) && (maskBits 64 (fieldAt l 0x10 8)).all (fun p => decide (1 ≤ p) && decide (p ≤ 47))

def distinct : List Nat → Bool
  | [] => true
  | a :: t => !t.contains a && distinct t

/-- Templates, bound phases and final phases (R257). -/
def stagesOk (l : List Byte) (cores : Nat) : Option Nat :=
  let t := templatesOf l
  let phases := t.map (fun x => (launchOf x).phase)
  if t.any (fun x => decide (launchRefused x 1 cores = some 3)) then some 3
  else if !distinct phases ∨ phases.any (fun p => (fieldAt l 0x10 8).testBit p) then some 3
  else if t.any (fun x => decide (launchRefused x 1 cores = some 6)) ∨
      (t.map (fun x => (launchOf x).cmin * (launchOf x).crew)).foldl (· + ·) 0 > cores then some 6
  else none

/-- Whether a harness's table maps to HBM, piece by piece of 64 KiB (R255, R257): the codes of the pieces that do not. -/
def State.tableGaps (s : State) (ctx base n : Nat) : List Code :=
  (pagesOf base n 65536).flatMap (fun page => match s.walk ctx none page false with
    | .ok pa _ _ => if pa.space = .hbm then [] else [codeBounds]
    | .fault _ _ => [codeBounds]
    | .badTag => [codeIntegrity])

def harnessOf (l : List Byte) : Harness :=
  { table := fieldAt l 0 8, wlim := fieldAt l 0x0C 4, rows := fieldAt l 8 3, final := BitVec.ofNat 64 (fieldAt l 0x10 8),
    home := Fin.ofNat 4 (bitsOf (fieldAt l 0x18 8) 9 8), stages := (templatesOf l).map launchOf, row := 0, scanned := false,
    counts := [], partials := [], owed := [], suspended := false, ended := false }

/-- R257. DESIGN CHOICE: where both hold, a record that asks for too many cores (reason 6) is told before a table that HBM does not hold (reason
3: log 21). -/
def execHarness (q : Fin 64) (p : Packet) (s : State) : Out :=
  .next (s.onCtx q p (fun x c =>
    if c.harness.isSome then s.refuseCmd q p 7
    else match s.ctxRead c.num p.a0.toNat 64 with
      | .error e => s.unreachable q p c.num [e]
      | .ok h =>
        if !recordOk h then s.refuseCmd q p 3
        else match s.ctxRead c.num p.a0.toNat (64 + 128 * bitsOf (fieldAt h 0x18 8) 4 0) with
          | .error e => s.unreachable q p c.num [e]
          | .ok l => match stagesOk l x.cores.length with
            | some r => s.refuseCmd q p r
            | none => match s.tableGaps c.num (fieldAt l 0 8) (128 * fieldAt l 8 3) with
              | [] => (s.updCtx c.num (fun c => { c with harness := some (harnessOf l) })).okCmd q p []
              | gaps => s.unreachable q p c.num gaps))

/-- Requests that are still out for a context's instances are withdrawn. -/
def State.withdrawStages (s : State) (ctx : Nat) : State :=
  (s.crews.filter (fun k => decide (k.ctx = ctx) && decide (k.asked ≠ some none))).foldl (fun s k => s.withdrawYield k) s

def execHarnessEnd (q : Fin 64) (p : Packet) (s : State) : Out :=
  .next (s.onCtx q p (fun _ c =>
    match c.harness with
    | none => s.refuseCmd q p 7
    | some h =>
      if h.ended then s.refuseCmd q p 7
      else
        let s1 := (s.updHarness c.num (fun h => { h with ended := true })).withdrawStages c.num
        let saved := s1.crews.filter (fun k => decide (k.ctx = c.num) && decide (k.state = .saved) && !k.forCheckpoint && s1.orphaned k)
        ((saved.foldl (fun s k => s.discardCrew k.num) s1).dropHarness c.num).okCmd q p []))

/-! ### Translation faults and unmapping (R217, R219) -/

/-- The core that `resolve` and `refuse` name, when it is held at a fault in the context. DESIGN CHOICE: the save of a crew drops the hold with the
instruction that it abandons, so that a fault record of before it finds no held core: reason 5 (R217: log 11). -/
def State.heldCore (s : State) (ctx : Nat) (p : Packet) : Except Nat Nat :=
  let n := 128 * bitsOf p.a0.toNat 1 0 + p.a1.toNat
  if p.a0.toNat ≥ 4 ∨ p.a1.toNat ≥ 96 then .error 3
  else match (s.coreOf n).seat with
    | some x => if x.ctx = ctx ∧ (s.coreOf n).seq.hold.isSome then .ok n else .error 5
    | none => .error 5

def execResolve (q : Fin 64) (p : Packet) (s : State) : Out :=
  .next (s.onCtx q p (fun _ c => match s.heldCore c.num p with
    | .error r => s.refuseCmd q p r
    | .ok n => (s.updCore n (·.updSeq (fun q => { q with hold := none }))).okCmd q p []))

def execRefuse (q : Fin 64) (p : Packet) (s : State) : Out :=
  .next (s.onCtx q p (fun _ c => match s.heldCore c.num p with
    | .error r => s.refuseCmd q p r
    | .ok n => (s.haltPlain c.num codeBounds n false).okCmd q p []))

def Binding.covers (b : Binding) (va n : Nat) : Bool := overlaps b.base b.len va n

/-- Whether a draining binding is still waited for by an unmap: under a halt, collectives are not (R219). -/
def Core.drainsFor (c : Core) (halted : Bool) (b : Binding) : Bool := c.referred b.id || !c.idleOn halted b.id

/-- Whether an unmap of n bytes at va in a context is over (R219): no binding that it revokes is still LIVE, no DRAINING one, no bind with
pages walked before it, no queue entry, no store of an open cinch, no held effect uses the pages, on a core or in a save area. -/
def Core.unmapDone (c : Core) (halted : Bool) (va n : Nat) : Bool :=
  !c.seq.bindings.any (fun b => b.revoking && b.covers va n) &&
  !(match c.seq.walk with
    | some j => j.stale && overlaps j.base j.len va n
    | none => false) &&
  !(match c.seq.cinch with
    | some x => x.stores.any (fun e => overlaps e.va e.kind.places.length va n)
    | none => false) &&
  !c.seq.draining.any (fun b => b.covers va n && c.drainsFor halted b) &&
  !c.seq.lq.any (fun e => overlaps e.va e.cells.length va n) &&
  !c.seq.sq.any (fun e => overlaps e.va e.kind.places.length va n) &&
  !c.seq.regions.any (fun r => r.held.any (fun h => match h with
    | .store a l _ _ _ => overlaps a l.length va n
    | .atom _ m _ a _ _ _ _ => overlaps a m va n
    | .push _ _ => false
    | .billet k a _ => overlaps a k.places.length va n
    | .cinch _ l => l.any (fun e => overlaps e.va e.kind.places.length va n)))

def State.unmapReady (s : State) (ctx va n : Nat) : Bool :=
  (s.ctxCores ctx).all (fun id => (s.coreOf id).unmapDone (s.ctxHalted ctx) va n) &&
  (s.crews.filter (fun k => decide (k.ctx = ctx))).all (fun k => k.saved.all (fun v => v.core.unmapDone (s.ctxHalted ctx) va n))

/-- A bind whose walks have reached pages of an unmap: its binding falls under R91 as soon as it is LIVE. -/
def WalkJob.unmapped (j : WalkJob) (va n : Nat) : WalkJob :=
  { j with stale := j.stale || j.done.any (fun d => overlaps (j.base + d.1.off) d.1.len va n) }

/-- What an unmap does to a core at once: the LIVE bindings that cover its pages fall under R91, and so will a bind in progress. -/
def Core.unmap (c : Core) (va n : Nat) : Core :=
  (c.revokeIf (fun b => b.covers va n)).updSeq (fun q => { q with walk := q.walk.map (·.unmapped va n) })

/-- What an unmap does at once, to the cores of a context and to its saved crews. -/
def State.unmap (s : State) (ctx va n : Nat) : State :=
  let s1 := (s.ctxCores ctx).foldl (fun s id => s.updCore id (·.unmap va n)) s
  { s1 with crews := s1.crews.map (fun k => if k.ctx = ctx then k.mapSaved (·.unmap va n) else k) }

def execUnmap (q : Fin 64) (p : Packet) (s : State) : Out :=
  .next (s.onCtx q p (fun _ c =>
    if p.a1.toNat % 65536 ≠ 0 then s.refuseCmd q p 3
    else (s.unmap c.num p.a0.toNat p.a1.toNat).waitCmd q p))

/-! ### Collectives, halts by a debugger, logs (R280, R314) -/

def execCollBind (q : Fin 64) (p : Packet) (s : State) : Out :=
  .next (s.onCtx q p (fun _ c =>
    if s.crews.any (fun k => decide (k.num = p.a1.toNat) && decide (k.ctx = c.num) && decide (k.state ≠ .ended)) then
      (s.updCtx c.num (fun c => { c with binds := c.binds ++ [(p.a0.toNat, p.a1.toNat)] })).okCmd q p []
    else s.refuseCmd q p 5))

/-- `debug` with an a0 above 2 is refused with reason 3. -/
def execDebugHalt (q : Fin 64) (p : Packet) (s : State) : Out :=
  .next (s.onCtx q p (fun _ c =>
    if p.a0.toNat > 2 then s.refuseCmd q p 3
    else if !c.debug ∨ c.halt.isSome then s.refuseCmd q p 7
    else (s.haltPlain c.num codeOk (s.lowestCore c.num) true).waitCmd q p))

/-- The blocks that one core has handed over, in order. -/
def Core.heldBlocks (c : Core) : List Nat :=
  sortNat (c.xfer.all.flatMap (fun o => (o.blocks.filter (fun b => decide (o.kind.path ≠ .cp) || b.formed)).map (·.seq)))

/-- The holding buffer of one core goes to its destinations, until the context halts anew (R314). A block whose lines are full waits (R29),
as every block does. -/
def State.landHeld (s : State) (id : Nat) : State :=
  let t := s.focus id
  t.core.heldBlocks.foldl (fun s n => if s.ctxHalted s.core.ctxNum then s else s.landEvent ⟨n, none⟩) t

/-- R314: the holding buffers land, then every stream goes on, then the reports that came during the halt are applied. -/
def execDebugResume (q : Fin 64) (p : Packet) (s : State) : Out :=
  .next (s.onCtx q p (fun _ c => match c.halt with
    | none => s.refuseCmd q p 7
    | some h =>
      if !c.debug ∨ !h.debug ∨ !h.posted then s.refuseCmd q p 7
      else
        let home := s.core.id
        let ids := s.ctxCores c.num
        let s1 := s.updCtx c.num (fun c => { c with halt := none })
        let s2 := (ids.foldl State.vecResumed (ids.foldl State.landHeld s1)).focus home
        let s3 := ids.foldl (fun s n => s.updCore n (·.updMat (fun m => { m with
          spilled := if m.eng.st = .stopped then m.spilled else false }))) s2
        (s3.deliverAll ids).okCmd q p []))

def execDebugReadState (q : Fin 64) (p : Packet) (s : State) : Out :=
  .next (s.onCtx q p (fun _ c =>
    if c.halt.isNone then s.refuseCmd q p 7
    else
      s.hostDone q p p.a1.toNat ((Config.saveLayout (s.areaPieces c.num)).take p.a2.toNat) []))

def LogKind.code : LogKind → Nat
  | .badDone => 0
  | .refusedAdvance => 1
  | .refusedPost => 2
  | .refusedBlock => 3
  | .suspended => 4
  | .resumed => 5
  | .lostRow => 6
  | .clock => 7
  | .notify => 8
  | .corrected => 9
  | .joinFailed => 10
  | .port => 11
  | .flit => 12

/-- Up to 64 entries of a log from an index on. -/
def State.copyLog (s : State) (q : Fin 64) (p : Packet) (l : List LogEntry) : State :=
  let part := (l.drop p.a1.toNat).take 64
  s.hostDone q p p.a0.toNat (part.flatMap (fun e => Config.logEntryBytes e.kind.code e.ctx e.code e.detail)) [wordOfNat part.length]

/-- The context's log on an interface of its partition, the device's on interface A. -/
def execLogRead (q : Fin 64) (p : Packet) (s : State) : Out :=
  .next (if q = 0 then s.staged q p (s.copyLog q p s.fw.log) else s.onCtx q p (fun _ c => s.copyLog q p c.log))

/-! ### Identity and images (R283, R284) -/

/-- The report of R284: context none on interface A. -/
def State.report (s : State) (nonce : List Byte) (c : Option Context) : List Byte :=
  let state := match c with
    | some c => put 0 8 c.part + put 8 8 c.num + put 16 1 (bit c.debug)
    | none => 0xFFFF
  let body := fill 32 nonce ++ fill 32 Config.romDigest ++ fill 32 s.fw.configDigest ++ fill 32 s.fw.patchDigest ++
    (match c with
      | some c => fill 32 (sha256 c.objects)
      | none => List.replicate 32 0) ++ bytesOfNat 8 state ++ List.replicate (0x280 - 0xA8) 0
  body ++ fill 384 (Config.deviceSign (sha256 body))

/-- A nonce address of 0 is a nonce of zero length: the certificate is written instead (R284). -/
def State.attest (s : State) (q : Fin 64) (p : Packet) (c : Option Context) : State :=
  if p.a0 = 0 then s.hostDone q p p.a1.toNat Config.certificate []
  else match s.hostRead q p.a0.toNat 32 with
    | none => s.refuseCmd q p 3
    | some nonce => s.hostDone q p p.a1.toNat (s.report nonce c) []

def execAttest (q : Fin 64) (p : Packet) (s : State) : Out :=
  .next (if q = 0 then (if p.part = 0xFF ∧ p.ctx = 0xFF then s.attest q p none else s.refuseCmd q p 2)
    else s.onCtx q p (fun _ c => s.attest q p (some c)))

/-- Whether an image is signed and not older than one accepted since power-on (R283). -/
def imageOk (last : Option Nat) (l : List Byte) : Bool :=
  Config.imageAccepted l && (match last with
    | some v => decide (v ≤ Config.imageVersion l)
    | none => true)

/-- The last boot steps follow the first configuration image (R285): memory is trained and written whole, then every command is
accepted, and agreement 1 is formed (R231). -/
def State.finishBoot (s : State) : State :=
  if s.fw.stage ≠ 4 then s
  else if !Config.bootStep 5 then { s with fw := { s.fw with ready := false } }
  else
    let s1 : State := { s with
      hbm := [], lost := s.lost.filter (fun p => decide (p.space ≠ .hbm)), badTag := s.badTag.filter (fun p => decide (p.space ≠ .hbm)),
      fw := { s.fw with stage := 5 } }
    if !Config.bootStep 6 then { s1 with fw := { s1.fw with ready := false } }
    else
      let s2 : State := { s1 with fw := { s1.fw with stage := 6 } }
      s2.updGroup (fun g => ({ g with limit := Config.ownLimit }).agree (ceilingOf Config.ownLimit) s2.earlyAll)

/-- The shares and decoder windows that an accepted configuration image sets (R283). -/
def State.applyImage (s : State) (l : List Byte) : State :=
  let s1 := (Config.imageShares l).foldl (fun s x => s.updPart x.1 (fun p => { p with share := x.2 })) s
  (Config.imageWindows l).foldl (fun s x => s.updPart x.1 (fun p => { p with window := x.2 })) s1

def execConfig (q : Fin 64) (p : Packet) (s : State) : Out :=
  .next (if q ≠ 0 then s.refuseCmd q p 2 else match s.hostRead q p.a0.toNat p.a1.toNat with
    | none => s.refuseCmd q p 3
    | some l =>
      if !imageOk s.fw.config l then s.refuseCmd q p 4
      else
        let s1 : State := { s with fw := { s.fw with config := some (Config.imageVersion l), configDigest := sha256 l } }
        (s1.applyImage l).finishBoot.okCmd q p [])

def execPatch (q : Fin 64) (p : Packet) (s : State) : Out :=
  .next (if q ≠ 0 then s.refuseCmd q p 2 else match s.hostRead q p.a0.toNat p.a1.toNat with
    | none => s.refuseCmd q p 3
    | some l =>
      if !imageOk s.fw.patch l then s.refuseCmd q p 4
      else
        let s1 : State := { s with fw := { s.fw with
          patch := some (Config.imageVersion l), patchDigest := sha256 l, patches := s.fw.patches + 1 } }
        s1.okCmd q p [])

/-! ### Boot (R285) -/

/-- Boot steps 1 to 4, until one fails. -/
def bootTo : (fuel stage : Nat) → Nat
  | 0, stage => stage
  | fuel + 1, stage => if Config.bootStep (stage + 1) then bootTo fuel (stage + 1) else stage

/-- Power comes on: everything on the device is as `State.reset` has it, host memory stands; the Flopor die boots to stage 4 or to the
first step that fails. -/
def State.boot (s : State) : State :=
  let stage := bootTo 4 0
  { State.reset with
    host := s.host, lost := s.lost.filter (fun p => decide (p.space = .host)), now := s.now, sched := s.sched, choices := s.choices,
    fw := { Firmware.zero with stage := stage, ready := decide (stage = 4), images := s.fw.images, draws := s.fw.draws } }

def execPowerOn (s : State) : Out := .next s.boot

/-! ### Time and the group (R226, R234) -/

/-- The host sets the time base of its next exchange, which starts the clocks (R226, R280, R285). -/
def execTimeSet (q : Fin 64) (p : Packet) (s : State) : Out :=
  .next (s.onAdmin q p (
    if s.fw.timeset then s.refuseCmd q p 7
    else ({ s with fw := { s.fw with timeset := true, timeWait := some p.a0.toInt } }).okCmd q p []))

/-- The device sends JOIN, runs at the floor, and waits (R234). -/
def execGroupJoin (q : Fin 64) (p : Packet) (s : State) : Out :=
  .next (s.onAdmin q p (
    if s.group.state ≠ .out then s.refuseCmd q p 7
    else
      match s.hostRead q p.a0.toNat Config.memberTableLength with
      | none => s.refuseCmd q p 3
      | some table =>
        let s1 := s.updGroup (fun g => (({ g with
          state := .joining, joinBegan := some s.lateAll, joinStamp := none, silences := [], members := [], changes := [],
          awaiting := Config.memberTable table, joinAcks := [], heardSilents := [],
          nextLimit := none }).agree 1350 s.earlyAll).send (.join Config.deviceIdentity g.limit none))
        (s1.waitCmd q p).joinReady))

def execGroupLeave (q : Fin 64) (p : Packet) (s : State) : Out :=
  .next (s.onAdmin q p (
    if s.group.state ≠ .member then s.refuseCmd q p 7
    else s.startLeave.okCmd q p []))

/-! ### Checkpoint and restore (R286, R287) -/

/-- 64-byte sectors of the device's 768 GB. -/
def deviceSectors : Nat := 12000000000

/-- The first bytes of the sectors that a checkpoint covers, ascending. -/
def State.coveredSectors (s : State) (q : Fin 64) (part : Nat) : List Nat :=
  if q = 0 then (List.range deviceSectors).map (64 * ·)
  else match s.part part with
    | some p => (sortNat p.frames).flatMap (fun f => (List.range (2 ^ 24)).map (fun i => f * 2 ^ 30 + 64 * i))
    | none => []

/-- How many they are. -/
def State.coveredCount (s : State) (q : Fin 64) (part : Nat) : Nat :=
  if q = 0 then deviceSectors else match s.part part with
    | some p => p.frames.length * 2 ^ 24
    | none => 0

/-- Whether a context's partition is covered. -/
def State.covers (s : State) (q : Fin 64) (part ctx : Nat) : Bool := decide (q = 0) || decide (s.partOf ctx = part)

def State.coveredParts (s : State) (q : Fin 64) (part : Nat) : List Partition :=
  s.parts.filter (fun p => decide (q = 0) || decide (p.num = part))

/-- The keys of a partition (R222, R282). -/
def Partition.keys (p : Partition) : SectorKeys := keysOf (p.draw + 1)

/-- The keys of firmware-owned memory (R222). -/
def firmwareKeys : SectorKeys := keysOf 0

/-- The keys under which a sector is sealed: its partition's, or the firmware's own. -/
def State.sectorKeys (s : State) (a : Nat) : SectorKeys :=
  match s.parts.find? (fun p => p.frames.contains (a / 2 ^ 30)) with
  | some p => p.keys
  | none => firmwareKeys

/-- The save areas of the covered contexts: where each lies in HBM, and its bytes (R302; log 12). -/
def State.coveredAreas (s : State) (q : Fin 64) (part : Nat) : List (Nat × List Byte) :=
  (s.ctxs.filter (fun c => s.covers q part c.num)).map (fun c => (Config.saveAreaAt c.num, Config.saveLayout (s.areaPieces c.num)))

/-- The plain bytes of a sector: those of a save area where one lies there. -/
def State.sectorBytes (s : State) (areas : List (Nat × List Byte)) (a : Nat) : List Byte :=
  (rangeFrom a 64).map (fun x => match areas.find? (fun y => decide (y.1 ≤ x) && decide (x < y.1 + y.2.length)) with
    | some y => y.2.getD (x - y.1) 0
    | none => s.readByte ⟨.hbm, x⟩)

/-- One sector as the image carries it. A sector whose tag does not match keeps a tag that does not match; so does one that ECC has lost,
whose ciphertext nobody has any more (log 22). -/
def State.imageSector (s : State) (areas : List (Nat × List Byte)) (a : Nat) : List Byte :=
  let l := sealSector (s.sectorKeys a) a (s.sectorBytes areas a)
  if s.eccRead [⟨.hbm, a⟩] = .ok then l else spoilSector a l

/-- The image's body: every covered sector, the save areas among them. -/
def State.imageBody (s : State) (q : Fin 64) (part : Nat) : List Byte :=
  (s.coveredSectors q part).flatMap (s.imageSector (s.coveredAreas q part))

/-- The 4 KiB header (R286): the digest of the device's certificate, the sector count, and the covered partitions' wrapped keys; then the
signature over that and the body. Log 6: in this order, with the partitions as the device lists them. -/
def State.imageHeader (s : State) (q : Fin 64) (part : Nat) (body : List Byte) : List Byte :=
  let head := fill 3712 (sha256 Config.certificate ++ bytesOfNat 8 (s.coveredCount q part) ++
    (s.coveredParts q part).flatMap (fun p => p.keys.wrapped))
  head ++ fill 384 (Config.deviceSign (sha256 (head ++ body)))

/-- The sector count that a header names. -/
def headerSectors (h : List Byte) : Nat := natOfBytes ((h.drop 32).take 8)

/-- The keys that a header carries for partitions, in order; none where one does not unwrap on this device (R287). -/
def headerKeys (h : List Byte) (l : List Partition) : Option (List (Partition × SectorKeys)) :=
  (l.zipIdx).mapM (fun x => (unwrapKeys ((h.drop (40 + 112 * x.2)).take 112)).map (fun k => (x.1, k)))

/-- A yield of every covered crew is requested (R286 step 1). A request that a stage has made already stands, and is the checkpoint's from
here on: no decision withdraws it. The crews of a halted context stand still as they are (R313). -/
def State.askCovered (s : State) (q : Fin 64) (part : Nat) : State :=
  (s.crews.filter (fun k => decide (k.state = .running) && s.covers q part k.ctx && !s.ctxHalted k.ctx)).foldl
    (fun s k => if k.asked.isNone then s.requestYield k none else s.updCrew k.num (fun k => { k with asked := some none, forCheckpoint := true })) s

def State.checkpoint (s : State) (q : Fin 64) (p : Packet) : State :=
  if p.a1.toNat < 4096 + 68 * s.coveredCount q p.part then s.refuseCmd q p 3
  else (s.askCovered q p.part).waitCmd q p

def execCheckpoint (q : Fin 64) (p : Packet) (s : State) : Out :=
  .next (if q = 0 then s.staged q p (s.checkpoint q p) else s.onPart q p (fun _ => s.checkpoint q p))

/-- Whether a context has halted and its halt is posted: every record of it is written (R313). -/
def State.halted (s : State) (ctx : Nat) : Bool := match (s.ctx ctx).bind (·.halt) with
  | some h => h.posted
  | none => false

/-- Whether every covered crew is saved or has ended, or stands in a context whose halt is complete: that one's save areas are written
(R302, R313; log 22). -/
def State.coveredSaved (s : State) (q : Fin 64) (part : Nat) : Bool :=
  s.crews.all (fun k => !s.covers q part k.ctx || decide (k.state = .saved) || decide (k.state = .ended) || s.halted k.ctx)

/-- A crew as its save areas have it. -/
def State.crewImage (s : State) (k : Crew) : Crew :=
  if k.state = .saved ∨ k.state = .ended then k else { k with state := .saved, saved := k.cores.map s.saveCore, asked := none, stood := s.stoodBy k.cores }

/-- The requests of a checkpoint to crews that did not have to be saved are withdrawn with it. -/
def State.unaskCovered (s : State) (q : Fin 64) (part : Nat) : State :=
  (s.crews.filter (fun k => s.covers q part k.ctx && decide (k.asked = some none))).foldl (fun s k => s.withdrawYield k) s

/-- What the save areas in an image stand for, kept under its header: their bytes in the body have a form of the firmware's own (log 12), so
that it is here, and not from them, that a restore of the image takes the contexts and crews (log 22). -/
def State.keepImage (s : State) (q : Fin 64) (part : Nat) (head : List Byte) : State :=
  { s with fw := { s.fw with images := s.fw.images ++
      [⟨head, s.coveredParts q part, s.ctxs.filter (fun c => s.covers q part c.num),
        (s.crews.filter (fun k => s.covers q part k.ctx)).map s.crewImage⟩] } }

/-- The image is written (R286 step 2), and the command is answered. -/
def State.writeImage (s : State) (q : Fin 64) (p : Packet) : State :=
  let body := s.imageBody q p.part
  let head := s.imageHeader q p.part body
  ((s.keepImage q p.part head).unaskCovered q p.part).hostDone q p p.a0.toNat (head ++ body) []

/-- The bytes of an image. -/
def State.readImage (s : State) (q : Fin 64) (a : Nat) : Option (List Byte × List Byte) :=
  match s.hostRead q a 4096 with
  | none => none
  | some h => (s.hostRead q (a + 4096) (68 * headerSectors h)).map (fun b => (h, b))

/-- Whether the image's signature and certificate are this device's (R287): the signature is the one that the device key gives. -/
def imageIsOurs (h b : List Byte) : Bool :=
  decide (h.take 32 = sha256 Config.certificate) && decide (h.drop 3712 = fill 384 (Config.deviceSign (sha256 (h.take 3712 ++ b))))

/-- One sector of the body is written back, opened with the keys that the header carries for its partition; its tag comes back with it (R222,
R287). -/
def State.writeSector (s : State) (keys : List (Partition × SectorKeys)) (a : Nat) (sealed : List Byte) : State :=
  let k := match keys.find? (fun x => x.1.frames.contains (a / 2 ^ 30)) with
    | some x => x.2
    | none => firmwareKeys
  let t := (s.store (cellsAt ⟨.hbm, a⟩ (fill 64 (openSector k a sealed)))).2
  if tagMatches k a sealed then t else { t with badTag := t.badTag ++ [⟨.hbm, a⟩] }

/-- Every sector of the body is written back (R287). -/
def State.writeSectors (s : State) (keys : List (Partition × SectorKeys)) (b : List Byte) (l : List Nat) : State :=
  (l.zipIdx).foldl (fun s x => s.writeSector keys x.1 ((b.drop (68 * x.2)).take 68)) s

/-- Whether a partition of the image exists here with the same extents (R287). -/
def State.asItWas (s : State) (p : Partition) : Bool := match s.part p.num with
  | some x => decide (x.s2 = p.s2)
  | none => false

/-- Whether the image's partitions are those that the command covers, each with its extents (R283, R287). -/
def State.samePartitions (s : State) (q : Fin 64) (part : Nat) (m : SaveImage) : Bool :=
  m.parts.all (fun p => s.asItWas p && (decide (q = 0) || decide (p.num = part))) &&
  (s.coveredParts q part).all (fun x => m.parts.any (fun p => decide (p.num = x.num)))

/-- The numbers of the contexts that the command does not cover. -/
def State.otherNumbers (s : State) (q : Fin 64) (part : Nat) : List Nat := (s.ctxs.filter (fun x => !s.covers q part x.num)).map (·.num)

/-- The numbers that neither they nor the image's contexts have. -/
def State.spareNumbers (s : State) (q : Fin 64) (part : Nat) (m : SaveImage) : List Nat :=
  (List.range 64).filter (fun n => !(s.otherNumbers q part).contains n && !m.ctxs.any (fun c => decide (c.num = n)))

/-- The image's contexts whose number another context holds, each with the number that it takes (log 22). -/
def State.ctxMoves (s : State) (q : Fin 64) (part : Nat) (m : SaveImage) : List (Nat × Nat) :=
  ((m.ctxs.map (·.num)).filter (s.otherNumbers q part).contains).zip (s.spareNumbers q part m)

/-- Whether there is no number left for some of them: the device then holds as many contexts as it can (R282). -/
def State.numbersTaken (s : State) (q : Fin 64) (part : Nat) (m : SaveImage) : Bool :=
  decide ((s.spareNumbers q part m).length < ((m.ctxs.map (·.num)).filter (s.otherNumbers q part).contains).length)

/-- The number that a context of the image has here. -/
def State.movedCtx (s : State) (q : Fin 64) (part : Nat) (m : SaveImage) (n : Nat) : Nat :=
  match (s.ctxMoves q part m).find? (fun x => decide (x.1 = n)) with
  | some x => x.2
  | none => n

/-- The interface of a restored context: its own while its partition has it, else the lowest that the partition has (log 22). -/
def State.restoredIface (s : State) (c : Context) : Fin 64 := match s.part c.part with
  | some x => if x.ifaces.toNat.testBit c.iface.val then c.iface
    else match (maskBits 64 x.ifaces.toNat).head? with
      | some n => Fin.ofNat 64 n
      | none => c.iface
  | none => c.iface

/-- The covered contexts' host launches that wait are answered: what they name is gone (R278). -/
def State.answerCovered (s : State) (q : Fin 64) (part : Nat) : State :=
  (s.waiting.filter (fun w => s.covers q part w.ctx)).foldl (fun s w => (s.dropWaiting w.num).answerLaunch w codeIllegal 5 []) s

/-- How far the crews' numbers of an image move: not at all, unless a crew that the command does not cover holds one of them (log 22). -/
def State.crewShift (s : State) (q : Fin 64) (part : Nat) (m : SaveImage) : Nat :=
  if m.crews.any (fun k => s.crews.any (fun x => decide (x.num = k.num) && !s.covers q part x.ctx)) then s.crewNum else 0

/-- The covered contexts and crews are those of the image, the partitions have its keys: the contexts' save areas are current (R287). What ran in
them is gone, and the launch blocks that they had queued. -/
def State.restoreCrews (s : State) (q : Fin 64) (part : Nat) (m : SaveImage) : State :=
  let cores := (s.ctxs.filter (fun c => s.covers q part c.num)).flatMap (fun c => s.ctxCores c.num)
  let d := s.crewShift q part m
  let here := s.movedCtx q part m
  let s0 := s.answerCovered q part
  let s1 : State := { s0 with
    ctxs := s.ctxs.filter (fun c => !s.covers q part c.num) ++
      m.ctxs.map (fun c => { c with num := here c.num, iface := s.restoredIface c, binds := c.binds.map (fun b => (b.1, b.2 + d)) }),
    crews := s.crews.filter (fun k => !s.covers q part k.ctx) ++
      m.crews.map (fun k => { k with num := k.num + d, ctx := here k.ctx, stood := k.stood.map (fun x => (x.1 + d, x.2)) }),
    launchQ := s0.launchQ.map (fun x => (x.1, x.2.filter (fun b => !s.covers q part b.ctx))),
    crewNum := (m.crews.map (fun k => k.num + d + 1)).foldl max s0.crewNum }
  m.parts.foldl (fun s p => s.updPart p.num (fun x => { x with draw := p.draw })) (cores.foldl State.scrubCore s1)

def State.restore (s : State) (q : Fin 64) (p : Packet) : State :=
  match s.readImage q p.a0.toNat with
  | none => s.refuseCmd q p 3
  | some (h, b) =>
    if p.a1.toNat < h.length + b.length then s.refuseCmd q p 3
    else if !imageIsOurs h b then s.refuseCmd q p 4
    else match s.fw.images.reverse.find? (fun m => decide (m.header = h)) with
      | none => s.refuseCmd q p 5
      | some m =>
        if headerSectors h ≠ s.coveredCount q p.part ∨ !s.samePartitions q p.part m then s.refuseCmd q p 5
        else match headerKeys h m.parts with
          | none => s.refuseCmd q p 5
          | some keys =>
            if s.numbersTaken q p.part m then s.refuseCmd q p 6
            else ((s.writeSectors keys b (s.coveredSectors q p.part)).restoreCrews q p.part m).okCmd q p []

def execRestore (q : Fin 64) (p : Packet) (s : State) : Out :=
  .next (if q = 0 then s.staged q p (s.restore q p) else s.onPart q p (fun _ => s.restore q p))

/-! ### What waiting commands come to (R281) -/

/-- Whether nothing of a context is left that still has to halt. -/
def State.haltPosted (s : State) (ctx : Nat) : Bool := (s.ctx ctx).isNone || s.halted ctx

/-- Whether a `debug` halt of a context is over: its halt is posted, or there is none any more. -/
def State.haltOver (s : State) (ctx : Nat) : Bool := match (s.ctx ctx).bind (·.halt) with
  | some h => h.posted
  | none => true

def State.dropPending (s : State) (x : Pending) : State :=
  { s with fw := { s.fw with pending := s.fw.pending.filter (fun y => decide (y ≠ x)) } }

/-- The last part of part.destroy. -/
def State.dropPart (s : State) (n : Nat) : State :=
  let l := (s.ctxs.filter (fun c => decide (c.part = n))).map (·.num)
  let s1 := l.foldl State.dropContext s
  match s1.part n with
  | some p => let s2 := s1.scrubPart p
    { s2.writeTable n [] with parts := s2.parts.filter (fun x => decide (x.num ≠ n)) }
  | none => s1

/-- The state with the commands alone that were taken before one: that one waits for nothing taken later (R281). -/
def State.before (s : State) (x : Pending) : State :=
  { s with fw := { s.fw with pending := s.fw.pending.takeWhile (fun y => decide (y ≠ x)) } }

/-- A waiting command that has been carried out so far, once what it waits for holds. -/
def State.progressTaken (s : State) (x : Pending) : State :=
  let q := x.q
  let p := x.p
  match p.op with
  | 0x02 =>
    if (s.ctxs.filter (fun c => decide (c.part = p.part))).all (fun c => s.haltPosted c.num) then
      ((s.dropPending x).dropPart p.part).okCmd q p []
    else s
  | 0x03 => match s.part p.part, s.freeCtx with
    | none, _ => (s.dropPending x).refuseCmd q p 5
    | some y, some n => (s.dropPending x).buildCtx q p y.num n
    | some _, none => if (s.before x).someGoing then s else (s.dropPending x).refuseCmd q p 6
  | 0x04 => if s.haltPosted p.ctx then ((s.dropPending x).dropContext p.ctx).okCmd q p [] else s
  | 0x0B => if s.unmapReady p.ctx p.a0.toNat p.a1.toNat then (s.dropPending x).okCmd q p [] else s
  | 0x0C => if s.coveredSaved q p.part then (s.dropPending x).writeImage q p else s
  | 0x12 => if s.haltOver p.ctx then (s.dropPending x).okCmd q p [] else s
  | _ => s

/-! ### Carrying out a packet (R281) -/

/-- The command of a packet that a ring gave. -/
def runCommand (q : Fin 64) (p : Packet) (s : State) : Out :=
  match p.op with
  | 0x01 => execPartCreate q p s
  | 0x02 => execPartDestroy q p s
  | 0x03 => execCtxCreate q p s
  | 0x04 => execCtxDestroy q p s
  | 0x05 => execLoad q p s
  | 0x06 => execLaunch q p s
  | 0x07 => execHarness q p s
  | 0x08 => execHarnessEnd q p s
  | 0x09 => execResolve q p s
  | 0x0A => execRefuse q p s
  | 0x0B => execUnmap q p s
  | 0x0C => execCheckpoint q p s
  | 0x0D => execRestore q p s
  | 0x0E => execTimeSet q p s
  | 0x0F => execGroupJoin q p s
  | 0x10 => execGroupLeave q p s
  | 0x11 => execCollBind q p s
  | 0x12 => if p.a0 = 1 then execDebugResume q p s else if p.a0 = 2 then execDebugReadState q p s else execDebugHalt q p s
  | 0x13 => execLogRead q p s
  | 0x14 => execAttest q p s
  | 0x15 => execConfig q p s
  | 0x16 => execPatch q p s
  | _ => .next (s.refuseCmd q p 1)

/-! ### Commands that wait or are put off (R281) -/

/-- A command that was put off, once nothing before it holds it: it is carried out with what it came after. -/
def State.progressPutOff (s : State) (x : Pending) : State :=
  let after := (s.fw.pending.dropWhile (fun y => decide (y ≠ x))).drop 1
  let t := s.before x
  if t.fw.pending.any (t.comesAfter x.q x.p) then s
  else match runCommand x.q x.p t with
    | .next u => { u with fw := { u.fw with pending := u.fw.pending ++ after } }
    | _ => s

def State.progressOne (s : State) (x : Pending) : State := if x.stage = 1 then s.progressPutOff x else s.progressTaken x

/-- Every command that waits, in the order of taking. -/
def State.progress (s : State) : State := s.fw.pending.foldl State.progressOne s

end Sys2Proof.Machine
end

