-- ==== Sys2Proof/Machine/VectorMath.lean ====
section
/-!
DEFINITION. Reciprocals, CORDIC, probabilities, hash and noise (R150 to R158).
-/
namespace Sys2Proof.Machine

/-! ### Reciprocal estimates (R150) -/

/-- Rc[i]. -/
def rcTable (i : Nat) : Nat := (2 ^ 25 / (257 + 2 * i) + 1) / 2

/-- isqrt by the digits of the root, highest first. -/
def isqrtBits (x : Nat) : (bits root : Nat) → Nat
  | 0, root => root
  | b + 1, root =>
    let r := root + 2 ^ b
    isqrtBits x b (if r * r ≤ x then r else root)

/-- The largest integer whose square is at most x, for x below 2^48. -/
def isqrt (x : Nat) : Nat := isqrtBits x 24 0

/-- cs(i). -/
def csTable (i : Nat) : Nat := (129 + 2 * (i % 64)) * (if i ≥ 64 then 2 else 1)

/-- Rs[i]. -/
def rsTable (i : Nat) : Nat := (isqrt (2 ^ 41 / csTable i) + 1) / 2

/-- The sign, exponent field and fraction of a float lane. -/
def floatNeg (t : EType) (x : Nat) : Bool := decide (x / 2 ^ (fracWidth t + 8) % 2 = 1)
def floatExp (t : EType) (x : Nat) : Nat := x / 2 ^ fracWidth t % 256
def floatFrac (t : EType) (x : Nat) : Nat := x % 2 ^ fracWidth t

/-- Top n bits of the fraction. -/
def fracTop (t : EType) (n x : Nat) : Nat := floatFrac t x / 2 ^ (fracWidth t - n)

def floatInf (t : EType) (neg : Bool) : Nat := infBits (fracWidth t) neg
def floatZero (t : EType) (neg : Bool) : Nat := signBit (fracWidth t) neg

/-- `v.rcpa` of a lane. -/
def laneRcpa (t : EType) (x : Nat) : Nat × BitVec 5 :=
  let neg := floatNeg t x
  if laneNan t x then (laneCanon t, 0)
  else if floatExp t x = 255 then (floatZero t neg, 0)
  else if floatExp t x = 0 then (floatInf t neg, flagIf (decide (floatFrac t x ≠ 0)) flagDz)
  else
    let e : Int := (floatExp t x : Int) - 127
    (encodeF (fracWidth t) (.fin neg (rcTable (fracTop t 7 x)) (-16 - e)), 0)

/-- `v.rsqa` of a lane. -/
def laneRsqa (t : EType) (x : Nat) : Nat × BitVec 5 :=
  let neg := floatNeg t x
  if laneNan t x then (laneCanon t, 0)
  else if floatExp t x = 255 then (if neg then laneCanon t else 0, 0)
  else if floatExp t x = 0 then (floatInf t neg, flagIf (decide (floatFrac t x ≠ 0)) flagDz)
  else if neg then (laneCanon t, 0)
  else
    let e : Int := (floatExp t x : Int) - 127
    let q := e % 2
    (encodeF (fracWidth t) (.fin false (rsTable (64 * q.toNat + fracTop t 6 x)) (-16 - (e - q) / 2)), 0)

def execVRcpa (d a : TreeOp) (wa : Bool) (s : State) : Out :=
  s.vecLanes tyFloat s.core.vec.active d s.ty.width [(a, wa)] (lane1 (laneRcpa s.ty))

def execVRsqa (d a : TreeOp) (wa : Bool) (s : State) : Out :=
  s.vecLanes tyFloat s.core.vec.active d s.ty.width [(a, wa)] (lane1 (laneRsqa s.ty))

/-! ### Refinement (R151) -/

/-- A lane whose estimate or argument passes the estimate through: zero, infinite or subnormal. -/
def floatEdge (t : EType) (x : Nat) : Bool := decide (floatExp t x = 0) || decide (floatExp t x = 255)

/-- One value rounded to F32. -/
def roundF32 (v : FVal) : FVal := decodeF 23 (encodeF 23 v)

/-- An exact half. -/
def FVal.half : FVal → FVal
  | .fin n m e => .fin n m (e - 1)
  | v => v

/-- `v.rcpf` and `v.rsqf` of a lane: argument x, estimate y. -/
def laneRefine (root : Bool) (t : EType) (x y : Nat) : Nat :=
  let w := fracWidth t
  if laneNan t x || laneNan t y then laneCanon t
  else if floatEdge t x || floatEdge t y then y
  else
    let a := decodeF w x
    let b := decodeF w y
    let r := if root then
        let u := roundF32 (b.mul b)
        let v := roundF32 ((fvalOfInt 3).sub (a.mul u))
        (b.mul v).half
      else b.mul (roundF32 ((fvalOfInt 2).sub (a.mul b)))
    encodeF w r

def execVRcpf (d a b : TreeOp) (wa wb : Bool) (s : State) : Out := s.vec2 tyFloat d a b wa wb (laneRefine false)
def execVRsqf (d a b : TreeOp) (wa wb : Bool) (s : State) : Out := s.vec2 tyFloat d a b wa wb (laneRefine true)

/-! ### CORDIC (R152, R153) -/

inductive CorKind where
  | circular
  | hyperbolic
  | linear
  deriving DecidableEq, Repr

def wrap32 (x : Int) : Int := sextNat 32 (wrapInt 32 x)

/-- AT[i] and AH[i]. -/
def atanTable (i : Nat) : Int :=
  [843314857, 497837829, 263043837, 133525159, 67021687, 33543516, 16775851, 8388437, 4194283, 2097149, 1048576].getD i
    (2 ^ (30 - i))

def atanhTable (i : Nat) : Int :=
  [0, 589812981, 274247419, 134923406, 67196451, 33565361, 16778582, 8388779, 4194325, 2097155, 1048576].getD i (2 ^ (30 - i))

/-- The index of iteration t: the hyperbolic sequence starts at 1 and takes 4 and 13 twice. -/
def corIndex (k : CorKind) (t : Nat) : Nat := match k with
  | .hyperbolic => if t < 4 then t + 1 else if t < 14 then t else t - 1
  | _ => t

/-- One iteration on (x, y, z). -/
def corStep (k : CorKind) (rotate : Bool) (t : Nat) (p : Int × Int × Int) : Int × Int × Int :=
  let (x, y, z) := p
  let i := corIndex k t
  let d : Int := if rotate then (if z ≥ 0 then 1 else -1) else (if y < 0 then 1 else -1)
  let ys := y / 2 ^ i
  let xs := x / 2 ^ i
  match k with
  | .circular => (wrap32 (x - d * ys), wrap32 (y + d * xs), wrap32 (z - d * atanTable i))
  | .hyperbolic => (wrap32 (x + d * ys), wrap32 (y + d * xs), wrap32 (z - d * atanhTable i))
  | .linear => (x, wrap32 (y + d * xs), wrap32 (z - d * 2 ^ (30 - i)))

def cordic (k : CorKind) (rotate : Bool) (n : Nat) (p : Int × Int × Int) : Int × Int × Int :=
  (List.range n).foldl (fun p t => corStep k rotate t p) p

/-- Destinations of I32 lanes at several indices. Where the view's stride makes them overlap, R133 orders no writes: the highest index
stands (log 24). -/
def tripleOut (pd : List Placed) (cols : List (List Nat)) : VOut :=
  { dst := (pd.zip cols).map (fun x => (x.1.line, lanesBytes 4 x.2)), full := pd.flatMap Placed.all, flags := 0, post := id }

/-- `v.cor`: both operands name three indices. -/
def State.vecCordic (s : State) (d a : TreeOp) (wa : Bool) (k : CorKind) (rotate : Bool) (n : Nat) : Out :=
  let v := s.core.vec
  let ks := v.eng.k
  .next (s.issueVec (
    if !tyI32 s.ty then .stop codeIllegal
    else match s.core.placeMany ks d 3 v.span [kindVec], s.core.placeMany ks a 3 v.span [kindVec] with
      | some pd, some pa =>
        let cols := pa.map (fun p => s.core.lanes p.line 4 v.shape.lanes)
        let res := (List.range v.shape.lanes).map (fun i =>
          if v.active i then match cols.map (fun c => sextNat 32 (c.getD i 0)) with
            | [x, y, z] => (fun (r : Int × Int × Int) => [wrapInt 32 r.1, wrapInt 32 r.2.1, wrapInt 32 r.2.2])
                (cordic k rotate n (x, y, z))
            | _ => [0, 0, 0]
          else [0, 0, 0])
        s.vecRun (pa.map (fun p => ⟨p, wa⟩)) pd none
          (.ok (tripleOut pd ((List.range 3).map (fun j => res.map (fun r => r.getD j 0)))))
      | _, _ => .stop codeBounds (s.core.badUse [kindVec] (usesOf d ks 3 v.span ++ usesOf a ks 3 v.span))))

def execVCorCrot (d a : TreeOp) (wa : Bool) (n : BitVec 5) (s : State) : Out := s.vecCordic d a wa .circular true n.toNat
def execVCorCvec (d a : TreeOp) (wa : Bool) (n : BitVec 5) (s : State) : Out := s.vecCordic d a wa .circular false n.toNat
def execVCorHrot (d a : TreeOp) (wa : Bool) (n : BitVec 5) (s : State) : Out := s.vecCordic d a wa .hyperbolic true n.toNat
def execVCorHvec (d a : TreeOp) (wa : Bool) (n : BitVec 5) (s : State) : Out := s.vecCordic d a wa .hyperbolic false n.toNat
def execVCorLrot (d a : TreeOp) (wa : Bool) (n : BitVec 5) (s : State) : Out := s.vecCordic d a wa .linear true n.toNat
def execVCorLvec (d a : TreeOp) (wa : Bool) (n : BitVec 5) (s : State) : Out := s.vecCordic d a wa .linear false n.toNat

/-! ### Probabilities (R155, R156) -/

/-- T[k] for k from −16 to 16. -/
def sigTable (k : Int) : Int :=
  if k ≤ -11 then 1 else if k ≥ 11 then 65535
  else [3, 8, 22, 60, 162, 439, 1179, 3108, 7812, 17625, 32768, 47911, 57724, 62428, 64357, 65097, 65374, 65476, 65514, 65528,
    65533].getD (k + 10).toNat 0

/-- `v.sigq` of a logit. -/
def laneSigq (a : Nat) : Nat :=
  let x := max (-4096) (min 4096 (sextNat 32 a))
  let k := x / 256
  let f := x % 256
  (if k = 16 then sigTable 16 else sigTable k + ((sigTable (k + 1) - sigTable k) * f + 128) / 256).toNat

def execVSigq (d a : TreeOp) (wa : Bool) (s : State) : Out := s.vec1 tyI32 d a wa (fun _ x => laneSigq x)

/-- The leading scores that are not negative. -/
def leadingScores : List Int → List Nat
  | [] => []
  | x :: t => if x < 0 then [] else x.toNat :: leadingScores t

/-- Frequencies of the symbols: at least 1 each, in all 2^16; the remainder goes to the lowest largest score. -/
def scoreFreqs (l : List Nat) : List Nat :=
  let n := l.length
  let tot := l.foldl (· + ·) 0
  let fr := l.map (fun x => 1 + (if tot = 0 then (65536 - n) / n else x * (65536 - n) / tot))
  let top := l.foldl max 0
  let j := l.findIdx (fun x => decide (x = top))
  fr.set j (fr.getD j 0 + (65536 - fr.foldl (· + ·) 0))

/-- Running sums of frequencies, one for each of 16 symbols; 65,536 after the last. -/
def cumulate : (fuel acc : Nat) → List Nat → List Nat
  | 0, _, _ => []
  | n + 1, acc, [] => acc :: cumulate n acc []
  | n + 1, acc, x :: t => acc :: cumulate n (acc + x) t

/-- The cumulative table of a stream's scores. -/
def cdfTable (scores : List Int) : List Nat :=
  let l := leadingScores scores
  if l.length ≤ 1 then 0 :: List.replicate 15 65536 else cumulate 16 0 (scoreFreqs l)

def execVCdfq (d a : TreeOp) (wa : Bool) (s : State) : Out :=
  let v := s.core.vec
  let ks := v.eng.k
  .next (s.issueVec (
    if !tyI32 s.ty then .stop codeIllegal
    else match s.core.placeMany ks d 16 v.span [kindVec], s.core.placeMany ks a 16 v.span [kindVec] with
      | some pd, some pa =>
        let cols := pa.map (fun p => s.core.lanes p.line 4 v.shape.lanes)
        let res := (List.range v.shape.lanes).map (fun i =>
          if v.active i then cdfTable (cols.map (fun c => sextNat 32 (c.getD i 0))) else List.replicate 16 0)
        s.vecRun (pa.map (fun p => ⟨p, wa⟩)) pd none
          (.ok (tripleOut pd ((List.range 16).map (fun j => res.map (fun r => r.getD j 0)))))
      | _, _ => .stop codeBounds (s.core.badUse [kindVec] (usesOf d ks 16 v.span ++ usesOf a ks 16 v.span))))

/-! ### Hash and noise (R157, R158) -/

def hashC : List Nat := [0x9E3779B9, 0x7F4A7C15, 0xD1B54A33, 0x5851F42D]
def hashM : List Nat := [0x2C1B3C6D, 0x297A2D39, 0x85EBCA77, 0xC2B2AE3D]

def rotl32 (x n : Nat) : Nat := (x * 2 ^ n + x / 2 ^ (32 - n)) % 2 ^ 32

/-- One round of the keyed hash. -/
def hashRound (key r h : Nat) : Nat :=
  let h1 := (h + (rotl32 key (8 * r) ^^^ hashC.getD r 0)) % 2 ^ 32
  let h2 := h1 ^^^ (h1 / 2 ^ 15)
  h2 * hashM.getD r 0 % 2 ^ 32

def keyedHash (a key : Nat) : Nat :=
  let h := [0, 1, 2, 3].foldl (fun h r => hashRound key r h) a
  h ^^^ (h / 2 ^ 16)

def execVHash (d a b : TreeOp) (wa wb : Bool) (s : State) : Out := s.vec2 tyWord d a b wa wb (fun _ x y => keyedHash x y)

/-- The z result of `v.cor.hvec` at n = 24 on (x, y, 0). -/
def hvec24 (x y : Int) : Int := (cordic .hyperbolic false 24 (x, y, 0)).2.2

def ln2Q30 : Int := 744261118

/-- Bit length of a number. -/
def bitLength (x : Nat) : Nat := if x = 0 then 0 else Nat.log2 x + 1

/-- `v.noise` of a lane: Gumbel noise as F32. -/
def laneNoise (a key : Nat) : Nat :=
  let wu := 2 * (keyedHash a key / 2 ^ 8) + 1
  let cz := clzNat 32 wu
  let m1 : Int := (wu * 2 ^ (cz - 2) : Nat)
  let z1 := hvec24 (m1 + 2 ^ 30) (m1 - 2 ^ 30)
  let v := max 1 (((cz : Int) - 7) * ln2Q30 - 2 * z1)
  let nb := bitLength v.toNat
  let m2 : Int := (if nb ≤ 30 then v.toNat * 2 ^ (30 - nb) else v.toNat / 2 ^ (nb - 30) : Nat)
  let z2 := hvec24 (m2 + 2 ^ 30) (m2 - 2 ^ 30)
  let g := -(2 * z2 + ((nb : Int) - 30) * ln2Q30)
  encodeF 23 (.fin (decide (g < 0)) g.natAbs (-30))

def execVNoise (d a b : TreeOp) (wa wb : Bool) (s : State) : Out := s.vec2 tyF32 d a b wa wb (fun _ x y => laneNoise x y)

end Sys2Proof.Machine
end

