-- ==== Sys2Proof/Machine/Dispatch.lean ====
section
/-!
DEFINITION. Which meaning each instruction and step has.
-/
namespace Sys2Proof.Machine

def exec (i : Instr) (s : State) : Host.Outcome State Fault Refusal :=
  match i with
  | .add rd ra rb => Sys2Proof.Machine.execAdd rd ra rb s
  | .sub rd ra rb => Sys2Proof.Machine.execSub rd ra rb s
  | .and rd ra rb => Sys2Proof.Machine.execAnd rd ra rb s
  | .or rd ra rb => Sys2Proof.Machine.execOr rd ra rb s
  | .xor rd ra rb => Sys2Proof.Machine.execXor rd ra rb s
  | .shl rd ra rb => Sys2Proof.Machine.execShl rd ra rb s
  | .shr rd ra rb => Sys2Proof.Machine.execShr rd ra rb s
  | .sar rd ra rb => Sys2Proof.Machine.execSar rd ra rb s
  | .slt rd ra rb => Sys2Proof.Machine.execSlt rd ra rb s
  | .sltn rd ra rb => Sys2Proof.Machine.execSltn rd ra rb s
  | .min rd ra rb => Sys2Proof.Machine.execMin rd ra rb s
  | .max rd ra rb => Sys2Proof.Machine.execMax rd ra rb s
  | .minn rd ra rb => Sys2Proof.Machine.execMinn rd ra rb s
  | .maxn rd ra rb => Sys2Proof.Machine.execMaxn rd ra rb s
  | .mul rd ra rb => Sys2Proof.Machine.execMul rd ra rb s
  | .mulh rd ra rb => Sys2Proof.Machine.execMulh rd ra rb s
  | .mulhn rd ra rb => Sys2Proof.Machine.execMulhn rd ra rb s
  | .div rd ra rb => Sys2Proof.Machine.execDiv rd ra rb s
  | .divn rd ra rb => Sys2Proof.Machine.execDivn rd ra rb s
  | .rem rd ra rb => Sys2Proof.Machine.execRem rd ra rb s
  | .remn rd ra rb => Sys2Proof.Machine.execRemn rd ra rb s
  | .clz rd ra => Sys2Proof.Machine.execClz rd ra s
  | .popc rd ra => Sys2Proof.Machine.execPopc rd ra s
  | .addi rd ra imm => Sys2Proof.Machine.execAddi rd ra imm s
  | .andi rd ra imm => Sys2Proof.Machine.execAndi rd ra imm s
  | .ori rd ra imm => Sys2Proof.Machine.execOri rd ra imm s
  | .xori rd ra imm => Sys2Proof.Machine.execXori rd ra imm s
  | .shli rd ra n => Sys2Proof.Machine.execShli rd ra n s
  | .shri rd ra n => Sys2Proof.Machine.execShri rd ra n s
  | .sari rd ra n => Sys2Proof.Machine.execSari rd ra n s
  | .slti rd ra imm => Sys2Proof.Machine.execSlti rd ra imm s
  | .movi rd imm => Sys2Proof.Machine.execMovi rd imm s
  | .movk rd p imm => Sys2Proof.Machine.execMovk rd p imm s
  | .beq ra rb off => Sys2Proof.Machine.execBeq ra rb off s
  | .bne ra rb off => Sys2Proof.Machine.execBne ra rb off s
  | .blt ra rb off => Sys2Proof.Machine.execBlt ra rb off s
  | .bge ra rb off => Sys2Proof.Machine.execBge ra rb off s
  | .bltn ra rb off => Sys2Proof.Machine.execBltn ra rb off s
  | .bgen ra rb off => Sys2Proof.Machine.execBgen ra rb off s
  | .jal rd off => Sys2Proof.Machine.execJal rd off s
  | .jalr rd ra imm => Sys2Proof.Machine.execJalr rd ra imm s
  | .ldB rd ra imm => Sys2Proof.Machine.execLdB rd ra imm s
  | .ldBs rd ra imm => Sys2Proof.Machine.execLdBs rd ra imm s
  | .ldH rd ra imm => Sys2Proof.Machine.execLdH rd ra imm s
  | .ldHs rd ra imm => Sys2Proof.Machine.execLdHs rd ra imm s
  | .ldW rd ra imm => Sys2Proof.Machine.execLdW rd ra imm s
  | .ldWs rd ra imm => Sys2Proof.Machine.execLdWs rd ra imm s
  | .ldD rd ra imm => Sys2Proof.Machine.execLdD rd ra imm s
  | .stB rd ra imm => Sys2Proof.Machine.execStB rd ra imm s
  | .stH rd ra imm => Sys2Proof.Machine.execStH rd ra imm s
  | .stW rd ra imm => Sys2Proof.Machine.execStW rd ra imm s
  | .stD rd ra imm => Sys2Proof.Machine.execStD rd ra imm s
  | .atomAdd rd ra rb size scope => Sys2Proof.Machine.execAtomAdd rd ra rb size scope s
  | .atomSwap rd ra rb size scope => Sys2Proof.Machine.execAtomSwap rd ra rb size scope s
  | .atomCas rd ra rb size scope => Sys2Proof.Machine.execAtomCas rd ra rb size scope s
  | .atomMin rd ra rb size scope => Sys2Proof.Machine.execAtomMin rd ra rb size scope s
  | .atomMax rd ra rb size scope => Sys2Proof.Machine.execAtomMax rd ra rb size scope s
  | .atomOr rd ra rb size scope => Sys2Proof.Machine.execAtomOr rd ra rb size scope s
  | .atomAnd rd ra rb size scope => Sys2Proof.Machine.execAtomAnd rd ra rb size scope s
  | .mark paths => Sys2Proof.Machine.execMark paths s
  | .fence pa pb scope => Sys2Proof.Machine.execFence pa pb scope s
  | .hndBind rd ra h => Sys2Proof.Machine.execHndBind rd ra h s
  | .hndFree h => Sys2Proof.Machine.execHndFree h s
  | .hndStat rd h => Sys2Proof.Machine.execHndStat rd h s
  | .engStart e entry => Sys2Proof.Machine.execEngStart e entry s
  | .engStop e => Sys2Proof.Machine.execEngStop e s
  | .engStat rd e => Sys2Proof.Machine.execEngStat rd e s
  | .engJoin e => Sys2Proof.Machine.execEngJoin e s
  | .swArm rd ra h => Sys2Proof.Machine.execSwArm rd ra h s
  | .swWait rd ra h => Sys2Proof.Machine.execSwWait rd ra h s
  | .swReadTarget rd ra h => Sys2Proof.Machine.execSwReadTarget rd ra h s
  | .swReadCount rd ra h => Sys2Proof.Machine.execSwReadCount rd ra h s
  | .swReadGen rd ra h => Sys2Proof.Machine.execSwReadGen rd ra h s
  | .swReadCode rd ra h => Sys2Proof.Machine.execSwReadCode rd ra h s
  | .crewBar => Sys2Proof.Machine.execCrewBar s
  | .wqPush ra rb => Sys2Proof.Machine.execWqPush ra rb s
  | .viewSet v ra => Sys2Proof.Machine.execViewSet v ra s
  | .mendOpen => Sys2Proof.Machine.execMendOpen s
  | .mendSave rd ra h => Sys2Proof.Machine.execMendSave rd ra h s
  | .mendClose => Sys2Proof.Machine.execMendClose s
  | .cinchOpen scope => Sys2Proof.Machine.execCinchOpen scope s
  | .cinchClose => Sys2Proof.Machine.execCinchClose s
  | .cinchDrop => Sys2Proof.Machine.execCinchDrop s
  | .clkRead rd rb => Sys2Proof.Machine.execClkRead rd rb s
  | .clkWait ra => Sys2Proof.Machine.execClkWait ra s
  | .stStamp rd ra rb scope => Sys2Proof.Machine.execStStamp rd ra rb scope s
  | .ldAsof rd ra rb scope => Sys2Proof.Machine.execLdAsof rd ra rb scope s
  | .bilClaim rd ra h => Sys2Proof.Machine.execBilClaim rd ra h s
  | .bilAdv rd ra h => Sys2Proof.Machine.execBilAdv rd ra h s
  | .bilPost rd ra h => Sys2Proof.Machine.execBilPost rd ra h s
  | .yield => Sys2Proof.Machine.execYield s
  | .csrRead rd csr => Sys2Proof.Machine.execCsrRead rd csr s
  | .csrWrite ra csr => Sys2Proof.Machine.execCsrWrite ra csr s
  | .csrSwap rd ra csr => Sys2Proof.Machine.execCsrSwap rd ra csr s
  | .trap imm => Sys2Proof.Machine.execTrap imm s
  | .tret => Sys2Proof.Machine.execTret s
  | .injStrike st imm => Sys2Proof.Machine.execInjStrike st imm s
  | .nop => Sys2Proof.Machine.execNop s
  | .endProg => Sys2Proof.Machine.execEndProg s
  | .vAdd d a b wa wb => Sys2Proof.Machine.execVAdd d a b wa wb s
  | .vSub d a b wa wb => Sys2Proof.Machine.execVSub d a b wa wb s
  | .vMul d a b wa wb => Sys2Proof.Machine.execVMul d a b wa wb s
  | .vFma d a b wa wb => Sys2Proof.Machine.execVFma d a b wa wb s
  | .vMin d a b wa wb => Sys2Proof.Machine.execVMin d a b wa wb s
  | .vMax d a b wa wb => Sys2Proof.Machine.execVMax d a b wa wb s
  | .vAbs d a wa => Sys2Proof.Machine.execVAbs d a wa s
  | .vNeg d a wa => Sys2Proof.Machine.execVNeg d a wa s
  | .vAnd d a b wa wb => Sys2Proof.Machine.execVAnd d a b wa wb s
  | .vOr d a b wa wb => Sys2Proof.Machine.execVOr d a b wa wb s
  | .vXor d a b wa wb => Sys2Proof.Machine.execVXor d a b wa wb s
  | .vShl d a b wa wb => Sys2Proof.Machine.execVShl d a b wa wb s
  | .vShr d a b wa wb => Sys2Proof.Machine.execVShr d a b wa wb s
  | .vSar d a b wa wb => Sys2Proof.Machine.execVSar d a b wa wb s
  | .vCmpeq n a b wa wb => Sys2Proof.Machine.execVCmpeq n a b wa wb s
  | .vCmplt n a b wa wb => Sys2Proof.Machine.execVCmplt n a b wa wb s
  | .vCmple n a b wa wb => Sys2Proof.Machine.execVCmple n a b wa wb s
  | .vSel d a b wa wb => Sys2Proof.Machine.execVSel d a b wa wb s
  | .vCvt d a t wa => Sys2Proof.Machine.execVCvt d a t wa s
  | .vAddi d a wa imm => Sys2Proof.Machine.execVAddi d a wa imm s
  | .vMuli d a wa imm => Sys2Proof.Machine.execVMuli d a wa imm s
  | .vMovi d imm => Sys2Proof.Machine.execVMovi d imm s
  | .vBcast d a wa imm => Sys2Proof.Machine.execVBcast d a wa imm s
  | .vPerm d a b wa wb => Sys2Proof.Machine.execVPerm d a b wa wb s
  | .vRedsum d a wa => Sys2Proof.Machine.execVRedsum d a wa s
  | .vRedmax d a wa => Sys2Proof.Machine.execVRedmax d a wa s
  | .vRedmin d a wa => Sys2Proof.Machine.execVRedmin d a wa s
  | .vArgmax d a wa => Sys2Proof.Machine.execVArgmax d a wa s
  | .vLd d h j => Sys2Proof.Machine.execVLd d h j s
  | .vSt d h j wa => Sys2Proof.Machine.execVSt d h j wa s
  | .vGather d a h wa => Sys2Proof.Machine.execVGather d a h wa s
  | .vScatter d a h wa wb => Sys2Proof.Machine.execVScatter d a h wa wb s
  | .vRcpa d a wa => Sys2Proof.Machine.execVRcpa d a wa s
  | .vRsqa d a wa => Sys2Proof.Machine.execVRsqa d a wa s
  | .vRcpf d a b wa wb => Sys2Proof.Machine.execVRcpf d a b wa wb s
  | .vRsqf d a b wa wb => Sys2Proof.Machine.execVRsqf d a b wa wb s
  | .vCorCrot d a wa n => Sys2Proof.Machine.execVCorCrot d a wa n s
  | .vCorCvec d a wa n => Sys2Proof.Machine.execVCorCvec d a wa n s
  | .vCorHrot d a wa n => Sys2Proof.Machine.execVCorHrot d a wa n s
  | .vCorHvec d a wa n => Sys2Proof.Machine.execVCorHvec d a wa n s
  | .vCorLrot d a wa n => Sys2Proof.Machine.execVCorLrot d a wa n s
  | .vCorLvec d a wa n => Sys2Proof.Machine.execVCorLvec d a wa n s
  | .vSigq d a wa => Sys2Proof.Machine.execVSigq d a wa s
  | .vCdfq d a wa => Sys2Proof.Machine.execVCdfq d a wa s
  | .vHash d a b wa wb => Sys2Proof.Machine.execVHash d a b wa wb s
  | .vNoise d a b wa wb => Sys2Proof.Machine.execVNoise d a b wa wb s
  | .vBitt d a wa imm => Sys2Proof.Machine.execVBitt d a wa imm s
  | .vClz d a wa => Sys2Proof.Machine.execVClz d a wa s
  | .vPopc d a wa => Sys2Proof.Machine.execVPopc d a wa s
  | .vShape t lanes => Sys2Proof.Machine.execVShape t lanes s
  | .vShapeMasked n t lanes => Sys2Proof.Machine.execVShapeMasked n t lanes s
  | .vMaskAnd d a b => Sys2Proof.Machine.execVMaskAnd d a b s
  | .vMaskOr d a b => Sys2Proof.Machine.execVMaskOr d a b s
  | .vMaskXor d a b => Sys2Proof.Machine.execVMaskXor d a b s
  | .vMaskAndn d a b => Sys2Proof.Machine.execVMaskAndn d a b s
  | .vMaskNot d a => Sys2Proof.Machine.execVMaskNot d a s
  | .vMaskSet d => Sys2Proof.Machine.execVMaskSet d s
  | .vMaskClear d => Sys2Proof.Machine.execVMaskClear d s
  | .vLoop k n => Sys2Proof.Machine.execVLoop k n s
  | .vBr k off => Sys2Proof.Machine.execVBr k off s
  | .vKop k v => Sys2Proof.Machine.execVKop k v s
  | .vKopAdd k v => Sys2Proof.Machine.execVKopAdd k v s
  | .vKopMov k ix => Sys2Proof.Machine.execVKopMov k ix s
  | .vMendOpen => Sys2Proof.Machine.execVMendOpen s
  | .vMendSave k n => Sys2Proof.Machine.execVMendSave k n s
  | .vMendClose => Sys2Proof.Machine.execVMendClose s
  | .vEnd => Sys2Proof.Machine.execVEnd s
  | .rcInitDec c h => Sys2Proof.Machine.execRcInitDec c h s
  | .rcInitEnc c h => Sys2Proof.Machine.execRcInitEnc c h s
  | .rcDec c a b wa => Sys2Proof.Machine.execRcDec c a b wa s
  | .rcDecm c a b wa => Sys2Proof.Machine.execRcDecm c a b wa s
  | .rcEnc c a b wa wb => Sys2Proof.Machine.execRcEnc c a b wa wb s
  | .rcEncm c a b wa wb => Sys2Proof.Machine.execRcEncm c a b wa wb s
  | .rcFlush c => Sys2Proof.Machine.execRcFlush c s
  | .rcSpec c => Sys2Proof.Machine.execRcSpec c s
  | .rcKeep c => Sys2Proof.Machine.execRcKeep c s
  | .rcUndo c => Sys2Proof.Machine.execRcUndo c s
  | .rcStat c b => Sys2Proof.Machine.execRcStat c b s
  | .vMark => Sys2Proof.Machine.execVMark s
  | .mBegin mode n => Sys2Proof.Machine.execMBegin mode n s
  | .mZero => Sys2Proof.Machine.execMZero s
  | .mLdacc t w => Sys2Proof.Machine.execMLdacc t w s
  | .mAcc t row w => Sys2Proof.Machine.execMAcc t row w s
  | .mAcc8 t row planes w => Sys2Proof.Machine.execMAcc8 t row planes w s
  | .mAccsTern t row w => Sys2Proof.Machine.execMAccsTern t row w s
  | .mAccsInt8 t row planes w => Sys2Proof.Machine.execMAccsInt8 t row planes w s
  | .mSeg t w => Sys2Proof.Machine.execMSeg t w s
  | .mScale a b w => Sys2Proof.Machine.execMScale a b w s
  | .mRetF32 t => Sys2Proof.Machine.execMRetF32 t s
  | .mRetBf16 t => Sys2Proof.Machine.execMRetBf16 t s
  | .mRetF32Add t => Sys2Proof.Machine.execMRetF32Add t s
  | .mRetraw t => Sys2Proof.Machine.execMRetraw t s
  | .mWbase row => Sys2Proof.Machine.execMWbase row s
  | .mLoop k n => Sys2Proof.Machine.execMLoop k n s
  | .mBr k off => Sys2Proof.Machine.execMBr k off s
  | .mKop k v => Sys2Proof.Machine.execMKop k v s
  | .mKopAdd k v => Sys2Proof.Machine.execMKopAdd k v s
  | .mKopMov k ix => Sys2Proof.Machine.execMKopMov k ix s
  | .mPert row col j => Sys2Proof.Machine.execMPert row col j s
  | .mEnd => Sys2Proof.Machine.execMEnd s
  | .xCopy d src l => Sys2Proof.Machine.execXCopy d src l s
  | .xShapeImm f v => Sys2Proof.Machine.execXShapeImm f v s
  | .xShapeReg f j => Sys2Proof.Machine.execXShapeReg f j s
  | .xUnfold d src n => Sys2Proof.Machine.execXUnfold d src n s
  | .xWinImm f v => Sys2Proof.Machine.execXWinImm f v s
  | .xWinReg f j => Sys2Proof.Machine.execXWinReg f j s
  | .xUnpackT5p d src l => Sys2Proof.Machine.execXUnpackT5p d src l s
  | .xUnpackBsi8 d src l => Sys2Proof.Machine.execXUnpackBsi8 d src l s
  | .xUnpackSp24 d src l => Sys2Proof.Machine.execXUnpackSp24 d src l s
  | .xUnpackZrun d src l => Sys2Proof.Machine.execXUnpackZrun d src l s
  | .xConv d src l => Sys2Proof.Machine.execXConv d src l s
  | .xMcast d src l => Sys2Proof.Machine.execXMcast d src l s
  | .xGather d src l ix => Sys2Proof.Machine.execXGather d src l ix s
  | .xScatter d src l ix => Sys2Proof.Machine.execXScatter d src l ix s
  | .xFill d l v => Sys2Proof.Machine.execXFill d l v s
  | .xWbfill row src l => Sys2Proof.Machine.execXWbfill row src l s
  | .xSync h j => Sys2Proof.Machine.execXSync h j s
  | .xSyncDetach => Sys2Proof.Machine.execXSyncDetach s
  | .xClose => Sys2Proof.Machine.execXClose s
  | .xWait n => Sys2Proof.Machine.execXWait n s
  | .xCollSumI32 scope e l ix => Sys2Proof.Machine.execXCollSumI32 scope e l ix s
  | .xCollSumF32 scope e l ix => Sys2Proof.Machine.execXCollSumF32 scope e l ix s
  | .xCollBcast scope e l ix => Sys2Proof.Machine.execXCollBcast scope e l ix s
  | .xCollArgmax scope e l ix => Sys2Proof.Machine.execXCollArgmax scope e l ix s
  | .xLoop k n => Sys2Proof.Machine.execXLoop k n s
  | .xBr k off => Sys2Proof.Machine.execXBr k off s
  | .xKop k v => Sys2Proof.Machine.execXKop k v s
  | .xKopAdd k v => Sys2Proof.Machine.execXKopAdd k v s
  | .xKopMov k ix => Sys2Proof.Machine.execXKopMov k ix s
  | .xMendOpen => Sys2Proof.Machine.execXMendOpen s
  | .xMendSave k n => Sys2Proof.Machine.execXMendSave k n s
  | .xMendClose => Sys2Proof.Machine.execXMendClose s
  | .xMark => Sys2Proof.Machine.execXMark s
  | .xEnd => Sys2Proof.Machine.execXEnd s
  | .waitSatisfied core st => Sys2Proof.Machine.execWaitSatisfied core st s
  | .stopBoundaryReached core e => Sys2Proof.Machine.execStopBoundaryReached core e s
  | .trapEntry core => Sys2Proof.Machine.execTrapEntry core s
  | .haltComplete ctx => Sys2Proof.Machine.execHaltComplete ctx s
  | .loadReturn core => Sys2Proof.Machine.execLoadReturn core s
  | .storePerformed core => Sys2Proof.Machine.execStorePerformed core s
  | .stampedStorePerformed core => Sys2Proof.Machine.execStampedStorePerformed core s
  | .fenceComplete core n => Sys2Proof.Machine.execFenceComplete core n s
  | .walkComplete core n => Sys2Proof.Machine.execWalkComplete core n s
  | .vectorLoadLand core => Sys2Proof.Machine.execVectorLoadLand core s
  | .vpAccessPerformed core => Sys2Proof.Machine.execVpAccessPerformed core s
  | .transferBlockIssue core => Sys2Proof.Machine.execTransferBlockIssue core s
  | .transferBlockLand core n => Sys2Proof.Machine.execTransferBlockLand core n s
  | .collectiveResult core op remote => Sys2Proof.Machine.execCollectiveResult core op remote s
  | .holdingSlotRelease core => Sys2Proof.Machine.execHoldingSlotRelease core s
  | .mendRelease core st => Sys2Proof.Machine.execMendRelease core st s
  | .softErrorStrike part => Sys2Proof.Machine.execSoftErrorStrike part s
  | .strikeReport core => Sys2Proof.Machine.execStrikeReport core s
  | .injectedStrikeDue core st => Sys2Proof.Machine.execInjectedStrikeDue core st s
  | .crewPlacement n cores => Sys2Proof.Machine.execCrewPlacement n cores s
  | .launchBlockTaken core cores => Sys2Proof.Machine.execLaunchBlockTaken core cores s
  | .schedulerDecision ctx cores withdraw => Sys2Proof.Machine.execSchedulerDecision ctx cores withdraw s
  | .schedulerScanRow ctx => Sys2Proof.Machine.execSchedulerScanRow ctx s
  | .ydlExpiry crew => Sys2Proof.Machine.execYdlExpiry crew s
  | .crewSave crew => Sys2Proof.Machine.execCrewSave crew s
  | .crewResume crew => Sys2Proof.Machine.execCrewResume crew s
  | .budgetWindow core budget => Sys2Proof.Machine.execBudgetWindow core budget s
  | .ptmExchange lo hi => Sys2Proof.Machine.execPtmExchange lo hi s
  | .dieTimeWord die lo hi => Sys2Proof.Machine.execDieTimeWord die lo hi s
  | .timeframeSend => Sys2Proof.Machine.execTimeframeSend s
  | .timeframe f lo hi => Sys2Proof.Machine.execTimeframe f lo hi s
  | .heartbeat member agreement limit => Sys2Proof.Machine.execHeartbeat member agreement limit s
  | .limit member limit stamp => Sys2Proof.Machine.execLimit member limit stamp s
  | .ack member what => Sys2Proof.Machine.execAck member what s
  | .join device joiner => Sys2Proof.Machine.execJoin device joiner s
  | .leave member stamp => Sys2Proof.Machine.execLeave member stamp s
  | .silent sender member stamp agreement => Sys2Proof.Machine.execSilent sender member stamp agreement s
  | .confirm sender member => Sys2Proof.Machine.execConfirm sender member s
  | .limitForecast limit => Sys2Proof.Machine.execLimitForecast limit s
  | .limitAckTimeout => Sys2Proof.Machine.execLimitAckTimeout s
  | .limitStampPassed => Sys2Proof.Machine.execLimitStampPassed s
  | .rampStep => Sys2Proof.Machine.execRampStep s
  | .joinAckTimeout => Sys2Proof.Machine.execJoinAckTimeout s
  | .joinStampPassed => Sys2Proof.Machine.execJoinStampPassed s
  | .leaveStampPassed => Sys2Proof.Machine.execLeaveStampPassed s
  | .silenceDetected member => Sys2Proof.Machine.execSilenceDetected member s
  | .fabricPortsDown => Sys2Proof.Machine.execFabricPortsDown s
  | .hostCxlMemAccess a => Sys2Proof.Machine.execHostCxlMemAccess a s
  | .notifyWrite q n => Sys2Proof.Machine.execNotifyWrite q n s
  | .interfaceEnable q v => Sys2Proof.Machine.execInterfaceEnable q v s
  | .bar0RegisterWrite off v => Sys2Proof.Machine.execBar0RegisterWrite off v s
  | .partCreate q p => Sys2Proof.Machine.execPartCreate q p s
  | .partDestroy q p => Sys2Proof.Machine.execPartDestroy q p s
  | .ctxCreate q p => Sys2Proof.Machine.execCtxCreate q p s
  | .ctxDestroy q p => Sys2Proof.Machine.execCtxDestroy q p s
  | .load q p => Sys2Proof.Machine.execLoad q p s
  | .launch q p => Sys2Proof.Machine.execLaunch q p s
  | .harness q p => Sys2Proof.Machine.execHarness q p s
  | .harnessEnd q p => Sys2Proof.Machine.execHarnessEnd q p s
  | .resolve q p => Sys2Proof.Machine.execResolve q p s
  | .refuse q p => Sys2Proof.Machine.execRefuse q p s
  | .unmap q p => Sys2Proof.Machine.execUnmap q p s
  | .checkpoint q p => Sys2Proof.Machine.execCheckpoint q p s
  | .restore q p => Sys2Proof.Machine.execRestore q p s
  | .timeSet q p => Sys2Proof.Machine.execTimeSet q p s
  | .groupJoin q p => Sys2Proof.Machine.execGroupJoin q p s
  | .groupLeave q p => Sys2Proof.Machine.execGroupLeave q p s
  | .collBind q p => Sys2Proof.Machine.execCollBind q p s
  | .debugHalt q p => Sys2Proof.Machine.execDebugHalt q p s
  | .debugResume q p => Sys2Proof.Machine.execDebugResume q p s
  | .debugReadState q p => Sys2Proof.Machine.execDebugReadState q p s
  | .logRead q p => Sys2Proof.Machine.execLogRead q p s
  | .attest q p => Sys2Proof.Machine.execAttest q p s
  | .config q p => Sys2Proof.Machine.execConfig q p s
  | .patch q p => Sys2Proof.Machine.execPatch q p s
  | .powerOn => Sys2Proof.Machine.execPowerOn s
  | .dieOver105c die budget => Sys2Proof.Machine.execDieOver105c die budget s
  | .dieOver115c die => Sys2Proof.Machine.execDieOver115c die s
  | .engineParityError core e => Sys2Proof.Machine.execEngineParityError core e s
  | .innerClose core st => Sys2Proof.Machine.execInnerClose core st s
  | .droppedFlit port => Sys2Proof.Machine.execDroppedFlit port s
  | .fabricPortLinkChange port up => Sys2Proof.Machine.execFabricPortLinkChange port up s

end Sys2Proof.Machine
end

