-- ==== Sys2Proof/Machine/Early.lean ====
section
/-!
DEFINITION. Parts of an access that are made before the rest of it, which R316 leaves free where no rule orders them: source bytes of a
transfer's next block, a weight-buffer row of the k-step at issue (R127), the result of a collective whose blocks land later (R185).
-/
namespace Sys2Proof.Machine

def State.early (s : State) (core : Nat) (what : Early) : State :=
  s.onCore core (fun s => match what with
    | .source a n => s.sourceEarly a n
    | .row r => match s.standing .mat with
      | some i => s.readRow i r
      | none => s
    | .result op remote => s.collEvent true op remote)

end Sys2Proof.Machine
end

