-- ==== Sys2Proof/Machine/Settle.lean ====
section
/-!
DEFINITION. What follows of itself after an instruction or event: bindings that nothing uses any more are released or revoked (R90,
R91), the focused core's crew ends with its last core (R25), waiting commands go on (R281).
-/
namespace Sys2Proof.Machine

/-- What the block to come has read before a fence that holds it was issued is read anew after the fence (R244). -/
def Core.dropReads (c : Core) : Core := match c.xfer.cur with
  | some o => if c.holdsNew o.kind.path then c.updXfer (fun x => { x with cur := some o.forget }) else c
  | none => c

/-- A command that goes on acts as a command does at its turn: after it no stream acts in this cycle any more (R320: log 1). -/
def State.settle (s : State) : State :=
  let s1 := (s.upd (fun c => c.release.dropReads)).finishRevokes
  let s2 := (match s1.core.seat with
    | some x => s1.finishCrew x.crew
    | none => s1).progress
  if s2.fw.pending = s1.fw.pending then s2 else { s2 with phase := max s2.phase 3 }

end Sys2Proof.Machine
end

