-- ==== Sys2Proof/Machine/Step.lean ====
section
/-!
DEFINITION. One step of the machine: the turn at the head of the schedule (Turn.lean), the instruction or event it runs
(Dispatch.lean) or the part of an access that it makes (Early.lean), and what follows of itself (Settle.lean).
-/
namespace Sys2Proof.Machine

def step (s : State) : Host.Outcome State Fault Refusal :=
  match s.takeTurn with
  | .idle t => .next t.settle
  | .early n w t => .next (t.early n w).settle
  | .noCore => .fault .noSuchCore
  | .command q p t => match runCommand q p t with
    | .next u => .next u.settle
    | .fault r => .fault r
    | .refused r => .refused r
  | .run i t => match exec i t with
    | .next u => .next u.settle
    | .fault r => .fault r
    | .refused r => .refused r

/-- s with the table word `w` where the next step fetches: in the section of the first stream that reads it (log 2). -/
def State.withFetchWord (s : State) (_nbits w : Nat) : State := s.placeWord (wordStream w) w

end Sys2Proof.Machine
end

