-- ==== Sys2Proof/Safety.lean ====
section
/-!
DEFINITION. What counts as a safe run, and the words in which statements are made: the turns that name a core of the package,
the canonical form of the memories, when an instruction of the sequencer finds its registers ready, and the states in which an
instruction leaves the machine when it retires, each written out as one record with every other part unchanged.
-/
namespace Sys2Proof.Machine

/-! ### Safe runs -/

/-- A turn that the package can take: a stream of a core that exists (R15), an event, an early part of an access or a command. -/
def Turn.possible (t : Turn) : Bool :=
  match t.agent with
  | .stream n _ => coreExists n
  | .event _ => true
  | .early _ _ => true
  | .command _ _ => true

/-- Every scheduled turn can be taken, and the focused core exists. -/
def State.schedulable (s : State) : Bool := coreExists s.core.id && s.sched.all Turn.possible

/-- A step is safe when it answers a next state. -/
def Safe (s : State) : Prop := ∃ t, step s = .next t

/-! ### Memory in canonical form -/

/-- The three memories list rising addresses and no byte that an unlisted address reads as. -/
def State.memWf (s : State) : Bool := Memory.wf s.hbm && Memory.wf s.window && Memory.wf s.host

/-! ### When an instruction of the sequencer issues at once, and what its retirement leaves -/

/-- No asynchronous cause is due (R297), the sources hold data, and no queued load targets the destination (R78). -/
def State.seqReady (s : State) (src : List Reg) (rd : Reg) : Prop :=
  s.core.seq.asyncReady = false ∧ (∀ r ∈ src, s.core.seq.regFull r = true) ∧ (rd = 0 ∨ s.core.seq.targeted rd = false)

/-- The sequencer after an instruction that wrote v to rd and goes on at pc: g0 stays as it is (R78), and nothing else of the
sequencer changes but the model's note of the cycle, of the word that retired last and of a wait that is over. -/
def Sequencer.resulting (q : Sequencer) (rd : Reg) (v : Word) (pc : Word) (now : Nat) : Sequencer :=
  { q with
    g := if rd = 0 then q.g else q.g.set rd ⟨v, true⟩,
    pc := pc, wait := false, markAt := none, retired := now, last := q.pc }

/-- The machine after that instruction: nothing else changes. -/
def State.resulting (s : State) (rd : Reg) (v : Word) (pc : Word) : State :=
  { s with core := { s.core with seq := s.core.seq.resulting rd v pc s.now } }

/-- The machine after an instruction without a result. -/
def State.passing (s : State) (pc : Word) : State :=
  { s with core := { s.core with seq := { s.core.seq with pc := pc, wait := false, markAt := none, retired := s.now, last := s.core.seq.pc } } }

/-- The address of the next word. -/
def State.nextPc (s : State) : Word := s.core.seq.pc + 4

/-- The machine after an instruction that changed the sequencer as f says, and took n access numbers: nothing else changes. -/
def State.advanced (s : State) (n : Nat) (f : Sequencer → Sequencer) : State :=
  { s with core := { s.core with
      issue := s.core.issue + n,
      seq := { f s.core.seq with wait := false, markAt := none, retired := s.now, last := s.core.seq.pc } } }

/-- The machine while an instruction waits: nothing changes but the model's note of the wait. -/
def State.held (s : State) : State := { s with core := { s.core with seq := { s.core.seq with wait := true } } }

/-- No cinch and no mend region of the sequencer is open. -/
def State.plain (s : State) : Prop := s.core.seq.cinch = none ∧ s.core.seq.regions = []

/-- All that lies outside the sequencer, and the sequencer's registers, are those of s. -/
def State.sameButSeq (s t : State) : Prop :=
  t = { s with core := { s.core with seq := t.core.seq } } ∧ t.core.seq.g = s.core.seq.g

/-- A byte outside a list of places reads as before. -/
def State.sameOutside (s t : State) (l : List PAddr) : Prop := ∀ p : PAddr, p ∉ l → t.readByte p = s.readByte p

/-- Two states hold the same bytes everywhere. -/
def State.sameMemory (s t : State) : Prop := t.hbm = s.hbm ∧ t.window = s.window ∧ t.host = s.host

/-! ### What an instruction of an engine leaves when it retires -/

/-- The machine after a vector word that changed the vector engine as f says, took n access numbers and goes on with the next word
(R17); the model notes the access that the word made (R159). Nothing else changes. -/
def State.vecAdvanced (s : State) (n : Nat) (f : VecEngine → VecEngine) : State :=
  { s with core := { s.core with
      issue := s.core.issue + n,
      vec := { f s.core.vec with
        lastVp := (f s.core.vec).newVp s.core.vec.vp.length
        eng := { (f s.core.vec).eng with st := .run, pc := s.core.vec.eng.pc + 4, retired := s.now } } } }

/-- The machine after a word of an engine that changed that engine's part as f says and retired. -/
def State.engAdvanced (s : State) (e : Eng) (f : Engine → Engine) : State :=
  s.updEng e (fun x => { f x with st := .run, retired := s.now })

/-- The machine while an engine waits (R17, R95). -/
def State.engWaits (s : State) (e : Eng) (kind line : Nat) : State := s.updEng e (fun x => { x with st := .wait kind line })

/-- The tests of R29, R149 and R305 let a vector instruction go on: every source line is full as the stream sees it, is no line that
a load in flight will write, and can be read; every destination line may be written, is no such line either, and through a
write-wait view is empty or consumed by the instruction itself. -/
def State.vecOpen (s : State) (srcs : List VSrc) (dsts : List Placed) : Prop :=
  (∀ x ∈ srcs, ∀ n ∈ x.at_.all,
    s.core.fullAs s.core.vec.marks n = true ∧ n ∉ s.core.vec.landing ∧ n ∉ s.core.treeLost) ∧
  (∀ p ∈ dsts, ∀ n ∈ p.all, s.core.vec.mayWrite n = true ∧ n ∉ s.core.vec.landing ∧
    (p.wwait = true → s.core.fullAs s.core.vec.marks n = false ∨ n ∈ eatenLines srcs))

/-- The machine after a vector instruction with sources `srcs` that computed `o`; the model notes the access that it made (R159). -/
def State.vecRetired (s : State) (srcs : List VSrc) (o : VOut) : State :=
  ((s.vecEffect (eatenLines srcs) o).updVec (fun v => { v with lastVp := v.newVp s.core.vec.vp.length })).engAdvanced .vec
    (fun x => x)

/-- A lane-wise result at a destination: lane i below the lane count is f i where i is active, and zero elsewhere (R132). -/
def State.lanesRetired (s : State) (srcs : List VSrc) (pd : Placed) (w : Nat) (f : Nat → Nat × BitVec 5) : State :=
  s.vecRetired srcs (laneOut pd.line w (laneResults s.core.vec.shape.lanes s.core.vec.active f))

/-- The machine after a matrix word that left the core c: it retires and goes on with the next word (R17, R47). -/
def State.matRetired (s : State) (c : Core) : State :=
  { s with core := { c with mat := { c.mat with eng := { c.mat.eng with st := .run, pc := c.mat.eng.pc + 4, retired := s.now } } } }

/-- A matrix word can read these lines: no held tile will write them, they are full and they can be read (R29, R120). -/
def State.matReadable (s : State) (l : List Nat) : Prop :=
  ∀ n ∈ l, n ∉ s.core.mat.heldLines ∧ (s.core.line n).full = true ∧ n ∉ s.core.treeLost

/-- The w-byte element (r, n) of a list of tree lines that hold 64 rows of 64 elements. -/
def tileElem (l : List (Nat × BitVec 512)) (w r n : Nat) : Nat :=
  let b := w * (64 * r + n)
  ((l.getD (b / 64) (0, 0)).2).toNat / 2 ^ (8 * (b % 64)) % 2 ^ (8 * w)

/-- The machine once a data step word of the transfer engine is the operation whose blocks are handed over (R160, R178): it has
captured its kind, its endpoints and its length, and the program counter stays until all is handed over. -/
def State.xferStarted (s : State) (k : XKind) (e : XEnds) (len : Nat) (index : Option (Nat × Nat)) : State :=
  let x := s.core.xfer
  let b : Batch := match x.openBatch with
    | some b => { b with used := true }
    | none => ⟨s.core.issue, none, 0, true⟩
  let id := if x.openBatch.isSome then s.core.issue else s.core.issue + 1
  { s with core := { s.core with
      issue := id + 1
      xfer := { x with
        openBatch := some b
        index := []
        cur := some { blankOp k e.dst e.src len with
          id := id, seq := id, pc := x.eng.pc, word := s.wordAt s.core .xfer x.eng.pc, batch := b.id, dstPt := e.dstPt,
          srcPt := e.srcPt, index := index }
        eng := { x.eng with st := .run } } } }

/-- The machine after a transfer word that changed the transfer engine as f says and goes on with the next word. -/
def State.xferAdvanced (s : State) (n : Nat) (f : XferEngine → XferEngine) : State :=
  { s with core := { s.core with
      issue := s.core.issue + n
      xfer := { f s.core.xfer with
        eng := { (f s.core.xfer).eng with st := .run, pc := s.core.xfer.eng.pc + 4, retired := s.now } } } }

end Sys2Proof.Machine
end

