-- ==== Sys2Proof/Certificates/Slice0/Obligations.lean ====
section
/-!
DEFINITION. The statements for the provers, each from the numbered rules that its text names.
-/

open Sys2Proof Sys2Proof.Machine

/-- R79: the 21 instructions of two sources and `clz` and `popc` write their result, wrapped to 64 bits, to gd (to no register where
gd is g0), and change nothing else but the program counter. Shift counts are the whole unsigned value of the second register. -/
def Obligations.IntegerGroupComputes : Prop :=
  ∀ (s : State) (rd ra rb : Reg),
    let x := s.reg ra
    let y := s.reg rb
    let gives := fun (i : Instr) (v : Word) => exec i s = .next (s.resulting rd v s.nextPc)
    (s.seqReady [ra, rb] rd →
      gives (.add rd ra rb) (x + y) ∧
      gives (.sub rd ra rb) (x - y) ∧
      gives (.and rd ra rb) (x &&& y) ∧
      gives (.or rd ra rb) (x ||| y) ∧
      gives (.xor rd ra rb) (x ^^^ y) ∧
      gives (.shl rd ra rb) (x <<< y.toNat) ∧
      gives (.shr rd ra rb) (x >>> y.toNat) ∧
      gives (.sar rd ra rb) (x.sshiftRight y.toNat) ∧
      gives (.slt rd ra rb) (if x.slt y then 1 else 0) ∧
      gives (.sltn rd ra rb) (if x.ult y then 1 else 0) ∧
      gives (.min rd ra rb) (if x.slt y then x else y) ∧
      gives (.max rd ra rb) (if x.slt y then y else x) ∧
      gives (.minn rd ra rb) (if x.ult y then x else y) ∧
      gives (.maxn rd ra rb) (if x.ult y then y else x) ∧
      gives (.mul rd ra rb) (x * y) ∧
      gives (.mulh rd ra rb) (BitVec.ofInt 64 (x.toInt * y.toInt / 2 ^ 64)) ∧
      gives (.mulhn rd ra rb) (BitVec.ofNat 64 (x.toNat * y.toNat / 2 ^ 64)) ∧
      gives (.div rd ra rb) (if y = 0 then BitVec.allOnes 64 else x.sdiv y) ∧
      gives (.divn rd ra rb) (if y = 0 then BitVec.allOnes 64 else x.udiv y) ∧
      gives (.rem rd ra rb) (if y = 0 then x else x.srem y) ∧
      gives (.remn rd ra rb) (if y = 0 then x else x.umod y)) ∧
    (s.seqReady [ra] rd →
      gives (.clz rd ra) x.clz ∧
      gives (.popc rd ra) x.cpop)

/-- R80: the immediates. The immediate is sign-extended for `addi`, `slti` and `movi` and zero-extended for the bitwise ones; `movk`
replaces one chunk of gd and keeps the other bits. -/
def Obligations.ImmediateGroupComputes : Prop :=
  ∀ (s : State) (rd ra : Reg) (imm : BitVec 16) (n : BitVec 6) (p : Fin 4),
    let x := s.reg ra
    let gives := fun (i : Instr) (v : Word) => exec i s = .next (s.resulting rd v s.nextPc)
    (s.seqReady [ra] rd →
      gives (.addi rd ra imm) (x + imm.signExtend 64) ∧
      gives (.andi rd ra imm) (x &&& imm.setWidth 64) ∧
      gives (.ori rd ra imm) (x ||| imm.setWidth 64) ∧
      gives (.xori rd ra imm) (x ^^^ imm.setWidth 64) ∧
      gives (.shli rd ra n) (x <<< n.toNat) ∧
      gives (.shri rd ra n) (x >>> n.toNat) ∧
      gives (.sari rd ra n) (x.sshiftRight n.toNat) ∧
      gives (.slti rd ra imm) (if x.slt (imm.signExtend 64) then 1 else 0)) ∧
    (s.seqReady [] rd → gives (.movi rd imm) (imm.signExtend 64)) ∧
    (s.seqReady [rd] rd →
      ∃ v : Word, gives (.movk rd p imm) v ∧
        ∀ b : Nat, b < 64 → v.getLsbD b =
          if 16 * p.val ≤ b ∧ b < 16 * p.val + 16 then imm.getLsbD (b - 16 * p.val) else (s.reg rd).getLsbD b) ∧
    (s.core.seq.asyncReady = false → rd ≠ 0 → s.core.seq.regFull rd = false →
      (s.core.seq.targeted rd = false → exec (.movk rd p imm) s = .next (s.syncTrap 0x0302 (BitVec.ofNat 64 rd.val))) ∧
      (s.core.seq.targeted rd = true → exec (.movk rd p imm) s = .next s.held))

/-- R81: a branch goes to the word at its offset when its comparison holds and to the next word otherwise, and changes nothing else.
R81, R43: `jal` and `jalr` write the address of the next word to gd and jump; `jalr` computes its target from ga before gd is
written, and a target that is no multiple of 4 is ILLEGAL, with gd unchanged. R53: an offset counts from the word itself, and from
the next word where the core's version is 1. Beyond the sequencer section the word is all zero. -/
def Obligations.BranchesAndJumpsGoToTheirTargets : Prop :=
  (∀ (s : State) (ra rb : Reg) (off : BitVec 16), s.seqReady [ra, rb] 0 →
      let x := s.reg ra
      let y := s.reg rb
      let from_ : Word := if s.core.res.encv = 1 then s.nextPc else s.core.seq.pc
      let goes := fun (i : Instr) (c : Bool) =>
        exec i s = .next (s.passing (if c then from_ + 4 * off.signExtend 64 else s.nextPc))
      goes (.beq ra rb off) (decide (x = y)) ∧
      goes (.bne ra rb off) (decide (x ≠ y)) ∧
      goes (.blt ra rb off) (x.slt y) ∧
      goes (.bge ra rb off) (!x.slt y) ∧
      goes (.bltn ra rb off) (x.ult y) ∧
      goes (.bgen ra rb off) (!x.ult y)) ∧
  (∀ (s : State) (rd ra : Reg) (off : BitVec 21) (imm : BitVec 16),
      (s.seqReady [] rd → exec (.jal rd off) s = .next (s.resulting rd s.nextPc
        ((if s.core.res.encv = 1 then s.nextPc else s.core.seq.pc) + 4 * off.signExtend 64))) ∧
      (s.seqReady [ra] rd → (s.reg ra + imm.signExtend 64).toNat % 4 = 0 →
        exec (.jalr rd ra imm) s = .next (s.resulting rd s.nextPc (s.reg ra + imm.signExtend 64))) ∧
      (s.seqReady [ra] 0 → (s.reg ra + imm.signExtend 64).toNat % 4 ≠ 0 →
        exec (.jalr rd ra imm) s = .next (s.syncTrap 0x0205 0)) ∧
      (∀ (c : Core) (pc : Word), 4 * c.res.len .seq ≤ pc.toNat → s.wordAt c .seq pc = 0))

/-- R82, R83, R78: a load forms va from ga and the immediate, takes a load-queue entry with the bytes that va translates to, and
empties gd; memory and every other part stay as they are. With 32 entries in the queue it traps with QFULL and detail 0. R78,
R82, R84, R86: the oldest load of a core reads its bytes at once where it is naturally aligned, and otherwise one byte at each
return, in ascending order; with its last byte it writes its register with their little-endian value and frees its entry. The
register is full unless a younger load targets it, and memory stays as it is. A load whose data is lost outside every mend
region leaves its register as it is and queues DATA_LOST with its address and its own offset. The bytes come from memory when
the load returns (log 3). -/
def Obligations.LoadsAreQueuedAndReturn : Prop :=
  (∀ (s : State) (rd ra : Reg) (imm : BitVec 16), s.seqReady [ra] 0 →
      let va := (s.reg ra + imm.signExtend 64).toNat
      let loads := fun (i : Instr) (n : Nat) (signed : Bool) =>
        ∀ (cells : List PAddr) (binds : List Nat), s.xlAccess va n false = .ok cells binds →
          (s.core.seq.lq.length < 32 → exec i s = .next (s.advanced 1 (fun q => { q with
            lq := q.lq ++ [⟨s.core.issue, q.pc, rd, va, cells, signed, binds, []⟩]
            g := if rd = 0 then q.g else q.g.set rd { q.g[rd] with full := false }
            pc := s.nextPc }))) ∧
          (32 ≤ s.core.seq.lq.length → exec i s = .next (s.syncTrap 0x0301 0))
      loads (.ldB rd ra imm) 1 false ∧
      loads (.ldBs rd ra imm) 1 true ∧
      loads (.ldH rd ra imm) 2 false ∧
      loads (.ldHs rd ra imm) 2 true ∧
      loads (.ldW rd ra imm) 4 false ∧
      loads (.ldWs rd ra imm) 4 true ∧
      loads (.ldD rd ra imm) 8 false) ∧
  (∀ (s : State) (n : Nat) (e : LoadEntry) (l : List LoadEntry), s.liveCore n = true →
      let u := s.focus n
      u.core.seq.lq = e :: l → u.core.fenceHolds .lq e.seq = false →
      let m := e.cells.length
      let aligned := (m = 1 ∨ m = 2 ∨ m = 4 ∨ m = 8) ∧ ∀ p ∈ e.cells.head?, p.addr % m = 0
      let reads := if aligned then e.cells else (e.cells.drop e.got.length).take 1
      let got := e.got ++ reads.map u.readByte
      let v : Word := if e.signed then BitVec.ofInt 64 (intOfBytes got) else BitVec.ofNat 64 (natOfBytes got)
      (u.eccRead reads = .ok → got.length < m →
        exec (.loadReturn n) s = .next { u with core := { u.core with seq := { u.core.seq with lq := { e with got := got } :: l } } }) ∧
      (u.eccRead reads = .ok → m ≤ got.length → ∃ t, exec (.loadReturn n) s = .next t ∧ t.core.seq.lq = l ∧
        t.core.seq.g = (if e.rd = 0 then u.core.seq.g
          else u.core.seq.g.set e.rd ⟨v, !(l.any (fun x => decide (x.rd = e.rd)))⟩) ∧
        t.core.seq.pc = u.core.seq.pc ∧ t = { u with core := { u.core with seq := t.core.seq } }) ∧
      (u.eccRead reads = .lost → u.core.seq.inRegion e.seq = false →
        ∃ t, exec (.loadReturn n) s = .next t ∧ t.core.seq.lq = l ∧ t.core.seq.g = u.core.seq.g ∧
          t.core.seq.traps = u.core.seq.traps ++ [.dataLost (BitVec.ofNat 64 e.va) e.pc] ∧
          t = { u with core := { u.core with seq := t.core.seq } }))

/-- R82, R83, R246, R291: a store copies the low bytes of gd into a store-queue entry; inside a cinch it joins the group, and in a
mend region that saved none of its bytes it is held. Memory stays as it is until the store is performed. With 32 entries in the
queue it traps with QFULL and detail 1. R82, R83: the oldest store of a core is performed: at once where it is naturally aligned,
and otherwise one byte after the other, in ascending order. Its bytes then stand in memory and its entry is free; every other
byte and every register stay as they are. Each access is performed at one instant (log 3). -/
def Obligations.StoresAreQueuedAndPerformed : Prop :=
  (∀ (s : State) (rd ra : Reg) (imm : BitVec 16), s.seqReady [rd, ra] 0 →
      let va := (s.reg ra + imm.signExtend 64).toNat
      let stores := fun (i : Instr) (n : Nat) =>
        ∀ (cells : List PAddr) (binds : List Nat), s.xlAccess va n true = .ok cells binds →
          let bytes := cells.zip (bytesOfNat n (s.reg rd).toNat)
          let entry : StoreEntry := ⟨s.core.issue, s.core.seq.pc, va, .plain bytes, binds, false, false⟩
          (s.plain → s.core.seq.sq.length < 32 →
            exec i s = .next (s.advanced 1 (fun q => { q with sq := q.sq ++ [entry], pc := s.nextPc }))) ∧
          (s.plain → 32 ≤ s.core.seq.sq.length → exec i s = .next (s.syncTrap 0x0301 1)) ∧
          (∀ c : Cinch, s.core.seq.cinch = some c → c.admits (bytes.map Prod.fst) = true →
            exec i s = .next (s.advanced 1 (fun q => { q with
              cinch := some { c with stores := c.stores ++ [entry] }, pc := s.nextPc }))) ∧
          (∀ (r : SeqRegion) (t : List SeqRegion), s.core.seq.cinch = none → s.core.seq.regions = r :: t →
            bytes ≠ [] → (∀ c ∈ bytes, s.core.seq.savedByte c.1 = false) → s.core.roomFor 0 1 = true →
            exec i s = .next (s.advanced 0 (fun q => { q with
              regions := { r with held := r.held ++ [.store va bytes binds false false] } :: t, pc := s.nextPc })))
      stores (.stB rd ra imm) 1 ∧
      stores (.stH rd ra imm) 2 ∧
      stores (.stW rd ra imm) 4 ∧
      stores (.stD rd ra imm) 8) ∧
  (∀ (s : State) (n : Nat) (e : StoreEntry) (l : List StoreEntry) (cells : List (PAddr × Byte)),
      s.memWf = true → s.liveCore n = true →
      let u := s.focus n
      u.core.seq.sq = e :: l → e.kind = .plain cells → u.core.fenceHolds .sq e.seq = false →
      let m := cells.length
      let whole := m ≤ 1 ∨ (e.begun = false ∧ (m = 2 ∨ m = 4 ∨ m = 8) ∧ ∀ c ∈ cells.head?, c.1.addr % m = 0)
      let now := if whole then cells else cells.take 1
      let left := if whole then l else { e with kind := .plain (cells.drop 1), begun := true } :: l
      u.eccWrite now = .ok →
      ∃ t, exec (.storePerformed n) s = .next t ∧ t.core.seq.sq = left ∧ t.core.seq.g = u.core.seq.g ∧
        t.core.seq.pc = u.core.seq.pc ∧ u.sameOutside t (now.map Prod.fst) ∧
        ((now.map Prod.fst).Nodup → ∀ c ∈ now, t.readByte c.1 = c.2) ∧
        t.ctxs = u.ctxs ∧ t.crews = u.crews ∧ t.others = u.others ∧ t.core.vec = u.core.vec ∧ t.core.mat = u.core.mat ∧
        t.core.xfer = u.core.xfer ∧ t.core.tree = u.core.tree ∧ t.core.wb = u.core.wb)

/-- R245, R241: once everything before it is performed, an `atom` returns the old word sign-extended and stores the new one, as one
action; a `cas` whose word differs from gd stores nothing. Every byte outside the word stays as it is. A scope outside 1 to 8 is
ILLEGAL. -/
def Obligations.AtomsReadModifyWrite : Prop :=
  ∀ (s : State) (rd ra rb : Reg) (size : AtomSize) (scope : Scope) (pa : PAddr) (cells : List PAddr) (binds : List Nat),
    s.memWf = true → s.seqReady [rd, ra, rb] 0 → s.plain →
    let n := match size with
      | .w => 4
      | .d => 8
    let va := (s.reg ra).toNat
    let b : Int := sextNat (8 * n) (s.reg rb).toNat
    let e : Int := sextNat (8 * n) (s.reg rd).toNat
    let old : Int := sextNat (8 * n) (s.readNat pa n)
    va % n = 0 → s.xlAccess va n true = .ok (pa :: cells) binds → s.fenced = true →
    s.eccRead (placesFrom pa n) = .ok →
    let gives := fun (i : Instr) (new : Int) (writes : Bool) =>
      ∃ t, exec i s = .next t ∧ t.core.seq.g = (s.resulting rd (BitVec.ofInt 64 old) s.nextPc).core.seq.g ∧
        t.core.seq.pc = s.nextPc ∧ s.sameOutside t (placesFrom pa n) ∧
        t.readNat pa n = (if writes then (new % 2 ^ (8 * n)).toNat else s.readNat pa n) ∧
        t.core.vec = s.core.vec ∧ t.core.mat = s.core.mat ∧ t.core.xfer = s.core.xfer ∧ t.core.seq.flags = s.core.seq.flags
    (scope.code < 1 ∨ 8 < scope.code → ∀ i ∈ [Instr.atomAdd rd ra rb size scope, .atomSwap rd ra rb size scope,
      .atomCas rd ra rb size scope, .atomMin rd ra rb size scope, .atomMax rd ra rb size scope, .atomOr rd ra rb size scope,
      .atomAnd rd ra rb size scope], exec i s = .next (s.syncTrap 0x0205 0)) ∧
    (1 ≤ scope.code → scope.code ≤ 8 →
    gives (.atomAdd rd ra rb size scope) (old + b) true ∧
    gives (.atomSwap rd ra rb size scope) b true ∧
    gives (.atomCas rd ra rb size scope) b (decide (old = e)) ∧
    (pa.space ≠ .host →
      gives (.atomMin rd ra rb size scope) (min old b) true ∧
      gives (.atomMax rd ra rb size scope) (max old b) true ∧
      gives (.atomOr rd ra rb size scope) ((s.readNat pa n ||| (s.reg rb).toNat % 2 ^ (8 * n) : Nat) : Int) true ∧
      gives (.atomAnd rd ra rb size scope) ((s.readNat pa n &&& (s.reg rb).toNat % 2 ^ (8 * n) : Nat) : Int) true))

/-- R243, R244: `mark` goes on once every access of its paths numbered before it is performed, and waits until then; `fence` adds a
pending fence and goes on at once, is ILLEGAL with pb = HP, and waits while eight fences are pending. R244: a pending fence
completes exactly when every access of its pa path numbered before it is performed and, at TIME scope, every earliest bound of
the scope has passed its limit; the fence then goes and nothing else changes. The floor of a TIME scope is compared in whole ns
(log 7). -/
def Obligations.MarksAndFencesOrderPaths : Prop :=
  (∀ (s : State) (paths : BitVec 7) (pa pb : Path) (scope : Scope),
      s.core.seq.asyncReady = false → s.core.seq.cinch = none →
      ((∀ p ∈ pathsOf paths, s.core.pathBusy p s.marker = false) → exec (.mark paths) s = .next (s.passing s.nextPc)) ∧
      ((∃ p ∈ pathsOf paths, s.core.pathBusy p s.marker = true) →
        ∃ t, exec (.mark paths) s = .next t ∧ t.core.seq.wait = true ∧ t.core.seq.markAt = some s.marker ∧ s.sameButSeq t ∧
          t.core.seq.pc = s.core.seq.pc) ∧
      (pb ≠ .hp → (scope = .time → s.widthCheck = none) → s.core.seq.fences.length < 8 →
        exec (.fence pa pb scope) s = .next (s.advanced 1 (fun q => { q with
          fences := q.fences ++ [⟨s.core.issue, pa, pb, scope, s.clock.late⟩], pc := s.nextPc }))) ∧
      (pb = .hp → exec (.fence pa pb scope) s = .next (s.syncTrap 0x0205 0)) ∧
      (pb ≠ .hp → (scope = .time → s.widthCheck = none) → 8 ≤ s.core.seq.fences.length →
        exec (.fence pa pb scope) s = .next s.held)) ∧
  (∀ (s : State) (n k : Nat) (f : Fence), s.liveCore n = true →
      let u := s.focus n
      u.core.seq.fences.find? (fun g => decide (g.seq = k)) = some f →
      (u.core.pathBusy f.pa f.seq = false → (f.scope = .time → u.floorTime / 20000 > f.limit) →
        exec (.fenceComplete n k) s = .next { u with core := { u.core with seq := { u.core.seq with
          fences := u.core.seq.fences.filter (fun g => decide (g.seq ≠ k)) } } }) ∧
      (u.core.pathBusy f.pa f.seq = true ∨ (f.scope = .time ∧ ¬ u.floorTime / 20000 > f.limit) →
        exec (.fenceComplete n k) s = .next u))

/-- R246, R241: `cinch.open` at a scope from 1 to 6 opens an empty group, `cinch.drop` discards it, and `cinch.close` with an empty
store queue performs a group of plain stores as one action: all its bytes at once, and no other byte. Inside a cinch
`cinch.open` is ILLEGAL, and so are the other two outside one. -/
def Obligations.CinchesGroupStores : Prop :=
  ∀ (s : State) (scope : Scope), s.core.seq.asyncReady = false →
    (scope.code < 1 ∨ 6 < scope.code → exec (.cinchOpen scope) s = .next (s.syncTrap 0x0205 0)) ∧
    (s.core.seq.cinch = none →
      (1 ≤ scope.code → scope.code ≤ 6 → exec (.cinchOpen scope) s = .next (s.advanced 1 (fun q => { q with
        cinch := some ⟨scope, q.pc, s.core.issue, []⟩, pc := s.nextPc }))) ∧
      exec .cinchClose s = .next (s.syncTrap 0x0205 0) ∧
      exec .cinchDrop s = .next (s.syncTrap 0x0205 0)) ∧
    (∀ c : Cinch, s.core.seq.cinch = some c →
      exec (.cinchOpen scope) s = .next (s.syncTrap 0x0205 0) ∧
      (∃ t, exec .cinchDrop s = .next t ∧ t.core.seq.cinch = none ∧ t.core.seq.pc = s.nextPc ∧ s.sameButSeq t) ∧
      (∀ cells : List (List (PAddr × Byte)), s.memWf = true → s.core.seq.regions = [] →
        c.stores.map (·.kind) = cells.map StoreKind.plain → s.storeReady = true → s.eccWrite cells.flatten = .ok →
        ∃ t, exec .cinchClose s = .next t ∧ t.core.seq.cinch = none ∧ t.core.seq.pc = s.nextPc ∧
          t.core.seq.g = s.core.seq.g ∧ s.sameOutside t (cells.flatten.map Prod.fst) ∧
          ((cells.flatten.map Prod.fst).Nodup → ∀ x ∈ cells.flatten, t.readByte x.1 = x.2)))

/-- R87, R89, R90: `hnd.bind` of a range that lies in one core's reachable local store makes a LIVE, writable binding of the window
at once; a range outside the window starts its page walks and waits, and once every page is walked without a fault, all to one
kind of memory, it makes the binding. A slot beyond the launch's handles is BOUNDS with its number. R211, R214, R217, R218: a page
walk of a waiting bind that finishes moves the whole of its page, in the size of its leaf, from what is to be walked to what is
walked, with its place, or to what failed, with its cause, entry and level; nothing else changes. That a bind keeps what is still
to be walked as the 64 KiB pieces of its range is the model's own (log 11). -/
def Obligations.HandlesAreBoundByWalks : Prop :=
  (∀ (s : State) (rd ra : Reg) (h : Hnd), s.seqReady [rd, ra] 0 → s.core.seq.cinch = none →
      let base := (s.reg ra).toNat
      let len := (s.reg rd).toNat
      let bound := fun (t : State) (kind : Space) (w : Bool) (segs : List Seg) (stale : Bool) =>
        t.core.seq.h[h] = some ⟨s.core.issue, h, base, len, kind, w, segs, stale, false⟩ ∧
        (∀ h' : Hnd, h' ≠ h → t.core.seq.h[h'] = s.core.seq.h[h']) ∧ t.core.seq.walk = none ∧
        t.core.seq.pc = s.nextPc ∧ t.core.seq.g = s.core.seq.g ∧ s.sameMemory t ∧ t.core.vec = s.core.vec ∧
        t.core.mat = s.core.mat ∧ t.core.xfer = s.core.xfer
      (s.core.slotOk h = false → exec (.hndBind rd ra h) s = .next (s.syncTrap 0x0201 (BitVec.ofNat 64 h.val))) ∧
      (s.core.slotOk h = true → 0 < len → len ≤ 2 ^ 31 → base + len - 1 < 2 ^ 56 → oneKind base len = true →
        (isWindow base = true → s.windowGap base len = none →
          ∀ pa : PAddr, s.windowPlace s.core.ctxNum (some s.core.id) base = some pa →
            ∃ t, exec (.hndBind rd ra h) s = .next t ∧ bound t .window true [⟨0, len, pa⟩] false) ∧
        (isWindow base = false → s.core.seq.walk = none →
          ∃ t, exec (.hndBind rd ra h) s = .next t ∧ t.core.seq.wait = true ∧ s.sameButSeq t ∧
            t.core.seq.walk = some ⟨h, base, len, 2, [], pagesOf base len 65536, [], false⟩) ∧
        (∀ (g : Seg) (w stale : Bool) (l : List (Seg × Bool)), isWindow base = false →
          s.core.seq.walk = some ⟨h, base, len, 2, (g, w) :: l, [], [], stale⟩ → (∀ d ∈ l, d.1.pa.space = g.pa.space) →
          ∃ t, exec (.hndBind rd ra h) s = .next t ∧
            bound t g.pa.space (w && l.all (fun d => d.2)) (g :: l.map (fun d => d.1)) stale))) ∧
  (∀ (s : State) (n k piece : Nat) (j : WalkJob), s.liveCore n = true →
      let u := s.focus n
      u.core.seq.walk = some j → j.todo[k]? = some piece →
      let others := fun (m : Nat) => j.todo.filter (fun a => decide (a / 2 ^ m ≠ piece / 2 ^ m))
      (∀ (pa : PAddr) (w : Bool) (m : Nat), u.walk u.core.ctxNum (some u.core.id) piece false = .ok pa w m →
        let page := piece / 2 ^ m * 2 ^ m
        let low := max j.base page
        exec (.walkComplete n k) s = .next { u with core := { u.core with seq := { u.core.seq with
          walk := some { j with
            todo := others m
            done := j.done ++ [(⟨low - j.base, min (j.base + j.len) (page + 2 ^ m) - low,
              ⟨pa.space, pa.addr - piece % 2 ^ m + low % 2 ^ m⟩⟩, w)] } } } }) ∧
      (∀ (f : XlFault) (m : Nat), u.walk u.core.ctxNum (some u.core.id) piece false = .fault f m →
        exec (.walkComplete n k) s = .next { u with core := { u.core with seq := { u.core.seq with
          walk := some { j with
            todo := others m
            failed := j.failed ++ [(piece / 2 ^ m * 2 ^ m, f.cause, BitVec.ofNat 64 f.entry, f.level)] } } } }))

/-- R88, R89, R90: `hnd.free` leaves the slot unbound; a LIVE binding of it drains while accesses are in flight on it or the step word at
issue still refers to it, a REVOKED one is released, and so is a draining binding that nothing uses any more. `hnd.stat` writes the binding's state: LIVE,
writable, draining, revoked, kind, accesses in flight and length. Freeing an unbound slot has no effect, and a slot beyond the
launch's handles is BOUNDS for both. R26, R96: `view.set` installs an acceptable descriptor as the view, and traps with BOUNDS and
the view's number on any other, with the view as it was. What counts as in flight is read from R90 (log 11); the detail of the
BOUNDS traps of the handle words is a free value (log 5). -/
def Obligations.HandlesAreFreedAndViewsSet : Prop :=
  (∀ (s : State) (rd : Reg) (h : Hnd),
      (s.core.slotOk h = false →
        (s.core.seq.asyncReady = false → s.core.seq.cinch = none → exec (.hndFree h) s = .next (s.syncTrap 0x0201 s.openDetail)) ∧
        (s.seqReady [] rd → exec (.hndStat rd h) s = .next (s.syncTrap 0x0201 s.openDetail))) ∧
      (s.core.slotOk h = true → s.core.seq.asyncReady = false → s.core.seq.cinch = none →
        (s.core.seq.h[h] = none → exec (.hndFree h) s = .next (s.passing s.nextPc)) ∧
        ∃ t, exec (.hndFree h) s = .next t ∧ t.core.seq.h = s.core.seq.h.set h none ∧ t.core.seq.pc = s.nextPc ∧
          (if (s.core.seq.h[h]).isSome then s.seqSeen else s).sameButSeq t ∧
          ∀ b : Binding, s.core.seq.h[h] = some b →
            t.core.seq.draining = (s.core.seq.draining ++ if b.revoked then [] else [b]).filter s.core.drains) ∧
      (s.core.slotOk h = true → s.seqReady [] rd →
        ∃ v : Word, exec (.hndStat rd h) s = .next (s.resulting rd v s.nextPc) ∧
          (s.core.seq.h[h] = none → v.toNat % 2 ^ 61 = 0 ∧ v.getLsbD 63 = false) ∧
          v.getLsbD 61 = s.core.seq.draining.any (fun b => decide (b.slot = h)) ∧
          ∀ b : Binding, s.core.seq.h[h] = some b → b.len < 2 ^ 32 →
            v.toNat % 2 ^ 32 = b.len ∧ v.toNat / 2 ^ 32 % 2 ^ 16 = min (s.core.inFlight b.id) 65535 ∧
            v.toNat / 2 ^ 58 % 4 = spaceCode b.kind ∧ v.getLsbD 60 = b.revoked ∧ v.getLsbD 62 = b.writable ∧
            v.getLsbD 63 = true)) ∧
  (∀ (s : State) (v : Fin 8) (ra : Reg), s.seqReady [ra] 0 →
      (viewOk (s.reg ra) = true → ∃ t, exec (.viewSet v ra) s = .next t ∧ t.core.views = s.core.views.set v (s.reg ra) ∧
        t.core.seq.pc = s.nextPc ∧ t.core.seq.g = s.core.seq.g ∧ t.core.tree = s.core.tree ∧ s.sameMemory t) ∧
      (viewOk (s.reg ra) = false → exec (.viewSet v ra) s = .next (s.syncTrap 0x0201 (BitVec.ofNat 64 v.val))))

/-- R92, R93, R94, R95: `eng.start` puts a stream that is not in RUN or WAIT, and that no strike report waits for, in RUN at four
times its entry; `eng.stop` asks a stream in RUN or WAIT to stop and leaves any other alone; `eng.join` goes on for a stream
that is not in RUN or WAIT; `eng.start` and `eng.join` wait for one that is. `eng.stat` writes the state, the wait, the stop
code and the word index of the stream. R17, R271, R301, R302, R322: a stream that `eng.stop` named stops at its boundary with code
OK and takes no trap; its next record, of kind 1 and code 0, names the word at which it stands, and goes into its slot once no
trap of an earlier record is pending. Away from the boundary, or without a request, nothing changes. The boundary of a matrix
stream is read from R129 and R271 (log 18); that the record of an `eng.stop` names the word at which the stream stands, where R18 has the
last one completed, is the model's choice (log 24). -/
def Obligations.EngineStreamsStartStopAndJoin : Prop :=
  (∀ (s : State) (e : Eng) (entry : BitVec 14) (rd : Reg),
      let x := s.core.eng e
      (s.core.seq.asyncReady = false →
        (x.st.live = false → x.strike = none →
          ∃ t, exec (.engStart e entry) s = .next t ∧ (t.core.eng e).st = .run ∧
            (t.core.eng e).pc = BitVec.ofNat 64 (4 * entry.toNat) ∧ (t.core.eng e).code = 0 ∧ (t.core.eng e).stopReq = false ∧
            (∀ e' : Eng, e' ≠ e → t.core.eng e' = s.core.eng e') ∧ t.core.seq.pc = s.nextPc ∧
            t.core.seq.g = s.core.seq.g ∧ s.sameMemory t ∧ t.core.views = s.core.views) ∧
        (x.st.live = true → exec (.engStart e entry) s = .next s.held ∧ exec (.engJoin e) s = .next s.held) ∧
        (x.st.live = false → exec (.engJoin e) s = .next (s.passing s.nextPc) ∧ exec (.engStop e) s = .next (s.passing s.nextPc)) ∧
        (x.st.live = true → exec (.engStop e) s =
          .next ((s.updEng e (fun x => { x with stopReq := true })).passing s.nextPc))) ∧
      (s.seqReady [] rd →
        ∃ v : Word, exec (.engStat rd e) s = .next (s.resulting rd v s.nextPc) ∧
          (x.st = .idle → v = 0) ∧
          (x.st = .run → v = BitVec.ofNat 64 (1 + 2 ^ 48 * (x.pc.toNat / 4 % 65536))) ∧
          (∀ kind line : Nat, x.st = .wait kind line → v.toNat % 8 = 2 ∧ v.toNat / 16 % 16 = kind % 16 ∧
            v.toNat / 2 ^ 48 = x.pc.toNat / 4 % 65536) ∧
          (x.st = .ended → v = BitVec.ofNat 64 (3 + 2 ^ 48 * (x.pc.toNat / 4 % 65536))) ∧
          (x.st = .stopped → v = BitVec.ofNat 64 (4 + 2 ^ 32 * x.code.toNat + 2 ^ 48 * (x.pc.toNat / 4 % 65536))))) ∧
  (∀ (s : State) (core : Nat) (e : Eng), s.liveCore core = true →
      let u := s.focus core
      (((u.core.eng e).stopReq && (u.core.eng e).st.live && u.core.atBoundary e) = false →
        exec (.stopBoundaryReached core e) s = .next u) ∧
      ((u.core.eng e).stopReq = true → (u.core.eng e).st.live = true → u.core.atBoundary e = true →
        (e = .mat → u.core.mat.reds = []) → (e = .xfer → u.core.xfer.all = []) →
        ∃ t, exec (.stopBoundaryReached core e) s = .next t ∧ (t.core.eng e).st = .stopped ∧ (t.core.eng e).code = 0 ∧
          (t.core.eng e).stopReq = false ∧ (t.core.eng e).pc = (u.core.eng e).pc ∧ t.core.seq.traps = u.core.seq.traps ∧
          t.core.seq.g = u.core.seq.g ∧ u.sameMemory t ∧ t.core.tree = u.core.tree ∧
          let i : Fin 4 := Fin.ofNat 4 e.stream.code
          t.core.written = u.core.written.set i (u.core.written[i] + 1) ∧
          ∃ r : BitVec 512, r.toNat % 4 = e.stream.code ∧ r.toNat / 2 ^ 8 % 16 = 1 ∧ r.toNat / 2 ^ 16 % 2 ^ 16 = 0 ∧
            r.toNat / 2 ^ 32 % 2 ^ 16 = (u.core.eng e).pc.toNat / 4 % 2 ^ 16 ∧
            r.toNat / 2 ^ 48 % 2 ^ 16 = (u.core.eng e).pc.toNat / 4 % 2 ^ 16 ∧
            (u.core.seq.stopPending e.stream = false → t.core.records = u.core.records.set i r) ∧
            (u.core.seq.stopPending e.stream = true → t.core.records = u.core.records ∧
              t.core.waiting = u.core.waiting ++ [(e.stream, r)])))

/-- R97, R98: `sw.arm` sets target and clears count, code and flags, leaves the generation and every other byte, and retires;
outside its binding, and with a target of 0, it is BOUNDS. R97, R99, R100: `sw.read` writes a field of the sync word,
zero-extended; `sw.wait` writes the generation once it differs from gd or the code is not 0, and waits until then. None of them
writes memory, and outside its binding each is BOUNDS. The detail of the BOUNDS traps is a free value (log 5). -/
def Obligations.SyncWordsAreArmedAndRead : Prop :=
  (∀ (s : State) (rd ra : Reg) (h : Hnd), s.memWf = true → s.seqReady [rd, ra] 0 → s.plain → s.storeReady = true →
      let target := (s.reg rd).toNat % 2 ^ 32
      (∀ (va : Nat) (pa : PAddr), s.core.syncPlace h (s.reg ra).toNat = some (va, pa) → target ≠ 0 →
        s.lost.contains (sectorOf pa) = false → s.badTag.contains (sectorOf pa) = false → pa.addr % 16 = 0 →
        ∃ t, exec (.swArm rd ra h) s = .next t ∧ t.readNat pa 4 = target ∧ t.readNat (pa.plus 4) 4 = 0 ∧
          t.readNat (pa.plus 8) 4 = s.readNat (pa.plus 8) 4 ∧ t.readNat (pa.plus 12) 4 = 0 ∧
          s.sameOutside t (placesFrom pa 16) ∧ t.core.seq.pc = s.nextPc ∧ t.core.seq.g = s.core.seq.g ∧
          t.core.seq.sq = s.core.seq.sq) ∧
      (s.core.syncPlace h (s.reg ra).toNat = none ∨ target = 0 →
        exec (.swArm rd ra h) s = .next (s.syncTrap 0x0201 s.openDetail))) ∧
  (∀ (s : State) (rd ra : Reg) (h : Hnd),
      let field := fun (pa : PAddr) (off : Nat) => BitVec.ofNat 64 (s.readNat (pa.plus off) 4)
      (∀ (va : Nat) (pa : PAddr), s.core.syncPlace h (s.reg ra).toNat = some (va, pa) → s.eccRead (placesFrom pa 16) = .ok →
        (s.seqReady [ra] rd →
          exec (.swReadTarget rd ra h) s = .next (s.resulting rd (field pa 0) s.nextPc) ∧
          exec (.swReadCount rd ra h) s = .next (s.resulting rd (field pa 4) s.nextPc) ∧
          exec (.swReadGen rd ra h) s = .next (s.resulting rd (field pa 8) s.nextPc) ∧
          exec (.swReadCode rd ra h) s = .next (s.resulting rd (field pa 12) s.nextPc)) ∧
        (s.seqReady [rd, ra] rd →
          (s.readNat (pa.plus 8) 4 ≠ (s.reg rd).toNat % 2 ^ 32 ∨ s.readNat (pa.plus 12) 2 ≠ 0 →
            exec (.swWait rd ra h) s = .next (s.resulting rd (field pa 8) s.nextPc)) ∧
          (s.readNat (pa.plus 8) 4 = (s.reg rd).toNat % 2 ^ 32 → s.readNat (pa.plus 12) 2 = 0 →
            exec (.swWait rd ra h) s = .next s.held))) ∧
      (s.core.syncPlace h (s.reg ra).toNat = none →
        (s.seqReady [ra] 0 → ∀ i ∈ [Instr.swReadTarget rd ra h, .swReadCount rd ra h, .swReadGen rd ra h, .swReadCode rd ra h],
          exec i s = .next (s.syncTrap 0x0201 s.openDetail)) ∧
        (s.seqReady [rd, ra] 0 → exec (.swWait rd ra h) s = .next (s.syncTrap 0x0201 s.openDetail))))

/-- R102: with its store queue empty, a rank marks its n-th arrival; it goes on once every other rank has arrived at its n-th
barrier or has ended, and waits, marked, until then. R270: `yield` without a request only goes on; with one it marks the rank
yielded and waits. R104, R90: `nop` only goes on; `end`, with the engines at rest, both queues empty and no region open, ends
the core program and leaves every slot unbound; the LIVE bindings that something still uses drain, and the others are released (log 11).
Until then `end` waits. -/
def Obligations.BarriersYieldsAndEnd : Prop :=
  (∀ (s : State), s.core.seq.asyncReady = false → s.plain → s.storeReady = true →
      let n := s.core.seq.barDone + 1
      let there := fun (id : Nat) => id = s.core.id ∨ (s.coreOf id).seq.ended = true ∨ n ≤ (s.coreOf id).seq.barMarked
      ((∀ id ∈ s.crewCores, there id) →
        exec .crewBar s = .next (s.advanced 0 (fun q => { q with barMarked := max q.barMarked n, barDone := n, pc := s.nextPc }))) ∧
      ((∃ id ∈ s.crewCores, ¬ there id) →
        ∃ t, exec .crewBar s = .next t ∧ t.core.seq.barMarked = max s.core.seq.barMarked n ∧ t.core.seq.wait = true ∧ t.core.seq.pc = s.core.seq.pc ∧
          s.sameButSeq t)) ∧
  (∀ (s : State), s.core.seq.asyncReady = false → s.plain →
      (s.core.seq.yreq = false → exec .yield s = .next (s.passing s.nextPc)) ∧
      (s.core.seq.yreq = true →
        ∃ t, exec .yield s = .next t ∧ t.core.seq.yielded = true ∧ t.core.seq.wait = true ∧ t.core.seq.pc = s.core.seq.pc ∧
          t.core.seq.g = s.core.seq.g ∧ t.core.seq.sq = s.core.seq.sq ∧ t.core.vec = s.core.vec ∧ t.core.mat = s.core.mat ∧
          t.core.xfer = s.core.xfer ∧ s.sameMemory t)) ∧
  (∀ (s : State), s.core.seq.asyncReady = false →
      exec .nop s = .next (s.passing s.nextPc) ∧
      (s.plain → s.core.enginesDone = true → s.core.seq.lq = [] → s.core.seq.sq = [] →
        ∃ t, exec .endProg s = .next t ∧ t.core.seq.ended = true ∧ (∀ h : Hnd, t.core.seq.h[h] = none) ∧
          t.core.seq.draining = (s.core.seq.draining ++ s.core.seq.bindings.filter (fun b => !b.revoked)).filter s.core.drains ∧
          s.sameMemory t ∧ t.core.seq.g = s.core.seq.g ∧ t.core.tree = s.core.tree) ∧
      (s.core.seq.cinch = none → s.core.enginesDone = false ∨ s.core.seq.lq ≠ [] ∨ s.core.seq.sq ≠ [] →
        exec .endProg s = .next s.held))

/-- R103, R15, R42: what `csr.read` gives of each register; `YDL` reads as what is left of the deadline while a yield is requested, and
otherwise as the deadline that a request would grant. -/
def Obligations.ControlRegistersAreRead : Prop :=
  ∀ (s : State) (rd : Reg), s.seqReady [] rd →
    let q := s.core.seq
    let reads := fun (r : Csr) (v : Word) => exec (.csrRead rd r) s = .next (s.resulting rd v s.nextPc)
    reads .tvec q.tvec ∧ reads .tcause (q.tcause.setWidth 64) ∧ reads .taddr q.taddr ∧ reads .tpc q.tpc ∧
    reads .clkmax (q.clkmax.setWidth 64) ∧
    reads .ceil (BitVec.ofNat 64 (s.group.ceiling % 2 ^ 16 + 2 ^ 32 * (s.group.agreement % 2 ^ 32))) ∧
    reads .govstall q.govstall ∧ reads .yreq (if q.yreq then 1 else 0) ∧ (q.yreq = true → reads .ydl (BitVec.ofNat 64 q.ydl)) ∧
    (q.yreq = false → ∀ (x : Seat) (k : Crew), s.core.seat = some x → s.crew x.crew = some k → reads .ydl (BitVec.ofNat 64 (s.grant k))) ∧
    reads .menddepth (BitVec.ofNat 64 q.regions.length) ∧ reads .mendretry q.mendretry ∧
    reads .coreId (BitVec.ofNat 64 (s.core.id % 128)) ∧ reads .dieId (BitVec.ofNat 64 (s.core.id / 128 % 4)) ∧
    reads .flags (q.flags.setWidth 64) ∧
    (∀ x : Seat, s.core.seat = some x →
      reads .crewSize (BitVec.ofNat 64 x.size) ∧ reads .crewRank (BitVec.ofNat 64 x.rank) ∧
      reads .ctxId (BitVec.ofNat 64 x.ctx) ∧ reads .encv (BitVec.ofNat 64 x.res.encv))

/-- R103: what `csr.write` and `csr.swap` leave in each register that they accept: `TVEC` and `TPC` drop bits [1:0], `TCAUSE`,
`CLKMAX` and `FLAGS` keep their widths, and a `CLKMAX` below 20 becomes 20. `csr.swap` writes the old value to gd. On a register
that is read alone both are ILLEGAL. Nothing else changes. -/
def Obligations.ControlRegistersAreWritten : Prop :=
  ∀ (s : State) (rd ra : Reg),
    let w := s.reg ra
    let stores := fun (r : Csr) (f : Sequencer → Sequencer) =>
      (s.seqReady [ra] 0 → exec (.csrWrite ra r) s = .next (s.advanced 0 (fun q => { f q with pc := s.nextPc }))) ∧
      (s.seqReady [ra] rd → exec (.csrSwap rd ra r) s = .next (s.advanced 0 (fun q => { f q with
        g := if rd = 0 then q.g else q.g.set rd ⟨s.csr r, true⟩, pc := s.nextPc })))
    stores .tvec (fun q => { q with tvec := w &&& ~~~(3 : Word) }) ∧
    stores .tcause (fun q => { q with tcause := w.setWidth 16 }) ∧
    stores .taddr (fun q => { q with taddr := w }) ∧
    stores .tpc (fun q => { q with tpc := w &&& ~~~(3 : Word) }) ∧
    stores .clkmax (fun q => { q with clkmax := if w.toNat % 2 ^ 32 < 20 then 20 else w.setWidth 32 }) ∧
    stores .govstall (fun q => { q with govstall := w }) ∧
    stores .mendretry (fun q => { q with mendretry := w }) ∧
    stores .flags (fun q => { q with flags := w.setWidth 5 }) ∧
    (s.core.seq.asyncReady = false →
      ∀ r ∈ [Csr.ceil, .yreq, .ydl, .menddepth, .coreId, .dieId, .crewSize, .crewRank, .ctxId, .encv],
      exec (.csrWrite ra r) s = .next (s.syncTrap 0x0205 0) ∧ exec (.csrSwap rd ra r) s = .next (s.syncTrap 0x0205 0))

/-- R78, R296: an instruction of the sequencer with an empty source that no load targets traps with QEMPTY and the register's number,
before any effect, whatever it computes; one whose empty source a load targets waits. So for each source of each word that reads
registers, while its other sources are full. An instruction other than a load waits too while a load targets its destination. -/
def Obligations.EmptyRegistersTrapOrWait : Prop :=
  ∀ (s : State) (rd ra rb : Reg) (h : Hnd) (imm : BitVec 16) (n : BitVec 6) (p : Fin 4) (v : Fin 8) (csr : Csr) (size : AtomSize)
    (scope : Scope), s.core.seq.asyncReady = false → s.core.seq.cinch = none →
    let q := s.core.seq
    let source := fun (i : Instr) (src : List Reg) => ∀ x ∈ src, q.regFull x = false → (∀ y ∈ src, y = x ∨ q.regFull y = true) →
      (q.targeted x = false → exec i s = .next (s.syncTrap 0x0302 (BitVec.ofNat 64 x.val))) ∧
      (q.targeted x = true → exec i s = .next s.held)
    let binary := [Instr.add rd ra rb, .sub rd ra rb, .and rd ra rb, .or rd ra rb, .xor rd ra rb, .shl rd ra rb, .shr rd ra rb,
      .sar rd ra rb, .slt rd ra rb, .sltn rd ra rb, .min rd ra rb, .max rd ra rb, .minn rd ra rb, .maxn rd ra rb, .mul rd ra rb,
      .mulh rd ra rb, .mulhn rd ra rb, .div rd ra rb, .divn rd ra rb, .rem rd ra rb, .remn rd ra rb]
    let unary := [Instr.clz rd ra, .popc rd ra, .addi rd ra imm, .andi rd ra imm, .ori rd ra imm, .xori rd ra imm, .shli rd ra n,
      .shri rd ra n, .sari rd ra n, .slti rd ra imm]
    let atoms := [Instr.atomAdd rd ra rb size scope, .atomSwap rd ra rb size scope, .atomCas rd ra rb size scope,
      .atomMin rd ra rb size scope, .atomMax rd ra rb size scope, .atomOr rd ra rb size scope, .atomAnd rd ra rb size scope]
    (∀ i ∈ binary, source i [ra, rb]) ∧
    (∀ i ∈ unary, source i [ra]) ∧
    source (.movk rd p imm) [rd] ∧
    (∀ i ∈ [Instr.beq ra rb imm, .bne ra rb imm, .blt ra rb imm, .bge ra rb imm, .bltn ra rb imm, .bgen ra rb imm],
      source i [ra, rb]) ∧
    source (.jalr rd ra imm) [ra] ∧
    (∀ i ∈ [Instr.ldB rd ra imm, .ldBs rd ra imm, .ldH rd ra imm, .ldHs rd ra imm, .ldW rd ra imm, .ldWs rd ra imm,
      .ldD rd ra imm], source i [ra]) ∧
    (∀ i ∈ [Instr.stB rd ra imm, .stH rd ra imm, .stW rd ra imm, .stD rd ra imm], source i [rd, ra]) ∧
    (∀ i ∈ [Instr.hndBind rd ra h, .swArm rd ra h, .swWait rd ra h, .bilAdv rd ra h, .bilPost rd ra h], source i [rd, ra]) ∧
    (∀ i ∈ [Instr.swReadTarget rd ra h, .swReadCount rd ra h, .swReadGen rd ra h, .swReadCode rd ra h, .bilClaim rd ra h,
      .viewSet v ra], source i [ra]) ∧
    source (.wqPush ra rb) [ra, rb] ∧
    (1 ≤ scope.code → scope.code ≤ 8 → ∀ i ∈ atoms, source i [rd, ra, rb]) ∧
    (scope = .package ∨ scope = .time →
      source (.stStamp rd ra rb scope) [ra, rb] ∧ source (.ldAsof rd ra rb scope) [ra, rb]) ∧
    (s.widthCheck = none → source (.clkWait ra) [ra]) ∧
    (q.regions ≠ [] → source (.mendSave rd ra h) [rd, ra]) ∧
    (csr.writable = true → source (.csrWrite ra csr) [ra] ∧ source (.csrSwap rd ra csr) [ra]) ∧
    (rd ≠ 0 → q.targeted rd = true → q.regFull ra = true → q.regFull rb = true →
      ∀ i ∈ binary ++ unary ++ [Instr.movi rd imm, .csrRead rd csr], exec i s = .next s.held)

/-- R296, R297, R301: a synchronous cause with a handler and no active trap enters the handler: `TCAUSE` and `TADDR` take the cause
and its detail, `TPC` the offset of the instruction (of the `cinch.open` inside a cinch), the trap record is written, `tactive`
is set, and the program counter becomes `TVEC`; registers, queues, regions, engines and memory stay as they are. Without a
handler, or with a trap active, the context halts with the code instead. R297, R312: raising a halt marks the context with the
code, its detail, the core and the cycle, the first cause stands, and nothing else changes, in no other context either. -/
def Obligations.TrapsAreEnteredOrHalt : Prop :=
  (∀ (s : State) (code : BitVec 16) (d : Word),
      let t := s.syncTrap code d
      (s.core.seq.tvec ≠ 0 → s.core.seq.tactive = false →
        t.core.seq.tcause = code ∧ t.core.seq.taddr = d ∧ t.core.seq.tactive = true ∧ t.core.seq.pc = s.core.seq.tvec ∧
        (s.core.seq.cinch = none → t.core.seq.tpc = s.core.seq.pc) ∧
        (∀ c : Cinch, s.core.seq.cinch = some c → t.core.seq.tpc = c.pc) ∧ t.core.seq.cinch = none ∧
        t.core.seq.g = s.core.seq.g ∧ t.core.seq.h = s.core.seq.h ∧ t.core.seq.lq = s.core.seq.lq ∧
        t.core.seq.sq = s.core.seq.sq ∧ t.core.seq.regions = s.core.seq.regions ∧ t.core.seq.flags = s.core.seq.flags ∧
        t.core.seq.traps = s.core.seq.traps ∧ t.core.vec = s.core.vec ∧ t.core.mat = s.core.mat ∧ t.core.xfer = s.core.xfer ∧
        t.core.tree = s.core.tree ∧ t.core.wb = s.core.wb ∧ s.sameMemory t ∧ t.ctxs = s.ctxs ∧
        t.core.written = s.core.written.set 0 (s.core.written[0] + 1) ∧
        (t.core.records[0]).toNat / 2 ^ 16 % 2 ^ 16 = code.toNat ∧ (t.core.records[0]).toNat / 2 ^ 8 % 16 = 2 ∧
        (t.core.records[0]).toNat / 2 ^ 128 % 2 ^ 64 = d.toNat) ∧
      (s.core.seq.tvec = 0 ∨ s.core.seq.tactive = true → t = s.haltContext s.core.ctxNum code s.core.id false d)) ∧
  (∀ (s : State) (n : Nat) (code : BitVec 16) (core : Nat) (debug : Bool) (d : Word) (c : Context), s.ctx n = some c →
      let t := s.haltContext n code core debug d
      (c.halt = none → t.ctx n = some { c with halt := some ⟨code, d, core, debug, false, s.now⟩ }) ∧
      (c.halt ≠ none → t.ctx n = some c) ∧ (∀ m : Nat, m ≠ n → t.ctx m = s.ctx m) ∧ t = { s with ctxs := t.ctxs })

/-- R298: `trap` of a program code enters the handler with the next word as the resume point and a detail of 0; a code below 0x8000
is ILLEGAL; without a handler, or in one, the context halts with the program code. R299: `tret` in a handler goes back to `TPC`
and clears `tactive`; when the trap was entered for an engine stop that `TADDR` still names and that stream is still STOPPED,
the stream returns to RUN, at the program counter of its stop record. Outside a handler it is ILLEGAL. R19, R86, R296, R297: a
waiting sequencer with a handler takes the one asynchronous cause that is due: DATA_LOST resumes at its load, an engine stop and
a strike at the instruction that waited, which is abandoned. -/
def Obligations.TrapWordTretAndQueuedTraps : Prop :=
  (∀ (s : State) (imm : BitVec 16), s.core.seq.wait = false ∨ s.core.seq.asyncReady = false →
      (imm.toNat < 0x8000 → exec (.trap imm) s = .next (s.syncTrap 0x0205 0)) ∧
      (0x8000 ≤ imm.toNat → s.core.seq.tvec ≠ 0 → s.core.seq.tactive = false → s.core.seq.cinch = none →
        ∃ t, exec (.trap imm) s = .next t ∧ t.core.seq.tcause = imm ∧ t.core.seq.taddr = 0 ∧ t.core.seq.tpc = s.nextPc ∧
          t.core.seq.tactive = true ∧ t.core.seq.pc = s.core.seq.tvec ∧ t.core.seq.trapStop = none ∧ s.sameMemory t ∧
          t.core.seq.g = s.core.seq.g ∧ t.core.seq.lq = s.core.seq.lq ∧ t.core.seq.sq = s.core.seq.sq ∧
          t.core.seq.regions = s.core.seq.regions ∧ t.core.seq.flags = s.core.seq.flags) ∧
      (0x8000 ≤ imm.toNat → s.core.seq.tvec = 0 ∨ s.core.seq.tactive = true →
        exec (.trap imm) s = .next (s.haltContext s.core.ctxNum imm s.core.id false 0))) ∧
  (∀ (s : State),
      (s.core.seq.tactive = false → s.core.seq.wait = false ∨ s.core.seq.asyncReady = false →
        exec .tret s = .next (s.syncTrap 0x0205 0)) ∧
      (s.core.seq.tactive = true →
        (s.core.seq.trapStop = none →
          exec .tret s = .next (s.advanced 0 (fun q => { q with pc := q.tpc, tactive := false, trapStop := none, stopHeld := false, again := q.kept, kept := [] }))) ∧
        (∀ e : Eng, s.core.seq.trapStop = some e →
          (s.core.seq.taddr ≠ BitVec.ofNat 64 e.code ∨ (s.core.eng e).st ≠ .stopped →
            exec .tret s = .next (s.advanced 0 (fun q => { q with pc := q.tpc, tactive := false, trapStop := none, stopHeld := false, again := q.kept, kept := [] }))) ∧
          (s.core.seq.taddr = BitVec.ofNat 64 e.code → (s.core.eng e).st = .stopped → (s.core.eng e).strike = none →
            ∃ t, exec .tret s = .next t ∧ (t.core.eng e).st = .run ∧ (t.core.eng e).pc = (s.core.eng e).pc ∧
              t.core.seq.pc = s.core.seq.tpc ∧ t.core.seq.tactive = false ∧ t.core.seq.g = s.core.seq.g ∧ s.sameMemory t)))) ∧
  (∀ (s : State) (n : Nat) (c : TrapCause), s.liveCore n = true →
      let u := s.focus n
      u.mayIssue .seq = true → u.core.seq.wait = true → u.core.seq.tactive = false → u.core.seq.traps = [c] →
      u.core.seq.tvec ≠ 0 → u.core.seq.cinch = none →
      ∃ t, exec (.trapEntry n) s = .next t ∧ t.core.seq.tactive = true ∧ t.core.seq.pc = u.core.seq.tvec ∧
        t.core.seq.wait = false ∧ t.core.seq.traps = [] ∧ t.core.seq.g = u.core.seq.g ∧ u.sameMemory t ∧
        (∀ (va pc : Word), c = .dataLost va pc → t.core.seq.tcause = 0x0102 ∧ t.core.seq.taddr = va ∧ t.core.seq.tpc = pc) ∧
        (∀ (e : Eng) (code : BitVec 16) (since : Nat), c = .stop e code since → t.core.seq.tcause = code ∧
          t.core.seq.taddr = BitVec.ofNat 64 e.code ∧ t.core.seq.tpc = u.core.seq.pc ∧ t.core.seq.trapStop = some e) ∧
        (∀ l m : Bool, c = .strike l m → t.core.seq.tcause = 0x0101 ∧ t.core.seq.tpc = u.core.seq.pc))

/-- R289, R290, R292: `mend.open` records registers, place and depth of a new region once the load queue is empty; `mend.save`
copies the bytes and charges them; `mend.close` of an inner region whose wait is met hands everything to the region around it;
of the outermost with nothing held it ORs the pending flags into `FLAGS`; before its wait is met it waits. Five deep is
MENDFULL, and a save or a close outside a region is ILLEGAL. Memory stays as it is. R82, R291, R292: the release of an outermost
region performs its held store, a misaligned one byte by byte: its bytes stand in memory and no other byte changes. R307: MEND_RELEASE and INNER_CLOSE
make a stream that stands at its close execute it, the one at depth one and the other deeper; at any other depth they change
nothing but which core is looked at. For the sequencer's close they complete: the region is gone, or handed to the one around it. The detail
of MENDFULL is a free value (log 5); the count of rollbacks that a region which opens again starts from is log 17's reading, the wait of
a close log 9's; that a fifth `mend.open` is MENDFULL, where R58 could be read as ILLEGAL, is the model's choice (log 24). -/
def Obligations.MendRegionsOpenSaveAndClose : Prop :=
  (∀ (s : State) (rd ra : Reg) (h : Hnd), s.core.seq.asyncReady = false →
      (s.core.seq.regions.length < 4 → s.core.seq.lq = [] →
        exec .mendOpen s = .next (s.advanced 1 (fun q => { q with
          regions := ⟨q.pc, s.core.issue, q.g, 0, [], [], 0, againCount q.again q.regions.length q.pc⟩ :: q.regions
          pc := s.nextPc }))) ∧
      (s.core.seq.regions.length < 4 → s.core.seq.lq ≠ [] → exec .mendOpen s = .next s.held) ∧
      (4 ≤ s.core.seq.regions.length → exec .mendOpen s = .next (s.syncTrap 0x0501 s.openDetail)) ∧
      (s.core.seq.regions = [] → exec (.mendSave rd ra h) s = .next (s.syncTrap 0x0205 0) ∧
        exec .mendClose s = .next (s.syncTrap 0x0205 0)) ∧
      (∀ (r : SeqRegion) (l : List SeqRegion) (p : PAddr), s.core.seq.regions = r :: l → s.seqReady [rd, ra] 0 →
        let len := (s.reg rd).toNat
        s.core.saveBytes h (s.reg ra).toNat len = some p → s.core.roomFor (roundUp 64 len) 0 = true → s.core.seq.sq = [] →
        s.eccRead (placesFrom p len) = .ok →
        exec (.mendSave rd ra h) s = .next (s.advanced 0 (fun q => { q with
          regions := { r with saved := ⟨p, (placesFrom p len).map s.readByte, false⟩ :: r.saved
                              charge := r.charge + roundUp 64 len } :: l
          pc := s.nextPc }))) ∧
      (∀ (r p : SeqRegion) (l : List SeqRegion), s.core.seq.regions = r :: p :: l → s.seqCloseReady = true →
        ∃ t, exec .mendClose s = .next t ∧ t.core.seq.regions = { p with
            saved := r.saved ++ p.saved, held := p.held ++ r.held, mask := p.mask ||| r.mask, charge := p.charge + r.charge } :: l ∧
          t.core.seq.pc = s.nextPc ∧ t.core.seq.flags = s.core.seq.flags ∧ s.sameButSeq t) ∧
      (∀ r : SeqRegion, s.core.seq.regions = [r] → s.seqCloseReady = true → r.held = [] →
        ∃ t, exec .mendClose s = .next t ∧ t.core.seq.regions = [] ∧ t.core.seq.flags = s.core.seq.flags ||| r.mask ∧
          t.core.seq.pc = s.nextPc ∧ s.sameButSeq t) ∧
      (s.core.seq.regions ≠ [] → s.seqCloseReady = false → s.core.seq.releasing = false → exec .mendClose s = .next s.held)) ∧
  (∀ (s : State) (r : SeqRegion) (va : Nat) (cells : List (PAddr × Byte)) (binds : List Nat) (begun told : Bool), s.memWf = true →
      s.core.seq.asyncReady = false → s.core.seq.regions = [r] → s.seqCloseReady = true →
      r.held = [.store va cells binds begun told] → s.storeReady = true →
      let m := cells.length
      let whole := m ≤ 1 ∨ (begun = false ∧ (m = 2 ∨ m = 4 ∨ m = 8) ∧ ∀ c ∈ cells.head?, c.1.addr % m = 0)
      let now := if whole then cells else cells.take 1
      s.eccWrite now = .ok →
      ∃ t, exec .mendClose s = .next t ∧ t.core.seq.g = s.core.seq.g ∧ s.sameOutside t (now.map Prod.fst) ∧
        ((now.map Prod.fst).Nodup → ∀ c ∈ now, t.readByte c.1 = c.2) ∧
        (whole → t.core.seq.regions = [] ∧ t.core.seq.flags = s.core.seq.flags ||| r.mask ∧ t.core.seq.pc = s.nextPc) ∧
        (¬ whole → t.core.seq.regions = [{ r with held := [.store va (cells.drop 1) binds true told] }] ∧
          t.core.seq.flags = s.core.seq.flags ∧ t.core.seq.pc = s.core.seq.pc ∧ t.core.seq.wait = true)) ∧
  (∀ (s : State) (n : Nat), s.liveCore n = true →
      let u := s.focus n
      let closes := fun (st : StreamId) (i : Instr) => u.standing st = some i →
        (u.core.depth st = 1 → exec (.mendRelease n st) s = exec i u ∧ exec (.innerClose n st) s = .next u) ∧
        (2 ≤ u.core.depth st → exec (.innerClose n st) s = exec i u ∧ exec (.mendRelease n st) s = .next u)
      closes .seq .mendClose ∧ closes .vec .vMendClose ∧ closes .xfer .xMendClose ∧
      (u.standing .seq = some .mendClose → u.core.seq.asyncReady = false → u.seqCloseReady = true →
        (∀ r : SeqRegion, u.core.seq.regions = [r] → r.held = [] →
          ∃ t, exec (.mendRelease n .seq) s = .next t ∧ t.core.seq.regions = [] ∧ t.core.seq.flags = u.core.seq.flags ||| r.mask ∧
            t.core.seq.pc = u.nextPc ∧ u.sameButSeq t) ∧
        (∀ (r p : SeqRegion) (l : List SeqRegion), u.core.seq.regions = r :: p :: l →
          ∃ t, exec (.innerClose n .seq) s = .next t ∧ t.core.seq.regions = { p with
              saved := r.saved ++ p.saved, held := p.held ++ r.held, mask := p.mask ||| r.mask, charge := p.charge + r.charge } :: l ∧
            t.core.seq.pc = u.nextPc ∧ t.core.seq.flags = u.core.seq.flags ∧ u.sameButSeq t)))

/-- R294: `inj.strike` in a context with debug permission makes a report for its stream pending, due after its delay or in the next
cycle, and is ILLEGAL without the permission; while a report for the stream is pending it waits. R293, R294, R295, R297, R303: a
report that is due reaches its stream, injected or not. For the sequencer outside a region it queues STRIKE, or halts the
context while a trap is active; inside one whose store queue is empty and that saved nothing it restores the registers of the
innermost region, drops its loads and goes back to its `mend.open`. R300: a region that stood open when the active trap was taken
abandons the handler; one that the handler opened leaves the trap active. A rollback waits until every queued store may be performed,
which is the model's choice (log 24). -/
def Obligations.StrikeReportsReachTheSequencer : Prop :=
  (∀ (s : State) (st : StreamId) (imm : BitVec 16), s.core.seq.asyncReady = false →
      (s.debugAllowed = false → exec (.injStrike st imm) s = .next (s.syncTrap 0x0205 0)) ∧
      (s.debugAllowed = true → (∀ r ∈ s.core.injected, r.stream ≠ st) →
        exec (.injStrike st imm) s = .next (State.passing { s with core := { s.core with
          injected := s.core.injected ++ [⟨st, s.now + max 1 imm.toNat⟩] } } s.nextPc)) ∧
      (s.debugAllowed = true → (∃ r ∈ s.core.injected, r.stream = st) → exec (.injStrike st imm) s = .next s.held)) ∧
  (∀ (s : State) (n : Nat) (due : Nat), s.liveCore n = true →
      let u := s.focus n
      u.core.seq.ended = false → u.core.seq.releasing = false → due ≤ u.now →
      u.core.reports = [⟨[.seq], due⟩] ∧ u.core.injected = [] ∨ u.core.reports = [] ∧ u.core.injected = [⟨.seq, due⟩] →
      let i : Instr := if u.core.reports = [] then .injectedStrikeDue n .seq else .strikeReport n
      (u.rollbackReady = false → exec i s = .next u) ∧
      (u.core.seq.regions = [] ∨ u.core.seq.sq = [] → ∃ t, exec i s = .next t ∧ t.core.reports = [] ∧ t.core.injected = [] ∧
        (u.core.seq.regions = [] → u.core.seq.tactive = false →
          t.core.seq.traps = u.core.seq.traps ++ [.strike (u.core.mayLeft .seq u.now) (u.core.mayCore .seq u.now)] ∧
          t.core.seq.g = u.core.seq.g ∧ t.core.seq.pc = u.core.seq.pc ∧ u.sameMemory t) ∧
        (u.core.seq.regions = [] → u.core.seq.tactive = true → (∃ c : Context, u.ctx u.core.ctxNum = some c) →
          t.ctxHalted u.core.ctxNum = true ∧ t.core.seq = u.core.seq) ∧
        (∀ (r : SeqRegion) (l : List SeqRegion), u.core.seq.regions = r :: l → u.core.seq.sq = [] → r.saved = [] →
          r.retries < 3 →
          t.core.seq.g = r.snap ∧ t.core.seq.pc = r.pc ∧ t.core.seq.regions = l ∧ t.core.seq.lq = [] ∧
          t.core.seq.mendretry = u.core.seq.mendretry + 1 ∧ t.core.seq.flags = u.core.seq.flags ∧
          (r.seq < u.core.seq.trapSeq → t.core.seq.tactive = false) ∧ (u.core.seq.tactive = false → t.core.seq.tactive = false) ∧
          (u.core.seq.tactive = true → u.core.seq.trapSeq ≤ r.seq → t.core.seq.tactive = true ∧
            t.core.seq.trapStop = u.core.seq.trapStop ∧ t.core.seq.stopHeld = u.core.seq.stopHeld) ∧ u.sameMemory t)))

/-- R228, R229: `clk.read` writes the die's earliest bound to gd and then its latest to gb; `clk.wait` goes on once the earliest
bound exceeds the limit and waits until then; a width beyond `CLKMAX` is CLKWIDE with the width as its detail. R206: `ld.asof`,
with an empty load queue and its stamp surely past in the scope, writes the data of the newer version whose stamp is at most t,
version 1 on a tie, and traps with STALE when there is none. R207: it waits while its stamp is not surely past, or a stamped store
that it has to see is still queued. A floor is compared in whole ns (log 7); that `ld.asof` is translated as a read, so that a page which
may only be read serves it, and the moment at which the group's membership counts for a queued stamp, are the model's choice (log 24). -/
def Obligations.ClocksAreReadAndOldVersionsLoaded : Prop :=
  (∀ (s : State) (rd rb ra : Reg),
      (s.widthCheck = none →
        (s.seqReady [] rd → s.seqReady [] rb →
          exec (.clkRead rd rb) s = .next ((s.resulting rd (BitVec.ofInt 64 s.clock.early) s.core.seq.pc).resulting rb
            (BitVec.ofInt 64 s.clock.late) s.nextPc)) ∧
        (s.seqReady [ra] 0 →
          (s.clock.early > (s.reg ra).toInt → exec (.clkWait ra) s = .next (s.passing s.nextPc)) ∧
          (¬ s.clock.early > (s.reg ra).toInt → exec (.clkWait ra) s = .next s.held))) ∧
      (∀ d : Word, (∃ w : Int, s.clock.width = some w ∧ w > s.core.seq.clkmax.toNat ∧ d = BitVec.ofInt 64 w) ∨
          s.clock.width = none ∧ d = BitVec.ofNat 64 (2 ^ 63 - 1) →
        (s.core.seq.wait = false ∨ s.core.seq.asyncReady = false → exec (.clkRead rd rb) s = .next (s.syncTrap 0x0401 d)) ∧
        (s.core.seq.wait = false → exec (.clkWait ra) s = .next (s.syncTrap 0x0401 d)))) ∧
  (∀ (s : State) (rd ra rb : Reg) (scope : Scope) (pa : PAddr) (cells : List PAddr) (binds : List Nat),
      s.seqReady [ra, rb] rd → s.core.seq.cinch = none → scope = .package ∨ scope = .time →
      let va := (s.reg ra).toNat
      let t := (s.reg rb).toInt
      va % 32 = 0 → s.xlAccess va 32 false = .ok (pa :: cells) binds → pa.space ≠ .host → s.widthCheck = none →
      let s0 := sextNat 64 (s.readNat pa 8)
      let s1 := sextNat 64 (s.readNat (pa.plus 16) 8)
      let d0 := BitVec.ofNat 64 (s.readNat (pa.plus 8) 8)
      let d1 := BitVec.ofNat 64 (s.readNat (pa.plus 24) 8)
      let due := ∃ c ∈ s.cores, ∃ e ∈ c.seq.sq, ∃ (k : Scope) (st : Int) (v : Word),
        e.kind = .stamp k st pa v ∧ st ≤ t ∧ (k = .package ∨ scope = .time ∨ inGroup s.group.state = false)
      (s.core.seq.lq = [] → s.core.fenceHoldsNew .lq = false → s.surelyPast scope t = true → ¬ due →
        s.eccRead (placesFrom pa 32) = .ok →
        (s1 ≤ t → s0 ≤ s1 ∨ t < s0 → exec (.ldAsof rd ra rb scope) s = .next (s.resulting rd d1 s.nextPc)) ∧
        (s0 ≤ t → s1 < s0 ∨ t < s1 → exec (.ldAsof rd ra rb scope) s = .next (s.resulting rd d0 s.nextPc)) ∧
        (t < s0 → t < s1 → s.core.seq.wait = false →
          exec (.ldAsof rd ra rb scope) s = .next (s.syncTrap 0x0402 (BitVec.ofNat 64 va)))) ∧
      (s.core.seq.lq ≠ [] ∨ s.surelyPast scope t = false ∨ due → s.core.seq.wait = false →
        exec (.ldAsof rd ra rb scope) s = .next s.held))

/-- R205: `st.stamp`, with an empty store queue and a narrow clock, takes the die's latest bound as its stamp, writes it to gd, and
queues the version; a scope other than PACKAGE and TIME is ILLEGAL, an address that is no multiple of 32 BOUNDS. R205, R227: a
stamped version at the head of the queue is performed once the scope's floor exceeds its stamp: it replaces the older of the
cell's two versions, the first on a tie, unless its stamp is older still; no byte outside the cell changes. Until then it stays.
A floor is compared in whole ns (log 7). -/
def Obligations.StampedStoresAreQueuedAndPerformed : Prop :=
  (∀ (s : State) (rd ra rb : Reg) (scope : Scope), s.seqReady [ra, rb] rd → s.plain → s.core.seq.sq = [] →
      let va := (s.reg ra).toNat
      (scope ≠ .package → scope ≠ .time → exec (.stStamp rd ra rb scope) s = .next (s.syncTrap 0x0205 0)) ∧
      (scope = .package ∨ scope = .time →
        (va % 32 ≠ 0 → s.core.seq.wait = false →
          exec (.stStamp rd ra rb scope) s = .next (s.syncTrap 0x0201 (BitVec.ofNat 64 va))) ∧
        (∀ (pa : PAddr) (cells : List PAddr) (binds : List Nat), va % 32 = 0 →
          s.xlAccess va 32 true = .ok (pa :: cells) binds → pa.space ≠ .host → s.widthCheck = none →
          exec (.stStamp rd ra rb scope) s = .next (s.advanced 1 (fun q => { q with
            sq := q.sq ++ [⟨s.core.issue, q.pc, va, .stamp scope s.clock.late pa (s.reg rb), binds, false, false⟩]
            g := if rd = 0 then q.g else q.g.set rd ⟨BitVec.ofInt 64 s.clock.late, true⟩
            pc := s.nextPc }))))) ∧
  (∀ (s : State) (n : Nat) (e : StoreEntry) (l : List StoreEntry) (scope : Scope) (st : Int) (pa : PAddr) (v : Word),
      s.memWf = true → s.liveCore n = true →
      let u := s.focus n
      u.core.seq.sq = e :: l → e.kind = .stamp scope st pa v →
      let s0 := sextNat 64 (u.readNat pa 8)
      let s1 := sextNat 64 (u.readNat (pa.plus 16) 8)
      let m := if s0 ≤ s1 then 0 else 16
      (u.surelyPast scope st = false → exec (.stampedStorePerformed n) s = .next u) ∧
      (u.surelyPast scope st = true → u.core.fenceHolds .sq e.seq = false → u.eccRead (placesFrom pa 32) = .ok →
        ∃ t, exec (.stampedStorePerformed n) s = .next t ∧ t.core.seq.sq = l ∧ u.sameOutside t (placesFrom pa 32) ∧
          t.core.seq.g = u.core.seq.g ∧
          (min s0 s1 ≤ st → t.readNat (pa.plus m) 8 = (st % 2 ^ 64).toNat ∧ t.readNat (pa.plus (m + 8)) 8 = v.toNat ∧
            t.readNat (pa.plus (16 - m)) 16 = u.readNat (pa.plus (16 - m)) 16) ∧
          (st < min s0 s1 → u.sameMemory t)))

/-- R258, R259: once everything before it is performed, `bil.claim` takes a row that stands in its phase and is not busy, sets busy
and counts the change, writes the row's number and changes no other byte; with no such row it writes all ones and no memory.
R267: `wq.push` of a block of the core's own local store, with an empty store queue and room in the target's queue, appends the
block's 128 bytes to that queue and changes no other queue and no memory; with a full queue it waits. Which of several free rows
is taken is a free value (log 5). -/
def Obligations.BilletClaimsAndPushes : Prop :=
  (∀ (s : State) (rd ra : Reg) (h : Hnd) (b : Binding) (k : Harness), s.memWf = true → s.seqReady [ra] rd → s.plain →
      let p := (s.reg ra).toNat
      s.tableBinding h = some (b, k) → claimPhase p = true → s.fenced = true →
      ((∃ x ∈ tableRows b k, s.claimable p x.2 = true) →
        ∃ (t : State) (q : Nat) (pa : PAddr), exec (.bilClaim rd ra h) s = .next t ∧ (q, pa) ∈ tableRows b k ∧
          s.claimable p pa = true ∧ t.readNat pa 8 = rowWord (rowSeq (s.readNat pa 8) + 1) true p ∧
          s.sameOutside t (placesFrom pa 8) ∧
          t.core.seq.g = (s.resulting rd (BitVec.ofNat 64 q) s.nextPc).core.seq.g ∧ t.core.seq.pc = s.nextPc) ∧
      ((∀ x ∈ tableRows b k, s.claimable p x.2 = false ∧ s.eccRead (placesFrom x.2 8) = .ok) →
        exec (.bilClaim rd ra h) s = .next (s.resulting rd (BitVec.allOnes 64) s.nextPc))) ∧
  (∀ (s : State) (ra rb : Reg), s.seqReady [ra, rb] 0 → s.plain →
      let va := (s.reg ra).toNat
      let target := (s.reg rb).toNat
      let bytes := (placesFrom (s.core.ownPlace va) 128).map s.readByte
      (s.core.ownBlock va = false → exec (.wqPush ra rb) s = .next (s.syncTrap 0x0201 (BitVec.ofNat 64 va))) ∧
      (∀ (cells : List PAddr) (binds : List Nat), s.core.ownBlock va = true → coreExists target = true →
        s.inPartition target = true → s.xlAccess va 128 false = .ok cells binds →
        s.eccRead (placesFrom (s.core.ownPlace va) 128) = .ok →
        (s.pushReady target = true →
          ∃ t, exec (.wqPush ra rb) s = .next t ∧
            t.queueOf target = s.queueOf target ++ [⟨va, bytes, s.core.ctxNum, s.core.id⟩] ∧
            (∀ other : Nat, other ≠ target → t.queueOf other = s.queueOf other) ∧ s.sameMemory t ∧
            t.core.seq.pc = s.nextPc ∧ t.core.seq.g = s.core.seq.g) ∧
        (s.pushReady target = false → exec (.wqPush ra rb) s = .next s.held)))

/-- R258, R260, R261: `bil.adv` and `bil.post` of an allowed phase queue a store for the row, and change no memory yet; a phase that
the word does not allow is BOUNDS with the phase. R260, R261, R262: a billet store is performed on its row: an advance of a busy
row, into a phase that completes nothing, and a post of a free row write phase, busy and the changed count; an advance of a row
that is not busy and a post of one that is not free write nothing to the table. -/
def Obligations.BilletStoresMoveTheirRow : Prop :=
  (∀ (s : State) (rd ra : Reg) (h : Hnd) (b : Binding) (k : Harness) (pa : PAddr), s.seqReady [rd, ra] 0 → s.plain →
      let p := (s.reg rd).toNat
      let row := (s.reg ra).toNat
      s.tableBinding h = some (b, k) → rowPlace b k row = some pa →
      let queues := fun (i : Instr) (ok : Bool) (kind : StoreKind) =>
        (ok = true → s.core.seq.sq.length < 32 → exec i s = .next (s.advanced 1 (fun q => { q with
          sq := q.sq ++ [⟨s.core.issue, q.pc, k.table + 128 * row, kind, [b.id], false, false⟩], pc := s.nextPc }))) ∧
        (ok = false → exec i s = .next (s.syncTrap 0x0201 (BitVec.ofNat 64 p)))
      queues (.bilAdv rd ra h) (decide (p ≤ 47 ∨ p = 62)) (.adv row p pa) ∧
      queues (.bilPost rd ra h) (decide (1 ≤ p ∧ p ≤ 47)) (.post row p pa)) ∧
  (∀ (s : State) (n : Nat) (e : StoreEntry) (l : List StoreEntry) (row p : Nat) (pa : PAddr) (k : Harness),
      s.memWf = true → s.liveCore n = true →
      let u := s.focus n
      let w := u.readNat pa 8
      let moved := ∃ t, exec (.storePerformed n) s = .next t ∧ t.core.seq.sq = l ∧
        t.readNat pa 8 = rowWord (rowSeq w + 1) false p ∧ u.sameOutside t (placesFrom pa 8)
      let kept := ∃ t, exec (.storePerformed n) s = .next t ∧ t.core.seq.sq = l ∧ t.readNat pa 8 = w ∧ t.hbm = u.hbm
      u.core.seq.sq = e :: l → u.core.fenceHolds .sq e.seq = false → u.eccRead (placesFrom pa 8) = .ok → pa.space = .hbm →
      (u.ctx u.core.ctxNum).bind (·.harness) = some k →
      (e.kind = .adv row p pa → p ≠ 62 → finalPhase k p = false → rowBusy w = true → moved) ∧
      (e.kind = .adv row p pa → rowBusy w = false → kept) ∧
      (e.kind = .post row p pa → rowPhase w = 0 → rowBusy w = false → moved) ∧
      (e.kind = .post row p pa → rowPhase w ≠ 0 ∨ rowBusy w = true → kept))

/-- R132, R133, R134, R136, R137, R139, R141, R142, R150, R151, R155, R157, R158: a lane-wise instruction under a type that it
accepts, whose operands R27 and R29 let it use, writes lane i of its destination from lane i of its sources, for every active i
below the lane count, and zero for the inactive ones; it consumes what its views consume, raises its flags and goes on. `v.sel`
treats every lane as active. Under another type it stops with ILLEGAL. -/
def Obligations.VectorLanesCompute : Prop :=
  ∀ (s : State) (d a b : TreeOp) (wa wb : Bool) (pd pa pb : Placed),
    let sh := s.core.vec.shape
    let t := sh.ty
    let w := t.width
    let x := fun (i : Nat) => (s.core.lanes pa.line w sh.lanes).getD i 0
    let y := fun (i : Nat) => (s.core.lanes pb.line w sh.lanes).getD i 0
    let n := linesFor (sh.lanes * w)
    let refuses := fun (i : Instr) => exec i s = .next (s.issueVec (.stop 0x0205))
    let two := fun (i : Instr) (ok : Bool) (f : Nat → Nat → Nat) =>
      (ok = false → refuses i) ∧
      (ok = true → s.vecPlaces [(d, n), (a, n), (b, n)] = some [pd, pa, pb] → s.vecOpen [⟨pa, wa⟩, ⟨pb, wb⟩] [pd] →
        exec i s = .next (s.lanesRetired [⟨pa, wa⟩, ⟨pb, wb⟩] pd w (fun i => (f (x i) (y i), 0))))
    let one := fun (i : Instr) (ok : Bool) (f : Nat → Nat × BitVec 5) =>
      (ok = false → refuses i) ∧
      (ok = true → s.vecPlaces [(d, n), (a, n)] = some [pd, pa] → s.vecOpen [⟨pa, wa⟩] [pd] →
        exec i s = .next (s.lanesRetired [⟨pa, wa⟩] pd w (fun i => f (x i))))
    let arith := decide (t ≠ .e4m3u)
    let int := !t.isFloat
    let float := decide (t = .bf16 ∨ t = .f32)
    sh.lanes * w ≤ 256 →
    two (.vAdd d a b wa wb) arith (laneArith (· + ·) FVal.add t) ∧
    two (.vSub d a b wa wb) arith (laneArith (· - ·) FVal.sub t) ∧
    two (.vMul d a b wa wb) arith (laneArith (· * ·) FVal.mul t) ∧
    two (.vMin d a b wa wb) arith (laneMin t) ∧
    two (.vMax d a b wa wb) arith (laneMax t) ∧
    two (.vAnd d a b wa wb) int (fun p q => p &&& q) ∧
    two (.vOr d a b wa wb) int (fun p q => p ||| q) ∧
    two (.vXor d a b wa wb) int (fun p q => p ^^^ q) ∧
    two (.vShl d a b wa wb) int (fun p q => if q ≥ 8 * w then 0 else p * 2 ^ q % 2 ^ (8 * w)) ∧
    two (.vShr d a b wa wb) int (fun p q => if q ≥ 8 * w then 0 else p / 2 ^ q) ∧
    two (.vSar d a b wa wb) int (fun p q => wrapInt (8 * w) (sextNat (8 * w) p / 2 ^ min q (8 * w))) ∧
    two (.vPerm d a b wa wb) true (fun _ q => x q) ∧
    two (.vRcpf d a b wa wb) float (laneRefine false t) ∧
    two (.vRsqf d a b wa wb) float (laneRefine true t) ∧
    two (.vHash d a b wa wb) (decide (t = .i32 ∨ t = .n32)) keyedHash ∧
    two (.vNoise d a b wa wb) (decide (t = .f32)) laneNoise ∧
    one (.vAbs d a wa) arith (fun p => (laneAbs t p, 0)) ∧
    one (.vNeg d a wa) arith (fun p => (laneNeg t p, 0)) ∧
    (∀ imm : BitVec 9, one (.vAddi d a wa imm) arith (fun p => (laneWithImm (· + ·) FVal.add imm t p, 0))) ∧
    (∀ imm : BitVec 9, one (.vMuli d a wa imm) arith (fun p => (laneWithImm (· * ·) FVal.mul imm t p, 0))) ∧
    (∀ imm : BitVec 9, imm.toNat < sh.lanes → one (.vBcast d a wa imm) true (fun _ => (x imm.toNat, 0))) ∧
    one (.vClz d a wa) int (fun p => (clzNat (8 * w) p, 0)) ∧
    one (.vPopc d a wa) int (fun p => (popNat (8 * w) p, 0)) ∧
    one (.vRcpa d a wa) float (laneRcpa t) ∧
    one (.vRsqa d a wa) float (laneRsqa t) ∧
    one (.vSigq d a wa) (decide (t = .i32)) (fun p => (laneSigq p, 0)) ∧
    (∀ imm : BitVec 9, (arith = false → refuses (.vMovi d imm)) ∧
      (arith = true → s.vecPlaces [(d, n)] = some [pd] → s.vecOpen [] [pd] →
        exec (.vMovi d imm) s = .next (s.lanesRetired [] pd w (fun _ => (laneImm t imm, 0))))) ∧
    (arith = false → refuses (.vFma d a b wa wb)) ∧
    (arith = true → s.vecPlaces [(d, n), (d, n), (a, n), (b, n)] = some [pd, pd, pa, pb] →
      s.vecOpen [⟨pd, true⟩, ⟨pa, wa⟩, ⟨pb, wb⟩] [pd] →
      exec (.vFma d a b wa wb) s = .next (s.lanesRetired [⟨pd, true⟩, ⟨pa, wa⟩, ⟨pb, wb⟩] pd w (fun i =>
        (laneFma t ((s.core.lanes pd.line w sh.lanes).getD i 0) (x i) (y i), 0)))) ∧
    (s.vecPlaces [(d, n), (a, n), (b, n)] = some [pd, pa, pb] → s.vecOpen [⟨pa, wa⟩, ⟨pb, wb⟩] [pd] →
      exec (.vSel d a b wa wb) s = .next (s.vecRetired [⟨pa, wa⟩, ⟨pb, wb⟩] (laneOut pd.line w
        ((List.range sh.lanes).map (fun i => (if (s.core.vec.masks[sh.mask]).toNat.testBit i then x i else y i, 0)))))) ∧
    (∀ t' : EType, sh.lanes * t'.width ≤ 256 → s.vecPlaces [(d, linesFor (sh.lanes * t'.width)), (a, n)] = some [pd, pa] →
      s.vecOpen [⟨pa, wa⟩] [pd] →
      exec (.vCvt d a t' wa) s = .next (s.lanesRetired [⟨pa, wa⟩] pd t'.width (fun i => convert t t' (x i)))) ∧
    (∀ t' : EType, 256 < sh.lanes * t'.width → exec (.vCvt d a t' wa) s = .next (s.issueVec (.stop 0x0201))) ∧
    (∀ imm : BitVec 9, (int = false → refuses (.vBitt d a wa imm)) ∧
      (int = true → s.vecPlaces [(d, n), (a, 4)] = some [pd, pa] → s.vecOpen [⟨pa, wa⟩] [pd] →
        exec (.vBitt d a wa imm) s = .next (s.lanesRetired [⟨pa, wa⟩] pd w (fun i =>
          (if s.core.treeBit pa.line (imm.toNat + i) then 2 ^ (8 * w) - 1 else 0, 0)))))

/-- R60, R136: on integer lanes the shared lane functions are arithmetic modulo the lane width, with minimum and maximum in the
type's own order. R132: outside a region, a lane-wise result of w-byte lanes that fits four lines leaves each lane below the
lane count as it was computed, marks the lines full, keeps the bytes beyond and every other line, moves the program counter on,
and changes no memory and nothing of the other engines. -/
def Obligations.LaneResultsWrapAndStandInTheTree : Prop :=
  (∀ (t : EType) (x y : Nat), t.isFloat = false → t ≠ .e4m3u →
      let m := 2 ^ (8 * t.width)
      let less := fun (a b : Nat) => if t.signed then sextNat (8 * t.width) a < sextNat (8 * t.width) b else a < b
      x < m → y < m →
      laneArith (· + ·) FVal.add t x y = (x + y) % m ∧
      laneArith (· - ·) FVal.sub t x y = (x + (m - y)) % m ∧
      laneArith (· * ·) FVal.mul t x y = x * y % m ∧
      laneFma t x x y = (x + x * y) % m ∧
      laneNeg t x = (m - x) % m ∧
      (laneMin t x y = x ∨ laneMin t x y = y) ∧ ¬ less x (laneMin t x y) ∧ ¬ less y (laneMin t x y) ∧
      (laneMax t x y = x ∨ laneMax t x y = y) ∧ ¬ less (laneMax t x y) x ∧ ¬ less (laneMax t x y) y ∧
      laneAbs t x = (if t.signed ∧ m / 2 ≤ x then m - x else x)) ∧
  (∀ (s : State) (srcs : List VSrc) (pd : Placed) (w : Nat) (f : Nat → Nat × BitVec 5),
      let c := s.core.vec.shape.lanes
      let t := s.lanesRetired srcs pd w f
      0 < w → 0 < c → c * w ≤ 256 → 64 % w = 0 → s.core.vec.regions = [] → eatenLines srcs = [] →
      sparseWf Line.zero 0 s.core.tree = true →
      (∀ i : Nat, i < c → (t.core.lanes pd.line w c).getD i 0 =
        if s.core.vec.active i then (f i).1 % 2 ^ (8 * w) else 0) ∧
      (∀ n : Nat, pd.line ≤ n → n < pd.line + linesFor (w * c) → (t.core.line n).full = true) ∧
      (∀ n : Nat, n < pd.line ∨ pd.line + linesFor (w * c) ≤ n → t.core.line n = s.core.line n) ∧
      (∀ j : Nat, c * w ≤ j → t.core.treeByte (64 * pd.line + j) = s.core.treeByte (64 * pd.line + j)) ∧
      t.core.vec.eng.pc = s.core.vec.eng.pc + 4 ∧ t.core.vec.eng.st = .run ∧ s.sameMemory t ∧ t.core.mat = s.core.mat ∧
      t.core.xfer = s.core.xfer ∧ t.core.wb = s.core.wb ∧ t.core.seq.g = s.core.seq.g)

/-- R131, R138, R140: `v.shape` writes `SHAPE`; a compare writes every bit of its mask register, the comparison for an active lane
and 0 elsewhere; the mask words combine mask registers; none of them writes the tree, and mask words and `v.shape` wait on
nothing. R143, R144, R152, R156: a reduction writes its eight bytes to the first line of its destination; `v.cor` runs its
iterations on the triples of the active lanes; `v.cdfq` builds a table for each active lane. -/
def Obligations.MasksShapeReductionsAndTriples : Prop :=
  (∀ (s : State) (n p q : Fin 8) (ty : EType) (lanes : BitVec 9) (a b : TreeOp) (wa wb : Bool) (pa pb : Placed),
      let v := s.core.vec
      let sets := fun (i : Instr) (m : BitVec 256) =>
        exec i s = .next (s.vecAdvanced 0 (fun v => { v with masks := v.masks.set n m }))
      exec (.vShape ty lanes) s = .next (s.vecAdvanced 0 (fun v => { v with shape := ⟨0, false, ty, lanes.toNat⟩ })) ∧
      exec (.vShapeMasked n ty lanes) s = .next (s.vecAdvanced 0 (fun v => { v with shape := ⟨n, true, ty, lanes.toNat⟩ })) ∧
      sets (.vMaskAnd n p q) (v.masks[p] &&& v.masks[q]) ∧
      sets (.vMaskOr n p q) (v.masks[p] ||| v.masks[q]) ∧
      sets (.vMaskXor n p q) (v.masks[p] ^^^ v.masks[q]) ∧
      sets (.vMaskAndn n p q) (v.masks[p] &&& ~~~v.masks[q]) ∧
      sets (.vMaskNot n p) (~~~v.masks[p]) ∧
      sets (.vMaskSet n) (BitVec.allOnes 256) ∧
      sets (.vMaskClear n) 0 ∧
      (let t := v.shape.ty
       let x := fun (i : Nat) => (s.core.lanes pa.line t.width v.shape.lanes).getD i 0
       let y := fun (i : Nat) => (s.core.lanes pb.line t.width v.shape.lanes).getD i 0
       let compares := fun (i : Instr) (f : Int → Int → Bool) =>
         (t = .e4m3u → exec i s = .next (s.issueVec (.stop 0x0205))) ∧
         (t ≠ .e4m3u → s.vecPlaces [(a, v.span), (b, v.span)] = some [pa, pb] → s.vecOpen [⟨pa, wa⟩, ⟨pb, wb⟩] [] →
           eatenLines [⟨pa, wa⟩, ⟨pb, wb⟩] = [] →
           ∃ m : BitVec 256, sets i m ∧ ∀ j : Nat, j < 256 → m.getLsbD j = (v.active j && laneCmp f t (x j) (y j)))
       compares (.vCmpeq n a b wa wb) (fun x y => decide (x = y)) ∧
       compares (.vCmplt n a b wa wb) (fun x y => decide (x < y)) ∧
       compares (.vCmple n a b wa wb) (fun x y => decide (x ≤ y)))) ∧
  (∀ (s : State) (d a : TreeOp) (wa : Bool) (n : BitVec 5),
      let v := s.core.vec
      let sh := v.shape
      (∀ pd pa : Placed, sh.ty ≠ .e4m3u → s.vecPlaces [(d, 1), (a, v.span)] = some [pd, pa] → s.vecOpen [⟨pa, wa⟩] [pd] →
        let l := ((List.range sh.lanes).zip (s.core.lanes pa.line sh.ty.width sh.lanes)).filter (fun x => v.active x.1)
        let gives := fun (i : Instr) (r : Nat × Nat) => exec i s = .next (s.vecRetired [⟨pa, wa⟩]
          { dst := [(pd.line, bytesOfNat 4 r.1 ++ bytesOfNat 4 r.2)], full := [pd.line], flags := 0, post := id })
        gives (.vRedsum d a wa) (reduceSum sh.ty l) ∧ gives (.vRedmax d a wa) (reduceMax sh.ty l) ∧
        gives (.vRedmin d a wa) (reduceMin sh.ty l) ∧ gives (.vArgmax d a wa) (reduceArgmax sh.ty l)) ∧
      (∀ pd pa : List Placed, sh.ty = .i32 → s.core.placeMany v.eng.k d 3 v.span [0] = some pd →
        s.core.placeMany v.eng.k a 3 v.span [0] = some pa → s.vecOpen (pa.map (fun p => ⟨p, wa⟩)) pd →
        let col := fun (j i : Nat) => sextNat 32 (((pa.map (fun p => s.core.lanes p.line 4 sh.lanes)).getD j []).getD i 0)
        let gives := fun (i : Instr) (k : CorKind) (rotate : Bool) =>
          ∃ cols : List (List Nat), exec i s = .next (s.vecRetired (pa.map (fun p => ⟨p, wa⟩)) (tripleOut pd cols)) ∧
            cols.length = 3 ∧ ∀ j : Nat, j < sh.lanes → v.active j = true →
              let r := cordic k rotate n.toNat (col 0 j, col 1 j, col 2 j)
              (cols.getD 0 []).getD j 0 = wrapInt 32 r.1 ∧ (cols.getD 1 []).getD j 0 = wrapInt 32 r.2.1 ∧
              (cols.getD 2 []).getD j 0 = wrapInt 32 r.2.2
        gives (.vCorCrot d a wa n) .circular true ∧ gives (.vCorCvec d a wa n) .circular false ∧
        gives (.vCorHrot d a wa n) .hyperbolic true ∧ gives (.vCorHvec d a wa n) .hyperbolic false ∧
        gives (.vCorLrot d a wa n) .linear true ∧ gives (.vCorLvec d a wa n) .linear false) ∧
      (∀ pd pa : List Placed, sh.ty = .i32 → s.core.placeMany v.eng.k d 16 v.span [0] = some pd →
        s.core.placeMany v.eng.k a 16 v.span [0] = some pa → s.vecOpen (pa.map (fun p => ⟨p, wa⟩)) pd →
        ∃ cols : List (List Nat), exec (.vCdfq d a wa) s = .next (s.vecRetired (pa.map (fun p => ⟨p, wa⟩)) (tripleOut pd cols)) ∧
          cols.length = 16 ∧ ∀ i j : Nat, i < 16 → j < sh.lanes → v.active j = true →
            (cols.getD i []).getD j 0 =
              (cdfTable (pa.map (fun p => sextNat 32 ((s.core.lanes p.line 4 sh.lanes).getD j 0)))).getD i 0))

/-- R145, R146, R147, R149: `v.ld` and `v.gather` issue one access on VP with the bytes that each active lane receives, `v.st` and
`v.scatter` one with the bytes they write, and go on; an access outside its binding is BOUNDS, and so is an offset of `v.ld` or
`v.st` that its lane width does not divide, each with the offset as its detail. The access lands or is performed later: a load's bytes
stand in the tree and its lines are full, a store's bytes stand in memory. An access is performed whole, or element by element in any order
(R316), but that of two lanes with one byte the later stands: its elements are what is single-copy atomic. The bytes of a load are read from
memory so and written to the tree together, when it lands (log 3, log 20). -/
def Obligations.VectorAccessesIssueAndLand : Prop :=
  (∀ (s : State) (d a : TreeOp) (h : Hnd) (j : KIx) (wa wb : Bool) (b : Binding),
      let v := s.core.vec
      let sh := v.shape
      let w := sh.ty.width
      let o := (v.eng.k[j]).val.toNat
      let data := fun (p : Placed) => s.core.lanes p.line w sh.lanes
      let loaded := fun (pd : Placed) (offs : List (Nat × Nat)) => offs.flatMap (fun x => (List.range w).map (fun i =>
        (64 * pd.line + w * x.1 + i, (b.place (x.2 + i)).getD ⟨b.kind, 0⟩)))
      let zeroed := fun (pd : Placed) => ((List.range sh.lanes).filter (fun i => !v.active i)).flatMap (fun i =>
        rangeFrom (64 * pd.line + w * i) w)
      let stored := fun (p : Placed) (offs : List (Nat × Nat)) => offs.flatMap (fun x =>
        (b.places x.2 w).zip (bytesOfNat w ((data p).getD x.1 0)))
      let acts := fun (k : VpKind) => s.vecAdvanced 1 (fun v => { v with vp := v.vp ++ [⟨s.core.issue, v.eng.pc, s.openDetailOf .vec, k, w, [b.id],
        some [], false, [], false⟩] })
      let straight := v.offsets (fun i => o + w * i)
      s.core.seq.h[h] = some b → b.usable = true → b.kind = .window → s.core.holdsNew .vp = false →
      (∀ pd : Placed, s.vecPlaces [(d, v.span)] = some [pd] →
        (o % w ≠ 0 ∨ b.len < o + w * sh.lanes →
          exec (.vLd d h j) s = .next (s.issueVec (.stop 0x0201 (some (BitVec.ofNat 64 o)))) ∧
          (b.writable = true → exec (.vSt d h j wa) s = .next (s.issueVec (.stop 0x0201 (some (BitVec.ofNat 64 o)))))) ∧
        (o % w = 0 → o + w * sh.lanes ≤ b.len →
          (s.vecOpen [] [pd] → s.eccRead ((loaded pd straight).map Prod.snd) = .ok →
            exec (.vLd d h j) s = .next (acts (.load (loaded pd straight) (zeroed pd) pd.all pd.wwait))) ∧
          (b.writable = true → v.regions = [] → pd.consume = false → s.vecOpen [⟨pd, wa⟩] [] → stored pd straight ≠ [] →
            exec (.vSt d h j wa) s = .next (acts (.store (stored pd straight)))))) ∧
      (∀ (pd pa : Placed) (i : Nat), s.vecPlaces [(d, v.span), (a, v.span)] = some [pd, pa] →
        let at_ := fun (i : Nat) => w * (data pa).getD i 0
        v.active i = true → b.len < at_ i + w → (∀ i' : Nat, i' < i → v.active i' = true → at_ i' + w ≤ b.len) →
        (s.vecOpen [⟨pa, wa⟩] [pd] → exec (.vGather d a h wa) s = .next (s.issueVec (.stop 0x0201 (some (BitVec.ofNat 64 (at_ i)))))) ∧
        (b.writable = true → s.vecOpen [⟨pd, wb⟩, ⟨pa, wa⟩] [] →
          exec (.vScatter d a h wa wb) s = .next (s.issueVec (.stop 0x0201 (some (BitVec.ofNat 64 (at_ i))))))) ∧
      (∀ (pd pa : Placed) (offs : List (Nat × Nat)), s.vecPlaces [(d, v.span), (a, v.span)] = some [pd, pa] →
        elementOffsets v (data pa) b.len = .ok offs → pa.consume = false →
        (s.vecOpen [⟨pa, wa⟩] [pd] → s.eccRead ((loaded pd offs).map Prod.snd) = .ok →
          exec (.vGather d a h wa) s = .next (acts (.load (loaded pd offs) (zeroed pd) pd.all pd.wwait))) ∧
        (b.writable = true → v.regions = [] → pd.consume = false → s.vecOpen [⟨pd, wb⟩, ⟨pa, wa⟩] [] → stored pd offs ≠ [] →
          exec (.vScatter d a h wa wb) s = .next (acts (.store (stored pd offs)))))) ∧
  (∀ (s : State) (n : Nat) (e : VpEntry) (l : List VpEntry), s.liveCore n = true →
      let u := s.focus n
      u.core.vec.vp = e :: l → u.core.vec.lostAt = none → e.lost = false →
      (∀ (cells : List (Nat × PAddr)) (zero lines : List Nat) (ww : Bool), e.kind = .load cells zero lines ww →
        let bytes := e.got ++ (cells.drop e.got.length).map (fun x => u.readByte x.2)
        (u.core.vec.regions = [] → sparseWf Line.zero 0 u.core.tree = true →
          u.eccRead ((cells.drop e.got.length).map Prod.snd) = .ok →
          (ww = true → ∀ m ∈ lines, (u.core.line m).full = false) → (cells.map Prod.fst ++ zero).Nodup →
          ∃ t, exec (.vectorLoadLand ⟨n, none⟩) s = .next t ∧ t.core.vec.vp = l ∧ u.sameMemory t ∧
            (∀ m ∈ lines, (t.core.line m).full = true) ∧
            (∀ (i : Nat) (x : Nat × PAddr), cells[i]? = some x → bytes[i]? = some (t.core.treeByte x.1)) ∧
            (∀ x ∈ zero, t.core.treeByte x = 0) ∧
            (∀ x : Nat, x ∉ cells.map Prod.fst ++ zero → t.core.treeByte x = u.core.treeByte x)) ∧
        (∀ a k : Nat, 0 < k * e.width → k * e.width < cells.length - e.got.length → (a + k) * e.width ≤ cells.length - e.got.length →
          let left := cells.drop e.got.length
          let part := (left.drop (a * e.width)).take (k * e.width)
          u.eccRead (part.map Prod.snd) = .ok →
          exec (.vectorLoadLand ⟨n, some (a, k)⟩) s = .next (u.updVec (fun v => { v with
            vp := { e with
              got := e.got ++ part.map (fun x => u.readByte x.2)
              kind := .load (cells.take e.got.length ++ part ++ left.take (a * e.width) ++ left.drop ((a + k) * e.width)) zero lines ww
            } :: l })))) ∧
      (∀ cells : List (PAddr × Byte), e.kind = .store cells → u.memWf = true → u.eccWrite cells = .ok →
        (∃ t, exec (.vpAccessPerformed ⟨n, none⟩) s = .next t ∧ t.core.vec.vp = l ∧ u.sameOutside t (cells.map Prod.fst) ∧
          ((cells.map Prod.fst).Nodup → ∀ c ∈ cells, t.readByte c.1 = c.2) ∧ t.core.tree = u.core.tree ∧
          t.core.seq.g = u.core.seq.g) ∧
        (∀ a k : Nat, 0 < k * e.width → k * e.width < cells.length → (a + k) * e.width ≤ cells.length →
          u.eccRead (cells.map Prod.fst) = .ok →
          let part := (cells.drop (a * e.width)).take (k * e.width)
          (∀ x ∈ cells.take (a * e.width), ∀ y ∈ part, x.1 ≠ y.1) →
          ∃ t, exec (.vpAccessPerformed ⟨n, some (a, k)⟩) s = .next t ∧
            t.core.vec.vp = { e with kind := .store (cells.take (a * e.width) ++ cells.drop ((a + k) * e.width)), begun := true } :: l ∧
            u.sameOutside t (part.map Prod.fst) ∧ ((part.map Prod.fst).Nodup → ∀ c ∈ part, t.readByte c.1 = c.2) ∧
            t.core.tree = u.core.tree ∧ t.core.seq.g = u.core.seq.g)))

/-- R18, R47, R53, R147, R304, R307: the loop words of the vector stream, its mend words, `v.mark` and `v.end`; `v.mark` and `v.end`
wait for every issued access. Two clauses are the model's choice: that rollbacks of a region count on when it is opened again at the same
depth and word (log 17), and that `v.mark` does not wait for the held writes of an open region (log 20). -/
def Obligations.VectorControlWords : Prop :=
  ∀ (s : State) (k i : KIx) (n off : BitVec 23) (x : BitVec 21) (m : BitVec 12),
    let v := s.core.vec
    let e := v.eng
    let goes := fun (i : Instr) (k' : Vector KReg 8) (pc : Word) =>
      exec i s = .next ((s.updVec (fun v => { v with lastVp := none })).engAdvanced .vec (fun e => { e with k := k', pc := pc }))
    goes (.vLoop k n) (e.k.set k ⟨0, n.setWidth 32⟩) (e.pc + 4) ∧
    (let y := e.k[k].val + 1
     let from_ : Word := if s.core.res.encv = 1 then e.pc + 4 else e.pc
     goes (.vBr k off) (e.k.set k ⟨y, e.k[k].limit⟩) (if y < e.k[k].limit then from_ + 4 * off.signExtend 64 else e.pc + 4)) ∧
    goes (.vKop k x) (e.k.set k ⟨x.setWidth 32, e.k[k].limit⟩) (e.pc + 4) ∧
    goes (.vKopAdd k x) (e.k.set k ⟨e.k[k].val + x.signExtend 32, e.k[k].limit⟩) (e.pc + 4) ∧
    goes (.vKopMov k i) (e.k.set k ⟨e.k[i].val, e.k[k].limit⟩) (e.pc + 4) ∧
    (v.vp = [] → goes .vMark e.k (e.pc + 4)) ∧
    (v.vp ≠ [] → exec .vMark s = .next (s.engWaits .vec 4 0)) ∧
    (v.vp = [] → v.regions.length < 4 → exec .vMendOpen s = .next (s.vecAdvanced 0 (fun v => { v with
      regions := ⟨v.eng.pc, ⟨v.shape, v.masks, v.eng.k, v.shadow⟩, 0, [], [], [], 0,
        againCount v.again v.regions.length v.eng.pc⟩ :: v.regions }))) ∧
    (∀ (r : VecRegion) (l : List VecRegion), v.regions = r :: l →
      let line := (e.k[k]).val.toNat
      line + m.toNat ≤ s.core.res.tree → s.core.roomFor (64 * m.toNat) 0 = true →
      (∀ y ∈ rangeFrom line m.toNat, y ∉ v.landing ∧ y ∉ s.core.treeLost) →
      exec (.vMendSave k m) s = .next (s.vecAdvanced 0 (fun v => { v with regions := { r with
        saved := s.core.saveLines v.marks line m.toNat ++ r.saved, charge := r.charge + 64 * m.toNat } :: l }))) ∧
    (∀ (r p : VecRegion) (l : List VecRegion), v.regions = r :: p :: l → s.vecCloseReady = true →
      exec .vMendClose s = .next (s.vecAdvanced 0 (fun v => { v with
        regions := r.handUp p :: l, again := againDrop v.again (l.length + 1) }))) ∧
    (∀ r : VecRegion, v.regions = [r] → s.vecCloseReady = true → r.held = [] → r.marks = [] →
      ∃ t, exec .vMendClose s = .next t ∧ t.core.vec.regions = [] ∧ t.core.seq.flags = s.core.seq.flags ||| r.mask ∧
        t.core.vec.eng.pc = e.pc + 4 ∧ t.core.tree = s.core.tree ∧ s.sameMemory t) ∧
    (v.regions = [] → v.vp = [] → exec .vEnd s = .next (s.updEng .vec (fun e => { e with
      st := .ended, retired := s.now, stopReq := false }))) ∧
    (v.regions = [] → v.vp ≠ [] → exec .vEnd s = .next (s.engWaits .vec 4 0))

/-- R189 to R202: an `rc.` word whose coder operand, sources and destination R27 and R29 let it use, and whose stream bytes it may
use, writes back every lane as its run leaves it; `rc.spec` keeps the lanes in the shadow slots, `rc.undo` takes them back,
`rc.stat` gives each lane's state. -/
def Obligations.CoderWordsRunTheirLanes : Prop :=
  ∀ (s : State) (c a b : TreeOp) (h : Hnd) (wa wb : Bool) (pc : List Placed),
    let v := s.core.vec
    let ks := v.eng.k
    let n := v.shape.lanes
    let lanes := s.core.coderLanes pc n
    let lane := fun (i : Nat) => lanes.getD i (CLane.ofWords [])
    let runs := fun (f : Nat → CRun) => ((List.range n).filter v.active).map (fun i => (i, f i))
    let src := fun (w : Bool) (l : List Placed) => l.map (fun p => (⟨p, w⟩ : VSrc))
    let col := fun (l : List Placed) (i : Nat) => l.map (fun p => (s.core.lanes p.line 4 n).getD i 0)
    let calm := fun (f : Nat → CRun) => ∀ r ∈ runs f, ∀ x ∈ r.2.binds s.core, ∀ y : Binding, x = some y → y.revoking = false
    let gives := fun (i : Instr) (srcs : List VSrc) (pd : List Placed) (f : Nat → CRun) (post : Core → Core) =>
      ∀ o : VOut, calm f → s.coderOutcome pc lanes (runs f) pd post = .ok o → s.vecOpen srcs (pc ++ pd) →
        exec i s = .next (s.vecRetired srcs o)
    v.shape.ty = .i32 ∨ v.shape.ty = .n32 → s.core.placeMany ks c 6 v.span [2] = some pc → v.vp = [] →
    s.core.holdsNew .vp = false →
    (∀ x : Binding, s.core.seq.h[h] = some x → x.usable = true → x.kind = .window →
      gives (.rcInitDec c h) (src true pc) [] (fun i => laneInitDec (s.streamByte h.val) h.val (lane i)) id ∧
      (x.writable = true → gives (.rcInitEnc c h) (src true pc) [] (fun i => laneInitEnc h.val (lane i)) id)) ∧
    (∀ (pa : List Placed) (pd : Placed), s.core.placeMany ks a 1 v.span [0] = some pa → s.core.place ks b v.span [0] = some pd →
      gives (.rcDec c a b wa) (src true pc ++ src wa pa) [pd]
        (fun i => laneDec (s.streamByte (lane i).hnd) ((col pa i).getD 0 0) (lane i)) id) ∧
    (∀ (pa : List Placed) (pd : Placed), s.core.placeMany ks a 16 v.span [0] = some pa → s.core.place ks b v.span [0] = some pd →
      gives (.rcDecm c a b wa) (src true pc ++ src wa pa) [pd]
        (fun i => laneDecm (s.streamByte (lane i).hnd) (col pa i) (lane i)) id) ∧
    (∀ pa pb : List Placed, s.core.placeMany ks b 1 v.span [0] = some pb →
      (s.core.placeMany ks a 1 v.span [0] = some pa →
        gives (.rcEnc c a b wa wb) (src true pc ++ (src wa pa ++ src wb pb)) []
          (fun i => laneEnc ((col pb i).getD 0 0) ((col pa i).getD 0 0) (lane i)) id) ∧
      (s.core.placeMany ks a 16 v.span [0] = some pa →
        gives (.rcEncm c a b wa wb) (src true pc ++ (src wa pa ++ src wb pb)) []
          (fun i => laneEncm ((col pb i).getD 0 0) (col pa i) (lane i)) id)) ∧
    gives (.rcFlush c) (src true pc) [] (fun i => laneFlush (lane i)) id ∧
    gives (.rcSpec c) (src true pc) [] (fun i => CRun.of { lane i with spec := true })
      (saveShadows ((runs (fun i => CRun.of { lane i with spec := true })).map (fun r => (r.1, r.2.lane)))) ∧
    gives (.rcUndo c) (src true pc) [] (fun i => CRun.of (if (lane i).spec then
      CLane.ofShadow (v.shadow.toList.getD i 0) else lane i)) id ∧
    gives (.rcKeep c) (src true pc) [] (fun i => CRun.of { lane i with spec := false }) id ∧
    (∀ pd : Placed, s.core.place ks b v.span [0] = some pd → s.vecOpen (src true pc) [pd] →
      exec (.rcStat c b) s = .next (s.lanesRetired (src true pc) pd 4 (fun i => (laneStat (lane i), 0))))

/-- R105 to R112, R121, R124: the words that open and prepare a reduction. `m.begin` opens one with a snapshot and zero progress;
`m.zero`, `m.ldacc`, `m.seg` need no progress in the open one (ILLEGAL otherwise); `m.ldacc` replaces the accumulators of the
rows that lie in a segment; a malformed segment record is BOUNDS and changes nothing; `m.scale`, `m.wbase` and `m.pert` write
their registers. R18, R47, R53, R122, R128: the loop words and the end of the matrix stream, and a new window of the governor, whose
budget moves by at most 32 towards what the ceiling in force, the partition's share and a local excess give (R236; the amount is a
free value, log 7), and stays between 32 and 256. That rollbacks of a reduction count on when `m.begin` opens it again at the same word is
the model's choice (log 17). -/
def Obligations.MatrixPreparesAndLoops : Prop :=
  (∀ (s : State) (t a b : TreeOp) (w : Bool) (mode : MatMode) (n : BitVec 11) (row : BitVec 12) (r c : BitVec 6) (j : KIx)
      (p pa pb : Placed),
      let m := s.core.mat
      let gives := fun (i : Instr) (c : Core) => exec i s = .next (s.matRetired c)
      let refuses := fun (i : Instr) (code : Code) => exec i s = .next (s.issueMat (.stop code))
      (m.openRed = none → gives (.mBegin mode n) (s.core.updMat (fun m => { m with
        again := []
        reds := m.reds ++ [⟨⟨m.eng.pc, m.acc, m.eng.k, m.base, m.seg, m.rows, m.cols, m.pert⟩, mode, n.toNat, 0, [], 0,
          if m.reds.isEmpty then againCount m.again 0 m.eng.pc else 0, none⟩] }))) ∧
      (m.openRed.isSome = true → refuses (.mBegin mode n) 0x0205) ∧
      (m.fresh = true →
        gives .mZero (s.core.updMat (fun m => { m with acc := [] })) ∧
        (s.matPlace t 256 0 = some p → s.matReadable (segLines m.seg p.line 256) →
          ∃ acc : List (Nat × Int),
            gives (.mLdacc t w) ((s.core.matRead p (segLines m.seg p.line 256)).updMat (fun m => { m with acc := acc })) ∧
            ∀ x y : Nat, x < 64 → y < 64 → sparseGet 0 acc (64 * x + y) =
              if rowIn m.seg x then sextNat 32 (s.core.treeNat (64 * p.line + 256 * x + 4 * y) 4)
              else sparseGet 0 m.acc (64 * x + y)) ∧
        (s.matPlace t 1 0 = some p → s.matReadable [p.line] →
          let v := (s.core.line p.line).data
          (segOk v = true → gives (.mSeg t w) ((s.core.matRead p [p.line]).updMat (fun m => { m with seg := v }))) ∧
          (segOk v = false → refuses (.mSeg t w) 0x0201))) ∧
      (m.fresh = false → refuses .mZero 0x0205 ∧ refuses (.mLdacc t w) 0x0205 ∧ refuses (.mSeg t w) 0x0205) ∧
      (s.matPlace a 1 0 = some pa → s.matPlace b 1 0 = some pb → s.matReadable [pa.line, pb.line] →
        let x := (s.core.line pa.line).data
        let y := (s.core.line pb.line).data
        gives (.mScale a b w) ((((s.core.matRead pa [pa.line]).matRead pb [pb.line]).updMat (fun m => { m with
          rows := x, cols := y })).matFlags (if scaleInv x ∨ scaleInv y then 2 else 0))) ∧
      gives (.mWbase row) (s.core.updMat (fun m => { m with base := row.toNat })) ∧
      gives (.mPert r c j) (s.core.updMat (fun m => { m with pert := some ⟨r.toNat, c.toNat, (m.eng.k[j]).val.toInt⟩ }))) ∧
  (∀ (s : State) (k i : KIx) (n off : BitVec 23) (x : BitVec 21) (core most : Nat),
      let m := s.core.mat
      let e := m.eng
      let goes := fun (i : Instr) (k' : Vector KReg 8) (pc : Word) =>
        exec i s = .next (s.engAdvanced .mat (fun e => { e with k := k', pc := pc }))
      goes (.mLoop k n) (e.k.set k ⟨0, n.setWidth 32⟩) (e.pc + 4) ∧
      (let y := e.k[k].val + 1
       let from_ : Word := if s.core.res.encv = 1 then e.pc + 4 else e.pc
       goes (.mBr k off) (e.k.set k ⟨y, e.k[k].limit⟩) (if y < e.k[k].limit then from_ + 4 * off.signExtend 64 else e.pc + 4)) ∧
      goes (.mKop k x) (e.k.set k ⟨x.setWidth 32, e.k[k].limit⟩) (e.pc + 4) ∧
      goes (.mKopAdd k x) (e.k.set k ⟨e.k[k].val + x.signExtend 32, e.k[k].limit⟩) (e.pc + 4) ∧
      goes (.mKopMov k i) (e.k.set k ⟨e.k[i].val, e.k[k].limit⟩) (e.pc + 4) ∧
      (m.openRed.isSome = true → exec .mEnd s = .next (s.issueMat (.stop 0x0205))) ∧
      (m.openRed = none → m.reds ≠ [] → exec .mEnd s = .next (s.engWaits .mat 6 0)) ∧
      (m.reds = [] → exec .mEnd s = .next (s.updEng .mat (fun e => { e with st := .ended, retired := s.now, stopReq := false }))) ∧
      (s.liveCore core = true →
        let u := s.focus core
        let g := u.core.mat
        let aim := max 32 (min most u.budgetAim)
        (u.now < g.window + 256 → exec (.budgetWindow core most) s = .next u) ∧
        (g.window + 256 ≤ u.now → ∃ b : Nat,
          exec (.budgetWindow core most) s = .next (u.updMat (fun m => { m with budget := b, spent := 0, window := u.now })) ∧
          b ≤ g.budget + 32 ∧ g.budget ≤ b + 32 ∧ (aim ≤ g.budget + 32 → g.budget ≤ aim + 32 → b = aim) ∧
          (32 ≤ g.budget → g.budget ≤ 256 → 32 ≤ b ∧ b ≤ 256))))

/-- R61, R113 to R117, R128: an accumulate word of the open mode adds, for every element in segment, the sum over 32 K rows of
activation times weight, bounded to 48 bits, and counts one k-step; with all 8 planes an I8 weight is the byte itself. It takes
effect once the window's budget covers its array cycles, and waits at the governor until then, with no other effect. Outside a
reduction, in another mode or past its length it is ILLEGAL. R127: weight-buffer rows are single-copy atomic one by one; one that the step
has read before the others stands as it was then. That its A operand is read with the first of them is the model's choice (log 3). -/
def Obligations.MatrixAccumulates : Prop :=
  ∀ (s : State) (t : TreeOp) (row : BitVec 12) (planes : Fin 8) (w : Bool) (r : Reduction) (pa : Placed),
    let m := s.core.mat
    let b := m.base + row.toNat
    let lines := segLines m.seg pa.line 32
    let v := s.asRead
    let acts := fun (i : Instr) (k : BKind) (mode : MatMode) (rows cycles : Nat) =>
      (m.openRed = none → exec i s = .next (s.issueMat (.stop 0x0205))) ∧
      (m.openRed = some r → (r.mode ≠ mode ∨ r.n ≤ r.p) → exec i s = .next (s.issueMat (.stop 0x0205))) ∧
      (m.openRed = some r → r.mode = mode → r.p < r.n → s.matPlace t 32 1 = some pa → b + rows ≤ s.core.res.wb →
        v.matReadable lines → (∀ x ∈ rangeFrom b rows, x ∉ v.core.wbLost) → v.core.blockFault k b = none →
        let due := m.issues.getD cycles
        (due ≤ m.budget - m.spent → ∃ (acc : List (Nat × Int)) (f : BitVec 5),
          exec i s = .next (s.matRetired (((s.core.matRead pa lines).updMat (fun m => { m with
            spent := m.spent + due, issues := none, begun := none, acc := acc,
            reds := mapLast (fun r => { r with p := r.p + 1 }) m.reds })).matFlags f)) ∧
          ∀ x y : Nat, x < 64 → y < 64 →
            let dot := ((List.range 32).map (fun j =>
              sextNat 8 (v.core.treeNat (64 * pa.line + 32 * x + j) 1) * v.core.weight k b j y)).sum
            let plus : Int := match m.pert with
              | some q => if r.p = 0 ∧ q.row = x ∧ q.col = y then q.val else 0
              | none => 0
            let old := sparseGet 0 m.acc (64 * x + y)
            sparseGet 0 acc (64 * x + y) = satInt 48 (old + (if inSegment m.seg x y then dot + plus else 0))) ∧
        (m.budget - m.spent < due → exec i s = .next (s.updMat (fun m => { m with
          spent := m.spent + (m.budget - m.spent), issues := some (due - (m.budget - m.spent)),
          eng := { m.eng with st := .wait 5 0 } }))))
    acts (.mAcc t row w) .tern .tern 2 4 ∧
    acts (.mAcc8 t row planes w) (.int8 (planes.val + 1)) .int8 8 (4 * (planes.val + 1)) ∧
    acts (.mAccsTern t row w) .sparseTern .sparse 2 2 ∧
    acts (.mAccsInt8 t row planes w) (.sparseInt8 (planes.val + 1)) .sparse 5 (2 * (planes.val + 1)) ∧
    (m.begun = none → v = s) ∧
    (∀ g : StepReads, m.begun = some g → sparseWf 0 0 s.core.wb = true → (g.rows.map Prod.fst).Nodup →
      (∀ x ∈ g.rows, v.core.wbRow x.1 = x.2) ∧ ∀ n : Nat, n ∉ g.rows.map Prod.fst → v.core.wbRow n = s.core.wbRow n) ∧
    (∀ x : Nat, x < 256 → planeValue 8 x = sextNat 8 x)

/-- R71, R72, R76, R118 to R120: a retirement after the last k-step computes the tile into a holding slot, and clears the
perturbation; elements outside every segment take the fill value. With both slots held it waits; before the last k-step it is
ILLEGAL. Once D cycles have passed, and no report is pending for the core or held for one of its streams, the oldest slot is released: its tile stands in the tree, its lines full,
its deferred consume marks and its flags done. A retirement notes whether it is the boundary at which a stop waits (R129, log
18). -/
def Obligations.MatrixRetiresAndReleases : Prop :=
  ∀ (s : State) (t : TreeOp) (r : Reduction) (pd : Placed) (core : Nat),
    let m := s.core.mat
    let acts := fun (i : Instr) (n width : Nat) (lines : List Nat) (val : Int → Nat → Nat → Nat) (fill : Nat) =>
      (m.openRed = none → exec i s = .next (s.issueMat (.stop 0x0205))) ∧
      (m.openRed = some r → r.p ≠ r.n → exec i s = .next (s.issueMat (.stop 0x0205))) ∧
      (m.openRed = some r → r.p = r.n → s.matPlace t n 0 = some pd →
        (2 ≤ m.held.length → exec i s = .next (s.engWaits .mat 6 0)) ∧
        (m.held.length < 2 → s.matReadable lines → ∃ (tile : List (Nat × BitVec 512)) (f : BitVec 5),
          exec i s = .next (s.matRetired (((s.core.matRead pd lines).matFlags f).updMat (fun m => { m with
            pert := none, atRet := m.eng.stopReq || s.crewStopping s.core.crewNum,
            reds := mapLast (fun r => { r with tile := some ⟨tile, pd.wwait, s.now⟩ }) m.reds }))) ∧
          tile.map Prod.fst = rangeFrom pd.line n ∧
          ∀ x y : Nat, x < 64 → y < 64 → tileElem tile width x y =
            if inSegment m.seg x y then val (sparseGet 0 m.acc (64 * x + y)) x y else fill))
    let scaled := fun (a : Int) (x y : Nat) => scaledAcc a (scaleByte m.rows x) (scaleByte m.cols y)
    acts (.mRetF32 t) 256 4 [] (fun a x y => encodeF 23 (scaled a x y)) (segFill m.seg) ∧
    acts (.mRetBf16 t) 128 2 [] (fun a x y => encodeF 7 (scaled a x y)) (segFill m.seg / 65536) ∧
    acts (.mRetF32Add t) 256 4 (segLines m.seg pd.line 256)
      (fun a x y => addF32 (encodeF 23 (scaled a x y)) (s.core.treeNat (64 * pd.line + 256 * x + 4 * y) 4)) (segFill m.seg) ∧
    acts (.mRetraw t) 256 4 [] (fun a _ _ => wrapInt 32 (satInt 32 a)) (segFill m.seg) ∧
    (s.liveCore core = true →
      let u := s.focus core
      ∀ (l : List Reduction) (tile : Tile), u.core.mat.reds = r :: l → r.tile = some tile → u.core.mat.fault = none →
        u.core.reports = [] → u.core.injected = [] → u.core.strikeHeld = false → sparseWf Line.zero 0 u.core.tree = true →
        (u.now < tile.made + 4096 → exec (.holdingSlotRelease core) s = .next u) ∧
        (tile.made + 4096 ≤ u.now → (tile.wwait = true → ∀ x ∈ tile.lines, (u.core.line x.1).full = false) →
          ∃ v, exec (.holdingSlotRelease core) s = .next v ∧ v.core.mat.reds = l ∧ v.core.mat.acc = u.core.mat.acc ∧
            v.core.mat.eng = u.core.mat.eng ∧ v.core.seq.flags = u.core.seq.flags ||| r.mask ∧ u.sameMemory v ∧
            v.core.seq.g = u.core.seq.g ∧
            ((tile.lines.map Prod.fst).Nodup → ∀ x ∈ tile.lines, v.core.line x.1 = ⟨x.2, true⟩) ∧
            (∀ n : Nat, n ∉ tile.lines.map Prod.fst →
              (v.core.line n).data = (u.core.line n).data ∧
              (v.core.line n).full = (!(r.marks.contains n) && (u.core.line n).full))))

/-- R47, R51, R53, R165: the field words and the loop words of the transfer stream write one field or one k register. R161, R178 to R180,
R184, R186, R304, R307: closing a batch, waiting for batches, the mark, sync words, the mend words and the end of the transfer
stream. That rollbacks of a region count on when it is opened again at the same depth and word is the model's choice (log 17). -/
def Obligations.TransferFieldsLoopsAndBatches : Prop :=
  (∀ (s : State) (f : ShapeField) (g : WinField) (v x : BitVec 21) (k i : KIx) (n off : BitVec 23),
      let e := s.core.xfer.eng
      let goes := fun (i : Instr) (k' : Vector KReg 8) (pc : Word) =>
        exec i s = .next (s.engAdvanced .xfer (fun e => { e with k := k', pc := pc }))
      let shape := fun (i : Instr) (y : BitVec 32) => exec i s = .next (s.xferAdvanced 0 (fun x => { x with
        shape := x.shape.set (Fin.ofNat 7 f.code : Fin 7) y }))
      let win := fun (i : Instr) (y : BitVec 32) => exec i s = .next (s.xferAdvanced 0 (fun x => { x with
        win := x.win.set (Fin.ofNat 15 g.code : Fin 15) y }))
      shape (.xShapeImm f v) (v.setWidth 32) ∧
      shape (.xShapeReg f k) (e.k[k]).val ∧
      win (.xWinImm g v) (v.setWidth 32) ∧
      win (.xWinReg g k) (e.k[k]).val ∧
      goes (.xLoop k n) (e.k.set k ⟨0, n.setWidth 32⟩) (e.pc + 4) ∧
      (let y := e.k[k].val + 1
       let from_ : Word := if s.core.res.encv = 1 then e.pc + 4 else e.pc
       goes (.xBr k off) (e.k.set k ⟨y, e.k[k].limit⟩) (if y < e.k[k].limit then from_ + 4 * off.signExtend 64 else e.pc + 4)) ∧
      goes (.xKop k x) (e.k.set k ⟨x.setWidth 32, e.k[k].limit⟩) (e.pc + 4) ∧
      goes (.xKopAdd k x) (e.k.set k ⟨e.k[k].val + x.signExtend 32, e.k[k].limit⟩) (e.pc + 4) ∧
      goes (.xKopMov k i) (e.k.set k ⟨e.k[i].val, e.k[k].limit⟩) (e.pc + 4)) ∧
  (∀ (s : State) (n : BitVec 16) (h : Hnd) (j k : KIx) (m : BitVec 12) (y : XferEngine),
      let x := s.core.xfer
      let acts := fun (i : Instr) (f : XferEngine → XferEngine) => exec i s = .next (s.xferAdvanced 0 f)
      let waits := fun (i : Instr) (kind : Nat) => exec i s = .next (s.engWaits .xfer kind 0)
      (x.close = some y →
        acts .xClose (fun _ => y) ∧
        (x.fails = [] → y.outstanding ≤ n.toNat → acts (.xWait n) (fun _ => y)) ∧
        (x.openBatch = none → x.fails = [] → n.toNat < x.outstanding → waits (.xWait n) 3) ∧
        (∀ f : XFail, x.fails = [f] → exec (.xWait n) s = .next
          ((s.updXfer (fun _ => { y with fails := [] })).stopEngine .xfer 0 f.code f.pc false f.mayCore f.mayLeft)) ∧
        (x.regions = [] → x.fails = [] → x.all = [] → exec .xEnd s = .next (s.updXfer (fun _ => { y with
          eng := { y.eng with st := .ended, retired := s.now, stopReq := false } })))) ∧
      (x.close = none → waits .xClose 3 ∧ waits (.xWait n) 3) ∧
      (x.fails = [] → (x.all = [] → acts .xMark id) ∧ (x.all ≠ [] → waits .xMark 4)) ∧
      (∀ (b : Binding) (pa : PAddr) (o : Nat), s.core.engBinding h false = .ok b →
        s.core.syncPlace h (x.kv j) = some (o, pa) →
        (x.openBatch = none → exec (.xSync h j) s = .next (s.xferAdvanced 1 (fun x => { x with
          openBatch := some ⟨s.core.issue, some ⟨pa, b.id⟩, 0, false⟩ }))) ∧
        (∀ a : Batch, x.openBatch = some a → a.used = true → a.sync = none → a.landed = 0 →
          acts (.xSync h j) (fun x => { x with openBatch := some { a with sync := some ⟨pa, b.id⟩, landed := 0 } }))) ∧
      (∀ a : Batch, x.openBatch = some a → a.sync = none → acts .xSyncDetach id) ∧
      (∀ a : Batch, x.openBatch = some a → a.sync.isSome = true → x.close = some y → acts .xSyncDetach (fun _ => y)) ∧
      (x.all = [] → x.regions.length < 4 → acts .xMendOpen (fun x => { x with regions :=
        ⟨x.eng.pc, ⟨x.eng.k, x.shape, x.win, x.openBatch⟩, 0, [], [], [], [], 0,
          againCount x.again x.regions.length x.eng.pc⟩ :: x.regions })) ∧
      (∀ (r : XferRegion) (l : List XferRegion), x.regions = r :: l →
        x.kv k + m.toNat ≤ s.core.res.tree → s.core.roomFor (64 * m.toNat) 0 = true →
        (∀ q ∈ rangeFrom (x.kv k) m.toNat, q ∉ s.core.treeLost) →
        acts (.xMendSave k m) (fun x => { x with regions := { r with
          saved := s.core.saveLines x.marks (x.kv k) m.toNat ++ r.saved, charge := r.charge + 64 * m.toNat } :: l })) ∧
      (∀ (r p : XferRegion) (l : List XferRegion), x.regions = r :: p :: l → s.engCloseReady .xfer = true →
        (∀ o ∈ x.all, o.inside = false) →
        acts .xMendClose (fun x => { x with regions := r.handUp p :: l, again := againDrop x.again (l.length + 1) })) ∧
      (∀ r : XferRegion, x.regions = [r] → s.engCloseReady .xfer = true → (∀ o ∈ x.all, o.inside = false) →
        r.held = [] → r.adds = [] → r.marks = [] →
        ∃ t, exec .xMendClose s = .next t ∧ t.core.xfer.regions = [] ∧ t.core.seq.flags = s.core.seq.flags ||| r.mask ∧
          t.core.xfer.eng.pc = x.eng.pc + 4 ∧ t.core.tree = s.core.tree ∧ s.sameMemory t) ∧
      (x.regions = [] → exec .xMendClose s = .next (s.issueXfer (.stop 0x0205)) ∧
        exec (.xMendSave k m) s = .next (s.issueXfer (.stop 0x0205))))

/-- R160, R163 to R176, R178, R185, R305: a data step word whose fields, spans and endpoints pass their checks becomes, outside
every region, the operation whose blocks are handed over, with the operands it captured; an operand out of range is BOUNDS, and
a word of length 0 retires at once. With a region open, a word with a memory destination is held; a held gather or scatter keeps
where its index list lies, and reads it when it is issued. `x.coll` takes the next number of its identifier. The codes for a
length that is no multiple of the op's unit and for `bsi8` under another dtype, and detail 0 of the BOUNDS of overlapping ranges, are
the model's choice (log 24); that R301's details of an index list and of `x.wbfill` are its first line and its row is read there (log
5). -/
def Obligations.TransferWordsStart : Prop :=
  ∀ (s : State) (d e : EndPt) (l i : KIx) (row : BitVec 12) (x y : XEnd) (scope : Scope),
    let c := s.core
    let u := c.xfer
    let len := u.kv l
    let bounds := fun (i : Instr) => exec i s = .next (s.issueXfer (.stop 0x0201))
    let boundsAt := fun (i : Instr) => exec i s = .next (s.issueXfer (.stop 0x0201 (some 0)))
    let dp := u.point d
    let ep := u.point e
    let passes := fun (i : Instr) => ∃ v, exec i s = .next v ∧ v.core.xfer.cur = u.cur ∧ v.core.xfer.eng.pc = u.eng.pc + 4 ∧
      v.core.xfer.regions = u.regions ∧ v.core.tree = c.tree ∧ s.sameMemory v
    let held := fun (i : Instr) (k : XKind) (n : Nat) (index : Option (Nat × Nat)) =>
      ∀ (b : Binding) (o : Nat) (r : XferRegion) (t : List XferRegion),
        x = .mem b o → u.regions = r :: t → c.roomFor 64 1 = true → ∃ v, exec i s = .next v ∧
        v.core.xfer.cur = u.cur ∧ s.sameMemory v ∧ v.core.tree = c.tree ∧ v.core.xfer.eng.pc = u.eng.pc + 4 ∧
        ∃ o : XOp, v.core.xfer.regions = { r with held := r.held ++ [o], charge := r.charge + 64 } :: t ∧
          o.kind = k ∧ o.dstPt = dp ∧ o.srcPt = some ep ∧ o.len = n ∧ o.index = index ∧ o.unissued = true
    let spans := fun (k : XKind) (n : Nat) => c.endAt d (k.dstSpan n) true = .ok x ∧
      c.endAt e (k.srcSpan (blankOp k (.tree 0 false false) none n) n) false = .ok y
    let overlap := fun (k : XKind) (n : Nat) =>
      endsOverlap x (k.dstSpan n) y (k.srcSpan (blankOp k (.tree 0 false false) none n) n)
    let starts := fun (i : Instr) (k : XKind) (n : Nat) (index : Option (Nat × Nat)) =>
      spans k n →
        (overlap k n = true → boundsAt i) ∧
        (overlap k n = false → n ≠ 0 → u.regions = [] → exec i s = .next (s.xferStarted k ⟨dp, some ep, x, some y⟩ n index))
    let two := fun (i : Instr) (k : XKind) (n : Nat) =>
      starts i k n none ∧ (spans k n → overlap k n = false → (n = 0 → passes i) ∧ (n ≠ 0 → held i k n none))
    (u.field .rows = 0 → two (.xCopy d e l) (.copy 0 0 0 0) len) ∧
    (1 ≤ u.field .rows → u.field .rows ≤ 65535 → 1 ≤ u.field .rowbytes → u.field .rowbytes ≤ 4096 →
      u.field .spitch ≤ 2 ^ 31 → u.field .dpitch ≤ 2 ^ 31 →
      (len = u.field .rows * u.field .rowbytes → two (.xCopy d e l)
        (.copy (u.field .rows) (u.field .rowbytes) (u.field .spitch) (u.field .dpitch)) len) ∧
      (len ≠ u.field .rows * u.field .rowbytes → bounds (.xCopy d e l))) ∧
    (c.endAt d len true = .ok x → u.regions = [] → len ≠ 0 →
      exec (.xFill d l i) s = .next (s.xferStarted (.fill (u.eng.k[i]).val) ⟨dp, none, x, none⟩ len none)) ∧
    (c.endAt d 0 true = .ok x → len = 0 → passes (.xFill d l i)) ∧
    (let w := u.field .rowbytes
     let line := u.kv i
     let n := ceilDiv (4 * len) 64
     1 ≤ w → w ≤ 4096 → line + n ≤ c.res.tree →
     (u.regions = [] → u.index = [] → len ≠ 0 → (∀ m ∈ rangeFrom line n, (c.line m).full = true ∧ m ∉ c.treeLost) →
       let idx := (List.range len).map (fun j => c.treeNat (64 * line + 4 * j) 4)
       starts (.xGather d e l i) (.gather w idx) (w * len) (some (line, len)) ∧
       starts (.xScatter d e l i) (.scatter w idx) (w * len) (some (line, len))) ∧
     (len ≠ 0 → spans (.gather w []) (w * len) → overlap (.gather w []) (w * len) = false →
       held (.xGather d e l i) (.gather w []) (w * len) (some (line, len))) ∧
     (len ≠ 0 → spans (.scatter w []) (w * len) → overlap (.scatter w []) (w * len) = false →
       held (.xScatter d e l i) (.scatter w []) (w * len) (some (line, len)))) ∧
    (256 * row.toNat + len ≤ 256 * c.res.wb → c.endAt e len false = .ok y → u.regions = [] → len ≠ 0 →
      exec (.xWbfill row e l) s = .next (s.xferStarted (.wbfill row.toNat)
        ⟨.tree 0 0, some ep, .tree 0 false false, some y⟩ len none)) ∧
    (256 * c.res.wb < 256 * row.toNat + len →
      exec (.xWbfill row e l) s = .next (s.issueXfer (.stop 0x0201 (some (BitVec.ofNat 64 row.toNat))))) ∧
    (∀ st dt : EType, c.typeField .stype = some st → c.typeField .dtype = some dt →
      (len % st.width = 0 → two (.xConv d e l) (.conv st dt) (len / st.width * dt.width)) ∧
      (len % st.width ≠ 0 → bounds (.xConv d e l))) ∧
    (∀ t : EType, c.typeField .stype = some t → winOk u.win = true → u.field .spitch ≤ 2 ^ 31 → u.field .dpitch ≤ 2 ^ 31 →
      ((u.kv (l + 1) + len : Nat) : Int) ≤ unfoldRows u.win * unfoldCols u.win →
      two (.xUnfold d e l) (.unfold u.win t (u.field .spitch) (u.field .dpitch) (u.kv (l + 1))) (len * patchBytes u.win t)) ∧
    (16 ≤ u.field .ratio → u.field .ratio ≤ 1024 →
      two (.xUnpackT5p d e l) (.unpack .t5p (u.field .ratio) .i8) len ∧
      two (.xUnpackSp24 d e l) (.unpack .sp24 (u.field .ratio) .i8) len ∧
      two (.xUnpackZrun d e l) (.unpack .zrun (u.field .ratio) .i8) len ∧
      (c.typeField .dtype = some .bf16 → two (.xUnpackBsi8 d e l) (.unpack .bsi8 (u.field .ratio) .bf16) len) ∧
      (c.typeField .dtype = some .f32 → two (.xUnpackBsi8 d e l) (.unpack .bsi8 (u.field .ratio) .f32) len)) ∧
    (1 ≤ len → len ≤ 4096 → c.endAt d len true = .ok x → x.inCast c.id len = true → two (.xMcast d e l) .mcast len) ∧
    (len = 0 ∨ 4096 < len → bounds (.xMcast d e l)) ∧
    (let ident := u.kv i
     let m := u.collNum ident
     let coll := fun (i : Instr) (op : CollOp) (unit : Nat) =>
       (collScope scope = false → exec i s = .next (s.issueXfer (.stop 0x0205))) ∧
       (collScope scope = true → (scope = .group → s.collBound ident = true) → len % unit ≠ 0 → bounds i) ∧
       (collScope scope = true → (scope = .group → s.collBound ident = true) → len % unit = 0 →
         c.endAt e len true = .ok x → hostEnd x = false → u.regions = [] → (∀ z ∈ u.lostColls, (z.1, z.2.1) ≠ (ident, m)) →
         let s1 := s.updXfer (fun x => { x with colls := assocSet x.colls ident (m + 1) })
         (len ≠ 0 → exec i s = .next (s1.xferStarted (.coll op scope ident m) ⟨ep, some ep, x, some x⟩ len none)) ∧
         (len = 0 → u.cur = none → passes i))
     coll (.xCollSumI32 scope e l i) .sumI32 4 ∧ coll (.xCollSumF32 scope e l i) .sumF32 4 ∧
     coll (.xCollBcast scope e l i) .bcast 1 ∧ coll (.xCollArgmax scope e l i) .argmax 8)

/-- R160, R161: an operation from memory to memory hands over its next block with its output bytes as they stand; the last block
issues the step word. A block lands at the place its operation gives each byte, in memory, in the tree, whose lines it marks full,
or (R169) in whole rows of the weight buffer, and leaves every other byte as it is. R178, R180, R182: with its last part the block counts for
its operation's batch: its bytes are added to the sync word attached there, or kept for one that is attached later; an operation that has
landed whole is gone, and its batch with it once it is closed. A part of a block that cuts no unit lands by itself, and the rest stays in
flight. R166 to R172:
the output bytes of each kind of operation, a conversion's among them, and where it puts them. R316: a sector of the source that was read before
the block is handed over counts as it was then, the rest as it stands at the hand-over (log 15). Which parts land alone is the model's choice
(log 3), as is how long a fence holds the addition of a `wbfill` (log 24); so is that bytes which another operation has written
since, in a unit that this one had written in part, stay that one's, so that the unit ends as if this one had come before (log 16). -/
def Obligations.TransferBlocksMoveBytes : Prop :=
  (∀ (s : State) (core num : Nat) (o : XOp), s.liveCore core = true →
      let u := s.focus core
      let x := u.core.xfer
      (∀ (b : Binding) (off : Nat) (d : Binding) (dof : Nat), x.cur = some o → o.kind.path = .xp →
        (∀ (f : PackFmt) (r : Nat) (t : EType), o.kind ≠ .unpack f r t) → o.src = some (.mem b off) → o.dst = .mem d dof →
        o.unissued = false → o.inside = false → o.failed = none → o.taken = [] → o.next < o.len →
        (∀ y : Seat, u.core.seat = some y → u.crewStopping y.crew = false) → x.eng.stopReq = false → x.eng.st.live = true →
        u.core.holdsNew .xp = false → x.inAir < 16 → (∀ a ∈ o.bindings, u.core.bindingNow a = .ok a) →
        let n := min o.blockSize (o.len - o.next)
        let r := u.outputBytes o o.next n
        let o1 : XOp := { o with
          next := o.next + n
          out := o.out + n
          mask := o.mask ||| r.2
          blocks := o.blocks ++ [⟨u.core.issue, o.next, r.1, [], [d.id, b.id], false, false, 0, false⟩] }
        u.eccRead ((o.needs o.next n).filterMap (fun i => b.place (off + i))) = .ok →
        ∃ t, exec (.transferBlockIssue core) s = .next t ∧ u.sameMemory t ∧ t.core.tree = u.core.tree ∧
          t.core.issue = u.core.issue + 1 ∧ t.core.seq.g = u.core.seq.g ∧
          (o.next + n < o.len → t.core.xfer.cur = some o1 ∧ t.core.xfer.ops = x.ops ∧ t.core.xfer.eng.pc = x.eng.pc) ∧
          (o.len ≤ o.next + n → (∀ y ∈ x.ops, y.id ≠ o.id) → t.core.xfer.cur = none ∧
            t.core.xfer.ops = x.ops ++ [{ o1 with issued := true }] ∧
            t.core.xfer.eng.pc = (if o.pc = x.eng.pc then x.eng.pc + 4 else x.eng.pc))) ∧
      (∀ (b : Block) (a : Batch), x.all = [o] → o.blocks = [b] → b.seq = num → b.lost = false → b.badTag = false → o.failed = none →
        o.inside = false → b.consume = [] → x.batch o.batch = some a → 0 < b.landed + b.bytes.length → u.memWf = true →
        u.pieceWaits o b = false →
        let n := b.landed + b.bytes.length
        let apart := fun (cells : List (PAddr × Byte)) => ∀ r : SyncRef, a.sync = some r →
          u.eccRead (placesFrom r.pa 16) = .ok ∧ ∀ c ∈ cells, c.1 ∉ placesFrom r.pa 16
        let counted := fun (t : State) (cells : List (PAddr × Byte)) =>
          (x.cur = none → o.issued = true → t.core.xfer.all = [] ∧ (x.regions = [] → t.core.xfer.batches = [])) ∧
          (a.sync = none → u.sameOutside t (cells.map Prod.fst) ∧
            t.core.xfer.openBatch = x.openBatch.map (fun c => if c.id = o.batch then { c with landed := c.landed + n } else c)) ∧
          (∀ r : SyncRef, a.sync = some r →
            let target := u.readNat r.pa 4
            let count := (u.readNat (r.pa.plus 4) 4 + n) % 2 ^ 32
            let gen := u.readNat (r.pa.plus 8) 4
            u.sameOutside t (cells.map Prod.fst ++ placesFrom (r.pa.plus 4) 8) ∧ t.core.xfer.openBatch = x.openBatch ∧
            t.readNat (r.pa.plus 4) 4 = (if target = 0 then count else count % target) ∧
            t.readNat (r.pa.plus 8) 4 = (if target = 0 then gen else (gen + count / target) % 2 ^ 32))
        (∀ (d : Binding) (dof : Nat), o.kind.path = .xp → o.kind ≠ .mcast → o.dst = .mem d dof →
          (let cells := o.newCells b
           u.eccWrite cells = .ok → apart cells →
           ∃ t, exec (.transferBlockLand core ⟨num, none⟩) s = .next t ∧ counted t cells ∧
             ((cells.map Prod.fst).Nodup → ∀ c ∈ cells, t.readByte c.1 = c.2) ∧ (o.later = [] → cells = o.cells b) ∧
             t.core.tree = u.core.tree ∧ t.core.wb = u.core.wb ∧ t.core.seq.g = u.core.seq.g) ∧
          (∀ (k : Nat) (p rest : Block), o.piece b (some k) = some (p, some rest) →
            let cells := o.newCells p
            (cells.map Prod.fst).Nodup → u.eccWrite cells = .ok → x.cur = none → x.ops = [o] →
            ∃ t, exec (.transferBlockLand core ⟨num, some k⟩) s = .next t ∧ u.sameOutside t (cells.map Prod.fst) ∧
              (∀ c ∈ cells, t.readByte c.1 = c.2) ∧ t.core.tree = u.core.tree ∧ t.core.seq.g = u.core.seq.g ∧
              t.core.xfer.openBatch = x.openBatch ∧ t.core.xfer.batches = x.batches ∧
              ∃ o1 : XOp, t.core.xfer.all = [o1] ∧ o1.blocks = [rest] ∧ o1.done = o.done ++ [p] ∧ o1.failed = none) ∧
          (∀ k : Nat, o.piece b (some k) = none → exec (.transferBlockLand core ⟨num, some k⟩) s = .next u)) ∧
        (∀ (line : Nat) (cw ww : Bool), o.kind.path = .xp → o.dst = .tree line cw ww → apart [] →
          sparseWf Line.zero 0 u.core.tree = true →
          ((List.range b.bytes.length).map (fun i => o.byteTo (b.first + i))).Nodup →
          let new := o.newBytes line ww b
          ∃ t, exec (.transferBlockLand core ⟨num, none⟩) s = .next t ∧ counted t [] ∧ t.core.wb = u.core.wb ∧
            ((new.map Prod.fst).Nodup → ∀ y ∈ new, t.core.treeByte y.1 = y.2) ∧
            (∀ q : Nat, q ∉ new.map Prod.fst → t.core.treeByte q = u.core.treeByte q) ∧
            (∀ i : Nat, i < b.bytes.length → (t.core.line (line + o.byteTo (b.first + i) / 64)).full = true) ∧
            (o.laterTree = [] → ∀ i : Nat, i < b.bytes.length →
              t.core.treeByte (64 * line + o.byteTo (b.first + i)) = b.bytes.getD i 0)) ∧
        (∀ row : Nat, o.kind = .wbfill row → apart [] → sparseWf 0 0 u.core.wb = true → b.first % 256 = 0 → b.bytes.length ≤ 4096 →
          (∀ d dof, o.dst ≠ .mem d dof) →
          u.core.addHeld o b = false →
          ∃ t, exec (.transferBlockLand core ⟨num, none⟩) s = .next t ∧ counted t [] ∧ t.core.tree = u.core.tree ∧
            (∀ i : Nat, i < b.bytes.length → t.core.wbByte (row + b.first / 256) i = (b.bytes.getD i 0).toNat) ∧
            (∀ q : Nat, q < 256 * row + b.first ∨ 256 * row + b.first + b.bytes.length ≤ q →
              t.core.wbByte 0 q = u.core.wbByte 0 q)))) ∧
  (∀ (s : State) (o : XOp) (a n : Nat),
      (∀ (st dt : EType) (b : Binding) (off : Nat), o.kind = .conv st dt → o.src = some (.mem b off) → o.taken = [] →
        let byteAt : Nat → Byte := fun i => match b.place (off + i) with
          | some p => s.readByte p
          | none => 0
        let elem := fun j => convert st dt (natOfBytes ((rangeFrom (st.width * j) st.width).map byteAt))
        let l := rangeFrom (a / dt.width) (n / dt.width)
        s.outputBytes o a n = (l.flatMap (fun j => bytesOfNat dt.width (elem j).1), (l.map (fun j => (elem j).2)).foldl (· ||| ·) 0) ∧
        o.needs a n = rangeFrom (a / dt.width * st.width) (n / dt.width * st.width)) ∧
      ((∀ st dt : EType, o.kind ≠ .conv st dt) → s.outputBytes o a n = ((rangeFrom a n).map (fun i => match o.byteFrom i with
        | .src y => s.sourceByte o y
        | .const v => v), 0)) ∧
      (∀ (b : Binding) (off i : Nat) (p : PAddr), o.src = some (.mem b off) → b.place (off + i) = some p →
        (o.taken = [] → s.sourceByte o i = s.readByte p) ∧
        (∀ d : BitVec 512, o.taken = [(p.addr / 64, d)] → (s.sourceByte o i).toNat = d.toNat / 2 ^ (8 * (p.addr % 64)) % 256))) ∧
  (∀ (o : XOp) (i : Nat),
      ((∀ (e : Nat) (idx : List Nat), o.kind ≠ .scatter e idx) → o.blockSize = 4096) ∧
      (∀ rows rb sp dp : Nat, o.kind = .copy rows rb sp dp → 0 < rows →
        o.byteFrom i = .src (i / rb * sp + i % rb) ∧ o.byteTo i = i / rb * dp + i % rb) ∧
      (o.kind = .copy 0 0 0 0 → o.byteFrom i = .src i ∧ o.byteTo i = i) ∧
      (∀ v : BitVec 32, o.kind = .fill v → o.byteFrom i = .const (v.extractLsb' (8 * (i % 4)) 8) ∧ o.byteTo i = i) ∧
      (∀ (e : Nat) (idx : List Nat), o.kind = .gather e idx →
        o.byteFrom i = .src (idx.getD (i / e) 0 * e + i % e) ∧ o.byteTo i = i) ∧
      (∀ (e : Nat) (idx : List Nat), o.kind = .scatter e idx → o.blockSize = 4096 / e * e ∧
        o.byteFrom i = .src i ∧ o.byteTo i = idx.getD (i / e) 0 * e + i % e) ∧
      (∀ (w : Vector (BitVec 32) 15) (t : EType) (sp dp p0 : Nat), o.kind = .unfold w t sp dp p0 → 0 < winAt w .ch →
        0 < winAt w .ww → 0 < winAt w .wh →
        let row := patchBytes w t
        let el := i % row / t.width
        let p := p0 + i / row
        let ow := (unfoldCols w).toNat
        let ky := el / winAt w .ch / winAt w .ww
        let kx := el / winAt w .ch % winAt w .ww
        let y : Int := (p / ow * winAt w .sy + ky * winAt w .dy : Nat) - (winAt w .pt : Int)
        let x : Int := (p % ow * winAt w .sx + kx * winAt w .dx : Nat) - (winAt w .pl : Int)
        let input : Int → Int → ByteFrom := fun y x =>
          .src (y.toNat * inputPitch w t sp + x.toNat * winAt w .ch * t.width + el % winAt w .ch * t.width + i % row % t.width)
        let ih : Int := winAt w .ih
        let iw : Int := winAt w .iw
        let out := ¬ (0 ≤ y ∧ y < ih ∧ 0 ≤ x ∧ x < iw)
        (¬ out → o.byteFrom i = input y x) ∧
        (out → winAt w .pmode = 0 → o.byteFrom i = .const 0) ∧
        (out → winAt w .pmode = 1 → o.byteFrom i = .const (BitVec.ofNat 8 (winAt w .pconst / 2 ^ (8 * (i % row % t.width))))) ∧
        (out → winAt w .pmode = 2 → o.byteFrom i = input (reflect y ih) (reflect x iw)) ∧
        (out → winAt w .pmode = 3 → o.byteFrom i = input (clampIn y ih) (clampIn x iw)) ∧
        o.byteTo i = i / row * (if dp = 0 then row else dp) + i % row)) ∧
  (∀ y n : Int, (0 ≤ y → y < n → reflect y n = y ∧ clampIn y n = y) ∧ (y < 0 → reflect y n = -y ∧ clampIn y n = 0) ∧
    (0 ≤ y → n ≤ y → reflect y n = 2 * (n - 1) - y ∧ clampIn y n = n - 1))

/-- R185: once every participant has handed the same block of a collective over, in whatever order its blocks come, the result is
written to every participant's endpoint and stands there, and nothing else in memory changes but the sync words of their batches. With one participant the result
is its own bytes; `sum.i32` saturates the exact sum, `sum.f32` adds in the pairwise tree of R73, `bcast` gives the first
participant's bytes, and `argmax` the pair of the highest value, then the lowest index, then the lowest position. Positions go by
member number, then by rank. The instants at which a collective reads and writes, and that scopes are not compared, are the model's choice
(log 19); so is that bytes which another operation has written since in a unit that this one had written in part stay that one's (log 16). -/
def Obligations.CollectivesCombine : Prop :=
  (∀ (op : CollOp) (len : Nat) (a : List Byte), collResult op len [a] = a) ∧
  (∀ (l : List (List Byte)) (n : Nat), 2 ≤ l.length →
    let at_ := fun (w j : Nat) (a : List Byte) => (a.drop (w * j)).take w
    ((∀ a ∈ l, a.length = 4 * n) →
      collResult .sumI32 (4 * n) l = (List.range n).flatMap (fun j =>
        bytesOfNat 4 (wrapInt 32 (satInt 32 ((l.map (fun a => intOfBytes (at_ 4 j a))).foldl (· + ·) 0)))) ∧
      (let v := fun j (a : List Byte) => natOfBytes (at_ 4 j a)
       collResult .sumF32 (4 * n) l = (List.range n).flatMap (fun j => bytesOfNat 4 ((pairTree (ceilLog2 l.length)
         (l.map (v j) ++ List.replicate (2 ^ ceilLog2 l.length - l.length) 0)).headD 0)) ∧
       (∀ a b : List Byte, l = [a, b] → collResult .sumF32 (4 * n) l =
         (List.range n).flatMap (fun j => bytesOfNat 4 (addF32 (v j a) (v j b)))) ∧
       (∀ a b c : List Byte, l = [a, b, c] → collResult .sumF32 (4 * n) l =
         (List.range n).flatMap (fun j => bytesOfNat 4 (addF32 (addF32 (v j a) (v j b)) (addF32 (v j c) 0)))))) ∧
    ((∀ a ∈ l, a.length = n) → collResult .bcast n l = l.headD []) ∧
    ((∀ a ∈ l, a.length = 8 * n) → ∀ j : Nat, j < n →
      let value := fun (a : List Byte) => natOfBytes (at_ 4 (2 * j) a)
      let rank : List Byte → Int := fun a => if isNanBits 23 (value a) then -2 ^ 40 else orderKey 23 (value a)
      let index := fun (a : List Byte) => natOfBytes (at_ 4 (2 * j + 1) a)
      ∃ p : Nat, p < l.length ∧ at_ 8 j (collResult .argmax (8 * n) l) = at_ 8 j (l.getD p []) ∧
        ∀ q : Nat, q < l.length → rank (l.getD q []) < rank (l.getD p []) ∨
          (rank (l.getD q []) = rank (l.getD p []) ∧ (index (l.getD p []) < index (l.getD q []) ∨
            (index (l.getD p []) = index (l.getD q []) ∧ p ≤ q))))) ∧
  (∀ l : List Contribution, (orderMembers l).Perm l ∧ (orderMembers l).Pairwise (fun a b =>
    a.member < b.member ∨ (a.member = b.member ∧ a.rank ≤ b.rank))) ∧
  (∀ (s : State) (core num : Nat) (remote : List Remote) (o : XOp) (b : Block) (op : CollOp) (scope : Scope)
      (ident m : Nat) (got : List (XOp × Contribution)), s.liveCore core = true →
    let u := s.focus core
    let ranks := u.participants scope ident
    let all := orderMembers (got.map Prod.snd ++
      (if scope = .group ∧ inGroup u.group.state = true then remote.map (fun r => remoteContribution r b.first b.bytes.length) else []))
    let result := collResult op b.bytes.length (all.map (fun c => c.bytes))
    let parts := ranks.zip (got.map Prod.fst)
    let writes := fun (o : XOp) => o.newCells { b with bytes := result }
    let cells := parts.flatMap (fun p => writes p.2)
    let words := parts.flatMap (fun p => match ((u.coreOf p.1.core).xfer.batch p.2.batch).bind (fun a => a.sync) with
      | some r => (List.range 16).map r.pa.plus
      | none => [])
    u.core.xfer.collBlock num = some (o, b) → o.kind = .coll op scope ident m →
    (∃ r ∈ ranks, r.core = u.core.id) → (ranks.map (fun r => r.core)).Nodup → (∀ r ∈ ranks, u.collGone ident m r = false) →
    ranks.mapM (u.contribution ident m b.first) = some got → (∀ c ∈ all, c.op = op.code ∧ c.len = o.len) →
    (∀ p ∈ parts, p.2.failed = none ∧ p.2.inside = false ∧ u.eccWrite (writes p.2) = .ok ∧
      ∀ k : Block, p.2.blockAt b.first = some k → k.lost = false ∧ k.badTag = false ∧ k.consume = [] ∧
        (u.coreOf p.1.core).addHeld p.2 { k with formed := true } = false) →
    (cells.map Prod.fst).Nodup → (∀ a ∈ cells, a.1 ∉ words) → u.eccRead words = .ok → u.memWf = true →
    ∃ t, exec (.collectiveResult core num remote) s = .next t ∧ u.sameOutside t (cells.map Prod.fst ++ words) ∧
      (∀ a ∈ cells, t.readByte a.1 = a.2) ∧
      (∀ p ∈ parts, (p.2.later = [] → writes p.2 = p.2.cells { b with bytes := result })) ∧
      (∀ p ∈ parts, ∀ (line : Nat) (cw ww : Bool), p.2.dst = .tree line cw ww → p.2.laterTree = [] →
        sparseWf Line.zero 0 (u.coreOf p.1.core).tree = true → ∀ i : Nat, i < result.length →
          (t.coreOf p.1.core).treeByte (64 * line + b.first + i) = result.getD i 0 ∧
          ((t.coreOf p.1.core).line (line + (b.first + i) / 64)).full = true))

/-- R17, R288, R312, R313: a wait that ends gives its stream the next turn. A halt of a context with one core is complete once every
stream of that core has written its record; the halt is then marked posted, once. R125, R305, R310, R323: a parity error in a
matrix stream with an unreleased reduction replays it from its snapshot; outside every region it stops a running engine with STRIKE
and queues the sequencer's trap; for a STOPPED stream it is kept, and the stream stays STOPPED; while a close is releasing it waits
as a report. R125, R305 and R308 give a parity error a fate inside a reduction or a region alone: what it does outside every region, in
a STOPPED stream and during a release is the model's choice (log 9). Every stream writes its halt record when the halt completes (log
12). -/
def Obligations.WaitsHaltsAndParityErrors : Prop :=
  (∀ (s : State) (core ctx : Nat) (st : StreamId),
      (s.liveCore core = true →
        let u := s.focus core
        (st ≠ .xfer ∨ u.core.xfer.cur = none) →
        exec (.waitSatisfied core st) s = .next { u with sched := ⟨0, 0, [], .stream u.core.id st⟩ :: u.sched }) ∧
      (∀ (c : Context) (h : Halt), s.ctx ctx = some c → c.halt = some h →
        (h.posted = true → exec (.haltComplete ctx) s = .next s) ∧
        (h.posted = false → s.ctxCores ctx = [s.core.id] → s.core.vec.vp = [] →
          ∃ t, exec (.haltComplete ctx) s = .next t ∧
            t.ctx ctx = some { c with halt := some { h with posted := true } } ∧
            (∀ x : Fin 4, t.core.written[x] = s.core.written[x] + 1) ∧
            t.core.seq.g = s.core.seq.g ∧ t.core.seq.pc = s.core.seq.pc ∧ t.core.tree = s.core.tree ∧
            t.hbm = s.hbm ∧ t.window = s.window ∧
            (s.fw.ifaces[c.iface].enable = false → t.host = s.host ∧ t.fw = s.fw) ∧
            (s.fw.ifaces[c.iface].enable = true → t.fw.ifaces[c.iface].event = s.fw.ifaces[c.iface].event + 1)))) ∧
  (∀ (s : State) (core : Nat), s.liveCore core = true →
      let u := s.focus core
      (∀ (r : Reduction) (l : List Reduction), u.core.mat.reds = r :: l → r.retries + 1 < 4 → u.core.seq.ended = false →
        u.core.mat.eng.st.live = true →
        ∃ t, exec (.engineParityError core .mat) s = .next t ∧ t.core.mat.reds = [] ∧ t.core.mat.acc = r.snap.acc ∧
          t.core.mat.seg = r.snap.seg ∧ t.core.mat.rows = r.snap.rows ∧ t.core.mat.cols = r.snap.cols ∧
          t.core.mat.base = r.snap.base ∧ t.core.mat.pert = r.snap.pert ∧ t.core.mat.eng.k = r.snap.k ∧
          t.core.mat.eng.pc = r.snap.pc ∧ t.core.mat.eng.st = .run ∧ t.core.seq.mendretry = u.core.seq.mendretry + 1 ∧
          t.core.tree = u.core.tree ∧ u.sameMemory t) ∧
      (u.core.vec.eng.releasing = false → u.core.vec.regions = [] → u.core.vec.vp = [] → u.core.vec.lostAt = none → u.core.seq.ended = false →
        u.core.vec.eng.st = .run →
        ∃ t, exec (.engineParityError core .vec) s = .next t ∧ t.core.vec.eng.st = .stopped ∧ t.core.vec.eng.code = 0x0101 ∧
          t.core.seq.traps = u.core.seq.traps ++ [.stop .vec 0x0101 u.now] ∧ t.core.tree = u.core.tree ∧ u.sameMemory t ∧
          t.core.seq.g = u.core.seq.g) ∧
      (∀ e : Eng, u.core.deferReport e.stream = false → u.core.seq.ended = false → (u.core.eng e).st = .stopped →
        exec (.engineParityError core e) s = .next (u.updEng e (fun x => { x with
          strike := x.strike.or (some ⟨u.core.mayCore e.stream u.now, u.core.mayLeft e.stream u.now⟩) }))) ∧
      (∀ e : Eng, u.core.deferReport e.stream = true → coreExists u.core.id = true → u.core.seat.isSome = true →
        exec (.engineParityError core e) s = .next
          { u with core := { u.core with reports := u.core.reports ++ [⟨[e.stream], u.now⟩] } }))

/-- R184, R223, R288, R303: a strike on a stream, on what all streams of a core share, on the matrix array or on the transfer path
is a report to those streams of a seated core; one in memory, in the tree, in the weight buffer or in the undo buffer that ECC cannot
correct leaves that sector, line, row or saved item lost, and a correctable one is counted in the device's error log; a tag is a
sector's of HBM; one in the Flopor die, and a die at 115 °C, halts every context. A die at 105 °C lowers the budgets that its
cores' next windows aim at (R236). A halt's detail that no rule names is a free value (log 5). A line is healed whole (log 14). That a vector
write which must complete is performed before its sector is lost or its tag broken, and one that a begun release still holds is issued before
its line of the undo buffer is lost, is the model's choice (log 20). -/
def Obligations.StrikesLandWhereTheyHit : Prop :=
  ∀ (s : State) (core n : Nat) (st : StreamId) (p : PAddr) (die : Fin 4) (budget : Nat),
    let hit := fun (x : StruckPart) (t : State) => exec (.softErrorStrike x) s = .next t
    let reports := fun (x : StruckPart) (l : List StreamId) =>
      (coreExists core = true → (s.coreOf core).seat.isSome = true →
        hit x (s.updCore core (fun c => { c with reports := c.reports ++ [⟨l, s.now⟩] }))) ∧
      ((s.coreOf core).seat = none → hit x s)
    let halted := s.ctxs.map (fun c => match c.halt with
      | none => { c with halt := some ⟨0x0101, (s.focus (s.lowestCore c.num)).openDetail, s.lowestCore c.num, false, false, s.now⟩ }
      | some _ => c)
    reports (.stream core st) [st] ∧
    reports (.shared core) [.seq, .vec, .mat, .xfer] ∧
    reports (.matrixArray core) [.mat] ∧
    reports (.transferPath core) [.xfer] ∧
    (let quiet := ∀ c ∈ s.cores, c.vec.heldPicks (VpEntry.touches (sectorOf p)) = false ∧ ∀ e ∈ c.vec.vp.head?,
       e.touches (sectorOf p) = false ∨ (e.bound = false ∧ c.vec.eng.releasing = false)
     (quiet → ∃ t, hit (.memory p false) t ∧ t = { s with lost := sectorOf p :: s.lost, others := t.others } ∧
       ∀ m : Nat, t.coreOf m = s.coreOf m) ∧
     (quiet → p.space = .hbm → ∃ t, hit (.tag p) t ∧ t = { s with badTag := sectorOf p :: s.badTag, others := t.others } ∧
       ∀ m : Nat, t.coreOf m = s.coreOf m)) ∧
    (∀ (e : VpEntry) (l : List VpEntry) (cells : List (PAddr × Byte)), s.others = [] → s.core.vec.vp = e :: l → e.kind = .store cells →
      e.bound = true → e.lost = false → e.touches (sectorOf p) = true → s.core.vec.eng.releasing = false → s.memWf = true →
      s.eccWrite cells = .ok →
      let written := fun (t : State) => t.core.vec.vp = l ∧ s.sameOutside t (cells.map Prod.fst) ∧
        ((cells.map Prod.fst).Nodup → ∀ c ∈ cells, t.readByte c.1 = c.2) ∧ t.core.tree = s.core.tree
      (∃ t, hit (.memory p false) t ∧ written t ∧ sectorOf p ∈ t.lost) ∧
      (p.space = .hbm → ∃ t, hit (.tag p) t ∧ written t ∧ sectorOf p ∈ t.badTag)) ∧
    hit (.memory p true) { s with fw := { s.fw with log := s.fw.log ++ [⟨.corrected, 0xFF, 0, 0⟩] } } ∧
    (p.space ≠ .hbm → hit (.tag p) s) ∧
    (coreExists core = true → ∀ depth item : Nat,
      (st = .vec → (s.coreOf core).vec.eng.releasing = false ∨ (s.coreOf core).vec.heldItem depth item = none) →
      hit (.undo core st depth item false) (s.updCore core (fun c => c.loseUndo st depth item))) ∧
    (s.liveCore core = true →
      let u := s.focus core
      ∀ (r : VecRegion) (e : VpEntry), u.core.vec.regions = [r] → r.held = [e] → u.core.vec.eng.releasing = true → u.core.vec.vp = [] →
        u.core.holdsNew .vp = false → e.seq ≠ u.core.issue →
        hit (.undo core .vec 0 r.saved.length false) { u with core := { u.core with
          issue := u.core.issue + 1
          vec := { u.core.vec with vp := [{ e with seq := u.core.issue }], regions := [{ r with held := [] }] } } }) ∧
    (∀ (c : Core) (r : SeqRegion) (b : SavedBytes) (v w : List SavedBytes), c.seq.regions = [r] → r.saved = v ++ b :: w →
      c.loseUndo .seq 0 v.length = { c with seq := { c.seq with regions := [{ r with saved := v ++ { b with lost := true } :: w }] } }) ∧
    (coreExists core = true → n < 2048 →
      hit (.treeLine core n false) (s.updCore core (fun c => { c with treeLost := n :: c.treeLost }))) ∧
    (coreExists core = true → n < 4096 →
      hit (.wbRow core n false) (s.updCore core (fun c => { c with wbLost := n :: c.wbLost }))) ∧
    hit (.walker die) s ∧ hit (.scheduler die) s ∧
    hit .flopor { s with ctxs := halted } ∧
    exec (.dieOver115c die) s = .next { s with ctxs := halted, fw := { s.fw with railsDown := true } } ∧
    (s.heat[die] = none → exec (.dieOver105c die budget) s = .next { s with heat := s.heat.set die (some budget) }) ∧
    (∀ old : Nat, s.heat[die] = some old →
      exec (.dieOver105c die budget) s = .next { s with heat := s.heat.set die (some (min old budget)) })

/-- R22, R25, R268: a waiting launch, and the block at the head of a launch queue, take their cores: each core holds the crew at its
rank, with the arguments in g1 to g8 and the program counter at 0; a block whose packet is refused leaves the queue. R220, R269 to
R273: when `YDL` of a rank that has not yielded is spent, the crew is stopped; once it stands still, and no access of a crew that
does not stand still to its cores' stores is under way, it is saved and its cores are free; a stage on whose behalf it was asked is owed them (R266); it
comes back on the same cores. The order of the chosen cores, when cores stay owed, and that
what a crew at rest or saved holds is not waited for, are the model's choice (log 21). -/
def Obligations.CrewsArePlacedStoppedAndResumed : Prop :=
  (∀ (s : State),
      let seated := fun (t : State) (num ctx : Nat) (p : LaunchPacket) (ids : List Nat) =>
        ∀ (i n : Nat), ids[i]? = some n →
          (t.coreOf n).seat = some ⟨num, ctx, i, p.crew, p.res⟩ ∧ (t.coreOf n).seq.pc = 0 ∧ (t.coreOf n).seq.ended = false ∧
          ∀ j : Fin 8, (t.coreOf n).seq.g[(⟨j.val + 1, by omega⟩ : Fin 32)] = ⟨p.args[j], true⟩
      (∀ (w : Waiting) (ids : List Nat) (code image : List Byte), s.waiting.find? (fun x => decide (x.num = w.num)) = some w →
        s.nextBlock w.ctx = none → s.nextLaunch (s.partOf w.ctx) = some w → s.fits w.ctx w.packet.crew ids = true →
        (∀ (q : Fin 64) (tag va len : Nat), w.origin = .host q tag va len → s.fw.ifaces[q].cons = s.fw.ifaces[q].notify) →
        let s1 := s.dropWaiting w.num
        s1.readCode w.ctx w.packet = .ok code → s1.launchImage w = .ok image → s.crew w.num = none →
        ∃ t, exec (.crewPlacement w.num ids) s = .next t ∧ seated t w.num w.ctx w.packet ids ∧
          t.crew w.num = some ⟨w.num, w.ctx, w.packet, ids, w.origin, .running, [], none, false, []⟩ ∧
          t.waiting = s.waiting.filter (fun x => decide (x.num ≠ w.num))) ∧
      (∀ (target : Nat) (rest : List Nat) (b : LaunchBlock) (code : List Byte), s.headBlock target = some b →
        s.nextBlock b.ctx = some target → launchRefused b.bytes 0 (s.partCores b.ctx).length = none →
        let p := launchOf b.bytes
        s.fits b.ctx p.crew (sortNat (target :: rest)) = true → sortNat rest = rest → s.readCode b.ctx p = .ok code →
        s.crew s.crewNum = none →
        ∃ t, exec (.launchBlockTaken target rest) s = .next t ∧ seated t s.crewNum b.ctx p (target :: rest) ∧
          t.crew s.crewNum = some ⟨s.crewNum, b.ctx, p, target :: rest, .block b.pusher target, .running, [], none, false, []⟩ ∧
          t.queueOf target = (s.queueOf target).tail) ∧
      (∀ (target reason : Nat) (rest : List Nat) (b : LaunchBlock), s.headBlock target = some b → s.nextBlock b.ctx = some target →
        launchRefused b.bytes 0 (s.partCores b.ctx).length = some reason →
        ∃ t, exec (.launchBlockTaken target rest) s = .next t ∧ t.queueOf target = (s.queueOf target).tail ∧ t.crews = s.crews)) ∧
  (∀ (s : State) (n : Nat) (k : Crew), s.crew n = some k →
      (k.state = .running → (∃ id ∈ k.cores, (s.coreOf id).seq.yreq = true ∧ (s.coreOf id).seq.ydl = 0) →
        (∃ id ∈ k.cores, (s.coreOf id).seq.yielded = false ∧ (s.coreOf id).seq.ended = false) →
        exec (.ydlExpiry n) s = .next (s.updCrew n (fun k => { k with state := .stopping true }))) ∧
      (k.state ≠ .running → exec (.ydlExpiry n) s = .next s) ∧
      (s.crewStopping n = true → s.ctxHalted k.ctx = false → (∀ id ∈ k.cores, (s.coreOf id).saveReady = true) →
        (let r := s.revokeWindows k.cores
         (∀ id ∈ k.cores, r.storeBusyFrom k.cores id = false) → s.orphaned k = false ∨ k.asked = some none →
          ∃ t, exec (.crewSave n) s = .next t ∧
            t.crew n = some { k with state := .saved, saved := k.cores.map r.saveCore, asked := none, stood := r.stoodBy k.cores } ∧
            (∀ id ∈ k.cores, (t.coreOf id).seat = none) ∧ s.sameMemory t ∧
            ((∀ st : Nat, k.asked ≠ some (some st)) → t.ctxs = s.ctxs) ∧
            (∀ (st : Nat) (c : Context) (h : Harness), k.asked = some (some st) → s.ctx k.ctx = some c → c.harness = some h →
              t.ctx k.ctx = some { c with harness := some { h with owed := h.owed ++ k.cores.map (fun id => (id, st)) } })) ∧
        ((∃ id ∈ k.cores, (s.revokeWindows k.cores).storeBusyFrom k.cores id = true) →
          exec (.crewSave n) s = .next (s.revokeWindows k.cores))) ∧
      ((∃ id ∈ k.cores, (s.coreOf id).saveReady = false) → exec (.crewSave n) s = .next s) ∧
      (∀ code : List Byte, s.canResume k = true → s.placeFirst k.ctx = false → s.coresOwed k = false →
        ((∀ st : Nat, k.origin ≠ .stage st) ∨ s.stageWants k.ctx = false) → (∀ v ∈ k.saved, v.core.reports = []) →
        s.readCode k.ctx k.packet = .ok code → k.cores.Nodup → k.saved.length = k.cores.length →
        ∃ t, exec (.crewResume n) s = .next t ∧ t.crew n = some { k with state := .running, saved := [], stood := [] } ∧
          ∀ (i id : Nat), k.cores[i]? = some id →
            (t.coreOf id).seat = some ⟨k.num, k.ctx, i, k.packet.crew, k.packet.res⟩ ∧
            (∀ v : SavedCore, k.saved[i]? = some v → (t.coreOf id).seq.g = v.core.seq.g ∧ (t.coreOf id).seq.pc = v.core.seq.pc)) ∧
      (s.canResume k = false → exec (.crewResume n) s = .next s))

/-- R210, R264 to R266: the scan walks to the row that it reads, counts it for its phase, and judges a stage's row LATE once the home
die's earliest bound has passed its deadline; a row that cannot be read is logged with its code and passed over; a decision launches
a new instance of the first stage that is below its minimum and fits; else the stage that freed cores are owed to, or the one of step 2, resumes
a pre-empted instance whose cores are free, or launches one. The order of
the stages, details of a scan, and that a surely late row which the block may only read stays as it is and is logged, are the model's choice (log 21). -/
def Obligations.TheSchedulerScansAndDecides : Prop :=
  ∀ (s : State) (ctx : Nat) (c : Context) (h : Harness), s.ctx ctx = some c → c.harness = some h → h.ended = false →
    (∀ (f : XlFault) (bits : Nat), s.rowWalk ctx h h.row false = .fault f bits → exec (.schedulerScanRow ctx) s = .next
      ((s.logCtx ctx .lostRow h.row (if f.cause = 6 then codeDataLost else codeBounds)).updHarness ctx (fun x => x.scanNext none))) ∧
    (∀ (pa : PAddr) (wr : Bool) (bits : Nat), s.rowWalk ctx h h.row false = .ok pa wr bits →
      s.eccRead (placesFrom pa 64) = .lost → exec (.schedulerScanRow ctx) s = .next
      ((s.logCtx ctx .lostRow h.row codeDataLost).updHarness ctx (fun x => x.scanNext none))) ∧
    (∀ (pa qa : PAddr) (wr wr' : Bool) (bits bits' : Nat), s.rowWalk ctx h h.row false = .ok pa wr bits →
      s.rowWalk ctx h h.row true = .ok qa wr' bits' → s.eccRead (placesFrom pa 64) = .ok →
      let w := s.readNat pa 8
      ((h.stageOf (rowPhase w) = none ∨ s.readNat (pa.plus 8) 8 = 0) →
        exec (.schedulerScanRow ctx) s = .next (s.updHarness ctx (fun x => x.scanNext (if rowBusy w then none else some (rowPhase w))))) ∧
      ((h.stageOf (rowPhase w)).isSome = true → s.readNat (pa.plus 8) 8 ≠ 0 → h.suspended = false →
        s.clocks[h.home].wide = false → s.clocks[h.home].late - s.clocks[h.home].early ≤ (if h.wlim = 0 then 2000 else h.wlim) →
        s.clocks[h.home].early > sextNat 64 (s.readNat (pa.plus 8) 8) → s.readNat (pa.plus 0x10) 8 = 0 → s.memWf = true →
        s.eccWrite (cellsAt pa (bytesOfNat 8 (rowWord (rowSeq w + 1) false 63)) ++ cellsAt (pa.plus 0x28) (bytesOfNat 2 0x0601)) = .ok →
        ∃ t, exec (.schedulerScanRow ctx) s = .next t ∧ t.readNat pa 8 = rowWord (rowSeq w + 1) false 63 ∧
          t.readNat (pa.plus 0x28) 2 = 0x0601 ∧
          s.sameOutside t (placesFrom pa 8 ++ placesFrom (pa.plus 0x28) 2))) ∧
    (∀ (pa : PAddr) (wr : Bool) (bits bits' : Nat) (f : XlFault), s.rowWalk ctx h h.row false = .ok pa wr bits →
      s.rowWalk ctx h h.row true = .fault f bits' → s.eccRead (placesFrom pa 64) = .ok → h.suspended = false →
      (h.stageOf (rowPhase (s.readNat pa 8))).isSome = true → s.readNat (pa.plus 8) 8 ≠ 0 →
      s.clocks[h.home].wide = false → s.clocks[h.home].late - s.clocks[h.home].early ≤ (if h.wlim = 0 then 2000 else h.wlim) →
      s.clocks[h.home].early > sextNat 64 (s.readNat (pa.plus 8) 8) →
      exec (.schedulerScanRow ctx) s = .next ((s.logCtx ctx .lostRow h.row (if f.cause = 6 then codeDataLost else codeBounds)).updHarness ctx
        (fun x => x.scanNext (if rowBusy (s.readNat pa 8) then none else some (rowPhase (s.readNat pa 8)))))) ∧
    (∀ (cores : List Nat) (p : LaunchPacket) (st : Nat) (code : List Byte), h.scanned = true → s.mayPlace ctx = true →
      s.placeFirst ctx = false → s.settleOwed ctx = s →
      s.step1 ctx h [] = some (p, st) ∨
        (s.step1 ctx h [] = none ∧ (s.stepOwed ctx h []).or (s.step2 ctx h []) = some (p, st) ∧ s.resumable ctx h st = none) →
      s.readCode ctx p = .ok code →
      (∀ k ∈ s.crews, k.num < s.crewNum) →
      ∃ (t : State) (k : Crew), exec (.schedulerDecision ctx cores []) s = .next t ∧ t.crew s.crewNum = some k ∧ k.ctx = ctx ∧
        k.origin = .stage st ∧ k.packet = p ∧ k.state = .running ∧ k.cores = sortNat ((s.offered ctx h st cores).take p.crew)) ∧
    (∀ (cores : List Nat) (p : LaunchPacket) (st : Nat) (code : List Byte) (k : Crew), h.scanned = true → s.mayPlace ctx = true →
      s.placeFirst ctx = false → s.settleOwed ctx = s → s.step1 ctx h [] = none →
      (s.stepOwed ctx h []).or (s.step2 ctx h []) = some (p, st) → s.resumable ctx h st = some k → s.crew k.num = some k →
      s.readCode k.ctx k.packet = .ok code →
      ∃ (t : State) (x : Crew), exec (.schedulerDecision ctx cores []) s = .next t ∧ t.crew k.num = some x ∧ x.state = .running ∧
        x.cores = k.cores ∧ x.saved = []) ∧
    (∀ cores withdraw : List Nat, h.scanned = false → exec (.schedulerDecision ctx cores withdraw) s = .next s)

/-- R225 to R227: once the clocks run, an exchange whose bounds agree with a die's interval narrows it to their intersection, and
never moves the latest bound back; one that does not agree makes the width unbounded and is logged. The first exchange after
`time.set` starts the clocks at the base that the host set; bounds that cross, or a device without a time base, change nothing. A
die's own time word goes out with its earliest bound. R231, R233, R236 to R238: the clock in force moves 25 MHz towards the ceiling
once its step's stamp has come; a member sends a time frame, and a heartbeat with every tenth; a member's frame sets its floor and
corrects the clocks, and a member that is heard again no longer counts as silent for this device (log 7); ports go down, come up and drop flits, each with its own counts in the log. The units of the bounds, real time
τ, which follows the bounds and the intervals that leave it out, that a host exchange reaches all four dies, the form of a port's log
entry, the stamp from which a joiner ramps, and that a heartbeat changes nothing, are the model's choice (log 7). -/
def Obligations.ClocksAndFramesAreExchanged : Prop :=
  (∀ (s : State) (lo hi : Int) (die : Fin 4),
      let fits := fun (d : DieClock) => d.e ≤ 20000 * hi ∧ 20000 * lo ≤ d.u
      let fixed := fun (d : DieClock) => { d with
        wide := false, e := max d.e (20000 * lo), u := min d.u (20000 * hi), l := max d.l (min d.u (20000 * hi)) }
      let kept := fun (t : State) =>
        (20000 * lo ≤ s.tau → s.tau ≤ 20000 * hi → (∀ d : Fin 4, t.clocks[d].wide = false → t.clocks[d].e ≤ s.tau ∧ s.tau ≤ t.clocks[d].u) →
          t.tau = s.tau) ∧
        (∀ x : Int, 20000 * lo ≤ x → x ≤ 20000 * hi → (∀ d : Fin 4, t.clocks[d].wide = false → t.clocks[d].e ≤ x ∧ x ≤ t.clocks[d].u) →
          20000 * lo ≤ t.tau ∧ t.tau ≤ 20000 * hi ∧
          ∀ d : Fin 4, t.clocks[d].wide = false → t.clocks[d].e ≤ t.tau ∧ t.tau ≤ t.clocks[d].u)
      let runs := s.fw.timeset = true ∧ s.fw.timeWait = none
      (hi < lo → exec (.ptmExchange lo hi) s = .next s ∧ exec (.dieTimeWord die lo hi) s = .next s) ∧
      (lo ≤ hi → runs → ∃ t, exec (.ptmExchange lo hi) s = .next t ∧ kept t ∧
        (∀ d : Fin 4, (fits s.clocks[d] → t.clocks[d] = fixed s.clocks[d]) ∧
          (¬ fits s.clocks[d] → t.clocks[d] = { s.clocks[d] with wide := true })) ∧
        ((∀ d : Fin 4, fits s.clocks[d]) → t = { s with clocks := s.clocks.map fixed, tau := t.tau })) ∧
      (∀ base : Int, s.fw.timeWait = some base → lo ≤ hi →
        ∃ t, exec (.ptmExchange lo hi) s = .next t ∧ t.fw = { s.fw with timeWait := none } ∧
          t.tau = 20000 * max lo (min base hi) ∧ ∀ d : Fin 4, t.clocks[d].wide = false ∧ t.clocks[d].e = 20000 * lo ∧
            t.clocks[d].u = 20000 * hi ∧ t.clocks[d].l = 20000 * hi) ∧
      (s.fw.timeset = false → s.fw.timeWait = none → exec (.ptmExchange lo hi) s = .next s) ∧
      (lo ≤ hi → runs →
        (fits s.clocks[die] → ∃ t, exec (.dieTimeWord die lo hi) s = .next t ∧ kept t ∧ t = { s with
          clocks := s.clocks.set die (let d := fixed s.clocks[die]; { d with word := d.e, wordW := some (d.late - d.early).toNat })
          tau := t.tau }) ∧
        (¬ fits s.clocks[die] → ∃ t, exec (.dieTimeWord die lo hi) s = .next t ∧ t.clocks[die].wide = true ∧
          t.clocks[die].e = s.clocks[die].e ∧ t.clocks[die].wordW = none ∧
          t.fw.log = s.fw.log ++ [⟨.clock, 0xFF, 0, die.val⟩] ∧ (∀ d : Fin 4, d ≠ die → t.clocks[d] = s.clocks[d])))) ∧
  (∀ (s : State) (f : TimeFrame) (lo hi : Int) (port : Fin 12) (up : Bool) (a b c : Nat),
      let g := s.group
      let goes := fun (i : Instr) (h : Group) => exec i s = .next { s with group := h }
      (g.nextStep = g.rampAt + 500 * ((max g.freq g.rampFrom - min g.freq g.rampFrom) / 25 : Nat)) ∧
      (g.nextStep ≤ s.earlyAll →
        (g.freq < g.ceiling → goes .rampStep { g with freq := min g.ceiling (g.freq + 25) }) ∧
        (g.ceiling < g.freq → goes .rampStep { g with freq := max g.ceiling (g.freq - 25) })) ∧
      (g.freq = g.ceiling ∨ s.earlyAll < g.nextStep → goes .rampStep g) ∧
      (inGroup g.state = false → goes .timeframeSend g) ∧
      (inGroup g.state = true → g.ports ≠ 0 →
        ((g.frames + 1) % 10 ≠ 0 → goes .timeframeSend { g with frames := g.frames + 1, sent := g.sent ++ [.timeframe s.ownFrame] }) ∧
        ((g.frames + 1) % 10 = 0 → goes .timeframeSend { g with
          frames := g.frames + 1
          sent := g.sent ++ [.timeframe s.ownFrame, .heartbeat g.number g.agreement g.limit] })) ∧
      (g.state ≠ .out → g.ports ≠ 0 → g.knows f.member = true → s.fw.timeset = true → s.fw.timeWait = none → lo ≤ hi →
        20000 * f.fPackage ≤ s.tau → 20000 * lo ≤ s.tau → s.tau ≤ 20000 * hi →
        (∀ d : Fin 4, s.clocks[d].e ≤ s.tau ∧ s.tau ≤ s.clocks[d].u) →
        ∃ t, exec (.timeframe f lo hi) s = .next t ∧ t.fw = s.fw ∧
          t.group = { g with
            members := g.members.map (fun m =>
              if m.number = f.member then { m with fPackage := f.fPackage, w := f.w, heard := t.lateAll } else m)
            silences := g.silences.map (fun x => if x.member = f.member then
              { x with told := false, confirms := x.confirms.filter (fun m => decide (m ≠ g.number)) } else x) } ∧
          ∀ d : Fin 4, t.clocks[d].e = max s.clocks[d].e (20000 * lo) ∧ t.clocks[d].u = min s.clocks[d].u (20000 * hi)) ∧
      (g.knows f.member = false ∨ g.ports = 0 → exec (.timeframe f lo hi) s = .next s) ∧
      exec (.heartbeat a b c) s = .next s ∧
      (g.portEntry port = port.val + 16 * (if g.ports.getLsbD port.val then 1 else 0) + 2 ^ 8 * (g.dropped[port] % 2 ^ 32) +
        2 ^ 40 * (g.retries[port] % 2 ^ 32)) ∧
      (let h := { g with ports := 0 }
       exec .fabricPortsDown s = .next { s with
        group := h
        fw := { s.fw with log := s.fw.log ++ ((List.finRange 12).filter (fun i => g.ports.getLsbD i.val)).map (fun i =>
          ⟨.port, 0xFF, 0, h.portEntry i⟩) } }) ∧
      (∃ t, exec (.fabricPortLinkChange port up) s = .next t ∧ (∀ i : Fin 12, t.group.ports.getLsbD i.val =
        if i = port then up else g.ports.getLsbD i.val) ∧ (g.silences = [] → t.group = { g with ports := t.group.ports }) ∧
        t.fw.log = s.fw.log ++ [⟨.port, 0xFF, 0, t.group.portEntry port⟩] ∧ t.clocks = s.clocks) ∧
      (let h := { g with
         dropped := g.dropped.set port (g.dropped[port] + 1)
         retries := g.retries.set port (g.retries[port] + 1) }
       exec (.droppedFlit port) s = .next { s with
        group := h, fw := { s.fw with log := s.fw.log ++ [⟨.flit, 0xFF, 0, h.portEntry port⟩] } }))

/-- R231, R232, R234, R236: limits. A member announces a forecast limit 50,000 ns ahead, or leaves when it cannot run at the floor, and
the limit that the others know counts until then; every other member acknowledges and records it; it takes effect, in the next
agreement and at its stamp, once the earliest bound has passed that stamp. A notice without all its acknowledgements forms no
agreement; it is withdrawn and sent again, and the new one takes its place with the others; a limit of no member is ignored. A new
agreement ends what heat had lowered. The rounding of a ceiling to 25 MHz within 1,350 to 2,700, the immediate agreement of a device in
no group, that a LIMIT sent again names the stamp of the one withdrawn, and that a limit found while a device joins or leaves waits,
are the model's choice (log 7). -/
def Obligations.LimitsTakeEffectAtTheirStamp : Prop :=
  ∀ (s : State) (limit member was : Nat) (stamp : Int) (old : Option Int),
    let g := s.group
    let goes := fun (i : Instr) (h : Group) => exec i s = .next { s with group := h }
    let agrees := fun (i : Instr) (h : Group) => exec i s = .next { s with group := h, heat := Vector.replicate 4 none }
    let late := s.lateAll
    (ceilingOf limit = max 1350 (min 2700 (limit / 25 * 25))) ∧
    (inGroup g.state = true → g.ports ≠ 0 →
      (let told : Group := { g with
         sent := g.sent ++ [.limit g.number limit ⟨late + 50000, none⟩]
         changes := g.changes ++ [⟨.limit g.number limit, late + 50000, true, g.members.map (fun m => m.number)⟩] }
       (1350 ≤ limit → g.state = .member → goes (.limitForecast limit) told) ∧
       (1350 ≤ limit → g.state = .leaving → goes (.limitForecast limit) { told with nextLimit := some limit })) ∧
      (limit < 1350 → g.state = .leaving → goes (.limitForecast limit) { g with nextLimit := some limit }) ∧
      (limit < 1350 → g.state = .member → goes (.limitForecast limit) { g with
        nextLimit := some limit, state := .leaving
        sent := g.sent ++ [.leave g.number (late + 50000)]
        changes := g.changes ++ [⟨.leaves g.number, late + 50000, true, g.members.map (fun m => m.number)⟩] })) ∧
    (g.state = .out → s.fw.stage = 6 → agrees (.limitForecast limit) { g with
      limit := limit, agreement := (g.agreement + 1) % 2 ^ 32, ceiling := ceilingOf limit, moment := s.earlyAll, rampFrom := g.freq
      rampAt := s.earlyAll }) ∧
    (g.state = .joining → g.joinStamp.isSome = true → goes (.limitForecast limit) { g with nextLimit := some limit }) ∧
    (g.state = .joining → g.joinStamp = none → goes (.limitForecast limit) { g with limit := limit }) ∧
    (g.state ≠ .out → g.ports ≠ 0 → g.knows member = true ∨ g.unaware = true →
      (let heard := fun (l : List Announced) => goes (.limit member limit ⟨stamp, old⟩) { g with
         changes := l
         withdrawn := (match old with
           | some t => if g.unaware = true then g.withdrawn ++ [(member, t)] else g.withdrawn
           | none => g.withdrawn)
         sent := if inGroup g.state then g.sent ++ [.ack g.number (.limit member limit stamp)] else g.sent }
       ((∀ a ∈ g.changes, a.mine = true) → heard (g.changes ++ [⟨.limit member limit, stamp, false, []⟩])) ∧
       (∀ t : Int, g.changes = [⟨.limit member was, t, false, []⟩] → t ≠ stamp →
         (old = some t → heard [⟨.limit member limit, stamp, false, []⟩]) ∧
         (old ≠ some t → heard [⟨.limit member was, t, false, []⟩, ⟨.limit member limit, stamp, false, []⟩])))) ∧
    (g.state = .out ∨ g.ports = 0 ∨ (g.knows member = false ∧ g.unaware = false) →
      exec (.limit member limit ⟨stamp, old⟩) s = .next s) ∧
    (g.ports ≠ 0 → goes (.ack member (.limit was limit stamp)) { g with changes := g.changes.map (fun a =>
      if a.mine = true ∧ a.change = .limit was limit ∧ a.stamp = stamp then
        { a with missing := a.missing.filter (fun n => decide (n ≠ member)) } else a) }) ∧
    (∀ a : Announced, g.changes = [a] → a.change = .limit g.number limit → inGroup g.state = true → g.silences = [] →
      ((a.mine = true → a.missing = []) → s.earlyAll > a.stamp → agrees .limitStampPassed { g with
        changes := [], limit := limit, agreement := (g.agreement + 1) % 2 ^ 32
        ceiling := ceilingOf (g.members.foldl (fun m x => min m x.limit) limit), moment := a.stamp, rampFrom := g.freq
        rampAt := a.stamp }) ∧
      ((a.mine = true ∧ a.missing ≠ []) ∨ ¬ s.earlyAll > a.stamp → goes .limitStampPassed g) ∧
      (a.mine = true → a.missing ≠ [] → late ≥ a.stamp - 10000 → g.ports ≠ 0 → goes .limitAckTimeout { g with
        changes := [⟨.limit g.number limit, late + 50000, true, g.members.map (fun m => m.number)⟩]
        sent := g.sent ++ [.limit g.number limit ⟨late + 50000, some a.stamp⟩] }) ∧
      (a.missing = [] → goes .limitAckTimeout g))

/-- R233, R234, R238: joining and leaving. A member answers a JOIN with what the joiner has to know, every notice pending among it; once
the last acknowledgement is in, the joiner adopts it, with the notices that the agreement has not formed, and announces the stamp of
its join; the join fails when one is missing after 100,000 ns, and an ACK that comes later counts for nothing; at its stamp the device
is a member under the lowest free number, and leaves again if it cannot run at the floor; a leave is acknowledged, recorded, and
takes the device out at its stamp. R235, R238: silence. A member that has heard no frame of another for 100,000 ns, for the first time or since it heard one again, forms what is stamped at
or below its SILENT, tells the group, and runs at the floor under the next agreement; a member that is told does the same; one that already has that agreement only counts
the confirmation, which may come before the SILENT; a sender that is no member counts for nothing, and a device with every port
down removes nobody. That a JOIN announces the join stamp, that a joiner's number is settled at that stamp, what a joiner keeps of a
SILENT and of a withdrawn LIMIT, that the notices before a SILENT are formed first by its sender too, and the choices for a device that
stands alone, are the model's choice (log 7). -/
def Obligations.MembersJoinLeaveAndFallSilent : Prop :=
  (∀ (s : State) (device limit member number : Nat) (stamp : Int) (info : AgreementInfo) (known : List (Nat × Nat)) (notices : List Notice),
      let g := s.group
      let goes := fun (i : Instr) (h : Group) => exec i s = .next { s with group := h }
      let told : AckOf := .join Config.deviceIdentity limit info number known notices
      let inTime := ∀ t : Int, g.joinBegan = some t → s.earlyAll ≤ t + 100000
      (inGroup g.state = true → g.ports ≠ 0 → goes (.join device ⟨limit, none⟩) { g with
        sent := g.sent ++ [.ack g.number (.join device limit ⟨g.agreement, g.ceiling, g.moment⟩ g.lowestFree
          ((g.number, g.limit) :: g.members.map (fun m => (m.number, m.limit))) (g.changes.map announcedNotice))] }) ∧
      (inGroup g.state = false ∨ g.ports = 0 → exec (.join device ⟨limit, none⟩) s = .next s) ∧
      (g.state ≠ .out → g.ports ≠ 0 → g.changes = [] → goes (.join device ⟨limit, some stamp⟩) { g with
        changes := [⟨.joins device limit, stamp, false, []⟩]
        sent := if inGroup g.state then g.sent ++ [.ack g.number (.joins device limit stamp)] else g.sent }) ∧
      (g.state = .joining → g.ports ≠ 0 → g.joinStamp = none →
        (¬ inTime → exec (.ack member told) s = .next s) ∧
        (inTime → g.awaiting.contains member = true → (∃ m ∈ g.awaiting, m ≠ member) → goes (.ack member told) { g with
          awaiting := g.awaiting.filter (fun m => decide (m ≠ member)), joinAcks := g.joinAcks ++ [told] }) ∧
        (inTime → g.awaiting = [member] → g.joinAcks = [] → g.heardSilents = [] → g.withdrawn = [] → known.length < 1024 →
          ∃ u, exec (.ack member told) s = .next u ∧
          u.group.joinStamp = some (s.lateAll + 50000) ∧ u.group.number = number ∧ u.group.agreement = info.number ∧
          u.group.ceiling = info.ceiling ∧ u.group.moment = info.moment ∧ u.group.rampAt = s.earlyAll ∧
          u.group.members.map (fun m => (m.number, m.limit)) = known ∧
          u.group.sent = g.sent ++ [.join Config.deviceIdentity g.limit (some (s.lateAll + 50000))] ∧
          ∀ a : Announced, a ∈ u.group.changes ↔ a = ⟨.joins Config.deviceIdentity g.limit, s.lateAll + 50000, true, []⟩ ∨
            ((a ∈ notices.map recordedNotice ∨ a ∈ g.changes) ∧ info.moment < a.stamp ∧ u.group.concerns a = true))) ∧
      (g.state = .joining → g.ports ≠ 0 → g.joinStamp = none → g.heardSilents = [] → ∀ agreement : Nat,
        goes (.silent member device stamp agreement) { g with
          heardSilents := [⟨device, agreement, stamp⟩]
          changes := g.changes.filter (fun a => !(isLimit a.change && decide (a.stamp > stamp))) }) ∧
      (∀ t : Int, g.joinBegan = some t → g.state = .joining → g.joinStamp = none → s.fw.pending = [] →
        (s.earlyAll > t + 100000 → ∃ u, exec .joinAckTimeout s = .next u ∧ u.group.state = .out ∧ u.group.members = [] ∧
          u.group.changes = [] ∧ u.group.agreement = (g.agreement + 1) % 2 ^ 32 ∧ u.group.ceiling = ceilingOf (g.nextLimit.getD g.limit) ∧
          u.fw.log = s.fw.log ++ [⟨.joinFailed, 0xFF, 0x0205, 0⟩]) ∧
        (¬ s.earlyAll > t + 100000 → s.groupFull = false → exec .joinAckTimeout s = .next s)) ∧
      (∀ t : Int, g.joinStamp = some t → g.state = .joining → s.fw.pending = [] → g.nextLimit = none →
        g.changes = [⟨.joins Config.deviceIdentity limit, t, true, []⟩] →
        (s.earlyAll > t → g.limit < 1350 → ∃ u, exec .joinStampPassed s = .next u ∧ u.group.state = .leaving ∧
          (g.ports ≠ 0 → .leave g.lowestFree (s.lateAll + 50000) ∈ u.group.sent)) ∧
        (s.earlyAll > t → 1350 ≤ g.limit → exec .joinStampPassed s = .next { s with
          heat := Vector.replicate 4 none
          group := { g with
            state := .member, number := g.lowestFree, changes := [], joinBegan := none, joinStamp := none
            agreement := (g.agreement + 1) % 2 ^ 32, ceiling := ceilingOf (g.members.foldl (fun m x => min m x.limit) g.limit)
            moment := t, rampFrom := g.freq, rampAt := t } }) ∧
        (¬ s.earlyAll > t → exec .joinStampPassed s = .next s)) ∧
      (g.state ≠ .out → g.ports ≠ 0 → g.knows member = true ∨ (inGroup g.state = true ∧ member = g.number) → g.changes = [] → goes (.leave member stamp) { g with
        changes := [⟨.leaves member, stamp, false, []⟩]
        sent := if inGroup g.state then g.sent ++ [.ack g.number (.leave member stamp)] else g.sent }) ∧
      (g.state = .out ∨ g.ports = 0 → exec (.leave member stamp) s = .next s) ∧
      (inGroup g.state = true → g.changes = [⟨.leaves g.number, stamp, true, []⟩] →
        (s.earlyAll > stamp → ∃ u, exec .leaveStampPassed s = .next u ∧ u.group.state = .out ∧ u.group.members = [] ∧
          u.group.changes = [] ∧ u.group.agreement = (g.agreement + 1) % 2 ^ 32 ∧ u.group.ceiling = ceilingOf (g.nextLimit.getD g.limit) ∧
          u.clocks = s.clocks) ∧
        (¬ s.earlyAll > stamp → goes .leaveStampPassed g))) ∧
  (∀ (s : State) (member sender agreement : Nat) (stamp : Int),
      let g := s.group
      inGroup g.state = true → g.ports ≠ 0 →
      let g1 := g.formAll s.lateAll (fun x => decide (x ≤ s.lateAll)) g.changes.length
      ((∀ a ∈ g.changes, s.lateAll < a.stamp) → g1 = g) ∧
      (∀ m : Member, g.members.find? (fun m => decide (m.number = member)) = some m →
        (∀ x ∈ g.silences, x.member = member → x.told = false) → g1.agreement + 1 < 2 ^ 32 →
        (s.earlyAll > m.heard + 100000 → g1.knows member = false → exec (.silenceDetected member) s = .next s) ∧
        (s.earlyAll > m.heard + 100000 → g1.knows member = true → ∃ t, exec (.silenceDetected member) s = .next t ∧
          t.group.agreement = g1.agreement + 1 ∧ t.group.ceiling = 1350 ∧ t.group.moment = s.lateAll ∧
          .silent member s.lateAll (g1.agreement + 1) ∈ t.group.sent ∧ t.group.members = g1.members ∧
          (∃ x ∈ t.group.silences, x.member = member ∧ x.told = true ∧ g.number ∈ x.confirms ∧ (g.silences = [] → x.confirms = [g.number])) ∧
          ∀ a ∈ g.changes, isLimit a.change = true → a.stamp > s.lateAll → a ∉ t.group.changes) ∧
        (¬ s.earlyAll > m.heard + 100000 → exec (.silenceDetected member) s = .next s)) ∧
      (g.silences = [] → g.knows sender = true → g.agreement < agreement → g.changes = [] →
        ∃ t, exec (.silent sender member stamp agreement) s = .next t ∧ t.group.agreement = agreement ∧ t.group.ceiling = 1350 ∧
          t.group.moment = stamp ∧ ∃ x ∈ t.group.silences, x.member = member ∧ x.confirms = [sender]) ∧
      (g.knows sender = false → exec (.silent sender member stamp agreement) s = .next s) ∧
      (g.knows sender = true → agreement ≤ g.agreement →
        exec (.silent sender member stamp agreement) s = exec (.confirm sender member) s) ∧
      (g.knows member = false ∨ (g.knows sender = false ∧ sender ≠ g.number) → exec (.confirm sender member) s = .next s) ∧
      (g.silences = [] → g.knows member = true → g.knows sender = true → sender ≠ g.number →
        exec (.confirm sender member) s = .next { s with group := { g with silences := [⟨member, [sender], false, false, []⟩] } }) ∧
      (∀ x : Silence, g.silences = [x] → x.member = member → x.removed = true → sender ∉ x.confirms → g.knows member = true →
        g.knows sender = true → exec (.confirm sender member) s = .next { s with group := { g with
          silences := [{ x with confirms := x.confirms ++ [sender] }] } }) ∧
      (∀ x : Silence, g.silences = [x] → x.member = member → x.removed = false → g.members.length ≤ 1 → x.confirms = [] →
        g.knows member = true → sender = g.number →
        ∃ t, exec (.confirm sender member) s = .next t ∧ .leave member (s.lateAll + 50000) ∈ t.group.sent ∧
          t.group.agreement = g.agreement)) ∧
  (∀ (s : State) (member sender agreement : Nat) (stamp : Int), s.group.ports = 0 →
      exec (.silent sender member stamp agreement) s = .next s ∧ exec (.confirm sender member) s = .next s ∧
      ∀ m : Member, s.group.members.find? (fun m => decide (m.number = member)) = some m → inGroup s.group.state = true →
        (∀ x ∈ s.group.silences, x.member = member → x.told = false) → s.earlyAll > m.heard + 100000 →
        let g1 := s.group.formAll s.lateAll (fun x => decide (x ≤ s.lateAll)) s.group.changes.length
        g1.knows member = true → ∃ t, exec (.silenceDetected member) s = .next t ∧ t.group.ceiling = 1350 ∧ t.group.sent = s.group.sent ∧
          t.group.members = g1.members ∧
          ((∀ x ∈ s.group.silences, x.cancelled = []) → ∀ a ∈ t.group.changes, a ∈ s.group.changes))

/-- R240, R274, R275, R277, R285: what the host does to the device. Power-on clears all but host memory and boots; a read of device
memory gives its bytes, a write changes the bytes it names, an AtomicOp gives the old value and leaves the new one; the global
registers of BAR0 read as R275 has them; an interface's registers are written while it does not run, and starting it clears its
indices; a notify more than a ring ahead is logged, and one that names a packet brings that packet's command next, behind commands taken before it that still lead (R281). R278, R281: the
answer to a command writes one event record with its code, partition, context, tag, reason, sequence number, phase and results, takes
one from the interface's counter, signals its vector and frees the interface; on an interface that does not run it leaves no record. R223,
R224: a counter in a poisoned sector of host memory is not written.
What an access out of range does, and that the PASID keeps the interfaces' host memories apart, are the model's choice (log 22); R285
gives no contents of memory and registers at power-on: that HBM, the local stores and the cores then hold zero is the model's choice too
(logs 4 and 10). -/
def Obligations.TheHostActsAndIsAnswered : Prop :=
  (∀ (s : State) (q : Fin 64) (n : BitVec 32) (v : Word) (part ppa : Nat) (bytes : List Byte),
      let i := s.fw.ifaces[q]
      (∃ t, exec .powerOn s = .next t ∧ t.core = Core.blank 0 ∧ t.others = [] ∧ t.hbm = [] ∧ t.window = [] ∧ t.host = s.host ∧
        t.parts = [] ∧ t.ctxs = [] ∧ t.crews = [] ∧ t.waiting = [] ∧ t.group = State.reset.group ∧ t.clocks = State.reset.clocks ∧
        t.fw.ifaces = State.reset.fw.ifaces ∧ t.fw.timeset = false ∧
        ((∀ k : Nat, 1 ≤ k → k ≤ 4 → Config.bootStep k = true) → t.fw.stage = 4 ∧ t.fw.ready = true) ∧
        (∀ k : Nat, k < 4 → (∀ j : Nat, 1 ≤ j → j ≤ k → Config.bootStep j = true) → Config.bootStep (k + 1) = false →
          t.fw.stage = k ∧ t.fw.ready = false)) ∧
      (let host := fun (a : HostAccess) => exec (.hostCxlMemAccess a) s
       let gives := fun (a : HostAccess) (l : List Byte) (lost : Bool) =>
         host a = .next { s with fw := { s.fw with reply := ⟨l, lost⟩ } }
       (s.part part = none → host (.read part ppa bytes.length) = .next s ∧ host (.write part ppa bytes) = .next s) ∧
       (∀ (p : Partition) (l : List PAddr), s.part part = some p →
        (s.partPlaces p ppa bytes.length false = some l →
          (s.eccRead l = .ok → gives (.read part ppa bytes.length) (s.readBytes l) false) ∧
          (s.eccRead l ≠ .ok → gives (.read part ppa bytes.length) [] true)) ∧
        (s.partPlaces p ppa bytes.length true = some l → s.memWf = true → s.eccWrite (l.zip bytes) = .ok →
          ∃ t, host (.write part ppa bytes) = .next t ∧ s.sameOutside t l ∧
            (l.Nodup → ∀ x ∈ l.zip bytes, t.readByte x.1 = x.2) ∧ t.core = s.core ∧ t.fw = { s.fw with reply := ⟨[], false⟩ }) ∧
        (∀ x : Word, s.partPlaces p ppa 8 true = some l → ppa % 8 = 0 → s.memWf = true → l.Nodup → s.eccRead l = .ok →
          ∃ t, host (.atomic .fetchAdd part ppa 8 v x) = .next t ∧ s.sameOutside t l ∧
            natOfBytes (t.readBytes l) = (natOfBytes (s.readBytes l) + v.toNat) % 2 ^ 64 ∧
            t.fw = { s.fw with reply := ⟨s.readBytes l, false⟩ } ∧ t.core = s.core)) ∧
       gives (.bar0 0) (bytesOfNat 8 (0x4F580004 + 2 ^ 32 * (Config.firmwareVersion s.fw.patches).toNat)) false ∧
       gives (.bar0 8) (bytesOfNat 8 (16 * (s.fw.stage % 16) + (if s.ctxs.any (fun c => c.halt.isSome) then 8 else 0) +
         (if s.fw.timeset then 4 else 0) + (if s.fw.config.isSome then 2 else 0) + (if s.fw.ready then 1 else 0))) false ∧
       gives (.bar0 (4096 * (1 + q.val) + 0x18)) (bytesOfNat 8 (i.vector % 2 ^ 16 * 2 ^ 32 + (if i.enable then 2 ^ 31 else 0) +
         i.evlog % 16 * 2 ^ 24 + i.sqlog % 16 * 2 ^ 20 + i.pasid % 2 ^ 20)) false ∧
       (∀ off : Nat, (16 ≤ off ∧ off < 4096) ∨ 65 * 4096 ≤ off → gives (.bar0 off) (List.replicate 8 0) false)) ∧
      (i.enable = false → exec (.notifyWrite q n) s = .next s) ∧
      (i.enable = true → 2 ^ i.sqlog < (n - i.cons).toNat → exec (.notifyWrite q n) s = .next { s with
        fw := { s.fw with log := s.fw.log ++ [⟨.notify, 0xFF, 0, q.val⟩] } }) ∧
      (i.enable = true → n = i.cons → exec (.notifyWrite q n) s = .next (s.updIface q (fun i => { i with notify := n, stall := false }))) ∧
      (i.enable = true → (n - i.cons).toNat ≤ 2 ^ i.sqlog → n ≠ i.cons → i.busy = false → s.fw.ready = true → s.fw.railsDown = false →
        s.eccRead (placesFrom i.slot 64) = .ok →
        let l := s.readBytes (placesFrom i.slot 64)
        (natOfBytes (l.drop 56)).testBit 63 = true → (packetOf l).zero = true → opAssigned (packetOf l).op = true →
        exec (.notifyWrite q n) s = .next (let t := (s.writeNat (i.slot.plus 56) 8 0).updIface q (fun i => { i with
            notify := n, stall := false, cons := i.cons + 1, busy := true })
          let lead : Turn → Bool := fun x => match x.agent with
            | .command _ _ => true
            | _ => false
          { t with sched := t.sched.takeWhile lead ++ ⟨0, 0, [], .command q (packetOf l)⟩ :: t.sched.dropWhile lead })) ∧
      (i.enable = false → 3 ≤ s.fw.stage → controlOk v.toNat = true → v.toNat.testBit 31 = true →
        exec (.interfaceEnable q v) s = .next (s.updIface q (fun i => { i with
          vector := bitsOf v.toNat 47 32, evlog := bitsOf v.toNat 27 24, sqlog := bitsOf v.toNat 23 20, pasid := bitsOf v.toNat 19 0,
          enable := true, cons := 0, event := 0, notify := 0, stall := false, busy := false }))) ∧
      (i.enable = true → v.toNat.testBit 31 = false →
        exec (.interfaceEnable q v) s = .next (s.updIface q (fun i => { i with enable := false }))) ∧
      (let at_ := fun (off : Nat) => exec (.bar0RegisterWrite (4096 * (1 + q.val) + off) v) s
       (i.enable = true → at_ 0x00 = .next s ∧ at_ 0x08 = .next s ∧ at_ 0x10 = .next s) ∧
       (i.enable = false →
         at_ 0x00 = .next (s.updIface q (fun i => { i with sqbase := v &&& ~~~(63 : Word) })) ∧
         at_ 0x08 = .next (s.updIface q (fun i => { i with evbase := v &&& ~~~(127 : Word) })) ∧
         at_ 0x10 = .next (s.updIface q (fun i => { i with cnt := v &&& ~~~(7 : Word) }))) ∧
       at_ 0x18 = exec (.interfaceEnable q v) s ∧
       at_ 0x20 = exec (.notifyWrite q (v.setWidth 32)) s ∧
       (∀ off : Nat, off < 4096 → off ∉ [0x00, 0x08, 0x10, 0x18, 0x20] → at_ off = .next s)) ∧
      (∀ off : Nat, off < 4096 → exec (.bar0RegisterWrite off v) s = .next s)) ∧
  (∀ (s : State) (q : Fin 64) (p : Packet) (code : Code) (reason : Nat) (results : List Word),
      let i := s.fw.ifaces[q]
      i.notify = i.cons →
      let t := s.answer q p code reason results
      t.fw.ifaces[q].busy = false ∧ t.core = s.core ∧ t.hbm = s.hbm ∧ t.window = s.window ∧ t.parts = s.parts ∧ t.ctxs = s.ctxs ∧
      (i.enable = false → t.host = s.host ∧ t.fw.msix = s.fw.msix) ∧
      (i.enable = true →
        let vec : Fin 65 := Fin.ofNat 65 i.vector
        t.fw.ifaces[q].event = i.event + 1 ∧
        (s.fw.msixTable[vec].masked = false → t.fw.msix = assocSet s.fw.msix vec.val (assocGet 0 s.fw.msix vec.val + 1)) ∧
        (s.fw.msixTable[vec].masked = true → t.fw.msix = s.fw.msix ∧ t.fw.msixTable[vec].pending = true) ∧
        (s.memWf = true → s.eccRead (placesFrom (i.host i.cnt.toNat) 8) ≠ .ok →
          (∀ a : Nat, a < 128 → ∀ b : Nat, b < 8 →
            sectorOf (i.host (i.evbase.toNat + 128 * (i.event % 2 ^ i.evlog) + a)) ≠ sectorOf (i.host (i.cnt.toNat + b))) →
          t.readNat (i.host i.cnt.toNat) 8 = s.readNat (i.host i.cnt.toNat) 8) ∧
        (s.memWf = true → results.length ≤ 6 →
          let at_ := i.evbase.toNat + 128 * (i.event % 2 ^ i.evlog)
          at_ % 64 = 0 → s.eccRead (placesFrom (i.host i.cnt.toNat) 8) = .ok →
          (∀ a : Nat, a < 128 → ∀ b : Nat, b < 8 → at_ + a ≠ i.cnt.toNat + b) →
          t.readNat (i.host i.cnt.toNat) 8 = (s.readNat (i.host i.cnt.toNat) 8 + 2 ^ 64 - 1) % 2 ^ 64 ∧
          t.readNat (i.host at_) 8 = p.tag % 2 ^ 16 * 2 ^ 16 + p.ctx % 2 ^ 8 * 2 ^ 32 + p.part % 2 ^ 8 * 2 ^ 40 + code.toNat * 2 ^ 48 ∧
          t.readNat (i.host (at_ + 8)) 8 = i.event % 2 ^ 32 + reason % 2 ^ 32 * 2 ^ 32 ∧
          (∀ a : Nat, 0x10 ≤ a → a < 0x3F → t.readByte (i.host (at_ + a)) = 0) ∧
          t.readNat (i.host (at_ + 0x3F)) 1 = 128 * ((i.event / 2 ^ i.evlog + 1) % 2) ∧
          (∀ j : Nat, j < 6 → t.readNat (i.host (at_ + 0x40 + 8 * j)) 8 = (results.getD j 0).toNat) ∧
          t.readNat (i.host (at_ + 0x70)) 16 = 0)))

/-- R213, R279 to R282: partitions and contexts. `part.create` on interface A takes the quads, frames, share and interfaces that it
names, scrubs its cores and frames, writes its stage-2 table and draws its keys; `ctx.create` takes the lowest free number; the two
that destroy halt their contexts and wait, and to later commands what they destroy is gone. What is out of range, taken, unknown
or on the wrong interface is refused with its reason. A command that has to take effect after one that waits is put off (R281). Which
free frames are taken, the lowest free number, reason 2 for a partition that is missing, the wait of a `ctx.create` for a number that is
being given up, which commands are put off, a new partition's decoder window, and where the tables lie, are the model's choice (logs 11
and 22); so is that the bytes of a new partition's frames read 0 (log 4: R282 writes its sectors whole and gives no value); a halt's
detail that no rule names is a free value (log 5). -/
def Obligations.PartitionsAndContextsAreManaged : Prop :=
  ∀ (s : State) (q : Fin 64) (p : Packet), s.fw.stage = 6 →
    (s.fw.pending.any (s.comesAfter q p) = true → ∀ i ∈ [Instr.partCreate q p, .partDestroy q p, .ctxCreate q p, .ctxDestroy q p, .load q p,
      .launch q p, .harness q p, .harnessEnd q p, .resolve q p, .refuse q p, .unmap q p, .checkpoint q p, .restore q p, .timeSet q p,
      .groupJoin q p, .groupLeave q p, .collBind q p, .debugHalt q p, .debugResume q p, .debugReadState q p, .logRead q p],
      exec i s = .next { s with fw := { s.fw with pending := s.fw.pending ++ [⟨q, p, 1⟩] } }) ∧
    (s.fw.pending.any (s.comesAfter q p) = false →
    let refuses := fun (i : Instr) (r : Nat) => exec i s = .next (s.refuseCmd q p r)
    let halted := fun (f : Context → Bool) => s.ctxs.map (fun c => if f c ∧ c.halt = none then
      { c with halt := some ⟨0, (s.focus (s.lowestCore c.num)).openDetail, s.lowestCore c.num, false, false, s.now⟩ } else c)
    let waits := fun (f : Context → Bool) => { s with ctxs := halted f, fw := { s.fw with pending := s.fw.pending ++ [⟨q, p, 0⟩] } }
    (q ≠ 0 → refuses (.partCreate q p) 2 ∧ refuses (.partDestroy q p) 2) ∧
    (q = 0 → partArgsOk p = false → refuses (.partCreate q p) 3) ∧
    (q = 0 → partArgsOk p = true → s.partTaken p = true → refuses (.partCreate q p) 6) ∧
    (∀ n : Nat, q = 0 → partArgsOk p = true → s.partTaken p = false → s.freePart = some n →
      let x : Partition := ⟨n, maskBits 64 p.a0.toNat ++ (maskBits 32 p.a1.toNat).map (64 + ·),
        stage2Table n p.a2.toNat s.freeFrames, p.a2.toNat * 2 ^ 30, p.a3.toNat, p.a4, s.fw.draws⟩
      ∃ u : State, exec (.partCreate q p) s = .next (u.okCmd q p [wordOfNat n]) ∧ u.part n = some x ∧ u.fw.draws = s.fw.draws + 1 ∧
        u.ctxs = s.ctxs ∧ (∀ id ∈ x.cores, (u.coreOf id).seat = none ∧ (u.coreOf id).tree = [] ∧
          ∀ a : Nat, a < 2 ^ 22 → u.readByte ⟨.window, storeBase id + a⟩ = 0) ∧
        (∀ f ∈ x.frames, ∀ a : Nat, a < 2 ^ 30 → u.readByte ⟨.hbm, f * 2 ^ 30 + a⟩ = 0) ∧
        (s.memWf = true → (x.s2.map Prod.fst).Nodup → ∀ e ∈ x.s2, u.readNat ⟨.hbm, stage2Base n + 8 * e.1⟩ 8 = e.2.bits)) ∧
    (q = 0 → s.part p.part = none → refuses (.partDestroy q p) 5) ∧
    (∀ x : Partition, q = 0 → s.part p.part = some x →
      exec (.partDestroy q p) s = .next (waits (fun c => decide (s.ctxs.any (fun d => decide (d.part = x.num) && decide (d.num = c.num)))))) ∧
    (∀ x : Partition, s.part p.part = some x → q ≠ 0 → x.ifaces.toNat.testBit q.val = true → s.partGoing x.num = false →
      (ctxArgsOk x p = false → refuses (.ctxCreate q p) 3) ∧
      (ctxArgsOk x p = true → ∀ n : Nat, s.freeCtx = some n → exec (.ctxCreate q p) s = .next (({ s with ctxs := s.ctxs ++
        [⟨n, x.num, p.a0.toNat, Fin.ofNat 64 (bitsOf p.a1.toNat 5 0), p.a1.toNat.testBit 8, p.a2.toNat, none, none, [], [], []⟩] } : State).okCmd
          q p [wordOfNat n])) ∧
      (ctxArgsOk x p = true → s.freeCtx = none →
        ((∀ c ∈ s.ctxs, s.ctxGoing c.num = false ∧ s.partGoing c.part = false) → refuses (.ctxCreate q p) 6) ∧
        ((∃ c ∈ s.ctxs, s.ctxGoing c.num = true ∨ s.partGoing c.part = true) → exec (.ctxCreate q p) s = .next (s.waitCmd q p))) ∧
      (s.ctx p.ctx = none → refuses (.ctxDestroy q p) 5) ∧
      (∀ c : Context, s.ctx p.ctx = some c → c.part = x.num → s.ctxGoing c.num = true → refuses (.ctxDestroy q p) 5) ∧
      (∀ c : Context, s.ctx p.ctx = some c → c.part = x.num → s.ctxGoing c.num = false →
        exec (.ctxDestroy q p) s = .next (waits (fun d => decide (d.num = c.num))))) ∧
    (∀ x : Partition, s.part p.part = some x → s.partGoing x.num = true → refuses (.ctxCreate q p) 2) ∧
    ((q = 0 ∨ s.part p.part = none) → refuses (.ctxCreate q p) 2 ∧ refuses (.ctxDestroy q p) 2))

/-- R23, R24, R52, R255 to R257, R280: programs. `load` writes an object's code, data and launch template, with the code's address
and lengths filled in; `launch` lets a crew wait for cores; `harness` puts a table in force and `harness.end` ends it;
`coll.bind` binds an identifier to a crew. Packets and records that break their rules are refused with the reason of R24 or
R257. Reason 7 for a launch into a halted context, and the code of a `load` that meets a lost sector (R224), are the model's choice
(log 22). -/
def Obligations.ProgramsAreLoadedAndLaunched : Prop :=
  ∀ (s : State) (q : Fin 64) (p : Packet) (x : Partition) (c : Context),
    s.fw.stage = 6 → s.part p.part = some x → q ≠ 0 → x.ifaces.toNat.testBit q.val = true → s.ctx p.ctx = some c → c.part = x.num →
    s.partGoing x.num = false → s.ctxGoing c.num = false → s.fw.pending.any (s.comesAfter q p) = false →
    let refuses := fun (i : Instr) (r : Nat) => exec i s = .next (s.refuseCmd q p r)
    let a0 := p.a0.toNat
    (∀ l : List Byte, s.hostRead q a0 p.a1.toNat = some l → (objectOk l = false → refuses (.load q p) 3) ∧
      (objectOk l = true → ∀ code data pkt : List PAddr,
        s.ctxPlaces c.num none p.a2.toNat (4 * objectWords l) true = .ok code →
        s.ctxPlaces c.num none p.a3.toNat (fieldAt l 0x10 4) true = .ok data → s.ctxPlaces c.num none p.a4.toNat 128 true = .ok pkt →
        let r := s.writeAll [(code, (l.drop 192).take (4 * objectWords l)),
          (data, (l.drop (192 + 4 * objectWords l)).take (fieldAt l 0x10 4)), (pkt, filledTemplate l p.a2.toNat)]
        (r.1 = .ok → exec (.load q p) s = .next ((r.2.updCtx c.num (fun c => { c with objects := c.objects ++ l })).okCmd q p
          [wordOfNat (fieldAt l 0x10 4)])) ∧
        (r.1 = .lost → exec (.load q p) s = .next (r.2.answer q p 0x0102 0 [])) ∧
        (r.1 = .badTag → exec (.load q p) s = .next ((s.integrity c.num (s.lowestCore c.num) codeIntegrity).refuseCmd q p 3)))) ∧
    (∀ (l : List PAddr) (b : List Byte) (w : List (List PAddr × List Byte)), s.writeAll [] = (.ok, s) ∧
      (s.eccWrite (l.zip b) = .ok → s.writeAll ((l, b) :: w) = ((s.heal (l.zip b)).writeCells (l.zip b)).writeAll w)) ∧
    (c.halt ≠ none → refuses (.launch q p) 7) ∧
    (c.halt = none → ∀ l : List Byte, s.ctxRead c.num a0 128 = .ok l →
      (∀ r : Nat, launchRefused l 0 x.cores.length = some r → refuses (.launch q p) r) ∧
      (launchRefused l 0 x.cores.length = none → p.a2.toNat ≤ (launchOf l).res.ls * 4096 →
        exec (.launch q p) s = .next { s with
          crewNum := s.crewNum + 1
          waiting := s.waiting ++ [⟨c.num, launchOf l, .host q p.tag p.a1.toNat p.a2.toNat, s.crewNum⟩] })) ∧
    (∀ h : Harness, c.harness = some h → refuses (.harness q p) 7 ∧ (h.ended = true → refuses (.harnessEnd q p) 7) ∧
      (h.ended = false → s.crews = [] → exec (.harnessEnd q p) s = .next ((s.updCtx c.num (fun c => { c with harness := none })).okCmd q p []))) ∧
    (c.harness = none → refuses (.harnessEnd q p) 7 ∧ ∀ h l : List Byte, s.ctxRead c.num a0 64 = .ok h →
      (recordOk h = false → refuses (.harness q p) 3) ∧
      (recordOk h = true → s.ctxRead c.num a0 (64 + 128 * bitsOf (fieldAt h 0x18 8) 4 0) = .ok l →
        (∀ r : Nat, stagesOk l x.cores.length = some r → refuses (.harness q p) r) ∧
        (stagesOk l x.cores.length = none → s.tableGaps c.num (fieldAt l 0 8) (128 * fieldAt l 8 3) = [] →
          let made : Harness := ⟨fieldAt l 0 8, fieldAt l 0x0C 4, fieldAt l 8 3, BitVec.ofNat 64 (fieldAt l 0x10 8),
            Fin.ofNat 4 (bitsOf (fieldAt l 0x18 8) 9 8), (templatesOf l).map launchOf, 0, false, [], [], [], false, false⟩
          exec (.harness q p) s = .next ((s.updCtx c.num (fun c => { c with harness := some made })).okCmd q p [])))) ∧
    ((∃ k ∈ s.crews, k.num = p.a1.toNat ∧ k.ctx = c.num ∧ k.state ≠ .ended) → exec (.collBind q p) s =
      .next ((s.updCtx c.num (fun c => { c with binds := c.binds ++ [(a0, p.a1.toNat)] })).okCmd q p [])) ∧
    ((∀ k ∈ s.crews, k.num ≠ p.a1.toNat) → refuses (.collBind q p) 5)

/-- R91, R217, R219, R265, R280, R312, R314: `resolve` lets a held core go on and `refuse` halts its context with BOUNDS; `unmap`
begins to revoke every live binding that covers its pages, of the crews that are saved too; a debugger halts a context, reads its state and lets it go on;
`log.read` copies a log. R224: bytes of a poisoned sector of host memory that are written in part are not written, and the command is answered
with DATA_LOST. A halt's detail that no rule names is a free value (log 5); the form of a log entry and of a save area in host memory, and
the code of such an answer, are the model's choice (logs 12 and 22). -/
def Obligations.FaultsUnmapsAndDebugging : Prop :=
  ∀ (s : State) (q : Fin 64) (p : Packet) (x : Partition) (c : Context),
    s.fw.stage = 6 → s.part p.part = some x → q ≠ 0 → x.ifaces.toNat.testBit q.val = true → s.ctx p.ctx = some c → c.part = x.num →
    s.partGoing x.num = false → s.ctxGoing c.num = false → s.fw.pending.any (s.comesAfter q p) = false →
    let refuses := fun (i : Instr) (r : Nat) => exec i s = .next (s.refuseCmd q p r)
    let done := fun (a : Nat) (l : List Byte) (r : List Word) =>
      if s.eccWrite (cellsAt (s.hostPlace q a) l) = .ok then (s.hostWrite q a l).okCmd q p r else (s.hostWrite q a l).answer q p 0x0102 0 []
    (∀ n : Nat, s.heldCore c.num p = .ok n →
      exec (.resolve q p) s = .next ((s.updCore n (fun c => { c with seq := { c.seq with hold := none } })).okCmd q p []) ∧
      exec (.refuse q p) s = .next ((s.haltContext c.num 0x0201 n false (s.focus n).openDetail).okCmd q p [])) ∧
    (∀ r : Nat, s.heldCore c.num p = .error r → refuses (.resolve q p) r ∧ refuses (.refuse q p) r) ∧
    (p.a1.toNat % 65536 ≠ 0 → refuses (.unmap q p) 3) ∧
    (p.a1.toNat % 65536 = 0 → ∃ t, exec (.unmap q p) s = .next t ∧ t.fw.pending = s.fw.pending ++ [⟨q, p, 0⟩] ∧
      t.crews = s.crews.map (fun k => if k.ctx = c.num then k.mapSaved (fun v => v.unmap p.a0.toNat p.a1.toNat) else k) ∧
      s.sameMemory t ∧ ∀ (n : Nat) (h : Hnd),
        (t.coreOf n).seq.h[h] = (s.coreOf n).seq.h[h].map (fun b =>
          if n ∈ s.ctxCores c.num ∧ b.covers p.a0.toNat p.a1.toNat = true ∧ b.usable = true then { b with revoking := true } else b)) ∧
    (p.a0.toNat ≤ 2 → (c.debug = false ∨ c.halt ≠ none → refuses (.debugHalt q p) 7) ∧
      (c.debug = true → c.halt = none → exec (.debugHalt q p) s =
        .next ((s.haltContext c.num 0 (s.lowestCore c.num) true (s.focus (s.lowestCore c.num)).openDetail).waitCmd q p))) ∧
    (c.halt = none → refuses (.debugResume q p) 7 ∧ refuses (.debugReadState q p) 7) ∧
    (∀ h : Halt, c.halt = some h →
      (c.debug = true → h.debug = true → h.posted = true → (∀ n ∈ s.ctxCores c.num, (s.coreOf n).heldBlocks = [] ∧ (s.coreOf n).reports = [] ∧
        (s.coreOf n).vec.lostAt = none ∧ (s.coreOf n).vec.struck = none) →
        ∃ u : State, exec (.debugResume q p) s = .next (u.okCmd q p []) ∧ u.ctx c.num = some { c with halt := none } ∧ s.sameMemory u ∧
          ∀ n : Nat, (u.coreOf n).seq = (s.coreOf n).seq ∧ (u.coreOf n).tree = (s.coreOf n).tree) ∧
      exec (.debugReadState q p) s = .next (done p.a1.toNat ((Config.saveLayout (s.areaPieces c.num)).take p.a2.toNat) [])) ∧
    (let part := (c.log.drop p.a1.toNat).take 64
     exec (.logRead q p) s = .next (done p.a0.toNat (part.flatMap (fun e =>
       Config.logEntryBytes e.kind.code e.ctx e.code e.detail)) [wordOfNat part.length]))

/-- R226, R234, R280, R283 to R287: `attest` reports on a nonce, or gives the certificate; an accepted image is kept, and the first
configuration finishes the boot; `time.set` gives the base of the next exchange; joining and leaving begin; a checkpoint asks every
covered crew to yield, and a restore writes its own device's image back into the partitions that it covers. Digests are SHA-256; keys,
signatures and what an image says are free values (log 6). That a nonce address of 0 stands for R284's nonce of zero length is read there
(log 6). The member table's form and a joiner's agreement of its own at the floor are the model's choice (log 7), as are the moment at
which `group.leave` and `time.set` are answered and the tests of a restore on quads, interfaces and numbers (log 22), and that HBM holds
zero once boot step 5 has written it whole (log 4). -/
def Obligations.IdentityTimeAndImages : Prop :=
  ∀ (s : State) (p : Packet) (l : List Byte),
    let refuses := fun (i : Instr) (r : Nat) => exec i s = .next (s.refuseCmd 0 p r)
    let done := fun (a : Nat) (l : List Byte) =>
      if s.eccWrite (cellsAt (s.hostPlace 0 a) l) = .ok then (s.hostWrite 0 a l).okCmd 0 p [] else (s.hostWrite 0 a l).answer 0 p 0x0102 0 []
    (p.part = 0xFF → p.ctx = 0xFF →
      (p.a0 = 0 → exec (.attest 0 p) s = .next (done p.a1.toNat Config.certificate)) ∧
      (p.a0 ≠ 0 → s.hostRead 0 p.a0.toNat 32 = some l →
        exec (.attest 0 p) s = .next (done p.a1.toNat (s.report l none))) ∧
      (l.length = 32 → (s.report l none).take 32 = l ∧ (s.report l none).length = 1024)) ∧
    (s.hostRead 0 p.a0.toNat p.a1.toNat = some l →
      (imageOk s.fw.config l = false → refuses (.config 0 p) 4) ∧
      (imageOk s.fw.config l = true → s.fw.stage ≠ 4 → exec (.config 0 p) s = .next ((({ s with fw := { s.fw with
        config := some (Config.imageVersion l), configDigest := sha256 l } } : State).applyImage l).okCmd 0 p [])) ∧
      (imageOk s.fw.config l = true → s.fw.stage = 4 → Config.bootStep 5 = true → Config.bootStep 6 = true →
        ∃ u : State, exec (.config 0 p) s = .next (u.okCmd 0 p []) ∧ u.fw.stage = 6 ∧ u.hbm = [] ∧ u.group.limit = Config.ownLimit ∧
          u.group.agreement = (s.group.agreement + 1) % 2 ^ 32 ∧ u.group.ceiling = ceilingOf Config.ownLimit) ∧
      (imageOk s.fw.patch l = false → refuses (.patch 0 p) 4) ∧
      (imageOk s.fw.patch l = true → exec (.patch 0 p) s = .next (({ s with fw := { s.fw with
        patch := some (Config.imageVersion l), patchDigest := sha256 l, patches := s.fw.patches + 1 } } : State).okCmd 0 p []))) ∧
    (s.fw.stage = 6 → s.fw.pending.any (s.comesAfter 0 p) = false →
      (s.fw.timeset = false → exec (.timeSet 0 p) s = .next (({ s with fw := { s.fw with
        timeset := true, timeWait := some p.a0.toInt } } : State).okCmd 0 p [])) ∧
      (s.fw.timeset = true → refuses (.timeSet 0 p) 7) ∧
      (s.group.state ≠ .out → refuses (.groupJoin 0 p) 7) ∧
      (s.group.state = .out → s.hostRead 0 p.a0.toNat Config.memberTableLength = none → refuses (.groupJoin 0 p) 3) ∧
      (∀ b : List Byte, s.hostRead 0 p.a0.toNat Config.memberTableLength = some b →
       let table := Config.memberTable b
       s.group.state = .out → s.group.ports ≠ 0 → table ≠ [] → exec (.groupJoin 0 p) s = .next { s with
         heat := Vector.replicate 4 none
         group := { s.group with
           state := .joining, joinBegan := some s.lateAll, joinStamp := none, silences := [], members := [], changes := []
           awaiting := table, joinAcks := [], heardSilents := [], nextLimit := none
           agreement := (s.group.agreement + 1) % 2 ^ 32, ceiling := 1350, moment := s.earlyAll, rampFrom := s.group.freq
           rampAt := s.earlyAll
           sent := s.group.sent ++ [.join Config.deviceIdentity s.group.limit none] }
         fw := { s.fw with pending := s.fw.pending ++ [⟨0, p, 0⟩] } }) ∧
      (s.group.state = .member → s.group.ports ≠ 0 → exec (.groupLeave 0 p) s = .next (({ s with group := { s.group with
        state := .leaving, sent := s.group.sent ++ [.leave s.group.number (s.lateAll + 50000)]
        changes := s.group.changes ++ [⟨.leaves s.group.number, s.lateAll + 50000, true, s.group.members.map (·.number)⟩] } } : State).okCmd
          0 p [])) ∧
      (s.group.state ≠ .member → refuses (.groupLeave 0 p) 7) ∧
      (p.a1.toNat < 4096 + 68 * s.coveredCount 0 p.part → refuses (.checkpoint 0 p) 3) ∧
      (4096 + 68 * s.coveredCount 0 p.part ≤ p.a1.toNat → (∀ k ∈ s.crews, k.state ≠ .running) →
        exec (.checkpoint 0 p) s = .next { s with fw := { s.fw with pending := s.fw.pending ++ [⟨0, p, 0⟩] } }) ∧
      (∀ (h b : List Byte), s.readImage 0 p.a0.toNat = some (h, b) → h.length + b.length ≤ p.a1.toNat →
        (imageIsOurs h b = false → refuses (.restore 0 p) 4) ∧
        (imageIsOurs h b = true → (∀ m ∈ s.fw.images, m.header ≠ h) → refuses (.restore 0 p) 5) ∧
        (imageIsOurs h b = true → ∀ m : SaveImage, s.fw.images.reverse.find? (fun m => decide (m.header = h)) = some m →
          let fit := headerSectors h = s.coveredCount 0 p.part ∧ s.samePartitions 0 p.part m = true
          (¬ fit → refuses (.restore 0 p) 5) ∧
          (headerKeys h m.parts = none → refuses (.restore 0 p) 5) ∧
          (∀ keys : List (Partition × SectorKeys), fit → headerKeys h m.parts = some keys →
            exec (.restore 0 p) s = .next (((s.writeSectors keys b (s.coveredSectors 0 p.part)).restoreCrews 0 p.part m).okCmd 0 p []))))) ∧
    (∀ (q : Fin 64) (x : Partition) (h b : List Byte) (m : SaveImage) (keys : List (Partition × SectorKeys)), s.fw.stage = 6 →
      s.fw.pending.any (s.comesAfter q p) = false → q ≠ 0 → s.part p.part = some x → x.ifaces.toNat.testBit q.val = true →
      s.partGoing x.num = false → s.readImage q p.a0.toNat = some (h, b) → h.length + b.length ≤ p.a1.toNat → imageIsOurs h b = true →
      s.fw.images.reverse.find? (fun m => decide (m.header = h)) = some m → headerSectors h = s.coveredCount q p.part →
      s.samePartitions q p.part m = true → headerKeys h m.parts = some keys →
      (s.numbersTaken q p.part m = true → exec (.restore q p) s = .next (s.refuseCmd q p 6)) ∧
      (s.numbersTaken q p.part m = false →
        exec (.restore q p) s = .next (((s.writeSectors keys b (s.coveredSectors q p.part)).restoreCrews q p.part m).okCmd q p [])))

/-- R38, R39, R44, R45, R48: words of the spec's own encoding tables decode to the instructions they stand for. A check of a few
words. -/
def Obligations.DecodesTheSpecsWords : Prop :=
  decode .seq 1 0x0506380F = .ok (.mulh 8 6 7) ∧
  decode .seq 1 0x05260015 = .ok (.clz 9 6) ∧
  decode .seq 1 0x54C2FFFC = .ok (.ldHs 6 2 0xFFFC) ∧
  decode .seq 1 0x2461C97C = .ok (.movk 3 1 0xC97C) ∧
  decode .vec 1 0xB4180080 = .ok (.vShape .bf16 128) ∧
  decode .mat 1 0x20848804 = .ok (.mScale ⟨1, .lit 1⟩ ⟨1, .lit 2⟩ true) ∧
  decode .seq 3 0 = .error .unassigned

/-- R35, R39, R45, R47, R48, R50: every well-formed instruction of a stream is read back from its own word by that stream's decoder,
with every operand. -/
def Obligations.DecodingUndoesEncoding : Prop :=
  ∀ (i : Instr) (st : StreamId) (w : IWord), i.wf = true → i.stream = some st → encode i = some w → decode st 3 w = .ok i

/-- R35, R36: what a decoder reads is well-formed, is of its stream, and is encoded by no other word. -/
def Obligations.EveryWordHasOneMeaning : Prop :=
  ∀ (i : Instr) (st : StreamId) (w : IWord), decode st 3 w = .ok i → i.wf = true ∧ i.stream = some st ∧ encode i = some w

/-- R17, R20, R35, R36: when a stream's turn comes and it may issue, the word at its program counter decides: an instruction is
executed, and a word that is none is ILLEGAL; a word whose line of the code area is lost is not read (R223). What follows of itself then
takes place. An event acts as it stands. R30, R320: in one cycle the sequencer acts before the transfer engine, that before the matrix
engine and the vector engine last; a turn that would come out of that order comes in the next cycle, and a strike report, which acts on
several streams, comes before them and ends the cycle. Which stream, event or command comes next is a list in the state, and a turn out
of order is put off rather than refused; both are the model's own (log 1), as is what a stream does whose word is lost (log 14). -/
def Obligations.StepRunsTheDecodedInstruction : Prop :=
  ∀ (s : State) (cycles ns n : Nat) (osc : List (Nat × Nat)) (st : StreamId) (i : Instr) (rest : List Turn),
    let s0 : State := { s with sched := rest }
    let past : Agent → State := fun a => { s0.advance (s0.turnCycles ⟨cycles, ns, osc, a⟩) ns osc with
      phase := s0.turnPhase ⟨cycles, ns, osc, a⟩ }
    let u := (past (.stream n st)).focus n
    let w := u.wordAt u.core st (u.core.pcOf st)
    let settled := fun (o : Out) => match o with
      | .next v => .next v.settle
      | x => x
    (s.sched = ⟨cycles, ns, osc, .stream n st⟩ :: rest → coreExists n = true →
      (u.mayIssue st = true → u.codeEcc u.core st = .ok → decode st u.core.res.encv w = .ok i → step s = settled (exec i u)) ∧
      (u.mayIssue st = true → u.codeEcc u.core st ≠ .ok → step s = .next (u.fetchLost st).settle) ∧
      (∀ r : Reject, u.mayIssue st = true → u.codeEcc u.core st = .ok → decode st u.core.res.encv w = .error r → step s = .next (u.illegal st).settle) ∧
      (u.mayIssue st = false → step s = .next u.settle)) ∧
    (s.sched = ⟨cycles, ns, osc, .event i⟩ :: rest → i.stream = none → step s = settled (exec i (past (.event i)))) ∧
    (∀ w : Early, s.sched = ⟨cycles, ns, osc, .early n w⟩ :: rest → step s = .next ((past (.early n w)).early n w).settle) ∧
    (∀ (q : Fin 64) (p : Packet), s.sched = ⟨cycles, ns, osc, .command q p⟩ :: rest →
      step s = settled (runCommand q p (past (.command q p)))) ∧
    (let rank : StreamId → Nat := fun x => match x with
       | .seq => 0
       | .xfer => 1
       | .mat => 2
       | .vec => 3
     s.turnCycles ⟨cycles, ns, osc, .stream n st⟩ = (if cycles = 0 ∧ rank st < s.phase then 1 else cycles) ∧
     s.turnPhase ⟨cycles, ns, osc, .stream n st⟩ = rank st ∧
     s.turnCycles ⟨cycles, ns, osc, .event (.strikeReport n)⟩ = (if cycles = 0 ∧ 0 < s.phase then 1 else cycles) ∧
     s.turnPhase ⟨cycles, ns, osc, .event (.strikeReport n)⟩ = 3)

/-- R15: every instruction, event and command has a next state; a step stops only where its turn names a core that the package does
not have. The list of turns is the model's own (log 1). -/
def Obligations.StepsGoOn : Prop :=
  (∀ (i : Instr) (s : State), ∃ t, exec i s = .next t) ∧
  (∀ s : State, s.schedulable = true → Safe s) ∧
  (∀ (s : State) (f : Fault), step s = .fault f → s.schedulable = false) ∧
  (∀ (s : State) (r : Refusal), step s ≠ .refused r)

/-- The model's memories keep their canonical form: no step lists an address twice, out of order or with the byte that an unlisted
address reads as. It is what makes equal memories equal data. The form is the model's own, and unwritten bytes read 0 (log 4). -/
def Obligations.MemoriesStayCanonical : Prop :=
  ∀ s t : State, s.memWf = true → step s = .next t → t.memWf = true

/-- R285, R25, R103, R130, R226: after power-on no core is held, no partition, context or crew exists, the clocks have no time base,
the firmware is at stage 0, and no memory byte is listed. The spec gives no contents of memory: that an unlisted byte, and so every byte
at reset, reads 0 is the model's choice (log 4). Registers that the spec gives no value hold the model's choice (log 10), which nothing
here states. -/
def Obligations.ResetIsPowerOn : Prop :=
  let s := State.reset
  s.memWf = true ∧ s.hbm = [] ∧ s.window = [] ∧ s.host = [] ∧ s.parts = [] ∧ s.ctxs = [] ∧ s.crews = [] ∧ s.waiting = [] ∧ s.fw.stage = 0 ∧ s.fw.ready = false ∧
  s.fw.timeset = false ∧ s.fw.config = none ∧ s.fw.patch = none ∧ s.group.state = .out ∧ s.group.agreement = 0 ∧
  (∀ d : Fin 4, s.clocks[d].wide = true) ∧ (∀ n : Nat, (s.coreOf n).seat = none) ∧ (∀ q : Fin 64, s.fw.ifaces[q].enable = false)

/-- R17, R19, R301, R302, R312: an engine that a fault stops is STOPPED with the fault's code, has written one record that names the
stream, the code, the kind and the words, which goes into its slot once no trap of an earlier record of it is pending, and has
queued the sequencer's trap with its cycle; nothing else of the whole machine changes, but that a close under way makes its waits again
(log 9). A detail that no rule names is a free value (log 5). -/
def Obligations.EngineFaultsStopAndTrap : Prop :=
  ∀ (s : State) (e : Eng) (code : Code) (pc : Word) (spill mayCore mayLeft : Bool),
    let t := s.stopEngine e 0 code pc spill mayCore mayLeft
    let i : Fin 4 := Fin.ofNat 4 e.stream.code
    (t.core.eng e).st = .stopped ∧ (t.core.eng e).code = code ∧ (t.core.eng e).stopReq = false ∧
    (t.core.eng e).pc = (s.core.eng e).pc ∧ (t.core.eng e).k = (s.core.eng e).k ∧
    t.core.seq.traps = s.core.seq.traps ++ [.stop e code s.now] ∧ t.core.seq.g = s.core.seq.g ∧ t.core.seq.pc = s.core.seq.pc ∧
    (∀ f : Eng, f ≠ e → t.core.eng f = s.core.eng f) ∧ s.sameMemory t ∧ t.core.tree = s.core.tree ∧ t.core.mat.acc = s.core.mat.acc ∧
    t.core.written = s.core.written.set i (s.core.written[i] + 1) ∧
    ∃ b : BitVec 512, t = ((({ s with core := { s.core with
        written := s.core.written.set i (s.core.written[i] + 1)
        records := if s.core.seq.stopPending e.stream then s.core.records else s.core.records.set i b
        waiting := if s.core.seq.stopPending e.stream then s.core.waiting ++ [(e.stream, b)] else s.core.waiting } } : State).updEng e
          (fun x => { x with st := .stopped, code := code, stopReq := false, releasing := false })).updSeq (fun q => { q with
            traps := q.traps ++ [.stop e code s.now] })) ∧
      (b.extractLsb' 0 2).toNat = e.stream.code ∧ b.extractLsb' 8 4 = 0 ∧ b.extractLsb' 16 16 = code ∧
      (b.extractLsb' 32 16).toNat = pc.toNat / 4 % 2 ^ 16 ∧ (b.extractLsb' 48 16).toNat = (s.core.eng e).pc.toNat / 4 % 2 ^ 16 ∧
      b.extractLsb' 96 1 = BitVec.ofBool mayLeft ∧ b.extractLsb' 97 1 = BitVec.ofBool mayCore ∧
      b.extractLsb' 98 1 = BitVec.ofBool spill ∧ b.extractLsb' 128 64 = s.openDetailOf e.stream ∧
      b.extractLsb' 192 32 = s.core.written[i] + 1 ∧
      (s.core.seq.stopPending e.stream = false → t.core.records = s.core.records.set i b ∧ t.core.waiting = s.core.waiting) ∧
      (s.core.seq.stopPending e.stream = true → t.core.records = s.core.records ∧
        t.core.waiting = s.core.waiting ++ [(e.stream, b)])

/-- R82, R85, R205, R206, R209, R217, R245: a window address names a byte of the store of the core that it names, or, with core 127, of the issuing core,
where a crew of the context holds that core and the offset is reserved or in the multicast window. A load, a store, an `atom`, an
`st.stamp` or an `ld.asof` whose translation fails changes no register, queues nothing, leaves the program counter at the instruction and
holds the sequencer with the record of the fault, whose access is that of a load, of a store or, for the stamped words, of one that
needs a writable page. That an `ld.asof` has that access too is the model's choice (log 24). -/
def Obligations.WindowsAndTranslationFaults : Prop :=
  (∀ (s : State) (ctx own die core off : Nat), die < 4 → core < 128 → off < 2 ^ 22 →
    let id := if core = 127 then own else 128 * die + core
    let va := 0xFFFFFF80000000 + die * 2 ^ 29 + core * 2 ^ 22 + off
    s.windowPlace ctx (some own) va = if (core < 96 ∨ core = 127) ∧ s.storeReach ctx id off = true then
      some ⟨.window, storeBase id + off⟩ else none) ∧
  (∀ (s : State) (ctx id off : Nat) (x : Seat), (s.coreOf id).seat = some x → off < 2 ^ 22 →
    s.storeReach ctx id off = (decide (x.ctx = ctx) && (decide (off < 4096 * x.res.ls) || decide (0x3C0000 ≤ off)))) ∧
  (∀ (s : State) (rd ra rb : Reg) (imm : BitVec 16) (size : AtomSize) (scope : Scope),
    let va := (s.reg ra + imm.signExtend 64).toNat
    let at_ := (s.reg ra).toNat
    let width := match size with
      | .w => 4
      | .d => 8
    let faults := fun (i : Instr) (va n : Nat) (write : Bool) (access : BitVec 8) =>
      ∀ (f : XlFault) (a : Nat), s.xlAccess va n write = .fault f a →
        ∃ t r, exec i s = .next t ∧ t.core.seq.hold = some r ∧ t.core.seq.g = s.core.seq.g ∧
          t.core.seq.pc = s.core.seq.pc ∧ t.core.seq.lq = s.core.seq.lq ∧ t.core.seq.sq = s.core.seq.sq ∧
          r.record.extractLsb' 0 64 = BitVec.ofNat 64 a ∧ r.record.extractLsb' 64 8 = BitVec.ofNat 8 f.cause ∧
          r.record.extractLsb' 72 8 = access
    (s.seqReady [ra] 0 →
      faults (.ldB rd ra imm) va 1 false 0 ∧ faults (.ldBs rd ra imm) va 1 false 0 ∧
      faults (.ldH rd ra imm) va 2 false 0 ∧ faults (.ldHs rd ra imm) va 2 false 0 ∧
      faults (.ldW rd ra imm) va 4 false 0 ∧ faults (.ldWs rd ra imm) va 4 false 0 ∧
      faults (.ldD rd ra imm) va 8 false 0) ∧
    (s.seqReady [rd, ra] 0 →
      faults (.stB rd ra imm) va 1 true 1 ∧ faults (.stH rd ra imm) va 2 true 1 ∧
      faults (.stW rd ra imm) va 4 true 1 ∧ faults (.stD rd ra imm) va 8 true 1) ∧
    (s.seqReady [rd, ra, rb] 0 → s.core.seq.cinch = none → 1 ≤ scope.code → scope.code ≤ 8 → at_ % width = 0 →
      ∀ i ∈ [Instr.atomAdd rd ra rb size scope, .atomSwap rd ra rb size scope, .atomCas rd ra rb size scope,
        .atomMin rd ra rb size scope, .atomMax rd ra rb size scope, .atomOr rd ra rb size scope, .atomAnd rd ra rb size scope],
        faults i at_ width true 1) ∧
    (s.seqReady [ra, rb] 0 → scope = .package ∨ scope = .time → at_ % 32 = 0 →
      (s.core.seq.cinch = none → faults (.ldAsof rd ra rb scope) at_ 32 false 3) ∧
      (s.plain → s.core.seq.sq = [] → faults (.stStamp rd ra rb scope) at_ 32 true 3)))

/-- R88, R92, R96, R104: what these words leave, to the last field. `eng.start` of a stream that is at rest, with no region, tile or
operation left over, puts it in RUN at its entry and, but that a stop of it no longer holds (R300: log 17), nothing else; `view.set` changes one view; `hnd.free` of a bound slot, and
`end` with everything at rest, change the slots, the draining bindings and, for `end`, the marks that the core program is over with
the code of its lowest-numbered faulted engine (R25). What counts as in flight is read from R90 (log 11). R311: that the sequencer has
changed a view or a slot, which the engine streams read, is noted with its cycle (log 20). -/
def Obligations.ControlWordsLeaveExactly : Prop :=
  ∀ (s : State) (entry : BitVec 14) (v : Fin 8) (ra : Reg) (h : Hnd), s.core.seq.asyncReady = false →
    let q := s.core.seq
    let run : Engine → Engine := fun e => { e with
      st := .run, pc := BitVec.ofNat 64 (4 * entry.toNat), code := 0, stopReq := false, strike := none }
    let stopped := fun (e : Eng) (t : State) => t.updSeq (fun q => { q with stopHeld := q.stopHeld && decide (q.trapStop ≠ some e) })
    let inFlight := fun (l : List Binding) => l.filter (fun d => decide (s.core.inFlight d.id ≠ 0) || s.core.referred d.id)
    (s.core.vec.eng.st.live = false → s.core.vec.eng.strike = none → s.core.vec.regions = [] →
      exec (.engStart .vec entry) s = .next ((stopped .vec (s.updVec (fun x => { x with
        again := [], lostAt := none, struck := none, eng := { run x.eng with releasing := false } }))).passing s.nextPc)) ∧
    (s.core.mat.eng.st.live = false → s.core.mat.eng.strike = none → s.core.mat.reds = [] →
      exec (.engStart .mat entry) s = .next ((stopped .mat (s.updMat (fun x => { x with
        issues := none, begun := none, again := [], fault := none, atRet := false, spilled := false, eng := run x.eng }))).passing s.nextPc)) ∧
    (s.core.xfer.eng.st.live = false → s.core.xfer.eng.strike = none → s.core.xfer.regions = [] → s.core.xfer.cur = none →
      q.draining = [] → exec (.engStart .xfer entry) s = .next ((stopped .xfer (s.updXfer (fun x => { x with
        index := [], eng := run x.eng }))).passing s.nextPc)) ∧
    (s.seqReady [ra] 0 → viewOk (s.reg ra) = true → exec (.viewSet v ra) s = .next
      (({ s.seqSeen with core := { s.seqSeen.core with views := s.core.views.set v (s.reg ra) } } : State).passing s.nextPc)) ∧
    (∀ x : Fin 4, s.seqSeen = { s with core := { s.core with effects := s.seqSeen.core.effects } } ∧
      s.seqSeen.core.effects[x] = if x = 0 then { s.core.effects[x] with seen := some s.now } else s.core.effects[x]) ∧
    (∀ b : Binding, s.core.slotOk h = true → q.cinch = none → q.h[h] = some b → exec (.hndFree h) s = .next (s.seqSeen.advanced 0 (fun q => { q with
      pc := s.nextPc, h := q.h.set h none, draining := inFlight (if b.revoked then q.draining else q.draining ++ [b]) }))) ∧
    (s.plain → s.core.enginesDone = true → q.lq = [] → q.sq = [] →
      (∀ k : Crew, s.crew s.core.crewNum = some k → ∀ id ∈ k.cores, (s.coreOf id).seq.yielded = false) →
      exec .endProg s = .next (s.advanced 0 (fun q => { q with
        pc := s.nextPc, h := Vector.replicate 64 none, ended := true, endCode := s.core.faultCode
        draining := inFlight (q.draining ++ q.bindings.filter (fun b => !b.revoked)) })))

/-- R29, R117, R135: an empty source line. A vector word reads all its sources at one instant: while a line of a source with W = 1 is
empty it waits for the first such line, with no other effect; once those are full, an empty line of a source with W = 0 stops the engine
with EMPTYREAD and that line as its detail, and nothing is read, consumed or written: at once, or, with earlier accesses under way, once they
are performed (R159; that it waits till then with kind 4 is log 24). The same holds of the matrix words, whose one W bit decides for all the
lines that R11 names; a line that a held tile will write is waited for first. A stop in the middle of a reduction waits for the holding slots
and spills (R123); the W of an `f32.add` retirement is 1. -/
def Obligations.EmptySourceLinesWaitOrStop : Prop :=
  (∀ (s : State) (d a b : TreeOp) (wa wb : Bool) (pd pa pb : Placed),
    let v := s.core.vec
    let sh := v.shape
    let t := sh.ty
    let n := linesFor (sh.lanes * t.width)
    let full := s.core.fullAs v.marks
    let first := fun (l : List Nat) (m : Nat) => ∃ p q : List Nat, l = p ++ m :: q ∧ (∀ x ∈ p, full x = true) ∧ full m = false
    let meets := fun (i : Instr) (srcs : List VSrc) (dsts : List Placed) =>
      let lines := fun (w : Bool) => (srcs.filter (fun x => x.w == w)).flatMap (fun x => x.at_.all)
      (∀ p ∈ dsts, ∀ m ∈ p.all, v.mayWrite m = true ∧ m ∉ v.landing) → (∀ x ∈ srcs, ∀ m ∈ x.at_.all, m ∉ v.landing) →
      ∀ m : Nat,
        (first (lines true) m → exec i s = .next (s.engWaits .vec 1 m)) ∧
        ((∀ x ∈ lines true, full x = true) → first (lines false) m →
          (v.vp ≠ [] → exec i s = .next (s.engWaits .vec 4 0)) ∧
          (v.vp = [] → ∃ u, exec i s = .next u ∧ u = s.stopWith .vec 0 0x0303 v.eng.pc false false false (BitVec.ofNat 64 m) ∧
            u.core.vec = { v with eng := { v.eng with st := .stopped, code := 0x0303, stopReq := false, releasing := false } } ∧
            u.core.tree = s.core.tree ∧ s.sameMemory u ∧ u.core.seq.traps = s.core.seq.traps ++ [.stop .vec 0x0303 s.now] ∧
            (s.core.seq.stopPending .vec = false → (u.core.records[(Fin.ofNat 4 Eng.vec.stream.code : Fin 4)]).extractLsb' 128 64 =
              BitVec.ofNat 64 m)))
    let arith := decide (t ≠ .e4m3u)
    let int := !t.isFloat
    let float := decide (t = .bf16 ∨ t = .f32)
    let word := decide (t = .i32 ∨ t = .n32)
    (sh.lanes * t.width ≤ 256 → s.vecPlaces [(d, n), (a, n), (b, n)] = some [pd, pa, pb] →
      let two := fun (i : Instr) (ok : Bool) => ok = true → meets i [⟨pa, wa⟩, ⟨pb, wb⟩] [pd]
      (∀ i ∈ [Instr.vAdd d a b wa wb, .vSub d a b wa wb, .vMul d a b wa wb, .vMin d a b wa wb, .vMax d a b wa wb], two i arith) ∧
      (∀ i ∈ [Instr.vAnd d a b wa wb, .vOr d a b wa wb, .vXor d a b wa wb, .vShl d a b wa wb, .vShr d a b wa wb,
        .vSar d a b wa wb], two i int) ∧
      (∀ i ∈ [Instr.vPerm d a b wa wb, .vSel d a b wa wb], two i true) ∧
      (∀ i ∈ [Instr.vRcpf d a b wa wb, .vRsqf d a b wa wb], two i float) ∧
      two (.vHash d a b wa wb) word ∧ two (.vNoise d a b wa wb) (decide (t = .f32))) ∧
    (sh.lanes * t.width ≤ 256 → arith = true → s.vecPlaces [(d, n), (d, n), (a, n), (b, n)] = some [pd, pd, pa, pb] →
      meets (.vFma d a b wa wb) [⟨pd, true⟩, ⟨pa, wa⟩, ⟨pb, wb⟩] [pd]) ∧
    (∀ imm : BitVec 9, sh.lanes * t.width ≤ 256 → s.vecPlaces [(d, n), (a, n)] = some [pd, pa] →
      let one := fun (i : Instr) (ok : Bool) => ok = true → meets i [⟨pa, wa⟩] [pd]
      (∀ i ∈ [Instr.vAbs d a wa, .vNeg d a wa, .vAddi d a wa imm, .vMuli d a wa imm], one i arith) ∧
      (∀ i ∈ [Instr.vClz d a wa, .vPopc d a wa], one i int) ∧
      (∀ i ∈ [Instr.vRcpa d a wa, .vRsqa d a wa], one i float) ∧
      one (.vBcast d a wa imm) (decide (imm.toNat < sh.lanes)) ∧ one (.vSigq d a wa) (decide (t = .i32))) ∧
    (∀ t' : EType, sh.lanes * t'.width ≤ 256 → s.vecPlaces [(d, linesFor (sh.lanes * t'.width)), (a, n)] = some [pd, pa] →
      meets (.vCvt d a t' wa) [⟨pa, wa⟩] [pd]) ∧
    (∀ imm : BitVec 9, int = true → s.vecPlaces [(d, n), (a, 4)] = some [pd, pa] → meets (.vBitt d a wa imm) [⟨pa, wa⟩] [pd]) ∧
    (∀ m : Fin 8, arith = true → s.vecPlaces [(a, n), (b, n)] = some [pa, pb] →
      ∀ i ∈ [Instr.vCmpeq m a b wa wb, .vCmplt m a b wa wb, .vCmple m a b wa wb], meets i [⟨pa, wa⟩, ⟨pb, wb⟩] []) ∧
    (arith = true → s.vecPlaces [(d, 1), (a, n)] = some [pd, pa] →
      ∀ i ∈ [Instr.vRedsum d a wa, .vRedmax d a wa, .vRedmin d a wa, .vArgmax d a wa], meets i [⟨pa, wa⟩] [pd]) ∧
    (∀ (ds as : List Placed) (c : BitVec 5), t = .i32 →
      (s.core.placeMany v.eng.k d 3 n [0] = some ds → s.core.placeMany v.eng.k a 3 n [0] = some as →
        ∀ i ∈ [Instr.vCorCrot d a wa c, .vCorCvec d a wa c, .vCorHrot d a wa c, .vCorHvec d a wa c, .vCorLrot d a wa c,
          .vCorLvec d a wa c], meets i (as.map (fun p => ⟨p, wa⟩)) ds) ∧
      (s.core.placeMany v.eng.k d 16 n [0] = some ds → s.core.placeMany v.eng.k a 16 n [0] = some as →
        meets (.vCdfq d a wa) (as.map (fun p => ⟨p, wa⟩)) ds)) ∧
    (∀ (h : Hnd) (j : KIx) (x : Binding), s.core.seq.h[h] = some x → x.usable = true → x.kind = .window →
      s.core.holdsNew .vp = false →
      let o := (v.eng.k[j]).val.toNat
      (s.vecPlaces [(d, n)] = some [pd] → x.writable = true → o % t.width = 0 → o + t.width * sh.lanes ≤ x.len →
        meets (.vSt d h j wa) [⟨pd, wa⟩] []) ∧
      (s.vecPlaces [(d, n), (a, n)] = some [pd, pa] →
        meets (.vGather d a h wa) [⟨pa, wa⟩] [pd] ∧
        (x.writable = true → meets (.vScatter d a h wa wb) [⟨pd, wb⟩, ⟨pa, wa⟩] []))) ∧
    (∀ (h : Hnd) (lanes as bs : List Placed), word = true → s.core.placeMany v.eng.k d 6 n [2] = some lanes → v.vp = [] →
      s.core.holdsNew .vp = false →
      let src := fun (w : Bool) (l : List Placed) => l.map (fun p => (⟨p, w⟩ : VSrc))
      (∀ i ∈ [Instr.rcFlush d, .rcSpec d, .rcUndo d, .rcKeep d], meets i (src true lanes) lanes) ∧
      (∀ x : Binding, s.core.seq.h[h] = some x → x.usable = true → x.kind = .window →
        meets (.rcInitDec d h) (src true lanes) lanes ∧ (x.writable = true → meets (.rcInitEnc d h) (src true lanes) lanes)) ∧
      (s.core.place v.eng.k b n [0] = some pb →
        meets (.rcStat d b) (src true lanes) [pb] ∧
        (s.core.placeMany v.eng.k a 1 n [0] = some as → meets (.rcDec d a b wa) (src true lanes ++ src wa as) (lanes ++ [pb])) ∧
        (s.core.placeMany v.eng.k a 16 n [0] = some as →
          meets (.rcDecm d a b wa) (src true lanes ++ src wa as) (lanes ++ [pb]))) ∧
      (s.core.placeMany v.eng.k b 1 n [0] = some bs →
        (s.core.placeMany v.eng.k a 1 n [0] = some as →
          meets (.rcEnc d a b wa wb) (src true lanes ++ (src wa as ++ src wb bs)) lanes) ∧
        (s.core.placeMany v.eng.k a 16 n [0] = some as →
          meets (.rcEncm d a b wa wb) (src true lanes ++ (src wa as ++ src wb bs)) lanes)))) ∧
  (∀ (s : State) (t a b : TreeOp) (w : Bool) (row : BitVec 12) (planes : Fin 8) (r : Reduction) (p pa pb : Placed),
    let m := s.core.mat
    let meets := fun (i : Instr) (w : Bool) (lines : List Nat) =>
      (∀ x ∈ lines, x ∉ m.heldLines) →
      ∀ (l l' : List Nat) (n : Nat), lines = l ++ n :: l' → (∀ x ∈ l, (s.core.line x).full = true) → (s.core.line n).full = false →
        (w = true → exec i s = .next (s.engWaits .mat 1 n)) ∧
        (w = false → exec i s = .next (s.issueMat (.stop 0x0303 (some (BitVec.ofNat 64 n)))) ∧
          (m.held = [] → ∃ u, exec i s = .next u ∧ u.core.mat.eng.st = .stopped ∧ u.core.mat.eng.code = 0x0303 ∧
            u.core.mat.eng.pc = m.eng.pc ∧ u.core.mat.acc = m.acc ∧ u.core.mat.reds = m.reds ∧ u.core.tree = s.core.tree ∧
            s.sameMemory u ∧ (m.openRed.isSome = true → u.core.mat.spilled = true) ∧
            u.core.seq.traps = s.core.seq.traps ++ [.stop .mat 0x0303 s.now]))
    (m.fresh = true → s.matPlace t 256 0 = some p → meets (.mLdacc t w) w (segLines m.seg p.line 256)) ∧
    (m.fresh = true → s.matPlace t 1 0 = some p → meets (.mSeg t w) w [p.line]) ∧
    (s.matPlace a 1 0 = some pa → s.matPlace b 1 0 = some pb → meets (.mScale a b w) w [pa.line, pb.line]) ∧
    (m.openRed = some r → r.p = r.n → m.held.length < 2 → s.matPlace t 256 0 = some p →
      meets (.mRetF32Add t) true (segLines m.seg p.line 256)) ∧
    (let acts := fun (i : Instr) (mode : MatMode) (rows : Nat) =>
       m.openRed = some r → r.mode = mode → r.p < r.n → m.begun = none → s.matPlace t 32 1 = some pa →
         m.base + row.toNat + rows ≤ s.core.res.wb → meets i w (segLines m.seg pa.line 32)
     acts (.mAcc t row w) .tern 2 ∧ acts (.mAcc8 t row planes w) .int8 8 ∧ acts (.mAccsTern t row w) .sparse 2 ∧
       acts (.mAccsInt8 t row planes w) .sparse 5))
end

