-- ==== Sys2Proof/Laws/Cipher.lean ====
section
/-!
SUPPORT. The lengths that the ciphers keep: a digest has 32 bytes, a filled string the length that it is filled to.
-/
namespace Sys2Proof.Laws
open Sys2Proof.Machine

theorem fill_length (n : Nat) (l : List Byte) : (fill n l).length = n := by simp [fill]

theorem shaRound_length (h : List Nat) (x : Nat × Nat) (hh : h.length = 8) : (shaRound h x).length = 8 := by
  unfold shaRound; split <;> simp_all

theorem shaRounds_length (l : List (Nat × Nat)) (h : List Nat) (hh : h.length = 8) : (l.foldl shaRound h).length = 8 := by
  induction l generalizing h with
  | nil => exact hh
  | cons x t ih => exact ih _ (shaRound_length h x hh)

theorem shaBlock_length (h b : List Nat) (hh : h.length = 8) : (shaBlock h b).length = 8 := by
  simp [shaBlock, shaRounds_length _ h hh, hh]

theorem shaBlocks_length (n : Nat) (h l : List Nat) (hh : h.length = 8) : (shaBlocks n h l).length = 8 := by
  induction n generalizing h l with
  | zero => exact hh
  | succ n ih => exact ih _ _ (shaBlock_length h _ hh)

theorem shaStart_length : shaStart.length = 8 := by decide +kernel

theorem flatMap_length (f : Nat → List Nat) (n : Nat) (hf : ∀ x, (f x).length = n) (l : List Nat) :
    (l.flatMap f).length = n * l.length := by
  induction l with
  | nil => rfl
  | cons x t ih => simp [List.flatMap_cons, hf, ih]; ring

theorem sha256_length (l : List Byte) : (sha256 l).length = 32 := by
  rw [sha256, toBytes, List.length_map, flatMap_length _ 4 (fun x => by rw [bigBytes, List.length_map, List.length_range]),
    shaBlocks_length _ _ _ shaStart_length]

/-- An image that carries this device's certificate and its signature is its own. -/
theorem signed_image (head : List Byte) (hh : head.length = 3712) (hc : head.take 32 = sha256 Config.certificate) (b : List Byte) :
    (head ++ fill 384 (Config.deviceSign (sha256 (head ++ b)))).take 32 = sha256 Config.certificate ∧
    (head ++ fill 384 (Config.deviceSign (sha256 (head ++ b)))).drop 3712 =
      fill 384 (Config.deviceSign (sha256 ((head ++ fill 384 (Config.deviceSign (sha256 (head ++ b)))).take 3712 ++ b))) := by
  refine ⟨?_, ?_⟩
  · rw [List.take_append_of_le_length (by omega), hc]
  · rw [List.drop_append_of_le_length (by omega), ← hh, List.drop_length, List.nil_append, List.take_append_of_le_length (le_refl _), List.take_length]

end Sys2Proof.Laws
end

