-- ==== Sys2Proof/Laws/Aes.lean ====
section
/-!
SUPPORT. What AES-256 has enciphered it deciphers again; so with the key wrap of a checkpoint's header and the sectors of its body (R222,
R286, R287).
-/
namespace Sys2Proof.Laws
open Sys2Proof.Machine

/-! ### One round of AES -/

/-- The two S-boxes are inverse to each other on bytes, and give bytes. -/
theorem sbox_inv_fin : ∀ a : Fin 256, sboxInv (sbox a.val) = a.val ∧ sbox a.val < 256 ∧ xtime a.val < 256 := by decide +kernel

theorem shift_inv (l : List Nat) (h : l.length = 16) : shiftRowsInv (shiftRows l) = l := by
  match l, h with
  | [a0,a1,a2,a3,a4,a5,a6,a7,a8,a9,a10,a11,a12,a13,a14,a15], _ => rfl

theorem xtime_eq (a : Nat) : xtime a = 2 * a ^^^ (if a < 128 then 0 else 0x11B) := by
  unfold xtime; split <;> simp

theorem lt128 (a : Nat) (h : a < 256) : (a < 128) ↔ a.testBit 7 = false := by
  rw [Nat.testBit_eq_decide_div_mod_eq]
  simp; omega

theorem xtime_xor (a b : Nat) (ha : a < 256) (hb : b < 256) : xtime (a ^^^ b) = xtime a ^^^ xtime b := by
  have hab : a ^^^ b < 256 := Nat.xor_lt_two_pow (n := 8) ha hb
  have h2 : 2 * (a ^^^ b) = 2 * a ^^^ 2 * b := by
    have := Nat.shiftLeft_xor_distrib (a := a) (b := b) (i := 1)
    simpa [Nat.shiftLeft_eq, Nat.mul_comm] using this
  rw [xtime_eq, xtime_eq a, xtime_eq b, h2]
  simp only [lt128 _ ha, lt128 _ hb, lt128 _ hab, Nat.testBit_xor]
  cases a.testBit 7 <;> cases b.testBit 7 <;> simp [Nat.xor_assoc, Nat.xor_comm, Nat.xor_left_comm]

theorem xtime_lt (a : Nat) (h : a < 256) : xtime a < 256 := by
  have : ∀ a : Fin 256, xtime a.val < 256 := by decide +kernel
  exact this ⟨a, h⟩

theorem gmul_lt (n a m : Nat) (h : a < 256) : gmul n a m < 256 := by
  induction n generalizing a m with
  | zero => exact Nat.zero_lt_succ _
  | succ n ih =>
    refine Nat.xor_lt_two_pow (n := 8) ?_ (ih _ _ (xtime_lt a h))
    split <;> omega

/-- Multiplication by a constant is linear. -/
theorem gmul_xor (n a b m : Nat) (ha : a < 256) (hb : b < 256) : gmul n (a ^^^ b) m = gmul n a m ^^^ gmul n b m := by
  induction n generalizing a b m with
  | zero => simp [gmul]
  | succ n ih =>
    simp only [gmul, xtime_xor a b ha hb, ih _ _ _ (xtime_lt a ha) (xtime_lt b hb)]
    split
    · ac_rfl
    · simp

/-- One entry of a mixed column. -/
def mixed (m0 m1 m2 m3 a b c d : Nat) : Nat := gmul 8 a m0 ^^^ gmul 8 b m1 ^^^ gmul 8 c m2 ^^^ gmul 8 d m3

theorem mixed_lt {m0 m1 m2 m3 a b c d : Nat} (ha : a < 256) (hb : b < 256) (hc : c < 256) (hd : d < 256) :
    mixed m0 m1 m2 m3 a b c d < 256 :=
  Nat.xor_lt_two_pow (n := 8) (Nat.xor_lt_two_pow (n := 8) (Nat.xor_lt_two_pow (n := 8) (gmul_lt 8 a m0 ha) (gmul_lt 8 b m1 hb))
    (gmul_lt 8 c m2 hc)) (gmul_lt 8 d m3 hd)

theorem gmul_mixed (n m0 m1 m2 m3 a b c d : Nat) (ha : a < 256) (hb : b < 256) (hc : c < 256) (hd : d < 256) :
    gmul 8 (mixed m0 m1 m2 m3 a b c d) n =
      gmul 8 (gmul 8 a m0) n ^^^ gmul 8 (gmul 8 b m1) n ^^^ gmul 8 (gmul 8 c m2) n ^^^ gmul 8 (gmul 8 d m3) n := by
  have h1 := gmul_lt 8 a m0 ha
  have h2 := gmul_lt 8 b m1 hb
  have h3 := gmul_lt 8 c m2 hc
  have h4 := gmul_lt 8 d m3 hd
  have h12 := Nat.xor_lt_two_pow (n := 8) h1 h2
  rw [mixed, gmul_xor 8 _ _ n (Nat.xor_lt_two_pow (n := 8) h12 h3) h4, gmul_xor 8 _ _ n h12 h3, gmul_xor 8 _ _ n h1 h2]

/-- The two polynomials multiply to 1: what each entry of a column adds to the first entry of the column mixed twice. -/
theorem mix_coefficients : ∀ a : Fin 256,
    gmul 8 (gmul 8 a.val 2) 14 ^^^ gmul 8 (gmul 8 a.val 1) 11 ^^^ gmul 8 (gmul 8 a.val 1) 13 ^^^ gmul 8 (gmul 8 a.val 3) 9 = a.val ∧
    gmul 8 (gmul 8 a.val 3) 14 ^^^ gmul 8 (gmul 8 a.val 2) 11 ^^^ gmul 8 (gmul 8 a.val 1) 13 ^^^ gmul 8 (gmul 8 a.val 1) 9 = 0 ∧
    gmul 8 (gmul 8 a.val 1) 14 ^^^ gmul 8 (gmul 8 a.val 3) 11 ^^^ gmul 8 (gmul 8 a.val 2) 13 ^^^ gmul 8 (gmul 8 a.val 1) 9 = 0 ∧
    gmul 8 (gmul 8 a.val 1) 14 ^^^ gmul 8 (gmul 8 a.val 1) 11 ^^^ gmul 8 (gmul 8 a.val 3) 13 ^^^ gmul 8 (gmul 8 a.val 2) 9 = 0 := by
  decide +kernel

theorem mixed_inv {a b c d : Nat} (ha : a < 256) (hb : b < 256) (hc : c < 256) (hd : d < 256) :
    mixed 14 11 13 9 (mixed 2 3 1 1 a b c d) (mixed 2 3 1 1 b c d a) (mixed 2 3 1 1 c d a b) (mixed 2 3 1 1 d a b c) = a := by
  have xa := (mix_coefficients ⟨a, ha⟩).1
  have xb := (mix_coefficients ⟨b, hb⟩).2.1
  have xc := (mix_coefficients ⟨c, hc⟩).2.2.1
  have xd := (mix_coefficients ⟨d, hd⟩).2.2.2
  have h : ∀ p q r t a1 a2 a3 b1 b2 b3 c1 c2 c3 d1 d2 d3 : Nat,
      (p ^^^ b1 ^^^ c1 ^^^ d1) ^^^ (b2 ^^^ c2 ^^^ d2 ^^^ q) ^^^ (c3 ^^^ d3 ^^^ r ^^^ b3) ^^^ (a1 ^^^ t ^^^ a2 ^^^ a3) =
      (p ^^^ q ^^^ r ^^^ t) ^^^ (b1 ^^^ b2 ^^^ b3 ^^^ a2) ^^^ (c1 ^^^ c2 ^^^ c3 ^^^ a3) ^^^ (d1 ^^^ d2 ^^^ d3 ^^^ a1) := by
    intros; ac_rfl
  rw [mixed, gmul_mixed 14 2 3 1 1 a b c d ha hb hc hd, gmul_mixed 11 2 3 1 1 b c d a hb hc hd ha,
    gmul_mixed 13 2 3 1 1 c d a b hc hd ha hb, gmul_mixed 9 2 3 1 1 d a b c hd ha hb hc, h]
  simp only at xa xb xc xd
  rw [xa, xb, xc, xd]; simp

/-- A block: sixteen bytes. -/
def Block16 (l : List Nat) : Prop := l.length = 16 ∧ ∀ x ∈ l, x < 256

theorem xor_block {a b : List Nat} (ha : Block16 a) (hb : Block16 b) : Block16 (xorBytes a b) := by
  refine ⟨by simp [xorBytes, ha.1, hb.1], fun x hx => ?_⟩
  obtain ⟨i, hi, rfl⟩ := List.getElem_of_mem hx
  simp only [xorBytes, List.getElem_zipWith]
  exact Nat.xor_lt_two_pow (n := 8) (ha.2 _ (List.getElem_mem _)) (hb.2 _ (List.getElem_mem _))

theorem xor_twice {a b : List Nat} (h : a.length = b.length) : xorBytes (xorBytes a b) b = a := by
  apply List.ext_getElem <;> simp [xorBytes, h]

theorem mix_block {l : List Nat} (h : Block16 l) : Block16 (mixBy [2, 3, 1, 1] l) ∧ mixBy [14, 11, 13, 9] (mixBy [2, 3, 1, 1] l) = l := by
  obtain ⟨hl, hb⟩ := h
  match l, hl with
  | [a0, a1, a2, a3, a4, a5, a6, a7, a8, a9, a10, a11, a12, a13, a14, a15], _ =>
    have e : ∀ (m0 m1 m2 m3 a0 a1 a2 a3 a4 a5 a6 a7 a8 a9 a10 a11 a12 a13 a14 a15 : Nat),
        mixBy [m0, m1, m2, m3] [a0, a1, a2, a3, a4, a5, a6, a7, a8, a9, a10, a11, a12, a13, a14, a15] =
        [mixed m0 m1 m2 m3 a0 a1 a2 a3, mixed m0 m1 m2 m3 a1 a2 a3 a0, mixed m0 m1 m2 m3 a2 a3 a0 a1, mixed m0 m1 m2 m3 a3 a0 a1 a2,
         mixed m0 m1 m2 m3 a4 a5 a6 a7, mixed m0 m1 m2 m3 a5 a6 a7 a4, mixed m0 m1 m2 m3 a6 a7 a4 a5, mixed m0 m1 m2 m3 a7 a4 a5 a6,
         mixed m0 m1 m2 m3 a8 a9 a10 a11, mixed m0 m1 m2 m3 a9 a10 a11 a8, mixed m0 m1 m2 m3 a10 a11 a8 a9,
         mixed m0 m1 m2 m3 a11 a8 a9 a10, mixed m0 m1 m2 m3 a12 a13 a14 a15, mixed m0 m1 m2 m3 a13 a14 a15 a12,
         mixed m0 m1 m2 m3 a14 a15 a12 a13, mixed m0 m1 m2 m3 a15 a12 a13 a14] := by
      intros
      simp [mixBy, mixed, List.range_succ_eq_map]
    simp only [List.forall_mem_cons, List.not_mem_nil, false_implies, implies_true, and_true] at hb
    obtain ⟨h0, h1, h2, h3, h4, h5, h6, h7, h8, h9, h10, h11, h12, h13, h14, h15⟩ := hb
    constructor
    · refine ⟨by simp [mixBy], ?_⟩
      rw [e]
      simp only [List.forall_mem_cons, List.not_mem_nil, false_implies, implies_true, and_true]
      exact ⟨mixed_lt h0 h1 h2 h3, mixed_lt h1 h2 h3 h0, mixed_lt h2 h3 h0 h1, mixed_lt h3 h0 h1 h2,
        mixed_lt h4 h5 h6 h7, mixed_lt h5 h6 h7 h4, mixed_lt h6 h7 h4 h5, mixed_lt h7 h4 h5 h6,
        mixed_lt h8 h9 h10 h11, mixed_lt h9 h10 h11 h8, mixed_lt h10 h11 h8 h9, mixed_lt h11 h8 h9 h10,
        mixed_lt h12 h13 h14 h15, mixed_lt h13 h14 h15 h12, mixed_lt h14 h15 h12 h13, mixed_lt h15 h12 h13 h14⟩
    · rw [e, e, mixed_inv h0 h1 h2 h3, mixed_inv h1 h2 h3 h0, mixed_inv h2 h3 h0 h1, mixed_inv h3 h0 h1 h2,
        mixed_inv h4 h5 h6 h7, mixed_inv h5 h6 h7 h4, mixed_inv h6 h7 h4 h5, mixed_inv h7 h4 h5 h6,
        mixed_inv h8 h9 h10 h11, mixed_inv h9 h10 h11 h8, mixed_inv h10 h11 h8 h9, mixed_inv h11 h8 h9 h10,
        mixed_inv h12 h13 h14 h15, mixed_inv h13 h14 h15 h12, mixed_inv h14 h15 h12 h13, mixed_inv h15 h12 h13 h14]
theorem sub_block {l : List Nat} (h : Block16 l) : Block16 (l.map sbox) := by
  refine ⟨by simp [h.1], fun x hx => ?_⟩
  obtain ⟨y, hy, rfl⟩ := List.mem_map.1 hx
  exact (sbox_inv_fin ⟨y, h.2 y hy⟩).2.1

theorem sub_inv {l : List Nat} (h : Block16 l) : (l.map sbox).map sboxInv = l := by
  rw [List.map_map]
  exact (List.map_congr_left (fun x hx => (sbox_inv_fin ⟨x, h.2 x hx⟩).1)).trans (List.map_id _)

theorem shift_block {l : List Nat} (h : Block16 l) : Block16 (shiftRows l) := by
  refine ⟨by simp [shiftRows], fun x hx => ?_⟩
  obtain ⟨i, hi, rfl⟩ := List.mem_map.1 hx
  have hi16 := Nat.mod_lt (i + 4 * (i % 4)) (y := 16) (by omega)
  rw [List.getD_eq_getElem _ _ (by rw [h.1]; exact hi16)]
  exact h.2 _ (List.getElem_mem _)

/-- One round, and one round back. -/
def round (s k : List Nat) : List Nat := xorBytes (mixBy [2, 3, 1, 1] (shiftRows (s.map sbox))) k
def roundBack (s k : List Nat) : List Nat := mixBy [14, 11, 13, 9] (xorBytes ((shiftRowsInv s).map sboxInv) k)

theorem unshift {s : List Nat} (h : Block16 s) : (shiftRowsInv (shiftRows (s.map sbox))).map sboxInv = s := by
  rw [shift_inv _ (sub_block h).1, sub_inv h]

theorem rounds_back (mid : List (List Nat)) (hm : ∀ k ∈ mid, Block16 k) (s : List Nat) (h : Block16 s) :
    Block16 (mid.foldl round s) ∧
    mid.reverse.foldl roundBack (shiftRows ((mid.foldl round s).map sbox)) = shiftRows (s.map sbox) := by
  induction mid generalizing s with
  | nil => exact ⟨h, rfl⟩
  | cons k m ih =>
    have hk := hm k (List.mem_cons_self ..)
    have hs := mix_block (shift_block (sub_block h))
    obtain ⟨h1, h2⟩ := ih (fun x hx => hm x (List.mem_cons_of_mem _ hx)) (round s k) (xor_block hs.1 hk)
    refine ⟨h1, ?_⟩
    rw [List.reverse_cons, List.foldl_append, List.foldl_cons (f := round), h2]
    show roundBack (shiftRows ((round s k).map sbox)) k = _
    rw [roundBack, unshift (show Block16 (round s k) from xor_block hs.1 hk), round, xor_twice (hs.1.1.trans hk.1.symm), hs.2]

/-- A word of the key schedule. -/
def Word4 (l : List Nat) : Prop := l.length = 4 ∧ ∀ x ∈ l, x < 256

theorem xor_word {a b : List Nat} (ha : Word4 a) (hb : Word4 b) : Word4 (xorBytes a b) := by
  refine ⟨by simp [xorBytes, ha.1, hb.1], fun x hx => ?_⟩
  obtain ⟨i, hi, rfl⟩ := List.getElem_of_mem hx
  simp only [xorBytes, List.getElem_zipWith]
  exact Nat.xor_lt_two_pow (n := 8) (ha.2 _ (List.getElem_mem _)) (hb.2 _ (List.getElem_mem _))

theorem sub_word {l : List Nat} (h : Word4 l) : Word4 (l.map sbox) := by
  refine ⟨by simp [h.1], fun x hx => ?_⟩
  obtain ⟨y, hy, rfl⟩ := List.mem_map.1 hx
  exact (sbox_inv_fin ⟨y, h.2 y hy⟩).2.1

theorem keyNext_word {i : Nat} (hi : i < 64) {l : List (List Nat)} (hl : 8 ≤ l.length) (h : ∀ x ∈ l, Word4 x) :
    Word4 (keyNext i l) := by
  have ht : Word4 (l.headD []) := by
    cases l with
    | nil => simp at hl
    | cons a t => exact h a (List.mem_cons_self ..)
  have h7 : Word4 (l.getD 7 []) := by
    rw [List.getD_eq_getElem _ _ (by omega)]; exact h _ (List.getElem_mem _)
  unfold keyNext
  refine xor_word h7 ?_
  split
  · refine xor_word (sub_word ⟨by rw [List.length_append, List.length_drop, List.length_take, ht.1]; rfl, fun x hx => ?_⟩) ⟨rfl, fun x hx => ?_⟩
    · rcases List.mem_append.1 hx with hx | hx
      · exact ht.2 _ (List.mem_of_mem_drop hx)
      · exact ht.2 _ (List.mem_of_mem_take hx)
    · have : 2 ^ (i / 8 - 1) < 2 ^ 8 := Nat.pow_lt_pow_right (by omega) (by omega)
      simp only [List.mem_cons, List.not_mem_nil, or_false] at hx
      rcases hx with rfl | rfl | rfl | rfl <;> omega
  · split
    · exact sub_word ht
    · exact ht

theorem keySchedule_words (n i : Nat) (hi : i + n ≤ 64) (l : List (List Nat)) (hl : 8 ≤ l.length) (h : ∀ x ∈ l, Word4 x) :
    (keySchedule n i l).length = l.length + n ∧ ∀ x ∈ keySchedule n i l, Word4 x := by
  induction n generalizing i l with
  | zero => exact ⟨rfl, h⟩
  | succ n ih =>
    have := ih (i + 1) (by omega) (keyNext i l :: l) (by simp; omega) (List.forall_mem_cons.2 ⟨keyNext_word (by omega) hl h, h⟩)
    exact ⟨by rw [keySchedule, this.1]; simp; omega, this.2⟩

theorem flatten_words (l : List (List Nat)) (h : ∀ x ∈ l, Word4 x) : l.flatten.length = 4 * l.length ∧ ∀ x ∈ l.flatten, x < 256 := by
  induction l with
  | nil => exact ⟨rfl, by simp⟩
  | cons a t ih =>
    obtain ⟨h1, h2⟩ := ih (fun x hx => h x (List.mem_cons_of_mem _ hx))
    have ha := h a (List.mem_cons_self ..)
    refine ⟨by simp [h1, ha.1]; omega, fun x hx => ?_⟩
    rw [List.flatten_cons] at hx
    rcases List.mem_append.1 hx with hx | hx
    · exact ha.2 x hx
    · exact h2 x hx

theorem roundKeys_blocks {key : List Nat} (hl : key.length = 32) (hk : ∀ x ∈ key, x < 256) :
    (roundKeys key).length = 15 ∧ ∀ k ∈ roundKeys key, Block16 k := by
  have hw : ∀ x ∈ ((List.range 8).map (fun i => (key.drop (4 * i)).take 4)).reverse, Word4 x := by
    intro x hx
    obtain ⟨i, hi, rfl⟩ := List.mem_map.1 (List.mem_reverse.1 hx)
    have := List.mem_range.1 hi
    exact ⟨by simp [hl]; omega, fun y hy => hk y (List.mem_of_mem_drop (List.mem_of_mem_take hy))⟩
  have hs := keySchedule_words 52 8 (by omega) _ (by simp) hw
  refine ⟨by simp [roundKeys], fun k hk => ?_⟩
  obtain ⟨i, hi, rfl⟩ := List.mem_map.1 hk
  have := List.mem_range.1 hi
  have hf := flatten_words ((((keySchedule 52 8 ((List.range 8).map (fun i => (key.drop (4 * i)).take 4)).reverse).reverse).drop
    (4 * i)).take 4) (fun x hx => hs.2 x (List.mem_reverse.1 (List.mem_of_mem_drop (List.mem_of_mem_take hx))))
  refine ⟨hf.1.trans ?_, hf.2⟩
  simp [hs.1]; omega

theorem roundKeys_split {key : List Nat} (hl : key.length = 32) (hk : ∀ x ∈ key, x < 256) :
    ∃ (k : List Nat) (mid : List (List Nat)) (kl : List Nat), roundKeys key = k :: (mid ++ [kl]) ∧
      Block16 k ∧ (∀ x ∈ mid, Block16 x) ∧ Block16 kl := by
  obtain ⟨h1, h2⟩ := roundKeys_blocks hl hk
  match h : roundKeys key, h1 with
  | k :: t, h1 =>
    have ht : t ≠ [] := by intro h; subst h; simp at h1
    rw [h] at h2
    refine ⟨k, t.dropLast, t.getLast ht, by rw [List.dropLast_append_getLast], h2 k (List.mem_cons_self ..),
      fun x hx => h2 x (List.mem_cons_of_mem _ (List.dropLast_subset _ hx)), h2 _ (List.mem_cons_of_mem _ (List.getLast_mem ht))⟩

/-- AES-256 deciphers what it has enciphered, and a block stays a block. -/
theorem aes_round_trip {key block : List Nat} (hl : key.length = 32) (hk : ∀ x ∈ key, x < 256) (hb : Block16 block) :
    Block16 (aesEncrypt key block) ∧ aesDecrypt key (aesEncrypt key block) = block := by
  obtain ⟨k, mid, kl, he, h0, hm, h1⟩ := roundKeys_split hl hk
  have hx := xor_block hb h0
  obtain ⟨hs, hr⟩ := rounds_back mid hm _ hx
  have hlast : (mid ++ [kl]).getLastD [] = kl := by simp [List.getLastD_eq_getLast?]
  have hE : aesEncrypt key block = xorBytes (shiftRows ((mid.foldl round (xorBytes block k)).map sbox)) kl := by
    rw [aesEncrypt, he]; simp only [List.dropLast_concat, hlast]; rfl
  have hsh := shift_block (sub_block hs)
  refine ⟨hE ▸ xor_block hsh h1, ?_⟩
  rw [aesDecrypt, he, List.reverse_cons, List.reverse_append, hE]
  have hlast2 : (mid.reverse ++ [k]).getLastD [] = k := by simp [List.getLastD_eq_getLast?]
  simp only [List.reverse_cons, List.reverse_nil, List.nil_append, List.cons_append, List.dropLast_concat, hlast2]
  rw [xor_twice (hsh.1.trans h1.1.symm)]
  have : mid.reverse.foldl (fun s k => mixBy [14, 11, 13, 9] (xorBytes ((shiftRowsInv s).map sboxInv) k))
    (shiftRows ((mid.foldl round (xorBytes block k)).map sbox)) = shiftRows ((xorBytes block k).map sbox) := hr
  rw [this, unshift hx, xor_twice (hb.1.trans h0.1.symm)]

/-! ### Key wrap -/

/-- Eight bytes, half of a block. -/
def Half (l : List Nat) : Prop := l.length = 8 ∧ ∀ x ∈ l, x < 256

theorem half_append {a r : List Nat} (ha : Half a) (hr : Half r) : Block16 (a ++ r) :=
  ⟨by simp [ha.1, hr.1], fun x hx => (List.mem_append.1 hx).elim (ha.2 x) (hr.2 x)⟩

theorem block_take {b : List Nat} (h : Block16 b) : Half (b.take 8) :=
  ⟨by simp [h.1], fun x hx => h.2 x (List.mem_of_mem_take hx)⟩

theorem block_drop {b : List Nat} (h : Block16 b) : Half (b.drop 8) :=
  ⟨by simp [h.1], fun x hx => h.2 x (List.mem_of_mem_drop hx)⟩

theorem bigBytes_half (t : Nat) : Half (bigBytes 8 t) := by
  refine ⟨by simp [bigBytes], fun x hx => ?_⟩
  obtain ⟨i, _, rfl⟩ := List.mem_map.1 hx
  exact Nat.mod_lt _ (by omega)

theorem xor_half {a b : List Nat} (ha : Half a) (hb : Half b) : Half (xorBytes a b) := by
  refine ⟨by simp [xorBytes, ha.1, hb.1], fun x hx => ?_⟩
  obtain ⟨i, hi, rfl⟩ := List.getElem_of_mem hx
  simp only [xorBytes, List.getElem_zipWith]
  exact Nat.xor_lt_two_pow (n := 8) (ha.2 _ (List.getElem_mem _)) (hb.2 _ (List.getElem_mem _))

theorem unwrapPass_append (key : List Nat) (xs ys : List (List Nat)) (t : Nat) (a : List Nat) :
    unwrapPass key t a (xs ++ ys) =
      ((unwrapPass key (t - xs.length) (unwrapPass key t a xs).1 ys).1,
       (unwrapPass key t a xs).2 ++ (unwrapPass key (t - xs.length) (unwrapPass key t a xs).1 ys).2) := by
  induction xs generalizing t a with
  | nil => rfl
  | cons x xs ih => simp [unwrapPass, ih, Nat.sub_sub, Nat.add_comm]

theorem pass_round_trip {key : List Nat} (hl : key.length = 32) (hk : ∀ x ∈ key, x < 256) (rs : List (List Nat))
    (h : ∀ r ∈ rs, Half r) (t : Nat) (a : List Nat) (ha : Half a) :
    Half (wrapPass key t a rs).1 ∧ (∀ r ∈ (wrapPass key t a rs).2, Half r) ∧ (wrapPass key t a rs).2.length = rs.length ∧
    unwrapPass key (t + rs.length - 1) (wrapPass key t a rs).1 (wrapPass key t a rs).2.reverse = (a, rs.reverse) := by
  induction rs generalizing t a with
  | nil => exact ⟨ha, by simp [wrapPass], rfl, rfl⟩
  | cons r rs ih =>
    have hr := h r (List.mem_cons_self ..)
    obtain ⟨hb, hd⟩ := aes_round_trip hl hk (half_append ha hr)
    obtain ⟨h1, h2, h3, h4⟩ := ih (fun x hx => h x (List.mem_cons_of_mem _ hx)) (t + 1)
      (xorBytes ((aesEncrypt key (a ++ r)).take 8) (bigBytes 8 t)) (xor_half (block_take hb) (bigBytes_half t))
    refine ⟨h1, List.forall_mem_cons.2 ⟨block_drop hb, h2⟩, by simp [wrapPass, h3], ?_⟩
    have e : t + (r :: rs).length - 1 = t + 1 + rs.length - 1 := by rw [List.length_cons]; omega
    have e2 : t + 1 + rs.length - 1 - rs.length = t := by omega
    rw [wrapPass]
    simp only [List.reverse_cons]
    rw [e, unwrapPass_append, h4]
    simp only [List.length_reverse, h3, e2, unwrapPass]
    rw [xor_twice ((block_take hb).1.trans (bigBytes_half t).1.symm), List.take_append_drop, hd,
      List.take_append_of_le_length (le_of_eq ha.1.symm), List.take_of_length_le (le_of_eq ha.1),
      List.drop_append_of_le_length (le_of_eq ha.1.symm), List.drop_of_length_le (le_of_eq ha.1), List.nil_append]

theorem blocks8_flatten (n : Nat) (l : List Nat) (h : l.length = 8 * n) : (blocks8 n l).flatten = l := by
  induction n generalizing l with
  | zero => simp [List.length_eq_zero_iff.1 h, blocks8]
  | succ n ih =>
    have : blocks8 (n + 1) l = l.take 8 :: blocks8 n (l.drop 8) := by
      simp [blocks8, List.range_succ_eq_map, List.map_map, Function.comp_def, List.drop_drop, Nat.mul_add, Nat.add_comm]
    rw [this, List.flatten_cons, ih _ (by simp [h]; omega), List.take_append_drop]

theorem blocks8_of_flatten (xs : List (List Nat)) (h : ∀ x ∈ xs, Half x) : blocks8 xs.length xs.flatten = xs := by
  induction xs with
  | nil => rfl
  | cons x xs ih =>
    have hx := (h x (List.mem_cons_self ..)).1
    have : blocks8 (xs.length + 1) (x :: xs).flatten = (x :: xs).flatten.take 8 :: blocks8 xs.length ((x :: xs).flatten.drop 8) := by
      simp [blocks8, List.range_succ_eq_map, List.map_map, Function.comp_def, List.drop_drop, Nat.mul_add, Nat.add_comm]
    rw [List.length_cons, this, List.flatten_cons, List.take_append_of_le_length (le_of_eq hx.symm),
      List.take_of_length_le (le_of_eq hx), List.drop_append_of_le_length (le_of_eq hx.symm), List.drop_of_length_le (le_of_eq hx),
      List.nil_append, ih (fun y hy => h y (List.mem_cons_of_mem _ hy))]

theorem blocks8_half {n : Nat} {l : List Nat} (h : l.length = 8 * n) (hb : ∀ x ∈ l, x < 256) : ∀ r ∈ blocks8 n l, Half r := by
  intro r hr
  obtain ⟨i, hi, rfl⟩ := List.mem_map.1 hr
  have := List.mem_range.1 hi
  exact ⟨by simp [h]; omega, fun x hx => hb x (List.mem_of_mem_drop (List.mem_of_mem_take hx))⟩

/-- What a pass from block number n j + 1 on gives, and that the pass back undoes it. -/
def Passed (key : List Nat) (n j : Nat) (a : List Nat) (rs : List (List Nat)) (x : List Nat × List (List Nat)) : Prop :=
  Half x.1 ∧ (∀ r ∈ x.2, Half r) ∧ x.2.length = rs.length ∧ unwrapPass key (n * j + 1 + rs.length - 1) x.1 x.2.reverse = (a, rs.reverse)

/-- RFC 3394: what is wrapped under a key is unwrapped under it, and has eight bytes more. -/
theorem wrap_round_trip {key plain : List Nat} (hl : key.length = 32) (hk : ∀ x ∈ key, x < 256) (n : Nat) (hn : plain.length = 8 * n)
    (hp : ∀ x ∈ plain, x < 256) :
    (wrapBytes key plain).length = 8 * n + 8 ∧ (∀ x ∈ wrapBytes key plain, x < 256) ∧
    unwrapBytes key (wrapBytes key plain) = some plain := by
  have hstart : Half wrapStart := ⟨rfl, by decide⟩
  have e0 : plain.length / 8 = n := by omega
  have hlen : (blocks8 n plain).length = n := by simp [blocks8]
  let x1 := wrapPass key (n * 0 + 1) wrapStart (blocks8 n plain)
  let x2 := wrapPass key (n * 1 + 1) x1.1 x1.2
  let x3 := wrapPass key (n * 2 + 1) x2.1 x2.2
  let x4 := wrapPass key (n * 3 + 1) x3.1 x3.2
  let x5 := wrapPass key (n * 4 + 1) x4.1 x4.2
  let x6 := wrapPass key (n * 5 + 1) x5.1 x5.2
  have p1 : Passed key n 0 wrapStart (blocks8 n plain) x1 := pass_round_trip hl hk _ (blocks8_half hn hp) _ _ hstart
  have p2 : Passed key n 1 x1.1 x1.2 x2 := pass_round_trip hl hk _ p1.2.1 _ _ p1.1
  have p3 : Passed key n 2 x2.1 x2.2 x3 := pass_round_trip hl hk _ p2.2.1 _ _ p2.1
  have p4 : Passed key n 3 x3.1 x3.2 x4 := pass_round_trip hl hk _ p3.2.1 _ _ p3.1
  have p5 : Passed key n 4 x4.1 x4.2 x5 := pass_round_trip hl hk _ p4.2.1 _ _ p4.1
  have p6 : Passed key n 5 x5.1 x5.2 x6 := pass_round_trip hl hk _ p5.2.1 _ _ p5.1
  have hw : wrapBytes key plain = x6.1 ++ x6.2.flatten := by rw [wrapBytes, e0]; rfl
  clear_value x1 x2 x3 x4 x5 x6
  have l1 := p1.2.2.1.trans hlen
  have l2 := p2.2.2.1.trans l1
  have l3 := p3.2.2.1.trans l2
  have l4 := p4.2.2.1.trans l3
  have l5 := p5.2.2.1.trans l4
  have l6 := p6.2.2.1.trans l5
  have hf : x6.2.flatten.length = 8 * n := by
    have : ∀ xs : List (List Nat), (∀ x ∈ xs, Half x) → xs.flatten.length = 8 * xs.length := by
      intro xs h
      induction xs with
      | nil => rfl
      | cons a t ih => simp [(h a (List.mem_cons_self ..)).1, ih (fun x hx => h x (List.mem_cons_of_mem _ hx))]; omega
    rw [this _ p6.2.1, l6]
  have hlw : (wrapBytes key plain).length = 8 * n + 8 := by rw [hw, List.length_append, p6.1.1, hf]; omega
  refine ⟨hlw, fun x hx => ?_, ?_⟩
  · rw [hw] at hx
    rcases List.mem_append.1 hx with hx | hx
    · exact p6.1.2 x hx
    · obtain ⟨y, hy, hx⟩ := List.mem_flatten.1 hx
      exact (p6.2.1 y hy).2 x hx
  · have et : (wrapBytes key plain).take 8 = x6.1 := by
      rw [hw, List.take_append_of_le_length (le_of_eq p6.1.1.symm), List.take_of_length_le (le_of_eq p6.1.1)]
    have ed : blocks8 n ((wrapBytes key plain).drop 8) = x6.2 := by
      rw [hw, List.drop_append_of_le_length (le_of_eq p6.1.1.symm), List.drop_of_length_le (le_of_eq p6.1.1), List.nil_append, ← l6]
      exact blocks8_of_flatten _ p6.2.1
    have q6 := p6.2.2.2
    have q5 := p5.2.2.2
    have q4 := p4.2.2.2
    have q3 := p3.2.2.2
    have q2 := p2.2.2.2
    have q1 := p1.2.2.2
    rw [l5, show n * 5 + 1 + n - 1 = n * 6 by omega] at q6
    rw [l4, show n * 4 + 1 + n - 1 = n * 5 by omega] at q5
    rw [l3, show n * 3 + 1 + n - 1 = n * 4 by omega] at q4
    rw [l2, show n * 2 + 1 + n - 1 = n * 3 by omega] at q3
    rw [l1, show n * 1 + 1 + n - 1 = n * 2 by omega] at q2
    rw [hlen, show n * 0 + 1 + n - 1 = n * 1 by omega] at q1
    have hr : (List.range 6) = [0, 1, 2, 3, 4, 5] := rfl
    rw [unwrapBytes, hlw, show (8 * n + 8) / 8 - 1 = n by omega, et, ed, hr]
    simp only [List.foldl_cons, List.foldl_nil, Nat.sub_zero, Nat.reduceSub, q6, q5, q4, q3, q2, q1, if_true, List.reverse_reverse]
    rw [blocks8_flatten n plain hn]

theorem toNats_toBytes {l : List Nat} (h : ∀ x ∈ l, x < 256) : toNats (toBytes l) = l := by
  rw [toNats, toBytes, List.map_map]
  refine (List.map_congr_left (fun x hx => ?_)).trans (List.map_id _)
  simpa using h x hx

theorem toBytes_toNats (l : List Byte) : toBytes (toNats l) = l := by simp [toNats, toBytes, Function.comp_def]

theorem toNats_lt (l : List Byte) : ∀ x ∈ toNats l, x < 256 := by
  intro x hx
  obtain ⟨b, _, rfl⟩ := List.mem_map.1 hx
  exact b.isLt

/-- What a checkpoint's header carries of a partition's keys, a restore on this device unwraps (R286, R287). -/
theorem wrapped_keys (k : SectorKeys) (hx : k.xts.length = 64) (ht : k.tag.length = 32) :
    k.wrapped.length = 112 ∧ unwrapKeys k.wrapped = some k := by
  have hl : deviceWrapKey.length = 32 := by simp [deviceWrapKey, toNats, fill_length]
  have hk := toNats_lt (fill 32 Config.wrapKey)
  obtain ⟨a1, a2, a3⟩ := wrap_round_trip hl hk 8 (plain := toNats k.xts) (by simp [toNats, hx]) (toNats_lt _)
  obtain ⟨b1, b2, b3⟩ := wrap_round_trip hl hk 4 (plain := toNats k.tag) (by simp [toNats, ht]) (toNats_lt _)
  have la : (toBytes (wrapBytes deviceWrapKey (toNats k.xts))).length = 72 := by simp [toBytes, a1]
  have lb : (toBytes (wrapBytes deviceWrapKey (toNats k.tag))).length = 40 := by simp [toBytes, b1]
  refine ⟨by rw [SectorKeys.wrapped, List.length_append, la, lb], ?_⟩
  rw [unwrapKeys, SectorKeys.wrapped, List.take_append_of_le_length (le_of_eq la.symm), List.take_of_length_le (le_of_eq la),
    List.drop_append_of_le_length (le_of_eq la.symm), List.drop_of_length_le (le_of_eq la), List.nil_append,
    List.take_of_length_le (le_of_eq lb), toNats_toBytes a2, toNats_toBytes b2, a3, b3]
  simp only [toBytes_toNats]

/-! ### XTS -/

theorem bigBytes_block (x : Nat) : Block16 (bigBytes 16 x).reverse := by
  refine ⟨by simp [bigBytes], fun y hy => ?_⟩
  obtain ⟨i, _, rfl⟩ := List.mem_map.1 (List.mem_reverse.1 hy)
  exact Nat.mod_lt _ (by omega)

theorem xts_round_trip {key : List Nat} (hl : key.length = 32) (hk : ∀ x ∈ key, x < 256) (n : Nat) (t : List Nat) (ht : Block16 t)
    (l : List Nat) (h : l.length = 16 * n) (hb : ∀ x ∈ l, x < 256) :
    (xtsBlocks (aesEncrypt key) n t l).length = 16 * n ∧ (∀ x ∈ xtsBlocks (aesEncrypt key) n t l, x < 256) ∧
    xtsBlocks (aesDecrypt key) n t (xtsBlocks (aesEncrypt key) n t l) = l := by
  induction n generalizing t l with
  | zero => exact ⟨rfl, by simp [xtsBlocks], by simp [xtsBlocks, List.length_eq_zero_iff.1 h]⟩
  | succ n ih =>
    have hp : Block16 (l.take 16) := ⟨by simp [h], fun x hx => hb x (List.mem_of_mem_take hx)⟩
    obtain ⟨he, hd⟩ := aes_round_trip hl hk (xor_block hp ht)
    have hc := xor_block he ht
    obtain ⟨i1, i2, i3⟩ := ih (tweakNext t) (bigBytes_block _) (l.drop 16) (by simp [h]; omega)
      (fun x hx => hb x (List.mem_of_mem_drop hx))
    simp only [xtsBlocks]
    refine ⟨by rw [List.length_append, hc.1, i1]; omega, fun x hx => (List.mem_append.1 hx).elim (hc.2 x) (i2 x), ?_⟩
    rw [List.take_append_of_le_length (le_of_eq hc.1.symm), List.take_of_length_le (le_of_eq hc.1),
      List.drop_append_of_le_length (le_of_eq hc.1.symm), List.drop_of_length_le (le_of_eq hc.1), List.nil_append, i3,
      xor_twice (he.1.trans ht.1.symm), hd, xor_twice (hp.1.trans ht.1.symm), List.take_append_drop]

/-- A sector that an image carries opens to its plain bytes under the same keys at the same address (R222, R286, R287). -/
theorem open_seal (k : SectorKeys) (hx : k.xts.length = 64) (a : Nat) (plain : List Byte) (hp : plain.length = 64) :
    openSector k a (sealSector k a plain) = plain := by
  have hd : k.data.length = 32 := by simp [SectorKeys.data, toNats, hx]
  have hdb : ∀ x ∈ k.data, x < 256 := fun x h => toNats_lt k.xts x (List.mem_of_mem_take h)
  have ht : Block16 (k.tweak a) := (aes_round_trip (by simp [toNats, hx]) (fun x h => toNats_lt k.xts x (List.mem_of_mem_drop h))
    (bigBytes_block a)).1
  have hf : fill 64 plain = plain := by rw [fill, List.take_append_of_le_length (by omega), List.take_of_length_le (by omega)]
  obtain ⟨h1, h2, h3⟩ := xts_round_trip hd hdb 4 _ ht (toNats plain) (by simp [toNats, hp]) (toNats_lt _)
  have hc : (toBytes (xtsBlocks (aesEncrypt k.data) 4 (k.tweak a) (toNats plain))).length = 64 := by simp [toBytes, h1]
  rw [openSector, sealSector, hf, fill, List.append_assoc, List.take_append_of_le_length (le_of_eq hc.symm),
    List.take_of_length_le (le_of_eq hc), toNats_toBytes h2, h3, toBytes_toNats]

end Sys2Proof.Laws
end

