-- ==== Sys2Proof/Laws/Memory.lean ====
section
/-!
SUPPORT. The tables of Sparse.lean keep their canonical form and answer what was last written; so do the memories.
-/
namespace Sys2Proof.Machine

variable {α : Type} [DecidableEq α] {d : α}

theorem sparseWf_weaken {lo lo' : Nat} {t : List (Nat × α)} (h : lo' ≤ lo) (w : sparseWf d lo t = true) :
    sparseWf d lo' t = true := by
  cases t with
  | nil => rfl
  | cons e t =>
    simp only [sparseWf, Bool.and_eq_true, decide_eq_true_eq] at w ⊢
    exact ⟨⟨le_trans h w.1.1, w.1.2⟩, w.2⟩

theorem sparseSet_wf {t : List (Nat × α)} {lo a : Nat} {x : α} (ha : lo ≤ a) (w : sparseWf d lo t = true) :
    sparseWf d lo (sparseSet d t a x) = true := by
  induction t generalizing lo with
  | nil =>
    by_cases hx : x = d <;> simp [sparseSet, sparseWf, hx, ha]
  | cons e t ih =>
    obtain ⟨k, v⟩ := e
    have w' := w
    simp only [sparseWf, Bool.and_eq_true, decide_eq_true_eq] at w
    obtain ⟨⟨hk, hv⟩, ht⟩ := w
    simp only [sparseSet]
    by_cases h1 : a < k
    · by_cases hx : x = d
      · simpa [h1, hx] using w'
      · simp only [h1, if_true, hx, if_false, sparseWf, Bool.and_eq_true, decide_eq_true_eq]
        exact ⟨⟨ha, hx⟩, ⟨h1, hv⟩, ht⟩
    · by_cases h2 : a = k
      · subst h2
        by_cases hx : x = d
        · simp only [lt_irrefl, if_false, if_true, hx]
          exact sparseWf_weaken (by omega) ht
        · simp only [lt_irrefl, if_false, if_true, hx, sparseWf, Bool.and_eq_true, decide_eq_true_eq]
          exact ⟨⟨ha, hx⟩, ht⟩
      · simp only [h1, h2, if_false, sparseWf, Bool.and_eq_true, decide_eq_true_eq]
        exact ⟨⟨hk, hv⟩, ih (by omega) ht⟩

theorem sparseGet_below {t : List (Nat × α)} {lo a : Nat} (ha : a < lo) (w : sparseWf d lo t = true) :
    sparseGet d t a = d := by
  cases t with
  | nil => rfl
  | cons e t =>
    obtain ⟨k, v⟩ := e
    simp only [sparseWf, Bool.and_eq_true, decide_eq_true_eq] at w
    simp only [sparseGet]
    rw [if_neg (by omega), if_pos (by omega)]

/-- A read of the key just written. -/
theorem sparseGet_set_same {t : List (Nat × α)} {lo a : Nat} {x : α} (w : sparseWf d lo t = true) :
    sparseGet d (sparseSet d t a x) a = x := by
  induction t generalizing lo with
  | nil => by_cases hx : x = d <;> simp [sparseSet, sparseGet, hx]
  | cons e t ih =>
    obtain ⟨k, v⟩ := e
    simp only [sparseWf, Bool.and_eq_true, decide_eq_true_eq] at w
    simp only [sparseSet]
    by_cases h1 : a < k
    · have h3 : a ≠ k := by omega
      by_cases hx : x = d <;> simp [h1, hx, sparseGet, h3]
    · by_cases h2 : a = k
      · subst h2
        by_cases hx : x = d
        · simpa [hx] using sparseGet_below (Nat.lt_succ_self a) w.2
        · simp [hx, sparseGet]
      · simp only [h1, h2, if_false, sparseGet]
        exact ih w.2

/-- A read of any other key. -/
theorem sparseGet_set_other {t : List (Nat × α)} {lo a b : Nat} {x : α} (hb : b ≠ a) (w : sparseWf d lo t = true) :
    sparseGet d (sparseSet d t a x) b = sparseGet d t b := by
  induction t generalizing lo with
  | nil => by_cases hx : x = d <;> simp [sparseSet, sparseGet, hx, hb]
  | cons e t ih =>
    obtain ⟨k, v⟩ := e
    simp only [sparseWf, Bool.and_eq_true, decide_eq_true_eq] at w
    simp only [sparseSet]
    by_cases h1 : a < k
    · by_cases hx : x = d
      · simp [h1, hx]
      · simp only [h1, if_true, hx, if_false, sparseGet, hb]
        by_cases h3 : b < a
        · have h4 : b ≠ k := by omega
          have h5 : b < k := by omega
          simp [h3, h4, h5]
        · simp [h3]
    · by_cases h2 : a = k
      · subst h2
        by_cases hx : x = d
        · simp only [lt_irrefl, if_false, if_true, hx, sparseGet, hb]
          by_cases h3 : b < a
          · simp [h3, sparseGet_below (show b < a + 1 by omega) w.2]
          · simp [h3]
        · simp only [lt_irrefl, if_false, if_true, hx, sparseGet, hb]
      · simp only [h1, h2, if_false, sparseGet]
        rw [ih w.2]

theorem sparseFilter_wf {t : List (Nat × α)} {lo : Nat} {p : Nat × α → Bool} (w : sparseWf d lo t = true) :
    sparseWf d lo (t.filter p) = true := by
  induction t generalizing lo with
  | nil => rfl
  | cons e t ih =>
    obtain ⟨k, v⟩ := e
    simp only [sparseWf, Bool.and_eq_true, decide_eq_true_eq] at w
    by_cases hp : p (k, v)
    · simp only [List.filter_cons, hp, if_true, sparseWf, Bool.and_eq_true, decide_eq_true_eq]
      exact ⟨w.1, ih w.2⟩
    · simp only [List.filter_cons, hp, Bool.false_eq_true, if_false]
      exact sparseWf_weaken (by omega) (ih w.2)

theorem sparseSetAll_wf {t l : List (Nat × α)} (w : sparseWf d 0 t = true) : sparseWf d 0 (sparseSetAll d t l) = true := by
  induction l generalizing t with
  | nil => exact w
  | cons e l ih =>
    simp only [sparseSetAll, List.foldl_cons] at ih ⊢
    exact ih (sparseSet_wf (Nat.zero_le _) w)

/-! ### The memories -/

theorem Memory.write_wf {m : Memory} {a : Nat} {b : Byte} (w : Memory.wf m = true) :
    Memory.wf (Memory.write m a b) = true := sparseSet_wf (Nat.zero_le _) w

theorem Memory.read_write_same {m : Memory} {a : Nat} {b : Byte} (w : Memory.wf m = true) :
    Memory.read (Memory.write m a b) a = b := sparseGet_set_same w

theorem Memory.read_write_other {m : Memory} {a c : Nat} {b : Byte} (h : c ≠ a) (w : Memory.wf m = true) :
    Memory.read (Memory.write m a b) c = Memory.read m c := sparseGet_set_other h w

theorem State.mem_wf {s : State} (w : s.memWf = true) (k : Space) : Memory.wf (s.mem k) = true := by
  simp only [State.memWf, Bool.and_eq_true] at w
  cases k
  · exact w.1.1
  · exact w.1.2
  · exact w.2

theorem State.setMem_wf {s : State} {k : Space} {m : Memory} (w : s.memWf = true) (h : Memory.wf m = true) :
    (s.setMem k m).memWf = true := by
  simp only [State.memWf, Bool.and_eq_true] at w ⊢
  obtain ⟨⟨w1, w2⟩, w3⟩ := w
  cases k <;> simp only [State.setMem]
  · exact ⟨⟨h, w2⟩, w3⟩
  · exact ⟨⟨w1, h⟩, w3⟩
  · exact ⟨⟨w1, w2⟩, h⟩

theorem State.writeByte_wf {s : State} {p : PAddr} {b : Byte} (w : s.memWf = true) : (s.writeByte p b).memWf = true :=
  State.setMem_wf w (Memory.write_wf (State.mem_wf w _))

theorem State.writeCells_wf {s : State} {l : List (PAddr × Byte)} (w : s.memWf = true) :
    (s.writeCells l).memWf = true := by
  induction l generalizing s with
  | nil => exact w
  | cons c l ih => exact ih (State.writeByte_wf w)

theorem State.writeNat_wf {s : State} {p : PAddr} {n x : Nat} (w : s.memWf = true) : (s.writeNat p n x).memWf = true :=
  State.writeCells_wf w

theorem State.heal_wf {s : State} {l : List (PAddr × Byte)} (w : s.memWf = true) : (s.heal l).memWf = true := w

theorem State.store_wf {s : State} {l : List (PAddr × Byte)} (w : s.memWf = true) : (s.store l).2.memWf = true := by
  unfold State.store
  cases s.eccWrite l with
  | ok => exact State.writeCells_wf (State.heal_wf w)
  | lost => exact w
  | badTag => exact w

theorem State.scrubStore_wf {s : State} {id n : Nat} (w : s.memWf = true) : (s.scrubStore id n).memWf = true := by
  have h := w
  simp only [State.memWf, Bool.and_eq_true] at h ⊢
  exact ⟨⟨h.1.1, sparseFilter_wf h.1.2⟩, h.2⟩

theorem State.scrubFrame_wf {s : State} {f : Nat} (w : s.memWf = true) : (s.scrubFrame f).memWf = true := by
  have h := w
  simp only [State.memWf, Bool.and_eq_true] at h ⊢
  exact ⟨⟨sparseFilter_wf h.1.1, h.1.2⟩, h.2⟩

theorem State.writeTable_wf {s : State} {num : Nat} {l : List (Nat × Stage2)} (w : s.memWf = true) :
    (s.writeTable num l).memWf = true := by
  have h := w
  simp only [State.memWf, Bool.and_eq_true] at h
  have h1 : ∀ (l : List (Nat × Stage2)) (t : State), t.memWf = true →
      (l.foldl (fun s e => s.writeNat ⟨.hbm, stage2Base num + 8 * e.1⟩ 8 e.2.bits) t).memWf = true := by
    intro l
    induction l with
    | nil => exact fun t ht => ht
    | cons e l ih => exact fun t ht => ih _ (State.writeNat_wf ht)
  refine h1 l _ ?_
  simp only [State.memWf, Bool.and_eq_true]
  exact ⟨⟨sparseFilter_wf h.1.1, h.1.2⟩, h.2⟩

theorem State.fillStore_wf {s : State} {id off : Nat} {l : List Byte} (w : s.memWf = true) :
    (s.fillStore id off l).memWf = true := State.writeCells_wf w

/-- A saved store's bytes written back into the window keep its form. -/
theorem State.refill_wf {s : State} {l : List (Nat × Byte)} {lost : List PAddr} (w : s.memWf = true) :
    State.memWf { s with window := sparseSetAll (0 : Byte) s.window l, lost := lost } = true := by
  have h := w
  simp only [State.memWf, Bool.and_eq_true] at h ⊢
  exact ⟨⟨h.1.1, sparseSetAll_wf h.1.2⟩, h.2⟩

theorem State.putCore_wf {s : State} {c : Core} (w : s.memWf = true) : (s.putCore c).memWf = true := by
  unfold State.putCore
  split
  · exact w
  · split <;> exact w

theorem State.restoreCore_wf {s : State} {k : Crew} {code : List Byte} {rank id : Nat} {v : SavedCore}
    (w : s.memWf = true) : (s.restoreCore k code rank id v).memWf = true :=
  State.putCore_wf (State.fillStore_wf (State.refill_wf (State.scrubStore_wf w)))

theorem State.reset_wf : State.reset.memWf = true := rfl

/-- A byte reads as it was written, and every other byte as before. -/
theorem State.readByte_write_same {s : State} {p : PAddr} {b : Byte} (w : s.memWf = true) :
    (s.writeByte p b).readByte p = b := by
  have h := Memory.read_write_same (a := p.addr) (b := b) (State.mem_wf w p.space)
  obtain ⟨k, a⟩ := p
  cases k <;> exact h

theorem State.readByte_write_other {s : State} {p q : PAddr} {b : Byte} (hq : q ≠ p) (w : s.memWf = true) :
    (s.writeByte p b).readByte q = s.readByte q := by
  obtain ⟨k, a⟩ := p
  obtain ⟨k', c⟩ := q
  by_cases hk : k' = k
  · subst hk
    have hc : c ≠ a := fun h => hq (by rw [h])
    have h := Memory.read_write_other (b := b) hc (State.mem_wf w k')
    cases k' <;> exact h
  · cases k <;> cases k' <;> first | exact absurd rfl hk | rfl

/-- Writes of other bytes leave a byte as it was. -/
theorem State.readByte_writeCells_other {s : State} {l : List (PAddr × Byte)} {q : PAddr}
    (hq : ∀ c ∈ l, q ≠ c.1) (w : s.memWf = true) : (s.writeCells l).readByte q = s.readByte q := by
  induction l generalizing s with
  | nil => rfl
  | cons c l ih =>
    have h1 := ih (s := s.writeByte c.1 c.2) (fun e he => hq e (List.mem_cons_of_mem _ he)) (State.writeByte_wf w)
    exact h1.trans (State.readByte_write_other (hq c List.mem_cons_self) w)

/-- A byte of a list of writes to different places reads as it was written. -/
theorem State.readByte_writeCells_same {s : State} {l : List (PAddr × Byte)} (hn : (l.map Prod.fst).Nodup) (w : s.memWf = true)
    {c : PAddr × Byte} (hc : c ∈ l) : (s.writeCells l).readByte c.1 = c.2 := by
  induction l generalizing s with
  | nil => exact absurd hc List.not_mem_nil
  | cons d l ih =>
    obtain ⟨h1, h2⟩ := List.nodup_cons.1 hn
    rcases List.mem_cons.1 hc with rfl | hc
    · exact (State.readByte_writeCells_other (s := s.writeByte c.1 c.2)
        (fun e he (h : c.1 = e.1) => h1 (h ▸ List.mem_map_of_mem (f := Prod.fst) he)) (State.writeByte_wf w)).trans (State.readByte_write_same w)
    · exact ih (s := s.writeByte d.1 d.2) h2 (State.writeByte_wf w) hc

theorem placesFrom_nodup (p : PAddr) (n : Nat) : (placesFrom p n).Nodup :=
  List.Nodup.map (fun i j h => by simpa [PAddr.plus] using h) List.nodup_range

/-- A string written at consecutive places reads back whole. -/
theorem State.readBytes_written {s : State} (p : PAddr) (l : List Byte) (w : s.memWf = true) :
    (s.writeCells (cellsAt p l)).readBytes (placesFrom p l.length) = l := by
  have hl : (placesFrom p l.length).length = l.length := by simp [placesFrom]
  have hn : ((cellsAt p l).map Prod.fst).Nodup := by
    rw [cellsAt, List.map_fst_zip (by omega)]; exact placesFrom_nodup p _
  refine List.ext_getElem (by simp [State.readBytes, hl]) (fun i h1 h2 => ?_)
  simp only [State.readBytes, List.getElem_map]
  exact State.readByte_writeCells_same (c := ((placesFrom p l.length)[i]'(by omega), l[i])) hn w
    (by rw [cellsAt, ← List.getElem_zip (h := by simp [hl]; omega)]; exact List.getElem_mem _)

/-- Writes change the memories alone. -/
theorem State.writeCells_frame (l : List (PAddr × Byte)) (s : State) : ∃ a b c : Memory,
    s.writeCells l = { s with hbm := a, window := b, host := c } := by
  induction l generalizing s with
  | nil => exact ⟨_, _, _, rfl⟩
  | cons d l ih =>
    obtain ⟨a, b, c, h⟩ := ih (s.writeByte d.1 d.2)
    refine ⟨a, b, c, h.trans ?_⟩
    obtain ⟨⟨k, x⟩, v⟩ := d
    cases k <;> rfl

theorem State.readByte_store_other {s : State} {l : List (PAddr × Byte)} {q : PAddr}
    (hq : ∀ c ∈ l, q ≠ c.1) (w : s.memWf = true) : (s.store l).2.readByte q = s.readByte q := by
  unfold State.store
  cases s.eccWrite l with
  | ok => exact State.readByte_writeCells_other (s := s.heal l) hq (State.heal_wf w)
  | lost => rfl
  | badTag => rfl

end Sys2Proof.Machine
end

