-- ==== Sys2Proof/Laws/Image.lean ====
section
/-!
SUPPORT. The header of an image (R286, R287): what stands where in one that this device signs, that it is read back from host memory, and
that host memory gives what was written to it.
-/
namespace Sys2Proof.Laws
open Sys2Proof.Machine

/-- The first 3,712 bytes of an image of n sectors with these wrapped keys, that this device signs, and the whole header. -/
def imageHead (n : Nat) (keys : List Byte) : List Byte := fill 3712 (sha256 Config.certificate ++ bytesOfNat 8 n ++ keys)
def signedHeader (n : Nat) (keys body : List Byte) : List Byte :=
  imageHead n keys ++ fill 384 (Config.deviceSign (sha256 (imageHead n keys ++ body)))

theorem signedHeader_length (n : Nat) (keys body : List Byte) : (signedHeader n keys body).length = 4096 := by
  rw [signedHeader, imageHead, List.length_append, fill_length, fill_length]

/-- A header in its parts: digest, count, keys. -/
theorem signedHeader_parts (n : Nat) (keys body : List Byte) (h : keys.length ≤ 3672) :
    ∃ l, signedHeader n keys body = sha256 Config.certificate ++ (bytesOfNat 8 n ++ (keys ++ l)) := by
  have hc := sha256_length Config.certificate
  have h8 : (bytesOfNat 8 n).length = 8 := rfl
  refine ⟨List.replicate (3672 - keys.length) 0 ++ fill 384 (Config.deviceSign (sha256 (imageHead n keys ++ body))), ?_⟩
  rw [signedHeader, imageHead, fill, List.take_append, List.take_of_length_le (by simp [hc, h8]; omega), List.take_replicate,
    show min (3712 - (sha256 Config.certificate ++ bytesOfNat 8 n ++ keys).length) 3712 = 3672 - keys.length by simp [hc, h8]; omega]
  simp only [List.append_assoc]

theorem signedHeader_drop (n : Nat) (keys body : List Byte) (h : keys.length ≤ 3672) :
    ∃ l, (signedHeader n keys body).drop 32 = bytesOfNat 8 n ++ (keys ++ l) ∧
      (signedHeader n keys body).take 32 = sha256 Config.certificate := by
  obtain ⟨l, e⟩ := signedHeader_parts n keys body h
  have hc := sha256_length Config.certificate
  exact ⟨l, by rw [e, List.drop_append_of_le_length (by omega), List.drop_of_length_le (by omega), List.nil_append],
    by rw [e, List.take_append_of_le_length (by omega), List.take_of_length_le (by omega)]⟩

/-- An image that this device has signed is its own, with the sector count and the keys that went into it. -/
theorem signedHeader_reads (n : Nat) (keys body : List Byte) (h : keys.length ≤ 3672) :
    imageIsOurs (signedHeader n keys body) body = true ∧ headerSectors (signedHeader n keys body) = natOfBytes (bytesOfNat 8 n) ∧
    ((signedHeader n keys body).drop 40).take keys.length = keys := by
  obtain ⟨l, e, hd⟩ := signedHeader_drop n keys body h
  have h8 : (bytesOfNat 8 n).length = 8 := rfl
  have ht : (imageHead n keys).take 32 = sha256 Config.certificate := by
    rw [← hd, signedHeader, List.take_append_of_le_length (by rw [imageHead, fill_length]; omega)]
  obtain ⟨h1, h2⟩ := signed_image (imageHead n keys) (fill_length _ _) ht body
  refine ⟨?_, ?_, ?_⟩
  · rw [imageIsOurs, Bool.and_eq_true]
    exact ⟨decide_eq_true h1, decide_eq_true h2⟩
  · rw [headerSectors, e, List.take_append_of_le_length (by omega), List.take_of_length_le (by omega)]
  · rw [show 40 = 32 + 8 from rfl, ← List.drop_drop, e, List.drop_append_of_le_length (by omega), List.drop_of_length_le (by omega),
      List.nil_append, List.take_append_of_le_length (by omega), List.take_of_length_le (by omega)]

/-- A header has no room for the keys of more than 37 partitions. -/
theorem headerKeys_none (h : List Byte) (hl : h.length = 4096) (l : List Partition) (hn : 37 < l.length) : headerKeys h l = none := by
  have hn' : ∀ (m : List (Partition × Nat)) (f : Partition × Nat → Option (Partition × SectorKeys)),
      (∃ x ∈ m, f x = none) → m.mapM f = none := by
    intro m f h
    induction m with
    | nil => obtain ⟨x, hx, _⟩ := h; exact absurd hx List.not_mem_nil
    | cons a t ih =>
      obtain ⟨x, hx, hf⟩ := h
      rw [List.mapM_cons]
      rcases List.mem_cons.1 hx with rfl | hx
      · rw [hf]; rfl
      · rw [ih ⟨x, hx, hf⟩]
        cases f a <;> rfl
  refine hn' _ _ ⟨(l[37], 37), ?_, ?_⟩
  · rw [List.mem_zipIdx_iff_getElem?]; simp [hn]
  · rw [show h.drop (40 + 112 * 37) = [] from List.drop_of_length_le (by omega)]
    rfl

/-- A header and a body that host memory holds are read as an image. -/
theorem readImage_of {s : State} {q : Fin 64} {a n : Nat} {h b : List Byte} (hh : s.hostRead q a 4096 = some h) (hn : headerSectors h = n)
    (hb : s.hostRead q (a + 4096) (68 * n) = some b) : s.readImage q a = some (h, b) := by
  subst hn
  unfold State.readImage
  rw [hh]
  exact congrArg (Option.map (fun b => (h, b))) hb

/-- Where nothing is lost every read is good. -/
theorem eccRead_good (s : State) (l : List PAddr) (hl : s.lost = []) (hb : s.badTag = []) : s.eccRead l = .ok := by
  simp [State.eccRead, hl, hb]

/-- What a machine with other memories has in common with it. -/
theorem memories_apart (s : State) (a b c : Memory) (q : Fin 64) (n : Nat) (m : SaveImage) :
    let t : State := { s with hbm := a, window := b, host := c }
    t.lost = s.lost ∧ t.badTag = s.badTag ∧ t.fw = s.fw ∧ t.hostPlace q n = s.hostPlace q n ∧ t.part n = s.part n ∧
    t.partGoing n = s.partGoing n ∧ t.coveredCount q n = s.coveredCount q n ∧ t.samePartitions q n m = s.samePartitions q n m ∧
    t.numbersTaken q n m = s.numbersTaken q n m := ⟨rfl, rfl, rfl, rfl, rfl, rfl, rfl, rfl, rfl⟩

/-- Host memory without a lost sector gives what was written to it. -/
theorem hostRead_written {s t : State} {q : Fin 64} {a : Nat} {l : List Byte} {p : PAddr} (hw : s.memWf = true)
    (ht : t = s.writeCells (cellsAt p l)) (hp : t.hostPlace q a = p) (h1 : t.lost = []) (h2 : t.badTag = []) :
    t.hostRead q a l.length = some l := by
  rw [State.hostRead, if_pos (eccRead_good _ _ h1 h2), hp, ht]
  exact congrArg some (State.readBytes_written _ _ hw)

theorem hostRead_none (s : State) (q : Fin 64) (a : Nat) (h1 : s.lost = []) (h2 : s.badTag = []) : s.hostRead q a 0 = some [] := by
  rw [State.hostRead, if_pos (eccRead_good _ _ h1 h2)]
  rfl

/-- Neither host memory nor its places depend on partitions and images. -/
theorem images_apart (s : State) (l : List Partition) (i : List SaveImage) (q : Fin 64) (x : Nat) (ps : List PAddr) :
    let t : State := { s with parts := l, fw := { s.fw with images := i } }
    t.readBytes ps = s.readBytes ps ∧ t.hostPlace q x = s.hostPlace q x ∧ t.memWf = s.memWf := ⟨rfl, rfl, rfl⟩

theorem readBytes_apart {s : State} {l : List (PAddr × Byte)} {ps : List PAddr} (w : s.memWf = true)
    (h : ∀ q ∈ ps, ∀ d ∈ l, q ≠ d.1) : (s.writeCells l).readBytes ps = s.readBytes ps :=
  List.map_congr_left (fun q hq => State.readByte_writeCells_other (h q hq) w)

end Sys2Proof.Laws
end

