-- ==== Sys2Proof/Laws/Issue.lean ====
section
/-!
SUPPORT. The frames in which instructions issue: what they come to when the registers are ready and no asynchronous cause is
due (R78, R297), and when an engine instruction completes (R17).
-/
namespace Sys2Proof.Machine

/-- A retiring instruction's state, when no asynchronous cause is due. -/
theorem issueSeq_done {s t : State} (h : s.core.seq.asyncReady = false) :
    s.issueSeq (.done t) = t.updSeq (fun q => { q with wait := false, markAt := none, retired := s.now, last := s.core.seq.pc }) := by
  simp only [State.issueSeq, h, Bool.and_false, Bool.false_eq_true, if_false]

/-- An instruction that waits, when no asynchronous cause is due. -/
theorem issueSeq_wait {s t : State} (h : s.core.seq.asyncReady = false) :
    s.issueSeq (.wait t) = t.updSeq (fun q => { q with wait := true }) := by
  simp only [State.issueSeq, h, Bool.and_false, Bool.false_eq_true, if_false]

/-- A check that fails before any effect comes before an asynchronous cause, but for one that became due while the instruction
waited (R297). -/
theorem issueSeq_trap {s : State} {code : Code} {d : Word} (h : (s.core.seq.wait && s.core.seq.asyncReady) = false) :
    s.issueSeq (.trap code d) = s.syncTrap code d := by
  simp only [State.issueSeq, h, Bool.false_eq_true, if_false]

/-- Ready registers let the instruction go on. -/
theorem withRegs_ready {s : State} {src : List Reg} {rd : Reg} {k : Issue} (h : s.seqReady src rd) :
    s.withRegs src rd k = k := by
  obtain ⟨-, hs, hd⟩ := h
  have e1 : src.find? (fun r => !s.core.seq.regFull r && !s.core.seq.targeted r) = none := by
    simp only [List.find?_eq_none]
    intro r hr
    simp [hs r hr]
  have e2 : src.any (fun r => !s.core.seq.regFull r) = false := by
    simp only [List.any_eq_false]
    intro r hr
    simp [hs r hr]
  simp only [State.withRegs, e1, e2]
  refine if_neg ?_
  rcases hd with hd | hd <;> simp [hd]

/-- A source that is empty and that no load targets is QEMPTY (R78). -/
theorem withRegs_empty {s : State} {src : List Reg} {rd r : Reg} {k : Issue}
    (h : src.find? (fun r => !s.core.seq.regFull r && !s.core.seq.targeted r) = some r) :
    s.withRegs src rd k = .trap codeQEmpty (wordOfNat r.val) := by
  simp only [State.withRegs, h]

/-- Writing a register and going on is the result state of Safety.lean. -/
theorem done_result {s : State} {rd : Reg} {v pc : Word} (h : s.core.seq.asyncReady = false) :
    s.issueSeq (.done ((s.setReg rd v).updSeq (fun q => { q with pc := pc }))) = s.resulting rd v pc := by
  rw [issueSeq_done h]
  by_cases h0 : rd = 0 <;>
    simp [State.resulting, Sequencer.resulting, State.setReg, State.updSeq, State.upd, Core.updSeq, Sequencer.setReg, h0]

/-- Writing a register and going on with the next word. -/
theorem done_next {s : State} {rd : Reg} {v : Word} (h : s.core.seq.asyncReady = false) :
    s.issueSeq (.done (s.setReg rd v).next) = s.resulting rd v s.nextPc := by
  rw [issueSeq_done h]
  by_cases h0 : rd = 0 <;>
    simp [State.resulting, Sequencer.resulting, State.setReg, State.updSeq, State.upd, Core.updSeq, Sequencer.setReg,
      State.next, State.nextPc, h0]

/-- An instruction that computes a register from ready registers. -/
theorem compute_ready {s : State} {src : List Reg} {rd : Reg} {v : Word} (h : s.seqReady src rd) :
    s.compute src rd v = s.resulting rd v s.nextPc := by
  rw [State.compute, withRegs_ready h, done_next h.1]

/-- A vector instruction that completes (R17). -/
theorem issueEng_done {s t : State} {e : Eng} :
    s.issueEng e (.done t) = t.updEng e (fun x => { x with st := .run, retired := s.now }) := rfl

end Sys2Proof.Machine
end

