-- ==== Sys2Proof/Laws/PerInstr.lean ====
section
/-!
SUPPORT. The family `RoundTrip`: a word that the encoder gives to a well-formed instruction is read back as that instruction. One
lemma for each constructor; each says which fields of the word its decoder reads and what it finds there.
-/
namespace Sys2Proof.Laws.RoundTrip
open Sys2Proof

/-- The stream's decoder reads the instruction back from its own word. -/
def Statement (i : Instr) : Prop :=
  i.wf = true → ∀ (st : StreamId) (w : IWord), i.stream = some st → encode i = some w → decode st 3 w = .ok i

/-- The decoder of a stream over numbers. -/
def decodeNat (st : StreamId) (n : Nat) : Except Reject Instr := match st with
  | .seq => decodeSeq 3 n
  | .vec => decodeVec 3 n
  | .mat => decodeMat 3 n
  | .xfer => decodeXfer n

theorem of_number {i : Instr} {st : StreamId} {m : Nat} (hs : i.stream = some st) (hn : encodeNat i = some m)
    (h : ∀ n : Nat, n = m → n < 2 ^ 32 ∧ (i.wf = true → decodeNat st n = .ok i)) : Statement i := by
  intro hw st' w hs' he
  obtain rfl : st = st' := Option.some.inj (hs.symm.trans hs')
  obtain rfl : BitVec.ofNat 32 m = w := by simpa [encode, hn] using he
  obtain ⟨lt, hd⟩ := h m rfl
  have e : (BitVec.ofNat 32 m).toNat = m := by rw [BitVec.toNat_ofNat, Nat.mod_eq_of_lt lt]
  have := hd hw
  cases st <;> simpa only [decode, decodeNat, e] using this

/-! ### What the fields hold -/

theorem fin_eq {k : Nat} [NeZero k] {x : Nat} {r : Fin k} (h : x % k = r.val) : finOf k x = r := Fin.ext h

theorem bits_eq {k x : Nat} {v : BitVec k} (h : x % 2 ^ k = v.toNat) : BitVec.ofNat k x = v :=
  BitVec.eq_of_toNat_eq ((BitVec.toNat_ofNat x k).trans h)

theorem bool_eq {x : Nat} {b : Bool} (h : x % 2 = bit b) : boolOf x = b := by cases b <;> simp [boolOf, h, bit]

theorem bit_lt (b : Bool) : bit b < 2 := by cases b <;> decide

theorem tree_lt (t : TreeOp) : t.code < 256 := by
  have := t.view.isLt
  unfold TreeOp.code
  cases h : t.idx <;> simp only [Idx.code] <;> omega

theorem tree_eq {x : Nat} {t : TreeOp} (h : x = t.code) : treeOpOf x = t := by
  subst h
  obtain ⟨v, i⟩ := t
  have := v.isLt
  cases i with
  | lit i =>
    have hi := i.isLt
    have h1 : (32 * v.val + i.val) % 32 = i.val := by omega
    have h2 : (32 * v.val + i.val) / 32 = v.val := by omega
    simp only [treeOpOf, TreeOp.code, Idx.code, h1, h2, hi, dite_true]
    congr 1
    exact fin_eq (Nat.mod_eq_of_lt v.isLt)
  | k r =>
    have hr := r.isLt
    have h1 : (32 * v.val + (24 + r.val)) % 32 = 24 + r.val := by omega
    have h2 : (32 * v.val + (24 + r.val)) / 32 = v.val := by omega
    have h3 : ¬ 24 + r.val < 24 := by omega
    simp only [treeOpOf, TreeOp.code, Idx.code, h1, h2, h3, dite_false]
    congr 1
    · exact fin_eq (Nat.mod_eq_of_lt v.isLt)
    · congr 1
      exact fin_eq (by omega)

theorem endPt_lt (e : EndPt) : e.code < 1024 := by
  cases e with
  | tree t => have := tree_lt t; simp only [EndPt.code]; omega
  | hnd h k => have := h.isLt; have := k.isLt; simp only [EndPt.code]; omega

theorem endPt_eq {x : Nat} {e : EndPt} (hw : e.wf = true) (h : x = e.code) : endPtOf x = .ok e := by
  subst h
  cases e with
  | tree t =>
    have := tree_lt t
    have h1 : t.code / 512 % 2 = 0 := by omega
    have h2 : t.code / 256 % 2 = 0 := by omega
    have h3 : t.code % 256 = t.code := by omega
    simp only [endPtOf, EndPt.code, h1, h2, h3, if_true, tree_eq rfl]
  | hnd h k =>
    have := h.isLt
    have := k.isLt
    have h0 : h.val ≠ 0 := fun z => (of_decide_eq_true hw) (Fin.ext z)
    have h1 : (512 + 8 * h.val + k.val) / 512 % 2 ≠ 0 := by omega
    have h2 : (512 + 8 * h.val + k.val) / 8 % 64 ≠ 0 := by omega
    simp only [endPtOf, EndPt.code, h1, h2, if_false]
    congr 2
    · exact fin_eq (by omega)
    · exact fin_eq (by omega)

theorem scope_lt (c : Scope) : c.code < 16 := by cases c <;> decide
theorem scope_eq {x : Nat} {c : Scope} (h : x = c.code) : scopeOf x = some c := by subst h; cases c <;> rfl
theorem path_lt (p : Path) : p.code < 8 := by cases p <;> decide
theorem path_eq {x : Nat} {p : Path} (h : x = p.code) : pathOf x = some p := by subst h; cases p <;> rfl
theorem etype_lt (t : EType) : t.code < 16 := by cases t <;> decide
theorem etype_eq {x : Nat} {t : EType} (h : x = t.code) : etypeOf 3 x = some t := by subst h; cases t <;> rfl
theorem csr_lt (c : Csr) : c.code < 2 ^ 12 := by cases c <;> decide
theorem csr_eq {x : Nat} {c : Csr} (h : x = c.code) : csrOf x = some c := by subst h; cases c <;> rfl
theorem shape_lt (f : ShapeField) : f.code < 16 := by cases f <;> decide
theorem shape_eq {x : Nat} {f : ShapeField} (h : x = f.code) : shapeFieldOf x = some f := by subst h; cases f <;> rfl
theorem win_lt (f : WinField) : f.code < 16 := by cases f <;> decide
theorem win_eq {x : Nat} {f : WinField} (h : x = f.code) : winFieldOf x = some f := by subst h; cases f <;> rfl
theorem mode_lt (m : MatMode) : m.code < 4 := by cases m <;> decide
theorem mode_eq {x : Nat} {m : MatMode} (h : x = m.code) : modeOf x = some m := by subst h; cases m <;> rfl
theorem eng_lt (e : Eng) : e.code < 4 := by cases e <;> decide
theorem eng_eq {x : Nat} {e : Eng} (h : x = e.code) : engOf x = some e := by subst h; cases e <;> rfl
theorem stream_lt (s : StreamId) : s.code < 4 := by cases s <;> decide
theorem stream_eq {x : Nat} {s : StreamId} (h : x = s.code) : streamOf x = s := by subst h; cases s <;> rfl
theorem size_lt (z : AtomSize) : sizeBit z < 2 := by cases z <;> decide
theorem size_eq {x : Nat} {z : AtomSize} (h : x = sizeBit z) : (if x = 0 then AtomSize.w else AtomSize.d) = z := by
  subst h; cases z <;> rfl

/-! ### What the layouts put where -/

theorem low_field {k x lo m p : Nat} (h : lo + m ≤ p) : fld (k * 2 ^ p + x) lo m = fld x lo m := by
  obtain ⟨q, rfl⟩ := Nat.exists_eq_add_of_le h
  unfold fld
  rw [show k * 2 ^ (lo + m + q) + x = x + 2 ^ lo * (2 ^ m * (k * 2 ^ q)) by rw [Nat.pow_add, Nat.pow_add]; ring]
  rw [Nat.add_mul_div_left _ _ (Nat.two_pow_pos lo), Nat.add_mul_mod_self_left]

theorem of_S3 {n maj d a b f : Nat} (en : n = encS3 maj d a b f) (hm : maj < 64) (hd : d < 32) (ha : a < 32) (hb : b < 32) (hf : f < 2048) :
    n < 2 ^ 32 ∧ fld n 26 6 = maj ∧ fld n 21 5 = d ∧ fld n 16 5 = a ∧ fld n 11 5 = b ∧ fld n 0 11 = f ∧
    ∀ lo m : Nat, lo + m ≤ 11 → fld n lo m = fld f lo m := by
  subst en
  refine ⟨?_, ?_, ?_, ?_, ?_, ?_, fun lo m h => ?_⟩
  · simp only [encS3]; omega
  · simp only [encS3, fld]; omega
  · simp only [encS3, fld]; omega
  · simp only [encS3, fld]; omega
  · simp only [encS3, fld]; omega
  · simp only [encS3, fld]; omega
  · rw [show encS3 maj d a b f = (maj * 2 ^ 15 + d * 2 ^ 10 + a * 2 ^ 5 + b) * 2 ^ 11 + f by simp only [encS3]; omega]
    exact low_field h

theorem of_SI {n maj d a x : Nat} (en : n = encSI maj d a x) (hm : maj < 64) (hd : d < 32) (ha : a < 32) (hx : x < 2 ^ 16) :
    n < 2 ^ 32 ∧ fld n 26 6 = maj ∧ fld n 21 5 = d ∧ fld n 16 5 = a ∧ n % 2 ^ 16 = x ∧
    ∀ lo m : Nat, lo + m ≤ 16 → fld n lo m = fld x lo m := by
  subst en
  refine ⟨?_, ?_, ?_, ?_, ?_, fun lo m h => ?_⟩
  · simp only [encSI]; omega
  · simp only [encSI, fld]; omega
  · simp only [encSI, fld]; omega
  · simp only [encSI, fld]; omega
  · simp only [encSI]; omega
  · rw [show encSI maj d a x = (maj * 2 ^ 10 + d * 2 ^ 5 + a) * 2 ^ 16 + x by simp only [encSI]; omega]
    exact low_field h

theorem of_SX {n maj d a h s : Nat} (en : n = encSX maj d a h s) (hm : maj < 64) (hd : d < 32) (ha : a < 32) (hh : h < 64)
    (hs : s < 1024) :
    n < 2 ^ 32 ∧ fld n 26 6 = maj ∧ fld n 21 5 = d ∧ fld n 16 5 = a ∧ fld n 10 6 = h ∧
    (∀ lo m : Nat, lo + m ≤ 10 → fld n lo m = fld s lo m) ∧
    ∀ lo m : Nat, lo + m ≤ 16 → fld n lo m = fld (h * 2 ^ 10 + s) lo m := by
  subst en
  refine ⟨?_, ?_, ?_, ?_, ?_, fun lo m h' => ?_, fun lo m h' => ?_⟩
  · simp only [encSX]; omega
  · simp only [encSX, fld]; omega
  · simp only [encSX, fld]; omega
  · simp only [encSX, fld]; omega
  · simp only [encSX, fld]; omega
  · rw [show encSX maj d a h s = (maj * 2 ^ 16 + d * 2 ^ 11 + a * 2 ^ 6 + h) * 2 ^ 10 + s by simp only [encSX]; omega]
    exact low_field h'
  · rw [show encSX maj d a h s = (maj * 2 ^ 10 + d * 2 ^ 5 + a) * 2 ^ 16 + (h * 2 ^ 10 + s) by simp only [encSX]; omega]
    exact low_field h'

theorem of_VA {n maj d a b p q : Nat} (en : n = encVA maj d a b p q) (hm : maj < 64) (hd : d < 256) (ha : a < 256) (hb : b < 256)
    (hp : p < 2) (hq : q < 2) :
    n < 2 ^ 32 ∧ fld n 26 6 = maj ∧ fld n 18 8 = d ∧ fld n 10 8 = a ∧ fld n 2 8 = b ∧ n / 2 % 2 = p ∧ n % 2 = q ∧ fld n 0 1 = q := by
  subst en
  refine ⟨?_, ?_, ?_, ?_, ?_, ?_, ?_, ?_⟩
  · simp only [encVA]; omega
  all_goals simp only [encVA, fld]; omega

theorem of_VI {n maj d a p x : Nat} (en : n = encVI maj d a p x) (hm : maj < 64) (hd : d < 256) (ha : a < 256) (hp : p < 2) (hx : x < 2 ^ 9) :
    n < 2 ^ 32 ∧ fld n 26 6 = maj ∧ fld n 18 8 = d ∧ fld n 10 8 = a ∧ n / 2 ^ 9 % 2 = p ∧ n % 2 ^ 9 = x ∧
    ∀ lo m : Nat, lo + m ≤ 9 → fld n lo m = fld x lo m := by
  subst en
  refine ⟨?_, ?_, ?_, ?_, ?_, ?_, fun lo m h => ?_⟩
  · simp only [encVI]; omega
  · simp only [encVI, fld]; omega
  · simp only [encVI, fld]; omega
  · simp only [encVI, fld]; omega
  · simp only [encVI]; omega
  · simp only [encVI]; omega
  · rw [show encVI maj d a p x = (maj * 2 ^ 17 + d * 2 ^ 9 + a * 2 + p) * 2 ^ 9 + x by simp only [encVI]; omega]
    exact low_field h

theorem of_VC {n maj k op x : Nat} (en : n = encVC maj k op x) (hm : maj < 64) (hk : k < 8) (ho : op < 4) (hx : x < 2 ^ 21) :
    n < 2 ^ 32 ∧ fld n 26 6 = maj ∧ fld n 23 3 = k ∧ fld n 21 2 = op ∧ n % 2 ^ 21 = x ∧
    ∀ lo m : Nat, lo + m ≤ 21 → fld n lo m = fld x lo m := by
  subst en
  refine ⟨?_, ?_, ?_, ?_, ?_, fun lo m h => ?_⟩
  · simp only [encVC]; omega
  · simp only [encVC, fld]; omega
  · simp only [encVC, fld]; omega
  · simp only [encVC, fld]; omega
  · simp only [encVC]; omega
  · rw [show encVC maj k op x = (maj * 2 ^ 5 + k * 2 ^ 2 + op) * 2 ^ 21 + x by simp only [encVC]; omega]
    exact low_field h

theorem of_VK {n maj k x : Nat} (en : n = encVC maj k 0 x) (hm : maj < 64) (hk : k < 8) (hx : x < 2 ^ 23) :
    n < 2 ^ 32 ∧ fld n 26 6 = maj ∧ fld n 23 3 = k ∧ n % 2 ^ 23 = x := by
  subst en
  refine ⟨?_, ?_, ?_, ?_⟩
  · simp only [encVC]; omega
  all_goals simp only [encVC, fld]; omega

theorem of_copy {n maj d s l x : Nat} (en : n = encCopy maj d s l x) (hm : maj < 64) (hd : d < 1024) (hs : s < 1024) (hl : l < 8)
    (hx : x < 8) :
    n < 2 ^ 32 ∧ fld n 26 6 = maj ∧ fld n 16 10 = d ∧ fld n 6 10 = s ∧ fld n 3 3 = l ∧ fld n 0 3 = x := by
  subst en
  refine ⟨?_, ?_, ?_, ?_, ?_, ?_⟩
  · simp only [encCopy]; omega
  all_goals simp only [encCopy, fld]; omega

theorem of_acc {n maj t r p w x : Nat} (en : n = maj * 2 ^ 26 + t * 2 ^ 18 + r * 2 ^ 6 + p * 2 ^ 3 + w * 2 ^ 2 + x) (hm : maj < 64)
    (ht : t < 256) (hr : r < 2 ^ 12) (hp : p < 8) (hw : w < 2) (hx : x < 4) :
    n < 2 ^ 32 ∧ fld n 26 6 = maj ∧ fld n 18 8 = t ∧ n / 2 ^ 6 % 2 ^ 12 = r ∧ fld n 3 3 = p ∧ n / 2 ^ 2 % 2 = w ∧ fld n 0 2 = x := by
  subst en
  refine ⟨?_, ?_, ?_, ?_, ?_, ?_, ?_⟩
  · omega
  all_goals (first | (simp only [fld]; omega) | omega)

theorem of_ret {n maj t x : Nat} (en : n = maj * 2 ^ 26 + t * 2 ^ 18 + x * 2 ^ 15) (hm : maj < 64) (ht : t < 256) (hx : x < 8) :
    n < 2 ^ 32 ∧ fld n 26 6 = maj ∧ fld n 18 8 = t ∧ fld n 15 3 = x ∧ fld n 0 15 = 0 ∧ (x = 0 → fld n 0 18 = 0) := by
  subst en
  refine ⟨?_, ?_, ?_, ?_, ?_, fun h => ?_⟩
  · omega
  all_goals simp only [fld]; omega

theorem of_coll {n maj o c e l i : Nat} (en : n = maj * 2 ^ 26 + o * 2 ^ 22 + c * 2 ^ 18 + e * 2 ^ 8 + l * 2 ^ 5 + i * 2 ^ 2) (hm : maj < 64)
    (ho : o < 16) (hc : c < 16) (he : e < 1024) (hl : l < 8) (hi : i < 8) :
    n < 2 ^ 32 ∧ fld n 26 6 = maj ∧ fld n 22 4 = o ∧ fld n 18 4 = c ∧ fld n 8 10 = e ∧ fld n 5 3 = l ∧ fld n 2 3 = i ∧ fld n 0 2 = 0 := by
  subst en
  refine ⟨?_, ?_, ?_, ?_, ?_, ?_, ?_, ?_⟩
  · omega
  all_goals simp only [fld]; omega

/-! ### Ranges that the decoder checks -/

theorem fin_ne {k x : Nat} {h : Fin (k + 1)} (hw : decide (h ≠ 0) = true) (e : x = h.val) : (x != 0) = true := by
  subst e
  exact bne_iff_ne.mpr (fun z => (of_decide_eq_true hw) (Fin.ext z))

theorem bits_ne {k x : Nat} {v : BitVec k} (hw : decide (v ≠ 0) = true) (e : x = v.toNat) : (x != 0) = true := by
  subst e
  exact bne_iff_ne.mpr (fun z => (of_decide_eq_true hw) (BitVec.eq_of_toNat_eq (z.trans (BitVec.toNat_ofNat 0 k).symm)))

/-! ### What each major opcode decodes -/

theorem seq_01 {n : Nat} (h : fld n 26 6 = 0x01) : decodeSeq 3 n = (decodeInteger n) := by
  unfold decodeSeq; rw [h]; rfl

theorem seq_02 {n : Nat} (h : fld n 26 6 = 0x02) : decodeSeq 3 n = (.ok (.addi (fRd n) (fRa n) (fImm n))) := by
  unfold decodeSeq; rw [h]; rfl

theorem seq_03 {n : Nat} (h : fld n 26 6 = 0x03) : decodeSeq 3 n = (.ok (.andi (fRd n) (fRa n) (fImm n))) := by
  unfold decodeSeq; rw [h]; rfl

theorem seq_04 {n : Nat} (h : fld n 26 6 = 0x04) : decodeSeq 3 n = (.ok (.ori (fRd n) (fRa n) (fImm n))) := by
  unfold decodeSeq; rw [h]; rfl

theorem seq_05 {n : Nat} (h : fld n 26 6 = 0x05) : decodeSeq 3 n = (.ok (.xori (fRd n) (fRa n) (fImm n))) := by
  unfold decodeSeq; rw [h]; rfl

theorem seq_06 {n : Nat} (h : fld n 26 6 = 0x06) : decodeSeq 3 n = (decodeShift n) := by
  unfold decodeSeq; rw [h]; rfl

theorem seq_07 {n : Nat} (h : fld n 26 6 = 0x07) : decodeSeq 3 n = (.ok (.slti (fRd n) (fRa n) (fImm n))) := by
  unfold decodeSeq; rw [h]; rfl

theorem seq_08 {n : Nat} (h : fld n 26 6 = 0x08) : decodeSeq 3 n = (need (fld n 16 5 == 0) .reserved (.ok (.movi (fRd n) (fImm n)))) := by
  unfold decodeSeq; rw [h]; rfl

theorem seq_09 {n : Nat} (h : fld n 26 6 = 0x09) : decodeSeq 3 n = (need (fld n 18 3 == 0) .reserved (.ok (.movk (fRd n) (finOf 4 (n / 2 ^ 16)) (fImm n)))) := by
  unfold decodeSeq; rw [h]; rfl

theorem seq_0A {n : Nat} (h : fld n 26 6 = 0x0A) : decodeSeq 3 n = (.ok (.beq (fRd n) (fRa n) (fImm n))) := by
  unfold decodeSeq; rw [h]; rfl

theorem seq_0B {n : Nat} (h : fld n 26 6 = 0x0B) : decodeSeq 3 n = (.ok (.bne (fRd n) (fRa n) (fImm n))) := by
  unfold decodeSeq; rw [h]; rfl

theorem seq_0C {n : Nat} (h : fld n 26 6 = 0x0C) : decodeSeq 3 n = (.ok (.blt (fRd n) (fRa n) (fImm n))) := by
  unfold decodeSeq; rw [h]; rfl

theorem seq_0D {n : Nat} (h : fld n 26 6 = 0x0D) : decodeSeq 3 n = (.ok (.bge (fRd n) (fRa n) (fImm n))) := by
  unfold decodeSeq; rw [h]; rfl

theorem seq_0E {n : Nat} (h : fld n 26 6 = 0x0E) : decodeSeq 3 n = (.ok (.bltn (fRd n) (fRa n) (fImm n))) := by
  unfold decodeSeq; rw [h]; rfl

theorem seq_0F {n : Nat} (h : fld n 26 6 = 0x0F) : decodeSeq 3 n = (.ok (.bgen (fRd n) (fRa n) (fImm n))) := by
  unfold decodeSeq; rw [h]; rfl

theorem seq_10 {n : Nat} (h : fld n 26 6 = 0x10) : decodeSeq 3 n = (.ok (.jal (fRd n) (BitVec.ofNat 21 n))) := by
  unfold decodeSeq; rw [h]; rfl

theorem seq_11 {n : Nat} (h : fld n 26 6 = 0x11) : decodeSeq 3 n = (.ok (.jalr (fRd n) (fRa n) (fImm n))) := by
  unfold decodeSeq; rw [h]; rfl

theorem seq_12 {n : Nat} (h : fld n 26 6 = 0x12) : decodeSeq 3 n = (.ok (.ldB (fRd n) (fRa n) (fImm n))) := by
  unfold decodeSeq; rw [h]; rfl

theorem seq_13 {n : Nat} (h : fld n 26 6 = 0x13) : decodeSeq 3 n = (.ok (.ldBs (fRd n) (fRa n) (fImm n))) := by
  unfold decodeSeq; rw [h]; rfl

theorem seq_14 {n : Nat} (h : fld n 26 6 = 0x14) : decodeSeq 3 n = (.ok (.ldH (fRd n) (fRa n) (fImm n))) := by
  unfold decodeSeq; rw [h]; rfl

theorem seq_15 {n : Nat} (h : fld n 26 6 = 0x15) : decodeSeq 3 n = (.ok (.ldHs (fRd n) (fRa n) (fImm n))) := by
  unfold decodeSeq; rw [h]; rfl

theorem seq_16 {n : Nat} (h : fld n 26 6 = 0x16) : decodeSeq 3 n = (.ok (.ldW (fRd n) (fRa n) (fImm n))) := by
  unfold decodeSeq; rw [h]; rfl

theorem seq_17 {n : Nat} (h : fld n 26 6 = 0x17) : decodeSeq 3 n = (.ok (.ldWs (fRd n) (fRa n) (fImm n))) := by
  unfold decodeSeq; rw [h]; rfl

theorem seq_18 {n : Nat} (h : fld n 26 6 = 0x18) : decodeSeq 3 n = (.ok (.ldD (fRd n) (fRa n) (fImm n))) := by
  unfold decodeSeq; rw [h]; rfl

theorem seq_19 {n : Nat} (h : fld n 26 6 = 0x19) : decodeSeq 3 n = (.ok (.stB (fRd n) (fRa n) (fImm n))) := by
  unfold decodeSeq; rw [h]; rfl

theorem seq_1A {n : Nat} (h : fld n 26 6 = 0x1A) : decodeSeq 3 n = (.ok (.stH (fRd n) (fRa n) (fImm n))) := by
  unfold decodeSeq; rw [h]; rfl

theorem seq_1B {n : Nat} (h : fld n 26 6 = 0x1B) : decodeSeq 3 n = (.ok (.stW (fRd n) (fRa n) (fImm n))) := by
  unfold decodeSeq; rw [h]; rfl

theorem seq_1C {n : Nat} (h : fld n 26 6 = 0x1C) : decodeSeq 3 n = (.ok (.stD (fRd n) (fRa n) (fImm n))) := by
  unfold decodeSeq; rw [h]; rfl

theorem seq_1D {n : Nat} (h : fld n 26 6 = 0x1D) : decodeSeq 3 n = (decodeAtom n) := by
  unfold decodeSeq; rw [h]; rfl

theorem seq_1E {n : Nat} (h : fld n 26 6 = 0x1E) : decodeSeq 3 n = (decodeOrder n) := by
  unfold decodeSeq; rw [h]; rfl

theorem seq_1F {n : Nat} (h : fld n 26 6 = 0x1F) : decodeSeq 3 n = (decodeHandle n) := by
  unfold decodeSeq; rw [h]; rfl

theorem seq_20 {n : Nat} (h : fld n 26 6 = 0x20) : decodeSeq 3 n = (decodeEng n) := by
  unfold decodeSeq; rw [h]; rfl

theorem seq_21 {n : Nat} (h : fld n 26 6 = 0x21) : decodeSeq 3 n = (decodeSync n) := by
  unfold decodeSeq; rw [h]; rfl

theorem seq_22 {n : Nat} (h : fld n 26 6 = 0x22) : decodeSeq 3 n = (need (fld n 0 26 == 0) .reserved (.ok .crewBar)) := by
  unfold decodeSeq; rw [h]; rfl

theorem seq_23 {n : Nat} (h : fld n 26 6 = 0x23) : decodeSeq 3 n = (need (fld n 21 5 == 0) .reserved <|
      need (fld n 0 11 == 0) .reserved <|
      .ok (.wqPush (fRa n) (fRb n))) := by
  unfold decodeSeq; rw [h]; rfl

theorem seq_24 {n : Nat} (h : fld n 26 6 = 0x24) : decodeSeq 3 n = (need (fld n 24 2 == 0) .reserved <|
      need (fld n 0 16 == 0) .reserved <|
      .ok (.viewSet (finOf 8 (n / 2 ^ 21)) (fRa n))) := by
  unfold decodeSeq; rw [h]; rfl

theorem seq_25 {n : Nat} (h : fld n 26 6 = 0x25) : decodeSeq 3 n = (decodeMend n) := by
  unfold decodeSeq; rw [h]; rfl

theorem seq_26 {n : Nat} (h : fld n 26 6 = 0x26) : decodeSeq 3 n = (need (decide (2 ≤ 3)) .unassigned (decodeCinch n)) := by
  unfold decodeSeq; rw [h]; rfl

theorem seq_27 {n : Nat} (h : fld n 26 6 = 0x27) : decodeSeq 3 n = (decodeClock n) := by
  unfold decodeSeq; rw [h]; rfl

theorem seq_28 {n : Nat} (h : fld n 26 6 = 0x28) : decodeSeq 3 n = (need (decide (2 ≤ 3)) .unassigned (decodeStamp n .stStamp)) := by
  unfold decodeSeq; rw [h]; rfl

theorem seq_29 {n : Nat} (h : fld n 26 6 = 0x29) : decodeSeq 3 n = (need (decide (2 ≤ 3)) .unassigned (decodeStamp n .ldAsof)) := by
  unfold decodeSeq; rw [h]; rfl

theorem seq_2A {n : Nat} (h : fld n 26 6 = 0x2A) : decodeSeq 3 n = (need (decide (3 ≤ 3)) .unassigned (decodeBillet n)) := by
  unfold decodeSeq; rw [h]; rfl

theorem seq_2B {n : Nat} (h : fld n 26 6 = 0x2B) : decodeSeq 3 n = (need (fld n 0 26 == 0) .reserved (.ok .yield)) := by
  unfold decodeSeq; rw [h]; rfl

theorem seq_2C {n : Nat} (h : fld n 26 6 = 0x2C) : decodeSeq 3 n = (decodeCsr n) := by
  unfold decodeSeq; rw [h]; rfl

theorem seq_2D {n : Nat} (h : fld n 26 6 = 0x2D) : decodeSeq 3 n = (decodeTrap n) := by
  unfold decodeSeq; rw [h]; rfl

theorem seq_2E {n : Nat} (h : fld n 26 6 = 0x2E) : decodeSeq 3 n = (need (fld n 21 5 == 0) .reserved <|
      need (fld n 18 3 == 0) .reserved <|
      .ok (.injStrike (streamOf (fld n 16 2)) (fImm n))) := by
  unfold decodeSeq; rw [h]; rfl

theorem seq_2F {n : Nat} (h : fld n 26 6 = 0x2F) : decodeSeq 3 n = (match fld n 0 26 with
      | 0 => .ok .nop
      | 1 => .ok .endProg
      | _ => .error .badCode) := by
  unfold decodeSeq; rw [h]; rfl

theorem vec_01 {n : Nat} (h : fld n 26 6 = 0x01) : decodeVec 3 n = (decodeVab n .vAdd) := by
  unfold decodeVec; rw [h]; rfl

theorem vec_02 {n : Nat} (h : fld n 26 6 = 0x02) : decodeVec 3 n = (decodeVab n .vSub) := by
  unfold decodeVec; rw [h]; rfl

theorem vec_03 {n : Nat} (h : fld n 26 6 = 0x03) : decodeVec 3 n = (decodeVab n .vMul) := by
  unfold decodeVec; rw [h]; rfl

theorem vec_04 {n : Nat} (h : fld n 26 6 = 0x04) : decodeVec 3 n = (decodeVab n .vFma) := by
  unfold decodeVec; rw [h]; rfl

theorem vec_05 {n : Nat} (h : fld n 26 6 = 0x05) : decodeVec 3 n = (decodeVab n .vMin) := by
  unfold decodeVec; rw [h]; rfl

theorem vec_06 {n : Nat} (h : fld n 26 6 = 0x06) : decodeVec 3 n = (decodeVab n .vMax) := by
  unfold decodeVec; rw [h]; rfl

theorem vec_07 {n : Nat} (h : fld n 26 6 = 0x07) : decodeVec 3 n = (decodeVa n .vAbs) := by
  unfold decodeVec; rw [h]; rfl

theorem vec_08 {n : Nat} (h : fld n 26 6 = 0x08) : decodeVec 3 n = (decodeVa n .vNeg) := by
  unfold decodeVec; rw [h]; rfl

theorem vec_09 {n : Nat} (h : fld n 26 6 = 0x09) : decodeVec 3 n = (decodeVab n .vAnd) := by
  unfold decodeVec; rw [h]; rfl

theorem vec_0A {n : Nat} (h : fld n 26 6 = 0x0A) : decodeVec 3 n = (decodeVab n .vOr) := by
  unfold decodeVec; rw [h]; rfl

theorem vec_0B {n : Nat} (h : fld n 26 6 = 0x0B) : decodeVec 3 n = (decodeVab n .vXor) := by
  unfold decodeVec; rw [h]; rfl

theorem vec_0C {n : Nat} (h : fld n 26 6 = 0x0C) : decodeVec 3 n = (decodeVab n .vShl) := by
  unfold decodeVec; rw [h]; rfl

theorem vec_0D {n : Nat} (h : fld n 26 6 = 0x0D) : decodeVec 3 n = (decodeVab n .vShr) := by
  unfold decodeVec; rw [h]; rfl

theorem vec_0E {n : Nat} (h : fld n 26 6 = 0x0E) : decodeVec 3 n = (decodeVab n .vSar) := by
  unfold decodeVec; rw [h]; rfl

theorem vec_0F {n : Nat} (h : fld n 26 6 = 0x0F) : decodeVec 3 n = (decodeCmp n .vCmpeq) := by
  unfold decodeVec; rw [h]; rfl

theorem vec_10 {n : Nat} (h : fld n 26 6 = 0x10) : decodeVec 3 n = (decodeCmp n .vCmplt) := by
  unfold decodeVec; rw [h]; rfl

theorem vec_11 {n : Nat} (h : fld n 26 6 = 0x11) : decodeVec 3 n = (decodeCmp n .vCmple) := by
  unfold decodeVec; rw [h]; rfl

theorem vec_12 {n : Nat} (h : fld n 26 6 = 0x12) : decodeVec 3 n = (decodeVab n .vSel) := by
  unfold decodeVec; rw [h]; rfl

theorem vec_13 {n : Nat} (h : fld n 26 6 = 0x13) : decodeVec 3 n = (need (fld n 2 4 == 0) .reserved <|
      need (fld n 0 1 == 0) .reserved <|
      (match etypeOf 3 (fld n 6 4) with
      | some t => .ok (.vCvt (fVd n) (fVa n) t (fWa n))
      | none => .error .badCode)) := by
  unfold decodeVec; rw [h]; rfl

theorem vec_14 {n : Nat} (h : fld n 26 6 = 0x14) : decodeVec 3 n = (decodeVi n .vAddi) := by
  unfold decodeVec; rw [h]; rfl

theorem vec_15 {n : Nat} (h : fld n 26 6 = 0x15) : decodeVec 3 n = (decodeVi n .vMuli) := by
  unfold decodeVec; rw [h]; rfl

theorem vec_16 {n : Nat} (h : fld n 26 6 = 0x16) : decodeVec 3 n = (need (fld n 9 9 == 0) .reserved (.ok (.vMovi (fVd n) (BitVec.ofNat 9 n)))) := by
  unfold decodeVec; rw [h]; rfl

theorem vec_17 {n : Nat} (h : fld n 26 6 = 0x17) : decodeVec 3 n = (decodeVi n .vBcast) := by
  unfold decodeVec; rw [h]; rfl

theorem vec_18 {n : Nat} (h : fld n 26 6 = 0x18) : decodeVec 3 n = (decodeVab n .vPerm) := by
  unfold decodeVec; rw [h]; rfl

theorem vec_19 {n : Nat} (h : fld n 26 6 = 0x19) : decodeVec 3 n = (decodeVa n .vRedsum) := by
  unfold decodeVec; rw [h]; rfl

theorem vec_1A {n : Nat} (h : fld n 26 6 = 0x1A) : decodeVec 3 n = (decodeVa n .vRedmax) := by
  unfold decodeVec; rw [h]; rfl

theorem vec_1B {n : Nat} (h : fld n 26 6 = 0x1B) : decodeVec 3 n = (decodeVa n .vRedmin) := by
  unfold decodeVec; rw [h]; rfl

theorem vec_1C {n : Nat} (h : fld n 26 6 = 0x1C) : decodeVec 3 n = (decodeVa n .vArgmax) := by
  unfold decodeVec; rw [h]; rfl

theorem vec_1D {n : Nat} (h : fld n 26 6 = 0x1D) : decodeVec 3 n = (need (fld n 10 2 == 0) .reserved <|
      need (fld n 5 5 == 0) .reserved <|
      need (fld n 0 2 == 0) .reserved <|
      need (fld n 12 6 != 0) .outOfRange <|
      .ok (.vLd (fVd n) (finOf 64 (n / 2 ^ 12)) (finOf 8 (n / 2 ^ 2)))) := by
  unfold decodeVec; rw [h]; rfl

theorem vec_1E {n : Nat} (h : fld n 26 6 = 0x1E) : decodeVec 3 n = (need (fld n 10 2 == 0) .reserved <|
      need (fld n 5 5 == 0) .reserved <|
      need (fld n 0 1 == 0) .reserved <|
      need (fld n 12 6 != 0) .outOfRange <|
      .ok (.vSt (fVd n) (finOf 64 (n / 2 ^ 12)) (finOf 8 (n / 2 ^ 2)) (fWa n))) := by
  unfold decodeVec; rw [h]; rfl

theorem vec_1F {n : Nat} (h : fld n 26 6 = 0x1F) : decodeVec 3 n = (need (fld n 2 2 == 0) .reserved <|
      need (fld n 0 1 == 0) .reserved <|
      .ok (.vGather (fVd n) (fVa n) (finOf 64 (n / 2 ^ 4)) (fWa n))) := by
  unfold decodeVec; rw [h]; rfl

theorem vec_20 {n : Nat} (h : fld n 26 6 = 0x20) : decodeVec 3 n = (need (fld n 2 2 == 0) .reserved <|
      .ok (.vScatter (fVd n) (fVa n) (finOf 64 (n / 2 ^ 4)) (fWa n) (fWb n))) := by
  unfold decodeVec; rw [h]; rfl

theorem vec_21 {n : Nat} (h : fld n 26 6 = 0x21) : decodeVec 3 n = (decodeVa n .vRcpa) := by
  unfold decodeVec; rw [h]; rfl

theorem vec_22 {n : Nat} (h : fld n 26 6 = 0x22) : decodeVec 3 n = (decodeVa n .vRsqa) := by
  unfold decodeVec; rw [h]; rfl

theorem vec_23 {n : Nat} (h : fld n 26 6 = 0x23) : decodeVec 3 n = (decodeVab n .vRcpf) := by
  unfold decodeVec; rw [h]; rfl

theorem vec_24 {n : Nat} (h : fld n 26 6 = 0x24) : decodeVec 3 n = (decodeVab n .vRsqf) := by
  unfold decodeVec; rw [h]; rfl

theorem vec_25 {n : Nat} (h : fld n 26 6 = 0x25) : decodeVec 3 n = (decodeCor n) := by
  unfold decodeVec; rw [h]; rfl

theorem vec_26 {n : Nat} (h : fld n 26 6 = 0x26) : decodeVec 3 n = (decodeVa n .vSigq) := by
  unfold decodeVec; rw [h]; rfl

theorem vec_27 {n : Nat} (h : fld n 26 6 = 0x27) : decodeVec 3 n = (decodeVa n .vCdfq) := by
  unfold decodeVec; rw [h]; rfl

theorem vec_28 {n : Nat} (h : fld n 26 6 = 0x28) : decodeVec 3 n = (decodeVab n .vHash) := by
  unfold decodeVec; rw [h]; rfl

theorem vec_29 {n : Nat} (h : fld n 26 6 = 0x29) : decodeVec 3 n = (decodeVab n .vNoise) := by
  unfold decodeVec; rw [h]; rfl

theorem vec_2A {n : Nat} (h : fld n 26 6 = 0x2A) : decodeVec 3 n = (decodeVi n .vBitt) := by
  unfold decodeVec; rw [h]; rfl

theorem vec_2B {n : Nat} (h : fld n 26 6 = 0x2B) : decodeVec 3 n = (decodeVa n .vClz) := by
  unfold decodeVec; rw [h]; rfl

theorem vec_2C {n : Nat} (h : fld n 26 6 = 0x2C) : decodeVec 3 n = (decodeVa n .vPopc) := by
  unfold decodeVec; rw [h]; rfl

theorem vec_2D {n : Nat} (h : fld n 26 6 = 0x2D) : decodeVec 3 n = (decodeShape 3 n) := by
  unfold decodeVec; rw [h]; rfl

theorem vec_2E {n : Nat} (h : fld n 26 6 = 0x2E) : decodeVec 3 n = (decodeMask n) := by
  unfold decodeVec; rw [h]; rfl

theorem vec_2F {n : Nat} (h : fld n 26 6 = 0x2F) : decodeVec 3 n = (decodeLoop n .vLoop) := by
  unfold decodeVec; rw [h]; rfl

theorem vec_30 {n : Nat} (h : fld n 26 6 = 0x30) : decodeVec 3 n = (decodeBr n .vBr) := by
  unfold decodeVec; rw [h]; rfl

theorem vec_31 {n : Nat} (h : fld n 26 6 = 0x31) : decodeVec 3 n = (decodeKop n .vKop .vKopAdd .vKopMov) := by
  unfold decodeVec; rw [h]; rfl

theorem vec_32 {n : Nat} (h : fld n 26 6 = 0x32) : decodeVec 3 n = (decodeEngMend n .vMendOpen .vMendSave .vMendClose) := by
  unfold decodeVec; rw [h]; rfl

theorem vec_33 {n : Nat} (h : fld n 26 6 = 0x33) : decodeVec 3 n = (need (fld n 0 26 == 0) .reserved (.ok .vEnd)) := by
  unfold decodeVec; rw [h]; rfl

theorem vec_34 {n : Nat} (h : fld n 26 6 = 0x34) : decodeVec 3 n = (need (decide (2 ≤ 3)) .unassigned (decodeRcInit n)) := by
  unfold decodeVec; rw [h]; rfl

theorem vec_35 {n : Nat} (h : fld n 26 6 = 0x35) : decodeVec 3 n = (need (decide (2 ≤ 3)) .unassigned <|
      need (fld n 0 1 == 0) .reserved (.ok (.rcDec (fVd n) (fVa n) (fVb n) (fWa n)))) := by
  unfold decodeVec; rw [h]; rfl

theorem vec_36 {n : Nat} (h : fld n 26 6 = 0x36) : decodeVec 3 n = (need (decide (2 ≤ 3)) .unassigned <|
      need (fld n 0 1 == 0) .reserved (.ok (.rcDecm (fVd n) (fVa n) (fVb n) (fWa n)))) := by
  unfold decodeVec; rw [h]; rfl

theorem vec_37 {n : Nat} (h : fld n 26 6 = 0x37) : decodeVec 3 n = (need (decide (2 ≤ 3)) .unassigned (decodeVab n .rcEnc)) := by
  unfold decodeVec; rw [h]; rfl

theorem vec_38 {n : Nat} (h : fld n 26 6 = 0x38) : decodeVec 3 n = (need (decide (2 ≤ 3)) .unassigned (decodeVab n .rcEncm)) := by
  unfold decodeVec; rw [h]; rfl

theorem vec_39 {n : Nat} (h : fld n 26 6 = 0x39) : decodeVec 3 n = (need (decide (2 ≤ 3)) .unassigned (decodeRc n .rcFlush)) := by
  unfold decodeVec; rw [h]; rfl

theorem vec_3A {n : Nat} (h : fld n 26 6 = 0x3A) : decodeVec 3 n = (need (decide (2 ≤ 3)) .unassigned (decodeRc n .rcSpec)) := by
  unfold decodeVec; rw [h]; rfl

theorem vec_3B {n : Nat} (h : fld n 26 6 = 0x3B) : decodeVec 3 n = (need (decide (2 ≤ 3)) .unassigned (decodeRc n .rcKeep)) := by
  unfold decodeVec; rw [h]; rfl

theorem vec_3C {n : Nat} (h : fld n 26 6 = 0x3C) : decodeVec 3 n = (need (decide (2 ≤ 3)) .unassigned (decodeRc n .rcUndo)) := by
  unfold decodeVec; rw [h]; rfl

theorem vec_3D {n : Nat} (h : fld n 26 6 = 0x3D) : decodeVec 3 n = (need (decide (2 ≤ 3)) .unassigned <|
      need (fld n 10 8 == 0) .reserved <|
      need (fld n 0 2 == 0) .reserved (.ok (.rcStat (fVd n) (fVb n)))) := by
  unfold decodeVec; rw [h]; rfl

theorem vec_3E {n : Nat} (h : fld n 26 6 = 0x3E) : decodeVec 3 n = (need (fld n 0 26 == 0) .reserved (.ok .vMark)) := by
  unfold decodeVec; rw [h]; rfl

theorem mat_01 {n : Nat} (h : fld n 26 6 = 0x01) : decodeMat 3 n = (need (fld n 0 13 == 0) .reserved <|
      need (decide (1 ≤ fld n 13 11) && decide (fld n 13 11 ≤ 1024)) .outOfRange <|
      (match modeOf (fld n 24 2) with
      | some m => .ok (.mBegin m (BitVec.ofNat 11 (n / 2 ^ 13)))
      | none => .error .badCode)) := by
  unfold decodeMat; rw [h]; rfl

theorem mat_02 {n : Nat} (h : fld n 26 6 = 0x02) : decodeMat 3 n = (need (fld n 0 26 == 0) .reserved (.ok .mZero)) := by
  unfold decodeMat; rw [h]; rfl

theorem mat_03 {n : Nat} (h : fld n 26 6 = 0x03) : decodeMat 3 n = (decodeMt n .mLdacc) := by
  unfold decodeMat; rw [h]; rfl

theorem mat_04 {n : Nat} (h : fld n 26 6 = 0x04) : decodeMat 3 n = (need (fld n 3 3 == 0) .reserved <|
      need (fld n 0 2 == 0) .reserved (.ok (.mAcc (fVd n) (fRow n) (fMw n)))) := by
  unfold decodeMat; rw [h]; rfl

theorem mat_05 {n : Nat} (h : fld n 26 6 = 0x05) : decodeMat 3 n = (need (fld n 0 2 == 0) .reserved (.ok (.mAcc8 (fVd n) (fRow n) (finOf 8 (n / 2 ^ 3)) (fMw n)))) := by
  unfold decodeMat; rw [h]; rfl

theorem mat_06 {n : Nat} (h : fld n 26 6 = 0x06) : decodeMat 3 n = ((match fld n 0 2 with
      | 1 => need (fld n 3 3 == 0) .reserved (.ok (.mAccsTern (fVd n) (fRow n) (fMw n)))
      | 2 => .ok (.mAccsInt8 (fVd n) (fRow n) (finOf 8 (n / 2 ^ 3)) (fMw n))
      | _ => .error .badCode)) := by
  unfold decodeMat; rw [h]; rfl

theorem mat_07 {n : Nat} (h : fld n 26 6 = 0x07) : decodeMat 3 n = (decodeMt n .mSeg) := by
  unfold decodeMat; rw [h]; rfl

theorem mat_08 {n : Nat} (h : fld n 26 6 = 0x08) : decodeMat 3 n = (need (fld n 3 7 == 0) .reserved <|
      need (fld n 0 2 == 0) .reserved (.ok (.mScale (fVd n) (fVa n) (fMw n)))) := by
  unfold decodeMat; rw [h]; rfl

theorem mat_09 {n : Nat} (h : fld n 26 6 = 0x09) : decodeMat 3 n = (need (fld n 0 15 == 0) .reserved <|
      (match fld n 15 3 with
      | 0 => .ok (.mRetF32 (fVd n))
      | 1 => .ok (.mRetBf16 (fVd n))
      | 2 => need (decide (3 ≤ 3)) .badCode (.ok (.mRetF32Add (fVd n)))
      | _ => .error .badCode)) := by
  unfold decodeMat; rw [h]; rfl

theorem mat_0A {n : Nat} (h : fld n 26 6 = 0x0A) : decodeMat 3 n = (need (fld n 0 18 == 0) .reserved (.ok (.mRetraw (fVd n)))) := by
  unfold decodeMat; rw [h]; rfl

theorem mat_0B {n : Nat} (h : fld n 26 6 = 0x0B) : decodeMat 3 n = (need (fld n 18 8 == 0) .reserved <|
      need (fld n 0 6 == 0) .reserved (.ok (.mWbase (fRow n)))) := by
  unfold decodeMat; rw [h]; rfl

theorem mat_0C {n : Nat} (h : fld n 26 6 = 0x0C) : decodeMat 3 n = (decodeLoop n .mLoop) := by
  unfold decodeMat; rw [h]; rfl

theorem mat_0D {n : Nat} (h : fld n 26 6 = 0x0D) : decodeMat 3 n = (decodeBr n .mBr) := by
  unfold decodeMat; rw [h]; rfl

theorem mat_0E {n : Nat} (h : fld n 26 6 = 0x0E) : decodeMat 3 n = (decodeKop n .mKop .mKopAdd .mKopMov) := by
  unfold decodeMat; rw [h]; rfl

theorem mat_0F {n : Nat} (h : fld n 26 6 = 0x0F) : decodeMat 3 n = (need (fld n 0 11 == 0) .reserved <|
      .ok (.mPert (BitVec.ofNat 6 (n / 2 ^ 20)) (BitVec.ofNat 6 (n / 2 ^ 14)) (finOf 8 (n / 2 ^ 11)))) := by
  unfold decodeMat; rw [h]; rfl

theorem mat_10 {n : Nat} (h : fld n 26 6 = 0x10) : decodeMat 3 n = (need (fld n 0 26 == 0) .reserved (.ok .mEnd)) := by
  unfold decodeMat; rw [h]; rfl

theorem xfer_01 {n : Nat} (h : fld n 26 6 = 0x01) : decodeXfer n = (need (fld n 0 3 == 0) .reserved (decodeCopy n .xCopy)) := by
  unfold decodeXfer; rw [h]; rfl

theorem xfer_02 {n : Nat} (h : fld n 26 6 = 0x02) : decodeXfer n = ((match shapeFieldOf (fld n 22 4) with
      | none => .error .badCode
      | some f =>
        if fld n 21 1 = 0 then .ok (.xShapeImm f (BitVec.ofNat 21 n))
        else need (fld n 0 18 == 0) .reserved (.ok (.xShapeReg f (finOf 8 (n / 2 ^ 18)))))) := by
  unfold decodeXfer; rw [h]; rfl

theorem xfer_03 {n : Nat} (h : fld n 26 6 = 0x03) : decodeXfer n = (need (fld n 0 3 == 0) .reserved (decodeCopy n .xUnfold)) := by
  unfold decodeXfer; rw [h]; rfl

theorem xfer_04 {n : Nat} (h : fld n 26 6 = 0x04) : decodeXfer n = ((match winFieldOf (fld n 22 4) with
      | none => .error .badCode
      | some f =>
        if fld n 21 1 = 0 then .ok (.xWinImm f (BitVec.ofNat 21 n))
        else need (fld n 0 18 == 0) .reserved (.ok (.xWinReg f (finOf 8 (n / 2 ^ 18)))))) := by
  unfold decodeXfer; rw [h]; rfl

theorem xfer_05 {n : Nat} (h : fld n 26 6 = 0x05) : decodeXfer n = ((match fld n 0 3 with
      | 0 => decodeCopy n .xUnpackT5p
      | 1 => decodeCopy n .xUnpackBsi8
      | 2 => decodeCopy n .xUnpackSp24
      | 3 => decodeCopy n .xUnpackZrun
      | _ => .error .badCode)) := by
  unfold decodeXfer; rw [h]; rfl

theorem xfer_06 {n : Nat} (h : fld n 26 6 = 0x06) : decodeXfer n = (need (fld n 0 3 == 0) .reserved (decodeCopy n .xConv)) := by
  unfold decodeXfer; rw [h]; rfl

theorem xfer_07 {n : Nat} (h : fld n 26 6 = 0x07) : decodeXfer n = (need (fld n 0 3 == 0) .reserved (decodeCopy n .xMcast)) := by
  unfold decodeXfer; rw [h]; rfl

theorem xfer_08 {n : Nat} (h : fld n 26 6 = 0x08) : decodeXfer n = (decodeCopyI n .xGather) := by
  unfold decodeXfer; rw [h]; rfl

theorem xfer_09 {n : Nat} (h : fld n 26 6 = 0x09) : decodeXfer n = (decodeCopyI n .xScatter) := by
  unfold decodeXfer; rw [h]; rfl

theorem xfer_0A {n : Nat} (h : fld n 26 6 = 0x0A) : decodeXfer n = (need (fld n 6 10 == 0) .reserved <|
      (match endPtOf (fld n 16 10) with
      | .ok d => .ok (.xFill d (finOf 8 (n / 2 ^ 3)) (finOf 8 n))
      | .error r => .error r)) := by
  unfold decodeXfer; rw [h]; rfl

theorem xfer_0B {n : Nat} (h : fld n 26 6 = 0x0B) : decodeXfer n = (need (fld n 0 1 == 0) .reserved <|
      (match endPtOf (fld n 4 10) with
      | .ok s => .ok (.xWbfill (BitVec.ofNat 12 (n / 2 ^ 14)) s (finOf 8 (n / 2)))
      | .error r => .error r)) := by
  unfold decodeXfer; rw [h]; rfl

theorem xfer_0C {n : Nat} (h : fld n 26 6 = 0x0C) : decodeXfer n = (need (fld n 0 17 == 0) .reserved <|
      if fld n 20 6 = 0 then need (fld n 17 3 == 0) .reserved (.ok .xSyncDetach)
      else .ok (.xSync (finOf 64 (n / 2 ^ 20)) (finOf 8 (n / 2 ^ 17)))) := by
  unfold decodeXfer; rw [h]; rfl

theorem xfer_0D {n : Nat} (h : fld n 26 6 = 0x0D) : decodeXfer n = (need (fld n 0 26 == 0) .reserved (.ok .xClose)) := by
  unfold decodeXfer; rw [h]; rfl

theorem xfer_0E {n : Nat} (h : fld n 26 6 = 0x0E) : decodeXfer n = (need (fld n 16 10 == 0) .reserved (.ok (.xWait (BitVec.ofNat 16 n)))) := by
  unfold decodeXfer; rw [h]; rfl

theorem xfer_0F {n : Nat} (h : fld n 26 6 = 0x0F) : decodeXfer n = (decodeColl n) := by
  unfold decodeXfer; rw [h]; rfl

theorem xfer_10 {n : Nat} (h : fld n 26 6 = 0x10) : decodeXfer n = (decodeLoop n .xLoop) := by
  unfold decodeXfer; rw [h]; rfl

theorem xfer_11 {n : Nat} (h : fld n 26 6 = 0x11) : decodeXfer n = (decodeBr n .xBr) := by
  unfold decodeXfer; rw [h]; rfl

theorem xfer_12 {n : Nat} (h : fld n 26 6 = 0x12) : decodeXfer n = (decodeKop n .xKop .xKopAdd .xKopMov) := by
  unfold decodeXfer; rw [h]; rfl

theorem xfer_13 {n : Nat} (h : fld n 26 6 = 0x13) : decodeXfer n = (decodeEngMend n .xMendOpen .xMendSave .xMendClose) := by
  unfold decodeXfer; rw [h]; rfl

theorem xfer_14 {n : Nat} (h : fld n 26 6 = 0x14) : decodeXfer n = (need (fld n 0 26 == 0) .reserved (.ok .xMark)) := by
  unfold decodeXfer; rw [h]; rfl

theorem xfer_15 {n : Nat} (h : fld n 26 6 = 0x15) : decodeXfer n = (need (fld n 0 26 == 0) .reserved (.ok .xEnd)) := by
  unfold decodeXfer; rw [h]; rfl

/-! ### Words -/

theorem add (rd : Reg) (ra : Reg) (rb : Reg) : Statement (.add rd ra rb) := by
  refine of_number rfl rfl (fun n en => ?_)
  obtain ⟨lt, hmaj, f21, f16, f11, f0, -⟩ := of_S3 en (by decide) rd.isLt ra.isLt rb.isLt (by decide)
  refine ⟨lt, fun _ => ?_⟩
  have h1 : fld n 0 11 = 0 := f0
  have b_rd : fRd n = rd := fin_eq (f21)
  have b_ra : fRa n = ra := fin_eq (f16)
  have b_rb : fRb n = rb := fin_eq (f11)
  show decodeSeq 3 n = _
  rw [seq_01 hmaj]
  unfold decodeInteger
  rw [h1, b_rd, b_ra, b_rb]
  rfl

theorem sub (rd : Reg) (ra : Reg) (rb : Reg) : Statement (.sub rd ra rb) := by
  refine of_number rfl rfl (fun n en => ?_)
  obtain ⟨lt, hmaj, f21, f16, f11, f0, -⟩ := of_S3 en (by decide) rd.isLt ra.isLt rb.isLt (by decide)
  refine ⟨lt, fun _ => ?_⟩
  have h1 : fld n 0 11 = 1 := f0
  have b_rd : fRd n = rd := fin_eq (f21)
  have b_ra : fRa n = ra := fin_eq (f16)
  have b_rb : fRb n = rb := fin_eq (f11)
  show decodeSeq 3 n = _
  rw [seq_01 hmaj]
  unfold decodeInteger
  rw [h1, b_rd, b_ra, b_rb]
  rfl

theorem and (rd : Reg) (ra : Reg) (rb : Reg) : Statement (.and rd ra rb) := by
  refine of_number rfl rfl (fun n en => ?_)
  obtain ⟨lt, hmaj, f21, f16, f11, f0, -⟩ := of_S3 en (by decide) rd.isLt ra.isLt rb.isLt (by decide)
  refine ⟨lt, fun _ => ?_⟩
  have h1 : fld n 0 11 = 2 := f0
  have b_rd : fRd n = rd := fin_eq (f21)
  have b_ra : fRa n = ra := fin_eq (f16)
  have b_rb : fRb n = rb := fin_eq (f11)
  show decodeSeq 3 n = _
  rw [seq_01 hmaj]
  unfold decodeInteger
  rw [h1, b_rd, b_ra, b_rb]
  rfl

theorem or (rd : Reg) (ra : Reg) (rb : Reg) : Statement (.or rd ra rb) := by
  refine of_number rfl rfl (fun n en => ?_)
  obtain ⟨lt, hmaj, f21, f16, f11, f0, -⟩ := of_S3 en (by decide) rd.isLt ra.isLt rb.isLt (by decide)
  refine ⟨lt, fun _ => ?_⟩
  have h1 : fld n 0 11 = 3 := f0
  have b_rd : fRd n = rd := fin_eq (f21)
  have b_ra : fRa n = ra := fin_eq (f16)
  have b_rb : fRb n = rb := fin_eq (f11)
  show decodeSeq 3 n = _
  rw [seq_01 hmaj]
  unfold decodeInteger
  rw [h1, b_rd, b_ra, b_rb]
  rfl

theorem xor (rd : Reg) (ra : Reg) (rb : Reg) : Statement (.xor rd ra rb) := by
  refine of_number rfl rfl (fun n en => ?_)
  obtain ⟨lt, hmaj, f21, f16, f11, f0, -⟩ := of_S3 en (by decide) rd.isLt ra.isLt rb.isLt (by decide)
  refine ⟨lt, fun _ => ?_⟩
  have h1 : fld n 0 11 = 4 := f0
  have b_rd : fRd n = rd := fin_eq (f21)
  have b_ra : fRa n = ra := fin_eq (f16)
  have b_rb : fRb n = rb := fin_eq (f11)
  show decodeSeq 3 n = _
  rw [seq_01 hmaj]
  unfold decodeInteger
  rw [h1, b_rd, b_ra, b_rb]
  rfl

theorem shl (rd : Reg) (ra : Reg) (rb : Reg) : Statement (.shl rd ra rb) := by
  refine of_number rfl rfl (fun n en => ?_)
  obtain ⟨lt, hmaj, f21, f16, f11, f0, -⟩ := of_S3 en (by decide) rd.isLt ra.isLt rb.isLt (by decide)
  refine ⟨lt, fun _ => ?_⟩
  have h1 : fld n 0 11 = 5 := f0
  have b_rd : fRd n = rd := fin_eq (f21)
  have b_ra : fRa n = ra := fin_eq (f16)
  have b_rb : fRb n = rb := fin_eq (f11)
  show decodeSeq 3 n = _
  rw [seq_01 hmaj]
  unfold decodeInteger
  rw [h1, b_rd, b_ra, b_rb]
  rfl

theorem shr (rd : Reg) (ra : Reg) (rb : Reg) : Statement (.shr rd ra rb) := by
  refine of_number rfl rfl (fun n en => ?_)
  obtain ⟨lt, hmaj, f21, f16, f11, f0, -⟩ := of_S3 en (by decide) rd.isLt ra.isLt rb.isLt (by decide)
  refine ⟨lt, fun _ => ?_⟩
  have h1 : fld n 0 11 = 6 := f0
  have b_rd : fRd n = rd := fin_eq (f21)
  have b_ra : fRa n = ra := fin_eq (f16)
  have b_rb : fRb n = rb := fin_eq (f11)
  show decodeSeq 3 n = _
  rw [seq_01 hmaj]
  unfold decodeInteger
  rw [h1, b_rd, b_ra, b_rb]
  rfl

theorem sar (rd : Reg) (ra : Reg) (rb : Reg) : Statement (.sar rd ra rb) := by
  refine of_number rfl rfl (fun n en => ?_)
  obtain ⟨lt, hmaj, f21, f16, f11, f0, -⟩ := of_S3 en (by decide) rd.isLt ra.isLt rb.isLt (by decide)
  refine ⟨lt, fun _ => ?_⟩
  have h1 : fld n 0 11 = 7 := f0
  have b_rd : fRd n = rd := fin_eq (f21)
  have b_ra : fRa n = ra := fin_eq (f16)
  have b_rb : fRb n = rb := fin_eq (f11)
  show decodeSeq 3 n = _
  rw [seq_01 hmaj]
  unfold decodeInteger
  rw [h1, b_rd, b_ra, b_rb]
  rfl

theorem slt (rd : Reg) (ra : Reg) (rb : Reg) : Statement (.slt rd ra rb) := by
  refine of_number rfl rfl (fun n en => ?_)
  obtain ⟨lt, hmaj, f21, f16, f11, f0, -⟩ := of_S3 en (by decide) rd.isLt ra.isLt rb.isLt (by decide)
  refine ⟨lt, fun _ => ?_⟩
  have h1 : fld n 0 11 = 8 := f0
  have b_rd : fRd n = rd := fin_eq (f21)
  have b_ra : fRa n = ra := fin_eq (f16)
  have b_rb : fRb n = rb := fin_eq (f11)
  show decodeSeq 3 n = _
  rw [seq_01 hmaj]
  unfold decodeInteger
  rw [h1, b_rd, b_ra, b_rb]
  rfl

theorem sltn (rd : Reg) (ra : Reg) (rb : Reg) : Statement (.sltn rd ra rb) := by
  refine of_number rfl rfl (fun n en => ?_)
  obtain ⟨lt, hmaj, f21, f16, f11, f0, -⟩ := of_S3 en (by decide) rd.isLt ra.isLt rb.isLt (by decide)
  refine ⟨lt, fun _ => ?_⟩
  have h1 : fld n 0 11 = 9 := f0
  have b_rd : fRd n = rd := fin_eq (f21)
  have b_ra : fRa n = ra := fin_eq (f16)
  have b_rb : fRb n = rb := fin_eq (f11)
  show decodeSeq 3 n = _
  rw [seq_01 hmaj]
  unfold decodeInteger
  rw [h1, b_rd, b_ra, b_rb]
  rfl

theorem min (rd : Reg) (ra : Reg) (rb : Reg) : Statement (.min rd ra rb) := by
  refine of_number rfl rfl (fun n en => ?_)
  obtain ⟨lt, hmaj, f21, f16, f11, f0, -⟩ := of_S3 en (by decide) rd.isLt ra.isLt rb.isLt (by decide)
  refine ⟨lt, fun _ => ?_⟩
  have h1 : fld n 0 11 = 10 := f0
  have b_rd : fRd n = rd := fin_eq (f21)
  have b_ra : fRa n = ra := fin_eq (f16)
  have b_rb : fRb n = rb := fin_eq (f11)
  show decodeSeq 3 n = _
  rw [seq_01 hmaj]
  unfold decodeInteger
  rw [h1, b_rd, b_ra, b_rb]
  rfl

theorem max (rd : Reg) (ra : Reg) (rb : Reg) : Statement (.max rd ra rb) := by
  refine of_number rfl rfl (fun n en => ?_)
  obtain ⟨lt, hmaj, f21, f16, f11, f0, -⟩ := of_S3 en (by decide) rd.isLt ra.isLt rb.isLt (by decide)
  refine ⟨lt, fun _ => ?_⟩
  have h1 : fld n 0 11 = 11 := f0
  have b_rd : fRd n = rd := fin_eq (f21)
  have b_ra : fRa n = ra := fin_eq (f16)
  have b_rb : fRb n = rb := fin_eq (f11)
  show decodeSeq 3 n = _
  rw [seq_01 hmaj]
  unfold decodeInteger
  rw [h1, b_rd, b_ra, b_rb]
  rfl

theorem minn (rd : Reg) (ra : Reg) (rb : Reg) : Statement (.minn rd ra rb) := by
  refine of_number rfl rfl (fun n en => ?_)
  obtain ⟨lt, hmaj, f21, f16, f11, f0, -⟩ := of_S3 en (by decide) rd.isLt ra.isLt rb.isLt (by decide)
  refine ⟨lt, fun _ => ?_⟩
  have h1 : fld n 0 11 = 12 := f0
  have b_rd : fRd n = rd := fin_eq (f21)
  have b_ra : fRa n = ra := fin_eq (f16)
  have b_rb : fRb n = rb := fin_eq (f11)
  show decodeSeq 3 n = _
  rw [seq_01 hmaj]
  unfold decodeInteger
  rw [h1, b_rd, b_ra, b_rb]
  rfl

theorem maxn (rd : Reg) (ra : Reg) (rb : Reg) : Statement (.maxn rd ra rb) := by
  refine of_number rfl rfl (fun n en => ?_)
  obtain ⟨lt, hmaj, f21, f16, f11, f0, -⟩ := of_S3 en (by decide) rd.isLt ra.isLt rb.isLt (by decide)
  refine ⟨lt, fun _ => ?_⟩
  have h1 : fld n 0 11 = 13 := f0
  have b_rd : fRd n = rd := fin_eq (f21)
  have b_ra : fRa n = ra := fin_eq (f16)
  have b_rb : fRb n = rb := fin_eq (f11)
  show decodeSeq 3 n = _
  rw [seq_01 hmaj]
  unfold decodeInteger
  rw [h1, b_rd, b_ra, b_rb]
  rfl

theorem mul (rd : Reg) (ra : Reg) (rb : Reg) : Statement (.mul rd ra rb) := by
  refine of_number rfl rfl (fun n en => ?_)
  obtain ⟨lt, hmaj, f21, f16, f11, f0, -⟩ := of_S3 en (by decide) rd.isLt ra.isLt rb.isLt (by decide)
  refine ⟨lt, fun _ => ?_⟩
  have h1 : fld n 0 11 = 14 := f0
  have b_rd : fRd n = rd := fin_eq (f21)
  have b_ra : fRa n = ra := fin_eq (f16)
  have b_rb : fRb n = rb := fin_eq (f11)
  show decodeSeq 3 n = _
  rw [seq_01 hmaj]
  unfold decodeInteger
  rw [h1, b_rd, b_ra, b_rb]
  rfl

theorem mulh (rd : Reg) (ra : Reg) (rb : Reg) : Statement (.mulh rd ra rb) := by
  refine of_number rfl rfl (fun n en => ?_)
  obtain ⟨lt, hmaj, f21, f16, f11, f0, -⟩ := of_S3 en (by decide) rd.isLt ra.isLt rb.isLt (by decide)
  refine ⟨lt, fun _ => ?_⟩
  have h1 : fld n 0 11 = 15 := f0
  have b_rd : fRd n = rd := fin_eq (f21)
  have b_ra : fRa n = ra := fin_eq (f16)
  have b_rb : fRb n = rb := fin_eq (f11)
  show decodeSeq 3 n = _
  rw [seq_01 hmaj]
  unfold decodeInteger
  rw [h1, b_rd, b_ra, b_rb]
  rfl

theorem mulhn (rd : Reg) (ra : Reg) (rb : Reg) : Statement (.mulhn rd ra rb) := by
  refine of_number rfl rfl (fun n en => ?_)
  obtain ⟨lt, hmaj, f21, f16, f11, f0, -⟩ := of_S3 en (by decide) rd.isLt ra.isLt rb.isLt (by decide)
  refine ⟨lt, fun _ => ?_⟩
  have h1 : fld n 0 11 = 16 := f0
  have b_rd : fRd n = rd := fin_eq (f21)
  have b_ra : fRa n = ra := fin_eq (f16)
  have b_rb : fRb n = rb := fin_eq (f11)
  show decodeSeq 3 n = _
  rw [seq_01 hmaj]
  unfold decodeInteger
  rw [h1, b_rd, b_ra, b_rb]
  rfl

theorem div (rd : Reg) (ra : Reg) (rb : Reg) : Statement (.div rd ra rb) := by
  refine of_number rfl rfl (fun n en => ?_)
  obtain ⟨lt, hmaj, f21, f16, f11, f0, -⟩ := of_S3 en (by decide) rd.isLt ra.isLt rb.isLt (by decide)
  refine ⟨lt, fun _ => ?_⟩
  have h1 : fld n 0 11 = 17 := f0
  have b_rd : fRd n = rd := fin_eq (f21)
  have b_ra : fRa n = ra := fin_eq (f16)
  have b_rb : fRb n = rb := fin_eq (f11)
  show decodeSeq 3 n = _
  rw [seq_01 hmaj]
  unfold decodeInteger
  rw [h1, b_rd, b_ra, b_rb]
  rfl

theorem divn (rd : Reg) (ra : Reg) (rb : Reg) : Statement (.divn rd ra rb) := by
  refine of_number rfl rfl (fun n en => ?_)
  obtain ⟨lt, hmaj, f21, f16, f11, f0, -⟩ := of_S3 en (by decide) rd.isLt ra.isLt rb.isLt (by decide)
  refine ⟨lt, fun _ => ?_⟩
  have h1 : fld n 0 11 = 18 := f0
  have b_rd : fRd n = rd := fin_eq (f21)
  have b_ra : fRa n = ra := fin_eq (f16)
  have b_rb : fRb n = rb := fin_eq (f11)
  show decodeSeq 3 n = _
  rw [seq_01 hmaj]
  unfold decodeInteger
  rw [h1, b_rd, b_ra, b_rb]
  rfl

theorem rem (rd : Reg) (ra : Reg) (rb : Reg) : Statement (.rem rd ra rb) := by
  refine of_number rfl rfl (fun n en => ?_)
  obtain ⟨lt, hmaj, f21, f16, f11, f0, -⟩ := of_S3 en (by decide) rd.isLt ra.isLt rb.isLt (by decide)
  refine ⟨lt, fun _ => ?_⟩
  have h1 : fld n 0 11 = 19 := f0
  have b_rd : fRd n = rd := fin_eq (f21)
  have b_ra : fRa n = ra := fin_eq (f16)
  have b_rb : fRb n = rb := fin_eq (f11)
  show decodeSeq 3 n = _
  rw [seq_01 hmaj]
  unfold decodeInteger
  rw [h1, b_rd, b_ra, b_rb]
  rfl

theorem remn (rd : Reg) (ra : Reg) (rb : Reg) : Statement (.remn rd ra rb) := by
  refine of_number rfl rfl (fun n en => ?_)
  obtain ⟨lt, hmaj, f21, f16, f11, f0, -⟩ := of_S3 en (by decide) rd.isLt ra.isLt rb.isLt (by decide)
  refine ⟨lt, fun _ => ?_⟩
  have h1 : fld n 0 11 = 20 := f0
  have b_rd : fRd n = rd := fin_eq (f21)
  have b_ra : fRa n = ra := fin_eq (f16)
  have b_rb : fRb n = rb := fin_eq (f11)
  show decodeSeq 3 n = _
  rw [seq_01 hmaj]
  unfold decodeInteger
  rw [h1, b_rd, b_ra, b_rb]
  rfl

theorem clz (rd : Reg) (ra : Reg) : Statement (.clz rd ra) := by
  refine of_number rfl rfl (fun n en => ?_)
  obtain ⟨lt, hmaj, f21, f16, f11, f0, -⟩ := of_S3 en (by decide) rd.isLt ra.isLt (by decide) (by decide)
  refine ⟨lt, fun _ => ?_⟩
  have h1 : fld n 0 11 = 21 := f0
  have h2 : fld n 11 5 = 0 := f11
  have b_rd : fRd n = rd := fin_eq (f21)
  have b_ra : fRa n = ra := fin_eq (f16)
  show decodeSeq 3 n = _
  rw [seq_01 hmaj]
  unfold decodeInteger
  rw [h1, h2, b_rd, b_ra]
  rfl

theorem popc (rd : Reg) (ra : Reg) : Statement (.popc rd ra) := by
  refine of_number rfl rfl (fun n en => ?_)
  obtain ⟨lt, hmaj, f21, f16, f11, f0, -⟩ := of_S3 en (by decide) rd.isLt ra.isLt (by decide) (by decide)
  refine ⟨lt, fun _ => ?_⟩
  have h1 : fld n 0 11 = 22 := f0
  have h2 : fld n 11 5 = 0 := f11
  have b_rd : fRd n = rd := fin_eq (f21)
  have b_ra : fRa n = ra := fin_eq (f16)
  show decodeSeq 3 n = _
  rw [seq_01 hmaj]
  unfold decodeInteger
  rw [h1, h2, b_rd, b_ra]
  rfl

theorem addi (rd : Reg) (ra : Reg) (imm : BitVec 16) : Statement (.addi rd ra imm) := by
  refine of_number rfl rfl (fun n en => ?_)
  obtain ⟨lt, hmaj, f21, f16, m0, -⟩ := of_SI en (by decide) rd.isLt ra.isLt imm.isLt
  refine ⟨lt, fun _ => ?_⟩
  have b_rd : fRd n = rd := fin_eq (f21)
  have b_ra : fRa n = ra := fin_eq (f16)
  have b_imm : fImm n = imm := bits_eq m0
  show decodeSeq 3 n = _
  rw [seq_02 hmaj]
  rw [b_rd, b_ra, b_imm]

theorem andi (rd : Reg) (ra : Reg) (imm : BitVec 16) : Statement (.andi rd ra imm) := by
  refine of_number rfl rfl (fun n en => ?_)
  obtain ⟨lt, hmaj, f21, f16, m0, -⟩ := of_SI en (by decide) rd.isLt ra.isLt imm.isLt
  refine ⟨lt, fun _ => ?_⟩
  have b_rd : fRd n = rd := fin_eq (f21)
  have b_ra : fRa n = ra := fin_eq (f16)
  have b_imm : fImm n = imm := bits_eq m0
  show decodeSeq 3 n = _
  rw [seq_03 hmaj]
  rw [b_rd, b_ra, b_imm]

theorem ori (rd : Reg) (ra : Reg) (imm : BitVec 16) : Statement (.ori rd ra imm) := by
  refine of_number rfl rfl (fun n en => ?_)
  obtain ⟨lt, hmaj, f21, f16, m0, -⟩ := of_SI en (by decide) rd.isLt ra.isLt imm.isLt
  refine ⟨lt, fun _ => ?_⟩
  have b_rd : fRd n = rd := fin_eq (f21)
  have b_ra : fRa n = ra := fin_eq (f16)
  have b_imm : fImm n = imm := bits_eq m0
  show decodeSeq 3 n = _
  rw [seq_04 hmaj]
  rw [b_rd, b_ra, b_imm]

theorem xori (rd : Reg) (ra : Reg) (imm : BitVec 16) : Statement (.xori rd ra imm) := by
  refine of_number rfl rfl (fun n en => ?_)
  obtain ⟨lt, hmaj, f21, f16, m0, -⟩ := of_SI en (by decide) rd.isLt ra.isLt imm.isLt
  refine ⟨lt, fun _ => ?_⟩
  have b_rd : fRd n = rd := fin_eq (f21)
  have b_ra : fRa n = ra := fin_eq (f16)
  have b_imm : fImm n = imm := bits_eq m0
  show decodeSeq 3 n = _
  rw [seq_05 hmaj]
  rw [b_rd, b_ra, b_imm]

theorem shli (rd : Reg) (ra : Reg) (len : BitVec 6) : Statement (.shli rd ra len) := by
  refine of_number rfl rfl (fun n en => ?_)
  obtain ⟨lt, hmaj, f21, f16, -, fs⟩ := of_SI en (by decide) rd.isLt ra.isLt (by have := len.isLt; omega)
  refine ⟨lt, fun _ => ?_⟩
  have h1 : fld n 6 8 = 0 := (fs 6 8 (by decide)).trans (by simp only [fld]; have := len.isLt; omega)
  have h2 : fld n 14 2 = 0 := (fs 14 2 (by decide)).trans (by simp only [fld]; have := len.isLt; omega)
  have b_rd : fRd n = rd := fin_eq (f21)
  have b_ra : fRa n = ra := fin_eq (f16)
  have b_len : BitVec.ofNat 6 n = len := bits_eq ((show n % 2 ^ 6 = fld n 0 6 by simp [fld]).trans ((fs 0 6 (by decide)).trans (by simp only [fld]; have := len.isLt; omega)))
  show decodeSeq 3 n = _
  rw [seq_06 hmaj]
  unfold decodeShift
  rw [h1, h2, b_rd, b_ra, b_len]
  rfl

theorem shri (rd : Reg) (ra : Reg) (len : BitVec 6) : Statement (.shri rd ra len) := by
  refine of_number rfl rfl (fun n en => ?_)
  obtain ⟨lt, hmaj, f21, f16, -, fs⟩ := of_SI en (by decide) rd.isLt ra.isLt (by have := len.isLt; omega)
  refine ⟨lt, fun _ => ?_⟩
  have h1 : fld n 6 8 = 0 := (fs 6 8 (by decide)).trans (by simp only [fld]; have := len.isLt; omega)
  have h2 : fld n 14 2 = 1 := (fs 14 2 (by decide)).trans (by simp only [fld]; have := len.isLt; omega)
  have b_rd : fRd n = rd := fin_eq (f21)
  have b_ra : fRa n = ra := fin_eq (f16)
  have b_len : BitVec.ofNat 6 n = len := bits_eq ((show n % 2 ^ 6 = fld n 0 6 by simp [fld]).trans ((fs 0 6 (by decide)).trans (by simp only [fld]; have := len.isLt; omega)))
  show decodeSeq 3 n = _
  rw [seq_06 hmaj]
  unfold decodeShift
  rw [h1, h2, b_rd, b_ra, b_len]
  rfl

theorem sari (rd : Reg) (ra : Reg) (len : BitVec 6) : Statement (.sari rd ra len) := by
  refine of_number rfl rfl (fun n en => ?_)
  obtain ⟨lt, hmaj, f21, f16, -, fs⟩ := of_SI en (by decide) rd.isLt ra.isLt (by have := len.isLt; omega)
  refine ⟨lt, fun _ => ?_⟩
  have h1 : fld n 6 8 = 0 := (fs 6 8 (by decide)).trans (by simp only [fld]; have := len.isLt; omega)
  have h2 : fld n 14 2 = 2 := (fs 14 2 (by decide)).trans (by simp only [fld]; have := len.isLt; omega)
  have b_rd : fRd n = rd := fin_eq (f21)
  have b_ra : fRa n = ra := fin_eq (f16)
  have b_len : BitVec.ofNat 6 n = len := bits_eq ((show n % 2 ^ 6 = fld n 0 6 by simp [fld]).trans ((fs 0 6 (by decide)).trans (by simp only [fld]; have := len.isLt; omega)))
  show decodeSeq 3 n = _
  rw [seq_06 hmaj]
  unfold decodeShift
  rw [h1, h2, b_rd, b_ra, b_len]
  rfl

theorem slti (rd : Reg) (ra : Reg) (imm : BitVec 16) : Statement (.slti rd ra imm) := by
  refine of_number rfl rfl (fun n en => ?_)
  obtain ⟨lt, hmaj, f21, f16, m0, -⟩ := of_SI en (by decide) rd.isLt ra.isLt imm.isLt
  refine ⟨lt, fun _ => ?_⟩
  have b_rd : fRd n = rd := fin_eq (f21)
  have b_ra : fRa n = ra := fin_eq (f16)
  have b_imm : fImm n = imm := bits_eq m0
  show decodeSeq 3 n = _
  rw [seq_07 hmaj]
  rw [b_rd, b_ra, b_imm]

theorem movi (rd : Reg) (imm : BitVec 16) : Statement (.movi rd imm) := by
  refine of_number rfl rfl (fun n en => ?_)
  obtain ⟨lt, hmaj, f21, f16, m0, -⟩ := of_SI en (by decide) rd.isLt (by decide) imm.isLt
  refine ⟨lt, fun _ => ?_⟩
  have h1 : fld n 16 5 = 0 := f16
  have b_rd : fRd n = rd := fin_eq (f21)
  have b_imm : fImm n = imm := bits_eq m0
  show decodeSeq 3 n = _
  rw [seq_08 hmaj]
  rw [h1, b_rd, b_imm]
  rfl

theorem movk (rd : Reg) (p : Fin 4) (imm : BitVec 16) : Statement (.movk rd p imm) := by
  refine of_number rfl rfl (fun n en => ?_)
  obtain ⟨lt, hmaj, f21, f16, m0, -⟩ := of_SI en (by decide) rd.isLt (by have := p.isLt; omega) imm.isLt
  refine ⟨lt, fun _ => ?_⟩
  have h1 : fld n 18 3 = 0 := (by clear en; have := p.isLt; simp only [fld] at f16 ⊢; omega)
  have b_rd : fRd n = rd := fin_eq (f21)
  have b_p : finOf 4 (n / 2 ^ 16) = p := fin_eq (show fld n 16 2 = p.val from (by clear en; have := p.isLt; simp only [fld] at f16 ⊢; omega))
  have b_imm : fImm n = imm := bits_eq m0
  show decodeSeq 3 n = _
  rw [seq_09 hmaj]
  rw [h1, b_rd, b_p, b_imm]
  rfl

theorem beq (ra : Reg) (rb : Reg) (off : BitVec 16) : Statement (.beq ra rb off) := by
  refine of_number rfl rfl (fun n en => ?_)
  obtain ⟨lt, hmaj, f21, f16, m0, -⟩ := of_SI en (by decide) ra.isLt rb.isLt off.isLt
  refine ⟨lt, fun _ => ?_⟩
  have b_ra : fRd n = ra := fin_eq (f21)
  have b_rb : fRa n = rb := fin_eq (f16)
  have b_off : fImm n = off := bits_eq m0
  show decodeSeq 3 n = _
  rw [seq_0A hmaj]
  rw [b_ra, b_rb, b_off]

theorem bne (ra : Reg) (rb : Reg) (off : BitVec 16) : Statement (.bne ra rb off) := by
  refine of_number rfl rfl (fun n en => ?_)
  obtain ⟨lt, hmaj, f21, f16, m0, -⟩ := of_SI en (by decide) ra.isLt rb.isLt off.isLt
  refine ⟨lt, fun _ => ?_⟩
  have b_ra : fRd n = ra := fin_eq (f21)
  have b_rb : fRa n = rb := fin_eq (f16)
  have b_off : fImm n = off := bits_eq m0
  show decodeSeq 3 n = _
  rw [seq_0B hmaj]
  rw [b_ra, b_rb, b_off]

theorem blt (ra : Reg) (rb : Reg) (off : BitVec 16) : Statement (.blt ra rb off) := by
  refine of_number rfl rfl (fun n en => ?_)
  obtain ⟨lt, hmaj, f21, f16, m0, -⟩ := of_SI en (by decide) ra.isLt rb.isLt off.isLt
  refine ⟨lt, fun _ => ?_⟩
  have b_ra : fRd n = ra := fin_eq (f21)
  have b_rb : fRa n = rb := fin_eq (f16)
  have b_off : fImm n = off := bits_eq m0
  show decodeSeq 3 n = _
  rw [seq_0C hmaj]
  rw [b_ra, b_rb, b_off]

theorem bge (ra : Reg) (rb : Reg) (off : BitVec 16) : Statement (.bge ra rb off) := by
  refine of_number rfl rfl (fun n en => ?_)
  obtain ⟨lt, hmaj, f21, f16, m0, -⟩ := of_SI en (by decide) ra.isLt rb.isLt off.isLt
  refine ⟨lt, fun _ => ?_⟩
  have b_ra : fRd n = ra := fin_eq (f21)
  have b_rb : fRa n = rb := fin_eq (f16)
  have b_off : fImm n = off := bits_eq m0
  show decodeSeq 3 n = _
  rw [seq_0D hmaj]
  rw [b_ra, b_rb, b_off]

theorem bltn (ra : Reg) (rb : Reg) (off : BitVec 16) : Statement (.bltn ra rb off) := by
  refine of_number rfl rfl (fun n en => ?_)
  obtain ⟨lt, hmaj, f21, f16, m0, -⟩ := of_SI en (by decide) ra.isLt rb.isLt off.isLt
  refine ⟨lt, fun _ => ?_⟩
  have b_ra : fRd n = ra := fin_eq (f21)
  have b_rb : fRa n = rb := fin_eq (f16)
  have b_off : fImm n = off := bits_eq m0
  show decodeSeq 3 n = _
  rw [seq_0E hmaj]
  rw [b_ra, b_rb, b_off]

theorem bgen (ra : Reg) (rb : Reg) (off : BitVec 16) : Statement (.bgen ra rb off) := by
  refine of_number rfl rfl (fun n en => ?_)
  obtain ⟨lt, hmaj, f21, f16, m0, -⟩ := of_SI en (by decide) ra.isLt rb.isLt off.isLt
  refine ⟨lt, fun _ => ?_⟩
  have b_ra : fRd n = ra := fin_eq (f21)
  have b_rb : fRa n = rb := fin_eq (f16)
  have b_off : fImm n = off := bits_eq m0
  show decodeSeq 3 n = _
  rw [seq_0F hmaj]
  rw [b_ra, b_rb, b_off]

theorem jal (rd : Reg) (off : BitVec 21) : Statement (.jal rd off) := by
  refine of_number rfl rfl (fun n en => ?_)
  have := rd.isLt
  have := off.isLt
  have hmaj : fld n 26 6 = 16 := show n / 2 ^ 26 % 2 ^ 6 = 16 by omega
  refine ⟨by omega, fun _ => ?_⟩
  have b_rd : fRd n = rd := fin_eq (show (n / 2 ^ 21) % 32 = rd.val by omega)
  have b_off : BitVec.ofNat 21 n = off := bits_eq (show (n) % 2 ^ 21 = off.toNat by omega)
  show decodeSeq 3 n = _
  rw [seq_10 hmaj]
  rw [b_rd, b_off]

theorem jalr (rd : Reg) (ra : Reg) (imm : BitVec 16) : Statement (.jalr rd ra imm) := by
  refine of_number rfl rfl (fun n en => ?_)
  obtain ⟨lt, hmaj, f21, f16, m0, -⟩ := of_SI en (by decide) rd.isLt ra.isLt imm.isLt
  refine ⟨lt, fun _ => ?_⟩
  have b_rd : fRd n = rd := fin_eq (f21)
  have b_ra : fRa n = ra := fin_eq (f16)
  have b_imm : fImm n = imm := bits_eq m0
  show decodeSeq 3 n = _
  rw [seq_11 hmaj]
  rw [b_rd, b_ra, b_imm]

theorem ldB (rd : Reg) (ra : Reg) (imm : BitVec 16) : Statement (.ldB rd ra imm) := by
  refine of_number rfl rfl (fun n en => ?_)
  obtain ⟨lt, hmaj, f21, f16, m0, -⟩ := of_SI en (by decide) rd.isLt ra.isLt imm.isLt
  refine ⟨lt, fun _ => ?_⟩
  have b_rd : fRd n = rd := fin_eq (f21)
  have b_ra : fRa n = ra := fin_eq (f16)
  have b_imm : fImm n = imm := bits_eq m0
  show decodeSeq 3 n = _
  rw [seq_12 hmaj]
  rw [b_rd, b_ra, b_imm]

theorem ldBs (rd : Reg) (ra : Reg) (imm : BitVec 16) : Statement (.ldBs rd ra imm) := by
  refine of_number rfl rfl (fun n en => ?_)
  obtain ⟨lt, hmaj, f21, f16, m0, -⟩ := of_SI en (by decide) rd.isLt ra.isLt imm.isLt
  refine ⟨lt, fun _ => ?_⟩
  have b_rd : fRd n = rd := fin_eq (f21)
  have b_ra : fRa n = ra := fin_eq (f16)
  have b_imm : fImm n = imm := bits_eq m0
  show decodeSeq 3 n = _
  rw [seq_13 hmaj]
  rw [b_rd, b_ra, b_imm]

theorem ldH (rd : Reg) (ra : Reg) (imm : BitVec 16) : Statement (.ldH rd ra imm) := by
  refine of_number rfl rfl (fun n en => ?_)
  obtain ⟨lt, hmaj, f21, f16, m0, -⟩ := of_SI en (by decide) rd.isLt ra.isLt imm.isLt
  refine ⟨lt, fun _ => ?_⟩
  have b_rd : fRd n = rd := fin_eq (f21)
  have b_ra : fRa n = ra := fin_eq (f16)
  have b_imm : fImm n = imm := bits_eq m0
  show decodeSeq 3 n = _
  rw [seq_14 hmaj]
  rw [b_rd, b_ra, b_imm]

theorem ldHs (rd : Reg) (ra : Reg) (imm : BitVec 16) : Statement (.ldHs rd ra imm) := by
  refine of_number rfl rfl (fun n en => ?_)
  obtain ⟨lt, hmaj, f21, f16, m0, -⟩ := of_SI en (by decide) rd.isLt ra.isLt imm.isLt
  refine ⟨lt, fun _ => ?_⟩
  have b_rd : fRd n = rd := fin_eq (f21)
  have b_ra : fRa n = ra := fin_eq (f16)
  have b_imm : fImm n = imm := bits_eq m0
  show decodeSeq 3 n = _
  rw [seq_15 hmaj]
  rw [b_rd, b_ra, b_imm]

theorem ldW (rd : Reg) (ra : Reg) (imm : BitVec 16) : Statement (.ldW rd ra imm) := by
  refine of_number rfl rfl (fun n en => ?_)
  obtain ⟨lt, hmaj, f21, f16, m0, -⟩ := of_SI en (by decide) rd.isLt ra.isLt imm.isLt
  refine ⟨lt, fun _ => ?_⟩
  have b_rd : fRd n = rd := fin_eq (f21)
  have b_ra : fRa n = ra := fin_eq (f16)
  have b_imm : fImm n = imm := bits_eq m0
  show decodeSeq 3 n = _
  rw [seq_16 hmaj]
  rw [b_rd, b_ra, b_imm]

theorem ldWs (rd : Reg) (ra : Reg) (imm : BitVec 16) : Statement (.ldWs rd ra imm) := by
  refine of_number rfl rfl (fun n en => ?_)
  obtain ⟨lt, hmaj, f21, f16, m0, -⟩ := of_SI en (by decide) rd.isLt ra.isLt imm.isLt
  refine ⟨lt, fun _ => ?_⟩
  have b_rd : fRd n = rd := fin_eq (f21)
  have b_ra : fRa n = ra := fin_eq (f16)
  have b_imm : fImm n = imm := bits_eq m0
  show decodeSeq 3 n = _
  rw [seq_17 hmaj]
  rw [b_rd, b_ra, b_imm]

theorem ldD (rd : Reg) (ra : Reg) (imm : BitVec 16) : Statement (.ldD rd ra imm) := by
  refine of_number rfl rfl (fun n en => ?_)
  obtain ⟨lt, hmaj, f21, f16, m0, -⟩ := of_SI en (by decide) rd.isLt ra.isLt imm.isLt
  refine ⟨lt, fun _ => ?_⟩
  have b_rd : fRd n = rd := fin_eq (f21)
  have b_ra : fRa n = ra := fin_eq (f16)
  have b_imm : fImm n = imm := bits_eq m0
  show decodeSeq 3 n = _
  rw [seq_18 hmaj]
  rw [b_rd, b_ra, b_imm]

theorem stB (rd : Reg) (ra : Reg) (imm : BitVec 16) : Statement (.stB rd ra imm) := by
  refine of_number rfl rfl (fun n en => ?_)
  obtain ⟨lt, hmaj, f21, f16, m0, -⟩ := of_SI en (by decide) rd.isLt ra.isLt imm.isLt
  refine ⟨lt, fun _ => ?_⟩
  have b_rd : fRd n = rd := fin_eq (f21)
  have b_ra : fRa n = ra := fin_eq (f16)
  have b_imm : fImm n = imm := bits_eq m0
  show decodeSeq 3 n = _
  rw [seq_19 hmaj]
  rw [b_rd, b_ra, b_imm]

theorem stH (rd : Reg) (ra : Reg) (imm : BitVec 16) : Statement (.stH rd ra imm) := by
  refine of_number rfl rfl (fun n en => ?_)
  obtain ⟨lt, hmaj, f21, f16, m0, -⟩ := of_SI en (by decide) rd.isLt ra.isLt imm.isLt
  refine ⟨lt, fun _ => ?_⟩
  have b_rd : fRd n = rd := fin_eq (f21)
  have b_ra : fRa n = ra := fin_eq (f16)
  have b_imm : fImm n = imm := bits_eq m0
  show decodeSeq 3 n = _
  rw [seq_1A hmaj]
  rw [b_rd, b_ra, b_imm]

theorem stW (rd : Reg) (ra : Reg) (imm : BitVec 16) : Statement (.stW rd ra imm) := by
  refine of_number rfl rfl (fun n en => ?_)
  obtain ⟨lt, hmaj, f21, f16, m0, -⟩ := of_SI en (by decide) rd.isLt ra.isLt imm.isLt
  refine ⟨lt, fun _ => ?_⟩
  have b_rd : fRd n = rd := fin_eq (f21)
  have b_ra : fRa n = ra := fin_eq (f16)
  have b_imm : fImm n = imm := bits_eq m0
  show decodeSeq 3 n = _
  rw [seq_1B hmaj]
  rw [b_rd, b_ra, b_imm]

theorem stD (rd : Reg) (ra : Reg) (imm : BitVec 16) : Statement (.stD rd ra imm) := by
  refine of_number rfl rfl (fun n en => ?_)
  obtain ⟨lt, hmaj, f21, f16, m0, -⟩ := of_SI en (by decide) rd.isLt ra.isLt imm.isLt
  refine ⟨lt, fun _ => ?_⟩
  have b_rd : fRd n = rd := fin_eq (f21)
  have b_ra : fRa n = ra := fin_eq (f16)
  have b_imm : fImm n = imm := bits_eq m0
  show decodeSeq 3 n = _
  rw [seq_1C hmaj]
  rw [b_rd, b_ra, b_imm]

theorem atomAdd (rd : Reg) (ra : Reg) (rb : Reg) (size : AtomSize) (scope : Scope) : Statement (.atomAdd rd ra rb size scope) := by
  refine of_number rfl rfl (fun n en => ?_)
  obtain ⟨lt, hmaj, f21, f16, f11, -, fs⟩ := of_S3 en (by decide) rd.isLt ra.isLt rb.isLt (by simp only [atomFunc]; have := size_lt size; have := scope_lt scope; omega)
  refine ⟨lt, fun _ => ?_⟩
  have h1 : fld n 4 2 = 0 := (fs 4 2 (by decide)).trans (by simp only [fld, atomFunc]; have := size_lt size; have := scope_lt scope; omega)
  have h2 : scopeOf (fld n 0 4) = some scope := scope_eq ((fs 0 4 (by decide)).trans (by simp only [fld, atomFunc]; have := size_lt size; have := scope_lt scope; omega))
  have h3 : fld n 7 4 = 0 := (fs 7 4 (by decide)).trans (by simp only [fld, atomFunc]; have := size_lt size; have := scope_lt scope; omega)
  have h4 : (if fld n 6 1 = 0 then AtomSize.w else AtomSize.d) = size := size_eq ((fs 6 1 (by decide)).trans (by simp only [fld, atomFunc]; have := size_lt size; have := scope_lt scope; omega))
  have b_rd : fRd n = rd := fin_eq (f21)
  have b_ra : fRa n = ra := fin_eq (f16)
  have b_rb : fRb n = rb := fin_eq (f11)
  show decodeSeq 3 n = _
  rw [seq_1D hmaj]
  unfold decodeAtom
  rw [h1, h2, h3, h4, b_rd, b_ra, b_rb]
  rfl

theorem atomSwap (rd : Reg) (ra : Reg) (rb : Reg) (size : AtomSize) (scope : Scope) : Statement (.atomSwap rd ra rb size scope) := by
  refine of_number rfl rfl (fun n en => ?_)
  obtain ⟨lt, hmaj, f21, f16, f11, -, fs⟩ := of_S3 en (by decide) rd.isLt ra.isLt rb.isLt (by simp only [atomFunc]; have := size_lt size; have := scope_lt scope; omega)
  refine ⟨lt, fun _ => ?_⟩
  have h1 : fld n 4 2 = 0 := (fs 4 2 (by decide)).trans (by simp only [fld, atomFunc]; have := size_lt size; have := scope_lt scope; omega)
  have h2 : scopeOf (fld n 0 4) = some scope := scope_eq ((fs 0 4 (by decide)).trans (by simp only [fld, atomFunc]; have := size_lt size; have := scope_lt scope; omega))
  have h3 : fld n 7 4 = 1 := (fs 7 4 (by decide)).trans (by simp only [fld, atomFunc]; have := size_lt size; have := scope_lt scope; omega)
  have h4 : (if fld n 6 1 = 0 then AtomSize.w else AtomSize.d) = size := size_eq ((fs 6 1 (by decide)).trans (by simp only [fld, atomFunc]; have := size_lt size; have := scope_lt scope; omega))
  have b_rd : fRd n = rd := fin_eq (f21)
  have b_ra : fRa n = ra := fin_eq (f16)
  have b_rb : fRb n = rb := fin_eq (f11)
  show decodeSeq 3 n = _
  rw [seq_1D hmaj]
  unfold decodeAtom
  rw [h1, h2, h3, h4, b_rd, b_ra, b_rb]
  rfl

theorem atomCas (rd : Reg) (ra : Reg) (rb : Reg) (size : AtomSize) (scope : Scope) : Statement (.atomCas rd ra rb size scope) := by
  refine of_number rfl rfl (fun n en => ?_)
  obtain ⟨lt, hmaj, f21, f16, f11, -, fs⟩ := of_S3 en (by decide) rd.isLt ra.isLt rb.isLt (by simp only [atomFunc]; have := size_lt size; have := scope_lt scope; omega)
  refine ⟨lt, fun _ => ?_⟩
  have h1 : fld n 4 2 = 0 := (fs 4 2 (by decide)).trans (by simp only [fld, atomFunc]; have := size_lt size; have := scope_lt scope; omega)
  have h2 : scopeOf (fld n 0 4) = some scope := scope_eq ((fs 0 4 (by decide)).trans (by simp only [fld, atomFunc]; have := size_lt size; have := scope_lt scope; omega))
  have h3 : fld n 7 4 = 2 := (fs 7 4 (by decide)).trans (by simp only [fld, atomFunc]; have := size_lt size; have := scope_lt scope; omega)
  have h4 : (if fld n 6 1 = 0 then AtomSize.w else AtomSize.d) = size := size_eq ((fs 6 1 (by decide)).trans (by simp only [fld, atomFunc]; have := size_lt size; have := scope_lt scope; omega))
  have b_rd : fRd n = rd := fin_eq (f21)
  have b_ra : fRa n = ra := fin_eq (f16)
  have b_rb : fRb n = rb := fin_eq (f11)
  show decodeSeq 3 n = _
  rw [seq_1D hmaj]
  unfold decodeAtom
  rw [h1, h2, h3, h4, b_rd, b_ra, b_rb]
  rfl

theorem atomMin (rd : Reg) (ra : Reg) (rb : Reg) (size : AtomSize) (scope : Scope) : Statement (.atomMin rd ra rb size scope) := by
  refine of_number rfl rfl (fun n en => ?_)
  obtain ⟨lt, hmaj, f21, f16, f11, -, fs⟩ := of_S3 en (by decide) rd.isLt ra.isLt rb.isLt (by simp only [atomFunc]; have := size_lt size; have := scope_lt scope; omega)
  refine ⟨lt, fun _ => ?_⟩
  have h1 : fld n 4 2 = 0 := (fs 4 2 (by decide)).trans (by simp only [fld, atomFunc]; have := size_lt size; have := scope_lt scope; omega)
  have h2 : scopeOf (fld n 0 4) = some scope := scope_eq ((fs 0 4 (by decide)).trans (by simp only [fld, atomFunc]; have := size_lt size; have := scope_lt scope; omega))
  have h3 : fld n 7 4 = 3 := (fs 7 4 (by decide)).trans (by simp only [fld, atomFunc]; have := size_lt size; have := scope_lt scope; omega)
  have h4 : (if fld n 6 1 = 0 then AtomSize.w else AtomSize.d) = size := size_eq ((fs 6 1 (by decide)).trans (by simp only [fld, atomFunc]; have := size_lt size; have := scope_lt scope; omega))
  have b_rd : fRd n = rd := fin_eq (f21)
  have b_ra : fRa n = ra := fin_eq (f16)
  have b_rb : fRb n = rb := fin_eq (f11)
  show decodeSeq 3 n = _
  rw [seq_1D hmaj]
  unfold decodeAtom
  rw [h1, h2, h3, h4, b_rd, b_ra, b_rb]
  rfl

theorem atomMax (rd : Reg) (ra : Reg) (rb : Reg) (size : AtomSize) (scope : Scope) : Statement (.atomMax rd ra rb size scope) := by
  refine of_number rfl rfl (fun n en => ?_)
  obtain ⟨lt, hmaj, f21, f16, f11, -, fs⟩ := of_S3 en (by decide) rd.isLt ra.isLt rb.isLt (by simp only [atomFunc]; have := size_lt size; have := scope_lt scope; omega)
  refine ⟨lt, fun _ => ?_⟩
  have h1 : fld n 4 2 = 0 := (fs 4 2 (by decide)).trans (by simp only [fld, atomFunc]; have := size_lt size; have := scope_lt scope; omega)
  have h2 : scopeOf (fld n 0 4) = some scope := scope_eq ((fs 0 4 (by decide)).trans (by simp only [fld, atomFunc]; have := size_lt size; have := scope_lt scope; omega))
  have h3 : fld n 7 4 = 4 := (fs 7 4 (by decide)).trans (by simp only [fld, atomFunc]; have := size_lt size; have := scope_lt scope; omega)
  have h4 : (if fld n 6 1 = 0 then AtomSize.w else AtomSize.d) = size := size_eq ((fs 6 1 (by decide)).trans (by simp only [fld, atomFunc]; have := size_lt size; have := scope_lt scope; omega))
  have b_rd : fRd n = rd := fin_eq (f21)
  have b_ra : fRa n = ra := fin_eq (f16)
  have b_rb : fRb n = rb := fin_eq (f11)
  show decodeSeq 3 n = _
  rw [seq_1D hmaj]
  unfold decodeAtom
  rw [h1, h2, h3, h4, b_rd, b_ra, b_rb]
  rfl

theorem atomOr (rd : Reg) (ra : Reg) (rb : Reg) (size : AtomSize) (scope : Scope) : Statement (.atomOr rd ra rb size scope) := by
  refine of_number rfl rfl (fun n en => ?_)
  obtain ⟨lt, hmaj, f21, f16, f11, -, fs⟩ := of_S3 en (by decide) rd.isLt ra.isLt rb.isLt (by simp only [atomFunc]; have := size_lt size; have := scope_lt scope; omega)
  refine ⟨lt, fun _ => ?_⟩
  have h1 : fld n 4 2 = 0 := (fs 4 2 (by decide)).trans (by simp only [fld, atomFunc]; have := size_lt size; have := scope_lt scope; omega)
  have h2 : scopeOf (fld n 0 4) = some scope := scope_eq ((fs 0 4 (by decide)).trans (by simp only [fld, atomFunc]; have := size_lt size; have := scope_lt scope; omega))
  have h3 : fld n 7 4 = 5 := (fs 7 4 (by decide)).trans (by simp only [fld, atomFunc]; have := size_lt size; have := scope_lt scope; omega)
  have h4 : (if fld n 6 1 = 0 then AtomSize.w else AtomSize.d) = size := size_eq ((fs 6 1 (by decide)).trans (by simp only [fld, atomFunc]; have := size_lt size; have := scope_lt scope; omega))
  have b_rd : fRd n = rd := fin_eq (f21)
  have b_ra : fRa n = ra := fin_eq (f16)
  have b_rb : fRb n = rb := fin_eq (f11)
  show decodeSeq 3 n = _
  rw [seq_1D hmaj]
  unfold decodeAtom
  rw [h1, h2, h3, h4, b_rd, b_ra, b_rb]
  rfl

theorem atomAnd (rd : Reg) (ra : Reg) (rb : Reg) (size : AtomSize) (scope : Scope) : Statement (.atomAnd rd ra rb size scope) := by
  refine of_number rfl rfl (fun n en => ?_)
  obtain ⟨lt, hmaj, f21, f16, f11, -, fs⟩ := of_S3 en (by decide) rd.isLt ra.isLt rb.isLt (by simp only [atomFunc]; have := size_lt size; have := scope_lt scope; omega)
  refine ⟨lt, fun _ => ?_⟩
  have h1 : fld n 4 2 = 0 := (fs 4 2 (by decide)).trans (by simp only [fld, atomFunc]; have := size_lt size; have := scope_lt scope; omega)
  have h2 : scopeOf (fld n 0 4) = some scope := scope_eq ((fs 0 4 (by decide)).trans (by simp only [fld, atomFunc]; have := size_lt size; have := scope_lt scope; omega))
  have h3 : fld n 7 4 = 6 := (fs 7 4 (by decide)).trans (by simp only [fld, atomFunc]; have := size_lt size; have := scope_lt scope; omega)
  have h4 : (if fld n 6 1 = 0 then AtomSize.w else AtomSize.d) = size := size_eq ((fs 6 1 (by decide)).trans (by simp only [fld, atomFunc]; have := size_lt size; have := scope_lt scope; omega))
  have b_rd : fRd n = rd := fin_eq (f21)
  have b_ra : fRa n = ra := fin_eq (f16)
  have b_rb : fRb n = rb := fin_eq (f11)
  show decodeSeq 3 n = _
  rw [seq_1D hmaj]
  unfold decodeAtom
  rw [h1, h2, h3, h4, b_rd, b_ra, b_rb]
  rfl

theorem mark (paths : BitVec 7) : Statement (.mark paths) := by
  refine of_number rfl rfl (fun n en => ?_)
  obtain ⟨lt, hmaj, -, -, -, -, fs⟩ := of_S3 en (by decide) (by decide) (by decide) (by decide) (by have := paths.isLt; omega)
  simp only [encS3] at en
  have := paths.isLt
  refine ⟨lt, fun hw => ?_⟩
  have h1 : fld n 11 15 = 0 := (show n / 2 ^ 11 % 2 ^ 15 = 0 by omega)
  have h2 : fld n 10 1 = 0 := (fs 10 1 (by decide)).trans (by simp only [fld]; have := paths.isLt; omega)
  have h3 : fld n 7 3 = 0 := (fs 7 3 (by decide)).trans (by simp only [fld]; have := paths.isLt; omega)
  have h4 : (fld n 0 7 != 0) = true := bits_ne hw ((fs 0 7 (by decide)).trans (by simp only [fld]; have := paths.isLt; omega))
  have b_paths : BitVec.ofNat 7 n = paths := bits_eq ((show n % 2 ^ 7 = fld n 0 7 by simp [fld]).trans ((fs 0 7 (by decide)).trans (by simp only [fld]; have := paths.isLt; omega)))
  show decodeSeq 3 n = _
  rw [seq_1E hmaj]
  unfold decodeOrder
  rw [h1, h2, h3, h4, b_paths]
  rfl

theorem fence (pa : Path) (pb : Path) (scope : Scope) : Statement (.fence pa pb scope) := by
  refine of_number rfl rfl (fun n en => ?_)
  obtain ⟨lt, hmaj, -, -, -, -, fs⟩ := of_S3 en (by decide) (by decide) (by decide) (by decide) (by have := path_lt pa; have := path_lt pb; have := scope_lt scope; omega)
  simp only [encS3] at en
  have := path_lt pa
  have := path_lt pb
  have := scope_lt scope
  refine ⟨lt, fun _ => ?_⟩
  have h1 : fld n 11 15 = 0 := (show n / 2 ^ 11 % 2 ^ 15 = 0 by omega)
  have h2 : fld n 10 1 = 1 := (fs 10 1 (by decide)).trans (by simp only [fld]; have := path_lt pa; have := path_lt pb; have := scope_lt scope; omega)
  have h3 : pathOf (fld n 7 3) = some pa := path_eq ((fs 7 3 (by decide)).trans (by simp only [fld]; have := path_lt pa; have := path_lt pb; have := scope_lt scope; omega))
  have h4 : pathOf (fld n 4 3) = some pb := path_eq ((fs 4 3 (by decide)).trans (by simp only [fld]; have := path_lt pa; have := path_lt pb; have := scope_lt scope; omega))
  have h5 : scopeOf (fld n 0 4) = some scope := scope_eq ((fs 0 4 (by decide)).trans (by simp only [fld]; have := path_lt pa; have := path_lt pb; have := scope_lt scope; omega))
  show decodeSeq 3 n = _
  rw [seq_1E hmaj]
  unfold decodeOrder
  rw [h1, h2, h3, h4, h5]
  rfl

theorem hndBind (rd : Reg) (ra : Reg) (h : Hnd) : Statement (.hndBind rd ra h) := by
  refine of_number rfl rfl (fun n en => ?_)
  obtain ⟨lt, hmaj, f21, f16, f10, fs, -⟩ := of_SX en (by decide) rd.isLt ra.isLt h.isLt (by decide)
  refine ⟨lt, fun hw => ?_⟩
  have h1 : fld n 2 8 = 0 := (fs 2 8 (by decide)).trans rfl
  have h2 : (fld n 10 6 != 0) = true := fin_ne hw (f10)
  have h3 : fld n 0 2 = 0 := (fs 0 2 (by decide)).trans rfl
  have b_rd : fRd n = rd := fin_eq (f21)
  have b_ra : fRa n = ra := fin_eq (f16)
  have b_h : fH n = h := fin_eq (f10)
  show decodeSeq 3 n = _
  rw [seq_1F hmaj]
  unfold decodeHandle
  rw [h1, h2, h3, b_rd, b_ra, b_h]
  rfl

theorem hndFree (h : Hnd) : Statement (.hndFree h) := by
  refine of_number rfl rfl (fun n en => ?_)
  obtain ⟨lt, hmaj, -, -, f10, fs, -⟩ := of_SX en (by decide) (by decide) (by decide) h.isLt (by decide)
  simp only [encSX] at en
  have := h.isLt
  refine ⟨lt, fun hw => ?_⟩
  have h1 : fld n 2 8 = 0 := (fs 2 8 (by decide)).trans rfl
  have h2 : (fld n 10 6 != 0) = true := fin_ne hw (f10)
  have h3 : fld n 0 2 = 1 := (fs 0 2 (by decide)).trans rfl
  have h4 : fld n 16 10 = 0 := (show n / 2 ^ 16 % 2 ^ 10 = 0 by omega)
  have b_h : fH n = h := fin_eq (f10)
  show decodeSeq 3 n = _
  rw [seq_1F hmaj]
  unfold decodeHandle
  rw [h1, h2, h3, h4, b_h]
  rfl

theorem hndStat (rd : Reg) (h : Hnd) : Statement (.hndStat rd h) := by
  refine of_number rfl rfl (fun n en => ?_)
  obtain ⟨lt, hmaj, f21, f16, f10, fs, -⟩ := of_SX en (by decide) rd.isLt (by decide) h.isLt (by decide)
  refine ⟨lt, fun hw => ?_⟩
  have h1 : fld n 2 8 = 0 := (fs 2 8 (by decide)).trans rfl
  have h2 : (fld n 10 6 != 0) = true := fin_ne hw (f10)
  have h3 : fld n 0 2 = 2 := (fs 0 2 (by decide)).trans rfl
  have h4 : fld n 16 5 = 0 := f16
  have b_rd : fRd n = rd := fin_eq (f21)
  have b_h : fH n = h := fin_eq (f10)
  show decodeSeq 3 n = _
  rw [seq_1F hmaj]
  unfold decodeHandle
  rw [h1, h2, h3, h4, b_rd, b_h]
  rfl

theorem engStart (e : Eng) (entry : BitVec 14) : Statement (.engStart e entry) := by
  refine of_number rfl rfl (fun n en => ?_)
  obtain ⟨lt, hmaj, f21, f16, -, fs⟩ := of_SI en (by decide) (by decide) (by have := eng_lt e; omega) (by have := entry.isLt; omega)
  refine ⟨lt, fun _ => ?_⟩
  have h1 : engOf (fld n 16 2) = some e := eng_eq ((by clear en; have := eng_lt e; simp only [fld] at f16 ⊢; omega))
  have h2 : fld n 18 3 = 0 := (by clear en; have := eng_lt e; simp only [fld] at f16 ⊢; omega)
  have h3 : fld n 21 5 = 0 := f21
  have h4 : fld n 14 2 = 0 := (fs 14 2 (by decide)).trans (by simp only [fld]; have := entry.isLt; omega)
  have b_entry : BitVec.ofNat 14 n = entry := bits_eq ((show n % 2 ^ 14 = fld n 0 14 by simp [fld]).trans ((fs 0 14 (by decide)).trans (by simp only [fld]; have := entry.isLt; omega)))
  show decodeSeq 3 n = _
  rw [seq_20 hmaj]
  unfold decodeEng
  rw [h1, h2, h3, h4, b_entry]
  rfl

theorem engStop (e : Eng) : Statement (.engStop e) := by
  refine of_number rfl rfl (fun n en => ?_)
  obtain ⟨lt, hmaj, f21, f16, -, fs⟩ := of_SI en (by decide) (by decide) (by have := eng_lt e; omega) (by decide)
  refine ⟨lt, fun _ => ?_⟩
  have h1 : engOf (fld n 16 2) = some e := eng_eq ((by clear en; have := eng_lt e; simp only [fld] at f16 ⊢; omega))
  have h2 : fld n 18 3 = 1 := (by clear en; have := eng_lt e; simp only [fld] at f16 ⊢; omega)
  have h3 : fld n 21 5 = 0 := f21
  have h4 : fld n 0 16 = 0 := (fs 0 16 (by decide)).trans rfl
  show decodeSeq 3 n = _
  rw [seq_20 hmaj]
  unfold decodeEng
  rw [h1, h2, h3, h4]
  rfl

theorem engStat (rd : Reg) (e : Eng) : Statement (.engStat rd e) := by
  refine of_number rfl rfl (fun n en => ?_)
  obtain ⟨lt, hmaj, f21, f16, -, fs⟩ := of_SI en (by decide) rd.isLt (by have := eng_lt e; omega) (by decide)
  refine ⟨lt, fun _ => ?_⟩
  have h1 : engOf (fld n 16 2) = some e := eng_eq ((by clear en; have := eng_lt e; simp only [fld] at f16 ⊢; omega))
  have h2 : fld n 18 3 = 2 := (by clear en; have := eng_lt e; simp only [fld] at f16 ⊢; omega)
  have h3 : fld n 0 16 = 0 := (fs 0 16 (by decide)).trans rfl
  have b_rd : fRd n = rd := fin_eq (f21)
  show decodeSeq 3 n = _
  rw [seq_20 hmaj]
  unfold decodeEng
  rw [h1, h2, h3, b_rd]
  rfl

theorem engJoin (e : Eng) : Statement (.engJoin e) := by
  refine of_number rfl rfl (fun n en => ?_)
  obtain ⟨lt, hmaj, f21, f16, -, fs⟩ := of_SI en (by decide) (by decide) (by have := eng_lt e; omega) (by decide)
  refine ⟨lt, fun _ => ?_⟩
  have h1 : engOf (fld n 16 2) = some e := eng_eq ((by clear en; have := eng_lt e; simp only [fld] at f16 ⊢; omega))
  have h2 : fld n 18 3 = 3 := (by clear en; have := eng_lt e; simp only [fld] at f16 ⊢; omega)
  have h3 : fld n 21 5 = 0 := f21
  have h4 : fld n 0 16 = 0 := (fs 0 16 (by decide)).trans rfl
  show decodeSeq 3 n = _
  rw [seq_20 hmaj]
  unfold decodeEng
  rw [h1, h2, h3, h4]
  rfl

theorem swArm (rd : Reg) (ra : Reg) (h : Hnd) : Statement (.swArm rd ra h) := by
  refine of_number rfl rfl (fun n en => ?_)
  obtain ⟨lt, hmaj, f21, f16, f10, fs, -⟩ := of_SX en (by decide) rd.isLt ra.isLt h.isLt (by decide)
  refine ⟨lt, fun _ => ?_⟩
  have h1 : fld n 4 6 = 0 := (fs 4 6 (by decide)).trans rfl
  have h2 : fld n 0 4 = 0 := (fs 0 4 (by decide)).trans rfl
  have b_rd : fRd n = rd := fin_eq (f21)
  have b_ra : fRa n = ra := fin_eq (f16)
  have b_h : fH n = h := fin_eq (f10)
  show decodeSeq 3 n = _
  rw [seq_21 hmaj]
  unfold decodeSync
  rw [h1, h2, b_rd, b_ra, b_h]
  rfl

theorem swWait (rd : Reg) (ra : Reg) (h : Hnd) : Statement (.swWait rd ra h) := by
  refine of_number rfl rfl (fun n en => ?_)
  obtain ⟨lt, hmaj, f21, f16, f10, fs, -⟩ := of_SX en (by decide) rd.isLt ra.isLt h.isLt (by decide)
  refine ⟨lt, fun _ => ?_⟩
  have h1 : fld n 4 6 = 0 := (fs 4 6 (by decide)).trans rfl
  have h2 : fld n 0 4 = 1 := (fs 0 4 (by decide)).trans rfl
  have b_rd : fRd n = rd := fin_eq (f21)
  have b_ra : fRa n = ra := fin_eq (f16)
  have b_h : fH n = h := fin_eq (f10)
  show decodeSeq 3 n = _
  rw [seq_21 hmaj]
  unfold decodeSync
  rw [h1, h2, b_rd, b_ra, b_h]
  rfl

theorem swReadTarget (rd : Reg) (ra : Reg) (h : Hnd) : Statement (.swReadTarget rd ra h) := by
  refine of_number rfl rfl (fun n en => ?_)
  obtain ⟨lt, hmaj, f21, f16, f10, fs, -⟩ := of_SX en (by decide) rd.isLt ra.isLt h.isLt (by decide)
  refine ⟨lt, fun _ => ?_⟩
  have h1 : fld n 4 6 = 0 := (fs 4 6 (by decide)).trans rfl
  have h2 : fld n 0 4 = 2 := (fs 0 4 (by decide)).trans rfl
  have b_rd : fRd n = rd := fin_eq (f21)
  have b_ra : fRa n = ra := fin_eq (f16)
  have b_h : fH n = h := fin_eq (f10)
  show decodeSeq 3 n = _
  rw [seq_21 hmaj]
  unfold decodeSync
  rw [h1, h2, b_rd, b_ra, b_h]
  rfl

theorem swReadCount (rd : Reg) (ra : Reg) (h : Hnd) : Statement (.swReadCount rd ra h) := by
  refine of_number rfl rfl (fun n en => ?_)
  obtain ⟨lt, hmaj, f21, f16, f10, fs, -⟩ := of_SX en (by decide) rd.isLt ra.isLt h.isLt (by decide)
  refine ⟨lt, fun _ => ?_⟩
  have h1 : fld n 4 6 = 0 := (fs 4 6 (by decide)).trans rfl
  have h2 : fld n 0 4 = 6 := (fs 0 4 (by decide)).trans rfl
  have b_rd : fRd n = rd := fin_eq (f21)
  have b_ra : fRa n = ra := fin_eq (f16)
  have b_h : fH n = h := fin_eq (f10)
  show decodeSeq 3 n = _
  rw [seq_21 hmaj]
  unfold decodeSync
  rw [h1, h2, b_rd, b_ra, b_h]
  rfl

theorem swReadGen (rd : Reg) (ra : Reg) (h : Hnd) : Statement (.swReadGen rd ra h) := by
  refine of_number rfl rfl (fun n en => ?_)
  obtain ⟨lt, hmaj, f21, f16, f10, fs, -⟩ := of_SX en (by decide) rd.isLt ra.isLt h.isLt (by decide)
  refine ⟨lt, fun _ => ?_⟩
  have h1 : fld n 4 6 = 0 := (fs 4 6 (by decide)).trans rfl
  have h2 : fld n 0 4 = 10 := (fs 0 4 (by decide)).trans rfl
  have b_rd : fRd n = rd := fin_eq (f21)
  have b_ra : fRa n = ra := fin_eq (f16)
  have b_h : fH n = h := fin_eq (f10)
  show decodeSeq 3 n = _
  rw [seq_21 hmaj]
  unfold decodeSync
  rw [h1, h2, b_rd, b_ra, b_h]
  rfl

theorem swReadCode (rd : Reg) (ra : Reg) (h : Hnd) : Statement (.swReadCode rd ra h) := by
  refine of_number rfl rfl (fun n en => ?_)
  obtain ⟨lt, hmaj, f21, f16, f10, fs, -⟩ := of_SX en (by decide) rd.isLt ra.isLt h.isLt (by decide)
  refine ⟨lt, fun _ => ?_⟩
  have h1 : fld n 4 6 = 0 := (fs 4 6 (by decide)).trans rfl
  have h2 : fld n 0 4 = 14 := (fs 0 4 (by decide)).trans rfl
  have b_rd : fRd n = rd := fin_eq (f21)
  have b_ra : fRa n = ra := fin_eq (f16)
  have b_h : fH n = h := fin_eq (f10)
  show decodeSeq 3 n = _
  rw [seq_21 hmaj]
  unfold decodeSync
  rw [h1, h2, b_rd, b_ra, b_h]
  rfl

theorem crewBar : Statement .crewBar := by
  intro _ st w hs he; cases hs; cases he; rfl

theorem wqPush (ra : Reg) (rb : Reg) : Statement (.wqPush ra rb) := by
  refine of_number rfl rfl (fun n en => ?_)
  obtain ⟨lt, hmaj, f21, f16, f11, f0, -⟩ := of_S3 en (by decide) (by decide) ra.isLt rb.isLt (by decide)
  refine ⟨lt, fun _ => ?_⟩
  have h1 : fld n 21 5 = 0 := f21
  have h2 : fld n 0 11 = 0 := f0
  have b_ra : fRa n = ra := fin_eq (f16)
  have b_rb : fRb n = rb := fin_eq (f11)
  show decodeSeq 3 n = _
  rw [seq_23 hmaj]
  rw [h1, h2, b_ra, b_rb]
  rfl

theorem viewSet (v : Fin 8) (ra : Reg) : Statement (.viewSet v ra) := by
  refine of_number rfl rfl (fun n en => ?_)
  obtain ⟨lt, hmaj, f21, f16, -, fs⟩ := of_SI en (by decide) (by have := v.isLt; omega) ra.isLt (by decide)
  refine ⟨lt, fun _ => ?_⟩
  have h1 : fld n 24 2 = 0 := (by clear en; have := v.isLt; simp only [fld] at f21 ⊢; omega)
  have h2 : fld n 0 16 = 0 := (fs 0 16 (by decide)).trans rfl
  have b_v : finOf 8 (n / 2 ^ 21) = v := fin_eq (show fld n 21 3 = v.val from (by clear en; have := v.isLt; simp only [fld] at f21 ⊢; omega))
  have b_ra : fRa n = ra := fin_eq (f16)
  show decodeSeq 3 n = _
  rw [seq_24 hmaj]
  rw [h1, h2, b_v, b_ra]
  rfl

theorem mendOpen : Statement .mendOpen := by
  intro _ st w hs he; cases hs; cases he; rfl

theorem mendSave (rd : Reg) (ra : Reg) (h : Hnd) : Statement (.mendSave rd ra h) := by
  refine of_number rfl rfl (fun n en => ?_)
  obtain ⟨lt, hmaj, f21, f16, f10, fs, -⟩ := of_SX en (by decide) rd.isLt ra.isLt h.isLt (by decide)
  refine ⟨lt, fun hw => ?_⟩
  have h1 : fld n 2 8 = 0 := (fs 2 8 (by decide)).trans rfl
  have h2 : fld n 0 2 = 1 := (fs 0 2 (by decide)).trans rfl
  have h3 : (fld n 10 6 != 0) = true := fin_ne hw (f10)
  have b_rd : fRd n = rd := fin_eq (f21)
  have b_ra : fRa n = ra := fin_eq (f16)
  have b_h : fH n = h := fin_eq (f10)
  show decodeSeq 3 n = _
  rw [seq_25 hmaj]
  unfold decodeMend
  rw [h1, h2, h3, b_rd, b_ra, b_h]
  rfl

theorem mendClose : Statement .mendClose := by
  intro _ st w hs he; cases hs; cases he; rfl

theorem cinchOpen (scope : Scope) : Statement (.cinchOpen scope) := by
  refine of_number rfl rfl (fun n en => ?_)
  obtain ⟨lt, hmaj, -, -, -, -, fs⟩ := of_S3 en (by decide) (by decide) (by decide) (by decide) (by have := scope_lt scope; omega)
  simp only [encS3] at en
  have := scope_lt scope
  refine ⟨lt, fun _ => ?_⟩
  have h1 : fld n 11 15 = 0 := (show n / 2 ^ 11 % 2 ^ 15 = 0 by omega)
  have h2 : fld n 4 4 = 0 := (fs 4 4 (by decide)).trans (by simp only [fld]; have := scope_lt scope; omega)
  have h3 : fld n 8 3 = 0 := (fs 8 3 (by decide)).trans (by simp only [fld]; have := scope_lt scope; omega)
  have h4 : scopeOf (fld n 0 4) = some scope := scope_eq ((fs 0 4 (by decide)).trans (by simp only [fld]; have := scope_lt scope; omega))
  show decodeSeq 3 n = _
  rw [seq_26 hmaj]
  unfold decodeCinch
  rw [h1, h2, h3, h4]
  rfl

theorem cinchClose : Statement .cinchClose := by
  intro _ st w hs he; cases hs; cases he; rfl

theorem cinchDrop : Statement .cinchDrop := by
  intro _ st w hs he; cases hs; cases he; rfl

theorem clkRead (rd : Reg) (rb : Reg) : Statement (.clkRead rd rb) := by
  refine of_number rfl rfl (fun n en => ?_)
  obtain ⟨lt, hmaj, f21, f16, f11, -, fs⟩ := of_S3 en (by decide) rd.isLt (by decide) rb.isLt (by decide)
  refine ⟨lt, fun _ => ?_⟩
  have h1 : fld n 1 10 = 0 := (fs 1 10 (by decide)).trans rfl
  have h2 : fld n 0 1 = 0 := (fs 0 1 (by decide)).trans rfl
  have h3 : fld n 16 5 = 0 := f16
  have b_rd : fRd n = rd := fin_eq (f21)
  have b_rb : fRb n = rb := fin_eq (f11)
  show decodeSeq 3 n = _
  rw [seq_27 hmaj]
  unfold decodeClock
  rw [h1, h2, h3, b_rd, b_rb]
  rfl

theorem clkWait (ra : Reg) : Statement (.clkWait ra) := by
  refine of_number rfl rfl (fun n en => ?_)
  obtain ⟨lt, hmaj, f21, f16, f11, -, fs⟩ := of_S3 en (by decide) (by decide) ra.isLt (by decide) (by decide)
  refine ⟨lt, fun _ => ?_⟩
  have h1 : fld n 1 10 = 0 := (fs 1 10 (by decide)).trans rfl
  have h2 : fld n 0 1 = 1 := (fs 0 1 (by decide)).trans rfl
  have h3 : fld n 21 5 = 0 := f21
  have h4 : fld n 11 5 = 0 := f11
  have b_ra : fRa n = ra := fin_eq (f16)
  show decodeSeq 3 n = _
  rw [seq_27 hmaj]
  unfold decodeClock
  rw [h1, h2, h3, h4, b_ra]
  rfl

theorem stStamp (rd : Reg) (ra : Reg) (rb : Reg) (scope : Scope) : Statement (.stStamp rd ra rb scope) := by
  refine of_number rfl rfl (fun n en => ?_)
  obtain ⟨lt, hmaj, f21, f16, f11, -, fs⟩ := of_S3 en (by decide) rd.isLt ra.isLt rb.isLt (by have := scope_lt scope; omega)
  refine ⟨lt, fun _ => ?_⟩
  have h1 : fld n 4 7 = 0 := (fs 4 7 (by decide)).trans (by simp only [fld]; have := scope_lt scope; omega)
  have h2 : scopeOf (fld n 0 4) = some scope := scope_eq ((fs 0 4 (by decide)).trans (by simp only [fld]; have := scope_lt scope; omega))
  have b_rd : fRd n = rd := fin_eq (f21)
  have b_ra : fRa n = ra := fin_eq (f16)
  have b_rb : fRb n = rb := fin_eq (f11)
  show decodeSeq 3 n = _
  rw [seq_28 hmaj]
  unfold decodeStamp
  rw [h1, h2, b_rd, b_ra, b_rb]
  rfl

theorem ldAsof (rd : Reg) (ra : Reg) (rb : Reg) (scope : Scope) : Statement (.ldAsof rd ra rb scope) := by
  refine of_number rfl rfl (fun n en => ?_)
  obtain ⟨lt, hmaj, f21, f16, f11, -, fs⟩ := of_S3 en (by decide) rd.isLt ra.isLt rb.isLt (by have := scope_lt scope; omega)
  refine ⟨lt, fun _ => ?_⟩
  have h1 : fld n 4 7 = 0 := (fs 4 7 (by decide)).trans (by simp only [fld]; have := scope_lt scope; omega)
  have h2 : scopeOf (fld n 0 4) = some scope := scope_eq ((fs 0 4 (by decide)).trans (by simp only [fld]; have := scope_lt scope; omega))
  have b_rd : fRd n = rd := fin_eq (f21)
  have b_ra : fRa n = ra := fin_eq (f16)
  have b_rb : fRb n = rb := fin_eq (f11)
  show decodeSeq 3 n = _
  rw [seq_29 hmaj]
  unfold decodeStamp
  rw [h1, h2, b_rd, b_ra, b_rb]
  rfl

theorem bilClaim (rd : Reg) (ra : Reg) (h : Hnd) : Statement (.bilClaim rd ra h) := by
  refine of_number rfl rfl (fun n en => ?_)
  obtain ⟨lt, hmaj, f21, f16, f10, fs, -⟩ := of_SX en (by decide) rd.isLt ra.isLt h.isLt (by decide)
  refine ⟨lt, fun _ => ?_⟩
  have h1 : fld n 2 8 = 0 := (fs 2 8 (by decide)).trans rfl
  have h2 : fld n 0 2 = 0 := (fs 0 2 (by decide)).trans rfl
  have b_rd : fRd n = rd := fin_eq (f21)
  have b_ra : fRa n = ra := fin_eq (f16)
  have b_h : fH n = h := fin_eq (f10)
  show decodeSeq 3 n = _
  rw [seq_2A hmaj]
  unfold decodeBillet
  rw [h1, h2, b_rd, b_ra, b_h]
  rfl

theorem bilAdv (rd : Reg) (ra : Reg) (h : Hnd) : Statement (.bilAdv rd ra h) := by
  refine of_number rfl rfl (fun n en => ?_)
  obtain ⟨lt, hmaj, f21, f16, f10, fs, -⟩ := of_SX en (by decide) rd.isLt ra.isLt h.isLt (by decide)
  refine ⟨lt, fun _ => ?_⟩
  have h1 : fld n 2 8 = 0 := (fs 2 8 (by decide)).trans rfl
  have h2 : fld n 0 2 = 1 := (fs 0 2 (by decide)).trans rfl
  have b_rd : fRd n = rd := fin_eq (f21)
  have b_ra : fRa n = ra := fin_eq (f16)
  have b_h : fH n = h := fin_eq (f10)
  show decodeSeq 3 n = _
  rw [seq_2A hmaj]
  unfold decodeBillet
  rw [h1, h2, b_rd, b_ra, b_h]
  rfl

theorem bilPost (rd : Reg) (ra : Reg) (h : Hnd) : Statement (.bilPost rd ra h) := by
  refine of_number rfl rfl (fun n en => ?_)
  obtain ⟨lt, hmaj, f21, f16, f10, fs, -⟩ := of_SX en (by decide) rd.isLt ra.isLt h.isLt (by decide)
  refine ⟨lt, fun _ => ?_⟩
  have h1 : fld n 2 8 = 0 := (fs 2 8 (by decide)).trans rfl
  have h2 : fld n 0 2 = 2 := (fs 0 2 (by decide)).trans rfl
  have b_rd : fRd n = rd := fin_eq (f21)
  have b_ra : fRa n = ra := fin_eq (f16)
  have b_h : fH n = h := fin_eq (f10)
  show decodeSeq 3 n = _
  rw [seq_2A hmaj]
  unfold decodeBillet
  rw [h1, h2, b_rd, b_ra, b_h]
  rfl

theorem yield : Statement .yield := by
  intro _ st w hs he; cases hs; cases he; rfl

theorem csrRead (rd : Reg) (csr : Csr) : Statement (.csrRead rd csr) := by
  refine of_number rfl rfl (fun n en => ?_)
  obtain ⟨lt, hmaj, f21, f16, -, fs⟩ := of_SI en (by decide) rd.isLt (by decide) (by have := csr_lt csr; omega)
  refine ⟨lt, fun _ => ?_⟩
  have h1 : fld n 12 2 = 0 := (fs 12 2 (by decide)).trans (by simp only [fld]; have := csr_lt csr; omega)
  have h2 : csrOf (fld n 0 12) = some csr := csr_eq ((fs 0 12 (by decide)).trans (by simp only [fld]; have := csr_lt csr; omega))
  have h3 : fld n 14 2 = 0 := (fs 14 2 (by decide)).trans (by simp only [fld]; have := csr_lt csr; omega)
  have h4 : fld n 16 5 = 0 := f16
  have b_rd : fRd n = rd := fin_eq (f21)
  show decodeSeq 3 n = _
  rw [seq_2C hmaj]
  unfold decodeCsr
  rw [h1, h2, h3, h4, b_rd]
  rfl

theorem csrWrite (ra : Reg) (csr : Csr) : Statement (.csrWrite ra csr) := by
  refine of_number rfl rfl (fun n en => ?_)
  obtain ⟨lt, hmaj, f21, f16, -, fs⟩ := of_SI en (by decide) (by decide) ra.isLt (by have := csr_lt csr; omega)
  refine ⟨lt, fun hw => ?_⟩
  have h1 : fld n 12 2 = 0 := (fs 12 2 (by decide)).trans (by simp only [fld]; have := csr_lt csr; omega)
  have h2 : csrOf (fld n 0 12) = some csr := csr_eq ((fs 0 12 (by decide)).trans (by simp only [fld]; have := csr_lt csr; omega))
  have h3 : fld n 14 2 = 1 := (fs 14 2 (by decide)).trans (by simp only [fld]; have := csr_lt csr; omega)
  have h4 : fld n 21 5 = 0 := f21
  have h5 : Csr.writable csr = true := hw
  have b_ra : fRa n = ra := fin_eq (f16)
  show decodeSeq 3 n = _
  rw [seq_2C hmaj]
  unfold decodeCsr
  rw [h1, h2, h3, h4, b_ra]
  exact (if_pos h5).trans rfl

theorem csrSwap (rd : Reg) (ra : Reg) (csr : Csr) : Statement (.csrSwap rd ra csr) := by
  refine of_number rfl rfl (fun n en => ?_)
  obtain ⟨lt, hmaj, f21, f16, -, fs⟩ := of_SI en (by decide) rd.isLt ra.isLt (by have := csr_lt csr; omega)
  refine ⟨lt, fun hw => ?_⟩
  have h1 : fld n 12 2 = 0 := (fs 12 2 (by decide)).trans (by simp only [fld]; have := csr_lt csr; omega)
  have h2 : csrOf (fld n 0 12) = some csr := csr_eq ((fs 0 12 (by decide)).trans (by simp only [fld]; have := csr_lt csr; omega))
  have h3 : fld n 14 2 = 2 := (fs 14 2 (by decide)).trans (by simp only [fld]; have := csr_lt csr; omega)
  have h4 : Csr.writable csr = true := hw
  have b_rd : fRd n = rd := fin_eq (f21)
  have b_ra : fRa n = ra := fin_eq (f16)
  show decodeSeq 3 n = _
  rw [seq_2C hmaj]
  unfold decodeCsr
  rw [h1, h2, h3, b_rd, b_ra]
  exact (if_pos h4).trans rfl

theorem trap (imm : BitVec 16) : Statement (.trap imm) := by
  refine of_number rfl rfl (fun n en => ?_)
  obtain ⟨lt, hmaj, f21, f16, m0, -⟩ := of_SI en (by decide) (by decide) (by decide) imm.isLt
  simp only [encSI] at en
  have := imm.isLt
  refine ⟨lt, fun hw => ?_⟩
  have h1 : fld n 21 5 = 0 := f21
  have h2 : fld n 16 5 = 0 := f16
  have h3 : decide (fld n 0 16 ≥ 0x8000) = true := decide_eq_true (show n / 2 ^ 0 % 2 ^ 16 ≥ 0x8000 by have := of_decide_eq_true hw; omega)
  have b_imm : fImm n = imm := bits_eq m0
  show decodeSeq 3 n = _
  rw [seq_2D hmaj]
  unfold decodeTrap
  rw [h1, h2, h3, b_imm]
  rfl

theorem tret : Statement .tret := by
  intro _ st w hs he; cases hs; cases he; rfl

theorem injStrike (st : StreamId) (imm : BitVec 16) : Statement (.injStrike st imm) := by
  refine of_number rfl rfl (fun n en => ?_)
  obtain ⟨lt, hmaj, f21, f16, m0, -⟩ := of_SI en (by decide) (by decide) (by have := stream_lt st; omega) imm.isLt
  refine ⟨lt, fun _ => ?_⟩
  have h1 : fld n 21 5 = 0 := f21
  have h2 : fld n 18 3 = 0 := (by clear en; have := stream_lt st; simp only [fld] at f16 ⊢; omega)
  have h3 : streamOf (fld n 16 2) = st := stream_eq ((by clear en; have := stream_lt st; simp only [fld] at f16 ⊢; omega))
  have b_imm : fImm n = imm := bits_eq m0
  show decodeSeq 3 n = _
  rw [seq_2E hmaj]
  rw [h1, h2, h3, b_imm]
  rfl

theorem nop : Statement .nop := by
  intro _ st w hs he; cases hs; cases he; rfl

theorem endProg : Statement .endProg := by
  intro _ st w hs he; cases hs; cases he; rfl

theorem vAdd (d : TreeOp) (a : TreeOp) (b : TreeOp) (wa : Bool) (wb : Bool) : Statement (.vAdd d a b wa wb) := by
  refine of_number rfl rfl (fun n en => ?_)
  obtain ⟨lt, hmaj, f18, f10, f2, m1, m0, -⟩ := of_VA en (by decide) (tree_lt d) (tree_lt a) (tree_lt b) (bit_lt wa) (bit_lt wb)
  refine ⟨lt, fun _ => ?_⟩
  have b_d : fVd n = d := tree_eq (f18)
  have b_a : fVa n = a := tree_eq (f10)
  have b_b : fVb n = b := tree_eq (f2)
  have b_wa : fWa n = wa := bool_eq m1
  have b_wb : fWb n = wb := bool_eq m0
  show decodeVec 3 n = _
  rw [vec_01 hmaj]
  unfold decodeVab
  rw [b_d, b_a, b_b, b_wa, b_wb]

theorem vSub (d : TreeOp) (a : TreeOp) (b : TreeOp) (wa : Bool) (wb : Bool) : Statement (.vSub d a b wa wb) := by
  refine of_number rfl rfl (fun n en => ?_)
  obtain ⟨lt, hmaj, f18, f10, f2, m1, m0, -⟩ := of_VA en (by decide) (tree_lt d) (tree_lt a) (tree_lt b) (bit_lt wa) (bit_lt wb)
  refine ⟨lt, fun _ => ?_⟩
  have b_d : fVd n = d := tree_eq (f18)
  have b_a : fVa n = a := tree_eq (f10)
  have b_b : fVb n = b := tree_eq (f2)
  have b_wa : fWa n = wa := bool_eq m1
  have b_wb : fWb n = wb := bool_eq m0
  show decodeVec 3 n = _
  rw [vec_02 hmaj]
  unfold decodeVab
  rw [b_d, b_a, b_b, b_wa, b_wb]

theorem vMul (d : TreeOp) (a : TreeOp) (b : TreeOp) (wa : Bool) (wb : Bool) : Statement (.vMul d a b wa wb) := by
  refine of_number rfl rfl (fun n en => ?_)
  obtain ⟨lt, hmaj, f18, f10, f2, m1, m0, -⟩ := of_VA en (by decide) (tree_lt d) (tree_lt a) (tree_lt b) (bit_lt wa) (bit_lt wb)
  refine ⟨lt, fun _ => ?_⟩
  have b_d : fVd n = d := tree_eq (f18)
  have b_a : fVa n = a := tree_eq (f10)
  have b_b : fVb n = b := tree_eq (f2)
  have b_wa : fWa n = wa := bool_eq m1
  have b_wb : fWb n = wb := bool_eq m0
  show decodeVec 3 n = _
  rw [vec_03 hmaj]
  unfold decodeVab
  rw [b_d, b_a, b_b, b_wa, b_wb]

theorem vFma (d : TreeOp) (a : TreeOp) (b : TreeOp) (wa : Bool) (wb : Bool) : Statement (.vFma d a b wa wb) := by
  refine of_number rfl rfl (fun n en => ?_)
  obtain ⟨lt, hmaj, f18, f10, f2, m1, m0, -⟩ := of_VA en (by decide) (tree_lt d) (tree_lt a) (tree_lt b) (bit_lt wa) (bit_lt wb)
  refine ⟨lt, fun _ => ?_⟩
  have b_d : fVd n = d := tree_eq (f18)
  have b_a : fVa n = a := tree_eq (f10)
  have b_b : fVb n = b := tree_eq (f2)
  have b_wa : fWa n = wa := bool_eq m1
  have b_wb : fWb n = wb := bool_eq m0
  show decodeVec 3 n = _
  rw [vec_04 hmaj]
  unfold decodeVab
  rw [b_d, b_a, b_b, b_wa, b_wb]

theorem vMin (d : TreeOp) (a : TreeOp) (b : TreeOp) (wa : Bool) (wb : Bool) : Statement (.vMin d a b wa wb) := by
  refine of_number rfl rfl (fun n en => ?_)
  obtain ⟨lt, hmaj, f18, f10, f2, m1, m0, -⟩ := of_VA en (by decide) (tree_lt d) (tree_lt a) (tree_lt b) (bit_lt wa) (bit_lt wb)
  refine ⟨lt, fun _ => ?_⟩
  have b_d : fVd n = d := tree_eq (f18)
  have b_a : fVa n = a := tree_eq (f10)
  have b_b : fVb n = b := tree_eq (f2)
  have b_wa : fWa n = wa := bool_eq m1
  have b_wb : fWb n = wb := bool_eq m0
  show decodeVec 3 n = _
  rw [vec_05 hmaj]
  unfold decodeVab
  rw [b_d, b_a, b_b, b_wa, b_wb]

theorem vMax (d : TreeOp) (a : TreeOp) (b : TreeOp) (wa : Bool) (wb : Bool) : Statement (.vMax d a b wa wb) := by
  refine of_number rfl rfl (fun n en => ?_)
  obtain ⟨lt, hmaj, f18, f10, f2, m1, m0, -⟩ := of_VA en (by decide) (tree_lt d) (tree_lt a) (tree_lt b) (bit_lt wa) (bit_lt wb)
  refine ⟨lt, fun _ => ?_⟩
  have b_d : fVd n = d := tree_eq (f18)
  have b_a : fVa n = a := tree_eq (f10)
  have b_b : fVb n = b := tree_eq (f2)
  have b_wa : fWa n = wa := bool_eq m1
  have b_wb : fWb n = wb := bool_eq m0
  show decodeVec 3 n = _
  rw [vec_06 hmaj]
  unfold decodeVab
  rw [b_d, b_a, b_b, b_wa, b_wb]

theorem vAbs (d : TreeOp) (a : TreeOp) (wa : Bool) : Statement (.vAbs d a wa) := by
  refine of_number rfl rfl (fun n en => ?_)
  obtain ⟨lt, hmaj, f18, f10, f2, m1, -, f0⟩ := of_VA en (by decide) (tree_lt d) (tree_lt a) (by decide) (bit_lt wa) (by decide)
  refine ⟨lt, fun _ => ?_⟩
  have h1 : fld n 2 8 = 0 := f2
  have h2 : fld n 0 1 = 0 := f0
  have b_d : fVd n = d := tree_eq (f18)
  have b_a : fVa n = a := tree_eq (f10)
  have b_wa : fWa n = wa := bool_eq m1
  show decodeVec 3 n = _
  rw [vec_07 hmaj]
  unfold decodeVa
  rw [h1, h2, b_d, b_a, b_wa]
  rfl

theorem vNeg (d : TreeOp) (a : TreeOp) (wa : Bool) : Statement (.vNeg d a wa) := by
  refine of_number rfl rfl (fun n en => ?_)
  obtain ⟨lt, hmaj, f18, f10, f2, m1, -, f0⟩ := of_VA en (by decide) (tree_lt d) (tree_lt a) (by decide) (bit_lt wa) (by decide)
  refine ⟨lt, fun _ => ?_⟩
  have h1 : fld n 2 8 = 0 := f2
  have h2 : fld n 0 1 = 0 := f0
  have b_d : fVd n = d := tree_eq (f18)
  have b_a : fVa n = a := tree_eq (f10)
  have b_wa : fWa n = wa := bool_eq m1
  show decodeVec 3 n = _
  rw [vec_08 hmaj]
  unfold decodeVa
  rw [h1, h2, b_d, b_a, b_wa]
  rfl

theorem vAnd (d : TreeOp) (a : TreeOp) (b : TreeOp) (wa : Bool) (wb : Bool) : Statement (.vAnd d a b wa wb) := by
  refine of_number rfl rfl (fun n en => ?_)
  obtain ⟨lt, hmaj, f18, f10, f2, m1, m0, -⟩ := of_VA en (by decide) (tree_lt d) (tree_lt a) (tree_lt b) (bit_lt wa) (bit_lt wb)
  refine ⟨lt, fun _ => ?_⟩
  have b_d : fVd n = d := tree_eq (f18)
  have b_a : fVa n = a := tree_eq (f10)
  have b_b : fVb n = b := tree_eq (f2)
  have b_wa : fWa n = wa := bool_eq m1
  have b_wb : fWb n = wb := bool_eq m0
  show decodeVec 3 n = _
  rw [vec_09 hmaj]
  unfold decodeVab
  rw [b_d, b_a, b_b, b_wa, b_wb]

theorem vOr (d : TreeOp) (a : TreeOp) (b : TreeOp) (wa : Bool) (wb : Bool) : Statement (.vOr d a b wa wb) := by
  refine of_number rfl rfl (fun n en => ?_)
  obtain ⟨lt, hmaj, f18, f10, f2, m1, m0, -⟩ := of_VA en (by decide) (tree_lt d) (tree_lt a) (tree_lt b) (bit_lt wa) (bit_lt wb)
  refine ⟨lt, fun _ => ?_⟩
  have b_d : fVd n = d := tree_eq (f18)
  have b_a : fVa n = a := tree_eq (f10)
  have b_b : fVb n = b := tree_eq (f2)
  have b_wa : fWa n = wa := bool_eq m1
  have b_wb : fWb n = wb := bool_eq m0
  show decodeVec 3 n = _
  rw [vec_0A hmaj]
  unfold decodeVab
  rw [b_d, b_a, b_b, b_wa, b_wb]

theorem vXor (d : TreeOp) (a : TreeOp) (b : TreeOp) (wa : Bool) (wb : Bool) : Statement (.vXor d a b wa wb) := by
  refine of_number rfl rfl (fun n en => ?_)
  obtain ⟨lt, hmaj, f18, f10, f2, m1, m0, -⟩ := of_VA en (by decide) (tree_lt d) (tree_lt a) (tree_lt b) (bit_lt wa) (bit_lt wb)
  refine ⟨lt, fun _ => ?_⟩
  have b_d : fVd n = d := tree_eq (f18)
  have b_a : fVa n = a := tree_eq (f10)
  have b_b : fVb n = b := tree_eq (f2)
  have b_wa : fWa n = wa := bool_eq m1
  have b_wb : fWb n = wb := bool_eq m0
  show decodeVec 3 n = _
  rw [vec_0B hmaj]
  unfold decodeVab
  rw [b_d, b_a, b_b, b_wa, b_wb]

theorem vShl (d : TreeOp) (a : TreeOp) (b : TreeOp) (wa : Bool) (wb : Bool) : Statement (.vShl d a b wa wb) := by
  refine of_number rfl rfl (fun n en => ?_)
  obtain ⟨lt, hmaj, f18, f10, f2, m1, m0, -⟩ := of_VA en (by decide) (tree_lt d) (tree_lt a) (tree_lt b) (bit_lt wa) (bit_lt wb)
  refine ⟨lt, fun _ => ?_⟩
  have b_d : fVd n = d := tree_eq (f18)
  have b_a : fVa n = a := tree_eq (f10)
  have b_b : fVb n = b := tree_eq (f2)
  have b_wa : fWa n = wa := bool_eq m1
  have b_wb : fWb n = wb := bool_eq m0
  show decodeVec 3 n = _
  rw [vec_0C hmaj]
  unfold decodeVab
  rw [b_d, b_a, b_b, b_wa, b_wb]

theorem vShr (d : TreeOp) (a : TreeOp) (b : TreeOp) (wa : Bool) (wb : Bool) : Statement (.vShr d a b wa wb) := by
  refine of_number rfl rfl (fun n en => ?_)
  obtain ⟨lt, hmaj, f18, f10, f2, m1, m0, -⟩ := of_VA en (by decide) (tree_lt d) (tree_lt a) (tree_lt b) (bit_lt wa) (bit_lt wb)
  refine ⟨lt, fun _ => ?_⟩
  have b_d : fVd n = d := tree_eq (f18)
  have b_a : fVa n = a := tree_eq (f10)
  have b_b : fVb n = b := tree_eq (f2)
  have b_wa : fWa n = wa := bool_eq m1
  have b_wb : fWb n = wb := bool_eq m0
  show decodeVec 3 n = _
  rw [vec_0D hmaj]
  unfold decodeVab
  rw [b_d, b_a, b_b, b_wa, b_wb]

theorem vSar (d : TreeOp) (a : TreeOp) (b : TreeOp) (wa : Bool) (wb : Bool) : Statement (.vSar d a b wa wb) := by
  refine of_number rfl rfl (fun n en => ?_)
  obtain ⟨lt, hmaj, f18, f10, f2, m1, m0, -⟩ := of_VA en (by decide) (tree_lt d) (tree_lt a) (tree_lt b) (bit_lt wa) (bit_lt wb)
  refine ⟨lt, fun _ => ?_⟩
  have b_d : fVd n = d := tree_eq (f18)
  have b_a : fVa n = a := tree_eq (f10)
  have b_b : fVb n = b := tree_eq (f2)
  have b_wa : fWa n = wa := bool_eq m1
  have b_wb : fWb n = wb := bool_eq m0
  show decodeVec 3 n = _
  rw [vec_0E hmaj]
  unfold decodeVab
  rw [b_d, b_a, b_b, b_wa, b_wb]

theorem vCmpeq (len : Fin 8) (a : TreeOp) (b : TreeOp) (wa : Bool) (wb : Bool) : Statement (.vCmpeq len a b wa wb) := by
  refine of_number rfl rfl (fun n en => ?_)
  obtain ⟨lt, hmaj, f18, f10, f2, m1, m0, -⟩ := of_VA en (by decide) (by have := len.isLt; omega) (tree_lt a) (tree_lt b) (bit_lt wa) (bit_lt wb)
  refine ⟨lt, fun _ => ?_⟩
  have h1 : fld n 21 5 = 0 := (by clear en; have := len.isLt; simp only [fld] at f18 ⊢; omega)
  have b_len : finOf 8 (n / 2 ^ 18) = len := fin_eq (show fld n 18 3 = len.val from (by clear en; have := len.isLt; simp only [fld] at f18 ⊢; omega))
  have b_a : fVa n = a := tree_eq (f10)
  have b_b : fVb n = b := tree_eq (f2)
  have b_wa : fWa n = wa := bool_eq m1
  have b_wb : fWb n = wb := bool_eq m0
  show decodeVec 3 n = _
  rw [vec_0F hmaj]
  unfold decodeCmp
  rw [h1, b_len, b_a, b_b, b_wa, b_wb]
  rfl

theorem vCmplt (len : Fin 8) (a : TreeOp) (b : TreeOp) (wa : Bool) (wb : Bool) : Statement (.vCmplt len a b wa wb) := by
  refine of_number rfl rfl (fun n en => ?_)
  obtain ⟨lt, hmaj, f18, f10, f2, m1, m0, -⟩ := of_VA en (by decide) (by have := len.isLt; omega) (tree_lt a) (tree_lt b) (bit_lt wa) (bit_lt wb)
  refine ⟨lt, fun _ => ?_⟩
  have h1 : fld n 21 5 = 0 := (by clear en; have := len.isLt; simp only [fld] at f18 ⊢; omega)
  have b_len : finOf 8 (n / 2 ^ 18) = len := fin_eq (show fld n 18 3 = len.val from (by clear en; have := len.isLt; simp only [fld] at f18 ⊢; omega))
  have b_a : fVa n = a := tree_eq (f10)
  have b_b : fVb n = b := tree_eq (f2)
  have b_wa : fWa n = wa := bool_eq m1
  have b_wb : fWb n = wb := bool_eq m0
  show decodeVec 3 n = _
  rw [vec_10 hmaj]
  unfold decodeCmp
  rw [h1, b_len, b_a, b_b, b_wa, b_wb]
  rfl

theorem vCmple (len : Fin 8) (a : TreeOp) (b : TreeOp) (wa : Bool) (wb : Bool) : Statement (.vCmple len a b wa wb) := by
  refine of_number rfl rfl (fun n en => ?_)
  obtain ⟨lt, hmaj, f18, f10, f2, m1, m0, -⟩ := of_VA en (by decide) (by have := len.isLt; omega) (tree_lt a) (tree_lt b) (bit_lt wa) (bit_lt wb)
  refine ⟨lt, fun _ => ?_⟩
  have h1 : fld n 21 5 = 0 := (by clear en; have := len.isLt; simp only [fld] at f18 ⊢; omega)
  have b_len : finOf 8 (n / 2 ^ 18) = len := fin_eq (show fld n 18 3 = len.val from (by clear en; have := len.isLt; simp only [fld] at f18 ⊢; omega))
  have b_a : fVa n = a := tree_eq (f10)
  have b_b : fVb n = b := tree_eq (f2)
  have b_wa : fWa n = wa := bool_eq m1
  have b_wb : fWb n = wb := bool_eq m0
  show decodeVec 3 n = _
  rw [vec_11 hmaj]
  unfold decodeCmp
  rw [h1, b_len, b_a, b_b, b_wa, b_wb]
  rfl

theorem vSel (d : TreeOp) (a : TreeOp) (b : TreeOp) (wa : Bool) (wb : Bool) : Statement (.vSel d a b wa wb) := by
  refine of_number rfl rfl (fun n en => ?_)
  obtain ⟨lt, hmaj, f18, f10, f2, m1, m0, -⟩ := of_VA en (by decide) (tree_lt d) (tree_lt a) (tree_lt b) (bit_lt wa) (bit_lt wb)
  refine ⟨lt, fun _ => ?_⟩
  have b_d : fVd n = d := tree_eq (f18)
  have b_a : fVa n = a := tree_eq (f10)
  have b_b : fVb n = b := tree_eq (f2)
  have b_wa : fWa n = wa := bool_eq m1
  have b_wb : fWb n = wb := bool_eq m0
  show decodeVec 3 n = _
  rw [vec_12 hmaj]
  unfold decodeVab
  rw [b_d, b_a, b_b, b_wa, b_wb]

theorem vCvt (d : TreeOp) (a : TreeOp) (t : EType) (wa : Bool) : Statement (.vCvt d a t wa) := by
  refine of_number rfl rfl (fun n en => ?_)
  obtain ⟨lt, hmaj, f18, f10, f2, m1, -, f0⟩ := of_VA en (by decide) (tree_lt d) (tree_lt a) (by have := etype_lt t; omega) (bit_lt wa) (by decide)
  refine ⟨lt, fun _ => ?_⟩
  have h1 : fld n 2 4 = 0 := (by clear en; have := etype_lt t; simp only [fld] at f2 ⊢; omega)
  have h2 : fld n 0 1 = 0 := f0
  have h3 : etypeOf 3 (fld n 6 4) = some t := etype_eq ((by clear en; have := etype_lt t; simp only [fld] at f2 ⊢; omega))
  have b_d : fVd n = d := tree_eq (f18)
  have b_a : fVa n = a := tree_eq (f10)
  have b_wa : fWa n = wa := bool_eq m1
  show decodeVec 3 n = _
  rw [vec_13 hmaj]
  rw [h1, h2, h3, b_d, b_a, b_wa]
  rfl

theorem vAddi (d : TreeOp) (a : TreeOp) (wa : Bool) (imm : BitVec 9) : Statement (.vAddi d a wa imm) := by
  refine of_number rfl rfl (fun n en => ?_)
  obtain ⟨lt, hmaj, f18, f10, m9, m0, -⟩ := of_VI en (by decide) (tree_lt d) (tree_lt a) (bit_lt wa) imm.isLt
  refine ⟨lt, fun _ => ?_⟩
  have b_d : fVd n = d := tree_eq (f18)
  have b_a : fVa n = a := tree_eq (f10)
  have b_wa : boolOf (n / 2 ^ 9) = wa := bool_eq m9
  have b_imm : BitVec.ofNat 9 n = imm := bits_eq m0
  show decodeVec 3 n = _
  rw [vec_14 hmaj]
  unfold decodeVi
  rw [b_d, b_a, b_wa, b_imm]

theorem vMuli (d : TreeOp) (a : TreeOp) (wa : Bool) (imm : BitVec 9) : Statement (.vMuli d a wa imm) := by
  refine of_number rfl rfl (fun n en => ?_)
  obtain ⟨lt, hmaj, f18, f10, m9, m0, -⟩ := of_VI en (by decide) (tree_lt d) (tree_lt a) (bit_lt wa) imm.isLt
  refine ⟨lt, fun _ => ?_⟩
  have b_d : fVd n = d := tree_eq (f18)
  have b_a : fVa n = a := tree_eq (f10)
  have b_wa : boolOf (n / 2 ^ 9) = wa := bool_eq m9
  have b_imm : BitVec.ofNat 9 n = imm := bits_eq m0
  show decodeVec 3 n = _
  rw [vec_15 hmaj]
  unfold decodeVi
  rw [b_d, b_a, b_wa, b_imm]

theorem vMovi (d : TreeOp) (imm : BitVec 9) : Statement (.vMovi d imm) := by
  refine of_number rfl rfl (fun n en => ?_)
  obtain ⟨lt, hmaj, f18, -, -, m0, -⟩ := of_VI en (by decide) (tree_lt d) (by decide) (by decide) imm.isLt
  simp only [encVI] at en
  have := tree_lt d
  have := imm.isLt
  refine ⟨lt, fun _ => ?_⟩
  have h1 : fld n 9 9 = 0 := (show n / 2 ^ 9 % 2 ^ 9 = 0 by omega)
  have b_d : fVd n = d := tree_eq (f18)
  have b_imm : BitVec.ofNat 9 n = imm := bits_eq m0
  show decodeVec 3 n = _
  rw [vec_16 hmaj]
  rw [h1, b_d, b_imm]
  rfl

theorem vBcast (d : TreeOp) (a : TreeOp) (wa : Bool) (imm : BitVec 9) : Statement (.vBcast d a wa imm) := by
  refine of_number rfl rfl (fun n en => ?_)
  obtain ⟨lt, hmaj, f18, f10, m9, m0, -⟩ := of_VI en (by decide) (tree_lt d) (tree_lt a) (bit_lt wa) imm.isLt
  refine ⟨lt, fun _ => ?_⟩
  have b_d : fVd n = d := tree_eq (f18)
  have b_a : fVa n = a := tree_eq (f10)
  have b_wa : boolOf (n / 2 ^ 9) = wa := bool_eq m9
  have b_imm : BitVec.ofNat 9 n = imm := bits_eq m0
  show decodeVec 3 n = _
  rw [vec_17 hmaj]
  unfold decodeVi
  rw [b_d, b_a, b_wa, b_imm]

theorem vPerm (d : TreeOp) (a : TreeOp) (b : TreeOp) (wa : Bool) (wb : Bool) : Statement (.vPerm d a b wa wb) := by
  refine of_number rfl rfl (fun n en => ?_)
  obtain ⟨lt, hmaj, f18, f10, f2, m1, m0, -⟩ := of_VA en (by decide) (tree_lt d) (tree_lt a) (tree_lt b) (bit_lt wa) (bit_lt wb)
  refine ⟨lt, fun _ => ?_⟩
  have b_d : fVd n = d := tree_eq (f18)
  have b_a : fVa n = a := tree_eq (f10)
  have b_b : fVb n = b := tree_eq (f2)
  have b_wa : fWa n = wa := bool_eq m1
  have b_wb : fWb n = wb := bool_eq m0
  show decodeVec 3 n = _
  rw [vec_18 hmaj]
  unfold decodeVab
  rw [b_d, b_a, b_b, b_wa, b_wb]

theorem vRedsum (d : TreeOp) (a : TreeOp) (wa : Bool) : Statement (.vRedsum d a wa) := by
  refine of_number rfl rfl (fun n en => ?_)
  obtain ⟨lt, hmaj, f18, f10, f2, m1, -, f0⟩ := of_VA en (by decide) (tree_lt d) (tree_lt a) (by decide) (bit_lt wa) (by decide)
  refine ⟨lt, fun _ => ?_⟩
  have h1 : fld n 2 8 = 0 := f2
  have h2 : fld n 0 1 = 0 := f0
  have b_d : fVd n = d := tree_eq (f18)
  have b_a : fVa n = a := tree_eq (f10)
  have b_wa : fWa n = wa := bool_eq m1
  show decodeVec 3 n = _
  rw [vec_19 hmaj]
  unfold decodeVa
  rw [h1, h2, b_d, b_a, b_wa]
  rfl

theorem vRedmax (d : TreeOp) (a : TreeOp) (wa : Bool) : Statement (.vRedmax d a wa) := by
  refine of_number rfl rfl (fun n en => ?_)
  obtain ⟨lt, hmaj, f18, f10, f2, m1, -, f0⟩ := of_VA en (by decide) (tree_lt d) (tree_lt a) (by decide) (bit_lt wa) (by decide)
  refine ⟨lt, fun _ => ?_⟩
  have h1 : fld n 2 8 = 0 := f2
  have h2 : fld n 0 1 = 0 := f0
  have b_d : fVd n = d := tree_eq (f18)
  have b_a : fVa n = a := tree_eq (f10)
  have b_wa : fWa n = wa := bool_eq m1
  show decodeVec 3 n = _
  rw [vec_1A hmaj]
  unfold decodeVa
  rw [h1, h2, b_d, b_a, b_wa]
  rfl

theorem vRedmin (d : TreeOp) (a : TreeOp) (wa : Bool) : Statement (.vRedmin d a wa) := by
  refine of_number rfl rfl (fun n en => ?_)
  obtain ⟨lt, hmaj, f18, f10, f2, m1, -, f0⟩ := of_VA en (by decide) (tree_lt d) (tree_lt a) (by decide) (bit_lt wa) (by decide)
  refine ⟨lt, fun _ => ?_⟩
  have h1 : fld n 2 8 = 0 := f2
  have h2 : fld n 0 1 = 0 := f0
  have b_d : fVd n = d := tree_eq (f18)
  have b_a : fVa n = a := tree_eq (f10)
  have b_wa : fWa n = wa := bool_eq m1
  show decodeVec 3 n = _
  rw [vec_1B hmaj]
  unfold decodeVa
  rw [h1, h2, b_d, b_a, b_wa]
  rfl

theorem vArgmax (d : TreeOp) (a : TreeOp) (wa : Bool) : Statement (.vArgmax d a wa) := by
  refine of_number rfl rfl (fun n en => ?_)
  obtain ⟨lt, hmaj, f18, f10, f2, m1, -, f0⟩ := of_VA en (by decide) (tree_lt d) (tree_lt a) (by decide) (bit_lt wa) (by decide)
  refine ⟨lt, fun _ => ?_⟩
  have h1 : fld n 2 8 = 0 := f2
  have h2 : fld n 0 1 = 0 := f0
  have b_d : fVd n = d := tree_eq (f18)
  have b_a : fVa n = a := tree_eq (f10)
  have b_wa : fWa n = wa := bool_eq m1
  show decodeVec 3 n = _
  rw [vec_1C hmaj]
  unfold decodeVa
  rw [h1, h2, b_d, b_a, b_wa]
  rfl

theorem vLd (d : TreeOp) (h : Hnd) (j : KIx) : Statement (.vLd d h j) := by
  refine of_number rfl rfl (fun n en => ?_)
  obtain ⟨lt, hmaj, f18, f10, f2, -, -, -⟩ := of_VA en (by decide) (tree_lt d) (by have := h.isLt; omega) (by have := j.isLt; omega) (by decide) (by decide)
  simp only [encVA] at en
  have := tree_lt d
  have := h.isLt
  have := j.isLt
  refine ⟨lt, fun hw => ?_⟩
  have h1 : fld n 10 2 = 0 := (by clear en; have := h.isLt; simp only [fld] at f10 ⊢; omega)
  have h2 : fld n 5 5 = 0 := (by clear en; have := j.isLt; simp only [fld] at f2 ⊢; omega)
  have h3 : fld n 0 2 = 0 := (show n / 2 ^ 0 % 2 ^ 2 = 0 by omega)
  have h4 : (fld n 12 6 != 0) = true := fin_ne hw ((by clear en; have := h.isLt; simp only [fld] at f10 ⊢; omega))
  have b_d : fVd n = d := tree_eq (f18)
  have b_h : finOf 64 (n / 2 ^ 12) = h := fin_eq (show fld n 12 6 = h.val from (by clear en; have := h.isLt; simp only [fld] at f10 ⊢; omega))
  have b_j : finOf 8 (n / 2 ^ 2) = j := fin_eq (show fld n 2 3 = j.val from (by clear en; have := j.isLt; simp only [fld] at f2 ⊢; omega))
  show decodeVec 3 n = _
  rw [vec_1D hmaj]
  rw [h1, h2, h3, h4, b_d, b_h, b_j]
  rfl

theorem vSt (d : TreeOp) (h : Hnd) (j : KIx) (wa : Bool) : Statement (.vSt d h j wa) := by
  refine of_number rfl rfl (fun n en => ?_)
  obtain ⟨lt, hmaj, f18, f10, f2, m1, -, f0⟩ := of_VA en (by decide) (tree_lt d) (by have := h.isLt; omega) (by have := j.isLt; omega) (bit_lt wa) (by decide)
  refine ⟨lt, fun hw => ?_⟩
  have h1 : fld n 10 2 = 0 := (by clear en; have := h.isLt; simp only [fld] at f10 ⊢; omega)
  have h2 : fld n 5 5 = 0 := (by clear en; have := j.isLt; simp only [fld] at f2 ⊢; omega)
  have h3 : fld n 0 1 = 0 := f0
  have h4 : (fld n 12 6 != 0) = true := fin_ne hw ((by clear en; have := h.isLt; simp only [fld] at f10 ⊢; omega))
  have b_d : fVd n = d := tree_eq (f18)
  have b_h : finOf 64 (n / 2 ^ 12) = h := fin_eq (show fld n 12 6 = h.val from (by clear en; have := h.isLt; simp only [fld] at f10 ⊢; omega))
  have b_j : finOf 8 (n / 2 ^ 2) = j := fin_eq (show fld n 2 3 = j.val from (by clear en; have := j.isLt; simp only [fld] at f2 ⊢; omega))
  have b_wa : fWa n = wa := bool_eq m1
  show decodeVec 3 n = _
  rw [vec_1E hmaj]
  rw [h1, h2, h3, h4, b_d, b_h, b_j, b_wa]
  rfl

theorem vGather (d : TreeOp) (a : TreeOp) (h : Hnd) (wa : Bool) : Statement (.vGather d a h wa) := by
  refine of_number rfl rfl (fun n en => ?_)
  obtain ⟨lt, hmaj, f18, f10, f2, m1, -, f0⟩ := of_VA en (by decide) (tree_lt d) (tree_lt a) (by have := h.isLt; omega) (bit_lt wa) (by decide)
  refine ⟨lt, fun _ => ?_⟩
  have h1 : fld n 2 2 = 0 := (by clear en; have := h.isLt; simp only [fld] at f2 ⊢; omega)
  have h2 : fld n 0 1 = 0 := f0
  have b_d : fVd n = d := tree_eq (f18)
  have b_a : fVa n = a := tree_eq (f10)
  have b_h : finOf 64 (n / 2 ^ 4) = h := fin_eq (show fld n 4 6 = h.val from (by clear en; have := h.isLt; simp only [fld] at f2 ⊢; omega))
  have b_wa : fWa n = wa := bool_eq m1
  show decodeVec 3 n = _
  rw [vec_1F hmaj]
  rw [h1, h2, b_d, b_a, b_h, b_wa]
  rfl

theorem vScatter (d : TreeOp) (a : TreeOp) (h : Hnd) (wa : Bool) (wb : Bool) : Statement (.vScatter d a h wa wb) := by
  refine of_number rfl rfl (fun n en => ?_)
  obtain ⟨lt, hmaj, f18, f10, f2, m1, m0, -⟩ := of_VA en (by decide) (tree_lt d) (tree_lt a) (by have := h.isLt; omega) (bit_lt wa) (bit_lt wb)
  refine ⟨lt, fun _ => ?_⟩
  have h1 : fld n 2 2 = 0 := (by clear en; have := h.isLt; simp only [fld] at f2 ⊢; omega)
  have b_d : fVd n = d := tree_eq (f18)
  have b_a : fVa n = a := tree_eq (f10)
  have b_h : finOf 64 (n / 2 ^ 4) = h := fin_eq (show fld n 4 6 = h.val from (by clear en; have := h.isLt; simp only [fld] at f2 ⊢; omega))
  have b_wa : fWa n = wa := bool_eq m1
  have b_wb : fWb n = wb := bool_eq m0
  show decodeVec 3 n = _
  rw [vec_20 hmaj]
  rw [h1, b_d, b_a, b_h, b_wa, b_wb]
  rfl

theorem vRcpa (d : TreeOp) (a : TreeOp) (wa : Bool) : Statement (.vRcpa d a wa) := by
  refine of_number rfl rfl (fun n en => ?_)
  obtain ⟨lt, hmaj, f18, f10, f2, m1, -, f0⟩ := of_VA en (by decide) (tree_lt d) (tree_lt a) (by decide) (bit_lt wa) (by decide)
  refine ⟨lt, fun _ => ?_⟩
  have h1 : fld n 2 8 = 0 := f2
  have h2 : fld n 0 1 = 0 := f0
  have b_d : fVd n = d := tree_eq (f18)
  have b_a : fVa n = a := tree_eq (f10)
  have b_wa : fWa n = wa := bool_eq m1
  show decodeVec 3 n = _
  rw [vec_21 hmaj]
  unfold decodeVa
  rw [h1, h2, b_d, b_a, b_wa]
  rfl

theorem vRsqa (d : TreeOp) (a : TreeOp) (wa : Bool) : Statement (.vRsqa d a wa) := by
  refine of_number rfl rfl (fun n en => ?_)
  obtain ⟨lt, hmaj, f18, f10, f2, m1, -, f0⟩ := of_VA en (by decide) (tree_lt d) (tree_lt a) (by decide) (bit_lt wa) (by decide)
  refine ⟨lt, fun _ => ?_⟩
  have h1 : fld n 2 8 = 0 := f2
  have h2 : fld n 0 1 = 0 := f0
  have b_d : fVd n = d := tree_eq (f18)
  have b_a : fVa n = a := tree_eq (f10)
  have b_wa : fWa n = wa := bool_eq m1
  show decodeVec 3 n = _
  rw [vec_22 hmaj]
  unfold decodeVa
  rw [h1, h2, b_d, b_a, b_wa]
  rfl

theorem vRcpf (d : TreeOp) (a : TreeOp) (b : TreeOp) (wa : Bool) (wb : Bool) : Statement (.vRcpf d a b wa wb) := by
  refine of_number rfl rfl (fun n en => ?_)
  obtain ⟨lt, hmaj, f18, f10, f2, m1, m0, -⟩ := of_VA en (by decide) (tree_lt d) (tree_lt a) (tree_lt b) (bit_lt wa) (bit_lt wb)
  refine ⟨lt, fun _ => ?_⟩
  have b_d : fVd n = d := tree_eq (f18)
  have b_a : fVa n = a := tree_eq (f10)
  have b_b : fVb n = b := tree_eq (f2)
  have b_wa : fWa n = wa := bool_eq m1
  have b_wb : fWb n = wb := bool_eq m0
  show decodeVec 3 n = _
  rw [vec_23 hmaj]
  unfold decodeVab
  rw [b_d, b_a, b_b, b_wa, b_wb]

theorem vRsqf (d : TreeOp) (a : TreeOp) (b : TreeOp) (wa : Bool) (wb : Bool) : Statement (.vRsqf d a b wa wb) := by
  refine of_number rfl rfl (fun n en => ?_)
  obtain ⟨lt, hmaj, f18, f10, f2, m1, m0, -⟩ := of_VA en (by decide) (tree_lt d) (tree_lt a) (tree_lt b) (bit_lt wa) (bit_lt wb)
  refine ⟨lt, fun _ => ?_⟩
  have b_d : fVd n = d := tree_eq (f18)
  have b_a : fVa n = a := tree_eq (f10)
  have b_b : fVb n = b := tree_eq (f2)
  have b_wa : fWa n = wa := bool_eq m1
  have b_wb : fWb n = wb := bool_eq m0
  show decodeVec 3 n = _
  rw [vec_24 hmaj]
  unfold decodeVab
  rw [b_d, b_a, b_b, b_wa, b_wb]

theorem vCorCrot (d : TreeOp) (a : TreeOp) (wa : Bool) (len : BitVec 5) : Statement (.vCorCrot d a wa len) := by
  refine of_number rfl rfl (fun n en => ?_)
  obtain ⟨lt, hmaj, f18, f10, m9, -, fs⟩ := of_VI en (by decide) (tree_lt d) (tree_lt a) (bit_lt wa) (by have := len.isLt; omega)
  refine ⟨lt, fun hw => ?_⟩
  have h1 : fld n 5 4 = 0 := (fs 5 4 (by decide)).trans (by simp only [fld]; have := len.isLt; omega)
  have h2 : (decide (4 ≤ fld n 0 5) && decide (fld n 0 5 ≤ 30)) = true := by rw [show fld n 0 5 = len.toNat from (fs 0 5 (by decide)).trans (by simp only [fld]; have := len.isLt; omega)]; exact hw
  have b_d : fVd n = d := tree_eq (f18)
  have b_a : fVa n = a := tree_eq (f10)
  have b_wa : boolOf (n / 2 ^ 9) = wa := bool_eq m9
  have b_len : BitVec.ofNat 5 n = len := bits_eq ((show n % 2 ^ 5 = fld n 0 5 by simp [fld]).trans ((fs 0 5 (by decide)).trans (by simp only [fld]; have := len.isLt; omega)))
  show decodeVec 3 n = _
  rw [vec_25 hmaj]
  unfold decodeCor
  rw [h1, h2, b_d, b_a, b_wa, b_len]
  rfl

theorem vCorCvec (d : TreeOp) (a : TreeOp) (wa : Bool) (len : BitVec 5) : Statement (.vCorCvec d a wa len) := by
  refine of_number rfl rfl (fun n en => ?_)
  obtain ⟨lt, hmaj, f18, f10, m9, -, fs⟩ := of_VI en (by decide) (tree_lt d) (tree_lt a) (bit_lt wa) (by have := len.isLt; omega)
  refine ⟨lt, fun hw => ?_⟩
  have h1 : fld n 5 4 = 1 := (fs 5 4 (by decide)).trans (by simp only [fld]; have := len.isLt; omega)
  have h2 : (decide (4 ≤ fld n 0 5) && decide (fld n 0 5 ≤ 30)) = true := by rw [show fld n 0 5 = len.toNat from (fs 0 5 (by decide)).trans (by simp only [fld]; have := len.isLt; omega)]; exact hw
  have b_d : fVd n = d := tree_eq (f18)
  have b_a : fVa n = a := tree_eq (f10)
  have b_wa : boolOf (n / 2 ^ 9) = wa := bool_eq m9
  have b_len : BitVec.ofNat 5 n = len := bits_eq ((show n % 2 ^ 5 = fld n 0 5 by simp [fld]).trans ((fs 0 5 (by decide)).trans (by simp only [fld]; have := len.isLt; omega)))
  show decodeVec 3 n = _
  rw [vec_25 hmaj]
  unfold decodeCor
  rw [h1, h2, b_d, b_a, b_wa, b_len]
  rfl

theorem vCorHrot (d : TreeOp) (a : TreeOp) (wa : Bool) (len : BitVec 5) : Statement (.vCorHrot d a wa len) := by
  refine of_number rfl rfl (fun n en => ?_)
  obtain ⟨lt, hmaj, f18, f10, m9, -, fs⟩ := of_VI en (by decide) (tree_lt d) (tree_lt a) (bit_lt wa) (by have := len.isLt; omega)
  refine ⟨lt, fun hw => ?_⟩
  have h1 : fld n 5 4 = 2 := (fs 5 4 (by decide)).trans (by simp only [fld]; have := len.isLt; omega)
  have h2 : (decide (4 ≤ fld n 0 5) && decide (fld n 0 5 ≤ 30)) = true := by rw [show fld n 0 5 = len.toNat from (fs 0 5 (by decide)).trans (by simp only [fld]; have := len.isLt; omega)]; exact hw
  have b_d : fVd n = d := tree_eq (f18)
  have b_a : fVa n = a := tree_eq (f10)
  have b_wa : boolOf (n / 2 ^ 9) = wa := bool_eq m9
  have b_len : BitVec.ofNat 5 n = len := bits_eq ((show n % 2 ^ 5 = fld n 0 5 by simp [fld]).trans ((fs 0 5 (by decide)).trans (by simp only [fld]; have := len.isLt; omega)))
  show decodeVec 3 n = _
  rw [vec_25 hmaj]
  unfold decodeCor
  rw [h1, h2, b_d, b_a, b_wa, b_len]
  rfl

theorem vCorHvec (d : TreeOp) (a : TreeOp) (wa : Bool) (len : BitVec 5) : Statement (.vCorHvec d a wa len) := by
  refine of_number rfl rfl (fun n en => ?_)
  obtain ⟨lt, hmaj, f18, f10, m9, -, fs⟩ := of_VI en (by decide) (tree_lt d) (tree_lt a) (bit_lt wa) (by have := len.isLt; omega)
  refine ⟨lt, fun hw => ?_⟩
  have h1 : fld n 5 4 = 3 := (fs 5 4 (by decide)).trans (by simp only [fld]; have := len.isLt; omega)
  have h2 : (decide (4 ≤ fld n 0 5) && decide (fld n 0 5 ≤ 30)) = true := by rw [show fld n 0 5 = len.toNat from (fs 0 5 (by decide)).trans (by simp only [fld]; have := len.isLt; omega)]; exact hw
  have b_d : fVd n = d := tree_eq (f18)
  have b_a : fVa n = a := tree_eq (f10)
  have b_wa : boolOf (n / 2 ^ 9) = wa := bool_eq m9
  have b_len : BitVec.ofNat 5 n = len := bits_eq ((show n % 2 ^ 5 = fld n 0 5 by simp [fld]).trans ((fs 0 5 (by decide)).trans (by simp only [fld]; have := len.isLt; omega)))
  show decodeVec 3 n = _
  rw [vec_25 hmaj]
  unfold decodeCor
  rw [h1, h2, b_d, b_a, b_wa, b_len]
  rfl

theorem vCorLrot (d : TreeOp) (a : TreeOp) (wa : Bool) (len : BitVec 5) : Statement (.vCorLrot d a wa len) := by
  refine of_number rfl rfl (fun n en => ?_)
  obtain ⟨lt, hmaj, f18, f10, m9, -, fs⟩ := of_VI en (by decide) (tree_lt d) (tree_lt a) (bit_lt wa) (by have := len.isLt; omega)
  refine ⟨lt, fun hw => ?_⟩
  have h1 : fld n 5 4 = 4 := (fs 5 4 (by decide)).trans (by simp only [fld]; have := len.isLt; omega)
  have h2 : (decide (4 ≤ fld n 0 5) && decide (fld n 0 5 ≤ 30)) = true := by rw [show fld n 0 5 = len.toNat from (fs 0 5 (by decide)).trans (by simp only [fld]; have := len.isLt; omega)]; exact hw
  have b_d : fVd n = d := tree_eq (f18)
  have b_a : fVa n = a := tree_eq (f10)
  have b_wa : boolOf (n / 2 ^ 9) = wa := bool_eq m9
  have b_len : BitVec.ofNat 5 n = len := bits_eq ((show n % 2 ^ 5 = fld n 0 5 by simp [fld]).trans ((fs 0 5 (by decide)).trans (by simp only [fld]; have := len.isLt; omega)))
  show decodeVec 3 n = _
  rw [vec_25 hmaj]
  unfold decodeCor
  rw [h1, h2, b_d, b_a, b_wa, b_len]
  rfl

theorem vCorLvec (d : TreeOp) (a : TreeOp) (wa : Bool) (len : BitVec 5) : Statement (.vCorLvec d a wa len) := by
  refine of_number rfl rfl (fun n en => ?_)
  obtain ⟨lt, hmaj, f18, f10, m9, -, fs⟩ := of_VI en (by decide) (tree_lt d) (tree_lt a) (bit_lt wa) (by have := len.isLt; omega)
  refine ⟨lt, fun hw => ?_⟩
  have h1 : fld n 5 4 = 5 := (fs 5 4 (by decide)).trans (by simp only [fld]; have := len.isLt; omega)
  have h2 : (decide (4 ≤ fld n 0 5) && decide (fld n 0 5 ≤ 30)) = true := by rw [show fld n 0 5 = len.toNat from (fs 0 5 (by decide)).trans (by simp only [fld]; have := len.isLt; omega)]; exact hw
  have b_d : fVd n = d := tree_eq (f18)
  have b_a : fVa n = a := tree_eq (f10)
  have b_wa : boolOf (n / 2 ^ 9) = wa := bool_eq m9
  have b_len : BitVec.ofNat 5 n = len := bits_eq ((show n % 2 ^ 5 = fld n 0 5 by simp [fld]).trans ((fs 0 5 (by decide)).trans (by simp only [fld]; have := len.isLt; omega)))
  show decodeVec 3 n = _
  rw [vec_25 hmaj]
  unfold decodeCor
  rw [h1, h2, b_d, b_a, b_wa, b_len]
  rfl

theorem vSigq (d : TreeOp) (a : TreeOp) (wa : Bool) : Statement (.vSigq d a wa) := by
  refine of_number rfl rfl (fun n en => ?_)
  obtain ⟨lt, hmaj, f18, f10, f2, m1, -, f0⟩ := of_VA en (by decide) (tree_lt d) (tree_lt a) (by decide) (bit_lt wa) (by decide)
  refine ⟨lt, fun _ => ?_⟩
  have h1 : fld n 2 8 = 0 := f2
  have h2 : fld n 0 1 = 0 := f0
  have b_d : fVd n = d := tree_eq (f18)
  have b_a : fVa n = a := tree_eq (f10)
  have b_wa : fWa n = wa := bool_eq m1
  show decodeVec 3 n = _
  rw [vec_26 hmaj]
  unfold decodeVa
  rw [h1, h2, b_d, b_a, b_wa]
  rfl

theorem vCdfq (d : TreeOp) (a : TreeOp) (wa : Bool) : Statement (.vCdfq d a wa) := by
  refine of_number rfl rfl (fun n en => ?_)
  obtain ⟨lt, hmaj, f18, f10, f2, m1, -, f0⟩ := of_VA en (by decide) (tree_lt d) (tree_lt a) (by decide) (bit_lt wa) (by decide)
  refine ⟨lt, fun _ => ?_⟩
  have h1 : fld n 2 8 = 0 := f2
  have h2 : fld n 0 1 = 0 := f0
  have b_d : fVd n = d := tree_eq (f18)
  have b_a : fVa n = a := tree_eq (f10)
  have b_wa : fWa n = wa := bool_eq m1
  show decodeVec 3 n = _
  rw [vec_27 hmaj]
  unfold decodeVa
  rw [h1, h2, b_d, b_a, b_wa]
  rfl

theorem vHash (d : TreeOp) (a : TreeOp) (b : TreeOp) (wa : Bool) (wb : Bool) : Statement (.vHash d a b wa wb) := by
  refine of_number rfl rfl (fun n en => ?_)
  obtain ⟨lt, hmaj, f18, f10, f2, m1, m0, -⟩ := of_VA en (by decide) (tree_lt d) (tree_lt a) (tree_lt b) (bit_lt wa) (bit_lt wb)
  refine ⟨lt, fun _ => ?_⟩
  have b_d : fVd n = d := tree_eq (f18)
  have b_a : fVa n = a := tree_eq (f10)
  have b_b : fVb n = b := tree_eq (f2)
  have b_wa : fWa n = wa := bool_eq m1
  have b_wb : fWb n = wb := bool_eq m0
  show decodeVec 3 n = _
  rw [vec_28 hmaj]
  unfold decodeVab
  rw [b_d, b_a, b_b, b_wa, b_wb]

theorem vNoise (d : TreeOp) (a : TreeOp) (b : TreeOp) (wa : Bool) (wb : Bool) : Statement (.vNoise d a b wa wb) := by
  refine of_number rfl rfl (fun n en => ?_)
  obtain ⟨lt, hmaj, f18, f10, f2, m1, m0, -⟩ := of_VA en (by decide) (tree_lt d) (tree_lt a) (tree_lt b) (bit_lt wa) (bit_lt wb)
  refine ⟨lt, fun _ => ?_⟩
  have b_d : fVd n = d := tree_eq (f18)
  have b_a : fVa n = a := tree_eq (f10)
  have b_b : fVb n = b := tree_eq (f2)
  have b_wa : fWa n = wa := bool_eq m1
  have b_wb : fWb n = wb := bool_eq m0
  show decodeVec 3 n = _
  rw [vec_29 hmaj]
  unfold decodeVab
  rw [b_d, b_a, b_b, b_wa, b_wb]

theorem vBitt (d : TreeOp) (a : TreeOp) (wa : Bool) (imm : BitVec 9) : Statement (.vBitt d a wa imm) := by
  refine of_number rfl rfl (fun n en => ?_)
  obtain ⟨lt, hmaj, f18, f10, m9, m0, -⟩ := of_VI en (by decide) (tree_lt d) (tree_lt a) (bit_lt wa) imm.isLt
  refine ⟨lt, fun _ => ?_⟩
  have b_d : fVd n = d := tree_eq (f18)
  have b_a : fVa n = a := tree_eq (f10)
  have b_wa : boolOf (n / 2 ^ 9) = wa := bool_eq m9
  have b_imm : BitVec.ofNat 9 n = imm := bits_eq m0
  show decodeVec 3 n = _
  rw [vec_2A hmaj]
  unfold decodeVi
  rw [b_d, b_a, b_wa, b_imm]

theorem vClz (d : TreeOp) (a : TreeOp) (wa : Bool) : Statement (.vClz d a wa) := by
  refine of_number rfl rfl (fun n en => ?_)
  obtain ⟨lt, hmaj, f18, f10, f2, m1, -, f0⟩ := of_VA en (by decide) (tree_lt d) (tree_lt a) (by decide) (bit_lt wa) (by decide)
  refine ⟨lt, fun _ => ?_⟩
  have h1 : fld n 2 8 = 0 := f2
  have h2 : fld n 0 1 = 0 := f0
  have b_d : fVd n = d := tree_eq (f18)
  have b_a : fVa n = a := tree_eq (f10)
  have b_wa : fWa n = wa := bool_eq m1
  show decodeVec 3 n = _
  rw [vec_2B hmaj]
  unfold decodeVa
  rw [h1, h2, b_d, b_a, b_wa]
  rfl

theorem vPopc (d : TreeOp) (a : TreeOp) (wa : Bool) : Statement (.vPopc d a wa) := by
  refine of_number rfl rfl (fun n en => ?_)
  obtain ⟨lt, hmaj, f18, f10, f2, m1, -, f0⟩ := of_VA en (by decide) (tree_lt d) (tree_lt a) (by decide) (bit_lt wa) (by decide)
  refine ⟨lt, fun _ => ?_⟩
  have h1 : fld n 2 8 = 0 := f2
  have h2 : fld n 0 1 = 0 := f0
  have b_d : fVd n = d := tree_eq (f18)
  have b_a : fVa n = a := tree_eq (f10)
  have b_wa : fWa n = wa := bool_eq m1
  show decodeVec 3 n = _
  rw [vec_2C hmaj]
  unfold decodeVa
  rw [h1, h2, b_d, b_a, b_wa]
  rfl

theorem vShape (t : EType) (lanes : BitVec 9) : Statement (.vShape t lanes) := by
  refine of_number rfl rfl (fun n en => ?_)
  have := etype_lt t
  have := lanes.isLt
  have hmaj : fld n 26 6 = 45 := show n / 2 ^ 26 % 2 ^ 6 = 45 by omega
  refine ⟨by omega, fun hw => ?_⟩
  have h1 : fld n 9 9 = 0 := (show n / 2 ^ 9 % 2 ^ 9 = 0 by omega)
  have h2 : etypeOf 3 (fld n 18 4) = some t := etype_eq ((show n / 2 ^ 18 % 2 ^ 4 = t.code by omega))
  have h3 : fld n 22 1 = 0 := (show n / 2 ^ 22 % 2 ^ 1 = 0 by omega)
  have h4 : lanesOk t lanes = true := hw
  have h5 : fld n 23 3 = 0 := (show n / 2 ^ 23 % 2 ^ 3 = 0 by omega)
  have b_lanes : BitVec.ofNat 9 n = lanes := bits_eq (show (n) % 2 ^ 9 = lanes.toNat by omega)
  show decodeVec 3 n = _
  rw [vec_2D hmaj]
  unfold decodeShape
  rw [h1, h2, h3, h5, b_lanes]
  exact (if_pos h4).trans rfl

theorem vShapeMasked (len : Fin 8) (t : EType) (lanes : BitVec 9) : Statement (.vShapeMasked len t lanes) := by
  refine of_number rfl rfl (fun n en => ?_)
  have := len.isLt
  have := etype_lt t
  have := lanes.isLt
  have hmaj : fld n 26 6 = 45 := show n / 2 ^ 26 % 2 ^ 6 = 45 by omega
  refine ⟨by omega, fun hw => ?_⟩
  have h1 : fld n 9 9 = 0 := (show n / 2 ^ 9 % 2 ^ 9 = 0 by omega)
  have h2 : etypeOf 3 (fld n 18 4) = some t := etype_eq ((show n / 2 ^ 18 % 2 ^ 4 = t.code by omega))
  have h3 : fld n 22 1 = 1 := (show n / 2 ^ 22 % 2 ^ 1 = 1 by omega)
  have h4 : lanesOk t lanes = true := hw
  have b_len : finOf 8 (n / 2 ^ 23) = len := fin_eq (show (n / 2 ^ 23) % 8 = len.val by omega)
  have b_lanes : BitVec.ofNat 9 n = lanes := bits_eq (show (n) % 2 ^ 9 = lanes.toNat by omega)
  show decodeVec 3 n = _
  rw [vec_2D hmaj]
  unfold decodeShape
  rw [h1, h2, h3, b_len, b_lanes]
  exact (if_pos h4).trans rfl

theorem vMaskAnd (d : Fin 8) (a : Fin 8) (b : Fin 8) : Statement (.vMaskAnd d a b) := by
  refine of_number rfl rfl (fun n en => ?_)
  obtain ⟨lt, hmaj, f18, f10, f2, -, -, -⟩ := of_VA en (by decide) (by have := d.isLt; omega) (by have := a.isLt; omega) (by have := b.isLt; omega) (by decide) (by decide)
  simp only [encVA] at en
  have := d.isLt
  have := a.isLt
  have := b.isLt
  refine ⟨lt, fun _ => ?_⟩
  have h1 : fld n 21 2 = 0 := (by clear en; have := d.isLt; simp only [fld] at f18 ⊢; omega)
  have h2 : fld n 13 5 = 0 := (by clear en; have := a.isLt; simp only [fld] at f10 ⊢; omega)
  have h3 : fld n 5 5 = 0 := (by clear en; have := b.isLt; simp only [fld] at f2 ⊢; omega)
  have h4 : fld n 0 2 = 0 := (show n / 2 ^ 0 % 2 ^ 2 = 0 by omega)
  have h5 : fld n 23 3 = 0 := (by clear en; have := d.isLt; simp only [fld] at f18 ⊢; omega)
  have b_d : finOf 8 (n / 2 ^ 18) = d := fin_eq (show fld n 18 3 = d.val from (by clear en; have := d.isLt; simp only [fld] at f18 ⊢; omega))
  have b_a : finOf 8 (n / 2 ^ 10) = a := fin_eq (show fld n 10 3 = a.val from (by clear en; have := a.isLt; simp only [fld] at f10 ⊢; omega))
  have b_b : finOf 8 (n / 2 ^ 2) = b := fin_eq (show fld n 2 3 = b.val from (by clear en; have := b.isLt; simp only [fld] at f2 ⊢; omega))
  show decodeVec 3 n = _
  rw [vec_2E hmaj]
  unfold decodeMask
  rw [h1, h2, h3, h4, h5, b_d, b_a, b_b]
  rfl

theorem vMaskOr (d : Fin 8) (a : Fin 8) (b : Fin 8) : Statement (.vMaskOr d a b) := by
  refine of_number rfl rfl (fun n en => ?_)
  obtain ⟨lt, hmaj, f18, f10, f2, -, -, -⟩ := of_VA en (by decide) (by have := d.isLt; omega) (by have := a.isLt; omega) (by have := b.isLt; omega) (by decide) (by decide)
  simp only [encVA] at en
  have := d.isLt
  have := a.isLt
  have := b.isLt
  refine ⟨lt, fun _ => ?_⟩
  have h1 : fld n 21 2 = 0 := (by clear en; have := d.isLt; simp only [fld] at f18 ⊢; omega)
  have h2 : fld n 13 5 = 0 := (by clear en; have := a.isLt; simp only [fld] at f10 ⊢; omega)
  have h3 : fld n 5 5 = 0 := (by clear en; have := b.isLt; simp only [fld] at f2 ⊢; omega)
  have h4 : fld n 0 2 = 0 := (show n / 2 ^ 0 % 2 ^ 2 = 0 by omega)
  have h5 : fld n 23 3 = 1 := (by clear en; have := d.isLt; simp only [fld] at f18 ⊢; omega)
  have b_d : finOf 8 (n / 2 ^ 18) = d := fin_eq (show fld n 18 3 = d.val from (by clear en; have := d.isLt; simp only [fld] at f18 ⊢; omega))
  have b_a : finOf 8 (n / 2 ^ 10) = a := fin_eq (show fld n 10 3 = a.val from (by clear en; have := a.isLt; simp only [fld] at f10 ⊢; omega))
  have b_b : finOf 8 (n / 2 ^ 2) = b := fin_eq (show fld n 2 3 = b.val from (by clear en; have := b.isLt; simp only [fld] at f2 ⊢; omega))
  show decodeVec 3 n = _
  rw [vec_2E hmaj]
  unfold decodeMask
  rw [h1, h2, h3, h4, h5, b_d, b_a, b_b]
  rfl

theorem vMaskXor (d : Fin 8) (a : Fin 8) (b : Fin 8) : Statement (.vMaskXor d a b) := by
  refine of_number rfl rfl (fun n en => ?_)
  obtain ⟨lt, hmaj, f18, f10, f2, -, -, -⟩ := of_VA en (by decide) (by have := d.isLt; omega) (by have := a.isLt; omega) (by have := b.isLt; omega) (by decide) (by decide)
  simp only [encVA] at en
  have := d.isLt
  have := a.isLt
  have := b.isLt
  refine ⟨lt, fun _ => ?_⟩
  have h1 : fld n 21 2 = 0 := (by clear en; have := d.isLt; simp only [fld] at f18 ⊢; omega)
  have h2 : fld n 13 5 = 0 := (by clear en; have := a.isLt; simp only [fld] at f10 ⊢; omega)
  have h3 : fld n 5 5 = 0 := (by clear en; have := b.isLt; simp only [fld] at f2 ⊢; omega)
  have h4 : fld n 0 2 = 0 := (show n / 2 ^ 0 % 2 ^ 2 = 0 by omega)
  have h5 : fld n 23 3 = 2 := (by clear en; have := d.isLt; simp only [fld] at f18 ⊢; omega)
  have b_d : finOf 8 (n / 2 ^ 18) = d := fin_eq (show fld n 18 3 = d.val from (by clear en; have := d.isLt; simp only [fld] at f18 ⊢; omega))
  have b_a : finOf 8 (n / 2 ^ 10) = a := fin_eq (show fld n 10 3 = a.val from (by clear en; have := a.isLt; simp only [fld] at f10 ⊢; omega))
  have b_b : finOf 8 (n / 2 ^ 2) = b := fin_eq (show fld n 2 3 = b.val from (by clear en; have := b.isLt; simp only [fld] at f2 ⊢; omega))
  show decodeVec 3 n = _
  rw [vec_2E hmaj]
  unfold decodeMask
  rw [h1, h2, h3, h4, h5, b_d, b_a, b_b]
  rfl

theorem vMaskAndn (d : Fin 8) (a : Fin 8) (b : Fin 8) : Statement (.vMaskAndn d a b) := by
  refine of_number rfl rfl (fun n en => ?_)
  obtain ⟨lt, hmaj, f18, f10, f2, -, -, -⟩ := of_VA en (by decide) (by have := d.isLt; omega) (by have := a.isLt; omega) (by have := b.isLt; omega) (by decide) (by decide)
  simp only [encVA] at en
  have := d.isLt
  have := a.isLt
  have := b.isLt
  refine ⟨lt, fun _ => ?_⟩
  have h1 : fld n 21 2 = 0 := (by clear en; have := d.isLt; simp only [fld] at f18 ⊢; omega)
  have h2 : fld n 13 5 = 0 := (by clear en; have := a.isLt; simp only [fld] at f10 ⊢; omega)
  have h3 : fld n 5 5 = 0 := (by clear en; have := b.isLt; simp only [fld] at f2 ⊢; omega)
  have h4 : fld n 0 2 = 0 := (show n / 2 ^ 0 % 2 ^ 2 = 0 by omega)
  have h5 : fld n 23 3 = 3 := (by clear en; have := d.isLt; simp only [fld] at f18 ⊢; omega)
  have b_d : finOf 8 (n / 2 ^ 18) = d := fin_eq (show fld n 18 3 = d.val from (by clear en; have := d.isLt; simp only [fld] at f18 ⊢; omega))
  have b_a : finOf 8 (n / 2 ^ 10) = a := fin_eq (show fld n 10 3 = a.val from (by clear en; have := a.isLt; simp only [fld] at f10 ⊢; omega))
  have b_b : finOf 8 (n / 2 ^ 2) = b := fin_eq (show fld n 2 3 = b.val from (by clear en; have := b.isLt; simp only [fld] at f2 ⊢; omega))
  show decodeVec 3 n = _
  rw [vec_2E hmaj]
  unfold decodeMask
  rw [h1, h2, h3, h4, h5, b_d, b_a, b_b]
  rfl

theorem vMaskNot (d : Fin 8) (a : Fin 8) : Statement (.vMaskNot d a) := by
  refine of_number rfl rfl (fun n en => ?_)
  obtain ⟨lt, hmaj, f18, f10, f2, -, -, -⟩ := of_VA en (by decide) (by have := d.isLt; omega) (by have := a.isLt; omega) (by decide) (by decide) (by decide)
  simp only [encVA] at en
  have := d.isLt
  have := a.isLt
  refine ⟨lt, fun _ => ?_⟩
  have h1 : fld n 21 2 = 0 := (by clear en; have := d.isLt; simp only [fld] at f18 ⊢; omega)
  have h2 : fld n 13 5 = 0 := (by clear en; have := a.isLt; simp only [fld] at f10 ⊢; omega)
  have h3 : fld n 5 5 = 0 := (by clear en; simp only [fld] at f2 ⊢; omega)
  have h4 : fld n 0 2 = 0 := (show n / 2 ^ 0 % 2 ^ 2 = 0 by omega)
  have h5 : fld n 23 3 = 4 := (by clear en; have := d.isLt; simp only [fld] at f18 ⊢; omega)
  have h6 : fld n 2 3 = 0 := (by clear en; simp only [fld] at f2 ⊢; omega)
  have b_d : finOf 8 (n / 2 ^ 18) = d := fin_eq (show fld n 18 3 = d.val from (by clear en; have := d.isLt; simp only [fld] at f18 ⊢; omega))
  have b_a : finOf 8 (n / 2 ^ 10) = a := fin_eq (show fld n 10 3 = a.val from (by clear en; have := a.isLt; simp only [fld] at f10 ⊢; omega))
  show decodeVec 3 n = _
  rw [vec_2E hmaj]
  unfold decodeMask
  rw [h1, h2, h3, h4, h5, h6, b_d, b_a]
  rfl

theorem vMaskSet (d : Fin 8) : Statement (.vMaskSet d) := by
  refine of_number rfl rfl (fun n en => ?_)
  obtain ⟨lt, hmaj, f18, f10, f2, -, -, -⟩ := of_VA en (by decide) (by have := d.isLt; omega) (by decide) (by decide) (by decide) (by decide)
  simp only [encVA] at en
  have := d.isLt
  refine ⟨lt, fun _ => ?_⟩
  have h1 : fld n 21 2 = 0 := (by clear en; have := d.isLt; simp only [fld] at f18 ⊢; omega)
  have h2 : fld n 13 5 = 0 := (by clear en; simp only [fld] at f10 ⊢; omega)
  have h3 : fld n 5 5 = 0 := (by clear en; simp only [fld] at f2 ⊢; omega)
  have h4 : fld n 0 2 = 0 := (show n / 2 ^ 0 % 2 ^ 2 = 0 by omega)
  have h5 : fld n 23 3 = 5 := (by clear en; have := d.isLt; simp only [fld] at f18 ⊢; omega)
  have h6 : fld n 10 3 = 0 := (by clear en; simp only [fld] at f10 ⊢; omega)
  have h7 : fld n 2 3 = 0 := (by clear en; simp only [fld] at f2 ⊢; omega)
  have b_d : finOf 8 (n / 2 ^ 18) = d := fin_eq (show fld n 18 3 = d.val from (by clear en; have := d.isLt; simp only [fld] at f18 ⊢; omega))
  show decodeVec 3 n = _
  rw [vec_2E hmaj]
  unfold decodeMask
  rw [h1, h2, h3, h4, h5, h6, h7, b_d]
  rfl

theorem vMaskClear (d : Fin 8) : Statement (.vMaskClear d) := by
  refine of_number rfl rfl (fun n en => ?_)
  obtain ⟨lt, hmaj, f18, f10, f2, -, -, -⟩ := of_VA en (by decide) (by have := d.isLt; omega) (by decide) (by decide) (by decide) (by decide)
  simp only [encVA] at en
  have := d.isLt
  refine ⟨lt, fun _ => ?_⟩
  have h1 : fld n 21 2 = 0 := (by clear en; have := d.isLt; simp only [fld] at f18 ⊢; omega)
  have h2 : fld n 13 5 = 0 := (by clear en; simp only [fld] at f10 ⊢; omega)
  have h3 : fld n 5 5 = 0 := (by clear en; simp only [fld] at f2 ⊢; omega)
  have h4 : fld n 0 2 = 0 := (show n / 2 ^ 0 % 2 ^ 2 = 0 by omega)
  have h5 : fld n 23 3 = 6 := (by clear en; have := d.isLt; simp only [fld] at f18 ⊢; omega)
  have h6 : fld n 10 3 = 0 := (by clear en; simp only [fld] at f10 ⊢; omega)
  have h7 : fld n 2 3 = 0 := (by clear en; simp only [fld] at f2 ⊢; omega)
  have b_d : finOf 8 (n / 2 ^ 18) = d := fin_eq (show fld n 18 3 = d.val from (by clear en; have := d.isLt; simp only [fld] at f18 ⊢; omega))
  show decodeVec 3 n = _
  rw [vec_2E hmaj]
  unfold decodeMask
  rw [h1, h2, h3, h4, h5, h6, h7, b_d]
  rfl

theorem vLoop (k : KIx) (len : BitVec 23) : Statement (.vLoop k len) := by
  refine of_number rfl rfl (fun n en => ?_)
  obtain ⟨lt, hmaj, f23, m0⟩ := of_VK en (by decide) k.isLt len.isLt
  simp only [encVC] at en
  have := k.isLt
  have := len.isLt
  refine ⟨lt, fun hw => ?_⟩
  have h1 : (fld n 0 23 != 0) = true := bits_ne hw (((show n / 2 ^ 0 % 2 ^ 23 = len.toNat by omega)))
  have b_k : fK n = k := fin_eq (f23)
  have b_len : BitVec.ofNat 23 n = len := bits_eq m0
  show decodeVec 3 n = _
  rw [vec_2F hmaj]
  unfold decodeLoop
  rw [h1, b_k, b_len]
  rfl

theorem vBr (k : KIx) (off : BitVec 23) : Statement (.vBr k off) := by
  refine of_number rfl rfl (fun n en => ?_)
  obtain ⟨lt, hmaj, f23, m0⟩ := of_VK en (by decide) k.isLt off.isLt
  refine ⟨lt, fun _ => ?_⟩
  have b_k : fK n = k := fin_eq (f23)
  have b_off : BitVec.ofNat 23 n = off := bits_eq m0
  show decodeVec 3 n = _
  rw [vec_30 hmaj]
  unfold decodeBr
  rw [b_k, b_off]

theorem vKop (k : KIx) (v : BitVec 21) : Statement (.vKop k v) := by
  refine of_number rfl rfl (fun n en => ?_)
  obtain ⟨lt, hmaj, f23, f21, m0, -⟩ := of_VC en (by decide) k.isLt (by decide) v.isLt
  refine ⟨lt, fun _ => ?_⟩
  have h1 : fld n 21 2 = 0 := f21
  have b_k : fK n = k := fin_eq (f23)
  have b_v : BitVec.ofNat 21 n = v := bits_eq m0
  show decodeVec 3 n = _
  rw [vec_31 hmaj]
  unfold decodeKop
  rw [h1, b_k, b_v]
  rfl

theorem vKopAdd (k : KIx) (v : BitVec 21) : Statement (.vKopAdd k v) := by
  refine of_number rfl rfl (fun n en => ?_)
  obtain ⟨lt, hmaj, f23, f21, m0, -⟩ := of_VC en (by decide) k.isLt (by decide) v.isLt
  refine ⟨lt, fun _ => ?_⟩
  have h1 : fld n 21 2 = 1 := f21
  have b_k : fK n = k := fin_eq (f23)
  have b_v : BitVec.ofNat 21 n = v := bits_eq m0
  show decodeVec 3 n = _
  rw [vec_31 hmaj]
  unfold decodeKop
  rw [h1, b_k, b_v]
  rfl

theorem vKopMov (k : KIx) (i : KIx) : Statement (.vKopMov k i) := by
  refine of_number rfl rfl (fun n en => ?_)
  obtain ⟨lt, hmaj, f23, f21, -, fs⟩ := of_VC en (by decide) k.isLt (by decide) (by have := i.isLt; omega)
  refine ⟨lt, fun _ => ?_⟩
  have h1 : fld n 21 2 = 2 := f21
  have h2 : fld n 3 18 = 0 := (fs 3 18 (by decide)).trans (by simp only [fld]; have := i.isLt; omega)
  have b_k : fK n = k := fin_eq (f23)
  have b_i : finOf 8 n = i := fin_eq ((show n % 8 = fld n 0 3 by simp [fld]).trans ((fs 0 3 (by decide)).trans (by simp only [fld]; have := i.isLt; omega)))
  show decodeVec 3 n = _
  rw [vec_31 hmaj]
  unfold decodeKop
  rw [h1, h2, b_k, b_i]
  rfl

theorem vMendOpen : Statement .vMendOpen := by
  intro _ st w hs he; cases hs; cases he; rfl

theorem vMendSave (k : KIx) (len : BitVec 12) : Statement (.vMendSave k len) := by
  refine of_number rfl rfl (fun n en => ?_)
  obtain ⟨lt, hmaj, f23, f21, -, fs⟩ := of_VC en (by decide) k.isLt (by decide) (by have := len.isLt; omega)
  refine ⟨lt, fun hw => ?_⟩
  have h1 : fld n 21 2 = 1 := f21
  have h2 : fld n 12 9 = 0 := (fs 12 9 (by decide)).trans (by simp only [fld]; have := len.isLt; omega)
  have h3 : saveOk len = true := hw
  have b_k : fK n = k := fin_eq (f23)
  have b_len : BitVec.ofNat 12 n = len := bits_eq ((show n % 2 ^ 12 = fld n 0 12 by simp [fld]).trans ((fs 0 12 (by decide)).trans (by simp only [fld]; have := len.isLt; omega)))
  show decodeVec 3 n = _
  rw [vec_32 hmaj]
  unfold decodeEngMend
  rw [h1, h2, b_k, b_len, h3]
  rfl

theorem vMendClose : Statement .vMendClose := by
  intro _ st w hs he; cases hs; cases he; rfl

theorem vEnd : Statement .vEnd := by
  intro _ st w hs he; cases hs; cases he; rfl

theorem rcInitDec (c : TreeOp) (h : Hnd) : Statement (.rcInitDec c h) := by
  refine of_number rfl rfl (fun n en => ?_)
  obtain ⟨lt, hmaj, f18, f10, f2, -, -, -⟩ := of_VA en (by decide) (tree_lt c) (by have := h.isLt; omega) (by decide) (by decide) (by decide)
  simp only [encVA] at en
  have := tree_lt c
  have := h.isLt
  refine ⟨lt, fun _ => ?_⟩
  have h1 : fld n 10 2 = 0 := (by clear en; have := h.isLt; simp only [fld] at f10 ⊢; omega)
  have h2 : fld n 3 7 = 0 := (by clear en; simp only [fld] at f2 ⊢; omega)
  have h3 : fld n 0 2 = 0 := (show n / 2 ^ 0 % 2 ^ 2 = 0 by omega)
  have h4 : fld n 2 1 = 0 := (by clear en; simp only [fld] at f2 ⊢; omega)
  have b_c : fVd n = c := tree_eq (f18)
  have b_h : finOf 64 (n / 2 ^ 12) = h := fin_eq (show fld n 12 6 = h.val from (by clear en; have := h.isLt; simp only [fld] at f10 ⊢; omega))
  show decodeVec 3 n = _
  rw [vec_34 hmaj]
  unfold decodeRcInit
  rw [h1, h2, h3, h4, b_c, b_h]
  rfl

theorem rcInitEnc (c : TreeOp) (h : Hnd) : Statement (.rcInitEnc c h) := by
  refine of_number rfl rfl (fun n en => ?_)
  obtain ⟨lt, hmaj, f18, f10, f2, -, -, -⟩ := of_VA en (by decide) (tree_lt c) (by have := h.isLt; omega) (by decide) (by decide) (by decide)
  simp only [encVA] at en
  have := tree_lt c
  have := h.isLt
  refine ⟨lt, fun _ => ?_⟩
  have h1 : fld n 10 2 = 0 := (by clear en; have := h.isLt; simp only [fld] at f10 ⊢; omega)
  have h2 : fld n 3 7 = 0 := (by clear en; simp only [fld] at f2 ⊢; omega)
  have h3 : fld n 0 2 = 0 := (show n / 2 ^ 0 % 2 ^ 2 = 0 by omega)
  have h4 : fld n 2 1 = 1 := (by clear en; simp only [fld] at f2 ⊢; omega)
  have b_c : fVd n = c := tree_eq (f18)
  have b_h : finOf 64 (n / 2 ^ 12) = h := fin_eq (show fld n 12 6 = h.val from (by clear en; have := h.isLt; simp only [fld] at f10 ⊢; omega))
  show decodeVec 3 n = _
  rw [vec_34 hmaj]
  unfold decodeRcInit
  rw [h1, h2, h3, h4, b_c, b_h]
  rfl

theorem rcDec (c : TreeOp) (a : TreeOp) (b : TreeOp) (wa : Bool) : Statement (.rcDec c a b wa) := by
  refine of_number rfl rfl (fun n en => ?_)
  obtain ⟨lt, hmaj, f18, f10, f2, m1, -, f0⟩ := of_VA en (by decide) (tree_lt c) (tree_lt a) (tree_lt b) (bit_lt wa) (by decide)
  refine ⟨lt, fun _ => ?_⟩
  have h1 : fld n 0 1 = 0 := f0
  have b_c : fVd n = c := tree_eq (f18)
  have b_a : fVa n = a := tree_eq (f10)
  have b_b : fVb n = b := tree_eq (f2)
  have b_wa : fWa n = wa := bool_eq m1
  show decodeVec 3 n = _
  rw [vec_35 hmaj]
  rw [h1, b_c, b_a, b_b, b_wa]
  rfl

theorem rcDecm (c : TreeOp) (a : TreeOp) (b : TreeOp) (wa : Bool) : Statement (.rcDecm c a b wa) := by
  refine of_number rfl rfl (fun n en => ?_)
  obtain ⟨lt, hmaj, f18, f10, f2, m1, -, f0⟩ := of_VA en (by decide) (tree_lt c) (tree_lt a) (tree_lt b) (bit_lt wa) (by decide)
  refine ⟨lt, fun _ => ?_⟩
  have h1 : fld n 0 1 = 0 := f0
  have b_c : fVd n = c := tree_eq (f18)
  have b_a : fVa n = a := tree_eq (f10)
  have b_b : fVb n = b := tree_eq (f2)
  have b_wa : fWa n = wa := bool_eq m1
  show decodeVec 3 n = _
  rw [vec_36 hmaj]
  rw [h1, b_c, b_a, b_b, b_wa]
  rfl

theorem rcEnc (c : TreeOp) (a : TreeOp) (b : TreeOp) (wa : Bool) (wb : Bool) : Statement (.rcEnc c a b wa wb) := by
  refine of_number rfl rfl (fun n en => ?_)
  obtain ⟨lt, hmaj, f18, f10, f2, m1, m0, -⟩ := of_VA en (by decide) (tree_lt c) (tree_lt a) (tree_lt b) (bit_lt wa) (bit_lt wb)
  refine ⟨lt, fun _ => ?_⟩
  have b_c : fVd n = c := tree_eq (f18)
  have b_a : fVa n = a := tree_eq (f10)
  have b_b : fVb n = b := tree_eq (f2)
  have b_wa : fWa n = wa := bool_eq m1
  have b_wb : fWb n = wb := bool_eq m0
  show decodeVec 3 n = _
  rw [vec_37 hmaj]
  unfold decodeVab
  rw [b_c, b_a, b_b, b_wa, b_wb]
  rfl

theorem rcEncm (c : TreeOp) (a : TreeOp) (b : TreeOp) (wa : Bool) (wb : Bool) : Statement (.rcEncm c a b wa wb) := by
  refine of_number rfl rfl (fun n en => ?_)
  obtain ⟨lt, hmaj, f18, f10, f2, m1, m0, -⟩ := of_VA en (by decide) (tree_lt c) (tree_lt a) (tree_lt b) (bit_lt wa) (bit_lt wb)
  refine ⟨lt, fun _ => ?_⟩
  have b_c : fVd n = c := tree_eq (f18)
  have b_a : fVa n = a := tree_eq (f10)
  have b_b : fVb n = b := tree_eq (f2)
  have b_wa : fWa n = wa := bool_eq m1
  have b_wb : fWb n = wb := bool_eq m0
  show decodeVec 3 n = _
  rw [vec_38 hmaj]
  unfold decodeVab
  rw [b_c, b_a, b_b, b_wa, b_wb]
  rfl

theorem rcFlush (c : TreeOp) : Statement (.rcFlush c) := by
  refine of_number rfl rfl (fun n en => ?_)
  obtain ⟨lt, hmaj, f18, -, -, -, -, -⟩ := of_VA en (by decide) (tree_lt c) (by decide) (by decide) (by decide) (by decide)
  simp only [encVA] at en
  have := tree_lt c
  refine ⟨lt, fun _ => ?_⟩
  have h1 : fld n 0 18 = 0 := (show n / 2 ^ 0 % 2 ^ 18 = 0 by omega)
  have b_c : fVd n = c := tree_eq (f18)
  show decodeVec 3 n = _
  rw [vec_39 hmaj]
  unfold decodeRc
  rw [h1, b_c]
  rfl

theorem rcSpec (c : TreeOp) : Statement (.rcSpec c) := by
  refine of_number rfl rfl (fun n en => ?_)
  obtain ⟨lt, hmaj, f18, -, -, -, -, -⟩ := of_VA en (by decide) (tree_lt c) (by decide) (by decide) (by decide) (by decide)
  simp only [encVA] at en
  have := tree_lt c
  refine ⟨lt, fun _ => ?_⟩
  have h1 : fld n 0 18 = 0 := (show n / 2 ^ 0 % 2 ^ 18 = 0 by omega)
  have b_c : fVd n = c := tree_eq (f18)
  show decodeVec 3 n = _
  rw [vec_3A hmaj]
  unfold decodeRc
  rw [h1, b_c]
  rfl

theorem rcKeep (c : TreeOp) : Statement (.rcKeep c) := by
  refine of_number rfl rfl (fun n en => ?_)
  obtain ⟨lt, hmaj, f18, -, -, -, -, -⟩ := of_VA en (by decide) (tree_lt c) (by decide) (by decide) (by decide) (by decide)
  simp only [encVA] at en
  have := tree_lt c
  refine ⟨lt, fun _ => ?_⟩
  have h1 : fld n 0 18 = 0 := (show n / 2 ^ 0 % 2 ^ 18 = 0 by omega)
  have b_c : fVd n = c := tree_eq (f18)
  show decodeVec 3 n = _
  rw [vec_3B hmaj]
  unfold decodeRc
  rw [h1, b_c]
  rfl

theorem rcUndo (c : TreeOp) : Statement (.rcUndo c) := by
  refine of_number rfl rfl (fun n en => ?_)
  obtain ⟨lt, hmaj, f18, -, -, -, -, -⟩ := of_VA en (by decide) (tree_lt c) (by decide) (by decide) (by decide) (by decide)
  simp only [encVA] at en
  have := tree_lt c
  refine ⟨lt, fun _ => ?_⟩
  have h1 : fld n 0 18 = 0 := (show n / 2 ^ 0 % 2 ^ 18 = 0 by omega)
  have b_c : fVd n = c := tree_eq (f18)
  show decodeVec 3 n = _
  rw [vec_3C hmaj]
  unfold decodeRc
  rw [h1, b_c]
  rfl

theorem rcStat (c : TreeOp) (b : TreeOp) : Statement (.rcStat c b) := by
  refine of_number rfl rfl (fun n en => ?_)
  obtain ⟨lt, hmaj, f18, f10, f2, -, -, -⟩ := of_VA en (by decide) (tree_lt c) (by decide) (tree_lt b) (by decide) (by decide)
  simp only [encVA] at en
  have := tree_lt c
  have := tree_lt b
  refine ⟨lt, fun _ => ?_⟩
  have h1 : fld n 10 8 = 0 := f10
  have h2 : fld n 0 2 = 0 := (show n / 2 ^ 0 % 2 ^ 2 = 0 by omega)
  have b_c : fVd n = c := tree_eq (f18)
  have b_b : fVb n = b := tree_eq (f2)
  show decodeVec 3 n = _
  rw [vec_3D hmaj]
  rw [h1, h2, b_c, b_b]
  rfl

theorem vMark : Statement .vMark := by
  intro _ st w hs he; cases hs; cases he; rfl

theorem mBegin (mode : MatMode) (len : BitVec 11) : Statement (.mBegin mode len) := by
  refine of_number rfl rfl (fun n en => ?_)
  have := mode_lt mode
  have := len.isLt
  have hmaj : fld n 26 6 = 1 := show n / 2 ^ 26 % 2 ^ 6 = 1 by omega
  refine ⟨by omega, fun hw => ?_⟩
  have h1 : fld n 0 13 = 0 := (show n / 2 ^ 0 % 2 ^ 13 = 0 by omega)
  have h2 : modeOf (fld n 24 2) = some mode := mode_eq ((show n / 2 ^ 24 % 2 ^ 2 = mode.code by omega))
  have h3 : (decide (1 ≤ fld n 13 11) && decide (fld n 13 11 ≤ 1024)) = true := by rw [show fld n 13 11 = len.toNat from (show n / 2 ^ 13 % 2 ^ 11 = len.toNat by omega)]; exact hw
  have b_len : BitVec.ofNat 11 (n / 2 ^ 13) = len := bits_eq (show ((n / 2 ^ 13)) % 2 ^ 11 = len.toNat by omega)
  show decodeMat 3 n = _
  rw [mat_01 hmaj]
  rw [h1, h2, h3, b_len]
  rfl

theorem mZero : Statement .mZero := by
  intro _ st w hs he; cases hs; cases he; rfl

theorem mLdacc (t : TreeOp) (w : Bool) : Statement (.mLdacc t w) := by
  refine of_number rfl rfl (fun n en => ?_)
  have := tree_lt t
  have := bit_lt w
  have hmaj : fld n 26 6 = 3 := show n / 2 ^ 26 % 2 ^ 6 = 3 by omega
  refine ⟨by omega, fun _ => ?_⟩
  have h1 : fld n 3 15 = 0 := (show n / 2 ^ 3 % 2 ^ 15 = 0 by omega)
  have h2 : fld n 0 2 = 0 := (show n / 2 ^ 0 % 2 ^ 2 = 0 by omega)
  have b_t : fVd n = t := tree_eq ((show n / 2 ^ 18 % 2 ^ 8 = t.code by omega))
  have b_w : fMw n = w := bool_eq (show (n / 2 ^ 2) % 2 = bit w by omega)
  show decodeMat 3 n = _
  rw [mat_03 hmaj]
  unfold decodeMt
  rw [h1, h2, b_t, b_w]
  rfl

theorem mAcc (t : TreeOp) (row : BitVec 12) (w : Bool) : Statement (.mAcc t row w) := by
  refine of_number rfl rfl (fun n en => ?_)
  obtain ⟨lt, hmaj, f18, r6, f3, w2, f0⟩ := of_acc en (by decide) (tree_lt t) row.isLt (by decide) (bit_lt w) (by decide)
  refine ⟨lt, fun _ => ?_⟩
  have h1 : fld n 3 3 = 0 := f3
  have h2 : fld n 0 2 = 0 := f0
  have b_t : fVd n = t := tree_eq (f18)
  have b_row : fRow n = row := bits_eq r6
  have b_w : fMw n = w := bool_eq w2
  show decodeMat 3 n = _
  rw [mat_04 hmaj]
  rw [h1, h2, b_t, b_row, b_w]
  rfl

theorem mAcc8 (t : TreeOp) (row : BitVec 12) (planes : Fin 8) (w : Bool) : Statement (.mAcc8 t row planes w) := by
  refine of_number rfl rfl (fun n en => ?_)
  obtain ⟨lt, hmaj, f18, r6, f3, w2, f0⟩ := of_acc en (by decide) (tree_lt t) row.isLt planes.isLt (bit_lt w) (by decide)
  refine ⟨lt, fun _ => ?_⟩
  have h1 : fld n 0 2 = 0 := f0
  have b_t : fVd n = t := tree_eq (f18)
  have b_row : fRow n = row := bits_eq r6
  have b_planes : finOf 8 (n / 2 ^ 3) = planes := fin_eq (f3)
  have b_w : fMw n = w := bool_eq w2
  show decodeMat 3 n = _
  rw [mat_05 hmaj]
  rw [h1, b_t, b_row, b_planes, b_w]
  rfl

theorem mAccsTern (t : TreeOp) (row : BitVec 12) (w : Bool) : Statement (.mAccsTern t row w) := by
  refine of_number rfl rfl (fun n en => ?_)
  obtain ⟨lt, hmaj, f18, r6, f3, w2, f0⟩ := of_acc en (by decide) (tree_lt t) row.isLt (by decide) (bit_lt w) (by decide)
  refine ⟨lt, fun _ => ?_⟩
  have h1 : fld n 0 2 = 1 := f0
  have h2 : fld n 3 3 = 0 := f3
  have b_t : fVd n = t := tree_eq (f18)
  have b_row : fRow n = row := bits_eq r6
  have b_w : fMw n = w := bool_eq w2
  show decodeMat 3 n = _
  rw [mat_06 hmaj]
  rw [h1, h2, b_t, b_row, b_w]
  rfl

theorem mAccsInt8 (t : TreeOp) (row : BitVec 12) (planes : Fin 8) (w : Bool) : Statement (.mAccsInt8 t row planes w) := by
  refine of_number rfl rfl (fun n en => ?_)
  obtain ⟨lt, hmaj, f18, r6, f3, w2, f0⟩ := of_acc en (by decide) (tree_lt t) row.isLt planes.isLt (bit_lt w) (by decide)
  refine ⟨lt, fun _ => ?_⟩
  have h1 : fld n 0 2 = 2 := f0
  have b_t : fVd n = t := tree_eq (f18)
  have b_row : fRow n = row := bits_eq r6
  have b_planes : finOf 8 (n / 2 ^ 3) = planes := fin_eq (f3)
  have b_w : fMw n = w := bool_eq w2
  show decodeMat 3 n = _
  rw [mat_06 hmaj]
  rw [h1, b_t, b_row, b_planes, b_w]
  rfl

theorem mSeg (t : TreeOp) (w : Bool) : Statement (.mSeg t w) := by
  refine of_number rfl rfl (fun n en => ?_)
  have := tree_lt t
  have := bit_lt w
  have hmaj : fld n 26 6 = 7 := show n / 2 ^ 26 % 2 ^ 6 = 7 by omega
  refine ⟨by omega, fun _ => ?_⟩
  have h1 : fld n 3 15 = 0 := (show n / 2 ^ 3 % 2 ^ 15 = 0 by omega)
  have h2 : fld n 0 2 = 0 := (show n / 2 ^ 0 % 2 ^ 2 = 0 by omega)
  have b_t : fVd n = t := tree_eq ((show n / 2 ^ 18 % 2 ^ 8 = t.code by omega))
  have b_w : fMw n = w := bool_eq (show (n / 2 ^ 2) % 2 = bit w by omega)
  show decodeMat 3 n = _
  rw [mat_07 hmaj]
  unfold decodeMt
  rw [h1, h2, b_t, b_w]
  rfl

theorem mScale (a : TreeOp) (b : TreeOp) (w : Bool) : Statement (.mScale a b w) := by
  refine of_number rfl rfl (fun n en => ?_)
  have := tree_lt a
  have := tree_lt b
  have := bit_lt w
  have hmaj : fld n 26 6 = 8 := show n / 2 ^ 26 % 2 ^ 6 = 8 by omega
  refine ⟨by omega, fun _ => ?_⟩
  have h1 : fld n 3 7 = 0 := (show n / 2 ^ 3 % 2 ^ 7 = 0 by omega)
  have h2 : fld n 0 2 = 0 := (show n / 2 ^ 0 % 2 ^ 2 = 0 by omega)
  have b_a : fVd n = a := tree_eq ((show n / 2 ^ 18 % 2 ^ 8 = a.code by omega))
  have b_b : fVa n = b := tree_eq ((show n / 2 ^ 10 % 2 ^ 8 = b.code by omega))
  have b_w : fMw n = w := bool_eq (show (n / 2 ^ 2) % 2 = bit w by omega)
  show decodeMat 3 n = _
  rw [mat_08 hmaj]
  rw [h1, h2, b_a, b_b, b_w]
  rfl

theorem mRetF32 (t : TreeOp) : Statement (.mRetF32 t) := by
  refine of_number rfl rfl (fun n en => ?_)
  obtain ⟨lt, hmaj, f18, f15, f0, -⟩ := of_ret en (by decide) (tree_lt t) (by decide)
  refine ⟨lt, fun _ => ?_⟩
  have h1 : fld n 0 15 = 0 := f0
  have h2 : fld n 15 3 = 0 := f15
  have b_t : fVd n = t := tree_eq (f18)
  show decodeMat 3 n = _
  rw [mat_09 hmaj]
  rw [h1, h2, b_t]
  rfl

theorem mRetBf16 (t : TreeOp) : Statement (.mRetBf16 t) := by
  refine of_number rfl rfl (fun n en => ?_)
  obtain ⟨lt, hmaj, f18, f15, f0, -⟩ := of_ret en (by decide) (tree_lt t) (by decide)
  refine ⟨lt, fun _ => ?_⟩
  have h1 : fld n 0 15 = 0 := f0
  have h2 : fld n 15 3 = 1 := f15
  have b_t : fVd n = t := tree_eq (f18)
  show decodeMat 3 n = _
  rw [mat_09 hmaj]
  rw [h1, h2, b_t]
  rfl

theorem mRetF32Add (t : TreeOp) : Statement (.mRetF32Add t) := by
  refine of_number rfl rfl (fun n en => ?_)
  obtain ⟨lt, hmaj, f18, f15, f0, -⟩ := of_ret en (by decide) (tree_lt t) (by decide)
  refine ⟨lt, fun _ => ?_⟩
  have h1 : fld n 0 15 = 0 := f0
  have h2 : fld n 15 3 = 2 := f15
  have b_t : fVd n = t := tree_eq (f18)
  show decodeMat 3 n = _
  rw [mat_09 hmaj]
  rw [h1, h2, b_t]
  rfl

theorem mRetraw (t : TreeOp) : Statement (.mRetraw t) := by
  refine of_number rfl rfl (fun n en => ?_)
  obtain ⟨lt, hmaj, f18, -, -, fz⟩ := of_ret en (by decide) (tree_lt t) (by decide)
  refine ⟨lt, fun _ => ?_⟩
  have h1 : fld n 0 18 = 0 := (fz rfl)
  have b_t : fVd n = t := tree_eq (f18)
  show decodeMat 3 n = _
  rw [mat_0A hmaj]
  rw [h1, b_t]
  rfl

theorem mWbase (row : BitVec 12) : Statement (.mWbase row) := by
  refine of_number rfl rfl (fun n en => ?_)
  have := row.isLt
  have hmaj : fld n 26 6 = 11 := show n / 2 ^ 26 % 2 ^ 6 = 11 by omega
  refine ⟨by omega, fun _ => ?_⟩
  have h1 : fld n 18 8 = 0 := (show n / 2 ^ 18 % 2 ^ 8 = 0 by omega)
  have h2 : fld n 0 6 = 0 := (show n / 2 ^ 0 % 2 ^ 6 = 0 by omega)
  have b_row : fRow n = row := bits_eq (show (n / 2 ^ 6) % 2 ^ 12 = row.toNat by omega)
  show decodeMat 3 n = _
  rw [mat_0B hmaj]
  rw [h1, h2, b_row]
  rfl

theorem mLoop (k : KIx) (len : BitVec 23) : Statement (.mLoop k len) := by
  refine of_number rfl rfl (fun n en => ?_)
  obtain ⟨lt, hmaj, f23, m0⟩ := of_VK en (by decide) k.isLt len.isLt
  simp only [encVC] at en
  have := k.isLt
  have := len.isLt
  refine ⟨lt, fun hw => ?_⟩
  have h1 : (fld n 0 23 != 0) = true := bits_ne hw (((show n / 2 ^ 0 % 2 ^ 23 = len.toNat by omega)))
  have b_k : fK n = k := fin_eq (f23)
  have b_len : BitVec.ofNat 23 n = len := bits_eq m0
  show decodeMat 3 n = _
  rw [mat_0C hmaj]
  unfold decodeLoop
  rw [h1, b_k, b_len]
  rfl

theorem mBr (k : KIx) (off : BitVec 23) : Statement (.mBr k off) := by
  refine of_number rfl rfl (fun n en => ?_)
  obtain ⟨lt, hmaj, f23, m0⟩ := of_VK en (by decide) k.isLt off.isLt
  refine ⟨lt, fun _ => ?_⟩
  have b_k : fK n = k := fin_eq (f23)
  have b_off : BitVec.ofNat 23 n = off := bits_eq m0
  show decodeMat 3 n = _
  rw [mat_0D hmaj]
  unfold decodeBr
  rw [b_k, b_off]

theorem mKop (k : KIx) (v : BitVec 21) : Statement (.mKop k v) := by
  refine of_number rfl rfl (fun n en => ?_)
  obtain ⟨lt, hmaj, f23, f21, m0, -⟩ := of_VC en (by decide) k.isLt (by decide) v.isLt
  refine ⟨lt, fun _ => ?_⟩
  have h1 : fld n 21 2 = 0 := f21
  have b_k : fK n = k := fin_eq (f23)
  have b_v : BitVec.ofNat 21 n = v := bits_eq m0
  show decodeMat 3 n = _
  rw [mat_0E hmaj]
  unfold decodeKop
  rw [h1, b_k, b_v]
  rfl

theorem mKopAdd (k : KIx) (v : BitVec 21) : Statement (.mKopAdd k v) := by
  refine of_number rfl rfl (fun n en => ?_)
  obtain ⟨lt, hmaj, f23, f21, m0, -⟩ := of_VC en (by decide) k.isLt (by decide) v.isLt
  refine ⟨lt, fun _ => ?_⟩
  have h1 : fld n 21 2 = 1 := f21
  have b_k : fK n = k := fin_eq (f23)
  have b_v : BitVec.ofNat 21 n = v := bits_eq m0
  show decodeMat 3 n = _
  rw [mat_0E hmaj]
  unfold decodeKop
  rw [h1, b_k, b_v]
  rfl

theorem mKopMov (k : KIx) (i : KIx) : Statement (.mKopMov k i) := by
  refine of_number rfl rfl (fun n en => ?_)
  obtain ⟨lt, hmaj, f23, f21, -, fs⟩ := of_VC en (by decide) k.isLt (by decide) (by have := i.isLt; omega)
  refine ⟨lt, fun _ => ?_⟩
  have h1 : fld n 21 2 = 2 := f21
  have h2 : fld n 3 18 = 0 := (fs 3 18 (by decide)).trans (by simp only [fld]; have := i.isLt; omega)
  have b_k : fK n = k := fin_eq (f23)
  have b_i : finOf 8 n = i := fin_eq ((show n % 8 = fld n 0 3 by simp [fld]).trans ((fs 0 3 (by decide)).trans (by simp only [fld]; have := i.isLt; omega)))
  show decodeMat 3 n = _
  rw [mat_0E hmaj]
  unfold decodeKop
  rw [h1, h2, b_k, b_i]
  rfl

theorem mPert (row : BitVec 6) (col : BitVec 6) (j : KIx) : Statement (.mPert row col j) := by
  refine of_number rfl rfl (fun n en => ?_)
  have := row.isLt
  have := col.isLt
  have := j.isLt
  have hmaj : fld n 26 6 = 15 := show n / 2 ^ 26 % 2 ^ 6 = 15 by omega
  refine ⟨by omega, fun _ => ?_⟩
  have h1 : fld n 0 11 = 0 := (show n / 2 ^ 0 % 2 ^ 11 = 0 by omega)
  have b_row : BitVec.ofNat 6 (n / 2 ^ 20) = row := bits_eq (show ((n / 2 ^ 20)) % 2 ^ 6 = row.toNat by omega)
  have b_col : BitVec.ofNat 6 (n / 2 ^ 14) = col := bits_eq (show ((n / 2 ^ 14)) % 2 ^ 6 = col.toNat by omega)
  have b_j : finOf 8 (n / 2 ^ 11) = j := fin_eq (show (n / 2 ^ 11) % 8 = j.val by omega)
  show decodeMat 3 n = _
  rw [mat_0F hmaj]
  rw [h1, b_row, b_col, b_j]
  rfl

theorem mEnd : Statement .mEnd := by
  intro _ st w hs he; cases hs; cases he; rfl

theorem xCopy (d : EndPt) (s : EndPt) (l : KIx) : Statement (.xCopy d s l) := by
  refine of_number rfl rfl (fun n en => ?_)
  obtain ⟨lt, hmaj, f16, f6, f3, f0⟩ := of_copy en (by decide) (endPt_lt d) (endPt_lt s) l.isLt (by decide)
  refine ⟨lt, fun hw => ?_⟩
  have h1 : fld n 0 3 = 0 := f0
  have h2 : endPtOf (fld n 16 10) = .ok d := endPt_eq (Bool.and_eq_true_iff.mp hw).1 (f16)
  have h3 : endPtOf (fld n 6 10) = .ok s := endPt_eq (Bool.and_eq_true_iff.mp hw).2 (f6)
  have b_l : finOf 8 (n / 2 ^ 3) = l := fin_eq (f3)
  show decodeXfer n = _
  rw [xfer_01 hmaj]
  unfold decodeCopy
  rw [h1, h2, h3, b_l]
  rfl

theorem xShapeImm (f : ShapeField) (v : BitVec 21) : Statement (.xShapeImm f v) := by
  refine of_number rfl rfl (fun n en => ?_)
  have := shape_lt f
  have := v.isLt
  have hmaj : fld n 26 6 = 2 := show n / 2 ^ 26 % 2 ^ 6 = 2 by omega
  refine ⟨by omega, fun _ => ?_⟩
  have h1 : shapeFieldOf (fld n 22 4) = some f := shape_eq ((show n / 2 ^ 22 % 2 ^ 4 = f.code by omega))
  have h2 : fld n 21 1 = 0 := (show n / 2 ^ 21 % 2 ^ 1 = 0 by omega)
  have b_v : BitVec.ofNat 21 n = v := bits_eq (show (n) % 2 ^ 21 = v.toNat by omega)
  show decodeXfer n = _
  rw [xfer_02 hmaj]
  rw [h1, h2, b_v]
  rfl

theorem xShapeReg (f : ShapeField) (j : KIx) : Statement (.xShapeReg f j) := by
  refine of_number rfl rfl (fun n en => ?_)
  have := shape_lt f
  have := j.isLt
  have hmaj : fld n 26 6 = 2 := show n / 2 ^ 26 % 2 ^ 6 = 2 by omega
  refine ⟨by omega, fun _ => ?_⟩
  have h1 : shapeFieldOf (fld n 22 4) = some f := shape_eq ((show n / 2 ^ 22 % 2 ^ 4 = f.code by omega))
  have h2 : fld n 21 1 = 1 := (show n / 2 ^ 21 % 2 ^ 1 = 1 by omega)
  have h3 : fld n 0 18 = 0 := (show n / 2 ^ 0 % 2 ^ 18 = 0 by omega)
  have b_j : finOf 8 (n / 2 ^ 18) = j := fin_eq (show (n / 2 ^ 18) % 8 = j.val by omega)
  show decodeXfer n = _
  rw [xfer_02 hmaj]
  rw [h1, h2, h3, b_j]
  rfl

theorem xUnfold (d : EndPt) (s : EndPt) (len : KIx) : Statement (.xUnfold d s len) := by
  refine of_number rfl rfl (fun n en => ?_)
  obtain ⟨lt, hmaj, f16, f6, f3, f0⟩ := of_copy en (by decide) (endPt_lt d) (endPt_lt s) len.isLt (by decide)
  refine ⟨lt, fun hw => ?_⟩
  have h1 : fld n 0 3 = 0 := f0
  have h2 : endPtOf (fld n 16 10) = .ok d := endPt_eq (Bool.and_eq_true_iff.mp hw).1 (f16)
  have h3 : endPtOf (fld n 6 10) = .ok s := endPt_eq (Bool.and_eq_true_iff.mp hw).2 (f6)
  have b_len : finOf 8 (n / 2 ^ 3) = len := fin_eq (f3)
  show decodeXfer n = _
  rw [xfer_03 hmaj]
  unfold decodeCopy
  rw [h1, h2, h3, b_len]
  rfl

theorem xWinImm (f : WinField) (v : BitVec 21) : Statement (.xWinImm f v) := by
  refine of_number rfl rfl (fun n en => ?_)
  have := win_lt f
  have := v.isLt
  have hmaj : fld n 26 6 = 4 := show n / 2 ^ 26 % 2 ^ 6 = 4 by omega
  refine ⟨by omega, fun _ => ?_⟩
  have h1 : winFieldOf (fld n 22 4) = some f := win_eq ((show n / 2 ^ 22 % 2 ^ 4 = f.code by omega))
  have h2 : fld n 21 1 = 0 := (show n / 2 ^ 21 % 2 ^ 1 = 0 by omega)
  have b_v : BitVec.ofNat 21 n = v := bits_eq (show (n) % 2 ^ 21 = v.toNat by omega)
  show decodeXfer n = _
  rw [xfer_04 hmaj]
  rw [h1, h2, b_v]
  rfl

theorem xWinReg (f : WinField) (j : KIx) : Statement (.xWinReg f j) := by
  refine of_number rfl rfl (fun n en => ?_)
  have := win_lt f
  have := j.isLt
  have hmaj : fld n 26 6 = 4 := show n / 2 ^ 26 % 2 ^ 6 = 4 by omega
  refine ⟨by omega, fun _ => ?_⟩
  have h1 : winFieldOf (fld n 22 4) = some f := win_eq ((show n / 2 ^ 22 % 2 ^ 4 = f.code by omega))
  have h2 : fld n 21 1 = 1 := (show n / 2 ^ 21 % 2 ^ 1 = 1 by omega)
  have h3 : fld n 0 18 = 0 := (show n / 2 ^ 0 % 2 ^ 18 = 0 by omega)
  have b_j : finOf 8 (n / 2 ^ 18) = j := fin_eq (show (n / 2 ^ 18) % 8 = j.val by omega)
  show decodeXfer n = _
  rw [xfer_04 hmaj]
  rw [h1, h2, h3, b_j]
  rfl

theorem xUnpackT5p (d : EndPt) (s : EndPt) (l : KIx) : Statement (.xUnpackT5p d s l) := by
  refine of_number rfl rfl (fun n en => ?_)
  obtain ⟨lt, hmaj, f16, f6, f3, f0⟩ := of_copy en (by decide) (endPt_lt d) (endPt_lt s) l.isLt (by decide)
  refine ⟨lt, fun hw => ?_⟩
  have h1 : fld n 0 3 = 0 := f0
  have h2 : endPtOf (fld n 16 10) = .ok d := endPt_eq (Bool.and_eq_true_iff.mp hw).1 (f16)
  have h3 : endPtOf (fld n 6 10) = .ok s := endPt_eq (Bool.and_eq_true_iff.mp hw).2 (f6)
  have b_l : finOf 8 (n / 2 ^ 3) = l := fin_eq (f3)
  show decodeXfer n = _
  rw [xfer_05 hmaj]
  unfold decodeCopy
  rw [h1, h2, h3, b_l]
  rfl

theorem xUnpackBsi8 (d : EndPt) (s : EndPt) (l : KIx) : Statement (.xUnpackBsi8 d s l) := by
  refine of_number rfl rfl (fun n en => ?_)
  obtain ⟨lt, hmaj, f16, f6, f3, f0⟩ := of_copy en (by decide) (endPt_lt d) (endPt_lt s) l.isLt (by decide)
  refine ⟨lt, fun hw => ?_⟩
  have h1 : fld n 0 3 = 1 := f0
  have h2 : endPtOf (fld n 16 10) = .ok d := endPt_eq (Bool.and_eq_true_iff.mp hw).1 (f16)
  have h3 : endPtOf (fld n 6 10) = .ok s := endPt_eq (Bool.and_eq_true_iff.mp hw).2 (f6)
  have b_l : finOf 8 (n / 2 ^ 3) = l := fin_eq (f3)
  show decodeXfer n = _
  rw [xfer_05 hmaj]
  unfold decodeCopy
  rw [h1, h2, h3, b_l]
  rfl

theorem xUnpackSp24 (d : EndPt) (s : EndPt) (l : KIx) : Statement (.xUnpackSp24 d s l) := by
  refine of_number rfl rfl (fun n en => ?_)
  obtain ⟨lt, hmaj, f16, f6, f3, f0⟩ := of_copy en (by decide) (endPt_lt d) (endPt_lt s) l.isLt (by decide)
  refine ⟨lt, fun hw => ?_⟩
  have h1 : fld n 0 3 = 2 := f0
  have h2 : endPtOf (fld n 16 10) = .ok d := endPt_eq (Bool.and_eq_true_iff.mp hw).1 (f16)
  have h3 : endPtOf (fld n 6 10) = .ok s := endPt_eq (Bool.and_eq_true_iff.mp hw).2 (f6)
  have b_l : finOf 8 (n / 2 ^ 3) = l := fin_eq (f3)
  show decodeXfer n = _
  rw [xfer_05 hmaj]
  unfold decodeCopy
  rw [h1, h2, h3, b_l]
  rfl

theorem xUnpackZrun (d : EndPt) (s : EndPt) (l : KIx) : Statement (.xUnpackZrun d s l) := by
  refine of_number rfl rfl (fun n en => ?_)
  obtain ⟨lt, hmaj, f16, f6, f3, f0⟩ := of_copy en (by decide) (endPt_lt d) (endPt_lt s) l.isLt (by decide)
  refine ⟨lt, fun hw => ?_⟩
  have h1 : fld n 0 3 = 3 := f0
  have h2 : endPtOf (fld n 16 10) = .ok d := endPt_eq (Bool.and_eq_true_iff.mp hw).1 (f16)
  have h3 : endPtOf (fld n 6 10) = .ok s := endPt_eq (Bool.and_eq_true_iff.mp hw).2 (f6)
  have b_l : finOf 8 (n / 2 ^ 3) = l := fin_eq (f3)
  show decodeXfer n = _
  rw [xfer_05 hmaj]
  unfold decodeCopy
  rw [h1, h2, h3, b_l]
  rfl

theorem xConv (d : EndPt) (s : EndPt) (l : KIx) : Statement (.xConv d s l) := by
  refine of_number rfl rfl (fun n en => ?_)
  obtain ⟨lt, hmaj, f16, f6, f3, f0⟩ := of_copy en (by decide) (endPt_lt d) (endPt_lt s) l.isLt (by decide)
  refine ⟨lt, fun hw => ?_⟩
  have h1 : fld n 0 3 = 0 := f0
  have h2 : endPtOf (fld n 16 10) = .ok d := endPt_eq (Bool.and_eq_true_iff.mp hw).1 (f16)
  have h3 : endPtOf (fld n 6 10) = .ok s := endPt_eq (Bool.and_eq_true_iff.mp hw).2 (f6)
  have b_l : finOf 8 (n / 2 ^ 3) = l := fin_eq (f3)
  show decodeXfer n = _
  rw [xfer_06 hmaj]
  unfold decodeCopy
  rw [h1, h2, h3, b_l]
  rfl

theorem xMcast (d : EndPt) (s : EndPt) (l : KIx) : Statement (.xMcast d s l) := by
  refine of_number rfl rfl (fun n en => ?_)
  obtain ⟨lt, hmaj, f16, f6, f3, f0⟩ := of_copy en (by decide) (endPt_lt d) (endPt_lt s) l.isLt (by decide)
  refine ⟨lt, fun hw => ?_⟩
  have h1 : fld n 0 3 = 0 := f0
  have h2 : endPtOf (fld n 16 10) = .ok d := endPt_eq (Bool.and_eq_true_iff.mp hw).1 (f16)
  have h3 : endPtOf (fld n 6 10) = .ok s := endPt_eq (Bool.and_eq_true_iff.mp hw).2 (f6)
  have b_l : finOf 8 (n / 2 ^ 3) = l := fin_eq (f3)
  show decodeXfer n = _
  rw [xfer_07 hmaj]
  unfold decodeCopy
  rw [h1, h2, h3, b_l]
  rfl

theorem xGather (d : EndPt) (s : EndPt) (l : KIx) (i : KIx) : Statement (.xGather d s l i) := by
  refine of_number rfl rfl (fun n en => ?_)
  obtain ⟨lt, hmaj, f16, f6, f3, f0⟩ := of_copy en (by decide) (endPt_lt d) (endPt_lt s) l.isLt i.isLt
  refine ⟨lt, fun hw => ?_⟩
  have h1 : endPtOf (fld n 16 10) = .ok d := endPt_eq (Bool.and_eq_true_iff.mp hw).1 (f16)
  have h2 : endPtOf (fld n 6 10) = .ok s := endPt_eq (Bool.and_eq_true_iff.mp hw).2 (f6)
  have b_l : finOf 8 (n / 2 ^ 3) = l := fin_eq (f3)
  have b_i : finOf 8 n = i := fin_eq ((show n % 8 = fld n 0 3 by simp [fld]).trans (f0))
  show decodeXfer n = _
  rw [xfer_08 hmaj]
  unfold decodeCopyI
  rw [h1, h2, b_l, b_i]

theorem xScatter (d : EndPt) (s : EndPt) (l : KIx) (i : KIx) : Statement (.xScatter d s l i) := by
  refine of_number rfl rfl (fun n en => ?_)
  obtain ⟨lt, hmaj, f16, f6, f3, f0⟩ := of_copy en (by decide) (endPt_lt d) (endPt_lt s) l.isLt i.isLt
  refine ⟨lt, fun hw => ?_⟩
  have h1 : endPtOf (fld n 16 10) = .ok d := endPt_eq (Bool.and_eq_true_iff.mp hw).1 (f16)
  have h2 : endPtOf (fld n 6 10) = .ok s := endPt_eq (Bool.and_eq_true_iff.mp hw).2 (f6)
  have b_l : finOf 8 (n / 2 ^ 3) = l := fin_eq (f3)
  have b_i : finOf 8 n = i := fin_eq ((show n % 8 = fld n 0 3 by simp [fld]).trans (f0))
  show decodeXfer n = _
  rw [xfer_09 hmaj]
  unfold decodeCopyI
  rw [h1, h2, b_l, b_i]

theorem xFill (d : EndPt) (l : KIx) (v : KIx) : Statement (.xFill d l v) := by
  refine of_number rfl rfl (fun n en => ?_)
  obtain ⟨lt, hmaj, f16, f6, f3, f0⟩ := of_copy en (by decide) (endPt_lt d) (by decide) l.isLt v.isLt
  refine ⟨lt, fun hw => ?_⟩
  have h1 : fld n 6 10 = 0 := f6
  have h2 : endPtOf (fld n 16 10) = .ok d := endPt_eq hw (f16)
  have b_l : finOf 8 (n / 2 ^ 3) = l := fin_eq (f3)
  have b_v : finOf 8 n = v := fin_eq ((show n % 8 = fld n 0 3 by simp [fld]).trans (f0))
  show decodeXfer n = _
  rw [xfer_0A hmaj]
  rw [h1, h2, b_l, b_v]
  rfl

theorem xWbfill (row : BitVec 12) (s : EndPt) (l : KIx) : Statement (.xWbfill row s l) := by
  refine of_number rfl rfl (fun n en => ?_)
  have := row.isLt
  have := endPt_lt s
  have := l.isLt
  have hmaj : fld n 26 6 = 11 := show n / 2 ^ 26 % 2 ^ 6 = 11 by omega
  refine ⟨by omega, fun hw => ?_⟩
  have h1 : fld n 0 1 = 0 := (show n / 2 ^ 0 % 2 ^ 1 = 0 by omega)
  have h2 : endPtOf (fld n 4 10) = .ok s := endPt_eq hw (((show n / 2 ^ 4 % 2 ^ 10 = s.code by omega)))
  have b_row : BitVec.ofNat 12 (n / 2 ^ 14) = row := bits_eq (show ((n / 2 ^ 14)) % 2 ^ 12 = row.toNat by omega)
  have b_l : finOf 8 (n / 2) = l := fin_eq (show (n / 2) % 8 = l.val by omega)
  show decodeXfer n = _
  rw [xfer_0B hmaj]
  rw [h1, h2, b_row, b_l]
  rfl

theorem xSync (h : Hnd) (j : KIx) : Statement (.xSync h j) := by
  refine of_number rfl rfl (fun n en => ?_)
  have := h.isLt
  have := j.isLt
  have hmaj : fld n 26 6 = 12 := show n / 2 ^ 26 % 2 ^ 6 = 12 by omega
  refine ⟨by omega, fun hw => ?_⟩
  have h1 : fld n 0 17 = 0 := (show n / 2 ^ 0 % 2 ^ 17 = 0 by omega)
  have h2 : ¬ fld n 20 6 = 0 := fun z => bne_iff_ne.mp (fin_ne hw (show fld n 20 6 = h.val from (show n / 2 ^ 20 % 2 ^ 6 = h.val by omega))) z
  have b_h : finOf 64 (n / 2 ^ 20) = h := fin_eq (show (n / 2 ^ 20) % 64 = h.val by omega)
  have b_j : finOf 8 (n / 2 ^ 17) = j := fin_eq (show (n / 2 ^ 17) % 8 = j.val by omega)
  show decodeXfer n = _
  rw [xfer_0C hmaj]
  rw [h1, b_h, b_j]
  exact (if_neg h2).trans rfl

theorem xSyncDetach : Statement .xSyncDetach := by
  intro _ st w hs he; cases hs; cases he; rfl

theorem xClose : Statement .xClose := by
  intro _ st w hs he; cases hs; cases he; rfl

theorem xWait (len : BitVec 16) : Statement (.xWait len) := by
  refine of_number rfl rfl (fun n en => ?_)
  have := len.isLt
  have hmaj : fld n 26 6 = 14 := show n / 2 ^ 26 % 2 ^ 6 = 14 by omega
  refine ⟨by omega, fun _ => ?_⟩
  have h1 : fld n 16 10 = 0 := (show n / 2 ^ 16 % 2 ^ 10 = 0 by omega)
  have b_len : BitVec.ofNat 16 n = len := bits_eq (show (n) % 2 ^ 16 = len.toNat by omega)
  show decodeXfer n = _
  rw [xfer_0E hmaj]
  rw [h1, b_len]
  rfl

theorem xCollSumI32 (scope : Scope) (e : EndPt) (l : KIx) (i : KIx) : Statement (.xCollSumI32 scope e l i) := by
  refine of_number rfl rfl (fun n en => ?_)
  obtain ⟨lt, hmaj, f22, f18, f8, f5, f2, f0⟩ := of_coll en (by decide) (by decide) (scope_lt scope) (endPt_lt e) l.isLt i.isLt
  refine ⟨lt, fun hw => ?_⟩
  have h1 : fld n 0 2 = 0 := f0
  have h2 : scopeOf (fld n 18 4) = some scope := scope_eq (f18)
  have h3 : endPtOf (fld n 8 10) = .ok e := endPt_eq hw (f8)
  have h4 : fld n 22 4 = 0 := f22
  have b_l : finOf 8 (n / 2 ^ 5) = l := fin_eq (f5)
  have b_i : finOf 8 (n / 2 ^ 2) = i := fin_eq (f2)
  show decodeXfer n = _
  rw [xfer_0F hmaj]
  unfold decodeColl
  rw [h1, h2, h3, h4, b_l, b_i]
  rfl

theorem xCollSumF32 (scope : Scope) (e : EndPt) (l : KIx) (i : KIx) : Statement (.xCollSumF32 scope e l i) := by
  refine of_number rfl rfl (fun n en => ?_)
  obtain ⟨lt, hmaj, f22, f18, f8, f5, f2, f0⟩ := of_coll en (by decide) (by decide) (scope_lt scope) (endPt_lt e) l.isLt i.isLt
  refine ⟨lt, fun hw => ?_⟩
  have h1 : fld n 0 2 = 0 := f0
  have h2 : scopeOf (fld n 18 4) = some scope := scope_eq (f18)
  have h3 : endPtOf (fld n 8 10) = .ok e := endPt_eq hw (f8)
  have h4 : fld n 22 4 = 1 := f22
  have b_l : finOf 8 (n / 2 ^ 5) = l := fin_eq (f5)
  have b_i : finOf 8 (n / 2 ^ 2) = i := fin_eq (f2)
  show decodeXfer n = _
  rw [xfer_0F hmaj]
  unfold decodeColl
  rw [h1, h2, h3, h4, b_l, b_i]
  rfl

theorem xCollBcast (scope : Scope) (e : EndPt) (l : KIx) (i : KIx) : Statement (.xCollBcast scope e l i) := by
  refine of_number rfl rfl (fun n en => ?_)
  obtain ⟨lt, hmaj, f22, f18, f8, f5, f2, f0⟩ := of_coll en (by decide) (by decide) (scope_lt scope) (endPt_lt e) l.isLt i.isLt
  refine ⟨lt, fun hw => ?_⟩
  have h1 : fld n 0 2 = 0 := f0
  have h2 : scopeOf (fld n 18 4) = some scope := scope_eq (f18)
  have h3 : endPtOf (fld n 8 10) = .ok e := endPt_eq hw (f8)
  have h4 : fld n 22 4 = 2 := f22
  have b_l : finOf 8 (n / 2 ^ 5) = l := fin_eq (f5)
  have b_i : finOf 8 (n / 2 ^ 2) = i := fin_eq (f2)
  show decodeXfer n = _
  rw [xfer_0F hmaj]
  unfold decodeColl
  rw [h1, h2, h3, h4, b_l, b_i]
  rfl

theorem xCollArgmax (scope : Scope) (e : EndPt) (l : KIx) (i : KIx) : Statement (.xCollArgmax scope e l i) := by
  refine of_number rfl rfl (fun n en => ?_)
  obtain ⟨lt, hmaj, f22, f18, f8, f5, f2, f0⟩ := of_coll en (by decide) (by decide) (scope_lt scope) (endPt_lt e) l.isLt i.isLt
  refine ⟨lt, fun hw => ?_⟩
  have h1 : fld n 0 2 = 0 := f0
  have h2 : scopeOf (fld n 18 4) = some scope := scope_eq (f18)
  have h3 : endPtOf (fld n 8 10) = .ok e := endPt_eq hw (f8)
  have h4 : fld n 22 4 = 3 := f22
  have b_l : finOf 8 (n / 2 ^ 5) = l := fin_eq (f5)
  have b_i : finOf 8 (n / 2 ^ 2) = i := fin_eq (f2)
  show decodeXfer n = _
  rw [xfer_0F hmaj]
  unfold decodeColl
  rw [h1, h2, h3, h4, b_l, b_i]
  rfl

theorem xLoop (k : KIx) (len : BitVec 23) : Statement (.xLoop k len) := by
  refine of_number rfl rfl (fun n en => ?_)
  obtain ⟨lt, hmaj, f23, m0⟩ := of_VK en (by decide) k.isLt len.isLt
  simp only [encVC] at en
  have := k.isLt
  have := len.isLt
  refine ⟨lt, fun hw => ?_⟩
  have h1 : (fld n 0 23 != 0) = true := bits_ne hw (((show n / 2 ^ 0 % 2 ^ 23 = len.toNat by omega)))
  have b_k : fK n = k := fin_eq (f23)
  have b_len : BitVec.ofNat 23 n = len := bits_eq m0
  show decodeXfer n = _
  rw [xfer_10 hmaj]
  unfold decodeLoop
  rw [h1, b_k, b_len]
  rfl

theorem xBr (k : KIx) (off : BitVec 23) : Statement (.xBr k off) := by
  refine of_number rfl rfl (fun n en => ?_)
  obtain ⟨lt, hmaj, f23, m0⟩ := of_VK en (by decide) k.isLt off.isLt
  refine ⟨lt, fun _ => ?_⟩
  have b_k : fK n = k := fin_eq (f23)
  have b_off : BitVec.ofNat 23 n = off := bits_eq m0
  show decodeXfer n = _
  rw [xfer_11 hmaj]
  unfold decodeBr
  rw [b_k, b_off]

theorem xKop (k : KIx) (v : BitVec 21) : Statement (.xKop k v) := by
  refine of_number rfl rfl (fun n en => ?_)
  obtain ⟨lt, hmaj, f23, f21, m0, -⟩ := of_VC en (by decide) k.isLt (by decide) v.isLt
  refine ⟨lt, fun _ => ?_⟩
  have h1 : fld n 21 2 = 0 := f21
  have b_k : fK n = k := fin_eq (f23)
  have b_v : BitVec.ofNat 21 n = v := bits_eq m0
  show decodeXfer n = _
  rw [xfer_12 hmaj]
  unfold decodeKop
  rw [h1, b_k, b_v]
  rfl

theorem xKopAdd (k : KIx) (v : BitVec 21) : Statement (.xKopAdd k v) := by
  refine of_number rfl rfl (fun n en => ?_)
  obtain ⟨lt, hmaj, f23, f21, m0, -⟩ := of_VC en (by decide) k.isLt (by decide) v.isLt
  refine ⟨lt, fun _ => ?_⟩
  have h1 : fld n 21 2 = 1 := f21
  have b_k : fK n = k := fin_eq (f23)
  have b_v : BitVec.ofNat 21 n = v := bits_eq m0
  show decodeXfer n = _
  rw [xfer_12 hmaj]
  unfold decodeKop
  rw [h1, b_k, b_v]
  rfl

theorem xKopMov (k : KIx) (i : KIx) : Statement (.xKopMov k i) := by
  refine of_number rfl rfl (fun n en => ?_)
  obtain ⟨lt, hmaj, f23, f21, -, fs⟩ := of_VC en (by decide) k.isLt (by decide) (by have := i.isLt; omega)
  refine ⟨lt, fun _ => ?_⟩
  have h1 : fld n 21 2 = 2 := f21
  have h2 : fld n 3 18 = 0 := (fs 3 18 (by decide)).trans (by simp only [fld]; have := i.isLt; omega)
  have b_k : fK n = k := fin_eq (f23)
  have b_i : finOf 8 n = i := fin_eq ((show n % 8 = fld n 0 3 by simp [fld]).trans ((fs 0 3 (by decide)).trans (by simp only [fld]; have := i.isLt; omega)))
  show decodeXfer n = _
  rw [xfer_12 hmaj]
  unfold decodeKop
  rw [h1, h2, b_k, b_i]
  rfl

theorem xMendOpen : Statement .xMendOpen := by
  intro _ st w hs he; cases hs; cases he; rfl

theorem xMendSave (k : KIx) (len : BitVec 12) : Statement (.xMendSave k len) := by
  refine of_number rfl rfl (fun n en => ?_)
  obtain ⟨lt, hmaj, f23, f21, -, fs⟩ := of_VC en (by decide) k.isLt (by decide) (by have := len.isLt; omega)
  refine ⟨lt, fun hw => ?_⟩
  have h1 : fld n 21 2 = 1 := f21
  have h2 : fld n 12 9 = 0 := (fs 12 9 (by decide)).trans (by simp only [fld]; have := len.isLt; omega)
  have h3 : saveOk len = true := hw
  have b_k : fK n = k := fin_eq (f23)
  have b_len : BitVec.ofNat 12 n = len := bits_eq ((show n % 2 ^ 12 = fld n 0 12 by simp [fld]).trans ((fs 0 12 (by decide)).trans (by simp only [fld]; have := len.isLt; omega)))
  show decodeXfer n = _
  rw [xfer_13 hmaj]
  unfold decodeEngMend
  rw [h1, h2, b_k, b_len, h3]
  rfl

theorem xMendClose : Statement .xMendClose := by
  intro _ st w hs he; cases hs; cases he; rfl

theorem xMark : Statement .xMark := by
  intro _ st w hs he; cases hs; cases he; rfl

theorem xEnd : Statement .xEnd := by
  intro _ st w hs he; cases hs; cases he; rfl

/-! ### Events have no word -/

theorem waitSatisfied (core : Nat) (st : StreamId) : Statement (.waitSatisfied core st) := fun _ _ _ h => nomatch h
theorem stopBoundaryReached (core : Nat) (e : Eng) : Statement (.stopBoundaryReached core e) := fun _ _ _ h => nomatch h
theorem trapEntry (core : Nat) : Statement (.trapEntry core) := fun _ _ _ h => nomatch h
theorem haltComplete (ctx : Nat) : Statement (.haltComplete ctx) := fun _ _ _ h => nomatch h
theorem loadReturn (core : Nat) : Statement (.loadReturn core) := fun _ _ _ h => nomatch h
theorem storePerformed (core : Nat) : Statement (.storePerformed core) := fun _ _ _ h => nomatch h
theorem stampedStorePerformed (core : Nat) : Statement (.stampedStorePerformed core) := fun _ _ _ h => nomatch h
theorem fenceComplete (core n : Nat) : Statement (.fenceComplete core n) := fun _ _ _ h => nomatch h
theorem walkComplete (core n : Nat) : Statement (.walkComplete core n) := fun _ _ _ h => nomatch h
theorem vectorLoadLand (p : VpPart) : Statement (.vectorLoadLand p) := fun _ _ _ h => nomatch h
theorem vpAccessPerformed (p : VpPart) : Statement (.vpAccessPerformed p) := fun _ _ _ h => nomatch h
theorem transferBlockIssue (core : Nat) : Statement (.transferBlockIssue core) := fun _ _ _ h => nomatch h
theorem transferBlockLand (core : Nat) (l : Landing) : Statement (.transferBlockLand core l) := fun _ _ _ h => nomatch h
theorem collectiveResult (core op : Nat) (remote : List Remote) : Statement (.collectiveResult core op remote) := fun _ _ _ h => nomatch h
theorem holdingSlotRelease (core : Nat) : Statement (.holdingSlotRelease core) := fun _ _ _ h => nomatch h
theorem mendRelease (core : Nat) (st : StreamId) : Statement (.mendRelease core st) := fun _ _ _ h => nomatch h
theorem softErrorStrike (part : StruckPart) : Statement (.softErrorStrike part) := fun _ _ _ h => nomatch h
theorem strikeReport (core : Nat) : Statement (.strikeReport core) := fun _ _ _ h => nomatch h
theorem injectedStrikeDue (core : Nat) (st : StreamId) : Statement (.injectedStrikeDue core st) := fun _ _ _ h => nomatch h
theorem crewPlacement (n : Nat) (cores : List Nat) : Statement (.crewPlacement n cores) := fun _ _ _ h => nomatch h
theorem launchBlockTaken (core : Nat) (cores : List Nat) : Statement (.launchBlockTaken core cores) := fun _ _ _ h => nomatch h
theorem schedulerDecision (ctx : Nat) (cores withdraw : List Nat) : Statement (.schedulerDecision ctx cores withdraw) := fun _ _ _ h => nomatch h
theorem schedulerScanRow (ctx : Nat) : Statement (.schedulerScanRow ctx) := fun _ _ _ h => nomatch h
theorem ydlExpiry (crew : Nat) : Statement (.ydlExpiry crew) := fun _ _ _ h => nomatch h
theorem crewSave (crew : Nat) : Statement (.crewSave crew) := fun _ _ _ h => nomatch h
theorem crewResume (crew : Nat) : Statement (.crewResume crew) := fun _ _ _ h => nomatch h
theorem budgetWindow (core budget : Nat) : Statement (.budgetWindow core budget) := fun _ _ _ h => nomatch h
theorem ptmExchange (lo hi : Int) : Statement (.ptmExchange lo hi) := fun _ _ _ h => nomatch h
theorem dieTimeWord (die : Fin 4) (lo hi : Int) : Statement (.dieTimeWord die lo hi) := fun _ _ _ h => nomatch h
theorem timeframeSend : Statement .timeframeSend := fun _ _ _ h => nomatch h
theorem timeframe (f : TimeFrame) (lo hi : Int) : Statement (.timeframe f lo hi) := fun _ _ _ h => nomatch h
theorem heartbeat (member agreement limit : Nat) : Statement (.heartbeat member agreement limit) := fun _ _ _ h => nomatch h
theorem limit (member limit : Nat) (stamp : LimitStamp) : Statement (.limit member limit stamp) := fun _ _ _ h => nomatch h
theorem ack (member : Nat) (what : AckOf) : Statement (.ack member what) := fun _ _ _ h => nomatch h
theorem join (device : Nat) (joiner : Joiner) : Statement (.join device joiner) := fun _ _ _ h => nomatch h
theorem leave (member : Nat) (stamp : Int) : Statement (.leave member stamp) := fun _ _ _ h => nomatch h
theorem silent (sender member : Nat) (stamp : Int) (agreement : Nat) : Statement (.silent sender member stamp agreement) := fun _ _ _ h => nomatch h
theorem confirm (sender member : Nat) : Statement (.confirm sender member) := fun _ _ _ h => nomatch h
theorem limitForecast (limit : Nat) : Statement (.limitForecast limit) := fun _ _ _ h => nomatch h
theorem limitAckTimeout : Statement .limitAckTimeout := fun _ _ _ h => nomatch h
theorem limitStampPassed : Statement .limitStampPassed := fun _ _ _ h => nomatch h
theorem rampStep : Statement .rampStep := fun _ _ _ h => nomatch h
theorem joinAckTimeout : Statement .joinAckTimeout := fun _ _ _ h => nomatch h
theorem joinStampPassed : Statement .joinStampPassed := fun _ _ _ h => nomatch h
theorem leaveStampPassed : Statement .leaveStampPassed := fun _ _ _ h => nomatch h
theorem silenceDetected (member : Nat) : Statement (.silenceDetected member) := fun _ _ _ h => nomatch h
theorem fabricPortsDown : Statement .fabricPortsDown := fun _ _ _ h => nomatch h
theorem hostCxlMemAccess (a : HostAccess) : Statement (.hostCxlMemAccess a) := fun _ _ _ h => nomatch h
theorem notifyWrite (q : Fin 64) (n : BitVec 32) : Statement (.notifyWrite q n) := fun _ _ _ h => nomatch h
theorem interfaceEnable (q : Fin 64) (v : Word) : Statement (.interfaceEnable q v) := fun _ _ _ h => nomatch h
theorem bar0RegisterWrite (off : Nat) (v : Word) : Statement (.bar0RegisterWrite off v) := fun _ _ _ h => nomatch h
theorem partCreate (q : Fin 64) (p : Packet) : Statement (.partCreate q p) := fun _ _ _ h => nomatch h
theorem partDestroy (q : Fin 64) (p : Packet) : Statement (.partDestroy q p) := fun _ _ _ h => nomatch h
theorem ctxCreate (q : Fin 64) (p : Packet) : Statement (.ctxCreate q p) := fun _ _ _ h => nomatch h
theorem ctxDestroy (q : Fin 64) (p : Packet) : Statement (.ctxDestroy q p) := fun _ _ _ h => nomatch h
theorem load (q : Fin 64) (p : Packet) : Statement (.load q p) := fun _ _ _ h => nomatch h
theorem launch (q : Fin 64) (p : Packet) : Statement (.launch q p) := fun _ _ _ h => nomatch h
theorem harness (q : Fin 64) (p : Packet) : Statement (.harness q p) := fun _ _ _ h => nomatch h
theorem harnessEnd (q : Fin 64) (p : Packet) : Statement (.harnessEnd q p) := fun _ _ _ h => nomatch h
theorem resolve (q : Fin 64) (p : Packet) : Statement (.resolve q p) := fun _ _ _ h => nomatch h
theorem refuse (q : Fin 64) (p : Packet) : Statement (.refuse q p) := fun _ _ _ h => nomatch h
theorem unmap (q : Fin 64) (p : Packet) : Statement (.unmap q p) := fun _ _ _ h => nomatch h
theorem checkpoint (q : Fin 64) (p : Packet) : Statement (.checkpoint q p) := fun _ _ _ h => nomatch h
theorem restore (q : Fin 64) (p : Packet) : Statement (.restore q p) := fun _ _ _ h => nomatch h
theorem timeSet (q : Fin 64) (p : Packet) : Statement (.timeSet q p) := fun _ _ _ h => nomatch h
theorem groupJoin (q : Fin 64) (p : Packet) : Statement (.groupJoin q p) := fun _ _ _ h => nomatch h
theorem groupLeave (q : Fin 64) (p : Packet) : Statement (.groupLeave q p) := fun _ _ _ h => nomatch h
theorem collBind (q : Fin 64) (p : Packet) : Statement (.collBind q p) := fun _ _ _ h => nomatch h
theorem debugHalt (q : Fin 64) (p : Packet) : Statement (.debugHalt q p) := fun _ _ _ h => nomatch h
theorem debugResume (q : Fin 64) (p : Packet) : Statement (.debugResume q p) := fun _ _ _ h => nomatch h
theorem debugReadState (q : Fin 64) (p : Packet) : Statement (.debugReadState q p) := fun _ _ _ h => nomatch h
theorem logRead (q : Fin 64) (p : Packet) : Statement (.logRead q p) := fun _ _ _ h => nomatch h
theorem attest (q : Fin 64) (p : Packet) : Statement (.attest q p) := fun _ _ _ h => nomatch h
theorem config (q : Fin 64) (p : Packet) : Statement (.config q p) := fun _ _ _ h => nomatch h
theorem patch (q : Fin 64) (p : Packet) : Statement (.patch q p) := fun _ _ _ h => nomatch h
theorem powerOn : Statement .powerOn := fun _ _ _ h => nomatch h
theorem dieOver105c (die : Fin 4) (budget : Nat) : Statement (.dieOver105c die budget) := fun _ _ _ h => nomatch h
theorem dieOver115c (die : Fin 4) : Statement (.dieOver115c die) := fun _ _ _ h => nomatch h
theorem engineParityError (core : Nat) (e : Eng) : Statement (.engineParityError core e) := fun _ _ _ h => nomatch h
theorem innerClose (core : Nat) (st : StreamId) : Statement (.innerClose core st) := fun _ _ _ h => nomatch h
theorem droppedFlit (port : Fin 12) : Statement (.droppedFlit port) := fun _ _ _ h => nomatch h
theorem fabricPortLinkChange (port : Fin 12) (up : Bool) : Statement (.fabricPortLinkChange port up) := fun _ _ _ h => nomatch h

end Sys2Proof.Laws.RoundTrip
end

