-- ==== Sys2Proof/Laws/State.lean ====
section
/-!
SUPPORT. What each update of the state leaves of each field, so that no later proof unfolds a record update. The laws of
State.lean's own parts come first, then those of the core's parts.
-/
namespace Sys2Proof.Machine


/-! `State.upd` -/

@[simp] theorem State.upd_core (s : State) (f : Core → Core) : (s.upd f).core = f s.core := rfl
@[simp] theorem State.upd_others (s : State) (f : Core → Core) : (s.upd f).others = s.others := rfl
@[simp] theorem State.upd_hbm (s : State) (f : Core → Core) : (s.upd f).hbm = s.hbm := rfl
@[simp] theorem State.upd_window (s : State) (f : Core → Core) : (s.upd f).window = s.window := rfl
@[simp] theorem State.upd_host (s : State) (f : Core → Core) : (s.upd f).host = s.host := rfl
@[simp] theorem State.upd_lost (s : State) (f : Core → Core) : (s.upd f).lost = s.lost := rfl
@[simp] theorem State.upd_badTag (s : State) (f : Core → Core) : (s.upd f).badTag = s.badTag := rfl
@[simp] theorem State.upd_clocks (s : State) (f : Core → Core) : (s.upd f).clocks = s.clocks := rfl
@[simp] theorem State.upd_group (s : State) (f : Core → Core) : (s.upd f).group = s.group := rfl
@[simp] theorem State.upd_heat (s : State) (f : Core → Core) : (s.upd f).heat = s.heat := rfl
@[simp] theorem State.upd_fw (s : State) (f : Core → Core) : (s.upd f).fw = s.fw := rfl
@[simp] theorem State.upd_parts (s : State) (f : Core → Core) : (s.upd f).parts = s.parts := rfl
@[simp] theorem State.upd_ctxs (s : State) (f : Core → Core) : (s.upd f).ctxs = s.ctxs := rfl
@[simp] theorem State.upd_crews (s : State) (f : Core → Core) : (s.upd f).crews = s.crews := rfl
@[simp] theorem State.upd_waiting (s : State) (f : Core → Core) : (s.upd f).waiting = s.waiting := rfl
@[simp] theorem State.upd_launchQ (s : State) (f : Core → Core) : (s.upd f).launchQ = s.launchQ := rfl
@[simp] theorem State.upd_crewNum (s : State) (f : Core → Core) : (s.upd f).crewNum = s.crewNum := rfl
@[simp] theorem State.upd_now (s : State) (f : Core → Core) : (s.upd f).now = s.now := rfl
@[simp] theorem State.upd_phase (s : State) (f : Core → Core) : (s.upd f).phase = s.phase := rfl
@[simp] theorem State.upd_tau (s : State) (f : Core → Core) : (s.upd f).tau = s.tau := rfl
@[simp] theorem State.upd_sched (s : State) (f : Core → Core) : (s.upd f).sched = s.sched := rfl
@[simp] theorem State.upd_choices (s : State) (f : Core → Core) : (s.upd f).choices = s.choices := rfl

/-! `State.updCtx` -/

@[simp] theorem State.updCtx_core (s : State) (n : Nat) (f : Context → Context) : (s.updCtx n f).core = s.core := rfl
@[simp] theorem State.updCtx_others (s : State) (n : Nat) (f : Context → Context) : (s.updCtx n f).others = s.others := rfl
@[simp] theorem State.updCtx_hbm (s : State) (n : Nat) (f : Context → Context) : (s.updCtx n f).hbm = s.hbm := rfl
@[simp] theorem State.updCtx_window (s : State) (n : Nat) (f : Context → Context) : (s.updCtx n f).window = s.window := rfl
@[simp] theorem State.updCtx_host (s : State) (n : Nat) (f : Context → Context) : (s.updCtx n f).host = s.host := rfl
@[simp] theorem State.updCtx_lost (s : State) (n : Nat) (f : Context → Context) : (s.updCtx n f).lost = s.lost := rfl
@[simp] theorem State.updCtx_badTag (s : State) (n : Nat) (f : Context → Context) : (s.updCtx n f).badTag = s.badTag := rfl
@[simp] theorem State.updCtx_clocks (s : State) (n : Nat) (f : Context → Context) : (s.updCtx n f).clocks = s.clocks := rfl
@[simp] theorem State.updCtx_group (s : State) (n : Nat) (f : Context → Context) : (s.updCtx n f).group = s.group := rfl
@[simp] theorem State.updCtx_heat (s : State) (n : Nat) (f : Context → Context) : (s.updCtx n f).heat = s.heat := rfl
@[simp] theorem State.updCtx_fw (s : State) (n : Nat) (f : Context → Context) : (s.updCtx n f).fw = s.fw := rfl
@[simp] theorem State.updCtx_parts (s : State) (n : Nat) (f : Context → Context) : (s.updCtx n f).parts = s.parts := rfl
@[simp] theorem State.updCtx_ctxs (s : State) (n : Nat) (f : Context → Context) : (s.updCtx n f).ctxs = s.ctxs.map (fun c => if c.num = n then f c else c) := rfl
@[simp] theorem State.updCtx_crews (s : State) (n : Nat) (f : Context → Context) : (s.updCtx n f).crews = s.crews := rfl
@[simp] theorem State.updCtx_waiting (s : State) (n : Nat) (f : Context → Context) : (s.updCtx n f).waiting = s.waiting := rfl
@[simp] theorem State.updCtx_launchQ (s : State) (n : Nat) (f : Context → Context) : (s.updCtx n f).launchQ = s.launchQ := rfl
@[simp] theorem State.updCtx_crewNum (s : State) (n : Nat) (f : Context → Context) : (s.updCtx n f).crewNum = s.crewNum := rfl
@[simp] theorem State.updCtx_now (s : State) (n : Nat) (f : Context → Context) : (s.updCtx n f).now = s.now := rfl
@[simp] theorem State.updCtx_phase (s : State) (n : Nat) (f : Context → Context) : (s.updCtx n f).phase = s.phase := rfl
@[simp] theorem State.updCtx_tau (s : State) (n : Nat) (f : Context → Context) : (s.updCtx n f).tau = s.tau := rfl
@[simp] theorem State.updCtx_sched (s : State) (n : Nat) (f : Context → Context) : (s.updCtx n f).sched = s.sched := rfl
@[simp] theorem State.updCtx_choices (s : State) (n : Nat) (f : Context → Context) : (s.updCtx n f).choices = s.choices := rfl

/-! `State.updCrew` -/

@[simp] theorem State.updCrew_core (s : State) (n : Nat) (f : Crew → Crew) : (s.updCrew n f).core = s.core := rfl
@[simp] theorem State.updCrew_others (s : State) (n : Nat) (f : Crew → Crew) : (s.updCrew n f).others = s.others := rfl
@[simp] theorem State.updCrew_hbm (s : State) (n : Nat) (f : Crew → Crew) : (s.updCrew n f).hbm = s.hbm := rfl
@[simp] theorem State.updCrew_window (s : State) (n : Nat) (f : Crew → Crew) : (s.updCrew n f).window = s.window := rfl
@[simp] theorem State.updCrew_host (s : State) (n : Nat) (f : Crew → Crew) : (s.updCrew n f).host = s.host := rfl
@[simp] theorem State.updCrew_lost (s : State) (n : Nat) (f : Crew → Crew) : (s.updCrew n f).lost = s.lost := rfl
@[simp] theorem State.updCrew_badTag (s : State) (n : Nat) (f : Crew → Crew) : (s.updCrew n f).badTag = s.badTag := rfl
@[simp] theorem State.updCrew_clocks (s : State) (n : Nat) (f : Crew → Crew) : (s.updCrew n f).clocks = s.clocks := rfl
@[simp] theorem State.updCrew_group (s : State) (n : Nat) (f : Crew → Crew) : (s.updCrew n f).group = s.group := rfl
@[simp] theorem State.updCrew_heat (s : State) (n : Nat) (f : Crew → Crew) : (s.updCrew n f).heat = s.heat := rfl
@[simp] theorem State.updCrew_fw (s : State) (n : Nat) (f : Crew → Crew) : (s.updCrew n f).fw = s.fw := rfl
@[simp] theorem State.updCrew_parts (s : State) (n : Nat) (f : Crew → Crew) : (s.updCrew n f).parts = s.parts := rfl
@[simp] theorem State.updCrew_ctxs (s : State) (n : Nat) (f : Crew → Crew) : (s.updCrew n f).ctxs = s.ctxs := rfl
@[simp] theorem State.updCrew_crews (s : State) (n : Nat) (f : Crew → Crew) : (s.updCrew n f).crews = s.crews.map (fun c => if c.num = n then f c else c) := rfl
@[simp] theorem State.updCrew_waiting (s : State) (n : Nat) (f : Crew → Crew) : (s.updCrew n f).waiting = s.waiting := rfl
@[simp] theorem State.updCrew_launchQ (s : State) (n : Nat) (f : Crew → Crew) : (s.updCrew n f).launchQ = s.launchQ := rfl
@[simp] theorem State.updCrew_crewNum (s : State) (n : Nat) (f : Crew → Crew) : (s.updCrew n f).crewNum = s.crewNum := rfl
@[simp] theorem State.updCrew_now (s : State) (n : Nat) (f : Crew → Crew) : (s.updCrew n f).now = s.now := rfl
@[simp] theorem State.updCrew_phase (s : State) (n : Nat) (f : Crew → Crew) : (s.updCrew n f).phase = s.phase := rfl
@[simp] theorem State.updCrew_tau (s : State) (n : Nat) (f : Crew → Crew) : (s.updCrew n f).tau = s.tau := rfl
@[simp] theorem State.updCrew_sched (s : State) (n : Nat) (f : Crew → Crew) : (s.updCrew n f).sched = s.sched := rfl
@[simp] theorem State.updCrew_choices (s : State) (n : Nat) (f : Crew → Crew) : (s.updCrew n f).choices = s.choices := rfl

/-! `State.updPart` -/

@[simp] theorem State.updPart_core (s : State) (n : Nat) (f : Partition → Partition) : (s.updPart n f).core = s.core := rfl
@[simp] theorem State.updPart_others (s : State) (n : Nat) (f : Partition → Partition) : (s.updPart n f).others = s.others := rfl
@[simp] theorem State.updPart_hbm (s : State) (n : Nat) (f : Partition → Partition) : (s.updPart n f).hbm = s.hbm := rfl
@[simp] theorem State.updPart_window (s : State) (n : Nat) (f : Partition → Partition) : (s.updPart n f).window = s.window := rfl
@[simp] theorem State.updPart_host (s : State) (n : Nat) (f : Partition → Partition) : (s.updPart n f).host = s.host := rfl
@[simp] theorem State.updPart_lost (s : State) (n : Nat) (f : Partition → Partition) : (s.updPart n f).lost = s.lost := rfl
@[simp] theorem State.updPart_badTag (s : State) (n : Nat) (f : Partition → Partition) : (s.updPart n f).badTag = s.badTag := rfl
@[simp] theorem State.updPart_clocks (s : State) (n : Nat) (f : Partition → Partition) : (s.updPart n f).clocks = s.clocks := rfl
@[simp] theorem State.updPart_group (s : State) (n : Nat) (f : Partition → Partition) : (s.updPart n f).group = s.group := rfl
@[simp] theorem State.updPart_heat (s : State) (n : Nat) (f : Partition → Partition) : (s.updPart n f).heat = s.heat := rfl
@[simp] theorem State.updPart_fw (s : State) (n : Nat) (f : Partition → Partition) : (s.updPart n f).fw = s.fw := rfl
@[simp] theorem State.updPart_parts (s : State) (n : Nat) (f : Partition → Partition) : (s.updPart n f).parts = s.parts.map (fun c => if c.num = n then f c else c) := rfl
@[simp] theorem State.updPart_ctxs (s : State) (n : Nat) (f : Partition → Partition) : (s.updPart n f).ctxs = s.ctxs := rfl
@[simp] theorem State.updPart_crews (s : State) (n : Nat) (f : Partition → Partition) : (s.updPart n f).crews = s.crews := rfl
@[simp] theorem State.updPart_waiting (s : State) (n : Nat) (f : Partition → Partition) : (s.updPart n f).waiting = s.waiting := rfl
@[simp] theorem State.updPart_launchQ (s : State) (n : Nat) (f : Partition → Partition) : (s.updPart n f).launchQ = s.launchQ := rfl
@[simp] theorem State.updPart_crewNum (s : State) (n : Nat) (f : Partition → Partition) : (s.updPart n f).crewNum = s.crewNum := rfl
@[simp] theorem State.updPart_now (s : State) (n : Nat) (f : Partition → Partition) : (s.updPart n f).now = s.now := rfl
@[simp] theorem State.updPart_phase (s : State) (n : Nat) (f : Partition → Partition) : (s.updPart n f).phase = s.phase := rfl
@[simp] theorem State.updPart_tau (s : State) (n : Nat) (f : Partition → Partition) : (s.updPart n f).tau = s.tau := rfl
@[simp] theorem State.updPart_sched (s : State) (n : Nat) (f : Partition → Partition) : (s.updPart n f).sched = s.sched := rfl
@[simp] theorem State.updPart_choices (s : State) (n : Nat) (f : Partition → Partition) : (s.updPart n f).choices = s.choices := rfl

/-! `State.updIface` -/

@[simp] theorem State.updIface_core (s : State) (q : Fin 64) (f : Iface → Iface) : (s.updIface q f).core = s.core := rfl
@[simp] theorem State.updIface_others (s : State) (q : Fin 64) (f : Iface → Iface) : (s.updIface q f).others = s.others := rfl
@[simp] theorem State.updIface_hbm (s : State) (q : Fin 64) (f : Iface → Iface) : (s.updIface q f).hbm = s.hbm := rfl
@[simp] theorem State.updIface_window (s : State) (q : Fin 64) (f : Iface → Iface) : (s.updIface q f).window = s.window := rfl
@[simp] theorem State.updIface_host (s : State) (q : Fin 64) (f : Iface → Iface) : (s.updIface q f).host = s.host := rfl
@[simp] theorem State.updIface_lost (s : State) (q : Fin 64) (f : Iface → Iface) : (s.updIface q f).lost = s.lost := rfl
@[simp] theorem State.updIface_badTag (s : State) (q : Fin 64) (f : Iface → Iface) : (s.updIface q f).badTag = s.badTag := rfl
@[simp] theorem State.updIface_clocks (s : State) (q : Fin 64) (f : Iface → Iface) : (s.updIface q f).clocks = s.clocks := rfl
@[simp] theorem State.updIface_group (s : State) (q : Fin 64) (f : Iface → Iface) : (s.updIface q f).group = s.group := rfl
@[simp] theorem State.updIface_heat (s : State) (q : Fin 64) (f : Iface → Iface) : (s.updIface q f).heat = s.heat := rfl
@[simp] theorem State.updIface_fw (s : State) (q : Fin 64) (f : Iface → Iface) : (s.updIface q f).fw = { s.fw with ifaces := s.fw.ifaces.set q (f s.fw.ifaces[q]) } := rfl
@[simp] theorem State.updIface_parts (s : State) (q : Fin 64) (f : Iface → Iface) : (s.updIface q f).parts = s.parts := rfl
@[simp] theorem State.updIface_ctxs (s : State) (q : Fin 64) (f : Iface → Iface) : (s.updIface q f).ctxs = s.ctxs := rfl
@[simp] theorem State.updIface_crews (s : State) (q : Fin 64) (f : Iface → Iface) : (s.updIface q f).crews = s.crews := rfl
@[simp] theorem State.updIface_waiting (s : State) (q : Fin 64) (f : Iface → Iface) : (s.updIface q f).waiting = s.waiting := rfl
@[simp] theorem State.updIface_launchQ (s : State) (q : Fin 64) (f : Iface → Iface) : (s.updIface q f).launchQ = s.launchQ := rfl
@[simp] theorem State.updIface_crewNum (s : State) (q : Fin 64) (f : Iface → Iface) : (s.updIface q f).crewNum = s.crewNum := rfl
@[simp] theorem State.updIface_now (s : State) (q : Fin 64) (f : Iface → Iface) : (s.updIface q f).now = s.now := rfl
@[simp] theorem State.updIface_phase (s : State) (q : Fin 64) (f : Iface → Iface) : (s.updIface q f).phase = s.phase := rfl
@[simp] theorem State.updIface_tau (s : State) (q : Fin 64) (f : Iface → Iface) : (s.updIface q f).tau = s.tau := rfl
@[simp] theorem State.updIface_sched (s : State) (q : Fin 64) (f : Iface → Iface) : (s.updIface q f).sched = s.sched := rfl
@[simp] theorem State.updIface_choices (s : State) (q : Fin 64) (f : Iface → Iface) : (s.updIface q f).choices = s.choices := rfl

/-! `State.updSeq` -/

@[simp] theorem State.updSeq_core (s : State) (f : Sequencer → Sequencer) : (s.updSeq f).core = s.core.updSeq f := rfl
@[simp] theorem State.updSeq_others (s : State) (f : Sequencer → Sequencer) : (s.updSeq f).others = s.others := rfl
@[simp] theorem State.updSeq_hbm (s : State) (f : Sequencer → Sequencer) : (s.updSeq f).hbm = s.hbm := rfl
@[simp] theorem State.updSeq_window (s : State) (f : Sequencer → Sequencer) : (s.updSeq f).window = s.window := rfl
@[simp] theorem State.updSeq_host (s : State) (f : Sequencer → Sequencer) : (s.updSeq f).host = s.host := rfl
@[simp] theorem State.updSeq_lost (s : State) (f : Sequencer → Sequencer) : (s.updSeq f).lost = s.lost := rfl
@[simp] theorem State.updSeq_badTag (s : State) (f : Sequencer → Sequencer) : (s.updSeq f).badTag = s.badTag := rfl
@[simp] theorem State.updSeq_clocks (s : State) (f : Sequencer → Sequencer) : (s.updSeq f).clocks = s.clocks := rfl
@[simp] theorem State.updSeq_group (s : State) (f : Sequencer → Sequencer) : (s.updSeq f).group = s.group := rfl
@[simp] theorem State.updSeq_heat (s : State) (f : Sequencer → Sequencer) : (s.updSeq f).heat = s.heat := rfl
@[simp] theorem State.updSeq_fw (s : State) (f : Sequencer → Sequencer) : (s.updSeq f).fw = s.fw := rfl
@[simp] theorem State.updSeq_parts (s : State) (f : Sequencer → Sequencer) : (s.updSeq f).parts = s.parts := rfl
@[simp] theorem State.updSeq_ctxs (s : State) (f : Sequencer → Sequencer) : (s.updSeq f).ctxs = s.ctxs := rfl
@[simp] theorem State.updSeq_crews (s : State) (f : Sequencer → Sequencer) : (s.updSeq f).crews = s.crews := rfl
@[simp] theorem State.updSeq_waiting (s : State) (f : Sequencer → Sequencer) : (s.updSeq f).waiting = s.waiting := rfl
@[simp] theorem State.updSeq_launchQ (s : State) (f : Sequencer → Sequencer) : (s.updSeq f).launchQ = s.launchQ := rfl
@[simp] theorem State.updSeq_crewNum (s : State) (f : Sequencer → Sequencer) : (s.updSeq f).crewNum = s.crewNum := rfl
@[simp] theorem State.updSeq_now (s : State) (f : Sequencer → Sequencer) : (s.updSeq f).now = s.now := rfl
@[simp] theorem State.updSeq_phase (s : State) (f : Sequencer → Sequencer) : (s.updSeq f).phase = s.phase := rfl
@[simp] theorem State.updSeq_tau (s : State) (f : Sequencer → Sequencer) : (s.updSeq f).tau = s.tau := rfl
@[simp] theorem State.updSeq_sched (s : State) (f : Sequencer → Sequencer) : (s.updSeq f).sched = s.sched := rfl
@[simp] theorem State.updSeq_choices (s : State) (f : Sequencer → Sequencer) : (s.updSeq f).choices = s.choices := rfl

/-! `State.updVec` -/

@[simp] theorem State.updVec_core (s : State) (f : VecEngine → VecEngine) : (s.updVec f).core = s.core.updVec f := rfl
@[simp] theorem State.updVec_others (s : State) (f : VecEngine → VecEngine) : (s.updVec f).others = s.others := rfl
@[simp] theorem State.updVec_hbm (s : State) (f : VecEngine → VecEngine) : (s.updVec f).hbm = s.hbm := rfl
@[simp] theorem State.updVec_window (s : State) (f : VecEngine → VecEngine) : (s.updVec f).window = s.window := rfl
@[simp] theorem State.updVec_host (s : State) (f : VecEngine → VecEngine) : (s.updVec f).host = s.host := rfl
@[simp] theorem State.updVec_lost (s : State) (f : VecEngine → VecEngine) : (s.updVec f).lost = s.lost := rfl
@[simp] theorem State.updVec_badTag (s : State) (f : VecEngine → VecEngine) : (s.updVec f).badTag = s.badTag := rfl
@[simp] theorem State.updVec_clocks (s : State) (f : VecEngine → VecEngine) : (s.updVec f).clocks = s.clocks := rfl
@[simp] theorem State.updVec_group (s : State) (f : VecEngine → VecEngine) : (s.updVec f).group = s.group := rfl
@[simp] theorem State.updVec_heat (s : State) (f : VecEngine → VecEngine) : (s.updVec f).heat = s.heat := rfl
@[simp] theorem State.updVec_fw (s : State) (f : VecEngine → VecEngine) : (s.updVec f).fw = s.fw := rfl
@[simp] theorem State.updVec_parts (s : State) (f : VecEngine → VecEngine) : (s.updVec f).parts = s.parts := rfl
@[simp] theorem State.updVec_ctxs (s : State) (f : VecEngine → VecEngine) : (s.updVec f).ctxs = s.ctxs := rfl
@[simp] theorem State.updVec_crews (s : State) (f : VecEngine → VecEngine) : (s.updVec f).crews = s.crews := rfl
@[simp] theorem State.updVec_waiting (s : State) (f : VecEngine → VecEngine) : (s.updVec f).waiting = s.waiting := rfl
@[simp] theorem State.updVec_launchQ (s : State) (f : VecEngine → VecEngine) : (s.updVec f).launchQ = s.launchQ := rfl
@[simp] theorem State.updVec_crewNum (s : State) (f : VecEngine → VecEngine) : (s.updVec f).crewNum = s.crewNum := rfl
@[simp] theorem State.updVec_now (s : State) (f : VecEngine → VecEngine) : (s.updVec f).now = s.now := rfl
@[simp] theorem State.updVec_phase (s : State) (f : VecEngine → VecEngine) : (s.updVec f).phase = s.phase := rfl
@[simp] theorem State.updVec_tau (s : State) (f : VecEngine → VecEngine) : (s.updVec f).tau = s.tau := rfl
@[simp] theorem State.updVec_sched (s : State) (f : VecEngine → VecEngine) : (s.updVec f).sched = s.sched := rfl
@[simp] theorem State.updVec_choices (s : State) (f : VecEngine → VecEngine) : (s.updVec f).choices = s.choices := rfl

/-! `State.updMat` -/

@[simp] theorem State.updMat_core (s : State) (f : MatEngine → MatEngine) : (s.updMat f).core = s.core.updMat f := rfl
@[simp] theorem State.updMat_others (s : State) (f : MatEngine → MatEngine) : (s.updMat f).others = s.others := rfl
@[simp] theorem State.updMat_hbm (s : State) (f : MatEngine → MatEngine) : (s.updMat f).hbm = s.hbm := rfl
@[simp] theorem State.updMat_window (s : State) (f : MatEngine → MatEngine) : (s.updMat f).window = s.window := rfl
@[simp] theorem State.updMat_host (s : State) (f : MatEngine → MatEngine) : (s.updMat f).host = s.host := rfl
@[simp] theorem State.updMat_lost (s : State) (f : MatEngine → MatEngine) : (s.updMat f).lost = s.lost := rfl
@[simp] theorem State.updMat_badTag (s : State) (f : MatEngine → MatEngine) : (s.updMat f).badTag = s.badTag := rfl
@[simp] theorem State.updMat_clocks (s : State) (f : MatEngine → MatEngine) : (s.updMat f).clocks = s.clocks := rfl
@[simp] theorem State.updMat_group (s : State) (f : MatEngine → MatEngine) : (s.updMat f).group = s.group := rfl
@[simp] theorem State.updMat_heat (s : State) (f : MatEngine → MatEngine) : (s.updMat f).heat = s.heat := rfl
@[simp] theorem State.updMat_fw (s : State) (f : MatEngine → MatEngine) : (s.updMat f).fw = s.fw := rfl
@[simp] theorem State.updMat_parts (s : State) (f : MatEngine → MatEngine) : (s.updMat f).parts = s.parts := rfl
@[simp] theorem State.updMat_ctxs (s : State) (f : MatEngine → MatEngine) : (s.updMat f).ctxs = s.ctxs := rfl
@[simp] theorem State.updMat_crews (s : State) (f : MatEngine → MatEngine) : (s.updMat f).crews = s.crews := rfl
@[simp] theorem State.updMat_waiting (s : State) (f : MatEngine → MatEngine) : (s.updMat f).waiting = s.waiting := rfl
@[simp] theorem State.updMat_launchQ (s : State) (f : MatEngine → MatEngine) : (s.updMat f).launchQ = s.launchQ := rfl
@[simp] theorem State.updMat_crewNum (s : State) (f : MatEngine → MatEngine) : (s.updMat f).crewNum = s.crewNum := rfl
@[simp] theorem State.updMat_now (s : State) (f : MatEngine → MatEngine) : (s.updMat f).now = s.now := rfl
@[simp] theorem State.updMat_phase (s : State) (f : MatEngine → MatEngine) : (s.updMat f).phase = s.phase := rfl
@[simp] theorem State.updMat_tau (s : State) (f : MatEngine → MatEngine) : (s.updMat f).tau = s.tau := rfl
@[simp] theorem State.updMat_sched (s : State) (f : MatEngine → MatEngine) : (s.updMat f).sched = s.sched := rfl
@[simp] theorem State.updMat_choices (s : State) (f : MatEngine → MatEngine) : (s.updMat f).choices = s.choices := rfl

/-! `State.updXfer` -/

@[simp] theorem State.updXfer_core (s : State) (f : XferEngine → XferEngine) : (s.updXfer f).core = s.core.updXfer f := rfl
@[simp] theorem State.updXfer_others (s : State) (f : XferEngine → XferEngine) : (s.updXfer f).others = s.others := rfl
@[simp] theorem State.updXfer_hbm (s : State) (f : XferEngine → XferEngine) : (s.updXfer f).hbm = s.hbm := rfl
@[simp] theorem State.updXfer_window (s : State) (f : XferEngine → XferEngine) : (s.updXfer f).window = s.window := rfl
@[simp] theorem State.updXfer_host (s : State) (f : XferEngine → XferEngine) : (s.updXfer f).host = s.host := rfl
@[simp] theorem State.updXfer_lost (s : State) (f : XferEngine → XferEngine) : (s.updXfer f).lost = s.lost := rfl
@[simp] theorem State.updXfer_badTag (s : State) (f : XferEngine → XferEngine) : (s.updXfer f).badTag = s.badTag := rfl
@[simp] theorem State.updXfer_clocks (s : State) (f : XferEngine → XferEngine) : (s.updXfer f).clocks = s.clocks := rfl
@[simp] theorem State.updXfer_group (s : State) (f : XferEngine → XferEngine) : (s.updXfer f).group = s.group := rfl
@[simp] theorem State.updXfer_heat (s : State) (f : XferEngine → XferEngine) : (s.updXfer f).heat = s.heat := rfl
@[simp] theorem State.updXfer_fw (s : State) (f : XferEngine → XferEngine) : (s.updXfer f).fw = s.fw := rfl
@[simp] theorem State.updXfer_parts (s : State) (f : XferEngine → XferEngine) : (s.updXfer f).parts = s.parts := rfl
@[simp] theorem State.updXfer_ctxs (s : State) (f : XferEngine → XferEngine) : (s.updXfer f).ctxs = s.ctxs := rfl
@[simp] theorem State.updXfer_crews (s : State) (f : XferEngine → XferEngine) : (s.updXfer f).crews = s.crews := rfl
@[simp] theorem State.updXfer_waiting (s : State) (f : XferEngine → XferEngine) : (s.updXfer f).waiting = s.waiting := rfl
@[simp] theorem State.updXfer_launchQ (s : State) (f : XferEngine → XferEngine) : (s.updXfer f).launchQ = s.launchQ := rfl
@[simp] theorem State.updXfer_crewNum (s : State) (f : XferEngine → XferEngine) : (s.updXfer f).crewNum = s.crewNum := rfl
@[simp] theorem State.updXfer_now (s : State) (f : XferEngine → XferEngine) : (s.updXfer f).now = s.now := rfl
@[simp] theorem State.updXfer_phase (s : State) (f : XferEngine → XferEngine) : (s.updXfer f).phase = s.phase := rfl
@[simp] theorem State.updXfer_tau (s : State) (f : XferEngine → XferEngine) : (s.updXfer f).tau = s.tau := rfl
@[simp] theorem State.updXfer_sched (s : State) (f : XferEngine → XferEngine) : (s.updXfer f).sched = s.sched := rfl
@[simp] theorem State.updXfer_choices (s : State) (f : XferEngine → XferEngine) : (s.updXfer f).choices = s.choices := rfl

/-! `State.updEng` -/

@[simp] theorem State.updEng_core (s : State) (e : Eng) (f : Engine → Engine) : (s.updEng e f).core = s.core.updEng e f := rfl
@[simp] theorem State.updEng_others (s : State) (e : Eng) (f : Engine → Engine) : (s.updEng e f).others = s.others := rfl
@[simp] theorem State.updEng_hbm (s : State) (e : Eng) (f : Engine → Engine) : (s.updEng e f).hbm = s.hbm := rfl
@[simp] theorem State.updEng_window (s : State) (e : Eng) (f : Engine → Engine) : (s.updEng e f).window = s.window := rfl
@[simp] theorem State.updEng_host (s : State) (e : Eng) (f : Engine → Engine) : (s.updEng e f).host = s.host := rfl
@[simp] theorem State.updEng_lost (s : State) (e : Eng) (f : Engine → Engine) : (s.updEng e f).lost = s.lost := rfl
@[simp] theorem State.updEng_badTag (s : State) (e : Eng) (f : Engine → Engine) : (s.updEng e f).badTag = s.badTag := rfl
@[simp] theorem State.updEng_clocks (s : State) (e : Eng) (f : Engine → Engine) : (s.updEng e f).clocks = s.clocks := rfl
@[simp] theorem State.updEng_group (s : State) (e : Eng) (f : Engine → Engine) : (s.updEng e f).group = s.group := rfl
@[simp] theorem State.updEng_heat (s : State) (e : Eng) (f : Engine → Engine) : (s.updEng e f).heat = s.heat := rfl
@[simp] theorem State.updEng_fw (s : State) (e : Eng) (f : Engine → Engine) : (s.updEng e f).fw = s.fw := rfl
@[simp] theorem State.updEng_parts (s : State) (e : Eng) (f : Engine → Engine) : (s.updEng e f).parts = s.parts := rfl
@[simp] theorem State.updEng_ctxs (s : State) (e : Eng) (f : Engine → Engine) : (s.updEng e f).ctxs = s.ctxs := rfl
@[simp] theorem State.updEng_crews (s : State) (e : Eng) (f : Engine → Engine) : (s.updEng e f).crews = s.crews := rfl
@[simp] theorem State.updEng_waiting (s : State) (e : Eng) (f : Engine → Engine) : (s.updEng e f).waiting = s.waiting := rfl
@[simp] theorem State.updEng_launchQ (s : State) (e : Eng) (f : Engine → Engine) : (s.updEng e f).launchQ = s.launchQ := rfl
@[simp] theorem State.updEng_crewNum (s : State) (e : Eng) (f : Engine → Engine) : (s.updEng e f).crewNum = s.crewNum := rfl
@[simp] theorem State.updEng_now (s : State) (e : Eng) (f : Engine → Engine) : (s.updEng e f).now = s.now := rfl
@[simp] theorem State.updEng_phase (s : State) (e : Eng) (f : Engine → Engine) : (s.updEng e f).phase = s.phase := rfl
@[simp] theorem State.updEng_tau (s : State) (e : Eng) (f : Engine → Engine) : (s.updEng e f).tau = s.tau := rfl
@[simp] theorem State.updEng_sched (s : State) (e : Eng) (f : Engine → Engine) : (s.updEng e f).sched = s.sched := rfl
@[simp] theorem State.updEng_choices (s : State) (e : Eng) (f : Engine → Engine) : (s.updEng e f).choices = s.choices := rfl

/-! `State.setQueue` -/

@[simp] theorem State.setQueue_core (s : State) (t : Nat) (l : List LaunchBlock) : (s.setQueue t l).core = s.core := rfl
@[simp] theorem State.setQueue_others (s : State) (t : Nat) (l : List LaunchBlock) : (s.setQueue t l).others = s.others := rfl
@[simp] theorem State.setQueue_hbm (s : State) (t : Nat) (l : List LaunchBlock) : (s.setQueue t l).hbm = s.hbm := rfl
@[simp] theorem State.setQueue_window (s : State) (t : Nat) (l : List LaunchBlock) : (s.setQueue t l).window = s.window := rfl
@[simp] theorem State.setQueue_host (s : State) (t : Nat) (l : List LaunchBlock) : (s.setQueue t l).host = s.host := rfl
@[simp] theorem State.setQueue_lost (s : State) (t : Nat) (l : List LaunchBlock) : (s.setQueue t l).lost = s.lost := rfl
@[simp] theorem State.setQueue_badTag (s : State) (t : Nat) (l : List LaunchBlock) : (s.setQueue t l).badTag = s.badTag := rfl
@[simp] theorem State.setQueue_clocks (s : State) (t : Nat) (l : List LaunchBlock) : (s.setQueue t l).clocks = s.clocks := rfl
@[simp] theorem State.setQueue_group (s : State) (t : Nat) (l : List LaunchBlock) : (s.setQueue t l).group = s.group := rfl
@[simp] theorem State.setQueue_heat (s : State) (t : Nat) (l : List LaunchBlock) : (s.setQueue t l).heat = s.heat := rfl
@[simp] theorem State.setQueue_fw (s : State) (t : Nat) (l : List LaunchBlock) : (s.setQueue t l).fw = s.fw := rfl
@[simp] theorem State.setQueue_parts (s : State) (t : Nat) (l : List LaunchBlock) : (s.setQueue t l).parts = s.parts := rfl
@[simp] theorem State.setQueue_ctxs (s : State) (t : Nat) (l : List LaunchBlock) : (s.setQueue t l).ctxs = s.ctxs := rfl
@[simp] theorem State.setQueue_crews (s : State) (t : Nat) (l : List LaunchBlock) : (s.setQueue t l).crews = s.crews := rfl
@[simp] theorem State.setQueue_waiting (s : State) (t : Nat) (l : List LaunchBlock) : (s.setQueue t l).waiting = s.waiting := rfl
@[simp] theorem State.setQueue_launchQ (s : State) (t : Nat) (l : List LaunchBlock) : (s.setQueue t l).launchQ = assocSet s.launchQ t l := rfl
@[simp] theorem State.setQueue_crewNum (s : State) (t : Nat) (l : List LaunchBlock) : (s.setQueue t l).crewNum = s.crewNum := rfl
@[simp] theorem State.setQueue_now (s : State) (t : Nat) (l : List LaunchBlock) : (s.setQueue t l).now = s.now := rfl
@[simp] theorem State.setQueue_phase (s : State) (t : Nat) (l : List LaunchBlock) : (s.setQueue t l).phase = s.phase := rfl
@[simp] theorem State.setQueue_tau (s : State) (t : Nat) (l : List LaunchBlock) : (s.setQueue t l).tau = s.tau := rfl
@[simp] theorem State.setQueue_sched (s : State) (t : Nat) (l : List LaunchBlock) : (s.setQueue t l).sched = s.sched := rfl
@[simp] theorem State.setQueue_choices (s : State) (t : Nat) (l : List LaunchBlock) : (s.setQueue t l).choices = s.choices := rfl

/-! `State.mapCores` -/

@[simp] theorem State.mapCores_core (s : State) (f : Core → Core) : (s.mapCores f).core = f s.core := rfl
@[simp] theorem State.mapCores_others (s : State) (f : Core → Core) : (s.mapCores f).others = s.others.map f := rfl
@[simp] theorem State.mapCores_hbm (s : State) (f : Core → Core) : (s.mapCores f).hbm = s.hbm := rfl
@[simp] theorem State.mapCores_window (s : State) (f : Core → Core) : (s.mapCores f).window = s.window := rfl
@[simp] theorem State.mapCores_host (s : State) (f : Core → Core) : (s.mapCores f).host = s.host := rfl
@[simp] theorem State.mapCores_lost (s : State) (f : Core → Core) : (s.mapCores f).lost = s.lost := rfl
@[simp] theorem State.mapCores_badTag (s : State) (f : Core → Core) : (s.mapCores f).badTag = s.badTag := rfl
@[simp] theorem State.mapCores_clocks (s : State) (f : Core → Core) : (s.mapCores f).clocks = s.clocks := rfl
@[simp] theorem State.mapCores_group (s : State) (f : Core → Core) : (s.mapCores f).group = s.group := rfl
@[simp] theorem State.mapCores_heat (s : State) (f : Core → Core) : (s.mapCores f).heat = s.heat := rfl
@[simp] theorem State.mapCores_fw (s : State) (f : Core → Core) : (s.mapCores f).fw = s.fw := rfl
@[simp] theorem State.mapCores_parts (s : State) (f : Core → Core) : (s.mapCores f).parts = s.parts := rfl
@[simp] theorem State.mapCores_ctxs (s : State) (f : Core → Core) : (s.mapCores f).ctxs = s.ctxs := rfl
@[simp] theorem State.mapCores_crews (s : State) (f : Core → Core) : (s.mapCores f).crews = s.crews := rfl
@[simp] theorem State.mapCores_waiting (s : State) (f : Core → Core) : (s.mapCores f).waiting = s.waiting := rfl
@[simp] theorem State.mapCores_launchQ (s : State) (f : Core → Core) : (s.mapCores f).launchQ = s.launchQ := rfl
@[simp] theorem State.mapCores_crewNum (s : State) (f : Core → Core) : (s.mapCores f).crewNum = s.crewNum := rfl
@[simp] theorem State.mapCores_now (s : State) (f : Core → Core) : (s.mapCores f).now = s.now := rfl
@[simp] theorem State.mapCores_phase (s : State) (f : Core → Core) : (s.mapCores f).phase = s.phase := rfl
@[simp] theorem State.mapCores_tau (s : State) (f : Core → Core) : (s.mapCores f).tau = s.tau := rfl
@[simp] theorem State.mapCores_sched (s : State) (f : Core → Core) : (s.mapCores f).sched = s.sched := rfl
@[simp] theorem State.mapCores_choices (s : State) (f : Core → Core) : (s.mapCores f).choices = s.choices := rfl

/-! `Core.updSeq` -/

@[simp] theorem Core.updSeq_id (c : Core) (f : Sequencer → Sequencer) : (c.updSeq f).id = c.id := rfl
@[simp] theorem Core.updSeq_seat (c : Core) (f : Sequencer → Sequencer) : (c.updSeq f).seat = c.seat := rfl
@[simp] theorem Core.updSeq_lastCtx (c : Core) (f : Sequencer → Sequencer) : (c.updSeq f).lastCtx = c.lastCtx := rfl
@[simp] theorem Core.updSeq_seq (c : Core) (f : Sequencer → Sequencer) : (c.updSeq f).seq = f c.seq := rfl
@[simp] theorem Core.updSeq_vec (c : Core) (f : Sequencer → Sequencer) : (c.updSeq f).vec = c.vec := rfl
@[simp] theorem Core.updSeq_mat (c : Core) (f : Sequencer → Sequencer) : (c.updSeq f).mat = c.mat := rfl
@[simp] theorem Core.updSeq_xfer (c : Core) (f : Sequencer → Sequencer) : (c.updSeq f).xfer = c.xfer := rfl
@[simp] theorem Core.updSeq_views (c : Core) (f : Sequencer → Sequencer) : (c.updSeq f).views = c.views := rfl
@[simp] theorem Core.updSeq_tree (c : Core) (f : Sequencer → Sequencer) : (c.updSeq f).tree = c.tree := rfl
@[simp] theorem Core.updSeq_wb (c : Core) (f : Sequencer → Sequencer) : (c.updSeq f).wb = c.wb := rfl
@[simp] theorem Core.updSeq_treeLost (c : Core) (f : Sequencer → Sequencer) : (c.updSeq f).treeLost = c.treeLost := rfl
@[simp] theorem Core.updSeq_wbLost (c : Core) (f : Sequencer → Sequencer) : (c.updSeq f).wbLost = c.wbLost := rfl
@[simp] theorem Core.updSeq_reports (c : Core) (f : Sequencer → Sequencer) : (c.updSeq f).reports = c.reports := rfl
@[simp] theorem Core.updSeq_injected (c : Core) (f : Sequencer → Sequencer) : (c.updSeq f).injected = c.injected := rfl
@[simp] theorem Core.updSeq_effects (c : Core) (f : Sequencer → Sequencer) : (c.updSeq f).effects = c.effects := rfl
@[simp] theorem Core.updSeq_records (c : Core) (f : Sequencer → Sequencer) : (c.updSeq f).records = c.records := rfl
@[simp] theorem Core.updSeq_waiting (c : Core) (f : Sequencer → Sequencer) : (c.updSeq f).waiting = c.waiting := rfl
@[simp] theorem Core.updSeq_written (c : Core) (f : Sequencer → Sequencer) : (c.updSeq f).written = c.written := rfl
@[simp] theorem Core.updSeq_issue (c : Core) (f : Sequencer → Sequencer) : (c.updSeq f).issue = c.issue := rfl

/-! `Core.updVec` -/

@[simp] theorem Core.updVec_id (c : Core) (f : VecEngine → VecEngine) : (c.updVec f).id = c.id := rfl
@[simp] theorem Core.updVec_seat (c : Core) (f : VecEngine → VecEngine) : (c.updVec f).seat = c.seat := rfl
@[simp] theorem Core.updVec_lastCtx (c : Core) (f : VecEngine → VecEngine) : (c.updVec f).lastCtx = c.lastCtx := rfl
@[simp] theorem Core.updVec_seq (c : Core) (f : VecEngine → VecEngine) : (c.updVec f).seq = c.seq := rfl
@[simp] theorem Core.updVec_vec (c : Core) (f : VecEngine → VecEngine) : (c.updVec f).vec = f c.vec := rfl
@[simp] theorem Core.updVec_mat (c : Core) (f : VecEngine → VecEngine) : (c.updVec f).mat = c.mat := rfl
@[simp] theorem Core.updVec_xfer (c : Core) (f : VecEngine → VecEngine) : (c.updVec f).xfer = c.xfer := rfl
@[simp] theorem Core.updVec_views (c : Core) (f : VecEngine → VecEngine) : (c.updVec f).views = c.views := rfl
@[simp] theorem Core.updVec_tree (c : Core) (f : VecEngine → VecEngine) : (c.updVec f).tree = c.tree := rfl
@[simp] theorem Core.updVec_wb (c : Core) (f : VecEngine → VecEngine) : (c.updVec f).wb = c.wb := rfl
@[simp] theorem Core.updVec_treeLost (c : Core) (f : VecEngine → VecEngine) : (c.updVec f).treeLost = c.treeLost := rfl
@[simp] theorem Core.updVec_wbLost (c : Core) (f : VecEngine → VecEngine) : (c.updVec f).wbLost = c.wbLost := rfl
@[simp] theorem Core.updVec_reports (c : Core) (f : VecEngine → VecEngine) : (c.updVec f).reports = c.reports := rfl
@[simp] theorem Core.updVec_injected (c : Core) (f : VecEngine → VecEngine) : (c.updVec f).injected = c.injected := rfl
@[simp] theorem Core.updVec_effects (c : Core) (f : VecEngine → VecEngine) : (c.updVec f).effects = c.effects := rfl
@[simp] theorem Core.updVec_records (c : Core) (f : VecEngine → VecEngine) : (c.updVec f).records = c.records := rfl
@[simp] theorem Core.updVec_waiting (c : Core) (f : VecEngine → VecEngine) : (c.updVec f).waiting = c.waiting := rfl
@[simp] theorem Core.updVec_written (c : Core) (f : VecEngine → VecEngine) : (c.updVec f).written = c.written := rfl
@[simp] theorem Core.updVec_issue (c : Core) (f : VecEngine → VecEngine) : (c.updVec f).issue = c.issue := rfl

/-! `Core.updMat` -/

@[simp] theorem Core.updMat_id (c : Core) (f : MatEngine → MatEngine) : (c.updMat f).id = c.id := rfl
@[simp] theorem Core.updMat_seat (c : Core) (f : MatEngine → MatEngine) : (c.updMat f).seat = c.seat := rfl
@[simp] theorem Core.updMat_lastCtx (c : Core) (f : MatEngine → MatEngine) : (c.updMat f).lastCtx = c.lastCtx := rfl
@[simp] theorem Core.updMat_seq (c : Core) (f : MatEngine → MatEngine) : (c.updMat f).seq = c.seq := rfl
@[simp] theorem Core.updMat_vec (c : Core) (f : MatEngine → MatEngine) : (c.updMat f).vec = c.vec := rfl
@[simp] theorem Core.updMat_mat (c : Core) (f : MatEngine → MatEngine) : (c.updMat f).mat = f c.mat := rfl
@[simp] theorem Core.updMat_xfer (c : Core) (f : MatEngine → MatEngine) : (c.updMat f).xfer = c.xfer := rfl
@[simp] theorem Core.updMat_views (c : Core) (f : MatEngine → MatEngine) : (c.updMat f).views = c.views := rfl
@[simp] theorem Core.updMat_tree (c : Core) (f : MatEngine → MatEngine) : (c.updMat f).tree = c.tree := rfl
@[simp] theorem Core.updMat_wb (c : Core) (f : MatEngine → MatEngine) : (c.updMat f).wb = c.wb := rfl
@[simp] theorem Core.updMat_treeLost (c : Core) (f : MatEngine → MatEngine) : (c.updMat f).treeLost = c.treeLost := rfl
@[simp] theorem Core.updMat_wbLost (c : Core) (f : MatEngine → MatEngine) : (c.updMat f).wbLost = c.wbLost := rfl
@[simp] theorem Core.updMat_reports (c : Core) (f : MatEngine → MatEngine) : (c.updMat f).reports = c.reports := rfl
@[simp] theorem Core.updMat_injected (c : Core) (f : MatEngine → MatEngine) : (c.updMat f).injected = c.injected := rfl
@[simp] theorem Core.updMat_effects (c : Core) (f : MatEngine → MatEngine) : (c.updMat f).effects = c.effects := rfl
@[simp] theorem Core.updMat_records (c : Core) (f : MatEngine → MatEngine) : (c.updMat f).records = c.records := rfl
@[simp] theorem Core.updMat_waiting (c : Core) (f : MatEngine → MatEngine) : (c.updMat f).waiting = c.waiting := rfl
@[simp] theorem Core.updMat_written (c : Core) (f : MatEngine → MatEngine) : (c.updMat f).written = c.written := rfl
@[simp] theorem Core.updMat_issue (c : Core) (f : MatEngine → MatEngine) : (c.updMat f).issue = c.issue := rfl

/-! `Core.updXfer` -/

@[simp] theorem Core.updXfer_id (c : Core) (f : XferEngine → XferEngine) : (c.updXfer f).id = c.id := rfl
@[simp] theorem Core.updXfer_seat (c : Core) (f : XferEngine → XferEngine) : (c.updXfer f).seat = c.seat := rfl
@[simp] theorem Core.updXfer_lastCtx (c : Core) (f : XferEngine → XferEngine) : (c.updXfer f).lastCtx = c.lastCtx := rfl
@[simp] theorem Core.updXfer_seq (c : Core) (f : XferEngine → XferEngine) : (c.updXfer f).seq = c.seq := rfl
@[simp] theorem Core.updXfer_vec (c : Core) (f : XferEngine → XferEngine) : (c.updXfer f).vec = c.vec := rfl
@[simp] theorem Core.updXfer_mat (c : Core) (f : XferEngine → XferEngine) : (c.updXfer f).mat = c.mat := rfl
@[simp] theorem Core.updXfer_xfer (c : Core) (f : XferEngine → XferEngine) : (c.updXfer f).xfer = f c.xfer := rfl
@[simp] theorem Core.updXfer_views (c : Core) (f : XferEngine → XferEngine) : (c.updXfer f).views = c.views := rfl
@[simp] theorem Core.updXfer_tree (c : Core) (f : XferEngine → XferEngine) : (c.updXfer f).tree = c.tree := rfl
@[simp] theorem Core.updXfer_wb (c : Core) (f : XferEngine → XferEngine) : (c.updXfer f).wb = c.wb := rfl
@[simp] theorem Core.updXfer_treeLost (c : Core) (f : XferEngine → XferEngine) : (c.updXfer f).treeLost = c.treeLost := rfl
@[simp] theorem Core.updXfer_wbLost (c : Core) (f : XferEngine → XferEngine) : (c.updXfer f).wbLost = c.wbLost := rfl
@[simp] theorem Core.updXfer_reports (c : Core) (f : XferEngine → XferEngine) : (c.updXfer f).reports = c.reports := rfl
@[simp] theorem Core.updXfer_injected (c : Core) (f : XferEngine → XferEngine) : (c.updXfer f).injected = c.injected := rfl
@[simp] theorem Core.updXfer_effects (c : Core) (f : XferEngine → XferEngine) : (c.updXfer f).effects = c.effects := rfl
@[simp] theorem Core.updXfer_records (c : Core) (f : XferEngine → XferEngine) : (c.updXfer f).records = c.records := rfl
@[simp] theorem Core.updXfer_waiting (c : Core) (f : XferEngine → XferEngine) : (c.updXfer f).waiting = c.waiting := rfl
@[simp] theorem Core.updXfer_written (c : Core) (f : XferEngine → XferEngine) : (c.updXfer f).written = c.written := rfl
@[simp] theorem Core.updXfer_issue (c : Core) (f : XferEngine → XferEngine) : (c.updXfer f).issue = c.issue := rfl

/-! `Core.setLine` -/

@[simp] theorem Core.setLine_id (c : Core) (n : Nat) (l : Line) : (c.setLine n l).id = c.id := rfl
@[simp] theorem Core.setLine_seat (c : Core) (n : Nat) (l : Line) : (c.setLine n l).seat = c.seat := rfl
@[simp] theorem Core.setLine_lastCtx (c : Core) (n : Nat) (l : Line) : (c.setLine n l).lastCtx = c.lastCtx := rfl
@[simp] theorem Core.setLine_seq (c : Core) (n : Nat) (l : Line) : (c.setLine n l).seq = c.seq := rfl
@[simp] theorem Core.setLine_vec (c : Core) (n : Nat) (l : Line) : (c.setLine n l).vec = c.vec := rfl
@[simp] theorem Core.setLine_mat (c : Core) (n : Nat) (l : Line) : (c.setLine n l).mat = c.mat := rfl
@[simp] theorem Core.setLine_xfer (c : Core) (n : Nat) (l : Line) : (c.setLine n l).xfer = c.xfer := rfl
@[simp] theorem Core.setLine_views (c : Core) (n : Nat) (l : Line) : (c.setLine n l).views = c.views := rfl
@[simp] theorem Core.setLine_tree (c : Core) (n : Nat) (l : Line) : (c.setLine n l).tree = sparseSet Line.zero c.tree n l := rfl
@[simp] theorem Core.setLine_wb (c : Core) (n : Nat) (l : Line) : (c.setLine n l).wb = c.wb := rfl
@[simp] theorem Core.setLine_treeLost (c : Core) (n : Nat) (l : Line) : (c.setLine n l).treeLost = c.treeLost := rfl
@[simp] theorem Core.setLine_wbLost (c : Core) (n : Nat) (l : Line) : (c.setLine n l).wbLost = c.wbLost := rfl
@[simp] theorem Core.setLine_reports (c : Core) (n : Nat) (l : Line) : (c.setLine n l).reports = c.reports := rfl
@[simp] theorem Core.setLine_injected (c : Core) (n : Nat) (l : Line) : (c.setLine n l).injected = c.injected := rfl
@[simp] theorem Core.setLine_effects (c : Core) (n : Nat) (l : Line) : (c.setLine n l).effects = c.effects := rfl
@[simp] theorem Core.setLine_records (c : Core) (n : Nat) (l : Line) : (c.setLine n l).records = c.records := rfl
@[simp] theorem Core.setLine_waiting (c : Core) (n : Nat) (l : Line) : (c.setLine n l).waiting = c.waiting := rfl
@[simp] theorem Core.setLine_written (c : Core) (n : Nat) (l : Line) : (c.setLine n l).written = c.written := rfl
@[simp] theorem Core.setLine_issue (c : Core) (n : Nat) (l : Line) : (c.setLine n l).issue = c.issue := rfl

/-! `Core.setFull` -/

@[simp] theorem Core.setFull_id (c : Core) (n : Nat) (b : Bool) : (c.setFull n b).id = c.id := rfl
@[simp] theorem Core.setFull_seat (c : Core) (n : Nat) (b : Bool) : (c.setFull n b).seat = c.seat := rfl
@[simp] theorem Core.setFull_lastCtx (c : Core) (n : Nat) (b : Bool) : (c.setFull n b).lastCtx = c.lastCtx := rfl
@[simp] theorem Core.setFull_seq (c : Core) (n : Nat) (b : Bool) : (c.setFull n b).seq = c.seq := rfl
@[simp] theorem Core.setFull_vec (c : Core) (n : Nat) (b : Bool) : (c.setFull n b).vec = c.vec := rfl
@[simp] theorem Core.setFull_mat (c : Core) (n : Nat) (b : Bool) : (c.setFull n b).mat = c.mat := rfl
@[simp] theorem Core.setFull_xfer (c : Core) (n : Nat) (b : Bool) : (c.setFull n b).xfer = c.xfer := rfl
@[simp] theorem Core.setFull_views (c : Core) (n : Nat) (b : Bool) : (c.setFull n b).views = c.views := rfl
@[simp] theorem Core.setFull_tree (c : Core) (n : Nat) (b : Bool) : (c.setFull n b).tree = sparseSet Line.zero c.tree n { c.line n with full := b } := rfl
@[simp] theorem Core.setFull_wb (c : Core) (n : Nat) (b : Bool) : (c.setFull n b).wb = c.wb := rfl
@[simp] theorem Core.setFull_treeLost (c : Core) (n : Nat) (b : Bool) : (c.setFull n b).treeLost = c.treeLost := rfl
@[simp] theorem Core.setFull_wbLost (c : Core) (n : Nat) (b : Bool) : (c.setFull n b).wbLost = c.wbLost := rfl
@[simp] theorem Core.setFull_reports (c : Core) (n : Nat) (b : Bool) : (c.setFull n b).reports = c.reports := rfl
@[simp] theorem Core.setFull_injected (c : Core) (n : Nat) (b : Bool) : (c.setFull n b).injected = c.injected := rfl
@[simp] theorem Core.setFull_effects (c : Core) (n : Nat) (b : Bool) : (c.setFull n b).effects = c.effects := rfl
@[simp] theorem Core.setFull_records (c : Core) (n : Nat) (b : Bool) : (c.setFull n b).records = c.records := rfl
@[simp] theorem Core.setFull_waiting (c : Core) (n : Nat) (b : Bool) : (c.setFull n b).waiting = c.waiting := rfl
@[simp] theorem Core.setFull_written (c : Core) (n : Nat) (b : Bool) : (c.setFull n b).written = c.written := rfl
@[simp] theorem Core.setFull_issue (c : Core) (n : Nat) (b : Bool) : (c.setFull n b).issue = c.issue := rfl

/-! `Core.setWbRow` -/

@[simp] theorem Core.setWbRow_id (c : Core) (n : Nat) (v : BitVec 2048) : (c.setWbRow n v).id = c.id := rfl
@[simp] theorem Core.setWbRow_seat (c : Core) (n : Nat) (v : BitVec 2048) : (c.setWbRow n v).seat = c.seat := rfl
@[simp] theorem Core.setWbRow_lastCtx (c : Core) (n : Nat) (v : BitVec 2048) : (c.setWbRow n v).lastCtx = c.lastCtx := rfl
@[simp] theorem Core.setWbRow_seq (c : Core) (n : Nat) (v : BitVec 2048) : (c.setWbRow n v).seq = c.seq := rfl
@[simp] theorem Core.setWbRow_vec (c : Core) (n : Nat) (v : BitVec 2048) : (c.setWbRow n v).vec = c.vec := rfl
@[simp] theorem Core.setWbRow_mat (c : Core) (n : Nat) (v : BitVec 2048) : (c.setWbRow n v).mat = c.mat := rfl
@[simp] theorem Core.setWbRow_xfer (c : Core) (n : Nat) (v : BitVec 2048) : (c.setWbRow n v).xfer = c.xfer := rfl
@[simp] theorem Core.setWbRow_views (c : Core) (n : Nat) (v : BitVec 2048) : (c.setWbRow n v).views = c.views := rfl
@[simp] theorem Core.setWbRow_tree (c : Core) (n : Nat) (v : BitVec 2048) : (c.setWbRow n v).tree = c.tree := rfl
@[simp] theorem Core.setWbRow_wb (c : Core) (n : Nat) (v : BitVec 2048) : (c.setWbRow n v).wb = sparseSet 0 c.wb n v := rfl
@[simp] theorem Core.setWbRow_treeLost (c : Core) (n : Nat) (v : BitVec 2048) : (c.setWbRow n v).treeLost = c.treeLost := rfl
@[simp] theorem Core.setWbRow_wbLost (c : Core) (n : Nat) (v : BitVec 2048) : (c.setWbRow n v).wbLost = c.wbLost := rfl
@[simp] theorem Core.setWbRow_reports (c : Core) (n : Nat) (v : BitVec 2048) : (c.setWbRow n v).reports = c.reports := rfl
@[simp] theorem Core.setWbRow_injected (c : Core) (n : Nat) (v : BitVec 2048) : (c.setWbRow n v).injected = c.injected := rfl
@[simp] theorem Core.setWbRow_effects (c : Core) (n : Nat) (v : BitVec 2048) : (c.setWbRow n v).effects = c.effects := rfl
@[simp] theorem Core.setWbRow_records (c : Core) (n : Nat) (v : BitVec 2048) : (c.setWbRow n v).records = c.records := rfl
@[simp] theorem Core.setWbRow_waiting (c : Core) (n : Nat) (v : BitVec 2048) : (c.setWbRow n v).waiting = c.waiting := rfl
@[simp] theorem Core.setWbRow_written (c : Core) (n : Nat) (v : BitVec 2048) : (c.setWbRow n v).written = c.written := rfl
@[simp] theorem Core.setWbRow_issue (c : Core) (n : Nat) (v : BitVec 2048) : (c.setWbRow n v).issue = c.issue := rfl

/-! `Core.bump` -/

@[simp] theorem Core.bump_id (c : Core) : (c.bump).id = c.id := rfl
@[simp] theorem Core.bump_seat (c : Core) : (c.bump).seat = c.seat := rfl
@[simp] theorem Core.bump_lastCtx (c : Core) : (c.bump).lastCtx = c.lastCtx := rfl
@[simp] theorem Core.bump_seq (c : Core) : (c.bump).seq = c.seq := rfl
@[simp] theorem Core.bump_vec (c : Core) : (c.bump).vec = c.vec := rfl
@[simp] theorem Core.bump_mat (c : Core) : (c.bump).mat = c.mat := rfl
@[simp] theorem Core.bump_xfer (c : Core) : (c.bump).xfer = c.xfer := rfl
@[simp] theorem Core.bump_views (c : Core) : (c.bump).views = c.views := rfl
@[simp] theorem Core.bump_tree (c : Core) : (c.bump).tree = c.tree := rfl
@[simp] theorem Core.bump_wb (c : Core) : (c.bump).wb = c.wb := rfl
@[simp] theorem Core.bump_treeLost (c : Core) : (c.bump).treeLost = c.treeLost := rfl
@[simp] theorem Core.bump_wbLost (c : Core) : (c.bump).wbLost = c.wbLost := rfl
@[simp] theorem Core.bump_reports (c : Core) : (c.bump).reports = c.reports := rfl
@[simp] theorem Core.bump_injected (c : Core) : (c.bump).injected = c.injected := rfl
@[simp] theorem Core.bump_effects (c : Core) : (c.bump).effects = c.effects := rfl
@[simp] theorem Core.bump_records (c : Core) : (c.bump).records = c.records := rfl
@[simp] theorem Core.bump_waiting (c : Core) : (c.bump).waiting = c.waiting := rfl
@[simp] theorem Core.bump_written (c : Core) : (c.bump).written = c.written := rfl
@[simp] theorem Core.bump_issue (c : Core) : (c.bump).issue = c.issue + 1 := rfl

/-! `Core.orFlags` -/

@[simp] theorem Core.orFlags_id (c : Core) (m : BitVec 5) : (c.orFlags m).id = c.id := rfl
@[simp] theorem Core.orFlags_seat (c : Core) (m : BitVec 5) : (c.orFlags m).seat = c.seat := rfl
@[simp] theorem Core.orFlags_lastCtx (c : Core) (m : BitVec 5) : (c.orFlags m).lastCtx = c.lastCtx := rfl
@[simp] theorem Core.orFlags_seq (c : Core) (m : BitVec 5) : (c.orFlags m).seq = { c.seq with flags := c.seq.flags ||| m } := rfl
@[simp] theorem Core.orFlags_vec (c : Core) (m : BitVec 5) : (c.orFlags m).vec = c.vec := rfl
@[simp] theorem Core.orFlags_mat (c : Core) (m : BitVec 5) : (c.orFlags m).mat = c.mat := rfl
@[simp] theorem Core.orFlags_xfer (c : Core) (m : BitVec 5) : (c.orFlags m).xfer = c.xfer := rfl
@[simp] theorem Core.orFlags_views (c : Core) (m : BitVec 5) : (c.orFlags m).views = c.views := rfl
@[simp] theorem Core.orFlags_tree (c : Core) (m : BitVec 5) : (c.orFlags m).tree = c.tree := rfl
@[simp] theorem Core.orFlags_wb (c : Core) (m : BitVec 5) : (c.orFlags m).wb = c.wb := rfl
@[simp] theorem Core.orFlags_treeLost (c : Core) (m : BitVec 5) : (c.orFlags m).treeLost = c.treeLost := rfl
@[simp] theorem Core.orFlags_wbLost (c : Core) (m : BitVec 5) : (c.orFlags m).wbLost = c.wbLost := rfl
@[simp] theorem Core.orFlags_reports (c : Core) (m : BitVec 5) : (c.orFlags m).reports = c.reports := rfl
@[simp] theorem Core.orFlags_injected (c : Core) (m : BitVec 5) : (c.orFlags m).injected = c.injected := rfl
@[simp] theorem Core.orFlags_effects (c : Core) (m : BitVec 5) : (c.orFlags m).effects = c.effects := rfl
@[simp] theorem Core.orFlags_records (c : Core) (m : BitVec 5) : (c.orFlags m).records = c.records := rfl
@[simp] theorem Core.orFlags_waiting (c : Core) (m : BitVec 5) : (c.orFlags m).waiting = c.waiting := rfl
@[simp] theorem Core.orFlags_written (c : Core) (m : BitVec 5) : (c.orFlags m).written = c.written := rfl
@[simp] theorem Core.orFlags_issue (c : Core) (m : BitVec 5) : (c.orFlags m).issue = c.issue := rfl

/-! The result state of Safety.lean -/

@[simp] theorem State.resulting_others (s : State) (rd : Reg) (v pc : Word) : (s.resulting rd v pc).others = s.others := rfl
@[simp] theorem State.passing_others (s : State) (pc : Word) : (s.passing pc).others = s.others := rfl
@[simp] theorem State.resulting_hbm (s : State) (rd : Reg) (v pc : Word) : (s.resulting rd v pc).hbm = s.hbm := rfl
@[simp] theorem State.passing_hbm (s : State) (pc : Word) : (s.passing pc).hbm = s.hbm := rfl
@[simp] theorem State.resulting_window (s : State) (rd : Reg) (v pc : Word) : (s.resulting rd v pc).window = s.window := rfl
@[simp] theorem State.passing_window (s : State) (pc : Word) : (s.passing pc).window = s.window := rfl
@[simp] theorem State.resulting_host (s : State) (rd : Reg) (v pc : Word) : (s.resulting rd v pc).host = s.host := rfl
@[simp] theorem State.passing_host (s : State) (pc : Word) : (s.passing pc).host = s.host := rfl
@[simp] theorem State.resulting_lost (s : State) (rd : Reg) (v pc : Word) : (s.resulting rd v pc).lost = s.lost := rfl
@[simp] theorem State.passing_lost (s : State) (pc : Word) : (s.passing pc).lost = s.lost := rfl
@[simp] theorem State.resulting_badTag (s : State) (rd : Reg) (v pc : Word) : (s.resulting rd v pc).badTag = s.badTag := rfl
@[simp] theorem State.passing_badTag (s : State) (pc : Word) : (s.passing pc).badTag = s.badTag := rfl
@[simp] theorem State.resulting_clocks (s : State) (rd : Reg) (v pc : Word) : (s.resulting rd v pc).clocks = s.clocks := rfl
@[simp] theorem State.passing_clocks (s : State) (pc : Word) : (s.passing pc).clocks = s.clocks := rfl
@[simp] theorem State.resulting_group (s : State) (rd : Reg) (v pc : Word) : (s.resulting rd v pc).group = s.group := rfl
@[simp] theorem State.passing_group (s : State) (pc : Word) : (s.passing pc).group = s.group := rfl
@[simp] theorem State.resulting_heat (s : State) (rd : Reg) (v pc : Word) : (s.resulting rd v pc).heat = s.heat := rfl
@[simp] theorem State.passing_heat (s : State) (pc : Word) : (s.passing pc).heat = s.heat := rfl
@[simp] theorem State.resulting_fw (s : State) (rd : Reg) (v pc : Word) : (s.resulting rd v pc).fw = s.fw := rfl
@[simp] theorem State.passing_fw (s : State) (pc : Word) : (s.passing pc).fw = s.fw := rfl
@[simp] theorem State.resulting_parts (s : State) (rd : Reg) (v pc : Word) : (s.resulting rd v pc).parts = s.parts := rfl
@[simp] theorem State.passing_parts (s : State) (pc : Word) : (s.passing pc).parts = s.parts := rfl
@[simp] theorem State.resulting_ctxs (s : State) (rd : Reg) (v pc : Word) : (s.resulting rd v pc).ctxs = s.ctxs := rfl
@[simp] theorem State.passing_ctxs (s : State) (pc : Word) : (s.passing pc).ctxs = s.ctxs := rfl
@[simp] theorem State.resulting_crews (s : State) (rd : Reg) (v pc : Word) : (s.resulting rd v pc).crews = s.crews := rfl
@[simp] theorem State.passing_crews (s : State) (pc : Word) : (s.passing pc).crews = s.crews := rfl
@[simp] theorem State.resulting_waiting (s : State) (rd : Reg) (v pc : Word) : (s.resulting rd v pc).waiting = s.waiting := rfl
@[simp] theorem State.passing_waiting (s : State) (pc : Word) : (s.passing pc).waiting = s.waiting := rfl
@[simp] theorem State.resulting_launchQ (s : State) (rd : Reg) (v pc : Word) : (s.resulting rd v pc).launchQ = s.launchQ := rfl
@[simp] theorem State.passing_launchQ (s : State) (pc : Word) : (s.passing pc).launchQ = s.launchQ := rfl
@[simp] theorem State.resulting_crewNum (s : State) (rd : Reg) (v pc : Word) : (s.resulting rd v pc).crewNum = s.crewNum := rfl
@[simp] theorem State.passing_crewNum (s : State) (pc : Word) : (s.passing pc).crewNum = s.crewNum := rfl
@[simp] theorem State.resulting_now (s : State) (rd : Reg) (v pc : Word) : (s.resulting rd v pc).now = s.now := rfl
@[simp] theorem State.passing_now (s : State) (pc : Word) : (s.passing pc).now = s.now := rfl
@[simp] theorem State.resulting_phase (s : State) (rd : Reg) (v pc : Word) : (s.resulting rd v pc).phase = s.phase := rfl
@[simp] theorem State.passing_phase (s : State) (pc : Word) : (s.passing pc).phase = s.phase := rfl
@[simp] theorem State.resulting_tau (s : State) (rd : Reg) (v pc : Word) : (s.resulting rd v pc).tau = s.tau := rfl
@[simp] theorem State.passing_tau (s : State) (pc : Word) : (s.passing pc).tau = s.tau := rfl
@[simp] theorem State.resulting_sched (s : State) (rd : Reg) (v pc : Word) : (s.resulting rd v pc).sched = s.sched := rfl
@[simp] theorem State.passing_sched (s : State) (pc : Word) : (s.passing pc).sched = s.sched := rfl
@[simp] theorem State.resulting_choices (s : State) (rd : Reg) (v pc : Word) : (s.resulting rd v pc).choices = s.choices := rfl
@[simp] theorem State.passing_choices (s : State) (pc : Word) : (s.passing pc).choices = s.choices := rfl
@[simp] theorem State.resulting_core_id (s : State) (rd : Reg) (v pc : Word) : (s.resulting rd v pc).core.id = s.core.id := rfl
@[simp] theorem State.passing_core_id (s : State) (pc : Word) : (s.passing pc).core.id = s.core.id := rfl
@[simp] theorem State.resulting_core_seat (s : State) (rd : Reg) (v pc : Word) : (s.resulting rd v pc).core.seat = s.core.seat := rfl
@[simp] theorem State.passing_core_seat (s : State) (pc : Word) : (s.passing pc).core.seat = s.core.seat := rfl
@[simp] theorem State.resulting_core_lastCtx (s : State) (rd : Reg) (v pc : Word) : (s.resulting rd v pc).core.lastCtx = s.core.lastCtx := rfl
@[simp] theorem State.passing_core_lastCtx (s : State) (pc : Word) : (s.passing pc).core.lastCtx = s.core.lastCtx := rfl
@[simp] theorem State.resulting_core_vec (s : State) (rd : Reg) (v pc : Word) : (s.resulting rd v pc).core.vec = s.core.vec := rfl
@[simp] theorem State.passing_core_vec (s : State) (pc : Word) : (s.passing pc).core.vec = s.core.vec := rfl
@[simp] theorem State.resulting_core_mat (s : State) (rd : Reg) (v pc : Word) : (s.resulting rd v pc).core.mat = s.core.mat := rfl
@[simp] theorem State.passing_core_mat (s : State) (pc : Word) : (s.passing pc).core.mat = s.core.mat := rfl
@[simp] theorem State.resulting_core_xfer (s : State) (rd : Reg) (v pc : Word) : (s.resulting rd v pc).core.xfer = s.core.xfer := rfl
@[simp] theorem State.passing_core_xfer (s : State) (pc : Word) : (s.passing pc).core.xfer = s.core.xfer := rfl
@[simp] theorem State.resulting_core_views (s : State) (rd : Reg) (v pc : Word) : (s.resulting rd v pc).core.views = s.core.views := rfl
@[simp] theorem State.passing_core_views (s : State) (pc : Word) : (s.passing pc).core.views = s.core.views := rfl
@[simp] theorem State.resulting_core_tree (s : State) (rd : Reg) (v pc : Word) : (s.resulting rd v pc).core.tree = s.core.tree := rfl
@[simp] theorem State.passing_core_tree (s : State) (pc : Word) : (s.passing pc).core.tree = s.core.tree := rfl
@[simp] theorem State.resulting_core_wb (s : State) (rd : Reg) (v pc : Word) : (s.resulting rd v pc).core.wb = s.core.wb := rfl
@[simp] theorem State.passing_core_wb (s : State) (pc : Word) : (s.passing pc).core.wb = s.core.wb := rfl
@[simp] theorem State.resulting_core_treeLost (s : State) (rd : Reg) (v pc : Word) : (s.resulting rd v pc).core.treeLost = s.core.treeLost := rfl
@[simp] theorem State.passing_core_treeLost (s : State) (pc : Word) : (s.passing pc).core.treeLost = s.core.treeLost := rfl
@[simp] theorem State.resulting_core_wbLost (s : State) (rd : Reg) (v pc : Word) : (s.resulting rd v pc).core.wbLost = s.core.wbLost := rfl
@[simp] theorem State.passing_core_wbLost (s : State) (pc : Word) : (s.passing pc).core.wbLost = s.core.wbLost := rfl
@[simp] theorem State.resulting_core_reports (s : State) (rd : Reg) (v pc : Word) : (s.resulting rd v pc).core.reports = s.core.reports := rfl
@[simp] theorem State.passing_core_reports (s : State) (pc : Word) : (s.passing pc).core.reports = s.core.reports := rfl
@[simp] theorem State.resulting_core_injected (s : State) (rd : Reg) (v pc : Word) : (s.resulting rd v pc).core.injected = s.core.injected := rfl
@[simp] theorem State.passing_core_injected (s : State) (pc : Word) : (s.passing pc).core.injected = s.core.injected := rfl
@[simp] theorem State.resulting_core_effects (s : State) (rd : Reg) (v pc : Word) : (s.resulting rd v pc).core.effects = s.core.effects := rfl
@[simp] theorem State.passing_core_effects (s : State) (pc : Word) : (s.passing pc).core.effects = s.core.effects := rfl
@[simp] theorem State.resulting_core_records (s : State) (rd : Reg) (v pc : Word) : (s.resulting rd v pc).core.records = s.core.records := rfl
@[simp] theorem State.passing_core_records (s : State) (pc : Word) : (s.passing pc).core.records = s.core.records := rfl
@[simp] theorem State.resulting_core_waiting (s : State) (rd : Reg) (v pc : Word) : (s.resulting rd v pc).core.waiting = s.core.waiting := rfl
@[simp] theorem State.passing_core_waiting (s : State) (pc : Word) : (s.passing pc).core.waiting = s.core.waiting := rfl
@[simp] theorem State.resulting_core_written (s : State) (rd : Reg) (v pc : Word) : (s.resulting rd v pc).core.written = s.core.written := rfl
@[simp] theorem State.passing_core_written (s : State) (pc : Word) : (s.passing pc).core.written = s.core.written := rfl
@[simp] theorem State.resulting_core_issue (s : State) (rd : Reg) (v pc : Word) : (s.resulting rd v pc).core.issue = s.core.issue := rfl
@[simp] theorem State.passing_core_issue (s : State) (pc : Word) : (s.passing pc).core.issue = s.core.issue := rfl
@[simp] theorem State.resulting_pc (s : State) (rd : Reg) (v pc : Word) : (s.resulting rd v pc).core.seq.pc = pc := rfl
@[simp] theorem State.passing_pc (s : State) (pc : Word) : (s.passing pc).core.seq.pc = pc := rfl

/-! ### Registers (R78) -/

theorem Sequencer.reg_zero (q : Sequencer) : q.reg 0 = 0 := rfl

theorem Sequencer.setReg_zero (q : Sequencer) (v : Word) : q.setReg 0 v = q := rfl

theorem Sequencer.reg_setReg_same (q : Sequencer) {r : Reg} (v : Word) (h : r ≠ 0) : (q.setReg r v).reg r = v := by
  simp [Sequencer.setReg, Sequencer.reg, h]

theorem Sequencer.reg_setReg_other (q : Sequencer) {r r' : Reg} (v : Word) (h : r' ≠ r) : (q.setReg r v).reg r' = q.reg r' := by
  by_cases h0 : r = 0
  · simp [Sequencer.setReg, h0]
  · have hv : r.val ≠ r'.val := fun e => h (Fin.ext e.symm)
    simp [Sequencer.setReg, Sequencer.reg, h0, hv]

/-- A register that is written is full. -/
theorem Sequencer.regFull_setReg (q : Sequencer) (r : Reg) (v : Word) : (q.setReg r v).regFull r = true := by
  by_cases h0 : r = 0 <;> simp [Sequencer.setReg, Sequencer.regFull, h0]

end Sys2Proof.Machine
end

