-- ==== Sys2Proof/Tests/Slice0.lean ====
section
/-!
SUPPORT. Tests: words of the spec's encodings, ill-formed terms that are refused, and for each statement states and operands that
meet its hypotheses.
-/

set_option Elab.async false
open Sys2Proof Sys2Proof.Machine Sys2Proof.Laws

/-! ### Words written out field by field from the encoding tables of 03 (R38 to R53): each constructor once, every field nonzero -/

theorem test_decode_seq_1 : ([
    (0x06A6D800, .add 21 6 27),
    (0x06A6D801, .sub 21 6 27),
    (0x06A6D802, .and 21 6 27),
    (0x06A6D803, .or 21 6 27),
    (0x06A6D804, .xor 21 6 27),
    (0x06A6D805, .shl 21 6 27),
    (0x06A6D806, .shr 21 6 27),
    (0x06A6D807, .sar 21 6 27),
    (0x06A6D808, .slt 21 6 27),
    (0x06A6D809, .sltn 21 6 27),
    (0x06A6D80A, .min 21 6 27),
    (0x06A6D80B, .max 21 6 27),
    (0x06A6D80C, .minn 21 6 27),
    (0x06A6D80D, .maxn 21 6 27),
    (0x06A6D80E, .mul 21 6 27),
    (0x06A6D80F, .mulh 21 6 27),
    (0x06A6D810, .mulhn 21 6 27),
    (0x06A6D811, .div 21 6 27),
    (0x06A6D812, .divn 21 6 27),
    (0x06A6D813, .rem 21 6 27),
    (0x06A6D814, .remn 21 6 27),
    (0x06A60015, .clz 21 6),
    (0x06A60016, .popc 21 6),
    (0x0AA6FEDC, .addi 21 6 0xFEDC)] : List (IWord × Instr)).all (fun x => decide ((decode .seq 3 x.1).toOption = some x.2)) = true := by decide

theorem test_decode_seq_2 : ([
    (0x0EA6FEDC, .andi 21 6 0xFEDC),
    (0x12A6FEDC, .ori 21 6 0xFEDC),
    (0x16A6FEDC, .xori 21 6 0xFEDC),
    (0x1AA60025, .shli 21 6 0x25),
    (0x1AA64025, .shri 21 6 0x25),
    (0x1AA68025, .sari 21 6 0x25),
    (0x1EA6FEDC, .slti 21 6 0xFEDC),
    (0x22A0FEDC, .movi 21 0xFEDC),
    (0x26A2FEDC, .movk 21 2 0xFEDC),
    (0x28DBFEDC, .beq 6 27 0xFEDC),
    (0x2CDBFEDC, .bne 6 27 0xFEDC),
    (0x30DBFEDC, .blt 6 27 0xFEDC),
    (0x34DBFEDC, .bge 6 27 0xFEDC),
    (0x38DBFEDC, .bltn 6 27 0xFEDC),
    (0x3CDBFEDC, .bgen 6 27 0xFEDC),
    (0x42BABCDE, .jal 21 0x1ABCDE),
    (0x46A6FEDC, .jalr 21 6 0xFEDC),
    (0x4AA6FEDC, .ldB 21 6 0xFEDC),
    (0x4EA6FEDC, .ldBs 21 6 0xFEDC),
    (0x52A6FEDC, .ldH 21 6 0xFEDC),
    (0x56A6FEDC, .ldHs 21 6 0xFEDC),
    (0x5AA6FEDC, .ldW 21 6 0xFEDC),
    (0x5EA6FEDC, .ldWs 21 6 0xFEDC),
    (0x62A6FEDC, .ldD 21 6 0xFEDC)] : List (IWord × Instr)).all (fun x => decide ((decode .seq 3 x.1).toOption = some x.2)) = true := by decide

theorem test_decode_seq_3 : ([
    (0x66A6FEDC, .stB 21 6 0xFEDC),
    (0x6AA6FEDC, .stH 21 6 0xFEDC),
    (0x6EA6FEDC, .stW 21 6 0xFEDC),
    (0x72A6FEDC, .stD 21 6 0xFEDC),
    (0x76A6D843, .atomAdd 21 6 27 .d .crew),
    (0x76A6D8C3, .atomSwap 21 6 27 .d .crew),
    (0x76A6D943, .atomCas 21 6 27 .d .crew),
    (0x76A6D9C3, .atomMin 21 6 27 .d .crew),
    (0x76A6DA43, .atomMax 21 6 27 .d .crew),
    (0x76A6DAC3, .atomOr 21 6 27 .d .crew),
    (0x76A6DB43, .atomAnd 21 6 27 .d .crew),
    (0x78000045, .mark 0x45),
    (0x78000593, .fence .xp .sq .crew),
    (0x7EA68C00, .hndBind 21 6 35),
    (0x7C008C01, .hndFree 35),
    (0x7EA08C02, .hndStat 21 35),
    (0x80021234, .engStart .mat 0x1234),
    (0x80060000, .engStop .mat),
    (0x82AA0000, .engStat 21 .mat),
    (0x800E0000, .engJoin .mat),
    (0x86A68C00, .swArm 21 6 35),
    (0x86A68C01, .swWait 21 6 35),
    (0x86A68C02, .swReadTarget 21 6 35),
    (0x86A68C06, .swReadCount 21 6 35)] : List (IWord × Instr)).all (fun x => decide ((decode .seq 3 x.1).toOption = some x.2)) = true := by decide

theorem test_decode_seq_4 : ([
    (0x86A68C0A, .swReadGen 21 6 35),
    (0x86A68C0E, .swReadCode 21 6 35),
    (0x88000000, .crewBar),
    (0x8C06D800, .wqPush 6 27),
    (0x90A60000, .viewSet 5 6),
    (0x94000000, .mendOpen),
    (0x96A68C01, .mendSave 21 6 35),
    (0x94000002, .mendClose),
    (0x98000003, .cinchOpen .crew),
    (0x98000100, .cinchClose),
    (0x98000200, .cinchDrop),
    (0x9EA0D800, .clkRead 21 27),
    (0x9C060001, .clkWait 6),
    (0xA2A6D803, .stStamp 21 6 27 .crew),
    (0xA6A6D803, .ldAsof 21 6 27 .crew),
    (0xAAA68C00, .bilClaim 21 6 35),
    (0xAAA68C01, .bilAdv 21 6 35),
    (0xAAA68C02, .bilPost 21 6 35),
    (0xAC000000, .yield),
    (0xB2A00004, .csrRead 21 .clkmax),
    (0xB0064004, .csrWrite 6 .clkmax),
    (0xB2A68004, .csrSwap 21 6 .clkmax),
    (0xB400FEDC, .trap 0xFEDC),
    (0xB4010000, .tret)] : List (IWord × Instr)).all (fun x => decide ((decode .seq 3 x.1).toOption = some x.2)) = true := by decide

theorem test_decode_seq_5 : ([
    (0xB803FEDC, .injStrike .xfer 0xFEDC),
    (0xBC000000, .nop),
    (0xBC000001, .endProg)] : List (IWord × Instr)).all (fun x => decide ((decode .seq 3 x.1).toOption = some x.2)) = true := by decide

theorem test_decode_vec_1 : ([
    (0x058AF0DE, .vAdd ⟨3, .lit 2⟩ ⟨5, .k 4⟩ ⟨1, .lit 23⟩ true false),
    (0x098AF0DE, .vSub ⟨3, .lit 2⟩ ⟨5, .k 4⟩ ⟨1, .lit 23⟩ true false),
    (0x0D8AF0DE, .vMul ⟨3, .lit 2⟩ ⟨5, .k 4⟩ ⟨1, .lit 23⟩ true false),
    (0x118AF0DE, .vFma ⟨3, .lit 2⟩ ⟨5, .k 4⟩ ⟨1, .lit 23⟩ true false),
    (0x158AF0DE, .vMin ⟨3, .lit 2⟩ ⟨5, .k 4⟩ ⟨1, .lit 23⟩ true false),
    (0x198AF0DE, .vMax ⟨3, .lit 2⟩ ⟨5, .k 4⟩ ⟨1, .lit 23⟩ true false),
    (0x1D8AF002, .vAbs ⟨3, .lit 2⟩ ⟨5, .k 4⟩ true),
    (0x218AF002, .vNeg ⟨3, .lit 2⟩ ⟨5, .k 4⟩ true),
    (0x258AF0DE, .vAnd ⟨3, .lit 2⟩ ⟨5, .k 4⟩ ⟨1, .lit 23⟩ true false),
    (0x298AF0DE, .vOr ⟨3, .lit 2⟩ ⟨5, .k 4⟩ ⟨1, .lit 23⟩ true false),
    (0x2D8AF0DE, .vXor ⟨3, .lit 2⟩ ⟨5, .k 4⟩ ⟨1, .lit 23⟩ true false),
    (0x318AF0DE, .vShl ⟨3, .lit 2⟩ ⟨5, .k 4⟩ ⟨1, .lit 23⟩ true false),
    (0x358AF0DE, .vShr ⟨3, .lit 2⟩ ⟨5, .k 4⟩ ⟨1, .lit 23⟩ true false),
    (0x398AF0DE, .vSar ⟨3, .lit 2⟩ ⟨5, .k 4⟩ ⟨1, .lit 23⟩ true false),
    (0x3C1AF0DE, .vCmpeq 6 ⟨5, .k 4⟩ ⟨1, .lit 23⟩ true false),
    (0x401AF0DE, .vCmplt 6 ⟨5, .k 4⟩ ⟨1, .lit 23⟩ true false),
    (0x441AF0DE, .vCmple 6 ⟨5, .k 4⟩ ⟨1, .lit 23⟩ true false),
    (0x498AF0DE, .vSel ⟨3, .lit 2⟩ ⟨5, .k 4⟩ ⟨1, .lit 23⟩ true false),
    (0x4D8AF182, .vCvt ⟨3, .lit 2⟩ ⟨5, .k 4⟩ .bf16 true),
    (0x518AF3FE, .vAddi ⟨3, .lit 2⟩ ⟨5, .k 4⟩ true 0x1FE),
    (0x558AF3FE, .vMuli ⟨3, .lit 2⟩ ⟨5, .k 4⟩ true 0x1FE),
    (0x598801FE, .vMovi ⟨3, .lit 2⟩ 0x1FE),
    (0x5D8AF3FE, .vBcast ⟨3, .lit 2⟩ ⟨5, .k 4⟩ true 0x1FE),
    (0x618AF0DE, .vPerm ⟨3, .lit 2⟩ ⟨5, .k 4⟩ ⟨1, .lit 23⟩ true false)] : List (IWord × Instr)).all (fun x => decide ((decode .vec 3 x.1).toOption = some x.2)) = true := by decide

theorem test_decode_vec_2 : ([
    (0x658AF002, .vRedsum ⟨3, .lit 2⟩ ⟨5, .k 4⟩ true),
    (0x698AF002, .vRedmax ⟨3, .lit 2⟩ ⟨5, .k 4⟩ true),
    (0x6D8AF002, .vRedmin ⟨3, .lit 2⟩ ⟨5, .k 4⟩ true),
    (0x718AF002, .vArgmax ⟨3, .lit 2⟩ ⟨5, .k 4⟩ true),
    (0x758A300C, .vLd ⟨3, .lit 2⟩ 35 3),
    (0x798A300E, .vSt ⟨3, .lit 2⟩ 35 3 true),
    (0x7D8AF232, .vGather ⟨3, .lit 2⟩ ⟨5, .k 4⟩ 35 true),
    (0x818AF232, .vScatter ⟨3, .lit 2⟩ ⟨5, .k 4⟩ 35 true false),
    (0x858AF002, .vRcpa ⟨3, .lit 2⟩ ⟨5, .k 4⟩ true),
    (0x898AF002, .vRsqa ⟨3, .lit 2⟩ ⟨5, .k 4⟩ true),
    (0x8D8AF0DE, .vRcpf ⟨3, .lit 2⟩ ⟨5, .k 4⟩ ⟨1, .lit 23⟩ true false),
    (0x918AF0DE, .vRsqf ⟨3, .lit 2⟩ ⟨5, .k 4⟩ ⟨1, .lit 23⟩ true false),
    (0x958AF213, .vCorCrot ⟨3, .lit 2⟩ ⟨5, .k 4⟩ true 0x13),
    (0x958AF233, .vCorCvec ⟨3, .lit 2⟩ ⟨5, .k 4⟩ true 0x13),
    (0x958AF253, .vCorHrot ⟨3, .lit 2⟩ ⟨5, .k 4⟩ true 0x13),
    (0x958AF273, .vCorHvec ⟨3, .lit 2⟩ ⟨5, .k 4⟩ true 0x13),
    (0x958AF293, .vCorLrot ⟨3, .lit 2⟩ ⟨5, .k 4⟩ true 0x13),
    (0x958AF2B3, .vCorLvec ⟨3, .lit 2⟩ ⟨5, .k 4⟩ true 0x13),
    (0x998AF002, .vSigq ⟨3, .lit 2⟩ ⟨5, .k 4⟩ true),
    (0x9D8AF002, .vCdfq ⟨3, .lit 2⟩ ⟨5, .k 4⟩ true),
    (0xA18AF0DE, .vHash ⟨3, .lit 2⟩ ⟨5, .k 4⟩ ⟨1, .lit 23⟩ true false),
    (0xA58AF0DE, .vNoise ⟨3, .lit 2⟩ ⟨5, .k 4⟩ ⟨1, .lit 23⟩ true false),
    (0xA98AF3FE, .vBitt ⟨3, .lit 2⟩ ⟨5, .k 4⟩ true 0x1FE),
    (0xAD8AF002, .vClz ⟨3, .lit 2⟩ ⟨5, .k 4⟩ true)] : List (IWord × Instr)).all (fun x => decide ((decode .vec 3 x.1).toOption = some x.2)) = true := by decide

theorem test_decode_vec_3 : ([
    (0xB18AF002, .vPopc ⟨3, .lit 2⟩ ⟨5, .k 4⟩ true),
    (0xB4180064, .vShape .bf16 100),
    (0xB7580064, .vShapeMasked 6 .bf16 100),
    (0xB804081C, .vMaskAnd 1 2 7),
    (0xB884081C, .vMaskOr 1 2 7),
    (0xB904081C, .vMaskXor 1 2 7),
    (0xB984081C, .vMaskAndn 1 2 7),
    (0xBA040800, .vMaskNot 1 2),
    (0xBA840000, .vMaskSet 1),
    (0xBB040000, .vMaskClear 1),
    (0xBEDABCDE, .vLoop 5 0x5ABCDE),
    (0xC2DABCDE, .vBr 5 0x5ABCDE),
    (0xC69ABCDE, .vKop 5 0x1ABCDE),
    (0xC6BABCDE, .vKopAdd 5 0x1ABCDE),
    (0xC6C00001, .vKopMov 5 1),
    (0xC8000000, .vMendOpen),
    (0xCAA00123, .vMendSave 5 0x123),
    (0xC8400000, .vMendClose),
    (0xCC000000, .vEnd),
    (0xD3823000, .rcInitDec ⟨7, .lit 0⟩ 35),
    (0xD3823004, .rcInitEnc ⟨7, .lit 0⟩ 35),
    (0xD782F0DE, .rcDec ⟨7, .lit 0⟩ ⟨5, .k 4⟩ ⟨1, .lit 23⟩ true),
    (0xDB82F0DE, .rcDecm ⟨7, .lit 0⟩ ⟨5, .k 4⟩ ⟨1, .lit 23⟩ true),
    (0xDF82F0DE, .rcEnc ⟨7, .lit 0⟩ ⟨5, .k 4⟩ ⟨1, .lit 23⟩ true false)] : List (IWord × Instr)).all (fun x => decide ((decode .vec 3 x.1).toOption = some x.2)) = true := by decide

theorem test_decode_vec_4 : ([
    (0xE382F0DE, .rcEncm ⟨7, .lit 0⟩ ⟨5, .k 4⟩ ⟨1, .lit 23⟩ true false),
    (0xE7800000, .rcFlush ⟨7, .lit 0⟩),
    (0xEB800000, .rcSpec ⟨7, .lit 0⟩),
    (0xEF800000, .rcKeep ⟨7, .lit 0⟩),
    (0xF3800000, .rcUndo ⟨7, .lit 0⟩),
    (0xF78000DC, .rcStat ⟨7, .lit 0⟩ ⟨1, .lit 23⟩),
    (0xF8000000, .vMark)] : List (IWord × Instr)).all (fun x => decide ((decode .vec 3 x.1).toOption = some x.2)) = true := by decide

theorem test_decode_mat_1 : ([
    (0x06800000, .mBegin .sparse 1024),
    (0x08000000, .mZero),
    (0x0D7C0004, .mLdacc ⟨2, .k 7⟩ true),
    (0x117EAF04, .mAcc ⟨2, .k 7⟩ 0xABC true),
    (0x157EAF2C, .mAcc8 ⟨2, .k 7⟩ 0xABC 5 true),
    (0x197EAF05, .mAccsTern ⟨2, .k 7⟩ 0xABC true),
    (0x197EAF2E, .mAccsInt8 ⟨2, .k 7⟩ 0xABC 5 true),
    (0x1D7C0004, .mSeg ⟨2, .k 7⟩ true),
    (0x22F0DC04, .mScale ⟨5, .k 4⟩ ⟨1, .lit 23⟩ true),
    (0x257C0000, .mRetF32 ⟨2, .k 7⟩),
    (0x257C8000, .mRetBf16 ⟨2, .k 7⟩),
    (0x257D0000, .mRetF32Add ⟨2, .k 7⟩),
    (0x297C0000, .mRetraw ⟨2, .k 7⟩),
    (0x2C02AF00, .mWbase 0xABC),
    (0x32DABCDE, .mLoop 5 0x5ABCDE),
    (0x36DABCDE, .mBr 5 0x5ABCDE),
    (0x3A9ABCDE, .mKop 5 0x1ABCDE),
    (0x3ABABCDE, .mKopAdd 5 0x1ABCDE),
    (0x3AC00001, .mKopMov 5 1),
    (0x3EA55800, .mPert 0x2A 0x15 3),
    (0x40000000, .mEnd)] : List (IWord × Instr)).all (fun x => decide ((decode .mat 3 x.1).toOption = some x.2)) = true := by decide

theorem test_decode_xfer_1 : ([
    (0x07052870, .xCopy (.hnd 32 5) (.tree ⟨5, .lit 1⟩) 6),
    (0x091ABCDE, .xShapeImm .ratio 0x1ABCDE),
    (0x092C0000, .xShapeReg .ratio 3),
    (0x0F052860, .xUnfold (.hnd 32 5) (.tree ⟨5, .lit 1⟩) 4),
    (0x12DABCDE, .xWinImm .pconst 0x1ABCDE),
    (0x12EC0000, .xWinReg .pconst 3),
    (0x17052870, .xUnpackT5p (.hnd 32 5) (.tree ⟨5, .lit 1⟩) 6),
    (0x17052871, .xUnpackBsi8 (.hnd 32 5) (.tree ⟨5, .lit 1⟩) 6),
    (0x17052872, .xUnpackSp24 (.hnd 32 5) (.tree ⟨5, .lit 1⟩) 6),
    (0x17052873, .xUnpackZrun (.hnd 32 5) (.tree ⟨5, .lit 1⟩) 6),
    (0x1B052870, .xConv (.hnd 32 5) (.tree ⟨5, .lit 1⟩) 6),
    (0x1F052870, .xMcast (.hnd 32 5) (.tree ⟨5, .lit 1⟩) 6),
    (0x23052871, .xGather (.hnd 32 5) (.tree ⟨5, .lit 1⟩) 6 1),
    (0x27052871, .xScatter (.hnd 32 5) (.tree ⟨5, .lit 1⟩) 6 1),
    (0x2B050032, .xFill (.hnd 32 5) 6 2),
    (0x2EAF0A1C, .xWbfill 0xABC (.tree ⟨5, .lit 1⟩) 6),
    (0x32360000, .xSync 35 3),
    (0x30000000, .xSyncDetach),
    (0x34000000, .xClose),
    (0x3800FEDC, .xWait 0xFEDC),
    (0x3C0E0CC4, .xCollSumI32 .crew (.hnd 1 4) 6 1),
    (0x3C4E0CC4, .xCollSumF32 .crew (.hnd 1 4) 6 1),
    (0x3C8E0CC4, .xCollBcast .crew (.hnd 1 4) 6 1),
    (0x3CCE0CC4, .xCollArgmax .crew (.hnd 1 4) 6 1)] : List (IWord × Instr)).all (fun x => decide ((decode .xfer 3 x.1).toOption = some x.2)) = true := by decide

theorem test_decode_xfer_2 : ([
    (0x42DABCDE, .xLoop 5 0x5ABCDE),
    (0x46DABCDE, .xBr 5 0x5ABCDE),
    (0x4A9ABCDE, .xKop 5 0x1ABCDE),
    (0x4ABABCDE, .xKopAdd 5 0x1ABCDE),
    (0x4AC00001, .xKopMov 5 1),
    (0x4C000000, .xMendOpen),
    (0x4EA00123, .xMendSave 5 0x123),
    (0x4C400000, .xMendClose),
    (0x50000000, .xMark),
    (0x54000000, .xEnd)] : List (IWord × Instr)).all (fun x => decide ((decode .xfer 3 x.1).toOption = some x.2)) = true := by decide

theorem test_decode_printed_seq_1 : ([
    (0x20601000, .movi 3 0x1000),
    (0x614107A0, .ldD 10 1 0x07a0),
    (0x04A63800, .add 5 6 7),
    (0x04A63801, .sub 5 6 7),
    (0x0884FFFF, .addi 4 4 0xffff),
    (0x1843400C, .shri 2 3 0x0c),
    (0x24610400, .movk 3 1 0x0400),
    (0x2C80FFFD, .bne 4 0 0xfffd),
    (0x43E00028, .jal 31 0x000028),
    (0x6CA10008, .stW 5 1 0x0008),
    (0x74853043, .atomAdd 4 5 6 .d .crew),
    (0x78000581, .fence .xp .lq .core),
    (0x78000003, .mark 0x03),
    (0x7C610400, .hndBind 3 1 1),
    (0x80030000, .engStart .xfer 0x0000),
    (0x80A90000, .engStat 5 .vec),
    (0x800F0000, .engJoin .xfer),
    (0x902A0000, .viewSet 1 10),
    (0xB0600001, .csrRead 3 .tcause),
    (0xB0600011, .csrRead 3 .flags),
    (0xB0004011, .csrWrite 0 .flags),
    (0xB0608011, .csrSwap 3 0 .flags),
    (0x0506380F, .mulh 8 6 7),
    (0x04A63812, .divn 5 6 7)] : List (IWord × Instr)).all (fun x => decide ((decode .seq 3 x.1).toOption = some x.2)) = true := by decide

theorem test_decode_printed_seq_2 : ([
    (0x05260015, .clz 9 6),
    (0x0C4300FF, .andi 2 3 0x00ff),
    (0x1843803F, .sari 2 3 0x3f),
    (0x1CE5FFFF, .slti 7 5 0xffff),
    (0x2060FFFE, .movi 3 0xfffe),
    (0x24628000, .movk 3 2 0x8000),
    (0x38850002, .bltn 4 5 0x0002),
    (0x441F0000, .jalr 0 31 0x0000),
    (0x54C2FFFC, .ldHs 6 2 0xfffc),
    (0x70A10010, .stD 5 1 0x0010),
    (0x7C000401, .hndFree 1),
    (0x7CA00802, .hndStat 5 2),
    (0x780004B1, .fence .sq .xp .core),
    (0x80010000, .engStart .vec 0x0000),
    (0x80060000, .engStop .mat),
    (0x90AE0000, .viewSet 5 14),
    (0x84830400, .swArm 4 3 1),
    (0x84A30401, .swWait 5 3 1),
    (0x84C3040A, .swReadGen 6 3 1),
    (0x84C3040E, .swReadCode 6 3 1),
    (0x88000000, .crewBar),
    (0xB0094000, .csrWrite 9 .tvec),
    (0xB060800A, .csrSwap 3 0 .mendretry),
    (0xB0400005, .csrRead 2 .ceil)] : List (IWord × Instr)).all (fun x => decide ((decode .seq 3 x.1).toOption = some x.2)) = true := by decide

theorem test_decode_printed_seq_3 : ([
    (0xB0A0000E, .csrRead 5 .crewRank),
    (0x08C10020, .addi 6 1 0x0020),
    (0x2CA0000B, .bne 5 0 0x000b),
    (0x2CA0000F, .bne 5 0 0x000f),
    (0x9C070001, .clkWait 7),
    (0x9E80A800, .clkRead 20 21),
    (0xA1461805, .stStamp 10 6 3 .package),
    (0xA1618805, .stStamp 11 1 17 .package),
    (0xA6C6A805, .ldAsof 22 6 21 .package),
    (0xA6C6A80A, .ldAsof 22 6 21 .time),
    (0x70660000, .stD 3 6 0x0000),
    (0x3295FFFF, .blt 20 21 0xffff),
    (0x20600000, .movi 3 0x0000),
    (0x2461C97C, .movk 3 1 0xc97c),
    (0x2462FFFF, .movk 3 2 0xffff),
    (0x246300FF, .movk 3 3 0x00ff),
    (0x9CA02800, .clkRead 5 5),
    (0x9C0E0001, .clkWait 14),
    (0x78000002, .mark 0x02),
    (0x78000028, .mark 0x28),
    (0x7800007F, .mark 0x7f),
    (0x78000595, .fence .xp .sq .package),
    (0x78000415, .fence .lq .sq .package),
    (0x7800049A, .fence .sq .sq .time)] : List (IWord × Instr)).all (fun x => decide ((decode .seq 3 x.1).toOption = some x.2)) = true := by decide

theorem test_decode_printed_seq_4 : ([
    (0x78000706, .fence .hp .lq .context),
    (0x74853101, .atomCas 4 5 6 .w .core),
    (0x74853205, .atomMax 4 5 6 .w .package),
    (0x74E848C7, .atomSwap 7 8 9 .d .host),
    (0x98000004, .cinchOpen .die),
    (0x98000003, .cinchOpen .crew),
    (0x98000100, .cinchClose),
    (0x98000200, .cinchDrop),
    (0x860F0C01, .swWait 16 15 3),
    (0x07F9E806, .shr 31 25 29),
    (0x7C621800, .hndBind 3 2 6),
    (0x98000005, .cinchOpen .package),
    (0xA9241801, .bilAdv 9 4 6),
    (0xA8891800, .bilClaim 4 9 6),
    (0xA9241802, .bilPost 9 4 6),
    (0x8C063800, .wqPush 6 7),
    (0xB0600007, .csrRead 3 .yreq),
    (0xB0600008, .csrRead 3 .ydl),
    (0xAC000000, .yield),
    (0xBC000001, .endProg),
    (0x28A00008, .beq 5 0 0x0008),
    (0x22E000D4, .movi 23 0x00d4),
    (0xB0174000, .csrWrite 23 .tvec),
    (0x94000000, .mendOpen)] : List (IWord × Instr)).all (fun x => decide ((decode .seq 3 x.1).toOption = some x.2)) = true := by decide

theorem test_decode_printed_seq_5 : ([
    (0x956A0401, .mendSave 11 10 1),
    (0x94000002, .mendClose),
    (0x39D0FFFD, .bltn 14 16 0xfffd),
    (0xB220000A, .csrRead 17 .mendretry),
    (0x2E320002, .bne 17 18 0x0002),
    (0xB8000064, .injStrike .seq 0x0064),
    (0xB8021000, .injStrike .mat 0x1000),
    (0x72610100, .stD 19 1 0x0100),
    (0x8C15A000, .wqPush 21 20),
    (0x7402B045, .atomAdd 0 2 22 .d .package),
    (0xB0174003, .csrWrite 23 .tpc),
    (0xB4010000, .tret),
    (0xB4008001, .trap 0x8001),
    (0x78000593, .fence .xp .sq .crew)] : List (IWord × Instr)).all (fun x => decide ((decode .seq 3 x.1).toOption = some x.2)) = true := by decide

theorem test_decode_printed_vec_1 : ([
    (0x05E1E093, .vAdd ⟨3, .k 0⟩ ⟨3, .k 0⟩ ⟨1, .lit 4⟩ true true),
    (0xB41C0040, .vShape .f32 0x040),
    (0xB55C0040, .vShapeMasked 2 .f32 0x040),
    (0xBC000008, .vLoop 0 0x000008),
    (0x4E61E182, .vCvt ⟨4, .k 0⟩ ⟨3, .k 0⟩ .bf16 true),
    (0xC07FFFFE, .vBr 0 0x7ffffe),
    (0xCC000000, .vEnd),
    (0x518183FE, .vAddi ⟨3, .lit 0⟩ ⟨3, .lit 0⟩ true 0x1fe),
    (0x40098093, .vCmplt 2 ⟨3, .lit 0⟩ ⟨1, .lit 4⟩ true true),
    (0xD702868A, .rcDec ⟨6, .lit 0⟩ ⟨5, .lit 1⟩ ⟨5, .lit 2⟩ true),
    (0xB4180080, .vShape .bf16 0x080),
    (0xB5C400C8, .vShapeMasked 3 .n8 0x0c8),
    (0x1180949B, .vFma ⟨3, .lit 0⟩ ⟨1, .lit 5⟩ ⟨1, .lit 6⟩ true true),
    (0x59800001, .vMovi ⟨3, .lit 0⟩ 0x001),
    (0x558581FD, .vMuli ⟨3, .lit 1⟩ ⟨3, .lit 0⟩ false 0x1fd),
    (0x35858093, .vShr ⟨3, .lit 1⟩ ⟨3, .lit 0⟩ ⟨1, .lit 4⟩ true true),
    (0xA9858210, .vBitt ⟨3, .lit 1⟩ ⟨3, .lit 0⟩ true 0x010),
    (0x3C058093, .vCmpeq 1 ⟨3, .lit 0⟩ ⟨1, .lit 4⟩ true true),
    (0x49898187, .vSel ⟨3, .lit 2⟩ ⟨3, .lit 0⟩ ⟨3, .lit 1⟩ true true),
    (0xB984080C, .vMaskAndn 1 2 3),
    (0xBA800000, .vMaskSet 0),
    (0x4E018002, .vCvt ⟨4, .lit 0⟩ ⟨3, .lit 0⟩ .i8 true),
    (0x4E018202, .vCvt ⟨4, .lit 0⟩ ⟨3, .lit 0⟩ .e4m3u true),
    (0x5D858205, .vBcast ⟨3, .lit 1⟩ ⟨3, .lit 0⟩ true 0x005)] : List (IWord × Instr)).all (fun x => decide ((decode .vec 3 x.1).toOption = some x.2)) = true := by decide

theorem test_decode_printed_vec_2 : ([
    (0x61898187, .vPerm ⟨3, .lit 2⟩ ⟨3, .lit 0⟩ ⟨3, .lit 1⟩ true true),
    (0x66818002, .vRedsum ⟨5, .lit 0⟩ ⟨3, .lit 0⟩ true),
    (0x72818002, .vArgmax ⟨5, .lit 0⟩ ⟨3, .lit 0⟩ true),
    (0x75802004, .vLd ⟨3, .lit 0⟩ 2 1),
    (0x79802006, .vSt ⟨3, .lit 0⟩ 2 1 true),
    (0x7D858022, .vGather ⟨3, .lit 1⟩ ⟨3, .lit 0⟩ 2 true),
    (0x81858023, .vScatter ⟨3, .lit 1⟩ ⟨3, .lit 0⟩ 2 true true),
    (0xF8000000, .vMark),
    (0x85858002, .vRcpa ⟨3, .lit 1⟩ ⟨3, .lit 0⟩ true),
    (0x8D898187, .vRcpf ⟨3, .lit 2⟩ ⟨3, .lit 0⟩ ⟨3, .lit 1⟩ true true),
    (0x95819278, .vCorHvec ⟨3, .lit 0⟩ ⟨3, .lit 4⟩ true 0x18),
    (0x9581921E, .vCorCrot ⟨3, .lit 0⟩ ⟨3, .lit 4⟩ true 0x1e),
    (0x99858002, .vSigq ⟨3, .lit 1⟩ ⟨3, .lit 0⟩ true),
    (0x9F028002, .vCdfq ⟨6, .lit 0⟩ ⟨5, .lit 0⟩ true),
    (0xA1858093, .vHash ⟨3, .lit 1⟩ ⟨3, .lit 0⟩ ⟨1, .lit 4⟩ true true),
    (0xA5858093, .vNoise ⟨3, .lit 1⟩ ⟨3, .lit 0⟩ ⟨1, .lit 4⟩ true true),
    (0xBD000010, .vLoop 2 0x000010),
    (0xC4A00004, .vKopAdd 1 0x000004),
    (0xD3001000, .rcInitDec ⟨6, .lit 0⟩ 1),
    (0x40048887, .vCmplt 1 ⟨1, .lit 2⟩ ⟨1, .lit 1⟩ true true),
    (0xEB000000, .rcSpec ⟨6, .lit 0⟩),
    (0xD7008166, .rcDec ⟨6, .lit 0⟩ ⟨1, .lit 0⟩ ⟨2, .k 1⟩ true),
    (0x55816300, .vMuli ⟨3, .lit 0⟩ ⟨2, .k 0⟩ true 0x100),
    (0xB98C0408, .vMaskAndn 3 1 2)] : List (IWord × Instr)).all (fun x => decide ((decode .vec 3 x.1).toOption = some x.2)) = true := by decide

theorem test_decode_printed_vec_3 : ([
    (0xB5D00003, .vShapeMasked 3 .i32 0x003),
    (0xF3000000, .rcUndo ⟨6, .lit 0⟩),
    (0xD701858A, .rcDec ⟨6, .lit 0⟩ ⟨3, .lit 1⟩ ⟨3, .lit 2⟩ true),
    (0x49658967, .vSel ⟨2, .k 1⟩ ⟨3, .lit 2⟩ ⟨2, .k 1⟩ true true),
    (0xEF000000, .rcKeep ⟨6, .lit 0⟩),
    (0xD3001004, .rcInitEnc ⟨6, .lit 0⟩ 1),
    (0xDB02018A, .rcDecm ⟨6, .lit 0⟩ ⟨4, .lit 0⟩ ⟨3, .lit 2⟩ true),
    (0xDF028287, .rcEnc ⟨6, .lit 0⟩ ⟨5, .lit 0⟩ ⟨5, .lit 1⟩ true true),
    (0xDF028286, .rcEnc ⟨6, .lit 0⟩ ⟨5, .lit 0⟩ ⟨5, .lit 1⟩ true false),
    (0xE3020287, .rcEncm ⟨6, .lit 0⟩ ⟨4, .lit 0⟩ ⟨5, .lit 1⟩ true true),
    (0xE7000000, .rcFlush ⟨6, .lit 0⟩),
    (0xF7000188, .rcStat ⟨6, .lit 0⟩ ⟨3, .lit 2⟩),
    (0xB40C0080, .vShape .n16 0x080),
    (0xA8908A00, .vBitt ⟨1, .lit 4⟩ ⟨1, .lit 2⟩ true 0x000),
    (0x80A4A033, .vScatter ⟨1, .lit 9⟩ ⟨1, .lit 8⟩ 3 true true),
    (0xA4B4ACB3, .vNoise ⟨1, .lit 13⟩ ⟨1, .lit 11⟩ ⟨1, .lit 12⟩ true true),
    (0xB80C0810, .vMaskAnd 3 2 4),
    (0xB6D40010, .vShapeMasked 5 .n32 0x010),
    (0x6CC8AC02, .vRedmin ⟨1, .lit 18⟩ ⟨1, .lit 11⟩ true),
    (0x48D0C4CF, .vSel ⟨1, .lit 20⟩ ⟨1, .lit 17⟩ ⟨1, .lit 19⟩ true true),
    (0xC8000000, .vMendOpen),
    (0xC9A00008, .vMendSave 3 0x008),
    (0xC8400000, .vMendClose)] : List (IWord × Instr)).all (fun x => decide ((decode .vec 3 x.1).toOption = some x.2)) = true := by decide

theorem test_decode_printed_mat_1 : ([
    (0x11000004, .mAcc ⟨2, .lit 0⟩ 0x000 true),
    (0x11040084, .mAcc ⟨2, .lit 1⟩ 0x002 true),
    (0x04004000, .mBegin .tern 0x002),
    (0x1C800004, .mSeg ⟨1, .lit 0⟩ true),
    (0x20848804, .mScale ⟨1, .lit 1⟩ ⟨1, .lit 2⟩ true),
    (0x2C000000, .mWbase 0x000),
    (0x08000000, .mZero),
    (0x25800000, .mRetF32 ⟨3, .lit 0⟩),
    (0x40000000, .mEnd),
    (0x1500013C, .mAcc8 ⟨2, .lit 0⟩ 0x004 7 true),
    (0x05800000, .mBegin .int8 0x400),
    (0x06020000, .mBegin .sparse 0x010),
    (0x0D800004, .mLdacc ⟨3, .lit 0⟩ true),
    (0x2C008000, .mWbase 0x200),
    (0x11000000, .mAcc ⟨2, .lit 0⟩ 0x000 false),
    (0x1504021C, .mAcc8 ⟨2, .lit 1⟩ 0x008 3 true),
    (0x19000005, .mAccsTern ⟨2, .lit 0⟩ 0x000 true),
    (0x1964029E, .mAccsInt8 ⟨2, .k 1⟩ 0x00a 3 true),
    (0x25808000, .mRetBf16 ⟨3, .lit 0⟩),
    (0x25810000, .mRetF32Add ⟨3, .lit 0⟩),
    (0x29800000, .mRetraw ⟨3, .lit 0⟩),
    (0x3C701000, .mPert 0x07 0x00 2),
    (0x31000004, .mLoop 2 0x000004),
    (0x11640004, .mAcc ⟨2, .k 1⟩ 0x000 true)] : List (IWord × Instr)).all (fun x => decide ((decode .mat 3 x.1).toOption = some x.2)) = true := by decide

theorem test_decode_printed_mat_2 : ([
    (0x38A00001, .mKopAdd 1 0x000001),
    (0x11640084, .mAcc ⟨2, .k 1⟩ 0x002 true),
    (0x25E80000, .mRetF32 ⟨3, .k 2⟩),
    (0x357FFFF9, .mBr 2 0x7ffff9)] : List (IWord × Instr)).all (fun x => decide ((decode .mat 3 x.1).toOption = some x.2)) = true := by decide

theorem test_decode_printed_xfer_1 : ([
    (0x48800000, .xKop 1 0x000000),
    (0x490003A0, .xKop 2 0x0003a0),
    (0x2C002094, .xWbfill 0x000 (.hnd 1 1) 2),
    (0x04208250, .xCopy (.tree ⟨1, .lit 0⟩) (.hnd 1 1) 2),
    (0x06112810, .xCopy (.hnd 2 1) (.tree ⟨5, .lit 0⟩) 2),
    (0x30160000, .xSync 1 3),
    (0x061C8570, .xCopy (.hnd 3 4) (.hnd 2 5) 6),
    (0x08000004, .xShapeImm .rows 0x000004),
    (0x086C0000, .xShapeReg .rowbytes 3),
    (0x09000040, .xShapeImm .ratio 0x000040),
    (0x09800006, .xShapeImm .dtype 0x000006),
    (0x2A110013, .xFill (.hnd 2 1) 2 3),
    (0x20808455, .xGather (.tree ⟨4, .lit 0⟩) (.hnd 2 1) 2 5),
    (0x2C022094, .xWbfill 0x008 (.hnd 1 1) 2),
    (0x1A111810, .xConv (.hnd 2 1) (.tree ⟨3, .lit 0⟩) 2),
    (0x10400003, .xWinImm .ww 0x000003),
    (0x12800002, .xWinImm .pmode 0x000002),
    (0x0C808250, .xUnfold (.tree ⟨4, .lit 0⟩) (.hnd 1 1) 2),
    (0x14808250, .xUnpackT5p (.tree ⟨4, .lit 0⟩) (.hnd 1 1) 2),
    (0x14808253, .xUnpackZrun (.tree ⟨4, .lit 0⟩) (.hnd 1 1) 2),
    (0x1E211810, .xMcast (.hnd 4 1) (.tree ⟨3, .lit 0⟩) 2),
    (0x30000000, .xSyncDetach),
    (0x38000003, .xWait 0x0003),
    (0x3C4C6050, .xCollSumF32 .crew (.tree ⟨3, .lit 0⟩) 2 4)] : List (IWord × Instr)).all (fun x => decide ((decode .xfer 3 x.1).toOption = some x.2)) = true := by decide

theorem test_decode_printed_xfer_2 : ([
    (0x3CD4A050, .xCollArgmax .package (.tree ⟨5, .lit 0⟩) 2 4),
    (0x40800004, .xLoop 1 0x000004),
    (0x50000000, .xMark),
    (0x3CCC3428, .xCollArgmax .crew (.tree ⟨1, .lit 20⟩) 1 2),
    (0x061C0D08, .xCopy (.hnd 3 4) (.tree ⟨1, .lit 20⟩) 1),
    (0x4C000000, .xMendOpen),
    (0x4D200010, .xMendSave 2 0x010),
    (0x4C400000, .xMendClose)] : List (IWord × Instr)).all (fun x => decide ((decode .xfer 3 x.1).toOption = some x.2)) = true := by decide


/-! ### Ill-formed terms are refused, one for each check of WellFormed -/

/-- Handle 0 in each word that names a handle 1 to 63 (R39, R45, R47, R50). -/
theorem test_wf_handle_zero : ([.hndBind 1 2 0, .hndFree 0, .hndStat 1 0, .mendSave 1 2 0, .vLd ⟨1, .lit 0⟩ 0 1,
    .vSt ⟨1, .lit 0⟩ 0 1 true, .xSync 0 3] : List Instr).all (fun i => i.wf == false) = true := by decide

/-- A handle endpoint with handle 0 (R49). -/
theorem test_wf_endpoint_zero :
    let z : EndPt := .hnd 0 1
    let t : EndPt := .tree ⟨1, .lit 0⟩
    ([.xCopy z t 1, .xCopy t z 1, .xUnfold z t 1, .xUnfold t z 1, .xUnpackT5p z t 1, .xUnpackT5p t z 1, .xUnpackBsi8 z t 1,
      .xUnpackBsi8 t z 1, .xUnpackSp24 z t 1, .xUnpackSp24 t z 1, .xUnpackZrun z t 1, .xUnpackZrun t z 1, .xConv z t 1,
      .xConv t z 1, .xMcast z t 1, .xMcast t z 1, .xGather z t 1 2, .xGather t z 1 2, .xScatter z t 1 2, .xScatter t z 1 2,
      .xFill z 1 2, .xWbfill 0 z 1, .xCollSumI32 .crew z 1 2, .xCollSumF32 .crew z 1 2, .xCollBcast .crew z 1 2,
      .xCollArgmax .crew z 1 2] : List Instr).all (fun i => i.wf == false) = true := by decide

/-- Read-only registers as destinations of `csr.write` and `csr.swap` (R103). -/
theorem test_wf_read_only : ([.ceil, .yreq, .ydl, .menddepth, .coreId, .dieId, .crewSize, .crewRank, .ctxId, .encv] : List Csr).all
    (fun c => Instr.wf (.csrWrite 1 c) == false && Instr.wf (.csrSwap 1 2 c) == false) = true := by decide

/-- A trap below 0x8000, a mark of no path, an empty loop, a mend.save of 0 or 2,049 lines, a reduction of 0 or 1,025 k-steps. -/
theorem test_wf_ranges : ([.trap 0x7FFF, .mark 0, .vLoop 1 0, .mLoop 1 0, .xLoop 1 0, .vMendSave 1 0, .vMendSave 1 2049,
    .xMendSave 1 0, .xMendSave 1 2049, .mBegin .tern 0, .mBegin .tern 1025] : List Instr).all (fun i => i.wf == false) = true := by
  decide

/-- Fewer than 4 and more than 30 iterations (R45). -/
theorem test_wf_iterations : ([3, 31] : List (BitVec 5)).all (fun n => ([.vCorCrot ⟨1, .lit 0⟩ ⟨2, .lit 0⟩ true n,
    .vCorCvec ⟨1, .lit 0⟩ ⟨2, .lit 0⟩ true n, .vCorHrot ⟨1, .lit 0⟩ ⟨2, .lit 0⟩ true n, .vCorHvec ⟨1, .lit 0⟩ ⟨2, .lit 0⟩ true n,
    .vCorLrot ⟨1, .lit 0⟩ ⟨2, .lit 0⟩ true n, .vCorLvec ⟨1, .lit 0⟩ ⟨2, .lit 0⟩ true n] : List Instr).all
    (fun i => i.wf == false)) = true := by decide

/-- A lane count of 0, and one beyond the type's limit (R131). -/
theorem test_wf_lanes : ([.vShape .i8 0, .vShape .i8 257, .vShape .bf16 129, .vShapeMasked 2 .f32 65, .vShapeMasked 2 .f32 0] : List Instr).all
    (fun i => i.wf == false) = true := by decide

/-- The same words refused by the decoders: each field of a word one past its range. -/
theorem test_decode_refuses :
    (decode .seq 3 0x7C610000).toOption = none ∧ (decode .seq 3 0x78000000).toOption = none ∧
    (decode .vec 3 0xB41C0041).toOption = none ∧ (decode .vec 3 0xBC000000).toOption = none ∧
    (decode .mat 3 0x04000000).toOption = none ∧ (decode .xfer 3 0x06012810).toOption = none ∧
    (decode .vec 3 0x4E018202).toOption.isSome ∧ (decode .vec 2 0x4E018202).toOption = none := by decide

namespace Sys2Proof.Tests

/-! ### Small states -/

/-- Core 0, held alone by crew 0 of context 0 in a machine that has just been reset. -/
def seated : State := State.reset.seatFocus

/-- Registers that hold these values. -/
def holding (s : State) (l : List (Reg × Word)) : State :=
  s.updSeq (fun q => { q with g := l.foldl (fun g x => g.set x.1 ⟨x.2, true⟩) q.g })

/-- Byte o of the core's own local store, as the core names it (R209). -/
def ownVa (o : Nat) : Nat := windowBase + 127 * 2 ^ 22 + o

/-- The state that an instruction leaves. -/
def out (o : Out) : State := match o with
  | .next t => t
  | _ => State.reset

/-- The state of an issued access or load queue entry with number n. -/
def loadOf (n : Nat) (rd : Reg) : LoadEntry := ⟨n, 0, rd, ownVa 0, placesFrom ⟨.window, 0⟩ 8, false, [], []⟩

end Sys2Proof.Tests

/-! ### IntegerGroupComputes, ImmediateGroupComputes, BranchesAndJumpsGoToTheirTargets -/
namespace Sys2Proof.Tests

/-- Two registers with the least number and with 64, the first shift count of R79 that shifts everything out. -/
def twoRegs : State := holding seated [(1, 0x8000000000000000), (2, 64), (31, 0x1000)]

theorem witness_integer : twoRegs.seqReady [1, 2] 3 ∧ twoRegs.seqReady [1, 2] 0 ∧ twoRegs.seqReady [1] 3 := by
  unfold State.seqReady; decide

theorem test_shl_out : (out (exec (.shl 3 1 2) twoRegs)).reg 3 = 0 := by decide
theorem test_sar_out : (out (exec (.sar 3 1 2) twoRegs)).reg 3 = BitVec.allOnes 64 := by decide
theorem test_div_by_zero : (out (exec (.div 3 1 0) twoRegs)).reg 3 = BitVec.allOnes 64 ∧
    (out (exec (.rem 3 1 0) twoRegs)).reg 3 = 0x8000000000000000 := by decide
theorem test_mulh : (out (exec (.mulh 3 1 1) twoRegs)).reg 3 = 0x4000000000000000 := by decide
theorem test_g0_discards : (out (exec (.add 0 1 2) twoRegs)).core.seq.g = twoRegs.core.seq.g ∧
    (out (exec (.add 0 1 2) twoRegs)).core.seq.pc = 4 := by decide

theorem witness_immediate : twoRegs.seqReady [1] 3 ∧ twoRegs.seqReady [] 3 ∧ twoRegs.seqReady [3] 3 := by
  unfold State.seqReady; decide

theorem test_addi_negative : (out (exec (.addi 3 2 0xFFC0) twoRegs)).reg 3 = 0 := by decide
theorem test_movk_top : (out (exec (.movk 1 3 0x1234) twoRegs)).reg 1 = 0x1234000000000000 := by decide

/-- Register 3 is empty, and no load targets it; with a load, one does. -/
def emptied (l : List LoadEntry) : State := twoRegs.updSeq (fun q => { q.emptyReg 3 with lq := l })

theorem witness_movk_empty : (emptied []).core.seq.asyncReady = false ∧ (emptied []).core.seq.regFull 3 = false ∧
    (emptied []).core.seq.targeted 3 = false ∧ (emptied [loadOf 0 3]).core.seq.regFull 3 = false ∧
    (emptied [loadOf 0 3]).core.seq.targeted 3 = true := by decide

theorem witness_branches : twoRegs.seqReady [1, 2] 0 ∧ twoRegs.seqReady [] 31 ∧ twoRegs.seqReady [31] 0 ∧
    (twoRegs.reg 31 + (0 : BitVec 16).signExtend 64).toNat % 4 = 0 ∧
    (twoRegs.reg 31 + (2 : BitVec 16).signExtend 64).toNat % 4 ≠ 0 := by
  unfold State.seqReady; decide

theorem test_blt_back : (out (exec (.blt 1 2 0xFFFF) (twoRegs.updSeq (fun q => { q with pc := 0x20 })))).core.seq.pc = 0x1C := by
  decide
theorem test_jalr_same : (out (exec (.jalr 31 31 8) twoRegs)).core.seq.pc = 0x1008 ∧ (out (exec (.jalr 31 31 8) twoRegs)).reg 31 = 4 := by
  decide

theorem witness_beyond_section : 4 * seated.core.res.len .seq ≤ (0x10000 : Word).toNat := by decide

/-! ### LoadsAreQueuedAndReturn, StoresAreQueuedAndPerformed -/

/-- g1 names byte 0 of the own local store, g2 holds a value. -/
def atStore (o : Nat) : State := holding seated [(1, BitVec.ofNat 64 (ownVa o)), (2, 0x1122334455667788)]

/-- A state of the sequencer's queues. -/
def queued (s : State) (l : List LoadEntry) (q : List StoreEntry) : State := s.updSeq (fun x => { x with lq := l, sq := q })

def storeOf (n : Nat) (k : StoreKind) : StoreEntry := ⟨n, 0, ownVa 0, k, [], false, false⟩

def plainAt (o : Nat) : StoreKind := .plain (cellsAt ⟨.window, o⟩ [1, 2])

theorem witness_load : (atStore 0).seqReady [1] 0 ∧ (atStore 0).xlAccess (ownVa 0) 8 false = .ok (placesFrom ⟨.window, 0⟩ 8) [] ∧
    (atStore 0).xlAccess (ownVa 16383) 1 false = .ok [⟨.window, 16383⟩] [] ∧
    (queued (atStore 0) (List.replicate 31 (loadOf 0 4)) []).core.seq.lq.length < 32 ∧
    32 ≤ (queued (atStore 0) (List.replicate 32 (loadOf 0 4)) []).core.seq.lq.length := by
  unfold State.seqReady; decide

theorem test_load_empties : (out (exec (.ldD 4 1 0) (atStore 0))).core.seq.regFull 4 = false ∧
    (out (exec (.ldD 4 1 0) (atStore 0))).core.seq.lq.length = 1 := by decide

/-- Two loads of g4 in flight; the bytes they read stand in the local store. -/
def loading : State :=
  (queued (atStore 0) [⟨0, 0, 4, ownVa 0, placesFrom ⟨.window, 0⟩ 1, true, [], []⟩, loadOf 1 4] []).writeCells (cellsAt ⟨.window, 0⟩ [0x80])

theorem witness_load_return : loading.liveCore 0 = true ∧ (loading.focus 0).core.fenceHolds .lq 0 = false ∧
    (loading.focus 0).eccRead (placesFrom ⟨.window, 0⟩ 1) = .ok ∧
    ({ loading with lost := [⟨.window, 0⟩] }).eccRead (placesFrom ⟨.window, 0⟩ 1) = .lost ∧
    loading.core.seq.inRegion 0 = false := by decide

/-- A misaligned load of which one byte of four is read. -/
def byBytes : State := queued (atStore 0) [⟨0, 0, 4, ownVa 1, placesFrom ⟨.window, 1⟩ 4, false, [], [5]⟩] []

theorem witness_load_bytes : byBytes.liveCore 0 = true ∧ (byBytes.focus 0).core.fenceHolds .lq 0 = false ∧
    (⟨.window, 1⟩ : PAddr).addr % 4 ≠ 0 ∧ (byBytes.focus 0).eccRead (placesFrom ⟨.window, 2⟩ 1) = .ok ∧ [5, 0].length < 4 := by decide

theorem test_load_byte : (out (exec (.loadReturn 0) byBytes)).core.seq.lq.map (·.got) = [[5, 0]] := by decide

theorem test_load_return_signed : (out (exec (.loadReturn 0) loading)).reg 4 = 0xFFFFFFFFFFFFFF80 ∧
    (out (exec (.loadReturn 0) loading)).core.seq.regFull 4 = false := by decide

def inCinch (s : State) (l : List StoreEntry) : State := s.updSeq (fun q => { q with cinch := some ⟨.crew, 8, 0, l⟩ })

/-- An open mend region of the sequencer that opened at offset 8. -/
def regionAt (held : List HeldEffect) : SeqRegion := ⟨8, 0, Vector.replicate 32 ⟨5, true⟩, 3, [], held, 0, 0⟩

def inRegions (s : State) (l : List SeqRegion) : State := s.updSeq (fun q => { q with regions := l })

theorem witness_store : (atStore 0).seqReady [2, 1] 0 ∧ (atStore 0).xlAccess (ownVa 0) 8 true = .ok (placesFrom ⟨.window, 0⟩ 8) [] ∧
    (atStore 0).plain ∧ (queued (atStore 0) [] (List.replicate 31 (storeOf 0 (plainAt 0)))).core.seq.sq.length < 32 ∧
    32 ≤ (queued (atStore 0) [] (List.replicate 32 (storeOf 0 (plainAt 0)))).core.seq.sq.length ∧
    (⟨.crew, 8, 0, []⟩ : Cinch).admits (placesFrom ⟨.window, 0⟩ 8) = true ∧
    (∀ p ∈ placesFrom ⟨.window, 0⟩ 8, (inRegions (atStore 0) [regionAt []]).core.seq.savedByte p = false) ∧
    (inRegions (atStore 0) [regionAt []]).core.roomFor 0 1 = true := by
  unfold State.seqReady State.plain; decide

def storing : State := queued seated [] [storeOf 0 (plainAt 8), storeOf 1 (plainAt 0)]

theorem witness_store_performed : storing.memWf = true ∧ storing.liveCore 0 = true ∧ storing.core.fenceHolds .sq 0 = false ∧
    storing.eccWrite (cellsAt ⟨.window, 8⟩ [1, 2]) = .ok ∧ ((cellsAt ⟨.window, 8⟩ [1, 2]).map Prod.fst).Nodup := by decide

theorem test_store_bytes : let t := out (exec (.storePerformed 0) (queued seated [] [storeOf 0 (plainAt 7)]))
    t.readNat ⟨.window, 7⟩ 2 = 1 ∧ t.core.seq.sq = [{ storeOf 0 (.plain [(⟨.window, 8⟩, 2)]) with begun := true }] := by decide

theorem test_store_performed : (out (exec (.storePerformed 0) storing)).readNat ⟨.window, 8⟩ 2 = 0x0201 ∧
    (out (exec (.storePerformed 0) storing)).core.seq.sq.length = 1 := by decide

/-! ### AtomsReadModifyWrite, MarksAndFencesOrderPaths, CinchesGroupStores -/

theorem witness_atom : (atStore 8).memWf = true ∧ (atStore 8).seqReady [2, 2, 1] 0 ∧ (atStore 8).plain ∧ ownVa 8 % 8 = 0 ∧
    (atStore 8).xlAccess (ownVa 8) 8 true = .ok (⟨.window, 8⟩ :: placesFrom ⟨.window, 9⟩ 7) [] ∧ (atStore 8).fenced = true ∧
    (atStore 8).eccRead (placesFrom ⟨.window, 8⟩ 8) = .ok ∧ Scope.engine.code < 1 ∧ 8 < Scope.group.code ∧
    1 ≤ Scope.core.code ∧ Scope.peer.code ≤ 8 := by
  unfold State.seqReady State.plain; decide

theorem test_atom_add_wraps : (out (exec (.atomAdd 4 1 2 .w .crew)
    ((atStore 8).writeCells (cellsAt ⟨.window, 8⟩ [0xFF, 0xFF, 0xFF, 0xFF])))).readNat ⟨.window, 8⟩ 4 = 0x55667787 := by decide
theorem test_atom_returns_old : (out (exec (.atomAdd 4 1 2 .w .crew)
    ((atStore 8).writeCells (cellsAt ⟨.window, 8⟩ [0xFF, 0xFF, 0xFF, 0xFF])))).reg 4 = BitVec.allOnes 64 := by decide
theorem test_cas_differs : (out (exec (.atomCas 2 1 1 .d .crew) (atStore 8))).window = [] := by decide

/-- Path bits LQ and SQ. -/
theorem witness_mark : seated.core.seq.asyncReady = false ∧ seated.core.seq.cinch = none ∧
    (∀ p ∈ pathsOf 0x03, seated.core.pathBusy p seated.marker = false) ∧
    (∃ p ∈ pathsOf 0x03, ({ storing with core := { storing.core with issue := 1 } }).core.pathBusy p 1 = true) ∧
    (∀ n : Nat, n = 7 → (seated.updSeq (fun q => { q with fences := List.replicate n ⟨0, .lq, .sq, .crew, 0⟩ })).core.seq.fences.length < 8) ∧
    8 ≤ (seated.updSeq (fun q => { q with fences := List.replicate 8 ⟨0, .lq, .sq, .crew, 0⟩ })).core.seq.fences.length := by
  refine ⟨by decide, by decide, by decide, by decide, ?_, by decide⟩
  rintro n rfl; decide

/-- A pending fence whose stores are performed, and one whose stores are not. -/
def fencing (sq : List StoreEntry) (sc : Scope) (limit : Int) : State :=
  (queued seated [] sq).updSeq (fun q => { q with fences := [⟨1, .sq, .xp, sc, limit⟩] })

theorem witness_fence_complete : (fencing [] .crew 0).liveCore 0 = true ∧
    (fencing [] .crew 0).core.seq.fences.find? (fun g => decide (g.seq = 1)) = some ⟨1, .sq, .xp, .crew, 0⟩ ∧
    (fencing [] .crew 0).core.pathBusy .sq 1 = false ∧ (fencing [storeOf 0 (plainAt 0)] .crew 0).core.pathBusy .sq 1 = true ∧
    (fencing [] .time (-1)).floorTime / 20000 > -1 ∧ ¬ (fencing [] .time 0).floorTime / 20000 > 0 := by decide

/-- A cinch of two stores in one line. -/
def cinching : State := inCinch seated [storeOf 1 (plainAt 0), storeOf 2 (plainAt 8)]

theorem witness_cinch : seated.core.seq.cinch = none ∧ Scope.engine.code < 1 ∧ 6 < Scope.host.code ∧ 1 ≤ Scope.core.code ∧
    Scope.context.code ≤ 6 ∧ cinching.memWf = true ∧ cinching.core.seq.regions = [] ∧
    cinching.core.seq.cinch = some ⟨.crew, 8, 0, [storeOf 1 (plainAt 0), storeOf 2 (plainAt 8)]⟩ ∧
    [storeOf 1 (plainAt 0), storeOf 2 (plainAt 8)].map (·.kind) =
      [cellsAt ⟨.window, 0⟩ [1, 2], cellsAt ⟨.window, 8⟩ [1, 2]].map StoreKind.plain ∧
    cinching.storeReady = true ∧ cinching.eccWrite [cellsAt ⟨.window, 0⟩ [1, 2], cellsAt ⟨.window, 8⟩ [1, 2]].flatten = .ok := by decide

theorem test_cinch_close : (out (exec .cinchClose cinching)).readNat ⟨.window, 8⟩ 2 = 0x0201 ∧
    (out (exec .cinchClose cinching)).readNat ⟨.window, 0⟩ 2 = 0x0201 := by decide

end Sys2Proof.Tests

/-! ### HandlesAreBoundByWalks, HandlesAreFreedAndViewsSet -/
namespace Sys2Proof.Tests

/-- A LIVE binding of slot 1: 64 bytes of the own local store, or of another space. -/
def bindingAt (kind : Space) : Binding := ⟨100, 1, 0x10000, 64, kind, true, [⟨0, 64, ⟨kind, 0⟩⟩], false, false⟩

def bound (s : State) (b : Binding) : State := s.updSeq (fun q => { q with h := q.h.set b.slot (some b) })

/-- One extent of HBM, and tables that map the first 2 MiB of the context's addresses onto 0x200000 of it (R211 to R213). -/
def paged : State :=
  let s := { seated with
    parts := seated.parts.map (fun (p : Partition) => { p with s2 := [(0, ⟨0, 0, true, 0⟩)] })
    ctxs := seated.ctxs.map (fun (c : Context) => { c with root := 0x1000 }) }
  (s.writeTable 0 [(0, ⟨0, 0, true, 0⟩)]).writeCells (cellsAt ⟨.hbm, 0x1000⟩ (bytesOfNat 8 0x2001) ++ cellsAt ⟨.hbm, 0x2000⟩ (bytesOfNat 8 0x3001) ++
    cellsAt ⟨.hbm, 0x3000⟩ (bytesOfNat 8 0x4001) ++ cellsAt ⟨.hbm, 0x4000⟩ (bytesOfNat 8 0x200007))

/-- g1 holds a base and g2 a length. -/
def binding (s : State) (base len : Nat) : State := holding s [(1, BitVec.ofNat 64 base), (2, BitVec.ofNat 64 len)]

theorem witness_bind : (binding seated 0 0x10000).seqReady [2, 1] 0 ∧ seated.core.seq.cinch = none ∧ seated.core.slotOk 63 = true ∧
    (∀ x : Seat, seated.core.seat = some x →
      ({ seated with core := { seated.core with seat := some { x with res := { x.res with handles := 62 } } } }).core.slotOk 63 = false) ∧
    oneKind 0 0x10000 = true ∧ isWindow 0 = false ∧ oneKind (ownVa 0) 16384 = true ∧ isWindow (ownVa 0) = true ∧
    seated.windowGap (ownVa 0) 16384 = none ∧ seated.windowPlace 0 (some 0) (ownVa 0) = some ⟨.window, 0⟩ ∧
    seated.core.seq.walk = none ∧ seated.core.ctxNum = 0 ∧ 0 < 2 ^ 31 ∧ (2 ^ 56 - 2 ^ 31 : Nat) + 2 ^ 31 - 1 < 2 ^ 56 := by
  refine ⟨by unfold State.seqReady; decide, by decide, by decide, ?_, by decide, by decide, by decide, by decide, by decide,
    by decide, by decide, by decide, by decide, by decide⟩
  intro x h; cases h; decide

/-- The walks of a bind of 2 MiB and 64 KiB: none finished, or finished. -/
def walking (s : State) (j : WalkJob) : State := s.updSeq (fun q => { q with walk := some j })
def job (done : List (Seg × Bool)) (todo : List Nat) : WalkJob := ⟨1, 0, 0x210000, 2, done, todo, [], false⟩

theorem witness_walk : (walking paged (job [] [0, 0x10000, 0x200000])).liveCore 0 = true ∧
    (job [] [0, 0x10000, 0x200000]).todo[1]? = some 0x10000 ∧ (job [] [0, 0x10000, 0x200000]).todo[2]? = some 0x200000 ∧
    paged.walk 0 (some 0) 0x10000 false = .ok ⟨.hbm, 0x210000⟩ true 21 ∧
    paged.walk 0 (some 0) 0x200000 false = .fault ⟨1, 1, 0⟩ 16 := by decide

theorem test_walk_takes_its_page : (out (exec (.walkComplete 0 1) (walking paged (job [] [0, 0x10000, 0x200000])))).core.seq.walk =
    some (job [(⟨0, 0x200000, ⟨.hbm, 0x200000⟩⟩, true)] [0x200000]) := by decide

theorem test_bind_finishes :
    let t := out (exec (.hndBind 2 1 1) (walking (binding paged 0 0x20000)
      ⟨1, 0, 0x20000, 2, [(⟨0, 0x20000, ⟨.hbm, 0x200000⟩⟩, true)], [], [], false⟩))
    t.core.seq.h[(1 : Hnd)].map (fun b => (b.place 0x1FFFF, b.writable, b.len)) = some (some ⟨.hbm, 0x21FFFF⟩, true, 0x20000) ∧
    t.core.seq.pc = 4 := by decide

/-- A load is in flight on the binding. -/
def flying : State := bound (queued seated [{ loadOf 1 4 with binds := [100] }] []) (bindingAt .window)

theorem witness_free : flying.core.slotOk 1 = true ∧ flying.core.seq.asyncReady = false ∧ flying.core.seq.cinch = none ∧
    flying.core.seq.h[(1 : Hnd)] = some (bindingAt .window) ∧ flying.core.seq.h[(2 : Hnd)] = none ∧ (bindingAt .window).revoked = false ∧
    flying.core.inFlight 100 = 1 ∧ (bindingAt .window).len < 2 ^ 32 ∧ flying.seqReady [] 3 := by
  unfold State.seqReady; decide

theorem test_free_drains : (out (exec (.hndFree 1) flying)).core.seq.draining = [bindingAt .window] := by decide
theorem test_stat_live : (out (exec (.hndStat 3 1) flying)).reg 3 = 0xC400000100000040 := by decide

/-- The vec view printed in R26, and one with a reserved bit. -/
theorem witness_view : (holding seated [(1, 0x0001000800020200)]).seqReady [1] 0 ∧
    viewOk ((holding seated [(1, 0x0001000800020200)]).reg 1) = true ∧ viewOk 0x0001800800020200 = false := by
  unfold State.seqReady; decide

end Sys2Proof.Tests

/-! ### EngineStreamsStartStopAndJoin, SyncWordsAreArmedAndRead, BarriersYieldsAndEnd -/
namespace Sys2Proof.Tests

def engineIn (e : Eng) (st : EngState) (stop : Bool) : State := seated.updEng e (fun x => { x with st := st, pc := 0x40, stopReq := stop })

theorem witness_engines : ∀ e : Eng,
    ((engineIn e .idle false).core.eng e).st.live = false ∧ ((engineIn e .idle false).core.eng e).strike = none ∧
    ((engineIn e .run false).core.eng e).st.live = true ∧ ((engineIn e (.wait 9 2047) false).core.eng e).st.live = true ∧
    (engineIn e .stopped false).seqReady [] 31 ∧ (engineIn e .run false).core.seq.asyncReady = false := by
  intro e; unfold State.seqReady; cases e <;> decide

theorem test_stat_run : (out (exec (.engStat 3 .mat) (engineIn .mat .run false))).reg 3 = 0x0010000000000001 := by decide
theorem test_start_entry : ((out (exec (.engStart .vec 0x3FFF) seated)).core.vec.eng.pc) = 0xFFFC := by decide

theorem witness_stop_boundary : ∀ e : Eng, (engineIn e (.wait 9 2047) true).liveCore 0 = true ∧ ((engineIn e (.wait 9 2047) true).core.eng e).stopReq = true ∧
    ((engineIn e (.wait 9 2047) true).core.eng e).st.live = true ∧ (engineIn e (.wait 9 2047) true).core.atBoundary e = true ∧
    (engineIn e (.wait 9 2047) true).core.mat.reds = [] ∧ (engineIn e (.wait 9 2047) true).core.xfer.all = [] ∧
    (((engineIn e .run false).core.eng e).stopReq && ((engineIn e .run false).core.eng e).st.live && (engineIn e .run false).core.atBoundary e) = false := by
  intro e; cases e <;> decide

/-- A matrix stream in RUN stands at its boundary once it has retired a reduction since the request (R129). -/
theorem witness_stop_retired : ((engineIn .mat .run true).updMat (fun m => { m with atRet := true })).core.atBoundary .mat = true ∧
    (engineIn .mat .run true).core.atBoundary .mat = false := by decide

/-- A record of the vector stream's last stop is in its slot while its trap is pending. -/
theorem witness_stop_pending : ((engineIn .vec (.wait 9 2047) true).updSeq (fun q => { q with
    traps := [.stop .vec 0x0203 4] })).core.seq.stopPending .vec = true ∧ seated.core.seq.stopPending .vec = false := by decide

/-- The sync word at offset 48, the last of slot 1's binding: target 9, count 3, generation 7, code 0. -/
def syncing : State :=
  (bound (holding seated [(1, 48), (2, 7)]) (bindingAt .window)).writeCells (cellsAt ⟨.window, 48⟩
    (bytesOfNat 4 9 ++ bytesOfNat 4 3 ++ bytesOfNat 4 7))

theorem witness_sync : syncing.memWf = true ∧ syncing.seqReady [2, 1] 0 ∧ syncing.seqReady [1] 3 ∧ syncing.seqReady [2, 1] 2 ∧ syncing.plain ∧
    syncing.storeReady = true ∧ syncing.core.syncPlace 1 48 = some (0x10030, ⟨.window, 48⟩) ∧
    syncing.lost.contains (sectorOf ⟨.window, 48⟩) = false ∧ syncing.badTag.contains (sectorOf ⟨.window, 48⟩) = false ∧
    syncing.eccRead (placesFrom ⟨.window, 48⟩ 16) = .ok ∧
    syncing.core.syncPlace 1 49 = none ∧ syncing.core.syncPlace 1 64 = none ∧ syncing.core.syncPlace 2 0 = none ∧
    (bound seated (bindingAt .hbm)).core.syncPlace 1 0 = none ∧
    syncing.readNat ⟨.window, 56⟩ 4 = (syncing.reg 2).toNat % 2 ^ 32 ∧ syncing.readNat ⟨.window, 56⟩ 4 ≠ (syncing.reg 0).toNat % 2 ^ 32 ∧
    syncing.readNat ⟨.window, 60⟩ 2 = 0 := by
  unfold State.seqReady State.plain; decide

theorem test_arm_keeps_generation : (out (exec (.swArm 2 1 1) syncing)).readNat ⟨.window, 48⟩ 16 = 7 + 2 ^ 64 * 7 := by decide
theorem test_wait_differs : (out (exec (.swWait 3 1 1) syncing)).reg 3 = 7 ∧ (out (exec (.swWait 2 1 1) syncing)).core.seq.wait = true := by decide

/-- A crew of cores 0 and 1; core 1 has arrived n times. -/
def crewOfTwo (n : Nat) : State :=
  { seated with
    others := [{ Core.blank 1 with seat := some ⟨0, 0, 1, 2, wholeResources⟩, seq := { Sequencer.zero with barMarked := n } }]
    crews := seated.crews.map (fun (k : Crew) => { k with cores := [0, 1] }) }

theorem witness_barrier : (crewOfTwo 1).core.seq.asyncReady = false ∧ (crewOfTwo 1).plain ∧ (crewOfTwo 1).storeReady = true ∧
    (crewOfTwo 1).crewCores = [0, 1] ∧ (crewOfTwo 1).core.seq.barDone + 1 ≤ ((crewOfTwo 1).coreOf 1).seq.barMarked ∧
    ¬ ((crewOfTwo 0).core.seq.barDone + 1 ≤ ((crewOfTwo 0).coreOf 1).seq.barMarked) ∧ ((crewOfTwo 0).coreOf 1).seq.ended = false := by
  unfold State.plain; decide

/-- The barrier of a crew of one. -/
theorem witness_barrier_alone : seated.crewCores = [0] := by decide

theorem witness_yield : seated.core.seq.yreq = false ∧ seated.plain ∧ (seated.updSeq (fun q => { q with yreq := true })).core.seq.yreq = true ∧
    seated.core.enginesDone = true ∧ seated.core.seq.lq = [] ∧ seated.core.seq.sq = [] ∧
    (engineIn .vec .run false).core.enginesDone = false ∧ loading.core.seq.lq ≠ [] ∧ storing.core.seq.sq ≠ [] := by
  unfold State.plain; decide

/-- An unused slot and a binding with a load in flight, with both queues empty once the load is gone. -/
theorem witness_end_drains : flying.core.seq.bindings = [bindingAt .window] ∧
    (flying.updXfer (fun x => { x with lostColls := [] })).core.inFlight 100 = 1 ∧ seated.core.seq.bindings = [] := by decide

/-- The state of O59: every stream at rest and nothing left over, one crew that has not yielded. -/
theorem witness_control_words : (∀ e : Eng, (seated.core.eng e).st.live = false ∧ (seated.core.eng e).strike = none) ∧
    seated.core.vec.regions = [] ∧ seated.core.mat.reds = [] ∧ seated.core.xfer.regions = [] ∧ seated.core.xfer.cur = none ∧
    seated.core.seq.draining = [] ∧ seated.core.seq.asyncReady = false ∧ (seated.crew seated.core.crewNum).isSome = true ∧
    (∀ k ∈ seated.crew seated.core.crewNum, ∀ id ∈ k.cores, (seated.coreOf id).seq.yielded = false) := by
  refine ⟨fun e => ?_, ?_⟩
  · cases e <;> decide
  · decide

theorem test_end : (out (exec .endProg seated)).core.seq.ended = true ∧ (out (exec .endProg loading)).core.seq.ended = false := by decide

/-! ### Control registers, empty registers, traps -/

theorem witness_csr : seated.seqReady [] 31 ∧ (atStore 0).seqReady [1] 0 ∧ (atStore 0).seqReady [1] 31 ∧ seated.core.seat.isSome = true := by
  unfold State.seqReady; decide

theorem test_csr_low_bits : (out (exec (.csrWrite 1 .tvec) (holding seated [(1, 0x103)]))).core.seq.tvec = 0x100 ∧
    (out (exec (.csrWrite 1 .clkmax) (holding seated [(1, 0x100000013)]))).core.seq.clkmax = 20 := by decide
theorem test_csr_swap_old : (out (exec (.csrSwap 1 1 .tpc) (holding seated [(1, 0x103)]))).reg 1 = 0 := by decide

theorem witness_empty : (emptied []).core.seq.regFull 3 = false ∧ (emptied []).core.seq.targeted 3 = false ∧
    (emptied [loadOf 0 3]).core.seq.regFull 3 = false ∧ (emptied [loadOf 0 3]).core.seq.targeted 3 = true ∧
    (emptied [loadOf 0 3]).core.seq.asyncReady = false := by decide

/-- A handler at 0x80; whether a trap is active; the queued causes. -/
def handler (s : State) (active : Bool) (l : List TrapCause) : State := s.updSeq (fun q => { q with
  pc := 0x10, tvec := 0x80, tactive := active, tpc := 0x24, traps := l })

theorem witness_trap : (handler seated false []).core.seq.tvec ≠ 0 ∧ (handler seated false []).core.seq.tactive = false ∧
    (handler seated false []).core.seq.cinch = none ∧ (handler cinching false []).core.seq.cinch.isSome = true ∧
    seated.core.seq.tvec = 0 ∧ (handler seated true []).core.seq.tactive = true ∧
    (seated.ctx 0).map (·.halt) = some none ∧ ((seated.haltContext 0 0x0205 0 false 5).ctx 0).map (·.halt) = some (some ⟨0x0205, 5, 0, false, false, seated.now⟩) := by
  decide

theorem test_trap_entry : (out (exec (.jalr 4 1 0) (handler (holding seated [(1, 2)]) false []))).core.seq.pc = 0x80 ∧
    (out (exec (.jalr 4 1 0) (handler (holding seated [(1, 2)]) false []))).core.seq.tcause = 0x0205 := by decide
theorem test_trap_in_handler : (out (exec (.jalr 4 1 0) (handler (holding seated [(1, 2)]) true []))).ctxHalted 0 = true := by decide

theorem witness_trap_word : (0x7FFF : BitVec 16).toNat < 0x8000 ∧ 0x8000 ≤ (0x8000 : BitVec 16).toNat ∧
    (handler seated false []).core.seq.tvec ≠ 0 ∧ (handler seated true []).core.seq.trapStop = none := by decide

/-- In a handler entered for a stop of the vector engine, which is still stopped. -/
def stopTrap (addr : Word) : State :=
  (handler (engineIn .vec .stopped false) true []).updSeq (fun q => { q with trapStop := some .vec, taddr := addr })

theorem witness_tret : (stopTrap 1).core.seq.tactive = true ∧ (stopTrap 1).core.seq.trapStop = some .vec ∧
    (stopTrap 1).core.seq.taddr = BitVec.ofNat 64 Eng.vec.code ∧ ((stopTrap 1).core.eng .vec).st = .stopped ∧
    ((stopTrap 1).core.eng .vec).strike = none ∧ (stopTrap 2).core.seq.taddr ≠ BitVec.ofNat 64 Eng.vec.code := by decide

theorem test_tret_resumes : (out (exec .tret (stopTrap 1))).core.vec.eng.st = .run ∧ (out (exec .tret (stopTrap 2))).core.vec.eng.st = .stopped ∧
    (out (exec .tret (stopTrap 2))).core.seq.pc = 0x24 := by decide

def waitingTrap (c : TrapCause) : State := (handler seated false [c]).updSeq (fun q => { q with wait := true })

theorem witness_queued_traps : ∀ c ∈ [TrapCause.strike true false, .dataLost 8 0x14, .stop .mat 0x0203 7],
    (waitingTrap c).liveCore 0 = true ∧ (waitingTrap c).mayIssue .seq = true ∧ (waitingTrap c).core.seq.wait = true ∧
    (waitingTrap c).core.seq.tactive = false ∧ (waitingTrap c).core.seq.traps = [c] ∧ (waitingTrap c).core.seq.tvec ≠ 0 ∧
    (waitingTrap c).core.seq.cinch = none := by decide

theorem test_data_lost_resumes : (out (exec (.trapEntry 0) (waitingTrap (.dataLost 8 0x14)))).core.seq.tpc = 0x14 := by decide

end Sys2Proof.Tests

/-! ### MendRegionsOpenSaveAndClose, StrikeReportsReachTheSequencer -/
namespace Sys2Proof.Tests

/-- Long enough after the last retirement for a close. -/
def later (s : State) : State := { s with now := 4096 }

/-- The region at offset 8 with one held store at byte 8 of the local store. -/
def heldStore : SeqRegion := regionAt [.store (ownVa 8) (cellsAt ⟨.window, 8⟩ [1, 2]) [] false false]

theorem witness_mend : seated.core.seq.asyncReady = false ∧ (inRegions seated (List.replicate 3 (regionAt []))).core.seq.regions.length < 4 ∧
    4 ≤ (inRegions seated (List.replicate 4 (regionAt []))).core.seq.regions.length ∧ seated.core.seq.lq = [] ∧ loading.core.seq.lq ≠ [] ∧
    seated.core.seq.regions = [] ∧
    (inRegions (bound (holding seated [(1, 60), (2, 4)]) (bindingAt .window)) [regionAt []]).seqReady [2, 1] 0 ∧
    (bound seated (bindingAt .window)).core.saveBytes 1 60 4 = some ⟨.window, 60⟩ ∧ seated.core.roomFor (roundUp 64 4) 0 = true ∧
    seated.core.seq.sq = [] ∧ seated.eccRead (placesFrom ⟨.window, 60⟩ 4) = .ok ∧
    (later (inRegions seated [regionAt [], regionAt []])).seqCloseReady = true ∧
    (later (inRegions seated [regionAt []])).seqCloseReady = true ∧ (regionAt []).held = [] ∧
    (inRegions seated [regionAt []]).core.seq.regions ≠ [] ∧ (inRegions seated [regionAt []]).seqCloseReady = false ∧
    (inRegions seated [regionAt []]).core.seq.releasing = false := by
  unfold State.seqReady; decide

theorem witness_mend_release : (later (inRegions seated [heldStore])).memWf = true ∧
    (later (inRegions seated [heldStore])).core.seq.asyncReady = false ∧ (later (inRegions seated [heldStore])).seqCloseReady = true ∧
    heldStore.held = [.store (ownVa 8) (cellsAt ⟨.window, 8⟩ [1, 2]) [] false false] ∧ (later (inRegions seated [heldStore])).storeReady = true ∧
    (later (inRegions seated [heldStore])).eccWrite (cellsAt ⟨.window, 8⟩ [1, 2]) = .ok := by decide

theorem test_mend_release : (out (exec .mendClose (later (inRegions seated [heldStore])))).readNat ⟨.window, 8⟩ 2 = 0x0201 ∧
    (out (exec .mendClose (later (inRegions seated [heldStore])))).core.seq.flags = 3 := by decide

/-- A held store whose bytes are performed one by one. -/
def heldByte : SeqRegion := regionAt [.store (ownVa 7) (cellsAt ⟨.window, 7⟩ [1, 2]) [] false false]

theorem test_mend_release_bytes : let t := out (exec .mendClose (later (inRegions seated [heldByte])))
    t.core.seq.regions = [{ heldByte with held := [.store (ownVa 7) [(⟨.window, 8⟩, 2)] [] true false] }] ∧
    t.readNat ⟨.window, 7⟩ 2 = 1 ∧ t.core.seq.wait = true := by decide

/-- The stream runs and stands at the word w, its first one, with its own section at the word's place. -/
def standsAt (s : State) (st : StreamId) (w : Nat) : State :=
  ((s.clearWay.startStream st).upd (fun c => { c with seat := some ⟨0, 0, 0, 1, { wholeResources with lens := #v[8, 8, 8, 8] }⟩ })).writeCells
    (cellsAt ⟨.window, 16384 + 32 * st.code⟩ (bytesOfNat 4 w))

def vecRegionAt (held : List VpEntry) (marks : List Mark) : VecRegion :=
  ⟨8, ⟨Shape.zero, Vector.replicate 8 5, Vector.replicate 8 ⟨1, 2⟩, Vector.replicate 64 0⟩, 3, [], held, marks, 0, 0⟩

def xferRegionAt (held : List XOp) : XferRegion :=
  ⟨8, ⟨Vector.replicate 8 ⟨1, 2⟩, Vector.replicate 7 3, Vector.replicate 15 4, none⟩, 3, [], held, [], [], 0, 0⟩

theorem witness_closes_seq : ∀ n ∈ [1, 2],
    let s := standsAt (later (inRegions seated (List.replicate n (regionAt [])))) .seq 0x94000002
    s.liveCore 0 = true ∧ s.standing .seq = some .mendClose ∧ s.core.depth .seq = n := by decide

theorem witness_closes_complete : ∀ n ∈ [1, 2],
    let s := standsAt (later (inRegions seated (List.replicate n (regionAt [])))) .seq 0x94000002
    s.core.seq.asyncReady = false ∧ s.seqCloseReady = true ∧ s.core.seq.regions = List.replicate n (regionAt []) ∧ (regionAt []).held = [] := by decide

theorem witness_closes_vec : ∀ n ∈ [1, 2],
    let s := standsAt (later (seated.updVec (fun v => { v with regions := List.replicate n (vecRegionAt [] []) }))) .vec 0xC8400000
    s.liveCore 0 = true ∧ s.standing .vec = some .vMendClose ∧ s.core.depth .vec = n := by decide

theorem witness_closes_xfer : ∀ n ∈ [1, 2],
    let s := standsAt (later (seated.updXfer (fun x => { x with regions := List.replicate n (xferRegionAt []) }))) .xfer 0x4C400000
    s.liveCore 0 = true ∧ s.standing .xfer = some .xMendClose ∧ s.core.depth .xfer = n := by decide

/-- A report for the sequencer, as one on its way or as an injected one. -/
def struck (s : State) (injected : Bool) : State :=
  s.upd (fun c => if injected then { c with injected := [⟨.seq, 0⟩] } else { c with reports := [⟨[.seq], 0⟩] })

theorem witness_inject : seated.debugAllowed = true ∧
    ({ seated with ctxs := seated.ctxs.map (fun (c : Context) => { c with debug := false }) }).debugAllowed = false ∧
    (∀ r ∈ seated.core.injected, r.stream ≠ .seq) ∧ (∃ r ∈ (struck seated true).core.injected, r.stream = .seq) := by decide

theorem witness_report : ∀ b : Bool,
    (struck seated b).liveCore 0 = true ∧ (struck seated b).core.seq.ended = false ∧ (struck seated b).core.seq.releasing = false ∧
    ((struck seated b).core.reports = [⟨[.seq], 0⟩] ∧ (struck seated b).core.injected = [] ∨
      (struck seated b).core.reports = [] ∧ (struck seated b).core.injected = [⟨.seq, 0⟩]) ∧
    (struck seated b).core.seq.regions = [] ∧ (struck seated b).core.seq.tactive = false ∧
    (handler (struck seated b) true []).core.seq.tactive = true ∧ ((handler (struck seated b) true []).ctx 0).isSome = true ∧
    (inRegions (struck seated b) [{ regionAt [] with retries := 2 }]).core.seq.sq = [] ∧ (regionAt []).saved = [] := by decide

/-- A region of number 0 that stood open when the trap was taken, or that the handler opened; and a queued stamped store whose stamp is still to
come, with no clock running. -/
theorem witness_report_in_handler :
    (regionAt []).seq < ((handler (inRegions seated [regionAt []]) true []).updSeq (fun q => { q with trapSeq := 1 })).core.seq.trapSeq ∧
    (handler (inRegions seated [regionAt []]) true []).core.seq.trapSeq ≤ (regionAt []).seq ∧
    (handler (inRegions (struck seated false) [regionAt []]) true []).core.seq.tactive = true ∧
    (queued (inRegions (struck seated false) [regionAt []]) [] [storeOf 0 (.stamp .package 5 ⟨.window, 0⟩ 0)]).rollbackReady = false ∧
    (inRegions seated [regionAt []]).rollbackReady = true := by decide

theorem test_handler_region_rolls_back :
    (out (exec (.strikeReport 0) (handler (inRegions (struck seated false) [regionAt []]) true []))).core.seq.tactive = true ∧
    (out (exec (.strikeReport 0) ((handler (inRegions (struck seated false) [regionAt []]) true []).updSeq (fun q => { q with
      trapSeq := 1 })))).core.seq.tactive = false := by decide

theorem test_rollback : (out (exec (.strikeReport 0) (inRegions (struck (atStore 0) false) [{ regionAt [] with retries := 2 }]))).reg 2 = 5 ∧
    (out (exec (.strikeReport 0) (inRegions (struck (atStore 0) false) [{ regionAt [] with retries := 2 }]))).core.seq.pc = 8 := by decide

/-! ### ClocksAreReadAndOldVersionsLoaded, StampedStoresAreQueuedAndPerformed -/

/-- Every die's clock between 100 and hi ns. -/
def timed (s : State) (hi : Nat) : State := { s with clocks := Vector.replicate 4 ⟨false, 2000000, 20000 * hi, 20000 * hi, 2000000, some (hi - 100)⟩ }

theorem witness_clock : (timed seated 2100).widthCheck = none ∧ (timed seated 2100).seqReady [] 31 ∧
    (timed (holding seated [(1, 99), (2, 100)]) 110).seqReady [1] 0 ∧
    (timed (holding seated [(1, 99), (2, 100)]) 110).clock.early > ((holding seated [(1, 99), (2, 100)]).reg 1).toInt ∧
    ¬ (timed (holding seated [(1, 99), (2, 100)]) 110).clock.early > ((holding seated [(1, 99), (2, 100)]).reg 2).toInt ∧
    (timed seated 2101).clock.width = some 2001 ∧ (2001 : Int) > (timed seated 2101).core.seq.clkmax.toNat ∧
    seated.clock.width = none ∧ seated.core.seq.wait = false := by
  unfold State.seqReady; decide

theorem test_clk_read_same : (out (exec (.clkRead 5 5) (timed seated 110))).reg 5 = 110 := by decide

/-- A cell at byte 32 with two versions: (s0, 7) and (s1, 9); g1 names it, g2 holds t. -/
def versions (s0 s1 t : Nat) : State :=
  (timed (holding seated [(1, BitVec.ofNat 64 (ownVa 32)), (2, BitVec.ofNat 64 t), (3, 11)]) 110).writeCells (cellsAt ⟨.window, 32⟩
    (bytesOfNat 8 s0 ++ bytesOfNat 8 7 ++ bytesOfNat 8 s1 ++ bytesOfNat 8 9))

theorem witness_asof : (versions 5 5 99).seqReady [1, 2] 4 ∧ (versions 5 5 99).core.seq.cinch = none ∧ ownVa 32 % 32 = 0 ∧
    (versions 5 5 99).xlAccess (ownVa 32) 32 false = .ok (⟨.window, 32⟩ :: placesFrom ⟨.window, 33⟩ 31) [] ∧
    (versions 5 5 99).widthCheck = none ∧ (versions 5 5 99).core.seq.lq = [] ∧ (versions 5 5 99).core.fenceHoldsNew .lq = false ∧
    (versions 5 5 99).surelyPast .package ((versions 5 5 99).reg 2).toInt = true ∧
    (versions 5 5 99).surelyPast .time ((versions 5 5 99).reg 2).toInt = true ∧
    (versions 5 5 99).eccRead (placesFrom ⟨.window, 32⟩ 32) = .ok ∧
    (versions 5 5 100).surelyPast .package ((versions 5 5 100).reg 2).toInt = false ∧ (versions 5 5 100).core.seq.wait = false := by
  unfold State.seqReady; decide

/-- Another queue of the package holds a version that the read has to see. -/
theorem witness_asof_due : (queued (versions 5 5 99) [] [storeOf 0 (.stamp .package 99 ⟨.window, 32⟩ 1)]).core.seq.sq =
      [storeOf 0 (.stamp .package 99 ⟨.window, 32⟩ 1)] ∧ (99 : Int) ≤ ((versions 5 5 99).reg 2).toInt ∧
    ⟨.window, 32⟩ = PAddr.mk .window 32 ∧ (PAddr.mk .window 32).space ≠ .host ∧ (versions 5 5 99).core.seq.sq = [] := by decide

theorem test_asof_tie : (out (exec (.ldAsof 4 1 2 .package) (versions 5 5 99))).reg 4 = 9 := by decide
theorem test_asof_older : (out (exec (.ldAsof 4 1 2 .package) (versions 5 60 50))).reg 4 = 7 := by decide

theorem witness_stamp : (versions 5 6 9).seqReady [1, 3] 4 ∧ (versions 5 6 9).plain ∧ (versions 5 6 9).core.seq.sq = [] ∧
    (versions 5 6 9).core.seq.wait = false ∧ (ownVa 32 + 1) % 32 ≠ 0 ∧
    (versions 5 6 9).xlAccess (ownVa 32) 32 true = .ok (⟨.window, 32⟩ :: placesFrom ⟨.window, 33⟩ 31) [] ∧
    (versions 5 6 9).widthCheck = none := by
  unfold State.seqReady State.plain; decide

def stamping (st : Int) : State := queued (versions 5 6 9) [] [storeOf 0 (.stamp .package st ⟨.window, 32⟩ 11)]

theorem witness_stamp_performed : (stamping 99).memWf = true ∧ (stamping 99).liveCore 0 = true ∧ (stamping 99).surelyPast .package 99 = true ∧
    (stamping 100).surelyPast .package 100 = false ∧ (stamping 99).core.fenceHolds .sq 0 = false ∧
    (stamping 99).eccRead (placesFrom ⟨.window, 32⟩ 32) = .ok ∧ min (5 : Int) 6 ≤ 99 ∧ (4 : Int) < min 5 6 := by decide

theorem test_stamp_replaces_older : (out (exec (.stampedStorePerformed 0) (stamping 99))).readNat ⟨.window, 32⟩ 16 = 99 + 2 ^ 64 * 11 := by
  decide

/-! ### BilletClaimsAndPushes, BilletStoresMoveTheirRow -/

/-- A harness of two rows at 0x10000, which lie at 0 of HBM: row 0 in phase p0, row 1 in phase 3, not busy. -/
def harnessOf (stages : List LaunchPacket) : Harness :=
  ⟨0x10000, 0, 2, 2 ^ 5, 0, stages, 0, false, [], [], [], false, false⟩

def tableAt (w0 w1 : Nat) (s : State) : State :=
  (bound ({ s with ctxs := s.ctxs.map (fun (c : Context) => { c with harness := some (harnessOf []) }) })
    ⟨100, 1, 0x10000, 256, .hbm, true, [⟨0, 256, ⟨.hbm, 0⟩⟩], false, false⟩).writeCells
    (cellsAt ⟨.hbm, 0⟩ (bytesOfNat 8 w0) ++ cellsAt ⟨.hbm, 128⟩ (bytesOfNat 8 w1))

def tableBind : Binding := ⟨100, 1, 0x10000, 256, .hbm, true, [⟨0, 256, ⟨.hbm, 0⟩⟩], false, false⟩

theorem witness_claim : (tableAt 0 3 (holding seated [(1, 3)])).memWf = true ∧ (tableAt 0 3 (holding seated [(1, 3)])).seqReady [1] 4 ∧
    (tableAt 0 3 seated).plain ∧ (tableAt 0 3 seated).tableBinding 1 = some (tableBind, harnessOf []) ∧
    claimPhase 47 = true ∧ claimPhase 62 = true ∧ claimPhase 63 = true ∧ claimPhase 48 = false ∧ (tableAt 0 3 seated).fenced = true ∧
    (∃ x ∈ tableRows tableBind (harnessOf []), (tableAt 0 3 seated).claimable 3 x.2 = true) ∧
    (∀ x ∈ tableRows tableBind (harnessOf []), (tableAt 0 67 seated).claimable 3 x.2 = false ∧
      (tableAt 0 67 seated).eccRead (placesFrom x.2 8) = .ok) := by
  unfold State.seqReady State.plain; decide

/-- g1 names the last block of the own local store, g2 a target; its queue holds n blocks. -/
def pushing (va target n : Nat) : State :=
  (holding seated [(1, BitVec.ofNat 64 va), (2, BitVec.ofNat 64 target)]).setQueue target
    (List.replicate n ⟨ownVa 0, List.replicate 128 0, 0, 0⟩)

theorem witness_push : (pushing (ownVa 16256) 1 7).seqReady [1, 2] 0 ∧ (pushing (ownVa 16256) 1 7).plain ∧
    (pushing (ownVa 16256) 1 7).core.ownBlock (ownVa 16256) = true ∧ (pushing 0 1 7).core.ownBlock 0 = false ∧
    coreExists 1 = true ∧ (pushing (ownVa 16256) 1 7).inPartition 1 = true ∧
    (pushing (ownVa 16256) 1 7).xlAccess (ownVa 16256) 128 false = .ok (placesFrom ⟨.window, 16256⟩ 128) [] ∧
    (pushing (ownVa 16256) 1 7).eccRead (placesFrom ((pushing (ownVa 16256) 1 7).core.ownPlace (ownVa 16256)) 128) = .ok ∧
    (pushing (ownVa 16256) 1 7).pushReady 1 = true ∧ (pushing (ownVa 16256) 1 8).pushReady 1 = false := by
  unfold State.seqReady State.plain; decide

theorem test_push : ((out (exec (.wqPush 1 2) (pushing (ownVa 16256) 1 7))).queueOf 1).length = 8 := by decide

theorem witness_billet : (tableAt 0 0 (holding seated [(1, 1), (2, 47)])).seqReady [2, 1] 0 ∧
    rowPlace tableBind (harnessOf []) 1 = some ⟨.hbm, 128⟩ ∧ decide ((47 : Nat) ≤ 47 ∨ (47 : Nat) = 62) = true ∧
    decide ((48 : Nat) ≤ 47 ∨ (48 : Nat) = 62) = false ∧ decide (1 ≤ (0 : Nat) ∧ (0 : Nat) ≤ 47) = false ∧
    decide (1 ≤ (1 : Nat) ∧ (1 : Nat) ≤ 47) = true ∧ (tableAt 0 0 seated).core.seq.sq.length < 32 := by
  unfold State.seqReady; decide

def movingRow (w : Nat) (k : StoreKind) : State := queued (tableAt w 0 seated) [] [storeOf 0 k]

theorem witness_rows : (movingRow 64 (.adv 0 2 ⟨.hbm, 0⟩)).memWf = true ∧ (movingRow 64 (.adv 0 2 ⟨.hbm, 0⟩)).liveCore 0 = true ∧
    (movingRow 64 (.adv 0 2 ⟨.hbm, 0⟩)).core.fenceHolds .sq 0 = false ∧
    (movingRow 64 (.adv 0 2 ⟨.hbm, 0⟩)).eccRead (placesFrom ⟨.hbm, 0⟩ 8) = .ok ∧
    ((movingRow 64 (.adv 0 2 ⟨.hbm, 0⟩)).ctx 0).bind (·.harness) = some (harnessOf []) ∧ finalPhase (harnessOf []) 2 = false ∧
    finalPhase (harnessOf []) 5 = true ∧ rowBusy ((movingRow 64 (.adv 0 2 ⟨.hbm, 0⟩)).readNat ⟨.hbm, 0⟩ 8) = true ∧
    rowBusy ((movingRow 0 (.post 0 2 ⟨.hbm, 0⟩)).readNat ⟨.hbm, 0⟩ 8) = false ∧
    rowPhase ((movingRow 0 (.post 0 2 ⟨.hbm, 0⟩)).readNat ⟨.hbm, 0⟩ 8) = 0 ∧
    rowPhase ((movingRow 1 (.post 0 2 ⟨.hbm, 0⟩)).readNat ⟨.hbm, 0⟩ 8) ≠ 0 := by decide

theorem test_adv_counts : (out (exec (.storePerformed 0) (movingRow (64 + 2 ^ 32 * 0xFFFFFFFF) (.adv 0 2 ⟨.hbm, 0⟩)))).readNat ⟨.hbm, 0⟩ 8 = 2 := by
  decide

end Sys2Proof.Tests

/-! ### The vector engine -/
namespace Sys2Proof.Tests

/-- `State.vecOpen` as a computation. -/
def opens (s : State) (srcs : List VSrc) (dsts : List Placed) : Bool :=
  srcs.all (fun x => x.at_.all.all (fun n => s.core.fullAs s.core.vec.marks n && !decide (n ∈ s.core.vec.landing) &&
    !decide (n ∈ s.core.treeLost))) &&
  dsts.all (fun p => p.all.all (fun n => s.core.vec.mayWrite n && !decide (n ∈ s.core.vec.landing) &&
    (!p.wwait || !s.core.fullAs s.core.vec.marks n || decide (n ∈ eatenLines srcs))))

theorem opens_iff (s : State) (srcs : List VSrc) (dsts : List Placed) : s.vecOpen srcs dsts ↔ opens s srcs dsts = true := by
  simp only [State.vecOpen, opens, Bool.and_eq_true, List.all_eq_true, Bool.or_eq_true, Bool.not_eq_true', decide_eq_false_iff_not,
    decide_eq_true_eq]
  refine and_congr (by simp only [and_assoc]) ?_
  refine forall_congr' fun p => imp_congr_right fun _ => forall_congr' fun n => imp_congr_right fun _ => ?_
  rw [and_assoc, or_assoc]
  refine and_congr_right fun _ => and_congr_right fun _ => ?_
  cases p.wwait <;> simp

/-- Views 1 (vec, lines 16 to 39), 2 (the same, consuming), 3 (vec, lines 128 to 159, write-wait), 4 (tile, lines 256 to 1535, tiles
256 apart), 5 (coder, lines 40 to 63) and 6 (tile, line 100 onward). -/
def views : Vector (BitVec 64) 8 :=
  #v[0, 0x0000001800010010, 0x0001001800010010, 0x0002002000010080, 0x0000100501000100, 0x0000201800010028, 0x0000102000010064, 0]

/-- The vector engine runs at 0x20 with this SHAPE; lines 16 to 39 hold these bytes and are full. -/
def vecIn (sh : Shape) (l : List Byte) : State :=
  let c := (List.range 48).foldl (fun (c : Core) n => c.setFull (16 + n) true) (seated.core.putBytes 24 16 l)
  let s : State := { seated with core := { c with views := views } }
  (s.updEng .vec (fun e => { e with st := .run, pc := 0x20, k := e.k.set 1 ⟨8, 9⟩ })).updVec (fun v => { v with shape := sh, masks := v.masks.set 2 5 })

def t1 (i : Fin 24) : TreeOp := ⟨1, .lit i⟩
def t2 (i : Fin 24) : TreeOp := ⟨2, .lit i⟩
def t3 (i : Fin 24) : TreeOp := ⟨3, .lit i⟩

/-- 64 lanes of four bytes, the most that a type of that width has; and three I8 lanes under mask 2. -/
def wide : State := vecIn ⟨0, false, .i32, 64⟩ (lanesBytes 4 [1, 2, 0xFFFFFFFF])
def narrow (t : EType) : State := vecIn ⟨2, true, t, 3⟩ (lanesBytes t.width [0x7F, 2, 0x80])

theorem witness_lanes : 64 * EType.i32.width ≤ 256 ∧
    wide.vecPlaces [(t3 0, 4), (t1 0, 4), (t2 4, 4)] = some [⟨128, 4, false, true⟩, ⟨16, 4, false, false⟩, ⟨20, 4, true, false⟩] ∧
    wide.vecOpen [⟨⟨16, 4, false, false⟩, false⟩, ⟨⟨20, 4, true, false⟩, true⟩] [⟨128, 4, false, true⟩] ∧
    (narrow .i8).vecPlaces [(t3 0, 1), (t1 0, 1)] = some [⟨128, 1, false, true⟩, ⟨16, 1, false, false⟩] ∧
    (narrow .i8).vecOpen [⟨⟨16, 1, false, false⟩, true⟩] [⟨128, 1, false, true⟩] ∧
    (narrow .i8).vecPlaces [(t3 0, 1), (t1 0, 4)] = some [⟨128, 1, false, true⟩, ⟨16, 4, false, false⟩] ∧
    (narrow .i8).vecOpen [⟨⟨16, 4, false, false⟩, true⟩] [⟨128, 1, false, true⟩] ∧
    (narrow .i8).vecPlaces [(t1 0, 1), (t1 0, 1), (t1 1, 1), (t1 2, 1)] =
      some [⟨16, 1, false, false⟩, ⟨16, 1, false, false⟩, ⟨17, 1, false, false⟩, ⟨18, 1, false, false⟩] ∧
    (narrow .i8).vecOpen [⟨⟨16, 1, false, false⟩, true⟩, ⟨⟨17, 1, false, false⟩, true⟩, ⟨⟨18, 1, false, false⟩, true⟩] [⟨16, 1, false, false⟩] ∧
    (2 : BitVec 9).toNat < 3 ∧ 3 * EType.f32.width ≤ 256 ∧ 256 < 65 * EType.i32.width := by
  simp only [opens_iff]; decide +kernel

theorem witness_lanes_types : (narrow .bf16).vecPlaces [(t3 0, 1), (t1 0, 1)] = some [⟨128, 1, false, true⟩, ⟨16, 1, false, false⟩] ∧
    (narrow .f32).vecPlaces [(t3 0, 1), (t1 0, 1)] = some [⟨128, 1, false, true⟩, ⟨16, 1, false, false⟩] ∧
    EType.e4m3u.isFloat = EType.e4m3u.isFloat ∧ (narrow .e4m3u).core.vec.shape.ty = .e4m3u := by decide +kernel

/-- I8 lanes 0 and 2 are active: 0x7F + 1 and 0x80 + 1, and lane 1 is zero. -/
theorem test_vaddi_wraps : ((out (exec (.vAddi (t3 0) (t1 0) true 1) (narrow .i8))).core.lanes 128 1 3) = [0x80, 0, 0x81] := by decide +kernel
theorem test_vshl_out : ((out (exec (.vShl (t3 0) (t1 0) (t1 0) true true) (narrow .i8))).core.lanes 128 1 3) = [0, 0, 0] := by decide +kernel
theorem test_vsel_ignores_mask : ((out (exec (.vSel (t3 0) (t1 0) (t1 1) true true) (narrow .i8))).core.lanes 128 1 3) = [0x7F, 0, 0x80] := by
  decide +kernel
theorem test_vcvt_sign : ((out (exec (.vCvt (t3 0) (t1 0) .i16 true) (narrow .i8))).core.lanes 128 2 3) = [0x7F, 0, 0xFF80] := by decide +kernel

theorem witness_lane_functions : EType.i8.isFloat = false ∧ EType.n32.isFloat = false ∧ EType.i8 ≠ .e4m3u ∧ 0xFF < 2 ^ (8 * EType.i8.width) ∧
    0xFFFFFFFF < 2 ^ (8 * EType.n32.width) := by decide +kernel

theorem witness_lane_result : 0 < 4 ∧ 0 < wide.core.vec.shape.lanes ∧ wide.core.vec.shape.lanes * 4 ≤ 256 ∧ 64 % 4 = 0 ∧
    wide.core.vec.regions = [] ∧ eatenLines [⟨⟨16, 4, false, false⟩, true⟩] = [] ∧ sparseWf Line.zero 0 wide.core.tree = true := by decide +kernel

theorem witness_masks : (narrow .i8).vecPlaces [(t1 0, (narrow .i8).core.vec.span), (t1 1, (narrow .i8).core.vec.span)] =
      some [⟨16, 1, false, false⟩, ⟨17, 1, false, false⟩] ∧
    (narrow .i8).vecOpen [⟨⟨16, 1, false, false⟩, true⟩, ⟨⟨17, 1, false, false⟩, false⟩] [] ∧
    eatenLines [⟨⟨16, 1, false, false⟩, true⟩, ⟨⟨17, 1, false, false⟩, false⟩] = [] ∧
    (narrow .i8).vecPlaces [(t3 0, 1), (t1 0, (narrow .i8).core.vec.span)] = some [⟨128, 1, false, true⟩, ⟨16, 1, false, false⟩] := by
  simp only [opens_iff]; decide +kernel

theorem test_compare_inactive : (out (exec (.vCmplt 0 (t1 0) (t1 1) true true) (narrow .i8))).core.vec.masks[(0 : Fin 8)] = 4 := by decide +kernel
theorem test_redsum_signed : (out (exec (.vRedsum (t3 0) (t1 0) true) (narrow .i8))).core.treeNat (64 * 128) 8 = 0xFFFFFFFF := by decide +kernel

theorem witness_triples : (narrow .i32).core.placeMany (narrow .i32).core.vec.eng.k (t3 0) 3 1 [0] =
      some [⟨128, 1, false, true⟩, ⟨129, 1, false, true⟩, ⟨130, 1, false, true⟩] ∧
    (narrow .i32).core.placeMany (narrow .i32).core.vec.eng.k (t1 0) 3 1 [0] =
      some [⟨16, 1, false, false⟩, ⟨17, 1, false, false⟩, ⟨18, 1, false, false⟩] ∧
    (narrow .i32).vecOpen ([⟨16, 1, false, false⟩, ⟨17, 1, false, false⟩, ⟨18, 1, false, false⟩].map (fun p => ⟨p, true⟩))
      [⟨128, 1, false, true⟩, ⟨129, 1, false, true⟩, ⟨130, 1, false, true⟩] ∧
    (∃ pd pa : List Placed, (narrow .i32).core.placeMany (narrow .i32).core.vec.eng.k (t3 0) 16 1 [0] = some pd ∧
      (narrow .i32).core.placeMany (narrow .i32).core.vec.eng.k (t1 0) 16 1 [0] = some pa ∧
      (narrow .i32).vecOpen (pa.map (fun p => ⟨p, true⟩)) pd) := by
  refine ⟨by decide +kernel, by decide +kernel, by simp only [opens_iff]; decide +kernel, _, _, rfl, rfl, ?_⟩
  simp only [opens_iff]; decide +kernel

/-- A binding of 64 bytes whose bytes 8 to 16 hold three I8 lanes. -/
def bound8 (s : State) : State :=
  (bound s (bindingAt .window)).writeCells (cellsAt ⟨.window, 8⟩ [9, 8, 7])

def narrowCells (w : Nat) : List (Nat × PAddr) := (rangeFrom 8192 w).zip (placesFrom ⟨.window, 8⟩ w)

theorem witness_vector_access : (bound8 (narrow .i8)).core.seq.h[(1 : Hnd)] = some (bindingAt .window) ∧ (bindingAt .window).usable = true ∧
    (bound8 (narrow .i8)).core.holdsNew .vp = false ∧
    (bound8 (narrow .i8)).vecPlaces [(t3 0, 1)] = some [⟨128, 1, false, true⟩] ∧
    (bound8 (narrow .i8)).vecOpen [] [⟨128, 1, false, true⟩] ∧ 8 % EType.i8.width = 0 ∧ 8 + EType.i8.width * 3 ≤ (bindingAt .window).len ∧
    (bindingAt .window).len < 64 + EType.i8.width * 3 ∧ (bindingAt .window).writable = true ∧
    (bound8 (narrow .i8)).core.vec.regions = [] ∧
    (bound8 (narrow .i8)).vecPlaces [(t1 0, 1), (t1 1, 1)] = some [⟨16, 1, false, false⟩, ⟨17, 1, false, false⟩] ∧
    (bound8 (narrow .i8)).vecOpen [⟨⟨16, 1, false, false⟩, true⟩, ⟨⟨17, 1, false, false⟩, true⟩] [] ∧
    (elementOffsets (bound8 (narrow .i8)).core.vec [63, 0, 0] 64).toOption = some [(0, 63), (2, 0)] ∧
    (elementOffsets (bound8 (narrow .i8)).core.vec [64, 0, 0] 64).toOption = none := by
  simp only [opens_iff]; decide +kernel

/-- An access of the vector engine in flight. -/
def landing (k : VpKind) : State := (bound8 (narrow .i8)).updVec (fun v => { v with vp := [⟨0, 0x1C, 0, k, 1, [100], some [], false, [], false⟩] })

def vpLoad : VpKind := .load [(8192, ⟨.window, 8⟩), (8194, ⟨.window, 10⟩)] [8193] [128] true

theorem witness_vector_lands : (landing vpLoad).liveCore 0 = true ∧ (landing vpLoad).core.vec.lostAt = none ∧
    (landing vpLoad).core.vec.regions = [] ∧ sparseWf Line.zero 0 (landing vpLoad).core.tree = true ∧
    (landing vpLoad).eccRead [⟨.window, 8⟩, ⟨.window, 10⟩] = .ok ∧ (∀ m ∈ [128], ((landing vpLoad).core.line m).full = false) ∧
    [8192, 8194, 8193].Nodup ∧ (landing (.store (cellsAt ⟨.window, 0⟩ [1, 2]))).memWf = true ∧
    (landing (.store (cellsAt ⟨.window, 0⟩ [1, 2]))).eccWrite (cellsAt ⟨.window, 0⟩ [1, 2]) = .ok := by decide +kernel

theorem test_vector_lands : (out (exec (.vectorLoadLand ⟨0, none⟩) (landing vpLoad))).core.treeNat 8192 4 = 0x070009 ∧
    ((out (exec (.vectorLoadLand ⟨0, none⟩) (landing vpLoad))).core.line 128).full = true := by decide +kernel

theorem witness_vector_control : (narrow .i8).core.vec.vp = [] ∧ (landing vpLoad).core.vec.vp ≠ [] ∧
    ((narrow .i8).updVec (fun v => { v with regions := List.replicate 3 (vecRegionAt [] []) })).core.vec.regions.length < 4 ∧
    ((narrow .i8).core.vec.eng.k[(0 : KIx)]).val.toNat + 2048 ≤ (narrow .i8).core.res.tree ∧ (narrow .i8).core.roomFor (64 * 2) 0 = true ∧
    (∀ y ∈ rangeFrom 8 2, y ∉ (narrow .i8).core.vec.landing ∧ y ∉ (narrow .i8).core.treeLost) ∧
    (later ((narrow .i8).updVec (fun v => { v with regions := [vecRegionAt [] [], vecRegionAt [] []] }))).vecCloseReady = true ∧
    (vecRegionAt [] []).held = [] ∧ (vecRegionAt [] []).marks = [] := by decide +kernel

theorem test_vbr_limit : (out (exec (.vBr 1 0x7FFFFF) (vecIn ⟨0, false, .i32, 64⟩ []))).core.vec.eng.pc = 0x24 := by decide +kernel

/-! ### The range coder -/

/-- Coder lanes of fresh state in lines 40 to 45 of view 5. -/
def coderPlaces : List Placed := (List.range 6).map (fun i => ⟨40 + i, 1, false, false⟩)

theorem witness_coder : (bound8 (narrow .i32)).core.vec.shape.ty = .i32 ∧
    (bound8 (narrow .i32)).core.placeMany (narrow .i32).core.vec.eng.k ⟨5, .lit 0⟩ 6 1 [2] = some coderPlaces ∧
    (bound8 (narrow .i32)).core.vec.vp = [] ∧ (bound8 (narrow .i32)).core.holdsNew .vp = false ∧
    (bound8 (narrow .i32)).core.seq.h[(1 : Hnd)] = some (bindingAt .window) ∧ (bindingAt .window).usable = true ∧
    (bindingAt .window).writable = true ∧ (bindingAt .window).kind = .window ∧
    (bound8 (narrow .i32)).core.placeMany (narrow .i32).core.vec.eng.k (t1 0) 1 1 [0] = some [⟨16, 1, false, false⟩] ∧
    (bound8 (narrow .i32)).core.place (narrow .i32).core.vec.eng.k (t3 0) 1 [0] = some ⟨128, 1, false, true⟩ ∧
    ((bound8 (narrow .i32)).core.placeMany (narrow .i32).core.vec.eng.k (t1 0) 16 1 [0]).isSome = true ∧
    (bound8 (narrow .i32)).vecOpen (coderPlaces.map (fun p => ⟨p, true⟩) ++ [⟨⟨16, 1, false, false⟩, true⟩]) (coderPlaces ++ [⟨128, 1, false, true⟩]) := by
  simp only [opens_iff]; decide +kernel

end Sys2Proof.Tests

/-! ### The matrix engine -/
namespace Sys2Proof.Tests

/-- A reduction of n k-steps of which p are done. -/
def reduction (mode : MatMode) (n p : Nat) (tile : Option Tile) : Reduction :=
  ⟨⟨8, [(5, 7)], Vector.replicate 8 ⟨1, 2⟩, 3, wholeSegment, unitScales, unitScales, none⟩, mode, n, p, [300], 1, 0, tile⟩

/-- The matrix engine runs at 0x20 with these reductions; lines 100 to 131 hold one byte each and are full, and the weight buffer
has one row of ones in its row 0. -/
def matIn (reds : List Reduction) : State :=
  let c := (List.range 32).foldl (fun (c : Core) n => c.setLine (100 + n) ⟨2, true⟩) seated.core
  let s : State := { seated with core := { c with views := views, wb := [(0, 1)] } }
  (s.updEng .mat (fun e => { e with st := .run, pc := 0x20, k := e.k.set 1 ⟨8, 9⟩ })).updMat (fun m => { m with reds := reds })

def t6 : TreeOp := ⟨6, .lit 0⟩

/-- A segment record: count 1, mode 0, rows 0 to 1 alone. -/
def twoRows : BitVec 512 := BitVec.ofNat 512 (1 + 2 ^ 32 * 9 + 2 * 2 ^ 72)

/-- Views 1 and 4 as above, over full lines: 256 lines at 256. -/
def matTile (reds : List Reduction) : State :=
  let s := matIn reds
  { s with core := { (List.range 8).foldl (fun (c : Core) n => c.setFull (16 + n) true) s.core with
    views := (views.set 4 0x0000000500000100).set 7 0x0000001800000064, mat := { s.core.mat with seg := twoRows } } }

theorem witness_matrix_prepares : (matIn []).core.mat.openRed = none ∧ (matIn [reduction .tern 1024 0 none]).core.mat.openRed.isSome = true ∧
    (matIn []).core.mat.fresh = true ∧ (matIn [reduction .tern 1024 0 none]).core.mat.fresh = true ∧
    (matIn [reduction .tern 1024 1 none]).core.mat.fresh = false ∧
    (matTile []).matPlace ⟨4, .lit 0⟩ 256 0 = some ⟨256, 256, false, false⟩ ∧ segLines twoRows 16 256 = [16, 17, 18, 19, 20, 21, 22, 23] ∧
    (matTile []).matPlace (t1 0) 1 0 = some ⟨16, 1, false, false⟩ ∧ (matTile []).matPlace (t1 1) 1 0 = some ⟨17, 1, false, false⟩ ∧
    segOk wholeSegment = true ∧ segOk twoRows = true ∧ segOk 17 = false := by decide +kernel

theorem witness_matrix_readable : (matTile []).matReadable [16, 17] ∧ (matTile []).matReadable (segLines twoRows 16 256) := by
  unfold State.matReadable; decide +kernel

theorem test_mseg_refuses : (out (exec (.mSeg (t1 0) true) (matTile []))).core.mat.eng.code = 0 ∧
    (out (exec (.mBegin .tern 1) (matIn [reduction .tern 2 0 none]))).core.mat.eng.code = 0x0205 := by decide +kernel

theorem witness_matrix_loops : (matIn [reduction .tern 1 1 (some ⟨[], false, 0⟩)]).core.mat.openRed = none ∧
    (matIn [reduction .tern 1 1 (some ⟨[], false, 0⟩)]).core.mat.reds ≠ [] ∧ (matIn []).core.mat.reds = [] ∧
    (matIn []).liveCore 0 = true ∧ ({ matIn [] with now := 256 }).core.mat.window + 256 ≤ 256 ∧
    ({ matIn [] with now := 255 }).now < (matIn []).core.mat.window + 256 := by decide +kernel

/-- A hot die, whose cores' budgets aim at 32; a core there with a budget of 64. -/
def hotMat : State := { (matIn []).updMat (fun m => { m with budget := 64 }) with now := 256, heat := Vector.replicate 4 (some 32) }

theorem witness_budget_aim : hotMat.budgetAim = 32 ∧ hotMat.budgetAim ≤ hotMat.core.mat.budget + 32 ∧
    hotMat.core.mat.budget ≤ hotMat.budgetAim + 32 := by
  have h : hotMat.budgetAim = 32 := by
    have e : hotMat.heat[hotMat.core.die] = some 32 := rfl
    unfold State.budgetAim
    simp only [e]
    omega
  exact ⟨h, by omega, by rw [h]; decide⟩

theorem test_budget_steps : stepBudget 256 32 = 224 ∧ stepBudget 32 256 = 64 ∧ stepBudget 100 110 = 110 := by decide

/-- An INT8 k-step may be taken: one of 2 is done, the operand's lines are full, the block is in range. -/
theorem witness_accumulate : (matIn [reduction .int8 2 1 none]).core.mat.openRed = some (reduction .int8 2 1 none) ∧
    (reduction .int8 2 1 none).mode = .int8 ∧ (reduction .int8 2 1 none).p < (reduction .int8 2 1 none).n ∧
    (matIn [reduction .int8 2 1 none]).matPlace t6 32 1 = some ⟨100, 32, false, false⟩ ∧ 0 + 8 ≤ seated.core.res.wb ∧
    (∀ x ∈ rangeFrom 0 8, x ∉ (matIn []).core.wbLost) ∧ (matIn []).core.blockFault (.int8 8) 0 = none ∧
    (matIn []).core.blockFault .tern 0 = none ∧ 32 ≤ (matIn []).core.mat.budget - (matIn []).core.mat.spent ∧
    ((matIn []).updMat (fun m => { m with spent := 225 })).core.mat.budget - 225 < 32 ∧
    (reduction .int8 2 2 none).n ≤ (reduction .int8 2 2 none).p := by decide +kernel

/-- Metadata nibbles 4 (columns 0 and 1) make a sparse block that no rule refuses. -/
def sparseBlock (row : Nat) : State :=
  let s := matIn [reduction .sparse 2 1 none]
  { s with core := { s.core with wb := [(row, BitVec.ofNat 2048 (0x44 * ((2 ^ 2048 - 1) / 255)))] } }

theorem witness_accumulate_sparse : (sparseBlock 1).core.blockFault .sparseTern 0 = none ∧
    (sparseBlock 4).core.blockFault (.sparseInt8 8) 0 = none ∧
    (sparseBlock 1).core.mat.openRed = some (reduction .sparse 2 1 none) := by decide +kernel

theorem witness_accumulate_readable : (matIn [reduction .int8 2 1 none]).matReadable (segLines wholeSegment 100 32) ∧
    (matIn [reduction .tern 2 1 none]).matReadable (segLines wholeSegment 100 32) := by
  unfold State.matReadable; decide +kernel

/-- A retirement into view 4: its last k-step is done. -/
theorem witness_retire : (matTile [reduction .tern 2 2 none]).core.mat.openRed = some (reduction .tern 2 2 none) ∧
    (matTile [reduction .tern 2 2 none]).matPlace ⟨4, .lit 0⟩ 256 0 = some ⟨256, 256, false, false⟩ ∧
    (matTile [reduction .tern 2 2 none]).matPlace ⟨4, .lit 0⟩ 128 0 = some ⟨256, 128, false, false⟩ ∧
    (matTile [reduction .tern 2 2 none]).core.mat.held.length < 2 ∧
    2 ≤ (matTile [reduction .tern 1 1 (some ⟨[], false, 0⟩), reduction .tern 1 1 (some ⟨[], false, 0⟩), reduction .tern 2 2 none]).core.mat.held.length ∧
    (reduction .tern 2 1 none).p ≠ (reduction .tern 2 1 none).n := by decide +kernel

theorem witness_retire_add : (matTile [reduction .tern 2 2 none]).matPlace ⟨1, .lit 0⟩ 256 0 = some ⟨16, 256, false, false⟩ ∧
    segLines twoRows 16 256 = [16, 17, 18, 19, 20, 21, 22, 23] := by decide +kernel

/-- A held tile of one line, made in cycle 0; line 300 waits to be marked empty. -/
def held (n : Nat) : State := { matIn [reduction .tern 1 1 (some ⟨[(256, 0xAB)], true, 0⟩)] with now := n }

theorem witness_release : (held 4096).liveCore 0 = true ∧ (held 4096).core.mat.fault = none ∧ (held 4096).core.reports = [] ∧
    (held 4096).core.injected = [] ∧ (held 4096).core.strikeHeld = false ∧ sparseWf Line.zero 0 (held 4096).core.tree = true ∧ (held 4095).now < 0 + 4096 ∧
    0 + 4096 ≤ (held 4096).now ∧ ((held 4096).core.line 256).full = false ∧ [256].Nodup := by decide +kernel

theorem test_release : (out (exec (.holdingSlotRelease 0) (held 4096))).core.line 256 = ⟨0xAB, true⟩ ∧
    (out (exec (.holdingSlotRelease 0) (held 4096))).core.seq.flags = 1 ∧
    ((out (exec (.holdingSlotRelease 0) (held 4095))).core.line 256).full = false := by decide +kernel

end Sys2Proof.Tests

/-! ### The transfer engine -/
namespace Sys2Proof.Tests

/-- Handle 2: 4,096 bytes of HBM, writable. -/
def hbmBind : Binding := ⟨101, 2, 0x20000, 4096, .hbm, true, [⟨0, 4096, ⟨.hbm, 0x1000⟩⟩], false, false⟩

/-- Handle 3: the core's own multicast window. -/
def castBind : Binding := ⟨102, 3, ownVa castBase, 4096, .window, true, [⟨0, 4096, ⟨.window, castBase⟩⟩], false, false⟩

/-- The transfer engine runs at 0x20 with these fields and k registers; handles 1 to 3 are bound; lines 16 to 39 and 100 are full. -/
def xferIn (fields : List (ShapeField × BitVec 32)) (ks : List (KIx × BitVec 32)) : State :=
  let s := bound (bound (bound seated (bindingAt .window)) hbmBind) castBind
  let c := (List.range 24).foldl (fun (c : Core) n => c.setFull (16 + n) true) ((s.core.putBytes 1 100 [1]).setFull 100 true)
  let s : State := { s with core := { c with views := views } }
  s.updXfer (fun x => { x with
    eng := { x.eng with st := .run, pc := 0x20, k := ks.foldl (fun k y => k.set y.1 ⟨y.2, 9⟩) (Vector.replicate 8 ⟨0, 9⟩) }
    shape := fields.foldl (fun f y => f.set (Fin.ofNat 7 y.1.code : Fin 7) y.2) x.shape })

def batchOf (sync : Option SyncRef) : Batch := ⟨7, sync, 0, true⟩

/-- A copy of 128 bytes from HBM, of which the first 64 are handed over as block 5. -/
def copying (dst : XEnd) (blocks : List Block) : XOp :=
  { blankOp (.copy 0 0 0 0) dst (some (.mem hbmBind 0)) 128 with id := 3, seq := 3, pc := 0x20, batch := 7, blocks := blocks }

def block5 : Block := ⟨5, 0, [1, 2, 3], [], [], false, false, 0, false⟩

def ref : SyncRef := ⟨⟨.window, 16⟩, 100⟩

theorem witness_batches : ∀ b ∈ [none, some (batchOf none), some (batchOf (some ref))],
    let s := (xferIn [] [(1, 16)]).updXfer (fun x => { x with openBatch := b })
    s.core.xfer.close.isSome = true ∧ s.core.xfer.fails = [] ∧ s.core.xfer.regions = [] ∧ s.core.xfer.all = [] ∧
    s.core.engBinding 1 false = .ok (bindingAt .window) ∧
    s.core.syncPlace 1 (s.core.xfer.kv 1) = some (0x10010, ⟨.window, 16⟩) := by decide +kernel

/-- Operations of an open and of a closed batch are in flight; and of 17 batches, which is one too many. -/
theorem witness_batch_waits :
    let s := (xferIn [] []).updXfer (fun x => { x with
      ops := [copying (.mem hbmBind 0) [block5]], batches := [batchOf none] })
    let f : XFail := ⟨1, 0x1C, 0, 0x0203, false, false⟩
    let many := (xferIn [] []).updXfer (fun x => { x with
      openBatch := some ⟨16, none, 0, true⟩
      batches := (List.range 16).map (fun n => ⟨n, none, 0, true⟩)
      ops := (List.range 17).map (fun n => { copying (.mem hbmBind 0) [block5] with id := n, batch := n }) })
    s.core.xfer.openBatch = none ∧ s.core.xfer.close = some s.core.xfer ∧ s.core.xfer.outstanding = 1 ∧ s.core.xfer.all ≠ [] ∧
    (xferIn [] []).core.xfer.outstanding ≤ (0 : BitVec 16).toNat ∧
    (s.updXfer (fun x => { x with fails := [f] })).core.xfer.close.isSome = true ∧
    (s.updXfer (fun x => { x with fails := [f] })).core.xfer.fails = [f] ∧
    many.core.xfer.close = none := by decide +kernel

theorem witness_xfer_regions : ∀ n ∈ [1, 2, 3],
    let s := later ((xferIn [] [(1, 2040)]).updXfer (fun x => { x with regions := List.replicate n (xferRegionAt []) }))
    s.core.xfer.all = [] ∧ s.core.xfer.regions.length < 4 ∧ s.core.xfer.kv 1 + (8 : BitVec 12).toNat ≤ s.core.res.tree ∧
    s.core.roomFor (64 * 8) 0 = true ∧ s.core.treeLost = [] ∧ s.engCloseReady .xfer = true ∧ (∀ o ∈ s.core.xfer.all, o.inside = false) ∧
    (xferRegionAt []).held = [] ∧ (xferRegionAt []).adds = [] ∧ (xferRegionAt []).marks = [] := by decide +kernel

theorem test_xloop_xbr : (out (exec (.xBr 1 0x7FFFFF) (xferIn [] [(1, 7)]))).core.xfer.eng.pc = 0x1C ∧
    (out (exec (.xBr 1 0x7FFFFF) (xferIn [] [(1, 8)]))).core.xfer.eng.pc = 0x24 := by decide +kernel

theorem test_xsync_detach : (out (exec .xSyncDetach ((xferIn [] []).updXfer (fun x => { x with openBatch := some (batchOf none) })))).core.xfer.openBatch =
      some (batchOf none) ∧
    (out (exec .xSyncDetach ((xferIn [] []).updXfer (fun x => { x with openBatch := some (batchOf (some ref)) })))).core.xfer.openBatch =
      none := by decide +kernel

/-! Data step words: what their endpoints are, for the lengths at the ends of the ranges. -/

def toTree : EndPt := .tree (t1 0)
def toHbm : EndPt := .hnd 2 2
def line16 : XEnd := .tree 16 false false
def hbm0 : XEnd := .mem hbmBind 0

theorem witness_copy :
    let s := xferIn [] [(1, 1536)]
    let r := xferIn [(.rows, 1), (.rowbytes, 64)] [(1, 64)]
    s.core.xfer.field .rows = 0 ∧ s.core.xfer.kv 1 = 1536 ∧ s.core.endAt toTree 1536 true = .ok line16 ∧
    s.core.endAt toHbm 1536 false = .ok hbm0 ∧ endsOverlap line16 1536 hbm0 1536 = false ∧ s.core.xfer.regions = [] ∧
    s.core.endAt toHbm 1536 true = .ok hbm0 ∧ s.core.endAt toTree 1536 false = .ok line16 ∧ endsOverlap line16 1536 line16 1536 = true ∧
    r.core.xfer.field .rows = 1 ∧ r.core.xfer.field .rowbytes = 64 ∧ r.core.xfer.kv 1 = 1 * 64 ∧ r.core.xfer.field .spitch ≤ 2 ^ 31 ∧
    r.core.endAt toTree ((XKind.copy 1 64 0 0).dstSpan 64) true = .ok line16 ∧
    r.core.endAt toHbm ((XKind.copy 1 64 0 0).srcSpan (blankOp (.copy 1 64 0 0) (.tree 0 false false) none 64) 64) false = .ok hbm0 ∧
    r.core.xfer.kv 2 ≠ 1 * 64 := by decide +kernel

theorem witness_held_word :
    let s := (xferIn [] [(1, 64)]).updXfer (fun x => { x with regions := [xferRegionAt []] })
    s.core.endAt toHbm 64 true = .ok hbm0 ∧ s.core.endAt toTree 64 false = .ok line16 ∧ endsOverlap hbm0 64 line16 64 = false ∧
    s.core.xfer.regions = [xferRegionAt []] ∧ s.core.roomFor 64 1 = true := by decide +kernel

/-- A held gather, whose index list lies in line 100; and words of length 0. -/
theorem witness_held_gather :
    let s := (xferIn [(.rowbytes, 16)] [(1, 1), (3, 100)]).updXfer (fun x => { x with regions := [xferRegionAt []] })
    s.core.xfer.regions = [xferRegionAt []] ∧ s.core.roomFor 64 1 = true ∧ 100 + ceilDiv (4 * 1) 64 ≤ s.core.res.tree ∧
    s.core.endAt toHbm ((XKind.gather 16 []).dstSpan 16) true = .ok hbm0 ∧
    s.core.endAt toTree ((XKind.gather 16 []).srcSpan (blankOp (.gather 16 []) (.tree 0 false false) none 16) 16) false = .ok line16 ∧
    endsOverlap hbm0 16 line16 0 = false ∧
    s.core.endAt toHbm ((XKind.scatter 16 []).dstSpan 16) true = .ok hbm0 ∧
    s.core.endAt toTree ((XKind.scatter 16 []).srcSpan (blankOp (.scatter 16 []) (.tree 0 false false) none 16) 16) false = .ok line16 := by
  decide +kernel

theorem witness_zero_length : (xferIn [] []).core.xfer.kv 1 = 0 ∧ (xferIn [] []).core.xfer.cur = none ∧ (0 : Nat) % 8 = 0 := by decide +kernel

theorem test_held_gather :
    let s := (xferIn [(.rowbytes, 16)] [(1, 1), (3, 100)]).updXfer (fun x => { x with regions := [xferRegionAt []] })
    let t := out (exec (.xGather toHbm toTree 1 3) s)
    t.core.xfer.regions.map (fun r => r.held.map (·.index)) = [[some (100, 1)]] ∧ t.core.xfer.cur = none := by decide +kernel

theorem witness_fill_and_wbfill :
    let s := xferIn [] [(1, 256)]
    s.core.endAt toTree 256 true = .ok line16 ∧ (xferIn [] []).core.endAt toTree 0 true = .ok line16 ∧ (xferIn [] []).core.xfer.kv 1 = 0 ∧
    256 * (BitVec.toNat (4095 : BitVec 12)) + 256 ≤ 256 * s.core.res.wb ∧ s.core.endAt toHbm 256 false = .ok hbm0 ∧
    256 * s.core.res.wb < 256 * (BitVec.toNat (4095 : BitVec 12)) + 257 := by decide +kernel

theorem witness_gather :
    let s := xferIn [(.rowbytes, 16)] [(1, 1), (3, 100)]
    let idx := (List.range 1).map (fun j => s.core.treeNat (64 * 100 + 4 * j) 4)
    s.core.xfer.field .rowbytes = 16 ∧ s.core.xfer.kv 3 = 100 ∧ ceilDiv (4 * 1) 64 = 1 ∧ 100 + 1 ≤ s.core.res.tree ∧
    (∀ m ∈ rangeFrom 100 1, (s.core.line m).full = true) ∧
    s.core.endAt toTree ((XKind.gather 16 idx).dstSpan 16) true = .ok line16 ∧
    s.core.endAt toHbm ((XKind.gather 16 idx).srcSpan (blankOp (.gather 16 idx) (.tree 0 false false) none 16) 16) false = .ok hbm0 ∧
    s.core.endAt toTree ((XKind.scatter 16 idx).dstSpan 16) true = .ok line16 ∧
    s.core.endAt toHbm ((XKind.scatter 16 idx).srcSpan (blankOp (.scatter 16 idx) (.tree 0 false false) none 16) 16) false = .ok hbm0 := by
  decide +kernel

theorem witness_conv :
    let s := xferIn [(.stype, 6), (.dtype, 0)] [(1, 6)]
    ∃ st dt, s.core.typeField .stype = some st ∧ s.core.typeField .dtype = some dt ∧ 6 % st.width = 0 ∧
      s.core.endAt toTree ((XKind.conv st dt).dstSpan (6 / st.width * dt.width)) true = .ok line16 ∧
      s.core.endAt toHbm ((XKind.conv st dt).srcSpan (blankOp (.conv st dt) (.tree 0 false false) none (6 / st.width * dt.width))
        (6 / st.width * dt.width)) false = .ok hbm0 ∧ 7 % st.width ≠ 0 := ⟨.bf16, .i8, by decide +kernel⟩

/-- A window of 2 by 2 over an image of 3 by 3 with one channel: 2 rows and 2 columns of output. -/
def window22 : Vector (BitVec 32) 15 := #v[2, 2, 1, 1, 1, 1, 0, 0, 0, 0, 0, 0, 3, 3, 1]

theorem witness_unfold :
    let s := (xferIn [(.stype, 0)] [(1, 3), (2, 1)]).updXfer (fun x => { x with win := window22 })
    ∃ t, s.core.typeField .stype = some t ∧ winOk s.core.xfer.win = true ∧
      ((s.core.xfer.kv 2 + s.core.xfer.kv 1 : Nat) : Int) ≤ unfoldRows window22 * unfoldCols window22 ∧ patchBytes window22 t = 4 ∧
      s.core.endAt toTree ((XKind.unfold window22 t 0 0 1).dstSpan 12) true = .ok line16 ∧
      s.core.endAt (.hnd 2 3) ((XKind.unfold window22 t 0 0 1).srcSpan (blankOp (.unfold window22 t 0 0 1) (.tree 0 false false) none 12) 12)
        false = .ok hbm0 ∧ endsOverlap line16 12 hbm0 9 = false := ⟨.i8, by decide +kernel⟩

theorem witness_unpack :
    let s := xferIn [(.ratio, 16), (.dtype, 6)] [(1, 40)]
    let u := xferIn [(.ratio, 1024), (.dtype, 7)] [(1, 40)]
    s.core.xfer.field .ratio = 16 ∧ u.core.xfer.field .ratio = 1024 ∧ s.core.typeField .dtype = some .bf16 ∧
    u.core.typeField .dtype = some .f32 ∧ s.core.xfer.kv 1 = 40 ∧ (XKind.unpack .t5p 16 .i8).dstSpan 40 = 1 ∧
    s.core.endAt toTree 1 true = .ok line16 ∧ s.core.endAt toHbm 40 false = .ok hbm0 ∧ endsOverlap line16 1 hbm0 40 = false ∧
    s.core.endAt toHbm 1 true = .ok hbm0 ∧ endsOverlap hbm0 1 hbm0 40 = true := by
  decide +kernel

theorem witness_mcast : ∀ n ∈ [1, 4096],
    let s := xferIn [] [(1, BitVec.ofNat 32 n)]
    s.core.xfer.kv 1 = n ∧ s.core.endAt (.hnd 3 2) n true = .ok (.mem castBind 0) ∧
    XEnd.inCast (.mem castBind 0) s.core.id n = true ∧ s.core.endAt toHbm n false = .ok hbm0 ∧
    endsOverlap (.mem castBind 0) n hbm0 n = false := by decide +kernel

theorem witness_coll :
    let s := xferIn [] [(1, 24), (3, 5)]
    let g := { s with ctxs := s.ctxs.map (fun (c : Context) => { c with binds := [(5, 0)] }) }
    collScope .crew = true ∧ collScope .group = true ∧ g.collBound 5 = true ∧ 24 % 8 = 0 ∧ s.core.endAt toTree 24 true = .ok line16 ∧
    hostEnd line16 = false ∧ s.core.xfer.regions = [] ∧ (∀ z ∈ s.core.xfer.lostColls, (z.1, z.2.1) ≠ (5, s.core.xfer.collNum 5)) ∧
    (∃ sc : Scope, collScope sc = false) ∧ 25 % 4 ≠ 0 := by refine ⟨by decide +kernel, by decide +kernel, by decide +kernel, by decide +kernel, by decide +kernel, by decide +kernel,
      by decide +kernel, by decide +kernel, ⟨.core, by decide +kernel⟩, by decide +kernel⟩

/-! Blocks. -/

/-- Handle 2 with 8,192 bytes; a copy of n bytes from it into slot 1's local store is at issue, and its first block is due. -/
def bigBind : Binding := { hbmBind with len := 8192, segs := [⟨0, 8192, ⟨.hbm, 0x1000⟩⟩] }

def handing (n : Nat) : XOp :=
  { copying (.mem (bindingAt .window) 0) [] with len := n, src := some (.mem bigBind 0) }

def handingOver (n : Nat) : State := (bound (xferIn [] []) bigBind).updXfer (fun x => { x with cur := some (handing n) })

theorem witness_block_issue : ∀ n ∈ [64, 5000],
    let s := handingOver n
    let o := handing n
    s.liveCore 0 = true ∧ s.core.xfer.cur = some o ∧ o.kind.path = .xp ∧ o.unissued = false ∧ o.inside = false ∧ o.failed = none ∧
    o.taken = [] ∧ o.next < o.len ∧ (∀ y ∈ s.core.seat, s.crewStopping y.crew = false) ∧ s.core.xfer.eng.stopReq = false ∧
    s.core.xfer.eng.st.live = true ∧ s.core.holdsNew .xp = false ∧ s.core.xfer.inAir < 16 ∧
    (∀ a ∈ o.bindings, s.core.bindingNow a = .ok a) ∧ (∀ y ∈ s.core.xfer.ops, y.id ≠ o.id) := by decide +kernel

theorem witness_block_source :
    (handingOver 64).eccRead (((handing 64).needs 0 64).filterMap (fun i => bigBind.place (0 + i))) = .ok ∧
    0 + min 4096 (5000 - 0) < 5000 ∧ 64 ≤ 0 + min 4096 (64 - 0) := by decide +kernel

theorem test_last_block_issues : let t := out (exec (.transferBlockIssue 0) (handingOver 64))
    t.core.xfer.cur = none ∧ t.core.xfer.eng.pc = 0x24 ∧ t.core.xfer.ops.map (·.issued) = [true] := by decide +kernel

/-- Three bytes of an operation of batch 7 are due to land: in an open batch without a sync word, with one, and in a closed batch with one. -/
def landsIn (d : XEnd) (open_ : Bool) (sync : Option SyncRef) : State :=
  (xferIn [] []).updXfer (fun x => { x with
    ops := [{ copying d [block5] with issued := true }]
    openBatch := if open_ then some ⟨7, sync, 0, true⟩ else none
    batches := if open_ then [] else [⟨7, sync, 0, true⟩] })

theorem witness_block_land : ∀ d ∈ [XEnd.mem hbmBind 8, .tree 130 false true, .tree 20 false false],
    ∀ b ∈ [(true, none), (true, some ref), (false, some ref)],
    let o := { copying d [block5] with issued := true }
    let s := landsIn d b.1 b.2
    s.liveCore 0 = true ∧ s.core.xfer.all = [o] ∧ o.blocks = [block5] ∧ block5.seq = 5 ∧ s.memWf = true ∧ o.failed = none ∧
    o.inside = false ∧ block5.consume = [] ∧ ((List.range 3).map (fun i => o.byteTo (0 + i))).Nodup ∧
    s.core.xfer.batch o.batch = some ⟨7, b.2, 0, true⟩ ∧ s.eccRead (placesFrom ref.pa 16) = .ok ∧
    ((o.newCells block5).map Prod.fst).Nodup ∧ s.eccWrite (o.newCells block5) = .ok ∧ (∀ c ∈ o.newCells block5, c.1 ∉ placesFrom ref.pa 16) ∧
    s.core.xfer.regions = [] ∧ s.core.xfer.cur = none ∧ s.pieceWaits o block5 = false ∧ ((o.newBytes 20 false block5).map Prod.fst).Nodup ∧
    o.later = [] ∧ o.laterTree = [] ∧ sparseWf Line.zero 0 s.core.tree = true := by decide +kernel

theorem test_block_counts :
    let s := (landsIn (.mem hbmBind 8) true (some ref)).writeCells (cellsAt ref.pa [2, 0, 0, 0])
    let t := out (exec (.transferBlockLand 0 ⟨5, none⟩) s)
    t.readNat (ref.pa.plus 4) 4 = 1 ∧ t.readNat (ref.pa.plus 8) 4 = 1 ∧
    (out (exec (.transferBlockLand 0 ⟨5, none⟩) (landsIn (.mem hbmBind 8) true none))).core.xfer.openBatch = some ⟨7, none, 3, true⟩ := by decide +kernel

/-- Bytes 56 to 71 of two sectors: the first eight may land by themselves, the first nine not. -/
def split16 : Block := ⟨5, 56, List.replicate 16 1, [], [], false, false, 0, false⟩

theorem witness_block_part :
    let o := { copying (.mem hbmBind 0) [split16] with issued := true, done := [⟨4, 0, [7, 7], [], [], false, false, 0, false⟩] }
    let s := (xferIn [] []).updXfer (fun x => { x with ops := [o] })
    let p : Block := { split16 with bytes := List.replicate 8 1 }
    let q : XOp := { o with later := [(1, 9, ⟨.hbm, 0x1038⟩)] }
    (q.newCells p).map Prod.fst = (placesFrom ⟨.hbm, 0x1039⟩ 7) ∧
    o.piece split16 (some 8) = some (p, some { split16 with first := 64, bytes := List.replicate 8 1, landed := 8 }) ∧
    o.piece split16 (some 9) = none ∧ ((o.newCells p).map Prod.fst).Nodup ∧ o.newCells p = o.cells p ∧
    s.eccWrite (o.newCells p) = .ok ∧ s.core.xfer.cur = none ∧ s.core.xfer.ops = [o] := by decide +kernel

theorem test_part_lands :
    let o := { copying (.mem hbmBind 0) [split16] with issued := true }
    let t := out (exec (.transferBlockLand 0 ⟨5, some 8⟩) ((xferIn [] []).updXfer (fun x => { x with ops := [o] })))
    t.readNat ⟨.hbm, 0x1038⟩ 8 = 0x0101010101010101 ∧ t.readNat ⟨.hbm, 0x1040⟩ 8 = 0 ∧
    t.core.xfer.ops.map (fun o => o.blocks.map (fun b => b.first)) = [[64]] := by decide +kernel

/-- A fill of the weight buffer, whose block of three bytes is due to land at row 7. -/
theorem witness_block_rows :
    let o := { blankOp (.wbfill 7) (.tree 0 false false) (some hbm0) 3 with id := 3, blocks := [block5], issued := true }
    let s := (xferIn [] []).updXfer (fun x => { x with ops := [o] })
    s.core.xfer.all = [o] ∧ o.kind = .wbfill 7 ∧ s.pieceWaits o block5 = false ∧ sparseWf 0 0 s.core.wb = true ∧ block5.first % 256 = 0 ∧ block5.bytes.length ≤ 4096 := by decide +kernel

theorem test_wbfill_lands :
    let o := { blankOp (.wbfill 7) (.tree 0 false false) (some hbm0) 3 with id := 3, blocks := [block5], issued := true }
    let t := out (exec (.transferBlockLand 0 ⟨5, none⟩) ((xferIn [] []).updXfer (fun x => { x with ops := [o] })))
    (List.range 4).map (t.core.wbByte 7) = [1, 2, 3, 0] := by decide +kernel

theorem test_block_lands :
    let o := { copying (.mem hbmBind 8) [block5] with issued := true }
    let t := out (exec (.transferBlockLand 0 ⟨5, none⟩) ((xferIn [] []).updXfer (fun x => { x with ops := [o] })))
    t.readNat ⟨.hbm, 0x1008⟩ 4 = 0x030201 ∧ t.core.xfer.ops = [] := by decide +kernel

/-- Positions inside and outside the image, in each padding mode. -/
theorem witness_byte_maps : 0 < winAt window22 .ch ∧ 0 < winAt window22 .ww ∧ 0 < winAt window22 .wh ∧
    (∀ m ∈ [0, 1, 2, 3], winAt (window22.set 10 (BitVec.ofNat 32 m)) .pmode = m) ∧
    (0 : Int) ≤ 2 ∧ (2 : Int) < 3 ∧ (-1 : Int) < 0 ∧ (3 : Int) ≤ 3 := by decide +kernel

theorem test_padding : reflect (-1) 3 = 1 ∧ reflect 3 3 = 1 ∧ clampIn (-1) 3 = 0 ∧ clampIn 5 3 = 2 := by decide +kernel

/-! Collectives. -/

def collOf (sc : Scope) : XOp := { blankOp (.coll .sumI32 sc 5 0) hbm0 (some hbm0) 4 with
  id := 3, issued := true, blocks := [⟨5, 0, [1, 2, 3, 4], [], [], false, false, 0, false⟩] }

/-- Cores 0 and 1 of a crew have handed the block of their collective over, core 0 into HBM and core 1 into line 40. -/
def meeting : State :=
  let s := (xferIn [] []).updXfer (fun x => { x with ops := [collOf .crew] })
  { s with
    others := [{ Core.blank 1 with
      seat := some ⟨0, 0, 1, 2, wholeResources⟩
      xfer := { XferEngine.zero with ops := [{ collOf .crew with
        dst := .tree 40 false false, src := some (.tree 40 false false), blocks := [⟨9, 0, [5, 0, 0, 0], [], [], false, false, 0, false⟩] }] } }]
    crews := s.crews.map (fun (k : Crew) => { k with cores := [0, 1] }) }

theorem witness_collective_alone : ∀ sc ∈ [Scope.quad, .crew, .die, .package],
    let s := (xferIn [] []).updXfer (fun x => { x with ops := [collOf sc] })
    s.liveCore 0 = true ∧ s.participants sc 5 = [⟨0, s.core.id⟩] ∧ s.collGone 5 0 ⟨0, 0⟩ = false ∧
    s.core.xfer.collBlock 5 = some (collOf sc, ⟨5, 0, [1, 2, 3, 4], [], [], false, false, 0, false⟩) ∧
    (s.contribution 5 0 0 ⟨0, 0⟩).isSome = true ∧ s.memWf = true ∧ s.eccWrite ((collOf sc).cells ⟨5, 0, [1, 2, 3, 4], [], [], false, false, 0, false⟩) = .ok := by
  decide +kernel

theorem witness_collective :
    let u := meeting
    let other := (u.coreOf 1).xfer.ops
    let got := [⟨0, 0⟩, ⟨0, 1⟩].mapM (u.contribution 5 0 0)
    u.liveCore 0 = true ∧ u.core.xfer.collBlock 3 = some (collOf .crew, ⟨5, 0, [1, 2, 3, 4], [], [], false, false, 0, false⟩) ∧
    u.participants .crew 5 = [⟨0, 0⟩, ⟨0, 1⟩] ∧ [0, 1].Nodup ∧
    (∀ c ∈ [0, 1], u.collGone 5 0 ⟨0, c⟩ = false) ∧ got.isSome = true ∧
    (∀ g ∈ got, (∀ c ∈ g.map Prod.snd, c.op = CollOp.sumI32.code ∧ c.len = 4) ∧ g.map Prod.fst = collOf .crew :: other ∧
      orderMembers (g.map Prod.snd) = g.map Prod.snd) ∧
    (∀ p ∈ collOf .crew :: other, p.failed = none ∧ p.inside = false ∧
      (let b : Block := ⟨5, 0, [6, 2, 3, 4], [], [], false, false, 0, false⟩; u.eccWrite (p.newCells b) = .ok) ∧ p.laterTree = [] ∧
      ∀ k ∈ p.blockAt 0, k.lost = false ∧ k.badTag = false ∧ k.consume = []) ∧
    ((collOf .crew).cells ⟨5, 0, [6, 2, 3, 4], [], [], false, false, 0, false⟩).map Prod.fst = placesFrom ⟨.hbm, 0x1000⟩ 4 ∧
    (placesFrom ⟨.hbm, 0x1000⟩ 4).Nodup ∧ u.memWf = true ∧ sparseWf Line.zero 0 (u.coreOf 1).tree = true := by decide +kernel

theorem test_collective : let t := out (exec (.collectiveResult 0 3 []) meeting)
    t.readNat ⟨.hbm, 0x1000⟩ 4 = 0x04030206 ∧ (t.coreOf 1).treeNat 2560 4 = 0x04030206 ∧ ((t.coreOf 1).line 40).full = true := by
  decide +kernel

/-- Sums keep within 32 bits; a tie of an argmax keeps the lower index. -/
theorem test_coll_sum : collResult .sumI32 4 [bytesOfNat 4 0x7FFFFFFF, bytesOfNat 4 1, bytesOfNat 4 0xFFFFFFFE] = bytesOfNat 4 0x7FFFFFFE ∧
    collResult .sumI32 4 [bytesOfNat 4 0x7FFFFFFF, bytesOfNat 4 1] = bytesOfNat 4 0x7FFFFFFF := by decide +kernel

theorem test_coll_argmax : collResult .argmax 8 [bytesOfNat 4 0x3F800000 ++ bytesOfNat 4 9, bytesOfNat 4 0x3F800000 ++ bytesOfNat 4 2] =
    bytesOfNat 4 0x3F800000 ++ bytesOfNat 4 2 := by decide +kernel

end Sys2Proof.Tests

/-! ### Waits, halts, parity errors, strikes, crews and the scheduler -/
namespace Sys2Proof.Tests

def haltedNow (posted : Bool) : State := { seated with
  ctxs := seated.ctxs.map (fun (c : Context) => { c with halt := some ⟨0x0201, 5, 0, false, posted, 7⟩ }) }

theorem witness_wait_satisfied : seated.liveCore 0 = true ∧ seated.core.xfer.cur = none := by decide

theorem witness_halt_complete : (haltedNow true).ctx 0 = some ((haltedNow true).ctxs.headD ⟨9, 0, 0, 0, false, 0, none, none, [], [], []⟩) ∧
    ((haltedNow true).ctx 0).map (·.halt) = some (some ⟨0x0201, 5, 0, false, true, 7⟩) ∧
    ((haltedNow false).ctx 0).map (·.halt) = some (some ⟨0x0201, 5, 0, false, false, 7⟩) ∧
    (haltedNow false).ctxCores 0 = [(haltedNow false).core.id] ∧ (haltedNow false).core.vec.vp = [] ∧
    (haltedNow false).fw.ifaces[(0 : Fin 64)].enable = false := by decide +kernel

theorem test_halt_posts_once : ((out (exec (.haltComplete 0) (haltedNow false))).ctx 0).map (·.halt) = some (some ⟨0x0201, 5, 0, false, true, 7⟩) ∧
    (out (exec (.haltComplete 0) (haltedNow false))).core.written = Vector.replicate 4 1 := by decide +kernel

theorem witness_parity : (matIn [reduction .tern 8 3 none]).liveCore 0 = true ∧
    (matIn [reduction .tern 8 3 none]).core.mat.reds = [reduction .tern 8 3 none] ∧ (reduction .tern 8 3 none).retries + 1 < 4 ∧
    (wide.core.vec.eng.releasing = false ∧ wide.core.vec.regions = [] ∧ wide.core.vec.vp = [] ∧ wide.core.vec.lostAt = none ∧ wide.core.seq.ended = false ∧
      wide.core.vec.eng.st = .run) ∧
    (∀ e : Eng, e ≠ .mat → (wide.updEng e (fun x => { x with releasing := true })).core.deferReport e.stream = true) ∧
    coreExists 0 = true ∧ seated.core.seat.isSome = true := by
  refine ⟨by decide +kernel, by decide +kernel, by decide +kernel, by decide +kernel, ?_, by decide, by decide⟩
  intro e h; cases e <;> first | (exact absurd rfl h) | decide +kernel

/-- A stopped engine, for which a report is kept; a context whose interface runs. -/
theorem witness_parity_stopped : ∀ e : Eng, (engineIn e .stopped false).core.deferReport e.stream = false ∧
    (engineIn e .stopped false).core.seq.ended = false ∧ ((engineIn e .stopped false).core.eng e).st = .stopped := by
  intro e; cases e <;> decide +kernel

def listening (s : State) : State := s.updIface 0 (fun i => { i with enable := true, evlog := 4, sqlog := 4 })

theorem witness_halt_event : (listening (haltedNow false)).fw.ifaces[(0 : Fin 64)].enable = true := by decide +kernel

/-- One saved item of the undo buffer. -/
def savedItem : SeqRegion := { regionAt [] with saved := [⟨⟨.window, 0⟩, [1], false⟩] }

theorem witness_undo : (inRegions seated [savedItem]).core.seq.regions = [savedItem] ∧
    savedItem.saved = [] ++ ⟨⟨.window, 0⟩, [1], false⟩ :: [] := by decide +kernel

theorem test_undo_lost : ((out (exec (.softErrorStrike (.undo 0 .seq 0 0 false)) (inRegions seated [savedItem]))).core.seq.regions.map
    (fun r => r.saved.map (·.lost))) = [[true]] := by decide +kernel

theorem witness_heat : seated.heat[(3 : Fin 4)] = none ∧ hotMat.heat[(3 : Fin 4)] = some 32 := by decide +kernel

theorem witness_strikes : coreExists 479 = true ∧ (seated.coreOf 0).seat.isSome = true ∧ (seated.coreOf 479).seat = none ∧
    2047 < 2048 ∧ 4095 < 4096 ∧ 128 * 3 ≤ 479 ∧ 479 < 128 * 3 + 96 ∧ ¬ (479 < 128 * 2 + 96) := by decide

/-- A packet of n cores with one code word at 0, one page of store, one line. -/
def packetOfCrew (n : Nat) : LaunchPacket :=
  ⟨n, ⟨1, 1, 1, 1, 0, 0, #v[1, 0, 0, 0]⟩, 0, 0, Vector.replicate 8 7, 3, 2, 1, 1, 0⟩

/-- The 128 bytes of such a packet of a kind. -/
def packetBytes (kind n : Nat) : List Byte :=
  bytesOfNat 4 (65536 * n + 256 * kind + 1) ++ bytesOfNat 4 0x10001 ++ bytesOfNat 4 0x10000 ++ bytesOfNat 4 0 ++ bytesOfNat 8 0 ++
    bytesOfNat 8 1 ++ bytesOfNat 8 0 ++ (if kind = 1 then bytesOfNat 4 (3 * 65536 + 2) ++ bytesOfNat 4 (65536 + 1) else bytesOfNat 8 0) ++
    bytesOfNat 16 0 ++ (List.replicate 8 (bytesOfNat 8 7)).flatten

theorem test_packet_fields : launchOf (packetBytes 1 4) = packetOfCrew 4 ∧ launchRefused (packetBytes 1 4) 1 4 = none ∧
    launchRefused (packetBytes 1 5) 1 4 = some 6 ∧ launchRefused (packetBytes 0 4) 1 4 = some 3 := by decide +kernel

def waitingCrew : Waiting := ⟨0, packetOfCrew 2, .host 0 5 0 64, 1⟩
def launching : State := { paged with waiting := [waitingCrew], crewNum := 2 }

theorem witness_placement : launching.waiting.find? (fun x => decide (x.num = waitingCrew.num)) = some waitingCrew ∧
    launching.nextBlock 0 = none ∧ launching.nextLaunch (launching.partOf 0) = some waitingCrew ∧ launching.fits 0 2 [1, 8] = true ∧
    ((launching.dropWaiting 1).readCode 0 (packetOfCrew 2)).toOption = some (List.replicate 4 0) ∧
    ((launching.dropWaiting 1).launchImage waitingCrew).toOption = some (List.replicate 64 0) ∧
    (launching.dropWaiting 1).crew 1 = none := by decide +kernel

def blocked (b : LaunchBlock) : State := paged.setQueue 1 [b]

theorem witness_launch_block :
    let b : LaunchBlock := ⟨0, packetBytes 0 2, 0, 0⟩
    (blocked b).headBlock 1 = some b ∧ (blocked b).nextBlock 0 = some 1 ∧ launchRefused b.bytes 0 ((blocked b).partCores 0).length = none ∧
    (blocked b).fits 0 2 (sortNat (1 :: [9])) = true ∧ sortNat [9] = [9] ∧
    ((blocked b).readCode 0 (launchOf b.bytes)).toOption = some (List.replicate 4 0) ∧ (blocked b).crew (blocked b).crewNum = none := by
  decide +kernel

theorem witness_refused_block :
    let b : LaunchBlock := ⟨0, packetBytes 0 9, 0, 0⟩
    (blocked b).headBlock 1 = some b ∧ (blocked b).nextBlock 0 = some 1 ∧
    launchRefused b.bytes 0 ((blocked b).partCores 0).length = some 6 := by decide +kernel

/-- The crew of core 0 in a state of its life; the context's tables are those of `paged`. -/
def crewIn (st : CrewState) (q : Sequencer → Sequencer) : State :=
  { paged.updSeq q with crews := paged.crews.map (fun (k : Crew) => { k with packet := packetOfCrew 1, state := st }) }

theorem witness_expiry : (crewIn .running (fun q => { q with yreq := true })).crew 0 = (crewIn .running (fun q => { q with yreq := true })).crews.head? ∧
    ((crewIn .running (fun q => { q with yreq := true })).coreOf 0).seq.yreq = true ∧
    ((crewIn .running (fun q => { q with yreq := true })).coreOf 0).seq.ydl = 0 ∧
    ((crewIn .running (fun q => { q with yreq := true })).coreOf 0).seq.yielded = false := by decide +kernel

theorem witness_save : (crewIn (.stopping true) id).crewStopping 0 = true ∧ (crewIn (.stopping true) id).ctxHalted 0 = false ∧
    ((crewIn (.stopping true) id).coreOf 0).saveReady = true ∧
    (∀ k ∈ (crewIn (.stopping true) id).crews, (crewIn (.stopping true) id).orphaned k = false ∧ k.cores = [0]) ∧
    ((crewIn (.stopping true) (fun q => { q with sq := [storeOf 1 (plainAt 0)] })).coreOf 0).saveReady = false := by decide +kernel

/-- A crew asked on behalf of stage 0, with no other crew's access under way; and one to whose store another core has a load in
flight, over a binding. -/
theorem witness_save_asked :
    let s := crewIn (.stopping true) id
    let a : State := { s with
      ctxs := s.ctxs.map (fun (c : Context) => { c with harness := some (harnessOf []) })
      crews := s.crews.map (fun (k : Crew) => { k with asked := some (some 0) }) }
    (∀ i ∈ [0], (a.revokeWindows [0]).storeBusyFrom [0] i = false) ∧ (∀ k ∈ a.crew 0, k.asked = some (some 0) ∧ a.orphaned k = false) := by decide +kernel

def visited : State :=
  let s := crewIn (.stopping true) id
  let b : Binding := ⟨100, 1, windowBase, 64, .window, true, [⟨0, 64, ⟨.window, 0⟩⟩], false, false⟩
  { s with others := [{ Core.blank 1 with
      seat := some ⟨9, 0, 0, 1, wholeResources⟩
      seq := { Sequencer.zero with h := Sequencer.zero.h.set 1 (some b), lq := [{ loadOf 1 4 with binds := [100] }] } }] }

theorem witness_save_waits : (visited.revokeWindows [0]).storeBusyFrom [0] 0 = true := by decide +kernel

theorem test_save_waits : ((out (exec (.crewSave 0) visited)).coreOf 0).seat.isSome = true := by decide +kernel

def savedCrew : State := out (execCrewSave 0 (crewIn (.stopping true) id))

theorem witness_resume : ∃ k, savedCrew.crew 0 = some k ∧ savedCrew.canResume k = true ∧ savedCrew.placeFirst k.ctx = false ∧
    savedCrew.coresOwed k = false ∧ (∀ st : Nat, k.origin ≠ .stage st) ∧ (∀ v ∈ k.saved, v.core.reports = []) ∧
    (savedCrew.readCode k.ctx k.packet).toOption = some (List.replicate 4 0) ∧ k.cores.Nodup ∧ k.saved.length = k.cores.length := by
  have hs : (savedCrew.crew 0).isSome = true := by decide +kernel
  have h : ∀ k ∈ savedCrew.crew 0, savedCrew.canResume k = true ∧ savedCrew.placeFirst k.ctx = false ∧
      savedCrew.coresOwed k = false ∧ k.origin = .host 0 0 0 0 ∧ (∀ v ∈ k.saved, v.core.reports = []) ∧
      (savedCrew.readCode k.ctx k.packet).toOption = some (List.replicate 4 0) ∧ k.cores.Nodup ∧
      k.saved.length = k.cores.length := by decide +kernel
  obtain ⟨k, hk⟩ := Option.isSome_iff_exists.1 hs
  obtain ⟨h1, h2, h3, h4, h5⟩ := h k hk
  exact ⟨k, hk, h1, h2, h3, by simp [h4], h5⟩

/-- The crew was saved for a checkpoint: its core is kept for it, and waiting launches do not hold it back (R286). -/
theorem test_checkpointed_crew_resumes_first :
    let s := { savedCrew with
      crews := savedCrew.crews.map (fun (k : Crew) => { k with forCheckpoint := true })
      waiting := [⟨0, packetOfCrew 1, .host 0 0 0 0, 9⟩] }
    s.reserved 0 = true ∧ (s.freeCores 0).contains 0 = false ∧ s.placeFirst 0 = true ∧
    (out (exec (.crewResume 0) s)).core.seat.isSome = true := by decide +kernel

theorem test_resume_runs : ((out (exec (.crewResume 0) savedCrew)).coreOf 0).seat = some ⟨0, 0, 0, 1, (packetOfCrew 1).res⟩ := by decide +kernel

/-- The harness over a table of two rows, which lie at 0x210000 of HBM, with one stage for phase 3; row 0 has a deadline of 50 ns. -/
def scanning (w : Nat) (f : Harness → Harness) : State :=
  let s := timed paged 110
  ({ s with ctxs := s.ctxs.map (fun (c : Context) => { c with harness := some (f (harnessOf [packetOfCrew 2])) }) }).writeCells
    (cellsAt ⟨.hbm, 0x210000⟩ (bytesOfNat 8 w ++ bytesOfNat 8 50))

theorem witness_scan : (∀ b : Bool, (scanning 3 id).rowWalk 0 (harnessOf [packetOfCrew 2]) 0 b = .ok ⟨.hbm, 0x210000⟩ true 21) ∧ (harnessOf [packetOfCrew 2]).ended = false ∧
    (scanning 3 id).eccRead (placesFrom ⟨.hbm, 0x210000⟩ 64) = .ok ∧ (harnessOf [packetOfCrew 2]).stageOf (rowPhase 3) = some (packetOfCrew 2, 0) ∧
    (harnessOf [packetOfCrew 2]).stageOf (rowPhase 4) = none ∧ (scanning 3 id).readNat ⟨.hbm, 0x210000⟩ 8 = 3 ∧
    (scanning 3 id).readNat ⟨.hbm, 0x210008⟩ 8 = 50 ∧ (scanning 3 id).clocks[(0 : Fin 4)].wide = false ∧
    (scanning 3 id).clocks[(0 : Fin 4)].late - (scanning 3 id).clocks[(0 : Fin 4)].early ≤ 2000 ∧
    (scanning 3 id).clocks[(0 : Fin 4)].early > sextNat 64 50 ∧ (scanning 3 id).readNat ⟨.hbm, 0x210010⟩ 8 = 0 ∧ (scanning 3 id).memWf = true ∧
    (scanning 3 id).eccWrite (cellsAt ⟨.hbm, 0x210000⟩ (bytesOfNat 8 (rowWord (rowSeq 3 + 1) false 63)) ++
      cellsAt ⟨.hbm, 0x210028⟩ (bytesOfNat 2 0x0601)) = .ok := by decide +kernel

/-- A table that no page maps; and one whose row is lost. -/
theorem witness_scan_unread : seated.rowWalk 0 (harnessOf []) 0 false = .fault ⟨5, 5, 0⟩ 16 ∧
    ({ scanning 3 id with lost := [⟨.hbm, 0x210000⟩] }).eccRead (placesFrom ⟨.hbm, 0x210000⟩ 64) = .lost := by decide +kernel

theorem test_row_lost_is_logged :
    ((out (exec (.schedulerScanRow 0) { scanning 3 id with lost := [⟨.hbm, 0x210000⟩] })).ctx 0).map (·.log) =
      some [⟨.lostRow, 0, 0x0102, 0⟩] := by decide +kernel

/-- The table lies in a page that the block may only read. -/
def readOnly (w : Nat) : State := (scanning w id).writeCells (cellsAt ⟨.hbm, 0x4000⟩ (bytesOfNat 8 0x200003))

theorem witness_scan_read_only : (readOnly 67).rowWalk 0 (harnessOf [packetOfCrew 2]) 0 false = .ok ⟨.hbm, 0x210000⟩ false 21 ∧
    (readOnly 67).rowWalk 0 (harnessOf [packetOfCrew 2]) 0 true = .fault ⟨3, 1, 2097155⟩ 21 ∧
    (readOnly 67).eccRead (placesFrom ⟨.hbm, 0x210000⟩ 64) = .ok ∧ (readOnly 67).readNat ⟨.hbm, 0x210000⟩ 8 = 67 ∧
    (readOnly 67).readNat ⟨.hbm, 0x210008⟩ 8 = 50 ∧ (readOnly 67).clocks = (scanning 67 id).clocks ∧
    (harnessOf [packetOfCrew 2]).stageOf (rowPhase 67) = some (packetOfCrew 2, 0) := by decide +kernel

theorem test_judged_late : (out (exec (.schedulerScanRow 0) (scanning 67 id))).readNat ⟨.hbm, 0x210000⟩ 8 = rowWord 1 false 63 ∧
    (out (exec (.schedulerScanRow 0) (scanning 67 id))).readNat ⟨.hbm, 0x210028⟩ 2 = 0x0601 := by decide +kernel

def deciding : State := scanning 3 (fun h => { h with scanned := true })

theorem witness_decision : ∀ h ∈ (deciding.ctx 0).bind (·.harness), h.scanned = true ∧ deciding.mayPlace 0 = true ∧
    deciding.placeFirst 0 = false ∧ deciding.settleOwed 0 = deciding ∧
    (deciding.step1 0 h []).or (deciding.stepOwed 0 h []) = some (packetOfCrew 2, 0) ∧
    (deciding.readCode 0 (packetOfCrew 2)).toOption = some (List.replicate 4 0) ∧ (∀ k ∈ deciding.crews, k.num < deciding.crewNum) := by
  decide +kernel

end Sys2Proof.Tests

/-! ### Clocks, the group, the host and the firmware -/
namespace Sys2Proof.Tests

/-- Clocks between 100 and 110 ns, with a time base; the device is member 1 of a group with member 2. -/
def grouped (f : Group → Group) : State :=
  let s := timed seated 110
  { s with
    fw := { s.fw with timeset := true }
    group := f { s.group with state := .member, number := 1, limit := 2000, agreement := 4, ceiling := 1800, freq := 1350
                              members := [⟨2, 1800, 0, none, -100000⟩] } }

theorem witness_clocks : (0 : Int) < 1 ∧ (grouped id).fw.timeset = true ∧
    (∀ d : Fin 4, (grouped id).clocks[d].e ≤ 20000 * 105 ∧ 20000 * 104 ≤ (grouped id).clocks[d].u) ∧
    ¬ ((grouped id).clocks[(0 : Fin 4)].e ≤ 20000 * 99 ∧ 20000 * 98 ≤ (grouped id).clocks[(0 : Fin 4)].u) ∧
    ({ seated with fw := { seated.fw with timeWait := some 5 } }).fw.timeWait = some 5 ∧ seated.fw.timeset = false ∧
    seated.fw.timeWait = none := by decide

/-- Real time that an exchange of 104 to 105 ns leaves as it is. -/
def timedAt (x : Int) : State := { grouped id with tau := x }

theorem witness_tau : 20000 * 104 ≤ (timedAt (20000 * 104 + 5)).tau ∧ (timedAt (20000 * 104 + 5)).tau ≤ 20000 * 105 ∧
    (∀ d : Fin 4, (out (exec (.ptmExchange 104 105) (timedAt (20000 * 104 + 5)))).clocks[d].e ≤ 20000 * 104 + 5 ∧
      20000 * 104 + 5 ≤ (out (exec (.ptmExchange 104 105) (timedAt (20000 * 104 + 5)))).clocks[d].u) := by decide

/-- An exchange behind the model's τ moves it back. -/
theorem test_ptm_moves_tau : (out (exec (.ptmExchange 104 105) (timedAt (20000 * 106)))).tau = 20000 * 105 ∧
    (out (exec (.ptmExchange 99 101) { seated with fw := { seated.fw with timeset := true, timeWait := some 500 } })).tau = 20000 * 101 := by
  decide

theorem witness_frame : 20000 * 44 ≤ (timedAt (20000 * 104)).tau ∧
    (∀ d : Fin 4, (timedAt (20000 * 104)).clocks[d].e ≤ (timedAt (20000 * 104)).tau ∧
      (timedAt (20000 * 104)).tau ≤ (timedAt (20000 * 104)).clocks[d].u) := by decide

theorem test_ptm_narrows : (out (exec (.ptmExchange 104 105) (grouped id))).clocks[(3 : Fin 4)].e = 20000 * 104 ∧
    (out (exec (.ptmExchange 104 105) (grouped id))).clocks[(3 : Fin 4)].l = 20000 * 110 := by decide

theorem witness_group : (grouped id).group.freq < (grouped id).group.ceiling ∧
    (grouped (fun g => { g with freq := 2000 })).group.ceiling < (grouped (fun g => { g with freq := 2000 })).group.freq ∧
    inGroup (grouped id).group.state = true ∧ inGroup seated.group.state = false ∧ (grouped id).group.ports ≠ 0 ∧
    ((grouped id).group.frames + 1) % 10 ≠ 0 ∧ ((grouped (fun g => { g with frames := 9 })).group.frames + 1) % 10 = 0 ∧
    (grouped id).group.knows 2 = true ∧ (grouped id).group.knows 3 = false ∧ seated.group.state = .out := by decide

theorem test_ramp : (out (exec .rampStep (grouped (fun g => { g with moment := -1000, rampAt := -1000, rampFrom := 1765, freq := 1790 })))).group.freq = 1800 := by decide

/-- The device's own notice of 1,500 MHz for a stamp of 99 ns, or of 120 ns with an acknowledgement missing. -/
def noticed (t : Int) (l : List Nat) : State := grouped (fun g => { g with changes := [⟨.limit 1 1500, t, true, l⟩] })

theorem witness_limits : (noticed 99 []).group.changes = [⟨.limit (noticed 99 []).group.number 1500, 99, true, []⟩] ∧
    (noticed 99 []).earlyAll > 99 ∧ ¬ (noticed 100 []).earlyAll > 100 ∧ (noticed 120 [2]).lateAll ≥ 120 - 10000 ∧
    (∀ a ∈ (noticed 120 [2]).group.changes, a.mine = true) ∧ ({ seated with fw := { seated.fw with stage := 6 } }).fw.stage = 6 := by decide

/-- Member 2 has announced 1,500 MHz for a stamp of 777 ns; the device leaves, or joins with or without its stamp announced. -/
theorem witness_limit_forms : (grouped (fun g => { g with changes := [⟨.limit 2 1500, 777, false, []⟩] })).group.changes =
      [⟨.limit 2 1500, 777, false, []⟩] ∧ (777 : Int) ≠ 778 ∧
    (grouped (fun g => { g with state := .leaving })).group.state = .leaving ∧
    (grouped (fun g => { g with state := .joining })).group.unaware = true ∧
    (grouped (fun g => { g with state := .joining, joinStamp := some 5 })).group.joinStamp.isSome = true ∧
    (grouped (fun g => { g with state := .joining, joinStamp := some 5 })).group.unaware = false ∧ (grouped id).group.state = .member := by decide

theorem test_withdrawn_limit_is_kept : (out (exec (.limit 2 1600 ⟨778, some 777⟩) (grouped (fun g => { g with
      state := .joining })))).group.withdrawn = [(2, 777)] := by decide

theorem test_limit_replaced : (out (exec (.limit 2 1600 ⟨778, some 777⟩) (grouped (fun g => { g with
      changes := [⟨.limit 2 1500, 777, false, []⟩] })))).group.changes = [⟨.limit 2 1600, 778, false, []⟩] ∧
    (out (exec (.limit 2 1600 ⟨778, none⟩) (grouped (fun g => { g with
      changes := [⟨.limit 2 1500, 777, false, []⟩] })))).group.changes = [⟨.limit 2 1500, 777, false, []⟩, ⟨.limit 2 1600, 778, false, []⟩] := by
  decide

theorem test_limit_takes_effect : (out (exec .limitStampPassed (noticed 99 []))).group.limit = 1500 ∧
    (out (exec .limitStampPassed (noticed 99 []))).group.ceiling = 1500 ∧ (out (exec .limitStampPassed (noticed 99 []))).group.agreement = 5 := by
  decide

/-- The device joins: since when, the stamp that it announced, the members whose acknowledgement is missing. -/
def joiningAt (began stamp : Option Int) (l : List Nat) : State := grouped (fun g => { g with
  state := .joining, joinBegan := began, joinStamp := stamp, awaiting := l
  changes := match stamp with
    | some t => [⟨.joins Config.deviceIdentity 2000, t, true, []⟩]
    | none => [] })

theorem witness_members : (grouped id).group.changes = [] ∧ (joiningAt (some (-100000)) none [2]).earlyAll > -100000 + 100000 ∧
    ¬ (joiningAt (some 0) none [2]).earlyAll > 0 + 100000 ∧ (joiningAt (some 0) none [2]).groupFull = false ∧
    (joiningAt (some 0) none [2]).group.joinStamp = none ∧ (joiningAt none (some 99) []).earlyAll > 99 ∧
    ¬ (joiningAt none (some 100) []).earlyAll > 100 ∧ (joiningAt none (some 99) []).group.state = .joining ∧
    (joiningAt none (some 99) []).group.nextLimit = none ∧ (joiningAt none (some 99) []).fw.pending = [] ∧
    (grouped (fun g => { g with changes := [⟨.leaves 1, 99, true, []⟩] })).group.changes = [⟨.leaves 1, 99, true, []⟩] ∧
    (grouped id).earlyAll > 99 ∧ ¬ (grouped id).earlyAll > 100 := by decide

theorem witness_join_stamp : (joiningAt none (some 99) []).group.changes = [⟨.joins Config.deviceIdentity 2000, 99, true, []⟩] := rfl

/-- An acknowledgement comes in time, or too late; the device can run at the floor, or cannot. -/
theorem witness_join_time : (joiningAt (some 0) none [2]).earlyAll ≤ 0 + 100000 ∧ (joiningAt (some 0) none [2]).group.joinBegan = some 0 ∧
    ¬ (joiningAt (some (-100000)) none [2]).earlyAll ≤ -100000 + 100000 ∧ (joiningAt (some 0) none [2]).group.heardSilents = [] ∧
    1350 ≤ (joiningAt none (some 99) []).group.limit ∧ ({ (joiningAt none (some 99) []).group with limit := 1300 } : Group).limit < 1350 := by
  decide

/-- Two acknowledgements are missing, or one. -/
theorem witness_join_acks : (joiningAt (some 0) none [2, 3]).group.awaiting.contains 2 = true ∧
    (∃ m ∈ (joiningAt (some 0) none [2, 3]).group.awaiting, m ≠ 2) ∧ (joiningAt (some 0) none [2]).group.awaiting = [2] ∧
    (joiningAt (some 0) none [2]).group.joinAcks = [] ∧ (joiningAt (some 0) none [2]).group.ports ≠ 0 ∧ [(2, 1800)].length < 1024 ∧
    (joiningAt none (some 99) []).group.joinStamp.isSome = true ∧ (grouped (fun g => { g with ports := 0 })).group.ports = 0 := by decide

theorem test_join_carries_notices : (out (exec (.join 9 ⟨1600, none⟩) (grouped (fun g => { g with
      changes := [⟨.leaves 2, 777, false, []⟩] })))).group.sent =
    [.ack 1 (.join 9 1600 ⟨4, 1800, 0⟩ 0 [(1, 2000), (2, 1800)] [.leaves 2 777])] := by decide +kernel

theorem witness_silence : (grouped id).group.members.find? (fun m => decide (m.number = 2)) = some ⟨2, 1800, 0, none, -100000⟩ ∧
    (grouped id).earlyAll > -100000 + 100000 ∧ ¬ (timed seated 110).earlyAll > 0 + 100000 ∧ (grouped id).group.silences = [] ∧
    (grouped id).group.agreement < 5 ∧ 4 ≤ (grouped id).group.agreement ∧
    (grouped (fun g => { g with silences := [⟨2, [], true, false, []⟩] })).group.silences = [⟨2, [], true, false, []⟩] ∧
    (grouped (fun g => { g with silences := [⟨2, [], true, true, []⟩] })).group.silences = [⟨2, [], true, true, []⟩] ∧
    (grouped id).group.members.length ≤ 1 ∧ (grouped id).group.agreement + 1 < 2 ^ 32 ∧ (grouped id).group.knows 2 = true ∧
    (grouped id).group.knows 7 = false ∧ (7 : Nat) ≠ (grouped id).group.number := by decide

/-- What is stamped before the SILENT is formed first: it may take the member out, or leave it. -/
theorem witness_silence_forms :
    let f := fun (s : State) => s.group.formAll s.lateAll (fun x => decide (x ≤ s.lateAll)) s.group.changes.length
    (f (grouped (fun g => { g with changes := [⟨.leaves 2, 50, false, []⟩] }))).knows 2 = false ∧
    (f (grouped (fun g => { g with changes := [⟨.limit 2 1500, 50, false, []⟩] }))).knows 2 = true ∧
    (f (grouped (fun g => { g with changes := [⟨.limit 2 1500, 50, false, []⟩] }))).agreement + 1 < 2 ^ 32 ∧
    (∀ a ∈ (grouped (fun g => { g with changes := [⟨.limit 2 1500, 999999, false, []⟩] })).group.changes,
      (grouped (fun g => { g with changes := [⟨.limit 2 1500, 999999, false, []⟩] })).lateAll < a.stamp) := by decide

/-- With every port down a member that falls silent is not removed by this device alone (R238). -/
def cutOff : State := grouped (fun g => { g with ports := 0 })

theorem witness_cut_off : cutOff.group.ports = 0 ∧ inGroup cutOff.group.state = true ∧ cutOff.group.silences = [] ∧
    cutOff.group.members.find? (fun m => decide (m.number = 2)) = some ⟨2, 1800, 0, none, -100000⟩ ∧
    cutOff.earlyAll > -100000 + 100000 ∧
    (cutOff.group.formAll cutOff.lateAll (fun x => decide (x ≤ cutOff.lateAll)) cutOff.group.changes.length).knows 2 = true := by decide

theorem test_confirm_before_silent : (out (exec (.confirm 2 2) (grouped id))).group.silences = [⟨2, [2], false, false, []⟩] := by decide

theorem test_silence : (out (exec (.silenceDetected 2) (grouped id))).group.ceiling = 1350 ∧
    (out (exec (.silenceDetected 2) (grouped id))).group.agreement = 5 := by decide

/-! The host. -/

/-- Interface 1 runs with rings of 16 slots at 0x1000 and 0x2000 of host memory, its counter at 0x40; commands are accepted on it for
partition 0. -/
def serving (f : Firmware → Firmware) : State :=
  { paged with
    parts := paged.parts.map (fun (p : Partition) => { p with ifaces := 2 })
    fw := f { paged.fw with stage := 6, ready := true, ifaces := paged.fw.ifaces.set 1 { paged.fw.ifaces[1] with
      enable := true, sqbase := 0x1000, evbase := 0x2000, cnt := 0x40, evlog := 4, sqlog := 4 } } }

/-- Slot 0 of the submission ring holds a packet of `log.read`. -/
def posted : State := (serving id).writeCells (cellsAt ⟨.host, 0x1000⟩ (bytesOfNat 8 0x13) ++ cellsAt ⟨.host, 0x1038⟩ (bytesOfNat 8 (2 ^ 63)))

theorem witness_host : posted.fw.ifaces[(1 : Fin 64)].enable = true ∧ 2 ^ posted.fw.ifaces[(1 : Fin 64)].sqlog < ((17 : BitVec 32) - 0).toNat ∧
    ((16 : BitVec 32) - posted.fw.ifaces[(1 : Fin 64)].cons).toNat ≤ 2 ^ posted.fw.ifaces[(1 : Fin 64)].sqlog ∧
    posted.fw.ifaces[(1 : Fin 64)].busy = false ∧ posted.fw.ready = true ∧ posted.fw.railsDown = false ∧
    posted.eccRead (placesFrom posted.fw.ifaces[(1 : Fin 64)].slot 64) = .ok ∧
    (natOfBytes ((posted.readBytes (placesFrom posted.fw.ifaces[(1 : Fin 64)].slot 64)).drop 56)).testBit 63 = true ∧
    (packetOf (posted.readBytes (placesFrom posted.fw.ifaces[(1 : Fin 64)].slot 64))).zero = true ∧
    opAssigned (packetOf (posted.readBytes (placesFrom posted.fw.ifaces[(1 : Fin 64)].slot 64))).op = true ∧
    seated.fw.ifaces[(0 : Fin 64)].enable = false ∧ posted.memWf = true := by decide +kernel

theorem test_notify_takes_packet : (out (exec (.notifyWrite 1 1) posted)).sched =
    [⟨0, 0, [], .command 1 ⟨0x13, 0, 0, 0, 0, 0, 0, 0, 0, 0, true⟩⟩] := by decide +kernel

theorem witness_control : controlOk 0x84400000 = true ∧ (0x84400000 : Nat).testBit 31 = true ∧ (0x04400000 : Nat).testBit 31 = false ∧
    3 ≤ (serving id).fw.stage ∧ controlOk 0x84300000 = false := by decide +kernel

/-- Partition 0 gives the host its first extent. -/
def served : State := { paged with parts := paged.parts.map (fun (p : Partition) => { p with window := 2 ^ 30 }) }

theorem witness_host_access : ∃ p, served.part 0 = some p ∧
    (∀ b : Bool, served.partPlaces p 0x3FFFFFFF 1 b = some [⟨.hbm, 0x3FFFFFFF⟩]) ∧ served.memWf = true ∧
    served.eccWrite ([⟨.hbm, 0x3FFFFFFF⟩].zip [7]) = .ok ∧ served.eccRead [⟨.hbm, 0x3FFFFFFF⟩] = .ok ∧
    ({ served with lost := [sectorOf ⟨.hbm, 0x3FFFFFFF⟩] }).eccRead [⟨.hbm, 0x3FFFFFFF⟩] ≠ .ok ∧
    served.partPlaces p 0x3FFFFFF8 8 true = some (placesFrom ⟨.hbm, 0x3FFFFFF8⟩ 8) ∧ 0x3FFFFFF8 % 8 = 0 ∧
    (placesFrom ⟨.hbm, 0x3FFFFFF8⟩ 8).Nodup ∧ served.part 9 = none :=
  ⟨(served.part 0).getD ⟨0, [], [], 0, 0, 0, 0⟩, by decide +kernel⟩

theorem test_host_fetch_add :
    let t := out (exec (.hostCxlMemAccess (.atomic .fetchAdd 0 0x3FFFFFF8 8 0xFF 0)) (served.writeCells (cellsAt ⟨.hbm, 0x3FFFFFF8⟩ [1])))
    t.readNat ⟨.hbm, 0x3FFFFFF8⟩ 8 = 0x100 ∧ t.fw.reply = ⟨[1, 0, 0, 0, 0, 0, 0, 0], false⟩ := by decide +kernel

theorem test_bar0_reads : (out (exec (.hostCxlMemAccess (.bar0 8)) (serving id))).fw.reply = ⟨[0x61, 0, 0, 0, 0, 0, 0, 0], false⟩ ∧
    (out (exec (.hostCxlMemAccess (.bar0 0x2018)) (serving id))).fw.reply = ⟨[0, 0, 0x40, 0x84, 0, 0, 0, 0], false⟩ ∧
    (out (exec (.hostCxlMemAccess (.bar0 0xFF8)) (serving id))).fw.reply = ⟨List.replicate 8 0, false⟩ := by decide +kernel

/-- An interface whose vector is not masked. -/
def unmasked : State := serving (fun f => { f with msixTable := f.msixTable.set 0 ⟨0, 0, false, false⟩ })

theorem witness_signal : (serving id).fw.msixTable[(0 : Fin 65)].masked = true ∧ unmasked.fw.msixTable[(0 : Fin 65)].masked = false ∧
    (serving id).memWf = true ∧ [(7 : Word)].length ≤ 6 := by decide +kernel

theorem test_event_record :
    let t := (serving id).answer 1 ⟨0x13, 2, 1, 5, 0, 0, 0, 0, 0, 0, true⟩ 0x0205 3 [7]
    t.readNat ⟨.host, 0x2000⟩ 8 = 5 * 2 ^ 16 + 1 * 2 ^ 32 + 2 * 2 ^ 40 + 0x0205 * 2 ^ 48 ∧ t.readNat ⟨.host, 0x2008⟩ 8 = 3 * 2 ^ 32 ∧
    t.readNat ⟨.host, 0x203F⟩ 1 = 0x80 ∧ t.readNat ⟨.host, 0x2040⟩ 8 = 7 := by decide +kernel

theorem witness_answer : (serving id).fw.ifaces[(1 : Fin 64)].notify = (serving id).fw.ifaces[(1 : Fin 64)].cons ∧
    (∀ a : Fin 128, ∀ b : Fin 8, 0x2000 + a.val ≠ 0x40 + b.val) ∧ 0x2000 % 64 = 0 ∧
    (serving id).eccRead (placesFrom ⟨.host, 0x40⟩ 8) = .ok ∧
    ({ serving id with lost := [⟨.host, 0x40⟩] }).eccRead (placesFrom ⟨.host, 0x40⟩ 8) ≠ .ok ∧
    (∀ a : Fin 128, ∀ b : Fin 8, sectorOf ⟨.host, 0x2000 + a.val⟩ ≠ sectorOf ⟨.host, 0x40 + b.val⟩) := by decide +kernel

/-- A poisoned slot is written whole, and is good again; a poisoned counter stays as it is. -/
theorem test_poisoned_ring :
    let t := ({ serving id with lost := [⟨.host, 0x40⟩, ⟨.host, 0x2000⟩] }).answer 1 ⟨0x13, 0, 0, 5, 0, 0, 0, 0, 0, 0, true⟩ 0 0 []
    t.lost = [⟨.host, 0x40⟩] ∧ t.readNat ⟨.host, 0x40⟩ 8 = 0 ∧ t.readNat ⟨.host, 0x203F⟩ 1 = 0x80 := by decide +kernel

theorem test_answer_counts_down : ((serving id).answer 1 ⟨0x13, 0, 0, 5, 0, 0, 0, 0, 0, 0, true⟩ 0 0 []).readNat ⟨.host, 0x40⟩ 8 = 2 ^ 64 - 1 := by
  decide +kernel

/-! Commands. -/

def packet (op : Nat) (a0 a1 a2 a3 a4 : Word) : Packet := ⟨op, 0, 0, 5, a0, a1, a2, a3, a4, 0, true⟩

/-- A `part.destroy` of partition 0 waits: a later command of that partition is put off. -/
def destroying : State := serving (fun f => { f with pending := [⟨0, packet 2 0 0 0 0 0, 0⟩] })

/-- A checkpoint of the whole device waits: a later command of a partition is put off until it has acted. -/
def deferring : State := serving (fun f => { f with pending := [⟨0, packet 0x0C 0 0 0 0 0, 0⟩] })

theorem witness_put_off : (serving id).fw.pending.any ((serving id).comesAfter 1 (packet 3 0x1000 1 4096 0 0)) = false ∧
    deferring.fw.pending.any (deferring.comesAfter 1 (packet 4 0 0 0 0 0)) = true ∧ destroying.partGoing 0 = true ∧
    (serving id).partGoing 0 = false ∧ (serving id).ctxGoing 0 = false := by decide +kernel

theorem witness_part_create : partArgsOk (packet 1 2 0 1 0 4) = true ∧ (serving id).partTaken (packet 1 2 0 1 0 4) = false ∧
    (serving id).freePart = some 1 ∧ partArgsOk (packet 1 2 0 1 0 1) = false ∧ (serving id).partTaken (packet 1 1 0 1 0 4) = true ∧
    (serving id).part 1 = none := by decide +kernel

theorem witness_ctx_create : ∃ x, (serving id).part 0 = some x ∧ x.ifaces.toNat.testBit (1 : Fin 64).val = true ∧
    ctxArgsOk x (packet 3 0x1000 1 4096 0 0) = true ∧ ctxArgsOk x (packet 3 0x1000 1 4095 0 0) = false ∧ (serving id).freeCtx = some 1 ∧
    (serving id).ctx 1 = none ∧ ((serving id).ctx 0).map (·.part) = some x.num :=
  ⟨((serving id).part 0).getD ⟨0, [], [], 0, 0, 0, 0⟩, by decide +kernel⟩

/-- An object without code or data but one code word, at 0 of host memory; the packet of a crew of one core at 0 of the context. -/
def objectBytes : List Byte := bytesOfNat 4 0x4B58514F ++ bytesOfNat 4 1 ++ bytesOfNat 8 1 ++ bytesOfNat 4 0 ++ bytesOfNat 44 0 ++
  packetBytes 0 1 ++ bytesOfNat 4 0x12345678

def hosted : State := (serving id).writeCells (cellsAt ⟨.host, 0⟩ objectBytes ++ cellsAt ⟨.hbm, 0x200000⟩ (packetBytes 0 1))

theorem witness_programs : hosted.hostRead 1 0 196 = some objectBytes ∧ objectOk objectBytes = true ∧ objectOk (objectBytes.take 195) = false ∧
    (hosted.ctxPlaces 0 none 0x1000 4 true).toOption = some (placesFrom ⟨.hbm, 0x201000⟩ 4) ∧
    (hosted.ctxPlaces 0 none 0x2000 0 true).toOption = some [] ∧
    (hosted.ctxPlaces 0 none 0x3000 128 true).toOption = some (placesFrom ⟨.hbm, 0x203000⟩ 128) ∧
    (hosted.ctxRead 0 0 128).toOption = some (packetBytes 0 1) ∧ launchRefused (packetBytes 0 1) 0 4 = none ∧
    launchRefused (packetBytes 0 5) 0 4 = some 6 ∧ (hosted.ctx 0).map (·.halt) = some none := by decide +kernel

/-- A harness record of two rows at 0x10000 with one stage behind it, at 0 of the context. -/
def recordBytes : List Byte := bytesOfNat 8 0x10000 ++ bytesOfNat 4 2 ++ bytesOfNat 4 0 ++ bytesOfNat 8 32 ++ bytesOfNat 8 1 ++ bytesOfNat 32 0

def recorded : State := (serving id).writeCells (cellsAt ⟨.hbm, 0x200000⟩ (recordBytes ++ packetBytes 1 1))

theorem witness_harness : (recorded.ctx 0).map (·.harness) = some none ∧ (recorded.ctxRead 0 0 64).toOption = some recordBytes ∧
    recordOk recordBytes = true ∧ recordOk (packetBytes 1 1) = false ∧
    (recorded.ctxRead 0 0 192).toOption = some (recordBytes ++ packetBytes 1 1) ∧ stagesOk (recordBytes ++ packetBytes 1 1) 4 = none ∧
    stagesOk (recordBytes ++ packetBytes 1 1) 0 = some 6 ∧
    recorded.tableGaps 0 0x10000 256 = [] := by decide +kernel

theorem test_harness_in_force : ((out (exec (.harness 1 (packet 7 0 0 0 0 0)) recorded)).ctx 0).map (fun c => c.harness.map (fun h =>
    (h.rows, h.stages, h.final, h.table))) = some (some (2, [packetOfCrew 1], 32, 0x10000)) := by decide +kernel

theorem witness_coll_bind : (∃ k ∈ (serving id).crews, k.num = 0 ∧ k.ctx = 0 ∧ k.state ≠ .ended) ∧ (∀ k ∈ (serving id).crews, k.num ≠ 9) := by
  decide +kernel

theorem witness_harness_end :
    let s := { serving id with crews := [], ctxs := (serving id).ctxs.map (fun (c : Context) => { c with harness := some (harnessOf []) }) }
    s.crews = [] ∧ (s.ctx 0).map (·.harness) = some (some (harnessOf [])) ∧ (harnessOf []).ended = false := by decide +kernel

/-- Core 0 is held at a translation fault. -/
def heldFault : State := (serving id).updSeq (fun q => { q with hold := some ⟨0⟩ })

theorem witness_faults : (heldFault.heldCore 0 (packet 9 0 0 0 0 0)).toOption = some 0 ∧ (heldFault.heldCore 0 (packet 9 0 1 0 0 0)).toOption = none ∧
    (serving id).ctxCores 0 = [0] ∧ (65536 : Word).toNat % 65536 = 0 ∧ (0 : Word).toNat ≤ 2 := by decide +kernel

theorem witness_debug : ((serving id).ctx 0).map (fun c => (c.debug, c.halt)) = some (true, none) ∧
    (let s := { serving id with ctxs := (serving id).ctxs.map (fun (c : Context) => { c with halt := some ⟨0, 5, 0, true, true, 7⟩ }) }
     (s.ctx 0).map (·.halt) = some (some ⟨0, 5, 0, true, true, 7⟩) ∧ (∀ n ∈ s.ctxCores 0, (s.coreOf n).heldBlocks = [] ∧ (s.coreOf n).reports = [] ∧
       (s.coreOf n).vec.lostAt = none ∧ (s.coreOf n).vec.struck = none)) := by decide +kernel

/-- Bytes that a command writes into part of a poisoned sector of host memory. -/
theorem witness_host_lost : ({ serving id with lost := [⟨.host, 0x100⟩] }).eccWrite (cellsAt ((serving id).hostPlace 1 0x100) [1, 2]) ≠ .ok ∧
    (serving id).eccWrite (cellsAt ((serving id).hostPlace 1 0x100) [1, 2]) = .ok := by decide +kernel

theorem witness_identity : hosted.hostRead 0 0x20 32 = some ((objectBytes.drop 0x20).take 32) ∧
    ({ hosted with lost := [⟨.host, 0⟩] }).hostRead 0 0x20 32 = none ∧ (serving id).group.state = .out ∧ (serving id).group.ports ≠ 0 ∧
    (serving id).fw.timeset = false ∧ (serving id).fw.timeWait = none ∧
    (BitVec.toNat (0xBDFFFFFFFFF : Word)) ≥ 4096 + 68 * (serving id).coveredCount 0 0 ∧ (grouped id).group.state = .member ∧
    (∀ k ∈ savedCrew.crews, k.state ≠ .running) := by decide +kernel

/-- A partition of one interface and no extents, which interface 1 may use, and its keys. -/
def ownPart : Partition := ⟨7, [], [], 0, 1, 2, 3⟩

/-- A header of it, and one of the device for no partition. -/
def partHeader : List Byte := signedHeader 0 ownPart.keys.wrapped []

theorem ownPart_keys : ownPart.keys.wrapped.length = 112 ∧ unwrapKeys ownPart.keys.wrapped = some ownPart.keys :=
  Laws.wrapped_keys _ (Laws.fill_length _ _) (Laws.fill_length _ _)

theorem partHeader_reads : imageIsOurs partHeader [] = true ∧ headerSectors partHeader = 0 ∧
    headerKeys partHeader [ownPart] = some [(ownPart, ownPart.keys)] := by
  obtain ⟨hw, hu⟩ := ownPart_keys
  obtain ⟨h1, h2, h3⟩ := signedHeader_reads 0 ownPart.keys.wrapped [] (by omega)
  refine ⟨h1, h2, ?_⟩
  rw [hw] at h3
  simp [headerKeys, partHeader, h3, hu]

/-- The device with that partition, an image of it and, if it is full, 64 other contexts; the image's header stands in host memory. -/
def partImage : SaveImage := ⟨partHeader, [ownPart], (serving id).ctxs.map (fun c => { c with part := 7 }), []⟩
def beforeRestore (full : Bool) : State :=
  { serving id with
    parts := ownPart :: (serving id).parts
    ctxs := if full then (List.range 64).flatMap (fun n => (serving id).ctxs.map (fun c => { c with num := n })) else (serving id).ctxs.map (fun c => { c with num := 9 })
    fw := { (serving id).fw with images := [partImage] } }
def restoring (full : Bool) : State := (beforeRestore full).writeCells (cellsAt ⟨.host, 0x10000⟩ partHeader)

theorem beforeRestore_place (full : Bool) : (beforeRestore full).hostPlace 1 0x10000 = ⟨.host, 0x10000⟩ := by
  cases full <;> decide +kernel

theorem beforeRestore_wf (full : Bool) : (beforeRestore full).memWf = true := by cases full <;> decide +kernel

theorem beforeRestore_numbers (full : Bool) : (beforeRestore full).numbersTaken 1 7 partImage = full := by
  cases full <;> decide +kernel

theorem beforeRestore_rest (full : Bool) : (beforeRestore full).fw.stage = 6 ∧ (beforeRestore full).fw.pending = [] ∧
    (beforeRestore full).part 7 = some ownPart ∧ (beforeRestore full).partGoing 7 = false ∧
    (beforeRestore full).coveredCount 1 7 = 0 ∧ (beforeRestore full).samePartitions 1 7 partImage = true := by
  cases full <;> exact ⟨rfl, rfl, rfl, rfl, rfl, rfl⟩

theorem witness_restore_part (full : Bool) :
    (restoring full).fw.stage = 6 ∧ (restoring full).fw.pending = [] ∧ (restoring full).part 7 = some ownPart ∧
    ownPart.ifaces.toNat.testBit 1 = true ∧ (restoring full).partGoing 7 = false ∧
    (restoring full).readImage 1 0x10000 = some (partHeader, []) ∧ partHeader.length = 4096 ∧
    (restoring full).fw.images.reverse.find? (fun m => decide (m.header = partHeader)) = some partImage ∧
    headerSectors partHeader = (restoring full).coveredCount 1 7 ∧ (restoring full).samePartitions 1 7 partImage = true ∧
    (restoring full).numbersTaken 1 7 partImage = full := by
  have hlen : partHeader.length = 4096 := signedHeader_length _ _ _
  obtain ⟨a, b, c, e⟩ := State.writeCells_frame (cellsAt ⟨.host, 0x10000⟩ partHeader) (beforeRestore full)
  have e : restoring full = { beforeRestore full with hbm := a, window := b, host := c } := e
  obtain ⟨h1, h2, h3, -, h5, h6, h7, h8, h9⟩ := memories_apart (beforeRestore full) a b c 1 7 partImage
  obtain ⟨-, -, -, h4, -⟩ := memories_apart (beforeRestore full) a b c 1 0x10000 partImage
  rw [← e] at h1 h2 h3 h4 h5 h6 h7 h8 h9
  obtain ⟨b1, b2, b3, b4, b5, b6⟩ := beforeRestore_rest full
  have hh := hostRead_written (s := beforeRestore full) (t := restoring full) (q := 1) (a := 0x10000) (l := partHeader)
    (p := ⟨.host, 0x10000⟩) (beforeRestore_wf full) rfl (h4.trans (beforeRestore_place full)) h1 h2
  rw [hlen] at hh
  refine ⟨by rw [h3, b1], by rw [h3, b2], h5.trans b3, by decide, h6.trans b4, ?_, hlen, ?_, partHeader_reads.2.1.trans (h7.trans b5).symm,
    h8.trans b6, h9.trans (beforeRestore_numbers full)⟩
  · exact readImage_of hh partHeader_reads.2.1 (hostRead_none _ _ _ h1 h2)
  · rw [h3]; simp [beforeRestore, partImage]

/-- A device without partitions whose host memory holds an image of it. -/
def emptyDevice : State := { serving id with parts := [], ctxs := [], crews := [] }
def deviceBody : List Byte := emptyDevice.readBytes (placesFrom ⟨.host, 0x1000⟩ (68 * deviceSectors))
def deviceHeader : List Byte := signedHeader deviceSectors [] deviceBody
def deviceImage (known : Bool) : List SaveImage := if known then [⟨deviceHeader, [], [], []⟩] else []
def beforeReturn (known : Bool) (l : List Partition) : State :=
  { emptyDevice with parts := l, fw := { emptyDevice.fw with images := deviceImage known } }
def returning (known : Bool) (l : List Partition) : State := (beforeReturn known l).writeCells (cellsAt ⟨.host, 0⟩ deviceHeader)

theorem emptyDevice_wf : emptyDevice.memWf = true := by decide +kernel

theorem emptyDevice_place (x : Nat) : emptyDevice.hostPlace 0 x = ⟨.host, x⟩ := by
  have : emptyDevice.fw.ifaces[(0 : Fin 64)].pasid = 0 := by decide +kernel
  rw [State.hostPlace, Iface.host, this, Nat.zero_mul, Nat.add_zero]

theorem deviceBody_length : deviceBody.length = 68 * deviceSectors := by simp [deviceBody, State.readBytes, placesFrom]

/-- The header lies before the body. -/
theorem header_apart (q : PAddr) (hq : q ∈ placesFrom ⟨.host, 0x1000⟩ (68 * deviceSectors)) :
    ∀ d ∈ cellsAt ⟨.host, 0⟩ deviceHeader, q ≠ d.1 := by
  intro d hd h
  obtain ⟨i, -, rfl⟩ := List.mem_map.1 hq
  obtain ⟨j, hj, h'⟩ := List.mem_map.1 (List.of_mem_zip (a := d.1) (b := d.2) hd).1
  have hj := List.mem_range.1 hj
  have hl : deviceHeader.length = 4096 := signedHeader_length _ _ _
  rw [← h'] at h
  simp only [PAddr.plus, PAddr.mk.injEq, true_and] at h
  omega

theorem returning_frame (known : Bool) (l : List Partition) :
    ∃ a b c : Memory, returning known l = { beforeReturn known l with hbm := a, window := b, host := c } :=
  State.writeCells_frame _ _

theorem beforeReturn_wf (known : Bool) (l : List Partition) : (beforeReturn known l).memWf = true :=
  (images_apart emptyDevice l (deviceImage known) 0 0 []).2.2.trans emptyDevice_wf

theorem returning_body (known : Bool) (l : List Partition) :
    (returning known l).readBytes (placesFrom ⟨.host, 0x1000⟩ (68 * deviceSectors)) = deviceBody :=
  (readBytes_apart (beforeReturn_wf known l) header_apart).trans (images_apart emptyDevice l (deviceImage known) 0 0 _).1

/-- Each clause about a restore on interface A: an image that this device knows and whose partitions it has; one that it does not know;
one of other partitions. -/
theorem witness_restore (known : Bool) (l : List Partition) :
    (returning known l).readImage 0 0 = some (deviceHeader, deviceBody) ∧
    deviceHeader.length + deviceBody.length ≤ (2 ^ 40 - 1 : Nat) ∧ imageIsOurs deviceHeader deviceBody = true ∧
    headerSectors deviceHeader = (returning known l).coveredCount 0 0 ∧ (returning known l).fw.images = deviceImage known ∧
    (deviceImage true).reverse.find? (fun m => decide (m.header = deviceHeader)) = some ⟨deviceHeader, [], [], []⟩ ∧
    (returning known l).samePartitions 0 0 ⟨deviceHeader, [], [], []⟩ = l.isEmpty ∧
    headerKeys deviceHeader [] = some [] ∧ headerKeys deviceHeader (List.replicate 38 ownPart) = none := by
  have hlen : deviceHeader.length = 4096 := signedHeader_length _ _ _
  obtain ⟨r1, r2, -⟩ := signedHeader_reads deviceSectors [] deviceBody (Nat.zero_le _)
  have r2 : headerSectors deviceHeader = deviceSectors := r2.trans (by decide)
  obtain ⟨a, b, c, e⟩ := returning_frame known l
  obtain ⟨h1, h2, h3, -, -, -, h7, h8, -⟩ := memories_apart (beforeReturn known l) a b c 0 0 ⟨deviceHeader, [], [], []⟩
  have h4 : ∀ x, (returning known l).hostPlace 0 x = ⟨.host, x⟩ := fun x => by
    rw [e, (memories_apart (beforeReturn known l) a b c 0 x ⟨[], [], [], []⟩).2.2.2.1]
    exact (images_apart emptyDevice l (deviceImage known) 0 x []).2.1.trans (emptyDevice_place x)
  rw [← e] at h1 h2 h3 h7 h8
  have hh := hostRead_written (s := beforeReturn known l) (t := returning known l) (q := 0) (a := 0) (l := deviceHeader)
    (p := ⟨.host, 0⟩) (beforeReturn_wf known l) rfl (h4 0) h1 h2
  rw [hlen] at hh
  have hbody : (returning known l).hostRead 0 (0 + 4096) (68 * deviceSectors) = some deviceBody := by
    rw [State.hostRead, if_pos (eccRead_good _ _ h1 h2), h4]
    exact congrArg some (returning_body known l)
  refine ⟨?_, ?_, r1, r2.trans (h7.trans rfl).symm, by rw [h3]; rfl, by simp [deviceImage], h8.trans (by cases l <;> rfl), rfl,
    headerKeys_none _ hlen _ (by simp)⟩
  · exact readImage_of hh r2 hbody
  · rw [hlen, deviceBody_length]; decide

theorem eccRead_first_lost (s : State) (q : PAddr) (n : Nat) (hl : s.lost = [sectorOf q]) (hb : s.badTag = []) :
    s.eccRead (placesFrom q (n + 1)) = .lost := by
  simp [State.eccRead, hl, hb, placesFrom, List.range_succ_eq_map, PAddr.plus]

theorem hostRead_first_lost (s : State) (q : Fin 64) (n : Nat) (hl : s.lost = [sectorOf (s.hostPlace q 0)]) (hb : s.badTag = []) :
    s.hostRead q 0 (n + 1) = none := if_neg (by rw [eccRead_first_lost s _ n hl hb]; decide)

/-- The first sector of interface A's host memory is lost. -/
def poisoned : State := { serving id with lost := [⟨.host, 0⟩] }

/-- Whatever the length of the member table, host memory without a lost sector gives it; one whose first sector is lost does not. -/
theorem witness_group_join : (∀ n : Nat, ∃ l, (serving id).hostRead 0 0 n = some l) ∧ (∀ n : Nat, poisoned.hostRead 0 0 (n + 1) = none) ∧
    (serving id).group.state = .out ∧ (serving id).group.ports ≠ 0 :=
  ⟨fun n => ⟨_, if_pos (eccRead_good _ _ rfl rfl)⟩, fun n => hostRead_first_lost _ _ n (by decide +kernel) rfl, by decide +kernel⟩

/-! ### The ciphers, on the examples of their standards (FIPS 180-4 and FIPS 197) -/

theorem test_sha256_abc : (sha256 [0x61, 0x62, 0x63]).take 8 = [0xBA, 0x78, 0x16, 0xBF, 0x8F, 0x01, 0xCF, 0xEA] := by decide +kernel

theorem test_aes256_block : aesEncrypt (List.range 32) ((List.range 16).map (· * 17)) =
    [0x8E, 0xA2, 0xB7, 0xCA, 0x51, 0x67, 0x45, 0xBF, 0xEA, 0xFC, 0x49, 0x90, 0x4B, 0x49, 0x60, 0x89] := by decide +kernel

/-! ### Steps -/

theorem witness_step :
    let s := State.reset.withFetchWord 32 0x0506380F
    let s0 : State := { s with sched := [] }
    let past : State := { s0.advance (s0.turnCycles ⟨1, 0, [], .stream 0 .seq⟩) 0 [] with phase := s0.turnPhase ⟨1, 0, [], .stream 0 .seq⟩ }
    s.sched = [⟨1, 0, [], .stream 0 .seq⟩] ∧ coreExists 0 = true ∧ (past.focus 0).mayIssue .seq = true ∧
    (past.focus 0).codeEcc (past.focus 0).core .seq = .ok ∧
    (decode .seq (past.focus 0).core.res.encv ((past.focus 0).wordAt (past.focus 0).core .seq ((past.focus 0).core.pcOf .seq))).toOption =
      some (.mulh 8 6 7) ∧
    (State.reset.focus 0).mayIssue .seq = false ∧ Instr.stream (.waitSatisfied 0 .seq) = none ∧ s.schedulable = true ∧ s.memWf = true ∧
    ({ s with sched := [⟨1, 0, [], .stream 96 .seq⟩] } : State).schedulable = false := by decide +kernel

/-- The line that holds the word is lost: the word is not read. -/
theorem witness_fetch_lost :
    let s := State.reset.withFetchWord 32 0x0506380F
    let p := (s.core.codePlace .seq (s.core.pcOf .seq)).getD ⟨.host, 0⟩
    ({ s with lost := [sectorOf p] }).codeEcc s.core .seq ≠ .ok ∧ s.codeEcc s.core .seq = .ok := by decide +kernel

/-- The word 0x2461C97C is `movk g3, 1, 0xC97C`. -/
theorem test_step_runs : (out (step (State.reset.withFetchWord 32 0x2461C97C))).reg 3 = 0xC97C0000 ∧
    (out (step (State.reset.withFetchWord 32 0x2461C97C))).core.seq.pc = 4 ∧
    (out (step (State.reset.withFetchWord 32 0x2461C97C))).memWf = true := by decide +kernel

theorem witness_translation_fault : paged.xlAccess 0x200000 8 false = .fault ⟨1, 1, 0⟩ 0x200000 ∧
    (holding paged [(1, 0x200000)]).seqReady [1] 0 ∧ (holding paged [(1, 0x200000)]).seqReady [2, 1] 0 ∧
    paged.windowPlace 0 (some 0) (ownVa 0x3C0000) = some ⟨.window, 0x3C0000⟩ ∧ paged.windowPlace 0 (some 0) (ownVa 16384) = none := by
  unfold State.seqReady; decide +kernel

end Sys2Proof.Tests

/-! ### Empty source lines, translation faults of every access, writes that must complete, stages that are owed -/
namespace Sys2Proof.Tests

/-- A state whose line n is empty. -/
def drained (n : Nat) (s : State) : State := s.upd (fun c => c.setFull n false)

/-- The lines of a vector word's sources that its flags give. -/
def sourceLines (srcs : List VSrc) (w : Bool) : List Nat := (srcs.filter (fun x => x.w == w)).flatMap (fun x => x.at_.all)

/-- A vector word of these sources and destinations meets line n empty: the first empty one of the sources with W = 1; or, those being full,
of the sources with W = 0. -/
def meetsEmpty (s : State) (srcs : List VSrc) (dsts : List Placed) (n : Nat) (w : Bool) : Bool :=
  let v := s.core.vec
  let full := s.core.fullAs v.marks
  dsts.all (fun p => p.all.all (fun m => v.mayWrite m && !decide (m ∈ v.landing))) &&
  srcs.all (fun x => x.at_.all.all (fun m => !decide (m ∈ v.landing))) &&
  (w || (sourceLines srcs true).all full) && decide ((sourceLines srcs w).find? (fun m => !full m) = some n)

theorem meetsEmpty_first {s : State} {srcs : List VSrc} {dsts : List Placed} {n : Nat} {w : Bool} (h : meetsEmpty s srcs dsts n w = true) :
    (∃ p q : List Nat, sourceLines srcs w = p ++ n :: q ∧ (∀ x ∈ p, s.core.fullAs s.core.vec.marks x = true) ∧
      s.core.fullAs s.core.vec.marks n = false) ∧ (w = false → ∀ x ∈ sourceLines srcs true, s.core.fullAs s.core.vec.marks x = true) := by
  simp only [meetsEmpty, Bool.and_eq_true, Bool.or_eq_true, decide_eq_true_eq] at h
  obtain ⟨⟨-, hw⟩, hf⟩ := h
  obtain ⟨hn, p, q, e, hp⟩ := List.find?_eq_some_iff_append.1 hf
  refine ⟨⟨p, q, e, fun x hx => by simpa using hp x hx, by simpa using hn⟩, fun h0 x hx => ?_⟩
  exact List.all_eq_true.1 (hw.resolve_left (by simp [h0])) x hx

/-- Places of n lines from line l, of view 1. -/
def at1 (l n : Nat) : Placed := ⟨l, n, false, false⟩

/-- Two sources, with each W bit; the second wait is that of a word behind an access under way. -/
theorem witness_empty_lanes :
    meetsEmpty (drained 22 wide) [⟨at1 16 4, false⟩, ⟨⟨20, 4, true, false⟩, true⟩] [⟨128, 4, false, true⟩] 22 true = true ∧
    meetsEmpty (drained 19 wide) [⟨at1 16 4, false⟩, ⟨⟨20, 4, true, false⟩, true⟩] [⟨128, 4, false, true⟩] 19 false = true ∧
    (drained 19 wide).core.vec.vp = [] ∧ (landing (.store [])).core.vec.vp ≠ [] ∧
    meetsEmpty (drained 16 (landing (.store []))) [⟨at1 16 1, false⟩] [⟨128, 1, false, true⟩] 16 false = true ∧
    (drained 19 wide).vecPlaces [(t3 0, 4), (t1 0, 4), (t2 4, 4)] = some [⟨128, 4, false, true⟩, at1 16 4, ⟨20, 4, true, false⟩] ∧
    (drained 19 wide).core.seq.stopPending .vec = false := by decide +kernel

/-- The multiply-add reads its destination first. -/
theorem witness_empty_fma : ∀ t ∈ [EType.i8, .f32],
    (drained 16 (narrow t)).vecPlaces [(t1 0, 1), (t1 0, 1), (t1 1, 1), (t1 2, 1)] = some [at1 16 1, at1 16 1, at1 17 1, at1 18 1] ∧
    meetsEmpty (drained 16 (narrow t)) [⟨at1 16 1, true⟩, ⟨at1 17 1, false⟩, ⟨at1 18 1, false⟩] [at1 16 1] 16 true = true ∧
    meetsEmpty (drained 18 (narrow t)) [⟨at1 16 1, true⟩, ⟨at1 17 1, false⟩, ⟨at1 18 1, false⟩] [at1 16 1] 18 false = true := by decide +kernel

/-- Words of one source, comparisons, reductions and conversions, of a signed, a 32-bit and a float type. -/
theorem witness_empty_one : ∀ t ∈ [EType.i8, .i32, .f32], ∀ w : Bool,
    (drained 16 (narrow t)).vecPlaces [(t3 0, 1), (t1 0, 1)] = some [⟨128, 1, false, true⟩, at1 16 1] ∧
    meetsEmpty (drained 16 (narrow t)) [⟨at1 16 1, w⟩] [⟨128, 1, false, true⟩] 16 w = true ∧
    (drained 17 (narrow t)).vecPlaces [(t1 0, 1), (t1 1, 1)] = some [at1 16 1, at1 17 1] ∧
    meetsEmpty (drained 17 (narrow t)) [⟨at1 16 1, true⟩, ⟨at1 17 1, w⟩] [] 17 w = true ∧
    (drained 18 (narrow t)).vecPlaces [(t3 0, 1), (t1 0, 4)] = some [⟨128, 1, false, true⟩, at1 16 4] ∧
    meetsEmpty (drained 18 (narrow t)) [⟨at1 16 4, w⟩] [⟨128, 1, false, true⟩] 18 w = true := by decide +kernel

theorem witness_empty_triples : ∀ w : Bool,
    (drained 18 (narrow .i32)).core.placeMany (narrow .i32).core.vec.eng.k (t1 0) 3 1 [0] = some [at1 16 1, at1 17 1, at1 18 1] ∧
    (drained 18 (narrow .i32)).core.placeMany (narrow .i32).core.vec.eng.k (t1 16) 3 1 [0] = some [at1 32 1, at1 33 1, at1 34 1] ∧
    meetsEmpty (drained 18 (narrow .i32)) ([at1 16 1, at1 17 1, at1 18 1].map (fun p => ⟨p, w⟩)) [at1 32 1, at1 33 1, at1 34 1] 18 w = true ∧
    (drained 31 (narrow .i32)).core.placeMany (narrow .i32).core.vec.eng.k (t1 0) 16 1 [0] = some ((List.range 16).map (fun i => at1 (16 + i) 1)) ∧
    (drained 31 (narrow .i32)).core.placeMany (narrow .i32).core.vec.eng.k (t3 0) 16 1 [0] =
      some ((List.range 16).map (fun i => ⟨128 + i, 1, false, true⟩)) ∧
    meetsEmpty (drained 31 (narrow .i32)) (((List.range 16).map (fun i => at1 (16 + i) 1)).map (fun p => ⟨p, w⟩))
      ((List.range 16).map (fun i => ⟨128 + i, 1, false, true⟩)) 31 w = true := by decide +kernel

theorem witness_empty_access : ∀ w : Bool,
    let s := drained 16 (bound8 (narrow .i8))
    s.core.seq.h[(1 : Hnd)] = some (bindingAt .window) ∧ (bindingAt .window).usable = true ∧ (bindingAt .window).kind = .window ∧
    (bindingAt .window).writable = true ∧ s.core.holdsNew .vp = false ∧ s.vecPlaces [(t1 0, 1)] = some [at1 16 1] ∧
    meetsEmpty s [⟨at1 16 1, w⟩] [] 16 w = true ∧ 61 + EType.i8.width * 3 ≤ (bindingAt .window).len ∧
    s.vecPlaces [(t1 1, 1), (t1 0, 1)] = some [at1 17 1, at1 16 1] ∧ meetsEmpty s [⟨at1 16 1, w⟩] [at1 17 1] 16 w = true ∧
    meetsEmpty s [⟨at1 17 1, true⟩, ⟨at1 16 1, w⟩] [] 16 w = true := by decide +kernel

/-- A coder word, whose lanes have W = 1. -/
theorem witness_empty_coder :
    let s := fun n => drained n (bound8 (narrow .i32))
    (s 45).core.placeMany (s 45).core.vec.eng.k ⟨5, .lit 0⟩ 6 1 [2] = some coderPlaces ∧ (s 45).core.vec.vp = [] ∧
    (s 45).core.holdsNew .vp = false ∧ (s 45).core.seq.h[(1 : Hnd)] = some (bindingAt .window) ∧
    (s 45).core.place (s 45).core.vec.eng.k (t1 1) 1 [0] = some (at1 17 1) ∧
    (s 45).core.placeMany (s 45).core.vec.eng.k (t1 1) 1 1 [0] = some [at1 17 1] ∧
    (s 31).core.placeMany (s 31).core.vec.eng.k (t1 0) 1 1 [0] = some [at1 16 1] ∧
    (s 31).core.placeMany (s 31).core.vec.eng.k (t1 0) 16 1 [0] = some ((List.range 16).map (fun i => at1 (16 + i) 1)) ∧
    meetsEmpty (s 45) (coderPlaces.map (fun p => ⟨p, true⟩)) (coderPlaces ++ [at1 17 1]) 45 true = true ∧
    (∀ w : Bool, meetsEmpty (s 16) (coderPlaces.map (fun p => ⟨p, true⟩) ++ [⟨at1 16 1, w⟩]) (coderPlaces ++ [at1 17 1]) 16 w = true ∧
      meetsEmpty (s 31) (coderPlaces.map (fun p => ⟨p, true⟩) ++ ((List.range 16).map (fun i => at1 (16 + i) 1)).map (fun p => ⟨p, w⟩))
        (coderPlaces ++ [at1 17 1]) 31 w = true ∧
      meetsEmpty (s 17) (coderPlaces.map (fun p => ⟨p, true⟩) ++ ([⟨at1 16 1, w⟩] ++ [⟨at1 17 1, w⟩])) coderPlaces 17 w = true) := by
  decide +kernel

theorem test_empty_waits_then_stops : (out (exec (.vAbs (t3 0) (t1 0) true) (drained 16 (narrow .i8)))).core.vec.eng.st = .wait 1 16 ∧
    (out (exec (.vAbs (t3 0) (t1 0) false) (drained 16 (narrow .i8)))).core.vec.eng.code = 0x0303 := by decide +kernel

/-- A matrix word meets line n empty. -/
def matMeets (s : State) (lines : List Nat) (n : Nat) : Bool :=
  lines.all (fun x => !decide (x ∈ s.core.mat.heldLines)) && decide (lines.find? (fun x => !(s.core.line x).full) = some n)

theorem matMeets_first {s : State} {lines : List Nat} {n : Nat} (h : matMeets s lines n = true) : (∀ x ∈ lines, x ∉ s.core.mat.heldLines) ∧
    ∃ l l' : List Nat, lines = l ++ n :: l' ∧ (∀ x ∈ l, (s.core.line x).full = true) ∧ (s.core.line n).full = false := by
  simp only [matMeets, Bool.and_eq_true, decide_eq_true_eq, List.all_eq_true] at h
  obtain ⟨hn, p, q, e, hp⟩ := List.find?_eq_some_iff_append.1 h.2
  exact ⟨fun x hx => by simpa using h.1 x hx, p, q, e, fun x hx => by simpa using hp x hx, by simpa using hn⟩

theorem witness_empty_matrix :
    (matTile []).core.mat.fresh = true ∧ (matTile []).matPlace ⟨4, .lit 0⟩ 256 0 = some ⟨256, 256, false, false⟩ ∧
    matMeets (matTile []) (segLines twoRows 256 256) 256 = true ∧
    (drained 17 (matTile [])).matPlace (t1 1) 1 0 = some (at1 17 1) ∧ matMeets (drained 17 (matTile [])) [17] 17 = true ∧
    (drained 17 (matTile [])).matPlace (t1 0) 1 0 = some (at1 16 1) ∧ matMeets (drained 17 (matTile [])) [16, 17] 17 = true ∧
    (matTile [reduction .tern 2 2 none]).core.mat.openRed = some (reduction .tern 2 2 none) ∧
    (matTile [reduction .tern 2 2 none]).core.mat.held.length < 2 ∧
    (matTile [reduction .tern 2 2 none]).matPlace ⟨4, .lit 0⟩ 256 0 = some ⟨256, 256, false, false⟩ ∧
    matMeets (matTile [reduction .tern 2 2 none]) (segLines twoRows 256 256) 256 = true ∧ (matTile []).core.mat.held = [] := by decide +kernel

theorem witness_empty_step : ∀ m ∈ [MatMode.tern, .int8, .sparse],
    let s := drained 131 (matIn [reduction m 2 1 none])
    s.core.mat.openRed = some (reduction m 2 1 none) ∧ s.core.mat.begun = none ∧ s.matPlace t6 32 1 = some ⟨100, 32, false, false⟩ ∧
    s.core.mat.base + 0 + 8 ≤ s.core.res.wb ∧ matMeets s (segLines s.core.mat.seg 100 32) 131 = true ∧ s.core.mat.held = [] := by
  decide +kernel

/-- The page after the mapped ones is not mapped. -/
def unmapped : State := holding paged [(1, 0x200000)]

theorem witness_unmapped : (∀ n ∈ [1, 2, 4, 8, 32], ∀ w : Bool, unmapped.xlAccess 0x200000 n w = .fault ⟨1, 1, 0⟩ 0x200000) ∧
    unmapped.seqReady [1] 0 ∧ unmapped.seqReady [2, 1] 0 ∧ unmapped.seqReady [3, 1, 2] 0 ∧ unmapped.seqReady [1, 2] 0 ∧
    unmapped.core.seq.cinch = none ∧ unmapped.plain ∧ unmapped.core.seq.sq = [] ∧ (unmapped.reg 1).toNat = 0x200000 ∧
    (unmapped.reg 1 + (0 : BitVec 16).signExtend 64).toNat = 0x200000 ∧ 0x200000 % 32 = 0 := by
  unfold State.seqReady State.plain; decide +kernel

/-! Damage to memory. -/

/-- The oldest write of core 0's vector engine must complete: its source lines have been marked empty. -/
def mustComplete : VpEntry := ⟨0, 0x1C, 0, .store (cellsAt ⟨.window, 0⟩ [1, 2]), 1, [100], none, false, [], false⟩

def completing : State := seated.updVec (fun v => { v with vp := [mustComplete] })

theorem witness_upsets : (∀ c ∈ seated.cores, c.vec.heldPicks (VpEntry.touches (sectorOf ⟨.hbm, 0⟩)) = false ∧ c.vec.vp = []) ∧
    mustComplete.bound = true ∧ mustComplete.touches (sectorOf ⟨.window, 1⟩) = true ∧ mustComplete.lost = false ∧
    completing.others = [] ∧ completing.core.vec.vp = [mustComplete] ∧ completing.core.vec.eng.releasing = false ∧ completing.memWf = true ∧
    completing.eccWrite (cellsAt ⟨.window, 0⟩ [1, 2]) = .ok := by decide +kernel

/-- A write to HBM, whose sectors have tags. -/
theorem witness_tag_upset :
    let e : VpEntry := { mustComplete with kind := .store (cellsAt ⟨.hbm, 0⟩ [1, 2]) }
    let s := seated.updVec (fun v => { v with vp := [e] })
    e.bound = true ∧ e.touches (sectorOf ⟨.hbm, 63⟩) = true ∧ s.core.vec.vp = [e] ∧ s.others = [] ∧ s.memWf = true ∧
    s.eccWrite (cellsAt ⟨.hbm, 0⟩ [1, 2]) = .ok := by decide +kernel

theorem test_upset_comes_after :
    (out (exec (.softErrorStrike (.memory ⟨.window, 0⟩ false)) completing)).readNat ⟨.window, 0⟩ 2 = 0x0201 ∧
    (out (exec (.softErrorStrike (.memory ⟨.window, 0⟩ false)) completing)).lost = [⟨.window, 0⟩] := by decide +kernel

/-- A vector release that has begun still holds one write. -/
def letting : State := seated.updVec (fun v => { v with
  eng := { v.eng with releasing := true }, regions := [vecRegionAt [{ mustComplete with seq := 7 }] []] })

theorem witness_undo_held : letting.liveCore 0 = true ∧ (letting.focus 0).core.vec.regions = [vecRegionAt [{ mustComplete with seq := 7 }] []] ∧
    (letting.focus 0).core.vec.eng.releasing = true ∧ (letting.focus 0).core.vec.vp = [] ∧ (letting.focus 0).core.holdsNew .vp = false ∧
    7 ≠ (letting.focus 0).core.issue ∧ letting.core.vec.heldItem 0 0 = some { mustComplete with seq := 7 } ∧
    letting.core.vec.heldItem 0 1 = none ∧ seated.core.vec.eng.releasing = false := by decide +kernel

/-! Parts of what an engine reads and writes. -/

theorem witness_parts : 0 < 1 * mustComplete.width ∧ 1 * mustComplete.width < (cellsAt ⟨.window, 0⟩ [1, 2]).length ∧
    (1 + 1) * mustComplete.width ≤ (cellsAt ⟨.window, 0⟩ [1, 2]).length ∧
    (∀ x ∈ (cellsAt ⟨.window, 0⟩ [1, 2]).take 1, ∀ y ∈ ((cellsAt ⟨.window, 0⟩ [1, 2]).drop 1).take 1, x.1 ≠ y.1) ∧
    completing.eccRead ((cellsAt ⟨.window, 0⟩ [1, 2]).map Prod.fst) = .ok := by decide +kernel

theorem test_part_performed : let t := out (exec (.vpAccessPerformed ⟨0, some (1, 1)⟩) completing)
    t.readNat ⟨.window, 0⟩ 2 = 0x0200 ∧ t.core.vec.vp = [{ mustComplete with kind := .store [(⟨.window, 0⟩, 1)], begun := true }] := by
  decide +kernel

/-- A k-step at issue has read line 100 and row 3. -/
def readingAhead : State := (matIn [reduction .tern 2 1 none]).updMat (fun m => { m with begun := some ⟨[(100, 5)], [(3, 7)]⟩ })

theorem witness_read_ahead : readingAhead.core.mat.begun = some ⟨[(100, 5)], [(3, 7)]⟩ ∧ sparseWf 0 0 readingAhead.core.wb = true ∧
    ([(3, 7)].map Prod.fst : List Nat).Nodup ∧ readingAhead.asRead.core.wbRow 3 = 7 ∧ readingAhead.asRead.core.line 100 = ⟨5, true⟩ ∧
    readingAhead.core.mat.openRed = some (reduction .tern 2 1 none) ∧ readingAhead.matPlace t6 32 1 = some ⟨100, 32, false, false⟩ ∧
    readingAhead.asRead.core.blockFault .tern 0 = none ∧ (∀ x ∈ rangeFrom 0 2, x ∉ readingAhead.asRead.core.wbLost) := by decide +kernel

theorem witness_read_ahead_readable : readingAhead.asRead.matReadable (segLines wholeSegment 100 32) := by
  unfold State.matReadable; decide +kernel

/-- The operation at issue has read one sector of its source. -/
theorem witness_taken : (handing 64).src = some (.mem bigBind 0) ∧ bigBind.place (0 + 63) = some ⟨.hbm, 0x103F⟩ ∧
    ({ handing 64 with taken := [(0x103F / 64, 7)] } : XOp).taken = [(0x103F / 64, 7)] := by decide +kernel

theorem test_taken : (handingOver 64).sourceByte { handing 64 with taken := [(0x1000 / 64, 0x0807)] } 1 = 8 := by decide +kernel

/-! Commands, stages and silences. -/

/-- A command that was taken before leads the list of turns. -/
theorem test_notify_keeps_order : ((out (exec (.notifyWrite 1 1) { posted with
      sched := [⟨0, 0, [], .command 0 ⟨0x13, 0, 0, 0, 0, 0, 0, 0, 0, 0, true⟩⟩, ⟨1, 0, [], .stream 0 .seq⟩] })).sched.map (·.agent)) =
    [.command 0 ⟨0x13, 0, 0, 0, 0, 0, 0, 0, 0, 0, true⟩, .command 1 ⟨0x13, 0, 0, 0, 0, 0, 0, 0, 0, 0, true⟩, .stream 0 .seq] := by
  decide +kernel

/-- An instance of stage 0 was pre-empted, and the stage is owed its core. -/
def resuming : State := { savedCrew with
  crews := savedCrew.crews.map (fun (k : Crew) => { k with origin := .stage 0 })
  ctxs := savedCrew.ctxs.map (fun (c : Context) => { c with
    harness := some { harnessOf [packetOfCrew 1] with scanned := true, counts := [(3, 1)], owed := [(0, 0)] } }) }

theorem ctxs_only (h : (resuming.settleOwed 0).ctxs = resuming.ctxs) : resuming.settleOwed 0 = resuming :=
  (show resuming.settleOwed 0 = { resuming with ctxs := (resuming.settleOwed 0).ctxs } from rfl).trans (by rw [h])

theorem only_crew {s : State} {k : Crew} (h : s.crews.length = 1) (hk : k ∈ s.crews) : s.crew k.num = some k := by
  obtain ⟨c, hc⟩ := List.length_eq_one_iff.1 h
  rw [hc] at hk
  rw [State.crew, hc, List.mem_singleton.1 hk]; simp

theorem witness_stage_resumes : ∀ h ∈ (resuming.ctx 0).bind (·.harness), ∃ k, resuming.resumable 0 h 0 = some k ∧ h.scanned = true ∧
    resuming.mayPlace 0 = true ∧ resuming.placeFirst 0 = false ∧ resuming.settleOwed 0 = resuming ∧ resuming.step1 0 h [] = none ∧
    (resuming.stepOwed 0 h []).or (resuming.step2 0 h []) = some (packetOfCrew 1, 0) ∧ resuming.crew k.num = some k ∧
    (resuming.readCode k.ctx k.packet).toOption = some (List.replicate 4 0) := by
  have h0 : ∀ h ∈ (resuming.ctx 0).bind (·.harness), (resuming.resumable 0 h 0).isSome = true ∧ h.scanned = true ∧
      resuming.mayPlace 0 = true ∧ resuming.placeFirst 0 = false ∧ (resuming.settleOwed 0).ctxs = resuming.ctxs ∧ resuming.step1 0 h [] = none ∧
      (resuming.stepOwed 0 h []).or (resuming.step2 0 h []) = some (packetOfCrew 1, 0) ∧
      resuming.crews.length = 1 ∧ ∀ k ∈ resuming.resumable 0 h 0, (resuming.readCode k.ctx k.packet).toOption = some (List.replicate 4 0) := by decide +kernel
  intro h hh
  obtain ⟨h1, h2, h3, h4, h5, h6, h7, h8, h9⟩ := h0 h hh
  obtain ⟨k, hk⟩ := Option.isSome_iff_exists.1 h1
  exact ⟨k, hk, h2, h3, h4, ctxs_only h5, h6, h7, only_crew h8 (List.mem_filter.1 (List.mem_of_find?_eq_some hk)).1, h9 k hk⟩

/-- A silence that is over, since a frame came, with what a member confirmed of it; another member's is told. -/
def heardAgain : State := grouped (fun g => { g with silences := [⟨2, [5], false, false, []⟩, ⟨3, [1], true, false, []⟩] })

theorem witness_heard_again : (∀ x ∈ heardAgain.group.silences, x.member = 2 → x.told = false) ∧ heardAgain.group.silences ≠ [] ∧
    (∀ x ∈ heardAgain.group.silences, x.cancelled = []) ∧ heardAgain.group.agreement + 1 < 2 ^ 32 ∧
    heardAgain.group.members.find? (fun m => decide (m.number = 2)) = some ⟨2, 1800, 0, none, -100000⟩ ∧ heardAgain.group.changes = [] ∧
    heardAgain.earlyAll > -100000 + 100000 ∧ inGroup heardAgain.group.state = true ∧ heardAgain.group.knows 2 = true := by decide

/-- It counts anew, with the ports up and with all of them down. -/
theorem test_second_silence : (out (exec (.silenceDetected 2) heardAgain)).group.agreement = 5 ∧
    (out (exec (.silenceDetected 2) heardAgain)).group.ceiling = 1350 ∧
    (out (exec (.silenceDetected 2) { heardAgain with group := { heardAgain.group with ports := 0 } })).group.ceiling = 1350 := by decide

/-- A second member, whose silence this device has told and confirmed. -/
theorem test_frame_clears_silence : (out (exec (.timeframe ⟨2, 0, none, 0, 0⟩ 104 105) { grouped (fun g => { g with
      silences := [⟨2, [1, 5], true, true, []⟩] }) with tau := 20000 * 104 })).group.silences = [⟨2, [5], false, true, []⟩] := by decide +kernel

end Sys2Proof.Tests
end

section
/-!
PROOFS. What a turn comes to, and what a step makes of it (R15, R17, R20, R35): O54 and O53.
-/
namespace Sys2Proof.Machine

/-! ### Every instruction and every command has a next state -/

/-- Each meaning is `.next` of a state; `v.bcast` alone chooses between two (R142). -/
theorem exec_next (i : Instr) (s : State) : ∃ t, exec i s = .next t := by
  cases i with
  | vBcast d a wa imm =>
    by_cases h : imm.toNat ≥ s.core.vec.shape.lanes
    · exact ⟨_, if_pos h⟩
    · exact ⟨_, if_neg h⟩
  | _ => exact ⟨_, rfl⟩

/-- Each command is carried out by the meaning of its row, and an opcode of no row is refused (R280). -/
theorem runCommand_next (q : Fin 64) (p : Packet) (s : State) : ∃ t, runCommand q p s = .next t := by
  unfold runCommand
  split
  case h_18 =>
    by_cases h1 : p.a0 = 1
    · exact ⟨_, if_pos h1⟩
    · rw [if_neg h1]
      by_cases h2 : p.a0 = 2
      · exact ⟨_, if_pos h2⟩
      · exact ⟨_, if_neg h2⟩
  all_goals exact ⟨_, rfl⟩

/-! ### The turn at the head of the schedule -/

/-- The machine when the turn t comes, which `rest` follows: its time has passed, its place in the cycle is reached (R320). -/
def State.past (s : State) (t : Turn) (rest : List Turn) : State :=
  { ({ s with sched := rest } : State).advance (({ s with sched := rest } : State).turnCycles t) t.ns t.osc with
    phase := ({ s with sched := rest } : State).turnPhase t }

/-- What the agent of a turn makes of it. -/
def State.act (s : State) : Agent → TurnResult
  | .event i => s.eventTurn i
  | .early n w => .early n w s
  | .command q p => .command q p s
  | .stream n st => if coreExists n then (if (s.focus n).mayIssue st then (s.focus n).fetch st else .idle (s.focus n)) else .noCore

theorem takeTurn_cons {s : State} {t : Turn} {rest : List Turn} (h : s.sched = t :: rest) :
    s.takeTurn = (s.past t rest).act t.agent := by
  obtain ⟨cycles, ns, osc, a⟩ := t
  rw [State.takeTurn, State.popTurn, h]
  cases a <;> rfl

theorem takeTurn_nil {s : State} (h : s.sched = []) :
    s.takeTurn = (s.past ⟨1, 0, [], .stream s.core.id .seq⟩ []).act (.stream s.core.id .seq) := by
  have hs : ({ s with sched := [] } : State) = s := by rw [← h]
  rw [State.takeTurn, State.popTurn, h, State.past, hs]
  rfl

theorem act_eq_noCore {s : State} {a : Agent} (h : s.act a = .noCore) : ∃ n st, a = .stream n st ∧ coreExists n = false := by
  cases a with
  | stream n st =>
    refine ⟨n, st, rfl, ?_⟩
    by_contra hc
    have hc : coreExists n = true := by simpa using hc
    simp only [State.act, hc, if_true, State.fetch] at h
    split at h
    · split at h
      · cases h
      · split at h <;> cases h
    · cases h
  | event i => simp only [State.act, State.eventTurn] at h; split at h <;> cases h
  | early n w => cases h
  | command q p => cases h

/-- A turn that finds no core is the head of the schedule, and names a core outside the package (R15). -/
theorem schedulable_of_takeTurn_noCore {s : State} (h : s.takeTurn = .noCore) : s.schedulable = false := by
  cases hs : s.sched with
  | nil =>
    obtain ⟨n, st, ha, hn⟩ := act_eq_noCore (takeTurn_nil hs ▸ h)
    cases ha
    simp [State.schedulable, hn]
  | cons t rest =>
    obtain ⟨n, st, ha, hn⟩ := act_eq_noCore (takeTurn_cons hs ▸ h)
    simp [State.schedulable, hs, Turn.possible, ha, hn]

/-- A step answers a next state, or its turn finds no core. -/
theorem step_cases (s : State) : (∃ t, step s = .next t) ∨ (step s = .fault .noSuchCore ∧ s.takeTurn = .noCore) := by
  unfold step
  cases h : s.takeTurn with
  | idle t => exact .inl ⟨_, rfl⟩
  | early n w t => exact .inl ⟨_, rfl⟩
  | noCore => exact .inr ⟨rfl, rfl⟩
  | command q p t =>
    obtain ⟨u, hu⟩ := runCommand_next q p t
    exact .inl ⟨u.settle, by simp only [hu]⟩
  | run i t =>
    obtain ⟨u, hu⟩ := exec_next i t
    exact .inl ⟨u.settle, by simp only [hu]⟩

/-- Settles O54: every meaning answers a next state, so that only a turn without a core stops a step. -/
theorem stepsGoOn : Obligations.StepsGoOn := by
  unfold Obligations.StepsGoOn
  refine ⟨exec_next, fun s hs => ?_, fun s f hf => ?_, fun s r hr => ?_⟩
  · rcases step_cases s with h | ⟨-, h⟩
    · exact h
    · rw [schedulable_of_takeTurn_noCore h] at hs; cases hs
  · rcases step_cases s with ⟨t, h⟩ | ⟨-, h⟩
    · rw [h] at hf; cases hf
    · exact schedulable_of_takeTurn_noCore h
  · rcases step_cases s with ⟨t, h⟩ | ⟨h, -⟩ <;> rw [h] at hr <;> cases hr

/-! ### The instruction that a stream stands at -/

section
variable {s : State} {cycles ns n : Nat} {osc : List (Nat × Nat)} {st : StreamId} {rest : List Turn}

/-- A turn of a stream on a core of the package: it fetches where it may issue. -/
theorem takeTurn_stream (h : s.sched = ⟨cycles, ns, osc, .stream n st⟩ :: rest) (hc : coreExists n = true) :
    let u := (s.past ⟨cycles, ns, osc, .stream n st⟩ rest).focus n
    s.takeTurn = if u.mayIssue st then u.fetch st else .idle u := by
  intro u
  rw [takeTurn_cons h]
  exact if_pos hc

theorem step_of_idle {t : State} (h : s.takeTurn = .idle t) : step s = .next t.settle := by simp only [step, h]

theorem step_of_early {w : Early} {t : State} (h : s.takeTurn = .early n w t) : step s = .next (t.early n w).settle := by
  simp only [step, h]

end

/-- Settles O53: each clause is one outcome of the turn, by `takeTurn_cons` and `step`. -/
theorem stepRunsTheDecodedInstruction : Obligations.StepRunsTheDecodedInstruction := by
  unfold Obligations.StepRunsTheDecodedInstruction
  intro s cycles ns n osc st i rest s0 past u w settled
  refine ⟨fun h hc => ?_, fun h hi => ?_, fun w h => ?_, fun q p h => ?_, ?_⟩
  · have ht : s.takeTurn = if u.mayIssue st then u.fetch st else .idle u := takeTurn_stream h hc
    refine ⟨fun hm he hd => ?_, fun hm he => step_of_idle ?_, fun r hm he hd => step_of_idle ?_, fun hm => step_of_idle ?_⟩
    · have hr : s.takeTurn = .run i u := by
        rw [ht, if_pos hm, State.fetch, if_neg (not_not.2 he), hd]
      simp only [step, hr, settled]
      cases exec i u <;> rfl
    · rw [ht, if_pos hm, State.fetch, if_pos he]
    · rw [ht, if_pos hm, State.fetch, if_neg (not_not.2 he), hd]
    · rw [ht, hm]; rfl
  · have hr : s.takeTurn = .run i (past (.event i)) := by
      rw [takeTurn_cons h]
      simp only [State.act, State.eventTurn, hi]
      rfl
    simp only [step, hr, settled]
    cases exec i (past (.event i)) <;> rfl
  · exact step_of_early (takeTurn_cons h)
  · have hr : s.takeTurn = .command q p (past (.command q p)) := takeTurn_cons h
    simp only [step, hr, settled]
    cases runCommand q p (past (.command q p)) <;> rfl
  · refine ⟨?_, ?_, rfl, rfl⟩ <;> cases st <;> rfl

end Sys2Proof.Machine
end

section
/-!
PROOFS. The record of a stop and what an engine's fault leaves (R17, R19, R301, R302): O57.
-/
namespace Sys2Proof.Machine

/-! ### The fields of a record (R301) -/

theorem extractLsb'_ofNat_toNat {m x lo w : Nat} (h : lo + w ≤ m) :
    ((BitVec.ofNat m x).extractLsb' lo w).toNat = x / 2 ^ lo % 2 ^ w := by
  obtain ⟨d, rfl⟩ := Nat.exists_eq_add_of_le h
  rw [BitVec.extractLsb'_toNat, BitVec.toNat_ofNat, Nat.shiftRight_eq_div_pow, Nat.add_assoc, Nat.pow_add, Nat.mod_mul_right_div_self,
    Nat.mod_mod_of_dvd _ (Nat.pow_dvd_pow 2 (Nat.le_add_right w d))]

theorem extractLsb'_ofNat_eq {m x lo w : Nat} {v : BitVec w} (h : lo + w ≤ m) (hx : x / 2 ^ lo % 2 ^ w = v.toNat) :
    (BitVec.ofNat m x).extractLsb' lo w = v := BitVec.eq_of_toNat_eq (by rw [extractLsb'_ofNat_toNat h, hx])

section
variable (c : Core) (st : StreamId) (word : IWord) (n : BitVec 32) (r : RecordInfo)

theorem recordBits_stream : ((recordBits c st word n r).extractLsb' 0 2).toNat = st.code := by
  have hc : st.code < 4 := by cases st <;> decide
  rw [recordBits, extractLsb'_ofNat_toNat (by omega)]
  simp only [put]
  omega

theorem recordBits_kind : (recordBits c st word n r).extractLsb' 8 4 = BitVec.ofNat 4 r.kind := by
  refine extractLsb'_ofNat_eq (by omega) ?_
  simp only [put, BitVec.toNat_ofNat]
  omega

theorem recordBits_code : (recordBits c st word n r).extractLsb' 16 16 = r.code := by
  have := r.code.isLt
  refine extractLsb'_ofNat_eq (by omega) ?_
  simp only [put]
  omega

theorem recordBits_at : ((recordBits c st word n r).extractLsb' 32 16).toNat = r.at_.toNat / 4 % 2 ^ 16 := by
  rw [recordBits, extractLsb'_ofNat_toNat (by omega)]
  simp only [put]
  omega

theorem recordBits_pc : ((recordBits c st word n r).extractLsb' 48 16).toNat = r.pc.toNat / 4 % 2 ^ 16 := by
  rw [recordBits, extractLsb'_ofNat_toNat (by omega)]
  simp only [put]
  omega

theorem bit_eq (b : Bool) : bit b = (BitVec.ofBool b).toNat := by cases b <;> rfl

theorem recordBits_mayLeft : (recordBits c st word n r).extractLsb' 96 1 = BitVec.ofBool r.mayLeft := by
  have := (BitVec.ofBool r.mayLeft).isLt
  refine extractLsb'_ofNat_eq (by omega) ?_
  simp only [put, bit_eq]
  omega

theorem recordBits_mayCore : (recordBits c st word n r).extractLsb' 97 1 = BitVec.ofBool r.mayCore := by
  have := (BitVec.ofBool r.mayCore).isLt
  refine extractLsb'_ofNat_eq (by omega) ?_
  simp only [put, bit_eq]
  omega

theorem recordBits_spill : (recordBits c st word n r).extractLsb' 98 1 = BitVec.ofBool r.spill := by
  have := (BitVec.ofBool r.spill).isLt
  refine extractLsb'_ofNat_eq (by omega) ?_
  simp only [put, bit_eq]
  omega

theorem recordBits_addr : (recordBits c st word n r).extractLsb' 128 64 = r.addr := by
  have := r.addr.isLt
  refine extractLsb'_ofNat_eq (by omega) ?_
  simp only [put]
  omega

theorem recordBits_number : (recordBits c st word n r).extractLsb' 192 32 = n := by
  have := n.isLt
  refine extractLsb'_ofNat_eq (by omega) ?_
  simp only [put]
  omega

end

/-! ### Engines of a core -/

@[simp] theorem Core.eng_updEng_same (c : Core) (e : Eng) (f : Engine → Engine) : (c.updEng e f).eng e = f (c.eng e) := by
  cases e <;> rfl

theorem Core.eng_updEng_other (c : Core) {e x : Eng} (f : Engine → Engine) (h : x ≠ e) : (c.updEng e f).eng x = c.eng x := by
  cases e <;> cases x
  case vec.vec => exact absurd rfl h
  case mat.mat => exact absurd rfl h
  case xfer.xfer => exact absurd rfl h
  all_goals rfl

@[simp] theorem Core.updEng_seq (c : Core) (e : Eng) (f : Engine → Engine) : (c.updEng e f).seq = c.seq := by cases e <;> rfl
@[simp] theorem Core.updEng_tree (c : Core) (e : Eng) (f : Engine → Engine) : (c.updEng e f).tree = c.tree := by cases e <;> rfl
@[simp] theorem Core.updEng_records (c : Core) (e : Eng) (f : Engine → Engine) : (c.updEng e f).records = c.records := by cases e <;> rfl
@[simp] theorem Core.updEng_waiting (c : Core) (e : Eng) (f : Engine → Engine) : (c.updEng e f).waiting = c.waiting := by cases e <;> rfl
@[simp] theorem Core.updEng_written (c : Core) (e : Eng) (f : Engine → Engine) : (c.updEng e f).written = c.written := by cases e <;> rfl
@[simp] theorem Core.updEng_acc (c : Core) (e : Eng) (f : Engine → Engine) : (c.updEng e f).mat.acc = c.mat.acc := by cases e <;> rfl
@[simp] theorem Core.eng_updSeq (c : Core) (f : Sequencer → Sequencer) (e : Eng) : (c.updSeq f).eng e = c.eng e := by cases e <;> rfl

/-! ### A fault stop, written out (R17, R301, R302) -/

/-- The record that a stop writes. -/
def State.stopBits (s : State) (e : Eng) (kind : Nat) (code : Code) (at_ : Word) (spill mayCore mayLeft : Bool) (detail : Word) :
    BitVec 512 :=
  recordBits s.core e.stream (s.wordAt s.core e.stream at_) (s.core.written[(Fin.ofNat 4 e.stream.code : Fin 4)] + 1)
    { code := code, kind := kind, pc := (s.core.eng e).pc, at_ := at_, addr := detail, spill := spill, mayCore := mayCore,
      mayLeft := mayLeft }

/-- A record b of a stream written into its slot, or left to wait for it (R302). -/
def Core.withRecord (c : Core) (st : StreamId) (b : BitVec 512) : Core :=
  let i : Fin 4 := Fin.ofNat 4 st.code
  { c with
    written := c.written.set i (c.written[i] + 1)
    records := if c.seq.stopPending st then c.records else c.records.set i b
    waiting := if c.seq.stopPending st then c.waiting ++ [(st, b)] else c.waiting }

/-- An engine in STOPPED with a code; a close under way is given up (R307). -/
def Engine.halted (x : Engine) (code : Code) : Engine := { x with st := .stopped, code := code, stopReq := false, releasing := false }

section
variable (s : State) (e : Eng) (code : Code) (at_ : Word) (spill mayCore mayLeft : Bool) (detail : Word)

theorem stopWith_eq : s.stopWith e 0 code at_ spill mayCore mayLeft detail =
    ((s.upd (·.withRecord e.stream (s.stopBits e 0 code at_ spill mayCore mayLeft detail))).updEng e (·.halted code)).updSeq
      (fun q => { q with traps := q.traps ++ [.stop e code s.now] }) := by
  simp only [State.stopWith, State.record, Core.withRecord, ne_eq, OfNat.zero_ne_ofNat, not_false_eq_true, decide_true, Bool.and_true,
    if_true]
  rfl

theorem stopWith_eng : (s.stopWith e 0 code at_ spill mayCore mayLeft detail).core.eng e = (s.core.eng e).halted code := by
  rw [stopWith_eq]; cases e <;> rfl

theorem stopWith_eng_other {x : Eng} (h : x ≠ e) :
    (s.stopWith e 0 code at_ spill mayCore mayLeft detail).core.eng x = s.core.eng x := by
  rw [stopWith_eq]
  calc _ = (((s.core.withRecord e.stream (s.stopBits e 0 code at_ spill mayCore mayLeft detail)).updEng e (·.halted code)).eng x) := by
        simp
    _ = (s.core.withRecord e.stream (s.stopBits e 0 code at_ spill mayCore mayLeft detail)).eng x := Core.eng_updEng_other _ _ h
    _ = s.core.eng x := by cases x <;> rfl

@[simp] theorem stopWith_seq : (s.stopWith e 0 code at_ spill mayCore mayLeft detail).core.seq =
    { s.core.seq with traps := s.core.seq.traps ++ [.stop e code s.now] } := by
  rw [stopWith_eq]; cases e <;> rfl

@[simp] theorem stopWith_tree : (s.stopWith e 0 code at_ spill mayCore mayLeft detail).core.tree = s.core.tree := by
  rw [stopWith_eq]; cases e <;> rfl

@[simp] theorem stopWith_acc : (s.stopWith e 0 code at_ spill mayCore mayLeft detail).core.mat.acc = s.core.mat.acc := by
  rw [stopWith_eq]; cases e <;> rfl

theorem stopWith_sameMemory : s.sameMemory (s.stopWith e 0 code at_ spill mayCore mayLeft detail) := by
  rw [stopWith_eq]; exact ⟨rfl, rfl, rfl⟩

theorem stopWith_written : (s.stopWith e 0 code at_ spill mayCore mayLeft detail).core.written =
    s.core.written.set (Fin.ofNat 4 e.stream.code : Fin 4) (s.core.written[(Fin.ofNat 4 e.stream.code : Fin 4)] + 1) := by
  rw [stopWith_eq]; cases e <;> rfl

theorem stopWith_records : (s.stopWith e 0 code at_ spill mayCore mayLeft detail).core.records =
    if s.core.seq.stopPending e.stream then s.core.records
    else s.core.records.set (Fin.ofNat 4 e.stream.code : Fin 4) (s.stopBits e 0 code at_ spill mayCore mayLeft detail) := by
  rw [stopWith_eq]; cases e <;> rfl

theorem stopWith_waiting : (s.stopWith e 0 code at_ spill mayCore mayLeft detail).core.waiting =
    if s.core.seq.stopPending e.stream then s.core.waiting ++ [(e.stream, s.stopBits e 0 code at_ spill mayCore mayLeft detail)]
    else s.core.waiting := by
  rw [stopWith_eq]; cases e <;> rfl

end

/-- Settles O57: the stop as `stopWith_eq` writes it out, and the record's fields one by one. -/
theorem engineFaultsStopAndTrap : Obligations.EngineFaultsStopAndTrap := by
  unfold Obligations.EngineFaultsStopAndTrap
  intro s e code pc spill mayCore mayLeft t i
  have ht : t = s.stopWith e 0 code pc spill mayCore mayLeft (s.openDetailOf e.stream) := rfl
  have he : t.core.eng e = (s.core.eng e).halted code := stopWith_eng ..
  refine ⟨by rw [he]; rfl, by rw [he]; rfl, by rw [he]; rfl, by rw [he]; rfl, by rw [he]; rfl, by simp [ht], by simp [ht], by simp [ht],
    fun f hf => stopWith_eng_other s e code pc spill mayCore mayLeft _ hf, stopWith_sameMemory .., by simp [ht], by simp [ht],
    stopWith_written .., s.stopBits e 0 code pc spill mayCore mayLeft (s.openDetailOf e.stream), stopWith_eq ..,
    recordBits_stream .., recordBits_kind .., recordBits_code .., recordBits_at .., recordBits_pc .., recordBits_mayLeft ..,
    recordBits_mayCore .., recordBits_spill .., recordBits_addr .., recordBits_number .., fun h => ?_, fun h => ?_⟩
  all_goals exact ⟨by rw [ht, stopWith_records, h]; rfl, by rw [ht, stopWith_waiting, h]; rfl⟩

end Sys2Proof.Machine
end

section
/-!
PROOFS. The loop, mend, mark and end words of the vector stream (R18, R47, R147, R304, R307): O29.
-/
namespace Sys2Proof.Machine

/-! ### Vector words that retire without an access -/

theorem newVp_same (v : VecEngine) : v.newVp v.vp.length = none := if_neg (lt_irrefl _)

/-- A vector word that retires and issues no access. -/
theorem issueVec_done {s t : State} (h : t.core.vec.vp = s.core.vec.vp) :
    s.issueVec (.done t) = (t.updVec (fun v => { v with lastVp := none })).updEng .vec (fun x => { x with st := .run, retired := s.now }) := by
  simp only [State.issueVec, issueEng_done, ← h]
  simp only [State.updVec, State.upd, Core.updVec, newVp_same]

/-- A vector word that waits. -/
theorem issueVec_wait (s : State) (kind line : Nat) : s.issueVec (.wait kind line s) = s.engWaits .vec kind line := rfl

theorem vecAdvanced_of_done {s : State} {f : VecEngine → VecEngine} (h : (f s.core.vec).vp = s.core.vec.vp)
    (he : (f s.core.vec).eng = s.core.vec.eng) :
    s.issueVec (.done ((s.updVec f).engNext .vec)) = s.vecAdvanced 0 f := by
  have hv : ((s.updVec f).engNext .vec).core.vec.vp = s.core.vec.vp := h
  rw [issueVec_done hv]
  simp only [State.vecAdvanced, ← h, newVp_same, ← he]
  rfl

theorem vecLoop_eq (s : State) (f : Engine → Engine) (k' : Vector KReg 8) (pc' : Word)
    (h : f s.core.vec.eng = { s.core.vec.eng with k := k', pc := pc' }) :
    s.vecLoop f = .next ((s.updVec (fun v => { v with lastVp := none })).engAdvanced .vec (fun e => { e with k := k', pc := pc' })) := by
  have hf : s.updEng .vec f = s.updEng .vec (fun e => { e with k := k', pc := pc' }) := by
    simp only [State.updEng, State.upd, Core.updEng, Core.setEng, Core.updVec, Core.eng, h]
  rw [State.vecLoop, hf]
  exact congrArg Host.Outcome.next (issueVec_done rfl)

/-! ### Closing the vector regions (R307) -/

theorem vecCloseReady_vp {s : State} (h : s.vecCloseReady = true) : s.core.vec.vp = [] := by
  simpa using (Bool.and_eq_true_iff.1 h).2

theorem closeVec_none {s : State} (h : s.core.vec.regions = []) (k : State → EngIssue) : s.closeVec k = k s := by
  rw [State.closeVec, h]; rfl

/-- A lone region that holds nothing back is released once its close is ready. -/
theorem closeVec_single {s : State} {r : VecRegion} (h : s.core.vec.regions = [r]) (hc : s.vecCloseReady = true) (hr : r.held = [])
    (k : State → EngIssue) : s.closeVec k = k (s.releaseVec r) := by
  have hheld : s.heldEcc [] = .ok := rfl
  simp [State.closeVec, h, foldVec, hc, vecCloseReady_vp hc, hr, hheld]

/-! ### The words -/

section
variable {s : State}

theorem exec_vMark_of_empty (h : s.core.vec.vp = []) : exec .vMark s = .next (s.issueVec (.done (s.engNext .vec))) :=
  congrArg (fun r => Host.Outcome.next (s.issueVec r)) (if_pos (List.isEmpty_iff.2 h))

theorem exec_vMark_of_busy (h : s.core.vec.vp ≠ []) : exec .vMark s = .next (s.engWaits .vec 4 0) :=
  congrArg (fun r => Host.Outcome.next (s.issueVec r)) (if_neg (mt List.isEmpty_iff.1 h))

theorem exec_vMendOpen_ready (h : s.core.vec.vp = []) (hl : s.core.vec.regions.length < 4) :
    exec .vMendOpen s = .next (s.vecAdvanced 0 VecEngine.openRegion) := by
  rw [← vecAdvanced_of_done (s := s) (f := VecEngine.openRegion) rfl rfl]
  refine congrArg (fun r => Host.Outcome.next (s.issueVec r)) ?_
  rw [if_neg (by omega), if_neg (by simp [h])]

theorem exec_vMendSave_ready {k : KIx} {n : BitVec 12} {r : VecRegion} {l : List VecRegion} (hr : s.core.vec.regions = r :: l)
    (ht : (s.core.vec.eng.k[k]).val.toNat + n.toNat ≤ s.core.res.tree) (hroom : s.core.roomFor (64 * n.toNat) 0 = true)
    (hl : ∀ y ∈ rangeFrom (s.core.vec.eng.k[k]).val.toNat n.toNat, y ∉ s.core.vec.landing ∧ y ∉ s.core.treeLost) :
    exec (.vMendSave k n) s = .next (s.vecAdvanced 0 (fun v => { v with regions :=
      { r with saved := s.core.saveLines s.core.vec.marks (s.core.vec.eng.k[k]).val.toNat n.toNat ++ r.saved,
               charge := r.charge + 64 * n.toNat } :: l })) := by
  rw [← vecAdvanced_of_done (s := s) rfl rfl]
  have h1 : (rangeFrom (s.core.vec.eng.k[k]).val.toNat n.toNat).find? (fun m => s.core.vec.landing.contains m) = none :=
    List.find?_eq_none.2 (fun y hy => by simp [(hl y hy).1])
  have h2 : (rangeFrom (s.core.vec.eng.k[k]).val.toNat n.toNat).find? (fun m => s.core.treeLost.contains m) = none :=
    List.find?_eq_none.2 (fun y hy => by simp [(hl y hy).2])
  refine congrArg (fun r => Host.Outcome.next (s.issueVec r)) ?_
  simp only [hr, hroom, Bool.not_true, if_neg (Nat.not_lt.2 ht), h1, h2]
  rfl

theorem exec_vMendClose_inner {r p : VecRegion} {l : List VecRegion} (hr : s.core.vec.regions = r :: p :: l) (hc : s.vecCloseReady = true) :
    exec .vMendClose s = .next (s.vecAdvanced 0 (fun v => { v with
      regions := r.handUp p :: l, again := againDrop v.again (l.length + 1) })) := by
  rw [← vecAdvanced_of_done (s := s) rfl rfl]
  refine congrArg (fun r => Host.Outcome.next (s.issueVec r)) ?_
  simp only [hr, hc]
  rfl

theorem exec_vMendClose_outer {r : VecRegion} (hr : s.core.vec.regions = [r]) (hc : s.vecCloseReady = true) (hh : r.held = []) :
    exec .vMendClose s = .next (s.issueVec (.done ((s.releaseVec r).engNext .vec))) := by
  refine congrArg (fun r => Host.Outcome.next (s.issueVec r)) ?_
  simp only [hr, closeVec_single hr hc hh]

/-- The release of a region without deferred marks takes its flags out, and touches no line (R307). -/
theorem releaseVec_of_no_marks {r : VecRegion} (hm : r.marks = []) : s.releaseVec r =
    s.upd (fun c => (c.updVec (fun v => { v with regions := [], again := [], eng := { v.eng with releasing := false } })).orFlags r.mask) := by
  simp only [State.releaseVec, hm]
  rfl

theorem exec_vEnd (h : s.core.vec.regions = []) : exec .vEnd s = .next (s.issueVec (if s.core.vec.vp.isEmpty then
    .set (s.updEng .vec (fun e => { e with st := .ended, retired := s.now, stopReq := false })) else .wait 4 0 s)) :=
  congrArg (fun r => Host.Outcome.next (s.issueVec r)) (closeVec_none h _)

end

/-- Settles O29: one lemma of this file for each word. -/
theorem vectorControlWords : Obligations.VectorControlWords := by
  unfold Obligations.VectorControlWords
  intro s k i n off x m v e goes
  refine ⟨vecLoop_eq s _ _ _ rfl, vecLoop_eq s _ _ _ ?_, vecLoop_eq s _ _ _ rfl, vecLoop_eq s _ _ _ rfl, vecLoop_eq s _ _ _ rfl,
    fun h => ?_, exec_vMark_of_busy, exec_vMendOpen_ready, fun r l => exec_vMendSave_ready, fun r p l => exec_vMendClose_inner,
    fun r hr hc hh hm => ⟨_, exec_vMendClose_outer hr hc hh, ?_⟩, fun h hv => ?_, fun h hv => ?_⟩
  · simp only [Engine.br, Engine.setK]
    split <;> rfl
  · exact (exec_vMark_of_empty h).trans (congrArg Host.Outcome.next (issueVec_done rfl))
  · rw [releaseVec_of_no_marks hm]
    exact ⟨rfl, rfl, rfl, rfl, rfl, rfl, rfl⟩
  · rw [exec_vEnd h, if_pos (List.isEmpty_iff.2 hv)]; rfl
  · rw [exec_vEnd h, if_neg (mt List.isEmpty_iff.1 hv)]; rfl

end Sys2Proof.Machine
end

section
/-!
PROOFS. What vector and matrix words do at an empty source line (R29, R117, R123, R135, R159): O60.
-/
namespace Sys2Proof.Machine

/-! ### The tests of R29 -/

/-- The first element of a list for which p holds stands after those for which it does not. -/
theorem find?_append_cons {p : Nat → Bool} {l l' : List Nat} {n : Nat} (hl : ∀ x ∈ l, p x = false) (hn : p n = true) :
    (l ++ n :: l').find? p = some n := by
  rw [List.find?_append, List.find?_eq_none.2 (fun x hx => by simp [hl x hx]), List.find?_cons_of_pos hn]
  rfl

/-- The lines of the sources whose W bit is w. -/
def linesW (srcs : List VSrc) (w : Bool) : List Nat := (srcs.filter (fun x => x.w == w)).flatMap (fun x => x.at_.all)

/-- No destination line is closed to the word, and no line of it is waited for as R149 waits for a load. -/
def State.vecClear (s : State) (srcs : List VSrc) (dsts : List Placed) : Prop :=
  (∀ p ∈ dsts, ∀ m ∈ p.all, s.core.vec.mayWrite m = true ∧ m ∉ s.core.vec.landing) ∧
  (∀ x ∈ srcs, ∀ m ∈ x.at_.all, m ∉ s.core.vec.landing)

/-- The line n is the first of l that the vector stream does not see full. -/
def State.firstEmpty (s : State) (l : List Nat) (n : Nat) : Prop :=
  ∃ p q : List Nat, l = p ++ n :: q ∧ (∀ x ∈ p, s.core.fullAs s.core.vec.marks x = true) ∧ s.core.fullAs s.core.vec.marks n = false

section
variable {s : State} {srcs : List VSrc} {dsts : List Placed} {n : Nat}

theorem firstEmpty_find {l : List Nat} (h : s.firstEmpty l n) : l.find? (fun n => !s.core.fullAs s.core.vec.marks n) = some n := by
  obtain ⟨p, q, rfl, hp, hn⟩ := h
  exact find?_append_cons (fun x hx => by simp [hp x hx]) (by simp [hn])

/-- No destination line is closed to the word. -/
theorem vecClear_writes (hc : s.vecClear srcs dsts) : (dsts.flatMap Placed.all).find? (fun n => !s.core.vec.mayWrite n) = none := by
  refine List.find?_eq_none.2 (fun m hm => ?_)
  obtain ⟨p, hp, hm⟩ := List.mem_flatMap.1 hm
  simp [(hc.1 p hp m hm).1]

/-- No line is one that a load in flight will write. -/
theorem vecClear_landing (hc : s.vecClear srcs dsts) :
    (srcs.flatMap (·.at_.all) ++ dsts.flatMap Placed.all).find? (fun n => s.core.vec.landing.contains n) = none := by
  refine List.find?_eq_none.2 (fun m hm => ?_)
  rcases List.mem_append.1 hm with hm | hm
  · obtain ⟨x, hx, hm⟩ := List.mem_flatMap.1 hm
    simp [hc.2 x hx m hm]
  · obtain ⟨p, hp, hm⟩ := List.mem_flatMap.1 hm
    simp [(hc.1 p hp m hm).2]

theorem linesW_true : (srcs.filter (·.w)).flatMap (·.at_.all) = linesW srcs true := by simp [linesW]

theorem linesW_false : (srcs.filter (!·.w)).flatMap (·.at_.all) = linesW srcs false := by simp [linesW]

theorem vecTest_waits (hc : s.vecClear srcs dsts) (h : s.firstEmpty (linesW srcs true) n) :
    s.vecTest srcs dsts none = some (.wait 1 n s) := by
  simp only [State.vecTest, vecClear_writes hc, vecClear_landing hc, linesW_true, firstEmpty_find h]

theorem vecTest_stops (hc : s.vecClear srcs dsts) (hw : ∀ x ∈ linesW srcs true, s.core.fullAs s.core.vec.marks x = true)
    (h : s.firstEmpty (linesW srcs false) n) : s.vecTest srcs dsts none = some (.stop codeEmptyRead (some (wordOfNat n))) := by
  have hn : (linesW srcs true).find? (fun n => !s.core.fullAs s.core.vec.marks n) = none :=
    List.find?_eq_none.2 (fun x hx => by simp [hw x hx])
  simp only [State.vecTest, vecClear_writes hc, vecClear_landing hc, linesW_true, linesW_false, hn, firstEmpty_find h]

/-- A word that answers as the tests of R29 do, whenever they do not let it go on. -/
def State.testsFirst (s : State) (i : Instr) (srcs : List VSrc) (dsts : List Placed) : Prop :=
  ∀ r : EngIssue, s.vecTest srcs dsts none = some r → exec i s = .next (s.issueVec r)

theorem vecRun_of_test {hold : Option Nat} {run : Except VFail VOut} {r : EngIssue} (h : s.vecTest srcs dsts hold = some r) :
    s.vecRun srcs dsts hold run = r := by simp only [State.vecRun, h]

/-! ### The stop with EMPTYREAD -/

/-- A vector fault other than DATA_LOST while accesses are under way (R159). -/
theorem issueVec_stop_busy {code : Code} {d : Option Word} (h : s.core.vec.vp ≠ []) :
    s.issueVec (.stop code d) = s.engWaits .vec 4 0 := by simp [State.issueVec, State.engWaits, h]

theorem issueVec_stop_idle {code : Code} {d : Word} (h : s.core.vec.vp = []) (hc : code ≠ codeDataLost) :
    s.issueVec (.stop code (some d)) = s.stopWith .vec 0 code s.core.vec.eng.pc false false false d := by
  simp only [State.issueVec, h, hc, false_and]
  rfl

theorem stopWith_vec {code : Code} {at_ d : Word} {a b c : Bool} : (s.stopWith .vec 0 code at_ a b c d).core.vec =
    { s.core.vec with eng := s.core.vec.eng.halted code } := by rw [stopWith_eq]; rfl

theorem stopWith_mat {code : Code} {at_ d : Word} {a b c : Bool} : (s.stopWith .mat 0 code at_ a b c d).core.mat =
    { s.core.mat with eng := s.core.mat.eng.halted code } := by rw [stopWith_eq]; rfl

/-- The detail stands in the record that takes its slot. -/
theorem stopWith_record_detail {e : Eng} {code : Code} {at_ d : Word} {a b c : Bool} (h : s.core.seq.stopPending e.stream = false) :
    ((s.stopWith e 0 code at_ a b c d).core.records[(Fin.ofNat 4 e.stream.code : Fin 4)]).extractLsb' 128 64 = d := by
  simp only [stopWith_records, h, Bool.false_eq_true, if_false, Fin.getElem_fin, Vector.getElem_set_self]
  exact recordBits_addr ..

/-- What the statement asks of a vector word with these sources and destinations. -/
def State.meetsEmpty (s : State) (i : Instr) (srcs : List VSrc) (dsts : List Placed) : Prop :=
  (∀ p ∈ dsts, ∀ m ∈ p.all, s.core.vec.mayWrite m = true ∧ m ∉ s.core.vec.landing) →
  (∀ x ∈ srcs, ∀ m ∈ x.at_.all, m ∉ s.core.vec.landing) → ∀ m : Nat,
    (s.firstEmpty (linesW srcs true) m → exec i s = .next (s.engWaits .vec 1 m)) ∧
    ((∀ x ∈ linesW srcs true, s.core.fullAs s.core.vec.marks x = true) → s.firstEmpty (linesW srcs false) m →
      (s.core.vec.vp ≠ [] → exec i s = .next (s.engWaits .vec 4 0)) ∧
      (s.core.vec.vp = [] → ∃ u, exec i s = .next u ∧
        u = s.stopWith .vec 0 0x0303 s.core.vec.eng.pc false false false (BitVec.ofNat 64 m) ∧
        u.core.vec = { s.core.vec with eng := { s.core.vec.eng with st := .stopped, code := 0x0303, stopReq := false, releasing := false } } ∧
        u.core.tree = s.core.tree ∧ s.sameMemory u ∧ u.core.seq.traps = s.core.seq.traps ++ [.stop .vec 0x0303 s.now] ∧
        (s.core.seq.stopPending .vec = false →
          (u.core.records[(Fin.ofNat 4 Eng.vec.stream.code : Fin 4)]).extractLsb' 128 64 = BitVec.ofNat 64 m)))

theorem meetsEmpty_of_testsFirst {i : Instr} (h : s.testsFirst i srcs dsts) : s.meetsEmpty i srcs dsts := by
  intro hd hs m
  refine ⟨fun he => h _ (vecTest_waits ⟨hd, hs⟩ he), fun hw he => ?_⟩
  have hx := h _ (vecTest_stops ⟨hd, hs⟩ hw he)
  refine ⟨fun hv => by rw [hx, issueVec_stop_busy hv], fun hv => ⟨_, hx, ?_⟩⟩
  rw [issueVec_stop_idle hv (by decide)]
  exact ⟨rfl, stopWith_vec, stopWith_tree .., stopWith_sameMemory .., congrArg Sequencer.traps (stopWith_seq ..),
    fun hp => stopWith_record_detail (e := .vec) hp⟩

end

/-! ### Each form of vector word makes the tests of its own sources -/

section
variable {s : State} {d a b : TreeOp} {wa wb : Bool} {pd pa pb : Placed}

theorem vecLanes_tests {i : Instr} {ok : EType → Bool} {act : Nat → Bool} {w : Nat} {l : List (TreeOp × Bool)}
    {f : List (List Nat) → Nat → Nat × BitVec 5} {ps : List Placed} (hi : exec i s = s.vecLanes ok act d w l f)
    (hok : ok s.core.vec.shape.ty = true) (hw : s.core.vec.shape.lanes * w ≤ 256)
    (hp : s.vecPlaces ((d, linesFor (s.core.vec.shape.lanes * w)) :: l.map (fun x => (x.1, s.core.vec.span))) = some (pd :: ps)) :
    s.testsFirst i ((ps.zip l).map (fun x => ⟨x.1, x.2.2⟩)) [pd] := by
  intro r hr
  rw [hi]
  refine congrArg (fun r => Host.Outcome.next (s.issueVec r)) ?_
  simp only [hok, Bool.not_true, Bool.false_eq_true, if_false, if_neg (Nat.not_lt.2 hw), hp]
  exact vecRun_of_test hr

theorem vecReduce_tests {i : Instr} {f : EType → List (Nat × Nat) → Nat × Nat} (hi : exec i s = s.vecReduce d a wa f)
    (hok : tyArith s.core.vec.shape.ty = true) (hp : s.vecPlaces [(d, 1), (a, s.core.vec.span)] = some [pd, pa]) :
    s.testsFirst i [⟨pa, wa⟩] [pd] := by
  intro r hr
  rw [hi]
  refine congrArg (fun r => Host.Outcome.next (s.issueVec r)) ?_
  simp only [hok, Bool.not_true, Bool.false_eq_true, if_false, hp]
  exact vecRun_of_test hr

theorem vecCompare_tests {i : Instr} {m : Fin 8} {f : Int → Int → Bool} (hi : exec i s = s.vecCompare m a b wa wb f)
    (hok : tyArith s.core.vec.shape.ty = true) (hp : s.vecPlaces [(a, s.core.vec.span), (b, s.core.vec.span)] = some [pa, pb]) :
    s.testsFirst i [⟨pa, wa⟩, ⟨pb, wb⟩] [] := by
  intro r hr
  rw [hi]
  refine congrArg (fun r => Host.Outcome.next (s.issueVec r)) ?_
  simp only [State.ty, hok, Bool.not_true, Bool.false_eq_true, if_false, hp]
  exact vecRun_of_test hr

theorem vBitt_tests {imm : BitVec 9} (hok : tyInt s.core.vec.shape.ty = true)
    (hp : s.vecPlaces [(d, s.core.vec.span), (a, 4)] = some [pd, pa]) : s.testsFirst (.vBitt d a wa imm) [⟨pa, wa⟩] [pd] := by
  intro r hr
  refine congrArg (fun r => Host.Outcome.next (s.issueVec r)) ?_
  simp only [State.ty, hok, Bool.not_true, Bool.false_eq_true, if_false, hp]
  exact vecRun_of_test hr

theorem vecCordic_tests {i : Instr} {k : CorKind} {rot : Bool} {n : Nat} {ds as : List Placed} (hi : exec i s = s.vecCordic d a wa k rot n)
    (hok : tyI32 s.core.vec.shape.ty = true) (hd : s.core.placeMany s.core.vec.eng.k d 3 s.core.vec.span [kindVec] = some ds)
    (ha : s.core.placeMany s.core.vec.eng.k a 3 s.core.vec.span [kindVec] = some as) :
    s.testsFirst i (as.map (fun p => ⟨p, wa⟩)) ds := by
  intro r hr
  rw [hi]
  refine congrArg (fun r => Host.Outcome.next (s.issueVec r)) ?_
  simp only [State.ty, hok, Bool.not_true, Bool.false_eq_true, if_false, hd, ha]
  exact vecRun_of_test hr

theorem vCdfq_tests {ds as : List Placed} (hok : tyI32 s.core.vec.shape.ty = true)
    (hd : s.core.placeMany s.core.vec.eng.k d 16 s.core.vec.span [kindVec] = some ds)
    (ha : s.core.placeMany s.core.vec.eng.k a 16 s.core.vec.span [kindVec] = some as) :
    s.testsFirst (.vCdfq d a wa) (as.map (fun p => ⟨p, wa⟩)) ds := by
  intro r hr
  refine congrArg (fun r => Host.Outcome.next (s.issueVec r)) ?_
  simp only [State.ty, hok, Bool.not_true, Bool.false_eq_true, if_false, hd, ha]
  exact vecRun_of_test hr

/-! The words with a handle operand. -/

variable {h : Hnd} {x : Binding}

theorem vpHandle_window (hx : s.core.seq.h[h] = some x) (hu : x.usable = true) (hk : x.kind = .window) (hh : s.core.holdsNew .vp = false)
    {write : Bool} (hw : write = true → x.writable = true) (k : Binding → Option Nat → EngIssue) : s.vpHandle h write k = k x none := by
  have hu' : x.revoked = false ∧ x.revoking = false := by simpa [Binding.usable] using hu
  have hb : s.core.engBinding h write = .ok x := by
    simp only [Core.engBinding, hx, hu'.1, hu'.2]
    cases write <;> simp_all
  simp only [State.vpHandle, hx, hb, hk, hh]
  rfl

theorem vSt_tests {j : KIx} (hp : s.vecPlaces [(d, s.core.vec.span)] = some [pd])
    (ho : (s.core.vec.eng.k[j]).val.toNat % s.core.vec.shape.ty.width = 0)
    (hl : (s.core.vec.eng.k[j]).val.toNat + s.core.vec.shape.ty.width * s.core.vec.shape.lanes ≤ x.len)
    (hb : ∀ k, s.vpHandle h true k = k x none) : s.testsFirst (.vSt d h j wa) [⟨pd, wa⟩] [] := by
  intro r hr
  refine congrArg (fun r => Host.Outcome.next (s.issueVec r)) ?_
  have hspan : laneSpanOk s.core.vec.shape (s.core.vec.eng.k[j]).val.toNat x.len = true := decide_eq_true hl
  simp only [State.ty, hp, ho, ne_eq, not_true_eq_false, if_false, hb, hspan, Bool.not_true, Bool.false_eq_true]
  exact vecRun_of_test hr

theorem vGather_tests (hp : s.vecPlaces [(d, s.core.vec.span), (a, s.core.vec.span)] = some [pd, pa])
    (hb : ∀ k, s.vpHandle h false k = k x none) : s.testsFirst (.vGather d a h wa) [⟨pa, wa⟩] [pd] := by
  intro r hr
  refine congrArg (fun r => Host.Outcome.next (s.issueVec r)) ?_
  simp only [hp, hb]
  exact vecRun_of_test hr

theorem vScatter_tests (hp : s.vecPlaces [(d, s.core.vec.span), (a, s.core.vec.span)] = some [pd, pa])
    (hb : ∀ k, s.vpHandle h true k = k x none) : s.testsFirst (.vScatter d a h wa wb) [⟨pd, wb⟩, ⟨pa, wa⟩] [] := by
  intro r hr
  refine congrArg (fun r => Host.Outcome.next (s.issueVec r)) ?_
  simp only [hp, hb]
  exact vecRun_of_test hr

/-! The words of the range coder. -/

theorem coderHold_none {use : CoderUse} (hh : s.core.holdsNew .vp = false) (hv : s.core.vec.vp = []) : s.coderHold use = none := by
  cases use <;> simp [State.coderHold, hh, hv]

theorem coderWord_tests {i : Instr} {init : Option (Hnd × Bool)} {use : CoderUse} {l : List (TreeOp × Nat × Bool)} {dst : Option TreeOp}
    {f : Nat → List (List Nat) → CLane → CRun} {post : List (Nat × CRun) → Core → Core} {pc pds : List Placed} {ps : List (List Placed)}
    (hi : exec i s = s.coderWord d init use l dst f post) (hok : tyWord s.core.vec.shape.ty = true)
    (hc : s.core.placeMany s.core.vec.eng.k d 6 s.core.vec.span [kindCoder] = some pc)
    (hs : l.mapM (fun x => s.core.placeMany s.core.vec.eng.k x.1 x.2.1 s.core.vec.span [kindVec]) = some ps)
    (hd : dst.toList.mapM (fun d => s.core.place s.core.vec.eng.k d s.core.vec.span [kindVec]) = some pds)
    (hh : s.core.holdsNew .vp = false) (hv : s.core.vec.vp = []) (hinit : ∀ k, s.coderHandle init k = k) :
    s.testsFirst i (pc.map (fun p => ⟨p, true⟩) ++ (ps.zip l).flatMap (fun x => x.1.map (fun p => ⟨p, x.2.2.2⟩))) (pc ++ pds) := by
  intro r hr
  rw [hi]
  refine congrArg (fun r => Host.Outcome.next (s.issueVec r)) ?_
  simp only [State.ty, hok, Bool.not_true, Bool.false_eq_true, if_false, hc, hs, hd, hinit, coderHold_none hh hv, hr]

theorem rcStat_tests {pc : List Placed} (hok : tyWord s.core.vec.shape.ty = true)
    (hc : s.core.placeMany s.core.vec.eng.k d 6 s.core.vec.span [kindCoder] = some pc)
    (hb : s.core.place s.core.vec.eng.k b s.core.vec.span [kindVec] = some pb) :
    s.testsFirst (.rcStat d b) (pc.map (fun p => ⟨p, true⟩)) [pb] := by
  intro r hr
  refine congrArg (fun r => Host.Outcome.next (s.issueVec r)) ?_
  simp only [State.ty, hok, Bool.not_true, Bool.false_eq_true, if_false, hc, hb]
  exact vecRun_of_test hr

end
/-! ### The matrix words -/

section
variable {s : State} {w : Bool} {lines : List Nat}

/-- A matrix word that answers as the tests of its source lines do, whenever they do not let it go on. -/
def State.matTestsFirst (s : State) (i : Instr) (lines : List Nat) (w : Bool) : Prop :=
  ∀ r : EngIssue, s.matTest lines w = some r → exec i s = .next (s.issueMat r)

theorem matTest_of_empty {l l' : List Nat} {n : Nat} (hh : ∀ x ∈ lines, x ∉ s.core.mat.heldLines) (he : lines = l ++ n :: l')
    (hl : ∀ x ∈ l, (s.core.line x).full = true) (hn : (s.core.line n).full = false) :
    s.matTest lines w = some (if w then .wait 1 n s else .stop codeEmptyRead (some (wordOfNat n))) := by
  have h1 : lines.find? (fun n => s.core.mat.heldLines.contains n) = none := List.find?_eq_none.2 (fun x hx => by simp [hh x hx])
  have h2 : lines.find? (fun n => !(s.core.line n).full) = some n := by
    rw [he]; exact find?_append_cons (fun x hx => by simp [hl x hx]) (by simp [hn])
  simp only [State.matTest, h1, h2]

/-- The waits of a matrix read leave the state as it is. -/
theorem matTest_waitingIn {r : EngIssue} (h : s.matTest lines w = some r) : r.waitingIn s = r := by
  unfold State.matTest at h
  split at h
  · cases h; rfl
  · split at h
    · cases h; cases w <;> rfl
    · obtain ⟨n, -, rfl⟩ := Option.map_eq_some_iff.1 h; rfl

/-- A fault of a matrix word for which no slot is held stops the engine, and spills in the middle of a reduction (R123). -/
theorem issueMat_stop_empty {d : Word} (hm : s.core.mat.held = []) : let u := s.issueMat (.stop codeEmptyRead (some d))
    u.core.mat.eng.st = .stopped ∧ u.core.mat.eng.code = codeEmptyRead ∧ u.core.mat.eng.pc = s.core.mat.eng.pc ∧
    u.core.mat.acc = s.core.mat.acc ∧ u.core.mat.reds = s.core.mat.reds ∧ u.core.tree = s.core.tree ∧ s.sameMemory u ∧
    (s.core.mat.openRed.isSome = true → u.core.mat.spilled = true) ∧
    u.core.seq.traps = s.core.seq.traps ++ [.stop .mat codeEmptyRead s.now] := by
  intro u
  have hu : u = if s.core.mat.openRed.isSome then
      (s.upd (fun c => c.spillNow codeEmptyRead)).stopWith .mat 0 codeEmptyRead s.core.mat.eng.pc true false false d
    else s.stopWith .mat 0 codeEmptyRead s.core.mat.eng.pc false false false d := by
    have h1 : codeEmptyRead ≠ codeDataLost := by decide
    have h2 : isSpillCode codeEmptyRead = true := by decide
    simp only [u, State.issueMat, State.matFault, h1, false_and, if_false, h2, and_true, State.matSpill, hm]
    rfl
  by_cases ho : s.core.mat.openRed.isSome = true
  · rw [hu, if_pos ho, stopWith_mat, stopWith_tree, stopWith_seq]
    exact ⟨rfl, rfl, rfl, rfl, rfl, rfl, stopWith_sameMemory .., fun _ => rfl, rfl⟩
  · rw [hu, if_neg ho, stopWith_mat, stopWith_tree, stopWith_seq]
    exact ⟨rfl, rfl, rfl, rfl, rfl, rfl, stopWith_sameMemory .., fun h => absurd h ho, rfl⟩

/-- What the statement asks of a matrix word that reads these lines. -/
def State.matMeetsEmpty (s : State) (i : Instr) (w : Bool) (lines : List Nat) : Prop :=
  (∀ x ∈ lines, x ∉ s.core.mat.heldLines) →
  ∀ (l l' : List Nat) (n : Nat), lines = l ++ n :: l' → (∀ x ∈ l, (s.core.line x).full = true) → (s.core.line n).full = false →
    (w = true → exec i s = .next (s.engWaits .mat 1 n)) ∧
    (w = false → exec i s = .next (s.issueMat (.stop 0x0303 (some (BitVec.ofNat 64 n)))) ∧
      (s.core.mat.held = [] → ∃ u, exec i s = .next u ∧ u.core.mat.eng.st = .stopped ∧ u.core.mat.eng.code = 0x0303 ∧
        u.core.mat.eng.pc = s.core.mat.eng.pc ∧ u.core.mat.acc = s.core.mat.acc ∧ u.core.mat.reds = s.core.mat.reds ∧
        u.core.tree = s.core.tree ∧ s.sameMemory u ∧ (s.core.mat.openRed.isSome = true → u.core.mat.spilled = true) ∧
        u.core.seq.traps = s.core.seq.traps ++ [.stop .mat 0x0303 s.now]))

theorem matMeetsEmpty_of_testsFirst {i : Instr} (h : s.matTestsFirst i lines w) : s.matMeetsEmpty i w lines := by
  intro hh l l' n he hl hn
  have hx := h _ (matTest_of_empty hh he hl hn)
  refine ⟨fun hw => ?_, fun hw => ?_⟩ <;> subst hw
  · exact hx
  · exact ⟨hx, fun hm => ⟨_, hx, issueMat_stop_empty hm⟩⟩

end

section
variable {s : State} {t a b : TreeOp} {w : Bool} {p pa pb : Placed}

theorem mLdacc_tests (hf : s.core.mat.fresh = true) (hp : s.matPlace t 256 kindVec = some p) :
    s.matTestsFirst (.mLdacc t w) (segLines s.core.mat.seg p.line 256) w := by
  intro r hr
  refine congrArg (fun r => Host.Outcome.next (s.issueMat r)) ?_
  simp only [hf, Bool.not_true, Bool.false_eq_true, if_false, hp, hr]

theorem mSeg_tests (hf : s.core.mat.fresh = true) (hp : s.matPlace t 1 kindVec = some p) : s.matTestsFirst (.mSeg t w) [p.line] w := by
  intro r hr
  refine congrArg (fun r => Host.Outcome.next (s.issueMat r)) ?_
  simp only [hf, Bool.not_true, Bool.false_eq_true, if_false, hp, hr]

theorem mScale_tests (ha : s.matPlace a 1 kindVec = some pa) (hb : s.matPlace b 1 kindVec = some pb) :
    s.matTestsFirst (.mScale a b w) [pa.line, pb.line] w := by
  intro r hr
  refine congrArg (fun r => Host.Outcome.next (s.issueMat r)) ?_
  simp only [ha, hb, hr]

theorem mRetF32Add_tests {r : Reduction} (ho : s.core.mat.openRed = some r) (hn : r.p = r.n) (hh : s.core.mat.held.length < 2)
    (hp : s.matPlace t 256 kindVec = some p) : s.matTestsFirst (.mRetF32Add t) (segLines s.core.mat.seg p.line 256) true := by
  intro e he
  refine congrArg Host.Outcome.next (congrArg s.issueMat ?_)
  simp only [ho, hn, ne_eq, not_true_eq_false, if_false, RetFmt.lines, hp, if_neg (Nat.not_le.2 hh), if_true, he]

theorem asRead_of_none (h : s.core.mat.begun = none) : s.asRead = s := by
  simp only [State.asRead, State.upd, Core.asRead, h]

/-- The tests of an accumulate word of the kind that the running reduction has, before it has read anything (R117). -/
theorem accumulate_tests {i : Instr} {row : BitVec 12} {k : BKind} {r : Reduction} (hi : exec i s = .next (s.accumulate t row k w))
    (ho : s.core.mat.openRed = some r) (hk : k.fits r.mode = true) (hr : r.p < r.n) (hb : s.core.mat.begun = none)
    (hp : s.matPlace t 32 kindTile = some p) (hw : s.core.mat.base + row.toNat + k.rows ≤ s.core.res.wb) :
    s.matTestsFirst i (segLines s.core.mat.seg p.line 32) w := by
  intro e he
  rw [hi]
  have hrows : 0 < k.rows := by cases k <;> exact Nat.succ_pos _
  have ht : s.accTest t row k w = .no e := by
    simp only [State.accTest, ho, hk, hp, he]
    rw [if_neg (by simp [hr]), if_neg (by omega)]
  refine congrArg Host.Outcome.next (congrArg s.issueMat ?_)
  simp only [asRead_of_none hb, ht, matTest_waitingIn he]

end

/-! ### The groups of vector words -/

section
variable {s : State} {d a b : TreeOp} {wa wb : Bool} {pd pa pb : Placed}

/-- A property of every instruction of a list, by one proof for each. -/
theorem forall_cons {P : Instr → Prop} {i : Instr} {l : List Instr} (h : P i) (t : ∀ j ∈ l, P j) : ∀ j ∈ i :: l, P j :=
  List.forall_mem_cons.2 ⟨h, t⟩

theorem forall_nil {P : Instr → Prop} : ∀ j ∈ ([] : List Instr), P j := List.forall_mem_nil P

theorem vec1_meets {i : Instr} {ok : EType → Bool} {act : Nat → Bool} {f : List (List Nat) → Nat → Nat × BitVec 5}
    (hok : ok s.core.vec.shape.ty = true) (hw : s.core.vec.shape.lanes * s.core.vec.shape.ty.width ≤ 256)
    (hp : s.vecPlaces [(d, s.core.vec.span), (a, s.core.vec.span)] = some [pd, pa])
    (hi : exec i s = s.vecLanes ok act d s.ty.width [(a, wa)] f) : s.meetsEmpty i [⟨pa, wa⟩] [pd] :=
  meetsEmpty_of_testsFirst (vecLanes_tests hi hok hw hp)

theorem vec2_meets {i : Instr} {ok : EType → Bool} {act : Nat → Bool} {f : List (List Nat) → Nat → Nat × BitVec 5}
    (hok : ok s.core.vec.shape.ty = true) (hw : s.core.vec.shape.lanes * s.core.vec.shape.ty.width ≤ 256)
    (hp : s.vecPlaces [(d, s.core.vec.span), (a, s.core.vec.span), (b, s.core.vec.span)] = some [pd, pa, pb])
    (hi : exec i s = s.vecLanes ok act d s.ty.width [(a, wa), (b, wb)] f) : s.meetsEmpty i [⟨pa, wa⟩, ⟨pb, wb⟩] [pd] :=
  meetsEmpty_of_testsFirst (vecLanes_tests hi hok hw hp)

/-- Two sources of lanes of the SHAPE type. -/
theorem pairs_meet (hw : s.core.vec.shape.lanes * s.core.vec.shape.ty.width ≤ 256)
    (hp : s.vecPlaces [(d, s.core.vec.span), (a, s.core.vec.span), (b, s.core.vec.span)] = some [pd, pa, pb]) :
    let two := fun (i : Instr) (ok : Bool) => ok = true → s.meetsEmpty i [⟨pa, wa⟩, ⟨pb, wb⟩] [pd]
    (∀ i ∈ [Instr.vAdd d a b wa wb, .vSub d a b wa wb, .vMul d a b wa wb, .vMin d a b wa wb, .vMax d a b wa wb],
      two i (tyArith s.core.vec.shape.ty)) ∧
    (∀ i ∈ [Instr.vAnd d a b wa wb, .vOr d a b wa wb, .vXor d a b wa wb, .vShl d a b wa wb, .vShr d a b wa wb,
      .vSar d a b wa wb], two i (tyInt s.core.vec.shape.ty)) ∧
    (∀ i ∈ [Instr.vPerm d a b wa wb, .vSel d a b wa wb], two i true) ∧
    (∀ i ∈ [Instr.vRcpf d a b wa wb, .vRsqf d a b wa wb], two i (tyFloat s.core.vec.shape.ty)) ∧
    two (.vHash d a b wa wb) (tyWord s.core.vec.shape.ty) ∧ two (.vNoise d a b wa wb) (tyF32 s.core.vec.shape.ty) := by
  intro two
  have h2 : ∀ (ok : EType → Bool) (i : Instr), (∃ f, exec i s = s.vec2 ok d a b wa wb f) → two i (ok s.core.vec.shape.ty) :=
    fun _ _ hi hok => vec2_meets hok hw hp hi.choose_spec
  have hany : ∀ i : Instr, (∃ act f, exec i s = s.vecLanes tyAny act d s.ty.width [(a, wa), (b, wb)] f) → two i true :=
    fun _ ⟨_, _, hi⟩ _ => vec2_meets (ok := tyAny) rfl hw hp hi
  have arith := h2 tyArith
  have int := h2 tyInt
  exact ⟨forall_cons (arith _ ⟨_, rfl⟩) (forall_cons (arith _ ⟨_, rfl⟩) (forall_cons (arith _ ⟨_, rfl⟩) (forall_cons (arith _ ⟨_, rfl⟩)
      (forall_cons (arith _ ⟨_, rfl⟩) forall_nil)))),
    forall_cons (int _ ⟨fun _ x y => x &&& y, rfl⟩) (forall_cons (int _ ⟨fun _ x y => x ||| y, rfl⟩)
      (forall_cons (int _ ⟨fun _ x y => x ^^^ y, rfl⟩) (forall_cons (int _ ⟨laneShl, rfl⟩)
      (forall_cons (int _ ⟨laneShr, rfl⟩) (forall_cons (int _ ⟨laneSar, rfl⟩) forall_nil))))),
    forall_cons (hany _ ⟨_, _, show execVPerm d a b wa wb s = _ from rfl⟩)
      (forall_cons (hany _ ⟨_, _, show execVSel d a b wa wb s = _ by unfold execVSel; rfl⟩) forall_nil),
    forall_cons (h2 tyFloat _ ⟨_, rfl⟩) (forall_cons (h2 tyFloat _ ⟨_, rfl⟩) forall_nil),
    h2 tyWord _ ⟨fun _ x y => keyedHash x y, rfl⟩, h2 tyF32 _ ⟨fun _ x y => laneNoise x y, rfl⟩⟩

/-- One source of lanes of the SHAPE type. -/
theorem singles_meet {imm : BitVec 9} (hw : s.core.vec.shape.lanes * s.core.vec.shape.ty.width ≤ 256)
    (hp : s.vecPlaces [(d, s.core.vec.span), (a, s.core.vec.span)] = some [pd, pa]) :
    let one := fun (i : Instr) (ok : Bool) => ok = true → s.meetsEmpty i [⟨pa, wa⟩] [pd]
    (∀ i ∈ [Instr.vAbs d a wa, .vNeg d a wa, .vAddi d a wa imm, .vMuli d a wa imm], one i (tyArith s.core.vec.shape.ty)) ∧
    (∀ i ∈ [Instr.vClz d a wa, .vPopc d a wa], one i (tyInt s.core.vec.shape.ty)) ∧
    (∀ i ∈ [Instr.vRcpa d a wa, .vRsqa d a wa], one i (tyFloat s.core.vec.shape.ty)) ∧
    one (.vBcast d a wa imm) (decide (imm.toNat < s.core.vec.shape.lanes)) ∧ one (.vSigq d a wa) (tyI32 s.core.vec.shape.ty) := by
  intro one
  have h1 : ∀ (ok : EType → Bool) (i : Instr), (∃ f, exec i s = s.vecLanes ok s.core.vec.active d s.ty.width [(a, wa)] f) →
      one i (ok s.core.vec.shape.ty) := fun _ _ hi hok => vec1_meets hok hw hp hi.choose_spec
  exact ⟨forall_cons (h1 _ _ ⟨_, rfl⟩) (forall_cons (h1 _ _ ⟨_, rfl⟩) (forall_cons (h1 _ _ ⟨_, rfl⟩) (forall_cons (h1 _ _ ⟨_, rfl⟩) forall_nil))),
    forall_cons (h1 _ _ ⟨_, rfl⟩) (forall_cons (h1 _ _ ⟨_, rfl⟩) forall_nil),
    forall_cons (h1 _ _ ⟨_, rfl⟩) (forall_cons (h1 _ _ ⟨_, rfl⟩) forall_nil),
    fun hl => vec1_meets (ok := tyAny) rfl hw hp (if_neg (Nat.not_le.2 (of_decide_eq_true hl))), h1 _ _ ⟨_, rfl⟩⟩

theorem compares_meet {m : Fin 8} (hok : tyArith s.core.vec.shape.ty = true)
    (hp : s.vecPlaces [(a, s.core.vec.span), (b, s.core.vec.span)] = some [pa, pb]) :
    ∀ i ∈ [Instr.vCmpeq m a b wa wb, .vCmplt m a b wa wb, .vCmple m a b wa wb], s.meetsEmpty i [⟨pa, wa⟩, ⟨pb, wb⟩] [] :=
  have h : ∀ i : Instr, (∃ f, exec i s = s.vecCompare m a b wa wb f) → s.meetsEmpty i [⟨pa, wa⟩, ⟨pb, wb⟩] [] :=
    fun _ hi => meetsEmpty_of_testsFirst (vecCompare_tests hi.choose_spec hok hp)
  forall_cons (h _ ⟨_, rfl⟩) (forall_cons (h _ ⟨_, rfl⟩) (forall_cons (h _ ⟨_, rfl⟩) forall_nil))

theorem reductions_meet (hok : tyArith s.core.vec.shape.ty = true) (hp : s.vecPlaces [(d, 1), (a, s.core.vec.span)] = some [pd, pa]) :
    ∀ i ∈ [Instr.vRedsum d a wa, .vRedmax d a wa, .vRedmin d a wa, .vArgmax d a wa], s.meetsEmpty i [⟨pa, wa⟩] [pd] :=
  have h : ∀ i : Instr, (∃ f, exec i s = s.vecReduce d a wa f) → s.meetsEmpty i [⟨pa, wa⟩] [pd] :=
    fun _ hi => meetsEmpty_of_testsFirst (vecReduce_tests hi.choose_spec hok hp)
  forall_cons (h _ ⟨_, rfl⟩) (forall_cons (h _ ⟨_, rfl⟩) (forall_cons (h _ ⟨_, rfl⟩) (forall_cons (h _ ⟨_, rfl⟩) forall_nil)))

theorem cordics_meet {ds as : List Placed} {c : BitVec 5} (hok : tyI32 s.core.vec.shape.ty = true)
    (hd : s.core.placeMany s.core.vec.eng.k d 3 s.core.vec.span [kindVec] = some ds)
    (ha : s.core.placeMany s.core.vec.eng.k a 3 s.core.vec.span [kindVec] = some as) :
    ∀ i ∈ [Instr.vCorCrot d a wa c, .vCorCvec d a wa c, .vCorHrot d a wa c, .vCorHvec d a wa c, .vCorLrot d a wa c,
      .vCorLvec d a wa c], s.meetsEmpty i (as.map (fun p => ⟨p, wa⟩)) ds :=
  have h : ∀ i : Instr, (∃ k rot, exec i s = s.vecCordic d a wa k rot c.toNat) → s.meetsEmpty i (as.map (fun p => ⟨p, wa⟩)) ds :=
    fun _ ⟨_, _, hi⟩ => meetsEmpty_of_testsFirst (vecCordic_tests hi hok hd ha)
  forall_cons (h _ ⟨_, _, rfl⟩) (forall_cons (h _ ⟨_, _, rfl⟩) (forall_cons (h _ ⟨_, _, rfl⟩) (forall_cons (h _ ⟨_, _, rfl⟩)
    (forall_cons (h _ ⟨_, _, rfl⟩) (forall_cons (h _ ⟨_, _, rfl⟩) forall_nil)))))

/-! The words of the range coder. -/

variable {lanes as bs : List Placed}

/-- The sources that the places of one operand are. -/
def srcsOf (w : Bool) (l : List Placed) : List VSrc := l.map (fun p => ⟨p, w⟩)

theorem placeMany_mapM {l : TreeOp} {m : Nat} {w : Bool} (h : s.core.placeMany s.core.vec.eng.k l m s.core.vec.span [kindVec] = some as) :
    [(l, m, w)].mapM (fun x => s.core.placeMany s.core.vec.eng.k x.1 x.2.1 s.core.vec.span [kindVec]) = some [as] := by
  simp [h]

section
variable (hok : tyWord s.core.vec.shape.ty = true) (hc : s.core.placeMany s.core.vec.eng.k d 6 s.core.vec.span [kindCoder] = some lanes)
  (hh : s.core.holdsNew .vp = false) (hv : s.core.vec.vp = [])
include hok hc hh hv

/-- A coder word without further operands. -/
theorem coder_meets {i : Instr} {init : Option (Hnd × Bool)} {use : CoderUse} {f : Nat → List (List Nat) → CLane → CRun}
    {post : List (Nat × CRun) → Core → Core} (hinit : ∀ k, s.coderHandle init k = k) (hi : exec i s = s.coderWord d init use [] none f post) :
    s.meetsEmpty i (srcsOf true lanes) lanes := by
  have h := coderWord_tests (ps := []) (pds := []) hi hok hc rfl rfl hh hv hinit
  simp only [List.zip_nil_left, List.flatMap_nil, List.append_nil] at h
  exact meetsEmpty_of_testsFirst h

/-- A coder word with one further source and a symbol destination. -/
theorem coder_meets_dec {i : Instr} {use : CoderUse} {m : Nat} {f : Nat → List (List Nat) → CLane → CRun}
    {post : List (Nat × CRun) → Core → Core} (ha : s.core.placeMany s.core.vec.eng.k a m s.core.vec.span [kindVec] = some as)
    (hb : s.core.place s.core.vec.eng.k b s.core.vec.span [kindVec] = some pb)
    (hi : exec i s = s.coderWord d none use [(a, m, wa)] (some b) f post) :
    s.meetsEmpty i (srcsOf true lanes ++ srcsOf wa as) (lanes ++ [pb]) := by
  have h := coderWord_tests (ps := [as]) (pds := [pb]) hi hok hc (by simp [ha]) (by simp [hb]) hh hv (fun _ => rfl)
  simp only [List.zip_cons_cons, List.zip_nil_left, List.flatMap_cons, List.flatMap_nil, List.append_nil] at h
  exact meetsEmpty_of_testsFirst h

/-- A coder word with two further sources. -/
theorem coder_meets_enc {i : Instr} {use : CoderUse} {m : Nat} {f : Nat → List (List Nat) → CLane → CRun}
    {post : List (Nat × CRun) → Core → Core} (ha : s.core.placeMany s.core.vec.eng.k a m s.core.vec.span [kindVec] = some as)
    (hb : s.core.placeMany s.core.vec.eng.k b 1 s.core.vec.span [kindVec] = some bs)
    (hi : exec i s = s.coderWord d none use [(a, m, wa), (b, 1, wb)] none f post) :
    s.meetsEmpty i (srcsOf true lanes ++ (srcsOf wa as ++ srcsOf wb bs)) lanes := by
  have h := coderWord_tests (ps := [as, bs]) (pds := []) hi hok hc (by simp [ha, hb]) rfl hh hv (fun _ => rfl)
  simp only [List.zip_cons_cons, List.zip_nil_left, List.flatMap_cons, List.flatMap_nil, List.append_nil] at h
  exact meetsEmpty_of_testsFirst h

theorem coders_meet : ∀ i ∈ [Instr.rcFlush d, .rcSpec d, .rcUndo d, .rcKeep d], s.meetsEmpty i (srcsOf true lanes) lanes :=
  have h : ∀ i : Instr, (∃ use f post, exec i s = s.coderWord d none use [] none f post) → s.meetsEmpty i (srcsOf true lanes) lanes :=
    fun _ ⟨_, _, _, hi⟩ => coder_meets hok hc hh hv (fun _ => rfl) hi
  forall_cons (h _ ⟨_, _, _, show execRcFlush d s = _ from rfl⟩) (forall_cons (h _ ⟨_, _, _, show execRcSpec d s = _ from rfl⟩)
    (forall_cons (h _ ⟨_, _, _, show execRcUndo d s = _ from rfl⟩) (forall_cons (h _ ⟨_, _, _, show execRcKeep d s = _ from rfl⟩) forall_nil)))

end

theorem coderHandle_window {h : Hnd} {x : Binding} (hx : s.core.seq.h[h] = some x) (hu : x.usable = true) (hk : x.kind = .window)
    (hh : s.core.holdsNew .vp = false) {write : Bool} (hw : write = true → x.writable = true) (k : EngIssue) :
    s.coderHandle (some (h, write)) k = k := by
  rw [State.coderHandle, vpHandle_window hx hu hk hh hw]
  rfl

end

/-! ### The statement -/

/-- Settles O60: every word makes the tests of R29 on its own source lines, whose first empty line decides. -/
theorem emptySourceLinesWaitOrStop : Obligations.EmptySourceLinesWaitOrStop := by
  unfold Obligations.EmptySourceLinesWaitOrStop
  refine ⟨?_, ?_⟩
  · intro s d a b wa wb pd pa pb v sh t n full first meets arith int float word
    have hfloat : float = tyFloat t := by simp [float, tyFloat]
    have hword : word = tyWord t := by simp [word, tyWord]
    rw [hfloat, hword]
    exact ⟨fun hw hp => pairs_meet hw hp,
      fun hw hok hp => meetsEmpty_of_testsFirst (vecLanes_tests (ok := tyArith) (l := [(d, true), (a, wa), (b, wb)])
        (ps := [pd, pa, pb]) (show execVFma d a b wa wb s = _ from rfl) hok hw hp),
      fun imm hw hp => singles_meet hw hp,
      fun t' hw hp => meetsEmpty_of_testsFirst (vecLanes_tests (ok := tyAny) (l := [(a, wa)]) (ps := [pa])
        (show execVCvt d a t' wa s = _ from rfl) rfl hw hp),
      fun imm hok hp => meetsEmpty_of_testsFirst (vBitt_tests hok hp), fun m hok hp => compares_meet hok hp,
      fun hok hp => reductions_meet hok hp,
      fun ds as c ht => ⟨fun hd ha => cordics_meet (decide_eq_true ht) hd ha,
        fun hd ha => meetsEmpty_of_testsFirst (vCdfq_tests (decide_eq_true ht) hd ha)⟩,
      fun h j x hx hu hk hh =>
        ⟨fun hp hw ho hl => meetsEmpty_of_testsFirst (vSt_tests hp ho hl (vpHandle_window hx hu hk hh (fun _ => hw))),
          fun hp => ⟨meetsEmpty_of_testsFirst (vGather_tests hp (vpHandle_window hx hu hk hh (fun h => absurd h (by decide)))),
            fun hw => meetsEmpty_of_testsFirst (vScatter_tests hp (vpHandle_window hx hu hk hh (fun _ => hw)))⟩⟩,
      fun h lanes as bs hok hc hv hh =>
        ⟨coders_meet hok hc hh hv,
          fun x hx hu hk => ⟨coder_meets hok hc hh hv (coderHandle_window hx hu hk hh (fun h => absurd h (by decide)))
              (show execRcInitDec d h s = _ from rfl),
            fun hw => coder_meets hok hc hh hv (coderHandle_window hx hu hk hh (fun _ => hw)) (show execRcInitEnc d h s = _ from rfl)⟩,
          fun hb => ⟨meetsEmpty_of_testsFirst (rcStat_tests hok hc hb),
            fun ha => coder_meets_dec hok hc hh hv ha hb (show execRcDec d a b wa s = _ from rfl),
            fun ha => coder_meets_dec hok hc hh hv ha hb (show execRcDecm d a b wa s = _ from rfl)⟩,
          fun hb => ⟨fun ha => coder_meets_enc hok hc hh hv ha hb (show execRcEnc d a b wa wb s = _ from rfl),
            fun ha => coder_meets_enc hok hc hh hv ha hb (show execRcEncm d a b wa wb s = _ from rfl)⟩⟩⟩
  · intro s t a b w row planes r p pa pb m meets
    refine ⟨fun hf hp => matMeetsEmpty_of_testsFirst (mLdacc_tests hf hp), fun hf hp => matMeetsEmpty_of_testsFirst (mSeg_tests hf hp),
      fun ha hb => matMeetsEmpty_of_testsFirst (mScale_tests ha hb),
      fun ho hn hh hp => matMeetsEmpty_of_testsFirst (mRetF32Add_tests ho hn hh hp), ?_⟩
    intro acts
    have hacts : ∀ (i : Instr) (k : BKind) (mode : MatMode), exec i s = .next (s.accumulate t row k w) → k.fits mode = true →
        acts i mode k.rows := fun i k mode hi hk ho hm hr hb hp hw =>
      matMeetsEmpty_of_testsFirst (accumulate_tests hi ho (hm ▸ hk) hr hb hp hw)
    exact ⟨hacts _ .tern _ rfl rfl, hacts _ (.int8 (planes.val + 1)) _ rfl rfl, hacts _ .sparseTern _ rfl rfl,
      hacts _ (.sparseInt8 (planes.val + 1)) _ rfl rfl⟩
end Sys2Proof.Machine
end

section
/-!
PROOFS. Frames: which core is which after a change of focus, what lookups give after an update, and what the firmware's answers to
the host leave of the rest of the machine.
-/
namespace Sys2Proof.Machine

/-! ### Which core is which -/

theorem takeCore_id {l : List Core} {n : Nat} {r : Core × List Core} (h : takeCore l n = some r) : r.1.id = n := by
  induction l generalizing r with
  | nil => cases h
  | cons c l ih =>
    rw [takeCore] at h
    split at h
    next hc => cases h; exact hc
    next hc =>
      obtain ⟨q, hq, rfl⟩ := Option.map_eq_some_iff.1 h
      have hid := ih hq
      exact hid

/-- Taking a core out of a list leaves the others where they are. -/
theorem takeCore_rest {l : List Core} {n m : Nat} {r : Core × List Core} (h : takeCore l n = some r) (hm : m ≠ n) :
    (takeCore r.2 m).map Prod.fst = (takeCore l m).map Prod.fst := by
  induction l generalizing r with
  | nil => cases h
  | cons c l ih =>
    rw [takeCore] at h
    split at h
    next hc =>
      cases h
      rw [takeCore, if_neg (fun e => hm (e.symm.trans hc))]
      simp [Function.comp_def]
    next hc =>
      obtain ⟨q, hq, rfl⟩ := Option.map_eq_some_iff.1 h
      rw [takeCore, takeCore]
      split
      · rfl
      · simpa [Function.comp_def] using ih hq

/-- The core that a list gives for a number. -/
theorem coreOf_eq (s : State) (n : Nat) : s.coreOf n = if s.core.id = n then s.core else ((takeCore s.others n).map Prod.fst).getD (Core.blank n) := by
  rw [State.coreOf]
  split
  · rfl
  · cases takeCore s.others n <;> rfl

@[simp] theorem coreOf_id (s : State) (n : Nat) : (s.coreOf n).id = n := by
  rw [State.coreOf]
  split
  next h => exact h
  next =>
    split
    next r hr => exact takeCore_id hr
    next => rfl

@[simp] theorem coreOf_core (s : State) : s.coreOf s.core.id = s.core := if_pos rfl

theorem coreOf_congr {s t : State} (hc : t.core = s.core) (ho : t.others = s.others) (n : Nat) : t.coreOf n = s.coreOf n := by
  rw [State.coreOf, State.coreOf, hc, ho]

@[simp] theorem focus_core (s : State) (n : Nat) : (s.focus n).core = s.coreOf n := by
  rw [State.focus, State.coreOf]
  split
  · rfl
  · cases takeCore s.others n <;> rfl

theorem focus_same {s : State} {n : Nat} (h : s.core.id = n) : s.focus n = s := if_pos h

/-- A change of focus moves cores between the two places, and nothing else. -/
theorem focus_frame (s : State) (n : Nat) : ∃ o : List Core, s.focus n = { s with core := s.coreOf n, others := o } := by
  rw [State.focus, State.coreOf]
  split
  · exact ⟨s.others, rfl⟩
  · cases takeCore s.others n with
    | none => exact ⟨_, rfl⟩
    | some r => exact ⟨_, rfl⟩

@[simp] theorem coreOf_focus (s : State) (n m : Nat) : (s.focus n).coreOf m = s.coreOf m := by
  by_cases hn : s.core.id = n
  · rw [focus_same hn]
  by_cases hm : n = m
  · rw [coreOf_eq, focus_core, coreOf_id, if_pos hm, hm]
  have hf : (s.focus n).coreOf m = ((takeCore (s.focus n).others m).map Prod.fst).getD (Core.blank m) := by
    rw [coreOf_eq, focus_core, coreOf_id, if_neg hm]
  rw [hf, coreOf_eq, State.focus, if_neg hn]
  cases ht : takeCore s.others n with
  | none =>
    by_cases hc : s.core.id = m
    · simp [takeCore, hc]
    · simp [takeCore, hc, Function.comp_def]
  | some r =>
    by_cases hc : s.core.id = m
    · simp [takeCore, hc]
    · have hr := takeCore_rest ht (Ne.symm hm)
      simp [takeCore, hc, Function.comp_def, ← hr]

theorem coreOf_putCore (s : State) (c : Core) (m : Nat) : (s.putCore c).coreOf m = if c.id = m then c else s.coreOf m := by
  by_cases hn : s.core.id = c.id
  · rw [State.putCore, if_pos hn]
    by_cases hm : c.id = m
    · simp [State.coreOf, hm]
    · simp [State.coreOf, hm, hn]
  rw [State.putCore, if_neg hn]
  cases ht : takeCore s.others c.id with
  | none =>
    by_cases hm : c.id = m
    · have hs : s.core.id ≠ m := fun e => hn (e.trans hm.symm)
      simp [coreOf_eq, hm, hs, takeCore]
    · simp [coreOf_eq, hm, takeCore, Function.comp_def]
  | some r =>
    by_cases hm : c.id = m
    · have hs : s.core.id ≠ m := fun e => hn (e.trans hm.symm)
      simp [coreOf_eq, hm, hs, takeCore]
    · have hr := takeCore_rest ht (fun e => hm e.symm)
      simp [coreOf_eq, hm, takeCore, Function.comp_def, ← hr]

/-- A change of one core, which keeps its number. -/
theorem coreOf_updCore {s : State} {n : Nat} {f : Core → Core} (hf : (f (s.coreOf n)).id = n) (m : Nat) :
    (s.updCore n f).coreOf m = if n = m then f (s.coreOf m) else s.coreOf m := by
  rw [State.updCore, coreOf_putCore, hf]
  split
  next h => rw [h]
  next => rfl

/-- A change of one core leaves the rest of the machine. -/
theorem putCore_frame (s : State) (c : Core) : ∃ (d : Core) (o : List Core), s.putCore c = { s with core := d, others := o } := by
  rw [State.putCore]
  split
  · exact ⟨_, _, rfl⟩
  · cases takeCore s.others c.id with
    | none => exact ⟨_, _, rfl⟩
    | some r => exact ⟨_, _, rfl⟩

theorem putCore_core {s : State} {c : Core} (h : s.core.id = c.id) : s.putCore c = { s with core := c } := if_pos h

/-! ### Live cores and events on them -/

theorem onCore_live {s : State} {n : Nat} {f : State → State} (h : s.liveCore n = true) : s.onCore n f = f (s.focus n) := if_pos h

theorem seat_of_live {s : State} {n : Nat} (h : s.liveCore n = true) : (s.coreOf n).seat.isSome = true := by
  rw [State.liveCore] at h
  cases hs : (s.coreOf n).seat with
  | none => simp [hs] at h
  | some x => rfl

/-! ### Lookups by number -/

theorem find?_map_key {α : Type} {key : α → Nat} {g : α → α} (hg : ∀ x, key (g x) = key x) (l : List α) (n : Nat) :
    (l.map g).find? (fun x => decide (key x = n)) = (l.find? (fun x => decide (key x = n))).map g := by
  rw [List.find?_map]
  simp [hg]

theorem ctx_num {s : State} {n : Nat} {c : Context} (h : s.ctx n = some c) : c.num = n := by simpa using List.find?_some h

theorem crew_num {s : State} {n : Nat} {k : Crew} (h : s.crew n = some k) : k.num = n := by simpa using List.find?_some h

theorem crew_mem {s : State} {n : Nat} {k : Crew} (h : s.crew n = some k) : k ∈ s.crews := List.mem_of_find?_eq_some h

theorem ctx_congr {s t : State} (h : t.ctxs = s.ctxs) (n : Nat) : t.ctx n = s.ctx n := by rw [State.ctx, State.ctx, h]

theorem crew_congr {s t : State} (h : t.crews = s.crews) (n : Nat) : t.crew n = s.crew n := by rw [State.crew, State.crew, h]

theorem ctx_updCtx_same {s : State} {n : Nat} {c : Context} {f : Context → Context} (hf : ∀ c, (f c).num = c.num) (h : s.ctx n = some c) :
    (s.updCtx n f).ctx n = some (f c) := by
  have hg : ∀ x : Context, (if x.num = n then f x else x).num = x.num := fun x => by split <;> simp [hf]
  have hm := find?_map_key (key := Context.num) hg s.ctxs n
  rw [State.ctx] at h
  rw [State.ctx, State.updCtx, hm, h]
  simp [ctx_num (s := s) h]

theorem crew_map {s t : State} {g : Crew → Crew} (hg : ∀ k, (g k).num = k.num) (ht : t.crews = s.crews.map g) (n : Nat) :
    t.crew n = (s.crew n).map g := by
  rw [State.crew, State.crew, ht]
  exact find?_map_key hg s.crews n

theorem crew_updCrew_same {s : State} {n : Nat} {k : Crew} {f : Crew → Crew} (hf : ∀ k, (f k).num = k.num) (h : s.crew n = some k) :
    (s.updCrew n f).crew n = some (f k) := by
  have hg : ∀ x : Crew, (if x.num = n then f x else x).num = x.num := fun x => by split <;> simp [hf]
  rw [crew_map hg rfl, h]
  simp [crew_num h]

/-! ### Writes to host memory -/

theorem cellsAt_space {p : PAddr} {l : List Byte} {c : PAddr × Byte} (h : c ∈ cellsAt p l) : c.1.space = p.space := by
  obtain ⟨i, -, hi⟩ := List.mem_map.1 (List.of_mem_zip h).1
  rw [← hi]; rfl

theorem writeCells_host (l : List (PAddr × Byte)) (s : State) (h : ∀ c ∈ l, c.1.space = .host) :
    ∃ m : Memory, s.writeCells l = { s with host := m } := by
  induction l generalizing s with
  | nil => exact ⟨_, rfl⟩
  | cons d l ih =>
    obtain ⟨m, hm⟩ := ih (s.writeByte d.1 d.2) (fun c hc => h c (List.mem_cons_of_mem _ hc))
    refine ⟨m, hm.trans ?_⟩
    have hd : d.1.space = .host := h d List.mem_cons_self
    rw [State.writeByte, hd]
    rfl

/-- Nothing but the host's memory, the sectors' errors, the firmware and the turns to come differs. -/
def State.hostSide (s t : State) : Prop :=
  t = { s with host := t.host, lost := t.lost, badTag := t.badTag, fw := t.fw, sched := t.sched }

theorem State.hostSide.refl (s : State) : s.hostSide s := rfl

theorem State.hostSide.trans {s t u : State} (h1 : s.hostSide t) (h2 : t.hostSide u) : s.hostSide u :=
  Eq.trans h2 (congrArg (fun x : State => { x with host := u.host, lost := u.lost, badTag := u.badTag, fw := u.fw, sched := u.sched }) h1)

theorem hostSide_writeCells {s : State} {p : PAddr} {l : List Byte} (h : p.space = .host) : s.hostSide (s.writeCells (cellsAt p l)) := by
  obtain ⟨m, hm⟩ := writeCells_host (cellsAt p l) s (fun c hc => (cellsAt_space hc).trans h)
  rw [hm]; rfl

theorem hostSide_storeParts {s : State} {p : PAddr} {l : List Byte} (h : p.space = .host) : s.hostSide (s.storeParts (cellsAt p l)) := by
  rw [State.storeParts]
  obtain ⟨m, hm⟩ := writeCells_host ((cellsAt p l).filter (fun c => decide (s.eccRead [c.1] = .ok) || coversSector (cellsAt p l) (sectorOf c.1)))
    (s.heal (cellsAt p l)) (fun c hc => (cellsAt_space (List.mem_filter.1 hc).1).trans h)
  rw [hm]; rfl

/-- Writing an event record leaves the firmware as it is, but for the interface's event index (R278). -/
theorem storeParts_fw {s : State} {p : PAddr} {l : List Byte} : (s.storeParts (cellsAt p l)).fw = s.fw := by
  rw [State.storeParts]
  obtain ⟨a, b, c, h⟩ := State.writeCells_frame ((cellsAt p l).filter (fun c => decide (s.eccRead [c.1] = .ok) ||
    coversSector (cellsAt p l) (sectorOf c.1))) (s.heal (cellsAt p l))
  rw [h]; rfl

theorem storeParts_sched {s : State} {p : PAddr} {l : List Byte} : (s.storeParts (cellsAt p l)).sched = s.sched := by
  rw [State.storeParts]
  obtain ⟨a, b, c, h⟩ := State.writeCells_frame ((cellsAt p l).filter (fun c => decide (s.eccRead [c.1] = .ok) ||
    coversSector (cellsAt p l) (sectorOf c.1))) (s.heal (cellsAt p l))
  rw [h]; rfl

section
variable (s : State) (q : Fin 64) (kind code part ctx tag reason : Nat) (body : List Byte)

theorem hostSide_updIface (f : Iface → Iface) : s.hostSide (s.updIface q f) := rfl

theorem hostSide_postEvent : s.hostSide (s.postEvent q kind code part ctx tag reason body) := by
  rw [State.postEvent]
  split
  · exact (hostSide_storeParts rfl).trans (hostSide_updIface _ q _)
  · exact .refl s

theorem postEvent_disabled (h : s.fw.ifaces[q].enable = false) : s.postEvent q kind code part ctx tag reason body = s := by
  exact if_neg (by rw [h]; decide)

theorem postEvent_event (h : s.fw.ifaces[q].enable = true) :
    (s.postEvent q kind code part ctx tag reason body).fw.ifaces[q].event = s.fw.ifaces[q].event + 1 := by
  rw [State.postEvent, if_pos h]
  simp [State.updIface, storeParts_fw]

end

end Sys2Proof.Machine
end

section
/-!
PROOFS. Waits that end, halts that complete and parity errors (R17, R125, R288, R305, R310, R312, R313, R323): O38.
-/
namespace Sys2Proof.Machine

/-! ### The halt of one core (R313) -/

/-- One more record of a stream. -/
def countRecord (w : Vector (BitVec 32) 4) (st : StreamId) : Vector (BitVec 32) 4 :=
  w.set (Fin.ofNat 4 st.code : Fin 4) (w[(Fin.ofNat 4 st.code : Fin 4)] + 1)

/-- Halt records change a core's record slots and count, since they do not wait (R302). -/
theorem halt_records (r : State → StreamId → RecordInfo) (hr : ∀ s st, (r s st).kind = 3) (l : List StreamId) (s : State) :
    ∃ slots : Vector (BitVec 512) 4, l.foldl (fun s st => s.record st (r s st)) s =
      s.upd (fun c => { c with written := l.foldl countRecord c.written, records := slots }) := by
  induction l generalizing s with
  | nil => exact ⟨s.core.records, rfl⟩
  | cons st l ih =>
    obtain ⟨slots, hs⟩ := ih (s.record st (r s st))
    refine ⟨slots, hs.trans ?_⟩
    simp only [State.record, hr, ne_eq, not_true_eq_false, decide_false, Bool.and_false, Bool.false_eq_true, if_false]
    rfl

theorem countRecord_each (w : Vector (BitVec 32) 4) (x : Fin 4) :
    ([StreamId.seq, .vec, .mat, .xfer].foldl countRecord w)[x] = w[x] + 1 := by
  fin_cases x <;> simp [countRecord, StreamId.code]

/-- A core that stands still for a halt: its records, its spill image and its waits have changed. -/
def Core.atRest (c : Core) (code : Code) (slots : Vector (BitVec 512) 4) : Core :=
  { (c.spillNow code).updSeq (fun q => { q with wait := false, walk := none, markAt := none }) with
    written := [StreamId.seq, .vec, .mat, .xfer].foldl countRecord c.written, records := slots }

theorem haltCore_eq {s : State} (h : Halt) (hv : s.core.vec.vp = []) : ∃ slots : Vector (BitVec 512) 4,
    s.haltCore h s.core.id = s.upd (fun c => c.atRest h.code slots) := by
  rw [State.haltCore, focus_same rfl, hv]
  exact halt_records _ (fun _ _ => rfl) _ _

/-- A halt of a context that holds the focused core alone is posted once its streams have written their records. -/
theorem finishHalt_single {s : State} {ctx : Nat} {c : Context} {h : Halt} (hc : s.ctx ctx = some c) (hh : c.halt = some h)
    (hp : h.posted = false) (hs : s.ctxCores ctx = [s.core.id]) (hv : s.core.vec.vp = []) : ∃ slots : Vector (BitVec 512) 4,
      s.finishHalt ctx = ((s.upd (fun c => c.atRest h.code slots)).postEvent c.iface 3 h.code.toNat c.part ctx 0 0 (haltBody h)).updCtx ctx
        (fun c => { c with halt := some { h with posted := true } }) := by
  obtain ⟨slots, hu⟩ := haltCore_eq h hv
  refine ⟨slots, ?_⟩
  have hf : (s.upd (fun c => c.atRest h.code slots)).focus s.core.id = s.upd (fun c => c.atRest h.code slots) := focus_same rfl
  simp only [State.finishHalt, hc, hh, hp, hs, List.foldl_cons, List.foldl_nil, hu, hf, Bool.false_eq_true, if_false]

theorem finishHalt_posted {s : State} {ctx : Nat} {c : Context} {h : Halt} (hc : s.ctx ctx = some c) (hh : c.halt = some h)
    (hp : h.posted = true) : s.finishHalt ctx = s := by
  simp only [State.finishHalt, hc, hh, hp, if_true]

/-! ### Reports to the streams (R310, R323) -/

section
variable {u : State}

/-- A report reaches an engine of a core whose program runs. -/
theorem strike_engine {e : Eng} (hs : u.core.seat.isSome = true) (he : u.core.seq.ended = false) : u.strike e.stream = u.strikeEngine e := by
  have hn : ¬ (u.core.seat.isNone = true ∨ u.core.seq.ended = true) := by simp [he, Option.isSome_iff_ne_none.1 hs]
  cases e <;> exact if_neg hn

theorem parityError_strikes {e : Eng} (hd : u.core.deferReport e.stream = false) (hs : u.core.seat.isSome = true)
    (he : u.core.seq.ended = false) : u.parityError e = u.strikeEngine e := by
  rw [State.parityError, hd, ← strike_engine hs he]
  rfl

theorem strikeEngine_live {e : Eng} (h : (u.core.eng e).st.live = true) : u.strikeEngine e = u.strikeRunning e (u.bitsNow e.stream) := by
  rw [State.strikeEngine]
  cases hst : (u.core.eng e).st <;> simp [hst, EngState.live] at h ⊢

/-- A report to the vector stream outside every region, with nothing under way, stops it (R159, R311). -/
theorem strikeRunning_vec {bits : StrikeBits} (hr : u.core.vec.regions = []) (hv : u.core.vec.vp = []) (hl : u.core.vec.lostAt = none)
    (hst : u.core.vec.eng.st.live = true) : ∃ b : StrikeBits, u.strikeRunning .vec bits =
      (u.updVec (fun v => { v with struck := none })).stopEngine .vec 0 codeStrike u.core.vec.eng.pc false b.mayCore b.mayLeft := by
  obtain ⟨b, hb⟩ : ∃ b, u.core.vec.struck.or (some bits) = some b := by cases u.core.vec.struck <;> exact ⟨_, rfl⟩
  refine ⟨b, ?_⟩
  simp only [State.strikeRunning, hr, hb, State.vecStops, State.updVec, State.upd, Core.updVec, hv, hl, hst]
  rfl

/-- A report to a matrix stream with an unreleased reduction replays the oldest (R125). -/
theorem strikeRunning_mat {bits : StrikeBits} {r : Reduction} {l : List Reduction} (hr : u.core.mat.reds = r :: l) (hn : r.retries + 1 < 4) :
    u.strikeRunning .mat bits = (u.upd Core.countRollback).updMat (fun m => { r.snap.restore m with
      reds := [], again := [⟨0, r.snap.pc, r.retries + 1⟩], eng := { (r.snap.restore m).eng with st := .run } }) := by
  simp only [State.strikeRunning, hr, State.matRollback, if_pos hn]
  rfl

/-- A report that has to wait for a release stands in the core's list (R293). -/
theorem parityError_waits {e : Eng} (hd : u.core.deferReport e.stream = true) (hc : coreExists u.core.id = true) (hs : u.core.seat.isSome = true) :
    u.parityError e = { u with core := { u.core with reports := u.core.reports ++ [⟨[e.stream], u.now⟩] } } := by
  rw [State.parityError, if_pos hd, State.addReport, coreOf_core, if_pos ⟨hc, hs⟩, State.updCore, coreOf_core]
  exact putCore_core rfl

end

/-- Settles O38. -/
theorem waitsHaltsAndParityErrors : Obligations.WaitsHaltsAndParityErrors := by
  unfold Obligations.WaitsHaltsAndParityErrors
  refine ⟨fun s core ctx st => ⟨?_, fun c h hc hh => ⟨fun hp => ?_, fun hp hs hv => ?_⟩⟩, ?_⟩
  · intro hlive u hx
    refine congrArg Host.Outcome.next ((onCore_live hlive).trans ?_)
    cases st with
    | xfer =>
      have hcur : u.core.xfer.cur = none := hx.resolve_left (fun h => h rfl)
      simp only [State.tryAgain, show (s.focus core).core.xfer.cur = none from hcur]
      rfl
    | _ => rfl
  · exact congrArg Host.Outcome.next (finishHalt_posted hc hh hp)
  · obtain ⟨slots, ht⟩ := finishHalt_single hc hh hp hs hv
    refine ⟨_, congrArg Host.Outcome.next ht, ?_⟩
    have hk := hostSide_postEvent (s.upd (fun c => c.atRest h.code slots)) c.iface 3 h.code.toNat c.part ctx 0 0 (haltBody h)
    generalize hv : (s.upd (fun c => c.atRest h.code slots)).postEvent c.iface 3 h.code.toNat c.part ctx 0 0 (haltBody h) = v at hk
    have hcore : v.core = s.core.atRest h.code slots := congrArg State.core hk
    have hhbm : v.hbm = s.hbm := (congrArg State.hbm hk :)
    have hwin : v.window = s.window := (congrArg State.window hk :)
    refine ⟨ctx_updCtx_same (fun _ => rfl) ((ctx_congr (congrArg State.ctxs hk) ctx).trans hc), fun x => ?_, ?_, ?_, ?_,
      hhbm, hwin, fun hq => ?_, fun hq => ?_⟩
    · rw [State.updCtx_core, hcore]; exact countRecord_each ..
    · rw [State.updCtx_core, hcore]; rfl
    · rw [State.updCtx_core, hcore]; rfl
    · rw [State.updCtx_core, hcore]; rfl
    · have hsame := hv.symm.trans (postEvent_disabled (s.upd (fun c => c.atRest h.code slots)) _ _ _ _ _ _ _ _ hq)
      exact ⟨(congrArg State.host hsame :), (congrArg State.fw hsame :)⟩
    · rw [← hv]; exact postEvent_event _ _ _ _ _ _ _ _ _ hq
  · intro s core hlive u
    refine ⟨fun r l hr hn he hst => ?_, fun hrel hr hv hl he hst => ?_, fun e hd he hst => ?_, fun e hd hc hs => ?_⟩
    · have hs : u.core.seat.isSome = true := by rw [focus_core]; exact seat_of_live hlive
      refine ⟨_, congrArg Host.Outcome.next ((onCore_live hlive).trans ((parityError_strikes (e := .mat) rfl hs he).trans
        ((strikeEngine_live (u := u) (e := .mat) hst).trans (strikeRunning_mat hr hn)))), ?_⟩
      exact ⟨rfl, rfl, rfl, rfl, rfl, rfl, rfl, rfl, rfl, rfl, rfl, rfl, rfl, rfl, rfl⟩
    · have hs : u.core.seat.isSome = true := by rw [focus_core]; exact seat_of_live hlive
      have hlv : (u.core.eng .vec).st.live = true := by rw [show (u.core.eng .vec).st = .run from hst]; rfl
      obtain ⟨b, hb⟩ := strikeRunning_vec (bits := u.bitsNow .vec) hr hv hl hlv
      refine ⟨_, congrArg Host.Outcome.next ((onCore_live hlive).trans ((parityError_strikes (e := .vec) hrel hs he).trans
        ((strikeEngine_live hlv).trans hb))), ?_⟩
      rw [State.stopEngine, stopWith_vec, stopWith_seq, stopWith_tree]
      exact ⟨rfl, rfl, rfl, rfl, stopWith_sameMemory .., rfl⟩
    · have hs : u.core.seat.isSome = true := by rw [focus_core]; exact seat_of_live hlive
      refine congrArg Host.Outcome.next ((onCore_live hlive).trans ((parityError_strikes hd hs he).trans ?_))
      simp only [State.strikeEngine, hst]
      rfl
    · exact congrArg Host.Outcome.next ((onCore_live hlive).trans (parityError_waits hd hc hs))

end Sys2Proof.Machine
end

section
/-!
PROOFS. Programs are loaded and launched, and harnesses put in force (R23, R24, R52, R224, R255 to R257, R280): O47.
-/
namespace Sys2Proof.Machine

/-- A command of a partition's interface for one of its contexts is carried out when nothing that it names is going and no earlier command of
another interface has to take effect first (R281). -/
theorem onCtx_taken {s : State} {q : Fin 64} {p : Packet} {x : Partition} {c : Context} (hst : s.fw.stage = 6) (hx : s.part p.part = some x)
    (hq : q ≠ 0) (hi : x.ifaces.toNat.testBit q.val = true) (hc : s.ctx p.ctx = some c) (hcp : c.part = x.num)
    (hpg : s.partGoing x.num = false) (hcg : s.ctxGoing c.num = false) (hpend : s.fw.pending.any (s.comesAfter q p) = false)
    (k : Partition → Context → State) : s.onCtx q p k = k x c := by
  have hgo : q ≠ 0 ∧ x.ifaces.toNat.testBit q.val = true ∧ (!s.partGoing x.num) = true := ⟨hq, hi, by rw [hpg]; rfl⟩
  simp only [State.onCtx, State.onPart, State.staged, hst, hpend, hx, hc, hcp, hcg, if_pos hgo, ne_eq, not_true_eq_false, Bool.false_eq_true,
    if_false]

/-! ### Writes of several objects (R224) -/

theorem writeAll_cons {s : State} {l : List PAddr} {b : List Byte} {w : List (List PAddr × List Byte)} (h : s.eccWrite (l.zip b) = .ok) :
    s.writeAll ((l, b) :: w) = ((s.heal (l.zip b)).writeCells (l.zip b)).writeAll w := by
  have hs : s.store (l.zip b) = (.ok, (s.heal (l.zip b)).writeCells (l.zip b)) := by rw [State.store, h]
  rw [State.writeAll, hs]
  rfl

/-! ### The commands, once they are taken -/

section
variable {s : State} {q : Fin 64} {p : Packet} {x : Partition} {c : Context} (ho : ∀ k, s.onCtx q p k = k x c)
include ho

theorem load_refused {l : List Byte} (hl : s.hostRead q p.a0.toNat p.a1.toNat = some l) (hb : objectOk l = false) :
    exec (.load q p) s = .next (s.refuseCmd q p 3) := by
  refine congrArg Host.Outcome.next ((ho _).trans ?_)
  simp only [hl, hb]
  rfl

/-- A good object is written to its three places; what follows is `State.loaded`. -/
theorem load_writes {l : List Byte} {code data pkt : List PAddr} (hl : s.hostRead q p.a0.toNat p.a1.toNat = some l) (hb : objectOk l = true)
    (hcode : s.ctxPlaces c.num none p.a2.toNat (4 * objectWords l) true = .ok code)
    (hdata : s.ctxPlaces c.num none p.a3.toNat (fieldAt l 0x10 4) true = .ok data)
    (hpkt : s.ctxPlaces c.num none p.a4.toNat 128 true = .ok pkt) :
    exec (.load q p) s = .next (s.loaded q p c.num (s.writeAll [(code, (l.drop 192).take (4 * objectWords l)),
      (data, (l.drop (192 + 4 * objectWords l)).take (fieldAt l 0x10 4)), (pkt, filledTemplate l p.a2.toNat)]) l (fieldAt l 0x10 4)) := by
  refine congrArg Host.Outcome.next ((ho _).trans ?_)
  simp only [hl, hb, hcode, hdata, hpkt]
  rfl

theorem launch_halted (hh : c.halt ≠ none) : exec (.launch q p) s = .next (s.refuseCmd q p 7) :=
  congrArg Host.Outcome.next ((ho _).trans (if_pos (Option.isSome_iff_ne_none.2 hh)))

theorem launch_refused {l : List Byte} {r : Nat} (hh : c.halt = none) (hl : s.ctxRead c.num p.a0.toNat 128 = .ok l)
    (hr : launchRefused l 0 x.cores.length = some r) : exec (.launch q p) s = .next (s.refuseCmd q p r) := by
  refine congrArg Host.Outcome.next ((ho _).trans ?_)
  simp only [hh, hl, hr]
  rfl

theorem launch_waits {l : List Byte} (hh : c.halt = none) (hl : s.ctxRead c.num p.a0.toNat 128 = .ok l)
    (hr : launchRefused l 0 x.cores.length = none) (hls : p.a2.toNat ≤ (launchOf l).res.ls * 4096) :
    exec (.launch q p) s = .next { s with
      crewNum := s.crewNum + 1
      waiting := s.waiting ++ [⟨c.num, launchOf l, .host q p.tag p.a1.toNat p.a2.toNat, s.crewNum⟩] } := by
  refine congrArg Host.Outcome.next ((ho _).trans ?_)
  simp only [hh, hl, hr]
  exact (if_neg Bool.false_ne_true).trans (if_neg (Nat.not_lt.2 hls))

theorem harness_inForce {h : Harness} (hh : c.harness = some h) : exec (.harness q p) s = .next (s.refuseCmd q p 7) := by
  refine congrArg Host.Outcome.next ((ho _).trans ?_)
  simp only [hh]
  rfl

theorem harness_badRecord {h : List Byte} (hn : c.harness = none) (hl : s.ctxRead c.num p.a0.toNat 64 = .ok h) (hb : recordOk h = false) :
    exec (.harness q p) s = .next (s.refuseCmd q p 3) := by
  refine congrArg Host.Outcome.next ((ho _).trans ?_)
  simp only [hn, hl, hb]
  rfl

section
variable {h l : List Byte} (hn : c.harness = none) (hh : s.ctxRead c.num p.a0.toNat 64 = .ok h) (hb : recordOk h = true)
  (hl : s.ctxRead c.num p.a0.toNat (64 + 128 * bitsOf (fieldAt h 0x18 8) 4 0) = .ok l)
include hn hh hb hl

theorem harness_badStages {r : Nat} (hr : stagesOk l x.cores.length = some r) : exec (.harness q p) s = .next (s.refuseCmd q p r) := by
  refine congrArg Host.Outcome.next ((ho _).trans ?_)
  simp only [hn, hh, hb, hl, hr]
  rfl

theorem harness_made (hr : stagesOk l x.cores.length = none) (hg : s.tableGaps c.num (fieldAt l 0 8) (128 * fieldAt l 8 3) = []) :
    exec (.harness q p) s = .next ((s.updCtx c.num (fun c => { c with harness := some (harnessOf l) })).okCmd q p []) := by
  refine congrArg Host.Outcome.next ((ho _).trans ?_)
  simp only [hn, hh, hb, hl, hr, hg]
  rfl

end

theorem harnessEnd_none (hn : c.harness = none) : exec (.harnessEnd q p) s = .next (s.refuseCmd q p 7) := by
  refine congrArg Host.Outcome.next ((ho _).trans ?_)
  simp only [hn]

theorem harnessEnd_ended {h : Harness} (hh : c.harness = some h) (he : h.ended = true) :
    exec (.harnessEnd q p) s = .next (s.refuseCmd q p 7) := by
  refine congrArg Host.Outcome.next ((ho _).trans ?_)
  simp only [hh, he, if_true]

end

/-- A harness that is ended and has no crews is given up at once. -/
theorem dropHarness_ended {s : State} {n : Nat} (hc : s.crews = []) :
    (s.updHarness n (fun h => { h with ended := true })).dropHarness n = s.updCtx n (fun c => { c with harness := none }) := by
  have hany : (s.updHarness n (fun h => { h with ended := true })).crews = [] := hc
  rw [State.dropHarness, hany, List.any_nil, if_neg Bool.false_ne_true]
  simp only [State.updHarness, State.updCtx, List.map_map]
  congr 1
  refine List.map_congr_left fun c _ => ?_
  by_cases hn : c.num = n
  · simp [hn]
  · simp [hn]

section
variable {s : State} {q : Fin 64} {p : Packet} {x : Partition} {c : Context} (ho : ∀ k, s.onCtx q p k = k x c)
include ho

theorem harnessEnd_running {h : Harness} (hh : c.harness = some h) (he : h.ended = false) (hc : s.crews = []) :
    exec (.harnessEnd q p) s = .next ((s.updCtx c.num (fun c => { c with harness := none })).okCmd q p []) := by
  refine congrArg Host.Outcome.next ((ho _).trans ?_)
  have hcr : (s.updHarness c.num (fun h => { h with ended := true })).crews = [] := hc
  simp only [hh, he, Bool.false_eq_true, if_false, State.withdrawStages, hcr, List.filter_nil, List.foldl_nil, dropHarness_ended hc]

theorem collBind_found (hk : ∃ k ∈ s.crews, k.num = p.a1.toNat ∧ k.ctx = c.num ∧ k.state ≠ .ended) : exec (.collBind q p) s =
    .next ((s.updCtx c.num (fun c => { c with binds := c.binds ++ [(p.a0.toNat, p.a1.toNat)] })).okCmd q p []) := by
  refine congrArg Host.Outcome.next ((ho _).trans (if_pos ?_))
  obtain ⟨k, hk, hnum, hctx, hst⟩ := hk
  exact List.any_eq_true.2 ⟨k, hk, by simp [hnum, hctx, hst]⟩

theorem collBind_missing (hk : ∀ k ∈ s.crews, k.num ≠ p.a1.toNat) : exec (.collBind q p) s = .next (s.refuseCmd q p 5) := by
  refine congrArg Host.Outcome.next ((ho _).trans (if_neg (Bool.not_eq_true _ ▸ List.any_eq_false.2 fun k hm => ?_)))
  simp [hk k hm]

end

/-- Settles O47. -/
theorem programsAreLoadedAndLaunched : Obligations.ProgramsAreLoadedAndLaunched := by
  unfold Obligations.ProgramsAreLoadedAndLaunched
  intro s q p x c hst hx hq hi hc hcp hpg hcg hpend
  have ho : ∀ k, s.onCtx q p k = k x c := onCtx_taken hst hx hq hi hc hcp hpg hcg hpend
  refine ⟨fun l hl => ⟨load_refused ho hl, fun hb code data pkt hcode hdata hpkt => ?_⟩, fun l b w => ⟨rfl, writeAll_cons⟩, launch_halted ho,
    fun hh l hl => ⟨fun r hr => launch_refused ho hh hl hr, fun hr hls => launch_waits ho hh hl hr hls⟩,
    fun h hh => ⟨harness_inForce ho hh, harnessEnd_ended ho hh, harnessEnd_running ho hh⟩,
    fun hn => ⟨harnessEnd_none ho hn, fun h l hh => ⟨harness_badRecord ho hn hh, fun hb hl =>
      ⟨fun r hr => harness_badStages ho hn hh hb hl hr, fun hr hg => harness_made ho hn hh hb hl hr hg⟩⟩⟩,
    collBind_found ho, collBind_missing ho⟩
  intro r
  have hw : exec (.load q p) s = .next (s.loaded q p c.num r l (fieldAt l 0x10 4)) := load_writes ho hl hb hcode hdata hpkt
  refine ⟨fun hr => ?_, fun hr => ?_, fun hr => ?_⟩ <;> rw [hw, State.loaded, hr] <;> rfl

end Sys2Proof.Machine
end

section
/-!
PROOFS. What a resumption leaves of the cores and crews: the collectives that are issued again, the bindings that are walked anew and a
stop of a vector stream change no seat, no general register, no sequencer's program counter and no pending report.
-/
namespace Sys2Proof.Machine

/-- A core with the same number, seat, general registers, program counter and pending reports. -/
structure Core.SameSeat (c d : Core) : Prop where
  id : d.id = c.id
  seat : d.seat = c.seat
  g : d.seq.g = c.seq.g
  pc : d.seq.pc = c.seq.pc
  reports : d.reports = c.reports

theorem Core.SameSeat.refl (c : Core) : c.SameSeat c := ⟨rfl, rfl, rfl, rfl, rfl⟩

theorem Core.SameSeat.trans {c d e : Core} (h : c.SameSeat d) (k : d.SameSeat e) : c.SameSeat e :=
  ⟨k.id.trans h.id, k.seat.trans h.seat, k.g.trans h.g, k.pc.trans h.pc, k.reports.trans h.reports⟩

/-- The same crews, and every core as `Core.SameSeat` says. -/
structure State.SameSeats (s t : State) : Prop where
  crews : t.crews = s.crews
  cores : ∀ n, (s.coreOf n).SameSeat (t.coreOf n)

namespace State.SameSeats
variable {s t u : State}

theorem refl (s : State) : s.SameSeats s := ⟨rfl, fun _ => .refl _⟩

theorem trans (h : s.SameSeats t) (k : t.SameSeats u) : s.SameSeats u := ⟨k.crews.trans h.crews, fun n => (h.cores n).trans (k.cores n)⟩

/-- A fold of changes each of which leaves the seats. -/
theorem foldl {α : Type} {f : State → α → State} (hf : ∀ (s : State) (x : α), s.SameSeats (f s x)) (l : List α) (s : State) :
    s.SameSeats (l.foldl f s) := by
  induction l generalizing s with
  | nil => exact .refl s
  | cons x l ih => exact (hf s x).trans (ih (f s x))

theorem of_frame (hk : t.crews = s.crews) (hc : t.core = s.core) (ho : t.others = s.others) : s.SameSeats t :=
  ⟨hk, fun n => by rw [coreOf_congr hc ho]; exact .refl _⟩

/-- A change of the focused core. -/
theorem of_core (hk : t.crews = s.crews) (hc : s.core.SameSeat t.core) (ho : t.others = s.others) : s.SameSeats t := by
  refine ⟨hk, fun n => ?_⟩
  rw [coreOf_eq, coreOf_eq, hc.id, ho]
  split
  · exact hc
  · exact .refl _

theorem focus (s : State) (n : Nat) : s.SameSeats (s.focus n) := by
  obtain ⟨o, ho⟩ := focus_frame s n
  exact ⟨by rw [ho], fun m => by rw [coreOf_focus]; exact .refl _⟩

theorem updCore (s : State) (n : Nat) {f : Core → Core} (hf : (s.coreOf n).SameSeat (f (s.coreOf n))) : s.SameSeats (s.updCore n f) := by
  obtain ⟨d, o, hu⟩ := putCore_frame s (f (s.coreOf n))
  refine ⟨(congrArg State.crews hu :), fun m => ?_⟩
  rw [coreOf_updCore (hf.id.trans (coreOf_id s n))]
  split
  next h => rw [← h]; exact hf
  next => exact .refl _

end State.SameSeats

/-! ### Collectives that are issued again (R187, R322) -/

theorem sameSeats_store (s : State) (l : List (PAddr × Byte)) : s.SameSeats (s.store l).2 := by
  rw [State.store]
  split
  · obtain ⟨a, b, c, h⟩ := State.writeCells_frame l (s.heal l)
    rw [h]
    exact .of_frame rfl rfl rfl
  · exact .refl s

theorem sameSeats_wrote (s : State) (st : StreamId) (l : List PAddr) : s.SameSeats (s.wrote st l) := by
  rw [State.wrote]
  split
  · exact .refl s
  · refine .of_core rfl ?_ rfl
    cases st <;> exact ⟨rfl, rfl, rfl, rfl, rfl⟩

theorem sameSeats_addSync (s : State) (a : SyncAdd) : s.SameSeats (s.addSync a).2 := by
  have hs := sameSeats_store s ((if a.bytes = 0 then [] else s.countCells a.pa a.bytes) ++ s.failCells a.pa a.code a.flags)
  rw [State.addSync, State.syncAct]
  split
  next t ht =>
    rw [ht] at hs
    exact hs.trans (sameSeats_wrote t .xfer [a.pa])
  next => exact .refl s
  next => exact .of_frame rfl rfl rfl

theorem sameSeats_updXfer (s : State) (f : XferEngine → XferEngine) : s.SameSeats (s.updXfer f) :=
  .of_core rfl ⟨rfl, rfl, rfl, rfl, rfl⟩ rfl

theorem sameSeats_updVec (s : State) (f : VecEngine → VecEngine) : s.SameSeats (s.updVec f) :=
  .of_core rfl ⟨rfl, rfl, rfl, rfl, rfl⟩ rfl

theorem sameSeats_batchAdd (s : State) (o : XOp) (n : Nat) (code : Code) (flags : BitVec 16) : s.SameSeats (s.batchAdd o n code flags).2 := by
  rw [State.batchAdd]
  split
  next => exact .refl s
  next b _ =>
    split
    next r _ =>
      split
      · exact sameSeats_updXfer s _
      · exact sameSeats_addSync s _
    next =>
      dsimp only
      split
      · exact sameSeats_updXfer s _
      · exact (sameSeats_updXfer s _).trans (sameSeats_updXfer _ _)

theorem Core.sameSeat_xferFlags (c : Core) (inside : Bool) (f : BitVec 5) : c.SameSeat (c.xferFlags inside f) := by
  unfold Core.xferFlags
  split <;> exact ⟨rfl, rfl, rfl, rfl, rfl⟩

theorem sameSeats_finishOp (s : State) (o : XOp) : s.SameSeats (s.finishOp o) := by
  have h1 : s.SameSeats (s.upd (fun c => c.xferFlags o.inside o.mask)) := .of_core rfl (Core.sameSeat_xferFlags ..) rfl
  have h3 : ∀ u : State, u.SameSeats
      (u.upd (fun c => (c.updXfer (fun x => ({ x with ops := x.ops.filter (fun y => decide (y.id ≠ o.id)) }).sweep)).release)) :=
    fun u => .of_core rfl ⟨rfl, rfl, rfl, rfl, rfl⟩ rfl
  rw [State.finishOp]
  cases o.failed with
  | none => exact h1.trans (h3 _)
  | some code => exact (h1.trans (sameSeats_batchAdd ..)).trans (h3 _)

theorem sameSeats_settleOp (s : State) (o : XOp) : s.SameSeats (s.settleOp o) := by
  rw [State.settleOp]
  split
  · exact sameSeats_finishOp s o
  split
  · exact sameSeats_updXfer s _
  · exact sameSeats_updXfer s _

theorem sameSeats_failCollAt (s : State) (ident m : Nat) (code : Code) (bits : StrikeBits) (keep : Nat → Bool) (core : Nat) :
    s.SameSeats (s.failCollAt ident m code bits keep core) := by
  have hf := State.SameSeats.focus s core
  rw [State.failCollAt]
  cases (s.focus core).core.collOp ident m with
  | none =>
    dsimp only
    split
    · exact hf.trans (sameSeats_updXfer _ _)
    · exact hf
  | some o =>
    dsimp only
    split
    · exact hf.trans ((sameSeats_updXfer _ _).trans (sameSeats_settleOp _ _))
    · exact hf.trans (sameSeats_settleOp _ _)

theorem sameSeats_reissueColls (s : State) : s.SameSeats s.reissueColls := by
  rw [State.reissueColls]
  refine (sameSeats_updXfer s _).trans (.foldl (fun s x => ?_) _ _)
  split
  · exact sameSeats_failCollAt ..
  · exact .refl s

/-! ### Bindings walked anew and streams that stop (R159, R220) -/

theorem sameSeats_rebind (s : State) (ctx id : Nat) : s.SameSeats (s.rebind ctx id) := by
  rw [State.rebind]
  split
  · rw [State.integrity]
    split
    · exact .of_frame rfl rfl rfl
    · exact .refl s
  · exact (State.SameSeats.updCore s id ⟨rfl, rfl, rfl, rfl, rfl⟩).trans
      ((State.SameSeats.focus _ id).trans ((sameSeats_reissueColls _).trans (State.SameSeats.focus _ _)))

theorem sameSeats_stopWith (s : State) (e : Eng) (code : Code) (at_ : Word) (spill mayCore mayLeft : Bool) (detail : Word) :
    s.SameSeats (s.stopWith e 0 code at_ spill mayCore mayLeft detail) := by
  rw [stopWith_eq]
  refine .of_core rfl ?_ rfl
  cases e <;> exact ⟨rfl, rfl, rfl, rfl, rfl⟩

theorem sameSeats_vecStops (s : State) : s.SameSeats s.vecStops := by
  rw [State.vecStops]
  dsimp only
  split
  · exact .refl s
  split
  · exact (sameSeats_updVec s _).trans (sameSeats_stopWith ..)
  · exact (sameSeats_updVec s _).trans (sameSeats_stopWith ..)
  · exact .refl s

/-! ### Pending reports (R308, R311) -/

/-- A core without pending reports takes none. -/
theorem sameSeats_deliver (s : State) (h : s.core.reports = []) : s.SameSeats s.deliver := by
  have hdue : s.dueStreams = [] := by simp [State.dueStreams, h]
  rw [State.deliver, hdue]
  exact .of_core rfl ⟨rfl, rfl, rfl, rfl, by simp [State.upd, h, dropStreams]⟩ rfl

theorem sameSeats_deliverAll (s : State) (cores : List Nat) (h : ∀ n ∈ cores, (s.coreOf n).reports = []) :
    s.SameSeats (s.deliverAll cores) := by
  suffices ∀ u : State, s.SameSeats u → s.SameSeats (cores.foldl (fun s n => (s.focus n).deliver) u) from
    (this s (.refl s)).trans (.focus _ _)
  induction cores with
  | nil => exact fun u hu => hu
  | cons n l ih =>
    intro u hu
    have hr : (u.focus n).core.reports = [] := by rw [focus_core, (hu.cores n).reports, h n List.mem_cons_self]
    exact ih (fun m hm => h m (List.mem_cons_of_mem _ hm)) _ (hu.trans ((State.SameSeats.focus u n).trans (sameSeats_deliver _ hr)))

end Sys2Proof.Machine
end

section
/-!
PROOFS. Crews are placed, stopped, saved and resumed (R22, R25, R220, R266, R268 to R273): O40.
-/
namespace Sys2Proof.Machine

/-! ### Cores in ascending order, each once -/

theorem dedup_nodup (l : List Nat) : (dedup l).Nodup := by
  induction l with
  | nil => exact List.nodup_nil
  | cons a t ih =>
    rw [dedup]
    split
    · exact ih
    next h => exact List.nodup_cons.2 ⟨by simpa using h, ih⟩

theorem insertNat_perm (a : Nat) (l : List Nat) : (insertNat a l).Perm (a :: l) := by
  induction l with
  | nil => exact .refl _
  | cons b t ih =>
    rw [insertNat]
    split
    · exact .refl _
    · exact (ih.cons b).trans (.swap a b t)

theorem sortNat_perm (l : List Nat) : (sortNat l).Perm l := by
  induction l with
  | nil => exact .refl _
  | cons a t ih => exact (insertNat_perm a (sortNat t)).trans (ih.cons a)

/-- Cores that a crew fits on are all different. -/
theorem nodup_of_fits {s : State} {ctx n : Nat} {ids : List Nat} (h : s.fits ctx n ids = true) : ids.Nodup := by
  have hs : sortNat (dedup ids) = ids := by
    rw [State.fits] at h
    simp only [Bool.and_eq_true, decide_eq_true_eq] at h
    exact h.1.2
  rw [← hs]
  exact (sortNat_perm _).nodup_iff.2 (dedup_nodup ids)

theorem assocGet_assocSet_same {α : Type} (d x : α) (l : List (Nat × α)) (a : Nat) : assocGet d (assocSet l a x) a = x := by
  induction l with
  | nil => exact if_pos rfl
  | cons e t ih =>
    obtain ⟨k, v⟩ := e
    rw [assocSet]
    split
    · exact if_pos rfl
    next h => rw [assocGet, if_neg h, ih]

/-! ### Cores that take their places one by one -/

section
variable {α : Type} {key : α → Nat} {P : α → Core → Prop} {step : State → α → State}
  (hother : ∀ (s : State) (x : α) (n : Nat), n ≠ key x → (step s x).coreOf n = s.coreOf n)
include hother

theorem foldl_coreOf_other (l : List α) (s : State) (n : Nat) (h : n ∉ l.map key) : (l.foldl step s).coreOf n = s.coreOf n := by
  induction l generalizing s with
  | nil => rfl
  | cons x l ih =>
    rw [List.map_cons, List.mem_cons, not_or] at h
    exact (ih (step s x) h.2).trans (hother s x n h.1)

/-- Steps that each settle a core of their own: in the end every core is as its step left it. -/
theorem foldl_coreOf_each (hself : ∀ (s : State) (x : α), P x ((step s x).coreOf (key x))) (l : List α) (hl : (l.map key).Nodup) (s : State) :
    ∀ x ∈ l, P x ((l.foldl step s).coreOf (key x)) := by
  induction l generalizing s with
  | nil => exact fun x hx => absurd hx List.not_mem_nil
  | cons y l ih =>
    rw [List.map_cons, List.nodup_cons] at hl
    intro x hx
    rcases List.mem_cons.1 hx with rfl | hx
    · rw [List.foldl_cons, foldl_coreOf_other hother l _ _ hl.1]
      exact hself s x
    · exact ih hl.2 (step s y) x hx

end

/-- Nothing but cores, memory, errors of sectors and what saved crews are allowed differs: what a core's change of hands may change. -/
def State.handedOver (s t : State) : Prop :=
  ∃ g : Crew → List (Nat × Nat), t = { s with
    core := t.core, others := t.others, hbm := t.hbm, window := t.window, host := t.host, lost := t.lost, badTag := t.badTag
    crews := s.crews.map (fun k => { k with stood := g k }) }

theorem State.handedOver.refl (s : State) : s.handedOver s := ⟨Crew.stood, by simp⟩

theorem State.handedOver.trans {s t u : State} (h : s.handedOver t) (k : t.handedOver u) : s.handedOver u := by
  obtain ⟨g, hg⟩ := h
  obtain ⟨f, hf⟩ := k
  refine ⟨fun k => f { k with stood := g k }, ?_⟩
  have hc : t.crews = s.crews.map (fun k => { k with stood := g k }) := by rw [hg]
  rw [hc, List.map_map] at hf
  refine hf.trans ?_
  rw [hg]
  rfl

theorem State.handedOver.foldl {α : Type} {f : State → α → State} (hf : ∀ (s : State) (x : α), s.handedOver (f s x)) (l : List α) (s : State) :
    s.handedOver (l.foldl f s) := by
  induction l generalizing s with
  | nil => exact .refl s
  | cons x l ih => exact (hf s x).trans (ih (f s x))

theorem handedOver_fillStore (s : State) (id off : Nat) (l : List Byte) : s.handedOver (s.fillStore id off l) := by
  obtain ⟨a, b, c, h⟩ := State.writeCells_frame (cellsAt ⟨.window, storeBase id + off⟩ l) s
  refine ⟨Crew.stood, ?_⟩
  rw [State.fillStore, h]
  simp

theorem handedOver_putCore (s : State) (c : Core) : s.handedOver (s.putCore c) := by
  obtain ⟨d, o, h⟩ := putCore_frame s c
  refine ⟨Crew.stood, ?_⟩
  rw [h]
  simp

theorem handedOver_scrubStore (s : State) (id n : Nat) : s.handedOver (s.scrubStore id n) := ⟨Crew.stood, by simp [State.scrubStore]⟩

theorem handedOver_forgetStood (s : State) (id : Nat) : s.handedOver (s.forgetStood id) :=
  ⟨fun k => k.stood.filter (fun x => decide (x.2 ≠ id)), rfl⟩

theorem handedOver_placeCore (s : State) (crew ctx rank : Nat) (p : LaunchPacket) (code image : List Byte) (id : Nat) :
    s.handedOver (s.placeCore crew ctx rank p code image id) :=
  (handedOver_scrubStore s id _).trans ((handedOver_fillStore _ _ _ _).trans ((handedOver_fillStore _ _ _ _).trans
    ((handedOver_putCore _ _).trans (handedOver_forgetStood _ _))))

theorem fillStore_coreOf (s : State) (id off : Nat) (l : List Byte) (n : Nat) : (s.fillStore id off l).coreOf n = s.coreOf n := by
  obtain ⟨a, b, c, h⟩ := State.writeCells_frame (cellsAt ⟨.window, storeBase id + off⟩ l) s
  rw [State.fillStore, h]
  rfl

theorem placeCore_coreOf (s : State) (crew ctx rank : Nat) (p : LaunchPacket) (code image : List Byte) (id n : Nat) :
    (s.placeCore crew ctx rank p code image id).coreOf n =
      if id = n then (s.coreOf n).launched ⟨crew, ctx, rank, p.crew, p.res⟩ p.args else s.coreOf n := by
  refine (coreOf_updCore ?_ n).trans ?_
  · exact coreOf_id _ _
  · rw [fillStore_coreOf, fillStore_coreOf]
    rfl


/-! ### Placing a crew (R22, R25, R268) -/

/-- A core at its first instruction with its seat, its arguments in g1 to g8. -/
def Core.startsAs (c : Core) (seat : Seat) (args : Vector Word 8) : Prop :=
  c.seat = some seat ∧ c.seq.pc = 0 ∧ c.seq.ended = false ∧ ∀ j : Fin 8, c.seq.g[(⟨j.val + 1, by omega⟩ : Fin 32)] = ⟨args[j], true⟩

theorem Core.launched_startsAs (c : Core) (seat : Seat) (args : Vector Word 8) : (c.launched seat args).startsAs seat args := by
  refine ⟨rfl, rfl, rfl, fun j => ?_⟩
  simp [Core.launched, Nat.mod_eq_of_lt j.isLt]

/-- A crew that runs from its first instruction. -/
def Crew.fresh (num ctx : Nat) (p : LaunchPacket) (ids : List Nat) (o : Origin) : Crew := ⟨num, ctx, p, ids, o, .running, [], none, false, []⟩

section
variable (s : State) (num ctx : Nat) (p : LaunchPacket) (ids : List Nat) (o : Origin) (code image : List Byte)

theorem placeCrew_eq : ∃ v : State, s.handedOver v ∧ s.placeCrew num ctx p ids o code image =
    { v with crews := v.crews ++ [.fresh num ctx p ids o] } := by
  have h : s.handedOver (ids.zipIdx.foldl (fun s x => s.placeCore num ctx x.2 p code image x.1) s) := by
    apply State.handedOver.foldl
    intro s x
    apply handedOver_placeCore
  refine ⟨_, h, ?_⟩
  rw [State.placeCrew, Crew.fresh]

theorem placeCrew_startsAs (hids : ids.Nodup) {i n : Nat} (hi : ids[i]? = some n) :
    ((s.placeCrew num ctx p ids o code image).coreOf n).startsAs ⟨num, ctx, i, p.crew, p.res⟩ p.args := by
  have hm : (n, i) ∈ ids.zipIdx := List.mem_zipIdx_iff_getElem?.2 hi
  have hnd : (ids.zipIdx.map Prod.fst).Nodup := by rwa [List.zipIdx_map_fst]
  refine foldl_coreOf_each (key := Prod.fst) (P := fun x c => c.startsAs ⟨num, ctx, x.2, p.crew, p.res⟩ p.args)
    (step := fun s x => s.placeCore num ctx x.2 p code image x.1) (fun s x m hm => ?_) (fun s x => ?_) ids.zipIdx hnd s (n, i) hm
  · rw [placeCore_coreOf, if_neg (Ne.symm hm)]
  · rw [placeCore_coreOf, if_pos rfl]
    exact Core.launched_startsAs ..

theorem placeCrew_crew (h : s.crew num = none) : (s.placeCrew num ctx p ids o code image).crew num = some (.fresh num ctx p ids o) := by
  obtain ⟨v, ⟨g, hv⟩, hp⟩ := placeCrew_eq s num ctx p ids o code image
  have hn : v.crew num = none := by
    rw [crew_map (g := fun k => { k with stood := g k }) (fun _ => rfl) (congrArg State.crews hv :) num, h]
    rfl
  rw [State.crew] at hn
  rw [hp, State.crew, List.find?_append, hn]
  simp [Crew.fresh]

theorem placeCrew_waiting : (s.placeCrew num ctx p ids o code image).waiting = s.waiting := by
  obtain ⟨v, ⟨g, hv⟩, hp⟩ := placeCrew_eq s num ctx p ids o code image
  rw [hp]
  exact (congrArg State.waiting hv :)

theorem placeCrew_launchQ : (s.placeCrew num ctx p ids o code image).launchQ = s.launchQ := by
  obtain ⟨v, ⟨g, hv⟩, hp⟩ := placeCrew_eq s num ctx p ids o code image
  rw [hp]
  exact (congrArg State.launchQ hv :)

end

/-! ### The firmware's answer to a launch (R278, R280, R281) -/

theorem hostSide_countDown {s : State} {p : PAddr} (h : p.space = .host) : s.hostSide (s.countDown p) := by
  rw [State.countDown]
  split
  · exact hostSide_writeCells h
  · exact .refl s

theorem hostSide_signal (s : State) (q : Fin 64) : s.hostSide (s.signal q) := by
  rw [State.signal]
  split <;> rfl

theorem hostSide_complete (s : State) (q : Fin 64) (code part ctx tag reason : Nat) (results : List Word) :
    s.hostSide (s.complete q code part ctx tag reason results) := by
  have hp := hostSide_postEvent s q 0 code part ctx tag reason (results.flatMap (fun r => bytesOfNat 8 r.toNat))
  rw [State.complete]
  split
  · exact hp.trans ((hostSide_countDown rfl).trans ((hostSide_signal _ q).trans (hostSide_updIface _ q _)))
  · exact hp.trans (hostSide_updIface _ q _)

theorem hostSide_takePacket (s : State) (q : Fin 64) : s.hostSide (s.takePacket q) := by
  rw [State.takePacket]
  dsimp only
  split
  · exact .refl s
  split
  · exact hostSide_updIface s q _
  have ht := (hostSide_writeCells (s := s) (p := s.fw.ifaces[q].slot.plus 56) (l := bytesOfNat 8 0) rfl).trans
    (hostSide_updIface _ q (fun i => { i with cons := i.cons + 1, busy := true }))
  split
  · exact ht.trans rfl
  · exact ht.trans (hostSide_complete ..)

theorem hostSide_pump (q : Fin 64) (fuel : Nat) (s : State) : s.hostSide (s.pump q fuel) := by
  induction fuel generalizing s with
  | zero => exact .refl s
  | succ fuel ih =>
    rw [State.pump]
    split
    · exact (hostSide_takePacket s q).trans (ih _)
    · exact .refl s

theorem hostSide_answerLaunch (s : State) (w : Waiting) (code : Code) (reason : Nat) (r : List Word) :
    s.hostSide (s.answerLaunch w code reason r) := by
  rw [State.answerLaunch]
  split
  · exact (hostSide_complete ..).trans (hostSide_pump ..)
  · exact .refl s

theorem State.hostSide.coreOf {s t : State} (h : s.hostSide t) (n : Nat) : t.coreOf n = s.coreOf n :=
  coreOf_congr (congrArg State.core h :) (congrArg State.others h :) n

theorem State.hostSide.crew {s t : State} (h : s.hostSide t) (n : Nat) : t.crew n = s.crew n := crew_congr (congrArg State.crews h :) n

/-- A waiting launch on its cores. -/
theorem placementEvent_places {s : State} {w : Waiting} {ids : List Nat} {code image : List Byte}
    (hw : s.waiting.find? (fun x => decide (x.num = w.num)) = some w) (hb : s.nextBlock w.ctx = none)
    (hl : s.nextLaunch (s.partOf w.ctx) = some w) (hf : s.fits w.ctx w.packet.crew ids = true)
    (hc : (s.dropWaiting w.num).readCode w.ctx w.packet = .ok code) (hi : (s.dropWaiting w.num).launchImage w = .ok image) :
    s.placementEvent w.num ids = ((s.dropWaiting w.num).placeCrew w.num w.ctx w.packet ids w.origin code image).answerLaunch w codeOk 0
      [wordOfNat w.num] := by
  simp only [State.placementEvent, hw, hb, hl, hf, and_self, if_true, State.placeWaiting, hc, hi]

/-! ### Launch blocks (R268) -/

theorem blockTaken_places {s : State} {target : Nat} {rest : List Nat} {b : LaunchBlock} {code : List Byte} (hh : s.headBlock target = some b)
    (hb : s.nextBlock b.ctx = some target) (hr : launchRefused b.bytes 0 (s.partCores b.ctx).length = none)
    (hf : s.fits b.ctx (launchOf b.bytes).crew (sortNat (target :: rest)) = true) (hs : sortNat rest = rest)
    (hc : s.readCode b.ctx (launchOf b.bytes) = .ok code) :
    s.blockTaken target rest = ({ s.setQueue target (s.queueOf target).tail with crewNum := s.crewNum + 1 }).placeCrew s.crewNum b.ctx
      (launchOf b.bytes) (target :: rest) (.block b.pusher target) code [] := by
  simp only [State.blockTaken, hh, hb, hr, hf, hs, ne_eq, not_true_eq_false, and_self, if_true, if_false, State.placeBlock, hc]
  rfl

theorem blockTaken_refuses {s : State} {target reason : Nat} {rest : List Nat} {b : LaunchBlock} (hh : s.headBlock target = some b)
    (hb : s.nextBlock b.ctx = some target) (hr : launchRefused b.bytes 0 (s.partCores b.ctx).length = some reason) :
    s.blockTaken target rest = s.refuseBlock target b reason codeIllegal := by
  simp only [State.blockTaken, hh, hb, hr, ne_eq, not_true_eq_false, if_false]

/-- The same crews and launch queues. -/
def State.sameCrews (s t : State) : Prop := t.crews = s.crews ∧ t.launchQ = s.launchQ

theorem State.sameCrews.trans {s t u : State} (h : s.sameCrews t) (k : t.sameCrews u) : s.sameCrews u := ⟨k.1.trans h.1, k.2.trans h.2⟩

theorem State.hostSide.sameCrews {s t : State} (h : s.hostSide t) : s.sameCrews t := ⟨(congrArg State.crews h :), (congrArg State.launchQ h :)⟩

theorem sameCrews_logCtx (s : State) (ctx : Nat) (kind : LogKind) (detail : Nat) (code : Code) : s.sameCrews (s.logCtx ctx kind detail code) := by
  rw [State.logCtx]
  split
  · exact ⟨rfl, rfl⟩
  · refine State.sameCrews.trans ?_ (hostSide_postEvent ..).sameCrews
    exact ⟨rfl, rfl⟩

theorem sameCrews_store (s : State) (l : List (PAddr × Byte)) : s.sameCrews (s.store l).2 := by
  rw [State.store]
  split
  · obtain ⟨a, b, c, h⟩ := State.writeCells_frame l (s.heal l)
    rw [h]
    exact ⟨rfl, rfl⟩
  · exact ⟨rfl, rfl⟩

theorem sameCrews_doneAdd (s : State) (ctx done : Nat) (own : Option Nat) (extra : Option Crew) (code : Code) (flags : BitVec 16) :
    s.sameCrews (s.doneAdd ctx done own extra code flags) := by
  rw [State.doneAdd]
  split
  · exact ⟨rfl, rfl⟩
  split
  next p _ =>
    have hs := sameCrews_store s ((if 1 = 0 then [] else s.countCells p 1) ++ s.failCells p code flags)
    rw [State.syncAct]
    split
    next t ht => rw [ht] at hs; exact hs
    next => exact sameCrews_logCtx ..
    next => exact ⟨rfl, rfl⟩
  next => exact sameCrews_logCtx ..

theorem refuseBlock_sameCrews (s : State) (target : Nat) (b : LaunchBlock) (reason : Nat) (code : Code) :
    (s.setQueue target (s.queueOf target).tail).sameCrews (s.refuseBlock target b reason code) := by
  rw [State.refuseBlock]
  exact (sameCrews_logCtx ..).trans (sameCrews_doneAdd ..)

theorem queueOf_setQueue (s : State) (target : Nat) (l : List LaunchBlock) : (s.setQueue target l).queueOf target = l :=
  assocGet_assocSet_same ..

theorem queueOf_congr {s t : State} (h : t.launchQ = s.launchQ) (target : Nat) : t.queueOf target = s.queueOf target :=
  congrArg (assocGet [] · target) h

end Sys2Proof.Machine
end

section
/-!
PROOFS. Crews are stopped, saved and resumed (R220, R266, R269 to R273); with their placing, O40.
-/
namespace Sys2Proof.Machine

/-! ### The end of a crew's time to yield (R271) -/

theorem expire_stops {s : State} {n : Nat} {k : Crew} (hk : s.crew n = some k) (hr : k.state = .running)
    (hy : ∃ id ∈ k.cores, (s.coreOf id).seq.yreq = true ∧ (s.coreOf id).seq.ydl = 0)
    (hu : ∃ id ∈ k.cores, (s.coreOf id).seq.yielded = false ∧ (s.coreOf id).seq.ended = false) :
    s.expire n = s.updCrew n (fun k => { k with state := .stopping true }) := by
  obtain ⟨i, hi, hreq, hydl⟩ := hy
  obtain ⟨j, hj, hyld, hend⟩ := hu
  have hy : k.cores.any (fun id => (s.coreOf id).seq.yreq && decide ((s.coreOf id).seq.ydl = 0)) = true :=
    List.any_eq_true.2 ⟨i, hi, by simp [hreq, hydl]⟩
  have hu : s.unyielded k = true := List.any_eq_true.2 ⟨j, hj, by simp [hyld, hend]⟩
  simp only [State.expire, hk, hr, hy, hu, and_self, if_true]

theorem expire_notRunning {s : State} {n : Nat} {k : Crew} (hk : s.crew n = some k) (hr : k.state ≠ .running) : s.expire n = s := by
  simp only [State.expire, hk, hr, false_and, if_false]

/-! ### Saving (R220, R271, R272) -/

/-- The cores that a crew leaves are free, whichever order they are left in. -/
theorem foldl_vacate_seat (ctx : Nat) (l : List Nat) (s : State) (n : Nat) (h : n ∈ l ∨ (s.coreOf n).seat = none) :
    ((l.foldl (fun s m => s.updCore m (·.vacate ctx)) s).coreOf n).seat = none := by
  induction l generalizing s with
  | nil => exact h.resolve_left List.not_mem_nil
  | cons m l ih =>
    have hc : (s.updCore m (·.vacate ctx)).coreOf n = if m = n then (s.coreOf n).vacate ctx else s.coreOf n :=
      coreOf_updCore (coreOf_id s m) n
    refine ih (s.updCore m (·.vacate ctx)) ?_
    rw [hc]
    by_cases hmn : m = n
    · rw [if_pos hmn]; exact .inr rfl
    · rw [if_neg hmn]
      exact h.imp_left fun hm => (List.mem_cons.1 hm).resolve_left (fun e => hmn e.symm)

theorem foldl_updCore_frame (f : Core → Core) (l : List Nat) (s : State) :
    ∃ (d : Core) (o : List Core), l.foldl (fun s m => s.updCore m f) s = { s with core := d, others := o } := by
  induction l generalizing s with
  | nil => exact ⟨s.core, s.others, rfl⟩
  | cons m l ih =>
    obtain ⟨d, o, h⟩ := putCore_frame s (f (s.coreOf m))
    obtain ⟨d', o', h'⟩ := ih (s.updCore m f)
    refine ⟨d', o', h'.trans ?_⟩
    rw [State.updCore, h]

/-- Nothing but crews' save areas and cores differs. -/
theorem revokeWindows_frame (s : State) (ids : List Nat) : ∃ (d : Core) (o : List Core) (f : Crew → Core → Core),
    s.revokeWindows ids = { s with core := d, others := o, crews := s.crews.map (fun k => k.mapSaved (f k)) } := ⟨_, _, _, rfl⟩

theorem oweCores_frame (s : State) (k : Crew) : ∃ l : List Context, s.oweCores k = { s with ctxs := l } := by
  rw [State.oweCores]
  split
  · exact ⟨_, rfl⟩
  · exact ⟨s.ctxs, rfl⟩

/-- A crew that is saved leaves its cores; nothing else but the contexts' harnesses and its own entry changes. -/
theorem saveCrew_frame (s : State) (k : Crew) : ∃ (d : Core) (o : List Core) (l : List Context),
    s.saveCrew k = { s.updCrew k.num (fun x => { x with state := .saved, saved := k.cores.map s.saveCore, asked := none, stood := s.stoodBy k.cores })
      with core := d, others := o, ctxs := l } := by
  obtain ⟨d, o, hv⟩ := foldl_updCore_frame (·.vacate k.ctx) k.cores s
  rw [State.saveCrew, hv]
  obtain ⟨l, hl⟩ := oweCores_frame (({ s with core := d, others := o }).updCrew k.num
    (fun x => { x with state := .saved, saved := k.cores.map s.saveCore, asked := none, stood := s.stoodBy k.cores })) k
  exact ⟨d, o, l, hl⟩

theorem saveCrew_crew {s : State} {k x : Crew} (hx : s.crew k.num = some x) : (s.saveCrew k).crew k.num =
    some { x with state := .saved, saved := k.cores.map s.saveCore, asked := none, stood := s.stoodBy k.cores } := by
  obtain ⟨d, o, l, h⟩ := saveCrew_frame s k
  rw [h]
  exact crew_updCrew_same (s := s) (f := fun x => { x with
    state := .saved, saved := k.cores.map s.saveCore, asked := none, stood := s.stoodBy k.cores }) (fun _ => rfl) hx

theorem saveCrew_seat {s : State} {k : Crew} {id : Nat} (h : id ∈ k.cores) : ((s.saveCrew k).coreOf id).seat = none := by
  rw [State.saveCrew]
  obtain ⟨l, hl⟩ := oweCores_frame (((k.cores.foldl (fun s n => s.updCore n (·.vacate k.ctx)) s)).updCrew k.num
    (fun x => { x with state := .saved, saved := k.cores.map s.saveCore, asked := none, stood := s.stoodBy k.cores })) k
  rw [hl]
  exact foldl_vacate_seat k.ctx k.cores s id (.inl h)

theorem saveCrew_ctxs (s : State) {k : Crew} (h : ∀ st : Nat, k.asked ≠ some (some st)) : (s.saveCrew k).ctxs = s.ctxs := by
  obtain ⟨d, o, hv⟩ := foldl_updCore_frame (·.vacate k.ctx) k.cores s
  rw [State.saveCrew, hv, State.oweCores]
  split
  next st hst => exact absurd hst (h st)
  next => rfl

/-- The stage on whose behalf a crew was asked is owed its cores (R266). -/
theorem saveCrew_owed {s : State} {k : Crew} {st : Nat} {c : Context} {h : Harness} (ha : k.asked = some (some st)) (hc : s.ctx k.ctx = some c)
    (hh : c.harness = some h) : (s.saveCrew k).ctx k.ctx =
      some { c with harness := some { h with owed := h.owed ++ k.cores.map (fun id => (id, st)) } } := by
  obtain ⟨d, o, hv⟩ := foldl_updCore_frame (·.vacate k.ctx) k.cores s
  rw [State.saveCrew, hv, State.oweCores, ha]
  refine (ctx_updCtx_same (f := fun c => { c with harness := c.harness.map (fun h => { h with
    owed := h.owed ++ k.cores.map (fun n => (n, st)) }) }) (fun _ => rfl) hc).trans ?_
  rw [hh]
  rfl

section
variable {s : State} {n : Nat} {k : Crew} (hk : s.crew n = some k)
include hk

theorem saveEvent_standing (hs : s.crewStopping n = true) (hh : s.ctxHalted k.ctx = false) (hr : ∀ id ∈ k.cores, (s.coreOf id).saveReady = true) :
    s.saveEvent n = if k.cores.any ((s.revokeWindows k.cores).storeBusyFrom k.cores) = true then s.revokeWindows k.cores
      else if s.orphaned k = true ∧ k.asked ≠ some none then (((s.revokeWindows k.cores).saveCrew k).discardCrew n).dropHarness k.ctx
      else (s.revokeWindows k.cores).saveCrew k := by
  have hr : k.cores.all (fun id => (s.coreOf id).saveReady) = true := List.all_eq_true.2 hr
  simp only [State.saveEvent, hk, hs, hh, hr, Bool.not_false, and_self, if_true]

theorem saveEvent_moving (h : ∃ id ∈ k.cores, (s.coreOf id).saveReady = false) : s.saveEvent n = s := by
  obtain ⟨id, hid, hb⟩ := h
  have hr : k.cores.all (fun id => (s.coreOf id).saveReady) = false := List.all_eq_false.2 ⟨id, hid, by simp [hb]⟩
  simp only [State.saveEvent, hk, hr, Bool.false_eq_true, and_false, if_false]

/-- The crew whose bindings to its own windows are revoked is saved. -/
theorem saved_crew : ((s.revokeWindows k.cores).saveCrew k).crew n = some { k with
    state := .saved, saved := k.cores.map (s.revokeWindows k.cores).saveCore, asked := none, stood := (s.revokeWindows k.cores).stoodBy k.cores } := by
  obtain ⟨d, o, f, hf⟩ := revokeWindows_frame s k.cores
  have hn : k.num = n := crew_num hk
  have hm : (s.revokeWindows k.cores).crew k.num = some (k.mapSaved (f k)) := by
    rw [crew_map (g := fun k => k.mapSaved (f k)) (fun _ => rfl) (congrArg State.crews hf :) k.num, hn, hk]
    rfl
  rw [← hn]
  exact (saveCrew_crew hm).trans rfl

/-! ### Resuming (R220, R273) -/

theorem resumeEvent_blocked (h : s.canResume k = false) : s.resumeEvent n = s := by
  simp only [State.resumeEvent, hk, h, Bool.false_and, Bool.false_eq_true, if_false]

theorem resumeEvent_restores {code : List Byte} (hr : s.canResume k = true) (hp : s.placeFirst k.ctx = false) (ho : s.coresOwed k = false)
    (hw : (∀ st : Nat, k.origin ≠ .stage st) ∨ s.stageWants k.ctx = false) (hc : s.readCode k.ctx k.packet = .ok code) :
    s.resumeEvent n = s.restoreCrew k code := by
  have hcode : s.resumeCrew k = s.restoreCrew k code := by rw [State.resumeCrew, hc]
  rw [State.resumeEvent, hk]
  dsimp only
  rw [hr, hp, ho, hcode]
  refine if_pos ?_
  cases hor : k.origin with
  | stage st => simp [hw.resolve_left fun h => h st hor]
  | host q tag va len => simp
  | block pusher target => simp

end

/-- A core whose saved crew has come back to it. -/
def Core.resumedAs (c : Core) (seat : Seat) (v : Core) : Prop :=
  c.seat = some seat ∧ c.seq.g = v.seq.g ∧ c.seq.pc = v.seq.pc ∧ c.reports = v.reports

theorem Core.SameSeat.resumedAs {c d : Core} (h : c.SameSeat d) {seat : Seat} {v : Core} (hc : c.resumedAs seat v) : d.resumedAs seat v := by
  obtain ⟨hs, hg, hp, hr⟩ := hc
  exact ⟨h.seat.trans hs, h.g.trans hg, h.pc.trans hp, h.reports.trans hr⟩

section
variable (s : State) (k : Crew) (code : List Byte) (rank id : Nat) (v : SavedCore)

theorem restoreCore_coreOf_other {n : Nat} (h : n ≠ id) : (s.restoreCore k code rank id v).coreOf n = s.coreOf n := by
  refine (coreOf_putCore _ _ n).trans ((if_neg (fun e => h e.symm)).trans ?_)
  rw [fillStore_coreOf]
  rfl

theorem restoreCore_coreOf_same :
    ((s.restoreCore k code rank id v).coreOf id).resumedAs ⟨k.num, k.ctx, rank, k.packet.crew, k.packet.res⟩ v.core := by
  refine Eq.mpr (congrArg (fun c : Core => c.resumedAs ⟨k.num, k.ctx, rank, k.packet.crew, k.packet.res⟩ v.core)
    ((coreOf_putCore _ _ id).trans (if_pos rfl))) ?_
  exact ⟨rfl, rfl, rfl, rfl⟩

theorem handedOver_restoreCore : s.handedOver (s.restoreCore k code rank id v) := by
  refine (handedOver_scrubStore s id (2 ^ 22)).trans (State.handedOver.trans ⟨Crew.stood, ?_⟩ ((handedOver_fillStore _ id _ code).trans
    ((handedOver_putCore _ _).trans (handedOver_forgetStood _ id))))
  simp

end

/-- The saved cores are back in their places and the crew runs; its bindings and collectives are still as they were. -/
def State.takeBack (s : State) (k : Crew) (code : List Byte) : State :=
  ((k.cores.zip k.saved).zipIdx.foldl (fun s x => s.restoreCore k code x.2 x.1.1 x.1.2) s).updCrew k.num
    (fun k => { k with state := .running, saved := [], stood := [] })

theorem restoreCrew_eq (s : State) (k : Crew) (code : List Byte) : s.restoreCrew k code =
    ((k.cores.foldl State.vecResumed (k.cores.foldl (fun s n => s.rebind k.ctx n) (s.takeBack k code))).focus s.core.id).deliverAll k.cores := rfl

section
variable {s : State} {k : Crew} (code : List Byte)

theorem takeBack_crew (hk : s.crew k.num = some k) :
    (s.takeBack k code).crew k.num = some { k with state := .running, saved := [], stood := [] } := by
  have hover : s.handedOver ((k.cores.zip k.saved).zipIdx.foldl (fun s x => s.restoreCore k code x.2 x.1.1 x.1.2) s) := by
    apply State.handedOver.foldl
    intro s x
    apply handedOver_restoreCore
  obtain ⟨g, hg⟩ := hover
  have h1 := crew_map (g := fun k => { k with stood := g k }) (fun _ => rfl) (congrArg State.crews hg :) k.num
  rw [hk] at h1
  exact (crew_updCrew_same (f := fun k => { k with state := .running, saved := [], stood := [] }) (fun _ => rfl) h1).trans rfl

variable (hd : k.cores.Nodup) (hl : k.saved.length = k.cores.length)
include hd hl

theorem takeBack_core {i id : Nat} {v : SavedCore} (hi : k.cores[i]? = some id) (hv : k.saved[i]? = some v) :
    ((s.takeBack k code).coreOf id).resumedAs ⟨k.num, k.ctx, i, k.packet.crew, k.packet.res⟩ v.core := by
  have hkeys : ((k.cores.zip k.saved).zipIdx.map Prod.fst).map Prod.fst = k.cores := by
    rw [List.zipIdx_map_fst, List.map_fst_zip (le_of_eq hl.symm)]
  rw [List.map_map] at hkeys
  have hm : ((id, v), i) ∈ (k.cores.zip k.saved).zipIdx := List.mem_zipIdx_iff_getElem?.2 (List.getElem?_zip_eq_some.2 ⟨hi, hv⟩)
  refine foldl_coreOf_each (α := (Nat × SavedCore) × Nat) (key := Prod.fst ∘ Prod.fst)
    (P := fun x c => c.resumedAs ⟨k.num, k.ctx, x.2, k.packet.crew, k.packet.res⟩ x.1.2.core)
    (step := fun s x => s.restoreCore k code x.2 x.1.1 x.1.2) (fun s x n h => ?_) (fun s x => ?_) _ (hkeys.symm.subst (motive := List.Nodup) hd) s _ hm
  · apply restoreCore_coreOf_other
    exact h
  · apply restoreCore_coreOf_same

/-- From there on no seat and no register changes (R187, R220, R311). -/
theorem sameSeats_restoreCrew (hr : ∀ v ∈ k.saved, v.core.reports = []) : (s.takeBack k code).SameSeats (s.restoreCrew k code) := by
  have h : (s.takeBack k code).SameSeats
      ((k.cores.foldl State.vecResumed (k.cores.foldl (fun s n => s.rebind k.ctx n) (s.takeBack k code))).focus s.core.id) :=
    (State.SameSeats.foldl (fun s n => sameSeats_rebind s k.ctx n) k.cores _).trans ((State.SameSeats.foldl (fun s n =>
      (State.SameSeats.focus s n).trans (sameSeats_vecStops _)) k.cores _).trans (State.SameSeats.focus _ _))
  rw [restoreCrew_eq]
  refine h.trans (sameSeats_deliverAll _ _ fun id hid => ?_)
  obtain ⟨i, hlt, hi⟩ := List.getElem_of_mem hid
  have hlt' : i < k.saved.length := hl ▸ hlt
  obtain ⟨-, -, -, hreports⟩ := takeBack_core (s := s) code hd hl (List.getElem?_eq_some_iff.2 ⟨hlt, hi⟩) (List.getElem?_eq_getElem hlt')
  exact ((h.cores id).reports.trans hreports).trans (hr _ (List.getElem_mem hlt'))

end

/-! ### The obligation -/

/-- A waiting launch on its cores. -/
theorem waiting_placed {s : State} {w : Waiting} {ids : List Nat} {code image : List Byte}
    (hw : s.waiting.find? (fun x => decide (x.num = w.num)) = some w) (hb : s.nextBlock w.ctx = none)
    (hl : s.nextLaunch (s.partOf w.ctx) = some w) (hf : s.fits w.ctx w.packet.crew ids = true)
    (hc : (s.dropWaiting w.num).readCode w.ctx w.packet = .ok code) (hi : (s.dropWaiting w.num).launchImage w = .ok image)
    (hk : s.crew w.num = none) : ∃ t, exec (.crewPlacement w.num ids) s = .next t ∧
      (∀ (i n : Nat), ids[i]? = some n → (t.coreOf n).startsAs ⟨w.num, w.ctx, i, w.packet.crew, w.packet.res⟩ w.packet.args) ∧
      t.crew w.num = some (.fresh w.num w.ctx w.packet ids w.origin) ∧
      t.waiting = s.waiting.filter (fun x => decide (x.num ≠ w.num)) := by
  have ha := hostSide_answerLaunch ((s.dropWaiting w.num).placeCrew w.num w.ctx w.packet ids w.origin code image) w codeOk 0 [wordOfNat w.num]
  refine ⟨_, congrArg Host.Outcome.next (placementEvent_places hw hb hl hf hc hi), fun i n hn => ?_, ?_, ?_⟩
  · rw [ha.coreOf]
    exact placeCrew_startsAs _ _ _ _ _ _ _ _ (nodup_of_fits hf) hn
  · rw [ha.crew]
    exact placeCrew_crew _ _ _ _ _ _ _ _ hk
  · exact (congrArg State.waiting ha :).trans (placeCrew_waiting _ _ _ _ _ w.origin _ _)

/-- The block at the head of a launch queue on its cores. -/
theorem block_placed {s : State} {target : Nat} {rest : List Nat} {b : LaunchBlock} {code : List Byte} (hh : s.headBlock target = some b)
    (hb : s.nextBlock b.ctx = some target) (hr : launchRefused b.bytes 0 (s.partCores b.ctx).length = none)
    (hf : s.fits b.ctx (launchOf b.bytes).crew (sortNat (target :: rest)) = true) (hs : sortNat rest = rest)
    (hc : s.readCode b.ctx (launchOf b.bytes) = .ok code) (hk : s.crew s.crewNum = none) :
    ∃ t, exec (.launchBlockTaken target rest) s = .next t ∧
      (∀ (i n : Nat), (target :: rest)[i]? = some n → (t.coreOf n).startsAs ⟨s.crewNum, b.ctx, i, (launchOf b.bytes).crew, (launchOf b.bytes).res⟩
        (launchOf b.bytes).args) ∧
      t.crew s.crewNum = some (.fresh s.crewNum b.ctx (launchOf b.bytes) (target :: rest) (.block b.pusher target)) ∧
      t.queueOf target = (s.queueOf target).tail := by
  refine ⟨_, congrArg Host.Outcome.next (blockTaken_places hh hb hr hf hs hc), fun i n hn => ?_, ?_, ?_⟩
  · exact placeCrew_startsAs _ _ _ _ _ _ _ _ ((sortNat_perm _).nodup_iff.1 (nodup_of_fits hf)) hn
  · exact placeCrew_crew _ _ _ _ _ _ _ _ hk
  · exact (queueOf_congr (placeCrew_launchQ ..) target).trans (queueOf_setQueue ..)

theorem block_refused {s : State} {target reason : Nat} {rest : List Nat} {b : LaunchBlock} (hh : s.headBlock target = some b)
    (hb : s.nextBlock b.ctx = some target) (hr : launchRefused b.bytes 0 (s.partCores b.ctx).length = some reason) :
    ∃ t, exec (.launchBlockTaken target rest) s = .next t ∧ t.queueOf target = (s.queueOf target).tail ∧ t.crews = s.crews := by
  obtain ⟨hcrews, hq⟩ := refuseBlock_sameCrews s target b reason codeIllegal
  exact ⟨_, congrArg Host.Outcome.next (blockTaken_refuses hh hb hr), (queueOf_congr hq target).trans (queueOf_setQueue ..), hcrews⟩

section
variable {s : State} {n : Nat} {k : Crew} (hk : s.crew n = some k)
include hk

/-- A crew that stands still and whose cores' stores nobody still writes is saved. -/
theorem crew_saved (hs : s.crewStopping n = true) (hh : s.ctxHalted k.ctx = false) (hr : ∀ id ∈ k.cores, (s.coreOf id).saveReady = true)
    (hb : ∀ id ∈ k.cores, (s.revokeWindows k.cores).storeBusyFrom k.cores id = false) (ho : s.orphaned k = false ∨ k.asked = some none) :
    exec (.crewSave n) s = .next ((s.revokeWindows k.cores).saveCrew k) := by
  have hbusy : ¬ k.cores.any ((s.revokeWindows k.cores).storeBusyFrom k.cores) = true := by
    rw [List.any_eq_true]
    exact fun ⟨id, hid, h⟩ => Bool.false_ne_true ((hb id hid).symm.trans h)
  have horph : ¬ (s.orphaned k = true ∧ k.asked ≠ some none) :=
    fun ⟨h1, h2⟩ => ho.elim (fun h => Bool.false_ne_true (h.symm.trans h1)) h2
  exact congrArg Host.Outcome.next ((saveEvent_standing hk hs hh hr).trans ((if_neg hbusy).trans (if_neg horph)))

theorem crew_waits (hs : s.crewStopping n = true) (hh : s.ctxHalted k.ctx = false) (hr : ∀ id ∈ k.cores, (s.coreOf id).saveReady = true)
    (hb : ∃ id ∈ k.cores, (s.revokeWindows k.cores).storeBusyFrom k.cores id = true) :
    exec (.crewSave n) s = .next (s.revokeWindows k.cores) :=
  congrArg Host.Outcome.next ((saveEvent_standing hk hs hh hr).trans (if_pos (List.any_eq_true.2 hb)))

end

/-- Settles O40. -/
theorem crewsArePlacedStoppedAndResumed : Obligations.CrewsArePlacedStoppedAndResumed := by
  unfold Obligations.CrewsArePlacedStoppedAndResumed
  refine ⟨fun s => ⟨?_, ?_, ?_⟩, fun s n k hk => ⟨fun hr hy hu => congrArg Host.Outcome.next (expire_stops hk hr hy hu),
    fun hr => congrArg Host.Outcome.next (expire_notRunning hk hr), fun hs hh hr => ⟨?_, crew_waits hk hs hh hr⟩,
    fun h => congrArg Host.Outcome.next (saveEvent_moving hk h), ?_, fun h => congrArg Host.Outcome.next (resumeEvent_blocked hk h)⟩⟩
  · intro w ids code image hw hb hl hf _ s1 hc hi hk
    exact waiting_placed hw hb hl hf hc hi hk
  · intro target rest b code hh hb hr p hf hs hc hk
    exact block_placed hh hb hr hf hs hc hk
  · intro target reason rest b hh hb hr
    exact block_refused hh hb hr
  · intro r hb ho
    obtain ⟨d, o, l, hframe⟩ := saveCrew_frame (s.revokeWindows k.cores) k
    refine ⟨_, crew_saved hk hs hh hr hb ho, saved_crew hk, fun id => saveCrew_seat, ?_, fun h => saveCrew_ctxs _ h,
      fun st c h ha hc hh => saveCrew_owed ha hc hh⟩
    rw [hframe]
    exact ⟨rfl, rfl, rfl⟩
  · intro code hr hp ho hw hrep hc hd hl
    have hn : k.num = n := crew_num hk
    have hsame := sameSeats_restoreCrew (s := s) code hd hl hrep
    refine ⟨_, congrArg Host.Outcome.next (resumeEvent_restores hk hr hp ho hw hc), ?_, fun i id hi => ?_⟩
    · rw [crew_congr hsame.crews, ← hn]
      exact takeBack_crew code (hn.symm ▸ hk)
    have hlt : i < k.saved.length := hl ▸ (List.getElem?_eq_some_iff.1 hi).1
    obtain ⟨hseat, -⟩ := (hsame.cores id).resumedAs (takeBack_core code hd hl hi (List.getElem?_eq_getElem hlt))
    refine ⟨hseat, fun v hv => ?_⟩
    obtain ⟨-, hg, hpc, -⟩ := (hsame.cores id).resumedAs (takeBack_core code hd hl hi hv)
    exact ⟨hg, hpc⟩

end Sys2Proof.Machine
end

section
/-!
PROOFS. What a decoder reads of a word, and the word that its fields make up (R35 to R38, R44, R50).
-/
namespace Sys2Proof.Machine

/-! ### What a decoder reads -/

/-- Instruction i is well-formed, stream st fetches it, and w is the number of its word. -/
structure IsWordOf (st : StreamId) (w : Nat) (i : Instr) : Prop where
  wf     : i.wf = true
  stream : i.stream = some st
  word   : encodeNat i = some w

theorem IsWordOf.of_eq {st : StreamId} {v w : Nat} {i : Instr} (h : IsWordOf st v i) (e : v = w) : IsWordOf st w i := e ▸ h

/-- If the answer of a decoder is an instruction, then it is one of stream st whose word is w. -/
def Faithful (st : StreamId) (w : Nat) (r : Except Reject Instr) : Prop := ∀ i, r = .ok i → IsWordOf st w i

namespace Faithful
variable {st : StreamId} {w : Nat} {r : Reject} {k : Except Reject Instr}

theorem error : Faithful st w (.error r) := fun _ h => nomatch h

theorem ok {i : Instr} (h : IsWordOf st w i) : Faithful st w (.ok i) := fun _ e => Except.ok.inj e ▸ h

/-- A check that fails reads nothing. -/
theorem need {c : Bool} (h : c = true → Faithful st w k) : Faithful st w (need c r k) := by
  cases c with
  | false => exact error
  | true => exact h rfl

theorem need_eq {a b : Nat} (h : a = b → Faithful st w k) : Faithful st w (Sys2Proof.need (a == b) r k) :=
  need fun e => h (beq_iff_eq.1 e)

theorem need_ne {a b : Nat} (h : a ≠ b → Faithful st w k) : Faithful st w (Sys2Proof.need (a != b) r k) :=
  need fun e => h (bne_iff_ne.1 e)

theorem need_decide {p : Prop} [Decidable p] (h : p → Faithful st w k) : Faithful st w (Sys2Proof.need (decide p) r k) :=
  need fun e => h (of_decide_eq_true e)

end Faithful

/-! ### The codes of what is read -/

theorem fld_lt (w lo n : Nat) : fld w lo n < 2 ^ n := Nat.mod_lt _ (Nat.two_pow_pos n)

/-- Zeros above the low n bits add nothing to them. -/
theorem fld_low {w n m : Nat} (h : fld w n m = 0) : fld w 0 (n + m) = fld w 0 n := by
  simp only [fld, Nat.pow_zero, Nat.div_one] at *
  rw [Nat.pow_add, Nat.mod_mul, h, Nat.mul_zero, Nat.add_zero]

theorem finOf_ne_zero {n x : Nat} [NeZero n] (h : x % n ≠ 0) : finOf n x ≠ 0 := fun e => h (by simpa [finOf] using congrArg Fin.val e)

theorem ofNat_ne_zero {n x : Nat} (h : x % 2 ^ n ≠ 0) : BitVec.ofNat n x ≠ 0 := fun e => h (by simpa using congrArg BitVec.toNat e)

theorem bit_boolOf (x : Nat) : bit (boolOf x) = x % 2 := by
  rcases Nat.mod_two_eq_zero_or_one x with h | h <;> simp [boolOf, bit, h]

theorem code_treeOpOf {x : Nat} (h : x < 256) : (treeOpOf x).code = x := by
  unfold treeOpOf TreeOp.code
  split <;> simp only [Idx.code, finOf, Fin.ofNat] <;> omega

theorem code_of_endPtOf {x : Nat} {e : EndPt} (hx : x < 1024) (h : endPtOf x = .ok e) : e.wf = true ∧ e.code = x := by
  unfold endPtOf at h
  split at h
  · split at h
    · cases h
      exact ⟨rfl, (code_treeOpOf (Nat.mod_lt x (by decide))).trans (by omega)⟩
    · cases h
  · split at h
    · cases h
    · next h0 =>
      cases h
      exact ⟨decide_eq_true (finOf_ne_zero h0), by simp only [EndPt.code, finOf, Fin.ofNat]; omega⟩

theorem code_of_scopeOf {x : Nat} {c : Scope} (h : scopeOf x = some c) : c.code = x := by
  unfold scopeOf at h; split at h <;> cases h <;> rfl

theorem code_of_pathOf {x : Nat} {p : Path} (h : pathOf x = some p) : p.code = x := by
  unfold pathOf at h; split at h <;> cases h <;> rfl

theorem code_of_etypeOf {x : Nat} {t : EType} (h : etypeOf 3 x = some t) : t.code = x := by
  unfold etypeOf at h; split at h <;> cases h <;> rfl

theorem code_of_csrOf {x : Nat} {c : Csr} (h : csrOf x = some c) : c.code = x := by
  unfold csrOf at h; split at h <;> cases h <;> rfl

theorem code_of_shapeFieldOf {x : Nat} {f : ShapeField} (h : shapeFieldOf x = some f) : f.code = x := by
  unfold shapeFieldOf at h; split at h <;> cases h <;> rfl

theorem code_of_winFieldOf {x : Nat} {f : WinField} (h : winFieldOf x = some f) : f.code = x := by
  unfold winFieldOf at h; split at h <;> cases h <;> rfl

theorem code_of_engOf {x : Nat} {e : Eng} (h : engOf x = some e) : e.code = x := by
  unfold engOf at h; split at h <;> cases h <;> rfl

theorem code_of_modeOf {x : Nat} {m : MatMode} (h : modeOf x = some m) : m.code = x := by
  unfold modeOf at h; split at h <;> cases h <;> rfl

theorem code_streamOf {x : Nat} (h : x < 4) : (streamOf x).code = x := by
  interval_cases x <;> rfl

/-! ### The word of its fields: the converses of the layout lemmas of `RoundTrip` -/

section
variable {w maj : Nat} (hw : w < 2 ^ 32) (hm : fld w 26 6 = maj)
include hw hm

theorem word_of_rest {x : Nat} (hx : fld w 0 26 = x) : maj * 2 ^ 26 + x = w := by
  simp only [fld] at hm hx; omega

theorem word_of_S3 {d a b f : Nat} (hd : fld w 21 5 = d) (ha : fld w 16 5 = a) (hb : fld w 11 5 = b) (hf : fld w 0 11 = f) :
    encS3 maj d a b f = w := by
  simp only [fld] at hm hd ha hb hf; simp only [encS3]; omega

theorem word_of_SI {d a x : Nat} (hd : fld w 21 5 = d) (ha : fld w 16 5 = a) (hx : fld w 0 16 = x) : encSI maj d a x = w := by
  simp only [fld] at hm hd ha hx; simp only [encSI]; omega

theorem word_of_SX {d a h s : Nat} (hd : fld w 21 5 = d) (ha : fld w 16 5 = a) (hh : fld w 10 6 = h) (hs : fld w 0 10 = s) :
    encSX maj d a h s = w := by
  simp only [fld] at hm hd ha hh hs; simp only [encSX]; omega

theorem word_of_VA {d a b p q : Nat} (hd : fld w 18 8 = d) (ha : fld w 10 8 = a) (hb : fld w 2 8 = b) (hp : fld w 1 1 = p)
    (hq : fld w 0 1 = q) : encVA maj d a b p q = w := by
  simp only [fld] at hm hd ha hb hp hq; simp only [encVA]; omega

theorem word_of_VI {d a p x : Nat} (hd : fld w 18 8 = d) (ha : fld w 10 8 = a) (hp : fld w 9 1 = p) (hx : fld w 0 9 = x) :
    encVI maj d a p x = w := by
  simp only [fld] at hm hd ha hp hx; simp only [encVI]; omega

theorem word_of_VC {k op v : Nat} (hk : fld w 23 3 = k) (ho : fld w 21 2 = op) (hv : fld w 0 21 = v) : encVC maj k op v = w := by
  simp only [fld] at hm hk ho hv; simp only [encVC]; omega

theorem word_of_copy {d s l x : Nat} (hd : fld w 16 10 = d) (hs : fld w 6 10 = s) (hl : fld w 3 3 = l) (hx : fld w 0 3 = x) :
    encCopy maj d s l x = w := by
  simp only [fld] at hm hd hs hl hx; simp only [encCopy]; omega

end

/-! ### The fields that the decoders name -/

theorem fld_zero (w n : Nat) : fld w 0 n = (BitVec.ofNat n w).toNat := by simp [fld]
theorem fld_zero_finOf (w : Nat) : fld w 0 3 = (finOf 8 w).val := by simp [fld, finOf]
theorem fld_fVd (w : Nat) : fld w 18 8 = (fVd w).code := (code_treeOpOf (fld_lt w 18 8)).symm
theorem fld_fVa (w : Nat) : fld w 10 8 = (fVa w).code := (code_treeOpOf (fld_lt w 10 8)).symm
theorem fld_fVb (w : Nat) : fld w 2 8 = (fVb w).code := (code_treeOpOf (fld_lt w 2 8)).symm
theorem fld_fWa (w : Nat) : fld w 1 1 = bit (fWa w) := (bit_boolOf _).symm
theorem fld_fWb (w : Nat) : fld w 0 1 = bit (fWb w) := by rw [fWb, bit_boolOf]; simp [fld]
theorem fld_one (w lo : Nat) : fld w lo 1 = bit (boolOf (w / 2 ^ lo)) := (bit_boolOf _).symm
theorem fld_fRow (w : Nat) : fld w 6 12 = (fRow w).toNat := by rw [fRow, BitVec.toNat_ofNat, fld]
theorem fld_fMw (w : Nat) : fld w 2 1 = bit (fMw w) := fld_one w 2

/-- The handle field of a vector word (R44): six bits above two that are zero. -/
theorem fld_handle {lo : Nat} (h : fld w lo 2 = 0) : fld w lo 8 = (finOf 64 (w / 2 ^ (lo + 2))).val * 4 := by
  simp only [fld, finOf, Fin.ofNat, Nat.pow_add, ← Nat.div_div_eq_div_mul] at *
  omega

theorem fld_sizeBit (w : Nat) : fld w 6 1 = sizeBit (if fld w 6 1 = 0 then .w else .d) := by
  have := fld_lt w 6 1
  split
  · next h => exact h
  · next h => simp only [sizeBit]; omega

end Sys2Proof.Machine
end

section
/-!
PROOFS. What the sequencer's decoder reads has the word as its encoding (R35, R36, R39).
-/
namespace Sys2Proof.Machine

section
variable {w : Nat} (hw : w < 2 ^ 32)
include hw

theorem faithful_integer (hm : fld w 26 6 = 0x01) : Faithful .seq w (decodeInteger w) := by
  dsimp only [decodeInteger]
  split
  case h_22 hf | h_23 hf => exact .need_eq fun h11 => .ok ⟨rfl, rfl, congrArg some (word_of_S3 hw hm rfl rfl h11 hf)⟩
  case h_24 => exact .error
  all_goals exact .ok ⟨rfl, rfl, congrArg some (word_of_S3 hw hm rfl rfl rfl ‹_›)⟩

theorem faithful_shift (hm : fld w 26 6 = 0x06) : Faithful .seq w (decodeShift w) := by
  refine .need_eq fun h6 => ?_
  have hx : ∀ {o : Nat}, fld w 14 2 = o → fld w 0 16 = o * 2 ^ 14 + (BitVec.ofNat 6 w).toNat := by
    intro o ho
    rw [← fld_zero]
    simp only [fld] at *
    omega
  split
  case h_4 => exact .error
  all_goals exact .ok ⟨rfl, rfl, congrArg some (word_of_SI hw hm rfl rfl (hx ‹_›))⟩

theorem faithful_atom (hm : fld w 26 6 = 0x1D) : Faithful .seq w (decodeAtom w) := by
  refine .need_eq fun h4 => ?_
  split
  case h_1 => exact .error
  case h_2 c hc =>
    have hf : ∀ {o : Nat}, fld w 7 4 = o → fld w 0 11 = atomFunc o (if fld w 6 1 = 0 then .w else .d) c := by
      intro o ho
      rw [atomFunc, code_of_scopeOf hc, ← fld_sizeBit]
      simp only [fld] at *
      omega
    dsimp only
    split
    case h_8 => exact .error
    all_goals exact .ok ⟨rfl, rfl, congrArg some (word_of_S3 hw hm rfl rfl rfl (hf ‹_›))⟩

theorem faithful_order (hm : fld w 26 6 = 0x1E) : Faithful .seq w (decodeOrder w) := by
  refine .need_eq fun h11 => ?_
  obtain ⟨h21, h16, hb⟩ : fld w 21 5 = 0 ∧ fld w 16 5 = 0 ∧ fld w 11 5 = 0 := by simp only [fld] at *; omega
  split
  · next h10 =>
    refine .need_eq fun h7 => .need_ne fun h0 => .ok ⟨decide_eq_true (ofNat_ne_zero (by simpa [fld] using h0)), rfl,
      congrArg some (word_of_S3 hw hm h21 h16 hb ?_)⟩
    rw [← fld_zero]
    simp only [fld] at *
    omega
  · next h10 =>
    split
    · next p q c hp hq hc =>
      refine .ok ⟨rfl, rfl, congrArg some (word_of_S3 hw hm h21 h16 hb ?_)⟩
      rw [code_of_pathOf hp, code_of_pathOf hq, code_of_scopeOf hc]
      simp only [fld] at *
      omega
    · exact .error

theorem faithful_handle (hm : fld w 26 6 = 0x1F) : Faithful .seq w (decodeHandle w) := by
  refine .need_eq fun h2 => .need_ne fun h10 => ?_
  have hh : decide (fH w ≠ 0) = true := decide_eq_true (finOf_ne_zero h10)
  split
  case h_1 hf => exact .ok ⟨hh, rfl, congrArg some (word_of_SX hw hm rfl rfl rfl ((fld_low h2).trans hf))⟩
  case h_2 hf =>
    refine .need_eq fun h16 => .ok ⟨hh, rfl, congrArg some (word_of_SX hw hm ?_ ?_ rfl ((fld_low h2).trans hf))⟩
    all_goals simp only [fld] at *; omega
  case h_3 hf => exact .need_eq fun h16 => .ok ⟨hh, rfl, congrArg some (word_of_SX hw hm rfl h16 rfl ((fld_low h2).trans hf))⟩
  case h_4 => exact .error

theorem faithful_eng (hm : fld w 26 6 = 0x20) : Faithful .seq w (decodeEng w) := by
  unfold decodeEng
  split
  case h_1 => exact .error
  case h_2 e he =>
    have ha : ∀ {o : Nat}, fld w 18 3 = o → fld w 16 5 = o * 2 ^ 2 + e.code := by
      intro o ho
      rw [code_of_engOf he]
      simp only [fld] at *
      omega
    split
    case h_1 hf =>
      refine .need_eq fun h21 => .need_eq fun h14 => .ok ⟨rfl, rfl, congrArg some (word_of_SI hw hm h21 (ha hf) ?_)⟩
      rw [← fld_zero]
      simp only [fld] at *
      omega
    case h_3 hf => exact .need_eq fun h0 => .ok ⟨rfl, rfl, congrArg some (word_of_SI hw hm rfl (ha hf) h0)⟩
    case h_5 => exact .error
    all_goals exact .need_eq fun h21 => .need_eq fun h0 => .ok ⟨rfl, rfl, congrArg some (word_of_SI hw hm h21 (ha ‹_›) h0)⟩

theorem faithful_sync (hm : fld w 26 6 = 0x21) : Faithful .seq w (decodeSync w) := by
  refine .need_eq fun h4 => ?_
  split
  case h_1 hf | h_2 hf | h_3 hf | h_4 hf | h_5 hf | h_6 hf =>
    exact .ok ⟨rfl, rfl, congrArg some (word_of_SX hw hm rfl rfl rfl ((fld_low h4).trans hf))⟩
  all_goals exact .error

theorem faithful_mend (hm : fld w 26 6 = 0x25) : Faithful .seq w (decodeMend w) := by
  refine .need_eq fun h2 => ?_
  have h0 : fld w 10 16 = 0 → fld w 21 5 = 0 ∧ fld w 16 5 = 0 ∧ fld w 10 6 = 0 := by intro h; simp only [fld] at *; omega
  split
  case h_2 hf =>
    exact .need_ne fun h10 => .ok ⟨decide_eq_true (finOf_ne_zero h10), rfl,
      congrArg some (word_of_SX hw hm rfl rfl rfl ((fld_low h2).trans hf))⟩
  case h_4 => exact .error
  all_goals
    refine .need_eq fun h10 => ?_
    obtain ⟨hd, ha, hh⟩ := h0 h10
    exact .ok ⟨rfl, rfl, congrArg some (word_of_SX hw hm hd ha hh ((fld_low h2).trans ‹_›))⟩

theorem faithful_cinch (hm : fld w 26 6 = 0x26) : Faithful .seq w (decodeCinch w) := by
  refine .need_eq fun h11 => .need_eq fun h4 => ?_
  obtain ⟨hd, ha, hb⟩ : fld w 21 5 = 0 ∧ fld w 16 5 = 0 ∧ fld w 11 5 = 0 := by simp only [fld] at *; omega
  split
  case h_1 h8 =>
    split
    case h_1 c hc =>
      refine .ok ⟨rfl, rfl, congrArg some (word_of_S3 hw hm hd ha hb ?_)⟩
      rw [code_of_scopeOf hc]
      simp only [fld] at *
      omega
    case h_2 => exact .error
  case h_4 => exact .error
  all_goals
    refine .need_eq fun h0 => .ok ⟨rfl, rfl, congrArg some (word_of_S3 hw hm hd ha hb ?_)⟩
    simp only [fld] at *
    omega

theorem faithful_clock (hm : fld w 26 6 = 0x27) : Faithful .seq w (decodeClock w) := by
  refine .need_eq fun h1 => ?_
  split
  · next h0 =>
    refine .need_eq fun h16 => .ok ⟨rfl, rfl, congrArg some (word_of_S3 hw hm rfl h16 rfl ?_)⟩
    simp only [fld] at *
    omega
  · next h0 =>
    refine .need_eq fun h21 => .need_eq fun h11 => .ok ⟨rfl, rfl, congrArg some (word_of_S3 hw hm h21 rfl h11 ?_)⟩
    simp only [fld] at *
    omega

theorem faithful_stamp {maj : Nat} {mk : Reg → Reg → Reg → Scope → Instr} (hm : fld w 26 6 = maj)
    (h : ∀ d a b c, IsWordOf .seq (encS3 maj d.val a.val b.val c.code) (mk d a b c)) : Faithful .seq w (decodeStamp w mk) := by
  refine .need_eq fun h4 => ?_
  split
  · next c hc =>
    exact .ok ((h _ _ _ c).of_eq (word_of_S3 hw hm rfl rfl rfl ((fld_low h4).trans (code_of_scopeOf hc).symm)))
  · exact .error

theorem faithful_billet (hm : fld w 26 6 = 0x2A) : Faithful .seq w (decodeBillet w) := by
  refine .need_eq fun h2 => ?_
  split
  case h_4 => exact .error
  all_goals exact .ok ⟨rfl, rfl, congrArg some (word_of_SX hw hm rfl rfl rfl ((fld_low h2).trans ‹_›))⟩

theorem faithful_csr (hm : fld w 26 6 = 0x2C) : Faithful .seq w (decodeCsr w) := by
  refine .need_eq fun h12 => ?_
  split
  case h_1 => exact .error
  case h_2 c hc =>
    have hx : ∀ {o : Nat}, fld w 14 2 = o → fld w 0 16 = o * 2 ^ 14 + c.code := by
      intro o ho
      rw [code_of_csrOf hc]
      simp only [fld] at *
      omega
    split
    case h_1 hf => exact .need_eq fun h16 => .ok ⟨rfl, rfl, congrArg some (word_of_SI hw hm rfl h16 (hx hf))⟩
    case h_2 hf => exact .need_eq fun h21 => .need fun hc => .ok ⟨hc, rfl, congrArg some (word_of_SI hw hm h21 rfl (hx hf))⟩
    case h_3 hf => exact .need fun hc => .ok ⟨hc, rfl, congrArg some (word_of_SI hw hm rfl rfl (hx hf))⟩
    case h_4 => exact .error

theorem faithful_trap (hm : fld w 26 6 = 0x2D) : Faithful .seq w (decodeTrap w) := by
  refine .need_eq fun h21 => ?_
  split
  case h_1 hf =>
    exact .need_decide fun h0 => .ok ⟨decide_eq_true (by rwa [fImm, ← fld_zero]), rfl,
      congrArg some (word_of_SI hw hm h21 hf (fld_zero w 16))⟩
  case h_2 hf => exact .need_eq fun h0 => .ok ⟨rfl, rfl, congrArg some (word_of_SI hw hm h21 hf h0)⟩
  case h_3 => exact .error

theorem faithful_seq : Faithful .seq w (decodeSeq 3 w) := by
  unfold decodeSeq
  split
  case h_1 hm => exact faithful_integer hw hm
  case h_6 hm => exact faithful_shift hw hm
  case h_8 hm => exact .need_eq fun h16 => .ok ⟨rfl, rfl, congrArg some (word_of_SI hw hm rfl h16 (fld_zero w 16))⟩
  case h_9 hm =>
    refine .need_eq fun h18 => .ok ⟨rfl, rfl, congrArg some (word_of_SI hw hm rfl ?_ (fld_zero w 16))⟩
    simp only [fld, finOf, Fin.ofNat] at *
    omega
  case h_16 hm =>
    refine .ok ⟨rfl, rfl, congrArg some ?_⟩
    simp only [fld, fRd, finOf, Fin.ofNat, BitVec.toNat_ofNat] at *
    omega
  case h_29 hm => exact faithful_atom hw hm
  case h_30 hm => exact faithful_order hw hm
  case h_31 hm => exact faithful_handle hw hm
  case h_32 hm => exact faithful_eng hw hm
  case h_33 hm => exact faithful_sync hw hm
  case h_35 hm =>
    exact .need_eq fun h21 => .need_eq fun h0 => .ok ⟨rfl, rfl, congrArg some (word_of_S3 hw hm h21 rfl rfl h0)⟩
  case h_36 hm =>
    refine .need_eq fun h24 => .need_eq fun h0 => .ok ⟨rfl, rfl, congrArg some (word_of_SI hw hm ?_ rfl h0)⟩
    simp only [fld, finOf, Fin.ofNat] at *
    omega
  case h_37 hm => exact faithful_mend hw hm
  case h_38 hm => exact .need_decide fun _ => faithful_cinch hw hm
  case h_39 hm => exact faithful_clock hw hm
  case h_40 hm | h_41 hm => exact .need_decide fun _ => faithful_stamp hw hm fun _ _ _ _ => ⟨rfl, rfl, rfl⟩
  case h_42 hm => exact .need_decide fun _ => faithful_billet hw hm
  case h_34 hm | h_43 hm => exact .need_eq fun h0 => .ok ⟨rfl, rfl, congrArg some (word_of_rest hw hm h0)⟩
  case h_44 hm => exact faithful_csr hw hm
  case h_45 hm => exact faithful_trap hw hm
  case h_46 hm =>
    exact .need_eq fun h21 => .need_eq fun h18 => .ok ⟨rfl, rfl, congrArg some (word_of_SI hw hm h21
      (by rw [code_streamOf (fld_lt w 16 2)]; simp only [fld] at *; omega) (fld_zero w 16))⟩
  case h_47 hm =>
    split
    case h_3 => exact .error
    all_goals exact .ok ⟨rfl, rfl, congrArg some (word_of_rest hw hm ‹_›)⟩
  case h_48 => exact .error
  all_goals exact .ok ⟨rfl, rfl, congrArg some (word_of_SI hw ‹_› rfl rfl (fld_zero w 16))⟩

end

end Sys2Proof.Machine
end

section
/-!
PROOFS. What the decoders of the engines read has the word as its encoding (R35, R36, R45, R47, R48, R50).
-/
namespace Sys2Proof.Machine

section
variable {w : Nat} (hw : w < 2 ^ 32)
include hw

/-! ### Loop and mend words of the engines (R47) -/

section
variable {st : StreamId} {maj : Nat} (hm : fld w 26 6 = maj)
include hm

theorem word_of_VK {k x : Nat} (hk : fld w 23 3 = k) (hx : fld w 0 23 = x) : encVC maj k 0 x = w := by
  simp only [fld] at hm hk hx; simp only [encVC]; omega

theorem faithful_loop {mk : KIx → BitVec 23 → Instr} (h : ∀ k n, n ≠ 0 → IsWordOf st (encVC maj k.val 0 n.toNat) (mk k n)) :
    Faithful st w (decodeLoop w mk) :=
  .need_ne fun h0 => .ok ((h _ _ (ofNat_ne_zero (by simpa [fld] using h0))).of_eq (word_of_VK hw hm rfl (fld_zero w 23)))

theorem faithful_br {mk : KIx → BitVec 23 → Instr} (h : ∀ k n, IsWordOf st (encVC maj k.val 0 n.toNat) (mk k n)) :
    Faithful st w (decodeBr w mk) :=
  .ok ((h _ _).of_eq (word_of_VK hw hm rfl (fld_zero w 23)))

theorem faithful_kop {set add : KIx → BitVec 21 → Instr} {mov : KIx → KIx → Instr}
    (hset : ∀ k v, IsWordOf st (encVC maj k.val 0 v.toNat) (set k v)) (hadd : ∀ k v, IsWordOf st (encVC maj k.val 1 v.toNat) (add k v))
    (hmov : ∀ k i, IsWordOf st (encVC maj k.val 2 i.val) (mov k i)) : Faithful st w (decodeKop w set add mov) := by
  unfold decodeKop
  split
  case h_1 ho => exact .ok ((hset _ _).of_eq (word_of_VC hw hm rfl ho (fld_zero w 21)))
  case h_2 ho => exact .ok ((hadd _ _).of_eq (word_of_VC hw hm rfl ho (fld_zero w 21)))
  case h_3 ho =>
    refine .need_eq fun h3 => .ok ((hmov _ _).of_eq (word_of_VC hw hm rfl ho ?_))
    rw [← fld_zero_finOf]
    simp only [fld] at *
    omega
  case h_4 => exact .error

theorem faithful_engMend {opn close : Instr} {save : KIx → BitVec 12 → Instr} (hopn : IsWordOf st (encVC maj 0 0 0) opn)
    (hsave : ∀ k n, saveOk n = true → IsWordOf st (encVC maj k.val 1 n.toNat) (save k n)) (hclose : IsWordOf st (encVC maj 0 2 0) close) :
    Faithful st w (decodeEngMend w opn save close) := by
  unfold decodeEngMend
  split
  case h_1 ho => exact .need_eq fun h0 => .need_eq fun h23 => .ok (hopn.of_eq (word_of_VC hw hm h23 ho h0))
  case h_2 ho =>
    refine .need_eq fun h12 => .need fun hn => .ok ((hsave _ _ hn).of_eq (word_of_VC hw hm rfl ho ?_))
    rw [← fld_zero]
    simp only [fld] at *
    omega
  case h_3 ho => exact .need_eq fun h0 => .need_eq fun h23 => .ok (hclose.of_eq (word_of_VC hw hm h23 ho h0))
  case h_4 => exact .error

/-! ### The vector engine (R45) -/

theorem faithful_vab {mk : TreeOp → TreeOp → TreeOp → Bool → Bool → Instr}
    (h : ∀ d a b wa wb, IsWordOf .vec (encVA maj d.code a.code b.code (bit wa) (bit wb)) (mk d a b wa wb)) :
    Faithful .vec w (decodeVab w mk) :=
  .ok ((h _ _ _ _ _).of_eq (word_of_VA hw hm (fld_fVd w) (fld_fVa w) (fld_fVb w) (fld_fWa w) (fld_fWb w)))

theorem faithful_va {mk : TreeOp → TreeOp → Bool → Instr} (h : ∀ d a wa, IsWordOf .vec (encVA maj d.code a.code 0 (bit wa) 0) (mk d a wa)) :
    Faithful .vec w (decodeVa w mk) :=
  .need_eq fun h2 => .need_eq fun h0 => .ok ((h _ _ _).of_eq (word_of_VA hw hm (fld_fVd w) (fld_fVa w) h2 (fld_fWa w) h0))

theorem faithful_cmp {mk : Fin 8 → TreeOp → TreeOp → Bool → Bool → Instr}
    (h : ∀ n a b wa wb, IsWordOf .vec (encVA maj n.val a.code b.code (bit wa) (bit wb)) (mk n a b wa wb)) :
    Faithful .vec w (decodeCmp w mk) := by
  refine .need_eq fun h21 => .ok ((h _ _ _ _ _).of_eq (word_of_VA hw hm ?_ (fld_fVa w) (fld_fVb w) (fld_fWa w) (fld_fWb w)))
  simp only [fld, finOf, Fin.ofNat] at *
  omega

theorem faithful_vi {mk : TreeOp → TreeOp → Bool → BitVec 9 → Instr}
    (h : ∀ d a wa x, IsWordOf .vec (encVI maj d.code a.code (bit wa) x.toNat) (mk d a wa x)) : Faithful .vec w (decodeVi w mk) :=
  .ok ((h _ _ _ _).of_eq (word_of_VI hw hm (fld_fVd w) (fld_fVa w) (fld_one w 9) (fld_zero w 9)))

theorem faithful_rc {mk : TreeOp → Instr} (h : ∀ c, IsWordOf .vec (encVA maj c.code 0 0 0 0) (mk c)) : Faithful .vec w (decodeRc w mk) := by
  refine .need_eq fun h0 => .ok ((h _).of_eq (word_of_VA hw hm (fld_fVd w) ?_ ?_ ?_ ?_))
  all_goals simp only [fld] at *; omega

end

theorem faithful_cor (hm : fld w 26 6 = 0x25) : Faithful .vec w (decodeCor w) := by
  dsimp only [decodeCor]
  refine .need fun hn => ?_
  rw [fld_zero] at hn
  have hx : ∀ {o : Nat}, fld w 5 4 = o → fld w 0 9 = o * 2 ^ 5 + (BitVec.ofNat 5 w).toNat := by
    intro o ho
    rw [← fld_zero]
    simp only [fld] at *
    omega
  split
  case h_7 => exact .error
  all_goals exact .ok ⟨hn, rfl, congrArg some (word_of_VI hw hm (fld_fVd w) (fld_fVa w) (fld_one w 9) (hx ‹_›))⟩

theorem faithful_vShape (hm : fld w 26 6 = 0x2D) : Faithful .vec w (decodeShape 3 w) := by
  refine .need_eq fun h9 => ?_
  split
  case h_1 => exact .error
  case h_2 t ht =>
    have hc := code_of_etypeOf ht
    refine .need fun hl => ?_
    split
    · next h22 =>
      refine .need_eq fun h23 => .ok ⟨hl, rfl, congrArg some ?_⟩
      rw [hc, ← fld_zero]
      simp only [fld] at *
      omega
    · next h22 =>
      refine .ok ⟨hl, rfl, congrArg some ?_⟩
      rw [hc, ← fld_zero]
      simp only [fld, finOf, Fin.ofNat] at *
      omega

theorem faithful_mask (hm : fld w 26 6 = 0x2E) : Faithful .vec w (decodeMask w) := by
  refine .need_eq fun h21 => .need_eq fun h13 => .need_eq fun h5 => .need_eq fun h0 => ?_
  have hd : ∀ {o : Nat}, fld w 23 3 = o → fld w 18 8 = o * 2 ^ 5 + (finOf 8 (w / 2 ^ 18)).val := by
    intro o ho
    simp only [fld, finOf, Fin.ofNat] at *
    omega
  have ha : fld w 10 8 = fld w 10 3 := by simp only [fld] at *; omega
  have hb : fld w 2 8 = fld w 2 3 := by simp only [fld] at *; omega
  obtain ⟨hp, hq⟩ : fld w 1 1 = 0 ∧ fld w 0 1 = 0 := by simp only [fld] at *; omega
  dsimp only
  split
  case h_5 ho => exact .need_eq fun h2 => .ok ⟨rfl, rfl, congrArg some (word_of_VA hw hm (hd ho) ha (hb.trans h2) hp hq)⟩
  case h_6 ho | h_7 ho =>
    exact .need_eq fun h10 => .need_eq fun h2 =>
      .ok ⟨rfl, rfl, congrArg some (word_of_VA hw hm (hd ho) (ha.trans h10) (hb.trans h2) hp hq)⟩
  case h_8 => exact .error
  all_goals exact .ok ⟨rfl, rfl, congrArg some (word_of_VA hw hm (hd ‹_›) ha hb hp hq)⟩

theorem faithful_rcInit (hm : fld w 26 6 = 0x34) : Faithful .vec w (decodeRcInit w) := by
  refine .need_eq fun h10 => .need_eq fun h3 => .need_eq fun h0 => ?_
  obtain ⟨hp, hq⟩ : fld w 1 1 = 0 ∧ fld w 0 1 = 0 := by simp only [fld] at *; omega
  dsimp only
  split
  all_goals
    refine .ok ⟨rfl, rfl, congrArg some (word_of_VA hw hm (fld_fVd w) (fld_handle h10) ?_ hp hq)⟩
    simp only [fld] at *
    omega

theorem faithful_vec : Faithful .vec w (decodeVec 3 w) := by
  unfold decodeVec
  split
  case h_7 hm | h_8 hm | h_25 hm | h_26 hm | h_27 hm | h_28 hm | h_33 hm | h_34 hm | h_38 hm | h_39 hm | h_43 hm | h_44 hm =>
    exact faithful_va hw hm fun _ _ _ => ⟨rfl, rfl, rfl⟩
  case h_15 hm | h_16 hm | h_17 hm => exact faithful_cmp hw hm fun _ _ _ _ _ => ⟨rfl, rfl, rfl⟩
  case h_19 hm =>
    refine .need_eq fun h2 => .need_eq fun h0 => ?_
    split
    case h_1 t ht =>
      refine .ok ⟨rfl, rfl, congrArg some (word_of_VA hw hm (fld_fVd w) (fld_fVa w) ?_ (fld_fWa w) h0)⟩
      rw [code_of_etypeOf ht]
      simp only [fld] at *
      omega
    case h_2 => exact .error
  case h_20 hm | h_21 hm | h_23 hm | h_42 hm => exact faithful_vi hw hm fun _ _ _ _ => ⟨rfl, rfl, rfl⟩
  case h_22 hm =>
    refine .need_eq fun h9 => .ok ⟨rfl, rfl, congrArg some (word_of_VI hw hm (fld_fVd w) ?_ ?_ (fld_zero w 9))⟩
    all_goals simp only [fld] at *; omega
  case h_29 hm =>
    refine .need_eq fun h10 => .need_eq fun h5 => .need_eq fun h0 => .need_ne fun h12 =>
      .ok ⟨decide_eq_true (finOf_ne_zero h12), rfl, congrArg some (word_of_VA hw hm (fld_fVd w) (fld_handle h10) ?_ ?_ ?_)⟩
    all_goals simp only [fld, finOf, Fin.ofNat] at *; omega
  case h_30 hm =>
    refine .need_eq fun h10 => .need_eq fun h5 => .need_eq fun h0 => .need_ne fun h12 =>
      .ok ⟨decide_eq_true (finOf_ne_zero h12), rfl, congrArg some (word_of_VA hw hm (fld_fVd w) (fld_handle h10) ?_ (fld_fWa w) h0)⟩
    simp only [fld, finOf, Fin.ofNat] at *
    omega
  case h_31 hm =>
    exact .need_eq fun h2 => .need_eq fun h0 =>
      .ok ⟨rfl, rfl, congrArg some (word_of_VA hw hm (fld_fVd w) (fld_fVa w) (fld_handle h2) (fld_fWa w) h0)⟩
  case h_32 hm =>
    exact .need_eq fun h2 => .ok ⟨rfl, rfl, congrArg some (word_of_VA hw hm (fld_fVd w) (fld_fVa w) (fld_handle h2) (fld_fWa w) (fld_fWb w))⟩
  case h_37 hm => exact faithful_cor hw hm
  case h_45 hm => exact faithful_vShape hw hm
  case h_46 hm => exact faithful_mask hw hm
  case h_47 hm => exact faithful_loop hw hm fun _ _ hn => ⟨decide_eq_true hn, rfl, rfl⟩
  case h_48 hm => exact faithful_br hw hm fun _ _ => ⟨rfl, rfl, rfl⟩
  case h_49 hm => exact faithful_kop hw hm (fun _ _ => ⟨rfl, rfl, rfl⟩) (fun _ _ => ⟨rfl, rfl, rfl⟩) fun _ _ => ⟨rfl, rfl, rfl⟩
  case h_50 hm => exact faithful_engMend hw hm ⟨rfl, rfl, rfl⟩ (fun _ _ hn => ⟨hn, rfl, rfl⟩) ⟨rfl, rfl, rfl⟩
  case h_51 hm | h_62 hm => exact .need_eq fun h0 => .ok ⟨rfl, rfl, congrArg some (word_of_rest hw hm h0)⟩
  case h_52 hm => exact .need_decide fun _ => faithful_rcInit hw hm
  case h_53 hm | h_54 hm =>
    exact .need_decide fun _ => .need_eq fun h0 =>
      .ok ⟨rfl, rfl, congrArg some (word_of_VA hw hm (fld_fVd w) (fld_fVa w) (fld_fVb w) (fld_fWa w) h0)⟩
  case h_55 hm | h_56 hm => exact .need_decide fun _ => faithful_vab hw hm fun _ _ _ _ _ => ⟨rfl, rfl, rfl⟩
  case h_57 hm | h_58 hm | h_59 hm | h_60 hm => exact .need_decide fun _ => faithful_rc hw hm fun _ => ⟨rfl, rfl, rfl⟩
  case h_61 hm =>
    refine .need_decide fun _ => .need_eq fun h10 => .need_eq fun h0 =>
      .ok ⟨rfl, rfl, congrArg some (word_of_VA hw hm (fld_fVd w) h10 (fld_fVb w) ?_ ?_)⟩
    all_goals simp only [fld] at *; omega
  case h_63 => exact .error
  all_goals exact faithful_vab hw ‹_› fun _ _ _ _ _ => ⟨rfl, rfl, rfl⟩

/-! ### The matrix engine (R48) -/

theorem faithful_mt {maj : Nat} {mk : TreeOp → Bool → Instr} (hm : fld w 26 6 = maj)
    (h : ∀ t b, IsWordOf .mat (maj * 2 ^ 26 + t.code * 2 ^ 18 + bit b * 2 ^ 2) (mk t b)) : Faithful .mat w (decodeMt w mk) := by
  refine .need_eq fun h3 => .need_eq fun h0 => .ok ((h _ _).of_eq ?_)
  rw [← fld_fVd, fMw, ← fld_one]
  simp only [fld] at *
  omega

section
variable {maj : Nat} (hm : fld w 26 6 = maj)
include hm

theorem word_of_acc {t r p b x : Nat} (ht : fld w 18 8 = t) (hr : fld w 6 12 = r) (hp : fld w 3 3 = p) (hb : fld w 2 1 = b)
    (hx : fld w 0 2 = x) : maj * 2 ^ 26 + t * 2 ^ 18 + r * 2 ^ 6 + p * 2 ^ 3 + b * 2 ^ 2 + x = w := by
  simp only [fld] at *; omega

theorem word_of_ret {t x : Nat} (h0 : fld w 0 15 = 0) (ht : fld w 18 8 = t) (hx : fld w 15 3 = x) :
    maj * 2 ^ 26 + t * 2 ^ 18 + x * 2 ^ 15 = w := by
  simp only [fld] at *; omega

end

theorem faithful_mat : Faithful .mat w (decodeMat 3 w) := by
  unfold decodeMat
  split
  case h_1 hm =>
    refine .need_eq fun h0 => .need fun hn => ?_
    have hx : fld w 13 11 = (BitVec.ofNat 11 (w / 2 ^ 13)).toNat := by rw [BitVec.toNat_ofNat, fld]
    rw [hx] at hn
    split
    case h_1 m hc =>
      refine .ok ⟨hn, rfl, congrArg some ?_⟩
      rw [code_of_modeOf hc, ← hx]
      simp only [fld] at *
      omega
    case h_2 => exact .error
  case h_3 hm | h_7 hm => exact faithful_mt hw hm fun _ _ => ⟨rfl, rfl, rfl⟩
  case h_4 hm =>
    exact .need_eq fun h3 => .need_eq fun h0 =>
      .ok ⟨rfl, rfl, congrArg some (word_of_acc hw hm (fld_fVd w) (fld_fRow w) h3 (fld_fMw w) h0)⟩
  case h_5 hm =>
    exact .need_eq fun h0 => .ok ⟨rfl, rfl, congrArg some (word_of_acc hw hm (fld_fVd w) (fld_fRow w) rfl (fld_fMw w) h0)⟩
  case h_6 hm =>
    split
    case h_1 h0 =>
      exact .need_eq fun h3 => .ok ⟨rfl, rfl, congrArg some (word_of_acc hw hm (fld_fVd w) (fld_fRow w) h3 (fld_fMw w) h0)⟩
    case h_2 h0 => exact .ok ⟨rfl, rfl, congrArg some (word_of_acc hw hm (fld_fVd w) (fld_fRow w) rfl (fld_fMw w) h0)⟩
    case h_3 => exact .error
  case h_8 hm =>
    refine .need_eq fun h3 => .need_eq fun h0 => .ok ⟨rfl, rfl, congrArg some ?_⟩
    rw [← fld_fVd, ← fld_fVa, ← fld_fMw]
    simp only [fld] at *
    omega
  case h_9 hm =>
    refine .need_eq fun h0 => ?_
    split
    case h_3 hx => exact .need_decide fun _ => .ok ⟨rfl, rfl, congrArg some (word_of_ret hw hm h0 (fld_fVd w) hx)⟩
    case h_4 => exact .error
    all_goals exact .ok ⟨rfl, rfl, congrArg some (word_of_ret hw hm h0 (fld_fVd w) ‹_›)⟩
  case h_10 hm =>
    refine .need_eq fun h0 => .ok ⟨rfl, rfl, congrArg some (word_of_ret hw hm ?_ (fld_fVd w) ?_)⟩
    all_goals simp only [fld] at *; omega
  case h_11 hm =>
    refine .need_eq fun h18 => .need_eq fun h0 => .ok ⟨rfl, rfl, congrArg some ?_⟩
    rw [← fld_fRow]
    simp only [fld] at *
    omega
  case h_12 hm => exact faithful_loop hw hm fun _ _ hn => ⟨decide_eq_true hn, rfl, rfl⟩
  case h_13 hm => exact faithful_br hw hm fun _ _ => ⟨rfl, rfl, rfl⟩
  case h_14 hm => exact faithful_kop hw hm (fun _ _ => ⟨rfl, rfl, rfl⟩) (fun _ _ => ⟨rfl, rfl, rfl⟩) fun _ _ => ⟨rfl, rfl, rfl⟩
  case h_15 hm =>
    refine .need_eq fun h0 => .ok ⟨rfl, rfl, congrArg some ?_⟩
    simp only [fld, finOf, Fin.ofNat, BitVec.toNat_ofNat] at *
    omega
  case h_2 hm | h_16 hm => exact .need_eq fun h0 => .ok ⟨rfl, rfl, congrArg some (word_of_rest hw hm h0)⟩
  case h_17 => exact .error

/-! ### The transfer engine (R50) -/

theorem faithful_copyI {maj : Nat} {mk : EndPt → EndPt → KIx → KIx → Instr} (hm : fld w 26 6 = maj)
    (h : ∀ d s l i, d.wf = true → s.wf = true → fld w 0 3 = i.val →
      IsWordOf .xfer (encCopy maj d.code s.code l.val i.val) (mk d s l i)) : Faithful .xfer w (decodeCopyI w mk) := by
  unfold decodeCopyI
  split
  case h_1 d s hd hs =>
    obtain ⟨hdw, hdc⟩ := code_of_endPtOf (fld_lt w 16 10) hd
    obtain ⟨hsw, hsc⟩ := code_of_endPtOf (fld_lt w 6 10) hs
    have hi := fld_zero_finOf w
    exact .ok ((h d s _ _ hdw hsw hi).of_eq (word_of_copy hw hm hdc.symm hsc.symm rfl hi))
  all_goals exact .error

/-- The copy form is the form with an index register whose field is not used. -/
theorem faithful_copy {maj x : Nat} {mk : EndPt → EndPt → KIx → Instr} (hm : fld w 26 6 = maj) (hx : fld w 0 3 = x)
    (h : ∀ d s l, d.wf = true → s.wf = true → IsWordOf .xfer (encCopy maj d.code s.code l.val x) (mk d s l)) :
    Faithful .xfer w (decodeCopy w mk) :=
  faithful_copyI (mk := fun d s l _ => mk d s l) hw hm fun d s l _ hd hs hi => (h d s l hd hs).of_eq (by rw [← hx, hi])

section
variable {maj c : Nat} (hm : fld w 26 6 = maj) (hc : fld w 22 4 = c)
include hm hc

theorem word_of_fieldImm (h : fld w 21 1 = 0) : maj * 2 ^ 26 + c * 2 ^ 22 + (BitVec.ofNat 21 w).toNat = w := by
  rw [← fld_zero]
  simp only [fld] at *
  omega

theorem word_of_fieldReg (h : ¬ fld w 21 1 = 0) (h0 : fld w 0 18 = 0) :
    maj * 2 ^ 26 + c * 2 ^ 22 + 2 ^ 21 + (finOf 8 (w / 2 ^ 18)).val * 2 ^ 18 = w := by
  simp only [fld, finOf, Fin.ofNat] at *
  omega

end

theorem faithful_coll (hm : fld w 26 6 = 0x0F) : Faithful .xfer w (decodeColl w) := by
  refine .need_eq fun h0 => ?_
  split
  case h_1 c e hc he =>
    obtain ⟨hew, hec⟩ := code_of_endPtOf (fld_lt w 8 10) he
    have hx : ∀ {o : Nat}, fld w 22 4 = o → 0xF * 2 ^ 26 + o * 2 ^ 22 + c.code * 2 ^ 18 + e.code * 2 ^ 8 +
        (finOf 8 (w / 2 ^ 5)).val * 2 ^ 5 + (finOf 8 (w / 2 ^ 2)).val * 2 ^ 2 = w := by
      intro o ho
      rw [code_of_scopeOf hc, hec]
      simp only [fld, finOf, Fin.ofNat] at *
      omega
    dsimp only
    split
    case h_5 => exact .error
    all_goals exact .ok ⟨hew, rfl, congrArg some (hx ‹_›)⟩
  all_goals exact .error

theorem faithful_xfer : Faithful .xfer w (decodeXfer w) := by
  unfold decodeXfer
  split
  case h_1 hm | h_3 hm | h_6 hm | h_7 hm =>
    exact .need_eq fun h0 => faithful_copy hw hm h0 fun _ _ _ hd hs => ⟨Bool.and_eq_true_iff.2 ⟨hd, hs⟩, rfl, rfl⟩
  case h_2 hm =>
    split
    case h_1 => exact .error
    case h_2 f hf =>
      have hc := (code_of_shapeFieldOf hf).symm
      split
      · next h21 => exact .ok ⟨rfl, rfl, congrArg some (word_of_fieldImm hw hm hc h21)⟩
      · next h21 => exact .need_eq fun h0 => .ok ⟨rfl, rfl, congrArg some (word_of_fieldReg hw hm hc h21 h0)⟩
  case h_4 hm =>
    split
    case h_1 => exact .error
    case h_2 f hf =>
      have hc := (code_of_winFieldOf hf).symm
      split
      · next h21 => exact .ok ⟨rfl, rfl, congrArg some (word_of_fieldImm hw hm hc h21)⟩
      · next h21 => exact .need_eq fun h0 => .ok ⟨rfl, rfl, congrArg some (word_of_fieldReg hw hm hc h21 h0)⟩
  case h_5 hm =>
    split
    case h_5 => exact .error
    all_goals exact faithful_copy hw hm ‹_› fun _ _ _ hd hs => ⟨Bool.and_eq_true_iff.2 ⟨hd, hs⟩, rfl, rfl⟩
  case h_8 hm | h_9 hm => exact faithful_copyI hw hm fun _ _ _ _ hd hs _ => ⟨Bool.and_eq_true_iff.2 ⟨hd, hs⟩, rfl, rfl⟩
  case h_10 hm =>
    refine .need_eq fun h6 => ?_
    split
    case h_1 d hd =>
      obtain ⟨hdw, hdc⟩ := code_of_endPtOf (fld_lt w 16 10) hd
      exact .ok ⟨hdw, rfl, congrArg some (word_of_copy hw hm hdc.symm h6 rfl (fld_zero_finOf w))⟩
    case h_2 => exact .error
  case h_11 hm =>
    refine .need_eq fun h0 => ?_
    split
    case h_1 s hs =>
      obtain ⟨hsw, hsc⟩ := code_of_endPtOf (fld_lt w 4 10) hs
      refine .ok ⟨hsw, rfl, congrArg some ?_⟩
      rw [hsc]
      simp only [fld, finOf, Fin.ofNat, BitVec.toNat_ofNat] at *
      omega
    case h_2 => exact .error
  case h_12 hm =>
    refine .need_eq fun h0 => ?_
    split
    · next h20 =>
      refine .need_eq fun h17 => .ok ⟨rfl, rfl, congrArg some ?_⟩
      simp only [fld] at *
      omega
    · next h20 =>
      refine .ok ⟨decide_eq_true (finOf_ne_zero h20), rfl, congrArg some ?_⟩
      simp only [fld, finOf, Fin.ofNat] at *
      omega
  case h_14 hm =>
    refine .need_eq fun h16 => .ok ⟨rfl, rfl, congrArg some (word_of_rest hw hm ?_)⟩
    rw [← fld_zero]
    simp only [fld] at *
    omega
  case h_15 hm => exact faithful_coll hw hm
  case h_16 hm => exact faithful_loop hw hm fun _ _ hn => ⟨decide_eq_true hn, rfl, rfl⟩
  case h_17 hm => exact faithful_br hw hm fun _ _ => ⟨rfl, rfl, rfl⟩
  case h_18 hm => exact faithful_kop hw hm (fun _ _ => ⟨rfl, rfl, rfl⟩) (fun _ _ => ⟨rfl, rfl, rfl⟩) fun _ _ => ⟨rfl, rfl, rfl⟩
  case h_19 hm => exact faithful_engMend hw hm ⟨rfl, rfl, rfl⟩ (fun _ _ hn => ⟨hn, rfl, rfl⟩) ⟨rfl, rfl, rfl⟩
  case h_13 hm | h_20 hm | h_21 hm => exact .need_eq fun h0 => .ok ⟨rfl, rfl, congrArg some (word_of_rest hw hm h0)⟩
  case h_22 => exact .error

end

end Sys2Proof.Machine
end

section
/-!
PROOFS. Instructions and words correspond (R35, R36, R38, R39, R44, R45, R47, R48, R50): O50, O51, O52.
-/
namespace Sys2Proof.Machine
open Sys2Proof.Laws

theorem faithful_decode (st : StreamId) (w : IWord) : Faithful st w.toNat (decode st 3 w) := by
  cases st with
  | seq => exact faithful_seq w.isLt
  | vec => exact faithful_vec w.isLt
  | mat => exact faithful_mat w.isLt
  | xfer => exact faithful_xfer w.isLt

/-- Settles O52: each decoder is faithful, so that what it reads has the number of the word. -/
theorem everyWordHasOneMeaning : Obligations.EveryWordHasOneMeaning := by
  unfold Obligations.EveryWordHasOneMeaning
  intro i st w h
  obtain ⟨hwf, hstream, hword⟩ := faithful_decode st w i h
  exact ⟨hwf, hstream, by rw [encode, hword, Option.map_some, BitVec.ofNat_toNat, BitVec.setWidth_eq]⟩

/-- Each constructor by its own lemma; an event has no stream. -/
theorem decode_encode (i : Instr) : RoundTrip.Statement i := by
  cases i with
  | add rd ra rb => exact RoundTrip.add rd ra rb
  | sub rd ra rb => exact RoundTrip.sub rd ra rb
  | and rd ra rb => exact RoundTrip.and rd ra rb
  | or rd ra rb => exact RoundTrip.or rd ra rb
  | xor rd ra rb => exact RoundTrip.xor rd ra rb
  | shl rd ra rb => exact RoundTrip.shl rd ra rb
  | shr rd ra rb => exact RoundTrip.shr rd ra rb
  | sar rd ra rb => exact RoundTrip.sar rd ra rb
  | slt rd ra rb => exact RoundTrip.slt rd ra rb
  | sltn rd ra rb => exact RoundTrip.sltn rd ra rb
  | min rd ra rb => exact RoundTrip.min rd ra rb
  | max rd ra rb => exact RoundTrip.max rd ra rb
  | minn rd ra rb => exact RoundTrip.minn rd ra rb
  | maxn rd ra rb => exact RoundTrip.maxn rd ra rb
  | mul rd ra rb => exact RoundTrip.mul rd ra rb
  | mulh rd ra rb => exact RoundTrip.mulh rd ra rb
  | mulhn rd ra rb => exact RoundTrip.mulhn rd ra rb
  | div rd ra rb => exact RoundTrip.div rd ra rb
  | divn rd ra rb => exact RoundTrip.divn rd ra rb
  | rem rd ra rb => exact RoundTrip.rem rd ra rb
  | remn rd ra rb => exact RoundTrip.remn rd ra rb
  | clz rd ra => exact RoundTrip.clz rd ra
  | popc rd ra => exact RoundTrip.popc rd ra
  | addi rd ra imm => exact RoundTrip.addi rd ra imm
  | andi rd ra imm => exact RoundTrip.andi rd ra imm
  | ori rd ra imm => exact RoundTrip.ori rd ra imm
  | xori rd ra imm => exact RoundTrip.xori rd ra imm
  | shli rd ra len => exact RoundTrip.shli rd ra len
  | shri rd ra len => exact RoundTrip.shri rd ra len
  | sari rd ra len => exact RoundTrip.sari rd ra len
  | slti rd ra imm => exact RoundTrip.slti rd ra imm
  | movi rd imm => exact RoundTrip.movi rd imm
  | movk rd p imm => exact RoundTrip.movk rd p imm
  | beq ra rb off => exact RoundTrip.beq ra rb off
  | bne ra rb off => exact RoundTrip.bne ra rb off
  | blt ra rb off => exact RoundTrip.blt ra rb off
  | bge ra rb off => exact RoundTrip.bge ra rb off
  | bltn ra rb off => exact RoundTrip.bltn ra rb off
  | bgen ra rb off => exact RoundTrip.bgen ra rb off
  | jal rd off => exact RoundTrip.jal rd off
  | jalr rd ra imm => exact RoundTrip.jalr rd ra imm
  | ldB rd ra imm => exact RoundTrip.ldB rd ra imm
  | ldBs rd ra imm => exact RoundTrip.ldBs rd ra imm
  | ldH rd ra imm => exact RoundTrip.ldH rd ra imm
  | ldHs rd ra imm => exact RoundTrip.ldHs rd ra imm
  | ldW rd ra imm => exact RoundTrip.ldW rd ra imm
  | ldWs rd ra imm => exact RoundTrip.ldWs rd ra imm
  | ldD rd ra imm => exact RoundTrip.ldD rd ra imm
  | stB rd ra imm => exact RoundTrip.stB rd ra imm
  | stH rd ra imm => exact RoundTrip.stH rd ra imm
  | stW rd ra imm => exact RoundTrip.stW rd ra imm
  | stD rd ra imm => exact RoundTrip.stD rd ra imm
  | atomAdd rd ra rb size scope => exact RoundTrip.atomAdd rd ra rb size scope
  | atomSwap rd ra rb size scope => exact RoundTrip.atomSwap rd ra rb size scope
  | atomCas rd ra rb size scope => exact RoundTrip.atomCas rd ra rb size scope
  | atomMin rd ra rb size scope => exact RoundTrip.atomMin rd ra rb size scope
  | atomMax rd ra rb size scope => exact RoundTrip.atomMax rd ra rb size scope
  | atomOr rd ra rb size scope => exact RoundTrip.atomOr rd ra rb size scope
  | atomAnd rd ra rb size scope => exact RoundTrip.atomAnd rd ra rb size scope
  | mark paths => exact RoundTrip.mark paths
  | fence pa pb scope => exact RoundTrip.fence pa pb scope
  | hndBind rd ra h => exact RoundTrip.hndBind rd ra h
  | hndFree h => exact RoundTrip.hndFree h
  | hndStat rd h => exact RoundTrip.hndStat rd h
  | engStart e entry => exact RoundTrip.engStart e entry
  | engStop e => exact RoundTrip.engStop e
  | engStat rd e => exact RoundTrip.engStat rd e
  | engJoin e => exact RoundTrip.engJoin e
  | swArm rd ra h => exact RoundTrip.swArm rd ra h
  | swWait rd ra h => exact RoundTrip.swWait rd ra h
  | swReadTarget rd ra h => exact RoundTrip.swReadTarget rd ra h
  | swReadCount rd ra h => exact RoundTrip.swReadCount rd ra h
  | swReadGen rd ra h => exact RoundTrip.swReadGen rd ra h
  | swReadCode rd ra h => exact RoundTrip.swReadCode rd ra h
  | crewBar => exact RoundTrip.crewBar
  | wqPush ra rb => exact RoundTrip.wqPush ra rb
  | viewSet v ra => exact RoundTrip.viewSet v ra
  | mendOpen => exact RoundTrip.mendOpen
  | mendSave rd ra h => exact RoundTrip.mendSave rd ra h
  | mendClose => exact RoundTrip.mendClose
  | cinchOpen scope => exact RoundTrip.cinchOpen scope
  | cinchClose => exact RoundTrip.cinchClose
  | cinchDrop => exact RoundTrip.cinchDrop
  | clkRead rd rb => exact RoundTrip.clkRead rd rb
  | clkWait ra => exact RoundTrip.clkWait ra
  | stStamp rd ra rb scope => exact RoundTrip.stStamp rd ra rb scope
  | ldAsof rd ra rb scope => exact RoundTrip.ldAsof rd ra rb scope
  | bilClaim rd ra h => exact RoundTrip.bilClaim rd ra h
  | bilAdv rd ra h => exact RoundTrip.bilAdv rd ra h
  | bilPost rd ra h => exact RoundTrip.bilPost rd ra h
  | yield => exact RoundTrip.yield
  | csrRead rd csr => exact RoundTrip.csrRead rd csr
  | csrWrite ra csr => exact RoundTrip.csrWrite ra csr
  | csrSwap rd ra csr => exact RoundTrip.csrSwap rd ra csr
  | trap imm => exact RoundTrip.trap imm
  | tret => exact RoundTrip.tret
  | injStrike st imm => exact RoundTrip.injStrike st imm
  | nop => exact RoundTrip.nop
  | endProg => exact RoundTrip.endProg
  | vAdd d a b wa wb => exact RoundTrip.vAdd d a b wa wb
  | vSub d a b wa wb => exact RoundTrip.vSub d a b wa wb
  | vMul d a b wa wb => exact RoundTrip.vMul d a b wa wb
  | vFma d a b wa wb => exact RoundTrip.vFma d a b wa wb
  | vMin d a b wa wb => exact RoundTrip.vMin d a b wa wb
  | vMax d a b wa wb => exact RoundTrip.vMax d a b wa wb
  | vAbs d a wa => exact RoundTrip.vAbs d a wa
  | vNeg d a wa => exact RoundTrip.vNeg d a wa
  | vAnd d a b wa wb => exact RoundTrip.vAnd d a b wa wb
  | vOr d a b wa wb => exact RoundTrip.vOr d a b wa wb
  | vXor d a b wa wb => exact RoundTrip.vXor d a b wa wb
  | vShl d a b wa wb => exact RoundTrip.vShl d a b wa wb
  | vShr d a b wa wb => exact RoundTrip.vShr d a b wa wb
  | vSar d a b wa wb => exact RoundTrip.vSar d a b wa wb
  | vCmpeq len a b wa wb => exact RoundTrip.vCmpeq len a b wa wb
  | vCmplt len a b wa wb => exact RoundTrip.vCmplt len a b wa wb
  | vCmple len a b wa wb => exact RoundTrip.vCmple len a b wa wb
  | vSel d a b wa wb => exact RoundTrip.vSel d a b wa wb
  | vCvt d a t wa => exact RoundTrip.vCvt d a t wa
  | vAddi d a wa imm => exact RoundTrip.vAddi d a wa imm
  | vMuli d a wa imm => exact RoundTrip.vMuli d a wa imm
  | vMovi d imm => exact RoundTrip.vMovi d imm
  | vBcast d a wa imm => exact RoundTrip.vBcast d a wa imm
  | vPerm d a b wa wb => exact RoundTrip.vPerm d a b wa wb
  | vRedsum d a wa => exact RoundTrip.vRedsum d a wa
  | vRedmax d a wa => exact RoundTrip.vRedmax d a wa
  | vRedmin d a wa => exact RoundTrip.vRedmin d a wa
  | vArgmax d a wa => exact RoundTrip.vArgmax d a wa
  | vLd d h j => exact RoundTrip.vLd d h j
  | vSt d h j wa => exact RoundTrip.vSt d h j wa
  | vGather d a h wa => exact RoundTrip.vGather d a h wa
  | vScatter d a h wa wb => exact RoundTrip.vScatter d a h wa wb
  | vRcpa d a wa => exact RoundTrip.vRcpa d a wa
  | vRsqa d a wa => exact RoundTrip.vRsqa d a wa
  | vRcpf d a b wa wb => exact RoundTrip.vRcpf d a b wa wb
  | vRsqf d a b wa wb => exact RoundTrip.vRsqf d a b wa wb
  | vCorCrot d a wa len => exact RoundTrip.vCorCrot d a wa len
  | vCorCvec d a wa len => exact RoundTrip.vCorCvec d a wa len
  | vCorHrot d a wa len => exact RoundTrip.vCorHrot d a wa len
  | vCorHvec d a wa len => exact RoundTrip.vCorHvec d a wa len
  | vCorLrot d a wa len => exact RoundTrip.vCorLrot d a wa len
  | vCorLvec d a wa len => exact RoundTrip.vCorLvec d a wa len
  | vSigq d a wa => exact RoundTrip.vSigq d a wa
  | vCdfq d a wa => exact RoundTrip.vCdfq d a wa
  | vHash d a b wa wb => exact RoundTrip.vHash d a b wa wb
  | vNoise d a b wa wb => exact RoundTrip.vNoise d a b wa wb
  | vBitt d a wa imm => exact RoundTrip.vBitt d a wa imm
  | vClz d a wa => exact RoundTrip.vClz d a wa
  | vPopc d a wa => exact RoundTrip.vPopc d a wa
  | vShape t lanes => exact RoundTrip.vShape t lanes
  | vShapeMasked len t lanes => exact RoundTrip.vShapeMasked len t lanes
  | vMaskAnd d a b => exact RoundTrip.vMaskAnd d a b
  | vMaskOr d a b => exact RoundTrip.vMaskOr d a b
  | vMaskXor d a b => exact RoundTrip.vMaskXor d a b
  | vMaskAndn d a b => exact RoundTrip.vMaskAndn d a b
  | vMaskNot d a => exact RoundTrip.vMaskNot d a
  | vMaskSet d => exact RoundTrip.vMaskSet d
  | vMaskClear d => exact RoundTrip.vMaskClear d
  | vLoop k len => exact RoundTrip.vLoop k len
  | vBr k off => exact RoundTrip.vBr k off
  | vKop k v => exact RoundTrip.vKop k v
  | vKopAdd k v => exact RoundTrip.vKopAdd k v
  | vKopMov k i => exact RoundTrip.vKopMov k i
  | vMendOpen => exact RoundTrip.vMendOpen
  | vMendSave k len => exact RoundTrip.vMendSave k len
  | vMendClose => exact RoundTrip.vMendClose
  | vEnd => exact RoundTrip.vEnd
  | rcInitDec c h => exact RoundTrip.rcInitDec c h
  | rcInitEnc c h => exact RoundTrip.rcInitEnc c h
  | rcDec c a b wa => exact RoundTrip.rcDec c a b wa
  | rcDecm c a b wa => exact RoundTrip.rcDecm c a b wa
  | rcEnc c a b wa wb => exact RoundTrip.rcEnc c a b wa wb
  | rcEncm c a b wa wb => exact RoundTrip.rcEncm c a b wa wb
  | rcFlush c => exact RoundTrip.rcFlush c
  | rcSpec c => exact RoundTrip.rcSpec c
  | rcKeep c => exact RoundTrip.rcKeep c
  | rcUndo c => exact RoundTrip.rcUndo c
  | rcStat c b => exact RoundTrip.rcStat c b
  | vMark => exact RoundTrip.vMark
  | mBegin mode len => exact RoundTrip.mBegin mode len
  | mZero => exact RoundTrip.mZero
  | mLdacc t w => exact RoundTrip.mLdacc t w
  | mAcc t row w => exact RoundTrip.mAcc t row w
  | mAcc8 t row planes w => exact RoundTrip.mAcc8 t row planes w
  | mAccsTern t row w => exact RoundTrip.mAccsTern t row w
  | mAccsInt8 t row planes w => exact RoundTrip.mAccsInt8 t row planes w
  | mSeg t w => exact RoundTrip.mSeg t w
  | mScale a b w => exact RoundTrip.mScale a b w
  | mRetF32 t => exact RoundTrip.mRetF32 t
  | mRetBf16 t => exact RoundTrip.mRetBf16 t
  | mRetF32Add t => exact RoundTrip.mRetF32Add t
  | mRetraw t => exact RoundTrip.mRetraw t
  | mWbase row => exact RoundTrip.mWbase row
  | mLoop k len => exact RoundTrip.mLoop k len
  | mBr k off => exact RoundTrip.mBr k off
  | mKop k v => exact RoundTrip.mKop k v
  | mKopAdd k v => exact RoundTrip.mKopAdd k v
  | mKopMov k i => exact RoundTrip.mKopMov k i
  | mPert row col j => exact RoundTrip.mPert row col j
  | mEnd => exact RoundTrip.mEnd
  | xCopy d s l => exact RoundTrip.xCopy d s l
  | xShapeImm f v => exact RoundTrip.xShapeImm f v
  | xShapeReg f j => exact RoundTrip.xShapeReg f j
  | xUnfold d s len => exact RoundTrip.xUnfold d s len
  | xWinImm f v => exact RoundTrip.xWinImm f v
  | xWinReg f j => exact RoundTrip.xWinReg f j
  | xUnpackT5p d s l => exact RoundTrip.xUnpackT5p d s l
  | xUnpackBsi8 d s l => exact RoundTrip.xUnpackBsi8 d s l
  | xUnpackSp24 d s l => exact RoundTrip.xUnpackSp24 d s l
  | xUnpackZrun d s l => exact RoundTrip.xUnpackZrun d s l
  | xConv d s l => exact RoundTrip.xConv d s l
  | xMcast d s l => exact RoundTrip.xMcast d s l
  | xGather d s l i => exact RoundTrip.xGather d s l i
  | xScatter d s l i => exact RoundTrip.xScatter d s l i
  | xFill d l v => exact RoundTrip.xFill d l v
  | xWbfill row s l => exact RoundTrip.xWbfill row s l
  | xSync h j => exact RoundTrip.xSync h j
  | xSyncDetach => exact RoundTrip.xSyncDetach
  | xClose => exact RoundTrip.xClose
  | xWait len => exact RoundTrip.xWait len
  | xCollSumI32 scope e l i => exact RoundTrip.xCollSumI32 scope e l i
  | xCollSumF32 scope e l i => exact RoundTrip.xCollSumF32 scope e l i
  | xCollBcast scope e l i => exact RoundTrip.xCollBcast scope e l i
  | xCollArgmax scope e l i => exact RoundTrip.xCollArgmax scope e l i
  | xLoop k len => exact RoundTrip.xLoop k len
  | xBr k off => exact RoundTrip.xBr k off
  | xKop k v => exact RoundTrip.xKop k v
  | xKopAdd k v => exact RoundTrip.xKopAdd k v
  | xKopMov k i => exact RoundTrip.xKopMov k i
  | xMendOpen => exact RoundTrip.xMendOpen
  | xMendSave k len => exact RoundTrip.xMendSave k len
  | xMendClose => exact RoundTrip.xMendClose
  | xMark => exact RoundTrip.xMark
  | xEnd => exact RoundTrip.xEnd
  | _ => exact fun _ _ _ h => nomatch h

/-- Settles O51. -/
theorem decodingUndoesEncoding : Obligations.DecodingUndoesEncoding := by
  unfold Obligations.DecodingUndoesEncoding
  exact fun i st w hw => decode_encode i hw st w

/-- Settles O50: the decoders evaluate to the printed instructions. -/
theorem decodesTheSpecsWords : Obligations.DecodesTheSpecsWords := by
  unfold Obligations.DecodesTheSpecsWords
  exact ⟨rfl, rfl, rfl, rfl, rfl, rfl, rfl⟩

end Sys2Proof.Machine
end

section
/-!
PROOFS. Field, loop, batch, sync, mend, mark and end words of the transfer stream (R18, R47, R165, R171, R178 to R180, R184, R186, R304,
R307): O34.
-/
namespace Sys2Proof.Machine

/-! ### Transfer words that retire -/

/-- A transfer word that changed its engine, but for the engine's own stream, retires. -/
theorem xferAdvanced_of_done {s : State} {f : XferEngine → XferEngine} (he : (f s.core.xfer).eng = s.core.xfer.eng) :
    s.issueXfer (.done ((s.updXfer f).engNext .xfer)) = s.xferAdvanced 0 f := by
  simp only [State.xferAdvanced, ← he]
  rfl

/-- As `xferAdvanced_of_done`, for a word that takes an access number. -/
theorem xferAdvanced_of_done_bump {s : State} {f : XferEngine → XferEngine} (he : (f s.core.xfer).eng = s.core.xfer.eng) :
    s.issueXfer (.done (((s.updXfer f).upd Core.bump).engNext .xfer)) = s.xferAdvanced 1 f := by
  simp only [State.xferAdvanced, ← he]
  rfl

theorem issueXfer_done_next (s : State) : s.issueXfer (.done (s.engNext .xfer)) = s.xferAdvanced 0 id := rfl

/-- A word's meaning issues what it answers; an equation for the answer is one for the meaning. -/
theorem exec_of_issueXfer {i : Instr} {s : State} {r r' : EngIssue} (h : exec i s = .next (s.issueXfer r)) (e : r = r') :
    exec i s = .next (s.issueXfer r') := e ▸ h

theorem xferLoop_eq (s : State) (f : Engine → Engine) (k' : Vector KReg 8) (pc' : Word)
    (h : f s.core.xfer.eng = { s.core.xfer.eng with k := k', pc := pc' }) :
    s.xferLoop f = s.engAdvanced .xfer (fun e => { e with k := k', pc := pc' }) := by
  have hf : s.updEng .xfer f = s.updEng .xfer (fun e => { e with k := k', pc := pc' }) := by
    simp only [State.updEng, State.upd, Core.updEng, Core.setEng, Core.updXfer, Core.eng, h]
  rw [State.xferLoop, hf]
  rfl

/-! ### Closing the batch (R178, R179) -/

/-- A close changes the batches alone. -/
theorem close_frame {x y : XferEngine} (h : x.close = some y) : y = { x with openBatch := none, batches := y.batches } := by
  unfold XferEngine.close at h
  split at h
  · next hb => cases h; rw [← hb]
  · next b hb =>
    dsimp only at h
    split at h
    · cases h
    · cases h; rfl

theorem close_of_no_batch {x : XferEngine} (h : x.openBatch = none) : x.close = some x := by
  unfold XferEngine.close
  rw [h]

section
variable {s : State} {y : XferEngine}

theorem closeBatch_some (h : s.core.xfer.close = some y) (k : State → EngIssue) : s.closeBatch k = k (s.updXfer (fun _ => y)) := by
  rw [State.closeBatch, h]
  rfl

theorem closeBatch_none (h : s.core.xfer.close = none) (k : State → EngIssue) : s.closeBatch k = .wait 3 0 s := by
  rw [State.closeBatch, h]

theorem reportFail_nil (h : s.core.xfer.fails = []) (k : EngIssue) : s.reportFail k = k := by
  rw [State.reportFail, h]
  rfl

theorem reportFail_single {f : XFail} (h : s.core.xfer.fails = [f]) (k : EngIssue) :
    s.reportFail k = .stopAt f.code f.pc f.mayCore f.mayLeft (s.updXfer (fun x => { x with fails := [] })) := by
  have hf : s.updXfer (fun x => { x with fails := x.fails.filter (fun g => decide (g.seq ≠ f.seq)) }) =
      s.updXfer (fun x => { x with fails := [] }) := by
    simp [State.updXfer, State.upd, Core.updXfer, h]
  rw [State.reportFail, h, ← hf]
  rfl

theorem exec_xClose (h : s.core.xfer.close = some y) : exec .xClose s = .next (s.xferAdvanced 0 (fun _ => y)) := by
  rw [← xferAdvanced_of_done (by rw [close_frame h])]
  exact exec_of_issueXfer rfl (closeBatch_some h _)

/-- Once the batch is closed, `x.wait` reports a failure, and then judges what is outstanding (R179, R184). -/
theorem exec_xWait (h : s.core.xfer.close = some y) (n : BitVec 16) :
    let t := s.updXfer (fun _ => y)
    exec (.xWait n) s = .next (s.issueXfer (t.reportFail (if y.outstanding ≤ n.toNat then .done (t.engNext .xfer) else .wait 3 0 t))) :=
  exec_of_issueXfer rfl (closeBatch_some h _)

theorem exec_xWait_few {n : BitVec 16} (h : s.core.xfer.close = some y) (hf : s.core.xfer.fails = []) (hn : y.outstanding ≤ n.toNat) :
    exec (.xWait n) s = .next (s.xferAdvanced 0 (fun _ => y)) := by
  have hy : y.fails = [] := by rw [close_frame h]; exact hf
  rw [exec_xWait h, reportFail_nil hy, if_pos hn, xferAdvanced_of_done (by rw [close_frame h])]

theorem exec_xWait_many {n : BitVec 16} (hb : s.core.xfer.openBatch = none) (hf : s.core.xfer.fails = [])
    (hn : n.toNat < s.core.xfer.outstanding) : exec (.xWait n) s = .next (s.engWaits .xfer 3 0) := by
  rw [exec_xWait (close_of_no_batch hb), reportFail_nil (s := s.updXfer (fun _ => s.core.xfer)) hf, if_neg (Nat.not_le.2 hn)]
  rfl

theorem exec_xWait_failed {n : BitVec 16} {f : XFail} (h : s.core.xfer.close = some y) (hf : s.core.xfer.fails = [f]) :
    exec (.xWait n) s = .next
      ((s.updXfer (fun _ => { y with fails := [] })).stopEngine .xfer 0 f.code f.pc false f.mayCore f.mayLeft) := by
  have hy : y.fails = [f] := by rw [close_frame h]; exact hf
  rw [exec_xWait h, reportFail_single hy]
  rfl

theorem exec_xMark (hf : s.core.xfer.fails = []) :
    exec .xMark s = .next (s.issueXfer (if s.core.xfer.all.isEmpty then .done (s.engNext .xfer) else .wait 4 0 s)) :=
  exec_of_issueXfer rfl (reportFail_nil hf _)

theorem exec_xMark_idle (hf : s.core.xfer.fails = []) (ha : s.core.xfer.all = []) : exec .xMark s = .next (s.xferAdvanced 0 id) := by
  rw [exec_xMark hf, if_pos (List.isEmpty_iff.2 ha), issueXfer_done_next]

theorem exec_xMark_busy (hf : s.core.xfer.fails = []) (ha : s.core.xfer.all ≠ []) : exec .xMark s = .next (s.engWaits .xfer 4 0) := by
  rw [exec_xMark hf, if_neg (mt List.isEmpty_iff.1 ha)]
  rfl

/-! ### Sync words (R180) -/

section
variable {h : Hnd} {j : KIx} {b : Binding} {pa : PAddr} {o : Nat} {a : Batch} (hb : s.core.engBinding h false = .ok b)
  (hp : s.core.syncPlace h (s.core.xfer.kv j) = some (o, pa))
include hb hp

theorem exec_xSync : exec (.xSync h j) s = .next (s.issueXfer (s.syncBatch ⟨pa, b.id⟩)) := by
  refine exec_of_issueXfer rfl ?_
  simp only [hb, hp]

theorem exec_xSync_new (ho : s.core.xfer.openBatch = none) : exec (.xSync h j) s = .next (s.xferAdvanced 1 (fun x => { x with
    openBatch := some ⟨s.core.issue, some ⟨pa, b.id⟩, 0, false⟩ })) := by
  rw [exec_xSync hb hp, State.syncBatch, ho]
  exact congrArg Host.Outcome.next (xferAdvanced_of_done_bump rfl)

/-- A batch in use without a sync word, none of whose bytes has landed, takes the sync word. -/
theorem exec_xSync_attach (ho : s.core.xfer.openBatch = some a) (hu : a.used = true) (hs : a.sync = none) (hl : a.landed = 0) :
    exec (.xSync h j) s = .next (s.xferAdvanced 0 (fun x => { x with
      openBatch := some { a with sync := some ⟨pa, b.id⟩, landed := 0 } })) := by
  rw [exec_xSync hb hp, ← xferAdvanced_of_done (s := s) rfl]
  simp [State.syncBatch, ho, hu, hs, State.attach, hl]

end

theorem exec_xSyncDetach {a : Batch} (h : s.core.xfer.openBatch = some a) :
    exec .xSyncDetach s = .next (s.issueXfer (if a.sync.isSome then s.closeBatch (fun t => .done (t.engNext .xfer))
      else .done (s.engNext .xfer))) := by
  refine exec_of_issueXfer rfl ?_
  rw [h]

theorem exec_xSyncDetach_keeps {a : Batch} (h : s.core.xfer.openBatch = some a) (hs : a.sync = none) :
    exec .xSyncDetach s = .next (s.xferAdvanced 0 id) := by
  rw [exec_xSyncDetach h, if_neg (by simp [hs]), issueXfer_done_next]

theorem exec_xSyncDetach_closes {a : Batch} (h : s.core.xfer.openBatch = some a) (hs : a.sync.isSome = true)
    (hy : s.core.xfer.close = some y) : exec .xSyncDetach s = .next (s.xferAdvanced 0 (fun _ => y)) := by
  rw [exec_xSyncDetach h, if_pos hs, closeBatch_some hy, xferAdvanced_of_done (by rw [close_frame hy])]

/-! ### Mend words and the end (R304, R307) -/

theorem exec_xMendOpen_ready (ha : s.core.xfer.all = []) (hl : s.core.xfer.regions.length < 4) :
    exec .xMendOpen s = .next (s.xferAdvanced 0 (fun x => { x with regions :=
      ⟨x.eng.pc, ⟨x.eng.k, x.shape, x.win, x.openBatch⟩, 0, [], [], [], [], 0,
        againCount x.again x.regions.length x.eng.pc⟩ :: x.regions })) := by
  rw [← xferAdvanced_of_done (s := s) rfl]
  refine exec_of_issueXfer rfl ?_
  rw [if_neg (Nat.not_le.2 hl), if_neg (by simp [ha])]

theorem exec_xMendSave_ready {k : KIx} {m : BitVec 12} {r : XferRegion} {l : List XferRegion} (hr : s.core.xfer.regions = r :: l)
    (ht : s.core.xfer.kv k + m.toNat ≤ s.core.res.tree) (hroom : s.core.roomFor (64 * m.toNat) 0 = true)
    (hl : ∀ q ∈ rangeFrom (s.core.xfer.kv k) m.toNat, q ∉ s.core.treeLost) :
    exec (.xMendSave k m) s = .next (s.xferAdvanced 0 (fun x => { x with regions := { r with
      saved := s.core.saveLines s.core.xfer.marks (s.core.xfer.kv k) m.toNat ++ r.saved, charge := r.charge + 64 * m.toNat } :: l })) := by
  rw [← xferAdvanced_of_done (s := s) rfl]
  refine exec_of_issueXfer rfl ?_
  have hlost : (rangeFrom (s.core.xfer.kv k) m.toNat).any (fun q => s.core.treeLost.contains q) = false :=
    List.any_eq_false.2 fun q hq => by simp [hl q hq]
  simp only [hr, hroom, hlost, if_neg (Nat.not_lt.2 ht), Bool.not_true, Bool.false_eq_true, if_false]
  rfl

theorem any_inside_eq_false {l : List XOp} (h : ∀ o ∈ l, o.inside = false) : l.any (·.inside) = false :=
  List.any_eq_false.2 fun o ho => by simp [h o ho]

theorem exec_xMendClose_inner {r p : XferRegion} {l : List XferRegion} (hr : s.core.xfer.regions = r :: p :: l)
    (hc : s.engCloseReady .xfer = true) (hi : ∀ o ∈ s.core.xfer.all, o.inside = false) :
    exec .xMendClose s = .next (s.xferAdvanced 0 (fun x => { x with
      regions := r.handUp p :: l, again := againDrop x.again (l.length + 1) })) := by
  rw [← xferAdvanced_of_done (s := s) rfl]
  refine exec_of_issueXfer rfl ?_
  simp only [hr, hc, any_inside_eq_false hi]
  rfl

theorem closeXfer_none (h : s.core.xfer.regions = []) (k : State → EngIssue) : s.closeXfer k = k s := by
  rw [State.closeXfer, h]
  rfl

/-- A lone region that holds no word back and owes no addition is released once its close is ready. -/
theorem closeXfer_single {r : XferRegion} (h : s.core.xfer.regions = [r]) (hc : s.engCloseReady .xfer = true)
    (hi : ∀ o ∈ s.core.xfer.all, o.inside = false) (hr : r.held = []) (ha : r.adds = []) (k : State → EngIssue) :
    s.closeXfer k = k (s.releaseXfer r) := by
  simp [State.closeXfer, h, foldXfer, hc, any_inside_eq_false hi, hr, ha]

/-- The release of a region that owes nothing and deferred no mark takes its flags out, and ends the batches that are done (R178, R307). -/
theorem releaseXfer_of_nothing {r : XferRegion} (ha : r.adds = []) (hm : r.marks = []) : s.releaseXfer r =
    s.upd (fun c => (c.updXfer (fun x =>
      ({ x with regions := [], again := [], eng := { x.eng with releasing := false } } : XferEngine).sweep)).orFlags r.mask) := by
  simp only [State.releaseXfer, ha, hm]
  rfl

theorem exec_xMendClose_outer {r : XferRegion} (h : s.core.xfer.regions = [r]) (hc : s.engCloseReady .xfer = true)
    (hi : ∀ o ∈ s.core.xfer.all, o.inside = false) (hr : r.held = []) (ha : r.adds = []) :
    exec .xMendClose s = .next (s.issueXfer (.done ((s.releaseXfer r).engNext .xfer))) := by
  refine exec_of_issueXfer rfl ?_
  simp only [h, closeXfer_single h hc hi hr ha]

theorem exec_xEnd_ready (h : s.core.xfer.close = some y) (hr : s.core.xfer.regions = []) (hf : s.core.xfer.fails = [])
    (ha : s.core.xfer.all = []) : exec .xEnd s = .next (s.updXfer (fun _ => { y with
      eng := { y.eng with st := .ended, retired := s.now, stopReq := false } })) := by
  have hyf : y.fails = [] := by rw [close_frame h]; exact hf
  have hya : (s.updXfer (fun _ => y)).core.xfer.all = [] := (congrArg XferEngine.all (close_frame h)).trans ha
  refine congrArg Host.Outcome.next ?_
  rw [closeXfer_none hr, closeBatch_some h, reportFail_nil hyf, if_pos (List.isEmpty_iff.2 hya)]
  rfl

end

/-- Settles O34: one lemma of this file for each word. -/
theorem transferFieldsLoopsAndBatches : Obligations.TransferFieldsLoopsAndBatches := by
  unfold Obligations.TransferFieldsLoopsAndBatches
  refine ⟨?_, ?_⟩
  · intro s f g v x k i n off e goes shape win
    have loops : ∀ (f : Engine → Engine) (k' : Vector KReg 8) (pc' : Word), f e = { e with k := k', pc := pc' } →
        Host.Outcome.next (s.xferLoop f) = (.next (s.engAdvanced .xfer (fun e => { e with k := k', pc := pc' })) : Out) :=
      fun f k' pc' h => congrArg Host.Outcome.next (xferLoop_eq s f k' pc' h)
    refine ⟨?_, ?_, ?_, ?_, loops _ _ _ rfl, loops _ _ _ ?_, loops _ _ _ rfl, loops _ _ _ rfl, loops _ _ _ rfl⟩
    case refine_5 =>
      simp only [Engine.br, Engine.setK]
      split <;> rfl
    all_goals exact congrArg Host.Outcome.next (xferAdvanced_of_done rfl)
  · intro s n h j k m y x acts waits
    refine ⟨fun hy => ⟨exec_xClose hy, exec_xWait_few hy, exec_xWait_many, fun f => exec_xWait_failed hy, exec_xEnd_ready hy⟩,
      fun hn => ⟨exec_of_issueXfer rfl (closeBatch_none hn _), exec_of_issueXfer rfl (closeBatch_none hn _)⟩,
      fun hf => ⟨exec_xMark_idle hf, exec_xMark_busy hf⟩,
      fun b pa o hb hp => ⟨exec_xSync_new hb hp, fun a => exec_xSync_attach hb hp⟩, fun a => exec_xSyncDetach_keeps,
      fun a => exec_xSyncDetach_closes, exec_xMendOpen_ready, fun r l => exec_xMendSave_ready, fun r p l => exec_xMendClose_inner,
      fun r hr hc hi hh ha hm => ⟨_, exec_xMendClose_outer hr hc hi hh ha, ?_⟩,
      fun hr => ⟨exec_of_issueXfer rfl ?_, exec_of_issueXfer rfl ?_⟩⟩
    · rw [releaseXfer_of_nothing ha hm]
      exact ⟨rfl, rfl, rfl, rfl, rfl, rfl, rfl⟩
    · rw [hr]
      rfl
    · rw [hr]
      rfl

end Sys2Proof.Machine
end

section
/-!
PROOFS. The functions of integer lanes are arithmetic modulo the lane width (R60, R136).
-/
namespace Sys2Proof.Machine

/-! ### Integers modulo the lane width -/

theorem sextNat_modEq (n x : Nat) : sextNat n x ≡ x [ZMOD 2 ^ n] := by
  unfold sextNat
  split
  · exact Int.mod_modEq _ _
  · exact (Int.sub_modulus_modEq_iff.2 rfl).trans (Int.mod_modEq _ _)

theorem intLane_modEq (t : EType) (x : Nat) : intLane t x ≡ x [ZMOD 2 ^ t.bitsW] := by
  unfold intLane
  split
  · exact sextNat_modEq _ _
  · exact_mod_cast Int.mod_modEq (x : Int) (2 ^ t.bitsW)

theorem wrapInt_of_modEq {n k : Nat} {v : Int} (h : v ≡ k [ZMOD 2 ^ n]) : wrapInt n v = k % 2 ^ n := by
  have hv : v % 2 ^ n = ((k % 2 ^ n : Nat) : Int) := by rw [h]; push_cast; rfl
  rw [wrapInt, hv, Int.toNat_natCast]

section
variable {t : EType} {x y : Nat}

/-- A lane that is below half the modulus, or of an unsigned type, is the number itself; the others lie one modulus lower. -/
theorem intLane_eq (hx : x < 2 ^ t.bitsW) :
    intLane t x = if t.signed = true ∧ 2 ^ (t.bitsW - 1) ≤ x then (x : Int) - 2 ^ t.bitsW else x := by
  rw [intLane, sextNat]
  have hm : x % 2 ^ t.bitsW = x := Nat.mod_eq_of_lt hx
  have hc : (x : Int) % 2 ^ t.bitsW = x := by exact_mod_cast congrArg Nat.cast hm
  cases t.signed
  · simp [hm]
  · simp only [if_true, hm, hc, true_and]
    by_cases h : x < 2 ^ (t.bitsW - 1)
    · rw [if_pos h, if_neg (Nat.not_le.2 h)]
    · rw [if_neg h, if_pos (Nat.not_lt.1 h)]

/-- The type's own order of two lanes is that of the integers they hold. -/
theorem intLane_lt_iff (hx : x < 2 ^ t.bitsW) (hy : y < 2 ^ t.bitsW) :
    (if t.signed then sextNat t.bitsW x < sextNat t.bitsW y else x < y) ↔ intLane t x < intLane t y := by
  unfold intLane
  cases t.signed
  · simp [Nat.mod_eq_of_lt hx, Nat.mod_eq_of_lt hy]
  · simp

/-! ### The lane functions on integer lanes -/

variable (hf : t.isFloat = false)
include hf

theorem laneArith_int {fi : Int → Int → Int} {ff : FVal → FVal → FVal} {k : Nat}
    (h : fi (intLane t x) (intLane t y) ≡ k [ZMOD 2 ^ t.bitsW]) : laneArith fi ff t x y = k % 2 ^ t.bitsW := by
  rw [laneArith, hf]
  exact wrapInt_of_modEq h

theorem laneArith_add : laneArith (· + ·) FVal.add t x y = (x + y) % 2 ^ t.bitsW :=
  laneArith_int hf (by push_cast; exact (intLane_modEq t x).add (intLane_modEq t y))

theorem laneArith_mul : laneArith (· * ·) FVal.mul t x y = x * y % 2 ^ t.bitsW :=
  laneArith_int hf (by push_cast; exact (intLane_modEq t x).mul (intLane_modEq t y))

theorem laneFma_int (d : Nat) : laneFma t d x y = (d + x * y) % 2 ^ t.bitsW := by
  rw [laneFma, hf]
  exact wrapInt_of_modEq (by push_cast; exact (intLane_modEq t d).add ((intLane_modEq t x).mul (intLane_modEq t y)))

theorem laneArith_sub (hy : y ≤ 2 ^ t.bitsW) : laneArith (· - ·) FVal.sub t x y = (x + (2 ^ t.bitsW - y)) % 2 ^ t.bitsW := by
  refine laneArith_int hf (((intLane_modEq t x).sub (intLane_modEq t y)).trans ?_)
  push_cast [Nat.cast_sub hy]
  rw [← add_sub_assoc, add_sub_right_comm]
  exact (Int.add_modulus_modEq_iff.2 rfl).symm

theorem laneNeg_int (hx : x ≤ 2 ^ t.bitsW) : laneNeg t x = (2 ^ t.bitsW - x) % 2 ^ t.bitsW := by
  rw [laneNeg, hf]
  refine wrapInt_of_modEq ((intLane_modEq t x).neg.trans ?_)
  push_cast [Nat.cast_sub hx]
  rw [sub_eq_neg_add]
  exact (Int.add_modulus_modEq_iff.2 rfl).symm

theorem laneMin_int : laneMin t x y = if intLane t y < intLane t x then y else x := by
  simp [laneMin, laneNan, laneKey, hf]

theorem laneMax_int : laneMax t x y = if intLane t x < intLane t y then y else x := by
  simp [laneMax, laneNan, laneKey, hf]

theorem laneAbs_int (hx : x < 2 ^ t.bitsW) :
    laneAbs t x = if t.signed = true ∧ 2 ^ (t.bitsW - 1) ≤ x then 2 ^ t.bitsW - x else x := by
  have hcast : ((2 ^ t.bitsW : Nat) : Int) = 2 ^ t.bitsW := by push_cast; rfl
  have habs : (intLane t x).natAbs = if t.signed = true ∧ 2 ^ (t.bitsW - 1) ≤ x then 2 ^ t.bitsW - x else x := by
    rw [intLane_eq hx]
    split <;> omega
  have hlt : (intLane t x).natAbs < 2 ^ t.bitsW := by
    rw [habs]
    split
    · next h => have := Nat.two_pow_pos (t.bitsW - 1); omega
    · exact hx
  rw [laneAbs, hf, ← habs]
  exact (wrapInt_of_modEq rfl).trans (Nat.mod_eq_of_lt hlt)

end

end Sys2Proof.Machine
end

section
/-!
PROOFS. Tables written entry by entry, the lines and rows of a core after such writes, and the bytes of a line (R3, R6, R29, R127).
-/
namespace Sys2Proof.Machine

/-! ### Folds -/

/-- What every step of a fold keeps, the fold keeps. -/
theorem foldl_keeps {α β γ : Type} {f : β → α → β} (g : β → γ) (h : ∀ c x, g (f c x) = g c) (l : List α) (c : β) :
    g (l.foldl f c) = g c :=
  List.foldlRecOn l f (motive := fun d => g d = g c) rfl (fun d hd x _ => (h d x).trans hd)

/-! ### Tables written entry by entry -/

section
variable {α : Type} [DecidableEq α] {d : α}

theorem sparseGet_setAll_other {t l : List (Nat × α)} {n : Nat} (w : sparseWf d 0 t = true) (hn : n ∉ l.map Prod.fst) :
    sparseGet d (sparseSetAll d t l) n = sparseGet d t n := by
  induction l generalizing t with
  | nil => rfl
  | cons e l ih =>
    rw [List.map_cons, List.mem_cons, not_or] at hn
    exact (ih (sparseSet_wf (Nat.zero_le _) w) hn.2).trans (sparseGet_set_other hn.1 w)

theorem sparseGet_setAll_mem {t l : List (Nat × α)} (w : sparseWf d 0 t = true) (hl : (l.map Prod.fst).Nodup) :
    ∀ x ∈ l, sparseGet d (sparseSetAll d t l) x.1 = x.2 := by
  induction l generalizing t with
  | nil => exact fun x hx => absurd hx List.not_mem_nil
  | cons e l ih =>
    obtain ⟨he, hl⟩ := List.nodup_cons.1 hl
    have w' : sparseWf d 0 (sparseSet d t e.1 e.2) = true := sparseSet_wf (Nat.zero_le _) w
    intro x hx
    rcases List.mem_cons.1 hx with rfl | hx
    · exact (sparseGet_setAll_other w' he).trans (sparseGet_set_same w)
    · exact ih w' hl x hx

/-- A table listed from a function of its keys answers that function. -/
theorem sparseGet_listed [Zero α] (f : Nat → α) (a n i : Nat) :
    sparseGet 0 ((List.range' a n).filterMap (fun i => if f i = 0 then none else some (i, f i))) i =
      if a ≤ i ∧ i < a + n then f i else 0 := by
  induction n generalizing a with
  | zero => simp [sparseGet, show ¬ (a ≤ i ∧ i < a) by omega]
  | succ n ih =>
    rw [List.range'_succ, List.filterMap_cons]
    by_cases hf : f a = 0
    · simp only [hf, if_true, ih]
      by_cases hi : i = a
      · simp [hi, hf]
      · simp only [show a + 1 ≤ i ∧ i < a + 1 + n ↔ a ≤ i ∧ i < a + (n + 1) by omega]
    · simp only [hf, if_false, sparseGet, ih]
      by_cases hi : i = a
      · simp [hi]
      · by_cases hlt : i < a
        · simp [hi, hlt, Nat.not_le.2 hlt]
        · simp only [hi, hlt, if_false, show a + 1 ≤ i ∧ i < a + 1 + n ↔ a ≤ i ∧ i < a + (n + 1) by omega]

end

/-! ### Lines of the tree -/

/-- The tree is in canonical form. -/
def Core.TreeWf (c : Core) : Prop := sparseWf Line.zero 0 c.tree = true

section
variable {c : Core}

theorem treeWf_setLine (w : c.TreeWf) (n : Nat) (l : Line) : (c.setLine n l).TreeWf := sparseSet_wf (Nat.zero_le _) w

theorem line_setLine_same (w : c.TreeWf) (n : Nat) (l : Line) : (c.setLine n l).line n = l := sparseGet_set_same w

theorem line_setLine_other (w : c.TreeWf) {n k : Nat} (l : Line) (h : k ≠ n) : (c.setLine n l).line k = c.line k :=
  sparseGet_set_other h w

theorem line_setFull (w : c.TreeWf) (n k : Nat) (b : Bool) :
    (c.setFull n b).line k = if k = n then { c.line k with full := b } else c.line k := by
  by_cases h : k = n
  · rw [if_pos h, h]; exact line_setLine_same w _ _
  · rw [if_neg h]; exact line_setLine_other w _ h

/-- Lines marked one after the other: each of them has the mark, its bytes and every other line stay as they are. -/
theorem foldl_setFull_line (w : c.TreeWf) (l : List Nat) (b : Bool) (k : Nat) :
    (l.foldl (fun c n => c.setFull n b) c).line k = if k ∈ l then { c.line k with full := b } else c.line k := by
  induction l generalizing c with
  | nil => simp
  | cons n l ih =>
    rw [List.foldl_cons, ih (c := c.setFull n b) (treeWf_setLine w _ _), line_setFull w]
    by_cases hn : k = n <;> by_cases hl : k ∈ l <;> simp [hn, hl]

theorem foldl_setFull_treeWf (w : c.TreeWf) (l : List Nat) (b : Bool) : (l.foldl (fun c n => c.setFull n b) c).TreeWf :=
  List.foldlRecOn l _ (motive := Core.TreeWf) w (fun _ hd _ _ => treeWf_setLine hd _ _)

/-- Lines written whole one after the other are a table written entry by entry. -/
theorem foldl_fillLine_tree (l : List (Nat × BitVec 512)) : (l.foldl (fun c x => c.fillLine x.1 x.2) c).tree =
    sparseSetAll Line.zero c.tree (l.map (fun x => (x.1, ⟨x.2, true⟩))) := by
  rw [sparseSetAll, List.foldl_map]
  exact (List.foldl_hom Core.tree (fun _ _ => rfl)).symm

end

/-! ### Bytes as numbers (R6) -/

theorem natOfBytes_lt (l : List Byte) : natOfBytes l < 2 ^ (8 * l.length) := by
  induction l with
  | nil => simp [natOfBytes]
  | cons b l ih =>
    rw [natOfBytes, List.length_cons, Nat.mul_succ, Nat.pow_add]
    have := b.isLt
    omega

theorem natOfBytes_append (a b : List Byte) : natOfBytes (a ++ b) = natOfBytes a + 2 ^ (8 * a.length) * natOfBytes b := by
  induction a with
  | nil => simp [natOfBytes]
  | cons x a ih =>
    rw [List.cons_append, natOfBytes, ih, natOfBytes, List.length_cons, Nat.mul_succ, Nat.pow_add]
    ring

theorem natOfBytes_take (l : List Byte) {n : Nat} (h : n ≤ l.length) : natOfBytes (l.take n) = natOfBytes l % 2 ^ (8 * n) := by
  have hlen : (l.take n).length = n := List.length_take_of_le h
  have hlt := natOfBytes_lt (l.take n)
  conv_rhs => rw [← List.take_append_drop n l, natOfBytes_append, hlen, Nat.add_mul_mod_self_left]
  rw [hlen] at hlt
  exact (Nat.mod_eq_of_lt hlt).symm

theorem natOfBytes_drop (l : List Byte) {n : Nat} (h : n ≤ l.length) : natOfBytes (l.drop n) = natOfBytes l / 2 ^ (8 * n) := by
  have hlen : (l.take n).length = n := List.length_take_of_le h
  have hlt := natOfBytes_lt (l.take n)
  conv_rhs => rw [← List.take_append_drop n l, natOfBytes_append, hlen, Nat.add_mul_div_left _ _ (Nat.two_pow_pos _)]
  rw [hlen] at hlt
  rw [Nat.div_eq_of_lt hlt, Nat.zero_add]

@[simp] theorem bytesOfNat_length (n x : Nat) : (bytesOfNat n x).length = n := by
  induction n generalizing x with
  | zero => rfl
  | succ n ih => rw [bytesOfNat, List.length_cons, ih]

theorem natOfBytes_bytesOfNat (n x : Nat) : natOfBytes (bytesOfNat n x) = x % 2 ^ (8 * n) := by
  induction n generalizing x with
  | zero => simp [bytesOfNat, natOfBytes, Nat.mod_one]
  | succ n ih =>
    rw [bytesOfNat, natOfBytes, ih, BitVec.toNat_ofNat, Nat.mul_succ, Nat.add_comm (8 * n), Nat.pow_add, Nat.mod_mul]

@[simp] theorem lanesBytes_length (w : Nat) (l : List Nat) : (lanesBytes w l).length = w * l.length := by
  induction l with
  | nil => rfl
  | cons x l ih =>
    rw [lanesBytes, List.flatMap_cons, List.length_append, bytesOfNat_length, ← lanesBytes, ih, List.length_cons, Nat.mul_succ,
      Nat.add_comm]

/-- Lane i of lanes written one after the other. -/
theorem natOfBytes_lanesBytes (w : Nat) (l : List Nat) (i : Nat) :
    natOfBytes (lanesBytes w l) / 2 ^ (8 * (w * i)) % 2 ^ (8 * w) = l.getD i 0 % 2 ^ (8 * w) := by
  induction l generalizing i with
  | nil => simp [lanesBytes, natOfBytes]
  | cons x l ih =>
    rw [lanesBytes, List.flatMap_cons, ← lanesBytes, natOfBytes_append, natOfBytes_bytesOfNat, bytesOfNat_length]
    cases i with
    | zero => simp
    | succ i =>
      have hp : 8 * (w * (i + 1)) = 8 * w + 8 * (w * i) := by ring
      rw [hp, Nat.pow_add, ← Nat.div_div_eq_div_mul, Nat.add_mul_div_left _ _ (Nat.two_pow_pos _),
        Nat.div_eq_of_lt (Nat.mod_lt _ (Nat.two_pow_pos _)), Nat.zero_add]
      exact ih i

/-- A field of a number of which only lower bits are known. -/
theorem field_mod {x m lo n : Nat} (h : lo + n ≤ m) : x % 2 ^ m / 2 ^ lo % 2 ^ n = x / 2 ^ lo % 2 ^ n := by
  refine Nat.eq_of_testBit_eq (fun i => ?_)
  simp only [Nat.testBit_mod_two_pow, Nat.testBit_div_two_pow]
  by_cases hi : i < n
  · simp [hi, show i + lo < m by omega]
  · simp [hi]

/-- A number with its low bits replaced. -/
theorem replaceLow_testBit (d x m i : Nat) :
    (d / 2 ^ m * 2 ^ m + x % 2 ^ m).testBit i = if i < m then x.testBit i else d.testBit i := by
  rw [Nat.mul_comm, Nat.testBit_two_pow_mul_add _ (Nat.mod_lt _ (Nat.two_pow_pos _)), Nat.testBit_mod_two_pow,
    Nat.testBit_div_two_pow]
  by_cases hi : i < m
  · simp [hi]
  · simp [hi, Nat.sub_add_cancel (Nat.not_lt.1 hi)]

theorem replaceLow_lt {d m n : Nat} (x : Nat) (hd : d < 2 ^ n) (hm : m ≤ n) : d / 2 ^ m * 2 ^ m + x % 2 ^ m < 2 ^ n := by
  refine Nat.lt_pow_two_of_testBit _ (fun j hj => ?_)
  rw [replaceLow_testBit, if_neg (by omega)]
  exact Nat.testBit_lt_two_pow (hd.trans_le (Nat.pow_le_pow_right (by omega) hj))

theorem replaceLow_toNat {n m : Nat} (old : BitVec n) (hm : m ≤ n) (x : Nat) :
    (BitVec.ofNat n (old.toNat / 2 ^ m * 2 ^ m + x % 2 ^ m)).toNat = old.toNat / 2 ^ m * 2 ^ m + x % 2 ^ m := by
  rw [BitVec.toNat_ofNat]
  exact Nat.mod_eq_of_lt (replaceLow_lt x old.isLt hm)

/-- The low bits of a line come from the new bytes, the others stay as they were. -/
theorem mergeLow_testBit (old : BitVec 512) {m : Nat} (hm : m ≤ 64) (x i : Nat) :
    (mergeLow old m x).toNat.testBit i = if i < 8 * m then x.testBit i else old.toNat.testBit i := by
  rw [mergeLow, replaceLow_toNat _ (by omega), replaceLow_testBit]

theorem mergeLow_field (old : BitVec 512) {m x lo n : Nat} (hm : m ≤ 64) (h : lo + n ≤ 8 * m) :
    (mergeLow old m x).toNat / 2 ^ lo % 2 ^ n = x / 2 ^ lo % 2 ^ n := by
  refine Nat.eq_of_testBit_eq (fun i => ?_)
  simp only [Nat.testBit_mod_two_pow, Nat.testBit_div_two_pow, mergeLow_testBit old hm]
  by_cases hi : i < n
  · simp [hi, show i + lo < 8 * m by omega]
  · simp [hi]

theorem mergeLow_field_above (old : BitVec 512) {m x lo n : Nat} (hm : m ≤ 64) (h : 8 * m ≤ lo) :
    (mergeLow old m x).toNat / 2 ^ lo % 2 ^ n = old.toNat / 2 ^ lo % 2 ^ n := by
  refine Nat.eq_of_testBit_eq (fun i => ?_)
  simp only [Nat.testBit_mod_two_pow, Nat.testBit_div_two_pow, mergeLow_testBit old hm, show ¬ i + lo < 8 * m by omega, if_false]

/-! ### Bytes written into lines -/

section
variable {c : Core}

theorem treeWf_putBytes (w : c.TreeWf) (fuel line : Nat) (l : List Byte) : (c.putBytes fuel line l).TreeWf := by
  induction fuel generalizing c line l with
  | zero => exact w
  | succ fuel ih =>
    rw [Core.putBytes]
    split
    · exact w
    · refine ih (treeWf_setLine ?_ _ _) _ _
      split <;> exact w

/-- Each line that the bytes reach has them in its low bytes; every bit and every other line stay as they are. -/
theorem line_putBytes (w : c.TreeWf) (fuel line : Nat) (l : List Byte) (hl : l.length ≤ 64 * fuel) (k : Nat) :
    (c.putBytes fuel line l).line k = if line ≤ k ∧ 64 * (k - line) < l.length then
        ⟨mergeLow (c.line k).data (min 64 (l.length - 64 * (k - line))) (natOfBytes ((l.drop (64 * (k - line))).take 64)),
          (c.line k).full⟩
      else c.line k := by
  induction fuel generalizing c line l with
  | zero => rw [if_neg (by omega)]; rfl
  | succ fuel ih =>
    rw [Core.putBytes]
    by_cases he : l = []
    · simp [he]
    · have hpos : 0 < l.length := List.length_pos_iff.2 he
      rw [if_neg (by simpa using he)]
      set d : Core := if l.length < 64 then c else c.healLine line
      have hw : d.TreeWf := by unfold d; split <;> exact w
      have hd : ∀ n, d.line n = c.line n := fun n => by unfold d; split <;> rfl
      rw [ih (c := d.putData ..) (treeWf_setLine hw _ _) _ _ (by simp; omega), List.length_drop, List.drop_drop]
      by_cases hk : k = line
      · subst hk
        rw [if_neg (by omega), if_pos (by omega), Core.putData, line_setLine_same hw, hd]
        simp
      · rw [Core.putData, line_setLine_other hw _ hk, hd]
        by_cases hr : line ≤ k ∧ 64 * (k - line) < l.length
        · have h1 : 64 + 64 * (k - (line + 1)) = 64 * (k - line) := by omega
          have h2 : l.length - 64 - 64 * (k - (line + 1)) = l.length - 64 * (k - line) := by omega
          rw [if_pos hr, if_pos (by omega), h1, h2]
        · rw [if_neg hr, if_neg (by omega)]

/-- A field of w bytes within one line and within the bytes written. -/
theorem treeNat_putBytes (hw : c.TreeWf) {fuel line a w : Nat} {l : List Byte} (hl : l.length ≤ 64 * fuel) (ha : a % 64 + w ≤ 64)
    (h : a + w ≤ l.length) (hpos : 0 < w) :
    (c.putBytes fuel line l).treeNat (64 * line + a) w = natOfBytes l / 2 ^ (8 * a) % 2 ^ (8 * w) := by
  have hk : (64 * line + a) / 64 = line + a / 64 := by omega
  have hb : (64 * line + a) % 64 = a % 64 := by omega
  have hi : line + a / 64 - line = a / 64 := by omega
  rw [Core.treeNat, hk, hb, line_putBytes hw _ _ _ hl, if_pos (by omega), hi]
  rw [mergeLow_field _ (by omega) (by omega)]
  have hsplit : 8 * a = 8 * (64 * (a / 64)) + 8 * (a % 64) := by omega
  rw [hsplit, Nat.pow_add, ← Nat.div_div_eq_div_mul, ← natOfBytes_drop l (n := 64 * (a / 64)) (by omega)]
  by_cases hlong : 64 ≤ (l.drop (64 * (a / 64))).length
  · rw [natOfBytes_take _ hlong, field_mod (by omega)]
  · rw [List.take_of_length_le (by omega)]

/-- A field of w bytes within one line and beyond the bytes written. -/
theorem treeNat_putBytes_beyond (hw : c.TreeWf) {fuel line a w : Nat} {l : List Byte} (hl : l.length ≤ 64 * fuel) (h : l.length ≤ a) :
    (c.putBytes fuel line l).treeNat (64 * line + a) w = c.treeNat (64 * line + a) w := by
  have hk : (64 * line + a) / 64 = line + a / 64 := by omega
  have hb : (64 * line + a) % 64 = a % 64 := by omega
  rw [Core.treeNat, Core.treeNat, hk, hb, line_putBytes hw _ _ _ hl]
  split
  · have hi : line + a / 64 - line = a / 64 := by omega
    exact mergeLow_field_above _ (Nat.min_le_left _ _) (by rw [hi]; omega)
  · rfl

theorem foldl_setFull_treeNat (w : c.TreeWf) (l : List Nat) (b : Bool) (a n : Nat) :
    (l.foldl (fun c n => c.setFull n b) c).treeNat a n = c.treeNat a n := by
  rw [Core.treeNat, Core.treeNat, foldl_setFull_line w]
  split <;> rfl

/-- Bytes written into lines change the tree and the list of lost lines alone. -/
theorem putBytes_frame (c : Core) (fuel line : Nat) (l : List Byte) :
    ∃ x y, c.putBytes fuel line l = { c with tree := x, treeLost := y } := by
  induction fuel generalizing c line l with
  | zero => exact ⟨_, _, rfl⟩
  | succ fuel ih =>
    rw [Core.putBytes]
    split
    · exact ⟨_, _, rfl⟩
    · obtain ⟨x, y, h⟩ := ih (Core.putData (if l.length < 64 then c else c.healLine line) line
        (mergeLow (c.line line).data (min 64 l.length) (natOfBytes (l.take 64)))) (line + 1) (l.drop 64)
      rw [h]
      split <;> exact ⟨_, _, rfl⟩

theorem foldl_setFull_frame (c : Core) (l : List Nat) (b : Bool) : ∃ x, l.foldl (fun c n => c.setFull n b) c = { c with tree := x } := by
  induction l generalizing c with
  | nil => exact ⟨_, rfl⟩
  | cons n l ih =>
    obtain ⟨x, h⟩ := ih (c.setFull n b)
    exact ⟨x, h⟩

end

/-! ### Lines of a list -/

theorem mem_rangeFrom {a n k : Nat} : k ∈ rangeFrom a n ↔ a ≤ k ∧ k < a + n := by
  simp only [rangeFrom, List.mem_map, List.mem_range]
  exact ⟨fun ⟨i, hi, he⟩ => by omega, fun ⟨h1, h2⟩ => ⟨k - a, by omega, by omega⟩⟩

theorem mem_dedup {a : Nat} {l : List Nat} : a ∈ dedup l ↔ a ∈ l := by
  induction l with
  | nil => rfl
  | cons b l ih =>
    rw [dedup, List.mem_cons]
    by_cases hb : (dedup l).contains b = true
    · rw [if_pos hb, ih]
      refine ⟨Or.inr, ?_⟩
      rintro (rfl | h)
      · exact ih.1 (by simpa using hb)
      · exact h
    · rw [if_neg hb, List.mem_cons, ih]

end Sys2Proof.Machine
end

section
/-!
PROOFS. A lane-wise result stands in the tree (R60, R132, R136): O26.
-/
namespace Sys2Proof.Machine

/-! ### The results of a lane-wise word -/

@[simp] theorem laneResults_length (n : Nat) (act : Nat → Bool) (f : Nat → Nat × BitVec 5) : (laneResults n act f).length = n := by
  rw [laneResults, List.length_map, List.length_range]

theorem laneResults_lane {n i : Nat} (act : Nat → Bool) (f : Nat → Nat × BitVec 5) (hi : i < n) :
    ((laneResults n act f).map (·.1)).getD i 0 = if act i then (f i).1 else 0 := by
  rw [laneResults, List.map_map, List.getD_eq_getElem?_getD, List.getElem?_map, List.getElem?_range hi]
  by_cases ha : act i = true <;> simp [ha]

/-! ### Vector words outside a region -/

section
variable {c : Core} (hr : c.vec.regions = [])
include hr

theorem vecMark_outside (n : Nat) (b : Bool) : c.vecMark n b = c.setFull n b := by
  rw [Core.vecMark, hr]

theorem foldl_vecMark_outside (l : List Nat) (b : Bool) :
    l.foldl (fun c n => c.vecMark n b) c = l.foldl (fun c n => c.setFull n b) c := by
  induction l generalizing c with
  | nil => rfl
  | cons n l ih =>
    rw [List.foldl_cons, List.foldl_cons, vecMark_outside hr]
    exact ih hr

theorem vecFlags_outside (f : BitVec 5) : c.vecFlags f = c.orFlags f := by
  rw [Core.vecFlags, hr]

end

/-- The core once a lane-wise result is written and its lines are full. -/
def Core.lanesWritten (c : Core) (line w : Nat) (l : List Nat) : Core :=
  (dedup (rangeFrom line (linesFor (w * l.length)))).foldl (fun c n => c.setFull n true) (c.putBytes 64 line (lanesBytes w l))

theorem lanesWritten_frame (c : Core) (line w : Nat) (l : List Nat) :
    ∃ x y, c.lanesWritten line w l = { c with tree := x, treeLost := y } := by
  obtain ⟨x, y, h⟩ := putBytes_frame c 64 line (lanesBytes w l)
  obtain ⟨z, hz⟩ := foldl_setFull_frame (c.putBytes 64 line (lanesBytes w l)) (dedup (rangeFrom line (linesFor (w * l.length)))) true
  exact ⟨z, y, by rw [Core.lanesWritten, hz, h]⟩

/-- Outside a region, the effect of a vector word that consumes nothing and leaves its engine's own registers: the core c that it leaves
once its result is written and marked, its flags, and what other streams saw of it. -/
theorem vecEffect_outside {s : State} {o : VOut} {c : Core}
    (hc : (dedup o.full).foldl (fun c n => c.vecMark n true) (o.dst.foldl (fun c d => c.putBytes 64 d.1 d.2) s.core) = c)
    (hr : c.vec.regions = []) (hp : o.post = id) :
    ∃ x, s.vecEffect [] o = State.engNext { s with core := Core.orFlags { c with effects := x } o.flags } .vec := by
  simp only [State.vecEffect, dedup, List.foldl_nil, hc, hp, id]
  split
  · exact ⟨c.effects, by rw [vecFlags_outside hr]⟩
  · exact ⟨_, by rw [vecFlags_outside (c := c.touch .vec s.now false) hr]; rfl⟩

/-- Stated apart, so that the kernel compares no `putBytes` with a list it is folded over. -/
theorem foldl_one {α β : Type} (f : β → α → β) (c : β) (a : α) : [a].foldl f c = f c a := rfl

theorem laneOut_written {c : Core} (hr : c.vec.regions = []) (line w : Nat) (r : List (Nat × BitVec 5)) :
    (dedup (laneOut line w r).full).foldl (fun c n => c.vecMark n true)
      ((laneOut line w r).dst.foldl (fun c d => c.putBytes 64 d.1 d.2) c) = c.lanesWritten line w (r.map (·.1)) := by
  have hdst : (laneOut line w r).dst.foldl (fun c d => c.putBytes 64 d.1 d.2) c = c.putBytes 64 line (lanesBytes w (r.map (·.1))) :=
    foldl_one _ _ _
  rw [hdst, laneOut]
  obtain ⟨x, y, h⟩ := putBytes_frame c 64 line (lanesBytes w (r.map (·.1)))
  rw [foldl_vecMark_outside (by rw [h]; exact hr), Core.lanesWritten, List.length_map]

/-- Outside a region, a lane-wise word that consumes nothing writes its result to the tree, raises its flags and goes on; beside that it
changes only what the model notes of its last access and of what other streams saw of it. -/
theorem lanesRetired_outside {s : State} {srcs : List VSrc} (pd : Placed) (w : Nat) (f : Nat → Nat × BitVec 5)
    (hr : s.core.vec.regions = []) (he : eatenLines srcs = []) :
    let r := laneResults s.core.vec.shape.lanes s.core.vec.active f
    ∃ x, s.lanesRetired srcs pd w f =
      { s with core := { s.core.lanesWritten pd.line w (r.map (·.1)) with
          effects := x
          seq := { s.core.seq with flags := s.core.seq.flags ||| resultFlags r }
          vec := { s.core.vec with
            lastVp := none
            eng := { s.core.vec.eng with st := .run, pc := s.core.vec.eng.pc + 4, retired := s.now } } } } := by
  intro r
  obtain ⟨y, z, hc⟩ := lanesWritten_frame s.core pd.line w (r.map (·.1))
  have hw := laneOut_written hr pd.line w r
  rw [hc] at hw
  obtain ⟨x, hx⟩ := vecEffect_outside hw hr rfl
  refine ⟨x, ?_⟩
  rw [State.lanesRetired, State.vecRetired, he, hx, hc, ← newVp_same s.core.vec]
  rfl

/-! ### The lines and bytes of a lane-wise result -/

section
variable {c : Core} {line w : Nat} {l : List Nat} (hw : c.TreeWf)
include hw

theorem lanesWritten_line (n : Nat) : (c.lanesWritten line w l).line n =
    let d := (c.putBytes 64 line (lanesBytes w l)).line n
    if line ≤ n ∧ n < line + linesFor (w * l.length) then { d with full := true } else d := by
  rw [Core.lanesWritten, foldl_setFull_line (treeWf_putBytes hw _ _ _)]
  simp only [mem_dedup, mem_rangeFrom]

theorem lanesWritten_treeNat (a n : Nat) :
    (c.lanesWritten line w l).treeNat a n = (c.putBytes 64 line (lanesBytes w l)).treeNat a n := by
  rw [Core.lanesWritten, foldl_setFull_treeNat (treeWf_putBytes hw _ _ _)]

variable (hl : w * l.length ≤ 256)
include hl

theorem lanesWritten_line_outside {n : Nat} (hn : n < line ∨ line + linesFor (w * l.length) ≤ n) :
    (c.lanesWritten line w l).line n = c.line n := by
  rw [lanesWritten_line hw, if_neg (by omega), line_putBytes hw _ _ _ (by rw [lanesBytes_length]; omega), if_neg]
  rw [lanesBytes_length]
  rw [linesFor, ceilDiv] at hn
  omega

/-- Lane i reads as it was computed; no lane straddles two lines. -/
theorem lanesWritten_lane (h64 : 64 % w = 0) (hpos : 0 < w) {i : Nat} (hi : i < l.length) :
    (c.lanesWritten line w l).treeNat (64 * line + w * i) w = l.getD i 0 % 2 ^ (8 * w) := by
  have hfit : w * i + w ≤ w * l.length := by rw [← Nat.mul_succ]; exact Nat.mul_le_mul_left w hi
  have hin : w * i % 64 + w ≤ 64 := by
    obtain ⟨k, hk⟩ := Nat.dvd_of_mod_eq_zero h64
    have hlt : i % k < k := Nat.mod_lt _ (Nat.pos_of_ne_zero (fun h => by simp [h] at hk))
    rw [hk, Nat.mul_mod_mul_left, ← Nat.mul_succ]
    exact Nat.mul_le_mul_left w hlt
  rw [lanesWritten_treeNat hw, treeNat_putBytes hw (by rw [lanesBytes_length]; omega) hin (by rw [lanesBytes_length]; exact hfit) hpos,
    natOfBytes_lanesBytes]

theorem lanesWritten_byte_beyond {j : Nat} (hj : w * l.length ≤ j) :
    (c.lanesWritten line w l).treeByte (64 * line + j) = c.treeByte (64 * line + j) := by
  rw [Core.treeByte, Core.treeByte, lanesWritten_treeNat hw,
    treeNat_putBytes_beyond hw (by rw [lanesBytes_length]; omega) (by rw [lanesBytes_length]; exact hj)]

end

/-! ### The obligation -/

/-- Settles O26: integers modulo the lane width, and the tree after `lanesRetired_outside`. -/
theorem laneResultsWrapAndStandInTheTree : Obligations.LaneResultsWrapAndStandInTheTree := by
  unfold Obligations.LaneResultsWrapAndStandInTheTree
  refine ⟨?_, ?_⟩
  · intro t x y hf _ m less hx hy
    have hless : ∀ {a b : Nat}, a < m → b < m → (less a b ↔ intLane t a < intLane t b) := fun ha hb => intLane_lt_iff ha hb
    refine ⟨laneArith_add hf, laneArith_sub hf hy.le, laneArith_mul hf, laneFma_int hf x, laneNeg_int hf hx.le, ?_⟩
    have hhalf : m / 2 = 2 ^ (t.bitsW - 1) := Nat.pow_div (x := 2) (n := 1) (m := t.bitsW) (by cases t <;> decide) (by decide)
    rw [laneMin_int hf, laneMax_int hf, laneAbs_int hf hx, hhalf]
    refine ⟨?_, ?_, ?_, ?_, ?_, ?_, rfl⟩
    · split <;> simp
    · split <;> simp only [hless hx hx, hless hx hy] <;> omega
    · split <;> simp only [hless hy hx, hless hy hy] <;> omega
    · split <;> simp
    · split <;> simp only [hless hx hx, hless hy hx] <;> omega
    · split <;> simp only [hless hx hy, hless hy hy] <;> omega
  · intro s srcs pd w f c t hw hc hcw h64 hr he hwf
    obtain ⟨x, hx⟩ := lanesRetired_outside pd w f hr he
    have ht : t = _ := hx
    set l : List Nat := (laneResults c s.core.vec.active f).map (·.1) with hl
    have hlen : l.length = c := by rw [hl, List.length_map, laneResults_length]
    have hw256 : w * l.length ≤ 256 := by rw [hlen, Nat.mul_comm]; exact hcw
    obtain ⟨y, z, hframe⟩ := lanesWritten_frame s.core pd.line w l
    have hlane : ∀ i < c, (s.core.lanesWritten pd.line w l).treeNat (64 * pd.line + w * i) w =
        if s.core.vec.active i then (f i).1 % 2 ^ (8 * w) else 0 := fun i hi => by
      rw [lanesWritten_lane hwf hw256 h64 hw (hlen.symm ▸ hi), hl, laneResults_lane _ _ hi]
      split <;> simp
    have hin := lanesWritten_line hwf (line := pd.line) (w := w) (l := l)
    have hout := fun n => lanesWritten_line_outside hwf hw256 (line := pd.line) (n := n)
    have hbyte := fun j => lanesWritten_byte_beyond hwf hw256 (line := pd.line) (j := j)
    clear_value t
    clear hx
    subst ht
    generalize s.core.lanesWritten pd.line w l = u at *
    rw [hlen] at hin hout hbyte
    refine ⟨fun i hi => ?_, fun n h1 h2 => ?_, hout, fun j hj => hbyte j (Nat.mul_comm c w ▸ hj), rfl, rfl, ⟨rfl, rfl, rfl⟩, ?_⟩
    · rw [Core.lanes, List.getD_eq_getElem?_getD, List.getElem?_map, List.getElem?_range hi]
      exact hlane i hi
    · refine (congrArg Line.full (hin n)).trans ?_
      rw [if_pos ⟨h1, h2⟩]
    · rw [hframe]
      exact ⟨rfl, rfl, rfl, rfl⟩

end Sys2Proof.Machine
end

section
/-!
PROOFS. Accumulate words add up a k-step (R61, R113 to R117, R127, R128): O32.
-/
namespace Sys2Proof.Machine

/-! ### Lines that a matrix word reads -/

theorem matTest_readable {s : State} {lines : List Nat} (h : s.matReadable lines) (w : Bool) : s.matTest lines w = none := by
  have h1 : lines.find? (fun n => s.core.mat.heldLines.contains n) = none :=
    List.find?_eq_none.2 (fun n hn => by simp [(h n hn).1])
  have h2 : lines.find? (fun n => !(s.core.line n).full) = none := List.find?_eq_none.2 (fun n hn => by simp [(h n hn).2.1])
  have h3 : lines.find? (fun n => s.core.treeLost.contains n) = none := List.find?_eq_none.2 (fun n hn => by simp [(h n hn).2.2])
  simp only [State.matTest, h1, h2, h3, Option.map_none]

section
variable (c : Core) (p : Placed) (lines : List Nat)

theorem foldl_setFull_mat (b : Bool) : (lines.foldl (fun c n => c.setFull n b) c).mat = c.mat :=
  foldl_keeps (f := fun (c : Core) n => c.setFull n b) Core.mat (fun _ _ => rfl) lines c

theorem foldl_setFull_updMat (f : MatEngine → MatEngine) (b : Bool) :
    lines.foldl (fun c n => c.setFull n b) (c.updMat f) = (lines.foldl (fun c n => c.setFull n b) c).updMat f :=
  List.foldl_hom (Core.updMat · f) (fun _ _ => rfl)

/-- The consume marks of a read and the governor's account do not meet. -/
theorem matRead_spend (a : Nat) (b : Option Nat) : (c.updMat (fun m => { m with spent := a, issues := b })).matRead p lines =
    (c.matRead p lines).updMat (fun m => { m with spent := a, issues := b }) := by
  simp only [Core.matRead, Core.matConsume]
  split
  · simp only [Core.updMat_mat, foldl_setFull_updMat]
    split <;> rfl
  · rfl

theorem matRead_spent : (c.matRead p lines).mat.spent = c.mat.spent := by
  simp only [Core.matRead, Core.matConsume]
  split
  · split
    · rw [foldl_setFull_mat]
    · rfl
  · rfl

end

/-- A matrix word whose effect on the core is c retires. -/
theorem issueMat_matDone (s : State) (c : Core) : s.issueMat (s.matDone c) = s.matRetired c := rfl

/-! ### The k-step -/

/-- Accumulator i after a k-step (R61). -/
def State.stepAcc (s : State) (k : BKind) (line row p i : Nat) : Int :=
  accAdd (sparseGet 0 s.core.mat.acc i)
    (if inSegment s.core.mat.seg (i / 64) (i % 64) then s.stepSum k line row p (i / 64) (i % 64) else 0)

theorem kstep_acc (s : State) (k : BKind) (line row p : Nat) : (s.kstep k line row p).1 =
    (List.range' 0 4096).filterMap (fun i => if s.stepAcc k line row p i = 0 then none else some (i, s.stepAcc k line row p i)) := by
  simp only [State.kstep, ← List.map_prod_left_eq_zip, List.map_map, List.filterMap_map, List.range_eq_range']
  exact List.filterMap_congr (fun i _ => rfl)

theorem kstep_get (s : State) (k : BKind) (line row p : Nat) {x y : Nat} (hx : x < 64) (hy : y < 64) :
    sparseGet 0 (s.kstep k line row p).1 (64 * x + y) = accAdd (sparseGet 0 s.core.mat.acc (64 * x + y))
      (if inSegment s.core.mat.seg x y then s.stepSum k line row p x y else 0) := by
  rw [kstep_acc, sparseGet_listed, if_pos (by omega), State.stepAcc, show (64 * x + y) / 64 = x by omega,
    show (64 * x + y) % 64 = y by omega]

/-- What a pending perturbation adds to an element in the first k-step (R121). -/
def MatEngine.pertAt (m : MatEngine) (p x y : Nat) : Int := match m.pert with
  | some q => if p = 0 ∧ q.row = x ∧ q.col = y then q.val else 0
  | none => 0

theorem stepSum_eq (s : State) (k : BKind) (line row p x y : Nat) : s.stepSum k line row p x y =
    ((List.range 32).map (fun j => sextNat 8 (s.core.treeNat (64 * line + 32 * x + j) 1) * s.core.weight k row j y)).sum +
      s.core.mat.pertAt p x y := by
  rw [State.stepSum, MatEngine.pertAt, List.sum_eq_foldl]
  cases s.core.mat.pert with
  | none => exact (Int.add_zero _).symm
  | some q =>
    dsimp only
    split
    · rfl
    · exact (Int.add_zero _).symm

/-! ### The values of planes (R115) -/

/-- n + 1 planes are enough for a number whose magnitude is at most 2^n. -/
theorem nafSum_eq (n i : Nat) (x : Int) (hl : -2 ^ n ≤ x) (hu : x ≤ 2 ^ n) : nafSum (n + 1) i x = x * 2 ^ i := by
  induction n generalizing i x with
  | zero =>
    have hx : x = -1 ∨ x = 0 ∨ x = 1 := by omega
    rcases hx with rfl | rfl | rfl <;> simp [nafSum]
  | succ n ih =>
    rw [pow_succ] at hl hu
    rw [nafSum]
    set d : Int := if x % 2 = 0 then 0 else 2 - x % 4 with hd
    have hdx : x = d + (x - d) / 2 * 2 := by split at hd <;> omega
    rw [ih _ _ (by split at hd <;> omega) (by split at hd <;> omega), pow_succ]
    linear_combination -(2 ^ i : Int) * hdx

theorem sextNat_bounds {n x : Nat} (hn : 0 < n) : -2 ^ (n - 1) ≤ sextNat n x ∧ sextNat n x ≤ 2 ^ (n - 1) := by
  have hp : (2 : Int) ^ n = 2 ^ (n - 1) * 2 := by rw [← pow_succ, Nat.sub_add_cancel hn]
  have hlt : ((x % 2 ^ n : Nat) : Int) < 2 ^ n := by exact_mod_cast Nat.mod_lt x (Nat.two_pow_pos n)
  have h0 : (0 : Int) ≤ ((x % 2 ^ n : Nat) : Int) := Int.natCast_nonneg _
  unfold sextNat
  push_cast at *
  split
  · next h => 
    have : ((x % 2 ^ n : Nat) : Int) < 2 ^ (n - 1) := by exact_mod_cast h
    push_cast at this
    omega
  · next h =>
    have : (2 : Int) ^ (n - 1) ≤ ((x % 2 ^ n : Nat) : Int) := by exact_mod_cast Nat.not_lt.1 h
    push_cast at this
    omega

theorem planeValue_eight (x : Nat) : planeValue 8 x = sextNat 8 x := by
  obtain ⟨hl, hu⟩ := sextNat_bounds (x := x) (show 0 < 8 by decide)
  exact (nafSum_eq 7 0 _ hl hu).trans (mul_one _)

/-! ### What the k-step at issue reads (R127) -/

/-- What it has read before changes the lines and the rows as it reads them, and nothing else. -/
theorem asRead_keeps {γ : Type} (g : Core → γ)
    (hl : ∀ (c : Core) (x : Nat × BitVec 512), g ((c.setLine x.1 ⟨x.2, true⟩).healLine x.1) = g c)
    (hr : ∀ (c : Core) (x : Nat × BitVec 2048),
      g { c.setWbRow x.1 x.2 with wbLost := c.wbLost.filter (fun n => decide (n ≠ x.1)) } = g c) (c : Core) : g c.asRead = g c := by
  rw [Core.asRead]
  split
  · rfl
  · rw [foldl_keeps g hr, foldl_keeps g hl]

section
variable (s : State)

@[simp] theorem asRead_mat : s.asRead.core.mat = s.core.mat := asRead_keeps Core.mat (fun _ _ => rfl) (fun _ _ => rfl) s.core

@[simp] theorem asRead_views : s.asRead.core.views = s.core.views := asRead_keeps Core.views (fun _ _ => rfl) (fun _ _ => rfl) s.core

@[simp] theorem asRead_res : s.asRead.core.res = s.core.res := asRead_keeps Core.res (fun _ _ => rfl) (fun _ _ => rfl) s.core

theorem asRead_matPlace (t : TreeOp) (n kind : Nat) : s.asRead.matPlace t n kind = s.matPlace t n kind := by
  simp only [State.matPlace, Core.place, Core.placeAt, asRead_mat, asRead_views, asRead_res]

end

/-- The weight buffer as the k-step at issue reads it is the table with the rows read before written into it. -/
theorem asRead_wb {c : Core} {g : StepReads} (h : c.mat.begun = some g) : c.asRead.wb = sparseSetAll 0 c.wb g.rows := by
  rw [Core.asRead, h]
  dsimp only
  rw [← foldl_keeps (f := fun (c : Core) (x : Nat × BitVec 512) => (c.setLine x.1 ⟨x.2, true⟩).healLine x.1) Core.wb
    (fun _ _ => rfl) g.lines c]
  exact (List.foldl_hom Core.wb (fun _ _ => rfl)).symm

theorem asRead_rows {s : State} {g : StepReads} (h : s.core.mat.begun = some g) (w : sparseWf 0 0 s.core.wb = true)
    (hn : (g.rows.map Prod.fst).Nodup) :
    (∀ x ∈ g.rows, s.asRead.core.wbRow x.1 = x.2) ∧
      ∀ n : Nat, n ∉ g.rows.map Prod.fst → s.asRead.core.wbRow n = s.core.wbRow n := by
  have hwb : s.asRead.core.wb = sparseSetAll 0 s.core.wb g.rows := asRead_wb h
  simp only [Core.wbRow, hwb]
  exact ⟨sparseGet_setAll_mem w hn, fun n => sparseGet_setAll_other w⟩

/-! ### The accumulate words -/

section
variable {s : State} {t : TreeOp} {row : BitVec 12} {k : BKind} {w : Bool} {r : Reduction} {pa : Placed}

theorem BKind.rows_pos (k : BKind) : 0 < k.rows := by
  cases k <;> exact Nat.succ_pos _

/-- The mode of the words that read a block (R106). -/
def BKind.mode : BKind → MatMode
  | .tern => .tern
  | .int8 _ => .int8
  | .sparseTern => .sparse
  | .sparseInt8 _ => .sparse

theorem BKind.fits_iff (k : BKind) (x : MatMode) : k.fits x = true ↔ x = k.mode := by
  cases k <;> cases x <;> simp [BKind.fits, BKind.mode]

theorem accumulate_no_reduction (ho : s.core.mat.openRed = none) : s.accumulate t row k w = s.issueMat (.stop codeIllegal) := by
  simp only [State.accumulate, State.accTest, asRead_mat, ho, EngIssue.waitingIn]

theorem accumulate_unfit (ho : s.core.mat.openRed = some r) (h : k.fits r.mode = false ∨ r.n ≤ r.p) :
    s.accumulate t row k w = s.issueMat (.stop codeIllegal) := by
  have hc : (!k.fits r.mode ∨ r.p ≥ r.n) := h.imp_left (fun h => by simp [h])
  simp only [State.accumulate, State.accTest, asRead_mat, ho, if_pos hc, EngIssue.waitingIn]

variable (ho : s.core.mat.openRed = some r) (hk : k.fits r.mode = true) (hr : r.p < r.n) (hp : s.matPlace t 32 kindTile = some pa)
  (hw : s.core.mat.base + row.toNat + k.rows ≤ s.core.res.wb)
  (hl : s.asRead.matReadable (segLines s.core.mat.seg pa.line 32))
  (hd : ∀ x ∈ rangeFrom (s.core.mat.base + row.toNat) k.rows, x ∉ s.asRead.core.wbLost)
  (hf : s.asRead.core.blockFault k (s.core.mat.base + row.toNat) = none)
include ho hk hr hp hw hl

theorem accTest_goes : s.asRead.accTest t row k w =
    .go pa (segLines s.core.mat.seg pa.line 32) (s.core.mat.base + row.toNat) r := by
  have hrows := k.rows_pos
  simp only [State.accTest, asRead_mat, asRead_res, asRead_matPlace, ho, hk, hp, matTest_readable hl]
  rw [if_neg (by simp [hr]), if_neg (by omega)]

include hd hf

/-- All checks passed, the word takes effect once the window's budget covers what is still due (R128). -/
theorem accumulate_goes : s.accumulate t row k w =
    let x := s.core.mat.spend (s.core.mat.issues.getD k.cycles)
    let u := s.updMat (fun _ => x.2)
    s.issueMat (if x.1 = 0 then
      u.doStep s.asRead k pa (segLines s.core.mat.seg pa.line 32) (s.core.mat.base + row.toNat) r else .wait 5 0 u) := by
  have hlost : (rangeFrom (s.core.mat.base + row.toNat) k.rows).any (fun n => s.asRead.core.wbLost.contains n) = false :=
    List.any_eq_false.2 (fun n hn => by simp [hd n hn])
  simp only [State.accumulate, accTest_goes ho hk hr hp hw hl, hlost, hf, Bool.false_eq_true, if_false]

/-- A k-step that the budget covers. -/
theorem accumulate_pays (hb : s.core.mat.issues.getD k.cycles ≤ s.core.mat.budget - s.core.mat.spent) :
    let x := s.asRead.kstep k pa.line (s.core.mat.base + row.toNat) r.p
    s.accumulate t row k w = s.matRetired (((s.core.matRead pa (segLines s.core.mat.seg pa.line 32)).updMat (fun m => { m with
      spent := m.spent + s.core.mat.issues.getD k.cycles, issues := none, begun := none, acc := x.1,
      reds := mapLast (fun r => { r with p := r.p + 1 }) m.reds })).matFlags (flagIf x.2 flagSatAcc)) := by
  intro x
  rw [accumulate_goes ho hk hr hp hw hl hd hf]
  have hs : s.core.mat.spend (s.core.mat.issues.getD k.cycles) =
      (0, { s.core.mat with spent := s.core.mat.spent + s.core.mat.issues.getD k.cycles, issues := some 0 }) := by
    have hmin : Nat.min (s.core.mat.issues.getD k.cycles) (s.core.mat.budget - s.core.mat.spent) = s.core.mat.issues.getD k.cycles :=
      Nat.min_eq_left hb
    simp only [MatEngine.spend, hmin, Nat.sub_self]
  rw [hs]
  have hc := matRead_spend s.core pa (segLines s.core.mat.seg pa.line 32) (s.core.mat.spent + s.core.mat.issues.getD k.cycles) (some 0)
  have hread := matRead_spent s.core pa (segLines s.core.mat.seg pa.line 32)
  change s.issueMat (s.matDone (Core.matFlags (Core.updMat (Core.matRead (s.core.updMat (fun m => { m with
    spent := s.core.mat.spent + s.core.mat.issues.getD k.cycles, issues := some 0 })) pa _) _) _)) = _
  rw [hc, issueMat_matDone, ← hread]
  rfl

/-- A k-step that the budget does not cover yet. -/
theorem accumulate_waits (hb : s.core.mat.budget - s.core.mat.spent < s.core.mat.issues.getD k.cycles) :
    s.accumulate t row k w = s.updMat (fun m => { m with
      spent := m.spent + (m.budget - m.spent), issues := some (s.core.mat.issues.getD k.cycles - (m.budget - m.spent)),
      eng := { m.eng with st := .wait 5 0 } }) := by
  rw [accumulate_goes ho hk hr hp hw hl hd hf]
  have hmin : Nat.min (s.core.mat.issues.getD k.cycles) (s.core.mat.budget - s.core.mat.spent) = s.core.mat.budget - s.core.mat.spent :=
    Nat.min_eq_right hb.le
  simp only [MatEngine.spend, hmin]
  rw [if_neg (by omega)]
  rfl

end

/-! ### The obligation -/

/-- Settles O32: every accumulate word is `State.accumulate` of its kind of block. -/
theorem matrixAccumulates : Obligations.MatrixAccumulates := by
  unfold Obligations.MatrixAccumulates
  intro s t row planes w r pa m b lines v acts
  have acts_of : ∀ (i : Instr) (k : BKind), exec i s = .next (s.accumulate t row k w) → acts i k k.mode k.rows k.cycles := by
    intro i k hi
    refine ⟨fun ho => ?_, fun ho h => ?_, fun ho hm hr hp hw hl hd hf => ⟨fun hb => ?_, fun hb => ?_⟩⟩
    · rw [hi, accumulate_no_reduction ho]; rfl
    · rw [hi, accumulate_unfit ho (h.imp_left (fun h => by rw [← Bool.not_eq_true, k.fits_iff]; exact h))]; rfl
    · refine ⟨_, _, hi.trans (congrArg Host.Outcome.next (accumulate_pays ho ((k.fits_iff _).2 hm) hr hp hw hl hd hf hb)), ?_⟩
      intro x y hx hy dot plus old
      rw [kstep_get _ _ _ _ _ hx hy, stepSum_eq, asRead_mat]
      rfl
    · rw [hi, accumulate_waits ho ((k.fits_iff _).2 hm) hr hp hw hl hd hf hb]
  exact ⟨acts_of _ .tern rfl, acts_of _ (.int8 (planes.val + 1)) rfl, acts_of _ .sparseTern rfl,
    acts_of _ (.sparseInt8 (planes.val + 1)) rfl, asRead_of_none, fun g h w hn => asRead_rows h w hn, fun x _ => planeValue_eight x⟩

end Sys2Proof.Machine
end

section
/-!
PROOFS. Retirements hold a tile, and the release of a slot writes it (R71, R72, R76, R118 to R120, R129): O33.
-/
namespace Sys2Proof.Machine

/-! ### The widths of results -/

theorem wrapInt_lt (n : Nat) (x : Int) : wrapInt n x < 2 ^ n := by
  have hp : (0 : Int) < 2 ^ n := by positivity
  have h := Int.emod_lt_of_pos x hp
  rw [wrapInt, Int.toNat_lt (Int.emod_nonneg x hp.ne')]
  exact_mod_cast h

theorem signBit_le (w : Nat) (neg : Bool) : signBit w neg ≤ 256 * 2 ^ w := by
  rw [signBit, Nat.pow_add, Nat.mul_comm]
  split <;> omega

/-- A float of w fraction bits has a sign bit and eight bits of exponent beside them. -/
theorem encodeF_lt (w : Nat) (v : FVal) : encodeF w v < 2 ^ (w + 9) := by
  have hp : 0 < 2 ^ w := Nat.two_pow_pos w
  rw [Nat.pow_add]
  cases v with
  | nan =>
    have hh : 2 ^ (w - 1) ≤ 2 ^ w := Nat.pow_le_pow_right (by decide) (Nat.sub_le _ _)
    rw [encodeF, nanBits]
    omega
  | inf n =>
    have hs := signBit_le w n
    rw [encodeF, infBits]
    omega
  | fin n m e =>
    have hs := signBit_le w n
    rw [encodeF]
    omega

theorem segFill_lt (v : BitVec 512) : segFill v < 2 ^ 32 := Nat.mod_lt _ (by decide)

/-- A retired element fits its place in the tile. -/
theorem retElem_lt (c : Core) (fmt : RetFmt) (line x y : Nat) : (c.retElem fmt line x y).1 < 2 ^ (8 * fmt.width) := by
  have hfill := segFill_lt c.mat.seg
  by_cases h : inSegment c.mat.seg x y = true
  · cases fmt <;> simp only [Core.retElem, h, if_true]
    case bf16 => exact encodeF_lt 7 _
    case raw => exact wrapInt_lt 32 _
    all_goals exact encodeF_lt 23 _
  · cases fmt <;> simp only [Core.retElem, h, Bool.false_eq_true, if_false]
    case bf16 => exact Nat.div_lt_of_lt_mul (k := 65536) hfill
    all_goals exact hfill

/-! ### The retired tile (R71, R72) -/

theorem ofNat_field {n lo w : Nat} (x : Nat) (h : lo + w ≤ n) : (BitVec.ofNat n x).toNat / 2 ^ lo % 2 ^ w = x / 2 ^ lo % 2 ^ w := by
  rw [BitVec.toNat_ofNat]
  exact field_mod h

/-- The elements of line i of a retired tile. -/
def Core.retLine (c : Core) (fmt : RetFmt) (line i : Nat) : List Nat :=
  (List.range (64 / fmt.width)).map (fun j => (c.retElem fmt line ((i * (64 / fmt.width) + j) / 64) ((i * (64 / fmt.width) + j) % 64)).1)

theorem retTile_eq (c : Core) (fmt : RetFmt) (line : Nat) : (c.retTile fmt line).1 = (List.range fmt.lines).map (fun i =>
    (line + i, BitVec.ofNat 512 (natOfBytes (lanesBytes fmt.width (c.retLine fmt line i))))) := by
  simp only [Core.retTile, Core.retLine, List.map_map]
  rfl

theorem retTile_lines (c : Core) (fmt : RetFmt) (line : Nat) : (c.retTile fmt line).1.map Prod.fst = rangeFrom line fmt.lines := by
  rw [retTile_eq, List.map_map]
  rfl

/-- Element (x, y) of a retired tile is the one computed for it. -/
theorem retTile_elem (c : Core) (fmt : RetFmt) (line : Nat) {x y : Nat} (hx : x < 64) (hy : y < 64) :
    tileElem (c.retTile fmt line).1 fmt.width x y = (c.retElem fmt line x y).1 := by
  have hper : fmt.width * (64 / fmt.width) = 64 := by cases fmt <;> rfl
  have hall : 64 / fmt.width * fmt.lines = 4096 := by cases fmt <;> rfl
  have hpos : 0 < fmt.width := by cases fmt <;> decide
  rw [← Nat.mod_eq_of_lt (retElem_lt c fmt line x y)]
  generalize hp : 64 / fmt.width = per at hper hall
  have hper0 : 0 < per := Nat.pos_of_ne_zero (fun h => by simp [h] at hper)
  set e := 64 * x + y with he
  have hj : e % per < per := Nat.mod_lt _ hper0
  have hi : e / per < fmt.lines := Nat.div_lt_of_lt_mul (by omega)
  have hwj : fmt.width * (e % per) + fmt.width ≤ 64 := by
    rw [← Nat.mul_succ, ← hper]; exact Nat.mul_le_mul_left _ hj
  have hb : fmt.width * e = 64 * (e / per) + fmt.width * (e % per) := by
    conv_lhs => rw [← Nat.div_add_mod e per, Nat.mul_add, ← Nat.mul_assoc, hper]
  have hdiv : fmt.width * e / 64 = e / per := by omega
  have hmod : fmt.width * e % 64 = fmt.width * (e % per) := by omega
  have hline : (c.retLine fmt line (e / per)).getD (e % per) 0 = (c.retElem fmt line x y).1 := by
    rw [Core.retLine, hp, List.getD_eq_getElem?_getD, List.getElem?_map, List.getElem?_range hj, Option.map_some, Option.getD_some,
      Nat.div_add_mod', show e / 64 = x by omega, show e % 64 = y by omega]
  rw [tileElem, ← he, hdiv, hmod, retTile_eq, List.getD_eq_getElem?_getD, List.getElem?_map, List.getElem?_range hi, Option.map_some,
    Option.getD_some, ofNat_field _ (by omega), natOfBytes_lanesBytes, hline]

/-! ### The retirements (R118) -/

section
variable {s : State} {t : TreeOp} {fmt : RetFmt} {r : Reduction} {pd : Placed}

theorem retire_no_reduction (ho : s.core.mat.openRed = none) : s.retire t fmt = s.issueMat (.stop codeIllegal) := by
  simp only [State.retire, ho]

theorem retire_early (ho : s.core.mat.openRed = some r) (hp : r.p ≠ r.n) : s.retire t fmt = s.issueMat (.stop codeIllegal) := by
  simp only [State.retire, ho, if_pos hp]

variable (ho : s.core.mat.openRed = some r) (hr : r.p = r.n) (hp : s.matPlace t fmt.lines kindVec = some pd)
include ho hr hp

theorem retire_full (hh : 2 ≤ s.core.mat.held.length) : s.retire t fmt = s.engWaits .mat 6 0 := by
  simp only [State.retire, ho, hr, ne_eq, not_true_eq_false, if_false, hp, ge_iff_le, if_pos hh]
  rfl

theorem retire_goes (hh : s.core.mat.held.length < 2) {lines : List Nat}
    (hl : (if fmt = .f32Add then segLines s.core.mat.seg pd.line 256 else []) = lines) (hread : s.matReadable lines) :
    let x := s.core.retTile fmt pd.line
    s.retire t fmt = s.matRetired (((s.core.matRead pd lines).matFlags (flagIf x.2 flagSatAcc)).updMat (fun m => { m with
      pert := none, atRet := m.eng.stopReq || s.crewStopping s.core.crewNum,
      reds := mapLast (fun r => { r with tile := some ⟨x.1, pd.wwait, s.now⟩ }) m.reds })) := by
  simp only [State.retire, ho, hr, ne_eq, not_true_eq_false, if_false, hp, ge_iff_le, if_neg (Nat.not_le.2 hh), hl, matTest_readable hread,
    issueMat_matDone]

end

/-! ### The release of the oldest slot (R119, R120, R76) -/

section
variable {c : Core} (r : Reduction) (t : Tile)

theorem releaseTile_mat : (c.releaseTile r t).mat = { c.mat with reds := c.mat.reds.tail } := by
  have hm : (t.lines.foldl (fun (c : Core) (x : Nat × BitVec 512) => c.fillLine x.1 x.2)
      (r.marks.foldl (fun c n => c.setFull n false) c)).mat = c.mat :=
    (foldl_keeps (f := fun (c : Core) (x : Nat × BitVec 512) => c.fillLine x.1 x.2) Core.mat (fun _ _ => rfl) _ _).trans (foldl_setFull_mat c _ _)
  rw [Core.releaseTile, Core.orFlags_mat, Core.updMat_mat, hm]

theorem releaseTile_seq : (c.releaseTile r t).seq = { c.seq with flags := c.seq.flags ||| r.mask } := by
  have hq : (t.lines.foldl (fun (c : Core) (x : Nat × BitVec 512) => c.fillLine x.1 x.2)
      (r.marks.foldl (fun c n => c.setFull n false) c)).seq = c.seq :=
    (foldl_keeps (f := fun (c : Core) (x : Nat × BitVec 512) => c.fillLine x.1 x.2) Core.seq (fun _ _ => rfl) _ _).trans
      (foldl_keeps (f := fun (c : Core) n => c.setFull n false) Core.seq (fun _ _ => rfl) _ _)
  rw [Core.releaseTile, Core.orFlags_seq, Core.updMat_seq, hq]

theorem releaseTile_tree : (c.releaseTile r t).tree = sparseSetAll Line.zero (r.marks.foldl (fun c n => c.setFull n false) c).tree
    (t.lines.map (fun x => (x.1, ⟨x.2, true⟩))) := foldl_fillLine_tree t.lines

variable (w : c.TreeWf)
include w

theorem releaseTile_line_written (hn : (t.lines.map Prod.fst).Nodup) : ∀ x ∈ t.lines, (c.releaseTile r t).line x.1 = ⟨x.2, true⟩ := by
  intro x hx
  rw [Core.line, releaseTile_tree]
  refine sparseGet_setAll_mem (foldl_setFull_treeWf w _ _) ?_ (x.1, ⟨x.2, true⟩) (List.mem_map_of_mem hx)
  rw [List.map_map]
  exact hn

theorem releaseTile_line_other {n : Nat} (hn : n ∉ t.lines.map Prod.fst) : (c.releaseTile r t).line n =
    if n ∈ r.marks then { c.line n with full := false } else c.line n := by
  rw [Core.line, releaseTile_tree, sparseGet_setAll_other (foldl_setFull_treeWf w _ _) (by rw [List.map_map]; exact hn)]
  exact foldl_setFull_line w _ _ _

end

section
variable {s : State} {r : Reduction} {l : List Reduction} {t : Tile} (hr : s.core.mat.reds = r :: l) (ht : r.tile = some t)
include hr ht

theorem releaseSlot_early (hd : s.tileDue r t = false) : s.releaseSlot = s := by
  simp only [State.releaseSlot, hr, ht, hd, Bool.false_eq_true, if_false]

theorem releaseSlot_due (hd : s.tileDue r t = true) (hf : s.core.mat.fault = none) :
    s.releaseSlot = { s with core := s.core.releaseTile r t } := by
  have hf' : (s.core.releaseTile r t).mat.fault = none := by rw [releaseTile_mat]; exact hf
  simp only [State.releaseSlot, hr, ht, hd, if_true, State.matLate, hf']

end

theorem tileDue_of_young {s : State} {r : Reduction} {t : Tile} (h : s.now < t.made + strikeWindow) : s.tileDue r t = false := by
  simp [State.tileDue, Nat.not_le.2 h]

theorem tileDue_of_quiet {s : State} {r : Reduction} {t : Tile} (h : t.made + strikeWindow ≤ s.now) (hr : s.core.reports = [])
    (hi : s.core.injected = []) (hs : s.core.strikeHeld = false)
    (hw : t.wwait = true → ∀ x ∈ t.lines, (s.core.line x.1).full = false) : s.tileDue r t = true := by
  have hblocked : (t.wwait && t.lines.any (fun x => (s.core.line x.1).full && !r.marks.contains x.1)) = false := by
    cases hww : t.wwait with
    | false => rfl
    | true => exact List.any_eq_false.2 (fun x hx => by simp [hw hww x hx])
  rw [State.tileDue, hblocked]
  simp [h, hr, hi, hs]

/-! ### The obligation -/

/-- Settles O33: every retirement is `State.retire` in its format, and the release is `Core.releaseTile`. -/
theorem matrixRetiresAndReleases : Obligations.MatrixRetiresAndReleases := by
  unfold Obligations.MatrixRetiresAndReleases
  intro s t r pd core m acts scaled
  have acts_of : ∀ (i : Instr) (fmt : RetFmt) (lines : List Nat) (val : Int → Nat → Nat → Nat) (fill : Nat),
      exec i s = .next (s.retire t fmt) → (if fmt = .f32Add then segLines m.seg pd.line 256 else []) = lines →
      (∀ x y, (s.core.retElem fmt pd.line x y).1 = if inSegment m.seg x y then val (m.at_ x y) x y else fill) →
      acts i fmt.lines fmt.width lines val fill := by
    intro i fmt lines val fill hi hlines hval
    refine ⟨fun ho => ?_, fun ho hr => ?_, fun ho hr hp => ⟨fun hh => ?_, fun hh hread => ?_⟩⟩
    · rw [hi, retire_no_reduction ho]; rfl
    · rw [hi, retire_early ho hr]; rfl
    · rw [hi, retire_full ho hr hp hh]
    · refine ⟨_, _, hi.trans (congrArg Host.Outcome.next (retire_goes ho hr hp hh hlines hread)), retTile_lines .., ?_⟩
      intro x y hx hy
      rw [retTile_elem _ _ _ hx hy, hval]
      rfl
  refine ⟨acts_of _ .f32 [] (fun a x y => encodeF 23 (scaled a x y)) _ rfl rfl fun x y => ?_,
    acts_of _ .bf16 [] (fun a x y => encodeF 7 (scaled a x y)) _ rfl rfl fun x y => ?_,
    acts_of _ .f32Add (segLines m.seg pd.line 256)
      (fun a x y => addF32 (encodeF 23 (scaled a x y)) (s.core.treeNat (64 * pd.line + 256 * x + 4 * y) 4)) _ rfl rfl fun x y => ?_,
    acts_of _ .raw [] (fun a _ _ => wrapInt 32 (satInt 32 a)) _ rfl rfl fun x y => ?_, ?_⟩
  iterate 4
    · dsimp only [Core.retElem]
      split <;> rfl
  intro hlive u l tile hreds htile hfault hreports hinjected hstrike hwf
  have hexec : exec (.holdingSlotRelease core) s = .next u.releaseSlot := congrArg Host.Outcome.next (onCore_live hlive)
  refine ⟨fun hyoung => ?_, fun hold hwait => ?_⟩
  · rw [hexec, releaseSlot_early hreds htile (tileDue_of_young hyoung)]
  · rw [hexec, releaseSlot_due hreds htile (tileDue_of_quiet hold hreports hinjected hstrike hwait) hfault]
    have hmat := releaseTile_mat (c := u.core) r tile
    have hseq := releaseTile_seq (c := u.core) r tile
    refine ⟨_, rfl, ?_, ?_, ?_, ?_, ⟨rfl, rfl, rfl⟩, ?_, releaseTile_line_written r tile hwf, fun n hn => ?_⟩
    · rw [hmat, hreds]; rfl
    · rw [hmat]
    · rw [hmat]
    · rw [hseq]
    · rw [hseq]
    · rw [releaseTile_line_other r tile hwf hn]
      by_cases hm : n ∈ r.marks <;> simp [hm]

end Sys2Proof.Machine
end

section
/-!
PROOFS. The integer group and the immediates (R79, R80): the functions on words, and the words of the sequencer that compute a register: O1, O2.
-/
namespace Sys2Proof.Machine

/-! ### The functions of R79 as operations on bit vectors -/

/-- Where two keys tie, a choice by ≤ may be made by <. -/
theorem ite_le_eq_ite_lt {α β : Type} [LinearOrder β] {p q : β} {a b : α} (h : p = q → a = b) :
    (if p ≤ q then a else b) = if p < q then a else b := by
  rcases lt_trichotomy p q with hpq | hpq | hpq
  · rw [if_pos hpq.le, if_pos hpq]
  · rw [h hpq, ite_self, ite_self]
  · rw [if_neg hpq.not_ge, if_neg hpq.not_gt]

section
variable (x y : Word) (n : Nat)

theorem wordOfInt_add : wordOfInt (x.toInt + y.toInt) = x + y := by
  rw [wordOfInt, BitVec.ofInt_add, BitVec.ofInt_toInt, BitVec.ofInt_toInt]

theorem wordOfInt_sub : wordOfInt (x.toInt - y.toInt) = x - y := by
  rw [wordOfInt, Int.sub_eq_add_neg, BitVec.ofInt_add, BitVec.ofInt_neg, BitVec.ofInt_toInt, BitVec.ofInt_toInt, BitVec.sub_eq_add_neg]

theorem wordOfInt_mul : wordOfInt (x.toInt * y.toInt) = x * y := by
  rw [wordOfInt, BitVec.ofInt_mul, BitVec.ofInt_toInt, BitVec.ofInt_toInt]

theorem fShl_eq : fShl x n = x <<< n := by
  rw [fShl]
  split
  next h => exact (BitVec.shiftLeft_eq_zero h).symm
  next =>
    refine BitVec.eq_of_toNat_eq ?_
    rw [BitVec.toNat_shiftLeft, Nat.shiftLeft_eq, wordOfNat, BitVec.toNat_ofNat]

theorem fShr_eq : fShr x n = x >>> n := by
  rw [fShr]
  split
  next h => exact (BitVec.ushiftRight_eq_zero h).symm
  next =>
    refine BitVec.eq_of_toNat_eq ?_
    rw [BitVec.toNat_ushiftRight, Nat.shiftRight_eq_div_pow, wordOfNat, BitVec.toNat_ofNat]
    exact Nat.mod_eq_of_lt ((Nat.div_le_self _ _).trans_lt x.isLt)

/-- Beyond 63 places nothing but the sign is left. -/
theorem fSar_eq : fSar x n = x.sshiftRight n := by
  have hlow : -2 ^ 63 ≤ x.toInt := BitVec.le_toInt x
  have hhigh : x.toInt < 2 ^ 63 := BitVec.toInt_lt
  rw [fSar, BitVec.sshiftRight, Int.shiftRight_eq_div_pow]
  split
  next h =>
    have hpow : (2 : Int) ^ 63 < 2 ^ n := Int.pow_lt_pow_of_lt (by decide) (by omega)
    split
    next hneg =>
      refine congrArg (BitVec.ofInt 64) ?_
      push_cast
      exact (Int.ediv_eq_iff_of_pos (by positivity)).2 ⟨by linarith, by linarith⟩ |>.symm
    next hpos =>
      rw [Int.ediv_eq_zero_of_lt (by omega) (by push_cast; linarith)]
      rfl
  next => push_cast; rfl

theorem ite_toInt_le {a b : Word} (h : x = y → a = b) : (if x.toInt ≤ y.toInt then a else b) = if x.slt y then a else b := by
  rw [ite_le_eq_ite_lt fun e => h (BitVec.eq_of_toInt_eq e)]
  simp only [BitVec.slt_iff_toInt_lt]

theorem ite_toNat_le {a b : Word} (h : x = y → a = b) : (if x.toNat ≤ y.toNat then a else b) = if x.ult y then a else b := by
  rw [ite_le_eq_ite_lt fun e => h (BitVec.eq_of_toNat_eq e)]
  simp only [BitVec.ult_iff_lt, BitVec.lt_def]

theorem toInt_eq_zero_iff : x.toInt = 0 ↔ x = 0 := ⟨fun h => BitVec.eq_of_toInt_eq h, fun h => h ▸ rfl⟩

theorem toNat_eq_zero_iff : x.toNat = 0 ↔ x = 0 := ⟨fun h => BitVec.eq_of_toNat_eq h, fun h => h ▸ rfl⟩

/-- The quotient that R79 names apart, of -2^63 by -1, is the wrapped one. -/
theorem fDiv_eq : fDiv x y = if y = 0 then BitVec.allOnes 64 else x.sdiv y := by
  have hq : x.sdiv y = BitVec.ofInt 64 (x.toInt.tdiv y.toInt) :=
    BitVec.eq_of_toInt_eq (by rw [BitVec.toInt_sdiv, BitVec.toInt_ofInt])
  simp only [fDiv, toInt_eq_zero_iff, truncDiv]
  by_cases h0 : y = 0
  · rw [if_pos h0, if_pos h0]; rfl
  · rw [if_neg h0, if_neg h0, hq]
    split
    next h => rw [h.1, h.2]; rfl
    next => rfl

theorem fRem_eq : fRem x y = if y = 0 then x else x.srem y := by
  have hr : x.srem y = BitVec.ofInt 64 (x.toInt.tmod y.toInt) := by rw [← BitVec.toInt_srem, BitVec.ofInt_toInt]
  simp only [fRem, toInt_eq_zero_iff, truncDiv]
  by_cases h0 : y = 0
  · rw [if_pos h0, if_pos h0]
  · rw [if_neg h0, if_neg h0, hr]
    split
    next h => rw [h.1, h.2]; rfl
    next => rw [Int.tmod_def]; rfl

theorem fDivn_eq : fDivn x y = if y = 0 then BitVec.allOnes 64 else x.udiv y := by
  simp only [fDivn, toNat_eq_zero_iff]
  split
  next => rfl
  next =>
    refine BitVec.eq_of_toNat_eq ?_
    rw [wordOfNat, BitVec.toNat_ofNat]
    exact Nat.mod_eq_of_lt ((Nat.div_le_self _ _).trans_lt x.isLt)

theorem fRemn_eq : fRemn x y = if y = 0 then x else x.umod y := by
  simp only [fRemn, toNat_eq_zero_iff]
  split
  next => rfl
  next =>
    refine BitVec.eq_of_toNat_eq ?_
    rw [wordOfNat, BitVec.toNat_ofNat, ← Nat.mod_eq_sub_mul_div]
    exact Nat.mod_eq_of_lt ((Nat.mod_le _ _).trans_lt x.isLt)

theorem clzAuxRec_eq (h : n < 64) : x.clzAuxRec n = wordOfNat (63 - n + clzNat (n + 1) x.toNat) := by
  induction n with
  | zero =>
    rw [BitVec.clzAuxRec_zero, clzNat, BitVec.getLsbD]
    cases x.toNat.testBit 0 <;> rfl
  | succ n ih =>
    rw [BitVec.clzAuxRec_succ, clzNat, BitVec.getLsbD]
    cases x.toNat.testBit (n + 1) with
    | true => simp [wordOfNat]
    | false =>
      rw [if_neg Bool.false_ne_true, if_neg Bool.false_ne_true, ih (by omega)]
      congr 1
      omega

theorem clz_eq : wordOfNat (clzNat 64 x.toNat) = x.clz := by
  rw [BitVec.clz, clzAuxRec_eq x 63 (by decide)]
  simp

theorem cpopNatRec_eq_popNat (acc : Nat) : x.cpopNatRec n acc = popNat n x.toNat + acc := by
  induction n generalizing acc with
  | zero => simp [popNat]
  | succ n ih =>
    rw [BitVec.cpopNatRec_succ, ih, popNat, BitVec.getLsbD]
    cases x.toNat.testBit n with
    | true => simp; omega
    | false => simp

theorem cpop_eq : wordOfNat (popNat 64 x.toNat) = x.cpop := by
  rw [BitVec.cpop, cpopNatRec_eq_popNat, Nat.add_zero, wordOfNat]

/-- R80: the bits of the chunk come from the immediate, the others from the register. -/
theorem replaceChunk_bit (p : Nat) (imm : BitVec 16) {b : Nat} (hb : b < 64) : (replaceChunk x p imm).getLsbD b =
    if 16 * p ≤ b ∧ b < 16 * p + 16 then imm.getLsbD (b - 16 * p) else x.getLsbD b := by
  have hmask : (0xFFFF * 2 ^ (16 * p)).testBit b = (decide (16 * p ≤ b) && decide (b - 16 * p < 16)) := by
    rw [Nat.testBit_mul_two_pow]
    exact congrArg _ (Nat.testBit_two_pow_sub_one 16 _)
  have himm : (imm.toNat * 2 ^ (16 * p)).testBit b = (decide (16 * p ≤ b) && imm.getLsbD (b - 16 * p)) := Nat.testBit_mul_two_pow ..
  simp only [replaceChunk, wordOfNat, BitVec.getLsbD_or, BitVec.getLsbD_and, BitVec.getLsbD_not, BitVec.getLsbD_ofNat, hb, hmask, himm,
    decide_true, Bool.true_and]
  by_cases hlow : 16 * p ≤ b
  · by_cases hhigh : b - 16 * p < 16
    · simp [hlow, hhigh, show b < 16 * p + 16 by omega]
    · simp [hlow, hhigh, show ¬ b < 16 * p + 16 by omega, BitVec.getLsbD_of_ge imm (b - 16 * p) (by omega)]
  · simp [hlow]

end

/-! ### Words that compute a register -/

/-- A word that computes a register from ready registers. -/
theorem exec_of_compute {i : Instr} {s : State} {src : List Reg} {rd : Reg} {v w : Word} (h : s.seqReady src rd)
    (hi : exec i s = .next (s.compute src rd v)) (hv : v = w) : exec i s = .next (s.resulting rd w s.nextPc) := by
  rw [hi, compute_ready h, hv]

/-! ### Words that find a register empty (R78) -/

section
variable {s : State} {src : List Reg} {rd : Reg} {k : Issue}

/-- Where every empty source is targeted, a word with an empty source waits, and so does one whose destination a load targets. -/
theorem withRegs_waits (hsrc : ∀ r ∈ src, s.core.seq.regFull r = true ∨ s.core.seq.targeted r = true)
    (hw : (∃ r ∈ src, s.core.seq.regFull r = false) ∨ (rd ≠ 0 ∧ s.core.seq.targeted rd = true)) : s.withRegs src rd k = .wait s := by
  have hnone : src.find? (fun r => !s.core.seq.regFull r && !s.core.seq.targeted r) = none :=
    List.find?_eq_none.2 fun r hr => by rcases hsrc r hr with h | h <;> simp [h]
  rw [State.withRegs, hnone]
  refine if_pos (hw.imp_left ?_)
  rintro ⟨r, hr, hempty⟩
  exact List.any_eq_true.2 ⟨r, hr, by rw [hempty]; rfl⟩

variable {x : Reg} (ha : s.core.seq.asyncReady = false)
include ha

/-- A word whose destination a load targets waits. -/
theorem issueSeq_targeted (hsrc : ∀ r ∈ src, s.core.seq.regFull r = true) (h0 : rd ≠ 0) (ht : s.core.seq.targeted rd = true) :
    s.issueSeq (s.withRegs src rd k) = s.held := by
  rw [withRegs_waits (fun r hr => .inl (hsrc r hr)) (.inr ⟨h0, ht⟩), issueSeq_wait ha]
  rfl

variable (hx : x ∈ src) (hempty : s.core.seq.regFull x = false) (hothers : ∀ y ∈ src, y = x ∨ s.core.seq.regFull y = true)
include hx hempty hothers

/-- One empty source, which no load targets: QEMPTY with its number. -/
theorem issueSeq_untargeted_source (ht : s.core.seq.targeted x = false) :
    s.issueSeq (s.withRegs src rd k) = s.syncTrap 0x0302 (BitVec.ofNat 64 x.val) := by
  have hfind : src.find? (fun r => !s.core.seq.regFull r && !s.core.seq.targeted r) = some x := by
    cases hf : src.find? (fun r => !s.core.seq.regFull r && !s.core.seq.targeted r) with
    | none => exact absurd (List.find?_eq_none.1 hf x hx) (by simp [hempty, ht])
    | some r =>
      rcases hothers r (List.mem_of_find?_eq_some hf) with rfl | hfull
      · rfl
      · exact absurd (List.find?_some hf) (by simp [hfull])
  rw [withRegs_empty hfind]
  exact issueSeq_trap (by rw [ha, Bool.and_false])

/-- One empty source, which a load targets: the word waits. -/
theorem issueSeq_targeted_source (ht : s.core.seq.targeted x = true) : s.issueSeq (s.withRegs src rd k) = s.held := by
  have hsrc : ∀ r ∈ src, s.core.seq.regFull r = true ∨ s.core.seq.targeted r = true := fun r hr =>
    (hothers r hr).symm.imp_right fun e => by rw [e, ht]
  rw [withRegs_waits hsrc (.inl ⟨x, hx, hempty⟩), issueSeq_wait ha]
  rfl

end

/-- Settles O1: each word is `State.compute` of its function, which the lemma of its name gives as an operation on bit vectors. -/
theorem integerGroupComputes : Obligations.IntegerGroupComputes := by
  unfold Obligations.IntegerGroupComputes
  intro s rd ra rb x y gives
  refine ⟨fun h => ?_, fun h => ⟨exec_of_compute h rfl (clz_eq x), exec_of_compute h rfl (cpop_eq x)⟩⟩
  exact ⟨exec_of_compute h rfl (wordOfInt_add x y), exec_of_compute h rfl (wordOfInt_sub x y), exec_of_compute h rfl rfl,
    exec_of_compute h rfl rfl, exec_of_compute h rfl rfl, exec_of_compute h rfl (fShl_eq x _), exec_of_compute h rfl (fShr_eq x _),
    exec_of_compute h rfl (fSar_eq x _), exec_of_compute h rfl rfl, exec_of_compute h rfl rfl,
    exec_of_compute h rfl (ite_toInt_le x y id), exec_of_compute h rfl (ite_toInt_le x y Eq.symm),
    exec_of_compute h rfl (ite_toNat_le x y id), exec_of_compute h rfl (ite_toNat_le x y Eq.symm),
    exec_of_compute h rfl (wordOfInt_mul x y), exec_of_compute h rfl rfl, exec_of_compute h rfl rfl, exec_of_compute h rfl (fDiv_eq x y),
    exec_of_compute h rfl (fDivn_eq x y), exec_of_compute h rfl (fRem_eq x y), exec_of_compute h rfl (fRemn_eq x y)⟩

/-- Settles O2, as O1; the bits of `movk` are those of `replaceChunk_bit`. -/
theorem immediateGroupComputes : Obligations.ImmediateGroupComputes := by
  unfold Obligations.ImmediateGroupComputes
  intro s rd ra imm n p x gives
  have hsext : imm.toInt = (imm.signExtend 64).toInt := (BitVec.toInt_signExtend_of_le (by decide)).symm
  refine ⟨fun h => ⟨exec_of_compute h rfl ?_, exec_of_compute h rfl rfl, exec_of_compute h rfl rfl, exec_of_compute h rfl rfl,
      exec_of_compute h rfl (fShl_eq x _), exec_of_compute h rfl (fShr_eq x _), exec_of_compute h rfl (fSar_eq x _),
      exec_of_compute h rfl ?_⟩,
    fun h => exec_of_compute h rfl rfl, fun h => ⟨_, exec_of_compute h rfl rfl, fun b hb => replaceChunk_bit _ _ imm hb⟩,
    fun ha h0 hempty => ⟨fun ht => congrArg Host.Outcome.next ?_, fun ht => congrArg Host.Outcome.next ?_⟩⟩
  · rw [hsext]; exact wordOfInt_add x _
  · rw [hsext]; rfl
  · exact issueSeq_untargeted_source ha List.mem_cons_self hempty (fun y hy => .inl (List.mem_singleton.1 hy)) ht
  · exact issueSeq_targeted_source ha List.mem_cons_self hempty (fun y hy => .inl (List.mem_singleton.1 hy)) ht

end Sys2Proof.Machine
end

section
/-!
PROOFS. Branches, jumps, control registers, and what every word of the sequencer does at an empty register (R43, R53, R78, R81, R103): O3, O14, O15, O16.
-/
namespace Sys2Proof.Machine

/-! ### Words that retire -/

section
variable {s : State} {i : Instr} {src : List Reg} {rd : Reg}

theorem noCinch_none (h : s.core.seq.cinch = none) (k : Issue) : s.noCinch k = k := by
  rw [State.noCinch, h]
  rfl

/-- A word whose registers are ready comes to what it makes of them. -/
theorem exec_of_ready {k : Issue} (hi : exec i s = .next (s.issueSeq (s.withRegs src rd k))) (h : s.seqReady src rd) :
    exec i s = .next (s.issueSeq k) := by rw [hi, withRegs_ready h]

/-- A word that changes the sequencer and retires, with `n` access numbers taken. -/
theorem issueSeq_advanced {s : State} (h : s.core.seq.asyncReady = false) (n : Nat) (f : Sequencer → Sequencer) :
    s.issueSeq (.done { s with core := { s.core with issue := s.core.issue + n, seq := f s.core.seq } }) = s.advanced n f := by
  rw [issueSeq_done h]
  rfl

theorem issueSeq_passing {s : State} (h : s.core.seq.asyncReady = false) (pc : Word) :
    s.issueSeq (.done (s.updSeq (fun q => { q with pc := pc }))) = s.passing pc := by
  rw [issueSeq_done h]
  rfl

theorem issueSeq_next {s : State} (h : s.core.seq.asyncReady = false) : s.issueSeq (.done s.next) = s.passing s.nextPc :=
  issueSeq_passing h _

/-- A word whose checks fail at issue, where no asynchronous cause is due. -/
theorem issueSeq_traps {s : State} (h : s.core.seq.asyncReady = false) (code : Code) (d : Word) :
    s.issueSeq (.trap code d) = s.syncTrap code d := issueSeq_trap (by rw [h, Bool.and_false])

/-- A word that waits and changes nothing else. -/
theorem issueSeq_held {s : State} (h : s.core.seq.asyncReady = false) : s.issueSeq (.wait s) = s.held := issueSeq_wait h

end

/-! ### Branches and jumps (R43, R53, R81) -/

section
variable {s : State} {ra rb rd : Reg}

/-- A branch goes where its comparison says. -/
theorem exec_of_branch {i : Instr} {off : BitVec 16} {c : Word → Word → Bool} {b : Bool} (h : s.seqReady [ra, rb] 0)
    (hi : exec i s = .next (s.branch ra rb off c)) (hc : c (s.reg ra) (s.reg rb) = b) : exec i s = .next (s.passing
      (if b then branchTarget s.core.res.encv s.core.seq.pc (off.signExtend 64) else s.nextPc)) := by
  rw [hi, State.branch, withRegs_ready h, hc]
  exact congrArg _ (issueSeq_passing h.1 _)

theorem exec_jal (off : BitVec 21) (h : s.seqReady [] rd) : exec (.jal rd off) s =
    .next (s.resulting rd s.nextPc (branchTarget s.core.res.encv s.core.seq.pc (off.signExtend 64))) := by
  rw [exec_of_ready rfl h]
  exact congrArg _ (done_result h.1)

theorem exec_jalr_aligned {imm : BitVec 16} (h : s.seqReady [ra] rd) (ht : (s.reg ra + imm.signExtend 64).toNat % 4 = 0) :
    exec (.jalr rd ra imm) s = .next (s.resulting rd s.nextPc (s.reg ra + imm.signExtend 64)) := by
  obtain ⟨ha, hsrc, hdst⟩ := h
  have hreads : s.seqReady [ra] 0 := ⟨ha, hsrc, .inl rfl⟩
  have hwrites : s.seqReady [] rd := ⟨ha, by simp, hdst⟩
  rw [exec_of_ready rfl hreads, if_neg (by simpa [sext64] using ht), withRegs_ready hwrites]
  exact congrArg _ (done_result ha)

theorem exec_jalr_misaligned {imm : BitVec 16} (h : s.seqReady [ra] 0) (ht : (s.reg ra + imm.signExtend 64).toNat % 4 ≠ 0) :
    exec (.jalr rd ra imm) s = .next (s.syncTrap 0x0205 0) := by
  rw [exec_of_ready rfl h, if_pos (by simpa [sext64] using ht)]
  exact congrArg _ (issueSeq_traps h.1 _ _)

/-- No word stands beyond a stream's section (R20). -/
theorem wordAt_beyond {c : Core} {st : StreamId} {pc : Word} (h : 4 * c.res.len st ≤ pc.toNat) : s.wordAt c st pc = 0 := by
  rw [State.wordAt, Core.codePlace, if_neg (by omega)]

end

/-- Settles O3. -/
theorem branchesAndJumpsGoToTheirTargets : Obligations.BranchesAndJumpsGoToTheirTargets := by
  unfold Obligations.BranchesAndJumpsGoToTheirTargets
  refine ⟨fun s ra rb off h => ?_, fun s rd ra off imm => ⟨exec_jal off, exec_jalr_aligned, exec_jalr_misaligned,
    fun c pc => wordAt_beyond⟩⟩
  intro x y from_ goes
  have hge : decide (x.toInt ≥ y.toInt) = !x.slt y := by rw [BitVec.slt, ← decide_not]; exact decide_eq_decide.2 Int.not_lt.symm
  have hgeu : decide (x.toNat ≥ y.toNat) = !x.ult y := by rw [BitVec.ult, ← decide_not]; exact decide_eq_decide.2 Nat.not_lt.symm
  exact ⟨exec_of_branch h rfl rfl, exec_of_branch h rfl rfl, exec_of_branch h rfl rfl, exec_of_branch h rfl hge,
    exec_of_branch h rfl rfl, exec_of_branch h rfl hgeu⟩

/-! ### Control registers (R103) -/

/-- Settles O14: `csr.read` computes `State.csr`. -/
theorem controlRegistersAreRead : Obligations.ControlRegistersAreRead := by
  unfold Obligations.ControlRegistersAreRead
  intro s rd h q reads
  have gives : ∀ (r : Csr) (v : Word), s.csr r = v → reads r v := fun r v hv => exec_of_compute h rfl hv
  refine ⟨gives _ _ rfl, gives _ _ rfl, gives _ _ rfl, gives _ _ rfl, gives _ _ rfl, gives _ _ rfl, gives _ _ rfl, gives _ _ rfl,
    fun hy => gives _ _ ?_, fun hy x k hx hk => gives _ _ ?_, gives _ _ rfl, gives _ _ rfl, gives _ _ rfl, gives _ _ rfl, gives _ _ rfl,
    fun x hx => ⟨gives _ _ ?_, gives _ _ ?_, gives _ _ ?_, gives _ _ ?_⟩⟩
  · simp only [State.csr, State.deadline, show s.core.seq.yreq = true from hy]
    rfl
  · simp only [State.csr, State.deadline, show s.core.seq.yreq = false from hy, hx, Option.bind_some, hk]
    rfl
  all_goals
    simp only [State.csr, Core.ctxNum, Core.res, hx]
    rfl

@[simp] theorem setCsr_pc (q : Sequencer) (r : Csr) (w : Word) : (q.setCsr r w).pc = q.pc := by cases r <;> rfl

@[simp] theorem setCsr_g (q : Sequencer) (r : Csr) (w : Word) : (q.setCsr r w).g = q.g := by cases r <;> rfl

section
variable {s : State} {ra rd : Reg} {r : Csr} {f : Sequencer → Sequencer} (hr : r.writable = true)
  (hf : s.core.seq.setCsr r (s.reg ra) = f s.core.seq)
include hr hf

theorem exec_csrWrite (h : s.seqReady [ra] 0) :
    exec (.csrWrite ra r) s = .next (s.advanced 0 (fun q => { f q with pc := s.nextPc })) := by
  have hi : exec (.csrWrite ra r) s = .next (s.issueSeq (s.withRegs [ra] 0 (.done (s.setCsr r (s.reg ra)).next))) :=
    congrArg (fun k => Host.Outcome.next (s.issueSeq k)) (if_pos hr)
  rw [exec_of_ready hi h, issueSeq_done h.1]
  simp [State.advanced, ← hf, State.setCsr, State.next, State.nextPc, State.updSeq, State.upd, Core.updSeq]

theorem exec_csrSwap (h : s.seqReady [ra] rd) : exec (.csrSwap rd ra r) s = .next (s.advanced 0 (fun q => { f q with
    g := if rd = 0 then q.g else q.g.set rd ⟨s.csr r, true⟩, pc := s.nextPc })) := by
  have hi : exec (.csrSwap rd ra r) s =
      .next (s.issueSeq (s.withRegs [ra] rd (.done ((s.setCsr r (s.reg ra)).setReg rd (s.csr r)).next))) :=
    congrArg (fun k => Host.Outcome.next (s.issueSeq k)) (if_pos hr)
  rw [exec_of_ready hi h, issueSeq_done h.1]
  by_cases h0 : rd = 0 <;> simp [State.advanced, ← hf, State.setCsr, State.setReg, Sequencer.setReg, State.next, State.nextPc,
    State.updSeq, State.upd, Core.updSeq, h0]

end

/-- A register that is read alone refuses both words. -/
theorem exec_csr_readOnly {s : State} (ha : s.core.seq.asyncReady = false) (rd ra : Reg) {r : Csr} (hr : r.writable = false) :
    exec (.csrWrite ra r) s = .next (s.syncTrap 0x0205 0) ∧ exec (.csrSwap rd ra r) s = .next (s.syncTrap 0x0205 0) := by
  have hn : ¬ r.writable = true := by simp [hr]
  rw [← issueSeq_traps ha]
  exact ⟨congrArg (fun k => Host.Outcome.next (s.issueSeq k)) (if_neg hn), congrArg (fun k => Host.Outcome.next (s.issueSeq k)) (if_neg hn)⟩

/-- Settles O15. -/
theorem controlRegistersAreWritten : Obligations.ControlRegistersAreWritten := by
  unfold Obligations.ControlRegistersAreWritten
  intro s rd ra w stores
  have sets : ∀ (r : Csr) (f : Sequencer → Sequencer), r.writable = true → s.core.seq.setCsr r w = f s.core.seq → stores r f :=
    fun r f hr hf => ⟨exec_csrWrite hr hf, exec_csrSwap hr hf⟩
  refine ⟨sets _ _ rfl rfl, sets _ _ rfl rfl, sets _ _ rfl rfl, sets _ _ rfl rfl, sets _ _ rfl ?_, sets _ _ rfl rfl, sets _ _ rfl rfl,
    sets _ _ rfl rfl, fun ha r hr => exec_csr_readOnly ha rd ra ?_⟩
  · simp only [Sequencer.setCsr, BitVec.toNat_setWidth]
  · revert r
    decide

/-! ### Empty registers (R78) -/

/-- A word reads `src` before anything else, and waits where a load targets `dst`. -/
def State.asksFirst (s : State) (i : Instr) (src : List Reg) (dst : Reg) : Prop :=
  ∃ k, exec i s = .next (s.issueSeq (s.withRegs src dst k))

section
variable {s : State} {i : Instr} {src : List Reg} {dst x : Reg} (ha : s.core.seq.asyncReady = false) (hi : s.asksFirst i src dst)
include ha hi

/-- Such a word at one empty source: QEMPTY, or a wait where a load targets it. -/
theorem empty_source_of_asksFirst (hx : x ∈ src) (hempty : s.core.seq.regFull x = false)
    (hothers : ∀ y ∈ src, y = x ∨ s.core.seq.regFull y = true) :
    (s.core.seq.targeted x = false → exec i s = .next (s.syncTrap 0x0302 (BitVec.ofNat 64 x.val))) ∧
    (s.core.seq.targeted x = true → exec i s = .next s.held) := by
  obtain ⟨k, hi⟩ := hi
  rw [hi]
  exact ⟨fun ht => congrArg _ (issueSeq_untargeted_source ha hx hempty hothers ht),
    fun ht => congrArg _ (issueSeq_targeted_source ha hx hempty hothers ht)⟩

theorem held_of_targeted_dst (hsrc : ∀ r ∈ src, s.core.seq.regFull r = true) (h0 : dst ≠ 0) (ht : s.core.seq.targeted dst = true) :
    exec i s = .next s.held := by
  obtain ⟨k, hi⟩ := hi
  rw [hi]
  exact congrArg _ (issueSeq_targeted ha hsrc h0 ht)

end

section
variable {s : State} {i : Instr} {src : List Reg} {dst : Reg}

/-- A word that is ILLEGAL in a cinch, outside one. -/
theorem asksFirst_of_noCinch {k : Issue} (hc : s.core.seq.cinch = none)
    (hi : exec i s = .next (s.issueSeq (s.noCinch (s.withRegs src dst k)))) : s.asksFirst i src dst := ⟨k, by rw [hi, noCinch_none hc]⟩

/-- A word whose own check at issue passes. -/
theorem asksFirst_of_check {k r : Issue} (hi : exec i s = .next (s.issueSeq r)) (hr : r = s.withRegs src dst k) :
    s.asksFirst i src dst := ⟨k, by rw [hi, hr]⟩

end

section
variable {s : State} (rd ra rb : Reg)

theorem integer_asksFirst : ∀ i ∈ [Instr.add rd ra rb, .sub rd ra rb, .and rd ra rb, .or rd ra rb, .xor rd ra rb, .shl rd ra rb,
    .shr rd ra rb, .sar rd ra rb, .slt rd ra rb, .sltn rd ra rb, .min rd ra rb, .max rd ra rb, .minn rd ra rb, .maxn rd ra rb,
    .mul rd ra rb, .mulh rd ra rb, .mulhn rd ra rb, .div rd ra rb, .divn rd ra rb, .rem rd ra rb, .remn rd ra rb],
    s.asksFirst i [ra, rb] rd := by
  iterate 21 refine forall_cons ⟨_, rfl⟩ ?_
  exact forall_nil

theorem unary_asksFirst (imm : BitVec 16) (n : BitVec 6) : ∀ i ∈ [Instr.clz rd ra, .popc rd ra, .addi rd ra imm, .andi rd ra imm,
    .ori rd ra imm, .xori rd ra imm, .shli rd ra n, .shri rd ra n, .sari rd ra n, .slti rd ra imm], s.asksFirst i [ra] rd := by
  iterate 10 refine forall_cons ⟨_, rfl⟩ ?_
  exact forall_nil

theorem branch_asksFirst (off : BitVec 16) : ∀ i ∈ [Instr.beq ra rb off, .bne ra rb off, .blt ra rb off, .bge ra rb off, .bltn ra rb off,
    .bgen ra rb off], s.asksFirst i [ra, rb] 0 := by
  iterate 6 refine forall_cons ⟨_, rfl⟩ ?_
  exact forall_nil

theorem load_asksFirst (imm : BitVec 16) : ∀ i ∈ [Instr.ldB rd ra imm, .ldBs rd ra imm, .ldH rd ra imm, .ldHs rd ra imm, .ldW rd ra imm,
    .ldWs rd ra imm, .ldD rd ra imm], s.asksFirst i [ra] 0 := by
  iterate 7 refine forall_cons ⟨_, rfl⟩ ?_
  exact forall_nil

theorem store_asksFirst (imm : BitVec 16) : ∀ i ∈ [Instr.stB rd ra imm, .stH rd ra imm, .stW rd ra imm, .stD rd ra imm],
    s.asksFirst i [rd, ra] 0 := by
  iterate 4 refine forall_cons ⟨_, rfl⟩ ?_
  exact forall_nil

section
variable (hc : s.core.seq.cinch = none)
include hc

theorem atom_asksFirst {size : AtomSize} {scope : Scope} (h1 : 1 ≤ scope.code) (h8 : scope.code ≤ 8) :
    ∀ i ∈ [Instr.atomAdd rd ra rb size scope, .atomSwap rd ra rb size scope, .atomCas rd ra rb size scope, .atomMin rd ra rb size scope,
      .atomMax rd ra rb size scope, .atomOr rd ra rb size scope, .atomAnd rd ra rb size scope], s.asksFirst i [rd, ra, rb] 0 := by
  have hs : ¬ (!atomScope scope) = true := by simp [atomScope, h1, h8]
  iterate 7 refine forall_cons (asksFirst_of_check rfl ((if_neg hs).trans (noCinch_none hc _))) ?_
  exact forall_nil

theorem handle_asksFirst (h : Hnd) : ∀ i ∈ [Instr.hndBind rd ra h, .swArm rd ra h, .swWait rd ra h, .bilAdv rd ra h, .bilPost rd ra h],
    s.asksFirst i [rd, ra] 0 :=
  forall_cons (asksFirst_of_noCinch hc rfl) <| forall_cons (asksFirst_of_noCinch hc rfl) <| forall_cons ⟨_, rfl⟩ <|
    forall_cons ⟨_, rfl⟩ <| forall_cons (asksFirst_of_noCinch hc rfl) forall_nil

theorem stamp_asksFirst {scope : Scope} (h : scope = .package ∨ scope = .time) :
    s.asksFirst (.stStamp rd ra rb scope) [ra, rb] 0 ∧ s.asksFirst (.ldAsof rd ra rb scope) [ra, rb] 0 := by
  have hs : ¬ (!stampScope scope) = true := by rcases h with rfl | rfl <;> decide
  exact ⟨asksFirst_of_check rfl ((if_neg hs).trans (noCinch_none hc _)), asksFirst_of_check rfl ((if_neg hs).trans (noCinch_none hc _))⟩

end

theorem read_asksFirst (hc : s.core.seq.cinch = none) (h : Hnd) (v : Fin 8) : ∀ i ∈ [Instr.swReadTarget rd ra h, .swReadCount rd ra h,
    .swReadGen rd ra h, .swReadCode rd ra h, .bilClaim rd ra h, .viewSet v ra], s.asksFirst i [ra] 0 :=
  forall_cons ⟨_, rfl⟩ <| forall_cons ⟨_, rfl⟩ <| forall_cons ⟨_, rfl⟩ <| forall_cons ⟨_, rfl⟩ <|
    forall_cons (asksFirst_of_noCinch hc rfl) <| forall_cons ⟨_, rfl⟩ forall_nil

theorem clkWait_asksFirst (h : s.widthCheck = none) : s.asksFirst (.clkWait ra) [ra] 0 := asksFirst_of_check rfl (by rw [h])

theorem mendSave_asksFirst (h : s.core.seq.regions ≠ []) (slot : Hnd) : s.asksFirst (.mendSave rd ra slot) [rd, ra] 0 :=
  asksFirst_of_check rfl (if_neg (by simpa using h))

theorem csr_asksFirst {r : Csr} (h : r.writable = true) :
    s.asksFirst (.csrWrite ra r) [ra] 0 ∧ s.asksFirst (.csrSwap rd ra r) [ra] rd :=
  ⟨asksFirst_of_check rfl (if_pos h), asksFirst_of_check rfl (if_pos h)⟩

end

/-- Settles O16: each of these words reads its registers first. -/
theorem emptyRegistersTrapOrWait : Obligations.EmptyRegistersTrapOrWait := by
  unfold Obligations.EmptyRegistersTrapOrWait
  intro s rd ra rb h imm n p v csr size scope ha hc q source binary unary atoms
  have asks : ∀ {i : Instr} {src : List Reg} {dst : Reg}, s.asksFirst i src dst → source i src :=
    fun hi x hx hempty hothers => empty_source_of_asksFirst ha hi hx hempty hothers
  refine ⟨fun i hi => asks (integer_asksFirst rd ra rb i hi), fun i hi => asks (unary_asksFirst rd ra imm n i hi), asks ⟨_, rfl⟩,
    fun i hi => asks (branch_asksFirst ra rb imm i hi), asks ⟨_, rfl⟩, fun i hi => asks (load_asksFirst rd ra imm i hi),
    fun i hi => asks (store_asksFirst rd ra imm i hi), fun i hi => asks (handle_asksFirst rd ra hc h i hi),
    fun i hi => asks (read_asksFirst rd ra hc h v i hi), asks (asksFirst_of_noCinch hc rfl),
    fun h1 h8 i hi => asks (atom_asksFirst rd ra rb hc h1 h8 i hi),
    fun hs => ⟨asks (stamp_asksFirst rd ra rb hc hs).1, asks (stamp_asksFirst rd ra rb hc hs).2⟩,
    fun hw => asks (clkWait_asksFirst ra hw), fun hr => asks (mendSave_asksFirst rd ra hr h),
    fun hw => ⟨asks (csr_asksFirst rd ra hw).1, asks (csr_asksFirst rd ra hw).2⟩, fun h0 ht hfa hfb => ?_⟩
  have hab : ∀ r ∈ [ra, rb], s.core.seq.regFull r = true := List.forall_mem_cons.2 ⟨hfa, List.forall_mem_singleton.2 hfb⟩
  refine List.forall_mem_append.2 ⟨List.forall_mem_append.2 ⟨fun i hi => ?_, fun i hi => ?_⟩,
    forall_cons ?_ (forall_cons ?_ forall_nil)⟩
  · exact held_of_targeted_dst ha (integer_asksFirst rd ra rb i hi) hab h0 ht
  · exact held_of_targeted_dst ha (unary_asksFirst rd ra imm n i hi) (List.forall_mem_singleton.2 hfa) h0 ht
  · exact held_of_targeted_dst ha (src := []) ⟨_, rfl⟩ (by simp) h0 ht
  · exact held_of_targeted_dst ha (src := []) ⟨_, rfl⟩ (by simp) h0 ht

end Sys2Proof.Machine
end

section
/-!
PROOFS. Loads and stores of the sequencer: how they are queued, and how the oldest of each queue is performed (R78, R82 to R86, R246, R291): O4, O5.
-/
namespace Sys2Proof.Machine

/-! ### Translated accesses (R85, R217) -/

theorem translated_ok {s : State} {va n : Nat} {write : Bool} {cells : List PAddr} {binds : List Nat}
    (h : s.xlAccess va n write = .ok cells binds) (access : Nat) (k : List PAddr → List Nat → Issue) :
    s.translated va n write access k = k cells binds := by rw [State.translated, h]

/-! ### What a write leaves (R224, R310) -/

/-- Noting a stream's effect changes that note alone. -/
theorem wrote_frame (s : State) (st : StreamId) (l : List PAddr) :
    ∃ e, s.wrote st l = { s with core := { s.core with effects := e } } := by
  rw [State.wrote]
  split
  · exact ⟨s.core.effects, rfl⟩
  · exact ⟨_, rfl⟩

theorem store_ok {s : State} {l : List (PAddr × Byte)} (h : s.eccWrite l = .ok) : s.store l = (.ok, (s.heal l).writeCells l) := by
  rw [State.store, h]

/-! ### Loads -/

section
variable {s : State} {rd ra : Reg} {imm : BitVec 16} {n : Nat} {signed : Bool} {cells : List PAddr} {binds : List Nat} {i : Instr}

/-- The queue after a load, whose register is empty from here. -/
theorem exec_of_load (h : s.seqReady [ra] 0) (hi : exec i s = .next (s.issueLoad rd ra imm n signed))
    (hx : s.xlAccess (s.reg ra + imm.signExtend 64).toNat n false = .ok cells binds) :
    (s.core.seq.lq.length < 32 → exec i s = .next (s.advanced 1 (fun q => { q with
      lq := q.lq ++ [⟨s.core.issue, q.pc, rd, (s.reg ra + imm.signExtend 64).toNat, cells, signed, binds, []⟩]
      g := if rd = 0 then q.g else q.g.set rd { q.g[rd] with full := false }
      pc := s.nextPc }))) ∧
    (32 ≤ s.core.seq.lq.length → exec i s = .next (s.syncTrap 0x0301 0)) := by
  rw [hi, State.issueLoad, withRegs_ready h]
  simp only [State.effective, sext64]
  rw [translated_ok hx]
  refine ⟨fun hl => congrArg _ ?_, fun hl => congrArg _ ?_⟩
  · rw [if_neg (by omega), ← issueSeq_advanced h.1]
    refine congrArg (fun t => s.issueSeq (.done t)) ?_
    by_cases h0 : rd = 0 <;> simp [Sequencer.emptyReg, h0, State.updSeq, State.upd, Core.updSeq, Core.bump, State.next, State.nextPc]
  · rw [if_pos hl]
    exact issueSeq_traps h.1 _ _

end

/-! ### Naturally aligned accesses (R82) -/

/-- R82: an access of 1, 2, 4 or 8 bytes at a multiple of its length. -/
def NaturallyAligned (l : List PAddr) : Prop :=
  (l.length = 1 ∨ l.length = 2 ∨ l.length = 4 ∨ l.length = 8) ∧ ∀ p ∈ l.head?, p.addr % l.length = 0

theorem bytewise_iff (l : List PAddr) : bytewise l = true ↔ l ≠ [] ∧ ¬ NaturallyAligned l := by
  cases l with
  | nil => simp [bytewise]
  | cons p l =>
    simp [bytewise, NaturallyAligned]
    tauto

theorem nextCells_aligned {e : LoadEntry} (h : NaturallyAligned e.cells) : e.nextCells = e.cells :=
  if_neg (fun hb => ((bytewise_iff _).1 hb).2 h)

theorem nextCells_misaligned {e : LoadEntry} (h : ¬ NaturallyAligned e.cells) : e.nextCells = (e.cells.drop e.got.length).take 1 := by
  rw [LoadEntry.nextCells]
  split
  · rfl
  next hb =>
    have hnil : e.cells = [] := by
      by_contra hne
      exact hb ((bytewise_iff _).2 ⟨hne, h⟩)
    simp [hnil]

section
variable {u : State} {e : LoadEntry} {l : List LoadEntry} (hq : u.core.seq.lq = e :: l) (hf : u.core.fenceHolds .lq e.seq = false)
include hq hf

/-- The oldest load, whose next bytes can be read. -/
theorem returnLoad_ok (hecc : u.eccRead e.nextCells = .ok) : u.returnLoad =
    if (e.got ++ u.readBytes e.nextCells).length < e.cells.length then
      u.updSeq (fun q => { q with lq := { e with got := e.got ++ u.readBytes e.nextCells } :: l })
    else ((u.updSeq (fun q => { q with lq := l })).updSeq (fun q => q.loadReg e.rd
      (loadValue e.signed (e.got ++ u.readBytes e.nextCells)))).upd Core.release := by
  simp only [State.returnLoad, hq, hf, hecc, Bool.false_eq_true, if_false]

/-- The oldest load, whose data is lost outside every region (R86). -/
theorem returnLoad_lost (hecc : u.eccRead e.nextCells = .lost) (hr : u.core.seq.inRegion e.seq = false) : u.returnLoad =
    ((u.updSeq (fun q => { q with lq := l })).addCause (.dataLost (BitVec.ofNat 64 e.va) e.pc)).upd Core.release := by
  simp only [State.returnLoad, hq, hf, hecc, hr, Bool.false_eq_true, if_false]
  rfl

end

/-- The registers after a load has written its own (R78). -/
theorem loadReg_g (q : Sequencer) (r : Reg) (v : Word) :
    (q.loadReg r v).g = if r = 0 then q.g else q.g.set r ⟨v, !(q.lq.any (fun x => decide (x.rd = r)))⟩ := by
  rw [Sequencer.loadReg, Sequencer.targeted]
  by_cases h0 : r = 0
  · simp [h0, Sequencer.setReg, Sequencer.emptyReg]
  · cases q.lq.any (fun x => decide (x.rd = r)) <;> simp [h0, Sequencer.setReg, Sequencer.emptyReg]

theorem loadReg_frame (q : Sequencer) (r : Reg) (v : Word) : ∃ g, q.loadReg r v = { q with g := g } := by
  simp only [Sequencer.loadReg, Sequencer.setReg, Sequencer.emptyReg]
  split <;> split <;> exact ⟨_, rfl⟩

/-- Settles O4. -/
theorem loadsAreQueuedAndReturn : Obligations.LoadsAreQueuedAndReturn := by
  unfold Obligations.LoadsAreQueuedAndReturn
  refine ⟨fun s rd ra imm h => ?_, fun s n e l hlive => ?_⟩
  · intro va loads
    have load : ∀ (i : Instr) (n : Nat) (signed : Bool), exec i s = .next (s.issueLoad rd ra imm n signed) → loads i n signed :=
      fun i n signed hi cells binds hx => exec_of_load h hi hx
    exact ⟨load _ _ _ rfl, load _ _ _ rfl, load _ _ _ rfl, load _ _ _ rfl, load _ _ _ rfl, load _ _ _ rfl, load _ _ _ rfl⟩
  · intro u hq hf m aligned reads got v
    have hexec : exec (.loadReturn n) s = .next u.returnLoad := congrArg Host.Outcome.next (onCore_live hlive)
    have hreads : reads = e.nextCells := by
      by_cases ha : aligned
      · rw [nextCells_aligned ha]; exact if_pos ha
      · rw [nextCells_misaligned ha]; exact if_neg ha
    have hv : v = loadValue e.signed got := rfl
    have hgot : got = e.got ++ u.readBytes e.nextCells := by rw [← hreads]; rfl
    refine ⟨fun hecc hm => ?_, fun hecc hm => ?_, fun hecc hr => ?_⟩
    · rw [hexec, returnLoad_ok hq hf (hreads ▸ hecc), ← hgot, if_pos hm]
      rfl
    · rw [hexec, returnLoad_ok hq hf (hreads ▸ hecc), ← hgot, if_neg (Nat.not_lt.2 hm), ← hv]
      simp only [State.updSeq, State.upd, Core.updSeq, Core.release]
      obtain ⟨g, hg⟩ := loadReg_frame { u.core.seq with lq := l } e.rd v
      refine ⟨_, rfl, (congrArg Sequencer.lq hg :), loadReg_g { u.core.seq with lq := l } e.rd v, (congrArg Sequencer.pc hg :), rfl⟩
    · rw [hexec, returnLoad_lost hq hf (hreads ▸ hecc) hr]
      simp only [State.addCause, State.updSeq, State.upd, Core.updSeq, Core.release]
      exact ⟨_, rfl, rfl, rfl, rfl, rfl⟩

/-! ### Stores -/

section
variable {s : State} {rd ra : Reg} {imm : BitVec 16} {n : Nat} {cells : List PAddr} {binds : List Nat} {i : Instr}

/-- A store whose address translates. -/
theorem exec_of_store (h : s.seqReady [rd, ra] 0) (hi : exec i s = .next (s.issueStore rd ra imm n))
    (hx : s.xlAccess (s.reg ra + imm.signExtend 64).toNat n true = .ok cells binds) : exec i s = .next (s.issueSeq
      (s.storePlain (s.reg ra + imm.signExtend 64).toNat (cells.zip (bytesOfNat n (s.reg rd).toNat)) binds)) := by
  rw [hi, State.issueStore, withRegs_ready h]
  simp only [State.effective, sext64]
  rw [translated_ok hx]

end

section
variable {s : State} {va : Nat} {cells : List (PAddr × Byte)} {binds : List Nat} (ha : s.core.seq.asyncReady = false)

theorem storePlain_plain (h : s.plain) : s.storePlain va cells binds = s.enqueue va (.plain cells) binds := by
  simp [State.storePlain, h.1, h.2]

include ha

theorem enqueue_room {k : StoreKind} (hl : s.core.seq.sq.length < 32) : s.issueSeq (s.enqueue va k binds) =
    s.advanced 1 (fun q => { q with sq := q.sq ++ [⟨s.core.issue, s.core.seq.pc, va, k, binds, false, false⟩], pc := s.nextPc }) := by
  rw [State.enqueue, if_neg (by omega), ← issueSeq_advanced ha]
  rfl

theorem enqueue_full {k : StoreKind} (hl : 32 ≤ s.core.seq.sq.length) : s.issueSeq (s.enqueue va k binds) = s.syncTrap 0x0301 1 := by
  rw [State.enqueue, if_pos hl]
  exact issueSeq_traps ha _ _

/-- A store that the open cinch admits joins its group. -/
theorem storePlain_cinch {c : Cinch} (hc : s.core.seq.cinch = some c) (hadm : c.admits (cells.map Prod.fst) = true) :
    s.issueSeq (s.storePlain va cells binds) = s.advanced 1 (fun q => { q with
      cinch := some { c with stores := c.stores ++ [⟨s.core.issue, s.core.seq.pc, va, .plain cells, binds, false, false⟩] }
      pc := s.nextPc }) := by
  simp only [State.storePlain, hc, State.joinCinch]
  rw [if_pos (by exact hadm), ← issueSeq_advanced ha]
  rfl

/-- A store to bytes that no region saved is held by the innermost one. -/
theorem storePlain_held {r : SeqRegion} {t : List SeqRegion} (hc : s.core.seq.cinch = none) (hr : s.core.seq.regions = r :: t)
    (hne : cells ≠ []) (hs : ∀ c ∈ cells, s.core.seq.savedByte c.1 = false) (hroom : s.core.roomFor 0 1 = true) :
    s.issueSeq (s.storePlain va cells binds) = s.advanced 0 (fun q => { q with
      regions := { r with held := r.held ++ [.store va cells binds false false] } :: t, pc := s.nextPc }) := by
  have hin : cells.filter (fun c => s.core.seq.savedByte c.1) = [] := List.filter_eq_nil_iff.2 fun c hm => by simp [hs c hm]
  have hout : cells.filter (fun c => !s.core.seq.savedByte c.1) = cells := List.filter_eq_self.2 fun c hm => by simp [hs c hm]
  simp only [State.storePlain, hc, hr, hin, hout, State.hold, hroom, List.isEmpty_cons, List.isEmpty_nil,
    show cells.isEmpty = false by simpa using hne, Bool.false_eq_true, if_false, if_true]
  rw [← issueSeq_advanced ha]
  rfl

end

/-! ### The oldest store -/

/-- R82: a store's bytes go to memory at once where at most one is left or none is written yet of a naturally aligned one. -/
def StoreEntry.Whole (e : StoreEntry) (cells : List (PAddr × Byte)) : Prop :=
  cells.length ≤ 1 ∨ (e.begun = false ∧ (cells.length = 2 ∨ cells.length = 4 ∨ cells.length = 8) ∧
    ∀ c ∈ cells.head?, c.1.addr % cells.length = 0)

section
variable {e : StoreEntry} {cells : List (PAddr × Byte)} (hk : e.kind = .plain cells)
include hk

theorem split_whole (h : e.Whole cells) : e.split = (e, none) := by
  rw [StoreEntry.split, hk]
  match cells, h with
  | [], _ => rfl
  | [_], _ => rfl
  | c :: d :: l, h =>
    obtain ⟨hb, hm, hal⟩ := h.resolve_left (by simp)
    refine if_neg ?_
    rw [hb, Bool.false_or, bytewise_iff]
    refine fun hn => hn.2 ⟨?_, fun p hp => ?_⟩
    · rw [List.length_map]; exact .inr hm
    · simpa [← Option.some.inj hp] using hal c rfl

theorem split_bytes (h : ¬ e.Whole cells) : e.split =
    ({ e with kind := .plain (cells.take 1) }, some { e with kind := .plain (cells.drop 1), begun := true }) := by
  rw [StoreEntry.split, hk]
  match cells, h with
  | [], h => exact absurd (.inl (by simp)) h
  | [_], h => exact absurd (.inl (by simp)) h
  | c :: d :: l, h =>
    refine if_pos ?_
    rw [Bool.or_eq_true, bytewise_iff]
    by_cases hb : e.begun = true
    · exact .inl hb
    · refine .inr ⟨by simp, fun hal => h (.inr ⟨by simpa using hb, ?_, fun x hx => ?_⟩)⟩
      · simpa only [List.length_map, List.length_cons, Nat.add_eq_right, Nat.succ_ne_zero, false_or] using hal.1
      · simpa [← Option.some.inj hx] using hal.2 c.1 rfl

end

section
variable {u : State} {e : StoreEntry} {l : List StoreEntry}

/-- The oldest store, the write of whose next bytes passes its check. -/
theorem storeEvent_ok {now : List (PAddr × Byte)} {rest : Option StoreEntry} (hq : u.core.seq.sq = e :: l)
    (hf : u.core.fenceHolds .sq e.seq = false) (hs : e.kind.stamped = false)
    (hsplit : e.split = ({ e with kind := .plain now }, rest)) (hecc : u.eccWrite now = .ok) : u.storeEvent =
      (((((u.updSeq (fun q => { q with sq := l })).heal now).writeCells now).wrote .seq (now.map Prod.fst)).putBack e.told rest) := by
  have hst : (u.updSeq (fun q => { q with sq := l })).store now =
      (.ok, ((u.updSeq (fun q => { q with sq := l })).heal now).writeCells now) := store_ok hecc
  simp only [State.storeEvent, hq, hf, hs, Bool.or_self, Bool.false_eq_true, if_false, State.popStore, hsplit, State.performStore,
    State.performAccess, hst, StoreKind.places]

end

/-- What is left of a store goes back to the head of its queue; otherwise draining bindings that nothing uses any more are dropped. -/
theorem putBack_frame (s : State) (told : Bool) (r : Option StoreEntry) : ∃ d, s.putBack told r = s.updSeq (fun q => { q with
    sq := (r.map (fun r => { r with told := told })).toList ++ q.sq, draining := d }) := by
  cases r with
  | none => exact ⟨_, rfl⟩
  | some r => exact ⟨s.core.seq.draining, rfl⟩

/-- Settles O5. -/
theorem storesAreQueuedAndPerformed : Obligations.StoresAreQueuedAndPerformed := by
  unfold Obligations.StoresAreQueuedAndPerformed
  refine ⟨fun s rd ra imm h => ?_, fun s n e l cells hwf hlive => ?_⟩
  · intro va stores
    have store : ∀ (i : Instr) (n : Nat), exec i s = .next (s.issueStore rd ra imm n) → stores i n := by
      intro i n hi places binds hx bytes entry
      rw [exec_of_store h hi hx]
      refine ⟨fun hp hl => congrArg _ ?_, fun hp hl => congrArg _ ?_, fun c hc hadm => congrArg _ (storePlain_cinch h.1 hc hadm),
        fun r t hc hr hne hs hroom => congrArg _ (storePlain_held h.1 hc hr hne hs hroom)⟩
      · rw [storePlain_plain hp, enqueue_room h.1 hl]
      · rw [storePlain_plain hp, enqueue_full h.1 hl]
    exact ⟨store _ _ rfl, store _ _ rfl, store _ _ rfl, store _ _ rfl⟩
  · intro u hq hk hf m whole now left hecc
    obtain ⟨rest, hsplit, hleft⟩ : ∃ rest, e.split = ({ e with kind := .plain now }, rest) ∧
        (rest.map (fun r => { r with told := e.told })).toList ++ l = left := by
      by_cases hw : whole
      · exact ⟨none, by rw [split_whole hk hw, show now = cells from if_pos hw, ← hk], (if_pos hw).symm⟩
      · exact ⟨_, by rw [split_bytes hk hw, show now = cells.take 1 from if_neg hw], (if_neg hw).symm⟩
    have hexec : exec (.storePerformed n) s = .next u.storeEvent := congrArg Host.Outcome.next (onCore_live hlive)
    rw [hexec, storeEvent_ok hq hf (by rw [hk]; rfl) hsplit hecc]
    obtain ⟨o, ho⟩ := focus_frame s n
    have huwf : u.memWf = true := by rw [show u = _ from ho]; exact hwf
    have hwf1 : ((u.updSeq (fun q => { q with sq := l })).heal now).memWf = true := huwf
    have hother := fun p hp => State.readByte_writeCells_other (s := (u.updSeq (fun q => { q with sq := l })).heal now) (l := now) (q := p) hp hwf1
    have hsame := fun hn c => State.readByte_writeCells_same (s := (u.updSeq (fun q => { q with sq := l })).heal now) (l := now) hn hwf1 (c := c)
    obtain ⟨a, b, c, hv⟩ := State.writeCells_frame now ((u.updSeq (fun q => { q with sq := l })).heal now)
    generalize hvdef : ((u.updSeq (fun q => { q with sq := l })).heal now).writeCells now = v at *
    obtain ⟨eff, hwr⟩ := wrote_frame v .seq (now.map Prod.fst)
    obtain ⟨d, hpb⟩ := putBack_frame (v.wrote .seq (now.map Prod.fst)) e.told rest
    refine ⟨_, rfl, ?_⟩
    rw [hpb, hwr]
    refine ⟨?_, ?_, ?_, fun p hp => ?_, fun hn x hx => ?_, ?_⟩
    · rw [hv]; exact hleft
    · rw [hv]; rfl
    · rw [hv]; rfl
    · exact hother p fun x hx he => hp (he ▸ List.mem_map_of_mem hx)
    · exact hsame hn x hx
    · rw [hv]; exact ⟨rfl, rfl, rfl, rfl, rfl, rfl, rfl, rfl⟩

end Sys2Proof.Machine
end

section
/-!
PROOFS. Handle slots and views: what binds, page walks, `hnd.free`, `hnd.stat` and `view.set` leave (R87 to R91, R96, R211, R214, R218): O9, O10.
-/
namespace Sys2Proof.Machine

/-! ### Detaching a slot (R88, R90) -/

theorem set_none_of_none {α : Type} {n : Nat} {v : Vector (Option α) n} {i : Fin n} (h : v[i] = none) : v.set i none = v := by
  have hv : v[i.val] = none := h
  rw [← hv, Vector.set_getElem_self]

theorem detach_none {c : Core} {h : Hnd} (hn : c.seq.h[h] = none) : c.detach h = c := by rw [Core.detach, hn]

theorem detach_some {c : Core} {h : Hnd} {b : Binding} (hb : c.seq.h[h] = some b) : c.detach h = c.updSeq (fun q => { q with
    h := q.h.set h none
    draining := (if b.revoked then q.draining else q.draining ++ [b]).filter c.drains }) := by
  rw [Core.detach, hb]
  rfl

/-- Whatever the slot held, it holds nothing then; the draining bindings may change, and nothing else does. -/
theorem detach_frame (c : Core) (h : Hnd) : ∃ d, c.detach h = c.updSeq (fun q => { q with h := q.h.set h none, draining := d }) := by
  cases hb : c.seq.h[h] with
  | none => exact ⟨c.seq.draining, by rw [detach_none hb, Core.updSeq, set_none_of_none hb]⟩
  | some b => exact ⟨_, detach_some hb⟩

/-! ### Binds (R87) -/

/-- The binding that a bind makes, in its slot, and what the bind leaves of the rest. -/
structure State.Bound (s t : State) (h : Hnd) (base len : Nat) (kind : Space) (w : Bool) (segs : List Seg) (stale : Bool) : Prop where
  slot : t.core.seq.h[h] = some ⟨s.core.issue, h, base, len, kind, w, segs, stale, false⟩
  others : ∀ h' : Hnd, h' ≠ h → t.core.seq.h[h'] = s.core.seq.h[h']
  walk : t.core.seq.walk = none
  pc : t.core.seq.pc = s.nextPc
  g : t.core.seq.g = s.core.seq.g
  mem : s.sameMemory t
  vec : t.core.vec = s.core.vec
  mat : t.core.mat = s.core.mat
  xfer : t.core.xfer = s.core.xfer

section
variable {s : State} (ha : s.core.seq.asyncReady = false)
include ha

theorem bindSlot_bound (h : Hnd) (base len : Nat) (kind : Space) (w : Bool) (segs : List Seg) (stale : Bool) :
    s.Bound (s.issueSeq (.done (s.bindSlot h base len kind w segs stale).next)) h base len kind w segs stale := by
  obtain ⟨d, hd⟩ := detach_frame s.core h
  have hs : s.upd (·.detach h) = s.updSeq (fun q => { q with h := q.h.set h none, draining := d }) :=
    congrArg (fun c => ({ s with core := c } : State)) hd
  rw [issueSeq_done ha, State.bindSlot, hs]
  simp only [State.next, State.seqSeen, Core.touch, State.updSeq, State.upd, Core.updSeq, Core.bump]
  refine ⟨Vector.getElem_set_self _, fun h' hne => ?_, rfl, rfl, rfl, ⟨rfl, rfl, rfl⟩, rfl, rfl, rfl⟩
  have hv : h.val ≠ h'.val := fun e => hne (Fin.ext e.symm)
  exact (Vector.getElem_set_ne h.isLt h'.isLt hv).trans (Vector.getElem_set_ne h.isLt h'.isLt hv)

end

section
variable {s : State} {rd ra : Reg} {h : Hnd} (hr : s.seqReady [rd, ra] 0) (hc : s.core.seq.cinch = none)
include hr hc

/-- A bind whose registers are ready, outside a cinch, makes its own checks. -/
theorem exec_hndBind : exec (.hndBind rd ra h) s = .next (s.issueSeq (
    if !s.core.slotOk h ∨ (s.reg rd).toNat = 0 ∨ (s.reg rd).toNat > 2 ^ 31 ∨ (s.reg ra).toNat + (s.reg rd).toNat - 1 ≥ 2 ^ 56 ∨
      !oneKind (s.reg ra).toNat (s.reg rd).toNat then .trap codeBounds (wordOfNat h.val)
    else if isWindow (s.reg ra).toNat then s.bindWindow h (s.reg ra).toNat (s.reg rd).toNat
    else s.bindPages h (s.reg ra).toNat (s.reg rd).toNat)) :=
  congrArg (fun k => Host.Outcome.next (s.issueSeq k)) ((noCinch_none hc _).trans (withRegs_ready hr))

theorem exec_hndBind_badSlot (hs : s.core.slotOk h = false) :
    exec (.hndBind rd ra h) s = .next (s.syncTrap 0x0201 (BitVec.ofNat 64 h.val)) := by
  rw [exec_hndBind hr hc, if_pos (.inl (by rw [hs]; rfl))]
  exact congrArg _ (issueSeq_traps hr.1 _ _)

variable (hs : s.core.slotOk h = true) (h0 : 0 < (s.reg rd).toNat) (hl : (s.reg rd).toNat ≤ 2 ^ 31)
  (htop : (s.reg ra).toNat + (s.reg rd).toNat - 1 < 2 ^ 56) (hk : oneKind (s.reg ra).toNat (s.reg rd).toNat = true)
include hs h0 hl htop hk

theorem exec_hndBind_checked : exec (.hndBind rd ra h) s = .next (s.issueSeq (
    if isWindow (s.reg ra).toNat then s.bindWindow h (s.reg ra).toNat (s.reg rd).toNat
    else s.bindPages h (s.reg ra).toNat (s.reg rd).toNat)) := by
  rw [exec_hndBind hr hc, if_neg]
  simp only [hs, hk, Bool.not_true, Bool.false_eq_true, false_or, or_false, not_or]
  omega

theorem exec_hndBind_window {pa : PAddr} (hw : isWindow (s.reg ra).toNat = true)
    (hg : s.windowGap (s.reg ra).toNat (s.reg rd).toNat = none)
    (hp : s.windowPlace s.core.ctxNum (some s.core.id) (s.reg ra).toNat = some pa) : exec (.hndBind rd ra h) s =
      .next (s.issueSeq (.done (s.bindSlot h (s.reg ra).toNat (s.reg rd).toNat .window true [⟨0, (s.reg rd).toNat, pa⟩] false).next)) := by
  rw [exec_hndBind_checked hr hc hs h0 hl htop hk, if_pos hw, State.bindWindow, hg]
  simp only [hp]

variable (hw : isWindow (s.reg ra).toNat = false)
include hw

theorem exec_hndBind_pages : exec (.hndBind rd ra h) s = .next (s.issueSeq (s.bindPages h (s.reg ra).toNat (s.reg rd).toNat)) := by
  rw [exec_hndBind_checked hr hc hs h0 hl htop hk, if_neg (by rw [hw]; exact Bool.false_ne_true)]

theorem exec_hndBind_starts (hn : s.core.seq.walk = none) : exec (.hndBind rd ra h) s = .next ((s.updSeq (fun q => { q with
    walk := some ⟨h, (s.reg ra).toNat, (s.reg rd).toNat, 2, [], pagesOf (s.reg ra).toNat (s.reg rd).toNat 65536, [], false⟩ })).updSeq
      (fun q => { q with wait := true })) := by
  rw [exec_hndBind_pages hr hc hs h0 hl htop hk hw, State.bindPages, hn]
  exact congrArg _ (issueSeq_wait hr.1)

theorem exec_hndBind_finishes {g : Seg} {w stale : Bool} {l : List (Seg × Bool)}
    (hj : s.core.seq.walk = some ⟨h, (s.reg ra).toNat, (s.reg rd).toNat, 2, (g, w) :: l, [], [], stale⟩)
    (hkind : ∀ d ∈ l, d.1.pa.space = g.pa.space) : exec (.hndBind rd ra h) s = .next (s.issueSeq (.done
      (s.bindSlot h (s.reg ra).toNat (s.reg rd).toNat g.pa.space (w && l.all (fun d => d.2)) (g :: l.map (fun d => d.1)) stale).next)) := by
  rw [exec_hndBind_pages hr hc hs h0 hl htop hk hw, State.bindPages, hj]
  have hany : ((g, w) :: l).any (fun d => decide (d.1.pa.space ≠ g.pa.space)) = false :=
    List.any_eq_false.2 (List.forall_mem_cons.2 ⟨by simp, fun d hd => by simp [hkind d hd]⟩)
  have hfin : s.finishBind ⟨h, (s.reg ra).toNat, (s.reg rd).toNat, 2, (g, w) :: l, [], [], stale⟩ = .done
      (s.bindSlot h (s.reg ra).toNat (s.reg rd).toNat g.pa.space (w && l.all (fun d => d.2)) (g :: l.map (fun d => d.1)) stale).next := by
    rw [State.finishBind]
    simp only [lowestFault]
    rw [if_neg (by rw [hany]; exact Bool.false_ne_true)]
    rfl
  exact congrArg (fun k => Host.Outcome.next (s.issueSeq k)) hfin

end

/-! ### Page walks (R211, R214, R218) -/

theorem pageStart_eq_iff (m a b : Nat) : pageStart m a = pageStart m b ↔ a / 2 ^ m = b / 2 ^ m :=
  Nat.mul_left_inj (Nat.two_pow_pos m).ne'

theorem beyondPage_eq (j : WalkJob) (m piece : Nat) :
    j.beyondPage m piece = j.todo.filter (fun a => decide (a / 2 ^ m ≠ piece / 2 ^ m)) := by
  simp only [WalkJob.beyondPage, ne_eq, pageStart_eq_iff]

/-- The stretch of a bind's range in a page begins at the later of the two beginnings. -/
theorem stretch_eq (j : WalkJob) (m piece : Nat) (pa : PAddr) : j.stretch m piece pa =
    ⟨max j.base (piece / 2 ^ m * 2 ^ m) - j.base,
      min (j.base + j.len) (piece / 2 ^ m * 2 ^ m + 2 ^ m) - max j.base (piece / 2 ^ m * 2 ^ m),
      ⟨pa.space, pa.addr - piece % 2 ^ m + max j.base (piece / 2 ^ m * 2 ^ m) % 2 ^ m⟩⟩ := by
  simp only [WalkJob.stretch, pageSpan, pageStart, Nat.add_sub_cancel' (le_max_left _ _)]

section
variable {u : State} {k piece : Nat} {j : WalkJob} (hj : u.core.seq.walk = some j) (hp : j.todo[k]? = some piece)
include hj hp

theorem finishWalk_ok {pa : PAddr} {w : Bool} {m : Nat} (hw : u.walk u.core.ctxNum (some u.core.id) piece false = .ok pa w m) :
    u.finishWalk k = u.updSeq (fun q => { q with
      walk := some { j with todo := j.beyondPage m piece, done := j.done ++ [(j.stretch m piece pa, w)] } }) := by
  simp only [State.finishWalk, hj, hp, hw]

theorem finishWalk_fault {f : XlFault} {m : Nat} (hw : u.walk u.core.ctxNum (some u.core.id) piece false = .fault f m) :
    u.finishWalk k = u.updSeq (fun q => { q with walk := some { j with
      todo := j.beyondPage m piece, failed := j.failed ++ [(pageStart m piece, f.cause, wordOfNat f.entry, f.level)] } }) := by
  simp only [State.finishWalk, hj, hp, hw]

end

/-- Settles O9. -/
theorem handlesAreBoundByWalks : Obligations.HandlesAreBoundByWalks := by
  unfold Obligations.HandlesAreBoundByWalks
  refine ⟨fun s rd ra h hr hc => ?_, fun s n k piece j hlive => ?_⟩
  · intro base len bound
    have made : ∀ kind w segs stale, bound (s.issueSeq (.done (s.bindSlot h base len kind w segs stale).next)) kind w segs stale := by
      intro kind w segs stale
      obtain ⟨hslot, hothers, hwalk, hpc, hg, hmem, hvec, hmat, hxfer⟩ := bindSlot_bound hr.1 h base len kind w segs stale
      exact ⟨hslot, hothers, hwalk, hpc, hg, hmem, hvec, hmat, hxfer⟩
    exact ⟨exec_hndBind_badSlot hr hc, fun hs h0 hl htop hk =>
      ⟨fun hw hg pa hp => ⟨_, exec_hndBind_window hr hc hs h0 hl htop hk hw hg hp, made _ _ _ _⟩,
       fun hw hn => ⟨_, exec_hndBind_starts hr hc hs h0 hl htop hk hw hn, rfl, ⟨rfl, rfl⟩, rfl⟩,
       fun g w stale l hw hj hkind => ⟨_, exec_hndBind_finishes hr hc hs h0 hl htop hk hw hj hkind, made _ _ _ _⟩⟩⟩
  · intro u hj hp others
    have hexec : exec (.walkComplete n k) s = .next (u.finishWalk k) := congrArg Host.Outcome.next (onCore_live hlive)
    refine ⟨fun pa w m hw => ?_, fun f m hw => ?_⟩
    · intro page low
      rw [hexec, finishWalk_ok hj hp hw, beyondPage_eq, stretch_eq]
      rfl
    · rw [hexec, finishWalk_fault hj hp hw, beyondPage_eq]
      rfl

/-! ### Freeing and reading slots (R88 to R90) -/

/-- The draining bindings once a slot's binding x has left it. -/
def Core.drainingAfter (c : Core) (x : Binding) : List Binding :=
  (if x.revoked then c.seq.draining else c.seq.draining ++ [x]).filter c.drains

section
variable {s : State} {h : Hnd} (hc : s.core.seq.cinch = none)
include hc

theorem exec_hndFree (hs : s.core.slotOk h = true) : exec (.hndFree h) s = .next (s.issueSeq (.done
    (if (s.core.seq.h[h]).isSome then s.seqSeen.upd (·.detach h) else s.upd (·.detach h)).next)) :=
  congrArg (fun k => Host.Outcome.next (s.issueSeq k)) ((noCinch_none hc _).trans (if_neg (by rw [hs]; decide)))

variable (ha : s.core.seq.asyncReady = false)
include ha

theorem exec_hndFree_badSlot (hs : s.core.slotOk h = false) : exec (.hndFree h) s = .next (s.syncTrap 0x0201 s.openDetail) := by
  rw [← issueSeq_traps ha]
  exact congrArg (fun k => Host.Outcome.next (s.issueSeq k)) ((noCinch_none hc _).trans (if_pos (by rw [hs]; rfl)))

theorem exec_hndFree_unbound (hs : s.core.slotOk h = true) (hn : s.core.seq.h[h] = none) :
    exec (.hndFree h) s = .next (s.passing s.nextPc) := by
  have hd : s.upd (·.detach h) = s := congrArg (fun c => ({ s with core := c } : State)) (detach_none hn)
  rw [exec_hndFree hc hs, if_neg (by rw [hn]; decide), hd, issueSeq_next ha]

theorem exec_hndFree_bound {b : Binding} (hs : s.core.slotOk h = true) (hb : s.core.seq.h[h] = some b) :
    exec (.hndFree h) s = .next (s.seqSeen.advanced 0 (fun q => { q with
      pc := s.nextPc, h := q.h.set h none, draining := s.core.drainingAfter b })) := by
  have hd : s.seqSeen.core.detach h = s.seqSeen.core.updSeq (fun q => { q with
      h := q.h.set h none, draining := s.core.drainingAfter b }) := detach_some hb
  have hu : s.seqSeen.upd (·.detach h) = s.seqSeen.updSeq (fun q => { q with
      h := q.h.set h none, draining := s.core.drainingAfter b }) := congrArg (fun c => ({ s.seqSeen with core := c } : State)) hd
  rw [exec_hndFree hc hs, if_pos (by rw [hb]; rfl), hu, issueSeq_done ha]
  rfl

end

/-! ### The word of `hnd.stat` (R89) -/

theorem getLsbD_eq_decide {n : Nat} (v : BitVec n) (i : Nat) : v.getLsbD i = decide (v.toNat / 2 ^ i % 2 = 1) := by
  rw [BitVec.getLsbD, Nat.testBit_eq_decide_div_mod_eq]

theorem decide_bit (b : Bool) : decide (bit b = 1) = b := by cases b <;> rfl

theorem bit_le (b : Bool) : bit b ≤ 1 := by cases b <;> decide

theorem spaceCode_lt (k : Space) : spaceCode k < 4 := by cases k <;> decide

section
variable {c : Core} {h : Hnd}

/-- Whether a binding that the slot held still drains. -/
def Core.slotDrains (c : Core) (h : Hnd) : Bool := c.seq.draining.any (fun b => decide (b.slot = h))

theorem handleWord_none (hn : c.seq.h[h] = none) : (c.handleWord h).toNat = 2 ^ 61 * bit (c.slotDrains h) := by
  have hd := bit_le (c.seq.draining.any (fun b => decide (b.slot = h)))
  simp only [Core.handleWord, hn, wordOfNat, BitVec.toNat_ofNat, put, Core.slotDrains]
  omega

theorem handleWord_some {b : Binding} (hb : c.seq.h[h] = some b) : (c.handleWord h).toNat = 2 ^ 63 + 2 ^ 62 * bit b.writable +
    2 ^ 61 * bit (c.slotDrains h) + 2 ^ 60 * bit b.revoked + 2 ^ 58 * spaceCode b.kind + 2 ^ 32 * min (c.inFlight b.id) 65535 +
    b.len % 2 ^ 32 := by
  have hd := bit_le (c.seq.draining.any (fun b => decide (b.slot = h)))
  have hw := bit_le b.writable
  have hr := bit_le b.revoked
  have hk := spaceCode_lt b.kind
  simp only [Core.handleWord, hb, wordOfNat, BitVec.toNat_ofNat, put, Core.slotDrains]
  omega

/-- Bit 61 tells of draining, whether the slot is bound or not. -/
theorem handleWord_drains : (c.handleWord h).getLsbD 61 = c.slotDrains h := by
  have hd := bit_le (c.slotDrains h)
  rw [getLsbD_eq_decide, ← decide_bit (c.slotDrains h)]
  congr 2
  cases hb : c.seq.h[h] with
  | none => rw [handleWord_none hb]; omega
  | some b =>
    have hw := bit_le b.writable
    have hr := bit_le b.revoked
    have hk := spaceCode_lt b.kind
    rw [handleWord_some hb]
    omega

theorem handleWord_unbound (hn : c.seq.h[h] = none) :
    (c.handleWord h).toNat % 2 ^ 61 = 0 ∧ (c.handleWord h).getLsbD 63 = false := by
  have hd := bit_le (c.slotDrains h)
  rw [getLsbD_eq_decide, handleWord_none hn]
  exact ⟨by omega, decide_eq_false (by omega)⟩

theorem handleWord_bound {b : Binding} (hb : c.seq.h[h] = some b) (hlen : b.len < 2 ^ 32) :
    (c.handleWord h).toNat % 2 ^ 32 = b.len ∧ (c.handleWord h).toNat / 2 ^ 32 % 2 ^ 16 = min (c.inFlight b.id) 65535 ∧
    (c.handleWord h).toNat / 2 ^ 58 % 4 = spaceCode b.kind ∧ (c.handleWord h).getLsbD 60 = b.revoked ∧
    (c.handleWord h).getLsbD 62 = b.writable ∧ (c.handleWord h).getLsbD 63 = true := by
  have hd := bit_le (c.slotDrains h)
  have hw := bit_le b.writable
  have hr := bit_le b.revoked
  have hk := spaceCode_lt b.kind
  rw [getLsbD_eq_decide, getLsbD_eq_decide, getLsbD_eq_decide, handleWord_some hb, ← decide_bit b.revoked, ← decide_bit b.writable,
    decide_eq_decide, decide_eq_decide, decide_eq_true_iff, decide_bit, decide_bit]
  omega

end

section
variable {s : State} {rd : Reg} {h : Hnd} (hr : s.seqReady [] rd)
include hr

theorem exec_hndStat_badSlot (hs : s.core.slotOk h = false) : exec (.hndStat rd h) s = .next (s.syncTrap 0x0201 s.openDetail) := by
  rw [← issueSeq_traps hr.1]
  exact congrArg (fun k => Host.Outcome.next (s.issueSeq k)) (if_pos (by rw [hs]; rfl))

theorem exec_hndStat (hs : s.core.slotOk h = true) : exec (.hndStat rd h) s = .next (s.resulting rd (s.core.handleWord h) s.nextPc) := by
  rw [← compute_ready hr]
  exact congrArg (fun k => Host.Outcome.next (s.issueSeq k)) (if_neg (by rw [hs]; decide))

end

/-! ### Views (R96) -/

section
variable {s : State} {v : Fin 8} {ra : Reg} (hr : s.seqReady [ra] 0)
include hr

theorem exec_viewSet_ok (hv : viewOk (s.reg ra) = true) : exec (.viewSet v ra) s = .next
    (({ s.seqSeen with core := { s.seqSeen.core with views := s.core.views.set v (s.reg ra) } } : State).passing s.nextPc) := by
  rw [exec_of_ready rfl hr, if_pos hv, issueSeq_done hr.1]
  rfl

theorem exec_viewSet_bad (hv : viewOk (s.reg ra) = false) :
    exec (.viewSet v ra) s = .next (s.syncTrap 0x0201 (BitVec.ofNat 64 v.val)) := by
  rw [exec_of_ready rfl hr, if_neg (by rw [hv]; decide)]
  exact congrArg _ (issueSeq_traps hr.1 _ _)

end

/-- Settles O10. -/
theorem handlesAreFreedAndViewsSet : Obligations.HandlesAreFreedAndViewsSet := by
  unfold Obligations.HandlesAreFreedAndViewsSet
  refine ⟨fun s rd h => ⟨fun hs => ⟨fun ha hc => exec_hndFree_badSlot hc ha hs, fun hr => exec_hndStat_badSlot hr hs⟩,
    fun hs ha hc => ⟨exec_hndFree_unbound hc ha hs, ?_⟩, fun hs hr => ⟨_, exec_hndStat hr hs, handleWord_unbound, handleWord_drains,
      fun b => handleWord_bound⟩⟩, fun s v ra hr => ⟨fun hv => ?_, exec_viewSet_bad hr⟩⟩
  · cases hb : s.core.seq.h[h] with
    | none =>
      refine ⟨_, exec_hndFree_unbound hc ha hs hb, (set_none_of_none hb).symm, rfl, ?_, fun b hbad => nomatch hbad⟩
      exact ⟨rfl, rfl⟩
    | some b =>
      refine ⟨_, exec_hndFree_bound hc ha hs hb, rfl, rfl, ⟨rfl, rfl⟩, fun b' hb' => ?_⟩
      cases hb'
      show (if b.revoked = true then s.core.seq.draining else s.core.seq.draining ++ [b]).filter s.core.drains = _
      cases b.revoked
      · rfl
      · simp
  · exact ⟨_, exec_viewSet_ok hr hv, rfl, rfl, rfl, rfl, rfl, rfl, rfl⟩

end Sys2Proof.Machine
end

section
/-!
PROOFS. Engine streams as the sequencer starts, stops, joins and reads them, and the boundary at which a stream stops (R17, R92 to R95, R271,
R301, R302, R322): O11.
-/
namespace Sys2Proof.Machine

/-! ### What a start puts in order (R124, R310) -/

/-- Saved lines restored outside every region: the tree and the list of lost lines change. -/
theorem restoreLines_frame {c : Core} {full : Core → Nat → Bool} {mark : Core → Nat → Bool → Core}
    (hm : ∀ (t : List (Nat × Line)) (l : List Nat) (n : Nat) (b : Bool),
      mark { c with tree := t, treeLost := l } n b = Core.setFull { c with tree := t, treeLost := l } n b) (l : List SavedLine) :
    ∃ t x, c.restoreLines full mark l = { c with tree := t, treeLost := x } := by
  refine List.foldlRecOn l _ (motive := fun d : Core => ∃ (t : List (Nat × Line)) (x : List Nat),
    d = { c with tree := t, treeLost := x }) ⟨c.tree, c.treeLost, rfl⟩ ?_
  rintro d ⟨t, x, rfl⟩ y -
  have hdata : ∃ t' x', (if y.lost then ({ c with tree := t, treeLost := y.line :: x } : Core)
      else (Core.putData { c with tree := t, treeLost := x } y.line y.old.data).healLine y.line) = { c with tree := t', treeLost := x' } := by
    split <;> exact ⟨_, _, rfl⟩
  obtain ⟨t', x', hd⟩ := hdata
  simp only [hd]
  split
  · exact ⟨_, _, rfl⟩
  · rw [hm]; exact ⟨_, _, rfl⟩

theorem dropVecRegions_frame (c : Core) : ∃ v t x, c.dropVecRegions = { c with vec := v, tree := t, treeLost := x } := by
  obtain ⟨t, x, h⟩ := restoreLines_frame (c := c.updVec (fun v => { v with regions := [] })) (full := fun c => c.fullAs c.vec.marks)
    (mark := Core.vecMark) (fun _ _ _ _ => rfl) (c.vec.regions.flatMap (·.saved))
  exact ⟨_, t, x, by rw [Core.dropVecRegions, h]; rfl⟩

theorem dropXferRegions_frame (c : Core) : ∃ e t x, c.dropXferRegions = { c with xfer := e, tree := t, treeLost := x } := by
  rw [Core.dropXferRegions]
  split
  · exact ⟨_, _, _, rfl⟩
  · obtain ⟨t, x, h⟩ := restoreLines_frame (c := c.updXfer (fun x => { x with regions := [] })) (full := fun c => c.fullAs c.xfer.marks)
      (mark := fun c n f => c.xferMark true n f) (fun _ _ _ _ => rfl) (c.xfer.regions.flatMap (·.saved))
    exact ⟨_, t, x, by rw [h]; rfl⟩

/-- Another engine, the registers and the views stay as they are. -/
structure Core.StartFrame (c d : Core) (e : Eng) : Prop where
  others : ∀ e' : Eng, e' ≠ e → d.eng e' = c.eng e'
  pc : d.seq.pc = c.seq.pc
  g : d.seq.g = c.seq.g
  views : d.views = c.views

theorem prepareStart_frame (c : Core) (e : Eng) : c.StartFrame (c.prepareStart e) e := by
  cases e with
  | vec =>
    obtain ⟨v, t, x, h⟩ := dropVecRegions_frame c
    rw [Core.prepareStart, h]
    refine ⟨fun e' hne => ?_, rfl, rfl, rfl⟩
    cases e' with
    | vec => exact absurd rfl hne
    | mat => rfl
    | xfer => rfl
  | mat =>
    refine ⟨fun e' hne => ?_, rfl, rfl, rfl⟩
    cases e' with
    | vec => rfl
    | mat => exact absurd rfl hne
    | xfer => rfl
  | xfer =>
    obtain ⟨y, t, x, h⟩ := dropXferRegions_frame c
    rw [Core.prepareStart, h]
    refine ⟨fun e' hne => ?_, rfl, rfl, rfl⟩
    cases e' with
    | vec => rfl
    | mat => rfl
    | xfer => exact absurd rfl hne

/-! ### `eng.start`, `eng.stop`, `eng.join` (R92 to R94) -/

/-- An engine started anew at an entry. -/
def Engine.startedAt (x : Engine) (entry : BitVec 14) : Engine :=
  { x with st := .run, pc := BitVec.ofNat 64 (4 * entry.toNat), code := 0, stopReq := false, strike := none }

section
variable {s : State} {e : Eng} {entry : BitVec 14}

/-- A stream at rest that no report waits for. -/
theorem exec_engStart (hl : (s.core.eng e).st.live = false) (hs : (s.core.eng e).strike = none) : exec (.engStart e entry) s =
    .next (s.issueSeq (.done (State.next { s with core := (((s.core.prepareStart e).updEng e (·.startedAt entry)).updSeq (·.stopOver e)) }))) := by
  refine congrArg (fun k => Host.Outcome.next (s.issueSeq k)) ((if_neg (by rw [hl]; decide)).trans ?_)
  rw [State.startEng, hs]
  rfl

variable (ha : s.core.seq.asyncReady = false)
include ha

theorem exec_engStart_live (hl : (s.core.eng e).st.live = true) : exec (.engStart e entry) s = .next s.held := by
  rw [← issueSeq_held ha]
  exact congrArg (fun k => Host.Outcome.next (s.issueSeq k)) (if_pos hl)

theorem exec_engJoin_live (hl : (s.core.eng e).st.live = true) : exec (.engJoin e) s = .next s.held := by
  rw [← issueSeq_held ha]
  exact congrArg (fun k => Host.Outcome.next (s.issueSeq k)) (if_pos hl)

theorem exec_engJoin_rest (hl : (s.core.eng e).st.live = false) : exec (.engJoin e) s = .next (s.passing s.nextPc) := by
  rw [← issueSeq_next ha]
  exact congrArg (fun k => Host.Outcome.next (s.issueSeq k)) (if_neg (by rw [hl]; decide))

theorem exec_engStop_rest (hl : (s.core.eng e).st.live = false) : exec (.engStop e) s = .next (s.passing s.nextPc) := by
  rw [← issueSeq_next ha]
  exact congrArg (fun t => Host.Outcome.next (s.issueSeq (.done t))) (if_neg (by rw [hl]; decide))

theorem exec_engStop_live (hl : (s.core.eng e).st.live = true) :
    exec (.engStop e) s = .next ((s.updEng e (fun x => { x with stopReq := true })).passing s.nextPc) := by
  have hi : exec (.engStop e) s = .next (s.issueSeq (.done (s.updEng e (fun x => { x with stopReq := true })).next)) :=
    congrArg (fun t => Host.Outcome.next (s.issueSeq (.done t))) (if_pos hl)
  rw [hi, issueSeq_done ha]
  cases e <;> rfl

/-- What a start leaves. -/
theorem engStart_starts (hl : (s.core.eng e).st.live = false) (hs : (s.core.eng e).strike = none) :
    ∃ t, exec (.engStart e entry) s = .next t ∧ (t.core.eng e).st = .run ∧
      (t.core.eng e).pc = BitVec.ofNat 64 (4 * entry.toNat) ∧ (t.core.eng e).code = 0 ∧ (t.core.eng e).stopReq = false ∧
      (∀ e' : Eng, e' ≠ e → t.core.eng e' = s.core.eng e') ∧ t.core.seq.pc = s.nextPc ∧ t.core.seq.g = s.core.seq.g ∧ s.sameMemory t ∧
      t.core.views = s.core.views := by
  obtain ⟨hothers, hpc, hg, hviews⟩ := prepareStart_frame s.core e
  refine ⟨_, exec_engStart hl hs, ?_⟩
  rw [issueSeq_done ha]
  have hsame := Core.eng_updEng_same (s.core.prepareStart e) e (·.startedAt entry)
  simp only [State.next, State.updSeq_core, Core.updSeq_seq, Core.eng_updSeq, Core.updEng_seq, hsame, Core.updSeq_views]
  refine ⟨rfl, rfl, rfl, rfl, fun e' hne => (Core.eng_updEng_other _ _ hne).trans (hothers e' hne), ?_, ?_, ⟨rfl, rfl, rfl⟩, ?_⟩
  · exact congrArg (· + 4) hpc
  · exact hg
  · rw [← hviews]
    cases e <;> rfl

end

/-! ### `eng.stat` (R95) -/

section
variable (x : Engine)

theorem statWord_idle (h : x.st = .idle) : x.statWord = 0 := by rw [Engine.statWord, h]; rfl

theorem statWord_run (h : x.st = .run) : x.statWord = BitVec.ofNat 64 (1 + 2 ^ 48 * (x.pc.toNat / 4 % 65536)) := by
  rw [Engine.statWord, h]
  refine congrArg (BitVec.ofNat 64) ?_
  simp only [EngState.code, put]
  omega

theorem statWord_ended (h : x.st = .ended) : x.statWord = BitVec.ofNat 64 (3 + 2 ^ 48 * (x.pc.toNat / 4 % 65536)) := by
  rw [Engine.statWord, h]
  refine congrArg (BitVec.ofNat 64) ?_
  simp only [EngState.code, put]
  omega

theorem statWord_stopped (h : x.st = .stopped) :
    x.statWord = BitVec.ofNat 64 (4 + 2 ^ 32 * x.code.toNat + 2 ^ 48 * (x.pc.toNat / 4 % 65536)) := by
  have hcode := x.code.isLt
  rw [Engine.statWord, h]
  refine congrArg (BitVec.ofNat 64) ?_
  simp only [EngState.code, put]
  omega

theorem statWord_wait {kind line : Nat} (h : x.st = .wait kind line) : x.statWord.toNat % 8 = 2 ∧
    x.statWord.toNat / 16 % 16 = kind % 16 ∧ x.statWord.toNat / 2 ^ 48 = x.pc.toNat / 4 % 65536 := by
  rw [Engine.statWord, h]
  simp only [EngState.code, put, wordOfNat, BitVec.toNat_ofNat]
  generalize (if kind = 1 ∨ kind = 2 ∨ kind = 9 ∨ kind = 6 then line else 0) = n
  omega

end

/-! ### The boundary of an `eng.stop` (R271, R301, R322) -/

/-- A field of a number as the bits of it. -/
theorem field_toNat {n : Nat} (r : BitVec n) (lo w : Nat) : r.toNat / 2 ^ lo % 2 ^ w = (r.extractLsb' lo w).toNat := by
  rw [BitVec.extractLsb'_toNat, Nat.shiftRight_eq_div_pow]

/-- A stop that `eng.stop` asked for: a record of kind 1, and no trap. -/
theorem stopWith_requested (s : State) (e : Eng) (code : Code) (at_ : Word) (spill mayCore mayLeft : Bool) (detail : Word) :
    s.stopWith e 1 code at_ spill mayCore mayLeft detail =
      (s.upd (·.withRecord e.stream (s.stopBits e 1 code at_ spill mayCore mayLeft detail))).updEng e (·.halted code) := by
  simp only [State.stopWith, State.record, Core.withRecord, ne_eq, OfNat.one_ne_ofNat, one_ne_zero, not_false_eq_true, decide_true,
    Bool.and_true, if_false]
  rfl

/-- The machine v differs from u in its engines alone, and the engine e stands at the same word. -/
def State.sameButEngines (u v : State) (e : Eng) : Prop :=
  (∃ a b c, v = { u with core := { u.core with vec := a, mat := b, xfer := c } }) ∧ (v.core.eng e).pc = (u.core.eng e).pc

/-- What a stop that `eng.stop` asked for leaves. -/
structure State.StoppedAt (u t : State) (e : Eng) : Prop where
  st : (t.core.eng e).st = .stopped
  code : (t.core.eng e).code = 0
  stopReq : (t.core.eng e).stopReq = false
  pc : (t.core.eng e).pc = (u.core.eng e).pc
  traps : t.core.seq.traps = u.core.seq.traps
  g : t.core.seq.g = u.core.seq.g
  mem : u.sameMemory t
  tree : t.core.tree = u.core.tree
  written : t.core.written = u.core.written.set (Fin.ofNat 4 e.stream.code : Fin 4) (u.core.written[(Fin.ofNat 4 e.stream.code : Fin 4)] + 1)
  record : ∃ r : BitVec 512, r.toNat % 4 = e.stream.code ∧ r.toNat / 2 ^ 8 % 16 = 1 ∧ r.toNat / 2 ^ 16 % 2 ^ 16 = 0 ∧
    r.toNat / 2 ^ 32 % 2 ^ 16 = (u.core.eng e).pc.toNat / 4 % 2 ^ 16 ∧ r.toNat / 2 ^ 48 % 2 ^ 16 = (u.core.eng e).pc.toNat / 4 % 2 ^ 16 ∧
    (u.core.seq.stopPending e.stream = false → t.core.records = u.core.records.set (Fin.ofNat 4 e.stream.code : Fin 4) r) ∧
    (u.core.seq.stopPending e.stream = true → t.core.records = u.core.records ∧ t.core.waiting = u.core.waiting ++ [(e.stream, r)])

/-- The fields of the record of such a stop. -/
theorem stopBits_requested (v : State) (e : Eng) (spill : Bool) (detail : Word) :
    let r := v.stopBits e 1 codeOk (v.core.eng e).pc spill false false detail
    r.toNat % 4 = e.stream.code ∧ r.toNat / 2 ^ 8 % 16 = 1 ∧ r.toNat / 2 ^ 16 % 2 ^ 16 = 0 ∧
    r.toNat / 2 ^ 32 % 2 ^ 16 = (v.core.eng e).pc.toNat / 4 % 2 ^ 16 ∧ r.toNat / 2 ^ 48 % 2 ^ 16 = (v.core.eng e).pc.toNat / 4 % 2 ^ 16 := by
  intro r
  have hstream : r.toNat / 2 ^ 0 % 2 ^ 2 = e.stream.code := (field_toNat r 0 2).trans (recordBits_stream ..)
  have hkind : r.toNat / 2 ^ 8 % 2 ^ 4 = 1 := (field_toNat r 8 4).trans (congrArg BitVec.toNat (recordBits_kind ..))
  have hcode : r.toNat / 2 ^ 16 % 2 ^ 16 = 0 := (field_toNat r 16 16).trans (congrArg BitVec.toNat (recordBits_code ..))
  have hat : r.toNat / 2 ^ 32 % 2 ^ 16 = (v.core.eng e).pc.toNat / 4 % 2 ^ 16 := (field_toNat r 32 16).trans (recordBits_at ..)
  have hpc : r.toNat / 2 ^ 48 % 2 ^ 16 = (v.core.eng e).pc.toNat / 4 % 2 ^ 16 := (field_toNat r 48 16).trans (recordBits_pc ..)
  exact ⟨by simpa using hstream, hkind, hcode, hat, hpc⟩

theorem stopEngine_requested {u v : State} {e : Eng} (h : u.sameButEngines v e) :
    u.StoppedAt (v.stopEngine e 1 codeOk (u.core.eng e).pc false false false) e := by
  obtain ⟨⟨a, b, c, hv⟩, hpc⟩ := h
  have hbits := stopBits_requested v e false (v.openDetailOf e.stream)
  rw [hpc] at hbits
  obtain ⟨hstream, hkind, hcode, hat, hat'⟩ := hbits
  rw [State.stopEngine, stopWith_requested]
  generalize v.stopBits e 1 codeOk (u.core.eng e).pc false false false (v.openDetailOf e.stream) = r at *
  have heng : ((v.core.withRecord e.stream r).updEng e (·.halted codeOk)).eng e = (v.core.eng e).halted codeOk := by
    rw [Core.eng_updEng_same]; cases e <;> rfl
  refine ⟨by rw [State.updEng_core, State.upd_core, heng]; rfl, by rw [State.updEng_core, State.upd_core, heng]; rfl,
    by rw [State.updEng_core, State.upd_core, heng]; rfl, by rw [State.updEng_core, State.upd_core, heng]; exact hpc, ?_, ?_, ?_, ?_, ?_,
    r, hstream, hkind, hcode, hat, hat', fun hp => ?_, fun hp => ?_⟩
  · rw [State.updEng_core, Core.updEng_seq, hv]; rfl
  · rw [State.updEng_core, Core.updEng_seq, hv]; rfl
  · rw [hv]; exact ⟨rfl, rfl, rfl⟩
  · rw [State.updEng_core, Core.updEng_tree, hv]; rfl
  · rw [State.updEng_core, Core.updEng_written, hv]; rfl
  · rw [State.updEng_core, Core.updEng_records, hv]; exact if_neg (by rw [hp]; decide)
  · rw [State.updEng_core, Core.updEng_records, Core.updEng_waiting, hv]; exact ⟨if_pos hp, if_pos hp⟩

/-- A stream without an operation gives up its open batch alone. -/
theorem dropTransfers_idle {u : State} (h : u.core.xfer.all = []) : ∃ x, u.dropTransfers = u.updXfer (fun _ => x) ∧ x.eng = u.core.xfer.eng := by
  obtain ⟨hcur, -⟩ := List.append_eq_nil_iff.1 h
  have habandon : u.abandonCur = u := by rw [State.abandonCur, Option.toList_eq_nil_iff.1 hcur]
  have hwithdraw : u.withdrawColls = u := by rw [State.withdrawColls, h]; rfl
  rw [State.dropTransfers, habandon, hwithdraw]
  exact ⟨_, rfl, rfl⟩

section
variable {u : State} {e : Eng}

theorem stopNow_unready (h : ((u.core.eng e).stopReq && (u.core.eng e).st.live && u.core.atBoundary e) = false) : u.stopNow e = u :=
  if_pos (by rw [h]; rfl)

/-- A stream at its boundary with nothing left over stops there. -/
theorem stopNow_stops (hr : (u.core.eng e).stopReq = true) (hl : (u.core.eng e).st.live = true) (hb : u.core.atBoundary e = true)
    (hmat : e = .mat → u.core.mat.reds = []) (hxfer : e = .xfer → u.core.xfer.all = []) :
    ∃ v, u.sameButEngines v e ∧ u.stopNow e = v.stopEngine e 1 codeOk (u.core.eng e).pc false false false := by
  have hready : ¬ (!((u.core.eng e).stopReq && (u.core.eng e).st.live && u.core.atBoundary e)) = true := by simp [hr, hl, hb]
  cases e with
  | vec => exact ⟨u, ⟨⟨_, _, _, rfl⟩, rfl⟩, if_neg hready⟩
  | mat =>
    have hopen : u.core.mat.openRed.isNone = true := by rw [MatEngine.openRed, hmat rfl]; rfl
    exact ⟨u.updMat (fun m => { m with atRet := false }), ⟨⟨_, _, _, rfl⟩, rfl⟩, (if_neg hready).trans (if_pos hopen)⟩
  | xfer =>
    obtain ⟨x, hx, heng⟩ := dropTransfers_idle (hxfer rfl)
    exact ⟨u.dropTransfers, by rw [hx]; exact ⟨⟨_, _, _, rfl⟩, congrArg Engine.pc heng⟩, if_neg hready⟩

end

/-- Settles O11. -/
theorem engineStreamsStartStopAndJoin : Obligations.EngineStreamsStartStopAndJoin := by
  unfold Obligations.EngineStreamsStartStopAndJoin
  refine ⟨fun s e entry rd => ?_, fun s core e hlive => ?_⟩
  · intro x
    refine ⟨fun ha => ⟨fun hl hs => engStart_starts ha hl hs, fun hl => ⟨exec_engStart_live ha hl, exec_engJoin_live ha hl⟩,
      fun hl => ⟨exec_engJoin_rest ha hl, exec_engStop_rest ha hl⟩, exec_engStop_live ha⟩, fun hr => ?_⟩
    exact ⟨x.statWord, exec_of_compute hr rfl rfl, statWord_idle x, statWord_run x, fun kind line => statWord_wait x, statWord_ended x,
      statWord_stopped x⟩
  · intro u
    have hexec : exec (.stopBoundaryReached core e) s = .next (u.stopNow e) := congrArg Host.Outcome.next (onCore_live hlive)
    refine ⟨fun h => by rw [hexec, stopNow_unready h], fun hr hl hb hmat hxfer => ?_⟩
    obtain ⟨v, hv, hstop⟩ := stopNow_stops hr hl hb hmat hxfer
    obtain ⟨hst, hcode, hreq, hpc, htraps, hg, hmem, htree, hwritten, hrecord⟩ := stopEngine_requested hv
    rw [hexec, hstop]
    exact ⟨_, rfl, hst, hcode, hreq, hpc, htraps, hg, hmem, htree, hwritten, hrecord⟩

end Sys2Proof.Machine
end

section
/-!
PROOFS. Sync words as the sequencer arms, reads and waits for them (R97 to R100): O12.
-/
namespace Sys2Proof.Machine

/-! ### Places of memory -/

theorem mem_placesFrom {p q : PAddr} {n : Nat} :
    q ∈ placesFrom p n ↔ q.space = p.space ∧ p.addr ≤ q.addr ∧ q.addr < p.addr + n := by
  simp only [placesFrom, List.mem_map, List.mem_range]
  constructor
  · rintro ⟨i, hi, rfl⟩
    exact ⟨rfl, Nat.le_add_right _ _, Nat.add_lt_add_left hi _⟩
  · obtain ⟨k, a⟩ := q
    rintro ⟨rfl, hlow, hhigh⟩
    have hlow : p.addr ≤ a := hlow
    have hhigh : a < p.addr + n := hhigh
    exact ⟨a - p.addr, by omega, congrArg (PAddr.mk p.space) (Nat.add_sub_cancel' hlow)⟩

theorem placesFrom_length (p : PAddr) (n : Nat) : (placesFrom p n).length = n := by simp [placesFrom]

theorem cellsAt_places (p : PAddr) (l : List Byte) : (cellsAt p l).map Prod.fst = placesFrom p l.length := by
  rw [cellsAt, List.map_fst_zip (by rw [placesFrom_length])]

/-- The bytes of a string at consecutive places, among cells that are written, read back whole. -/
theorem readNat_writeCells {s : State} {l : List (PAddr × Byte)} (w : s.memWf = true) (hn : (l.map Prod.fst).Nodup) {p : PAddr}
    {bytes : List Byte} (hl : ∀ c ∈ cellsAt p bytes, c ∈ l) : (s.writeCells l).readNat p bytes.length = natOfBytes bytes := by
  rw [State.readNat]
  congr 1
  refine List.ext_getElem (by simp [State.readBytes, placesFrom_length]) (fun i h1 h2 => ?_)
  simp only [State.readBytes, List.getElem_map]
  exact State.readByte_writeCells_same (c := ((placesFrom p bytes.length)[i]'(by rw [placesFrom_length]; exact h2), bytes[i])) hn w
    (hl _ (by rw [cellsAt, ← List.getElem_zip (h := by rw [List.length_zip, placesFrom_length]; omega)]; exact List.getElem_mem _))

/-- A number whose bytes are all as before reads as before. -/
theorem readNat_congr {s t : State} {p : PAddr} {n : Nat} (h : ∀ q ∈ placesFrom p n, t.readByte q = s.readByte q) :
    t.readNat p n = s.readNat p n := by
  rw [State.readNat, State.readNat, State.readBytes, State.readBytes, List.map_congr_left h]

/-! ### Sync words (R97 to R100) -/

/-- The cells that `sw.arm` writes: target and count, then code and flags (R98). -/
def armCells (pa : PAddr) (target : Nat) : List (PAddr × Byte) :=
  cellsAt pa (bytesOfNat 4 target ++ bytesOfNat 4 0) ++ cellsAt (pa.plus 12) (bytesOfNat 4 0)

section
variable {pa : PAddr} {target : Nat}

theorem armCells_places : (armCells pa target).map Prod.fst = placesFrom pa 8 ++ placesFrom (pa.plus 12) 4 := by
  rw [armCells, List.map_append, cellsAt_places, cellsAt_places, List.length_append, bytesOfNat_length, bytesOfNat_length]

theorem armCells_nodup : ((armCells pa target).map Prod.fst).Nodup := by
  rw [armCells_places]
  refine List.nodup_append.2 ⟨placesFrom_nodup _ _, placesFrom_nodup _ _, fun a ha b hb => ?_⟩
  rintro rfl
  have hlow := (mem_placesFrom.1 ha).2.2
  have hhigh : pa.addr + 12 ≤ a.addr := (mem_placesFrom.1 hb).2.1
  omega

theorem mem_armCells_place {c : PAddr × Byte} (hc : c ∈ armCells pa target) :
    c.1 ∈ placesFrom pa 16 ∧ c.1 ∉ placesFrom (pa.plus 8) 4 := by
  have hp : c.1 ∈ placesFrom pa 8 ++ placesFrom (pa.plus 12) 4 := armCells_places (target := target) ▸ List.mem_map_of_mem hc
  simp only [mem_placesFrom, PAddr.plus]
  rcases List.mem_append.1 hp with hp | hp
  · obtain ⟨hs, hlow, hhigh⟩ := mem_placesFrom.1 hp
    exact ⟨⟨hs, by omega⟩, by omega⟩
  · obtain ⟨hs, hlow, hhigh⟩ := mem_placesFrom.1 hp
    simp only [PAddr.plus] at hs hlow hhigh
    exact ⟨⟨hs, by omega⟩, by omega⟩

theorem cellsAt_append (p : PAddr) (a b : List Byte) : cellsAt p (a ++ b) = cellsAt p a ++ cellsAt (p.plus a.length) b := by
  have hplaces : placesFrom p (a.length + b.length) = placesFrom p a.length ++ placesFrom (p.plus a.length) b.length := by
    rw [placesFrom, List.range_add, List.map_append, List.map_map]
    exact congrArg _ (List.map_congr_left fun i _ => congrArg (PAddr.mk p.space) (Nat.add_assoc ..).symm)
  rw [cellsAt, List.length_append, hplaces, List.zip_append (placesFrom_length _ _)]
  rfl

/-- Every byte of an aligned sync word lies in one sector. -/
theorem sectorOf_syncWord (ha : pa.addr % 16 = 0) {q : PAddr} (hq : q ∈ placesFrom pa 16) : sectorOf q = sectorOf pa := by
  obtain ⟨hs, hlow, hhigh⟩ := mem_placesFrom.1 hq
  simp only [sectorOf, hs, PAddr.mk.injEq, true_and]
  omega

theorem eccWrite_arm {s : State} (hl : s.lost.contains (sectorOf pa) = false) (hb : s.badTag.contains (sectorOf pa) = false)
    (ha : pa.addr % 16 = 0) : s.eccWrite (armCells pa target) = .ok := by
  have hnone : ((armCells pa target).map (·.1)).filter (fun p =>
      (s.lost.contains (sectorOf p) || s.badTag.contains (sectorOf p)) && !coversSector (armCells pa target) (sectorOf p)) = [] := by
    refine List.filter_eq_nil_iff.2 fun p hp => ?_
    obtain ⟨c, hc, rfl⟩ := List.mem_map.1 hp
    simp only [sectorOf_syncWord ha (mem_armCells_place hc).1, hl, hb, Bool.or_self, Bool.false_and, Bool.false_eq_true, not_false_eq_true]
  rw [State.eccWrite, hnone]
  rfl

end

/-- Outside every region a close makes no wait. -/
theorem closeFirst_plain {s : State} (h : s.core.seq.regions = []) (k : State → Issue) : s.closeFirst k = k s := by
  rw [State.closeFirst, h]
  rfl

section
variable {s : State} {rd ra : Reg} {h : Hnd} {va : Nat} {pa : PAddr}

theorem onSync_place (hp : s.core.syncPlace h (s.reg ra).toNat = some (va, pa)) (k : Nat → PAddr → Issue) :
    s.onSync h (s.reg ra).toNat k = k va pa := by rw [State.onSync, hp]

theorem onSync_none (hp : s.core.syncPlace h (s.reg ra).toNat = none) (k : Nat → PAddr → Issue) :
    s.onSync h (s.reg ra).toNat k = .trap codeBounds s.openDetail := by rw [State.onSync, hp]

/-- `sw.arm` whose registers are ready, outside a cinch. -/
theorem exec_swArm (hr : s.seqReady [rd, ra] 0) (hc : s.core.seq.cinch = none) : exec (.swArm rd ra h) s = .next (s.issueSeq
    (s.onSync h (s.reg ra).toNat (fun va pa => if (s.reg rd).toNat % 2 ^ 32 = 0 then .trap codeBounds s.openDetail
      else s.closeFirst (fun t => if t.storeReady then t.arm va pa ((s.reg rd).toNat % 2 ^ 32) else .wait t)))) :=
  congrArg (fun k => Host.Outcome.next (s.issueSeq k)) ((noCinch_none hc _).trans (withRegs_ready hr))

theorem exec_swArm_arms (hr : s.seqReady [rd, ra] 0) (hpl : s.plain) (hst : s.storeReady = true)
    (hp : s.core.syncPlace h (s.reg ra).toNat = some (va, pa)) (ht : (s.reg rd).toNat % 2 ^ 32 ≠ 0)
    (hl : s.lost.contains (sectorOf pa) = false) (hb : s.badTag.contains (sectorOf pa) = false) (ha : pa.addr % 16 = 0) :
    exec (.swArm rd ra h) s = .next (s.issueSeq (.done ((((s.heal (armCells pa ((s.reg rd).toNat % 2 ^ 32))).writeCells
      (armCells pa ((s.reg rd).toNat % 2 ^ 32))).wrote .seq [pa]).next))) := by
  rw [exec_swArm hr hpl.1, onSync_place hp, if_neg ht, closeFirst_plain hpl.2, if_pos hst, State.arm]
  have hs := store_ok (eccWrite_arm (target := (s.reg rd).toNat % 2 ^ 32) hl hb ha)
  rw [armCells] at hs ⊢
  rw [hs]

theorem exec_swArm_bounds (hr : s.seqReady [rd, ra] 0) (hpl : s.plain)
    (hbad : s.core.syncPlace h (s.reg ra).toNat = none ∨ (s.reg rd).toNat % 2 ^ 32 = 0) :
    exec (.swArm rd ra h) s = .next (s.syncTrap 0x0201 s.openDetail) := by
  rw [exec_swArm hr hpl.1, ← issueSeq_traps hr.1]
  refine congrArg (fun k => Host.Outcome.next (s.issueSeq k)) ?_
  cases hp : s.core.syncPlace h (s.reg ra).toNat with
  | none => exact onSync_none hp _
  | some x =>
    rw [onSync_place hp]
    exact if_pos (hbad.resolve_left (by simp [hp]))

theorem readSync_ok (he : s.eccRead (placesFrom pa 16) = .ok) (k : Issue) : s.readSync va pa k = k := by rw [State.readSync, he]

/-- A read of one field. -/
theorem exec_of_readField {i : Instr} {off : Nat} (hi : exec i s = .next (s.readField rd ra h off)) (hr : s.seqReady [ra] rd)
    (hp : s.core.syncPlace h (s.reg ra).toNat = some (va, pa)) (he : s.eccRead (placesFrom pa 16) = .ok) :
    exec i s = .next (s.resulting rd (BitVec.ofNat 64 (s.readNat (pa.plus off) 4)) s.nextPc) := by
  obtain ⟨ha, hsrc, hdst⟩ := hr
  have hreads : s.seqReady [ra] 0 := ⟨ha, hsrc, .inl rfl⟩
  have hwrites : s.seqReady [] rd := ⟨ha, by simp, hdst⟩
  rw [hi, State.readField, withRegs_ready hreads, onSync_place hp, withRegs_ready hwrites, readSync_ok he]
  exact congrArg _ (done_next ha)

theorem exec_of_readField_bounds {i : Instr} {off : Nat} (hi : exec i s = .next (s.readField rd ra h off)) (hr : s.seqReady [ra] 0)
    (hp : s.core.syncPlace h (s.reg ra).toNat = none) : exec i s = .next (s.syncTrap 0x0201 s.openDetail) := by
  rw [hi, State.readField, withRegs_ready hr, onSync_none hp]
  exact congrArg _ (issueSeq_traps hr.1 _ _)

theorem exec_swWait (hr : s.seqReady [rd, ra] rd) (hp : s.core.syncPlace h (s.reg ra).toNat = some (va, pa))
    (he : s.eccRead (placesFrom pa 16) = .ok) : exec (.swWait rd ra h) s = .next (s.issueSeq (
      if s.readNat (pa.plus 8) 4 ≠ (s.reg rd).toNat % 2 ^ 32 ∨ s.readNat (pa.plus 12) 2 ≠ 0 then
        .done (s.setReg rd (wordOfNat (s.readNat (pa.plus 8) 4))).next
      else .wait s)) := by
  obtain ⟨ha, hsrc, hdst⟩ := hr
  have hreads : s.seqReady [rd, ra] 0 := ⟨ha, hsrc, .inl rfl⟩
  have hwrites : s.seqReady [] rd := ⟨ha, by simp, hdst⟩
  rw [exec_of_ready rfl hreads, onSync_place hp, withRegs_ready hwrites, readSync_ok he]

theorem exec_swWait_changed (hr : s.seqReady [rd, ra] rd) (hp : s.core.syncPlace h (s.reg ra).toNat = some (va, pa))
    (he : s.eccRead (placesFrom pa 16) = .ok)
    (hc : s.readNat (pa.plus 8) 4 ≠ (s.reg rd).toNat % 2 ^ 32 ∨ s.readNat (pa.plus 12) 2 ≠ 0) :
    exec (.swWait rd ra h) s = .next (s.resulting rd (BitVec.ofNat 64 (s.readNat (pa.plus 8) 4)) s.nextPc) := by
  rw [exec_swWait hr hp he, if_pos hc]
  exact congrArg _ (done_next hr.1)

theorem exec_swWait_same (hr : s.seqReady [rd, ra] rd) (hp : s.core.syncPlace h (s.reg ra).toNat = some (va, pa))
    (he : s.eccRead (placesFrom pa 16) = .ok) (hg : s.readNat (pa.plus 8) 4 = (s.reg rd).toNat % 2 ^ 32)
    (hc : s.readNat (pa.plus 12) 2 = 0) : exec (.swWait rd ra h) s = .next s.held := by
  rw [exec_swWait hr hp he, if_neg (by simp [hg, hc])]
  exact congrArg _ (issueSeq_held hr.1)

theorem exec_swWait_bounds (hr : s.seqReady [rd, ra] 0) (hp : s.core.syncPlace h (s.reg ra).toNat = none) :
    exec (.swWait rd ra h) s = .next (s.syncTrap 0x0201 s.openDetail) := by
  rw [exec_of_ready rfl hr, onSync_none hp]
  exact congrArg _ (issueSeq_traps hr.1 _ _)

end

/-- Settles O12. -/
theorem syncWordsAreArmedAndRead : Obligations.SyncWordsAreArmedAndRead := by
  unfold Obligations.SyncWordsAreArmedAndRead
  refine ⟨fun s rd ra h hwf hr hpl hst => ?_, fun s rd ra h => ?_⟩
  · intro target
    refine ⟨fun va pa hp ht hl hb ha => ⟨_, exec_swArm_arms hr hpl hst hp ht hl hb ha, ?_⟩, exec_swArm_bounds hr hpl⟩
    have hwf1 : (s.heal (armCells pa target)).memWf = true := hwf
    have hreads : ∀ (p : PAddr) (x : Nat), (∀ c ∈ cellsAt p (bytesOfNat 4 x), c ∈ armCells pa target) →
        ((s.heal (armCells pa target)).writeCells (armCells pa target)).readNat p 4 = x % 2 ^ 32 := by
      intro p x hx
      have hread := readNat_writeCells hwf1 armCells_nodup hx
      rwa [bytesOfNat_length, natOfBytes_bytesOfNat] at hread
    have htarget := hreads pa target fun c hc => by
      rw [armCells, cellsAt_append]
      exact List.mem_append_left _ (List.mem_append_left _ hc)
    have hcount := hreads (pa.plus 4) 0 fun c hc => by
      rw [armCells, cellsAt_append, bytesOfNat_length]
      exact List.mem_append_left _ (List.mem_append_right _ hc)
    have hcode := hreads (pa.plus 12) 0 fun c hc => List.mem_append_right _ hc
    have hother : ∀ q : PAddr, (∀ c ∈ armCells pa target, q ≠ c.1) →
        ((s.heal (armCells pa target)).writeCells (armCells pa target)).readByte q = s.readByte q :=
      fun q hq => State.readByte_writeCells_other hq hwf1
    obtain ⟨a, b, c, hv⟩ := State.writeCells_frame (armCells pa target) (s.heal (armCells pa target))
    rw [issueSeq_done hr.1]
    generalize ((s.heal (armCells pa target)).writeCells (armCells pa target)) = v at *
    obtain ⟨eff, hwr⟩ := wrote_frame v .seq [pa]
    rw [hwr]
    refine ⟨htarget.trans (Nat.mod_mod _ _), hcount, readNat_congr fun q hq => hother q fun c hc he => ?_, hcode,
      fun q hq => hother q fun c hc he => hq (he ▸ (mem_armCells_place hc).1), ?_, ?_, ?_⟩
    · exact (mem_armCells_place hc).2 (he ▸ hq)
    all_goals rw [hv]; rfl
  · intro field
    exact ⟨fun va pa hp he => ⟨fun hr => ⟨exec_of_readField rfl hr hp he, exec_of_readField rfl hr hp he, exec_of_readField rfl hr hp he,
        exec_of_readField rfl hr hp he⟩, fun hr => ⟨exec_swWait_changed hr hp he, exec_swWait_same hr hp he⟩⟩,
      fun hp => ⟨fun hr => forall_cons (exec_of_readField_bounds rfl hr hp) <| forall_cons (exec_of_readField_bounds rfl hr hp) <|
        forall_cons (exec_of_readField_bounds rfl hr hp) <| forall_cons (exec_of_readField_bounds rfl hr hp) forall_nil,
        fun hr => exec_swWait_bounds hr hp⟩⟩

end Sys2Proof.Machine
end

section
/-!
PROOFS. The crew barrier, `yield`, `nop` and `end` (R90, R102, R104, R270), and what control words leave to the last field (R88, R92, R96, R104): O13, O59.
-/
namespace Sys2Proof.Machine

/-! ### The crew barrier (R102) -/

/-- A change of the focused core leaves every other core. -/
theorem coreOf_upd {s : State} {f : Core → Core} (hf : (f s.core).id = s.core.id) (n : Nat) :
    (s.upd f).coreOf n = if s.core.id = n then f s.core else s.coreOf n := by
  simp only [coreOf_eq, State.upd_core, State.upd_others, hf]
  split <;> rfl

/-- The machine once the focused rank has marked its arrival at a barrier. -/
def State.arrivedAt (s : State) (n : Nat) : State := s.updSeq (fun q => { q with barMarked := max q.barMarked n })

section
variable {s : State}

/-- Every rank is there when every other rank is. -/
theorem allArrived_iff (n : Nat) : (s.arrivedAt n).allArrived n = true ↔
    ∀ id ∈ s.crewCores, id = s.core.id ∨ (s.coreOf id).seq.ended = true ∨ n ≤ (s.coreOf id).seq.barMarked := by
  have hcore : ∀ id, (s.arrivedAt n).coreOf id =
      if s.core.id = id then s.core.updSeq (fun q => { q with barMarked := max q.barMarked n }) else s.coreOf id :=
    fun id => coreOf_upd (f := (·.updSeq (fun q => { q with barMarked := max q.barMarked n }))) rfl id
  have hcrew : (s.arrivedAt n).crewCores = s.crewCores := rfl
  rw [State.allArrived, hcrew, List.all_eq_true]
  refine forall₂_congr fun id _ => ?_
  rw [hcore, Bool.or_eq_true, decide_eq_true_iff]
  split
  next he => simp [he.symm]
  next he => simp [Ne.symm he]

theorem barrier_ready (h : s.storeReady = true) : s.barrier = if (s.arrivedAt (s.core.seq.barDone + 1)).allArrived (s.core.seq.barDone + 1) then
    .done ((s.arrivedAt (s.core.seq.barDone + 1)).updSeq (fun q => { q with barDone := s.core.seq.barDone + 1 })).next
    else .wait (s.arrivedAt (s.core.seq.barDone + 1)) := if_pos h

variable (hp : s.plain)
include hp

/-- A word that is ILLEGAL in a cinch and closes the regions first, where neither is open. -/
theorem issueSeq_plain (k : State → Issue) : s.issueSeq (s.noCinch (s.closeFirst k)) = s.issueSeq (k s) := by
  rw [noCinch_none hp.1, closeFirst_plain hp.2]

variable (ha : s.core.seq.asyncReady = false)
include ha

theorem exec_crewBar_passes (hs : s.storeReady = true) (hall : ∀ id ∈ s.crewCores,
      id = s.core.id ∨ (s.coreOf id).seq.ended = true ∨ s.core.seq.barDone + 1 ≤ (s.coreOf id).seq.barMarked) :
    exec .crewBar s = .next (s.advanced 0 (fun q => { q with
      barMarked := max q.barMarked (s.core.seq.barDone + 1), barDone := s.core.seq.barDone + 1, pc := s.nextPc })) := by
  have hi : exec .crewBar s = .next (s.issueSeq s.barrier) := congrArg Host.Outcome.next (issueSeq_plain hp _)
  rw [hi, barrier_ready hs, if_pos ((allArrived_iff _).2 hall), issueSeq_done ha]
  simp only [State.arrivedAt, State.next, State.advanced, State.nextPc, State.updSeq, State.upd, Core.updSeq, Nat.add_zero]

theorem exec_crewBar_waits (hs : s.storeReady = true) (hmiss : ∃ id ∈ s.crewCores,
      ¬ (id = s.core.id ∨ (s.coreOf id).seq.ended = true ∨ s.core.seq.barDone + 1 ≤ (s.coreOf id).seq.barMarked)) :
    exec .crewBar s = .next ((s.arrivedAt (s.core.seq.barDone + 1)).updSeq (fun q => { q with wait := true })) := by
  have hi : exec .crewBar s = .next (s.issueSeq s.barrier) := congrArg Host.Outcome.next (issueSeq_plain hp _)
  obtain ⟨id, hid, hnot⟩ := hmiss
  rw [hi, barrier_ready hs, if_neg (fun hall => hnot ((allArrived_iff _).1 hall id hid)), issueSeq_wait ha]

end

/-! ### `yield` (R270) -/

/-- A pre-emption that begins changes the crews alone. -/
theorem checkYield_frame (s : State) (n : Nat) : ∃ l, s.checkYield n = { s with crews := l } := by
  rw [State.checkYield]
  split
  · exact ⟨s.crews, rfl⟩
  · split
    · exact ⟨_, rfl⟩
    · exact ⟨s.crews, rfl⟩

/-- No pre-emption begins while no rank of the crew has yielded. -/
theorem checkYield_none {s : State} {n : Nat} (h : ∀ k : Crew, s.crew n = some k → ∀ id ∈ k.cores, (s.coreOf id).seq.yielded = false) :
    s.checkYield n = s := by
  rw [State.checkYield]
  cases hk : s.crew n with
  | none => rfl
  | some k =>
    refine if_neg ?_
    rintro ⟨-, -, hany⟩
    obtain ⟨id, hid, hy⟩ := List.any_eq_true.1 hany
    rw [h k hk id hid] at hy
    exact Bool.false_ne_true hy

section
variable {s : State} (ha : s.core.seq.asyncReady = false)
include ha

theorem exec_nop : exec .nop s = .next (s.passing s.nextPc) := congrArg Host.Outcome.next (issueSeq_next ha)

variable (hp : s.plain)
include hp

theorem exec_yield_requested (hy : s.core.seq.yreq = true) : exec .yield s = .next
    (((s.updSeq (fun q => { q with yielded := true, atYield := true })).checkYield s.core.crewNum).updSeq (fun q => { q with wait := true })) := by
  have hnow : s.yieldNow = .wait ((s.updSeq (fun q => { q with yielded := true, atYield := true })).checkYield s.core.crewNum) := by
    rw [State.yieldNow, if_pos (by rw [hy]; rfl), closeFirst_plain hp.2, if_pos hy]
  rw [← issueSeq_wait ha, ← hnow]
  exact congrArg (fun k => Host.Outcome.next (s.issueSeq k)) (noCinch_none hp.1 _)

theorem exec_yield_unrequested (hy : s.core.seq.yreq = false) : exec .yield s = .next (s.passing s.nextPc) := by
  have hnow : s.issueSeq s.yieldNow = s.issueSeq (.done s.next) := by
    rw [State.yieldNow]
    split
    · rw [closeFirst_plain hp.2, if_neg (by rw [hy]; exact Bool.false_ne_true)]
    · rfl
  rw [← issueSeq_next ha, ← hnow]
  exact congrArg (fun k => Host.Outcome.next (s.issueSeq k)) (noCinch_none hp.1 _)

end

/-! ### `end` (R90, R104) -/

/-- The sequencer once its core program is over: its slots are unbound. -/
def Core.programOver (c : Core) (q : Sequencer) : Sequencer :=
  { q with
    h := Vector.replicate 64 none, ended := true, endCode := c.faultCode
    draining := (q.draining ++ q.bindings.filter (fun b => !b.revoked)).filter c.drains }

theorem endCore_eq (s : State) : s.endCore = (s.updSeq (fun q => { s.core.programOver q with pc := s.nextPc })).checkYield s.core.crewNum := by
  have hd : s.next.core.detachAll = s.core.updSeq (fun q => { q with
      pc := q.pc + 4, h := Vector.replicate 64 none
      draining := (q.draining ++ q.bindings.filter (fun b => !b.revoked)).filter s.core.drains }) := rfl
  rw [State.endCore, State.upd, hd]
  rfl

section
variable {s : State}

theorem exec_endProg_waits (ha : s.core.seq.asyncReady = false) (hc : s.core.seq.cinch = none)
    (hbusy : s.core.enginesDone = false ∨ s.core.seq.lq ≠ [] ∨ s.core.seq.sq ≠ []) : exec .endProg s = .next s.held := by
  rw [← issueSeq_held ha]
  refine congrArg (fun k => Host.Outcome.next (s.issueSeq k)) ((noCinch_none hc _).trans (if_neg ?_))
  rcases hbusy with h | h | h <;> simp [h]

variable (hp : s.plain) (he : s.core.enginesDone = true) (hl : s.core.seq.lq = []) (hs : s.core.seq.sq = [])
include hp he hl hs

theorem exec_endProg : exec .endProg s = .next (s.issueSeq (.done s.endCore)) :=
  congrArg (fun k => Host.Outcome.next (s.issueSeq k))
    ((noCinch_none hp.1 _).trans ((if_pos (by simp [he, hl, hs])).trans (closeFirst_plain hp.2 _)))

variable (ha : s.core.seq.asyncReady = false)
include ha

/-- What `end` leaves, where no rank of the crew has yielded. -/
theorem exec_endProg_exact (hy : ∀ k : Crew, s.crew s.core.crewNum = some k → ∀ id ∈ k.cores, (s.coreOf id).seq.yielded = false) :
    exec .endProg s = .next (s.advanced 0 (fun q => { s.core.programOver q with pc := s.nextPc })) := by
  rw [exec_endProg hp he hl hs, endCore_eq, checkYield_none, issueSeq_done ha]
  · rfl
  · intro k hk id hid
    have hcore := coreOf_upd (s := s) (f := (·.updSeq (fun q => { s.core.programOver q with pc := s.nextPc }))) rfl id
    have hyield := hy k hk id hid
    rw [State.updSeq, hcore]
    split
    next he =>
      rw [← he, coreOf_core] at hyield
      exact hyield
    next => exact hyield

end

/-- Settles O13. -/
theorem barriersYieldsAndEnd : Obligations.BarriersYieldsAndEnd := by
  unfold Obligations.BarriersYieldsAndEnd
  refine ⟨fun s ha hp hs => ?_, fun s ha hp => ⟨exec_yield_unrequested ha hp, fun hy => ⟨_, exec_yield_requested ha hp hy, ?_⟩⟩,
    fun s ha => ⟨exec_nop ha, fun hp he hl hs => ⟨_, exec_endProg hp he hl hs, ?_⟩, exec_endProg_waits ha⟩⟩
  · intro n there
    exact ⟨exec_crewBar_passes hp ha hs, fun hmiss => ⟨_, exec_crewBar_waits hp ha hs hmiss, rfl, rfl, rfl, rfl, rfl⟩⟩
  · obtain ⟨l, hl⟩ := checkYield_frame (s.updSeq (fun q => { q with yielded := true, atYield := true })) s.core.crewNum
    rw [hl]
    exact ⟨rfl, rfl, rfl, rfl, rfl, rfl, rfl, rfl, rfl, rfl, rfl⟩
  · obtain ⟨l, hcrews⟩ := checkYield_frame (s.updSeq (fun q => { s.core.programOver q with pc := s.nextPc })) s.core.crewNum
    rw [issueSeq_done ha, endCore_eq, hcrews]
    exact ⟨rfl, fun h => Vector.getElem_replicate h.isLt, rfl, ⟨rfl, rfl, rfl⟩, rfl, rfl⟩

/-! ### A start with nothing left over (R92) -/

section
variable {s : State} {entry : BitVec 14} (ha : s.core.seq.asyncReady = false)
include ha

/-- A start of a stream, given what is put in order before it. -/
theorem exec_engStart_prepared {e : Eng} {c : Core} (hl : (s.core.eng e).st.live = false) (hs : (s.core.eng e).strike = none)
    (hc : ((s.core.prepareStart e).updEng e (·.startedAt entry)) = c) : exec (.engStart e entry) s =
      .next (((({ s with core := c } : State).updSeq (·.stopOver e)).updSeq (fun q => { q with pc := q.pc + 4 })).updSeq
        (fun q => { q with wait := false, markAt := none, retired := s.now, last := s.core.seq.pc })) := by
  rw [exec_engStart hl hs, issueSeq_done ha, hc]
  rfl

end

theorem prepareStart_vec {c : Core} (h : c.vec.regions = []) : c.prepareStart .vec = c.updVec (fun v => { v with
    again := [], lostAt := none, struck := none, eng := { v.eng with releasing := false } }) := by
  rw [Core.prepareStart, Core.dropVecRegions, h]
  refine Eq.trans (b := c.updVec (fun v => { v with
    regions := [], again := [], lostAt := none, struck := none, eng := { v.eng with releasing := false } })) rfl ?_
  rw [Core.updVec, Core.updVec, ← h]

theorem prepareStart_mat {c : Core} (hs : c.mat.eng.strike = none) (h : c.mat.reds = []) : c.prepareStart .mat = c.updMat (fun m => { m with
    issues := none, begun := none, again := [], fault := none, atRet := false, spilled := false }) := by
  have hopen : c.mat.openRed = none := by rw [MatEngine.openRed, h]; rfl
  have hupd : c.updMat (fun m => if m.eng.strike.isSome then { m with reds := m.openRed.toList } else m) = c := by
    rw [Core.updMat, hs]; rfl
  rw [Core.prepareStart, hupd, Core.updMat, MatEngine.dropReduction, hopen]
  rfl

theorem prepareStart_xfer {c : Core} (hr : c.xfer.regions = []) (hc : c.xfer.cur = none) (hd : c.seq.draining = []) :
    c.prepareStart .xfer = c.updXfer (fun x => { x with index := [] }) := by
  have hdrop : c.dropXferRegions = c := if_pos (by rw [hr]; rfl)
  have hcur : c.updXfer (fun x => { x with cur := none, index := [] }) = c.updXfer (fun x => { x with index := [] }) := by
    rw [Core.updXfer, Core.updXfer, ← hc]
  have hseq : ({ c.seq with draining := [] } : Sequencer) = c.seq := by rw [← hd]
  rw [Core.prepareStart, hdrop, hcur, Core.release]
  simp only [Core.updSeq, Core.updXfer_seq, hd, List.filter_nil, hseq]
  rfl

/-- What the sequencer's change of a view or a slot notes (R311: log 20). -/
theorem seqSeen_effects (s : State) (x : Fin 4) :
    s.seqSeen.core.effects[x] = if x = 0 then { s.core.effects[x] with seen := some s.now } else s.core.effects[x] := by
  have htouch : s.seqSeen.core.effects = s.core.effects.set 0 ⟨some s.now, s.core.effects[0].left⟩ := rfl
  rw [htouch]
  split
  next hx => subst hx; exact Vector.getElem_set_self _
  next hx => exact Vector.getElem_set_ne _ _ (fun h => hx (Fin.ext h.symm))

/-- Settles O59. -/
theorem controlWordsLeaveExactly : Obligations.ControlWordsLeaveExactly := by
  unfold Obligations.ControlWordsLeaveExactly
  intro s entry v ra h ha q run stopped inFlight
  refine ⟨fun hl hs hr => ?_, fun hl hs hr => ?_, fun hl hs hr hc hd => ?_, fun hr hv => exec_viewSet_ok hr hv, fun x => ⟨rfl, ?_⟩,
    fun b hs hc hb => exec_hndFree_bound hc ha hs hb, fun hp he hl hs hy => exec_endProg_exact hp he hl hs ha hy⟩
  · exact exec_engStart_prepared (e := .vec) ha hl hs (congrArg (·.updEng .vec (·.startedAt entry)) (prepareStart_vec hr))
  · exact exec_engStart_prepared (e := .mat) ha hl hs (congrArg (·.updEng .mat (·.startedAt entry)) (prepareStart_mat hs hr))
  · exact exec_engStart_prepared (e := .xfer) ha hl hs (congrArg (·.updEng .xfer (·.startedAt entry)) (prepareStart_xfer hr hc hd))
  · exact seqSeen_effects s x

end Sys2Proof.Machine
end

section
/-!
PROOFS. Window addresses, and accesses of the sequencer whose translation fails (R82, R85, R205, R206, R209, R217, R245): O58.
-/
namespace Sys2Proof.Machine

/-! ### Window addresses (R209) -/

section
variable {die core off : Nat} (hdie : die < 4) (hcore : core < 128) (hoff : off < 2 ^ 22)
include hdie hcore hoff

/-- The fields of a window address: the offset, the core and the die. -/
theorem windowAddress_fields : let va := windowBase + die * 2 ^ 29 + core * 2 ^ 22 + off
    bitsOf va 21 0 = off ∧ bitsOf va 28 22 = core ∧ bitsOf va 30 29 = die := by
  simp only [bitsOf, windowBase]
  omega

theorem windowCore_address (own : Nat) : windowCore (some own) (windowBase + die * 2 ^ 29 + core * 2 ^ 22 + off) =
    if core < 96 ∨ core = 127 then some (if core = 127 then own else 128 * die + core) else none := by
  obtain ⟨-, hc, hd⟩ := windowAddress_fields hdie hcore hoff
  rw [windowCore, hc, hd]
  by_cases h127 : core = 127
  · simp [h127]
  · simp [h127]

theorem windowPlace_address (s : State) (ctx own : Nat) : let id := if core = 127 then own else 128 * die + core
    s.windowPlace ctx (some own) (windowBase + die * 2 ^ 29 + core * 2 ^ 22 + off) =
      if (core < 96 ∨ core = 127) ∧ s.storeReach ctx id off = true then some ⟨.window, storeBase id + off⟩ else none := by
  obtain ⟨ho, -, -⟩ := windowAddress_fields hdie hcore hoff
  rw [State.windowPlace, windowCore_address hdie hcore hoff, ho]
  by_cases hnamed : core < 96 ∨ core = 127
  · simp [hnamed]
  · simp [hnamed]

end

theorem storeReach_seat {s : State} {id off : Nat} {x : Seat} (ctx : Nat) (hx : (s.coreOf id).seat = some x) (hoff : off < 2 ^ 22) :
    s.storeReach ctx id off = (decide (x.ctx = ctx) && (decide (off < 4096 * x.res.ls) || decide (castBase ≤ off))) := by
  rw [Nat.mul_comm, State.storeReach, hx]
  exact (congrArg _ (decide_eq_true hoff)).trans (Bool.and_true _)

/-! ### The record of a fault (R217) -/

section
variable (c : Core) (f : XlFault) (va access : Nat)

theorem faultRecord_address : (faultRecord c f va access).extractLsb' 0 64 = BitVec.ofNat 64 va := by
  refine extractLsb'_ofNat_eq (by omega) ?_
  simp only [put, BitVec.toNat_ofNat]
  omega

theorem faultRecord_cause : (faultRecord c f va access).extractLsb' 64 8 = BitVec.ofNat 8 f.cause := by
  refine extractLsb'_ofNat_eq (by omega) ?_
  simp only [put, BitVec.toNat_ofNat]
  omega

theorem faultRecord_access : (faultRecord c f va access).extractLsb' 72 8 = BitVec.ofNat 8 access := by
  refine extractLsb'_ofNat_eq (by omega) ?_
  simp only [put, BitVec.toNat_ofNat]
  omega

end

/-! ### An access that fails (R217) -/

section
variable {s : State} {f : XlFault} {a : Nat}

theorem translated_fault {va n : Nat} {write : Bool} (h : s.xlAccess va n write = .fault f a) (access : Nat)
    (k : List PAddr → List Nat → Issue) : s.translated va n write access k = .fault (s.holdAt f a access) := by rw [State.translated, h]

/-- A word whose state is settled already. -/
theorem issueSeq_fault (ha : s.core.seq.asyncReady = false) (t : State) : s.issueSeq (.fault t) = t :=
  if_neg (by rw [ha, Bool.and_false]; exact Bool.false_ne_true)

/-- The core once its sequencer is held: its record stands in the hold, and nothing else differs. -/
theorem holdAt_core (access : Nat) : (s.holdAt f a access).core =
    s.core.updSeq (fun q => { q with hold := some ⟨faultRecord s.core f a access⟩, wait := false }) := by
  rw [State.holdAt]
  cases s.ctx s.core.ctxNum with
  | none => rfl
  | some c =>
    have hpost := congrArg State.core (hostSide_postEvent s c.iface 1 0 c.part c.num 0 0 (bytesOfNat 64 (faultRecord s.core f a access).toNat))
    exact congrArg (·.updSeq (fun q => { q with hold := some ⟨faultRecord s.core f a access⟩, wait := false })) hpost

/-- A word that comes to an access whose translation fails. -/
theorem exec_of_translated_fault {i : Instr} {va n access : Nat} {write : Bool} {k : List PAddr → List Nat → Issue}
    (hi : exec i s = .next (s.issueSeq (s.translated va n write access k))) (ha : s.core.seq.asyncReady = false)
    (hx : s.xlAccess va n write = .fault f a) :
    ∃ t r, exec i s = .next t ∧ t.core.seq.hold = some r ∧ t.core.seq.g = s.core.seq.g ∧
      t.core.seq.pc = s.core.seq.pc ∧ t.core.seq.lq = s.core.seq.lq ∧ t.core.seq.sq = s.core.seq.sq ∧
      r.record.extractLsb' 0 64 = BitVec.ofNat 64 a ∧ r.record.extractLsb' 64 8 = BitVec.ofNat 8 f.cause ∧
      r.record.extractLsb' 72 8 = BitVec.ofNat 8 access := by
  refine ⟨s.holdAt f a access, ⟨faultRecord s.core f a access⟩, ?_, ?_, ?_, ?_, ?_, ?_,
    faultRecord_address .., faultRecord_cause .., faultRecord_access ..⟩
  · rw [hi, translated_fault hx, issueSeq_fault ha]
  all_goals rw [holdAt_core]; rfl

end

/-! ### The words that come to an access at once -/

/-- The length of an atomic access (R245). -/
def atomBytes : AtomSize → Nat
  | .w => 4
  | .d => 8

/-- An atomic up to its access: its checks, and the translation of its operand. -/
theorem atom_issue (s : State) (op : AtomOp) (rd ra rb : Reg) (size : AtomSize) (scope : Scope) : ∃ k, s.atom op rd ra rb size scope =
    s.issueSeq (if !atomScope scope then .trap codeIllegal 0 else s.noCinch (s.withRegs [rd, ra, rb] 0 (
      if (s.reg ra).toNat % atomBytes size ≠ 0 then .trap codeBounds (wordOfNat (s.reg ra).toNat)
      else s.translated (s.reg ra).toNat (atomBytes size) true accStore k))) := ⟨_, rfl⟩

theorem ldAsof_issue (s : State) (rd ra rb : Reg) (scope : Scope) : ∃ k, exec (.ldAsof rd ra rb scope) s = .next (s.issueSeq (
    if !stampScope scope then .trap codeIllegal 0 else s.noCinch (s.withRegs [ra, rb] 0 (
      if (s.reg ra).toNat % 32 ≠ 0 then .trap codeBounds (wordOfNat (s.reg ra).toNat)
      else s.translated (s.reg ra).toNat 32 false accWritable k)))) := ⟨_, rfl⟩

theorem stStamp_issue (s : State) (rd ra rb : Reg) (scope : Scope) : exec (.stStamp rd ra rb scope) s = .next (s.issueSeq (
    if !stampScope scope then .trap codeIllegal 0 else s.noCinch (s.withRegs [ra, rb] 0 (s.closeFirst (fun t =>
      if t.core.seq.sq.isEmpty then t.stampNow rd ra rb scope else .wait t))))) := rfl

theorem stampNow_issue (s : State) (rd ra rb : Reg) (scope : Scope) : ∃ k, s.stampNow rd ra rb scope =
    if (s.reg ra).toNat % 32 ≠ 0 then s.cause codeBounds (wordOfNat (s.reg ra).toNat)
    else s.translated (s.reg ra).toNat 32 true accWritable k := ⟨_, rfl⟩

section
variable {s : State} {rd ra rb : Reg} {imm : BitVec 16} {n : Nat} {i : Instr}

theorem exec_load_translated {signed : Bool} (h : s.seqReady [ra] 0) (hi : exec i s = .next (s.issueLoad rd ra imm n signed)) :
    ∃ k, exec i s = .next (s.issueSeq (s.translated (s.reg ra + imm.signExtend 64).toNat n false accLoad k)) :=
  ⟨_, exec_of_ready hi h⟩

theorem exec_store_translated (h : s.seqReady [rd, ra] 0) (hi : exec i s = .next (s.issueStore rd ra imm n)) :
    ∃ k, exec i s = .next (s.issueSeq (s.translated (s.reg ra + imm.signExtend 64).toNat n true accStore k)) :=
  ⟨_, exec_of_ready hi h⟩

variable (hc : s.core.seq.cinch = none) {scope : Scope}
include hc

theorem exec_atom_translated {op : AtomOp} {size : AtomSize} (hi : exec i s = .next (s.atom op rd ra rb size scope))
    (h : s.seqReady [rd, ra, rb] 0) (h1 : 1 ≤ scope.code) (h8 : scope.code ≤ 8) (hal : (s.reg ra).toNat % atomBytes size = 0) :
    ∃ k, exec i s = .next (s.issueSeq (s.translated (s.reg ra).toNat (atomBytes size) true accStore k)) := by
  have hs : atomScope scope = true := by simp [atomScope, h1, h8]
  obtain ⟨k, hk⟩ := atom_issue s op rd ra rb size scope
  refine ⟨k, ?_⟩
  rw [hi, hk, if_neg (by rw [hs]; decide), noCinch_none hc, withRegs_ready h, if_neg (not_not_intro hal)]

variable (hs : scope = .package ∨ scope = .time) (h : s.seqReady [ra, rb] 0) (hal : (s.reg ra).toNat % 32 = 0)
include hs h hal

theorem exec_ldAsof_translated :
    ∃ k, exec (.ldAsof rd ra rb scope) s = .next (s.issueSeq (s.translated (s.reg ra).toNat 32 false accWritable k)) := by
  have hscope : stampScope scope = true := by simpa [stampScope] using hs
  obtain ⟨k, hk⟩ := ldAsof_issue s rd ra rb scope
  refine ⟨k, ?_⟩
  rw [hk, if_neg (by rw [hscope]; decide), noCinch_none hc, withRegs_ready h, if_neg (not_not_intro hal)]

theorem exec_stStamp_translated (hr : s.core.seq.regions = []) (hq : s.core.seq.sq = []) :
    ∃ k, exec (.stStamp rd ra rb scope) s = .next (s.issueSeq (s.translated (s.reg ra).toNat 32 true accWritable k)) := by
  have hscope : stampScope scope = true := by simpa [stampScope] using hs
  obtain ⟨k, hk⟩ := stampNow_issue s rd ra rb scope
  refine ⟨k, ?_⟩
  rw [stStamp_issue, if_neg (by rw [hscope]; decide), noCinch_none hc, withRegs_ready h, closeFirst_plain hr, if_pos (by rw [hq]; rfl),
    hk, if_neg (not_not_intro hal)]

end

/-- Settles O58. -/
theorem windowsAndTranslationFaults : Obligations.WindowsAndTranslationFaults := by
  unfold Obligations.WindowsAndTranslationFaults
  refine ⟨fun s ctx own die core off hdie hcore hoff => windowPlace_address hdie hcore hoff s ctx own,
    fun s ctx id off x hx hoff => storeReach_seat ctx hx hoff, fun s rd ra rb imm size scope => ?_⟩
  intro va at_ width faults
  have failing : ∀ {i : Instr} {va n access : Nat} {write : Bool}, s.core.seq.asyncReady = false →
      (∃ k, exec i s = .next (s.issueSeq (s.translated va n write access k))) → faults i va n write (BitVec.ofNat 8 access) :=
    fun ha hi f a hx => hi.elim fun k hk => exec_of_translated_fault hk ha hx
  refine ⟨fun h => ?_, fun h => ?_, fun h hc h1 h8 hal => ?_, fun h hs hal => ⟨fun hc => ?_, fun hp hq => ?_⟩⟩
  · have load : ∀ (i : Instr) (n : Nat) (signed : Bool), exec i s = .next (s.issueLoad rd ra imm n signed) → faults i va n false 0 :=
      fun i n signed hi => failing h.1 (exec_load_translated h hi)
    exact ⟨load _ _ _ rfl, load _ _ _ rfl, load _ _ _ rfl, load _ _ _ rfl, load _ _ _ rfl, load _ _ _ rfl, load _ _ _ rfl⟩
  · have store : ∀ (i : Instr) (n : Nat), exec i s = .next (s.issueStore rd ra imm n) → faults i va n true 1 :=
      fun i n hi => failing h.1 (exec_store_translated h hi)
    exact ⟨store _ _ rfl, store _ _ rfl, store _ _ rfl, store _ _ rfl⟩
  · have atom : ∀ (i : Instr) (op : AtomOp), exec i s = .next (s.atom op rd ra rb size scope) → faults i at_ width true 1 :=
      fun i op hi => failing h.1 (exec_atom_translated hc hi h h1 h8 hal)
    simp only [List.forall_mem_cons]
    exact ⟨atom _ .add rfl, atom _ .swap rfl, atom _ .cas rfl, atom _ .min rfl, atom _ .max rfl, atom _ .or rfl, atom _ .and rfl,
      List.forall_mem_nil _⟩
  · exact failing h.1 (exec_ldAsof_translated hc hs h hal)
  · exact failing h.1 (exec_stStamp_translated hp.1 hs h hal hp.2 hq)

end Sys2Proof.Machine
end

section
/-!
PROOFS. Translation faults resolved and refused, pages unmapped, contexts under a debugger, logs copied (R91, R217, R219, R224, R265, R280, R312, R314): O48.
-/
namespace Sys2Proof.Machine

/-! ### What an unmap does to slots (R91, R219) -/

/-- A binding after an unmap of n bytes at va. -/
def Binding.unmapped (va n : Nat) (b : Binding) : Binding := if b.covers va n && b.usable then { b with revoking := true } else b

theorem Binding.unmapped_twice (va n : Nat) (b : Binding) : (b.unmapped va n).unmapped va n = b.unmapped va n := by
  by_cases h : (b.covers va n && b.usable) = true
  · have hu : b.unmapped va n = { b with revoking := true } := if_pos h
    rw [hu]
    exact if_neg (by simp [Binding.usable])
  · have hu : b.unmapped va n = b := if_neg h
    rw [hu, hu]

theorem unmap_slot (c : Core) (va n : Nat) (h : Hnd) : (c.unmap va n).seq.h[h] = c.seq.h[h].map (·.unmapped va n) := by
  have hh : (c.unmap va n).seq.h = c.seq.h.map (fun o => o.map (·.unmapped va n)) := rfl
  rw [hh]
  exact Vector.getElem_map _ h.isLt

/-- One change made on every core of a list, seen through a part of the core on which making it twice is making it once. -/
theorem foldl_updCore_view {α : Type} {g : Core → Core} {view : Core → α} {r : α → α} (hid : ∀ c, (g c).id = c.id)
    (hview : ∀ c, view (g c) = r (view c)) (htwice : ∀ a, r (r a) = r a) (l : List Nat) (s : State) (n : Nat) :
    view ((l.foldl (fun s m => s.updCore m g) s).coreOf n) = if n ∈ l then r (view (s.coreOf n)) else view (s.coreOf n) := by
  induction l generalizing s with
  | nil => rfl
  | cons m l ih =>
    have hc : (s.updCore m g).coreOf n = if m = n then g (s.coreOf n) else s.coreOf n := coreOf_updCore ((hid _).trans (coreOf_id s m)) n
    rw [List.foldl_cons, ih, hc]
    by_cases hmn : m = n
    · by_cases hl : n ∈ l <;> simp [hmn, hl, hview, htwice]
    · simp [hmn, Ne.symm hmn]

/-- The slots of every core after an unmap. -/
theorem unmap_slots (s : State) (ctx va n m : Nat) (h : Hnd) : ((s.unmap ctx va n).coreOf m).seq.h[h] =
    (s.coreOf m).seq.h[h].map (fun b => if m ∈ s.ctxCores ctx ∧ b.covers va n = true ∧ b.usable = true then { b with revoking := true } else b) := by
  have hcore : (s.unmap ctx va n).coreOf m = ((s.ctxCores ctx).foldl (fun s id => s.updCore id (·.unmap va n)) s).coreOf m :=
    coreOf_congr rfl rfl m
  have htwice : ∀ o : Option Binding, (o.map (·.unmapped va n)).map (·.unmapped va n) = o.map (·.unmapped va n) := fun o => by
    cases o with
    | none => rfl
    | some b => exact congrArg some (b.unmapped_twice va n)
  have hview := foldl_updCore_view (view := fun c => c.seq.h[h]) (g := (·.unmap va n)) (fun _ => rfl) (fun c => unmap_slot c va n h) htwice
    (s.ctxCores ctx) s m
  rw [hcore, hview]
  by_cases hm : m ∈ s.ctxCores ctx
  · simp [hm, Binding.unmapped]
  · simp [hm]

/-- An unmap changes cores and the save areas of crews. -/
theorem unmap_frame (s : State) (ctx va n : Nat) : ∃ (d : Core) (o : List Core), s.unmap ctx va n = { s with
    core := d, others := o, crews := s.crews.map (fun k => if k.ctx = ctx then k.mapSaved (·.unmap va n) else k) } := by
  obtain ⟨d, o, h⟩ := foldl_updCore_frame (·.unmap va n) (s.ctxCores ctx) s
  exact ⟨d, o, by rw [State.unmap, h]⟩

/-! ### A resume with nothing held back (R314) -/

/-- Two machines that differ in the matrix streams alone. -/
structure State.ButMat (s t : State) : Prop where
  frame : ∃ (d : Core) (o : List Core), t = { s with core := d, others := o }
  cores : ∀ n, ∃ m, t.coreOf n = { s.coreOf n with mat := m }

/-- Nothing on a core waits for a resume: no block handed over, no report, no stop of the vector stream. -/
def Core.nothingDue (c : Core) : Prop := c.heldBlocks = [] ∧ c.reports = [] ∧ c.vec.lostAt = none ∧ c.vec.struck = none

namespace State.ButMat
variable {s t u : State}

theorem refl (s : State) : s.ButMat s := ⟨⟨s.core, s.others, rfl⟩, fun n => ⟨(s.coreOf n).mat, rfl⟩⟩

theorem trans (h : s.ButMat t) (k : t.ButMat u) : s.ButMat u := by
  obtain ⟨⟨d, o, ht⟩, hc⟩ := h
  obtain ⟨⟨d', o', hu⟩, kc⟩ := k
  refine ⟨⟨d', o', by rw [hu, ht]⟩, fun n => ?_⟩
  obtain ⟨m, hm⟩ := hc n
  obtain ⟨m', hm'⟩ := kc n
  exact ⟨m', by rw [hm', hm]⟩

theorem focus (s : State) (n : Nat) : s.ButMat (s.focus n) := by
  obtain ⟨o, ho⟩ := focus_frame s n
  exact ⟨⟨_, o, ho⟩, fun m => ⟨(s.coreOf m).mat, coreOf_focus s n m⟩⟩

theorem updMat (s : State) (n : Nat) (f : MatEngine → MatEngine) : s.ButMat (s.updCore n (·.updMat f)) := by
  refine ⟨putCore_frame s _, fun m => ?_⟩
  rw [coreOf_updCore (coreOf_id s n)]
  split
  · exact ⟨_, rfl⟩
  · exact ⟨(s.coreOf m).mat, rfl⟩

theorem nothingDue (h : s.ButMat t) {n : Nat} (hn : (s.coreOf n).nothingDue) : (t.coreOf n).nothingDue := by
  obtain ⟨m, hm⟩ := h.cores n
  rw [hm]
  exact hn

/-- A step for each of some cores, each of which has nothing due. -/
theorem foldl {f : State → Nat → State} {l : List Nat} (hf : ∀ (u : State) (n : Nat), (u.coreOf n).nothingDue → u.ButMat (f u n))
    (hl : ∀ n ∈ l, (s.coreOf n).nothingDue) : s.ButMat (l.foldl f s) := by
  induction l generalizing s with
  | nil => exact refl s
  | cons n l ih =>
    have h := hf s n (hl n List.mem_cons_self)
    exact h.trans (ih fun m hm => h.nothingDue (hl m (List.mem_cons_of_mem _ hm)))

end State.ButMat

/-- A core without pending reports takes none. -/
theorem deliver_none {s : State} (h : s.core.reports = []) : s.deliver = s := by
  have hdue : s.dueStreams = [] := by simp [State.dueStreams, h]
  have hdrop : ({ s.core with reports := dropStreams [] s.core.reports } : Core) = s.core := by
    have hnil : dropStreams [] s.core.reports = s.core.reports := by rw [h]; rfl
    rw [hnil]
  rw [State.deliver, hdue]
  exact congrArg (fun c => ({ s with core := c } : State)) hdrop

section
variable {s : State} {n : Nat} (h : (s.coreOf n).nothingDue)
include h

theorem landHeld_nothingDue : s.landHeld n = s.focus n := by
  obtain ⟨hblocks, -⟩ := h
  have hb : (s.focus n).core.heldBlocks = [] := by rw [focus_core, hblocks]
  rw [State.landHeld, hb]
  rfl

theorem vecResumed_nothingDue : s.vecResumed n = s.focus n := by
  obtain ⟨-, -, hlost, hstruck⟩ := h
  have hl : (s.focus n).core.vec.lostAt = none := by rw [focus_core, hlost]
  have hs : (s.focus n).core.vec.struck = none := by rw [focus_core, hstruck]
  rw [State.vecResumed, State.vecStops, hl, hs]
  exact ite_self _

theorem deliver_nothingDue : (s.focus n).deliver = s.focus n := by
  obtain ⟨-, hreports, -⟩ := h
  exact deliver_none (by rw [focus_core, hreports])

end

/-- What a resume does to the cores. -/
def State.resumedOn (s : State) (ids : List Nat) (home : Nat) : State :=
  (ids.foldl (fun s n => s.updCore n (·.updMat (fun m => { m with spilled := if m.eng.st = .stopped then m.spilled else false })))
    ((ids.foldl State.vecResumed (ids.foldl State.landHeld s)).focus home)).deliverAll ids

/-- A resume of cores on which nothing is due touches no more than the matrix streams' own marks. -/
theorem butMat_resumedOn {s : State} {ids : List Nat} (home : Nat) (h : ∀ n ∈ ids, (s.coreOf n).nothingDue) : s.ButMat (s.resumedOn ids home) := by
  have hland : s.ButMat (ids.foldl State.landHeld s) :=
    .foldl (fun u n hn => by rw [landHeld_nothingDue hn]; exact .focus u n) h
  have hvec := hland.trans (.foldl (f := State.vecResumed) (l := ids)
    (fun u n hn => by rw [vecResumed_nothingDue hn]; exact .focus u n) fun n hn => hland.nothingDue (h n hn))
  have hhome := hvec.trans (.focus _ home)
  have hmat := hhome.trans (.foldl (l := ids) (f := fun s n => s.updCore n (·.updMat (fun m => { m with
    spilled := if m.eng.st = .stopped then m.spilled else false }))) (fun u n _ => .updMat u n _) fun n hn => hhome.nothingDue (h n hn))
  refine hmat.trans (.trans (.foldl (l := ids) (f := fun s n => (s.focus n).deliver) (fun u n hn => ?_) fun n hn => hmat.nothingDue (h n hn))
    (.focus _ _))
  rw [deliver_nothingDue hn]
  exact .focus u n

/-! ### The commands, once they are taken -/

section
variable {s : State} {q : Fin 64} {p : Packet} {x : Partition} {c : Context} (ho : ∀ k, s.onCtx q p k = k x c)
include ho

theorem resolve_held {n : Nat} (hn : s.heldCore c.num p = .ok n) : exec (.resolve q p) s =
    .next ((s.updCore n (·.updSeq (fun q => { q with hold := none }))).okCmd q p []) := by
  refine congrArg Host.Outcome.next ((ho _).trans ?_)
  simp only [hn]

theorem refuse_held {n : Nat} (hn : s.heldCore c.num p = .ok n) :
    exec (.refuse q p) s = .next ((s.haltPlain c.num codeBounds n false).okCmd q p []) := by
  refine congrArg Host.Outcome.next ((ho _).trans ?_)
  simp only [hn]

theorem resolve_refuse_unheld {r : Nat} (hr : s.heldCore c.num p = .error r) :
    exec (.resolve q p) s = .next (s.refuseCmd q p r) ∧ exec (.refuse q p) s = .next (s.refuseCmd q p r) := by
  constructor <;> refine congrArg Host.Outcome.next ((ho _).trans ?_) <;> simp only [hr]

theorem unmap_partPage (h : p.a1.toNat % 65536 ≠ 0) : exec (.unmap q p) s = .next (s.refuseCmd q p 3) :=
  congrArg Host.Outcome.next ((ho _).trans (if_pos h))

theorem unmap_pages (h : p.a1.toNat % 65536 = 0) :
    exec (.unmap q p) s = .next ((s.unmap c.num p.a0.toNat p.a1.toNat).waitCmd q p) :=
  congrArg Host.Outcome.next ((ho _).trans (if_neg (not_not_intro h)))

theorem debugHalt_refused (h0 : p.a0.toNat ≤ 2) (h : c.debug = false ∨ c.halt ≠ none) :
    exec (.debugHalt q p) s = .next (s.refuseCmd q p 7) := by
  refine congrArg Host.Outcome.next ((ho _).trans ((if_neg (Nat.not_lt.2 h0)).trans (if_pos ?_)))
  rcases h with hd | hh
  · simp [hd]
  · exact .inr (Option.isSome_iff_ne_none.2 hh)

theorem debugHalt_halts (h0 : p.a0.toNat ≤ 2) (hd : c.debug = true) (hh : c.halt = none) : exec (.debugHalt q p) s =
    .next ((s.haltPlain c.num codeOk (s.lowestCore c.num) true).waitCmd q p) :=
  congrArg Host.Outcome.next ((ho _).trans ((if_neg (Nat.not_lt.2 h0)).trans (if_neg (by simp [hd, hh]))))

theorem debug_unhalted (hh : c.halt = none) :
    exec (.debugResume q p) s = .next (s.refuseCmd q p 7) ∧ exec (.debugReadState q p) s = .next (s.refuseCmd q p 7) := by
  constructor <;> refine congrArg Host.Outcome.next ((ho _).trans ?_)
  · simp only [hh]
  · exact if_pos (by rw [hh]; rfl)

theorem debugResume_resumes {h : Halt} (hh : c.halt = some h) (hd : c.debug = true) (hdebug : h.debug = true) (hposted : h.posted = true) :
    exec (.debugResume q p) s =
      .next (((s.updCtx c.num (fun c => { c with halt := none })).resumedOn (s.ctxCores c.num) s.core.id).okCmd q p []) := by
  refine congrArg Host.Outcome.next ((ho _).trans ?_)
  simp only [hh, hd, hdebug, hposted, Bool.not_true, Bool.false_eq_true, or_self, if_false]
  rfl

theorem debugReadState_reads {h : Halt} (hh : c.halt = some h) : exec (.debugReadState q p) s =
    .next (s.hostDone q p p.a1.toNat ((Config.saveLayout (s.areaPieces c.num)).take p.a2.toNat) []) :=
  congrArg Host.Outcome.next ((ho _).trans (if_neg (by rw [hh]; exact Bool.false_ne_true)))

theorem logRead_copies (hq : q ≠ 0) : exec (.logRead q p) s = .next (s.copyLog q p c.log) :=
  congrArg Host.Outcome.next ((if_neg hq).trans (ho _))

end

/-- How a command that ends with a write to host memory is answered (R224). -/
theorem hostDone_eq (s : State) (q : Fin 64) (p : Packet) (a : Nat) (l : List Byte) (r : List Word) : s.hostDone q p a l r =
    if s.eccWrite (cellsAt (s.hostPlace q a) l) = .ok then (s.hostWrite q a l).okCmd q p r else (s.hostWrite q a l).answer q p codeDataLost 0 [] := by
  rw [State.hostDone, State.hostLost]
  by_cases h : s.eccWrite (cellsAt (s.hostPlace q a) l) = .ok
  · rw [if_pos h, if_neg (by simp [h])]
  · rw [if_neg h, if_pos (by simp [h])]

/-- Settles O48. -/
theorem faultsUnmapsAndDebugging : Obligations.FaultsUnmapsAndDebugging := by
  unfold Obligations.FaultsUnmapsAndDebugging
  intro s q p x c hst hx hq hi hc hcp hpg hcg hpend
  have ho : ∀ k, s.onCtx q p k = k x c := onCtx_taken hst hx hq hi hc hcp hpg hcg hpend
  refine ⟨fun n hn => ⟨resolve_held ho hn, refuse_held ho hn⟩, fun r hr => resolve_refuse_unheld ho hr, unmap_partPage ho,
    fun h => ⟨_, unmap_pages ho h, ?_⟩, fun h0 => ⟨debugHalt_refused ho h0, debugHalt_halts ho h0⟩, debug_unhalted ho,
    fun h hh => ⟨fun hd hdebug hposted hdue => ⟨_, debugResume_resumes ho hh hd hdebug hposted, ?_⟩, ?_⟩, ?_⟩
  · obtain ⟨d, o, hf⟩ := unmap_frame s c.num p.a0.toNat p.a1.toNat
    refine ⟨by rw [hf]; rfl, by rw [hf]; rfl, by rw [hf]; exact ⟨rfl, rfl, rfl⟩, fun n h => ?_⟩
    exact unmap_slots s c.num p.a0.toNat p.a1.toNat n h
  · obtain ⟨⟨d, o, hf⟩, hcores⟩ := butMat_resumedOn (s := s.updCtx c.num (fun c => { c with halt := none })) s.core.id hdue
    have hctx : (s.updCtx c.num (fun c => { c with halt := none })).ctx c.num = some { c with halt := none } :=
      ctx_updCtx_same (fun _ => rfl) (by rw [ctx_num hc]; exact hc)
    refine ⟨by rw [hf]; exact hctx, by rw [hf]; exact ⟨rfl, rfl, rfl⟩, fun n => ?_⟩
    obtain ⟨m, hm⟩ := hcores n
    rw [hm]
    exact ⟨rfl, rfl⟩
  · rw [debugReadState_reads ho hh, hostDone_eq]
    rfl
  · rw [logRead_copies ho hq, State.copyLog, hostDone_eq]
    rfl

end Sys2Proof.Machine
end

section
/-!
PROOFS. The words that open and prepare a reduction, the loop words and the end of the matrix stream, and the governor's window (R18, R47,
R53, R105 to R112, R121, R122, R124, R128): O31.
-/
namespace Sys2Proof.Machine

/-! ### Matrix words that retire -/

/-- A matrix word that changed its engine retires. -/
theorem issueMat_done_next (s : State) (f : MatEngine → MatEngine) :
    s.issueMat (.done ((s.updMat f).engNext .mat)) = s.matRetired (s.core.updMat f) := rfl

/-- A matrix word's meaning issues what it answers; an equation for the answer is one for the meaning. -/
theorem exec_of_issueMat {i : Instr} {s : State} {r r' : EngIssue} (h : exec i s = .next (s.issueMat r)) (e : r = r') :
    exec i s = .next (s.issueMat r') := e ▸ h

theorem matLoop_eq (s : State) (f : Engine → Engine) (k' : Vector KReg 8) (pc' : Word)
    (h : f s.core.mat.eng = { s.core.mat.eng with k := k', pc := pc' }) :
    s.matLoop f = .next (s.engAdvanced .mat (fun e => { e with k := k', pc := pc' })) := by
  have hf : s.updEng .mat f = s.updEng .mat (fun e => { e with k := k', pc := pc' }) := by
    simp only [State.updEng, State.upd, Core.updEng, Core.setEng, Core.updMat, Core.eng, h]
  rw [State.matLoop, hf]
  rfl

/-! ### Consuming reads (R120) -/

section
variable (c : Core) (p : Placed) (lines : List Nat)

/-- A read that consumes changes the marks of reductions and bits of lines, and nothing else of the matrix engine. -/
theorem matRead_keeps {γ : Type} (g : MatEngine → γ) (hg : ∀ (m : MatEngine) (l : List Reduction), g { m with reds := l } = g m) :
    g (c.matRead p lines).mat = g c.mat := by
  rw [Core.matRead, Core.matConsume]
  split
  · split
    · rw [foldl_setFull_mat]
    · exact hg _ _
  · rfl

theorem matRead_seg : (c.matRead p lines).mat.seg = c.mat.seg := matRead_keeps c p lines MatEngine.seg (fun _ _ => rfl)

theorem matRead_acc : (c.matRead p lines).mat.acc = c.mat.acc := matRead_keeps c p lines MatEngine.acc (fun _ _ => rfl)

end

/-! ### Accumulators rebuilt element by element (R109) -/

theorem accOf_get (f : Nat → Nat → Int) {x y : Nat} (hx : x < 64) (hy : y < 64) : sparseGet 0 (accOf f) (64 * x + y) = f x y := by
  rw [accOf, List.range_eq_range', sparseGet_listed (fun i => f (i / 64) (i % 64)), if_pos (by omega),
    show (64 * x + y) / 64 = x by omega, show (64 * x + y) % 64 = y by omega]

/-- The accumulators that `m.ldacc` leaves. -/
def State.loadedAcc (s : State) (p : Placed) : List (Nat × Int) :=
  accOf (fun r n => if rowIn s.core.mat.seg r then sextNat 32 (s.core.tileWord p.line r n) else s.core.mat.at_ r n)

/-! ### Opening and preparing (R107 to R112, R121) -/

section
variable {s : State} {t a b : TreeOp} {w : Bool} {p pa pb : Placed}

theorem exec_mBegin_closed {mode : MatMode} {n : BitVec 11} (h : s.core.mat.openRed = none) :
    exec (.mBegin mode n) s = .next (s.matRetired (s.core.updMat (fun m => m.begin_ mode n.toNat))) := by
  rw [← issueMat_done_next]
  exact exec_of_issueMat rfl (if_neg (by simp [h]))

theorem exec_mBegin_open {mode : MatMode} {n : BitVec 11} (h : s.core.mat.openRed.isSome = true) :
    exec (.mBegin mode n) s = .next (s.issueMat (.stop codeIllegal)) :=
  exec_of_issueMat rfl (if_pos h)

section
variable (hf : s.core.mat.fresh = true)
include hf

theorem exec_mZero_fresh : exec .mZero s = .next (s.matRetired (s.core.updMat (fun m => { m with acc := [] }))) := by
  rw [← issueMat_done_next]
  exact exec_of_issueMat rfl (if_neg (by simp [hf]))

theorem exec_mLdacc_fresh (hp : s.matPlace t 256 kindVec = some p) (hr : s.matReadable (segLines s.core.mat.seg p.line 256)) :
    exec (.mLdacc t w) s = .next (s.matRetired
      ((s.core.matRead p (segLines s.core.mat.seg p.line 256)).updMat (fun m => { m with acc := s.loadedAcc p }))) := by
  rw [← issueMat_matDone]
  refine exec_of_issueMat rfl ?_
  simp only [hf, Bool.not_true, Bool.false_eq_true, if_false, hp, matTest_readable hr, Core.updMat, MatEngine.at_, matRead_seg,
    matRead_acc, State.loadedAcc]

/-- `m.seg` checks the record before anything changes (R10). -/
theorem exec_mSeg_fresh (hp : s.matPlace t 1 kindVec = some p) (hr : s.matReadable [p.line]) :
    exec (.mSeg t w) s = .next (s.issueMat (if !segOk (s.core.line p.line).data then .stop codeBounds
      else s.matDone ((s.core.matRead p [p.line]).updMat (fun m => { m with seg := (s.core.line p.line).data })))) := by
  refine exec_of_issueMat rfl ?_
  simp only [hf, Bool.not_true, Bool.false_eq_true, if_false, hp, matTest_readable hr]

end

/-- The preparing words are ILLEGAL once the open reduction has progress (R106). -/
theorem exec_prepare_started (hf : s.core.mat.fresh = false) : exec .mZero s = .next (s.issueMat (.stop codeIllegal)) ∧
    exec (.mLdacc t w) s = .next (s.issueMat (.stop codeIllegal)) ∧ exec (.mSeg t w) s = .next (s.issueMat (.stop codeIllegal)) := by
  have hn : (!s.core.mat.fresh) = true := by simp [hf]
  exact ⟨exec_of_issueMat rfl (if_pos hn), exec_of_issueMat rfl (if_pos hn), exec_of_issueMat rfl (if_pos hn)⟩

theorem exec_mScale_reads (ha : s.matPlace a 1 kindVec = some pa) (hb : s.matPlace b 1 kindVec = some pb)
    (hr : s.matReadable [pa.line, pb.line]) :
    exec (.mScale a b w) s = .next (s.matRetired ((((s.core.matRead pa [pa.line]).matRead pb [pb.line]).updMat (fun m => { m with
      rows := (s.core.line pa.line).data, cols := (s.core.line pb.line).data })).matFlags
        (flagIf (scaleInv (s.core.line pa.line).data || scaleInv (s.core.line pb.line).data) flagScaleInv))) := by
  rw [← issueMat_matDone]
  refine exec_of_issueMat rfl ?_
  simp only [ha, hb, matTest_readable hr]

end

theorem flagIf_or (x y : Bool) (f : BitVec 5) : flagIf (x || y) f = if x ∨ y then f else 0 := by
  simp only [flagIf, Bool.or_eq_true]

/-! ### The end of the stream (R122) -/

section
variable {s : State}

theorem exec_mEnd_open (h : s.core.mat.openRed.isSome = true) : exec .mEnd s = .next (s.issueMat (.stop codeIllegal)) :=
  exec_of_issueMat rfl (if_pos h)

theorem exec_mEnd_closed (h : s.core.mat.openRed = none) : exec .mEnd s = .next (s.issueMat (if !s.core.mat.reds.isEmpty then .wait 6 0 s
    else .set (s.updEng .mat (fun e => { e with st := .ended, retired := s.now, stopReq := false })))) :=
  exec_of_issueMat rfl (if_neg (by simp [h]))

theorem exec_mEnd_held (h : s.core.mat.openRed = none) (hr : s.core.mat.reds ≠ []) : exec .mEnd s = .next (s.engWaits .mat 6 0) := by
  rw [exec_mEnd_closed h, if_pos (by simpa using hr)]
  rfl

theorem openRed_of_no_reds (h : s.core.mat.reds = []) : s.core.mat.openRed = none := by
  rw [MatEngine.openRed, h]
  rfl

theorem exec_mEnd_idle (h : s.core.mat.reds = []) : exec .mEnd s =
    .next (s.updEng .mat (fun e => { e with st := .ended, retired := s.now, stopReq := false })) := by
  rw [exec_mEnd_closed (openRed_of_no_reds h), if_neg (by simp [h])]
  rfl

end

/-! ### The governor's window (R128, R236) -/

theorem stepBudget_near (old new : Nat) : stepBudget old new ≤ old + 32 ∧ old ≤ stepBudget old new + 32 := by
  rw [stepBudget]
  omega

theorem stepBudget_reaches {old new : Nat} (hu : new ≤ old + 32) (hl : old ≤ new + 32) : stepBudget old new = new := by
  rw [stepBudget]
  omega

/-- A step from one value of a range towards another stays in the range. -/
theorem stepBudget_between {old new lo hi : Nat} (hol : lo ≤ old) (hoh : old ≤ hi) (hnl : lo ≤ new) (hnh : new ≤ hi) :
    lo ≤ stepBudget old new ∧ stepBudget old new ≤ hi := by
  rw [stepBudget]
  omega

theorem budgetAim_le (s : State) : s.budgetAim ≤ 256 := by
  rw [State.budgetAim]
  refine Nat.max_le.2 ⟨by decide, ?_⟩
  split
  · exact (Nat.min_le_right _ _).trans (Nat.min_le_left _ _)
  · exact Nat.min_le_left _ _

section
variable {s : State} {core : Nat} (most : Nat) (hlive : s.liveCore core = true)
include hlive

theorem exec_budgetWindow : exec (.budgetWindow core most) s = .next ((s.focus core).newWindow most) :=
  congrArg Host.Outcome.next (onCore_live hlive)

theorem exec_budgetWindow_early (h : (s.focus core).now < (s.focus core).core.mat.window + 256) :
    exec (.budgetWindow core most) s = .next (s.focus core) := by
  rw [exec_budgetWindow most hlive, State.newWindow, if_pos h]

theorem exec_budgetWindow_due (h : (s.focus core).core.mat.window + 256 ≤ (s.focus core).now) :
    exec (.budgetWindow core most) s = .next ((s.focus core).updMat (fun m => { m with
      budget := stepBudget m.budget (max 32 (min most (s.focus core).budgetAim)), spent := 0, window := (s.focus core).now })) := by
  rw [exec_budgetWindow most hlive, State.newWindow, if_neg (Nat.not_lt.2 h)]

end

/-! ### The obligation -/

/-- Settles O31: one lemma of this file for each word. -/
theorem matrixPreparesAndLoops : Obligations.MatrixPreparesAndLoops := by
  unfold Obligations.MatrixPreparesAndLoops
  refine ⟨?_, ?_⟩
  · intro s t a b w mode n row r c j p pa pb m gives refuses
    refine ⟨exec_mBegin_closed, exec_mBegin_open,
      fun hf => ⟨exec_mZero_fresh hf, fun hp hr => ⟨s.loadedAcc p, exec_mLdacc_fresh hf hp hr, fun x y hx hy => accOf_get _ hx hy⟩,
        fun hp hr => ⟨fun hok => ?_, fun hbad => ?_⟩⟩,
      exec_prepare_started, fun ha hb hr => ?_, rfl, rfl⟩
    · exact (exec_mSeg_fresh hf hp hr).trans (by rw [if_neg (by simp [hok]), issueMat_matDone])
    · exact (exec_mSeg_fresh hf hp hr).trans (by rw [if_pos (by simp [hbad])]; rfl)
    · exact (exec_mScale_reads ha hb hr).trans (by rw [flagIf_or]; rfl)
  · intro s k i n off x core most m e goes
    refine ⟨matLoop_eq s _ _ _ rfl, matLoop_eq s _ _ _ ?_, matLoop_eq s _ _ _ rfl, matLoop_eq s _ _ _ rfl, matLoop_eq s _ _ _ rfl,
      exec_mEnd_open, exec_mEnd_held, exec_mEnd_idle, fun hlive => ⟨exec_budgetWindow_early most hlive,
        fun hdue => ⟨_, exec_budgetWindow_due most hlive hdue, ?_⟩⟩⟩
    · simp only [Engine.br, Engine.setK]
      split <;> rfl
    · have haim : max 32 (min most (s.focus core).budgetAim) ≤ 256 :=
        Nat.max_le.2 ⟨by decide, (Nat.min_le_right _ _).trans (budgetAim_le _)⟩
      obtain ⟨hup, hdown⟩ := stepBudget_near (s.focus core).core.mat.budget (max 32 (min most (s.focus core).budgetAim))
      exact ⟨hup, hdown, stepBudget_reaches, fun hl hu => stepBudget_between hl hu (Nat.le_max_left _ _) haim⟩

end Sys2Proof.Machine
end

section
/-!
PROOFS. Vector words that the tests of R29 let go on, and the lane-wise words (R132 to R142, R150, R151, R155, R157, R158): O25.
-/
namespace Sys2Proof.Machine

/-! ### Vector words that go on -/

section
variable {s : State} {srcs : List VSrc} {dsts : List Placed} (h : s.vecOpen srcs dsts)
include h

/-- What `State.vecOpen` says is more than `State.vecClear`. -/
theorem vecClear_of_vecOpen : s.vecClear srcs dsts :=
  ⟨fun p hp m hm => ⟨(h.2 p hp m hm).1, (h.2 p hp m hm).2.1⟩, fun x hx m hm => (h.1 x hx m hm).2.1⟩

/-- No source line that a test of R29 picks is empty. -/
theorem vecOpen_full (w : VSrc → Bool) :
    ((srcs.filter w).flatMap (·.at_.all)).find? (fun n => !s.core.fullAs s.core.vec.marks n) = none := by
  refine List.find?_eq_none.2 (fun n hn => ?_)
  obtain ⟨x, hx, hn⟩ := List.mem_flatMap.1 hn
  simp [(h.1 x (List.mem_filter.1 hx).1 n hn).1]

/-- No line behind a write-wait view is waited for. -/
theorem vecOpen_wwait : ((dsts.filter (·.wwait)).flatMap Placed.all).find?
    (fun n => s.core.fullAs s.core.vec.marks n && !(eatenLines srcs).contains n) = none := by
  refine List.find?_eq_none.2 (fun n hn => ?_)
  obtain ⟨p, hp, hn⟩ := List.mem_flatMap.1 hn
  obtain ⟨hp, hw⟩ := List.mem_filter.1 hp
  rcases (h.2 p hp n hn).2.2 hw with he | he <;> simp [he]

theorem vecTest_of_vecOpen : s.vecTest srcs dsts none = none := by
  have hc := vecClear_of_vecOpen h
  simp only [State.vecTest, vecClear_writes hc, vecClear_landing hc, vecOpen_full h, vecOpen_wwait h]

theorem vecOpen_readable : (srcs.flatMap (·.at_.all)).find? (fun n => s.core.treeLost.contains n) = none := by
  refine List.find?_eq_none.2 (fun n hn => ?_)
  obtain ⟨x, hx, hn⟩ := List.mem_flatMap.1 hn
  simp [(h.1 x hx n hn).2.2]

/-- A vector word that computes something retires with it. -/
theorem vecRun_ok (o : VOut) : s.issueVec (s.vecRun srcs dsts none (.ok o)) = s.vecRetired srcs o := by
  simp only [State.vecRun, vecTest_of_vecOpen h, vecOpen_readable h]
  rfl

/-- A vector word whose own checks fail (R135 steps 5 and 6). -/
theorem vecRun_error {code : Code} (hc : code ≠ codeIntegrity) (d : Option Word) :
    s.vecRun srcs dsts none (.error (code, d)) = .stop code d := by
  simp only [State.vecRun, vecTest_of_vecOpen h, if_neg hc]

end

/-! ### Lane-wise words -/

section
variable {s : State} {i : Instr} {ok : EType → Bool} {act : Nat → Bool} {d : TreeOp} {w : Nat} {l : List (TreeOp × Bool)}
  {f : List (List Nat) → Nat → Nat × BitVec 5} (hi : exec i s = s.vecLanes ok act d w l f)
include hi

/-- Under a type that it does not accept (R134). -/
theorem vecLanes_refuses (hok : ok s.core.vec.shape.ty = false) : exec i s = .next (s.issueVec (.stop 0x0205)) := by
  rw [hi]
  exact congrArg (fun r => Host.Outcome.next (s.issueVec r)) (if_pos (by rw [hok]; rfl))

variable (hok : ok s.core.vec.shape.ty = true)
include hok

/-- With a destination of more than four lines (R141). -/
theorem vecLanes_wide (hw : 256 < s.core.vec.shape.lanes * w) : exec i s = .next (s.issueVec (.stop 0x0201)) := by
  rw [hi]
  exact congrArg (fun r => Host.Outcome.next (s.issueVec r)) ((if_neg (by simp [hok])).trans (if_pos hw))

variable (hw : s.core.vec.shape.lanes * w ≤ 256)
include hw

/-- With sources and a destination that R27 and R29 let it use. -/
theorem vecLanes_retires {pd : Placed} {ps : List Placed}
    (hp : s.vecPlaces ((d, linesFor (s.core.vec.shape.lanes * w)) :: l.map (fun x => (x.1, s.core.vec.span))) = some (pd :: ps))
    (ho : s.vecOpen ((ps.zip l).map (fun x => ⟨x.1, x.2.2⟩)) [pd]) :
    exec i s = .next (s.vecRetired ((ps.zip l).map (fun x => ⟨x.1, x.2.2⟩)) (laneOut pd.line w (laneResults s.core.vec.shape.lanes act
      (f (ps.map (fun p => s.core.lanes p.line s.core.vec.shape.ty.width s.core.vec.shape.lanes)))))) := by
  rw [hi, ← vecRun_ok ho]
  refine congrArg (fun r => Host.Outcome.next (s.issueVec r)) ?_
  simp only [hok, Bool.not_true, Bool.false_eq_true, if_false, if_neg (Nat.not_lt.2 hw), hp]

end

/-! The lane-wise words that are not of the shape `State.vec1` or `State.vec2`. -/

theorem vFma_lanes (s : State) (d a b : TreeOp) (wa wb : Bool) : exec (.vFma d a b wa wb) s =
    s.vecLanes tyArith s.core.vec.active d s.ty.width [(d, true), (a, wa), (b, wb)] (lane3 (fun d a b => (laneFma s.ty d a b, 0))) := rfl

/-- The lane that the mask selects of two. -/
def State.selLane (s : State) (cols : List (List Nat)) (i : Nat) : Nat × BitVec 5 :=
  lane2 (fun x y => (if (s.core.vec.masks[s.core.vec.shape.mask]).toNat.testBit i then x else y, 0)) cols i

theorem vSel_lanes (s : State) (d a b : TreeOp) (wa wb : Bool) : exec (.vSel d a b wa wb) s =
    s.vecLanes tyAny (fun _ => true) d s.ty.width [(a, wa), (b, wb)] s.selLane := by
  show execVSel d a b wa wb s = _
  rfl

/-- The lane of the first source that the second names. -/
def permLane (cols : List (List Nat)) (i : Nat) : Nat × BitVec 5 := match cols with
  | [x, y] => (x.getD (y.getD i 0) 0, 0)
  | _ => (0, 0)

theorem vPerm_lanes (s : State) (d a b : TreeOp) (wa wb : Bool) : exec (.vPerm d a b wa wb) s =
    s.vecLanes tyAny s.core.vec.active d s.ty.width [(a, wa), (b, wb)] permLane := by
  show execVPerm d a b wa wb s = _
  unfold execVPerm permLane
  rfl

/-- One lane of the source for every lane. -/
def bcastLane (n : Nat) (cols : List (List Nat)) (_ : Nat) : Nat × BitVec 5 := match cols with
  | [x] => (x.getD n 0, 0)
  | _ => (0, 0)

theorem vBcast_lanes {s : State} (d a : TreeOp) (wa : Bool) {imm : BitVec 9} (h : imm.toNat < s.core.vec.shape.lanes) :
    exec (.vBcast d a wa imm) s = s.vecLanes tyAny s.core.vec.active d s.ty.width [(a, wa)] (bcastLane imm.toNat) := by
  show execVBcast d a wa imm s = _
  rw [execVBcast, if_neg (Nat.not_le.2 h)]
  rfl

theorem vMovi_lanes (s : State) (d : TreeOp) (imm : BitVec 9) : exec (.vMovi d imm) s =
    s.vecLanes tyArith s.core.vec.active d s.ty.width [] (fun _ _ => (laneImm s.ty imm, 0)) := rfl

theorem vCvt_lanes (s : State) (d a : TreeOp) (t : EType) (wa : Bool) : exec (.vCvt d a t wa) s =
    s.vecLanes tyAny s.core.vec.active d t.width [(a, wa)] (lane1 (convert s.ty t)) := rfl

/-- The lanes of a source of lanes of the SHAPE type. -/
def State.columnOf (s : State) (p : Placed) : List Nat := s.core.lanes p.line s.core.vec.shape.ty.width s.core.vec.shape.lanes

/-- Lane i of such a source. -/
def State.laneOf (s : State) (p : Placed) (i : Nat) : Nat := (s.columnOf p).getD i 0

section
variable {s : State} {i : Instr} {ok : EType → Bool} {d a b : TreeOp} {wa wb : Bool} {w : Nat} {pd pa pb : Placed}
  {f : List (List Nat) → Nat → Nat × BitVec 5} {g : Nat → Nat × BitVec 5} (hok : ok s.core.vec.shape.ty = true)
  (hw : s.core.vec.shape.lanes * w ≤ 256)
include hok hw

/-- A lane-wise word with one source. -/
theorem oneSource_retires (hi : exec i s = s.vecLanes ok s.core.vec.active d w [(a, wa)] f) (hf : f [s.columnOf pa] = g)
    (hp : s.vecPlaces [(d, linesFor (s.core.vec.shape.lanes * w)), (a, s.core.vec.span)] = some [pd, pa])
    (ho : s.vecOpen [⟨pa, wa⟩] [pd]) : exec i s = .next (s.lanesRetired [⟨pa, wa⟩] pd w g) := by
  have h := vecLanes_retires (l := [(a, wa)]) (ps := [pa]) hi hok hw hp ho
  rw [← hf]
  exact h

/-- A lane-wise word with two sources. -/
theorem twoSources_retire (hi : exec i s = s.vecLanes ok s.core.vec.active d w [(a, wa), (b, wb)] f)
    (hf : f [s.columnOf pa, s.columnOf pb] = g)
    (hp : s.vecPlaces [(d, linesFor (s.core.vec.shape.lanes * w)), (a, s.core.vec.span), (b, s.core.vec.span)] = some [pd, pa, pb])
    (ho : s.vecOpen [⟨pa, wa⟩, ⟨pb, wb⟩] [pd]) : exec i s = .next (s.lanesRetired [⟨pa, wa⟩, ⟨pb, wb⟩] pd w g) := by
  have h := vecLanes_retires (l := [(a, wa), (b, wb)]) (ps := [pa, pb]) hi hok hw hp ho
  rw [← hf]
  exact h

end

section
variable {s : State} {d a b : TreeOp} {wa wb : Bool} {pd pa pb : Placed}

/-- `v.fma` reads its destination as the addend, always waiting (R136). -/
theorem exec_vFma (hok : tyArith s.core.vec.shape.ty = true) (hw : s.core.vec.shape.lanes * s.core.vec.shape.ty.width ≤ 256)
    (hp : s.vecPlaces [(d, s.core.vec.span), (d, s.core.vec.span), (a, s.core.vec.span), (b, s.core.vec.span)] = some [pd, pd, pa, pb])
    (ho : s.vecOpen [⟨pd, true⟩, ⟨pa, wa⟩, ⟨pb, wb⟩] [pd]) : exec (.vFma d a b wa wb) s = .next (s.lanesRetired
      [⟨pd, true⟩, ⟨pa, wa⟩, ⟨pb, wb⟩] pd s.core.vec.shape.ty.width
      (fun i => (laneFma s.core.vec.shape.ty (s.laneOf pd i) (s.laneOf pa i) (s.laneOf pb i), 0))) :=
  vecLanes_retires (ps := [pd, pa, pb]) (vFma_lanes s d a b wa wb) hok hw hp ho

/-- `v.sel` takes every lane below the lane count, and the mask selects (R139). -/
theorem exec_vSel (hw : s.core.vec.shape.lanes * s.core.vec.shape.ty.width ≤ 256)
    (hp : s.vecPlaces [(d, s.core.vec.span), (a, s.core.vec.span), (b, s.core.vec.span)] = some [pd, pa, pb])
    (ho : s.vecOpen [⟨pa, wa⟩, ⟨pb, wb⟩] [pd]) : exec (.vSel d a b wa wb) s = .next (s.vecRetired [⟨pa, wa⟩, ⟨pb, wb⟩]
      (laneOut pd.line s.core.vec.shape.ty.width ((List.range s.core.vec.shape.lanes).map (fun i =>
        (if (s.core.vec.masks[s.core.vec.shape.mask]).toNat.testBit i then s.laneOf pa i else s.laneOf pb i, 0))))) :=
  vecLanes_retires (ok := tyAny) (ps := [pa, pb]) (vSel_lanes s d a b wa wb) rfl hw hp ho

end

/-- `v.bitt` under a type that is not an integer type (R134). -/
theorem exec_vBitt_refuses (s : State) (d a : TreeOp) (wa : Bool) (imm : BitVec 9) (hok : tyInt s.core.vec.shape.ty = false) :
    exec (.vBitt d a wa imm) s = .next (s.issueVec (.stop 0x0205)) :=
  congrArg (fun r => Host.Outcome.next (s.issueVec r)) (if_pos (by rw [State.ty, hok]; rfl))

/-- `v.bitt` reads four lines of its source, whatever the lane count (R137). -/
theorem exec_vBitt {s : State} {d a : TreeOp} {wa : Bool} {imm : BitVec 9} {pd pa : Placed} (hok : tyInt s.core.vec.shape.ty = true)
    (hp : s.vecPlaces [(d, s.core.vec.span), (a, 4)] = some [pd, pa]) (ho : s.vecOpen [⟨pa, wa⟩] [pd]) :
    exec (.vBitt d a wa imm) s = .next (s.lanesRetired [⟨pa, wa⟩] pd s.core.vec.shape.ty.width (fun i =>
      (if s.core.treeBit pa.line (imm.toNat + i) then allOnes s.core.vec.shape.ty else 0, 0))) := by
  have hrun : exec (.vBitt d a wa imm) s = .next (s.issueVec (s.vecRun [⟨pa, wa⟩] [pd] none (.ok (laneOut pd.line
      s.core.vec.shape.ty.width (laneResults s.core.vec.shape.lanes s.core.vec.active (fun i =>
        (if s.core.treeBit pa.line (imm.toNat + i) then allOnes s.core.vec.shape.ty else 0, 0))))))) := by
    refine congrArg (fun r => Host.Outcome.next (s.issueVec r)) ?_
    simp only [State.ty, hok, Bool.not_true, Bool.false_eq_true, if_false, hp]
  rw [hrun, vecRun_ok ho, State.lanesRetired]

/-- Settles O25: `vecLanes_retires` and `vecLanes_refuses` for each word, with its lane function. -/
theorem vectorLanesCompute : Obligations.VectorLanesCompute := by
  unfold Obligations.VectorLanesCompute
  intro s d a b wa wb pd pa pb sh t w x y n refuses two one arith int float hw
  have pair : ∀ (i : Instr) (ok : EType → Bool) (f : EType → Nat → Nat → Nat), exec i s = s.vec2 ok d a b wa wb f →
      two i (ok t) (f t) := by
    intro i ok f hi
    exact And.intro (vecLanes_refuses hi) (fun hok hp ho => twoSources_retire hok hw hi rfl hp ho)
  have single : ∀ (i : Instr) (ok : EType → Bool) (f : Nat → Nat × BitVec 5),
      exec i s = s.vecLanes ok s.core.vec.active d w [(a, wa)] (lane1 f) → one i (ok t) f := by
    intro i ok f hi
    exact And.intro (vecLanes_refuses hi) (fun hok hp ho => oneSource_retires hok hw hi rfl hp ho)
  have plain : ∀ (i : Instr) (ok : EType → Bool) (f : EType → Nat → Nat), exec i s = s.vec1 ok d a wa f →
      one i (ok t) (fun p => (f t p, 0)) := fun i ok f hi => single i ok (fun p => (f t p, 0)) hi
  have hfloat : float = tyFloat t := Bool.decide_or _ _
  have hword : decide (t = .i32 ∨ t = .n32) = tyWord t := Bool.decide_or _ _
  rw [hfloat, hword]
  refine ⟨pair _ tyArith _ rfl, pair _ tyArith _ rfl, pair _ tyArith _ rfl, pair _ tyArith laneMin rfl, pair _ tyArith laneMax rfl,
    pair _ tyInt (fun _ p q => p &&& q) rfl, pair _ tyInt (fun _ p q => p ||| q) rfl, pair _ tyInt (fun _ p q => p ^^^ q) rfl,
    pair _ tyInt laneShl rfl, pair _ tyInt laneShr rfl, pair _ tyInt laneSar rfl, ?_,
    pair _ tyFloat (laneRefine false) rfl, pair _ tyFloat (laneRefine true) rfl,
    pair _ tyWord (fun _ => keyedHash) rfl, pair _ tyF32 (fun _ => laneNoise) rfl,
    plain _ tyArith laneAbs rfl, plain _ tyArith laneNeg rfl, fun imm => plain _ tyArith (laneWithImm (· + ·) FVal.add imm) rfl,
    fun imm => plain _ tyArith (laneWithImm (· * ·) FVal.mul imm) rfl, fun imm hl => ?_,
    plain _ tyInt (fun t => clzNat t.bitsW) rfl, plain _ tyInt (fun t => popNat t.bitsW) rfl,
    single _ tyFloat (laneRcpa t) rfl, single _ tyFloat (laneRsqa t) rfl, plain _ tyI32 (fun _ => laneSigq) rfl, fun imm => ?_,
    vecLanes_refuses (vFma_lanes s d a b wa wb), fun hok hp ho => exec_vFma hok hw hp ho, fun hp ho => exec_vSel hw hp ho,
    fun t' hw' hp ho => ?_, fun t' hw' => vecLanes_wide (vCvt_lanes s d a t' wa) rfl hw', fun imm => ?_⟩
  · exact And.intro nofun (fun hok hp ho => twoSources_retire hok hw (vPerm_lanes s d a b wa wb) rfl hp ho)
  · exact And.intro nofun (fun hok hp ho => oneSource_retires hok hw (vBcast_lanes d a wa hl) rfl hp ho)
  · exact And.intro (vecLanes_refuses (vMovi_lanes s d imm)) (fun hok hp ho => vecLanes_retires (ps := []) (vMovi_lanes s d imm) hok hw hp ho)
  · exact oneSource_retires rfl hw' (vCvt_lanes s d a t' wa) rfl hp ho
  · exact And.intro (exec_vBitt_refuses s d a wa imm) exec_vBitt

end Sys2Proof.Machine
end

section
/-!
PROOFS. `SHAPE`, the mask registers, reductions, CORDIC triples and frequency tables (R131, R138, R140, R143, R144, R152, R156): O27.
-/
namespace Sys2Proof.Machine

/-! ### Vector words without a destination in the tree -/

theorem vecFlags_none (c : Core) : c.vecFlags 0#5 = c := by
  rw [Core.vecFlags]
  split
  next => simp [Core.orFlags, Core.updSeq]
  next r t hr => simp [Core.updVec, ← hr]

/-- Such a word, consuming nothing and raising no flag, changes the vector engine's own state alone, and takes access numbers. -/
theorem vecRetired_own {s : State} {srcs : List VSrc} {n : Nat} {f : VecEngine → VecEngine} {post : Core → Core} (he : eatenLines srcs = [])
    (hp : post s.core = { s.core with issue := s.core.issue + n, vec := f s.core.vec }) (hf : (f s.core.vec).eng = s.core.vec.eng) :
    s.vecRetired srcs { dst := [], full := [], flags := 0, post := post } = s.vecAdvanced n f := by
  have heffect : s.vecEffect [] { dst := [], full := [], flags := 0, post := post } = State.engNext { s with core := post s.core } .vec := by
    simp [State.vecEffect, dedup, vecFlags_none]
  rw [State.vecRetired, he, heffect, hp, State.vecAdvanced, ← hf]
  rfl

/-! ### Mask registers (R138, R140) -/

/-- The number with bit i set where f i holds, for i below n. -/
def bitSum (f : Nat → Bool) (n : Nat) : Nat := ((List.range n).map (fun i => bit (f i) * 2 ^ i)).foldl (· + ·) 0

theorem bitSum_succ (f : Nat → Bool) (n : Nat) : bitSum f (n + 1) = 2 ^ n * bit (f n) + bitSum f n := by
  rw [bitSum, List.range_succ, List.map_append, List.foldl_append, bitSum]
  exact (Nat.add_comm _ _).trans (congrArg (· + _) (Nat.mul_comm _ _))

theorem bitSum_lt (f : Nat → Bool) (n : Nat) : bitSum f n < 2 ^ n := by
  induction n with
  | zero => exact Nat.one_pos
  | succ n ih =>
    rw [bitSum_succ, Nat.pow_succ]
    cases f n <;> simp only [bit, if_true, Bool.false_eq_true, if_false] <;> omega

theorem bitSum_testBit (f : Nat → Bool) (n j : Nat) : (bitSum f n).testBit j = (decide (j < n) && f j) := by
  induction n with
  | zero => simp [bitSum]
  | succ n ih =>
    rw [bitSum_succ, Nat.testBit_two_pow_mul_add _ (bitSum_lt f n), ih]
    rcases Nat.lt_trichotomy j n with h | rfl | h
    · simp [h, Nat.lt_succ_of_lt h]
    · cases f j <;> simp [bit]
    · have hbit : (bit (f n)).testBit (j - n) = false := by
        obtain ⟨k, hk⟩ := Nat.exists_eq_add_of_lt h
        rw [hk, show n + k + 1 - n = k + 1 by omega]
        cases f n <;> simp [bit, Nat.testBit_succ]
      simp [Nat.not_lt.2 h.le, show ¬ j < n + 1 by omega, hbit]

theorem maskOf_getLsbD (f : Nat → Bool) {j : Nat} (hj : j < 256) : (maskOf f).getLsbD j = f j := by
  rw [maskOf, BitVec.getLsbD_ofNat, ← bitSum, bitSum_testBit]
  simp [hj]

theorem maskWord_eq (s : State) (n : Fin 8) (m : BitVec 256) :
    s.maskWord n m = .next (s.vecAdvanced 0 (fun v => { v with masks := v.masks.set n m })) :=
  congrArg Host.Outcome.next (vecAdvanced_of_done (s := s) (f := fun v => { v with masks := v.masks.set n m }) rfl rfl)

theorem shapeWord_eq (s : State) (sh : Shape) : s.shapeWord sh = .next (s.vecAdvanced 0 (fun v => { v with shape := sh })) :=
  congrArg Host.Outcome.next (vecAdvanced_of_done (s := s) (f := fun v => { v with shape := sh }) rfl rfl)

section
variable {s : State} {i : Instr} {n : Fin 8} {a b : TreeOp} {wa wb : Bool} {pa pb : Placed} {f : Int → Int → Bool}
  (hi : exec i s = s.vecCompare n a b wa wb f)
include hi

theorem vecCompare_refuses (ht : s.core.vec.shape.ty = .e4m3u) : exec i s = .next (s.issueVec (.stop 0x0205)) := by
  rw [hi]
  exact congrArg (fun r => Host.Outcome.next (s.issueVec r)) (if_pos (by rw [State.ty, ht]; rfl))

/-- A compare writes its mask register alone. -/
theorem vecCompare_retires (ht : s.core.vec.shape.ty ≠ .e4m3u)
    (hp : s.vecPlaces [(a, s.core.vec.span), (b, s.core.vec.span)] = some [pa, pb]) (ho : s.vecOpen [⟨pa, wa⟩, ⟨pb, wb⟩] [])
    (he : eatenLines [⟨pa, wa⟩, ⟨pb, wb⟩] = []) :
    exec i s = .next (s.vecAdvanced 0 (fun v => { v with masks := v.masks.set n (maskOf (fun i =>
      s.core.vec.active i && laneCmp f s.core.vec.shape.ty (s.laneOf pa i) (s.laneOf pb i))) })) := by
  have hok : tyArith s.ty = true := decide_eq_true ht
  rw [hi, ← vecRetired_own he (post := fun c => c.setMask n (maskOf (fun i =>
    s.core.vec.active i && laneCmp f s.core.vec.shape.ty (s.laneOf pa i) (s.laneOf pb i)))) rfl rfl, ← vecRun_ok ho]
  refine congrArg (fun r => Host.Outcome.next (s.issueVec r)) ?_
  simp only [hok, Bool.not_true, Bool.false_eq_true, if_false, hp]
  rfl

end

/-! ### Reductions (R143, R144) -/

/-- The active lanes of a source, with their numbers. -/
def State.activeLanes (s : State) (p : Placed) : List (Nat × Nat) :=
  ((List.range s.core.vec.shape.lanes).zip (s.columnOf p)).filter (fun x => s.core.vec.active x.1)

/-- A reduction writes its eight bytes to the first line of its destination. -/
theorem vecReduce_retires {s : State} {i : Instr} {d a : TreeOp} {wa : Bool} {pd pa : Placed} {f : EType → List (Nat × Nat) → Nat × Nat}
    (hi : exec i s = s.vecReduce d a wa f) (ht : s.core.vec.shape.ty ≠ .e4m3u)
    (hp : s.vecPlaces [(d, 1), (a, s.core.vec.span)] = some [pd, pa]) (ho : s.vecOpen [⟨pa, wa⟩] [pd]) :
    let r := f s.core.vec.shape.ty (s.activeLanes pa)
    exec i s = .next (s.vecRetired [⟨pa, wa⟩]
      { dst := [(pd.line, bytesOfNat 4 r.1 ++ bytesOfNat 4 r.2)], full := [pd.line], flags := 0, post := id }) := by
  intro r
  have hok : tyArith s.core.vec.shape.ty = true := decide_eq_true ht
  rw [hi, ← vecRun_ok ho]
  refine congrArg (fun r => Host.Outcome.next (s.issueVec r)) ?_
  simp only [hok, Bool.not_true, Bool.false_eq_true, if_false, hp]
  rfl

/-! ### Operands of several indices (R152, R156) -/

theorem mapM_option_length {α β : Type} {f : α → Option β} {l : List α} {r : List β} (h : l.mapM f = some r) : r.length = l.length := by
  induction l generalizing r with
  | nil => simp_all
  | cons x l ih =>
    simp only [List.mapM_cons, Option.bind_eq_bind, Option.bind_eq_some_iff, Option.pure_def, Option.some.injEq] at h
    obtain ⟨y, -, t, ht, rfl⟩ := h
    rw [List.length_cons, List.length_cons, ih ht]

theorem placeMany_length {c : Core} {k : Vector KReg 8} {t : TreeOp} {m n : Nat} {kinds : List Nat} {l : List Placed}
    (h : c.placeMany k t m n kinds = some l) : l.length = m := by
  rw [mapM_option_length h, List.length_range]

/-- Lane i of several sources of I32 lanes, as numbers. -/
def State.signedLane (s : State) (pa : List Placed) (i : Nat) : List Int :=
  (pa.map (fun p => s.core.lanes p.line 4 s.core.vec.shape.lanes)).map (fun c => sextNat 32 (c.getD i 0))

/-- The m columns of results that f gives to each lane; an inactive lane has zeros. -/
def VecEngine.columns (v : VecEngine) (m : Nat) (f : Nat → List Nat) : List (List Nat) :=
  (List.range m).map (fun j =>
    ((List.range v.shape.lanes).map (fun i => if v.active i then f i else List.replicate m 0)).map (fun r => r.getD j 0))

theorem columns_length (v : VecEngine) (m : Nat) (f : Nat → List Nat) : (v.columns m f).length = m := by
  rw [VecEngine.columns, List.length_map, List.length_range]

theorem columns_lane {v : VecEngine} {m i j : Nat} (f : Nat → List Nat) (hj : j < m) (hi : i < v.shape.lanes) (ha : v.active i = true) :
    ((v.columns m f).getD j []).getD i 0 = (f i).getD j 0 := by
  simp [VecEngine.columns, List.getD_eq_getElem?_getD, hj, hi, ha]

/-- What the iterations make of three numbers, as lanes. -/
def corLanes (k : CorKind) (rotate : Bool) (n : Nat) (l : List Int) : List Nat :=
  let r := cordic k rotate n (l.getD 0 0, l.getD 1 0, l.getD 2 0)
  [wrapInt 32 r.1, wrapInt 32 r.2.1, wrapInt 32 r.2.2]

section
variable {s : State} {d a : TreeOp} {wa : Bool} {pd pa : List Placed} (ht : s.core.vec.shape.ty = .i32)
  (ho : s.vecOpen (pa.map (fun p => ⟨p, wa⟩)) pd)
include ht ho

theorem vecCordic_retires {i : Instr} {k : CorKind} {rotate : Bool} {n : Nat} (hi : exec i s = s.vecCordic d a wa k rotate n)
    (hd : s.core.placeMany s.core.vec.eng.k d 3 s.core.vec.span [kindVec] = some pd)
    (ha : s.core.placeMany s.core.vec.eng.k a 3 s.core.vec.span [kindVec] = some pa) :
    exec i s = .next (s.vecRetired (pa.map (fun p => ⟨p, wa⟩))
      (tripleOut pd (s.core.vec.columns 3 (fun i => corLanes k rotate n (s.signedLane pa i))))) := by
  obtain ⟨p, q, r, rfl⟩ := List.length_eq_three.1 (placeMany_length ha)
  rw [hi, ← vecRun_ok ho]
  refine congrArg (fun r => Host.Outcome.next (s.issueVec r)) ?_
  simp only [State.ty, ht, hd, ha]
  rfl

theorem exec_vCdfq (hd : s.core.placeMany s.core.vec.eng.k d 16 s.core.vec.span [kindVec] = some pd)
    (ha : s.core.placeMany s.core.vec.eng.k a 16 s.core.vec.span [kindVec] = some pa) :
    exec (.vCdfq d a wa) s = .next (s.vecRetired (pa.map (fun p => ⟨p, wa⟩))
      (tripleOut pd (s.core.vec.columns 16 (fun i => cdfTable (s.signedLane pa i))))) := by
  rw [← vecRun_ok ho]
  refine congrArg (fun r => Host.Outcome.next (s.issueVec r)) ?_
  simp only [State.ty, ht, hd, ha]
  rfl

end

/-- Settles O27: one lemma of this file for each group of words. -/
theorem masksShapeReductionsAndTriples : Obligations.MasksShapeReductionsAndTriples := by
  unfold Obligations.MasksShapeReductionsAndTriples
  refine ⟨fun s n p q ty lanes a b wa wb pa pb => ?_, fun s d a wa n => ?_⟩
  · intro v sets
    refine ⟨shapeWord_eq s _, shapeWord_eq s _, maskWord_eq s n _, maskWord_eq s n _, maskWord_eq s n _, maskWord_eq s n _, maskWord_eq s n _,
      maskWord_eq s n _, maskWord_eq s n _, ?_⟩
    intro t x y compares
    have compare : ∀ (i : Instr) (f : Int → Int → Bool), exec i s = s.vecCompare n a b wa wb f → compares i f := by
      intro i f hi
      exact And.intro (vecCompare_refuses hi) (fun ht hp ho he => ⟨_, vecCompare_retires hi ht hp ho he, fun j hj => maskOf_getLsbD _ hj⟩)
    exact ⟨compare _ _ rfl, compare _ _ rfl, compare _ _ rfl⟩
  · intro v sh
    refine ⟨fun pd pa ht hp ho => ?_, fun pd pa ht hd ha ho => ?_, fun pd pa ht hd ha ho => ?_⟩
    · intro l gives
      have reduces : ∀ (i : Instr) (f : EType → List (Nat × Nat) → Nat × Nat), exec i s = s.vecReduce d a wa f → gives i (f sh.ty l) :=
        fun i f hi => vecReduce_retires hi ht hp ho
      exact ⟨reduces _ reduceSum rfl, reduces _ reduceMax rfl, reduces _ reduceMin rfl, reduces _ reduceArgmax rfl⟩
    · intro col gives
      obtain ⟨p, q, r, rfl⟩ := List.length_eq_three.1 (placeMany_length ha)
      have cor : ∀ (i : Instr) (k : CorKind) (rotate : Bool), exec i s = s.vecCordic d a wa k rotate n.toNat → gives i k rotate := by
        intro i k rotate hi
        refine ⟨_, vecCordic_retires ht ho hi hd ha, columns_length _ _ _, fun j hj hact => ?_⟩
        exact ⟨columns_lane _ (by decide) hj hact, columns_lane _ (by decide) hj hact, columns_lane _ (by decide) hj hact⟩
      exact ⟨cor _ _ _ rfl, cor _ _ _ rfl, cor _ _ _ rfl, cor _ _ _ rfl, cor _ _ _ rfl, cor _ _ _ rfl⟩
    · refine ⟨_, exec_vCdfq ht ho hd ha, columns_length _ _ _, fun i j hi hj hact => ?_⟩
      rw [columns_lane _ hi hj hact, State.signedLane, List.map_map]
      rfl

end Sys2Proof.Machine
end

section
/-!
PROOFS. The access words of the vector stream issue their accesses on VP, or stop with BOUNDS (R135, R145, R146).
-/
namespace Sys2Proof.Machine

/-! ### An access issued on VP -/

/-- The machine once a vector word that consumes nothing has issued an access of kind k through the binding b. -/
def State.accessIssued (s : State) (b : Binding) (k : VpKind) : State := s.vecAdvanced 1 (fun v => { v with
  vp := v.vp ++ [⟨s.core.issue, v.eng.pc, s.openDetailOf .vec, k, s.core.vec.shape.ty.width, [b.id], some [], false, [], false⟩] })

/-- The tree bytes of the active lanes, each with the place that it is read from. -/
def State.loadCells (s : State) (b : Binding) (pd : Placed) (offs : List (Nat × Nat)) : List (Nat × PAddr) :=
  offs.flatMap (fun x => (List.range s.core.vec.shape.ty.width).map (fun i =>
    (64 * pd.line + s.core.vec.shape.ty.width * x.1 + i, (b.place (x.2 + i)).getD ⟨b.kind, 0⟩)))

/-- The tree bytes of the inactive lanes. -/
def State.zeroCells (s : State) (pd : Placed) : List Nat := ((List.range s.core.vec.shape.lanes).filter (fun i => !s.core.vec.active i)).flatMap
  (fun i => rangeFrom (64 * pd.line + s.core.vec.shape.ty.width * i) s.core.vec.shape.ty.width)

/-- The places of the active lanes, each with the byte that is written to it. -/
def State.storeCells (s : State) (b : Binding) (p : Placed) (offs : List (Nat × Nat)) : List (PAddr × Byte) :=
  offs.flatMap (fun x => (b.places x.2 s.core.vec.shape.ty.width).zip (bytesOfNat s.core.vec.shape.ty.width (s.laneOf p x.1)))

theorem eatenLines_kept {srcs : List VSrc} (h : ∀ x ∈ srcs, x.at_.consume = false) : eatenLines srcs = [] := by
  refine List.flatMap_eq_nil_iff.2 (fun x hx => ?_)
  rw [h x hx]
  rfl

theorem emptied_kept (s : State) {srcs : List VSrc} (h : ∀ x ∈ srcs, x.at_.consume = false) : s.emptied srcs = [] := by
  rw [State.emptied, eatenLines_kept h]
  rfl

/-- A write of at least one byte outside a region is no held one. -/
theorem vpWrite_issues {c : Core} {cells : List (PAddr × Byte)} {detail : Word} {w : Nat} {binds : List Nat} {eaten : Option (List Nat)}
    (hr : c.vec.regions = []) (hne : cells ≠ []) : c.vpWrite detail cells w binds eaten = c.issueVp detail (.store cells) w binds eaten := by
  rw [Core.vpWrite, if_neg (by simpa using hne), hr]

section
variable {s : State} {srcs : List VSrc} {dsts : List Placed} {b : Binding} {p : Placed} {offs : List (Nat × Nat)} (ho : s.vecOpen srcs dsts)
  (hk : ∀ x ∈ srcs, x.at_.consume = false)
include ho hk

/-- A load whose bytes can be read is issued (R135 step 6). -/
theorem vpLoad_issues (hecc : s.eccRead ((s.loadCells b p offs).map Prod.snd) = .ok) :
    s.issueVec (s.vecRun srcs dsts none (s.vpLoad b p [] offs)) =
      s.accessIssued b (.load (s.loadCells b p offs) (s.zeroCells p) p.all p.wwait) := by
  have hrun : s.vpLoad b p [] offs = .ok { dst := [], full := [], flags := 0, post := (fun c =>
      c.issueVp (s.openDetailOf .vec) (.load (s.loadCells b p offs) (s.zeroCells p) p.all p.wwait) s.core.vec.shape.ty.width [b.id] (some [])) } := by
    simp only [State.vpLoad, State.loadCells, State.zeroCells] at hecc ⊢
    rw [hecc]
  rw [hrun, vecRun_ok ho, State.accessIssued]
  exact vecRetired_own (eatenLines_kept hk) rfl rfl

/-- A store of at least one byte outside a region is issued. -/
theorem vpStore_issues (hr : s.core.vec.regions = []) (hne : s.storeCells b p offs ≠ []) :
    s.issueVec (s.vecRun srcs dsts none (s.vpStore b (s.columnOf p) [] offs)) = s.accessIssued b (.store (s.storeCells b p offs)) := by
  have hroom : ∀ n, s.core.vpRoom n = true := fun n => by rw [Core.vpRoom, hr]; rfl
  have hcells : offs.flatMap (fun x => State.vpStore.cellsOf b x.2 (bytesOfNat s.ty.width ((s.columnOf p).getD x.1 0))) =
      s.storeCells b p offs := by
    simp only [State.vpStore.cellsOf, bytesOfNat_length]
    rfl
  have hrun : s.vpStore b (s.columnOf p) [] offs = .ok { dst := [], full := [], flags := 0, post := (fun c =>
      c.vpWrite (s.openDetailOf .vec) (s.storeCells b p offs) s.core.vec.shape.ty.width [b.id] (some [])) } := by
    rw [State.vpStore, hcells, if_pos (hroom _)]
    rfl
  rw [hrun, vecRun_ok ho, State.accessIssued]
  exact vecRetired_own (eatenLines_kept hk) (vpWrite_issues hr hne) rfl

end

/-! ### Offsets (R145, R146) -/

/-- The first active lane whose element lies outside the binding. -/
theorem elementOffsets_outside {v : VecEngine} {idx : List Nat} {len i : Nat} (ha : v.active i = true)
    (hi : len < v.shape.ty.width * idx.getD i 0 + v.shape.ty.width)
    (hlow : ∀ i' < i, v.active i' = true → v.shape.ty.width * idx.getD i' 0 + v.shape.ty.width ≤ len) :
    elementOffsets v idx len = .error (codeBounds, some (wordOfNat (v.shape.ty.width * idx.getD i 0))) := by
  have hlanes : i < v.shape.lanes := of_decide_eq_true (Bool.and_eq_true_iff.1 ha).1
  have hfind : (v.offsets (fun i => v.shape.ty.width * idx.getD i 0)).find? (fun x => decide (len < x.2 + v.shape.ty.width)) =
      some (i, v.shape.ty.width * idx.getD i 0) := by
    have hrange : (List.range v.shape.lanes).find? (fun a => decide (v.active a = true ∧
        decide (len < v.shape.ty.width * idx.getD a 0 + v.shape.ty.width) = true)) = some i := by
      refine List.find?_range_eq_some.2 ⟨decide_eq_true ⟨ha, decide_eq_true hi⟩, List.mem_range.2 hlanes, fun j hj => ?_⟩
      simpa only [Bool.not_eq_true', decide_eq_false_iff_not, decide_eq_true_eq, not_and, Nat.not_lt] using hlow j hj
    rw [VecEngine.offsets, List.find?_map, List.find?_filter]
    exact congrArg _ hrange
  simp only [elementOffsets, hfind]

/-! ### `v.ld` and `v.st` (R145) -/

/-- The offset that `v.ld` and `v.st` take from a k register. -/
def State.kOffset (s : State) (j : KIx) : Nat := (s.core.vec.eng.k[j]).val.toNat

/-- The active lanes with their offsets from there. -/
def State.straightOffsets (s : State) (j : KIx) : List (Nat × Nat) :=
  s.core.vec.offsets (fun i => s.kOffset j + s.core.vec.shape.ty.width * i)

/-- The checks that both make before they run. -/
def State.straightAccess (s : State) (h : Hnd) (write : Bool) (j : KIx) (run : Binding → Option Nat → EngIssue) : EngIssue :=
  if s.kOffset j % s.core.vec.shape.ty.width ≠ 0 then .stop codeBounds (some (wordOfNat (s.kOffset j)))
  else s.vpHandle h write (fun b hold =>
    if !laneSpanOk s.core.vec.shape (s.kOffset j) b.len then .stop codeBounds (some (wordOfNat (s.kOffset j))) else run b hold)

section
variable {s : State} {d : TreeOp} {h : Hnd} {j : KIx} {write wa : Bool} {b : Binding} {pd : Placed} (run : Binding → Option Nat → EngIssue)

section
variable (hb : ∀ k, s.vpHandle h write k = k b none)
include hb

/-- An offset that the lane width does not divide, or a span that leaves the binding. -/
theorem straightAccess_outside (ho : s.kOffset j % s.core.vec.shape.ty.width ≠ 0 ∨
      b.len < s.kOffset j + s.core.vec.shape.ty.width * s.core.vec.shape.lanes) :
    s.straightAccess h write j run = .stop 0x0201 (some (BitVec.ofNat 64 (s.kOffset j))) := by
  rw [State.straightAccess]
  split
  · rfl
  next hm =>
    have hspan : laneSpanOk s.core.vec.shape (s.kOffset j) b.len = false := decide_eq_false (Nat.not_le.2 (ho.resolve_left hm))
    rw [hb, hspan]
    rfl

theorem straightAccess_inside (hm : s.kOffset j % s.core.vec.shape.ty.width = 0)
    (hl : s.kOffset j + s.core.vec.shape.ty.width * s.core.vec.shape.lanes ≤ b.len) : s.straightAccess h write j run = run b none := by
  have hspan : laneSpanOk s.core.vec.shape (s.kOffset j) b.len = true := decide_eq_true hl
  rw [State.straightAccess, if_neg (not_not.2 hm), hb, hspan]
  rfl

end

variable (hp : s.vecPlaces [(d, s.core.vec.span)] = some [pd])
include hp

theorem exec_vLd : exec (.vLd d h j) s = .next (s.issueVec (s.straightAccess h false j (fun b hold =>
    s.vecRun [] [pd] hold (s.vpLoad b pd [] (s.straightOffsets j))))) := by
  refine congrArg (fun r => Host.Outcome.next (s.issueVec r)) ?_
  simp only [hp]
  rfl

theorem exec_vSt : exec (.vSt d h j wa) s = .next (s.issueVec (s.straightAccess h true j (fun b hold =>
    s.vecRun [⟨pd, wa⟩] [] hold (s.vpStore b (s.columnOf pd) (s.emptied [⟨pd, wa⟩]) (s.straightOffsets j))))) := by
  refine congrArg (fun r => Host.Outcome.next (s.issueVec r)) ?_
  simp only [hp]
  rfl

end

/-! ### `v.gather` and `v.scatter` (R146) -/

section
variable {s : State} {d a : TreeOp} {h : Hnd} {wa wb : Bool} {b : Binding} {pd pa : Placed}
  (hp : s.vecPlaces [(d, s.core.vec.span), (a, s.core.vec.span)] = some [pd, pa])
include hp

theorem exec_vGather (hb : ∀ k, s.vpHandle h false k = k b none) : exec (.vGather d a h wa) s = .next (s.issueVec (
    s.vecRun [⟨pa, wa⟩] [pd] none
      ((elementOffsets s.core.vec (s.columnOf pa) b.len).bind (s.vpLoad b pd (s.emptied [⟨pa, wa⟩]))))) := by
  refine congrArg (fun r => Host.Outcome.next (s.issueVec r)) ?_
  simp only [hp, hb]
  rfl

theorem exec_vScatter (hb : ∀ k, s.vpHandle h true k = k b none) : exec (.vScatter d a h wa wb) s = .next (s.issueVec (
    s.vecRun [⟨pd, wb⟩, ⟨pa, wa⟩] [] none ((elementOffsets s.core.vec (s.columnOf pa) b.len).bind
      (s.vpStore b (s.columnOf pd) (s.emptied [⟨pd, wb⟩, ⟨pa, wa⟩]))))) := by
  refine congrArg (fun r => Host.Outcome.next (s.issueVec r)) ?_
  simp only [hp, hb]
  rfl

end

end Sys2Proof.Machine
end

section
/-!
PROOFS. Bytes of the tree written one by one, and what a vector load leaves there when it lands (R149).
-/
namespace Sys2Proof.Machine

/-! ### One byte of a line replaced -/

/-- A number with byte k replaced. -/
theorem replaceByte_testBit (d x k i : Nat) (hx : x < 256) :
    (d / (2 ^ (8 * k) * 256) * (2 ^ (8 * k) * 256) + x * 2 ^ (8 * k) + d % 2 ^ (8 * k)).testBit i =
      if 8 * k ≤ i ∧ i < 8 * k + 8 then x.testBit (i - 8 * k) else d.testBit i := by
  have hp : 2 ^ (8 * k) * 256 = 2 ^ (8 * k + 8) := (Nat.pow_add 2 (8 * k) 8).symm
  have hlow : d % 2 ^ (8 * k) < 2 ^ (8 * k) := Nat.mod_lt _ (Nat.two_pow_pos _)
  have hnew : 2 ^ (8 * k) * x + d % 2 ^ (8 * k) < 2 ^ (8 * k + 8) := by
    rw [← hp]
    calc 2 ^ (8 * k) * x + d % 2 ^ (8 * k) < 2 ^ (8 * k) * x + 2 ^ (8 * k) := by omega
      _ = 2 ^ (8 * k) * (x + 1) := rfl
      _ ≤ 2 ^ (8 * k) * 256 := Nat.mul_le_mul_left _ hx
  rw [hp, Nat.add_assoc, Nat.mul_comm x, ← Nat.mod_eq_of_lt hnew, replaceLow_testBit, Nat.testBit_two_pow_mul_add _ hlow,
    Nat.testBit_mod_two_pow]
  by_cases h1 : i < 8 * k
  · simp [h1, show i < 8 * k + 8 by omega, Nat.not_le.2 h1]
  · by_cases h2 : i < 8 * k + 8 <;> simp [h1, h2, Nat.not_lt.1 h1]

theorem replaceByte_lt (d x : Nat) {k n : Nat} (hd : d < 2 ^ n) (hx : x < 256) (hk : 8 * k + 8 ≤ n) :
    d / (2 ^ (8 * k) * 256) * (2 ^ (8 * k) * 256) + x * 2 ^ (8 * k) + d % 2 ^ (8 * k) < 2 ^ n := by
  refine Nat.lt_pow_two_of_testBit _ (fun i hi => ?_)
  rw [replaceByte_testBit d x k i hx, if_neg (by omega)]
  exact Nat.testBit_lt_two_pow (hd.trans_le (Nat.pow_le_pow_right (by omega) hi))

/-- The bits of a line with byte k replaced. -/
theorem replaceByte_line {n k : Nat} (old : BitVec n) (x : Byte) (hk : 8 * k + 8 ≤ n) (i : Nat) :
    (BitVec.ofNat n (old.toNat / (2 ^ (8 * k) * 256) * (2 ^ (8 * k) * 256) + x.toNat * 2 ^ (8 * k) + old.toNat % 2 ^ (8 * k))).toNat.testBit i =
      if 8 * k ≤ i ∧ i < 8 * k + 8 then x.toNat.testBit (i - 8 * k) else old.toNat.testBit i := by
  rw [BitVec.toNat_ofNat, Nat.mod_eq_of_lt (replaceByte_lt _ _ old.isLt x.isLt hk), replaceByte_testBit _ _ _ _ x.isLt]

section
variable {c : Core}

theorem treeByte_getLsbD (b : Nat) {i : Nat} (hi : i < 8) :
    (c.treeByte b).getLsbD i = (c.line (b / 64)).data.toNat.testBit (8 * (b % 64) + i) := by
  rw [Core.treeByte, BitVec.getLsbD_ofNat, Core.treeNat, Nat.testBit_mod_two_pow, Nat.testBit_div_two_pow]
  simp [hi, Nat.add_comm]

theorem treeWf_putByte (w : c.TreeWf) (b : Nat) (x : Byte) : (c.putByte b x).TreeWf := treeWf_setLine w _ _

theorem putByte_line (w : c.TreeWf) (b : Nat) (x : Byte) (i : Nat) :
    ((c.putByte b x).line (b / 64)).data.toNat.testBit i =
      if 8 * (b % 64) ≤ i ∧ i < 8 * (b % 64) + 8 then x.toNat.testBit (i - 8 * (b % 64)) else (c.line (b / 64)).data.toNat.testBit i := by
  rw [Core.putByte, Core.putData, line_setLine_same w]
  exact replaceByte_line _ x (by omega) i

theorem treeByte_putByte_same (w : c.TreeWf) (b : Nat) (x : Byte) : (c.putByte b x).treeByte b = x := by
  refine BitVec.eq_of_getLsbD_eq (fun i hi => ?_)
  rw [treeByte_getLsbD _ hi, putByte_line w, if_pos (by omega), Nat.add_sub_cancel_left]
  rfl

theorem treeByte_putByte_other (w : c.TreeWf) {b b' : Nat} (x : Byte) (h : b' ≠ b) : (c.putByte b x).treeByte b' = c.treeByte b' := by
  refine BitVec.eq_of_getLsbD_eq (fun i hi => ?_)
  rw [treeByte_getLsbD _ hi, treeByte_getLsbD _ hi]
  by_cases hl : b' / 64 = b / 64
  · rw [hl, putByte_line w, if_neg (by omega)]
  · rw [Core.putByte, Core.putData, line_setLine_other w _ hl]

/-! ### Bytes written one after the other -/

/-- Tree bytes replaced one after the other. -/
def Core.putEach (c : Core) (l : List (Nat × Byte)) : Core := l.foldl (fun c x => c.putByte x.1 x.2) c

theorem putEach_frame (c : Core) (l : List (Nat × Byte)) : ∃ t, c.putEach l = { c with tree := t } := by
  induction l generalizing c with
  | nil => exact ⟨_, rfl⟩
  | cons x l ih =>
    obtain ⟨t, h⟩ := ih (c.putByte x.1 x.2)
    exact ⟨t, h⟩

theorem putEach_append (c : Core) (l m : List (Nat × Byte)) : c.putEach (l ++ m) = (c.putEach l).putEach m := List.foldl_append

theorem treeWf_putEach (w : c.TreeWf) (l : List (Nat × Byte)) : (c.putEach l).TreeWf :=
  List.foldlRecOn l _ (motive := Core.TreeWf) w (fun _ hd _ _ => treeWf_putByte hd _ _)

theorem treeByte_putEach_other (w : c.TreeWf) {l : List (Nat × Byte)} {b : Nat} (h : b ∉ l.map Prod.fst) :
    (c.putEach l).treeByte b = c.treeByte b := by
  induction l generalizing c with
  | nil => rfl
  | cons x l ih =>
    rw [List.map_cons, List.mem_cons, not_or] at h
    exact (ih (treeWf_putByte w x.1 x.2) h.2).trans (treeByte_putByte_other w _ h.1)

theorem treeByte_putEach_mem (w : c.TreeWf) {l : List (Nat × Byte)} (hl : (l.map Prod.fst).Nodup) :
    ∀ x ∈ l, (c.putEach l).treeByte x.1 = x.2 := by
  induction l generalizing c with
  | nil => exact fun x hx => absurd hx List.not_mem_nil
  | cons e l ih =>
    obtain ⟨he, hl⟩ := List.nodup_cons.1 hl
    intro x hx
    rcases List.mem_cons.1 hx with rfl | hx
    · exact (treeByte_putEach_other (treeWf_putByte w _ _) he).trans (treeByte_putByte_same w _ _)
    · exact ih (treeWf_putByte w e.1 e.2) hl x hx

end

/-- Tree bytes and lines are those of the tree. -/
theorem treeByte_congr {c d : Core} (h : d.tree = c.tree) (b : Nat) : d.treeByte b = c.treeByte b := by
  rw [Core.treeByte, Core.treeNat, Core.line, h]
  rfl

theorem line_congr {c d : Core} (h : d.tree = c.tree) (n : Nat) : d.line n = c.line n := by
  rw [Core.line, h]
  rfl

/-! ### The lines of a load marked (R149) -/

theorem foldl_setFull_tree_congr {c d : Core} (h : d.tree = c.tree) (l : List Nat) (b : Bool) :
    (l.foldl (fun c n => c.setFull n b) d).tree = (l.foldl (fun c n => c.setFull n b) c).tree := by
  induction l generalizing c d with
  | nil => exact h
  | cons n l ih =>
    refine ih ?_
    simp only [Core.setFull, Core.setLine, Core.line, h]

theorem foldl_setFull_treeByte {c : Core} (w : c.TreeWf) (l : List Nat) (b : Bool) (x : Nat) :
    (l.foldl (fun c n => c.setFull n b) c).treeByte x = c.treeByte x := by
  rw [Core.treeByte, foldl_setFull_treeNat w, Core.treeByte]

/-- Outside a region, lines healed where p says so and marked full. -/
theorem foldl_landLine {c : Core} (hr : c.vec.regions = []) (p : Nat → Prop) [DecidablePred p] (l : List Nat) :
    ∃ y, l.foldl (fun c n => (if p n then c.healLine n else c).vecMark n true) c =
      { c with tree := (l.foldl (fun c n => c.setFull n true) c).tree, treeLost := y } := by
  induction l generalizing c with
  | nil => exact ⟨c.treeLost, rfl⟩
  | cons n l ih =>
    obtain ⟨z, hz⟩ : ∃ z, (if p n then c.healLine n else c).vecMark n true = { c.setFull n true with treeLost := z } := by
      by_cases hp : p n
      · rw [if_pos hp, vecMark_outside (c := c.healLine n) hr]
        exact ⟨_, rfl⟩
      · rw [if_neg hp, vecMark_outside hr]
        exact ⟨c.treeLost, rfl⟩
    obtain ⟨y, hy⟩ := ih (c := { c.setFull n true with treeLost := z }) hr
    refine ⟨y, ?_⟩
    have htree := foldl_setFull_tree_congr (c := c.setFull n true) (d := { c.setFull n true with treeLost := z }) rfl l true
    rw [List.foldl_cons, List.foldl_cons, hz, hy]
    exact congrArg (fun t => ({ c with tree := t, treeLost := y } : Core)) htree

/-! ### A load lands (R149) -/

/-- The bytes of a load: those that it has read before, and the rest from memory. -/
def State.loadBytes (s : State) (got : List Byte) (cells : List (Nat × PAddr)) : List Byte :=
  got ++ (cells.drop got.length).map (fun x => s.readByte x.2)

theorem loadBytes_zip (s : State) (got : List Byte) (cells : List (Nat × PAddr)) : (cells.map Prod.fst).zip (s.loadBytes got cells) =
    (cells.map Prod.fst).zip got ++ (cells.drop got.length).map (fun x => (x.1, s.readByte x.2)) := by
  induction cells generalizing got with
  | nil => simp
  | cons x cells ih =>
    cases got with
    | nil => simp [State.loadBytes, List.zip_map']
    | cons y got => exact congrArg ((x.1, y) :: ·) (ih got)

theorem loadBytes_length (s : State) (got : List Byte) (cells : List (Nat × PAddr)) : cells.length ≤ (s.loadBytes got cells).length := by
  rw [State.loadBytes, List.length_append, List.length_map, List.length_drop]
  omega

/-- Every tree byte that a load writes, with its byte. -/
def State.landedBytes (s : State) (got : List Byte) (cells : List (Nat × PAddr)) (zero : List Nat) : List (Nat × Byte) :=
  (cells.map Prod.fst).zip (s.loadBytes got cells) ++ zero.map (fun x => (x, 0))

section
variable {s : State} {got : List Byte} {cells : List (Nat × PAddr)} {zero lines : List Nat}

theorem landedBytes_places : (s.landedBytes got cells zero).map Prod.fst = cells.map Prod.fst ++ zero := by
  rw [State.landedBytes, List.map_append, List.map_fst_zip (by simpa using loadBytes_length s got cells), List.map_map]
  exact congrArg _ (List.map_id' zero)

/-- Outside a region, a load writes its bytes and marks its lines full; beside the tree and what the model notes it changes nothing. -/
theorem landVector_outside (hr : s.core.vec.regions = []) : ∃ y e, s.landVector got cells zero lines = { s with core := { s.core with
    tree := (lines.foldl (fun c n => c.setFull n true) (s.core.putEach (s.landedBytes got cells zero))).tree
    treeLost := y, effects := e } } := by
  have hbytes : zero.foldl (fun (c : Core) (x : Nat) => c.putByte x 0) ((cells.drop got.length).foldl
      (fun (c : Core) (x : Nat × PAddr) => c.putByte x.1 (s.readByte x.2)) (((cells.map Prod.fst).zip got).foldl
      (fun (c : Core) (x : Nat × Byte) => c.putByte x.1 x.2) s.core)) = s.core.putEach (s.landedBytes got cells zero) := by
    rw [State.landedBytes, putEach_append, loadBytes_zip, putEach_append, Core.putEach, Core.putEach, Core.putEach, List.foldl_map,
      List.foldl_map]
  obtain ⟨t, ht⟩ := putEach_frame s.core (s.landedBytes got cells zero)
  have hregions : (s.core.putEach (s.landedBytes got cells zero)).vec.regions = [] := by rw [ht]; exact hr
  obtain ⟨y, hy⟩ := foldl_landLine hregions (fun n => ((cells.map Prod.fst ++ zero).map (· / 64)).count n = 64) lines
  have hcore := hy.trans (congrArg (fun c : Core => ({ c with
    tree := (lines.foldl (fun c n => c.setFull n true) (s.core.putEach (s.landedBytes got cells zero))).tree, treeLost := y } : Core)) ht)
  rw [State.landVector]
  simp only [hbytes]
  rw [hcore]
  refine ⟨y, _, congrArg (fun c => ({ s with core := c } : State)) (if_pos ?_)⟩
  exact List.isEmpty_iff.2 hr

end

section
variable {s : State} {got : List Byte} {cells : List (Nat × PAddr)} {zero lines : List Nat} (hr : s.core.vec.regions = [])
include hr

theorem landVector_tree : (s.landVector got cells zero lines).core.tree =
    (lines.foldl (fun c n => c.setFull n true) (s.core.putEach (s.landedBytes got cells zero))).tree := by
  obtain ⟨y, e, h⟩ := landVector_outside (got := got) (cells := cells) (zero := zero) (lines := lines) hr
  rw [h]

theorem landVector_frame : (s.landVector got cells zero lines).core.vec = s.core.vec ∧ s.sameMemory (s.landVector got cells zero lines) := by
  obtain ⟨y, e, h⟩ := landVector_outside (got := got) (cells := cells) (zero := zero) (lines := lines) hr
  rw [h]
  exact ⟨rfl, rfl, rfl, rfl⟩

variable (hwf : s.core.TreeWf)
include hwf

/-- After a load has landed every line of it is full. -/
theorem landVector_full {n : Nat} (hn : n ∈ lines) : ((s.landVector got cells zero lines).core.line n).full = true := by
  rw [line_congr (landVector_tree hr), foldl_setFull_line (treeWf_putEach hwf _), if_pos hn]

/-- Its bytes are those that were put into the tree. -/
theorem landVector_treeByte (b : Nat) :
    (s.landVector got cells zero lines).core.treeByte b = (s.core.putEach (s.landedBytes got cells zero)).treeByte b := by
  rw [treeByte_congr (landVector_tree hr), foldl_setFull_treeByte (treeWf_putEach hwf _)]

theorem landVector_other {b : Nat} (hb : b ∉ cells.map Prod.fst ++ zero) :
    (s.landVector got cells zero lines).core.treeByte b = s.core.treeByte b := by
  rw [landVector_treeByte hr hwf, treeByte_putEach_other hwf (by rw [landedBytes_places]; exact hb)]

variable (hn : (cells.map Prod.fst ++ zero).Nodup)
include hn

theorem landVector_landed {x : Nat × Byte} (hx : x ∈ s.landedBytes got cells zero) :
    (s.landVector got cells zero lines).core.treeByte x.1 = x.2 := by
  rw [landVector_treeByte hr hwf]
  exact treeByte_putEach_mem hwf (by rw [landedBytes_places]; exact hn) x hx

theorem landVector_zero {b : Nat} (hb : b ∈ zero) : (s.landVector got cells zero lines).core.treeByte b = 0 :=
  landVector_landed hr hwf hn (x := (b, 0)) (List.mem_append_right _ (List.mem_map_of_mem hb))

/-- Each byte of the load stands at its place of the tree. -/
theorem landVector_cell {i : Nat} {x : Nat × PAddr} (hx : cells[i]? = some x) :
    (s.loadBytes got cells)[i]? = some ((s.landVector got cells zero lines).core.treeByte x.1) := by
  obtain ⟨hi, rfl⟩ := List.getElem?_eq_some_iff.1 hx
  have hlen := hi.trans_le (loadBytes_length s got cells)
  have hmem : (cells[i].1, (s.loadBytes got cells)[i]) ∈ (cells.map Prod.fst).zip (s.loadBytes got cells) := by
    refine List.mem_iff_getElem.2 ⟨i, by simp [hi, hlen], by simp⟩
  rw [landVector_landed hr hwf hn (List.mem_append_left _ hmem)]
  exact List.getElem?_eq_getElem hlen

end

end Sys2Proof.Machine
end

section
/-!
PROOFS. Vector accesses are performed, whole or element by element (R145 to R149, R159, R316): O28.
-/
namespace Sys2Proof.Machine

/-! ### After an access is performed (R159) -/

theorem sameMemory_trans {s t u : State} (h : s.sameMemory t) (k : t.sameMemory u) : s.sameMemory u :=
  ⟨k.1.trans h.1, k.2.1.trans h.2.1, k.2.2.trans h.2.2⟩

/-- Two states with the same accesses of the vector engine, tree, memories and sequencer's registers. -/
structure State.SameAccesses (s t : State) : Prop where
  vp : t.core.vec.vp = s.core.vec.vp
  tree : t.core.tree = s.core.tree
  memory : s.sameMemory t
  regs : t.core.seq.g = s.core.seq.g

theorem State.SameAccesses.trans {s t u : State} (h : s.SameAccesses t) (k : t.SameAccesses u) : s.SameAccesses u where
  vp := k.vp.trans h.vp
  tree := k.tree.trans h.tree
  memory := sameMemory_trans h.memory k.memory
  regs := k.regs.trans h.regs

theorem sameMemory_readByte {s t : State} (h : s.sameMemory t) (p : PAddr) : t.readByte p = s.readByte p := by
  obtain ⟨hhbm, hwindow, hhost⟩ := h
  obtain ⟨k, a⟩ := p
  cases k <;> simp only [State.readByte, State.mem, hhbm, hwindow, hhost]

/-- A stop of the vector engine leaves its accesses, the tree and the memories. -/
theorem stopWith_sameAccesses (s : State) (code : Code) (at_ d : Word) (a b c : Bool) :
    s.SameAccesses (s.stopWith .vec 0 code at_ a b c d) where
  vp := (congrArg VecEngine.vp stopWith_vec).trans rfl
  tree := stopWith_tree ..
  memory := stopWith_sameMemory ..
  regs := (congrArg Sequencer.g (stopWith_seq s .vec code at_ a b c d)).trans rfl

theorem State.SameAccesses.refl (s : State) : s.SameAccesses s := ⟨rfl, rfl, ⟨rfl, rfl, rfl⟩, rfl⟩

theorem updVec_sameAccesses (s : State) (f : VecEngine → VecEngine) (h : (f s.core.vec).vp = s.core.vec.vp) : s.SameAccesses (s.updVec f) :=
  ⟨h, rfl, ⟨rfl, rfl, rfl⟩, rfl⟩

/-- So does a stop that waited for them. -/
theorem vecStops_sameAccesses (s : State) : s.SameAccesses s.vecStops := by
  simp only [State.vecStops, State.stopEngine]
  split
  · exact .refl s
  · split
    · exact (updVec_sameAccesses s _ rfl).trans (stopWith_sameAccesses _ _ _ _ _ _ _)
    · exact (updVec_sameAccesses s _ rfl).trans (stopWith_sameAccesses _ _ _ _ _ _ _)
    · exact .refl s

/-- The oldest access is done: the others stay, and so do the tree, the memories and the registers. -/
theorem popVp_vecStops {s : State} {e : VpEntry} {l : List VpEntry} (h : s.core.vec.vp = e :: l) :
    (s.popVp.vecStops.core.vec.vp = l) ∧ s.popVp.vecStops.core.tree = s.core.tree ∧ s.sameMemory s.popVp.vecStops ∧
      s.popVp.vecStops.core.seq.g = s.core.seq.g := by
  obtain ⟨hvp, htree, hmem, hregs⟩ := vecStops_sameAccesses s.popVp
  exact ⟨hvp.trans (congrArg List.tail h), htree, hmem, hregs⟩

/-! ### The oldest access -/

section
variable {s : State} {e : VpEntry} {l : List VpEntry} (hvp : s.core.vec.vp = e :: l) (hlost : e.lost = false)
include hvp

theorem headLoads_load {cells : List (Nat × PAddr)} {zero lines : List Nat} {ww : Bool} (hk : e.kind = .load cells zero lines ww) :
    s.core.headLoads = true := by
  rw [Core.headLoads, hvp]
  simp only [hk]

theorem headWrites_store {cells : List (PAddr × Byte)} (hk : e.kind = .store cells) : s.core.headWrites = true := by
  rw [Core.headWrites, Core.headLoads, hvp]
  simp only [hk]
  rfl

/-- A load with no write-wait destination that is still full may land (R29). -/
theorem loadDue_load {cells : List (Nat × PAddr)} {zero lines : List Nat} {ww : Bool} (hk : e.kind = .load cells zero lines ww)
    (hr : s.core.vec.regions = []) (hw : ww = true → ∀ m ∈ lines, (s.core.line m).full = false) : s.loadDue = true := by
  have hheld : s.core.vpHeld e = false := by
    rw [Core.vpHeld, hk]
    cases ww with
    | false => rfl
    | true =>
      refine List.any_eq_false.2 (fun m hm => ?_)
      simp [Core.fullAs, VecEngine.marks, hr, markOf, hw rfl m hm]
  rw [State.loadDue, hvp]
  simp only [hk, hheld]
  rfl

include hlost

theorem performRest_load {cells : List (Nat × PAddr)} {zero lines : List Nat} {ww : Bool} (hk : e.kind = .load cells zero lines ww)
    (hdue : s.loadDue = true) (hecc : s.eccRead ((cells.drop e.got.length).map Prod.snd) = .ok) :
    s.performRest = (s.landVector e.got cells zero lines).popVp.vecStops := by
  rw [State.performRest, hdue, Bool.or_true, if_pos rfl, State.performHead, hvp]
  simp only [State.performVp, hlost, hk, hecc, Bool.false_eq_true, if_false]

theorem performRest_store {cells : List (PAddr × Byte)} (hk : e.kind = .store cells) (hecc : s.eccWrite cells = .ok) :
    s.performRest = (((s.heal cells).writeCells cells).wrote .vec (cells.map Prod.fst)).popVp.vecStops := by
  rw [State.performRest, headWrites_store hvp hk, Bool.true_or, if_pos rfl, State.performHead, hvp]
  simp only [State.performVp, hlost, hk, store_ok hecc, Bool.false_eq_true, if_false]

/-- Some elements, not all that are left, of the oldest access (R147, R316). -/
theorem performElems_picked {a k : Nat} {x : VpEntry} (hpos : 0 < k * e.width) (hlt : k * e.width < e.left)
    (hle : (a + k) * e.width ≤ e.left) (hx : e.picked (a * e.width) (k * e.width) = some x) :
    s.performPart (some (a, k)) = s.performBytes x (k * e.width) := by
  have hm : min (k * e.width) (e.left - a * e.width) = k * e.width := by
    rw [Nat.add_mul] at hle
    omega
  simp only [State.performPart, State.performElems, hvp, hm, hx, hlost]
  rw [if_neg (by omega), if_neg (by simp only [Bool.false_eq_true, or_false]; omega)]

end

/-- The check of a read looks at the sectors, in any order (R223). -/
theorem eccRead_perm (s : State) {l m : List PAddr} (h : l.Perm m) : s.eccRead l = s.eccRead m := by
  rw [State.eccRead, State.eccRead, h.any_eq, h.any_eq]

theorem setHead_eq {s : State} {e : VpEntry} {l : List VpEntry} (hvp : s.core.vec.vp = e :: l) (x : VpEntry) :
    s.setHead x = s.updVec (fun v => { v with vp := x :: l }) := by
  simp only [State.setHead, State.updVec, State.upd, Core.updVec, hvp, List.tail]

section
variable {s : State} {e : VpEntry} {l : List VpEntry} {a k : Nat} (hvp : s.core.vec.vp = e :: l) (hlost : e.lost = false)
  (hpos : 0 < k * e.width)
include hvp hlost hpos

theorem performPart_load {cells : List (Nat × PAddr)} {zero lines : List Nat} {ww : Bool} (hk : e.kind = .load cells zero lines ww)
    (hlt : k * e.width < cells.length - e.got.length) (hle : (a + k) * e.width ≤ cells.length - e.got.length) :
    let left := cells.drop e.got.length
    let part := (left.drop (a * e.width)).take (k * e.width)
    s.eccRead (part.map Prod.snd) = .ok →
    s.performPart (some (a, k)) = s.updVec (fun v => { v with vp := { e with
      got := e.got ++ part.map (fun x => s.readByte x.2)
      kind := .load (cells.take e.got.length ++ part ++ left.take (a * e.width) ++ left.drop ((a + k) * e.width)) zero lines ww } :: l }) := by
  intro left part hecc
  have hleft : e.left = cells.length - e.got.length := by simp only [VpEntry.left, hk]
  have hpicked : e.picked (a * e.width) (k * e.width) = some { e with
      kind := .load (cells.take e.got.length ++ part ++ left.take (a * e.width) ++ left.drop ((a + k) * e.width)) zero lines ww } := by
    simp only [VpEntry.picked, hk, Nat.add_mul]
    rfl
  have hpart : part.length = k * e.width := by
    rw [Nat.add_mul] at hle
    simp only [part, left, List.length_take, List.length_drop]
    omega
  have htake : (cells.take e.got.length).length = e.got.length := by
    rw [List.length_take]
    omega
  have hnext : (((cells.take e.got.length ++ part ++ left.take (a * e.width) ++ left.drop ((a + k) * e.width)).drop e.got.length).take
      (k * e.width)) = part := by
    rw [List.append_assoc, List.append_assoc, List.drop_left' htake, List.take_left' hpart]
  rw [performElems_picked hvp hlost hpos (hleft ▸ hlt) (hleft ▸ hle) hpicked]
  simp only [State.performBytes, hnext, hecc, setHead_eq hvp, State.readBytes, List.map_map]
  rfl

theorem performPart_store {cells : List (PAddr × Byte)} (hk : e.kind = .store cells) (hlt : k * e.width < cells.length)
    (hle : (a + k) * e.width ≤ cells.length) (hecc : s.eccRead (cells.map Prod.fst) = .ok) :
    let part := (cells.drop (a * e.width)).take (k * e.width)
    (∀ x ∈ cells.take (a * e.width), ∀ y ∈ part, x.1 ≠ y.1) →
    s.performPart (some (a, k)) = ((s.writeCells part).wrote .vec (part.map Prod.fst)).setHead
      { e with kind := .store (cells.take (a * e.width) ++ cells.drop ((a + k) * e.width)), begun := true } := by
  intro part hdis
  have hleft : e.left = cells.length := by simp only [VpEntry.left, hk]
  have hnone : ¬ (cells.take (a * e.width)).any (fun x => part.any (fun y => decide (x.1 = y.1))) = true := by
    simp only [List.any_eq_true, decide_eq_true_eq, not_exists, not_and]
    exact fun x hx y hy => hdis x hx y hy
  have hpicked : e.picked (a * e.width) (k * e.width) = some { e with
      kind := .store (part ++ cells.take (a * e.width) ++ cells.drop ((a + k) * e.width)) } := by
    simp only [VpEntry.picked, hk, Nat.add_mul]
    exact if_neg hnone
  have hpart : part.length = k * e.width := by
    rw [Nat.add_mul] at hle
    simp only [part, List.length_take, List.length_drop]
    omega
  have hperm : (part ++ cells.take (a * e.width) ++ cells.drop ((a + k) * e.width)).Perm cells := by
    have hcut : cells.drop ((a + k) * e.width) = (cells.drop (a * e.width)).drop (k * e.width) := by rw [List.drop_drop, Nat.add_mul]
    calc (part ++ cells.take (a * e.width) ++ cells.drop ((a + k) * e.width)).Perm
          (cells.take (a * e.width) ++ part ++ cells.drop ((a + k) * e.width)) := List.perm_append_comm.append_right _
      _ = cells := by rw [List.append_assoc, hcut, List.take_append_drop, List.take_append_drop]
  rw [performElems_picked hvp hlost hpos (hleft ▸ hlt) (hleft ▸ hle) hpicked]
  simp only [State.performBytes, eccRead_perm s (hperm.map Prod.fst), hecc]
  rw [if_neg (by simp), List.append_assoc, List.take_left' hpart, List.drop_left' hpart]

end

/-- A write that the model notes changes the memories, and of the core that note alone. -/
theorem writeCells_wrote (s : State) (st : StreamId) (l : List (PAddr × Byte)) :
    let t := (s.writeCells l).wrote st (l.map Prod.fst)
    t.core.vec = s.core.vec ∧ t.core.tree = s.core.tree ∧ t.core.seq.g = s.core.seq.g ∧ ∀ p, t.readByte p = (s.writeCells l).readByte p := by
  intro t
  obtain ⟨x, hx⟩ := wrote_frame (s.writeCells l) st (l.map Prod.fst)
  obtain ⟨a, b, c, hs⟩ := State.writeCells_frame l s
  have hcore : (s.writeCells l).core = s.core := by rw [hs]
  have ht : t = _ := hx
  rw [ht, hcore]
  exact ⟨rfl, rfl, rfl, fun p => rfl⟩

/-! ### What a performed access leaves -/

section
variable {s : State} {e : VpEntry} {l : List VpEntry} (hvp : s.core.vec.vp = e :: l) (hlost : e.lost = false)
include hvp hlost

/-- A load: its bytes stand in the tree, its inactive lanes are zero, its lines are full, and nothing else of the tree changes. -/
theorem performRest_load_lands {cells : List (Nat × PAddr)} {zero lines : List Nat} {ww : Bool} (hk : e.kind = .load cells zero lines ww)
    (hr : s.core.vec.regions = []) (hwf : s.core.TreeWf) (hecc : s.eccRead ((cells.drop e.got.length).map Prod.snd) = .ok)
    (hw : ww = true → ∀ m ∈ lines, (s.core.line m).full = false) (hn : (cells.map Prod.fst ++ zero).Nodup) :
    let t := s.performRest
    t.core.vec.vp = l ∧ s.sameMemory t ∧ (∀ m ∈ lines, (t.core.line m).full = true) ∧
      (∀ (i : Nat) (x : Nat × PAddr), cells[i]? = some x → (s.loadBytes e.got cells)[i]? = some (t.core.treeByte x.1)) ∧
      (∀ x ∈ zero, t.core.treeByte x = 0) ∧ ∀ x : Nat, x ∉ cells.map Prod.fst ++ zero → t.core.treeByte x = s.core.treeByte x := by
  intro t
  have ht : t = (s.landVector e.got cells zero lines).popVp.vecStops := performRest_load hvp hlost hk (loadDue_load hvp hk hr hw) hecc
  obtain ⟨hvec, hmem⟩ := landVector_frame (got := e.got) (cells := cells) (zero := zero) (lines := lines) hr
  obtain ⟨hl, htree, hmem', -⟩ := popVp_vecStops ((congrArg VecEngine.vp hvec).trans hvp)
  rw [ht]
  refine ⟨hl, sameMemory_trans hmem hmem', fun m hm => ?_, fun i x hx => ?_, fun x hx => ?_, fun x hx => ?_⟩
  · rw [line_congr htree, landVector_full hr hwf hm]
  · rw [treeByte_congr htree]
    exact landVector_cell hr hwf hn hx
  · rw [treeByte_congr htree, landVector_zero hr hwf hn hx]
  · rw [treeByte_congr htree, landVector_other hr hwf hx]

variable (hwf : s.memWf = true)
include hwf

/-- A store: its bytes stand in memory, and no other byte of memory changes. -/
theorem performRest_store_writes {cells : List (PAddr × Byte)} (hk : e.kind = .store cells) (hecc : s.eccWrite cells = .ok) :
    let t := s.performRest
    t.core.vec.vp = l ∧ s.sameOutside t (cells.map Prod.fst) ∧ ((cells.map Prod.fst).Nodup → ∀ c ∈ cells, t.readByte c.1 = c.2) ∧
      t.core.tree = s.core.tree ∧ t.core.seq.g = s.core.seq.g := by
  intro t
  have ht : t = (((s.heal cells).writeCells cells).wrote .vec (cells.map Prod.fst)).popVp.vecStops := performRest_store hvp hlost hk hecc
  obtain ⟨hvec, htree, hregs, hbyte⟩ := writeCells_wrote (s.heal cells) .vec cells
  obtain ⟨hl, htree', hmem, hregs'⟩ := popVp_vecStops ((congrArg VecEngine.vp hvec).trans hvp)
  rw [ht]
  refine ⟨hl, fun p hp => ?_, fun hn c hc => ?_, htree'.trans htree, hregs'.trans hregs⟩
  · rw [sameMemory_readByte hmem, hbyte]
    exact State.readByte_writeCells_other (s := s.heal cells) (fun c hc he => hp (he ▸ List.mem_map_of_mem hc)) hwf
  · rw [sameMemory_readByte hmem, hbyte]
    exact State.readByte_writeCells_same (s := s.heal cells) hn hwf hc

/-- Some elements of a store: their bytes stand in memory, and the others are left. -/
theorem performPart_store_writes {cells : List (PAddr × Byte)} {a k : Nat} (hk : e.kind = .store cells) (hpos : 0 < k * e.width)
    (hlt : k * e.width < cells.length) (hle : (a + k) * e.width ≤ cells.length) (hecc : s.eccRead (cells.map Prod.fst) = .ok) :
    let part := (cells.drop (a * e.width)).take (k * e.width)
    let t := s.performPart (some (a, k))
    (∀ x ∈ cells.take (a * e.width), ∀ y ∈ part, x.1 ≠ y.1) →
    t.core.vec.vp = { e with kind := .store (cells.take (a * e.width) ++ cells.drop ((a + k) * e.width)), begun := true } :: l ∧
      s.sameOutside t (part.map Prod.fst) ∧ ((part.map Prod.fst).Nodup → ∀ c ∈ part, t.readByte c.1 = c.2) ∧
      t.core.tree = s.core.tree ∧ t.core.seq.g = s.core.seq.g := by
  intro part t hdis
  obtain ⟨hvec, htree, hregs, hbyte⟩ := writeCells_wrote s .vec part
  have ht : t = _ := (performPart_store hvp hlost hpos hk hlt hle hecc hdis).trans (setHead_eq ((congrArg VecEngine.vp hvec).trans hvp) _)
  rw [ht]
  refine ⟨rfl, fun p hp => ?_, fun hn c hc => ?_, htree, hregs⟩
  · exact (hbyte p).trans (State.readByte_writeCells_other (fun c hc he => hp (he ▸ List.mem_map_of_mem hc)) hwf)
  · exact (hbyte c.1).trans (State.readByte_writeCells_same hn hwf hc)

end

/-- Settles O28: each word issues its access, or stops, by its own lemma; the oldest access is performed by the lemmas of this file. -/
theorem vectorAccessesIssueAndLand : Obligations.VectorAccessesIssueAndLand := by
  unfold Obligations.VectorAccessesIssueAndLand
  refine ⟨?_, ?_⟩
  · intro s d a h j wa wb b v sh w o data loaded zeroed stored acts straight hx hu hk hh
    have hread : ∀ k, s.vpHandle h false k = k b none := vpHandle_window hx hu hk hh (fun hf => absurd hf (by decide))
    have hwrite : b.writable = true → ∀ k, s.vpHandle h true k = k b none := fun hw => vpHandle_window hx hu hk hh (fun _ => hw)
    refine ⟨fun pd hp => ⟨fun ho => ⟨?_, fun hw => ?_⟩, fun hm hl => ⟨fun hopen hecc => ?_, fun hw hr hc hopen hne => ?_⟩⟩,
      fun pd pa i hp => ?_, fun pd pa offs hp hoffs hc => ⟨fun hopen hecc => ?_, fun hw hr hd hopen hne => ?_⟩⟩
    · exact (exec_vLd hp).trans (congrArg (fun r => Host.Outcome.next (s.issueVec r)) (straightAccess_outside _ hread ho))
    · exact (exec_vSt hp).trans (congrArg (fun r => Host.Outcome.next (s.issueVec r)) (straightAccess_outside _ (hwrite hw) ho))
    · rw [exec_vLd hp, straightAccess_inside _ hread hm hl]
      exact congrArg Host.Outcome.next (vpLoad_issues hopen (by simp) hecc)
    · have hkept : ∀ x ∈ [(⟨pd, wa⟩ : VSrc)], x.at_.consume = false := by simpa using hc
      rw [exec_vSt hp, straightAccess_inside _ (hwrite hw) hm hl, emptied_kept s hkept]
      exact congrArg Host.Outcome.next (vpStore_issues hopen hkept hr hne)
    · intro at_ ha hi hlow
      have hout := elementOffsets_outside (idx := s.columnOf pa) ha hi hlow
      refine ⟨fun hopen => ?_, fun hw hopen => ?_⟩
      · rw [exec_vGather hp hread, hout]
        exact congrArg (fun r => Host.Outcome.next (s.issueVec r)) (vecRun_error hopen (by decide) _)
      · rw [exec_vScatter hp (hwrite hw), hout]
        exact congrArg (fun r => Host.Outcome.next (s.issueVec r)) (vecRun_error hopen (by decide) _)
    · have hkept : ∀ x ∈ [(⟨pa, wa⟩ : VSrc)], x.at_.consume = false := by simpa using hc
      have hoffs' : elementOffsets s.core.vec (s.columnOf pa) b.len = .ok offs := hoffs
      rw [exec_vGather hp hread, hoffs', emptied_kept s hkept]
      exact congrArg Host.Outcome.next (vpLoad_issues hopen hkept hecc)
    · have hkept : ∀ x ∈ [(⟨pd, wb⟩ : VSrc), ⟨pa, wa⟩], x.at_.consume = false := by simpa using ⟨hd, hc⟩
      have hoffs' : elementOffsets s.core.vec (s.columnOf pa) b.len = .ok offs := hoffs
      rw [exec_vScatter hp (hwrite hw), hoffs', emptied_kept s hkept]
      exact congrArg Host.Outcome.next (vpStore_issues hopen hkept hr hne)
  · intro s n e l hlive u hvp _ hlost
    have hload : ∀ x, exec (.vectorLoadLand ⟨n, x⟩) s = .next (if u.core.headLoads then u.performPart x else u) :=
      fun x => congrArg Host.Outcome.next (onCore_live hlive)
    have hwrite : ∀ x, exec (.vpAccessPerformed ⟨n, x⟩) s = .next (if u.core.headWrites then u.performPart x else u) :=
      fun x => congrArg Host.Outcome.next (onCore_live hlive)
    refine ⟨fun cells zero lines ww hk => ?_, fun cells hk hwf hecc => ?_⟩
    · intro bytes
      rw [hload, if_pos (headLoads_load hvp hk)]
      refine ⟨fun hr htree hecc hw hn => ⟨_, rfl, performRest_load_lands hvp hlost hk hr htree hecc hw hn⟩, fun a k hpos hlt hle => ?_⟩
      intro left part hecc
      rw [hload, if_pos (headLoads_load hvp hk), performPart_load hvp hlost hpos hk hlt hle hecc]
    · rw [hwrite, if_pos (headWrites_store hvp hk)]
      refine ⟨⟨_, rfl, performRest_store_writes hvp hlost hwf hk hecc⟩, fun a k hpos hlt hle hread => ?_⟩
      intro part hdis
      rw [hwrite, if_pos (headWrites_store hvp hk)]
      exact ⟨_, rfl, performPart_store_writes hvp hlost hwf hk hpos hlt hle hread hdis⟩

end Sys2Proof.Machine
end

section
/-!
PROOFS. What an upset does where it hits: reports, lost sectors, lines, rows and items of the undo buffer, halts, and the budgets of a
hot die (R184, R223, R236, R288, R303): O39.
-/
namespace Sys2Proof.Machine

/-! ### Reports (R303) -/

theorem addReport_seated {s : State} {core : Nat} (hc : coreExists core = true) (hs : (s.coreOf core).seat.isSome = true)
    (l : List StreamId) : s.addReport core l = s.updCore core (fun c => { c with reports := c.reports ++ [⟨l, s.now⟩] }) := if_pos ⟨hc, hs⟩

theorem addReport_unseated {s : State} {core : Nat} (h : (s.coreOf core).seat = none) (l : List StreamId) : s.addReport core l = s :=
  if_neg (by simp [h])

/-! ### Upsets that meet no write that must complete -/

/-- No oldest access that must complete, and no write of a release, is one that the test picks. -/
def Core.quietFor (c : Core) (f : VpEntry → Bool) : Prop :=
  c.vec.heldPicks f = false ∧ ∀ e ∈ c.vec.vp.head?, f e = false ∨ (e.bound = false ∧ c.vec.eng.releasing = false)

theorem quietFor_blank (n : Nat) (f : VpEntry → Bool) : (Core.blank n).quietFor f := ⟨rfl, fun _ he => nomatch he⟩

section
variable {s : State} {f : VpEntry → Bool}

theorem finishHead_quiet (h : s.core.quietFor f) : s.finishHead f = s := by
  obtain ⟨hheld, hhead⟩ := h
  unfold State.finishHead
  split
  · rfl
  · next e l hvp =>
    have he : (f e && (e.bound || s.core.vec.eng.releasing)) = false := by
      rcases hhead e (by rw [hvp]; rfl) with hf | ⟨hb, hr⟩
      · rw [hf, Bool.false_and]
      · rw [hb, hr, Bool.false_or, Bool.and_false]
    rw [he, hheld]
    rfl

theorem finishCore_quiet (h : s.core.quietFor f) : s.finishCore f = s := by
  unfold State.finishCore
  cases (s.core.vec.regions.map (fun r => r.held.length)).foldl (· + ·) 0 with
  | zero => exact finishHead_quiet h
  | succ n => simp [State.finishWork, finishHead_quiet h, h.1]

end

/-- The same machine with its cores at other places in the lists, another core focused. -/
def State.refocused (s t : State) : Prop :=
  (∃ (c : Core) (o : List Core), t = { s with core := c, others := o }) ∧ ∀ m : Nat, t.coreOf m = s.coreOf m

theorem State.refocused.trans {s t u : State} (h : s.refocused t) (k : t.refocused u) : s.refocused u := by
  obtain ⟨⟨c, o, rfl⟩, hc⟩ := h
  obtain ⟨⟨d, p, rfl⟩, hd⟩ := k
  exact ⟨⟨d, p, rfl⟩, fun m => (hd m).trans (hc m)⟩

theorem refocused_focus (s : State) (n : Nat) : s.refocused (s.focus n) := by
  obtain ⟨o, ho⟩ := focus_frame s n
  exact ⟨⟨_, o, ho⟩, coreOf_focus s n⟩

theorem finishEach_quiet {f : VpEntry → Bool} (l : List Core) (s : State) (h : ∀ n : Nat, (s.coreOf n).quietFor f) :
    s.refocused (l.foldl (fun s c => (s.focus c.id).finishCore f) s) := by
  induction l generalizing s with
  | nil => exact ⟨⟨s.core, s.others, rfl⟩, fun m => rfl⟩
  | cons c l ih =>
    have hc : (s.focus c.id).finishCore f = s.focus c.id := finishCore_quiet (by rw [focus_core]; exact h c.id)
    rw [List.foldl_cons, hc]
    exact (refocused_focus s c.id).trans (ih _ (fun n => by rw [coreOf_focus]; exact h n))

theorem takeCore_mem {l : List Core} {n : Nat} {r : Core × List Core} (h : takeCore l n = some r) : r.1 ∈ l := by
  induction l generalizing r with
  | nil => cases h
  | cons c l ih =>
    rw [takeCore] at h
    split at h
    next => cases h; exact List.mem_cons_self
    next =>
      obtain ⟨q, hq, rfl⟩ := Option.map_eq_some_iff.1 h
      exact List.mem_cons_of_mem _ (ih (r := q) hq)

/-- A core is one that some list holds, or blank. -/
theorem coreOf_listed (s : State) (n : Nat) : s.coreOf n ∈ s.cores ∨ s.coreOf n = Core.blank n := by
  rw [State.coreOf]
  split
  · exact .inl List.mem_cons_self
  · cases ht : takeCore s.others n with
    | none => exact .inr rfl
    | some r => exact .inl (List.mem_cons_of_mem _ (takeCore_mem ht))

/-- Nothing has to be performed before the sector is damaged. -/
theorem finishWrites_quiet {s : State} {q : PAddr} (h : ∀ c ∈ s.cores, c.quietFor (VpEntry.touches q)) :
    s.finishWrites q = { s with others := (s.finishWrites q).others } ∧ ∀ m : Nat, (s.finishWrites q).coreOf m = s.coreOf m := by
  have hall : ∀ n : Nat, (s.coreOf n).quietFor (VpEntry.touches q) := fun n => by
    rcases coreOf_listed s n with hn | hn
    · exact h _ hn
    · rw [hn]; exact quietFor_blank n _
  have hf : s.refocused (s.finishWrites q) := (finishEach_quiet s.cores s hall).trans (refocused_focus _ _)
  have hcore : (s.finishWrites q).core = s.core := by
    rw [State.finishWrites, focus_core, (finishEach_quiet s.cores s hall).2, coreOf_core]
  obtain ⟨⟨c, o, ht⟩, hco⟩ := hf
  refine ⟨?_, hco⟩
  rw [ht] at hcore ⊢
  cases hcore
  rfl

theorem loseSector_quiet {s : State} {q : PAddr} (h : ∀ c ∈ s.cores, c.quietFor (VpEntry.touches q)) :
    ∃ t, s.loseSector q = t ∧ t = { s with lost := q :: s.lost, others := t.others } ∧ ∀ m : Nat, t.coreOf m = s.coreOf m := by
  obtain ⟨ht, hc⟩ := finishWrites_quiet h
  refine ⟨_, rfl, ?_, fun m => (coreOf_congr rfl rfl m).trans (hc m)⟩
  rw [State.loseSector, ht]

theorem breakTag_quiet {s : State} {q : PAddr} (h : ∀ c ∈ s.cores, c.quietFor (VpEntry.touches q)) :
    ∃ t, s.breakTag q = t ∧ t = { s with badTag := q :: s.badTag, others := t.others } ∧ ∀ m : Nat, t.coreOf m = s.coreOf m := by
  obtain ⟨ht, hc⟩ := finishWrites_quiet h
  refine ⟨_, rfl, ?_, fun m => (coreOf_congr rfl rfl m).trans (hc m)⟩
  rw [State.breakTag, ht]

/-! ### Upsets that meet a write that must complete (R132, R189) -/

/-- A write of a lone core is performed, and nothing of the access list, the memory or the tree differs but for it. -/
def State.writeDone (s : State) (l : List VpEntry) (cells : List (PAddr × Byte)) (t : State) : Prop :=
  t.core.vec.vp = l ∧ s.sameOutside t (cells.map Prod.fst) ∧ ((cells.map Prod.fst).Nodup → ∀ c ∈ cells, t.readByte c.1 = c.2) ∧
    t.core.tree = s.core.tree

theorem finishHead_bound {s : State} {f : VpEntry → Bool} {e : VpEntry} {l : List VpEntry} {cells : List (PAddr × Byte)}
    (hvp : s.core.vec.vp = e :: l) (hk : e.kind = .store cells) (hb : e.bound = true) (hl : e.lost = false) (hf : f e = true)
    (hecc : s.eccWrite cells = .ok) : s.finishHead f = s.performRest := by
  rw [performRest_store hvp hl hk hecc, State.finishHead, hvp]
  simp only [hf, hb, Bool.true_or, Bool.and_true, if_true, State.performVp, hl, hk, store_ok hecc, Bool.false_eq_true, if_false]

theorem vecStops_releasing {s : State} (h : s.core.vec.eng.releasing = false) : s.vecStops.core.vec.eng.releasing = false := by
  simp only [State.vecStops, State.stopEngine]
  split
  · exact h
  · split
    · rw [stopWith_vec]; rfl
    · rw [stopWith_vec]; rfl
    · exact h

theorem performRest_store_releasing {s : State} {e : VpEntry} {l : List VpEntry} {cells : List (PAddr × Byte)} (hvp : s.core.vec.vp = e :: l)
    (hl : e.lost = false) (hk : e.kind = .store cells) (hecc : s.eccWrite cells = .ok) (hr : s.core.vec.eng.releasing = false) :
    s.performRest.core.vec.eng.releasing = false := by
  rw [performRest_store hvp hl hk hecc]
  refine vecStops_releasing ?_
  obtain ⟨hvec, -⟩ := writeCells_wrote (s.heal cells) .vec cells
  exact (congrArg (fun v : VecEngine => v.eng.releasing) hvec).trans hr

theorem vecStops_id (s : State) : s.vecStops.core.id = s.core.id := by
  simp only [State.vecStops, State.stopEngine]
  split
  · rfl
  · split
    · rw [stopWith_eq]; rfl
    · rw [stopWith_eq]; rfl
    · rfl

theorem performRest_store_id {s : State} {e : VpEntry} {l : List VpEntry} {cells : List (PAddr × Byte)} (hvp : s.core.vec.vp = e :: l)
    (hl : e.lost = false) (hk : e.kind = .store cells) (hecc : s.eccWrite cells = .ok) : s.performRest.core.id = s.core.id := by
  obtain ⟨a, b, c, hs⟩ := State.writeCells_frame cells (s.heal cells)
  rw [performRest_store hvp hl hk hecc, vecStops_id, State.popVp, hs]
  obtain ⟨x, hx⟩ := wrote_frame { s.heal cells with hbm := a, window := b, host := c } .vec (cells.map Prod.fst)
  rw [hx]
  rfl

/-- The oldest access of a lone core is a write that must complete, and it is in the sector: it is performed (log 20). -/
theorem finishWrites_bound {s : State} {q : PAddr} {e : VpEntry} {l : List VpEntry} {cells : List (PAddr × Byte)} (ho : s.others = [])
    (hvp : s.core.vec.vp = e :: l) (hk : e.kind = .store cells) (hb : e.bound = true) (hl : e.lost = false) (ht : e.touches q = true)
    (hr : s.core.vec.eng.releasing = false) (hwf : s.memWf = true) (hecc : s.eccWrite cells = .ok) :
    s.writeDone l cells (s.finishWrites q) := by
  have hhead : s.finishHead (VpEntry.touches q) = s.performRest := finishHead_bound hvp hk hb hl ht hecc
  have hdone : s.finishCore (VpEntry.touches q) = s.performRest := by
    unfold State.finishCore
    cases (s.core.vec.regions.map (fun r => r.held.length)).foldl (· + ·) 0 with
    | zero => exact hhead
    | succ n =>
      simp [State.finishWork, hhead, VecEngine.heldPicks, performRest_store_releasing hvp hl hk hecc hr]
  have hw : s.finishWrites q = s.performRest.focus s.core.id := by
    rw [State.finishWrites, State.cores, ho, List.foldl_cons, List.foldl_nil, focus_same rfl, hdone]
  rw [hw, focus_same (performRest_store_id hvp hl hk hecc)]
  obtain ⟨hp, hout, hin, htree, -⟩ := performRest_store_writes hvp hl hwf hk hecc
  exact ⟨hp, hout, hin, htree⟩

/-! ### Lines of the undo buffer (R223, R309) -/

theorem updCore_focused {s : State} {n : Nat} {f : Core → Core} (h : s.core.id = n) (hf : (f s.core).id = s.core.id) :
    s.updCore n f = { s with core := f s.core } := by
  subst h
  rw [State.updCore, coreOf_core, putCore_core hf.symm]

section
variable {s : State} {core : Nat}

theorem undoLost_loses {st : StreamId} {depth item : Nat}
    (h : st = .vec → (s.coreOf core).vec.eng.releasing = false ∨ (s.coreOf core).vec.heldItem depth item = none) :
    s.undoLost core st depth item = s.updCore core (fun c => c.loseUndo st depth item) := by
  have hnone : (if st = .vec ∧ (s.coreOf core).vec.eng.releasing then (s.coreOf core).vec.heldItem depth item else none) = none := by
    split
    next hs => exact (h hs.1).resolve_left (by simp [hs.2])
    next => rfl
  rw [State.undoLost, hnone]

/-- A release under way issues its last held write, and where a test does not pick that write any more nothing else is done. -/
theorem finishCore_issues {u : State} {f : VpEntry → Bool} {r : VecRegion} {e : VpEntry} (hr : u.core.vec.regions = [r]) (hh : r.held = [e])
    (hrel : u.core.vec.eng.releasing = true) (hvp : u.core.vec.vp = []) (hnew : u.core.holdsNew .vp = false) (hf : f e = true)
    (hissued : f { e with seq := u.core.issue } = false) : u.finishCore f = u.upd Core.issueHeldVp := by
  have hhead : u.finishHead f = u := by rw [State.finishHead, hvp]
  have hpicks : u.core.vec.heldPicks f = true := by simp [VecEngine.heldPicks, hrel, hr, hh, hf]
  have hquiet : (u.upd Core.issueHeldVp).core.quietFor f := by
    simp only [State.upd, Core.issueHeldVp, hr, hh]
    exact ⟨by simp [VecEngine.heldPicks, Core.bump, Core.updVec], fun x hx => .inl (by cases hx; exact hissued)⟩
  rw [State.finishCore, hr]
  simp [hh, State.finishWork, hhead, hvp, hpicks, hnew, finishHead_quiet hquiet]

/-- The last write that a release under way holds is issued before the line that keeps it is lost (log 20). -/
theorem undoLost_issues {r : VecRegion} {e : VpEntry} (hlive : s.liveCore core = true) :
    let u := s.focus core
    u.core.vec.regions = [r] → r.held = [e] → u.core.vec.eng.releasing = true → u.core.vec.vp = [] →
    u.core.holdsNew .vp = false → e.seq ≠ u.core.issue →
    s.undoLost core .vec 0 r.saved.length = { u with core := { u.core with
      issue := u.core.issue + 1
      vec := { u.core.vec with vp := [{ e with seq := u.core.issue }], regions := [{ r with held := [] }] } } } := by
  intro u hr hh hrel hvp hnew hseq
  have hcore : s.coreOf core = u.core := (focus_core s core).symm
  have hid : u.core.id = core := by rw [← hcore, coreOf_id]
  have hitem : u.core.vec.heldItem 0 r.saved.length = some e := by simp [VecEngine.heldItem, hr, hh]
  rw [State.undoLost, hcore, if_pos ⟨rfl, hrel⟩, hitem]
  simp only [onCore_live hlive]
  have hfinish : u.finishCore (fun x => decide (x.seq = e.seq)) = u.upd Core.issueHeldVp :=
    finishCore_issues hr hh hrel hvp hnew (by simp) (by simpa using Ne.symm hseq)
  have hissue : u.core.issueHeldVp = { u.core with
      issue := u.core.issue + 1
      vec := { u.core.vec with vp := [{ e with seq := u.core.issue }], regions := [{ r with held := [] }] } } := by
    simp only [Core.issueHeldVp, hr, hh]
    rfl
  show (u.finishCore _).updCore core _ = _
  rw [hfinish, State.upd, hissue]
  refine (updCore_focused ?_ ?_).trans rfl
  · exact hid
  · rfl

end

theorem changeAt_getElem? {α : Type} (f : α → α) (i : Nat) (l : List α) (j : Nat) :
    (changeAt f i l)[j]? = l[j]?.map (fun x => if j = i then f x else x) := by
  simp [changeAt, List.getElem?_zipIdx, Function.comp_def]

theorem changeAt_append {α : Type} (f : α → α) (v w : List α) (b : α) : changeAt f v.length (v ++ b :: w) = v ++ f b :: w := by
  refine List.ext_getElem? (fun j => ?_)
  rw [changeAt_getElem?]
  rcases lt_trichotomy j v.length with h | h | h
  · rw [List.getElem?_append_left h, List.getElem?_append_left h]
    simp [h.ne]
  · subst h
    simp
  · obtain ⟨k, rfl⟩ := Nat.exists_eq_add_of_lt h
    simp [List.getElem?_append_right, Nat.add_assoc]

theorem loseUndo_saved {c : Core} {r : SeqRegion} {b : SavedBytes} {v w : List SavedBytes} (hr : c.seq.regions = [r])
    (hs : r.saved = v ++ b :: w) : c.loseUndo .seq 0 v.length =
      { c with seq := { c.seq with regions := [{ r with saved := v ++ { b with lost := true } :: w }] } } := by
  simp only [Core.loseUndo, Core.updSeq, hr]
  simp [changeAt, SeqRegion.spoil, hs]
  exact changeAt_append SavedBytes.spoil v w b

/-! ### Halts of every context (R288, R303) -/

/-- A context with a halt of the whole device: its own halt stands where it has one (R312). -/
def State.haltedCtx (s : State) (code : Code) (c : Context) : Context := match c.halt with
  | none => { c with halt := some ⟨code, (s.focus (s.lowestCore c.num)).openDetail, s.lowestCore c.num, false, false, s.now⟩ }
  | some _ => c

theorem haltedCtx_num (s : State) (code : Code) (c : Context) : (s.haltedCtx code c).num = c.num := by
  rw [State.haltedCtx]
  split <;> rfl

theorem haltedCtx_twice (s : State) (code : Code) (c : Context) : s.haltedCtx code (s.haltedCtx code c) = s.haltedCtx code c := by
  cases h : c.halt with
  | none => simp only [State.haltedCtx, h]
  | some x => simp only [State.haltedCtx, h]

/-- The details of halts do not depend on the halts that stand already. -/
theorem openDetail_ctxs (s : State) (x : List Context) (n : Nat) :
    (({ s with ctxs := x } : State).focus n).openDetail = (s.focus n).openDetail := by
  obtain ⟨o, ho⟩ := focus_frame s n
  obtain ⟨p, hp⟩ := focus_frame { s with ctxs := x } n
  rw [ho, hp]
  rfl

theorem haltPlain_eq (s : State) (x : List Context) (n : Nat) (code : Code) :
    ({ s with ctxs := x } : State).haltPlain n code (({ s with ctxs := x } : State).lowestCore n) false =
      { s with ctxs := x.map (fun c => if c.num = n then s.haltedCtx code c else c) } := by
  have hlow : ({ s with ctxs := x } : State).lowestCore n = s.lowestCore n := rfl
  rw [State.haltPlain, hlow, openDetail_ctxs, State.haltContext, State.updCtx]
  refine congrArg (fun l => ({ s with ctxs := l } : State)) (List.map_congr_left (fun c _ => ?_))
  by_cases h : c.num = n
  · subst h
    rw [if_pos rfl, if_pos rfl]
    rfl
  · rw [if_neg h, if_neg h]

theorem haltEach_eq (s : State) (code : Code) (l x : List Context) :
    l.foldl (fun t c => t.haltPlain c.num code (t.lowestCore c.num) false) ({ s with ctxs := x } : State) =
      { s with ctxs := x.map (fun c => if c.num ∈ l.map Context.num then s.haltedCtx code c else c) } := by
  induction l generalizing x with
  | nil => simp
  | cons d l ih =>
    rw [List.foldl_cons, haltPlain_eq, ih, List.map_map]
    refine congrArg (fun l => ({ s with ctxs := l } : State)) (List.map_congr_left (fun c _ => ?_))
    by_cases hd : c.num = d.num
    · simp [hd, haltedCtx_num, haltedCtx_twice]
    · simp [hd]

theorem haltAll_eq (s : State) (code : Code) : s.haltAll code = { s with ctxs := s.ctxs.map (s.haltedCtx code) } := by
  refine (haltEach_eq s code s.ctxs s.ctxs).trans ?_
  refine congrArg (fun l => ({ s with ctxs := l } : State)) (List.map_congr_left (fun c hc => ?_))
  rw [if_pos (List.mem_map_of_mem hc)]

/-! ### The obligation -/

/-- Settles O39: one lemma of this file for each part that is hit. -/
theorem strikesLandWhereTheyHit : Obligations.StrikesLandWhereTheyHit := by
  unfold Obligations.StrikesLandWhereTheyHit
  intro s core n st p die budget hit reports halted
  have report : ∀ (x : StruckPart) (l : List StreamId), exec (.softErrorStrike x) s = .next (s.addReport core l) → reports x l :=
    fun x l hx => ⟨fun hc hs => hx.trans (congrArg Host.Outcome.next (addReport_seated hc hs l)),
      fun hn => hx.trans (congrArg Host.Outcome.next (addReport_unseated hn l))⟩
  have hhalt : s.haltAll codeStrike = { s with ctxs := halted } := haltAll_eq s codeStrike
  refine ⟨report _ _ rfl, report _ _ rfl, report _ _ rfl, report _ _ rfl, ?_, ?_, rfl, fun hp => ?_, fun hc depth item h => ?_,
    fun hlive => ?_, fun c r b v w => loseUndo_saved, fun hc hn => ?_, fun hc hn => ?_, rfl, rfl, ?_, ?_,
    fun h => ?_, fun old h => ?_⟩
  · intro quiet
    refine ⟨fun hq => ?_, fun hq hp => ?_⟩
    · obtain ⟨t, ht, hsame⟩ := loseSector_quiet (q := sectorOf p) hq
      exact ⟨t, congrArg Host.Outcome.next ht, hsame⟩
    · obtain ⟨t, ht, hsame⟩ := breakTag_quiet (q := sectorOf p) hq
      exact ⟨t, congrArg Host.Outcome.next ((if_pos hp).trans ht), hsame⟩
  · intro e l cells ho hvp hk hb hl ht hr hwf hecc written
    have hdone := finishWrites_bound ho hvp hk hb hl ht hr hwf hecc
    exact ⟨⟨_, rfl, hdone, List.mem_cons_self⟩, fun hp => ⟨_, congrArg Host.Outcome.next (if_pos hp), hdone, List.mem_cons_self⟩⟩
  · exact congrArg Host.Outcome.next (if_neg hp)
  · exact congrArg Host.Outcome.next ((if_pos hc).trans (undoLost_loses h))
  · intro u r e hr hh hrel hvp hnew hseq
    have hc : coreExists core = true := ((Bool.and_eq_true _ _).mp hlive).1
    exact congrArg Host.Outcome.next ((if_pos hc).trans (undoLost_issues hlive hr hh hrel hvp hnew hseq))
  · exact congrArg Host.Outcome.next (if_pos ⟨hc, hn⟩)
  · exact congrArg Host.Outcome.next (if_pos ⟨hc, hn⟩)
  · exact congrArg Host.Outcome.next hhalt
  · exact congrArg Host.Outcome.next (congrArg (fun t : State => { t with fw := { t.fw with railsDown := true } }) hhalt)
  · refine congrArg Host.Outcome.next ?_
    rw [State.heatDie, h]
  · refine congrArg Host.Outcome.next ?_
    rw [State.heatDie, h]

end Sys2Proof.Machine
end

section
/-!
PROOFS. Data step words of the transfer engine: their checks, the operation that a word becomes, the words that a region holds, index lists
and collectives at issue (R160, R163 to R176, R178, R185, R305): O35.
-/
namespace Sys2Proof.Machine

theorem updXfer_same {s : State} {f : XferEngine → XferEngine} (h : f s.core.xfer = s.core.xfer) : s.updXfer f = s := by
  rw [State.updXfer, State.upd, Core.updXfer, h]

/-! ### The checks of the endpoints (R164, R176) -/

section
variable {c : Core} {k : XKind} {d e : XPoint} {n : Nat} {x y : XEnd}

/-- The kinds of two endpoints with no check but those of their spans. -/
def XKind.plain : XKind → Bool
  | .wbfill _ => false
  | .mcast => false
  | _ => true

theorem ne_wbfill_of_plain (h : k.plain = true) (row : Nat) : k ≠ .wbfill row := by
  rintro rfl
  cases h

theorem ne_mcast_of_plain (h : k.plain = true) : k ≠ .mcast := by
  rintro rfl
  cases h

/-- Two endpoints that pass their own checks fail where their spans overlap. -/
theorem checkEnds_two (hk : ∀ row : Nat, k ≠ .wbfill row) (hm : k = .mcast → x.inCast c.id n = true)
    (hx : c.endOf d (k.dstSpan n) true = .ok x) (hy : c.endOf e (k.spanAtIssue n) false = .ok y) : c.checkEnds k d (some e) n =
      if endsOverlap x (k.dstSpan n) y (k.spanAtIssue n) then .bounds 0 else .ok ⟨d, some e, x, some y⟩ := by
  unfold Core.checkEnds
  cases k with
  | wbfill row => exact absurd rfl (hk row)
  | mcast =>
    dsimp only [Option.map_some]
    rw [hx, hy]
    dsimp only
    rw [hm rfl, Bool.not_true, Bool.or_false]
    rfl
  | _ => dsimp only [Option.map_some]; rw [hx, hy]

theorem checkEnds_one (hk : ∀ row : Nat, k ≠ .wbfill row) (hx : c.endOf d (k.dstSpan n) true = .ok x) :
    c.checkEnds k d none n = .ok ⟨d, none, x, none⟩ := by
  unfold Core.checkEnds
  cases k with
  | wbfill row => exact absurd rfl (hk row)
  | _ => dsimp only [Option.map_none]; rw [hx]

theorem checkEnds_wbfill {row : Nat} (hy : c.endOf e n false = .ok y) :
    c.checkEnds (.wbfill row) d (some e) n = .ok ⟨d, some e, .tree 0 false false, some y⟩ := by
  have hy' : c.endOf e ((XKind.wbfill row).spanAtIssue n) false = .ok y := hy
  unfold Core.checkEnds
  simp only [Option.map_some, hy']

/-- A memory endpoint is a handle's (R163). -/
theorem hnd_of_endOf_mem {span o : Nat} {write : Bool} {b : Binding} (h : c.endOf d span write = .ok (.mem b o)) :
    ∃ (q : Hnd) (off : Nat), d = .hnd q off := by
  cases d with
  | hnd q off => exact ⟨q, off, rfl⟩
  | tree v i =>
    rw [Core.endOf] at h
    split at h <;> cases h

end

/-! ### What a word that has passed its checks comes to (R160, R164, R178, R305) -/

/-- The word is over without an operation: the stream goes on with the next word. -/
def State.steppedOver (s v : State) : Prop :=
  v.core.xfer.cur = s.core.xfer.cur ∧ v.core.xfer.eng.pc = s.core.xfer.eng.pc + 4 ∧ v.core.xfer.regions = s.core.xfer.regions ∧
    v.core.tree = s.core.tree ∧ s.sameMemory v

/-- The innermost region r, with the others t, holds the word back as the operation with these operands. -/
def State.heldBack (s : State) (r : XferRegion) (t : List XferRegion) (k : XKind) (dp ep : XPoint) (n : Nat) (index : Option (Nat × Nat))
    (v : State) : Prop :=
  v.core.xfer.cur = s.core.xfer.cur ∧ s.sameMemory v ∧ v.core.tree = s.core.tree ∧ v.core.xfer.eng.pc = s.core.xfer.eng.pc + 4 ∧
    ∃ o : XOp, v.core.xfer.regions = { r with held := r.held ++ [o], charge := r.charge + 64 } :: t ∧
      o.kind = k ∧ o.dstPt = dp ∧ o.srcPt = some ep ∧ o.len = n ∧ o.index = index ∧ o.unissued = true

section
variable {s : State} {k : XKind} {n : Nat} {index : Option (Nat × Nat)}

/-- A word that takes its batch leaves the core as it is but for the open batch and the access number. -/
theorem useBatch_frame (c : Core) : ∃ (m i : Nat) (b : Option Batch),
    c.useBatch = (m, { c with issue := i, xfer := { c.xfer with openBatch := b } }) := by
  rw [Core.useBatch]
  split <;> exact ⟨_, _, _, rfl⟩

theorem useBatch_regions (c : Core) : c.useBatch.2.xfer.regions = c.xfer.regions := by
  obtain ⟨m, i, b, h⟩ := useBatch_frame c
  rw [h]

theorem startOp_starts {e : XEnds} (hr : s.core.xfer.regions = []) (hn : n ≠ 0) : s.startOp k e n index = s.xferStarted k e n index := by
  unfold State.startOp
  dsimp only
  rw [useBatch_regions, hr, if_neg hn, List.isEmpty_nil, Bool.not_true, Bool.false_and, if_neg Bool.false_ne_true]
  unfold State.xferStarted Core.useBatch
  dsimp only
  cases s.core.xfer.openBatch <;> rfl

theorem startOp_empty (s : State) (k : XKind) (e : XEnds) (index : Option (Nat × Nat)) (hn : n = 0) :
    s.steppedOver (s.startOp k e n index) := by
  obtain ⟨m, i, b, hb⟩ := useBatch_frame s.core
  unfold State.startOp
  dsimp only
  rw [hb]
  dsimp only
  rw [if_pos hn, issueXfer_done_next]
  exact ⟨rfl, rfl, rfl, rfl, rfl, rfl, rfl⟩

/-- No operation to memory runs in place (R305). -/
theorem inPlace_mem (c : Core) (k : XKind) (b : Binding) (o n : Nat) : c.inPlace k (.mem b o) n = false := by
  cases k <;> rfl

theorem startOp_held {dp ep : XPoint} {b : Binding} {o : Nat} {y : XEnd} {r : XferRegion} {t : List XferRegion}
    (hr : s.core.xfer.regions = r :: t) (hroom : s.core.roomFor 64 1 = true) (hn : n ≠ 0) :
    s.heldBack r t k dp ep n index (s.startOp k ⟨dp, some ep, .mem b o, some y⟩ n index) := by
  obtain ⟨m, i, a, hb⟩ := useBatch_frame s.core
  unfold State.startOp
  dsimp only
  rw [hb]
  dsimp only
  simp only [inPlace_mem, hr, if_neg hn, List.isEmpty_cons, Bool.not_false, Bool.and_false, Bool.and_true, if_true, hroom]
  rw [xferAdvanced_of_done rfl]
  exact ⟨rfl, ⟨rfl, rfl, rfl⟩, rfl, rfl, _, rfl, rfl, rfl, rfl, rfl, rfl, rfl⟩

end

section
variable {s : State} {k : XKind} {d e : XPoint} {n : Nat} {x y : XEnd} (index : Option (Nat × Nat)) (hk : ∀ row : Nat, k ≠ .wbfill row)
  (hm : k = .mcast → x.inCast s.core.id n = true) (hx : s.core.endOf d (k.dstSpan n) true = .ok x)
  (hy : s.core.endOf e (k.spanAtIssue n) false = .ok y)
include hk hm hx hy

theorem checkedOp_overlap (ho : endsOverlap x (k.dstSpan n) y (k.spanAtIssue n) = true) :
    s.checkedOp k d (some e) n index = s.issueXfer (.stop codeBounds (some 0)) := by
  rw [State.checkedOp, checkEnds_two hk hm hx hy, if_pos ho]

theorem checkedOp_apart (ho : endsOverlap x (k.dstSpan n) y (k.spanAtIssue n) = false) :
    s.checkedOp k d (some e) n index = s.startOp k ⟨d, some e, x, some y⟩ n index := by
  rw [State.checkedOp, checkEnds_two hk hm hx hy, ho]
  rfl

end

/-! ### Index lists (R168) -/

/-- The lines of an index list, as the word at issue keeps them. -/
def Core.indexLines (c : Core) (l : List Nat) : List (Nat × BitVec 512) := l.map (fun m => (m, (c.line m).data))

theorem readIndexLines_full (l : List Nat) (s : State)
    (h : ∀ m ∈ l, s.core.fullAs s.core.xfer.marks m = true ∧ m ∉ s.core.treeLost) :
    s.readIndexLines l = .read (s.updXfer (fun x => { x with index := x.index ++ s.core.indexLines l })) := by
  induction l generalizing s with
  | nil =>
    rw [State.readIndexLines, updXfer_same]
    simp [Core.indexLines]
  | cons m l ih =>
    obtain ⟨hfull, hlost⟩ := h m List.mem_cons_self
    rw [State.readIndexLines, if_neg (by simp [hfull]), if_neg (by simpa using hlost)]
    rw [ih]
    swap
    · exact fun q hq => h q (List.mem_cons_of_mem _ hq)
    simp only [State.updXfer, State.upd, Core.updXfer, List.append_assoc]
    rfl

theorem assocGet_indexLines (c : Core) (a n : Nat) {m : Nat} (h : m ∈ rangeFrom a n) (d : BitVec 512) :
    assocGet d (c.indexLines (rangeFrom a n)) m = (c.line m).data := by
  generalize rangeFrom a n = l at h
  induction l with
  | nil => exact absurd h List.not_mem_nil
  | cons q l ih =>
    rw [Core.indexLines, List.map_cons, assocGet]
    split
    next hq => rw [hq]
    next hq => exact ih ((List.mem_cons.1 h).resolve_left hq)

/-- An entry of the list is four bytes of the tree. -/
theorem indexList_eq (s : State) (line n : Nat) :
    (s.updXfer (fun x => { x with index := s.core.indexLines (rangeFrom line (ceilDiv (4 * n) 64)) })).core.xfer.indexList line n =
      (List.range n).map (fun j => s.core.treeNat (64 * line + 4 * j) 4) := by
  refine List.map_congr_left (fun j hj => ?_)
  have hj : j < n := List.mem_range.1 hj
  have hmem : line + 4 * j / 64 ∈ rangeFrom line (ceilDiv (4 * n) 64) := by
    rw [mem_rangeFrom, ceilDiv]
    omega
  have hdiv : (64 * line + 4 * j) / 64 = line + 4 * j / 64 := by omega
  have hmod : 8 * ((64 * line + 4 * j) % 64) = 32 * (j % 16) := by omega
  simp only [State.updXfer, State.upd, Core.updXfer, assocGet_indexLines _ _ _ hmem, Core.treeNat, hdiv, hmod]

section
variable {s : State} {mk : Nat → List Nat → XKind} {d e : EndPt} {l i : KIx} (hw1 : 1 ≤ s.core.xfer.field .rowbytes)
  (hw2 : s.core.xfer.field .rowbytes ≤ 4096)
  (ht : s.core.xfer.kv i + ceilDiv (4 * s.core.xfer.kv l) 64 ≤ s.core.res.tree) (hn : s.core.xfer.kv l ≠ 0)
include hw1 hw2 ht hn

/-- Outside every region the lines of the list are read at once where they are full. -/
theorem indexed_reads (hr : s.core.xfer.regions = []) (hi : s.core.xfer.index = [])
    (hfull : ∀ m ∈ rangeFrom (s.core.xfer.kv i) (ceilDiv (4 * s.core.xfer.kv l) 64), (s.core.line m).full = true ∧ m ∉ s.core.treeLost) :
    let t := s.updXfer (fun x => { x with
      index := s.core.indexLines (rangeFrom (s.core.xfer.kv i) (ceilDiv (4 * s.core.xfer.kv l) 64)) })
    s.indexed mk d e l i = (t.checkedOp
      (mk (s.core.xfer.field .rowbytes) ((List.range (s.core.xfer.kv l)).map (fun j => s.core.treeNat (64 * s.core.xfer.kv i + 4 * j) 4)))
      (s.core.xfer.point d) (some (s.core.xfer.point e)) (s.core.xfer.field .rowbytes * s.core.xfer.kv l)
      (some (s.core.xfer.kv i, s.core.xfer.kv l))).dropIndex := by
  intro t
  have hread : s.readIndex (s.core.xfer.kv i) (s.core.xfer.kv l) = .read t := by
    rw [State.readIndex, hi, List.length_nil, List.drop_zero, readIndexLines_full _ _ (fun m hm => ⟨?_, (hfull m hm).2⟩)]
    · simp only [t, State.updXfer, State.upd, Core.updXfer, hi, List.nil_append]
    · simp [Core.fullAs, XferEngine.marks, hr, markOf, (hfull m hm).1]
  have hunread : s.heldUnread mk (s.core.xfer.field .rowbytes) (s.core.xfer.kv l) (s.core.xfer.point d) = false := by
    unfold State.heldUnread
    rw [hr]
    rfl
  simp only [State.indexed, hunread, hread, if_neg hn]
  rw [if_neg (by omega), if_neg (by omega), if_neg (by decide), indexList_eq]

/-- With a region open, a word with a memory destination is held before its list is read. -/
theorem indexed_held {q : Hnd} {off : Nat} (hr : s.core.xfer.regions ≠ []) (hd : s.core.xfer.point d = .hnd q off) :
    s.indexed mk d e l i = s.checkedOp (mk (s.core.xfer.field .rowbytes) []) (s.core.xfer.point d) (some (s.core.xfer.point e))
      (s.core.xfer.field .rowbytes * s.core.xfer.kv l) (some (s.core.xfer.kv i, s.core.xfer.kv l)) := by
  have hunread : s.heldUnread mk (s.core.xfer.field .rowbytes) (s.core.xfer.kv l) (s.core.xfer.point d) = true := by
    unfold State.heldUnread
    rw [hd]
    simpa using hr
  simp only [State.indexed, hunread, if_neg hn]
  rw [if_neg (by omega), if_neg (by omega), if_pos trivial]

end

section
variable {s : State} (x : List (Nat × BitVec 512))

/-- A stop of a word that had read index lines forgets them. -/
theorem dropIndex_stop (hi : s.core.xfer.index = []) (code : Code) (v : Word) :
    ((s.updXfer (fun y => { y with index := x })).issueXfer (.stop code (some v))).dropIndex = s.issueXfer (.stop code (some v)) := by
  have hdrop : ((s.updXfer (fun y => { y with index := x })).issueXfer (.stop code (some v))).dropIndex =
      (s.issueXfer (.stop code (some v))).updXfer (fun y => { y with index := [] }) := rfl
  have hstop : (s.issueXfer (.stop code (some v))).core.xfer.index = s.core.xfer.index := rfl
  rw [hdrop, updXfer_same (by rw [← hi, ← hstop])]

theorem dropIndex_start (k : XKind) (e : XEnds) (n : Nat) (index : Option (Nat × Nat)) :
    ((s.updXfer (fun y => { y with index := x })).xferStarted k e n index).dropIndex = s.xferStarted k e n index := rfl

end

section
variable {s : State} {mk : Nat → List Nat → XKind} (hmk : ∀ (w : Nat) (idx : List Nat), (mk w idx).plain = true)
  {d e : EndPt} {l i : KIx} {idx : List Nat} {x y : XEnd} (hw1 : 1 ≤ s.core.xfer.field .rowbytes) (hw2 : s.core.xfer.field .rowbytes ≤ 4096)
  (ht : s.core.xfer.kv i + ceilDiv (4 * s.core.xfer.kv l) 64 ≤ s.core.res.tree) (hn : s.core.xfer.kv l ≠ 0)
  (hx : s.core.endAt d ((mk (s.core.xfer.field .rowbytes) idx).dstSpan (s.core.xfer.field .rowbytes * s.core.xfer.kv l)) true = .ok x)
  (hy : s.core.endAt e ((mk (s.core.xfer.field .rowbytes) idx).spanAtIssue (s.core.xfer.field .rowbytes * s.core.xfer.kv l)) false = .ok y)
include hmk hw1 hw2 ht hn hx hy

/-- A gather or scatter whose index list is in full lines becomes its operation, or fails where its spans overlap. -/
theorem indexed_starts (hr : s.core.xfer.regions = []) (hi : s.core.xfer.index = [])
    (hidx : idx = (List.range (s.core.xfer.kv l)).map (fun j => s.core.treeNat (64 * s.core.xfer.kv i + 4 * j) 4))
    (hfull : ∀ m ∈ rangeFrom (s.core.xfer.kv i) (ceilDiv (4 * s.core.xfer.kv l) 64), (s.core.line m).full = true ∧ m ∉ s.core.treeLost) :
    let k := mk (s.core.xfer.field .rowbytes) idx
    let n := s.core.xfer.field .rowbytes * s.core.xfer.kv l
    (endsOverlap x (k.dstSpan n) y (k.spanAtIssue n) = true → s.indexed mk d e l i = s.issueXfer (.stop codeBounds (some 0))) ∧
      (endsOverlap x (k.dstSpan n) y (k.spanAtIssue n) = false → n ≠ 0 → s.indexed mk d e l i =
        s.xferStarted k ⟨s.core.xfer.point d, some (s.core.xfer.point e), x, some y⟩ n (some (s.core.xfer.kv i, s.core.xfer.kv l))) := by
  intro k n
  have hk := ne_wbfill_of_plain (hmk (s.core.xfer.field .rowbytes) idx)
  have hm := ne_mcast_of_plain (hmk (s.core.xfer.field .rowbytes) idx)
  let t := s.updXfer (fun x => { x with
    index := s.core.indexLines (rangeFrom (s.core.xfer.kv i) (ceilDiv (4 * s.core.xfer.kv l) 64)) })
  have hread := indexed_reads (mk := mk) (d := d) (e := e) hw1 hw2 ht hn hr hi hfull
  dsimp only at hread
  rw [← hidx] at hread
  have hxt : t.core.endOf (s.core.xfer.point d) (k.dstSpan n) true = .ok x := hx
  have hyt : t.core.endOf (s.core.xfer.point e) (k.spanAtIssue n) false = .ok y := hy
  refine ⟨fun ho => hread.trans ?_, fun ho hn => hread.trans ?_⟩
  · rw [checkedOp_overlap _ hk (fun h => absurd h hm) hxt hyt ho]
    exact dropIndex_stop _ hi codeBounds 0
  · rw [checkedOp_apart _ hk (fun h => absurd h hm) hxt hyt ho, startOp_starts (s := t) hr hn]
    exact dropIndex_start _ k _ n _

/-- With a region open a gather or scatter to memory is held with the place of its index list. -/
theorem indexed_heldBack {b : Binding} {o : Nat} {r : XferRegion} {t : List XferRegion} (hidx : idx = []) (hxb : x = .mem b o)
    (hr : s.core.xfer.regions = r :: t) (hroom : s.core.roomFor 64 1 = true) :
    let k := mk (s.core.xfer.field .rowbytes) []
    let n := s.core.xfer.field .rowbytes * s.core.xfer.kv l
    endsOverlap x (k.dstSpan n) y (k.spanAtIssue n) = false →
      s.heldBack r t k (s.core.xfer.point d) (s.core.xfer.point e) n (some (s.core.xfer.kv i, s.core.xfer.kv l)) (s.indexed mk d e l i) := by
  intro k n ho
  subst hidx hxb
  have hk := ne_wbfill_of_plain (hmk (s.core.xfer.field .rowbytes) [])
  have hm := ne_mcast_of_plain (hmk (s.core.xfer.field .rowbytes) [])
  obtain ⟨q, off, hd⟩ := hnd_of_endOf_mem hx
  rw [indexed_held hw1 hw2 ht hn (by simp [hr]) hd, checkedOp_apart _ hk (fun h => absurd h hm) hx hy ho]
  exact startOp_held hr hroom (Nat.mul_ne_zero (by omega) hn)

end

/-! ### Collectives at issue (R185) -/

section
variable {s : State} {op : CollOp} {scope : Scope} {e : EndPt} {l i : KIx}

theorem coll_badScope (h : collScope scope = false) : s.coll op scope e l i = s.issueXfer (.stop codeIllegal) := by
  rw [State.coll, h]
  rfl

theorem coll_badLength (h : collScope scope = true) (hlen : s.core.xfer.kv l % op.unit ≠ 0) :
    s.coll op scope e l i = s.issueXfer (.stop codeBounds) := by
  simp only [State.coll, h]
  rw [if_neg (by decide), if_pos (.inl hlen)]

theorem coll_issues {x : XEnd} (h : collScope scope = true) (hg : scope = .group → s.collBound (s.core.xfer.kv i) = true)
    (hlen : s.core.xfer.kv l % op.unit = 0) (hx : s.core.endAt e (s.core.xfer.kv l) true = .ok x) (hh : hostEnd x = false)
    (hr : s.core.xfer.regions = [])
    (hlost : ∀ z ∈ s.core.xfer.lostColls, (z.1, z.2.1) ≠ (s.core.xfer.kv i, s.core.xfer.collNum (s.core.xfer.kv i))) :
    s.coll op scope e l i =
      (s.updXfer (fun y => { y with colls := assocSet y.colls (s.core.xfer.kv i) (s.core.xfer.collNum (s.core.xfer.kv i) + 1) })).startOp
        (.coll op scope (s.core.xfer.kv i) (s.core.xfer.collNum (s.core.xfer.kv i)))
        ⟨s.core.xfer.point e, some (s.core.xfer.point e), x, some x⟩ (s.core.xfer.kv l) none := by
  have hnone : s.core.xfer.lostColls.find? (fun z => decide (z.1 = s.core.xfer.kv i) &&
      decide (z.2.1 = s.core.xfer.collNum (s.core.xfer.kv i))) = none := by
    refine List.find?_eq_none.2 (fun z hz hc => hlost z hz ?_)
    simpa [Prod.ext_iff] using hc
  have hok : ¬ (s.core.xfer.kv l % op.unit ≠ 0 ∨ (scope = .group ∧ (!s.collBound (s.core.xfer.kv i)) = true)) := by
    rintro (hc | ⟨hgr, hc⟩)
    · exact hc hlen
    · simp [hg hgr] at hc
  simp only [State.coll, h, hx, hh]
  rw [if_neg (by decide), if_neg hok, if_neg (by decide), closeXfer_none hr]
  simp only [State.startColl, hnone]
  rfl

end

/-! ### What each word checks before its endpoints (R165 to R171) -/

section
variable {s : State} {d e : EndPt} {l : KIx}

theorem xCopy_flat (h : s.core.xfer.field .rows = 0) : exec (.xCopy d e l) s = .next (s.twoEnds (.copy 0 0 0 0) d e (s.core.xfer.kv l)) :=
  congrArg Host.Outcome.next (if_pos h)

theorem xCopy_rows (h1 : 1 ≤ s.core.xfer.field .rows) (h2 : s.core.xfer.field .rows ≤ 65535) (h3 : 1 ≤ s.core.xfer.field .rowbytes)
    (h4 : s.core.xfer.field .rowbytes ≤ 4096) (h5 : s.core.xfer.field .spitch ≤ 2 ^ 31) (h6 : s.core.xfer.field .dpitch ≤ 2 ^ 31)
    (hlen : s.core.xfer.kv l = s.core.xfer.field .rows * s.core.xfer.field .rowbytes) : exec (.xCopy d e l) s =
      .next (s.twoEnds (.copy (s.core.xfer.field .rows) (s.core.xfer.field .rowbytes) (s.core.xfer.field .spitch)
        (s.core.xfer.field .dpitch)) d e (s.core.xfer.kv l)) :=
  congrArg Host.Outcome.next ((if_neg (by omega)).trans (if_neg (by omega)))

theorem xCopy_badLength (h : 1 ≤ s.core.xfer.field .rows) (hlen : s.core.xfer.kv l ≠ s.core.xfer.field .rows * s.core.xfer.field .rowbytes) :
    exec (.xCopy d e l) s = .next (s.issueXfer (.stop codeBounds)) :=
  congrArg Host.Outcome.next ((if_neg (by omega)).trans (if_pos (by omega)))

theorem xConv_units {st dt : EType} (hst : s.core.typeField .stype = some st) (hdt : s.core.typeField .dtype = some dt)
    (hlen : s.core.xfer.kv l % st.width = 0) :
    exec (.xConv d e l) s = .next (s.twoEnds (.conv st dt) d e (s.core.xfer.kv l / st.width * dt.width)) := by
  show execXConv d e l s = _
  rw [execXConv, hst, hdt]
  exact congrArg Host.Outcome.next (if_neg (not_not_intro hlen))

theorem xConv_badLength {st dt : EType} (hst : s.core.typeField .stype = some st) (hdt : s.core.typeField .dtype = some dt)
    (hlen : s.core.xfer.kv l % st.width ≠ 0) : exec (.xConv d e l) s = .next (s.issueXfer (.stop codeBounds)) := by
  show execXConv d e l s = _
  rw [execXConv, hst, hdt]
  exact congrArg Host.Outcome.next (if_pos hlen)

theorem xUnfold_window {t : EType} (ht : s.core.typeField .stype = some t) (hw : winOk s.core.xfer.win = true)
    (h1 : s.core.xfer.field .spitch ≤ 2 ^ 31) (h2 : s.core.xfer.field .dpitch ≤ 2 ^ 31)
    (hp : ((s.core.xfer.kv (l + 1) + s.core.xfer.kv l : Nat) : Int) ≤ unfoldRows s.core.xfer.win * unfoldCols s.core.xfer.win) :
    exec (.xUnfold d e l) s = .next (s.twoEnds (.unfold s.core.xfer.win t (s.core.xfer.field .spitch) (s.core.xfer.field .dpitch)
      (s.core.xfer.kv (l + 1))) d e (s.core.xfer.kv l * patchBytes s.core.xfer.win t)) := by
  show execXUnfold d e l s = _
  rw [execXUnfold, ht]
  refine congrArg Host.Outcome.next (if_neg ?_)
  simp only [hw, Bool.not_true, Bool.false_eq_true, false_or, not_or]
  omega

theorem unpack_int8 {fmt : PackFmt} (hf : fmt ≠ .bsi8) (h1 : 16 ≤ s.core.xfer.field .ratio) (h2 : s.core.xfer.field .ratio ≤ 1024) :
    s.unpack fmt d e l = s.twoEnds (.unpack fmt (s.core.xfer.field .ratio) .i8) d e (s.core.xfer.kv l) := by
  cases fmt with
  | bsi8 => exact absurd rfl hf
  | _ => exact if_neg (by omega)

theorem unpack_scaled {t : EType} (ht : s.core.typeField .dtype = some t) (hf : t = .bf16 ∨ t = .f32) (h1 : 16 ≤ s.core.xfer.field .ratio)
    (h2 : s.core.xfer.field .ratio ≤ 1024) :
    s.unpack .bsi8 d e l = s.twoEnds (.unpack .bsi8 (s.core.xfer.field .ratio) t) d e (s.core.xfer.kv l) := by
  rcases hf with rfl | rfl <;>
    · rw [State.unpack, ht]
      exact if_neg (by omega)

theorem xMcast_length (h1 : 1 ≤ s.core.xfer.kv l) (h2 : s.core.xfer.kv l ≤ 4096) :
    exec (.xMcast d e l) s = .next (s.twoEnds .mcast d e (s.core.xfer.kv l)) := congrArg Host.Outcome.next (if_neg (by omega))

theorem xMcast_badLength (h : s.core.xfer.kv l = 0 ∨ 4096 < s.core.xfer.kv l) :
    exec (.xMcast d e l) s = .next (s.issueXfer (.stop codeBounds)) := congrArg Host.Outcome.next (if_pos (by omega))

theorem xWbfill_rows {row : BitVec 12} {y : XEnd} (hrow : 256 * row.toNat + s.core.xfer.kv l ≤ 256 * s.core.res.wb)
    (hy : s.core.endAt e (s.core.xfer.kv l) false = .ok y) : exec (.xWbfill row e l) s =
      .next (s.startOp (.wbfill row.toNat) ⟨.tree 0 0, some (s.core.xfer.point e), .tree 0 false false, some y⟩ (s.core.xfer.kv l) none) := by
  refine congrArg Host.Outcome.next ((if_neg (by omega)).trans ?_)
  rw [State.checkedOp, checkEnds_wbfill hy]

theorem xFill_checked {x : XEnd} {i : KIx} (hx : s.core.endAt d (s.core.xfer.kv l) true = .ok x) : exec (.xFill d l i) s =
    .next (s.startOp (.fill (s.core.xfer.eng.k[i]).val) ⟨s.core.xfer.point d, none, x, none⟩ (s.core.xfer.kv l) none) := by
  refine congrArg Host.Outcome.next ?_
  rw [State.checkedOp, checkEnds_one (k := .fill (s.core.xfer.eng.k[i]).val) (n := s.core.xfer.kv l) (fun _ h => nomatch h) hx]

end

/-! ### The obligation -/

/-- Settles O35: the checks of each word, then what `State.startOp` makes of its operands. -/
theorem transferWordsStart : Obligations.TransferWordsStart := by
  unfold Obligations.TransferWordsStart
  intro s d e l i row x y scope c u len bounds boundsAt dp ep passes held spans overlap starts two
  have passing : ∀ {j : Instr} {k : XKind} {q : XEnds} {n : Nat} {index : Option (Nat × Nat)}, exec j s = .next (s.startOp k q n index) →
      n = 0 → passes j := fun h hn => ⟨_, h, startOp_empty s _ _ _ hn⟩
  have twoEnds : ∀ {j : Instr} {k : XKind} {n : Nat}, exec j s = .next (s.twoEnds k d e n) → (∀ row : Nat, k ≠ .wbfill row) →
      (k = .mcast → x.inCast c.id n = true) → two j k n := by
    intro j k n hj hk hm
    refine ⟨fun ⟨hx, hy⟩ => ⟨fun ho => ?_, fun ho hn hr => ?_⟩,
      fun ⟨hx, hy⟩ ho => ⟨fun h0 => ?_, fun hn b o r t hxb hr hroom => ?_⟩⟩
    · exact hj.trans (congrArg Host.Outcome.next (checkedOp_overlap none hk hm hx hy ho))
    · exact hj.trans (congrArg Host.Outcome.next ((checkedOp_apart none hk hm hx hy ho).trans (startOp_starts hr hn)))
    · exact passing (hj.trans (congrArg Host.Outcome.next (checkedOp_apart none hk hm hx hy ho))) h0
    · subst hxb
      exact ⟨_, hj.trans (congrArg Host.Outcome.next (checkedOp_apart none hk hm hx hy ho)), startOp_held hr hroom hn⟩
  have plain : ∀ {j : Instr} {k : XKind} {n : Nat}, exec j s = .next (s.twoEnds k d e n) → k.plain = true → two j k n :=
    fun hj hk => twoEnds hj (ne_wbfill_of_plain hk) (fun h => absurd h (ne_mcast_of_plain hk))
  refine ⟨fun h0 => plain (xCopy_flat h0) rfl, fun h1 h2 h3 h4 h5 h6 => ⟨fun hlen => plain (xCopy_rows h1 h2 h3 h4 h5 h6 hlen) rfl,
      xCopy_badLength h1⟩,
    fun hx hr hn => (xFill_checked hx).trans (congrArg Host.Outcome.next (startOp_starts hr hn)), fun hx h0 => ?_, ?_,
    fun hrow hy hr hn => (xWbfill_rows hrow hy).trans (congrArg Host.Outcome.next (startOp_starts hr hn)),
    fun hrow => congrArg Host.Outcome.next (if_pos hrow), fun st dt hst hdt =>
      ⟨fun hlen => plain (xConv_units hst hdt hlen) rfl, xConv_badLength hst hdt⟩,
    fun t ht hwin h1 h2 hp => plain (xUnfold_window ht hwin h1 h2 hp) rfl,
    fun h1 h2 => ?_, fun h1 h2 hx hin => twoEnds (xMcast_length h1 h2) (fun _ h => nomatch h) (fun _ => hin), xMcast_badLength, ?_⟩
  · exact passing (xFill_checked (i := i) (h0.symm ▸ hx)) h0
  · intro w line n hw1 hw2 ht
    refine ⟨fun hr hi hn hfull => ?_, fun hn ⟨hx, hy⟩ ho b o r t hxb hr hroom => ?_, fun hn ⟨hx, hy⟩ ho b o r t hxb hr hroom => ?_⟩
    · intro idx
      refine ⟨fun ⟨hx, hy⟩ => ?_, fun ⟨hx, hy⟩ => ?_⟩
      · obtain ⟨hbad, hgood⟩ := indexed_starts (fun _ _ => rfl) hw1 hw2 ht hn hx hy hr hi rfl hfull
        exact ⟨fun ho => congrArg Host.Outcome.next (hbad ho), fun ho hn _ => congrArg Host.Outcome.next (hgood ho hn)⟩
      · obtain ⟨hbad, hgood⟩ := indexed_starts (fun _ _ => rfl) hw1 hw2 ht hn hx hy hr hi rfl hfull
        exact ⟨fun ho => congrArg Host.Outcome.next (hbad ho), fun ho hn _ => congrArg Host.Outcome.next (hgood ho hn)⟩
    · exact ⟨_, rfl, indexed_heldBack (fun _ _ => rfl) hw1 hw2 ht hn hx hy rfl hxb hr hroom ho⟩
    · exact ⟨_, rfl, indexed_heldBack (fun _ _ => rfl) hw1 hw2 ht hn hx hy rfl hxb hr hroom ho⟩
  · exact ⟨plain (congrArg Host.Outcome.next (unpack_int8 (fmt := .t5p) (fun h => nomatch h) h1 h2)) rfl,
      plain (congrArg Host.Outcome.next (unpack_int8 (fmt := .sp24) (fun h => nomatch h) h1 h2)) rfl,
      plain (congrArg Host.Outcome.next (unpack_int8 (fmt := .zrun) (fun h => nomatch h) h1 h2)) rfl,
      fun ht => plain (congrArg Host.Outcome.next (unpack_scaled ht (.inl rfl) h1 h2)) rfl,
      fun ht => plain (congrArg Host.Outcome.next (unpack_scaled ht (.inr rfl) h1 h2)) rfl⟩
  · intro ident m coll
    have issued : ∀ {j : Instr} {op : CollOp}, exec j s = .next (s.coll op scope e l i) → coll j op op.unit := by
      intro j op hj
      refine ⟨fun hs => hj.trans (congrArg Host.Outcome.next (coll_badScope hs)),
        fun hs _ hlen => hj.trans (congrArg Host.Outcome.next (coll_badLength hs hlen)), fun hs hg hlen hx hh hr hlost => ?_⟩
      intro s1
      have hstart := hj.trans (congrArg Host.Outcome.next (coll_issues hs hg hlen hx hh hr hlost))
      refine ⟨fun hn => hstart.trans (congrArg Host.Outcome.next (startOp_starts (s := s1) hr hn)), fun hn _ => ?_⟩
      exact ⟨_, hstart, startOp_empty s1 _ _ _ hn⟩
    exact ⟨issued (op := .sumI32) rfl, issued (op := .sumF32) rfl, issued (op := .bcast) rfl, issued (op := .argmax) rfl⟩

end Sys2Proof.Machine
end

section
/-!
PROOFS. A collective whose landing leaves another operation of the same number behind, failed before it handed all over (R184, R185): O37.
-/
namespace Sys2Proof.Machine

/-! ### A core with two operations of one collective

No program comes to this state: a core issues each number of an identifier once. O37 speaks of every state, and takes the participants'
operations to be the ones that `Core.collOp` finds first; what lies behind them is left open. -/

/-- The block that stands to be formed: four zero bytes. -/
def twinBlock : Block :=
  { seq := 3, first := 0, bytes := [0, 0, 0, 0], consume := [], binds := [], lost := false, badTag := false, landed := 0, formed := false }

/-- The operation that is found first: handed over whole, to line 0 of the tree, without a sync word. -/
def twinFirst : XOp :=
  { blankOp (.coll .sumI32 .crew 0 0) (.tree 0 false false) none 4 with id := 1, batch := 1, next := 4, issued := true, blocks := [twinBlock] }

/-- The one behind it: failed with none of its bytes handed over, its batch open. -/
def twinSecond : XOp :=
  { blankOp (.coll .sumI32 .crew 0 0) (.tree 0 false false) none 4 with id := 2, batch := 2, issued := true, failed := some codeDataLost }

/-- The sync word of the second operation's batch. -/
def twinSync : SyncRef := ⟨⟨.hbm, 0⟩, 0⟩

def twinCore : Core :=
  { Core.blank 0 with
    seat := some ⟨1, 0, 0, 1, ⟨0, 0, 1, 0, 0, 0, Vector.replicate 4 0⟩⟩
    xfer := { XferEngine.zero with ops := [twinFirst, twinSecond], openBatch := some ⟨2, some twinSync, 0, true⟩, colls := [(0, 1)] } }

def twinPacket : LaunchPacket := launchOf []

def twinState : State :=
  { State.reset with core := twinCore, crews := [⟨1, 0, twinPacket, [0], .block 0 0, .running, [], none, false, []⟩] }


/-- What the core contributes to the block. -/
def twinGiven : Contribution := { member := 0, rank := 0, op := 0, len := 4, bytes := [0, 0, 0, 0] }

theorem twinState_participants : (twinState.focus 0).participants .crew 0 = [⟨1, 0⟩] := by decide

theorem twinState_contribution : [(⟨1, 0⟩ : Rank)].mapM ((twinState.focus 0).contribution 0 0 0) = some [(twinFirst, twinGiven)] := by decide

/-- The result ends the second operation, which adds its failure to its sync word. -/
theorem twinState_result : (match exec (.collectiveResult 0 1 []) twinState with
    | .next t => t.readByte ⟨.hbm, 12⟩
    | _ => 0) = 2 := by decide

/-- Refutes O37: `twinState` meets its fourth clause's premises with no byte of memory to write, and the result changes a sync word. -/
theorem not_collectivesCombine : ¬ Obligations.CollectivesCombine := by
  unfold Obligations.CollectivesCombine
  rintro ⟨-, -, -, h⟩
  have hparts : ∀ p ∈ ([⟨1, 0⟩] : List Rank).zip [twinFirst], p = (⟨1, 0⟩, twinFirst) := fun p hp => List.mem_singleton.1 hp
  have hfound := h twinState 0 1 [] twinFirst twinBlock .sumI32 .crew 0 0 [(twinFirst, twinGiven)] (by decide) (by decide) rfl
  rw [twinState_participants] at hfound
  obtain ⟨t, ht, hout, -⟩ := hfound (by decide) (by decide) (by decide) twinState_contribution (by decide)
    (fun p hp => by
      rw [hparts p hp]
      refine ⟨rfl, rfl, by decide, fun k hk => ?_⟩
      have hkey : k = twinBlock := (Option.some.inj hk).symm
      subst hkey
      decide)
    (by decide) (by decide) (by decide) (by decide)
  have hkept : t.readByte ⟨.hbm, 12⟩ = 0 := hout ⟨.hbm, 12⟩ (by decide)
  have hwritten := twinState_result
  rw [ht] at hwritten
  exact absurd (hkept.symm.trans hwritten) (by decide)

end Sys2Proof.Machine
end

section
/-!
PROOFS. Blocks of the transfer engine: the output bytes of each kind of operation and where they go, the hand-over of a block, and its
landing in memory, in the tree and in the weight buffer (R160, R161, R166 to R172, R178, R180, R182, R316): O36.
-/
namespace Sys2Proof.Machine

/-! ### Source bytes at the hand-over (R316; log 15) -/

section
variable {s : State} {o : XOp} {b : Binding} {off : Nat} (hs : o.src = some (.mem b off))
include hs

/-- Where no sector of the source is taken yet, its bytes are those of memory. -/
theorem sourceByte_untaken (ht : o.taken = []) (i : Nat) : s.sourceByte o i = (b.place (off + i)).elim 0 s.readByte := by
  simp only [State.sourceByte, hs, ht]
  cases b.place (off + i) <;> rfl

theorem sourceByte_placed {i : Nat} {p : PAddr} (hp : b.place (off + i) = some p) (ht : o.taken = []) : s.sourceByte o i = s.readByte p := by
  rw [sourceByte_untaken hs ht, hp]
  rfl

/-- A sector that was read before counts as it was read. -/
theorem sourceByte_taken {i : Nat} {p : PAddr} {d : BitVec 512} (hp : b.place (off + i) = some p) (ht : o.taken = [(p.addr / 64, d)]) :
    (s.sourceByte o i).toNat = d.toNat / 2 ^ (8 * (p.addr % 64)) % 256 := by
  have hfind : o.taken.find? (fun x => decide (x.1 = sectorNum p)) = some (p.addr / 64, d) := by
    rw [ht, List.find?_cons_of_pos (by simp [sectorNum])]
  simp only [State.sourceByte, hs, hp, hfind, BitVec.toNat_ofNat]

end

/-! ### Output bytes (R166 to R172) -/

/-- A byte of the destination that is no conversion's: one of the source, or a constant. -/
def State.byteOf (s : State) (o : XOp) : ByteFrom → Byte
  | .src y => s.sourceByte o y
  | .const v => v

theorem outputBytes_conv {s : State} {o : XOp} {st dt : EType} (h : o.kind = .conv st dt) (a n : Nat) : s.outputBytes o a n =
    let elem := fun j => convert st dt (s.sourceNat o (st.width * j) st.width)
    let l := rangeFrom (a / dt.width) (n / dt.width)
    (l.flatMap (fun j => bytesOfNat dt.width (elem j).1), (l.map (fun j => (elem j).2)).foldl (· ||| ·) 0) := by
  simp only [State.outputBytes, h, List.flatMap_map, List.map_map]
  rfl

theorem outputBytes_plain {s : State} {o : XOp} (h : ∀ st dt : EType, o.kind ≠ .conv st dt) (a n : Nat) :
    s.outputBytes o a n = ((rangeFrom a n).map (fun i => s.byteOf o (o.byteFrom i)), 0) := by
  unfold State.outputBytes
  split
  next st dt hk => exact absurd hk (h st dt)
  next =>
    refine congrArg (fun l => (l, (0 : BitVec 5))) (List.map_congr_left (fun i _ => ?_))
    cases o.byteFrom i <;> rfl

theorem needs_conv {o : XOp} {st dt : EType} (h : o.kind = .conv st dt) (a n : Nat) :
    o.needs a n = rangeFrom (a / dt.width * st.width) (n / dt.width * st.width) := by
  rw [XOp.needs, h]

/-! ### Where the bytes come from and go (R166 to R169, R171) -/

theorem blockSize_plain {o : XOp} (h : ∀ (e : Nat) (idx : List Nat), o.kind ≠ .scatter e idx) : o.blockSize = 4096 := by
  unfold XOp.blockSize
  split
  next e idx hk => exact absurd hk (h e idx)
  next => rfl

theorem fill_byte (v : BitVec 32) (i : Nat) : BitVec.ofNat 8 (v.toNat / 2 ^ (8 * (i % 4))) = v.extractLsb' (8 * (i % 4)) 8 := by
  rw [BitVec.extractLsb', Nat.shiftRight_eq_div_pow]

section
variable {o : XOp} (i : Nat) {w : Vector (BitVec 32) 15} {t : EType} {sp dp p0 : Nat} (hk : o.kind = .unfold w t sp dp p0)
include hk

theorem byteTo_unfold : o.byteTo i = i / patchBytes w t * (if dp = 0 then patchBytes w t else dp) + i % patchBytes w t := by
  rw [XOp.byteTo, hk]

/-- The byte of an `x.unfold` is that of its window's element, or of the padding around the input. -/
theorem byteFrom_unfold :
    let row := patchBytes w t
    let el := i % row / t.width
    let p := p0 + i / row
    let ow := (unfoldCols w).toNat
    let ky := el / winAt w .ch / winAt w .ww
    let kx := el / winAt w .ch % winAt w .ww
    let y : Int := (p / ow * winAt w .sy + ky * winAt w .dy : Nat) - (winAt w .pt : Int)
    let x : Int := (p % ow * winAt w .sx + kx * winAt w .dx : Nat) - (winAt w .pl : Int)
    let input : Int → Int → ByteFrom := fun y x =>
      .src (y.toNat * inputPitch w t sp + x.toNat * winAt w .ch * t.width + el % winAt w .ch * t.width + i % row % t.width)
    let ih : Int := winAt w .ih
    let iw : Int := winAt w .iw
    let out := ¬ (0 ≤ y ∧ y < ih ∧ 0 ≤ x ∧ x < iw)
    (¬ out → o.byteFrom i = input y x) ∧
      (out → winAt w .pmode = 0 → o.byteFrom i = .const 0) ∧
      (out → winAt w .pmode = 1 → o.byteFrom i = .const (BitVec.ofNat 8 (winAt w .pconst / 2 ^ (8 * (i % row % t.width))))) ∧
      (out → winAt w .pmode = 2 → o.byteFrom i = input (reflect y ih) (reflect x iw)) ∧
      (out → winAt w .pmode = 3 → o.byteFrom i = input (clampIn y ih) (clampIn x iw)) := by
  intro row el p ow ky kx y x input ih iw out
  have hy : (p / ow * winAt w .sy : Nat) - (winAt w .pt : Int) + (ky * winAt w .dy : Nat) = y := by
    simp only [y]
    push_cast
    ring
  have hx : (p % ow * winAt w .sx : Nat) - (winAt w .pl : Int) + (kx * winAt w .dx : Nat) = x := by
    simp only [x]
    push_cast
    ring
  have hfrom : o.byteFrom i = unfoldByte w t sp p0 i := by rw [XOp.byteFrom, hk]
  rw [hfrom, unfoldByte]
  simp only [row, el, p, ow, ky, kx] at hy hx
  simp only [hy, hx]
  refine ⟨fun hin => if_pos (not_not.1 hin), fun hout hm => ?_, fun hout hm => ?_, fun hout hm => ?_, fun hout hm => ?_⟩ <;>
    · rw [if_neg hout, hm]
      rfl

end

/-! ### Padding (R167) -/

theorem reflect_clampIn (y n : Int) :
    (0 ≤ y → y < n → reflect y n = y ∧ clampIn y n = y) ∧ (y < 0 → reflect y n = -y ∧ clampIn y n = 0) ∧
      (0 ≤ y → n ≤ y → reflect y n = 2 * (n - 1) - y ∧ clampIn y n = n - 1) := by
  refine ⟨fun h0 hn => ?_, fun h0 => ⟨if_pos h0, if_pos h0⟩, fun h0 hn => ?_⟩
  · exact ⟨(if_neg (by omega)).trans (if_neg (by omega)), (if_neg (by omega)).trans (if_neg (by omega))⟩
  · exact ⟨(if_neg (by omega)).trans (if_pos hn), (if_neg (by omega)).trans (if_pos hn)⟩

/-! ### The hand-over of a block (R160, R161) -/

/-- The bytes of an operation from memory to memory. -/
def XOp.betweenMemory (o : XOp) (b : Binding) (off : Nat) (d : Binding) (dof : Nat) : Prop :=
  o.kind.path = .xp ∧ o.src = some (.mem b off) ∧ o.dst = .mem d dof

section
variable {o : XOp} {b d : Binding} {off dof : Nat} (h : o.betweenMemory b off d dof)
include h

theorem sourceLines_memory (l : List Nat) : o.sourceLines l = [] := by
  obtain ⟨-, hs, -⟩ := h
  rw [XOp.sourceLines, hs]

theorem consumes_memory : o.consumes = false := by
  obtain ⟨-, hs, -⟩ := h
  rw [XOp.consumes, hs]
  cases o.kind <;> rfl

theorem lineAwaited_memory (c : Core) (a n : Nat) : c.lineAwaited o a n = none := by
  obtain ⟨-, -, hd⟩ := h
  rw [Core.lineAwaited, hd]
  cases o.kind <;> rfl

theorem bindings_memory : o.bindings = [d, b] := by
  obtain ⟨-, hs, hd⟩ := h
  rw [XOp.bindings, XOp.ends, hs, hd]
  rfl

theorem blockGate_memory {c : Core} (hnew : c.holdsNew .xp = false) (hb : ∀ a ∈ o.bindings, c.bindingNow a = .ok a) :
    c.blockGate o = .go := by
  have hgone : o.bindings.any (fun b => decide (c.bindingNow b = .bounds)) = false :=
    List.any_eq_false.2 (fun a ha => by simp [hb a ha])
  have hrevoking : o.bindings.any (fun b => decide (c.bindingNow b = .revoking)) = false :=
    List.any_eq_false.2 (fun a ha => by simp [hb a ha])
  rw [Core.blockGate, hgone, hrevoking, h.1, hnew]
  rfl

/-- The block is handed over with its output bytes as they stand. -/
theorem handBlock_memory {u : State} {n : Nat} (hn : min o.blockSize (o.len - o.next) = n) (ht : o.taken = [])
    (hair : u.core.xfer.inAir < 16) (hecc : u.eccRead ((o.needs o.next n).filterMap (fun i => b.place (off + i))) = .ok) :
    u.handBlock o = u.hand o o.next (u.outputBytes o o.next n).1 [] .ok (u.outputBytes o o.next n).2 (o.next + n) (o.out + n)
      (decide (o.len ≤ o.next + n)) := by
  have htook : u.core.tookLines u.now o o = u.core := by
    rw [Core.tookLines, consumes_memory h]
    rfl
  have hwait : u.core.blockWait o o.next n = none := by
    rw [Core.blockWait, lineAwaited_memory h]
    exact if_neg (by omega)
  have hsource : u.sourceEcc o (o.needs o.next n) = .ok := by
    obtain ⟨-, hs, -⟩ := h
    rw [State.sourceEcc, hs]
    simpa [ht] using hecc
  unfold State.handBlock
  dsimp only
  rw [sourceLines_memory h, hn]
  simp only [Core.takeLines, htook, hwait, hsource]

theorem handNext_memory {u : State} (hp : ∀ (f : PackFmt) (r : Nat) (t : EType), o.kind ≠ .unpack f r t) (hnew : u.core.holdsNew .xp = false)
    (hb : ∀ a ∈ o.bindings, u.core.bindingNow a = .ok a) : u.handNext o = u.handBlock o := by
  rw [State.handNext, blockGate_memory h hnew hb]
  dsimp only
  split
  next f r t hk => exact absurd hk (hp f r t)
  next => rfl

end

/-- The block at issue has been handed over, and nothing but the transfer engine and the access number differs. -/
def State.blockHanded (u : State) (o1 : XOp) (t : State) : Prop :=
  u.sameMemory t ∧ t.core.tree = u.core.tree ∧ t.core.issue = u.core.issue + 1 ∧ t.core.seq.g = u.core.seq.g ∧
    (o1.next < o1.len → t.core.xfer.cur = some o1 ∧ t.core.xfer.ops = u.core.xfer.ops ∧ t.core.xfer.eng.pc = u.core.xfer.eng.pc) ∧
    (o1.len ≤ o1.next → (∀ y ∈ u.core.xfer.ops, y.id ≠ o1.id) → t.core.xfer.cur = none ∧
      t.core.xfer.ops = u.core.xfer.ops ++ [{ o1 with issued := true }] ∧
      t.core.xfer.eng.pc = (if o1.pc = u.core.xfer.eng.pc then u.core.xfer.eng.pc + 4 else u.core.xfer.eng.pc))

theorem settleOp_blocks {s : State} {o : XOp} (hb : o.blocks ≠ []) (hc : s.core.xfer.cur = none) :
    s.settleOp o = s.updXfer (fun x => { x with ops := x.ops.map (fun (y : XOp) => if y.id = o.id then o else y) }) := by
  rw [State.settleOp, if_neg (by simp [hb]), if_neg (by simp [hc])]

theorem replaceOp_other {l : List XOp} {o : XOp} (h : ∀ y ∈ l, y.id ≠ o.id) :
    l.map (fun (y : XOp) => if y.id = o.id then o else y) = l := by
  refine (List.map_congr_left (g := id) (fun y hy => if_neg (h y hy))).trans (List.map_id l)

theorem allHanded_blocks {s : State} {o : XOp} (hb : o.blocks ≠ []) (ht : o.taken = []) :
    s.allHanded o = s.updXfer (fun x => { x with
      cur := none
      ops := (x.ops ++ [{ o with issued := true }]).map (fun (y : XOp) => if y.id = o.id then { o with issued := true } else y)
      eng := { x.eng with st := .run, retired := s.now, pc := if o.pc = x.eng.pc then x.eng.pc + 4 else x.eng.pc } }) := by
  have htaken : { o with issued := true, taken := [] } = { o with issued := true } := by rw [← ht]
  unfold State.allHanded
  dsimp only
  rw [htaken, settleOp_blocks (o := { o with issued := true }) hb rfl]
  by_cases hpc : o.pc = s.core.xfer.eng.pc
  · simp only [State.updXfer, State.upd, Core.updXfer, hpc, if_true, decide_true]
  · simp only [State.updXfer, State.upd, Core.updXfer, hpc, if_false, decide_false, Bool.false_eq_true]

/-- An operation with its next block handed over. -/
def XOp.withBlock (o : XOp) (b : Block) (f : BitVec 5) (next out : Nat) : XOp :=
  { o with next := next, out := out, mask := o.mask ||| f, blocks := o.blocks ++ [b] }

theorem withBlock_blocks (o : XOp) (b : Block) (f : BitVec 5) (next out : Nat) : (o.withBlock b f next out).blocks ≠ [] := by
  simp [XOp.withBlock]

section
variable {u : State} {o : XOp} {first : Nat} {bytes : List Byte} {f : BitVec 5} {next out : Nat} (ht : o.taken = [])

/-- The block that is handed over now. -/
def State.newBlock (u : State) (o : XOp) (first : Nat) (bytes : List Byte) : Block :=
  ⟨u.core.issue, first, bytes, [], o.bindings.map (·.id), false, false, 0, false⟩

theorem hand_last (hlast : o.len ≤ next) : u.hand o first bytes [] .ok f next out (decide (o.len ≤ next)) =
    (u.upd Core.bump).allHanded (o.withBlock (u.newBlock o first bytes) f next out) := by
  rw [decide_eq_true hlast]
  rfl

include ht

theorem hand_more (hmore : ¬ o.len ≤ next) : u.hand o first bytes [] .ok f next out (decide (o.len ≤ next)) =
    (u.upd Core.bump).updXfer (fun x => { x with
      cur := some (o.withBlock (u.newBlock o first bytes) f next out), eng := { x.eng with st := .run } }) := by
  have htaken : { o.withBlock (u.newBlock o first bytes) f next out with taken := [] } =
      o.withBlock (u.newBlock o first bytes) f next out := by
    rw [← ht]
    rfl
  rw [decide_eq_false hmore, ← htaken]
  rfl

theorem hand_cur : ∀ q ∈ (u.hand o first bytes [] .ok f next out (decide (o.len ≤ next))).core.xfer.cur, q.inside = o.inside := by
  intro q hq
  by_cases hlast : o.len ≤ next
  · rw [hand_last hlast, allHanded_blocks (withBlock_blocks o _ f next out) ht] at hq
    cases hq
  · rw [hand_more ht hlast] at hq
    cases hq
    rfl

theorem hand_blockHanded : u.blockHanded (o.withBlock (u.newBlock o first bytes) f next out)
    (u.hand o first bytes [] .ok f next out (decide (o.len ≤ next))) := by
  by_cases hlast : o.len ≤ next
  · rw [hand_last hlast, allHanded_blocks (withBlock_blocks o _ f next out) ht]
    refine ⟨⟨rfl, rfl, rfl⟩, rfl, rfl, rfl, fun hlt => absurd hlt (Nat.not_lt.2 hlast), fun _ hne => ⟨rfl, ?_, rfl⟩⟩
    show List.map _ (u.core.xfer.ops ++ _) = _
    rw [List.map_append, replaceOp_other (o := { o.withBlock (u.newBlock o first bytes) f next out with issued := true }) hne, List.map_cons,
      if_pos rfl]
    rfl
  · rw [hand_more ht hlast]
    exact ⟨⟨rfl, rfl, rfl⟩, rfl, rfl, rfl, fun _ => ⟨rfl, rfl, rfl⟩, fun hle => absurd hle hlast⟩

end

/-- An operation from memory to memory hands its next block over. -/
theorem blockEvent_memory {u : State} {o : XOp} {b d : Binding} {off dof : Nat} (h : o.betweenMemory b off d dof)
    (hp : ∀ (f : PackFmt) (r : Nat) (t : EType), o.kind ≠ .unpack f r t) (hc : u.core.xfer.cur = some o) (hu : o.unissued = false)
    (hi : o.inside = false) (ht : o.taken = []) (hseat : u.core.seat.isSome = true)
    (hrun : ∀ y : Seat, u.core.seat = some y → u.crewStopping y.crew = false) (hstop : u.core.xfer.eng.stopReq = false)
    (hlive : u.core.xfer.eng.st.live = true) (hnew : u.core.holdsNew .xp = false) (hair : u.core.xfer.inAir < 16)
    (hb : ∀ a ∈ o.bindings, u.core.bindingNow a = .ok a)
    {n : Nat} (hn : min o.blockSize (o.len - o.next) = n)
    (hecc : u.eccRead ((o.needs o.next n).filterMap (fun i => b.place (off + i))) = .ok) :
    u.blockHanded (o.withBlock ⟨u.core.issue, o.next, (u.outputBytes o o.next n).1, [], [d.id, b.id], false, false, 0, false⟩
      (u.outputBytes o o.next n).2 (o.next + n) (o.out + n)) u.blockEvent := by
  have hblock : u.newBlock o o.next (u.outputBytes o o.next n).1 =
      ⟨u.core.issue, o.next, (u.outputBytes o o.next n).1, [], [d.id, b.id], false, false, 0, false⟩ := by
    rw [State.newBlock, bindings_memory h]
    rfl
  have hnext := (handNext_memory h hp hnew hb).trans (handBlock_memory h hn ht hair hecc)
  obtain ⟨y, hy⟩ := Option.isSome_iff_exists.1 hseat
  have hevent : u.blockEvent = u.handNext o := by
    unfold State.blockEvent
    simp only [hc, hy, hrun y hy, hstop, hlive, hu, Bool.not_true, Bool.or_false, Bool.false_eq_true, if_false]
    rw [hnext]
    refine if_neg ?_
    split
    next q hq => rw [hand_cur ht q hq, hi, Bool.false_and]; exact Bool.false_ne_true
    next => exact Bool.false_ne_true
  rw [hevent, hnext, ← hblock]
  exact hand_blockHanded ht

/-! ### Lost sectors (R223) -/

theorem eccRead_eq_ok {s : State} {l : List PAddr} :
    s.eccRead l = .ok ↔ ∀ p ∈ l, s.lost.contains (sectorOf p) = false ∧ s.badTag.contains (sectorOf p) = false := by
  rw [State.eccRead]
  constructor
  · intro h p hp
    split at h
    next => cases h
    next hbad =>
      split at h
      next => cases h
      next hlost =>
        have hl : s.lost.contains (sectorOf p) = false := by
          have := List.any_eq_false.1 (Bool.not_eq_true _ ▸ hlost) p hp
          simpa using this
        have hl' : sectorOf p ∉ s.lost := by simpa using hl
        have := List.any_eq_false.1 (Bool.not_eq_true _ ▸ hbad) p hp
        exact ⟨hl, by simpa [hl'] using this⟩
  · intro h
    rw [if_neg, if_neg]
    · simpa using fun p hp => by simpa using (h p hp).1
    · simpa using fun p hp => by simpa using fun hb => absurd hb (by simpa using (h p hp).2)

theorem eccRead_subset {s : State} {l m : List PAddr} (h : s.eccRead l = .ok) (hm : ∀ p ∈ m, p ∈ l) : s.eccRead m = .ok :=
  eccRead_eq_ok.2 (fun p hp => eccRead_eq_ok.1 h p (hm p hp))

/-- Healing a sector makes no other one lost. -/
theorem eccRead_heal {s : State} {l : List PAddr} (c : List (PAddr × Byte)) (h : s.eccRead l = .ok) : (s.heal c).eccRead l = .ok := by
  refine eccRead_eq_ok.2 (fun p hp => ?_)
  obtain ⟨hl, hb⟩ := eccRead_eq_ok.1 h p hp
  have hsub : ∀ {m : List PAddr}, m.contains (sectorOf p) = false → (m.filter (fun q => !coversSector c q)).contains (sectorOf p) = false := by
    intro m hm
    simpa using fun h => absurd h (by simpa using hm)
  exact ⟨hsub hl, hsub hb⟩

/-- Bytes of sectors that are not lost can be written. -/
theorem eccWrite_ok {s : State} {l : List (PAddr × Byte)} (h : s.eccRead (l.map Prod.fst) = .ok) : s.eccWrite l = .ok :=
  eccRead_subset h (fun _ hp => (List.mem_filter.1 hp).1)

/-! ### Bytes added to a sync word (R97, R178, R180) -/

/-- The sync word has counted n more bytes, and nothing else of memory differs. -/
def State.syncCounted (s : State) (pa : PAddr) (n : Nat) (t : State) : Prop :=
  let target := s.readNat pa 4
  let count := (s.readNat (pa.plus 4) 4 + n) % 2 ^ 32
  let gen := s.readNat (pa.plus 8) 4
  s.sameOutside t (placesFrom (pa.plus 4) 8) ∧ t.readNat (pa.plus 4) 4 = (if target = 0 then count else count % target) ∧
    t.readNat (pa.plus 8) 4 = (if target = 0 then gen else (gen + count / target) % 2 ^ 32)

theorem readNat_lt (s : State) (p : PAddr) (n : Nat) : s.readNat p n < 2 ^ (8 * n) := by
  have h := natOfBytes_lt (s.readBytes (placesFrom p n))
  rwa [State.readBytes, List.length_map, placesFrom_length] at h

theorem countCells_places (s : State) (pa : PAddr) (n : Nat) : (s.countCells pa n).map Prod.fst = placesFrom (pa.plus 4) 8 := by
  rw [State.countCells, cellsAt_places, List.length_append, bytesOfNat_length, bytesOfNat_length]

theorem writeCells_countCells {s : State} {pa : PAddr} {n : Nat} (w : s.memWf = true) :
    s.syncCounted pa n (s.writeCells (s.countCells pa n)) := by
  have hn : ((s.countCells pa n).map Prod.fst).Nodup := by
    rw [countCells_places]
    exact placesFrom_nodup _ _
  have hcells : s.countCells pa n =
      cellsAt (pa.plus 4) (bytesOfNat 4 (if s.readNat pa 4 = 0 then (s.readNat (pa.plus 4) 4 + n) % 2 ^ 32
        else (s.readNat (pa.plus 4) 4 + n) % 2 ^ 32 % s.readNat pa 4)) ++
      cellsAt (pa.plus 8) (bytesOfNat 4 (if s.readNat pa 4 = 0 then s.readNat (pa.plus 8) 4
        else (s.readNat (pa.plus 8) 4 + (s.readNat (pa.plus 4) 4 + n) % 2 ^ 32 / s.readNat pa 4) % 2 ^ 32)) := by
    rw [State.countCells, cellsAt_append, bytesOfNat_length]
    rfl
  have hread : ∀ (q : PAddr) (v : Nat), (∀ c ∈ cellsAt q (bytesOfNat 4 v), c ∈ s.countCells pa n) → v < 2 ^ 32 →
      (s.writeCells (s.countCells pa n)).readNat q 4 = v := by
    intro q v hq hv
    have h := readNat_writeCells w hn hq
    rw [bytesOfNat_length, natOfBytes_bytesOfNat] at h
    exact h.trans (Nat.mod_eq_of_lt hv)
  have hgen : s.readNat (pa.plus 8) 4 < 2 ^ 32 := readNat_lt s (pa.plus 8) 4
  have hcount : (s.readNat (pa.plus 4) 4 + n) % 2 ^ 32 < 2 ^ 32 := Nat.mod_lt _ (Nat.two_pow_pos 32)
  refine ⟨fun p hp => State.readByte_writeCells_other (fun c hc he => hp ?_) w, hread _ _ (fun c hc => ?_) ?_, hread _ _ (fun c hc => ?_) ?_⟩
  · rw [he, ← countCells_places s pa n]
    exact List.mem_map_of_mem hc
  · rw [hcells]
    exact List.mem_append_left _ hc
  · split
    · exact hcount
    · exact Nat.lt_of_le_of_lt (Nat.mod_le _ _) hcount
  · rw [hcells]
    exact List.mem_append_right _ hc
  · split
    · exact hgen
    · exact Nat.mod_lt _ (Nat.two_pow_pos 32)

/-- A landing's addition to its sync word: memory counts it, and of the core the stream's effects alone differ. -/
theorem addSync_counts {s : State} {pa : PAddr} {n : Nat} (hn : 0 < n) (w : s.memWf = true) (hecc : s.eccRead (placesFrom pa 16) = .ok) :
    (s.addSync ⟨pa, n, 0, 0⟩).1 = true ∧ s.syncCounted pa n (s.addSync ⟨pa, n, 0, 0⟩).2 ∧
      ∃ e, (s.addSync ⟨pa, n, 0, 0⟩).2.core = { s.core with effects := e } := by
  have hwrite : s.eccWrite (s.countCells pa n) = .ok := by
    refine eccWrite_ok (eccRead_subset hecc (fun p hp => ?_))
    rw [countCells_places] at hp
    obtain ⟨hs, hlow, hhigh⟩ := mem_placesFrom.1 hp
    simp only [PAddr.plus] at hs hlow hhigh
    exact mem_placesFrom.2 ⟨hs, by omega, by omega⟩
  have hcells : (if n = 0 then [] else s.countCells pa n) ++ s.failCells pa 0 0 = s.countCells pa n := by
    have hfail : s.failCells pa 0 0 = [] := if_neg (fun h => h.1 rfl)
    rw [if_neg (Nat.ne_of_gt hn), hfail, List.append_nil]
  have hadd : s.addSync ⟨pa, n, 0, 0⟩ = (true, ((s.heal (s.countCells pa n)).writeCells (s.countCells pa n)).wrote .xfer [pa]) := by
    simp only [State.addSync, State.syncAct, hcells, store_ok hwrite]
  obtain ⟨e, he⟩ := wrote_frame ((s.heal (s.countCells pa n)).writeCells (s.countCells pa n)) .xfer [pa]
  obtain ⟨a, b, c, hm⟩ := State.writeCells_frame (s.countCells pa n) (s.heal (s.countCells pa n))
  have hcounted : s.syncCounted pa n ((s.heal (s.countCells pa n)).writeCells (s.countCells pa n)) :=
    writeCells_countCells (s := s.heal (s.countCells pa n)) w
  rw [hadd]
  refine ⟨rfl, ?_, e, ?_⟩
  · show s.syncCounted pa n (((s.heal (s.countCells pa n)).writeCells (s.countCells pa n)).wrote .xfer [pa])
    rw [he]
    exact hcounted
  · show (((s.heal (s.countCells pa n)).writeCells (s.countCells pa n)).wrote .xfer [pa]).core = _
    rw [he, hm]
    rfl

/-- A landing counts for its operation's batch: its sync word counts the bytes, or the batch that is open keeps them. -/
def State.batchCounted (s : State) (o : XOp) (a : Batch) (n : Nat) (t : State) : Prop :=
  (a.sync = none → s.sameOutside t [] ∧ t.core.xfer.openBatch =
    s.core.xfer.openBatch.map (fun c => if c.id = o.batch then { c with landed := c.landed + n } else c)) ∧
  ∀ r : SyncRef, a.sync = some r → s.syncCounted r.pa n t ∧ t.core.xfer.openBatch = s.core.xfer.openBatch

theorem batchAdd_counts {s : State} {o : XOp} {a : Batch} {n : Nat} (hi : o.inside = false) (ha : s.core.xfer.batch o.batch = some a)
    (hn : 0 < n) (w : s.memWf = true) (hecc : ∀ r : SyncRef, a.sync = some r → s.eccRead (placesFrom r.pa 16) = .ok) :
    (s.batchAdd o n 0 0).1 = true ∧ s.batchCounted o a n (s.batchAdd o n 0 0).2 ∧
      ∃ e b, (s.batchAdd o n 0 0).2.core = { s.core with effects := e, xfer := { s.core.xfer with openBatch := b } } := by
  cases hs : a.sync with
  | none =>
    have hadd : s.batchAdd o n 0 0 = (true, s.updXfer (fun x => { x with
        openBatch := x.openBatch.map (fun (b : Batch) => if b.id = o.batch then { b with landed := b.landed + n } else b) })) := by
      simp only [State.batchAdd, ha, hs]
      exact if_pos trivial
    rw [hadd]
    exact ⟨rfl, ⟨fun _ => ⟨fun p _ => rfl, rfl⟩, fun r hr => nomatch hs.symm.trans hr⟩, _, _, rfl⟩
  | some r =>
    have hadd : s.batchAdd o n 0 0 = s.addSync ⟨r.pa, n, 0, 0⟩ := by
      simp only [State.batchAdd, ha, hs, hi]
    obtain ⟨hok, hcount, e, hcore⟩ := addSync_counts hn w (hecc r hs)
    rw [hadd]
    refine ⟨hok, ⟨fun h => (nomatch hs.symm.trans h), fun q hq => ?_⟩, e, s.core.xfer.openBatch, hcore⟩
    have hqr : q = r := Option.some.inj (hq.symm.trans hs)
    rw [hqr, hcore]
    exact ⟨hcount, rfl⟩

/-! ### What a landing leaves of its operation (R161, R178) -/

/-- The operation once its only block has landed whole. -/
def XOp.landedWhole (o : XOp) (b : Block) (cells : List (PAddr × Byte)) : XOp :=
  { o with blocks := [], done := o.done ++ [b], written := true, left := o.left || !cells.isEmpty }

/-- The operation is the engine's only one: being issued still, or issued. -/
theorem lone_cases {x : XferEngine} {o : XOp} (h : x.all = [o]) : (x.cur = some o ∧ x.ops = []) ∨ (x.cur = none ∧ x.ops = [o]) := by
  rw [XferEngine.all] at h
  cases hc : x.cur with
  | none =>
    rw [hc] at h
    exact .inr ⟨rfl, h⟩
  | some p =>
    rw [hc] at h
    obtain ⟨rfl, ht⟩ := List.cons.inj h
    exact .inl ⟨rfl, ht⟩

/-- A lone operation notes nothing over itself; the engines of other cores may note its bytes. -/
theorem noteLanded_lone {s : State} {o : XOp} {b : Block} {cells : List (PAddr × Byte)} (h : s.core.xfer.all = [o]) :
    ∃ p k, s.noteLanded o b cells = { s with others := p, crews := k } := by
  have hself : ∀ l t, o.noteOver s.core.id s.core.id o l t = o := fun l t => if_pos (.inr ⟨rfl, rfl⟩)
  have hops : ∀ l t, s.core.mapOps (fun x => x.noteOver s.core.id s.core.id o l t) = s.core := by
    intro l t
    have hsame : s.core.xfer.cur.map (fun x => x.noteOver s.core.id s.core.id o l t) = s.core.xfer.cur ∧
        s.core.xfer.ops.map (fun x => x.noteOver s.core.id s.core.id o l t) = s.core.xfer.ops := by
      rcases lone_cases h with ⟨hc, ho⟩ | ⟨hc, ho⟩
      · rw [hc, ho]
        exact ⟨congrArg some (hself l t), rfl⟩
      · rw [hc, ho]
        exact ⟨rfl, congrArg (· :: []) (hself l t)⟩
    rw [Core.mapOps, Core.updXfer, hsame.1, hsame.2]
  unfold State.noteLanded
  dsimp only
  rw [State.mapCores, hops]
  exact ⟨_, _, rfl⟩

/-- Settling an operation that has not failed changes the stream's engine, flags and draining bindings alone. -/
theorem settleOp_frame {s : State} {o : XOp} (hf : o.failed = none) :
    ∃ q x, s.settleOp o = { s with core := { s.core with seq := q, xfer := x } } ∧ q.g = s.core.seq.g ∧
      x.openBatch = s.core.xfer.openBatch := by
  rw [State.settleOp]
  split
  next =>
    rw [State.finishOp, hf]
    have hflags : ∃ q x, s.core.xferFlags o.inside o.mask = { s.core with seq := q, xfer := x } ∧ q.g = s.core.seq.g ∧
        x.openBatch = s.core.xfer.openBatch := by
      unfold Core.xferFlags
      split
      · exact ⟨_, _, rfl, rfl, rfl⟩
      · exact ⟨_, _, rfl, rfl, rfl⟩
    obtain ⟨q, x, he, hg, hb⟩ := hflags
    dsimp only [State.upd]
    rw [he]
    exact ⟨_, _, rfl, hg, hb⟩
  next =>
    split
    · exact ⟨_, _, rfl, rfl, rfl⟩
    · exact ⟨_, _, rfl, rfl, rfl⟩

/-- The last operation of an engine is gone once it has landed whole, and its batch with it where none is open (R178). -/
theorem settleOp_gone {s : State} {o p : XOp} (hf : o.failed = none) (hi : o.inside = false) (hb : o.blocks = []) (hissued : o.issued = true)
    (hid : o.id = p.id) (hc : s.core.xfer.cur = none) (ho : s.core.xfer.ops = [p]) :
    (s.settleOp o).core.xfer.all = [] ∧ (s.core.xfer.regions = [] → (s.settleOp o).core.xfer.batches = []) := by
  have hfilter : [p].filter (fun y => decide (y.id ≠ o.id)) = [] := by simp [hid]
  have hset : s.settleOp o = s.finishOp o := if_pos ⟨hissued, by rw [hb]; rfl⟩
  have hall : (s.settleOp o).core.xfer.all = [] := by
    rw [hset, State.finishOp, hf, hi]
    show s.core.xfer.cur.toList ++ s.core.xfer.ops.filter _ = []
    rw [hc, ho, hfilter]
    rfl
  refine ⟨hall, fun hr => ?_⟩
  rw [hset, State.finishOp, hf, hi]
  show s.core.xfer.batches.filter (fun b => (s.core.xfer.cur.toList ++ s.core.xfer.ops.filter _).any _ || s.core.xfer.regions.any _) = []
  rw [hc, ho, hfilter, hr]
  simp

/-! ### Where a block lands (R161, R169) -/

theorem putRows_frame (c : Core) (fuel row : Nat) (l : List Byte) : ∃ w wl, c.putRows fuel row l = { c with wb := w, wbLost := wl } := by
  induction fuel generalizing c row l with
  | zero => exact ⟨_, _, rfl⟩
  | succ fuel ih =>
    rw [Core.putRows]
    split
    · exact ⟨_, _, rfl⟩
    · dsimp only
      obtain ⟨w, wl, h⟩ := ih (if min 256 l.length < 256 then _ else _) (row + 1) (l.drop 256)
      rw [h]
      split <;> exact ⟨_, _, rfl⟩

theorem xferMark_outside (c : Core) (n : Nat) (f : Bool) : c.xferMark false n f = c.setFull n f := by
  unfold Core.xferMark
  split
  next h _ => cases h
  next => rfl

/-- Lines healed where p says so and marked full, outside a region. -/
theorem foldl_landXfer (c : Core) (p : Nat → Prop) [DecidablePred p] (l : List Nat) :
    ∃ y, l.foldl (fun c n => (if p n then c.healLine n else c).xferMark false n true) c =
      { c with tree := (l.foldl (fun c n => c.setFull n true) c).tree, treeLost := y } := by
  induction l generalizing c with
  | nil => exact ⟨c.treeLost, rfl⟩
  | cons n l ih =>
    obtain ⟨z, hz⟩ : ∃ z, (if p n then c.healLine n else c).xferMark false n true = { c.setFull n true with treeLost := z } := by
      rw [xferMark_outside]
      split <;> exact ⟨_, rfl⟩
    obtain ⟨y, hy⟩ := ih { c.setFull n true with treeLost := z }
    have htree := foldl_setFull_tree_congr (c := c.setFull n true) (d := { c.setFull n true with treeLost := z }) rfl l true
    rw [List.foldl_cons, List.foldl_cons, hz, hy]
    exact ⟨y, congrArg (fun t => ({ c with tree := t, treeLost := y } : Core)) htree⟩

theorem landTree_wbfill {o : XOp} {row : Nat} (hk : o.kind = .wbfill row) (c : Core) (b : Block) :
    c.landTree o b = c.putRows 32 (row + b.first / 256) b.bytes := by
  rw [Core.landTree, hk]

theorem landTree_mem {o : XOp} {d : Binding} {dof : Nat} (hk : o.kind.path = .xp) (hd : o.dst = .mem d dof) (c : Core) (b : Block) :
    c.landTree o b = c := by
  unfold Core.landTree
  rw [hd]
  cases ho : o.kind with
  | wbfill row => rw [ho] at hk; cases hk
  | _ => rfl

theorem landTree_tree {o : XOp} {line : Nat} {cw ww : Bool} (hk : o.kind.path = .xp) (hd : o.dst = .tree line cw ww) (hi : o.inside = false)
    (c : Core) (b : Block) : ∃ y, c.landTree o b = { c with
      tree := ((o.destLines b.first b.bytes.length).foldl (fun c n => c.setFull n true) (c.putEach (o.newBytes line ww b))).tree
      treeLost := y } := by
  have hland : c.landTree o b = (o.destLines b.first b.bytes.length).foldl
      (fun c n => (if ((o.newBytes line ww b).map (fun x => x.1 / 64)).count n = 64 then c.healLine n else c).xferMark o.inside n true)
      (c.putEach (o.newBytes line ww b)) := by
    unfold Core.landTree
    rw [hd]
    cases ho : o.kind with
    | wbfill row => rw [ho] at hk; cases hk
    | _ => rfl
  obtain ⟨t, hput⟩ := putEach_frame c (o.newBytes line ww b)
  obtain ⟨y, hy⟩ := foldl_landXfer (c.putEach (o.newBytes line ww b)) (fun n => ((o.newBytes line ww b).map (fun x => x.1 / 64)).count n = 64)
    (o.destLines b.first b.bytes.length)
  refine ⟨y, ?_⟩
  rw [hland, hi, hy, hput]

/-- Where the block's bytes land on the core, leaving its engine, its sequencer and its place. -/
def Core.LandsIn (c : Core) (o : XOp) (b : Block) (tree : List (Nat × Line)) (wb : List (Nat × BitVec 2048)) : Prop :=
  ∃ tl wl, c.landTree o b = { c with tree := tree, wb := wb, treeLost := tl, wbLost := wl }

/-- What a landing of cells leaves that is not the batch's: the tree, the weight buffer, the registers, and every byte of memory. -/
def State.landed (u : State) (cells : List (PAddr × Byte)) (tree : List (Nat × Line)) (wb : List (Nat × BitVec 2048)) (v : State) : Prop :=
  v.core.tree = tree ∧ v.core.wb = wb ∧ v.core.seq.g = u.core.seq.g ∧ v.core.xfer = u.core.xfer ∧ v.memWf = true ∧
    (∀ l : List PAddr, u.eccRead l = .ok → v.eccRead l = .ok) ∧ u.sameOutside v (cells.map Prod.fst) ∧
    ((cells.map Prod.fst).Nodup → ∀ c ∈ cells, v.readByte c.1 = c.2)

/-- The stream's effect is noted also where no byte of memory is written, and nothing else changes. -/
def State.noted (s : State) (o : XOp) (cells : List (PAddr × Byte)) : State :=
  let t := s.wrote .xfer (cells.map Prod.fst)
  if cells.isEmpty ∧ !o.inside then t.upd (fun c => c.touch .xfer t.now false) else t

theorem noted_frame (s : State) (o : XOp) (cells : List (PAddr × Byte)) :
    ∃ e, s.noted o cells = { s with core := { s.core with effects := e } } := by
  obtain ⟨e, he⟩ := wrote_frame s .xfer (cells.map Prod.fst)
  unfold State.noted
  dsimp only
  rw [he]
  split
  · exact ⟨_, rfl⟩
  · exact ⟨e, rfl⟩

/-- A landing in place retires a word of the stream. -/
def State.landRetired (s : State) (o : XOp) (now : Nat) : State :=
  s.updXfer (fun x => if o.inside then { x with eng := { x.eng with retired := now } } else x)

theorem landRetired_outside {o : XOp} (hi : o.inside = false) (s : State) (now : Nat) : s.landRetired o now = s :=
  updXfer_same (by rw [hi]; rfl)

section
variable {u : State} {o : XOp} {b : Block} {cells : List (PAddr × Byte)} {tree : List (Nat × Line)} {wb : List (Nat × BitVec 2048)}

theorem landed_frame {v : State} {e : Vector Effects 4} {p : List Core} {k : List Crew} {tl wl : List Nat} (hwf : u.memWf = true)
    (hv : v = { (u.heal cells).writeCells cells with
      core := { u.core with tree := tree, wb := wb, treeLost := tl, wbLost := wl, effects := e }, others := p, crews := k }) :
    u.landed cells tree wb v := by
  subst hv
  have hbyte : ∀ q : PAddr, q ∉ cells.map Prod.fst → ((u.heal cells).writeCells cells).readByte q = u.readByte q := fun q hq =>
    State.readByte_writeCells_other (s := u.heal cells) (fun c hc he => hq (he ▸ List.mem_map_of_mem hc)) hwf
  refine ⟨rfl, rfl, rfl, rfl, State.writeCells_wf (s := u.heal cells) hwf, fun l hl => ?_, hbyte,
    fun hn c hc => State.readByte_writeCells_same (s := u.heal cells) hn hwf hc⟩
  obtain ⟨x, y, z, hm⟩ := State.writeCells_frame cells (u.heal cells)
  rw [hm]
  exact eccRead_heal cells hl

/-- The whole of a block that is its operation's only one lands: the bytes, then what the batch counts, then the operation is settled. -/
theorem landOk_whole (hi : o.inside = false) (hall : u.core.xfer.all = [o]) (hb : o.blocks = [b]) (hc : b.consume = [])
    (hland : u.core.LandsIn o b tree wb) (hwf : u.memWf = true) : ∃ v, u.landed cells tree wb v ∧
    ((v.batchAdd (o.landedWhole b cells) (b.landed + b.bytes.length) 0 0).1 = true →
      ((u.heal cells).writeCells cells).landOk o b none cells =
        (v.batchAdd (o.landedWhole b cells) (b.landed + b.bytes.length) 0 0).2.settleOp (o.landedWhole b cells)) := by
  obtain ⟨tl, wl, hl⟩ := hland
  obtain ⟨x, y, z, hm⟩ := State.writeCells_frame cells (u.heal cells)
  have hcore : ((u.heal cells).writeCells cells).core = u.core := by rw [hm]; rfl
  obtain ⟨p, k, hn⟩ := noteLanded_lone (s := { (u.heal cells).writeCells cells with core := u.core.landTree o b }) (o := o) (b := b)
    (cells := cells) (by rw [hl]; exact hall)
  let v := (({ (u.heal cells).writeCells cells with core := u.core.landTree o b } : State).noteLanded o b cells).noted o cells
  obtain ⟨e, he⟩ := noted_frame (({ (u.heal cells).writeCells cells with core := u.core.landTree o b } : State).noteLanded o b cells) o cells
  refine ⟨v, landed_frame (e := e) (p := p) (k := k) (tl := tl) (wl := wl) hwf ?_, fun hadd => ?_⟩
  · exact he.trans (by rw [hn, hl])
  · have hop : { o with
        blocks := o.blocks.filterMap (fun x => if x.seq = b.seq then none else some x), done := o.done ++ [b], written := true
        left := o.left || !cells.isEmpty } = o.landedWhole b cells := by
      simp [XOp.landedWhole, hb]
    have hsteps : ((u.heal cells).writeCells cells).landOk o b none cells = match
        (v.landRetired o ((u.heal cells).writeCells cells).now).batchAdd (o.landedWhole b cells) (b.landed + b.bytes.length) 0 0 with
      | (true, t) => t.settleOp (o.landedWhole b cells)
      | (false, t) => t.failLanded (o.landedWhole b cells) codeDataLost := by
      unfold State.landOk
      rw [hcore, hc, hop]
      rfl
    rw [hsteps, landRetired_outside hi]
    rcases hq : v.batchAdd (o.landedWhole b cells) (b.landed + b.bytes.length) 0 0 with ⟨f, t⟩
    rw [hq] at hadd
    cases hadd
    rfl

end

/-! ### A block lands whole (R161, R178, R180, R182) -/

/-- The sync word that a landing counts in can be read and written, and no byte that lands is one of its bytes. -/
def State.syncApart (u : State) (a : Batch) (cells : List (PAddr × Byte)) : Prop :=
  ∀ r : SyncRef, a.sync = some r → u.eccRead (placesFrom r.pa 16) = .ok ∧ ∀ c ∈ cells, c.1 ∉ placesFrom r.pa 16

/-- What a block's landing leaves of its operation and its batch, and of every byte of memory that is not one of the cells. -/
def State.landCounted (u : State) (o : XOp) (a : Batch) (n : Nat) (t : State) (cells : List (PAddr × Byte)) : Prop :=
  (u.core.xfer.cur = none → o.issued = true → t.core.xfer.all = [] ∧ (u.core.xfer.regions = [] → t.core.xfer.batches = [])) ∧
  (a.sync = none → u.sameOutside t (cells.map Prod.fst) ∧ t.core.xfer.openBatch =
    u.core.xfer.openBatch.map (fun c => if c.id = o.batch then { c with landed := c.landed + n } else c)) ∧
  (∀ r : SyncRef, a.sync = some r →
    let target := u.readNat r.pa 4
    let count := (u.readNat (r.pa.plus 4) 4 + n) % 2 ^ 32
    let gen := u.readNat (r.pa.plus 8) 4
    u.sameOutside t (cells.map Prod.fst ++ placesFrom (r.pa.plus 4) 8) ∧ t.core.xfer.openBatch = u.core.xfer.openBatch ∧
    t.readNat (r.pa.plus 4) 4 = (if target = 0 then count else count % target) ∧
    t.readNat (r.pa.plus 8) 4 = (if target = 0 then gen else (gen + count / target) % 2 ^ 32))

/-- A sync word that no cell touches counts as it would have before they were written. -/
theorem syncCounted_apart {u v t : State} {pa : PAddr} {n : Nat} {cells : List (PAddr × Byte)} (hout : u.sameOutside v (cells.map Prod.fst))
    (hapart : ∀ c ∈ cells, c.1 ∉ placesFrom pa 16) (h : v.syncCounted pa n t) :
    let target := u.readNat pa 4
    let count := (u.readNat (pa.plus 4) 4 + n) % 2 ^ 32
    let gen := u.readNat (pa.plus 8) 4
    u.sameOutside t (cells.map Prod.fst ++ placesFrom (pa.plus 4) 8) ∧
      t.readNat (pa.plus 4) 4 = (if target = 0 then count else count % target) ∧
      t.readNat (pa.plus 8) 4 = (if target = 0 then gen else (gen + count / target) % 2 ^ 32) := by
  have hread : ∀ i, i + 4 ≤ 16 → v.readNat (pa.plus i) 4 = u.readNat (pa.plus i) 4 := by
    refine fun i hle => readNat_congr (fun q hq => hout q (fun hmem => ?_))
    obtain ⟨c, hc, rfl⟩ := List.mem_map.1 hmem
    obtain ⟨hs, hlow, hhigh⟩ := mem_placesFrom.1 hq
    simp only [PAddr.plus] at hs hlow hhigh
    exact hapart c hc (mem_placesFrom.2 ⟨hs, by omega, by omega⟩)
  have htarget : v.readNat pa 4 = u.readNat pa 4 := hread 0 (by omega)
  obtain ⟨hsame, hcount, hgen⟩ := h
  rw [htarget, hread 4 (by omega)] at hcount hgen
  rw [hread 8 (by omega)] at hgen
  exact ⟨fun p hp => (hsame p (fun h => hp (List.mem_append_right _ h))).trans (hout p (fun h => hp (List.mem_append_left _ h))), hcount, hgen⟩

section
variable {u : State} {o : XOp} {b : Block} {a : Batch} {cells : List (PAddr × Byte)} {tree : List (Nat × Line)} {wb : List (Nat × BitVec 2048)}
  (hall : u.core.xfer.all = [o]) (hb : o.blocks = [b]) (hf : o.failed = none) (hi : o.inside = false) (hc : b.consume = [])
  (ha : u.core.xfer.batch o.batch = some a) (hn : 0 < b.landed + b.bytes.length) (hwf : u.memWf = true)
include hall hb hf hi hc ha hn hwf

theorem landOk_counts (hland : u.core.LandsIn o b tree wb) (hapart : u.syncApart a cells) :
    let t := ((u.heal cells).writeCells cells).landOk o b none cells
    u.landCounted o a (b.landed + b.bytes.length) t cells ∧
      ((cells.map Prod.fst).Nodup → ∀ c ∈ cells, t.readByte c.1 = c.2) ∧
      t.core.tree = tree ∧ t.core.wb = wb ∧ t.core.seq.g = u.core.seq.g := by
  intro t
  obtain ⟨v, ⟨htree, hwb, hg, hxfer, hvwf, hecc, hout, hin⟩, hok⟩ := landOk_whole (cells := cells) hi hall hb hc hland hwf
  have hav : v.core.xfer.batch (o.landedWhole b cells).batch = some a := by rw [hxfer]; exact ha
  obtain ⟨htrue, hcount, e, ob, hcore⟩ := batchAdd_counts (o := o.landedWhole b cells) hi hav hn hvwf (fun r hr => hecc _ (hapart r hr).1)
  have ht : t = _ := hok htrue
  generalize (v.batchAdd (o.landedWhole b cells) (b.landed + b.bytes.length) 0 0).2 = w at hcount hcore ht
  obtain ⟨q, x, hset, hq, hx⟩ := settleOp_frame (s := w) (o := o.landedWhole b cells) hf
  have hbyte : ∀ p, t.readByte p = w.readByte p := fun p => by rw [ht, hset]; rfl
  have hopen : t.core.xfer.openBatch = w.core.xfer.openBatch := by rw [ht, hset]; exact hx
  obtain ⟨hnone, hsome⟩ := hcount
  have hmem : ∀ p, (∀ r : SyncRef, a.sync = some r → p ∉ placesFrom (r.pa.plus 4) 8) → t.readByte p = v.readByte p := by
    intro p hp
    rw [hbyte]
    cases hs : a.sync with
    | none => exact (hnone hs).1 p List.not_mem_nil
    | some r => exact (hsome r hs).1.1 p (hp r hs)
  refine ⟨⟨fun hcur hissued => ?_, fun hs => ?_, fun r hr => ?_⟩, fun hnd c hcm => ?_, ?_, ?_, ?_⟩
  · have hops : u.core.xfer.ops = [o] := by
      rcases lone_cases hall with ⟨hcur', -⟩ | ⟨-, hops⟩
      · exact nomatch hcur.symm.trans hcur'
      · exact hops
    have hgone := settleOp_gone (s := w) (o := o.landedWhole b cells) (p := o) hf hi rfl hissued rfl
      (by rw [hcore, hxfer]; exact hcur) (by rw [hcore, hxfer]; exact hops)
    have hregions : w.core.xfer.regions = u.core.xfer.regions := by rw [hcore, hxfer]
    rw [ht, ← hregions]
    exact hgone
  · refine ⟨fun p hp => (hmem p (fun r hr => nomatch hs.symm.trans hr)).trans (hout p hp), hopen.trans ((hnone hs).2.trans ?_)⟩
    rw [hxfer]
    rfl
  · obtain ⟨hcounted, hkept⟩ := hsome r hr
    obtain ⟨hsame, hcount, hgen⟩ := syncCounted_apart hout (hapart r hr).2 hcounted
    have hread : ∀ p, t.readNat p 4 = w.readNat p 4 := fun p => readNat_congr (fun q _ => hbyte q)
    exact ⟨fun p hp => (hbyte p).trans (hsame p hp), hopen.trans (hkept.trans (by rw [hxfer])), (hread _).trans hcount, (hread _).trans hgen⟩
  · refine (hmem c.1 (fun r hr hp => (hapart r hr).2 c hcm ?_)).trans (hin hnd c hcm)
    obtain ⟨hs, hlow, hhigh⟩ := mem_placesFrom.1 hp
    simp only [PAddr.plus] at hs hlow hhigh
    exact mem_placesFrom.2 ⟨hs, by omega, by omega⟩
  · have hkept : w.core.tree = v.core.tree := by rw [hcore]
    rw [ht, hset]
    exact hkept.trans htree
  · have hkept : w.core.wb = v.core.wb := by rw [hcore]
    rw [ht, hset]
    exact hkept.trans hwb
  · have hkept : w.core.seq.g = v.core.seq.g := by rw [hcore]
    rw [ht, hset]
    exact hq.trans (hkept.trans hg)

end

/-! ### The landing that is asked for (R160, R161) -/

theorem newCells_of_tree {o : XOp} (h : ∀ (d : Binding) (dof : Nat), o.dst ≠ .mem d dof) (b : Block) : o.newCells b = [] := by
  have hcells : o.cells b = [] := by
    unfold XOp.cells
    split
    next => rfl
    next d dof hd => exact absurd hd (h d dof)
  rw [XOp.newCells, hcells]
  rfl

theorem newCells_all {o : XOp} (h : o.later = []) (b : Block) : o.newCells b = o.cells b := by
  rw [XOp.newCells, h]
  exact List.filter_eq_self.2 (fun _ _ => rfl)

theorem castCells_nil (u : State) (o : XOp) : u.castCells o [] = [] := by
  unfold State.castCells
  split
  · exact List.flatMap_eq_nil_iff.2 (fun _ _ => rfl)
  · rfl

theorem castCells_plain {u : State} {o : XOp} (h : o.kind ≠ .mcast) (l : List (PAddr × Byte)) : u.castCells o l = l := by
  unfold State.castCells
  split
  next hk => exact absurd hk h
  next => rfl

theorem pieceWaits_mem {u : State} {o : XOp} {d : Binding} {dof : Nat} (hd : o.dst = .mem d dof) (p : Block) : u.pieceWaits o p = false := by
  have hline : u.core.fullLine o p.first p.bytes.length = none := by
    rw [Core.fullLine, hd]
    cases o.kind <;> rfl
  rw [State.pieceWaits, hline]
  rfl

theorem addHeld_xp {o : XOp} (h : o.kind.path = .xp) (c : Core) (b : Block) : c.addHeld o b = false := by
  rw [Core.addHeld, Core.addsLater, h]
  rfl

section
variable {u : State} {o : XOp} {b : Block} (hall : u.core.xfer.all = [o]) (hb : o.blocks = [b])
include hb

/-- A lone block is behind no other one. -/
theorem landable_lone (hk : o.kind.path ≠ .cp) : o.landable b.seq = true := by
  unfold XOp.landable
  split
  next ho => rw [ho] at hk; exact absurd rfl hk
  next => simp [hb]
  next => rfl

include hall

theorem landEvent_uncut {k : Option Nat} (hp : o.piece b k = none) : u.landEvent ⟨b.seq, k⟩ = u := by
  unfold State.landEvent
  simp [hall, hb, hp]

theorem landEvent_cut {k : Option Nat} {p : Block} {rest : Option Block} {t : State} (hp : o.piece b k = some (p, rest))
    (hk : o.kind.path ≠ .cp) (hw : u.pieceWaits o p = false) (hheld : rest = none → u.core.addHeld o p = false)
    (hne : rest ≠ none → p.bytes ≠ []) (hland : u.landPart o p rest = (.ok, t)) : u.landEvent ⟨b.seq, k⟩ = t := by
  have hleft : (if rest.isNone then u.core.restHeld o p else rest) = rest := by
    cases rest with
    | none => exact (if_pos rfl).trans (if_neg (by rw [hheld rfl]; exact Bool.false_ne_true))
    | some r => rfl
  have hgo : (rest.isSome && p.bytes.isEmpty) = false := by
    cases rest with
    | none => rfl
    | some r => simpa using hne (by simp)
  unfold State.landEvent
  simp only [hall, hb, List.find?_cons, List.any_cons, decide_true, Bool.true_or, Option.bind_some, hp, hleft, hw, hgo,
    landable_lone hb hk, hland, Bool.not_true, Bool.or_self, Bool.false_eq_true, if_false]

/-- A block lands whole, with the cells that are still its operation's to write. -/
theorem landEvent_whole {cells : List (PAddr × Byte)} (hk : o.kind.path ≠ .cp) (hw : u.pieceWaits o b = false)
    (hheld : u.core.addHeld o b = false) (hl : b.lost = false) (ht : b.badTag = false) (hcells : u.castCells o (o.newCells b) = cells)
    (hecc : u.eccWrite cells = .ok) : u.landEvent ⟨b.seq, none⟩ = ((u.heal cells).writeCells cells).landOk o b none cells := by
  refine landEvent_cut hall hb rfl hk hw (fun _ => hheld) (fun h => absurd rfl h) ?_
  rw [State.landPart, hl, ht]
  simp only [hcells, store_ok hecc, Bool.false_eq_true, if_false]

/-! ### Parts of a block (R160) -/

/-- The operation once a part of its only block has landed. -/
def XOp.landedPart (o : XOp) (p rest : Block) (cells : List (PAddr × Byte)) : XOp :=
  { o with blocks := [rest], done := o.done ++ [p], written := true, left := o.left || !cells.isEmpty }

/-- A part of a block to memory lands by itself, and its operation keeps the rest. -/
theorem landOk_part {d : Binding} {dof : Nat} {p rest : Block} {cells : List (PAddr × Byte)} (hk : o.kind.path = .xp) (hd : o.dst = .mem d dof)
    (hi : o.inside = false) (hp : p.seq = b.seq) (hcur : u.core.xfer.cur = none) (hops : u.core.xfer.ops = [o]) (hwf : u.memWf = true) :
    ∃ v, u.landed cells u.core.tree u.core.wb v ∧ ((u.heal cells).writeCells cells).landOk o p (some rest) cells =
      v.updXfer (fun x => { x with ops := [o.landedPart p rest cells] }) := by
  obtain ⟨x, y, z, hm⟩ := State.writeCells_frame cells (u.heal cells)
  have hcore : ((u.heal cells).writeCells cells).core = u.core := by rw [hm]; rfl
  obtain ⟨f, k, hn⟩ := noteLanded_lone (s := { (u.heal cells).writeCells cells with core := u.core }) (o := o) (b := p) (cells := cells) hall
  let v := (({ (u.heal cells).writeCells cells with core := u.core } : State).noteLanded o p cells).noted o cells
  obtain ⟨e, he⟩ := noted_frame (({ (u.heal cells).writeCells cells with core := u.core } : State).noteLanded o p cells) o cells
  have hv : v = { (u.heal cells).writeCells cells with
      core := { u.core with tree := u.core.tree, wb := u.core.wb, treeLost := u.core.treeLost, wbLost := u.core.wbLost, effects := e }
      others := f, crews := k } := he.trans (by rw [hn])
  refine ⟨v, landed_frame hwf hv, ?_⟩
  have hop : { o with
      blocks := o.blocks.filterMap (fun x => if x.seq = p.seq then some rest else some x), done := o.done ++ [p], written := true
      left := o.left || !cells.isEmpty } = o.landedPart p rest cells := by
    simp [XOp.landedPart, hb, hp]
  have hsteps : ((u.heal cells).writeCells cells).landOk o p (some rest) cells =
      (v.landRetired o ((u.heal cells).writeCells cells).now).settleOp (o.landedPart p rest cells) := by
    unfold State.landOk
    rw [hcore, hop, landTree_mem hk hd]
    rfl
  have hvcur : v.core.xfer.cur = none := by rw [hv]; exact hcur
  have hvops : v.core.xfer.ops = [o] := by rw [hv]; exact hops
  rw [hsteps, landRetired_outside hi, settleOp_blocks (by simp [XOp.landedPart]) hvcur]
  simp only [State.updXfer, State.upd, Core.updXfer, hvops]
  simp [XOp.landedPart]

end

/-! ### Bytes of the weight buffer (R169) -/

theorem natOfBytes_byte (l : List Byte) (j : Nat) (h : j < l.length) : natOfBytes l / 2 ^ (8 * j) % 2 ^ 8 = (l.getD j 0).toNat := by
  rw [← natOfBytes_drop l (Nat.le_of_lt h), List.drop_eq_getElem_cons h, natOfBytes, List.getD_eq_getElem _ _ h]
  have hb := (l[j]).isLt
  omega

theorem replaceLow_byte (d x m j : Nat) : (d / 2 ^ (8 * m) * 2 ^ (8 * m) + x % 2 ^ (8 * m)) / 2 ^ (8 * j) % 2 ^ 8 =
    if j < m then x / 2 ^ (8 * j) % 2 ^ 8 else d / 2 ^ (8 * j) % 2 ^ 8 := by
  refine Nat.eq_of_testBit_eq (fun i => ?_)
  simp only [Nat.testBit_mod_two_pow, Nat.testBit_div_two_pow, replaceLow_testBit]
  by_cases hj : j < m
  · rw [if_pos hj, Nat.testBit_mod_two_pow, Nat.testBit_div_two_pow]
    by_cases hi : i < 8
    · rw [if_pos (by omega)]
    · simp [hi]
  · rw [if_neg hj, Nat.testBit_mod_two_pow, Nat.testBit_div_two_pow, if_neg (by omega)]

/-- A row whose low bytes are replaced by the first 256 of a string. -/
theorem mergeRow_byte (old : BitVec 2048) (l : List Byte) {j : Nat} (hj : j < 256) :
    (BitVec.ofNat 2048 (old.toNat / 2 ^ (8 * min 256 l.length) * 2 ^ (8 * min 256 l.length) + natOfBytes (l.take 256))).toNat / 2 ^ (8 * j) %
      2 ^ 8 = if j < l.length then (l.getD j 0).toNat else old.toNat / 2 ^ (8 * j) % 2 ^ 8 := by
  have hlt := natOfBytes_lt (l.take 256)
  rw [List.length_take] at hlt
  rw [← Nat.mod_eq_of_lt hlt, replaceLow_toNat _ (by omega), replaceLow_byte]
  by_cases hjl : j < l.length
  · rw [if_pos (by omega), if_pos hjl, natOfBytes_byte _ _ (by rw [List.length_take]; omega)]
    simp [List.getD, hj]
  · rw [if_neg (by omega), if_neg hjl]

theorem wbByte_row (c : Core) (r q : Nat) : c.wbByte r q = c.wbByte 0 (256 * r + q) := by
  have hrow : 0 + (256 * r + q) / 256 = r + q / 256 := by omega
  have hbyte : (256 * r + q) % 256 = q % 256 := by omega
  rw [Core.wbByte, Core.wbByte, hrow, hbyte]

theorem wbByte_setWbRow {c : Core} (w : sparseWf 0 0 c.wb = true) (row : Nat) (v : BitVec 2048) (q : Nat) : (c.setWbRow row v).wbByte 0 q =
    if q / 256 = row then v.toNat / 2 ^ (8 * (q % 256)) % 2 ^ 8 else c.wbByte 0 q := by
  rw [Core.wbByte, Core.wbByte, Core.wbRow, Core.wbRow, Core.setWbRow, Nat.zero_add]
  by_cases h : q / 256 = row
  · rw [if_pos h, h]
    dsimp only
    rw [sparseGet_set_same w]
    rfl
  · rw [if_neg h]
    dsimp only
    rw [sparseGet_set_other h w]

/-- The bytes of a string fill the rows from the first on, and every other byte stays as it is. -/
theorem wbByte_putRows (fuel : Nat) {c : Core} (w : sparseWf 0 0 c.wb = true) (row : Nat) (l : List Byte) (hl : l.length ≤ 256 * fuel) (q : Nat) :
    (c.putRows fuel row l).wbByte 0 q =
      if 256 * row ≤ q ∧ q < 256 * row + l.length then (l.getD (q - 256 * row) 0).toNat else c.wbByte 0 q := by
  induction fuel generalizing c row l with
  | zero => rw [if_neg (by omega)]; rfl
  | succ fuel ih =>
    rw [Core.putRows]
    by_cases he : l = []
    · rw [if_pos (by simp [he]), if_neg (by simp [he])]
    · rw [if_neg (by simpa using he)]
      dsimp only
      set v : BitVec 2048 := BitVec.ofNat 2048 _ with hv
      have hrows : ∀ e : Core, e.wb = (c.setWbRow row v).wb → (e.putRows fuel (row + 1) (l.drop 256)).wbByte 0 q =
          if 256 * row ≤ q ∧ q < 256 * row + l.length then (l.getD (q - 256 * row) 0).toNat else c.wbByte 0 q := by
        intro e hewb
        have hbyte : e.wbByte 0 q = (c.setWbRow row v).wbByte 0 q := by rw [Core.wbByte, Core.wbByte, Core.wbRow, Core.wbRow, hewb]
        rw [ih (hewb ▸ sparseSet_wf (Nat.zero_le row) w) _ _ (by rw [List.length_drop]; omega), List.length_drop, hbyte, wbByte_setWbRow w]
        by_cases hrow : q / 256 = row
        · rw [if_neg (by omega), if_pos hrow, hv, mergeRow_byte _ _ (by omega)]
          have hq : q - 256 * row = q % 256 := by omega
          by_cases hin : q % 256 < l.length
          · rw [if_pos hin, if_pos (by omega), hq]
          · rw [if_neg hin, if_neg (by omega), Core.wbByte, Nat.zero_add, hrow]
            rfl
        · rw [if_neg hrow]
          by_cases hin : 256 * row ≤ q ∧ q < 256 * row + l.length
          · have hq : 256 + (q - 256 * (row + 1)) = q - 256 * row := by omega
            rw [if_pos hin, if_pos (by omega), List.getD_eq_getElem?_getD, List.getElem?_drop, hq, List.getD_eq_getElem?_getD]
          · rw [if_neg hin, if_neg (by omega)]
      split
      · exact hrows _ rfl
      · exact hrows _ rfl

/-! ### A block's bytes in the tree (R161) -/

section
variable {o : XOp} {line : Nat} {cw ww : Bool} {b : Block}

theorem newBytes_all (h : o.laterTree = []) : o.newBytes line ww b = o.treeBytes line b := by
  rw [XOp.newBytes, h]
  cases ww <;> simp

/-- The block's byte of number i goes to the place that its operation gives it. -/
theorem mem_treeBytes {i : Nat} (hi : i < b.bytes.length) : (64 * line + o.byteTo (b.first + i), b.bytes.getD i 0) ∈ o.treeBytes line b := by
  refine List.mem_map.2 ⟨(b.bytes.getD i 0, i), List.mem_zipIdx_iff_getElem?.2 ?_, rfl⟩
  rw [List.getElem?_eq_getElem hi, List.getD_eq_getElem _ _ hi]

theorem treeBytes_places : (o.treeBytes line b).map Prod.fst = (List.range b.bytes.length).map (fun i => 64 * line + o.byteTo (b.first + i)) := by
  have hindex : b.bytes.zipIdx.map Prod.snd = List.range b.bytes.length := by
    rw [List.zipIdx_map_snd, List.range_eq_range']
  rw [← hindex, List.map_map, XOp.treeBytes, List.map_map]
  rfl

theorem treeBytes_nodup (h : ((List.range b.bytes.length).map (fun i => o.byteTo (b.first + i))).Nodup) :
    ((o.treeBytes line b).map Prod.fst).Nodup := by
  rw [treeBytes_places]
  have := h.map (f := fun x => 64 * line + x) (fun x y hxy => by simpa using hxy)
  rwa [List.map_map] at this

theorem mem_destLines (hk : o.kind.path = .xp) (hd : o.dst = .tree line cw ww) {i : Nat} (hi : i < b.bytes.length) :
    line + o.byteTo (b.first + i) / 64 ∈ o.destLines b.first b.bytes.length := by
  have hlines : o.destLines b.first b.bytes.length =
      dedup ((rangeFrom b.first b.bytes.length).map (fun i => line + o.byteTo i / 64)) := by
    unfold XOp.destLines
    rw [hd]
    cases ho : o.kind with
    | wbfill row => rw [ho] at hk; cases hk
    | _ => rfl
  rw [hlines, mem_dedup]
  refine List.mem_map.2 ⟨b.first + i, ?_, rfl⟩
  rw [mem_rangeFrom]
  omega

variable {u : State} {a : Batch} (hall : u.core.xfer.all = [o]) (hb : o.blocks = [b]) (hl : b.lost = false) (ht : b.badTag = false)
  (hf : o.failed = none) (hi : o.inside = false) (hc : b.consume = []) (ha : u.core.xfer.batch o.batch = some a)
  (hn : 0 < b.landed + b.bytes.length) (hwf : u.memWf = true)
include hall hb hl ht hf hi hc ha hn hwf

theorem landEvent_mem {d : Binding} {dof : Nat} (hk : o.kind.path = .xp) (hcast : o.kind ≠ .mcast) (hd : o.dst = .mem d dof)
    (hecc : u.eccWrite (o.newCells b) = .ok) (hapart : u.syncApart a (o.newCells b)) :
    let cells := o.newCells b
    let t := u.landEvent ⟨b.seq, none⟩
    u.landCounted o a (b.landed + b.bytes.length) t cells ∧ ((cells.map Prod.fst).Nodup → ∀ c ∈ cells, t.readByte c.1 = c.2) ∧
      t.core.tree = u.core.tree ∧ t.core.wb = u.core.wb ∧ t.core.seq.g = u.core.seq.g := by
  intro cells t
  have hland : u.core.LandsIn o b u.core.tree u.core.wb := ⟨u.core.treeLost, u.core.wbLost, landTree_mem hk hd _ _⟩
  have hevent : t = _ := landEvent_whole hall hb (by rw [hk]; exact fun h => nomatch h) (pieceWaits_mem hd b) (addHeld_xp hk _ b) hl ht
    (castCells_plain hcast _) hecc
  rw [hevent]
  exact landOk_counts hall hb hf hi hc ha hn hwf hland hapart

/-- A block with no byte of memory lands on the core. -/
theorem landEvent_inside {tree : List (Nat × Line)} {wb : List (Nat × BitVec 2048)} (hk : o.kind.path ≠ .cp)
    (hd : ∀ (d : Binding) (dof : Nat), o.dst ≠ .mem d dof) (hw : u.pieceWaits o b = false) (hheld : u.core.addHeld o b = false)
    (hapart : u.syncApart a []) (hland : u.core.LandsIn o b tree wb) :
    let t := u.landEvent ⟨b.seq, none⟩
    u.landCounted o a (b.landed + b.bytes.length) t [] ∧ t.core.tree = tree ∧ t.core.wb = wb := by
  intro t
  have hevent : t = _ := landEvent_whole hall hb hk hw hheld hl ht (cells := []) (by rw [newCells_of_tree hd, castCells_nil]) rfl
  obtain ⟨hcount, -, htree, hwb, -⟩ := landOk_counts hall hb hf hi hc ha hn hwf hland hapart
  rw [hevent]
  exact ⟨hcount, htree, hwb⟩

theorem landEvent_tree (hk : o.kind.path = .xp) (hd : o.dst = .tree line cw ww) (hw : u.pieceWaits o b = false) (hapart : u.syncApart a [])
    (htwf : u.core.TreeWf) (hplaces : ((List.range b.bytes.length).map (fun i => o.byteTo (b.first + i))).Nodup) :
    let new := o.newBytes line ww b
    let t := u.landEvent ⟨b.seq, none⟩
    u.landCounted o a (b.landed + b.bytes.length) t [] ∧ t.core.wb = u.core.wb ∧
      ((new.map Prod.fst).Nodup → ∀ y ∈ new, t.core.treeByte y.1 = y.2) ∧
      (∀ q : Nat, q ∉ new.map Prod.fst → t.core.treeByte q = u.core.treeByte q) ∧
      (∀ i : Nat, i < b.bytes.length → (t.core.line (line + o.byteTo (b.first + i) / 64)).full = true) ∧
      (o.laterTree = [] → ∀ i : Nat, i < b.bytes.length →
        t.core.treeByte (64 * line + o.byteTo (b.first + i)) = b.bytes.getD i 0) := by
  intro new t
  obtain ⟨y, hy⟩ := landTree_tree hk hd hi u.core b
  have hland : u.core.LandsIn o b _ u.core.wb := ⟨y, u.core.wbLost, hy⟩
  obtain ⟨hcount, htree, hwb⟩ := landEvent_inside hall hb hl ht hf hi hc ha hn hwf (by rw [hk]; exact fun h => nomatch h)
    (fun d dof h => nomatch hd.symm.trans h) hw (addHeld_xp hk _ b) hapart hland
  have hput : (u.core.putEach new).TreeWf := treeWf_putEach htwf new
  have hbyte : ∀ q, t.core.treeByte q = (u.core.putEach new).treeByte q := fun q =>
    (treeByte_congr htree q).trans (foldl_setFull_treeByte hput _ _ q)
  have hmem : (new.map Prod.fst).Nodup → ∀ y ∈ new, t.core.treeByte y.1 = y.2 := fun hnd y hy =>
    (hbyte y.1).trans (treeByte_putEach_mem htwf hnd y hy)
  refine ⟨hcount, hwb, hmem, fun q hq => (hbyte q).trans (treeByte_putEach_other htwf hq), fun i hib => ?_, fun hlater i hib => ?_⟩
  · rw [line_congr htree, foldl_setFull_line hput, if_pos (mem_destLines hk hd hib)]
  · have hnew : new = o.treeBytes line b := newBytes_all hlater
    have hplace : (64 * line + o.byteTo (b.first + i), b.bytes.getD i 0) ∈ new := by
      rw [hnew]
      exact mem_treeBytes hib
    have hnd : (new.map Prod.fst).Nodup := by
      rw [hnew]
      exact treeBytes_nodup hplaces
    exact hmem hnd _ hplace

theorem landEvent_wbfill {row : Nat} (hk : o.kind = .wbfill row) (hd : ∀ (d : Binding) (dof : Nat), o.dst ≠ .mem d dof)
    (hw : u.pieceWaits o b = false) (hheld : u.core.addHeld o b = false) (hapart : u.syncApart a []) (hwb : sparseWf 0 0 u.core.wb = true)
    (hfirst : b.first % 256 = 0) (hlen : b.bytes.length ≤ 4096) :
    let t := u.landEvent ⟨b.seq, none⟩
    u.landCounted o a (b.landed + b.bytes.length) t [] ∧ t.core.tree = u.core.tree ∧
      (∀ i : Nat, i < b.bytes.length → t.core.wbByte (row + b.first / 256) i = (b.bytes.getD i 0).toNat) ∧
      (∀ q : Nat, q < 256 * row + b.first ∨ 256 * row + b.first + b.bytes.length ≤ q → t.core.wbByte 0 q = u.core.wbByte 0 q) := by
  intro t
  obtain ⟨w, wl, hrows⟩ := putRows_frame u.core 32 (row + b.first / 256) b.bytes
  have hland : u.core.LandsIn o b u.core.tree w := ⟨u.core.treeLost, wl, (landTree_wbfill hk _ _).trans hrows⟩
  obtain ⟨hcount, htree, hwb'⟩ := landEvent_inside hall hb hl ht hf hi hc ha hn hwf (by rw [hk]; exact fun h => nomatch h) hd hw hheld
    hapart hland
  have hbyte : ∀ q, t.core.wbByte 0 q = if 256 * (row + b.first / 256) ≤ q ∧ q < 256 * (row + b.first / 256) + b.bytes.length then
      (b.bytes.getD (q - 256 * (row + b.first / 256)) 0).toNat else u.core.wbByte 0 q := by
    intro q
    rw [← wbByte_putRows 32 hwb _ _ (by omega), hrows, Core.wbByte, Core.wbByte, Core.wbRow, Core.wbRow, hwb']
  refine ⟨hcount, htree, fun i hib => ?_, fun q hq => ?_⟩
  · rw [wbByte_row, hbyte, if_pos (by omega), Nat.add_sub_cancel_left]
  · rw [hbyte, if_neg (by omega)]

end

/-- A part of a block has the number and the marks of the block. -/
theorem piece_part {o : XOp} {b p rest : Block} {k : Nat} (h : o.piece b (some k) = some (p, some rest)) :
    p.seq = b.seq ∧ p.lost = b.lost ∧ p.badTag = b.badTag ∧ p.bytes ≠ [] := by
  rw [XOp.piece] at h
  split at h
  next hk =>
    obtain ⟨hpos, hle, -⟩ := hk
    cases h
    refine ⟨rfl, rfl, rfl, List.ne_nil_of_length_pos ?_⟩
    show 0 < (b.bytes.take k).length
    rw [List.length_take]
    omega
  next => cases h

theorem landEvent_part {u : State} {o : XOp} {b : Block} {d : Binding} {dof k : Nat} {p rest : Block} (hcur : u.core.xfer.cur = none)
    (hops : u.core.xfer.ops = [o]) (hb : o.blocks = [b]) (hl : b.lost = false) (ht : b.badTag = false) (hi : o.inside = false)
    (hwf : u.memWf = true) (hk : o.kind.path = .xp) (hcast : o.kind ≠ .mcast) (hd : o.dst = .mem d dof)
    (hp : o.piece b (some k) = some (p, some rest)) (hnd : ((o.newCells p).map Prod.fst).Nodup) (hecc : u.eccWrite (o.newCells p) = .ok) :
    let cells := o.newCells p
    let t := u.landEvent ⟨b.seq, some k⟩
    u.sameOutside t (cells.map Prod.fst) ∧ (∀ c ∈ cells, t.readByte c.1 = c.2) ∧ t.core.tree = u.core.tree ∧ t.core.seq.g = u.core.seq.g ∧
      t.core.xfer = { u.core.xfer with ops := [o.landedPart p rest cells] } := by
  intro cells t
  have hall : u.core.xfer.all = [o] := by rw [XferEngine.all, hcur, hops]; rfl
  obtain ⟨hseq, hpl, hpt, hne⟩ := piece_part hp
  obtain ⟨v, ⟨htree, -, hg, hxfer, -, -, hout, hin⟩, hv⟩ := landOk_part (cells := cells) (rest := rest) hall hb hk hd hi hseq hcur hops hwf
  have hland : u.landPart o p (some rest) = (.ok, ((u.heal cells).writeCells cells).landOk o p (some rest) cells) := by
    rw [State.landPart, hpl, hpt, hl, ht, castCells_plain hcast]
    simp only [store_ok hecc, Bool.false_eq_true, if_false]
    rfl
  have hevent : t = _ := landEvent_cut hall hb hp (by rw [hk]; exact fun h => nomatch h) (pieceWaits_mem hd p) (fun h => nomatch h)
    (fun _ => hne) hland
  rw [hevent, hv]
  exact ⟨hout, hin hnd, htree, hg, congrArg (fun x : XferEngine => { x with ops := [o.landedPart p rest cells] }) hxfer⟩

/-! ### The obligation -/

/-- Settles O36: the hand-over of a block, its landings, and the bytes of each kind of operation. -/
theorem transferBlocksMoveBytes : Obligations.TransferBlocksMoveBytes := by
  unfold Obligations.TransferBlocksMoveBytes
  refine ⟨fun s core num o hlive => ?_, fun s o a n => ⟨fun st dt b off hk hs ht => ?_, fun hk => ?_, fun b off i p hs hp => ?_⟩,
    fun o i => ⟨blockSize_plain, ?_, ?_, ?_, ?_, ?_, ?_⟩, reflect_clampIn⟩
  · intro u x
    have issue : exec (.transferBlockIssue core) s = .next u.blockEvent := congrArg Host.Outcome.next (onCore_live hlive)
    have land : ∀ k, exec (.transferBlockLand core ⟨num, k⟩) s = .next (u.landEvent ⟨num, k⟩) :=
      fun k => congrArg Host.Outcome.next (onCore_live hlive)
    have hseat : u.core.seat.isSome = true := by
      rw [focus_core]
      exact seat_of_live hlive
    refine ⟨fun b off d dof hcur hk hp hsrc hdst hun hi hf ht hmore hrun hstop heng hnew hair hb => ?_,
      fun b a hall hb hnum hl htag hf hi hc ha hn hwf hw => ?_⟩
    · intro n r o1 hecc
      exact ⟨_, issue, blockEvent_memory ⟨hk, hsrc, hdst⟩ hp hcur hun hi ht hseat hrun hstop heng hnew hair hb rfl hecc⟩
    · intro n apart counted
      subst hnum
      refine ⟨fun d dof hk hcast hd => ⟨?_, fun k p rest hp => ?_,
          fun k hp => (land _).trans (congrArg Host.Outcome.next (landEvent_uncut hall hb hp))⟩,
        fun line cw ww hk hd hapart htwf hplaces => ?_, fun row hk hapart hwb hfirst hlen hd hheld => ?_⟩
      · intro cells hecc hapart
        obtain ⟨hcount, hin, htree, hwb, hg⟩ := landEvent_mem hall hb hl htag hf hi hc ha hn hwf hk hcast hd hecc hapart
        exact ⟨_, land _, hcount, hin, fun h => newCells_all h b, htree, hwb, hg⟩
      · intro cells hnd hecc hcur hops
        obtain ⟨hout, hin, htree, hg, hx⟩ := landEvent_part hcur hops hb hl htag hi hwf hk hcast hd hp hnd hecc
        refine ⟨_, land _, hout, hin, htree, hg, ?_, ?_, o.landedPart p rest cells, ?_, rfl, rfl, hf⟩
        · rw [hx]
        · rw [hx]
        · rw [hx, XferEngine.all, hcur]
          rfl
      · intro new
        exact ⟨_, land _, landEvent_tree hall hb hl htag hf hi hc ha hn hwf hk hd hw hapart htwf hplaces⟩
      · exact ⟨_, land _, landEvent_wbfill hall hb hl htag hf hi hc ha hn hwf hk hd hw hheld hapart hwb hfirst hlen⟩
  · intro byteAt elem l
    have hbyte : s.sourceByte o = byteAt := funext fun i => by
      rw [sourceByte_untaken hs ht]
      simp only [byteAt]
      cases b.place (off + i) <;> rfl
    refine ⟨?_, needs_conv hk a n⟩
    rw [outputBytes_conv hk]
    simp only [State.sourceNat, hbyte]
    rfl
  · rw [outputBytes_plain hk]
    refine congrArg (fun l => (l, (0 : BitVec 5))) (List.map_congr_left (fun i _ => ?_))
    cases o.byteFrom i <;> rfl
  · exact ⟨sourceByte_placed hs hp, fun d => sourceByte_taken hs hp⟩
  · intro rows rb sp dp hk hrows
    have hne : rows ≠ 0 := by omega
    simp [XOp.byteFrom, XOp.byteTo, hk, hne]
  · intro hk
    simp [XOp.byteFrom, XOp.byteTo, hk]
  · intro v hk
    simp [XOp.byteFrom, XOp.byteTo, hk, fill_byte]
  · intro e idx hk
    simp [XOp.byteFrom, XOp.byteTo, hk]
  · intro e idx hk
    simp [XOp.byteFrom, XOp.byteTo, XOp.blockSize, hk]
  · intro w t sp dp p0 hk hch hww hwh
    have hfrom := byteFrom_unfold i hk
    obtain ⟨hin, hzero, hconst, hreflect, hclamp⟩ := hfrom
    exact ⟨hin, hzero, hconst, hreflect, hclamp, byteTo_unfold i hk⟩

end Sys2Proof.Machine
end

section
/-!
PROOFS. Words of the range coder that the tests of R29 let go on write every lane back (R189 to R202): O30.
-/
namespace Sys2Proof.Machine

/-! ### Lanes, sources and runs of a coder word -/

/-- Lane i of the coder operand at these places. -/
def State.coderLane (s : State) (pc : List Placed) (i : Nat) : CLane :=
  (s.core.coderLanes pc s.core.vec.shape.lanes).getD i (CLane.ofWords [])

/-- The values that lane i has in a source of kind vec, one for each index. -/
def State.sourceLane (s : State) (l : List Placed) (i : Nat) : List Nat :=
  l.map (fun p => (s.core.lanes p.line 4 s.core.vec.shape.lanes).getD i 0)

/-- The active lanes with their runs. -/
def State.coderRuns (s : State) (g : Nat → CRun) : List (Nat × CRun) :=
  ((List.range s.core.vec.shape.lanes).filter s.core.vec.active).map (fun i => (i, g i))

/-- No byte that a run reads or puts is of a binding under revocation (R91). -/
def State.coderCalm (s : State) (g : Nat → CRun) : Prop :=
  ∀ r ∈ s.coderRuns g, ∀ x ∈ r.2.binds s.core, ∀ y : Binding, x = some y → y.revoking = false

/-- The word retires with what the runs g come to, once no test, binding or stream byte holds it back (R189). -/
def State.coderGives (s : State) (pc : List Placed) (i : Instr) (srcs : List VSrc) (pd : List Placed) (g : Nat → CRun)
    (post : Core → Core) : Prop :=
  ∀ o : VOut, s.coderCalm g →
    s.coderOutcome pc (s.core.coderLanes pc s.core.vec.shape.lanes) (s.coderRuns g) pd post = .ok o →
    s.vecOpen srcs (pc ++ pd) → exec i s = .next (s.vecRetired srcs o)

section
variable {s : State} {pc : List Placed}

/-- The runs that the frame of a coder word makes of its sources' columns are those of the lanes one by one. -/
theorem coderRuns_of_columns {ps : List (List Placed)} {f : Nat → List (List Nat) → CLane → CRun} {g : Nat → CRun}
    (hg : ∀ i, f i (ps.map (fun l => s.sourceLane l i)) (s.coderLane pc i) = g i) :
    ((List.range s.core.vec.shape.lanes).filter s.core.vec.active).map (fun i =>
      (i, f i ((ps.map (fun l => l.map (fun p => s.core.lanes p.line 4 s.core.vec.shape.lanes))).map (fun l =>
        l.map (fun col => col.getD i 0))) ((s.core.coderLanes pc s.core.vec.shape.lanes).getD i (CLane.ofWords [])))) = s.coderRuns g := by
  refine List.map_congr_left (fun i _ => ?_)
  simp only [← hg, State.sourceLane, State.coderLane, List.map_map, Function.comp_def]

/-- A word none of whose bindings is under revocation does not wait for an unmap; p tells whether a byte's binding is. -/
theorem coderCalm_any {g : Nat → CRun} (h : s.coderCalm g) {p : Option Binding → Bool} (hnone : p none = false)
    (hsome : ∀ y, p (some y) = y.revoking) : ¬ (s.coderRuns g).any (fun r => (r.2.binds s.core).any p) = true := by
  intro hany
  obtain ⟨r, hr, hbinds⟩ := List.any_eq_true.1 hany
  obtain ⟨x, hx, hp⟩ := List.any_eq_true.1 hbinds
  cases x with
  | none => simp [hnone] at hp
  | some y => simp [hsome, h r hr _ hx y rfl] at hp

/-! ### The frame of a coder word that goes on (R189) -/

theorem coderWord_retires {i : Instr} {c : TreeOp} {init : Option (Hnd × Bool)} {use : CoderUse} {l : List (TreeOp × Nat × Bool)}
    {dst : Option TreeOp} {f : Nat → List (List Nat) → CLane → CRun} {post : List (Nat × CRun) → Core → Core} {pd : List Placed}
    {ps : List (List Placed)} {g : Nat → CRun} (hi : exec i s = s.coderWord c init use l dst f post)
    (hok : tyWord s.core.vec.shape.ty = true) (hc : s.core.placeMany s.core.vec.eng.k c 6 s.core.vec.span [kindCoder] = some pc)
    (hs : l.mapM (fun x => s.core.placeMany s.core.vec.eng.k x.1 x.2.1 s.core.vec.span [kindVec]) = some ps)
    (hd : dst.toList.mapM (fun d => s.core.place s.core.vec.eng.k d s.core.vec.span [kindVec]) = some pd)
    (hh : s.core.holdsNew .vp = false) (hv : s.core.vec.vp = []) (hinit : ∀ k, s.coderHandle init k = k)
    (hg : ∀ i, f i (ps.map (fun l => s.sourceLane l i)) (s.coderLane pc i) = g i) :
    s.coderGives pc i (srcsOf true pc ++ (ps.zip l).flatMap (fun x => srcsOf x.2.2.2 x.1)) pd g (post (s.coderRuns g)) := by
  intro o hcalm ho hopen
  rw [hi, ← vecRun_ok hopen, ← ho]
  refine congrArg (fun r => Host.Outcome.next (s.issueVec r)) ?_
  have htest := vecTest_of_vecOpen hopen
  simp only [srcsOf] at htest
  simp only [State.ty, hok, Bool.not_true, Bool.false_eq_true, if_false, hc, hs, hd, hinit, coderHold_none hh hv, htest,
    coderRuns_of_columns hg]
  exact if_neg (coderCalm_any hcalm rfl (fun _ => rfl))

theorem noPost_eq (l : List (Nat × CRun)) : noPost l = id := rfl

/-! ### The words by their operands -/

section
variable {c a b : TreeOp} {wa wb : Bool} (hok : tyWord s.core.vec.shape.ty = true)
  (hc : s.core.placeMany s.core.vec.eng.k c 6 s.core.vec.span [kindCoder] = some pc) (hh : s.core.holdsNew .vp = false)
  (hv : s.core.vec.vp = [])
include hok hc hh hv

/-- A coder word without further operands. -/
theorem coderGives_alone {i : Instr} {init : Option (Hnd × Bool)} {use : CoderUse} {f : Nat → CLane → CRun}
    {post : List (Nat × CRun) → Core → Core} (hinit : ∀ k, s.coderHandle init k = k)
    (hi : exec i s = s.coderWord c init use [] none (fun i _ l => f i l) post) :
    s.coderGives pc i (srcsOf true pc) [] (fun i => f i (s.coderLane pc i)) (post (s.coderRuns (fun i => f i (s.coderLane pc i)))) := by
  have h := coderWord_retires (ps := []) (pd := []) hi hok hc rfl rfl hh hv hinit (fun _ => rfl)
  simpa only [List.zip_nil_left, List.flatMap_nil, List.append_nil] using h

/-- A coder word with one further source and a symbol destination. -/
theorem coderGives_dec {i : Instr} {use : CoderUse} {m : Nat} {f : List (List Nat) → CLane → CRun} {pa : List Placed} {pd : Placed}
    (ha : s.core.placeMany s.core.vec.eng.k a m s.core.vec.span [kindVec] = some pa)
    (hb : s.core.place s.core.vec.eng.k b s.core.vec.span [kindVec] = some pd)
    (hi : exec i s = s.coderWord c none use [(a, m, wa)] (some b) (fun _ x l => f x l) noPost) :
    s.coderGives pc i (srcsOf true pc ++ srcsOf wa pa) [pd] (fun i => f [s.sourceLane pa i] (s.coderLane pc i)) id := by
  have h := coderWord_retires (ps := [pa]) (pd := [pd]) (g := fun i => f [s.sourceLane pa i] (s.coderLane pc i)) hi hok hc
    (placeMany_mapM ha) (by simp [hb]) hh hv (fun _ => rfl) (fun _ => rfl)
  simpa only [noPost_eq, List.zip_cons_cons, List.zip_nil_left, List.flatMap_cons, List.flatMap_nil, List.append_nil] using h

/-- A coder word with two further sources. -/
theorem coderGives_enc {i : Instr} {use : CoderUse} {m : Nat} {f : List (List Nat) → CLane → CRun} {pa pb : List Placed}
    (ha : s.core.placeMany s.core.vec.eng.k a m s.core.vec.span [kindVec] = some pa)
    (hb : s.core.placeMany s.core.vec.eng.k b 1 s.core.vec.span [kindVec] = some pb)
    (hi : exec i s = s.coderWord c none use [(a, m, wa), (b, 1, wb)] none (fun _ x l => f x l) noPost) :
    s.coderGives pc i (srcsOf true pc ++ (srcsOf wa pa ++ srcsOf wb pb)) []
      (fun i => f [s.sourceLane pa i, s.sourceLane pb i] (s.coderLane pc i)) id := by
  have h := coderWord_retires (ps := [pa, pb]) (pd := []) (g := fun i => f [s.sourceLane pa i, s.sourceLane pb i] (s.coderLane pc i))
    hi hok hc (by simp [ha, hb]) rfl hh hv (fun _ => rfl) (fun _ => rfl)
  simpa only [noPost_eq, List.zip_cons_cons, List.zip_nil_left, List.flatMap_cons, List.flatMap_nil, List.append_nil] using h

omit hh hv in
/-- `rc.stat` writes the status of each active lane to its destination (R202). -/
theorem rcStat_retires {pd : Placed} (hb : s.core.place s.core.vec.eng.k b s.core.vec.span [kindVec] = some pd)
    (hopen : s.vecOpen (srcsOf true pc) [pd]) : exec (.rcStat c b) s = .next (s.lanesRetired (srcsOf true pc) pd 4 (fun i =>
      (laneStat (s.coderLane pc i), 0))) := by
  rw [State.lanesRetired, ← vecRun_ok hopen]
  refine congrArg (fun r => Host.Outcome.next (s.issueVec r)) ?_
  simp only [State.ty, hok, Bool.not_true, Bool.false_eq_true, if_false, hc, hb]
  rfl

end

end

/-- Settles O30: each word is the frame of R189 around its own function of one lane; `rc.stat` computes as a lane-wise word does. -/
theorem coderWordsRunTheirLanes : Obligations.CoderWordsRunTheirLanes := by
  unfold Obligations.CoderWordsRunTheirLanes
  intro s c a b h wa wb pc v ks n lanes lane runs src col calm gives hty hc hv hh
  have hok : tyWord s.core.vec.shape.ty = true := by simpa [tyWord] using hty
  have alone : ∀ (i : Instr) (init : Option (Hnd × Bool)) (use : CoderUse) (f : Nat → CLane → CRun)
      (post : List (Nat × CRun) → Core → Core),
      (∀ k, s.coderHandle init k = k) → exec i s = s.coderWord c init use [] none (fun i _ l => f i l) post →
      gives i (src true pc) [] (fun i => f i (lane i)) (post (runs (fun i => f i (lane i)))) :=
    fun _ _ _ _ _ hinit hi => coderGives_alone hok hc hh hv hinit hi
  have decodes : ∀ {i : Instr} {m : Nat} {pa : List Placed} {pd : Placed} (f : List (List Nat) → CLane → CRun),
      s.core.placeMany ks a m v.span [0] = some pa → s.core.place ks b v.span [0] = some pd →
      exec i s = s.coderWord c none .reads [(a, m, wa)] (some b) (fun _ x l => f x l) noPost →
      gives i (src true pc ++ src wa pa) [pd] (fun i => f [col pa i] (lane i)) id :=
    fun _ ha hb hi => coderGives_dec hok hc hh hv ha hb hi
  have encodes : ∀ {i : Instr} {m : Nat} {pa pb : List Placed} (f : List (List Nat) → CLane → CRun),
      s.core.placeMany ks a m v.span [0] = some pa → s.core.placeMany ks b 1 v.span [0] = some pb →
      exec i s = s.coderWord c none .writes [(a, m, wa), (b, 1, wb)] none (fun _ x l => f x l) noPost →
      gives i (src true pc ++ (src wa pa ++ src wb pb)) [] (fun i => f [col pa i, col pb i] (lane i)) id :=
    fun _ ha hb hi => coderGives_enc hok hc hh hv ha hb hi
  refine ⟨fun x hx hu hk => ?_, fun pa pd ha hb => ?_, fun pa pd ha hb => ?_, fun pa pb hb => ⟨fun ha => ?_, fun ha => ?_⟩, ?_, ?_, ?_, ?_,
    fun pd hb hopen => rcStat_retires hok hc hb hopen⟩
  · have window : ∀ write : Bool, (write = true → x.writable = true) → ∀ k, s.coderHandle (some (h, write)) k = k :=
      fun _ hw => coderHandle_window hx hu hk hh hw
    exact ⟨alone (.rcInitDec c h) (some (h, false)) .reads (fun _ l => laneInitDec (s.streamByte h.val) h.val l) noPost
        (window false (fun h => absurd h Bool.false_ne_true)) rfl,
      fun hw => alone (.rcInitEnc c h) (some (h, true)) .none (fun _ l => laneInitEnc h.val l) noPost (window true (fun _ => hw)) rfl⟩
  · exact decodes (fun x l => laneDec (s.streamByte l.hnd) (oneOf x 0) l) ha hb rfl
  · exact decodes (fun x l => laneDecm (s.streamByte l.hnd) (x.getD 0 []) l) ha hb rfl
  · exact encodes (fun x l => laneEnc (oneOf x 1) (oneOf x 0) l) ha hb rfl
  · exact encodes (fun x l => laneEncm (oneOf x 1) (x.getD 0 []) l) ha hb rfl
  · exact alone (.rcFlush c) none .writes (fun _ l => laneFlush l) noPost (fun _ => rfl) rfl
  · have keeps := alone (.rcSpec c) none .none (fun _ l => CRun.of { l with spec := true })
      (fun rs => saveShadows (rs.map (fun r => (r.1, r.2.lane)))) (fun _ => rfl)
    exact keeps rfl
  · exact alone (.rcUndo c) none .none (fun i l => CRun.of (if l.spec then CLane.ofShadow (v.shadow.toList.getD i 0) else l)) noPost
      (fun _ => rfl) rfl
  · exact alone (.rcKeep c) none .none (fun _ l => CRun.of { l with spec := false }) noPost (fun _ => rfl) rfl

end Sys2Proof.Machine
end

section
/-!
PROOFS. Stamped stores take their stamp and are queued, and the oldest one is performed on its cell (R205, R227): O22.
-/
namespace Sys2Proof.Machine

/-! ### The issue of a stamped store -/

/-- The entry of a version with the die's latest bound as its stamp. -/
def State.stampEntry (s : State) (va : Nat) (scope : Scope) (pa : PAddr) (v : Word) (binds : List Nat) : StoreEntry :=
  ⟨s.core.issue, s.core.seq.pc, va, .stamp scope s.clock.late pa v, binds, false, false⟩

section
variable {s : State} {rd ra rb : Reg} {scope : Scope}

theorem cause_unstalled (hw : s.core.seq.wait = false) (code : Code) (d : Word) : s.cause code d = .trap code d := by
  rw [State.cause, hw]
  rfl

theorem exec_stStamp_wrongScope (ha : s.core.seq.asyncReady = false) (hpackage : scope ≠ .package) (htime : scope ≠ .time) :
    exec (.stStamp rd ra rb scope) s = .next (s.syncTrap 0x0205 0) := by
  have hscope : stampScope scope = false := by simp [stampScope, hpackage, htime]
  rw [stStamp_issue, if_pos (by rw [hscope]; rfl), issueSeq_traps ha]
  rfl

variable (h : s.seqReady [ra, rb] rd)
include h

/-- With nothing queued and no region or cinch open, the version is stamped at once. -/
theorem exec_stStamp_now (hs : scope = .package ∨ scope = .time) (hp : s.plain) (hq : s.core.seq.sq = []) :
    exec (.stStamp rd ra rb scope) s = .next (s.issueSeq (s.stampNow rd ra rb scope)) := by
  obtain ⟨hasync, hsources, -⟩ := h
  obtain ⟨hcinch, hregions⟩ := hp
  have hscope : stampScope scope = true := by simpa [stampScope] using hs
  rw [stStamp_issue, if_neg (by rw [hscope]; decide), noCinch_none hcinch, withRegs_ready ⟨hasync, hsources, .inl rfl⟩,
    closeFirst_plain hregions, if_pos (by rw [hq]; rfl)]

theorem stampNow_misaligned (hal : (s.reg ra).toNat % 32 ≠ 0) (hw : s.core.seq.wait = false) :
    s.issueSeq (s.stampNow rd ra rb scope) = s.syncTrap 0x0201 (BitVec.ofNat 64 (s.reg ra).toNat) := by
  rw [State.stampNow, if_pos hal, cause_unstalled hw, issueSeq_traps h.1]
  rfl

theorem stampNow_queues {pa : PAddr} {cells : List PAddr} {binds : List Nat} (hal : (s.reg ra).toNat % 32 = 0)
    (hx : s.xlAccess (s.reg ra).toNat 32 true = .ok (pa :: cells) binds) (hhost : pa.space ≠ .host) (hwidth : s.widthCheck = none) :
    s.issueSeq (s.stampNow rd ra rb scope) = s.advanced 1 (fun q => { q with
      sq := q.sq ++ [s.stampEntry (s.reg ra).toNat scope pa (s.reg rb) binds]
      g := if rd = 0 then q.g else q.g.set rd ⟨BitVec.ofInt 64 s.clock.late, true⟩
      pc := s.nextPc }) := by
  obtain ⟨hasync, -, hdst⟩ := h
  rw [State.stampNow, if_neg (not_not_intro hal), translated_ok hx, ← issueSeq_advanced hasync]
  simp only [if_neg hhost, hwidth, withRegs_ready (src := []) ⟨hasync, List.forall_mem_nil _, hdst⟩]
  by_cases h0 : rd = 0 <;> simp [h0, State.stampEntry, State.setReg, Sequencer.setReg, State.updSeq, State.upd, Core.updSeq, Core.bump,
    State.next, State.nextPc, wordOfInt]

end

/-! ### A version is put in its cell -/

/-- The stamp of the version at byte m of a cell. -/
def State.stampAt (s : State) (pa : PAddr) (m : Nat) : Int := sextNat 64 (s.readNat (pa.plus m) 8)

/-- The bytes of the version at byte m of a cell. -/
def versionCells (pa : PAddr) (m : Nat) (st : Int) (v : Word) : List (PAddr × Byte) :=
  cellsAt (pa.plus m) (bytesOfNat 8 (wrapInt 64 st) ++ bytesOfNat 8 v.toNat)

/-- The byte of a cell at which its older version stands, the first on a tie (R205). -/
def State.olderSlot (s : State) (pa : PAddr) : Nat := if s.stampAt pa 0 ≤ s.stampAt pa 16 then 0 else 16

/-- What a version put in its cell leaves of memory: it replaces the older one, unless its stamp is older still (R205). -/
def State.stampPut (s : State) (pa : PAddr) (st : Int) (v : Word) (t : State) : Prop :=
  let m := s.olderSlot pa
  s.sameOutside t (placesFrom pa 32) ∧
  (min (s.stampAt pa 0) (s.stampAt pa 16) ≤ st → t.readNat (pa.plus m) 8 = (st % 2 ^ 64).toNat ∧
    t.readNat (pa.plus (m + 8)) 8 = v.toNat ∧ t.readNat (pa.plus (16 - m)) 16 = s.readNat (pa.plus (16 - m)) 16) ∧
  (st < min (s.stampAt pa 0) (s.stampAt pa 16) → s.sameMemory t)

section
variable {pa : PAddr} {m : Nat} {st : Int} {v : Word}

theorem versionCells_places : (versionCells pa m st v).map Prod.fst = placesFrom (pa.plus m) 16 := by
  rw [versionCells, cellsAt_places, List.length_append, bytesOfNat_length, bytesOfNat_length]

theorem versionCells_eq : versionCells pa m st v =
    cellsAt (pa.plus m) (bytesOfNat 8 (wrapInt 64 st)) ++ cellsAt (pa.plus (m + 8)) (bytesOfNat 8 v.toNat) := by
  rw [versionCells, cellsAt_append, bytesOfNat_length]
  rfl

/-- A byte outside the places of a version reads as before. -/
theorem readByte_writeVersion_other {s : State} (w : s.memWf = true) {p : PAddr} (hp : p ∉ placesFrom (pa.plus m) 16) :
    (s.writeCells (versionCells pa m st v)).readByte p = s.readByte p :=
  State.readByte_writeCells_other (fun _ hc he => hp (by
    rw [he, ← versionCells_places (st := st) (v := v)]
    exact List.mem_map_of_mem hc)) w

/-- A version's stamp and its data read back. -/
theorem readNat_writeVersion {s : State} (w : s.memWf = true) :
    (s.writeCells (versionCells pa m st v)).readNat (pa.plus m) 8 = (st % 2 ^ 64).toNat ∧
    (s.writeCells (versionCells pa m st v)).readNat (pa.plus (m + 8)) 8 = v.toNat := by
  have hn : ((versionCells pa m st v).map Prod.fst).Nodup := by
    rw [versionCells_places]
    exact placesFrom_nodup _ _
  have word : ∀ (q : PAddr) (x : Nat), (∀ c ∈ cellsAt q (bytesOfNat 8 x), c ∈ versionCells pa m st v) → x < 2 ^ 64 →
      (s.writeCells (versionCells pa m st v)).readNat q 8 = x := by
    intro q x hq hx
    have hread := readNat_writeCells w hn hq
    rw [bytesOfNat_length, natOfBytes_bytesOfNat] at hread
    exact hread.trans (Nat.mod_eq_of_lt hx)
  rw [versionCells_eq] at word ⊢
  exact ⟨word _ _ (fun _ hc => List.mem_append_left _ hc) (wrapInt_lt 64 st), word _ _ (fun _ hc => List.mem_append_right _ hc) v.isLt⟩

/-- The other version of the cell stays. -/
theorem readNat_writeVersion_other {s : State} (w : s.memWf = true) (hm : m = 0 ∨ m = 16) :
    (s.writeCells (versionCells pa m st v)).readNat (pa.plus (16 - m)) 16 = s.readNat (pa.plus (16 - m)) 16 := by
  refine readNat_congr fun q hq => readByte_writeVersion_other w fun hq' => ?_
  obtain ⟨-, hlow, hhigh⟩ := mem_placesFrom.1 hq
  obtain ⟨-, hlow', hhigh'⟩ := mem_placesFrom.1 hq'
  simp only [PAddr.plus] at hlow hhigh hlow' hhigh'
  omega

/-- A version lies within its cell. -/
theorem mem_cell_of_version (hm : m = 0 ∨ m = 16) {p : PAddr} (hp : p ∈ placesFrom (pa.plus m) 16) : p ∈ placesFrom pa 32 := by
  obtain ⟨hspace, hlow, hhigh⟩ := mem_placesFrom.1 hp
  simp only [PAddr.plus] at hspace hlow hhigh
  exact mem_placesFrom.2 ⟨hspace, by omega, by omega⟩

end

section
variable {s : State} {pa : PAddr} {st : Int} {v : Word}

theorem olderSlot_cases (s : State) (pa : PAddr) : s.olderSlot pa = 0 ∨ s.olderSlot pa = 16 := by
  rw [State.olderSlot]
  split
  · exact .inl rfl
  · exact .inr rfl

/-- The older version is replaced, or, where the stamp is older still, the cell is only read. -/
theorem putStamp_eq : s.putStamp pa st v =
    if min (s.stampAt pa 0) (s.stampAt pa 16) ≤ st then s.store (versionCells pa (s.olderSlot pa) st v)
    else (s.eccRead (placesFrom pa 32), s) := by
  rw [min_def]
  rfl

theorem putStamp_ok (w : s.memWf = true) (hecc : s.eccRead (placesFrom pa 32) = .ok) :
    ∃ t, s.putStamp pa st v = (.ok, t) ∧ s.stampPut pa st v t ∧ t.core = s.core := by
  have hm := olderSlot_cases s pa
  rw [putStamp_eq]
  by_cases hst : min (s.stampAt pa 0) (s.stampAt pa 16) ≤ st
  · have hwrite : s.eccWrite (versionCells pa (s.olderSlot pa) st v) = .ok :=
      eccWrite_ok (eccRead_subset hecc fun p hp => mem_cell_of_version hm (versionCells_places ▸ hp))
    have w' := State.heal_wf (l := versionCells pa (s.olderSlot pa) st v) w
    obtain ⟨a, b, c, hframe⟩ := State.writeCells_frame (versionCells pa (s.olderSlot pa) st v) (s.heal _)
    obtain ⟨hstamp, hdata⟩ := readNat_writeVersion (pa := pa) (m := s.olderSlot pa) (st := st) (v := v) w'
    refine ⟨_, by rw [if_pos hst, store_ok hwrite], ⟨fun p hp => ?_, fun _ => ⟨hstamp, hdata, ?_⟩,
      fun hlt => absurd hst (not_le.2 hlt)⟩, by rw [hframe]; rfl⟩
    · exact readByte_writeVersion_other w' (fun h => hp (mem_cell_of_version hm h))
    · exact readNat_writeVersion_other w' hm
  · exact ⟨s, by rw [if_neg hst, hecc], ⟨fun _ _ => rfl, fun h => absurd h hst, fun _ => ⟨rfl, rfl, rfl⟩⟩, rfl⟩

end

/-! ### The oldest store is a stamped one -/

section
variable {u : State} {e : StoreEntry} {l : List StoreEntry} {scope : Scope} {st : Int} {pa : PAddr} {v : Word}
  (hq : u.core.seq.sq = e :: l) (hk : e.kind = .stamp scope st pa v)

include hk in
/-- A stamped store is one access. -/
theorem split_stamp : e.split = (e, none) := by
  rw [StoreEntry.split, hk]

include hq hk

theorem stampEvent_waits (hpast : u.surelyPast scope st = false) : u.stampEvent = u := by
  simp only [State.stampEvent, hq, hk, hpast, Bool.false_and, Bool.false_eq_true, if_false]

theorem stampEvent_performs {t : State} (hpast : u.surelyPast scope st = true) (hf : u.core.fenceHolds .sq e.seq = false)
    (hput : (u.updSeq (fun q => { q with sq := l })).putStamp pa st v = (.ok, t)) :
    u.stampEvent = (t.wrote .seq (placesFrom pa 32)).putBack e.told none := by
  simp only [State.stampEvent, hq, hk, hpast, hf, Bool.not_false, Bool.and_self, if_true, State.popStore, split_stamp hk,
    State.performStore, State.performAccess, hput, StoreKind.places]

end

/-- Settles O22: the checks of `st.stamp` in their order, and `putStamp_ok` at the head of the queue. -/
theorem stampedStoresAreQueuedAndPerformed : Obligations.StampedStoresAreQueuedAndPerformed := by
  unfold Obligations.StampedStoresAreQueuedAndPerformed
  refine ⟨fun s rd ra rb scope h hp hq => ⟨exec_stStamp_wrongScope h.1, fun hs => ?_⟩, fun s n e l scope st pa v hwf hlive => ?_⟩
  · rw [exec_stStamp_now h hs hp hq]
    exact ⟨fun hal hw => congrArg _ (stampNow_misaligned h hal hw),
      fun pa cells binds hal hx hhost hwidth => congrArg _ (stampNow_queues h hal hx hhost hwidth)⟩
  · intro u hq hk s0 s1 m
    have hexec : exec (.stampedStorePerformed n) s = .next u.stampEvent := congrArg Host.Outcome.next (onCore_live hlive)
    refine ⟨fun hpast => by rw [hexec, stampEvent_waits hq hk hpast], fun hpast hf hecc => ?_⟩
    obtain ⟨o, ho⟩ := focus_frame s n
    have huwf : u.memWf = true := by rw [show u = _ from ho]; exact hwf
    obtain ⟨t, hput, ⟨hout, hreplaced, holder⟩, hcore⟩ :=
      putStamp_ok (s := u.updSeq (fun q => { q with sq := l })) (pa := pa) (st := st) (v := v) huwf hecc
    rw [hexec, stampEvent_performs hq hk hpast hf hput]
    obtain ⟨eff, hwr⟩ := wrote_frame t .seq (placesFrom pa 32)
    obtain ⟨d, hpb⟩ := putBack_frame (t.wrote .seq (placesFrom pa 32)) e.told none
    refine ⟨_, rfl, ?_⟩
    rw [hpb, hwr]
    have hsq : t.core.seq.sq = l := by rw [hcore]; rfl
    have hg : t.core.seq.g = u.core.seq.g := by rw [hcore]; rfl
    exact ⟨hsq, hout, hg, hreplaced, holder⟩

end Sys2Proof.Machine
end

section
/-!
PROOFS. Every word, command and event keeps the canonical form of the memories, and so does a step (R210; log 4): O55. A function of the
model that writes no byte has a lemma `…_memWf`, the form of its state is that of the state before; one that writes has a lemma `…_wf`.
-/
namespace Sys2Proof.Machine

/-! ### Outcomes that hold a state -/

/-- The state that an issue of the sequencer goes on from has canonical memories. -/
def Issue.MemWf : Issue → Prop
  | .done s | .closed s _ _ | .wait s | .fault s => s.memWf = true
  | .trap _ _ | .late _ _ | .program _ | .halt _ => True

/-- The state that an issue of an engine goes on from has canonical memories. -/
def EngIssue.MemWf : EngIssue → Prop
  | .done s | .wait _ _ s | .stopAt _ _ _ _ s | .set s => s.memWf = true
  | .stop _ _ | .halt _ => True

/-- The state that a held effect leaves has canonical memories. -/
def HeldOut.MemWf : HeldOut → Prop
  | .done s | .wait s | .part s _ => s.memWf = true

/-- The state that a close of a region leaves has canonical memories. -/
def Closing.MemWf : Closing → Prop
  | .closed s | .waiting s => s.memWf = true

/-- The state that a turn leaves has canonical memories. -/
def TurnResult.MemWf : TurnResult → Prop
  | .idle s | .run _ s | .early _ _ s | .command _ _ s => s.memWf = true
  | .noCore => True

/-- A next state has canonical memories. -/
def OutWf : Out → Prop
  | .next s => s.memWf = true
  | .fault _ | .refused _ => True

section
variable {s : State} {code : Code} {d : Word} {e : Option Word} {a b : Bool} {k l : Nat} {h : HeldEffect} {i : Instr}

@[simp] theorem Issue.memWf_done : (Issue.done s).MemWf ↔ s.memWf = true := Iff.rfl
@[simp] theorem Issue.memWf_closed : (Issue.closed s code d).MemWf ↔ s.memWf = true := Iff.rfl
@[simp] theorem Issue.memWf_wait : (Issue.wait s).MemWf ↔ s.memWf = true := Iff.rfl
@[simp] theorem Issue.memWf_fault : (Issue.fault s).MemWf ↔ s.memWf = true := Iff.rfl
@[simp] theorem Issue.memWf_trap : (Issue.trap code d).MemWf := trivial
@[simp] theorem Issue.memWf_late : (Issue.late code d).MemWf := trivial
@[simp] theorem Issue.memWf_program : (Issue.program code).MemWf := trivial
@[simp] theorem Issue.memWf_halt : (Issue.halt code).MemWf := trivial
@[simp] theorem EngIssue.memWf_done : (EngIssue.done s).MemWf ↔ s.memWf = true := Iff.rfl
@[simp] theorem EngIssue.memWf_wait : (EngIssue.wait k l s).MemWf ↔ s.memWf = true := Iff.rfl
@[simp] theorem EngIssue.memWf_stopAt : (EngIssue.stopAt code d a b s).MemWf ↔ s.memWf = true := Iff.rfl
@[simp] theorem EngIssue.memWf_set : (EngIssue.set s).MemWf ↔ s.memWf = true := Iff.rfl
@[simp] theorem EngIssue.memWf_stop : (EngIssue.stop code e).MemWf := trivial
@[simp] theorem EngIssue.memWf_halt : (EngIssue.halt code).MemWf := trivial
@[simp] theorem HeldOut.memWf_done : (HeldOut.done s).MemWf ↔ s.memWf = true := Iff.rfl
@[simp] theorem HeldOut.memWf_wait : (HeldOut.wait s).MemWf ↔ s.memWf = true := Iff.rfl
@[simp] theorem HeldOut.memWf_part : (HeldOut.part s h).MemWf ↔ s.memWf = true := Iff.rfl
@[simp] theorem Closing.memWf_closed : (Closing.closed s).MemWf ↔ s.memWf = true := Iff.rfl
@[simp] theorem Closing.memWf_waiting : (Closing.waiting s).MemWf ↔ s.memWf = true := Iff.rfl
@[simp] theorem TurnResult.memWf_idle : (TurnResult.idle s).MemWf ↔ s.memWf = true := Iff.rfl
@[simp] theorem TurnResult.memWf_run : (TurnResult.run i s).MemWf ↔ s.memWf = true := Iff.rfl
@[simp] theorem outWf_next : OutWf (.next s) ↔ s.memWf = true := Iff.rfl

end

/-- The form speaks of the three memories alone. -/
@[simp] theorem State.memWf_mk {s : State} {core others lost badTag clocks group heat fw parts ctxs crews waiting launchQ crewNum now
      phase tau sched choices} :
    State.memWf ⟨core, others, s.hbm, s.window, s.host, lost, badTag, clocks, group, heat, fw, parts, ctxs, crews, waiting, launchQ,
      crewNum, now, phase, tau, sched, choices⟩ = s.memWf := rfl

section
variable {α : Type} {f : State → α → State} {s t : State} {l : List α}

@[simp] theorem foldl_memWf (hf : ∀ t a, (f t a).memWf = t.memWf) : (l.foldl f s).memWf = s.memWf := by
  induction l generalizing s with
  | nil => rfl
  | cons a l ih => exact ih.trans (hf s a)

theorem foldl_wf (hs : s.memWf = true) (hf : ∀ t a, t.memWf = true → (f t a).memWf = true) : (l.foldl f s).memWf = true := by
  induction l generalizing s with
  | nil => exact hs
  | cons a l ih => exact ih (hf s a hs)

theorem memWf_of_snd {x : α × State} {a : α} (h : x = (a, t)) (hx : x.2.memWf = true) : t.memWf = true := by
  subst h
  exact hx

end

@[simp] theorem State.putCore_memWf {s : State} {c : Core} : (s.putCore c).memWf = s.memWf := by
  unfold State.putCore
  repeat' split
  all_goals rfl


/-! ### Bytes, cells and sync words -/

section
variable {s : State}

@[simp] theorem State.storeParts_wf {l : List (PAddr × Byte)} (hs : s.memWf = true) : (s.storeParts l).memWf = true :=
    State.writeCells_wf (State.heal_wf hs)

@[simp] theorem State.focus_memWf {n : Nat} : (s.focus n).memWf = s.memWf := by
  unfold State.focus
  repeat' split
  all_goals rfl

@[simp] theorem State.updCore_memWf {n : Nat} {f : Core → Core} : (s.updCore n f).memWf = s.memWf := by
  simp [State.updCore]

@[simp] theorem State.upd_memWf {f : Core → Core} : (s.upd f).memWf = s.memWf := rfl

@[simp] theorem State.updSeq_memWf {f : Sequencer → Sequencer} : (s.updSeq f).memWf = s.memWf := rfl

@[simp] theorem State.updVec_memWf {f : VecEngine → VecEngine} : (s.updVec f).memWf = s.memWf := rfl

@[simp] theorem State.updMat_memWf {f : MatEngine → MatEngine} : (s.updMat f).memWf = s.memWf := rfl

@[simp] theorem State.updXfer_memWf {f : XferEngine → XferEngine} : (s.updXfer f).memWf = s.memWf := rfl

@[simp] theorem State.updEng_memWf {e : Eng} {f : Engine → Engine} : (s.updEng e f).memWf = s.memWf := rfl

end

/-! ### Walks and access checks -/

section
variable {s : State} {n : Nat}

@[simp] theorem State.updCtx_memWf {f : Context → Context} : (s.updCtx n f).memWf = s.memWf := rfl

@[simp] theorem State.updCrew_memWf {f : Crew → Crew} : (s.updCrew n f).memWf = s.memWf := rfl

@[simp] theorem State.updPart_memWf {f : Partition → Partition} : (s.updPart n f).memWf = s.memWf := rfl

end

/-! ### Registers, logs, traps and halts -/

section
variable {s : State} {st : StreamId} {q : Fin 64} {kind ctx core : Nat} {code : Code} {detail at_ v : Word} {e : Eng}
  {mayLeft mayCore : Bool} {pa : PAddr}

@[simp] theorem State.record_memWf {r : RecordInfo} : (s.record st r).memWf = s.memWf := rfl

@[simp] theorem State.updIface_memWf {f : Iface → Iface} : (s.updIface q f).memWf = s.memWf := rfl

@[simp] theorem State.postEvent_wf {code part tag reason : Nat} {body : List Byte} (hs : s.memWf = true) :
    (s.postEvent q kind code part ctx tag reason body).memWf = true := by
  fun_cases State.postEvent <;> simp_all

@[simp] theorem State.signal_memWf : (s.signal q).memWf = s.memWf := by
  fun_cases State.signal <;> simp_all

@[simp] theorem State.countDown_wf {p : PAddr} (hs : s.memWf = true) : (s.countDown p).memWf = true := by
  unfold State.countDown
  split
  · exact State.writeNat_wf hs
  · exact hs

@[simp] theorem State.complete_wf {code part tag reason : Nat} {results : List Word} (hs : s.memWf = true) :
    (s.complete q code part ctx tag reason results).memWf = true := by
  have h : ∀ body, (s.postEvent q 0 code part ctx tag reason body).memWf = true := fun _ => State.postEvent_wf hs
  unfold State.complete
  dsimp only
  split <;> simp [h]

@[simp] theorem State.logCtx_wf {kind : LogKind} {detail : Nat} (hs : s.memWf = true) : (s.logCtx ctx kind detail code).memWf = true := by
  unfold State.logCtx
  split <;> simp [hs]

@[simp] theorem State.logDevice_memWf {kind : LogKind} {detail : Nat} : (s.logDevice kind detail code).memWf = s.memWf := rfl

@[simp] theorem State.haltContext_memWf {debug : Bool} : (s.haltContext ctx code core debug detail).memWf = s.memWf := rfl

@[simp] theorem State.integrity_memWf {e : Code} : (s.integrity ctx core e).memWf = s.memWf := by
  unfold State.integrity
  split <;> rfl

@[simp] theorem State.haltWith_memWf : (s.haltWith code detail).memWf = s.memWf := rfl

@[simp] theorem State.haltHere_memWf : (s.haltHere code).memWf = s.memWf := rfl

@[simp] theorem State.haltAccess_memWf {pc : Word} {l : List Nat} : (s.haltAccess st pc l).memWf = s.memWf := rfl

@[simp] theorem State.haltPlain_memWf {debug : Bool} : (s.haltPlain ctx code core debug).memWf = s.memWf := rfl

@[simp] theorem State.seqSeen_memWf : s.seqSeen.memWf = s.memWf := rfl

@[simp] theorem State.wrote_memWf {l : List PAddr} : (s.wrote st l).memWf = s.memWf := by
  unfold State.wrote
  split <;> rfl

@[simp] theorem State.trapEntry_memWf {tpc : Word} {stop : Option Eng} :
    (s.trapEntry code detail tpc at_ stop mayLeft mayCore).memWf = s.memWf := rfl

@[simp] theorem State.takeTrap_memWf {sync : Bool} {tpc : Word} {stop : Option Eng} :
    (s.takeTrap sync code detail tpc at_ stop mayLeft mayCore).memWf = s.memWf := by
  unfold State.takeTrap
  split <;> rfl

@[simp] theorem State.syncTrap_memWf : (s.syncTrap code detail).memWf = s.memWf := by
  simp [State.syncTrap]

@[simp] theorem State.takeAsync_memWf : s.takeAsync.memWf = s.memWf := by
  unfold State.takeAsync
  repeat' split
  all_goals simp

@[simp] theorem State.addCause_memWf {c : TrapCause} : (s.addCause c).memWf = s.memWf := rfl

@[simp] theorem State.next_memWf : s.next.memWf = s.memWf := rfl

@[simp] theorem State.issueSeq_wf {r : Issue} (hs : s.memWf = true) (hr : r.MemWf) : (s.issueSeq r).memWf = true := by
  unfold State.issueSeq
  repeat' split
  all_goals simp_all

@[simp] theorem State.withRegs_wf {src : List Reg} {dst : Reg} {k : Issue} (hs : s.memWf = true) (hk : k.MemWf) :
    (s.withRegs src dst k).MemWf := by
  unfold State.withRegs
  repeat' split
  all_goals simp_all

@[simp] theorem State.setReg_memWf {r : Reg} : (s.setReg r v).memWf = s.memWf := rfl

@[simp] theorem State.compute_wf {src : List Reg} {rd : Reg} (hs : s.memWf = true) : (s.compute src rd v).memWf = true := by
  refine State.issueSeq_wf hs (State.withRegs_wf hs ?_)
  simp [hs]

@[simp] theorem State.syncAct_wf {b : Nat} {flags : BitVec 16} (hs : s.memWf = true) : (s.syncAct pa b code flags).2.memWf = true :=
    State.store_wf hs

@[simp] theorem State.doneAdd_wf {done : Nat} {own : Option Nat} {extra : Option Crew} {flags : BitVec 16} (hs : s.memWf = true) :
    (s.doneAdd ctx done own extra code flags).memWf = true := by
  unfold State.doneAdd
  repeat' split
  · exact hs
  · next h => exact memWf_of_snd h (State.syncAct_wf hs)
  all_goals simp [hs]

@[simp] theorem State.rowDone_wf {own p : Nat} (hs : s.memWf = true) : (s.rowDone ctx own p pa).memWf = true := by
  unfold State.rowDone
  repeat' split
  all_goals simp [hs]

@[simp] theorem State.putStamp_wf {st : Int} (hs : s.memWf = true) : (s.putStamp pa st v).2.memWf = true := by
  fun_cases State.putStamp
  case case1 => exact State.store_wf hs
  case case2 => exact hs

@[simp] theorem State.performStore_wf {own : Nat} {k : StoreKind} (hs : s.memWf = true) : (s.performStore ctx own k).2.memWf = true := by
  unfold State.performStore
  repeat' split
  all_goals simp [hs, State.store_wf]

@[simp] theorem State.performAccess_wf {e : StoreEntry} (hs : s.memWf = true) : (s.performAccess e).1.memWf = true := by
  unfold State.performAccess
  split
  · next h => simpa using memWf_of_snd h (State.performStore_wf hs)
  · split <;> simp [hs]
  · simp [hs]

@[simp] theorem State.performSeqStore_wf {e : StoreEntry} (hs : s.memWf = true) : (s.performSeqStore e).memWf = true := by
  simp [State.performSeqStore, hs]

@[simp] theorem State.engNext_memWf : (s.engNext e).memWf = s.memWf := rfl

@[simp] theorem State.stopWith_memWf {spill : Bool} : (s.stopWith e kind code at_ spill mayCore mayLeft detail).memWf = s.memWf := by
  unfold State.stopWith
  split <;> rfl

@[simp] theorem State.stopEngine_memWf {spill : Bool} : (s.stopEngine e kind code at_ spill mayCore mayLeft).memWf = s.memWf := by
  simp [State.stopEngine]

@[simp] theorem State.issueEng_wf {r : EngIssue} (hs : s.memWf = true) (hr : r.MemWf) : (s.issueEng e r).memWf = true := by
  unfold State.issueEng
  repeat' split
  all_goals simp_all

end

/-! ### Operands of the engines -/

section
variable {s : State}

@[simp] theorem State.vecEffect_memWf {eaten : List Nat} {o : VOut} : (s.vecEffect eaten o).memWf = s.memWf := rfl

@[simp] theorem State.vecTest_wf {srcs : List VSrc} {dsts : List Placed} {hold : Option Nat} (hs : s.memWf = true) :
    ∀ r, s.vecTest srcs dsts hold = some r → r.MemWf := by
  fun_cases State.vecTest <;> simp_all

@[simp] theorem State.vecRun_wf {srcs : List VSrc} {dsts : List Placed} {hold : Option Nat} {run : Except VFail VOut} (hs : s.memWf = true) :
    (s.vecRun srcs dsts hold run).MemWf := by
  fun_cases State.vecRun
  case case1 h => exact State.vecTest_wf hs _ h
  all_goals simp [hs]

@[simp] theorem State.vecMisplaced_wf {ops : List (TreeOp × Nat)} : (s.vecMisplaced ops).MemWf := by
  simp [State.vecMisplaced]

end

/-! ### Operations and batches -/

section
variable {s : State} {o : XOp} {code : Code} {b : Block}

@[simp] theorem State.haltFor_memWf : (s.haltFor o).memWf = s.memWf := rfl

@[simp] theorem State.addSync_wf {a : SyncAdd} (hs : s.memWf = true) : (s.addSync a).2.memWf = true := by
  unfold State.addSync
  split
  · next h => simpa using memWf_of_snd h (State.syncAct_wf hs)
  all_goals simp [hs]

@[simp] theorem State.batchAdd_wf {n : Nat} {flags : BitVec 16} (hs : s.memWf = true) : (s.batchAdd o n code flags).2.memWf = true := by
  unfold State.batchAdd
  repeat' split
  all_goals simp [hs]

@[simp] theorem State.finishOp_wf (hs : s.memWf = true) : (s.finishOp o).memWf = true := by
  unfold State.finishOp
  split <;> simp [hs]

@[simp] theorem State.settleOp_wf (hs : s.memWf = true) : (s.settleOp o).memWf = true := by
  unfold State.settleOp
  repeat' split
  all_goals simp [hs]

@[simp] theorem State.allHanded_wf (hs : s.memWf = true) : (s.allHanded o).memWf = true := by
  simp [State.allHanded, hs]

@[simp] theorem State.failCur_wf (hs : s.memWf = true) : (s.failCur o code).memWf = true := by
  unfold State.failCur
  split <;> simp [hs]

@[simp] theorem State.xferWait_memWf {kind line : Nat} : (s.xferWait o kind line).memWf = s.memWf := rfl

@[simp] theorem State.hand_wf {first : Nat} {bytes : List Byte} {consume : List Nat} {e : Ecc} {f : BitVec 5} {next out : Nat}
    {last : Bool} (hs : s.memWf = true) :
    (s.hand o first bytes consume e f next out last).memWf = true := by
  unfold State.hand
  split <;> simp [hs]

@[simp] theorem State.handBlock_wf (hs : s.memWf = true) : (s.handBlock o).memWf = true := by
  fun_cases State.handBlock
  case case3 => exact State.hand_wf hs
  all_goals exact State.xferWait_memWf.trans hs

@[simp] theorem State.handCoded_wf {fmt : PackFmt} {ratio : Nat} {dt : EType} (hs : s.memWf = true) :
    (s.handCoded o fmt ratio dt).memWf = true := by
  fun_cases State.handCoded
  case case12 => exact State.hand_wf hs
  all_goals simp +zetaDelta [hs]

@[simp] theorem State.bindingGone_wf (hs : s.memWf = true) : (s.bindingGone o).memWf = true := by
  simp [State.bindingGone, hs]

@[simp] theorem State.handNext_wf (hs : s.memWf = true) : (s.handNext o).memWf = true := by
  unfold State.handNext
  repeat' split
  all_goals simp [hs]

@[simp] theorem State.readEarly_memWf {a n : Nat} : (s.readEarly o a n).memWf = s.memWf := by
  fun_cases State.readEarly <;> simp_all

@[simp] theorem State.noteLanded_memWf {cells : List (PAddr × Byte)} : (s.noteLanded o b cells).memWf = s.memWf := rfl

@[simp] theorem State.failLanded_wf (hs : s.memWf = true) : (s.failLanded o code).memWf = true := by
  unfold State.failLanded
  split <;> simp [hs]

@[simp] theorem State.landOk_wf {rest : Option Block} {cells : List (PAddr × Byte)} (hs : s.memWf = true) :
    (s.landOk o b rest cells).memWf = true := by
  unfold State.landOk
  dsimp only
  generalize h : State.updXfer _ _ = t
  have ht : t.memWf = true := by
    rw [← h, State.updXfer_memWf]
    split <;> simpa using hs
  repeat' split
  · exact State.settleOp_wf ht
  · next e => exact State.settleOp_wf (memWf_of_snd e (State.batchAdd_wf ht))
  · next e => exact State.failLanded_wf (memWf_of_snd e (State.batchAdd_wf ht))

@[simp] theorem State.landLost_wf (hs : s.memWf = true) : (s.landLost o b).memWf = true := by
  simp [State.landLost, hs]

@[simp] theorem State.landPart_wf {rest : Option Block} (hs : s.memWf = true) : (s.landPart o b rest).2.memWf = true := by
  fun_cases State.landPart
  case case3 h => exact State.landOk_wf (memWf_of_snd h (State.store_wf hs))
  all_goals exact hs

@[simp] theorem State.land_wf (hs : s.memWf = true) : (s.land o b).2.memWf = true := by
  simp [State.land, hs]

end

/-! ### Rollback, refusal and the outcomes of an issue -/

section
variable {s : State} {f : VpEntry → Bool} {q : PAddr} {at_ : Word} {code : Code} {r : EngIssue} {bits : StrikeBits}

@[simp] theorem State.landVector_memWf {got : List Byte} {l : List (Nat × PAddr)} {zero lines : List Nat} :
    (s.landVector got l zero lines).memWf = s.memWf := rfl

@[simp] theorem State.performVp_wf {x : VpEntry} (hs : s.memWf = true) : (s.performVp x).2.memWf = true := by
  unfold State.performVp
  repeat' split
  · exact hs
  · simp [hs]
  · exact hs
  · next h => simpa using memWf_of_snd h (State.store_wf hs)
  · exact hs

@[simp] theorem State.popVp_memWf : s.popVp.memWf = s.memWf := rfl

@[simp] theorem State.vecStops_memWf : s.vecStops.memWf = s.memWf := by
  fun_cases State.vecStops <;> simp_all

@[simp] theorem State.finishHead_wf (hs : s.memWf = true) : (s.finishHead f).memWf = true := by
  unfold State.finishHead
  repeat' split
  · exact hs
  · next h => simpa using memWf_of_snd h (State.performVp_wf hs)
  all_goals exact hs

@[simp] theorem State.finishWork_wf {n : Nat} (hs : s.memWf = true) : (s.finishWork f n).memWf = true := by
  induction n generalizing s with
  | zero => exact State.finishHead_wf hs
  | succ n ih =>
    unfold State.finishWork
    dsimp only
    split
    · exact ih (State.finishHead_wf hs)
    · exact State.finishHead_wf hs

@[simp] theorem State.finishCore_wf (hs : s.memWf = true) : (s.finishCore f).memWf = true := by
  simp [State.finishCore, hs]

@[simp] theorem State.finishWrites_wf (hs : s.memWf = true) : (s.finishWrites q).memWf = true := by
  unfold State.finishWrites
  rw [State.focus_memWf]
  exact foldl_wf hs fun t c ht => State.finishCore_wf (State.focus_memWf.trans ht)

@[simp] theorem State.loseSector_wf (hs : s.memWf = true) : (s.loseSector q).memWf = true := State.finishWrites_wf hs

@[simp] theorem State.breakTag_wf (hs : s.memWf = true) : (s.breakTag q).memWf = true := State.finishWrites_wf hs

@[simp] theorem State.restoreBytes_wf {l : List SavedBytes} (hs : s.memWf = true) : (s.restoreBytes l).memWf = true := by
  unfold State.restoreBytes
  refine foldl_wf hs fun t x ht => ?_
  split
  · exact foldl_wf ht fun u q hu => State.loseSector_wf hu
  · exact State.store_wf ht

@[simp] theorem State.seqUnwind_wf {l : List SeqRegion} (hs : s.memWf = true) : (s.seqUnwind l).memWf = true := by
  induction l generalizing s with
  | nil => exact hs
  | cons r l ih =>
    have h := State.restoreBytes_wf (l := r.saved) hs
    unfold State.seqUnwind
    repeat' split
    · simpa using h
    · simpa using h
    · exact ih (by simpa using h)

@[simp] theorem State.drainStore_wf {e : StoreEntry} (hs : s.memWf = true) : (s.drainStore e).memWf = true := by
  unfold State.drainStore
  generalize (e.told || s.core.seq.inRegion e.seq) = told
  generalize e.accesses = l
  induction l generalizing s told with
  | nil => exact hs
  | cons a l ih => exact ih (State.performAccess_wf hs) _

@[simp] theorem State.drainStores_wf {n : Nat} (hs : s.memWf = true) : (s.drainStores n).memWf = true := by
  fun_induction State.drainStores <;> simp_all

@[simp] theorem State.drainQueues_wf (hs : s.memWf = true) : s.drainQueues.memWf = true := by
  simp [State.drainQueues, hs]

@[simp] theorem State.seqRollback_wf (hs : s.memWf = true) : s.seqRollback.memWf = true := by
  unfold State.seqRollback
  split <;> simp [hs]

@[simp] theorem State.landFlight_wf {l : List VpEntry} (hs : s.memWf = true) : (s.landFlight l).memWf = true := by
  induction l generalizing s with
  | nil => exact hs
  | cons e l ih =>
    unfold State.landFlight
    repeat' split
    · exact ih hs
    · exact ih hs
    · next h => exact ih (memWf_of_snd h (State.performVp_wf hs))

@[simp] theorem State.drainVp_wf (hs : s.memWf = true) : s.drainVp.memWf = true := by
  simp [State.drainVp, hs]

@[simp] theorem State.vecUnwind_memWf {l : List VecRegion} : (s.vecUnwind at_ l).memWf = s.memWf := by
  fun_induction State.vecUnwind <;> simp_all

@[simp] theorem State.vecRollback_wf (hs : s.memWf = true) : (s.vecRollback at_).memWf = true := by
  unfold State.vecRollback
  split <;> simp [hs]

@[simp] theorem State.xferUnwind_memWf {l : List XferRegion} : (s.xferUnwind at_ l).memWf = s.memWf := by
  fun_induction State.xferUnwind <;> simp_all

@[simp] theorem State.xferRollback_memWf : (s.xferRollback at_).memWf = s.memWf := by
  unfold State.xferRollback
  repeat' split
  all_goals simp

@[simp] theorem State.matRollback_memWf {lost : Bool} : (s.matRollback lost).memWf = s.memWf := by
  unfold State.matRollback
  repeat' split
  all_goals rfl

@[simp] theorem State.matSpill_memWf {detail : Word} : (s.matSpill code detail).memWf = s.memWf := by
  unfold State.matSpill
  split <;> rfl

@[simp] theorem State.matFault_memWf {detail : Word} : (s.matFault code detail).memWf = s.memWf := by
  fun_cases State.matFault <;> simp_all

@[simp] theorem State.issueVec_wf (hs : s.memWf = true) (hr : r.MemWf) : (s.issueVec r).memWf = true := by
  fun_cases State.issueVec
  case case1 => exact State.issueEng_wf hs hr
  case case4 => exact State.issueEng_wf hs (by trivial)
  case case5 => exact State.issueEng_wf hs hr
  all_goals simp [hs]

@[simp] theorem State.issueMat_wf (hs : s.memWf = true) (hr : r.MemWf) : (s.issueMat r).memWf = true := by
  unfold State.issueMat
  split
  · simp [hs]
  · exact State.issueEng_wf hs hr

@[simp] theorem State.issueXfer_wf (hs : s.memWf = true) (hr : r.MemWf) : (s.issueXfer r).memWf = true := State.issueEng_wf hs hr

@[simp] theorem State.failCollAt_wf {ident m : Nat} {keep : Nat → Bool} {core : Nat} (hs : s.memWf = true) :
    (s.failCollAt ident m code bits keep core).memWf = true := by
  have ht : (s.focus core).memWf = true := by simpa using hs
  fun_cases State.failCollAt
  · exact State.allHanded_wf ht
  · exact State.settleOp_wf ht
  all_goals exact ht

@[simp] theorem State.failColl_wf {ident m : Nat} {l : List Rank} {keep : Nat → Bool} (hs : s.memWf = true) :
    (s.failColl ident m code bits l keep).memWf = true := by
  unfold State.failColl
  rw [State.focus_memWf]
  refine foldl_wf hs fun t r ht => ?_
  split
  · exact State.failCollAt_wf ht
  · simpa using ht

@[simp] theorem State.strikeOps_wf (hs : s.memWf = true) : (s.strikeOps bits).memWf = true := by
  unfold State.strikeOps
  refine foldl_wf ?_ fun t o ht => ?_
  · repeat' split
    · exact State.failColl_wf hs
    · exact State.failCur_wf hs
    · exact hs
  · split
    · exact State.settleOp_wf ht
    · exact ht

@[simp] theorem State.strikeRunning_wf {e : Eng} (hs : s.memWf = true) : (s.strikeRunning e bits).memWf = true := by
  fun_cases State.strikeRunning <;> simp_all

@[simp] theorem State.strikeEngine_wf {e : Eng} (hs : s.memWf = true) : (s.strikeEngine e).memWf = true := by
  fun_cases State.strikeEngine <;> simp_all

@[simp] theorem State.strikeSeq_wf (hs : s.memWf = true) : s.strikeSeq.memWf = true := by
  fun_cases State.strikeSeq <;> simp_all

@[simp] theorem State.strike_wf {st : StreamId} (hs : s.memWf = true) : (s.strike st).memWf = true := by
  unfold State.strike
  repeat' split
  all_goals simp [hs]

@[simp] theorem State.deliver_wf (hs : s.memWf = true) : s.deliver.memWf = true := foldl_wf hs fun _ _ => State.strike_wf

@[simp] theorem State.deliverAll_wf {cores : List Nat} (hs : s.memWf = true) : (s.deliverAll cores).memWf = true := by
  unfold State.deliverAll
  rw [State.focus_memWf]
  exact foldl_wf hs fun t n ht => State.deliver_wf (by simpa using ht)

end

/-! ### The turn -/

section
variable {s : State} {st : StreamId}

@[simp] theorem State.popTurn_memWf : s.popTurn.2.memWf = s.memWf := by
  unfold State.popTurn
  split <;> rfl

@[simp] theorem State.advance_memWf {cycles ns : Nat} {osc : List (Nat × Nat)} : (s.advance cycles ns osc).memWf = s.memWf := rfl

@[simp] theorem State.illegal_wf (hs : s.memWf = true) : (s.illegal st).memWf = true := by
  fun_cases State.illegal
  · simpa using hs
  · exact State.issueVec_wf hs (by trivial)
  · exact State.issueMat_wf hs (by trivial)
  · exact State.issueXfer_wf hs (by trivial)

@[simp] theorem State.fetchLost_wf (hs : s.memWf = true) : (s.fetchLost st).memWf = true := by
  fun_cases State.fetchLost
  · exact State.issueSeq_wf hs (r := .fault _) (State.seqRollback_wf hs)
  · simpa using hs
  · exact State.issueVec_wf hs (by trivial)
  · exact State.issueMat_wf hs (by trivial)
  · simpa using hs
  · exact State.issueXfer_wf hs (by trivial)

@[simp] theorem State.fetch_wf (hs : s.memWf = true) : (s.fetch st).MemWf := by
  unfold State.fetch
  repeat' split
  all_goals simp [hs]

@[simp] theorem State.eventTurn_wf {i : Instr} (hs : s.memWf = true) : (s.eventTurn i).MemWf := by
  unfold State.eventTurn
  split <;> simp [hs]

@[simp] theorem State.takeTurn_wf (hs : s.memWf = true) : s.takeTurn.MemWf := by
  rw [State.takeTurn]
  have h := hs
  rw [← State.popTurn_memWf] at h
  generalize s.popTurn = x at h ⊢
  obtain ⟨⟨cycles, ns, osc, agent⟩, u⟩ := x
  cases agent with
  | event i => exact State.eventTurn_wf h
  | early n w => exact h
  | command q p => exact h
  | stream n st =>
    dsimp only
    repeat' split
    · exact State.fetch_wf (by simpa using h)
    · simpa using h
    · trivial

end

/-! ### Integer words -/

section
variable {s : State}

@[simp] theorem State.binary_wf {f : Word → Word → Word} {rd ra rb : Reg} (hs : s.memWf = true) : (s.binary f rd ra rb).memWf = true :=
    State.compute_wf hs

@[simp] theorem State.unary_wf {f : Word → Word} {rd ra : Reg} (hs : s.memWf = true) : (s.unary f rd ra).memWf = true := State.compute_wf hs

end

/-! ### Regions, queues and scopes of the sequencer -/

section
variable {s : State} {n va : Nat} {k : StoreKind} {binds : List Nat}

@[simp] theorem State.onCore_wf {f : State → State} (hs : s.memWf = true) (hf : ∀ t : State, t.memWf = true → (f t).memWf = true) :
    (s.onCore n f).memWf = true := by
  unfold State.onCore
  split <;> simp [hs, hf]

@[simp] theorem State.holdAt_wf {f : XlFault} {access : Nat} (hs : s.memWf = true) : (s.holdAt f va access).memWf = true := by
  unfold State.holdAt
  split <;> simp [hs]

@[simp] theorem State.translated_wf {write : Bool} {access : Nat} {k : List PAddr → List Nat → Issue} (hs : s.memWf = true)
    (hk : ∀ x y, (k x y).MemWf) :
    (s.translated va n write access k).MemWf := by
  unfold State.translated
  repeat' split
  all_goals simp_all

@[simp] theorem State.noCinch_wf {k : Issue} (hk : k.MemWf) : (s.noCinch k).MemWf := by
  unfold State.noCinch
  repeat' split
  all_goals simp_all

@[simp] theorem State.placeMarker_memWf {bars : Bool} : (s.placeMarker bars).memWf = s.memWf := rfl

@[simp] theorem State.rmw_wf {op : AtomOp} {pa : PAddr} {b e : Int} (hs : s.memWf = true) : (s.rmw op n pa b e).2.2.memWf = true := by
  fun_cases State.rmw
  · exact hs
  · exact State.wrote_memWf.trans (State.store_wf hs)
  · exact hs

@[simp] theorem State.performGroup_wf {l : List StoreEntry} (hs : s.memWf = true) : (s.performGroup l).2.memWf = true := by
  fun_cases State.performGroup
  · simp [hs]
  · next h =>
    rw [State.wrote_memWf]
    exact foldl_wf (memWf_of_snd h (State.store_wf hs)) fun _ _ => State.rowDone_wf
  all_goals exact hs

@[simp] theorem State.setQueue_memWf {target : Nat} {l : List LaunchBlock} : (s.setQueue target l).memWf = s.memWf := rfl

@[simp] theorem State.push_memWf {target : Nat} : (s.push va target).memWf = s.memWf := by
  fun_cases State.push <;> simp_all

@[simp] theorem State.performHeld_wf {h : HeldEffect} (hs : s.memWf = true) : (s.performHeld h).MemWf := by
  have hg (l) : (s.performGroup l).2.memWf = true := State.performGroup_wf hs
  have hr (op n pa b e) : (s.rmw op n pa b e).2.2.memWf = true := State.rmw_wf hs
  fun_cases State.performHeld
  case case1 => exact State.performSeqStore_wf hs
  case case2 => exact State.performAccess_wf hs
  case case4 => exact State.performSeqStore_wf hs
  case case8 h => exact memWf_of_snd h (hg _)
  case case12 h => exact State.updSeq_memWf.trans (memWf_of_snd (congrArg Prod.snd h) (hr _ _ _ _ _))
  all_goals simp [hs]

@[simp] theorem State.runHeld_wf {l : List HeldEffect} (hs : s.memWf = true) : (s.runHeld l).1.memWf = true := by
  induction l generalizing s with
  | nil => exact hs
  | cons h l ih =>
    have hh := State.performHeld_wf (h := h) hs
    unfold State.runHeld
    split <;> simp_all

@[simp] theorem State.closeOuter_wf {r : SeqRegion} (hs : s.memWf = true) : (s.closeOuter r).MemWf := by
  have h := State.runHeld_wf (l := r.held) hs
  fun_cases State.closeOuter <;> simp_all

@[simp] theorem State.closeAll_wf (hs : s.memWf = true) : s.closeAll.MemWf := by
  unfold State.closeAll
  repeat' split
  all_goals simp [hs]

@[simp] theorem Issue.after_wf {t : State} {r : Issue} (ht : t.memWf = true) (hr : r.MemWf) : (Issue.after t r).MemWf := by
  unfold Issue.after
  repeat' split
  all_goals simp_all

@[simp] theorem State.closeFirst_wf {k : State → Issue} (hs : s.memWf = true) (hk : ∀ t : State, t.memWf = true → (k t).MemWf) :
    (s.closeFirst k).MemWf := by
  have h := State.closeAll_wf hs
  fun_cases State.closeFirst <;> simp_all

@[simp] theorem State.enqueue_wf (hs : s.memWf = true) : (s.enqueue va k binds).MemWf := by
  unfold State.enqueue
  split <;> simp [hs]

@[simp] theorem State.hold_wf {h : HeldEffect} (hs : s.memWf = true) : (s.hold h).MemWf := by
  unfold State.hold
  repeat' split
  all_goals simp [hs]

@[simp] theorem State.joinCinch_wf {c : Cinch} (hs : s.memWf = true) : (s.joinCinch c va k binds).MemWf := by
  unfold State.joinCinch
  split <;> simp [hs]

@[simp] theorem State.storePlain_wf {cells : List (PAddr × Byte)} (hs : s.memWf = true) : (s.storePlain va cells binds).MemWf := by
  fun_cases State.storePlain
  case case6 t h =>
    have ht := State.hold_wf (h := .store va (cells.filter fun c => !s.core.seq.savedByte c.1) binds false false) hs
    rw [h] at ht
    simpa using ht
  all_goals simp [hs]

@[simp] theorem State.storeRow_wf (hs : s.memWf = true) : (s.storeRow va k binds).MemWf := by
  unfold State.storeRow
  repeat' split
  all_goals simp [hs]

end

/-! ### Loads and stores -/

section
variable {s : State} {n core : Nat}

@[simp] theorem State.issueLoad_wf {rd ra : Reg} {imm : BitVec 16} {signed : Bool} (hs : s.memWf = true) :
    (s.issueLoad rd ra imm n signed).memWf = true := by
  refine State.issueSeq_wf hs (State.withRegs_wf hs (State.translated_wf hs fun cells binds => ?_))
  split <;> simp [hs]

@[simp] theorem State.issueStore_wf {rd ra : Reg} {imm : BitVec 16} (hs : s.memWf = true) : (s.issueStore rd ra imm n).memWf = true := by
  unfold State.issueStore
  refine State.issueSeq_wf hs (State.withRegs_wf hs ?_)
  simp [hs]

@[simp] theorem State.returnLoad_wf (hs : s.memWf = true) : s.returnLoad.memWf = true := by
  fun_cases State.returnLoad
  case case5 => exact State.seqRollback_wf hs
  all_goals exact hs

@[simp] theorem execLoadReturn_wf (hs : s.memWf = true) : OutWf (execLoadReturn core s) := by
  unfold execLoadReturn
  simp_all

@[simp] theorem State.putBack_memWf {told : Bool} {x2 : Option StoreEntry} : (s.putBack told x2).memWf = s.memWf := by
  unfold State.putBack
  split <;> rfl

@[simp] theorem State.popStore_wf (hs : s.memWf = true) : s.popStore.memWf = true := by
  have h (t : List StoreEntry) : (s.updSeq fun q => { q with sq := t }).memWf = true := hs
  fun_cases State.popStore
  · exact hs
  · exact hs
  · exact State.putBack_memWf.trans (State.performAccess_wf (h _))
  · exact State.seqRollback_wf (h _)
  · exact hs
  · exact State.putBack_memWf.trans (State.performAccess_wf (h _))

@[simp] theorem State.storeEvent_wf (hs : s.memWf = true) : s.storeEvent.memWf = true := by
  unfold State.storeEvent
  repeat' split
  all_goals simp [hs]

@[simp] theorem execStorePerformed_wf (hs : s.memWf = true) : OutWf (execStorePerformed core s) := by
  unfold execStorePerformed
  simp_all

@[simp] theorem State.stampEvent_wf (hs : s.memWf = true) : s.stampEvent.memWf = true := by
  unfold State.stampEvent
  repeat' split
  all_goals simp [hs]

@[simp] theorem execStampedStorePerformed_wf (hs : s.memWf = true) : OutWf (execStampedStorePerformed core s) := by
  unfold execStampedStorePerformed
  simp_all

@[simp] theorem State.fenceEvent_memWf : (s.fenceEvent n).memWf = s.memWf := by
  unfold State.fenceEvent
  repeat' split
  all_goals rfl

end

/-! ### Atoms, marks, fences and cinches -/

section
variable {s : State} {scope : Scope}

@[simp] theorem State.atomAct_wf {op : AtomOp} {n : Nat} {rd : Reg} {va : Nat} {pa : PAddr} {b e : Int} (hs : s.memWf = true) :
    (s.atomAct op n rd va pa b e).MemWf := by
  have h := State.rmw_wf (op := op) (n := n) (pa := pa) (b := b) (e := e) hs
  fun_cases State.atomAct <;> simp_all

@[simp] theorem State.atom_wf {op : AtomOp} {rd ra rb : Reg} {size : AtomSize} (hs : s.memWf = true) :
    (s.atom op rd ra rb size scope).memWf = true := by
  unfold State.atom
  extract_lets n va b e
  refine State.issueSeq_wf hs ?_
  split
  · exact trivial
  refine State.noCinch_wf (State.withRegs_wf hs ?_)
  split
  · exact trivial
  refine State.translated_wf hs fun cells binds => ?_
  repeat' split
  case isFalse => exact State.closeFirst_wf hs fun t ht => State.atomAct_wf ht
  all_goals simp [hs]

@[simp] theorem execMark_wf {paths : BitVec 7} (hs : s.memWf = true) : OutWf (execMark paths s) := by
  unfold execMark
  refine State.issueSeq_wf hs (State.noCinch_wf ?_)
  repeat' split
  all_goals simp [hs]

@[simp] theorem execFence_wf {pa pb : Path} (hs : s.memWf = true) : OutWf (execFence pa pb scope s) := by
  unfold execFence
  refine State.issueSeq_wf hs (State.noCinch_wf ?_)
  repeat' split
  all_goals simp [hs]

@[simp] theorem execCinchOpen_wf (hs : s.memWf = true) : OutWf (execCinchOpen scope s) := by
  unfold execCinchOpen
  split <;> simp [hs]

@[simp] theorem execCinchClose_wf (hs : s.memWf = true) : OutWf (execCinchClose s) := by
  refine State.issueSeq_wf hs ?_
  split
  · simp
  next c _ =>
  extract_lets s1
  have h1 : s1.memWf = true := hs
  split
  · split
    · next h =>
      have ht := State.hold_wf h1 (h := .cinch c.scope c.stores)
      rw [h] at ht
      exact ht
    · exact State.hold_wf h1
  split
  · split
    · next h =>
      have ht := memWf_of_snd h (State.performGroup_wf h1)
      exact ht
    · simpa using h1
    · simp
  · exact hs

@[simp] theorem execCinchDrop_wf (hs : s.memWf = true) : OutWf (execCinchDrop s) := by
  unfold execCinchDrop
  refine State.issueSeq_wf hs ?_
  repeat' split
  all_goals simp [hs]

end

/-! ### Handles -/

section
variable {s : State} {h : Hnd} {base len : Nat}

@[simp] theorem State.bindSlot_memWf {kind : Space} {writable : Bool} {segs : List Seg} {stale : Bool} :
    (s.bindSlot h base len kind writable segs stale).memWf = s.memWf := rfl

@[simp] theorem State.bindWindow_wf (hs : s.memWf = true) : (s.bindWindow h base len).MemWf := by
  unfold State.bindWindow
  repeat' split
  all_goals simp [hs]

@[simp] theorem State.finishBind_wf {j : WalkJob} (hs : s.memWf = true) : (s.finishBind j).MemWf := by
  unfold State.finishBind
  repeat' split
  all_goals simp [hs]

@[simp] theorem State.bindPages_wf (hs : s.memWf = true) : (s.bindPages h base len).MemWf := by
  fun_cases State.bindPages <;> simp [hs]

@[simp] theorem execHndBind_wf {rd ra : Reg} (hs : s.memWf = true) : OutWf (execHndBind rd ra h s) := by
  unfold execHndBind
  refine State.issueSeq_wf hs (State.noCinch_wf ?_)
  repeat' split
  all_goals simp [hs]

@[simp] theorem State.finishWalk_memWf {n : Nat} : (s.finishWalk n).memWf = s.memWf := by
  unfold State.finishWalk
  repeat' split
  all_goals rfl

@[simp] theorem execHndFree_wf (hs : s.memWf = true) : OutWf (execHndFree h s) := by
  unfold execHndFree
  refine State.issueSeq_wf hs (State.noCinch_wf ?_)
  repeat' split
  all_goals simp [hs]

@[simp] theorem execHndStat_wf {rd : Reg} (hs : s.memWf = true) : OutWf (execHndStat rd h s) := by
  unfold execHndStat
  split <;> simp [hs]

@[simp] theorem execViewSet_wf {v : Fin 8} {ra : Reg} (hs : s.memWf = true) : OutWf (execViewSet v ra s) := by
  unfold execViewSet
  refine State.issueSeq_wf hs (State.withRegs_wf hs ?_)
  repeat' split
  all_goals simp [hs]

end

/-! ### Engine control -/

section
variable {s : State} {e : Eng}

@[simp] theorem State.startEng_wf {entry : BitVec 14} (hs : s.memWf = true) : (s.startEng e entry).memWf = true := by
  fun_cases State.startEng
  · exact State.stopEngine_memWf.trans hs
  · exact hs

@[simp] theorem execEngStart_wf {entry : BitVec 14} (hs : s.memWf = true) : OutWf (execEngStart e entry s) := by
  unfold execEngStart
  refine State.issueSeq_wf hs ?_
  repeat' split
  all_goals simp [hs]

@[simp] theorem execEngStop_wf (hs : s.memWf = true) : OutWf (execEngStop e s) := by
  unfold execEngStop
  refine State.issueSeq_wf hs ?_
  repeat' split
  all_goals simp [hs]

@[simp] theorem execEngStat_wf {rd : Reg} (hs : s.memWf = true) : OutWf (execEngStat rd e s) := by
  unfold execEngStat
  refine State.issueSeq_wf hs (State.withRegs_wf hs ?_)
  simp [hs]

@[simp] theorem execEngJoin_wf (hs : s.memWf = true) : OutWf (execEngJoin e s) := by
  unfold execEngJoin
  refine State.issueSeq_wf hs ?_
  repeat' split
  all_goals simp [hs]

end

/-! ### Sync words -/

section
variable {s : State} {va : Nat} {h : Hnd} {rd ra : Reg}

@[simp] theorem State.lostWord_wf (hs : s.memWf = true) : (s.lostWord va).MemWf := by
  unfold State.lostWord
  split <;> simp [hs]

@[simp] theorem State.onSync_wf {off : Nat} {k : Nat → PAddr → Issue} (hk : ∀ x y, (k x y).MemWf) : (s.onSync h off k).MemWf := by
  unfold State.onSync
  repeat' split
  all_goals simp_all

@[simp] theorem State.arm_wf {pa : PAddr} {target : Nat} (hs : s.memWf = true) : (s.arm va pa target).MemWf := by
  fun_cases State.arm
  · next h => simpa using memWf_of_snd h (State.store_wf hs)
  all_goals simp [hs]

@[simp] theorem execSwArm_wf (hs : s.memWf = true) : OutWf (execSwArm rd ra h s) := by
  refine State.issueSeq_wf hs (State.noCinch_wf (State.withRegs_wf hs (State.onSync_wf fun va pa => ?_)))
  split
  · simp
  · refine State.closeFirst_wf hs fun t ht => ?_
    split <;> simp [ht]

@[simp] theorem State.readSync_wf {pa : PAddr} {k : Issue} (hs : s.memWf = true) (hk : k.MemWf) : (s.readSync va pa k).MemWf := by
  fun_cases State.readSync <;> simp [hs, hk]

@[simp] theorem execSwWait_wf (hs : s.memWf = true) : OutWf (execSwWait rd ra h s) := by
  refine State.issueSeq_wf hs (State.withRegs_wf hs (State.onSync_wf fun va pa => State.withRegs_wf hs (State.readSync_wf hs ?_)))
  extract_lets gen
  split <;> simp [hs]

@[simp] theorem State.readField_wf {off : Nat} (hs : s.memWf = true) : (s.readField rd ra h off).memWf = true := by
  refine State.issueSeq_wf hs (State.withRegs_wf hs (State.onSync_wf fun va pa => State.withRegs_wf hs (State.readSync_wf hs ?_)))
  simp [hs]

@[simp] theorem State.barrier_wf (hs : s.memWf = true) : s.barrier.MemWf := by
  fun_cases State.barrier <;> exact hs

@[simp] theorem execCrewBar_wf (hs : s.memWf = true) : OutWf (execCrewBar s) :=
    State.issueSeq_wf hs (State.noCinch_wf (State.closeFirst_wf hs fun _ => State.barrier_wf))

@[simp] theorem State.setCsr_memWf {r : Csr} {w : Word} : (s.setCsr r w).memWf = s.memWf := rfl

@[simp] theorem execCsrWrite_wf {csr : Csr} (hs : s.memWf = true) : OutWf (execCsrWrite ra csr s) := by
  unfold execCsrWrite
  split <;> simp [hs]

@[simp] theorem execCsrSwap_wf {csr : Csr} (hs : s.memWf = true) : OutWf (execCsrSwap rd ra csr s) := by
  unfold execCsrSwap
  split <;> simp [hs]

end

/-! ### Mend regions, traps and crew words -/

section
variable {s : State} {st : StreamId}

@[simp] theorem State.openSeqRegion_memWf : s.openSeqRegion.memWf = s.memWf := rfl

@[simp] theorem execMendOpen_wf (hs : s.memWf = true) : OutWf (execMendOpen s) := by
  unfold execMendOpen
  refine State.issueSeq_wf hs ?_
  repeat' split
  all_goals simp [hs]

@[simp] theorem State.saveRange_wf {p : PAddr} {len : Nat} (hs : s.memWf = true) : (s.saveRange p len).MemWf := by
  unfold State.saveRange
  repeat' split
  all_goals simp [hs]

@[simp] theorem execMendSave_wf {rd ra : Reg} {h : Hnd} (hs : s.memWf = true) : OutWf (execMendSave rd ra h s) := by
  unfold execMendSave
  refine State.issueSeq_wf hs ?_
  repeat' split
  all_goals simp [hs]

@[simp] theorem State.closeOne_wf (hs : s.memWf = true) : s.closeOne.MemWf := by
  have h (r) : (s.closeOuter r).MemWf := State.closeOuter_wf hs
  fun_cases State.closeOne
  case case2 r _ _ t e => simpa [e] using h r
  case case3 r _ _ t e => simpa [e] using h r
  all_goals simp [hs]

@[simp] theorem execMendClose_wf (hs : s.memWf = true) : OutWf (execMendClose s) := by
  unfold execMendClose
  refine State.issueSeq_wf hs ?_
  simp [hs]

@[simp] theorem execTrap_wf {imm : BitVec 16} (hs : s.memWf = true) : OutWf (execTrap imm s) := by
  unfold execTrap
  refine State.issueSeq_wf hs ?_
  repeat' split
  all_goals simp

@[simp] theorem State.resumeEng_wf {e : Eng} (hs : s.memWf = true) : (s.resumeEng e).memWf = true := by
  fun_cases State.resumeEng
  · exact State.strikeRunning_wf hs
  · exact hs

@[simp] theorem State.trapReturn_wf (hs : s.memWf = true) : s.trapReturn.memWf = true := by
  fun_cases State.trapReturn
  · exact State.resumeEng_wf hs
  all_goals exact hs

@[simp] theorem execTret_wf (hs : s.memWf = true) : OutWf (execTret s) := by
  unfold execTret
  refine State.issueSeq_wf hs ?_
  repeat' split
  all_goals simp [hs]

@[simp] theorem execInjStrike_wf {imm : BitVec 16} (hs : s.memWf = true) : OutWf (execInjStrike st imm s) := by
  unfold execInjStrike
  refine State.issueSeq_wf hs ?_
  repeat' split
  all_goals simp [hs]

@[simp] theorem State.injectedDue_wf (hs : s.memWf = true) : (s.injectedDue st).memWf = true := by
  unfold State.injectedDue
  repeat' split
  all_goals simp [hs]

@[simp] theorem execInjectedStrikeDue_wf {core : Nat} (hs : s.memWf = true) : OutWf (execInjectedStrikeDue core st s) := by
  unfold execInjectedStrikeDue
  simp_all

@[simp] theorem State.trapNow_memWf : s.trapNow.memWf = s.memWf := by
  unfold State.trapNow
  repeat' split
  all_goals simp

end

/-! ### Billets and work queues -/

section
variable {s : State} {rd ra : Reg} {h : Hnd}

@[simp] theorem State.claim_wf {b : Binding} {k : Harness} {p : Nat} (hs : s.memWf = true) : (s.claim rd b k p).MemWf := by
  have h (c l) : (({ s with choices := c } : State).store l).2.memWf = true := State.store_wf hs
  fun_cases State.claim
  · rw [Issue.memWf_done, State.next_memWf, State.setReg_memWf, State.wrote_memWf]
    exact h _ _
  all_goals simp [hs]

@[simp] theorem execBilClaim_wf (hs : s.memWf = true) : OutWf (execBilClaim rd ra h s) := by
  refine State.issueSeq_wf hs (State.noCinch_wf (State.withRegs_wf hs ?_))
  split
  · simp
  split
  · simp
  · refine State.withRegs_wf hs (State.closeFirst_wf hs fun t ht => ?_)
    split <;> simp [ht]

@[simp] theorem State.storeBillet_wf {ok : Nat → Bool} {mk : Nat → Nat → PAddr → StoreKind} (hs : s.memWf = true) :
    (s.storeBillet rd ra h ok mk).MemWf := by
  refine State.withRegs_wf hs ?_
  repeat' split
  all_goals simp [hs]

@[simp] theorem execBilAdv_wf (hs : s.memWf = true) : OutWf (execBilAdv rd ra h s) := by
  unfold execBilAdv
  refine State.issueSeq_wf hs ?_
  simp [hs]

@[simp] theorem execBilPost_wf (hs : s.memWf = true) : OutWf (execBilPost rd ra h s) := by
  unfold execBilPost
  refine State.issueSeq_wf hs ?_
  simp [hs]

@[simp] theorem execWqPush_wf {rb : Reg} (hs : s.memWf = true) : OutWf (execWqPush ra rb s) := by
  unfold execWqPush
  refine State.issueSeq_wf hs (State.noCinch_wf (State.withRegs_wf hs ?_))
  repeat' split
  all_goals simp [hs]

@[simp] theorem State.checkYield_memWf {crew : Nat} : (s.checkYield crew).memWf = s.memWf := by
  unfold State.checkYield
  repeat' split
  all_goals rfl

@[simp] theorem State.yieldNow_wf (hs : s.memWf = true) : s.yieldNow.MemWf := by
  fun_cases State.yieldNow
  · refine State.closeFirst_wf hs fun t ht => ?_
    split <;> simp [ht]
  · simpa using hs

@[simp] theorem execYield_wf (hs : s.memWf = true) : OutWf (execYield s) := by
  unfold execYield
  refine State.issueSeq_wf hs ?_
  simp [hs]

end

/-! ### Branches, bars and traps -/

section
variable {s : State}

@[simp] theorem State.branch_wf {ra rb : Reg} {off : BitVec 16} {c : Word → Word → Bool} (hs : s.memWf = true) :
    (s.branch ra rb off c).memWf = true := by
  refine State.issueSeq_wf hs (State.withRegs_wf hs ?_)
  simp [hs]

@[simp] theorem execJal_wf {rd : Reg} {off : BitVec 21} (hs : s.memWf = true) : OutWf (execJal rd off s) := by
  unfold execJal
  refine State.issueSeq_wf hs (State.withRegs_wf hs ?_)
  simp [hs]

@[simp] theorem execJalr_wf {rd ra : Reg} {imm : BitVec 16} (hs : s.memWf = true) : OutWf (execJalr rd ra imm s) := by
  unfold execJalr
  refine State.issueSeq_wf hs ?_
  repeat' split
  all_goals simp [hs]

@[simp] theorem execNop_wf (hs : s.memWf = true) : OutWf (execNop s) := by
  unfold execNop
  refine State.issueSeq_wf hs ?_
  simp [hs]

end

/-! ### The matrix stream -/

section
variable {s : State} {w : Bool} {t : TreeOp}

@[simp] theorem State.matTest_wf {lines : List Nat} (hs : s.memWf = true) : ∀ r, s.matTest lines w = some r → r.MemWf := by
  unfold State.matTest
  repeat' split
  all_goals simp [hs]

@[simp] theorem State.matMisplaced_wf {ops : List (TreeOp × Nat)} {kind : Nat} : (s.matMisplaced ops kind).MemWf := by
  simp [State.matMisplaced]

@[simp] theorem State.matDone_wf {c : Core} (hs : s.memWf = true) : (s.matDone c).MemWf := hs

@[simp] theorem execMBegin_wf {mode : MatMode} {n : BitVec 11} (hs : s.memWf = true) : OutWf (execMBegin mode n s) := by
  unfold execMBegin
  refine State.issueMat_wf hs ?_
  repeat' split
  all_goals simp [hs]

@[simp] theorem execMZero_wf (hs : s.memWf = true) : OutWf (execMZero s) := by
  unfold execMZero
  refine State.issueMat_wf hs ?_
  repeat' split
  all_goals simp [hs]

@[simp] theorem execMLdacc_wf (hs : s.memWf = true) : OutWf (execMLdacc t w s) := by
  refine State.issueMat_wf hs ?_
  split
  · simp
  split
  · simp
  extract_lets
  split
  · next h => exact State.matTest_wf hs _ h
  · simp [hs]

@[simp] theorem execMSeg_wf (hs : s.memWf = true) : OutWf (execMSeg t w s) := by
  refine State.issueMat_wf hs ?_
  split
  · simp
  split
  · simp
  split
  · next h => exact State.matTest_wf hs _ h
  · extract_lets
    split <;> simp [hs]

@[simp] theorem execMScale_wf {a b : TreeOp} (hs : s.memWf = true) : OutWf (execMScale a b w s) := by
  refine State.issueMat_wf hs ?_
  split
  · split
    · next h => exact State.matTest_wf hs _ h
    · simp [hs]
  · simp

@[simp] theorem State.doStep_wf {v : State} {k : BKind} {pa : Placed} {lines : List Nat} {row : Nat} {r : Reduction} (hs : s.memWf = true) :
    (s.doStep v k pa lines row r).MemWf := hs

@[simp] theorem State.asRead_memWf : s.asRead.memWf = s.memWf := rfl

@[simp] theorem EngIssue.waitingIn_wf {r : EngIssue} (hs : s.memWf = true) (hr : r.MemWf) : (EngIssue.waitingIn s r).MemWf := by
  unfold EngIssue.waitingIn
  repeat' split
  all_goals simp_all

/-- What the tests of an accumulate word answer keeps the memories canonical. -/
theorem State.accTest_wf {s : State} {t : TreeOp} {row : BitVec 12} {k : BKind} {w : Bool} {r : EngIssue} (hs : s.memWf = true)
    (h : s.accTest t row k w = .no r) : r.MemWf := by
  unfold State.accTest at h
  extract_lets m b at h
  split at h
  · cases h; exact trivial
  split at h
  · cases h; exact trivial
  split at h
  · cases h; exact State.matMisplaced_wf
  split at h
  · cases h; exact trivial
  extract_lets lines at h
  split at h
  · next e => cases h; exact State.matTest_wf hs _ e
  · cases h

@[simp] theorem State.accumulate_wf {row : BitVec 12} {k : BKind} (hs : s.memWf = true) : (s.accumulate t row k w).memWf = true := by
  have hv : s.asRead.memWf = true := hs
  refine State.issueMat_wf hs ?_
  dsimp only
  repeat' split
  · next h => exact EngIssue.waitingIn_wf hs (State.accTest_wf hv h)
  all_goals simp [hs]

@[simp] theorem State.readRow_memWf {i : Instr} {r : Nat} : (s.readRow i r).memWf = s.memWf := by
  fun_cases State.readRow <;> simp_all

@[simp] theorem State.newWindow_memWf {most : Nat} : (s.newWindow most).memWf = s.memWf := by
  unfold State.newWindow
  split <;> rfl

@[simp] theorem State.retire_wf {fmt : RetFmt} (hs : s.memWf = true) : (s.retire t fmt).memWf = true := by
  refine State.issueMat_wf hs ?_
  dsimp only
  split
  · simp
  split
  · simp
  split
  · simp
  split
  · exact hs
  split
  · next h => exact State.matTest_wf hs _ h
  · simp [hs]

@[simp] theorem State.matLate_memWf : s.matLate.memWf = s.memWf := by
  unfold State.matLate
  repeat' split
  all_goals simp

@[simp] theorem State.releaseSlot_memWf : s.releaseSlot.memWf = s.memWf := by
  unfold State.releaseSlot
  repeat' split
  all_goals simp

@[simp] theorem State.matLoop_wf {f : Engine → Engine} (hs : s.memWf = true) : OutWf (s.matLoop f) := hs

@[simp] theorem execMEnd_wf (hs : s.memWf = true) : OutWf (execMEnd s) := by
  unfold execMEnd
  refine State.issueMat_wf hs ?_
  repeat' split
  all_goals simp [hs]

end

/-! ### Clocks and stamped accesses -/

section
variable {s : State} {rd rb ra : Reg} {scope : Scope}

@[simp] theorem State.cause_wf {code : Code} {detail : Word} : (s.cause code detail).MemWf := by
  unfold State.cause
  split <;> trivial

@[simp] theorem execClkRead_wf (hs : s.memWf = true) : OutWf (execClkRead rd rb s) := by
  unfold execClkRead
  refine State.issueSeq_wf hs ?_
  repeat' split
  all_goals simp [hs]

@[simp] theorem execClkWait_wf (hs : s.memWf = true) : OutWf (execClkWait ra s) := by
  unfold execClkWait
  repeat' split
  all_goals simp [hs]

@[simp] theorem State.stampNow_wf (hs : s.memWf = true) : (s.stampNow rd ra rb scope).MemWf := by
  unfold State.stampNow
  dsimp only
  split
  · exact State.cause_wf
  refine State.translated_wf hs fun cells binds => ?_
  repeat' split
  all_goals simp [hs]

@[simp] theorem execStStamp_wf (hs : s.memWf = true) : OutWf (execStStamp rd ra rb scope s) := by
  refine State.issueSeq_wf hs ?_
  split
  · simp
  · refine State.noCinch_wf (State.withRegs_wf hs (State.closeFirst_wf hs fun t ht => ?_))
    split <;> simp [ht]

@[simp] theorem State.asofNow_wf {va : Nat} {pa : PAddr} {t : Int} (hs : s.memWf = true) : (s.asofNow rd va pa t).MemWf := by
  fun_cases State.asofNow <;> simp [hs]

@[simp] theorem execLdAsof_wf (hs : s.memWf = true) : OutWf (execLdAsof rd ra rb scope s) := by
  refine State.issueSeq_wf hs ?_
  split
  · simp
  refine State.noCinch_wf (State.withRegs_wf hs ?_)
  split
  · simp
  refine State.translated_wf hs fun cells _ => ?_
  repeat' split
  all_goals simp [hs]

end

/-! ### The transfer stream -/

section
variable {s : State} {k : XKind} {e d : EndPt} {len : Nat} {l : KIx} {r : SyncRef}

@[simp] theorem State.setShape_memWf {f : ShapeField} {v : BitVec 32} : (s.setShape f v).memWf = s.memWf := rfl

@[simp] theorem State.setWin_memWf {f : WinField} {v : BitVec 32} : (s.setWin f v).memWf = s.memWf := rfl

@[simp] theorem State.xferLoop_memWf {f : Engine → Engine} : (s.xferLoop f).memWf = s.memWf := rfl

@[simp] theorem State.startOp_wf {e : XEnds} {index : Option (Nat × Nat)} (hs : s.memWf = true) :
    (s.startOp k e len index).memWf = true := by
  fun_cases State.startOp
  · exact State.issueXfer_wf hs hs
  · exact hs
  · exact State.issueXfer_wf hs hs
  · exact State.issueXfer_wf hs (by trivial)
  · exact hs

@[simp] theorem State.checkedOp_wf {d : XPoint} {e : Option XPoint} {index : Option (Nat × Nat)} (hs : s.memWf = true) :
    (s.checkedOp k d e len index).memWf = true := by
  fun_cases State.checkedOp
  · exact State.startOp_wf hs
  · exact State.issueXfer_wf hs (by trivial)
  · exact State.issueXfer_wf hs hs

@[simp] theorem State.twoEnds_wf (hs : s.memWf = true) : (s.twoEnds k d e len).memWf = true := State.checkedOp_wf hs

@[simp] theorem execXCopy_wf (hs : s.memWf = true) : OutWf (execXCopy d e l s) := by
  refine outWf_next.2 ?_
  repeat' split
  all_goals simp [hs]

@[simp] theorem State.dropIndex_memWf : s.dropIndex.memWf = s.memWf := by
  unfold State.dropIndex
  split <;> rfl

/-- The machine once an index list is read as far as it can be. -/
def IndexOut.state : IndexOut → State
  | .read s => s
  | .empty _ s => s
  | .lost _ s => s

theorem State.readIndexLines_memWf {s : State} {l : List Nat} : (s.readIndexLines l).state.memWf = s.memWf := by
  induction l generalizing s with
  | nil => rfl
  | cons m l ih =>
    unfold State.readIndexLines
    repeat' split
    · rfl
    · rfl
    · exact ih

theorem State.readIndex_wf {s : State} {line n : Nat} {o : IndexOut} (hs : s.memWf = true) (h : s.readIndex line n = o) :
    o.state.memWf = true := h ▸ State.readIndexLines_memWf.trans hs

@[simp] theorem State.indexed_wf {mk : Nat → List Nat → XKind} {i : KIx} (hs : s.memWf = true) : (s.indexed mk d e l i).memWf = true := by
  fun_cases State.indexed
  case case1 => exact State.dropIndex_memWf.trans (State.issueXfer_wf hs trivial)
  case case2 => exact State.dropIndex_memWf.trans (State.issueXfer_wf hs trivial)
  case case3 => exact State.checkedOp_wf hs
  all_goals have ht := State.readIndex_wf hs ‹_›
  case case4 => exact State.issueXfer_wf ht ht
  case case5 => exact State.dropIndex_memWf.trans (State.checkedOp_wf ht)
  case case6 => exact State.xferRollback_memWf.trans ht
  case case7 => exact State.failCur_wf (State.dropIndex_memWf.trans (State.checkedOp_wf ht))
  case case8 => exact State.dropIndex_memWf.trans (State.checkedOp_wf ht)

@[simp] theorem execXWbfill_wf {row : BitVec 12} (hs : s.memWf = true) : OutWf (execXWbfill row e l s) := by
  refine outWf_next.2 ?_
  repeat' split
  all_goals simp [hs]

@[simp] theorem execXConv_wf (hs : s.memWf = true) : OutWf (execXConv d e l s) := by
  refine outWf_next.2 ?_
  repeat' split
  all_goals simp [hs]

@[simp] theorem execXUnfold_wf {n : KIx} (hs : s.memWf = true) : OutWf (execXUnfold d e n s) := by
  refine outWf_next.2 ?_
  repeat' split
  all_goals simp [hs]

@[simp] theorem State.unpack_wf {fmt : PackFmt} (hs : s.memWf = true) : (s.unpack fmt d e l).memWf = true := by
  have h (t) : (if s.core.xfer.field .ratio < 16 ∨ s.core.xfer.field .ratio > 1024 then s.issueXfer (.stop codeBounds)
      else s.twoEnds (.unpack fmt (s.core.xfer.field .ratio) t) d e (s.core.xfer.kv l)).memWf = true := by
    split <;> simp [hs]
  unfold State.unpack
  repeat' split
  · exact h _
  · exact h _
  · exact State.issueXfer_wf hs trivial
  · exact h _

@[simp] theorem execXMcast_wf (hs : s.memWf = true) : OutWf (execXMcast d e l s) := by
  refine outWf_next.2 ?_
  repeat' split
  all_goals simp [hs]

@[simp] theorem State.reportFail_wf {k : EngIssue} (hs : s.memWf = true) (hk : k.MemWf) : (s.reportFail k).MemWf := by
  unfold State.reportFail
  repeat' split
  all_goals simp_all

@[simp] theorem State.closeBatch_wf {k : State → EngIssue} (hs : s.memWf = true) (hk : ∀ t : State, t.memWf = true → (k t).MemWf) :
    (s.closeBatch k).MemWf := by
  unfold State.closeBatch
  repeat' split
  all_goals simp_all

@[simp] theorem execXWait_wf {n : BitVec 16} (hs : s.memWf = true) : OutWf (execXWait n s) := by
  refine State.issueXfer_wf hs (State.closeBatch_wf hs fun t ht => State.reportFail_wf ht ?_)
  split <;> simp [ht]

@[simp] theorem execXMark_wf (hs : s.memWf = true) : OutWf (execXMark s) := by
  unfold execXMark
  split <;> simp [hs]

@[simp] theorem State.addOrFail_wf {a : SyncAdd} (hs : s.memWf = true) : (s.addOrFail a).memWf = true := by
  have h := State.addSync_wf (a := a) hs
  fun_cases State.addOrFail
  case case1 e => exact memWf_of_snd e h
  case case2 e _ =>
    have ht := memWf_of_snd e h
    exact ht

@[simp] theorem State.attach_wf {b : Batch} (hs : s.memWf = true) : (s.attach b r).MemWf := by
  unfold State.attach
  repeat' split
  all_goals simp [hs]

@[simp] theorem State.newBatch_memWf : (s.newBatch r).memWf = s.memWf := rfl

@[simp] theorem State.syncBatch_wf (hs : s.memWf = true) : (s.syncBatch r).MemWf := by
  fun_cases State.syncBatch
  case case3 => exact State.closeBatch_wf hs fun t ht => by simp [ht]
  all_goals simp [hs]

@[simp] theorem execXSync_wf {h : Hnd} {j : KIx} (hs : s.memWf = true) : OutWf (execXSync h j s) := by
  unfold execXSync
  refine State.issueXfer_wf hs ?_
  repeat' split
  all_goals simp [hs]

@[simp] theorem execXSyncDetach_wf (hs : s.memWf = true) : OutWf (execXSyncDetach s) := by
  unfold execXSyncDetach
  repeat' split
  all_goals simp [hs]

@[simp] theorem execXMendOpen_wf (hs : s.memWf = true) : OutWf (execXMendOpen s) := by
  unfold execXMendOpen
  refine State.issueXfer_wf hs ?_
  repeat' split
  all_goals simp [hs]

@[simp] theorem execXMendSave_wf {k : KIx} {n : BitVec 12} (hs : s.memWf = true) : OutWf (execXMendSave k n s) := by
  unfold execXMendSave
  refine State.issueXfer_wf hs ?_
  repeat' split
  all_goals simp [hs]

@[simp] theorem State.makeAdds_wf {l : List SyncAdd} (hs : s.memWf = true) : (s.makeAdds l).memWf = true :=
    foldl_wf hs fun _ _ => State.addOrFail_wf

@[simp] theorem State.releaseXfer_wf {r : XferRegion} (hs : s.memWf = true) : (s.releaseXfer r).memWf = true := by
  simp [State.releaseXfer, hs]

@[simp] theorem State.closeXfer_wf {k : State → EngIssue} (hs : s.memWf = true) (hk : ∀ t : State, t.memWf = true → (k t).MemWf) :
    (s.closeXfer k).MemWf := by
  fun_cases State.closeXfer <;> simp_all

@[simp] theorem execXMendClose_wf (hs : s.memWf = true) : OutWf (execXMendClose s) := by
  unfold execXMendClose
  repeat' split
  all_goals simp [hs]

@[simp] theorem execXEnd_wf (hs : s.memWf = true) : OutWf (execXEnd s) := by
  refine State.issueXfer_wf hs (State.closeXfer_wf hs fun t ht => State.closeBatch_wf ht fun u hu => State.reportFail_wf hu ?_)
  split <;> simp [hu]

@[simp] theorem State.heldFault_memWf {o : XOp} {detail : Word} : (s.heldFault o detail).memWf = s.memWf := rfl

@[simp] theorem State.issueHeld_wf {o : XOp} (hs : s.memWf = true) : (s.issueHeld o).memWf = true := by
  unfold State.issueHeld
  extract_lets go
  have hgo (t : State) (o : XOp) (ht : t.memWf = true) : (go t o).memWf = true := by
    dsimp only [go]
    split <;> simp [ht]
  split
  · exact State.failCur_wf hs
  split
  · exact hgo _ _ hs
  split
  · next h => exact State.xferWait_memWf.trans (State.readIndex_wf hs h)
  · next h => exact State.failCur_wf (State.readIndex_wf hs h)
  · next h => exact hgo _ _ (State.readIndex_wf hs h)

@[simp] theorem State.blockEvent_wf (hs : s.memWf = true) : s.blockEvent.memWf = true := by
  fun_cases State.blockEvent
  case case3 => exact State.issueHeld_wf hs
  case case4 => exact State.xferRollback_memWf.trans (State.handNext_wf hs)
  case case5 => exact State.handNext_wf hs
  all_goals exact hs

@[simp] theorem State.sourceEarly_memWf {a n : Nat} : (s.sourceEarly a n).memWf = s.memWf := by
  unfold State.sourceEarly
  repeat' split
  all_goals simp

@[simp] theorem execTransferBlockIssue_wf {core : Nat} (hs : s.memWf = true) : OutWf (execTransferBlockIssue core s) := by
  unfold execTransferBlockIssue
  simp_all

@[simp] theorem State.landEvent_wf {l : Landing} (hs : s.memWf = true) : (s.landEvent l).memWf = true := by
  fun_cases State.landEvent
  case case4 h => exact memWf_of_snd h (State.landPart_wf hs)
  all_goals simp [hs]

@[simp] theorem execTransferBlockLand_wf {core : Nat} {l : Landing} (hs : s.memWf = true) : OutWf (execTransferBlockLand core l s) := by
  unfold execTransferBlockLand
  simp_all

end

/-! ### Collectives -/

section
variable {s : State} {core : Nat}

@[simp] theorem State.startColl_wf {op : CollOp} {scope : Scope} {ident : Nat} {pt : XPoint} {e : XEnd} {len : Nat} (hs : s.memWf = true) :
    (s.startColl op scope ident pt e len).MemWf := by
  have h (k e len i) : ((s.updXfer fun x =>
      { x with colls := assocSet x.colls ident (s.core.xfer.collNum ident + 1) }).startOp k e len i).memWf = true :=
    State.startOp_wf hs
  unfold State.startColl
  dsimp only
  rw [EngIssue.memWf_set]
  split
  · exact State.failCur_wf (h _ _ _ _)
  · exact h _ _ _ _

@[simp] theorem State.coll_wf {op : CollOp} {scope : Scope} {e : EndPt} {l i : KIx} (hs : s.memWf = true) :
    (s.coll op scope e l i).memWf = true := by
  refine State.issueXfer_wf hs ?_
  repeat' split
  case isFalse => exact State.closeXfer_wf hs fun t ht => State.startColl_wf ht
  all_goals simp [hs]

@[simp] theorem State.landCollAt_wf {form : Bool} {ident m first : Nat} {bytes : List Byte} (hs : s.memWf = true) :
    (s.landCollAt form ident m first bytes core).memWf = true := by
  have ht : (s.focus core).memWf = true := by simpa using hs
  fun_cases State.landCollAt
  case case3 => exact State.settleOp_wf ht
  case case4 h => exact memWf_of_snd h (State.land_wf ht)
  case case6 => exact State.landLost_wf ht
  all_goals exact ht

@[simp] theorem State.collEvent_wf {form : Bool} {n : Nat} {remote : List Remote} (hs : s.memWf = true) :
    (s.collEvent form n remote).memWf = true := by
  have h (l : List Rank) (m first bytes ident) : (l.foldl (fun s r => s.landCollAt form ident m first bytes r.core) s).memWf = true :=
    foldl_wf hs fun _ _ => State.landCollAt_wf
  unfold State.collEvent
  split
  · exact hs
  split
  · extract_lets l home
    split
    · exact hs
    split
    · exact State.failColl_wf hs
    split
    · exact hs
    · extract_lets all t
      split
      · exact State.haltFor_memWf.trans hs
      split
      · exact State.failColl_wf hs
      split
      · exact State.failColl_wf hs
      have ht : t.memWf = true := State.focus_memWf.trans (h _ _ _ _ _)
      split
      · exact State.failColl_wf ht
      · exact ht
  · exact hs

@[simp] theorem execCollectiveResult_wf {op : Nat} {remote : List Remote} (hs : s.memWf = true) :
    OutWf (execCollectiveResult core op remote s) := by
  unfold execCollectiveResult
  simp_all

@[simp] theorem State.abandonCur_wf (hs : s.memWf = true) : s.abandonCur.memWf = true := by
  unfold State.abandonCur
  repeat' split
  all_goals simp [hs]

@[simp] theorem State.withdrawColls_wf (hs : s.memWf = true) : s.withdrawColls.memWf = true := foldl_wf hs fun _ _ => State.failColl_wf

@[simp] theorem State.dropTransfers_wf (hs : s.memWf = true) : s.dropTransfers.memWf = true := by
  simp [State.dropTransfers, hs]

@[simp] theorem State.stopNow_wf {e : Eng} (hs : s.memWf = true) : (s.stopNow e).memWf = true := by
  fun_cases State.stopNow
  case case3 => exact State.stopEngine_memWf.trans hs
  case case4 => exact State.stopEngine_memWf.trans hs
  all_goals simp [hs]

@[simp] theorem execStopBoundaryReached_wf {e : Eng} (hs : s.memWf = true) : OutWf (execStopBoundaryReached core e s) := by
  unfold execStopBoundaryReached
  simp_all

end

/-! ### Command rings -/

section
variable {s : State} {q : Fin 64} {p : Packet}

@[simp] theorem State.takePacket_wf (hs : s.memWf = true) : (s.takePacket q).memWf = true := by
  have h (p n x f) : ((s.writeNat p n x).updIface q f).memWf = true := State.updIface_memWf.trans (State.writeNat_wf hs)
  fun_cases State.takePacket
  · exact hs
  · exact hs
  · exact State.memWf_mk.trans (h _ _ _ _)
  · exact State.complete_wf (h _ _ _ _)

@[simp] theorem State.pump_wf {fuel : Nat} (hs : s.memWf = true) : (s.pump q fuel).memWf = true := by
  fun_induction State.pump <;> simp_all

@[simp] theorem State.answer_wf {code : Code} {reason : Nat} {results : List Word} (hs : s.memWf = true) :
    (s.answer q p code reason results).memWf = true := by
  simp [State.answer, hs]

@[simp] theorem State.okCmd_wf {results : List Word} (hs : s.memWf = true) : (s.okCmd q p results).memWf = true := by
  simp [State.okCmd, hs]

@[simp] theorem State.refuseCmd_wf {reason : Nat} (hs : s.memWf = true) : (s.refuseCmd q p reason).memWf = true := by
  simp [State.refuseCmd, hs]

@[simp] theorem State.waitCmd_memWf : (s.waitCmd q p).memWf = s.memWf := rfl

@[simp] theorem State.putOff_memWf : (s.putOff q p).memWf = s.memWf := rfl

@[simp] theorem State.staged_wf {k : State} (hs : s.memWf = true) (hk : k.memWf = true) : (s.staged q p k).memWf = true := by
  unfold State.staged
  repeat' split
  all_goals simp [hs, hk]

@[simp] theorem State.onAdmin_wf {k : State} (hs : s.memWf = true) (hk : k.memWf = true) : (s.onAdmin q p k).memWf = true := by
  unfold State.onAdmin
  split <;> simp [hs, hk]

@[simp] theorem State.onPart_wf {k : Partition → State} (hs : s.memWf = true) (hk : ∀ x, (k x).memWf = true) :
    (s.onPart q p k).memWf = true := by
  unfold State.onPart
  repeat' split
  all_goals simp [hs, hk]

@[simp] theorem State.onCtx_wf {k : Partition → Context → State} (hs : s.memWf = true) (hk : ∀ x y, (k x y).memWf = true) :
    (s.onCtx q p k).memWf = true := by
  refine State.onPart_wf hs fun x => ?_
  repeat' split
  · exact State.refuseCmd_wf hs
  · exact State.refuseCmd_wf hs
  · exact hk _ _
  · exact State.refuseCmd_wf hs

@[simp] theorem State.notify_wf {n : BitVec 32} (hs : s.memWf = true) : (s.notify q n).memWf = true := by
  fun_cases State.notify <;> simp_all

@[simp] theorem State.writeControl_memWf {v : Word} : (s.writeControl q v).memWf = s.memWf := by
  fun_cases State.writeControl <;> simp_all

@[simp] theorem State.writeBar_wf {off : Nat} {v : Word} (hs : s.memWf = true) : (s.writeBar off v).memWf = true := by
  unfold State.writeBar
  extract_lets page q base
  have hb (f) : (base f).memWf = true := by
    dsimp only [base]
    split <;> exact hs
  split
  · exact hs
  · split <;> simp [hs, hb]

end

/-! ### Crews -/

section
variable {s : State} {ids : List Nat} {ctx n id target : Nat} {k : Crew} {code : List Byte}

@[simp] theorem State.revokeWindows_memWf : (s.revokeWindows ids).memWf = s.memWf := rfl

@[simp] theorem State.finishRevokes_memWf : s.finishRevokes.memWf = s.memWf := rfl

@[simp] theorem State.endCore_memWf : s.endCore.memWf = s.memWf := by
  simp [State.endCore]

@[simp] theorem execEndProg_wf (hs : s.memWf = true) : OutWf (execEndProg s) := by
  unfold execEndProg
  refine State.issueSeq_wf hs ?_
  repeat' split
  all_goals simp [hs]

@[simp] theorem State.releaseCores_memWf : (s.releaseCores ctx ids).memWf = s.memWf := by
  simp [State.releaseCores]

@[simp] theorem State.dropHarness_memWf : (s.dropHarness ctx).memWf = s.memWf := by
  unfold State.dropHarness
  split <;> rfl

@[simp] theorem State.setCrewEnded_memWf : (s.setCrewEnded n).memWf = s.memWf := rfl

@[simp] theorem State.oweCores_memWf : (s.oweCores k).memWf = s.memWf := by
  unfold State.oweCores
  split <;> rfl

@[simp] theorem State.finishCrew_wf (hs : s.memWf = true) : (s.finishCrew n).memWf = true := by
  unfold State.finishCrew
  repeat' split
  all_goals simp [hs]

@[simp] theorem State.forgetStood_memWf : (s.forgetStood id).memWf = s.memWf := rfl

@[simp] theorem State.placeCore_wf {crew rank : Nat} {p : LaunchPacket} {image : List Byte} (hs : s.memWf = true) :
    (s.placeCore crew ctx rank p code image id).memWf = true := by
  have h (n l m) : (((s.scrubStore id n).fillStore id 0 l).fillStore id (p.res.ls * 4096) m).memWf = true :=
    State.fillStore_wf (State.fillStore_wf (State.scrubStore_wf hs))
  exact State.forgetStood_memWf.trans (State.updCore_memWf.trans (h _ _ _))

@[simp] theorem State.placeCrew_wf {num : Nat} {p : LaunchPacket} {o : Origin} {image : List Byte} (hs : s.memWf = true) :
    (s.placeCrew num ctx p ids o code image).memWf = true := by
  have h : ((ids.zipIdx).foldl (fun s x => s.placeCore num ctx x.2 p code image x.1) s).memWf = true :=
    foldl_wf hs fun _ _ => State.placeCore_wf
  exact h

@[simp] theorem State.answerLaunch_wf {w : Waiting} {code : Code} {reason : Nat} {r : List Word} (hs : s.memWf = true) :
    (s.answerLaunch w code reason r).memWf = true := by
  unfold State.answerLaunch
  split <;> simp [hs]

@[simp] theorem State.dropWaiting_memWf : (s.dropWaiting n).memWf = s.memWf := rfl

@[simp] theorem State.placeWaiting_wf {w : Waiting} (hs : s.memWf = true) : (s.placeWaiting w ids).memWf = true := by
  have h : (s.dropWaiting w.num).memWf = true := State.dropWaiting_memWf.trans hs
  unfold State.placeWaiting
  extract_lets s1
  split
  · exact State.answerLaunch_wf (State.placeCrew_wf h)
  · extract_lets bad s2
    have h2 : s2.memWf = true := by
      dsimp only [s2]
      split
      · exact State.integrity_memWf.trans h
      · exact h
    exact State.answerLaunch_wf h2

@[simp] theorem State.placementEvent_wf (hs : s.memWf = true) : (s.placementEvent n ids).memWf = true := by
  unfold State.placementEvent
  repeat' split
  all_goals simp [hs]

@[simp] theorem State.refuseBlock_wf {b : LaunchBlock} {reason : Nat} {code : Code} (hs : s.memWf = true) :
    (s.refuseBlock target b reason code).memWf = true := by
  simp [State.refuseBlock, hs]

@[simp] theorem State.placeBlock_wf {b : LaunchBlock} {rest : List Nat} (hs : s.memWf = true) :
    (s.placeBlock target b rest).memWf = true := by
  unfold State.placeBlock
  extract_lets p
  split
  · exact State.placeCrew_wf hs
  · split
    · exact State.integrity_memWf.trans hs
    · exact State.refuseBlock_wf hs

@[simp] theorem State.blockTaken_wf {rest : List Nat} (hs : s.memWf = true) : (s.blockTaken target rest).memWf = true := by
  unfold State.blockTaken
  repeat' split
  all_goals simp [hs]

@[simp] theorem State.onRanks_memWf {f : Sequencer → Sequencer} : (s.onRanks k f).memWf = s.memWf := by
  simp [State.onRanks]

@[simp] theorem State.requestYield_memWf {why : Option Nat} : (s.requestYield k why).memWf = s.memWf := by
  simp [State.requestYield]

@[simp] theorem State.withdrawYield_memWf : (s.withdrawYield k).memWf = s.memWf := by
  unfold State.withdrawYield
  repeat' split
  all_goals simp

@[simp] theorem State.expire_memWf : (s.expire n).memWf = s.memWf := by
  unfold State.expire
  repeat' split
  all_goals rfl

@[simp] theorem State.discardCrew_wf (hs : s.memWf = true) : (s.discardCrew n).memWf = true := by
  unfold State.discardCrew
  split <;> simp [hs]

@[simp] theorem State.saveCrew_memWf : (s.saveCrew k).memWf = s.memWf := by
  simp [State.saveCrew]

@[simp] theorem State.saveEvent_wf (hs : s.memWf = true) : (s.saveEvent n).memWf = true := by
  have h (k : Crew) : ((s.revokeWindows k.cores).saveCrew k).memWf = true :=
    State.saveCrew_memWf.trans (State.revokeWindows_memWf.trans hs)
  fun_cases State.saveEvent
  case case3 => exact State.dropHarness_memWf.trans (State.discardCrew_wf (h _))
  case case4 => exact h _
  all_goals simp +zetaDelta [hs]

@[simp] theorem State.reissueColls_wf (hs : s.memWf = true) : s.reissueColls.memWf = true := by
  unfold State.reissueColls
  refine foldl_wf hs fun t x ht => ?_
  split
  · exact State.failCollAt_wf ht
  · exact ht

@[simp] theorem State.rebind_wf (hs : s.memWf = true) : (s.rebind ctx id).memWf = true := by
  unfold State.rebind
  split <;> simp [hs]

@[simp] theorem State.vecResumed_memWf : (s.vecResumed id).memWf = s.memWf := by
  simp [State.vecResumed]

@[simp] theorem State.restoreCrew_wf (hs : s.memWf = true) : (s.restoreCrew k code).memWf = true := by
  have h1 (l : List ((Nat × SavedCore) × Nat)) : (l.foldl (fun s x => s.restoreCore k code x.2 x.1.1 x.1.2) s).memWf = true :=
    foldl_wf hs fun _ _ => State.restoreCore_wf
  unfold State.restoreCrew
  extract_lets l s1 s2 s3
  have h2 : s2.memWf = true := h1 _
  have h3 : s3.memWf = true := by
    dsimp only [s3]
    rw [State.focus_memWf, foldl_memWf fun _ _ => State.vecResumed_memWf]
    exact foldl_wf h2 fun _ _ => State.rebind_wf
  exact State.deliverAll_wf h3

@[simp] theorem State.resumeCrew_wf (hs : s.memWf = true) : (s.resumeCrew k).memWf = true := by
  unfold State.resumeCrew
  split <;> simp [hs]

end

/-! ### The scheduler -/

section
variable {s : State} {ctx : Nat} {cores : List Nat}

@[simp] theorem State.updHarness_memWf {f : Harness → Harness} : (s.updHarness ctx f).memWf = s.memWf := rfl

@[simp] theorem State.judgeLate_wf {pa : PAddr} {w : Nat} (hs : s.memWf = true) : (s.judgeLate ctx pa w).memWf = true := by
  unfold State.judgeLate
  extract_lets cells
  exact State.doneAdd_wf (State.store_wf hs)

@[simp] theorem State.judge_wf {h : Harness} {pa : PAddr} {w : Nat} (hs : s.memWf = true) : (s.judge ctx h pa w).1.memWf = true := by
  have hc {e n} : ((s.logCtx ctx e n)).memWf = true := State.logCtx_wf hs
  unfold State.judge
  extract_lets d limit
  split
  · split
    · exact hs
    · exact hc
  next s1 _ _ =>
  have h1 : s1.memWf = true := by
    dsimp only [s1]
    split
    · exact hc
    · exact hs
  clear_value s1
  split
  · split
    all_goals dsimp only
    · exact State.judgeLate_wf h1
    · exact State.logCtx_wf h1
    · exact State.integrity_memWf.trans h1
  · exact h1

@[simp] theorem State.scanRow_wf (hs : s.memWf = true) : (s.scanRow ctx).memWf = true := by
  fun_cases State.scanRow
  case case7 => exact State.updHarness_memWf.trans (State.judge_wf hs)
  all_goals simp [hs]

@[simp] theorem State.launchStage_wf {h : Harness} {st : Nat} {p : LaunchPacket} (hs : s.memWf = true) :
    (s.launchStage ctx h st p cores).1.memWf = true := by
  unfold State.launchStage
  repeat' split
  all_goals simp [hs]

@[simp] theorem State.takeSteps_wf {skip : List Nat} {fuel : Nat} (hs : s.memWf = true) :
    (s.takeSteps ctx cores skip fuel).memWf = true := by
  induction fuel generalizing s skip with
  | zero => exact hs
  | succ n ih =>
    unfold State.takeSteps
    split
    · exact hs
    extract_lets place
    have hp (x) : (place x).memWf = true := ih (State.launchStage_wf hs)
    split
    · exact hs
    split
    · exact hp _
    split
    · split
      · exact ih (State.resumeCrew_wf hs)
      · exact hp _
    split
    · split
      · exact ih (State.requestYield_memWf.trans hs)
      · exact hs
    · exact hs

@[simp] theorem State.settleOwed_memWf : (s.settleOwed ctx).memWf = s.memWf := rfl

@[simp] theorem State.decision_wf {withdraw : List Nat} (hs : s.memWf = true) : (s.decision ctx cores withdraw).memWf = true := by
  fun_cases State.decision
  · exact hs
  · exact hs
  · refine State.takeSteps_wf (State.settleOwed_memWf.trans ((foldl_memWf fun t n => ?_).trans hs))
    repeat' split
    all_goals simp

@[simp] theorem State.resumeEvent_wf {n : Nat} (hs : s.memWf = true) : (s.resumeEvent n).memWf = true := by
  unfold State.resumeEvent
  repeat' split
  all_goals simp [hs]

end

/-! ### The vector queue -/

section
variable {s : State} {ok : EType → Bool} {d a : TreeOp} {wa : Bool} {e : VpEntry}

@[simp] theorem State.vecLanes_wf {act : Nat → Bool} {w : Nat} {srcs : List (TreeOp × Bool)} {f : List (List Nat) → Nat → Nat × BitVec 5}
    (hs : s.memWf = true) :
    OutWf (s.vecLanes ok act d w srcs f) := by
  refine State.issueVec_wf hs ?_
  repeat' split
  all_goals simp [hs]

@[simp] theorem State.vec1_wf {f : EType → Nat → Nat} (hs : s.memWf = true) : OutWf (s.vec1 ok d a wa f) := by
  simp [State.vec1, hs]

@[simp] theorem State.vec2_wf {b : TreeOp} {wb : Bool} {f : EType → Nat → Nat → Nat} (hs : s.memWf = true) :
    OutWf (s.vec2 ok d a b wa wb f) := by
  simp [State.vec2, hs]

@[simp] theorem State.vecReduce_wf {f : EType → List (Nat × Nat) → Nat × Nat} (hs : s.memWf = true) : OutWf (s.vecReduce d a wa f) := by
  refine State.issueVec_wf hs ?_
  repeat' split
  all_goals simp [hs]

@[simp] theorem State.vpHandle_wf {h : Hnd} {write : Bool} {k : Binding → Option Nat → EngIssue} (hk : ∀ x y, (k x y).MemWf) :
    (s.vpHandle h write k).MemWf := by
  unfold State.vpHandle
  repeat' split
  all_goals simp_all

@[simp] theorem State.vecUndo_memWf {pc detail : Word} {eaten : List Nat} : (s.vecUndo pc detail eaten).memWf = s.memWf := rfl

@[simp] theorem State.vecLost_memWf {pc detail : Word} : (s.vecLost pc detail).memWf = s.memWf := by
  simp [State.vecLost]

@[simp] theorem State.headLost_wf (hs : s.memWf = true) : (s.headLost e).memWf = true := by
  unfold State.headLost
  repeat' split
  all_goals simp [hs]

@[simp] theorem State.performHead_wf (hs : s.memWf = true) : s.performHead.memWf = true := by
  fun_cases State.performHead
  case case2 h => simpa using memWf_of_snd h (State.performVp_wf hs)
  all_goals simp [hs]

@[simp] theorem State.setHead_memWf : (s.setHead e).memWf = s.memWf := rfl

@[simp] theorem State.performRest_wf (hs : s.memWf = true) : s.performRest.memWf = true := by
  unfold State.performRest
  split <;> simp [hs]

@[simp] theorem State.performBytes_wf {m : Nat} (hs : s.memWf = true) : (s.performBytes e m).memWf = true := by
  fun_cases State.performBytes <;> simp_all [State.writeCells_wf]

@[simp] theorem State.performElems_wf {a n : Nat} (hs : s.memWf = true) : (s.performElems a n).memWf = true := by
  fun_cases State.performElems <;> simp_all

@[simp] theorem State.performPart_wf {x1 : Option (Nat × Nat)} (hs : s.memWf = true) : (s.performPart x1).memWf = true := by
  unfold State.performPart
  split <;> simp [hs]

@[simp] theorem State.releaseVec_memWf {r : VecRegion} : (s.releaseVec r).memWf = s.memWf := rfl

@[simp] theorem State.closeVec_wf {k : State → EngIssue} (hs : s.memWf = true) (hk : ∀ t : State, t.memWf = true → (k t).MemWf) :
    (s.closeVec k).MemWf := by
  fun_cases State.closeVec <;> simp_all

end

/-! ### The vector stream -/

section
variable {s : State} {d a : TreeOp} {wa : Bool} {h : Hnd}

@[simp] theorem execVBitt_wf {imm : BitVec 9} (hs : s.memWf = true) : OutWf (execVBitt d a wa imm s) := by
  unfold execVBitt
  refine State.issueVec_wf hs ?_
  repeat' split
  all_goals simp [hs]

@[simp] theorem State.vecCompare_wf {n : Fin 8} {b : TreeOp} {wb : Bool} {f : Int → Int → Bool} (hs : s.memWf = true) :
    OutWf (s.vecCompare n a b wa wb f) := by
  refine State.issueVec_wf hs ?_
  repeat' split
  all_goals simp [hs]

@[simp] theorem State.maskWord_wf {d : Fin 8} {m : BitVec 256} (hs : s.memWf = true) : OutWf (s.maskWord d m) := hs

@[simp] theorem execVBcast_wf {imm : BitVec 9} (hs : s.memWf = true) : OutWf (execVBcast d a wa imm s) := by
  unfold execVBcast
  split <;> simp [hs]

@[simp] theorem execVLd_wf {j : KIx} (hs : s.memWf = true) : OutWf (execVLd d h j s) := by
  refine State.issueVec_wf hs ?_
  split
  · split
    · simp
    · refine State.vpHandle_wf fun b hold => ?_
      split <;> simp [hs]
  · simp

@[simp] theorem execVSt_wf {j : KIx} (hs : s.memWf = true) : OutWf (execVSt d h j wa s) := by
  refine State.issueVec_wf hs ?_
  split
  · split
    · simp
    · refine State.vpHandle_wf fun b hold => ?_
      split <;> simp [hs]
  · simp

@[simp] theorem execVGather_wf (hs : s.memWf = true) : OutWf (execVGather d a h wa s) := by
  unfold execVGather
  refine State.issueVec_wf hs ?_
  repeat' split
  all_goals simp [hs]

@[simp] theorem execVScatter_wf {wb : Bool} (hs : s.memWf = true) : OutWf (execVScatter d a h wa wb s) := by
  unfold execVScatter
  refine State.issueVec_wf hs ?_
  repeat' split
  all_goals simp [hs]

@[simp] theorem State.shapeWord_wf {sh : Shape} (hs : s.memWf = true) : OutWf (s.shapeWord sh) := hs

@[simp] theorem State.vecLoop_wf {f : Engine → Engine} (hs : s.memWf = true) : OutWf (s.vecLoop f) := hs

@[simp] theorem execVMendOpen_wf (hs : s.memWf = true) : OutWf (execVMendOpen s) := by
  unfold execVMendOpen
  refine State.issueVec_wf hs ?_
  repeat' split
  all_goals simp [hs]

@[simp] theorem execVMendSave_wf {k : KIx} {n : BitVec 12} (hs : s.memWf = true) : OutWf (execVMendSave k n s) := by
  unfold execVMendSave
  refine State.issueVec_wf hs ?_
  repeat' split
  all_goals simp [hs]

@[simp] theorem execVMendClose_wf (hs : s.memWf = true) : OutWf (execVMendClose s) := by
  unfold execVMendClose
  repeat' split
  all_goals simp [hs]

@[simp] theorem execVMark_wf (hs : s.memWf = true) : OutWf (execVMark s) := by
  unfold execVMark
  refine State.issueVec_wf hs ?_
  repeat' split
  all_goals simp [hs]

@[simp] theorem execVEnd_wf (hs : s.memWf = true) : OutWf (execVEnd s) := by
  refine State.issueVec_wf hs (State.closeVec_wf hs fun t ht => ?_)
  split <;> simp [ht]

@[simp] theorem execVectorLoadLand_wf {p : VpPart} (hs : s.memWf = true) : OutWf (execVectorLoadLand p s) := by
  refine State.onCore_wf hs fun t ht => ?_
  split <;> simp [ht]

@[simp] theorem execVpAccessPerformed_wf {p : VpPart} (hs : s.memWf = true) : OutWf (execVpAccessPerformed p s) := by
  refine State.onCore_wf hs fun t ht => ?_
  split <;> simp [ht]

end

/-! ### Strikes and soft errors -/

section
variable {s : State} {st : StreamId} {core : Nat}

@[simp] theorem State.turnNext_memWf : (s.turnNext st).memWf = s.memWf := rfl

@[simp] theorem State.tryAgain_wf (hs : s.memWf = true) : (s.tryAgain st).memWf = true := by
  unfold State.tryAgain
  repeat' split
  all_goals simp [hs]

@[simp] theorem execWaitSatisfied_wf (hs : s.memWf = true) : OutWf (execWaitSatisfied core st s) := by
  unfold execWaitSatisfied
  simp_all

@[simp] theorem stateOf_wf {d : State} {o : Out} (hd : d.memWf = true) (ho : OutWf o) : (stateOf d o).memWf = true := by
  unfold stateOf
  repeat' split
  all_goals simp_all

@[simp] theorem State.tryClose_wf (hs : s.memWf = true) : (s.tryClose st).memWf = true := by
  unfold State.tryClose
  repeat' split
  all_goals simp [hs]

@[simp] theorem execMendRelease_wf (hs : s.memWf = true) : OutWf (execMendRelease core st s) := by
  refine State.onCore_wf hs fun t ht => ?_
  split <;> simp [ht]

@[simp] theorem execInnerClose_wf (hs : s.memWf = true) : OutWf (execInnerClose core st s) := by
  refine State.onCore_wf hs fun t ht => ?_
  split <;> simp [ht]

@[simp] theorem State.completeVp_wf {l : List VpEntry} (hs : s.memWf = true) : (s.completeVp l).memWf = true := by
  induction l generalizing s with
  | nil => exact hs
  | cons e l ih =>
    unfold State.completeVp
    repeat' split
    · exact hs
    · next h => exact ih (by simpa using memWf_of_snd h (State.performVp_wf hs))
    · exact hs

@[simp] theorem State.haltCore_wf {h : Halt} {id : Nat} (hs : s.memWf = true) : (s.haltCore h id).memWf = true := by
  simp [State.haltCore, hs]

@[simp] theorem State.finishHalt_wf {ctx : Nat} (hs : s.memWf = true) : (s.finishHalt ctx).memWf = true := by
  fun_cases State.finishHalt
  case case4 =>
    refine State.updCtx_memWf.trans (State.postEvent_wf (State.focus_memWf.trans (foldl_wf hs fun _ _ => State.haltCore_wf)))
  all_goals exact hs

@[simp] theorem State.addReport_memWf {l : List StreamId} : (s.addReport core l).memWf = s.memWf := by
  unfold State.addReport
  repeat' split
  all_goals simp

@[simp] theorem State.haltAll_memWf {code : Code} : (s.haltAll code).memWf = s.memWf := foldl_memWf fun _ _ => rfl

@[simp] theorem State.memoryUpset_wf {fixable : Bool} {f : State → State} (hs : s.memWf = true)
    (hf : ∀ t : State, t.memWf = true → (f t).memWf = true) :
    (s.memoryUpset fixable f).memWf = true := by
  unfold State.memoryUpset
  split <;> simp [hs, hf]

@[simp] theorem State.strikeColl_wf {n : Nat} (hs : s.memWf = true) : (s.strikeColl core n).memWf = true := by
  refine State.onCore_wf hs fun t ht => ?_
  repeat' split
  · exact State.failColl_wf ht
  all_goals exact ht

@[simp] theorem State.undoLost_wf {depth i : Nat} (hs : s.memWf = true) : (s.undoLost core st depth i).memWf = true := by
  fun_cases State.undoLost <;> simp_all

@[simp] theorem State.softError_wf {p : StruckPart} (hs : s.memWf = true) : (s.softError p).memWf = true := by
  unfold State.softError
  repeat' split
  all_goals simp_all

@[simp] theorem execStrikeReport_wf (hs : s.memWf = true) : OutWf (execStrikeReport core s) := by
  unfold execStrikeReport
  simp_all

@[simp] theorem State.parityError_wf {e : Eng} (hs : s.memWf = true) : (s.parityError e).memWf = true := by
  unfold State.parityError
  split <;> simp [hs]

@[simp] theorem execEngineParityError_wf {e : Eng} (hs : s.memWf = true) : OutWf (execEngineParityError core e s) := by
  unfold execEngineParityError
  simp_all

end

/-! ### The device clock -/

section
variable {s : State} {a b lo hi : Int}

@[simp] theorem State.correctDie_memWf {die : Fin 4} : (s.correctDie die a b).memWf = s.memWf := by
  fun_cases State.correctDie <;> rfl

@[simp] theorem State.settleTau_memWf : (s.settleTau a b).memWf = s.memWf := by
  fun_cases State.settleTau <;> simp_all

@[simp] theorem State.correctAll_memWf : (s.correctAll a b).memWf = s.memWf := by
  simp [State.correctAll]

@[simp] theorem State.startClocks_memWf {base : Int} : (s.startClocks base lo hi).memWf = s.memWf := rfl

@[simp] theorem State.ptm_memWf : (s.ptm lo hi).memWf = s.memWf := by
  fun_cases State.ptm
  all_goals simp

@[simp] theorem State.timeWord_memWf {die : Fin 4} : (s.timeWord die lo hi).memWf = s.memWf := by
  unfold State.timeWord
  repeat' split
  all_goals simp

@[simp] theorem State.updGroup_memWf {f : Group → Group} : (s.updGroup f).memWf = s.memWf := rfl

@[simp] theorem State.rampStep_memWf : s.rampStep.memWf = s.memWf := by
  unfold State.rampStep
  split <;> rfl

@[simp] theorem State.hostGets_memWf {bytes : List Byte} {lost : Bool} : (s.hostGets bytes lost).memWf = s.memWf := rfl

@[simp] theorem State.hostAtomic_wf {op : HostAtomic} {l : List PAddr} {value compare : Word} (hs : s.memWf = true) :
    (s.hostAtomic op l value compare).memWf = true := by
  unfold State.hostAtomic
  split <;> simp [hs, State.store_wf]

@[simp] theorem State.writeMsix_memWf {v : Fin 65} {addr : Word} {data : BitVec 32} {masked : Bool} :
    (s.writeMsix v addr data masked).memWf = s.memWf := rfl

@[simp] theorem State.hostAccess_wf {a : HostAccess} (hs : s.memWf = true) : (s.hostAccess a).memWf = true := by
  fun_cases State.hostAccess
  case case5 h => exact State.hostGets_memWf.trans (memWf_of_snd h (State.store_wf hs))
  case case6 h => exact State.hostGets_memWf.trans (memWf_of_snd h (State.store_wf hs))
  all_goals simp [hs]

end

/-! ### The range coder -/

section
variable {s : State} {c : TreeOp}

@[simp] theorem State.coderMisplaced_wf {ops : List (TreeOp × Nat)} : (s.coderMisplaced c ops).MemWf := by
  simp [State.coderMisplaced]

@[simp] theorem State.coderHandle_wf {init : Option (Hnd × Bool)} {k : EngIssue} (hs : s.memWf = true) (hk : k.MemWf) :
    (s.coderHandle init k).MemWf := by
  unfold State.coderHandle
  split
  · exact hk
  · refine State.vpHandle_wf fun b hold => ?_
    split
    · exact hs
    · exact hk

@[simp] theorem State.coderWord_wf {init : Option (Hnd × Bool)} {use : CoderUse} {srcs : List (TreeOp × Nat × Bool)} {dst : Option TreeOp}
    {f : Nat → List (List Nat) → CLane → CRun} {post : List (Nat × CRun) → Core → Core} (hs : s.memWf = true) :
    OutWf (s.coderWord c init use srcs dst f post) := by
  refine State.issueVec_wf hs ?_
  dsimp only
  split
  · simp
  split
  · refine State.coderHandle_wf hs ?_
    split
    · next h => exact State.vecTest_wf hs _ h
    · split <;> simp [hs]
  · simp

@[simp] theorem execRcStat_wf {b : TreeOp} (hs : s.memWf = true) : OutWf (execRcStat c b s) := by
  unfold execRcStat
  refine State.issueVec_wf hs ?_
  repeat' split
  all_goals simp [hs]

end

/-! ### The group -/

section
variable {s : State} {limit member sender : Nat} {stamp : Int}

@[simp] theorem State.received_wf {t : State} (hs : s.memWf = true) (ht : t.memWf = true) : (s.received t).memWf = true := by
  unfold State.received
  split <;> simp [hs, ht]

@[simp] theorem State.sendFrame_memWf : s.sendFrame.memWf = s.memWf := by
  unfold State.sendFrame
  split <;> rfl

@[simp] theorem State.frameIn_memWf {f : TimeFrame} {lo hi : Int} : (s.frameIn f lo hi).memWf = s.memWf := by
  fun_cases State.frameIn
  all_goals simp +zetaDelta

@[simp] theorem State.startLeave_memWf : s.startLeave.memWf = s.memWf := rfl

@[simp] theorem State.forecast_memWf : (s.forecast limit).memWf = s.memWf := by
  unfold State.forecast
  repeat' split
  all_goals rfl

@[simp] theorem State.limitIn_memWf {stamp : LimitStamp} : (s.limitIn member limit stamp).memWf = s.memWf := by
  unfold State.limitIn
  split <;> rfl

@[simp] theorem State.tryRemove_memWf : (s.tryRemove member).memWf = s.memWf := by
  fun_cases State.tryRemove <;> simp_all

@[simp] theorem State.tryAll_memWf : s.tryAll.memWf = s.memWf := by
  simp [State.tryAll]

@[simp] theorem State.stampsPassed_memWf : s.stampsPassed.memWf = s.memWf := by
  unfold State.stampsPassed
  repeat' split
  all_goals simp

@[simp] theorem State.joinIn_memWf {device : Nat} {stamp : Option Int} : (s.joinIn device limit stamp).memWf = s.memWf := by
  unfold State.joinIn
  repeat' split
  all_goals rfl

@[simp] theorem State.joinReady_memWf : s.joinReady.memWf = s.memWf := by
  unfold State.joinReady
  split <;> rfl

@[simp] theorem State.ackIn_memWf {what : AckOf} : (s.ackIn member what).memWf = s.memWf := by
  unfold State.ackIn
  repeat' split
  all_goals simp

@[simp] theorem State.answerJoin_wf {code : Code} {reason : Nat} (hs : s.memWf = true) : (s.answerJoin code reason).memWf = true := by
  unfold State.answerJoin
  exact foldl_wf hs fun _ _ => State.answer_wf

@[simp] theorem State.joinFails_wf (hs : s.memWf = true) : s.joinFails.memWf = true := by
  unfold State.joinFails
  repeat' split
  all_goals simp [hs]

@[simp] theorem State.tellLimit_memWf : s.tellLimit.memWf = s.memWf := by
  unfold State.tellLimit
  repeat' split
  all_goals simp

@[simp] theorem State.comeIn_wf (hs : s.memWf = true) : s.comeIn.memWf = true := by
  unfold State.comeIn
  split <;> simp [hs]

@[simp] theorem State.joinDone_wf (hs : s.memWf = true) : s.joinDone.memWf = true := by
  unfold State.joinDone
  repeat' split
  all_goals simp [hs]

@[simp] theorem State.leaveIn_memWf : (s.leaveIn member stamp).memWf = s.memWf := by
  unfold State.leaveIn
  split <;> rfl

@[simp] theorem State.leaveDone_memWf : s.leaveDone.memWf = s.memWf := by
  unfold State.leaveDone
  split <;> rfl

@[simp] theorem State.groupSilent_wf {agreement : Nat} (hs : s.memWf = true) : (s.groupSilent member agreement stamp).memWf = true :=
    foldl_wf hs fun _ _ => State.postEvent_wf

@[simp] theorem State.confirmed_memWf : (s.confirmed sender member).memWf = s.memWf := by
  unfold State.confirmed
  repeat' split
  all_goals simp

@[simp] theorem State.silenceFound_wf (hs : s.memWf = true) : (s.silenceFound member).memWf = true := by
  fun_cases State.silenceFound
  case case4 => exact State.confirmed_memWf.trans hs
  case case5 => exact State.tryRemove_memWf.trans (State.groupSilent_wf hs)
  all_goals exact hs

@[simp] theorem State.silentIn_wf {agreement : Nat} (hs : s.memWf = true) : (s.silentIn sender member stamp agreement).memWf = true := by
  fun_cases State.silentIn
  case case3 => exact State.confirmed_memWf.trans hs
  case case4 s1 s2 =>
    have h2 : s2.memWf = true := State.updGroup_memWf.trans (State.comeIn_wf hs)
    rw [State.tryAll_memWf]
    split
    · exact State.groupSilent_wf h2
    · exact h2
  all_goals exact hs

@[simp] theorem execConfirm_wf (hs : s.memWf = true) : OutWf (execConfirm sender member s) := by
  unfold execConfirm
  split <;> simp [hs]

@[simp] theorem State.portsDown_memWf : s.portsDown.memWf = s.memWf := by
  unfold State.portsDown
  exact foldl_memWf fun _ _ => rfl

end

/-! ### Host commands and the firmware -/

section
variable {s : State} {q : Fin 64} {a n part ctx : Nat} {l : List Byte} {p : Packet} {x : Pending}

@[simp] theorem State.hostWrite_wf (hs : s.memWf = true) : (s.hostWrite q a l).memWf = true := by
  simp [State.hostWrite, hs]

@[simp] theorem State.hostDone_wf {results : List Word} (hs : s.memWf = true) : (s.hostDone q p a l results).memWf = true := by
  unfold State.hostDone
  split <;> simp [hs]

@[simp] theorem State.scrubCore_wf {id : Nat} (hs : s.memWf = true) : (s.scrubCore id).memWf = true := by
  simp [State.scrubCore, State.scrubStore_wf hs]

@[simp] theorem State.scrubPart_wf {p : Partition} (hs : s.memWf = true) : (s.scrubPart p).memWf = true := by
  have h1 : (p.cores.foldl State.scrubCore s).memWf = true := foldl_wf hs fun _ _ => State.scrubCore_wf
  exact foldl_wf h1 fun _ _ => State.scrubFrame_wf

@[simp] theorem State.buildPart_wf {num : Nat} (hs : s.memWf = true) : (s.buildPart q p num).memWf = true := by
  have h (x) : ((s.scrubPart x).writeTable num x.s2).memWf = true := State.writeTable_wf (State.scrubPart_wf hs)
  exact State.okCmd_wf (h _)

@[simp] theorem execPartCreate_wf (hs : s.memWf = true) : OutWf (execPartCreate q p s) := by
  unfold execPartCreate
  repeat' split
  all_goals simp [hs]

@[simp] theorem State.haltPart_memWf : (s.haltPart n).memWf = s.memWf := foldl_memWf fun _ _ => rfl

@[simp] theorem execPartDestroy_wf (hs : s.memWf = true) : OutWf (execPartDestroy q p s) := by
  unfold execPartDestroy
  split <;> simp [hs]

@[simp] theorem State.buildCtx_wf (hs : s.memWf = true) : (s.buildCtx q p part n).memWf = true := by
  simp [State.buildCtx, hs]

@[simp] theorem execCtxCreate_wf (hs : s.memWf = true) : OutWf (execCtxCreate q p s) := by
  refine State.onPart_wf hs fun x => ?_
  repeat' split
  all_goals simp [hs]

@[simp] theorem execCtxDestroy_wf (hs : s.memWf = true) : OutWf (execCtxDestroy q p s) := by
  simp [execCtxDestroy, hs]

@[simp] theorem State.dropContext_wf (hs : s.memWf = true) : (s.dropContext n).memWf = true := by
  unfold State.dropContext
  extract_lets saved s1 gone s2 s3 s4
  have h1 : s1.memWf = true := foldl_wf hs fun _ _ => State.discardCrew_wf
  have h2 : s2.memWf = true := foldl_wf h1 fun t w ht => State.answerLaunch_wf (State.dropWaiting_memWf.trans ht)
  have h4 : s4.memWf = true := foldl_wf h2 fun _ _ => State.scrubCore_wf
  exact h4

@[simp] theorem State.writeAll_wf {x1 : List (List PAddr × List Byte)} (hs : s.memWf = true) : (s.writeAll x1).2.memWf = true := by
  induction x1 generalizing s with
  | nil => exact hs
  | cons a l ih => exact ih (State.store_wf hs)

@[simp] theorem State.unreachable_wf {l : List Code} (hs : s.memWf = true) : (s.unreachable q p ctx l).memWf = true := by
  simp [State.unreachable, hs]

@[simp] theorem State.loaded_wf {r : Ecc × State} {object : List Byte} {d : Nat} (hs : s.memWf = true) (hr : r.2.memWf = true) :
    (s.loaded q p ctx r object d).memWf = true := by
  unfold State.loaded
  split <;> simp [hs, hr]

@[simp] theorem execLoad_wf (hs : s.memWf = true) : OutWf (execLoad q p s) := by
  refine State.onCtx_wf hs fun x c => ?_
  dsimp only
  repeat' split
  all_goals simp [hs]

@[simp] theorem execLaunch_wf (hs : s.memWf = true) : OutWf (execLaunch q p s) := by
  refine State.onCtx_wf hs fun x c => ?_
  repeat' split
  all_goals simp [hs]

@[simp] theorem execHarness_wf (hs : s.memWf = true) : OutWf (execHarness q p s) := by
  refine State.onCtx_wf hs fun x c => ?_
  repeat' split
  all_goals simp [hs]

@[simp] theorem State.withdrawStages_memWf : (s.withdrawStages ctx).memWf = s.memWf := by
  simp [State.withdrawStages]

@[simp] theorem execHarnessEnd_wf (hs : s.memWf = true) : OutWf (execHarnessEnd q p s) := by
  refine State.onCtx_wf hs fun x c => ?_
  dsimp only
  repeat' split
  · exact State.refuseCmd_wf hs
  · exact State.refuseCmd_wf hs
  · refine State.okCmd_wf (State.dropHarness_memWf.trans (foldl_wf ?_ fun _ _ => State.discardCrew_wf))
    simpa using hs

@[simp] theorem execResolve_wf (hs : s.memWf = true) : OutWf (execResolve q p s) := by
  refine State.onCtx_wf hs fun x c => ?_
  split <;> simp [hs]

@[simp] theorem execRefuse_wf (hs : s.memWf = true) : OutWf (execRefuse q p s) := by
  refine State.onCtx_wf hs fun x c => ?_
  split <;> simp [hs]

@[simp] theorem State.unmap_memWf {va : Nat} : (s.unmap ctx va n).memWf = s.memWf := by
  simp [State.unmap]

@[simp] theorem execUnmap_wf (hs : s.memWf = true) : OutWf (execUnmap q p s) := by
  unfold execUnmap
  split <;> simp [hs]

@[simp] theorem execCollBind_wf (hs : s.memWf = true) : OutWf (execCollBind q p s) := by
  refine State.onCtx_wf hs fun x c => ?_
  split <;> simp [hs]

@[simp] theorem execDebugHalt_wf (hs : s.memWf = true) : OutWf (execDebugHalt q p s) := by
  refine State.onCtx_wf hs fun x c => ?_
  repeat' split
  all_goals simp [hs]

@[simp] theorem State.landHeld_wf {id : Nat} (hs : s.memWf = true) : (s.landHeld id).memWf = true := by
  refine foldl_wf (by simpa using hs) fun t n ht => ?_
  split
  · exact ht
  · exact State.landEvent_wf ht

@[simp] theorem execDebugResume_wf (hs : s.memWf = true) : OutWf (execDebugResume q p s) := by
  refine State.onCtx_wf hs fun x c => ?_
  dsimp only
  repeat' split
  · exact State.refuseCmd_wf hs
  · exact State.refuseCmd_wf hs
  · refine State.okCmd_wf (State.deliverAll_wf ?_)
    rw [foldl_memWf fun _ _ => State.updCore_memWf, State.focus_memWf, foldl_memWf fun _ _ => State.vecResumed_memWf]
    exact foldl_wf hs fun _ _ => State.landHeld_wf

@[simp] theorem execDebugReadState_wf (hs : s.memWf = true) : OutWf (execDebugReadState q p s) := by
  refine State.onCtx_wf hs fun x c => ?_
  split <;> simp [hs]

@[simp] theorem State.copyLog_wf {l : List LogEntry} (hs : s.memWf = true) : (s.copyLog q p l).memWf = true := by
  simp [State.copyLog, hs]

@[simp] theorem execLogRead_wf (hs : s.memWf = true) : OutWf (execLogRead q p s) := by
  unfold execLogRead
  split <;> simp [hs]

@[simp] theorem State.attest_wf {c : Option Context} (hs : s.memWf = true) : (s.attest q p c).memWf = true := by
  unfold State.attest
  repeat' split
  all_goals simp [hs]

@[simp] theorem execAttest_wf (hs : s.memWf = true) : OutWf (execAttest q p s) := by
  unfold execAttest
  repeat' split
  all_goals simp [hs]

@[simp] theorem State.finishBoot_wf (hs : s.memWf = true) : s.finishBoot.memWf = true := by
  have h (l b f) : State.memWf { s with hbm := [], lost := l, badTag := b, fw := f } = true := by
    have hs' := hs
    simp only [State.memWf, Bool.and_eq_true] at hs' ⊢
    exact ⟨⟨rfl, hs'.1.2⟩, hs'.2⟩
  fun_cases State.finishBoot
  · exact hs
  · exact hs
  · exact h _ _ _
  · exact State.updGroup_memWf.trans (h _ _ _)

@[simp] theorem State.applyImage_memWf : (s.applyImage l).memWf = s.memWf := by
  refine (foldl_memWf fun _ _ => ?_).trans (foldl_memWf fun _ _ => ?_) <;> rfl

@[simp] theorem execConfig_wf (hs : s.memWf = true) : OutWf (execConfig q p s) := by
  unfold execConfig
  repeat' split
  all_goals simp [hs]

@[simp] theorem execPatch_wf (hs : s.memWf = true) : OutWf (execPatch q p s) := by
  unfold execPatch
  repeat' split
  all_goals simp [hs]

@[simp] theorem State.boot_wf (hs : s.memWf = true) : s.boot.memWf = true := by
  have h (l f n sch c) :
      State.memWf { State.reset with host := s.host, lost := l, fw := f, now := n, sched := sch, choices := c } = true := by
    have hs' := hs
    simp only [State.memWf, Bool.and_eq_true] at hs' ⊢
    exact ⟨⟨rfl, rfl⟩, hs'.2⟩
  exact h _ _ _ _ _

@[simp] theorem execTimeSet_wf (hs : s.memWf = true) : OutWf (execTimeSet q p s) := by
  unfold execTimeSet
  split <;> simp [hs]

@[simp] theorem execGroupJoin_wf (hs : s.memWf = true) : OutWf (execGroupJoin q p s) := by
  unfold execGroupJoin
  repeat' split
  all_goals simp [hs]

@[simp] theorem execGroupLeave_wf (hs : s.memWf = true) : OutWf (execGroupLeave q p s) := by
  unfold execGroupLeave
  split <;> simp [hs]

@[simp] theorem State.askCovered_memWf : (s.askCovered q part).memWf = s.memWf := by
  refine foldl_memWf fun t k => ?_
  split <;> simp

@[simp] theorem State.checkpoint_wf (hs : s.memWf = true) : (s.checkpoint q p).memWf = true := by
  unfold State.checkpoint
  split <;> simp [hs]

@[simp] theorem execCheckpoint_wf (hs : s.memWf = true) : OutWf (execCheckpoint q p s) := by
  unfold execCheckpoint
  split <;> simp [hs]

@[simp] theorem State.unaskCovered_memWf : (s.unaskCovered q part).memWf = s.memWf := by
  simp [State.unaskCovered]

@[simp] theorem State.writeImage_wf (hs : s.memWf = true) : (s.writeImage q p).memWf = true := by
  have h (head) : ((s.keepImage q p.part head).unaskCovered q p.part).memWf = true := State.unaskCovered_memWf.trans hs
  exact State.hostDone_wf (h _)

@[simp] theorem State.writeSector_wf {keys : List (Partition × SectorKeys)} {sealed : List Byte} (hs : s.memWf = true) :
    (s.writeSector keys a sealed).memWf = true := by
  have h (k : SectorKeys) : (s.store (cellsAt ⟨.hbm, a⟩ (fill 64 (openSector k a sealed)))).2.memWf = true := State.store_wf hs
  unfold State.writeSector
  extract_lets k t
  split
  · exact h k
  · exact State.memWf_mk.trans (h k)

@[simp] theorem State.writeSectors_wf {keys : List (Partition × SectorKeys)} {b : List Byte} {l : List Nat} (hs : s.memWf = true) :
    (s.writeSectors keys b l).memWf = true := foldl_wf hs fun _ _ => State.writeSector_wf

@[simp] theorem State.answerCovered_wf (hs : s.memWf = true) : (s.answerCovered q part).memWf = true :=
    foldl_wf hs fun t w ht => State.answerLaunch_wf (by simpa using ht)

@[simp] theorem State.restoreCrews_wf {m : SaveImage} (hs : s.memWf = true) : (s.restoreCrews q part m).memWf = true := by
  unfold State.restoreCrews
  refine foldl_wf (foldl_wf (State.answerCovered_wf hs) fun t n ht => State.scrubCore_wf ht) fun t p ht => ?_
  simpa using ht

@[simp] theorem State.restore_wf (hs : s.memWf = true) : (s.restore q p).memWf = true := by
  have h (k b l m) : ((s.writeSectors k b l).restoreCrews q p.part m).memWf = true := State.restoreCrews_wf (State.writeSectors_wf hs)
  unfold State.restore
  repeat' split
  case h_2.isFalse => exact State.okCmd_wf (h _ _ _ _)
  all_goals exact State.refuseCmd_wf hs

@[simp] theorem execRestore_wf (hs : s.memWf = true) : OutWf (execRestore q p s) := by
  unfold execRestore
  split <;> simp [hs]

@[simp] theorem State.dropPending_memWf : (s.dropPending x).memWf = s.memWf := rfl

@[simp] theorem State.dropPart_wf (hs : s.memWf = true) : (s.dropPart n).memWf = true := by
  have h (l : List Nat) : (l.foldl State.dropContext s).memWf = true := foldl_wf hs fun _ _ => State.dropContext_wf
  fun_cases State.dropPart
  · exact State.writeTable_wf (State.scrubPart_wf (h _))
  · exact h _

@[simp] theorem State.before_memWf : (s.before x).memWf = s.memWf := rfl

@[simp] theorem State.progressTaken_wf (hs : s.memWf = true) : (s.progressTaken x).memWf = true := by
  fun_cases State.progressTaken <;> simp_all

@[simp] theorem runCommand_wf (hs : s.memWf = true) : OutWf (runCommand q p s) := by
  unfold runCommand
  repeat' split
  all_goals simp [hs]

@[simp] theorem State.progressPutOff_wf (hs : s.memWf = true) : (s.progressPutOff x).memWf = true := by
  unfold State.progressPutOff
  dsimp only
  repeat' split
  · exact hs
  · next u h =>
    have hu := runCommand_wf (q := x.q) (p := x.p) (s := s.before x) (by simpa using hs)
    rw [h] at hu
    exact hu
  · exact hs

@[simp] theorem State.progressOne_wf (hs : s.memWf = true) : (s.progressOne x).memWf = true := by
  unfold State.progressOne
  split <;> simp [hs]

@[simp] theorem State.progress_wf (hs : s.memWf = true) : s.progress.memWf = true := foldl_wf hs fun _ _ => State.progressOne_wf

end

/-! ### Functions of a lane -/

section
variable {s : State}

@[simp] theorem State.vecCordic_wf {d a : TreeOp} {wa : Bool} {k : CorKind} {rotate : Bool} {n : Nat} (hs : s.memWf = true) :
    OutWf (s.vecCordic d a wa k rotate n) := by
  refine State.issueVec_wf hs ?_
  repeat' split
  all_goals simp [hs]

@[simp] theorem execVCdfq_wf {d a : TreeOp} {wa : Bool} (hs : s.memWf = true) : OutWf (execVCdfq d a wa s) := by
  unfold execVCdfq
  refine State.issueVec_wf hs ?_
  repeat' split
  all_goals simp [hs]

end

/-! ### Early effects -/

section
variable {s : State}

@[simp] theorem State.early_wf {core : Nat} {what : Early} (hs : s.memWf = true) : (s.early core what).memWf = true := by
  refine State.onCore_wf hs fun t ht => ?_
  repeat' split
  all_goals simp [ht]

end

/-! ### The end of a turn -/

section
variable {s : State}

@[simp] theorem State.settle_wf (hs : s.memWf = true) : s.settle.memWf = true := by
  have h : ((s.upd fun c => c.release.dropReads).finishRevokes).memWf = true := by simpa using hs
  have h2 : ∀ n, (((s.upd fun c => c.release.dropReads).finishRevokes).finishCrew n).memWf = true := fun _ => State.finishCrew_wf h
  unfold State.settle
  dsimp only
  repeat' split
  all_goals simp [h, h2]

end

/-! ### Every word, and a step -/

/-- An instruction of any stream, an event and a command keep the form: each by the lemma of its meaning. -/
theorem exec_wf {i : Instr} {s : State} (hs : s.memWf = true) : OutWf (exec i s) := by
  cases i with
  | add | sub | and | or | xor | shl | shr | sar | slt | sltn | min | max | minn | maxn | mul | mulh | mulhn | div | divn | rem | remn =>
    exact outWf_next.2 (State.binary_wf hs)
  | clz | popc | addi | andi | ori | xori | shli | shri | sari | slti => exact outWf_next.2 (State.unary_wf hs)
  | movi | movk | csrRead => exact outWf_next.2 (State.compute_wf hs)
  | beq | bne | blt | bge | bltn | bgen => exact outWf_next.2 (State.branch_wf hs)
  | jal => exact execJal_wf hs
  | jalr => exact execJalr_wf hs
  | ldB | ldBs | ldH | ldHs | ldW | ldWs | ldD => exact outWf_next.2 (State.issueLoad_wf hs)
  | stB | stH | stW | stD => exact outWf_next.2 (State.issueStore_wf hs)
  | atomAdd | atomSwap | atomCas | atomMin | atomMax | atomOr | atomAnd => exact outWf_next.2 (State.atom_wf hs)
  | mark => exact execMark_wf hs
  | fence => exact execFence_wf hs
  | hndBind => exact execHndBind_wf hs
  | hndFree => exact execHndFree_wf hs
  | hndStat => exact execHndStat_wf hs
  | engStart => exact execEngStart_wf hs
  | engStop => exact execEngStop_wf hs
  | engStat => exact execEngStat_wf hs
  | engJoin => exact execEngJoin_wf hs
  | swArm => exact execSwArm_wf hs
  | swWait => exact execSwWait_wf hs
  | swReadTarget | swReadCount | swReadGen | swReadCode => exact outWf_next.2 (State.readField_wf hs)
  | crewBar => exact execCrewBar_wf hs
  | wqPush => exact execWqPush_wf hs
  | viewSet => exact execViewSet_wf hs
  | mendOpen => exact execMendOpen_wf hs
  | mendSave => exact execMendSave_wf hs
  | mendClose => exact execMendClose_wf hs
  | cinchOpen => exact execCinchOpen_wf hs
  | cinchClose => exact execCinchClose_wf hs
  | cinchDrop => exact execCinchDrop_wf hs
  | clkRead => exact execClkRead_wf hs
  | clkWait => exact execClkWait_wf hs
  | stStamp => exact execStStamp_wf hs
  | ldAsof => exact execLdAsof_wf hs
  | bilClaim => exact execBilClaim_wf hs
  | bilAdv => exact execBilAdv_wf hs
  | bilPost => exact execBilPost_wf hs
  | yield => exact execYield_wf hs
  | csrWrite => exact execCsrWrite_wf hs
  | csrSwap => exact execCsrSwap_wf hs
  | trap => exact execTrap_wf hs
  | tret => exact execTret_wf hs
  | injStrike => exact execInjStrike_wf hs
  | nop => exact execNop_wf hs
  | endProg => exact execEndProg_wf hs
  | vAdd | vSub | vMul | vMin | vMax | vShl | vShr | vSar | vRcpf | vRsqf => exact State.vec2_wf hs
  | vAnd | vOr | vXor | vHash | vNoise =>
    dsimp only [exec, execVAnd, execVOr, execVXor, execVHash, execVNoise]
    exact State.vec2_wf hs
  | vFma | vCvt | vRcpa | vRsqa => exact State.vecLanes_wf hs
  | vSel | vMovi | vPerm =>
    dsimp only [exec, execVSel, execVMovi, execVPerm]
    exact State.vecLanes_wf hs
  | vAbs | vNeg | vAddi | vMuli => exact State.vec1_wf hs
  | vSigq | vClz | vPopc =>
    dsimp only [exec, execVSigq, execVClz, execVPopc]
    exact State.vec1_wf hs
  | vCmpeq | vCmplt | vCmple => exact State.vecCompare_wf hs
  | vBcast => exact execVBcast_wf hs
  | vRedsum | vRedmax | vRedmin | vArgmax => exact State.vecReduce_wf hs
  | vLd => exact execVLd_wf hs
  | vSt => exact execVSt_wf hs
  | vGather => exact execVGather_wf hs
  | vScatter => exact execVScatter_wf hs
  | vCorCrot | vCorCvec | vCorHrot | vCorHvec | vCorLrot | vCorLvec => exact State.vecCordic_wf hs
  | vCdfq => exact execVCdfq_wf hs
  | vBitt => exact execVBitt_wf hs
  | vShape | vShapeMasked => exact State.shapeWord_wf hs
  | vMaskAnd | vMaskOr | vMaskXor | vMaskAndn | vMaskNot | vMaskSet | vMaskClear => exact State.maskWord_wf hs
  | vLoop | vBr | vKop | vKopAdd | vKopMov => exact State.vecLoop_wf hs
  | vMendOpen => exact execVMendOpen_wf hs
  | vMendSave => exact execVMendSave_wf hs
  | vMendClose => exact execVMendClose_wf hs
  | vEnd => exact execVEnd_wf hs
  | rcInitDec | rcInitEnc | rcDec | rcDecm | rcEnc | rcEncm | rcFlush | rcSpec | rcKeep | rcUndo =>
    dsimp only [exec, execRcInitDec, execRcInitEnc, execRcDec, execRcDecm, execRcEnc, execRcEncm, execRcFlush, execRcSpec, execRcKeep,
      execRcUndo]
    exact State.coderWord_wf hs
  | rcStat => exact execRcStat_wf hs
  | vMark => exact execVMark_wf hs
  | mBegin => exact execMBegin_wf hs
  | mZero => exact execMZero_wf hs
  | mLdacc => exact execMLdacc_wf hs
  | mAcc | mAcc8 | mAccsTern | mAccsInt8 => exact outWf_next.2 (State.accumulate_wf hs)
  | mSeg => exact execMSeg_wf hs
  | mScale => exact execMScale_wf hs
  | mRetF32 | mRetBf16 | mRetF32Add | mRetraw => exact outWf_next.2 (State.retire_wf hs)
  | mWbase | mPert => exact outWf_next.2 (State.issueMat_wf hs hs)
  | mLoop | mBr | mKop | mKopAdd | mKopMov => exact State.matLoop_wf hs
  | mEnd => exact execMEnd_wf hs
  | xCopy => exact execXCopy_wf hs
  | xShapeImm | xShapeReg => exact outWf_next.2 (State.setShape_memWf.trans hs)
  | xUnfold => exact execXUnfold_wf hs
  | xWinImm | xWinReg => exact outWf_next.2 (State.setWin_memWf.trans hs)
  | xUnpackT5p | xUnpackBsi8 | xUnpackSp24 | xUnpackZrun => exact outWf_next.2 (State.unpack_wf hs)
  | xConv => exact execXConv_wf hs
  | xMcast => exact execXMcast_wf hs
  | xGather | xScatter => exact outWf_next.2 (State.indexed_wf hs)
  | xFill => exact outWf_next.2 (State.checkedOp_wf hs)
  | xWbfill => exact execXWbfill_wf hs
  | xSync => exact execXSync_wf hs
  | xSyncDetach => exact execXSyncDetach_wf hs
  | xClose => exact outWf_next.2 (State.issueXfer_wf hs (State.closeBatch_wf hs fun _ => id))
  | xWait => exact execXWait_wf hs
  | xCollSumI32 | xCollSumF32 | xCollBcast | xCollArgmax => exact outWf_next.2 (State.coll_wf hs)
  | xLoop | xBr | xKop | xKopAdd | xKopMov => exact outWf_next.2 (State.xferLoop_memWf.trans hs)
  | xMendOpen => exact execXMendOpen_wf hs
  | xMendSave => exact execXMendSave_wf hs
  | xMendClose => exact execXMendClose_wf hs
  | xMark => exact execXMark_wf hs
  | xEnd => exact execXEnd_wf hs
  | waitSatisfied => exact execWaitSatisfied_wf hs
  | stopBoundaryReached => exact execStopBoundaryReached_wf hs
  | trapEntry => exact outWf_next.2 (State.onCore_wf hs fun _ => State.trapNow_memWf.trans)
  | haltComplete => exact outWf_next.2 (State.finishHalt_wf hs)
  | loadReturn => exact execLoadReturn_wf hs
  | storePerformed => exact execStorePerformed_wf hs
  | stampedStorePerformed => exact execStampedStorePerformed_wf hs
  | fenceComplete => exact outWf_next.2 (State.onCore_wf hs fun _ => State.fenceEvent_memWf.trans)
  | walkComplete => exact outWf_next.2 (State.onCore_wf hs fun _ => State.finishWalk_memWf.trans)
  | vectorLoadLand => exact execVectorLoadLand_wf hs
  | vpAccessPerformed => exact execVpAccessPerformed_wf hs
  | transferBlockIssue => exact execTransferBlockIssue_wf hs
  | transferBlockLand => exact execTransferBlockLand_wf hs
  | collectiveResult => exact execCollectiveResult_wf hs
  | holdingSlotRelease => exact outWf_next.2 (State.onCore_wf hs fun _ => State.releaseSlot_memWf.trans)
  | mendRelease => exact execMendRelease_wf hs
  | softErrorStrike => exact outWf_next.2 (State.softError_wf hs)
  | strikeReport => exact execStrikeReport_wf hs
  | injectedStrikeDue => exact execInjectedStrikeDue_wf hs
  | crewPlacement => exact outWf_next.2 (State.placementEvent_wf hs)
  | launchBlockTaken => exact outWf_next.2 (State.blockTaken_wf hs)
  | schedulerDecision => exact outWf_next.2 (State.decision_wf hs)
  | schedulerScanRow => exact outWf_next.2 (State.scanRow_wf hs)
  | ydlExpiry => exact outWf_next.2 (State.expire_memWf.trans hs)
  | crewSave => exact outWf_next.2 (State.saveEvent_wf hs)
  | crewResume => exact outWf_next.2 (State.resumeEvent_wf hs)
  | budgetWindow => exact outWf_next.2 (State.onCore_wf hs fun _ => State.newWindow_memWf.trans)
  | ptmExchange => exact outWf_next.2 (State.ptm_memWf.trans hs)
  | dieTimeWord => exact State.timeWord_memWf.trans hs
  | timeframeSend => exact outWf_next.2 (State.sendFrame_memWf.trans hs)
  | timeframe => exact outWf_next.2 (State.received_wf hs (State.frameIn_memWf.trans hs))
  | limit => exact outWf_next.2 (State.received_wf hs (State.limitIn_memWf.trans hs))
  | ack => exact outWf_next.2 (State.received_wf hs (State.ackIn_memWf.trans hs))
  | join => exact outWf_next.2 (State.received_wf hs (State.joinIn_memWf.trans hs))
  | leave => exact outWf_next.2 (State.received_wf hs (State.leaveIn_memWf.trans hs))
  | silent => exact outWf_next.2 (State.received_wf hs (State.silentIn_wf hs))
  | heartbeat | limitAckTimeout | dieOver105c | droppedFlit => exact hs
  | confirm => exact execConfirm_wf hs
  | limitForecast => exact outWf_next.2 (State.forecast_memWf.trans hs)
  | limitStampPassed => exact outWf_next.2 (State.stampsPassed_memWf.trans hs)
  | rampStep => exact outWf_next.2 (State.rampStep_memWf.trans hs)
  | joinAckTimeout => exact outWf_next.2 (State.joinFails_wf hs)
  | joinStampPassed => exact outWf_next.2 (State.joinDone_wf hs)
  | leaveStampPassed => exact outWf_next.2 (State.leaveDone_memWf.trans hs)
  | silenceDetected => exact outWf_next.2 (State.silenceFound_wf hs)
  | fabricPortsDown => exact outWf_next.2 (State.portsDown_memWf.trans hs)
  | hostCxlMemAccess => exact outWf_next.2 (State.hostAccess_wf hs)
  | notifyWrite => exact outWf_next.2 (State.notify_wf hs)
  | interfaceEnable => exact outWf_next.2 (State.writeControl_memWf.trans hs)
  | bar0RegisterWrite => exact outWf_next.2 (State.writeBar_wf hs)
  | partCreate => exact execPartCreate_wf hs
  | partDestroy => exact execPartDestroy_wf hs
  | ctxCreate => exact execCtxCreate_wf hs
  | ctxDestroy => exact execCtxDestroy_wf hs
  | load => exact execLoad_wf hs
  | launch => exact execLaunch_wf hs
  | harness => exact execHarness_wf hs
  | harnessEnd => exact execHarnessEnd_wf hs
  | resolve => exact execResolve_wf hs
  | refuse => exact execRefuse_wf hs
  | unmap => exact execUnmap_wf hs
  | checkpoint => exact execCheckpoint_wf hs
  | restore => exact execRestore_wf hs
  | timeSet => exact execTimeSet_wf hs
  | groupJoin => exact execGroupJoin_wf hs
  | groupLeave => exact execGroupLeave_wf hs
  | collBind => exact execCollBind_wf hs
  | debugHalt => exact execDebugHalt_wf hs
  | debugResume => exact execDebugResume_wf hs
  | debugReadState => exact execDebugReadState_wf hs
  | logRead => exact execLogRead_wf hs
  | attest => exact execAttest_wf hs
  | config => exact execConfig_wf hs
  | patch => exact execPatch_wf hs
  | powerOn => exact outWf_next.2 (State.boot_wf hs)
  | dieOver115c => exact State.haltAll_memWf.trans hs
  | engineParityError => exact execEngineParityError_wf hs
  | innerClose => exact execInnerClose_wf hs
  | fabricPortLinkChange => exact outWf_next.2 (State.tryAll_memWf.trans hs)

/-- A step keeps the form: its turn, what the turn runs, and the end of the turn each do. -/
theorem step_wf {s : State} (hs : s.memWf = true) : OutWf (step s) := by
  have ht := State.takeTurn_wf hs
  unfold step
  cases h : s.takeTurn with
  | noCore => trivial
  | idle t => rw [h] at ht; exact State.settle_wf ht
  | early n w t => rw [h] at ht; exact State.settle_wf (State.early_wf ht)
  | command q p t =>
    rw [h] at ht
    have hu := runCommand_wf (q := q) (p := p) ht
    cases hc : runCommand q p t with
    | next u => rw [hc] at hu; simp only [hc]; exact State.settle_wf hu
    | fault f => simp only [hc]; trivial
    | refused r => simp only [hc]; trivial
  | run i t =>
    rw [h] at ht
    have hu := exec_wf (i := i) ht
    cases hc : exec i t with
    | next u => rw [hc] at hu; simp only [hc]; exact State.settle_wf hu
    | fault f => simp only [hc]; trivial
    | refused r => simp only [hc]; trivial

/-- Settles O55: no word, command or event takes the canonical form from a memory (`step_wf`). -/
theorem memoriesStayCanonical : Obligations.MemoriesStayCanonical := by
  unfold Obligations.MemoriesStayCanonical
  intro s t hs h
  have ht := step_wf hs
  rwa [h] at ht

end Sys2Proof.Machine
end

section
/-!
PROOFS. Partitions and contexts are created and destroyed by the commands of R213 and R279 to R282: O46.
-/
namespace Sys2Proof.Machine

/-! ### Which commands are put off, refused or taken (R281) -/

section
variable {s : State} {q : Fin 64} {p : Packet}

theorem staged_putOff (hst : s.fw.stage = 6) (hp : s.fw.pending.any (s.comesAfter q p) = true) (k : State) : s.staged q p k = s.putOff q p := by
  rw [State.staged, if_neg (not_not.2 hst), if_pos hp]

theorem staged_taken (hst : s.fw.stage = 6) (hp : s.fw.pending.any (s.comesAfter q p) = false) (k : State) : s.staged q p k = k := by
  rw [State.staged, if_neg (not_not.2 hst), hp]
  rfl

/-- Every command that names its turn among the waiting ones is put off behind an earlier one. -/
theorem commands_putOff (hst : s.fw.stage = 6) (hp : s.fw.pending.any (s.comesAfter q p) = true) : ∀ i ∈ [Instr.partCreate q p, .partDestroy q p,
    .ctxCreate q p, .ctxDestroy q p, .load q p, .launch q p, .harness q p, .harnessEnd q p, .resolve q p, .refuse q p, .unmap q p,
    .checkpoint q p, .restore q p, .timeSet q p, .groupJoin q p, .groupLeave q p, .collBind q p, .debugHalt q p, .debugResume q p,
    .debugReadState q p, .logRead q p], exec i s = .next (s.putOff q p) := by
  have h (k : State) : (.next (s.staged q p k) : Out) = .next (s.putOff q p) := congrArg Host.Outcome.next (staged_putOff hst hp k)
  have hboth (k l : State) : (.next (if q = 0 then s.staged q p k else s.staged q p l) : Out) = .next (s.putOff q p) := by
    rw [staged_putOff hst hp, staged_putOff hst hp, ite_self]
  simp only [List.forall_mem_cons, List.not_mem_nil, IsEmpty.forall_iff, implies_true, and_true]
  exact ⟨h _, h _, h _, h _, h _, h _, h _, h _, h _, h _, h _, hboth _ _, hboth _ _, h _, h _, h _, h _, h _, h _, h _, hboth _ _⟩

theorem onAdmin_taken (hst : s.fw.stage = 6) (hp : s.fw.pending.any (s.comesAfter 0 p) = false) (k : State) : s.onAdmin 0 p k = k := by
  rw [State.onAdmin, staged_taken hst hp, if_pos rfl]

theorem onAdmin_refused (hst : s.fw.stage = 6) (hp : s.fw.pending.any (s.comesAfter q p) = false) (hq : q ≠ 0) (k : State) :
    s.onAdmin q p k = s.refuseCmd q p 2 := by
  rw [State.onAdmin, staged_taken hst hp, if_neg hq]

theorem onPart_missing (hst : s.fw.stage = 6) (hp : s.fw.pending.any (s.comesAfter q p) = false) (h : q = 0 ∨ s.part p.part = none)
    (k : Partition → State) : s.onPart q p k = s.refuseCmd q p 2 := by
  rw [State.onPart, staged_taken hst hp]
  cases hx : s.part p.part with
  | none => rfl
  | some x =>
    have hq : q = 0 := h.resolve_right (by rw [hx]; exact Option.some_ne_none x)
    exact if_neg fun h => h.1 hq

variable {x : Partition}

theorem onPart_going (hst : s.fw.stage = 6) (hp : s.fw.pending.any (s.comesAfter q p) = false) (hx : s.part p.part = some x)
    (hg : s.partGoing x.num = true) (k : Partition → State) : s.onPart q p k = s.refuseCmd q p 2 := by
  simp only [State.onPart, staged_taken hst hp, hx]
  exact if_neg fun h => by simp [hg] at h

variable (hst : s.fw.stage = 6) (hp : s.fw.pending.any (s.comesAfter q p) = false) (hx : s.part p.part = some x) (hq : q ≠ 0)
  (hi : x.ifaces.toNat.testBit q.val = true) (hg : s.partGoing x.num = false)
include hst hp hx hq hi hg

theorem onPart_taken (k : Partition → State) : s.onPart q p k = k x := by
  simp only [State.onPart, staged_taken hst hp, hx]
  exact if_pos ⟨hq, hi, by rw [hg]; rfl⟩

theorem onCtx_missing (hc : s.ctx p.ctx = none) (k : Partition → Context → State) : s.onCtx q p k = s.refuseCmd q p 5 := by
  rw [State.onCtx, onPart_taken hst hp hx hq hi hg]
  simp only [hc]

theorem onCtx_going {c : Context} (hc : s.ctx p.ctx = some c) (hcx : c.part = x.num) (hcg : s.ctxGoing c.num = true)
    (k : Partition → Context → State) : s.onCtx q p k = s.refuseCmd q p 5 := by
  rw [State.onCtx, onPart_taken hst hp hx hq hi hg]
  simp only [hc, if_neg (not_not.2 hcx), hcg, if_true]

end

/-! ### Bytes that no list names -/

/-- No byte of the n bytes from lo is listed in a memory of the machine: they read 0 (log 4). -/
def State.bare (s : State) (k : Space) (lo n : Nat) : Prop := ∀ e ∈ s.mem k, e.1 < lo ∨ lo + n ≤ e.1

theorem sparseGet_unlisted {α : Type} {d : α} {t : List (Nat × α)} {a : Nat} (h : ∀ e ∈ t, e.1 ≠ a) : sparseGet d t a = d := by
  induction t with
  | nil => rfl
  | cons e t ih =>
    rw [sparseGet, if_neg (h e List.mem_cons_self).symm, ih fun x hx => h x (List.mem_cons_of_mem _ hx), ite_self]

theorem mem_sparseSet {α : Type} [DecidableEq α] {d x : α} {t : List (Nat × α)} {a : Nat} {e : Nat × α} (h : e ∈ sparseSet d t a x) :
    e ∈ t ∨ e.1 = a := by
  induction t with
  | nil =>
    rw [sparseSet] at h
    split at h
    · exact .inl h
    · exact .inr (congrArg Prod.fst (List.mem_singleton.1 h))
  | cons y t ih =>
    rw [sparseSet] at h
    repeat' split at h
    · exact .inl h
    · exact (List.mem_cons.1 h).elim (fun h => .inr (congrArg Prod.fst h)) .inl
    · exact .inl (List.mem_cons_of_mem _ h)
    · exact (List.mem_cons.1 h).elim (fun h => .inr (congrArg Prod.fst h)) fun h => .inl (List.mem_cons_of_mem _ h)
    · refine (List.mem_cons.1 h).elim (fun h => .inl (h ▸ List.mem_cons_self)) fun h => ?_
      exact (ih h).imp_left (List.mem_cons_of_mem _)

theorem bare_readByte {s : State} {k : Space} {lo n a : Nat} (h : s.bare k lo n) (ha : a < n) : s.readByte ⟨k, lo + a⟩ = 0 :=
  sparseGet_unlisted fun e he => by have := h e he; dsimp only; omega

theorem bare_writeByte {s : State} {k : Space} {lo n : Nat} (h : s.bare k lo n) {q : PAddr} {b : Byte}
    (hq : q.space ≠ k ∨ q.addr < lo ∨ lo + n ≤ q.addr) : (s.writeByte q b).bare k lo n := by
  obtain ⟨j, a⟩ := q
  by_cases hj : j = k
  · subst hj
    have ha := hq.resolve_left (not_not.2 rfl)
    have hm : (s.writeByte ⟨j, a⟩ b).mem j = sparseSet 0 (s.mem j) a b := by cases j <;> rfl
    intro e he
    rw [hm] at he
    rcases mem_sparseSet he with he | rfl
    · exact h e he
    · exact ha
  · have hm : (s.writeByte ⟨j, a⟩ b).mem k = s.mem k := by
      cases j <;> cases k <;> simp_all [State.writeByte, State.setMem, State.mem]
    intro e he
    exact h e (hm ▸ he)

theorem bare_writeCells {s : State} {k : Space} {lo n : Nat} (h : s.bare k lo n) {l : List (PAddr × Byte)}
    (hl : ∀ c ∈ l, c.1.space ≠ k ∨ c.1.addr < lo ∨ lo + n ≤ c.1.addr) : (s.writeCells l).bare k lo n := by
  induction l generalizing s with
  | nil => exact h
  | cons c l ih =>
    exact ih (bare_writeByte h (hl c List.mem_cons_self)) fun c hc => hl c (List.mem_cons_of_mem _ hc)

theorem bare_writeNat {s : State} {k : Space} {lo n : Nat} (h : s.bare k lo n) {q : PAddr} (hq : q.space ≠ k ∨ lo + n ≤ q.addr) (m x : Nat) :
    (s.writeNat q m x).bare k lo n := by
  refine bare_writeCells h fun c hc => ?_
  obtain ⟨hs, ha, -⟩ := mem_placesFrom.1 (List.of_mem_zip hc).1
  rw [hs]
  exact hq.imp_right fun hq => .inr (by omega)

/-! ### Cores, frames and tables that are scrubbed (R282) -/

/-- What each element of a list sets up and no element undoes stands once the list is walked. -/
theorem foldl_sets {σ α : Type} {step : σ → α → σ} {Q : α → σ → Prop} (hset : ∀ s x, Q x (step s x)) (hkeep : ∀ s x y, Q x s → Q x (step s y))
    {l : List α} {s : σ} : ∀ x ∈ l, Q x (l.foldl step s) := by
  have hrest : ∀ (l : List α) (s : σ) (x : α), Q x s → Q x (l.foldl step s) := fun l => by
    induction l with
    | nil => exact fun _ _ h => h
    | cons y l ih => exact fun s x h => ih _ x (hkeep s x y h)
  induction l generalizing s with
  | nil => exact fun x hx => absurd hx List.not_mem_nil
  | cons y l ih =>
    intro x hx
    rcases List.mem_cons.1 hx with rfl | hx
    · exact hrest l _ _ (hset s x)
    · exact ih x hx

/-- A core that holds no crew, no line of the tree and no byte of its store. -/
def State.coreEmpty (s : State) (id : Nat) : Prop :=
  (s.coreOf id).seat = none ∧ (s.coreOf id).tree = [] ∧ s.bare .window (storeBase id) (2 ^ 22)

theorem coreEmpty_congr {s t : State} (hc : t.core = s.core) (ho : t.others = s.others) (hw : t.window = s.window) {id : Nat}
    (h : s.coreEmpty id) : t.coreEmpty id := by
  obtain ⟨hseat, htree, hb⟩ := h
  refine ⟨?_, ?_, fun e he => hb e ?_⟩
  · rw [coreOf_congr hc ho]; exact hseat
  · rw [coreOf_congr hc ho]; exact htree
  · have : t.mem .window = s.mem .window := hw
    rwa [this] at he

section
variable {s : State}

theorem updCore_mem {n : Nat} {f : Core → Core} (k : Space) : (s.updCore n f).mem k = s.mem k := by
  obtain ⟨d, o, h⟩ := putCore_frame s (f (s.coreOf n))
  rw [State.updCore, h]
  cases k <;> rfl

/-- The window once a core is scrubbed: the bytes of its store are gone. -/
theorem scrubCore_window (id : Nat) : (s.scrubCore id).mem .window = sparseOut (storeBase id) (2 ^ 22) s.window := updCore_mem .window

theorem coreOf_scrubCore (id n : Nat) : (s.scrubCore id).coreOf n = if id = n then { Core.blank n with
      issue := (s.coreOf n).issue
      mat := { MatEngine.zero with
        budget := (s.coreOf n).mat.budget, spent := (s.coreOf n).mat.spent, window := (s.coreOf n).mat.window } } else s.coreOf n := by
  have hc (n : Nat) : (s.scrubStore id (2 ^ 22)).coreOf n = s.coreOf n := coreOf_congr rfl rfl n
  rw [State.scrubCore, coreOf_updCore (coreOf_id _ _), hc, coreOf_id]

theorem scrubCore_empties (id : Nat) : (s.scrubCore id).coreEmpty id := by
  refine ⟨?_, ?_, fun e he => ?_⟩
  · rw [coreOf_scrubCore, if_pos rfl]; rfl
  · rw [coreOf_scrubCore, if_pos rfl]; rfl
  · rw [scrubCore_window] at he
    have := (List.mem_filter.1 he).2
    simp only [Bool.not_eq_true', Bool.and_eq_false_iff, decide_eq_false_iff_not] at this
    omega

theorem scrubCore_keeps_empty {id n : Nat} (h : s.coreEmpty n) : (s.scrubCore id).coreEmpty n := by
  obtain ⟨hseat, htree, hb⟩ := h
  rw [State.coreEmpty, coreOf_scrubCore]
  refine ⟨?_, ?_, fun e he => hb e ?_⟩
  · split
    · rfl
    · exact hseat
  · split
    · rfl
    · exact htree
  · rw [scrubCore_window] at he
    exact (List.mem_filter.1 he).1

theorem scrubFrame_bare (f : Nat) : (s.scrubFrame f).bare .hbm (f * 2 ^ 30) (2 ^ 30) := fun e he => by
  have := (List.mem_filter.1 he).2
  simp only [Bool.not_eq_true', Bool.and_eq_false_iff, decide_eq_false_iff_not] at this
  omega

theorem scrubFrame_keeps_bare {f lo n : Nat} (h : s.bare .hbm lo n) : (s.scrubFrame f).bare .hbm lo n :=
  fun e he => h e (List.mem_filter.1 he).1

theorem scrubPart_cores {x : Partition} {id : Nat} (h : id ∈ x.cores) : (s.scrubPart x).coreEmpty id := by
  have h1 : (x.cores.foldl State.scrubCore s).coreEmpty id :=
    foldl_sets (Q := fun id (t : State) => t.coreEmpty id) (fun _ => scrubCore_empties) (fun _ _ _ => scrubCore_keeps_empty) id h
  have h2 : (x.frames.foldl State.scrubFrame (x.cores.foldl State.scrubCore s)).coreEmpty id := by
    generalize x.cores.foldl State.scrubCore s = t at h1 ⊢
    induction x.frames generalizing t with
    | nil => exact h1
    | cons f l ih => exact ih _ (coreEmpty_congr rfl rfl rfl h1)
  exact coreEmpty_congr rfl rfl rfl h2

theorem scrubPart_frames {x : Partition} {f : Nat} (h : f ∈ x.frames) : (s.scrubPart x).bare .hbm (f * 2 ^ 30) (2 ^ 30) :=
  foldl_sets (Q := fun f (t : State) => t.bare .hbm (f * 2 ^ 30) (2 ^ 30)) (fun _ => scrubFrame_bare) (fun _ _ _ => scrubFrame_keeps_bare) f h

theorem handedOver_scrubCore (id : Nat) : s.handedOver (s.scrubCore id) := (handedOver_scrubStore s id _).trans (handedOver_putCore _ _)

theorem handedOver_scrubFrame (f : Nat) : s.handedOver (s.scrubFrame f) := ⟨Crew.stood, by simp [State.scrubFrame]⟩

theorem scrubPart_same (x : Partition) :
    (s.scrubPart x).parts = s.parts ∧ (s.scrubPart x).ctxs = s.ctxs ∧ (s.scrubPart x).fw = s.fw := by
  obtain ⟨g, h⟩ := (State.handedOver.foldl (fun _ => handedOver_scrubCore) x.cores s).trans
    (State.handedOver.foldl (fun _ => handedOver_scrubFrame) x.frames _)
  simp only [State.scrubPart]
  rw [h]
  exact ⟨rfl, rfl, rfl⟩

/-- One entry of a stage-2 table is written. -/
def State.writeEntry (s : State) (n : Nat) (e : Nat × Stage2) : State := s.writeNat ⟨.hbm, stage2Base n + 8 * e.1⟩ 8 e.2.bits

theorem writeCells_hbm (l : List (PAddr × Byte)) (hl : ∀ c ∈ l, c.1.space = .hbm) (s : State) :
    ∃ m : Memory, s.writeCells l = { s with hbm := m } := by
  induction l generalizing s with
  | nil => exact ⟨_, rfl⟩
  | cons c l ih =>
    obtain ⟨m, hm⟩ := ih (fun c hc => hl c (List.mem_cons_of_mem _ hc)) (s.writeByte c.1 c.2)
    have hb : s.writeByte c.1 c.2 = { s with hbm := Memory.write s.hbm c.1.addr c.2 } := by
      rw [State.writeByte, hl c List.mem_cons_self]
      rfl
    exact ⟨m, hm.trans (by rw [hb])⟩

theorem writeEntries_frame (n : Nat) (l : List (Nat × Stage2)) (s : State) :
    ∃ m : Memory, l.foldl (fun s e => s.writeEntry n e) s = { s with hbm := m } := by
  induction l generalizing s with
  | nil => exact ⟨_, rfl⟩
  | cons e l ih =>
    obtain ⟨a, ha⟩ := writeCells_hbm (cellsAt ⟨.hbm, stage2Base n + 8 * e.1⟩ (bytesOfNat 8 e.2.bits))
      (fun c hc => (mem_placesFrom.1 (List.of_mem_zip hc).1).1) s
    obtain ⟨m, hm⟩ := ih (s.writeEntry n e)
    refine ⟨m, ?_⟩
    rw [List.foldl_cons, hm, State.writeEntry, State.writeNat, ha]

/-- A stage-2 table is written into the memory of its own place alone. -/
theorem writeTable_frame (n : Nat) (l : List (Nat × Stage2)) : ∃ (m : Memory) (lost bad : List PAddr),
    s.writeTable n l = { s with hbm := m, lost := lost, badTag := bad } := by
  obtain ⟨m, h⟩ := writeEntries_frame n l (s.writeTable n [])
  exact ⟨m, _, _, h⟩

theorem writeTable_bare {n lo m : Nat} {l : List (Nat × Stage2)} (h : s.bare .hbm lo m) (hlo : lo + m ≤ stage2Base n) :
    (s.writeTable n l).bare .hbm lo m := by
  unfold State.writeTable
  extract_lets out s1
  have h1 : s1.bare .hbm lo m := fun e he => h e (List.mem_filter.1 he).1
  generalize s1 = t at h1 ⊢
  induction l generalizing t with
  | nil => exact h1
  | cons e l ih =>
    have he : lo + m ≤ stage2Base n + 8 * e.1 := by omega
    rw [List.foldl_cons]
    exact ih _ (bare_writeNat h1 (.inr he) 8 e.2.bits)

theorem stage2_bits_lt (e : Stage2) : e.bits < 2 ^ 64 := by
  simp only [Stage2.bits, put]
  split <;> omega

theorem readNat_writeNat {p : PAddr} {n x : Nat} (w : s.memWf = true) (hx : x < 2 ^ (8 * n)) : (s.writeNat p n x).readNat p n = x := by
  have hn : ((cellsAt p (bytesOfNat n x)).map Prod.fst).Nodup := by rw [cellsAt_places]; exact placesFrom_nodup p _
  have h := readNat_writeCells w hn (p := p) (bytes := bytesOfNat n x) fun _ => id
  rwa [bytesOfNat_length, natOfBytes_bytesOfNat, Nat.mod_eq_of_lt hx] at h

theorem writeEntry_readNat_other {n i : Nat} {e : Nat × Stage2} (w : s.memWf = true) (hi : i ≠ e.1) :
    (s.writeEntry n e).readNat ⟨.hbm, stage2Base n + 8 * i⟩ 8 = s.readNat ⟨.hbm, stage2Base n + 8 * i⟩ 8 := by
  refine readNat_congr fun q hq => State.readByte_writeCells_other (fun c hc => ?_) w
  rintro rfl
  have h := (mem_placesFrom.1 (List.of_mem_zip hc).1).2
  have h' := (mem_placesFrom.1 hq).2
  rw [bytesOfNat_length] at h
  dsimp only at h h'
  omega

theorem writeEntry_readNat_same {n : Nat} {e : Nat × Stage2} (w : s.memWf = true) :
    (s.writeEntry n e).readNat ⟨.hbm, stage2Base n + 8 * e.1⟩ 8 = e.2.bits := by
  rw [State.writeEntry]
  exact readNat_writeNat w (stage2_bits_lt e.2)

theorem writeEntry_wf {n : Nat} {e : Nat × Stage2} (w : s.memWf = true) : (s.writeEntry n e).memWf = true := by
  rw [State.writeEntry]
  exact State.writeNat_wf w

/-- The entry of each extent reads back from its place in the table. -/
theorem writeEntries_read {n : Nat} {l : List (Nat × Stage2)} (w : s.memWf = true) (hl : (l.map Prod.fst).Nodup) :
    ∀ e ∈ l, (l.foldl (fun s e => s.writeEntry n e) s).readNat ⟨.hbm, stage2Base n + 8 * e.1⟩ 8 = e.2.bits := by
  have hrest : ∀ (l : List (Nat × Stage2)) (t : State) (i : Nat), t.memWf = true → i ∉ l.map Prod.fst →
      (l.foldl (fun s e => s.writeEntry n e) t).readNat ⟨.hbm, stage2Base n + 8 * i⟩ 8 = t.readNat ⟨.hbm, stage2Base n + 8 * i⟩ 8 := fun l => by
    induction l with
    | nil => exact fun _ _ _ _ => rfl
    | cons d l ih =>
      intro t i w hi
      rw [List.map_cons, List.mem_cons, not_or] at hi
      rw [List.foldl_cons, ih _ i (writeEntry_wf w) hi.2, writeEntry_readNat_other w hi.1]
  induction l generalizing s with
  | nil => exact fun e he => absurd he List.not_mem_nil
  | cons d l ih =>
    intro e he
    rw [List.map_cons, List.nodup_cons] at hl
    rw [List.foldl_cons]
    rcases List.mem_cons.1 he with rfl | he
    · rw [hrest l _ e.1 (writeEntry_wf w) hl.1, writeEntry_readNat_same w]
    · exact ih (writeEntry_wf w) hl.2 e he

theorem writeTable_reads {n : Nat} {l : List (Nat × Stage2)} (w : s.memWf = true) (hl : (l.map Prod.fst).Nodup) :
    ∀ e ∈ l, (s.writeTable n l).readNat ⟨.hbm, stage2Base n + 8 * e.1⟩ 8 = e.2.bits :=
  writeEntries_read (State.writeTable_wf (num := n) (l := []) w) hl

end

/-! ### The commands, once they are taken -/

/-- The free frames of a new partition lie below every stage-2 table. -/
theorem stage2Table_frames {n m f : Nat} {frames : List Nat} {x : Partition} (hx : x.s2 = stage2Table n m frames) (hf : f ∈ x.frames) :
    f ∈ frames := by
  obtain ⟨e, he, hk⟩ := List.mem_filterMap.1 hf
  rw [hx, stage2Table, List.mem_append] at he
  rcases he with he | he
  · obtain ⟨y, hy, rfl⟩ := List.mem_map.1 he
    have : y.1 = f := by simpa using hk
    exact this ▸ List.mem_of_mem_take (List.fst_mem_of_mem_zipIdx hy)
  · obtain ⟨y, -, rfl⟩ := List.mem_map.1 he
    exact absurd hk (by simp)

section
variable {s : State} {q : Fin 64} {p : Packet} {n : Nat}

/-- A partition that a `part.create` makes. -/
def State.newPart (s : State) (p : Packet) (n : Nat) : Partition :=
  ⟨n, maskBits 64 p.a0.toNat ++ (maskBits 32 p.a1.toNat).map (64 + ·), stage2Table n p.a2.toNat s.freeFrames, p.a2.toNat * 2 ^ 30,
    p.a3.toNat, p.a4, s.fw.draws⟩

/-- The machine once a new partition stands, before its command is answered. -/
def State.withPart (s : State) (x : Partition) : State :=
  let t := (s.scrubPart x).writeTable x.num x.s2
  { t with parts := t.parts ++ [x], fw := { t.fw with draws := t.fw.draws + 1 } }

theorem buildPart_eq : s.buildPart q p n = (s.withPart (s.newPart p n)).okCmd q p [wordOfNat n] := rfl

theorem freePart_isNone (h : s.freePart = some n) : s.part n = none := by
  simpa using List.find?_some h

theorem withPart_stands {x : Partition} (hn : s.part x.num = none) :
    (s.withPart x).part x.num = some x ∧ (s.withPart x).fw.draws = s.fw.draws + 1 ∧ (s.withPart x).ctxs = s.ctxs := by
  obtain ⟨hparts, hctxs, hfw⟩ := scrubPart_same (s := s) x
  obtain ⟨m, lost, bad, h⟩ := writeTable_frame (s := s.scrubPart x) x.num x.s2
  have hp : (s.withPart x).parts = s.parts ++ [x] := by rw [State.withPart, h]; exact congrArg (· ++ [x]) hparts
  refine ⟨?_, ?_, ?_⟩
  · rw [State.part, hp, List.find?_append, show s.parts.find? (·.num = x.num) = none from hn]
    simp
  · rw [State.withPart, h]; exact congrArg (·.draws + 1) hfw
  · rw [State.withPart, h]; exact hctxs

theorem withPart_coreEmpty {x : Partition} {id : Nat} (h : id ∈ x.cores) : (s.withPart x).coreEmpty id := by
  obtain ⟨m, lost, bad, ht⟩ := writeTable_frame (s := s.scrubPart x) x.num x.s2
  have hs := scrubPart_cores (s := s) h
  rw [State.withPart, ht]
  exact coreEmpty_congr rfl rfl rfl hs

theorem withPart_frame_bare {x : Partition} {f m : Nat} (hx : x.s2 = stage2Table x.num m s.freeFrames) (hf : f ∈ x.frames) :
    (s.withPart x).bare .hbm (f * 2 ^ 30) (2 ^ 30) := by
  have hlt : f < frameCount := List.mem_range.1 (List.mem_filter.1 (stage2Table_frames hx hf)).1
  have h : ((s.scrubPart x).writeTable x.num x.s2).bare .hbm (f * 2 ^ 30) (2 ^ 30) :=
    writeTable_bare (scrubPart_frames hf) (by rw [stage2Base]; omega)
  exact h

theorem withPart_table {x : Partition} (w : s.memWf = true) (hn : (x.s2.map Prod.fst).Nodup) :
    ∀ e ∈ x.s2, (s.withPart x).readNat ⟨.hbm, stage2Base x.num + 8 * e.1⟩ 8 = e.2.bits :=
  writeTable_reads (s := s.scrubPart x) (State.scrubPart_wf w) hn

/-- The contexts of the machine once those that f names are halted with no code and a detail of the model's choice (log 5). -/
def State.haltedBy (s : State) (f : Context → Bool) : List Context := s.ctxs.map (fun c => if f c ∧ c.halt = none then
  { c with halt := some ⟨0, (s.focus (s.lowestCore c.num)).openDetail, s.lowestCore c.num, false, false, s.now⟩ } else c)

theorem haltedBy_eq (f : Context → Bool) : s.haltedBy f = s.ctxs.map (fun c => if f c then s.haltedCtx codeOk c else c) := by
  refine List.map_congr_left fun c _ => ?_
  cases hf : f c with
  | false => rfl
  | true => cases hh : c.halt <;> simp [State.haltedCtx, hh, codeOk]

theorem haltPlain_waits {c : Context} : (s.haltPlain c.num codeOk (s.lowestCore c.num) false).waitCmd q p =
    ({ s with ctxs := s.haltedBy (fun d => decide (d.num = c.num)) } : State).waitCmd q p := by
  rw [haltedBy_eq]
  simpa using congrArg (·.waitCmd q p) (haltPlain_eq s s.ctxs c.num codeOk)

theorem haltPart_waits {m : Nat} : (s.haltPart m).waitCmd q p = ({ s with ctxs := s.haltedBy (fun c =>
    decide (s.ctxs.any (fun d => decide (d.part = m) && decide (d.num = c.num)))) } : State).waitCmd q p := by
  have h := haltEach_eq s codeOk (s.ctxs.filter (fun c => decide (c.part = m))) s.ctxs
  have hc : s.haltedBy (fun c => decide (s.ctxs.any (fun d => decide (d.part = m) && decide (d.num = c.num)))) = s.ctxs.map (fun c =>
      if c.num ∈ (s.ctxs.filter (fun c => decide (c.part = m))).map Context.num then s.haltedCtx codeOk c else c) := by
    rw [haltedBy_eq]
    refine List.map_congr_left fun c _ => if_congr ?_ rfl rfl
    simp [and_assoc]
  rw [hc]
  exact congrArg (·.waitCmd q p) h

end

section
variable {s : State} {q : Fin 64} {p : Packet} {x : Partition}

theorem partCreate_builds {n : Nat} (hst : s.fw.stage = 6) (hp : s.fw.pending.any (s.comesAfter 0 p) = false) (ha : partArgsOk p = true)
    (ht : s.partTaken p = false) (hn : s.freePart = some n) :
    exec (.partCreate 0 p) s = .next ((s.withPart (s.newPart p n)).okCmd 0 p [wordOfNat n]) := by
  refine congrArg Host.Outcome.next ((onAdmin_taken hst hp _).trans ?_)
  simp only [ha, ht, hn, Bool.not_true, Bool.false_eq_true, if_false]
  exact buildPart_eq

variable (hst : s.fw.stage = 6) (hp : s.fw.pending.any (s.comesAfter q p) = false) (hx : s.part p.part = some x) (hq : q ≠ 0)
  (hi : x.ifaces.toNat.testBit q.val = true) (hg : s.partGoing x.num = false)
include hst hp hx hq hi hg

theorem ctxCreate_taken : exec (.ctxCreate q p) s = .next (if !ctxArgsOk x p then s.refuseCmd q p 3 else match s.freeCtx with
    | none => if s.someGoing then s.waitCmd q p else s.refuseCmd q p 6
    | some n => s.buildCtx q p x.num n) :=
  congrArg Host.Outcome.next (onPart_taken hst hp hx hq hi hg _)

theorem ctxCreate_refused (ha : ctxArgsOk x p = false) : exec (.ctxCreate q p) s = .next (s.refuseCmd q p 3) := by
  rw [ctxCreate_taken hst hp hx hq hi hg, ha]
  rfl

theorem ctxCreate_builds {n : Nat} (ha : ctxArgsOk x p = true) (hn : s.freeCtx = some n) :
    exec (.ctxCreate q p) s = .next (s.buildCtx q p x.num n) := by
  rw [ctxCreate_taken hst hp hx hq hi hg, ha, hn]
  rfl

theorem ctxCreate_full (ha : ctxArgsOk x p = true) (hn : s.freeCtx = none) :
    exec (.ctxCreate q p) s = .next (if s.someGoing then s.waitCmd q p else s.refuseCmd q p 6) := by
  rw [ctxCreate_taken hst hp hx hq hi hg, ha, hn]
  rfl

theorem ctxDestroy_waits {c : Context} (hc : s.ctx p.ctx = some c) (hcx : c.part = x.num) (hcg : s.ctxGoing c.num = false) :
    exec (.ctxDestroy q p) s = .next (({ s with ctxs := s.haltedBy (fun d => decide (d.num = c.num)) } : State).waitCmd q p) :=
  congrArg Host.Outcome.next ((onCtx_taken hst hx hq hi hc hcx hg hcg hp _).trans haltPlain_waits)

end

/-- Settles O46: what is put off, refused and taken by the lemmas of `staged`, `onAdmin`, `onPart` and `onCtx`; a new partition by
`withPart_stands`, `withPart_coreEmpty`, `withPart_frame_bare` and `withPart_table`. -/
theorem partitionsAndContextsAreManaged : Obligations.PartitionsAndContextsAreManaged := by
  unfold Obligations.PartitionsAndContextsAreManaged
  intro s q p hst
  refine ⟨commands_putOff hst, fun hp => ?_⟩
  intro refuses halted waits
  refine ⟨fun hq => ⟨congrArg _ (onAdmin_refused hst hp hq _), congrArg _ (onAdmin_refused hst hp hq _)⟩, ?_, ?_, ?_, ?_, ?_, ?_,
    fun x hx hg => congrArg _ (onPart_going hst hp hx hg _),
    fun h => ⟨congrArg _ (onPart_missing hst hp h _), congrArg _ (onPart_missing hst hp h _)⟩⟩
  · rintro rfl ha
    exact congrArg _ ((onAdmin_taken hst hp _).trans (by rw [ha]; rfl))
  · rintro rfl ha ht
    exact congrArg _ ((onAdmin_taken hst hp _).trans (by rw [ha, ht]; rfl))
  · rintro n rfl ha ht hn x
    obtain ⟨hpart, hdraws, hctxs⟩ := withPart_stands (s := s) (x := s.newPart p n) (freePart_isNone hn)
    refine ⟨_, partCreate_builds hst hp ha ht hn, hpart, hdraws, hctxs, fun id hid => ?_, fun f hf a h => ?_, fun w hnd => ?_⟩
    · obtain ⟨hseat, htree, hbare⟩ := withPart_coreEmpty (s := s) (x := s.newPart p n) hid
      exact ⟨hseat, htree, fun a h => bare_readByte hbare h⟩
    · exact bare_readByte (withPart_frame_bare (x := s.newPart p n) rfl hf) h
    · exact withPart_table (x := s.newPart p n) w hnd
  · rintro rfl hx
    exact congrArg _ ((onAdmin_taken hst hp _).trans (by rw [hx]))
  · rintro x rfl hx
    refine congrArg _ ((onAdmin_taken hst hp _).trans ?_)
    simp only [hx]
    exact haltPart_waits
  · intro x hx hq hi hg
    refine ⟨ctxCreate_refused hst hp hx hq hi hg, fun ha n hn => ctxCreate_builds hst hp hx hq hi hg ha hn, fun ha hn => ⟨?_, ?_⟩,
      fun hc => congrArg _ (onCtx_missing hst hp hx hq hi hg hc _),
      fun c hc hcx hcg => congrArg _ (onCtx_going hst hp hx hq hi hg hc hcx hcg _),
      fun c hc hcx hcg => ctxDestroy_waits hst hp hx hq hi hg hc hcx hcg⟩
    · intro hno
      have hs : s.someGoing = false := by simpa [State.someGoing] using hno
      exact (ctxCreate_full hst hp hx hq hi hg ha hn).trans (by rw [hs]; rfl)
    · intro hsome
      have hs : s.someGoing = true := by simpa [State.someGoing] using hsome
      exact (ctxCreate_full hst hp hx hq hi hg ha hn).trans (by rw [hs]; rfl)

end Sys2Proof.Machine
end

section
/-!
PROOFS. A strike that is delivered, a rollback and what drains behind it change no crew but the failed collectives of saved ones.
-/
namespace Sys2Proof.Machine

/-! ### Writes, stores and vector accesses -/

section
variable {s : State}

theorem crews_of_snd {α : Type} {x : α × State} {a : α} {t : State} (h : x = (a, t)) (hx : x.2.crews = s.crews) : t.crews = s.crews := by
  subst h
  exact hx

theorem foldl_crews {α : Type} {f : State → α → State} {l : List α} (hf : ∀ t a, (f t a).crews = t.crews) : (l.foldl f s).crews = s.crews := by
  induction l generalizing s with
  | nil => rfl
  | cons a l ih => exact ih.trans (hf s a)

@[simp] theorem State.focus_crews {n : Nat} : (s.focus n).crews = s.crews := (State.SameSeats.focus s n).crews

@[simp] theorem State.logCtx_crews {ctx : Nat} {kind : LogKind} {detail : Nat} {code : Code} :
    (s.logCtx ctx kind detail code).crews = s.crews := (sameCrews_logCtx ..).1

@[simp] theorem State.store_crews {l : List (PAddr × Byte)} : (s.store l).2.crews = s.crews := (sameCrews_store s l).1

@[simp] theorem State.wrote_crews {st : StreamId} {l : List PAddr} : (s.wrote st l).crews = s.crews := (sameSeats_wrote s st l).crews

@[simp] theorem State.rowDone_crews {ctx own p : Nat} {pa : PAddr} : (s.rowDone ctx own p pa).crews = s.crews := by
  unfold State.rowDone
  repeat' split
  · rfl
  · exact (sameCrews_doneAdd ..).1
  · exact (sameCrews_doneAdd ..).1
  · rfl

@[simp] theorem State.putStamp_crews {pa : PAddr} {st : Int} {v : Word} : (s.putStamp pa st v).2.crews = s.crews := by
  fun_cases State.putStamp
  · exact State.store_crews
  · rfl

@[simp] theorem State.performStore_crews {ctx own : Nat} {k : StoreKind} : (s.performStore ctx own k).2.crews = s.crews := by
  unfold State.performStore
  repeat' split
  all_goals simp

@[simp] theorem State.performAccess_crews {e : StoreEntry} : (s.performAccess e).1.crews = s.crews := by
  unfold State.performAccess
  split
  · next h => exact State.wrote_crews.trans (crews_of_snd h State.performStore_crews)
  · split <;> rfl
  · rfl

@[simp] theorem State.vecStops_crews : s.vecStops.crews = s.crews := (sameSeats_vecStops s).crews

@[simp] theorem State.stopEngine_crews {e : Eng} {code : Code} {at_ : Word} {spill mayCore mayLeft : Bool} :
    (s.stopEngine e 0 code at_ spill mayCore mayLeft).crews = s.crews := (sameSeats_stopWith ..).crews

@[simp] theorem State.performVp_crews {x : VpEntry} : (s.performVp x).2.crews = s.crews := by
  unfold State.performVp
  repeat' split
  · rfl
  · rfl
  · rfl
  · next h => exact State.wrote_crews.trans (crews_of_snd h State.store_crews)
  · rfl

/-! ### Errors of sectors and the bytes that a region restores -/

@[simp] theorem State.finishHead_crews {f : VpEntry → Bool} : (s.finishHead f).crews = s.crews := by
  unfold State.finishHead
  repeat' split
  · rfl
  · next h =>
    have ht := crews_of_snd h State.performVp_crews
    exact State.vecStops_crews.trans ht
  · rfl
  · rfl

@[simp] theorem State.finishWork_crews {f : VpEntry → Bool} {n : Nat} : (s.finishWork f n).crews = s.crews := by
  induction n generalizing s with
  | zero => exact State.finishHead_crews
  | succ n ih =>
    unfold State.finishWork
    dsimp only
    split
    · exact ih.trans State.finishHead_crews
    · exact State.finishHead_crews

@[simp] theorem State.loseSector_crews {q : PAddr} : (s.loseSector q).crews = s.crews := by
  refine State.focus_crews.trans (foldl_crews fun t c => ?_)
  exact State.finishWork_crews.trans State.focus_crews

@[simp] theorem State.restoreBytes_crews {l : List SavedBytes} : (s.restoreBytes l).crews = s.crews := by
  refine foldl_crews fun t x => ?_
  split
  · exact foldl_crews fun u q => State.loseSector_crews
  · exact State.store_crews

/-! ### Rollbacks -/

@[simp] theorem State.takeTrap_crews {sync : Bool} {code : Code} {detail tpc at_ : Word} {stop : Option Eng} {mayLeft mayCore : Bool} :
    (s.takeTrap sync code detail tpc at_ stop mayLeft mayCore).crews = s.crews := by
  unfold State.takeTrap
  split <;> rfl

@[simp] theorem State.seqUnwind_crews {l : List SeqRegion} : (s.seqUnwind l).crews = s.crews := by
  induction l generalizing s with
  | nil => rfl
  | cons r l ih =>
    have h : (s.restoreBytes r.saved).crews = s.crews := State.restoreBytes_crews
    unfold State.seqUnwind
    repeat' split
    · exact h
    · exact State.takeTrap_crews.trans h
    · exact ih.trans h

@[simp] theorem State.drainStore_crews {e : StoreEntry} : (s.drainStore e).crews = s.crews := by
  unfold State.drainStore
  generalize (e.told || s.core.seq.inRegion e.seq) = told
  generalize e.accesses = l
  induction l generalizing s told with
  | nil => rfl
  | cons a l ih => exact (ih _).trans State.performAccess_crews

@[simp] theorem State.drainStores_crews {n : Nat} : (s.drainStores n).crews = s.crews := by
  induction n generalizing s with
  | zero => rfl
  | succ n ih =>
    unfold State.drainStores
    repeat' split
    · rfl
    · exact ih.trans State.drainStore_crews
    · rfl

@[simp] theorem State.drainQueues_crews : s.drainQueues.crews = s.crews := State.drainStores_crews

@[simp] theorem State.seqRollback_crews : s.seqRollback.crews = s.crews := by
  unfold State.seqRollback
  split
  · rfl
  · dsimp only
    rw [State.seqUnwind_crews, State.upd_crews, State.updSeq_crews, State.drainQueues_crews]

@[simp] theorem State.landFlight_crews {l : List VpEntry} : (s.landFlight l).crews = s.crews := by
  induction l generalizing s with
  | nil => rfl
  | cons e l ih =>
    unfold State.landFlight
    repeat' split
    · exact ih
    · exact ih
    · next h => exact ih.trans (crews_of_snd h State.performVp_crews)

@[simp] theorem State.vecUnwind_crews {at_ : Word} {l : List VecRegion} : (s.vecUnwind at_ l).crews = s.crews := by
  induction l generalizing s with
  | nil => rfl
  | cons r l ih =>
    unfold State.vecUnwind
    dsimp only
    repeat' split
    · rfl
    · exact State.stopEngine_crews
    · exact ih

@[simp] theorem State.vecRollback_crews {at_ : Word} : (s.vecRollback at_).crews = s.crews := by
  unfold State.vecRollback
  split
  · rfl
  · exact State.vecUnwind_crews.trans State.landFlight_crews

@[simp] theorem State.xferUnwind_crews {at_ : Word} {l : List XferRegion} : (s.xferUnwind at_ l).crews = s.crews := by
  induction l generalizing s with
  | nil => rfl
  | cons r l ih =>
    unfold State.xferUnwind
    dsimp only
    repeat' split
    · rfl
    · exact State.stopEngine_crews
    · exact ih

@[simp] theorem State.xferRollback_crews {at_ : Word} : (s.xferRollback at_).crews = s.crews := by
  unfold State.xferRollback
  split
  · rfl
  · refine State.xferUnwind_crews.trans ?_
    cases s.core.xfer.all.find? (fun o => o.blocks.any (·.badTag)) <;> rfl

@[simp] theorem State.matRollback_crews {lost : Bool} : (s.matRollback lost).crews = s.crews := by
  unfold State.matRollback
  repeat' split
  · rfl
  · rfl
  · rfl
  · exact State.stopEngine_crews

end

/-! ### What becomes of a crew when another one moves -/

/-- A crew later on: the same one, still running where it ran, and still without save areas where it had none. -/
structure Crew.Follows (k x : Crew) : Prop where
  num : x.num = k.num
  ctx : x.ctx = k.ctx
  origin : x.origin = k.origin
  packet : x.packet = k.packet
  cores : x.cores = k.cores
  running : k.state = .running → x.state = .running
  saved : k.saved = [] → x.saved = []

theorem Crew.Follows.refl (k : Crew) : k.Follows k := ⟨rfl, rfl, rfl, rfl, rfl, id, id⟩

theorem Crew.Follows.trans {k x y : Crew} (h : k.Follows x) (i : x.Follows y) : k.Follows y :=
  ⟨i.num.trans h.num, i.ctx.trans h.ctx, i.origin.trans h.origin, i.packet.trans h.packet, i.cores.trans h.cores, i.running ∘ h.running,
    i.saved ∘ h.saved⟩

/-- Every crew of the machine is there later on, and new ones come after them. -/
def State.crewsFollow (s t : State) : Prop := ∃ (g : Crew → Crew) (l : List Crew), (∀ k : Crew, k.Follows (g k)) ∧ t.crews = s.crews.map g ++ l

namespace State.crewsFollow
variable {s t u : State}

theorem of_map {g : Crew → Crew} (hg : ∀ k : Crew, k.Follows (g k)) (h : t.crews = s.crews.map g) : s.crewsFollow t :=
  ⟨g, [], hg, by rw [h, List.append_nil]⟩

theorem of_crews (h : t.crews = s.crews) : s.crewsFollow t := of_map (g := id) .refl (by rw [h, List.map_id])

theorem refl (s : State) : s.crewsFollow s := of_crews rfl

theorem trans (h : s.crewsFollow t) (i : t.crewsFollow u) : s.crewsFollow u := by
  obtain ⟨g, l, hg, ht⟩ := h
  obtain ⟨f, m, hf, hu⟩ := i
  refine ⟨f ∘ g, l.map f ++ m, fun k => (hg k).trans (hf (g k)), ?_⟩
  rw [hu, ht, List.map_append, List.map_map, List.append_assoc]

theorem foldl {α : Type} {f : State → α → State} (hf : ∀ (s : State) (x : α), s.crewsFollow (f s x)) (l : List α) (s : State) :
    s.crewsFollow (l.foldl f s) := by
  induction l generalizing s with
  | nil => exact refl s
  | cons x l ih => exact (hf s x).trans (ih (f s x))

theorem updCrew (s : State) (n : Nat) {f : Crew → Crew} (hf : ∀ k : Crew, k.Follows (f k)) : s.crewsFollow (s.updCrew n f) := by
  refine of_map (g := fun c => if c.num = n then f c else c) (fun k => ?_) rfl
  split
  · exact hf k
  · exact .refl k

theorem handedOver (h : s.handedOver t) : s.crewsFollow t := by
  obtain ⟨g, h⟩ := h
  exact of_map (g := fun k => { k with stood := g k }) (fun _ => ⟨rfl, rfl, rfl, rfl, rfl, id, id⟩) (congrArg State.crews h :)

/-- A crew that a machine has follows itself in the next one. -/
theorem crew (h : s.crewsFollow t) {n : Nat} {k : Crew} (hk : s.crew n = some k) : ∃ x, t.crew n = some x ∧ k.Follows x := by
  obtain ⟨g, l, hg, ht⟩ := h
  refine ⟨g k, ?_, hg k⟩
  have hm := find?_map_key (key := Crew.num) (fun k => (hg k).num) s.crews n
  rw [State.crew] at hk
  rw [State.crew, ht, List.find?_append, hm, hk]
  rfl

end State.crewsFollow

/-! ### Strikes -/

section
variable (s : State)

theorem failColl_crewsFollow (ident m : Nat) (code : Code) (bits : StrikeBits) (l : List Rank) (keep : Nat → Bool) :
    s.crewsFollow (s.failColl ident m code bits l keep) := by
  refine .trans (.foldl (fun t r => ?_) l s) (.of_crews State.focus_crews)
  split
  · exact .of_crews (sameSeats_failCollAt ..).crews
  · exact .updCrew _ _ fun k => ⟨rfl, rfl, rfl, rfl, rfl, id, fun h => by simp [Crew.failColl, h]⟩

theorem failCur_crewsFollow (o : XOp) (code : Code) : s.crewsFollow (s.failCur o code) := by
  unfold State.failCur
  split
  · exact .of_crews rfl
  · exact .of_crews (sameSeats_settleOp ..).crews

theorem strikeOps_crewsFollow (bits : StrikeBits) : s.crewsFollow (s.strikeOps bits) := by
  unfold State.strikeOps
  refine .trans ?_ (.foldl (fun t o => ?_) _ _)
  · repeat' split
    · exact failColl_crewsFollow ..
    · exact failCur_crewsFollow ..
    · exact .refl s
  · split
    · exact .of_crews (sameSeats_settleOp ..).crews
    · exact .refl t

theorem strikeRunning_crewsFollow (e : Eng) (bits : StrikeBits) : s.crewsFollow (s.strikeRunning e bits) := by
  fun_cases State.strikeRunning
  · exact .of_crews State.vecRollback_crews
  · exact .of_crews State.vecStops_crews
  · exact .of_crews State.matRollback_crews
  · exact .of_crews State.stopEngine_crews
  · exact .of_crews State.xferRollback_crews
  · exact strikeOps_crewsFollow ..

theorem strikeEngine_crewsFollow (e : Eng) : s.crewsFollow (s.strikeEngine e) := by
  fun_cases State.strikeEngine
  · exact strikeRunning_crewsFollow ..
  · exact strikeRunning_crewsFollow ..
  · exact .of_crews rfl
  · exact .of_crews State.stopEngine_crews
  · exact .of_crews State.stopEngine_crews

theorem strike_crewsFollow (st : StreamId) : s.crewsFollow (s.strike st) := by
  unfold State.strike
  split
  · exact .refl s
  cases st with
  | seq =>
    refine .of_crews ?_
    fun_cases State.strikeSeq
    · exact State.seqRollback_crews
    · rfl
    · rfl
  | vec => exact strikeEngine_crewsFollow s .vec
  | mat => exact strikeEngine_crewsFollow s .mat
  | xfer => exact strikeEngine_crewsFollow s .xfer

theorem deliver_crewsFollow : s.crewsFollow s.deliver := by
  unfold State.deliver
  exact .trans (.of_crews rfl) (.foldl strike_crewsFollow s.dueStreams _)

theorem deliverAll_crewsFollow (cores : List Nat) : s.crewsFollow (s.deliverAll cores) :=
  .trans (.foldl (fun t n => .trans (.of_crews State.focus_crews) (deliver_crewsFollow (t.focus n))) cores s) (.of_crews State.focus_crews)

end

end Sys2Proof.Machine
end

section
/-!
PROOFS. The scheduler scans rows, judges deadlines and launches and resumes stages (R210, R264 to R266): O41.
-/
namespace Sys2Proof.Machine

/-! ### The steps of a decision leave the crews that run -/

section
variable (s : State)

theorem integrity_crews {ctx core : Nat} {e : Code} : (s.integrity ctx core e).crews = s.crews := by
  unfold State.integrity
  split <;> rfl

theorem placeCrew_crewsFollow (num ctx : Nat) (p : LaunchPacket) (ids : List Nat) (o : Origin) (code image : List Byte) :
    s.crewsFollow (s.placeCrew num ctx p ids o code image) := by
  obtain ⟨v, hv, h⟩ := placeCrew_eq s num ctx p ids o code image
  rw [h]
  exact .trans (.handedOver hv) ⟨id, [.fresh num ctx p ids o], .refl, by rw [List.map_id]⟩

theorem launchStage_crewsFollow (ctx : Nat) (h : Harness) (st : Nat) (p : LaunchPacket) (cores : List Nat) :
    s.crewsFollow (s.launchStage ctx h st p cores).1 := by
  unfold State.launchStage
  dsimp only
  split
  · exact .trans (.of_crews rfl) (.trans (placeCrew_crewsFollow { s with crewNum := s.crewNum + 1 } ..) (.of_crews rfl))
  · split
    · exact .of_crews (integrity_crews s)
    · exact .of_crews State.logCtx_crews

theorem takeBack_crewsFollow (k : Crew) (code : List Byte) : s.crewsFollow (s.takeBack k code) :=
  .trans (.foldl (fun _ _ => .handedOver (handedOver_restoreCore ..)) _ s)
    (.updCrew _ _ fun _ => ⟨rfl, rfl, rfl, rfl, rfl, fun _ => rfl, fun _ => rfl⟩)

theorem restoreCrew_later (k : Crew) (code : List Byte) : (s.takeBack k code).crewsFollow (s.restoreCrew k code) := by
  rw [restoreCrew_eq]
  refine .trans (.of_crews ?_) (deliverAll_crewsFollow _ _)
  refine State.focus_crews.trans ((foldl_crews fun t n => ?_).trans (foldl_crews fun t n => (sameSeats_rebind t k.ctx n).crews))
  exact State.vecStops_crews.trans State.focus_crews

theorem resumeCrew_crewsFollow (k : Crew) : s.crewsFollow (s.resumeCrew k) := by
  unfold State.resumeCrew
  split
  · exact .trans (takeBack_crewsFollow s k _) (restoreCrew_later s k _)
  · exact .of_crews (integrity_crews s)

theorem requestYield_crewsFollow (k : Crew) (why : Option Nat) : s.crewsFollow (s.requestYield k why) := by
  obtain ⟨d, o, h⟩ := foldl_updCore_frame (·.updSeq (fun q => { q with yreq := true, ydl := s.grant k, overdue := false })) k.cores s
  refine .trans (.of_crews ?_) (.updCrew _ _ fun _ => ⟨rfl, rfl, rfl, rfl, rfl, id, id⟩)
  rw [State.onRanks, h]

end

theorem takeSteps_crewsFollow (ctx : Nat) (cores skip : List Nat) (fuel : Nat) (s : State) :
    s.crewsFollow (s.takeSteps ctx cores skip fuel) := by
  induction fuel generalizing s skip with
  | zero => exact .refl s
  | succ fuel ih =>
    have hplace (h : Harness) (x : LaunchPacket × Nat) (l : List Nat) :
        s.crewsFollow ((s.launchStage ctx h x.2 x.1 cores).1.takeSteps ctx cores l fuel) :=
      .trans (launchStage_crewsFollow ..) (ih ..)
    unfold State.takeSteps
    repeat' split
    · exact .refl s
    · exact .refl s
    · exact hplace ..
    · exact .trans (resumeCrew_crewsFollow ..) (ih ..)
    · exact hplace ..
    · exact .trans (requestYield_crewsFollow ..) (ih ..)
    · exact .refl s
    · exact .refl s

/-! ### A decision (R266) -/

section
variable {s : State} {ctx : Nat} {c : Context} {h : Harness} (hc : s.ctx ctx = some c) (hh : c.harness = some h)
include hc hh

theorem harness_found : (s.ctx ctx).bind (·.harness) = some h := by rw [hc]; exact hh

theorem decision_unscanned (hs : h.scanned = false) (cores withdraw : List Nat) : s.decision ctx cores withdraw = s := by
  simp only [State.decision, harness_found hc hh, hs]
  exact if_pos (.inr (.inl rfl))

/-- A decision that withdraws no request goes on to the steps of R266. -/
theorem decision_steps (he : h.ended = false) (hs : h.scanned = true) (hm : s.mayPlace ctx = true) (howed : s.settleOwed ctx = s)
    (cores : List Nat) : s.decision ctx cores [] = s.takeSteps ctx cores [] decisionFuel := by
  have hhalt : s.ctxHalted ctx = false := by
    rw [State.mayPlace] at hm
    simpa using ((Bool.and_eq_true _ _).mp ((Bool.and_eq_true _ _).mp hm).1).2
  simp only [State.decision, harness_found hc hh, he, hs, hhalt, List.foldl_nil, howed]
  exact if_neg (by simp)

variable (hm : s.mayPlace ctx = true) (hf : s.placeFirst ctx = false)
include hm hf

/-- The first step launches the stage that it picks. -/
theorem takeSteps_launches {p : LaunchPacket} {st : Nat} (cores : List Nat) (hpick : s.step1 ctx h [] = some (p, st) ∨
      (s.step1 ctx h [] = none ∧ (s.stepOwed ctx h []).or (s.step2 ctx h []) = some (p, st) ∧ s.resumable ctx h st = none)) :
    ∃ skip, s.takeSteps ctx cores [] decisionFuel = (s.launchStage ctx h st p cores).1.takeSteps ctx cores skip 2047 := by
  rw [show decisionFuel = 2047 + 1 from rfl, State.takeSteps]
  rcases hpick with h1 | ⟨h1, h2, hr⟩
  · simp only [harness_found hc hh, hm, hf, h1, Bool.not_true, Bool.false_eq_true, if_false]
    exact ⟨_, rfl⟩
  · simp only [harness_found hc hh, hm, hf, h1, h2, hr, Bool.not_true, Bool.false_eq_true, if_false]
    exact ⟨_, rfl⟩

/-- The first step resumes the pre-empted crew of the stage that it picks. -/
theorem takeSteps_resumes {p : LaunchPacket} {st : Nat} {k : Crew} (cores : List Nat) (h1 : s.step1 ctx h [] = none)
    (h2 : (s.stepOwed ctx h []).or (s.step2 ctx h []) = some (p, st)) (hr : s.resumable ctx h st = some k) :
    ∃ skip, s.takeSteps ctx cores [] decisionFuel = (s.resumeCrew k).takeSteps ctx cores skip 2047 := by
  rw [show decisionFuel = 2047 + 1 from rfl, State.takeSteps]
  simp only [harness_found hc hh, hm, hf, h1, h2, hr, Bool.not_true, Bool.false_eq_true, if_false]
  exact ⟨_, rfl⟩

end

/-- A stage's new crew, once its code is read. -/
theorem launchStage_crew {s : State} {ctx st : Nat} {h : Harness} {p : LaunchPacket} {code : List Byte} (cores : List Nat)
    (hr : s.readCode ctx p = .ok code) (hn : ∀ k ∈ s.crews, k.num < s.crewNum) :
    (s.launchStage ctx h st p cores).1.crew s.crewNum =
      some (.fresh s.crewNum ctx p (sortNat ((s.offered ctx h st cores).take p.crew)) (.stage st)) := by
  have hnone : ({ s with crewNum := s.crewNum + 1 } : State).crew s.crewNum = none :=
    List.find?_eq_none.2 fun k hk => by simpa using (hn k hk).ne
  rw [State.launchStage, hr]
  exact placeCrew_crew _ _ _ _ _ _ _ _ hnone

/-- A resumed crew, once its code is read. -/
theorem resumeCrew_crew {s : State} {k : Crew} {code : List Byte} (hk : s.crew k.num = some k) (hr : s.readCode k.ctx k.packet = .ok code) :
    ∃ x, (s.resumeCrew k).crew k.num = some x ∧ x.state = .running ∧ x.cores = k.cores ∧ x.saved = [] := by
  obtain ⟨x, hx, hf⟩ := (restoreCrew_later s k code).crew (takeBack_crew code hk)
  rw [State.resumeCrew, hr]
  exact ⟨x, hx, hf.running rfl, hf.cores, hf.saved rfl⟩

/-! ### A scan (R210, R264, R265) -/

section
variable {s : State} {ctx : Nat} {c : Context} {h : Harness} (hc : s.ctx ctx = some c) (hh : c.harness = some h) (he : h.ended = false)
include hc hh he

theorem scanRow_unread {f : XlFault} {bits : Nat} (hw : s.rowWalk ctx h h.row false = .fault f bits) :
    s.scanRow ctx = (s.logCtx ctx .lostRow h.row (rowCode f)).updHarness ctx (·.scanNext none) := by
  simp only [State.scanRow, harness_found hc hh, he, hw, Bool.false_eq_true, if_false]

variable {pa : PAddr} {wr : Bool} {bits : Nat} (hw : s.rowWalk ctx h h.row false = .ok pa wr bits)
include hw

theorem scanRow_lost (hl : s.eccRead (placesFrom pa 64) = .lost) :
    s.scanRow ctx = (s.logCtx ctx .lostRow h.row codeDataLost).updHarness ctx (·.scanNext none) := by
  simp only [State.scanRow, harness_found hc hh, he, hw, hl, Bool.false_eq_true, if_false]

variable (hl : s.eccRead (placesFrom pa 64) = .ok)
include hl

/-- A row of no stage, or without a deadline, is counted alone. -/
theorem scanRow_counts (hd : h.stageOf (rowPhase (s.readNat pa 8)) = none ∨ s.readNat (pa.plus 8) 8 = 0) :
    s.scanRow ctx = s.updHarness ctx (·.scanNext (countedPhase (s.readNat pa 8))) := by
  simp only [State.scanRow, harness_found hc hh, he, hw, hl, Bool.false_eq_true, if_false]
  refine if_neg fun hn => ?_
  rcases hd with hd | hd
  · rw [hd] at hn; simp at hn
  · exact hn.2 hd

/-- A row of a stage with a deadline is judged. -/
theorem scanRow_judges (hst : (h.stageOf (rowPhase (s.readNat pa 8))).isSome = true) (hd : s.readNat (pa.plus 8) 8 ≠ 0) :
    s.scanRow ctx = (s.judge ctx h pa (s.readNat pa 8)).1.updHarness ctx (·.scanNext (countedPhase (s.judge ctx h pa (s.readNat pa 8)).2)) := by
  simp only [State.scanRow, harness_found hc hh, he, hw, hl, Bool.false_eq_true, if_false]
  exact if_pos ⟨hst, hd⟩

end

section
variable {s : State} {ctx w : Nat} {h : Harness} {pa : PAddr} (hwide : s.clocks[h.home].wide = false)
  (hlim : s.clocks[h.home].late - s.clocks[h.home].early ≤ (if h.wlim = 0 then 2000 else h.wlim))
include hwide hlim

/-- The width of the home die's interval does not suspend the judgement. -/
theorem judge_inForce : widthFails s.clocks[h.home].width (if h.wlim = 0 then 2000 else h.wlim) = none := by
  have hwidth : s.clocks[h.home].width = some (s.clocks[h.home].late - s.clocks[h.home].early) := by rw [DieClock.width, hwide]; rfl
  rw [hwidth, widthFails, if_neg (not_lt.2 (by exact_mod_cast hlim))]

variable (hsus : h.suspended = false) (hpast : s.clocks[h.home].early > sextNat 64 (s.readNat (pa.plus 8) 8))
include hsus hpast

theorem judge_late {qa : PAddr} {wr : Bool} {bits : Nat} (hq : s.rowWalk ctx h h.row true = .ok qa wr bits) :
    s.judge ctx h pa w = (s.judgeLate ctx pa w, rowWord (rowSeq w + 1) false 63) := by
  simp only [State.judge, judge_inForce hwide hlim, hsus, hq, Bool.false_eq_true, if_false]
  exact if_pos hpast

/-- A row that the block may only read stays as it is (log 21). -/
theorem judge_unwritable {f : XlFault} {bits : Nat} (hq : s.rowWalk ctx h h.row true = .fault f bits) :
    s.judge ctx h pa w = (s.logCtx ctx .lostRow h.row (rowCode f), w) := by
  simp only [State.judge, judge_inForce hwide hlim, hsus, hq, Bool.false_eq_true, if_false]
  exact if_pos hpast

end

/-- The cells that make a row LATE: its word, and the code that its release names (R265). -/
def lateCells (pa : PAddr) (w : Nat) : List (PAddr × Byte) :=
  cellsAt pa (bytesOfNat 8 (rowWord (rowSeq w + 1) false 63)) ++ cellsAt (pa.plus 0x28) (bytesOfNat 2 0x0601)

section
variable {s : State} {ctx w : Nat} {pa : PAddr}

theorem lateCells_places : (lateCells pa w).map Prod.fst = placesFrom pa 8 ++ placesFrom (pa.plus 0x28) 2 := by
  rw [lateCells, List.map_append, cellsAt_places, cellsAt_places, bytesOfNat_length, bytesOfNat_length]

theorem lateCells_nodup : ((lateCells pa w).map Prod.fst).Nodup := by
  rw [lateCells_places]
  refine List.nodup_append.2 ⟨placesFrom_nodup _ _, placesFrom_nodup _ _, fun a ha b hb => ?_⟩
  rintro rfl
  have hlow := (mem_placesFrom.1 ha).2.2
  have hhigh : pa.addr + 0x28 ≤ a.addr := (mem_placesFrom.1 hb).2.1
  omega

theorem rowWord_lt (seq : Nat) (busy : Bool) (phase : Nat) : rowWord seq busy phase < 2 ^ 64 := by
  have hb : bit busy < 2 := by cases busy <;> decide
  simp only [rowWord, put]
  omega

theorem judgeLate_stores (hdone : s.readNat (pa.plus 0x10) 8 = 0) (hecc : s.eccWrite (lateCells pa w) = .ok) :
    s.judgeLate ctx pa w = (s.heal (lateCells pa w)).writeCells (lateCells pa w) := by
  have hs : s.store (lateCells pa w) = (.ok, (s.heal (lateCells pa w)).writeCells (lateCells pa w)) := by rw [State.store, hecc]
  have hj : s.judgeLate ctx pa w = (s.store (lateCells pa w)).2.doneAdd ctx (s.readNat (pa.plus 0x10) 8) none none codeLate 0 := rfl
  rw [hj, hs, hdone]
  rfl

/-- A LATE row: its word and its code read as they were written, and every other byte is as before. -/
theorem judgeLate_reads (wf : s.memWf = true) (hdone : s.readNat (pa.plus 0x10) 8 = 0) (hecc : s.eccWrite (lateCells pa w) = .ok) :
    (s.judgeLate ctx pa w).readNat pa 8 = rowWord (rowSeq w + 1) false 63 ∧ (s.judgeLate ctx pa w).readNat (pa.plus 0x28) 2 = 0x0601 ∧
      s.sameOutside (s.judgeLate ctx pa w) (placesFrom pa 8 ++ placesFrom (pa.plus 0x28) 2) := by
  rw [judgeLate_stores hdone hecc]
  have hwf : (s.heal (lateCells pa w)).memWf = true := State.heal_wf wf
  have hread {p : PAddr} {n x : Nat} (hl : ∀ c ∈ cellsAt p (bytesOfNat n x), c ∈ lateCells pa w) (hx : x < 2 ^ (8 * n)) :
      ((s.heal (lateCells pa w)).writeCells (lateCells pa w)).readNat p n = x := by
    have h := readNat_writeCells hwf lateCells_nodup hl
    rwa [bytesOfNat_length, natOfBytes_bytesOfNat, Nat.mod_eq_of_lt hx] at h
  refine ⟨hread (fun _ => List.mem_append_left _) (rowWord_lt ..), hread (fun _ => List.mem_append_right _) (by decide), fun q hq => ?_⟩
  refine State.readByte_writeCells_other (s := s.heal (lateCells pa w)) (fun e he => ?_) hwf
  rintro rfl
  exact hq (lateCells_places ▸ List.mem_map_of_mem he)

end

/-- Settles O41: a scan by the lemmas of `scanRow` and `judge`; a decision by its first step, and every crew that runs goes on running
through the later ones (`takeSteps_crewsFollow`). -/
theorem theSchedulerScansAndDecides : Obligations.TheSchedulerScansAndDecides := by
  unfold Obligations.TheSchedulerScansAndDecides
  intro s ctx c h hc hh he
  refine ⟨fun f bits hw => congrArg _ (scanRow_unread hc hh he hw), fun pa wr bits hw hl => congrArg _ (scanRow_lost hc hh he hw hl),
    fun pa qa wr wr' bits bits' hw hq hl => ?_, fun pa wr bits bits' f hw hq hl hsus hst hd hwide hlim hpast => ?_,
    fun cores p st code hs hm hf howed hpick hr hn => ?_, fun cores p st code k hs hm hf howed h1 h2 hres hk hr => ?_,
    fun cores withdraw hs => congrArg _ (decision_unscanned hc hh hs cores withdraw)⟩
  · refine ⟨fun hd => congrArg _ (scanRow_counts hc hh he hw hl hd), fun hst hd hsus hwide hlim hpast hdone wf hecc => ?_⟩
    have hscan := scanRow_judges hc hh he hw hl hst hd
    rw [judge_late hwide hlim hsus hpast hq] at hscan
    have hreads := judgeLate_reads (ctx := ctx) wf hdone hecc
    generalize s.judgeLate ctx pa (s.readNat pa 8) = u at hscan hreads
    obtain ⟨hword, hcode, hout⟩ := hreads
    exact ⟨_, congrArg Host.Outcome.next hscan, hword, hcode, hout⟩
  · have hscan := scanRow_judges hc hh he hw hl hst hd
    rw [judge_unwritable hwide hlim hsus hpast hq] at hscan
    exact congrArg Host.Outcome.next hscan
  · obtain ⟨skip, hsteps⟩ := takeSteps_launches hc hh hm hf cores hpick
    obtain ⟨x, hx, hfol⟩ := (takeSteps_crewsFollow ctx cores skip 2047 _).crew (launchStage_crew (h := h) (st := st) cores hr hn)
    exact ⟨_, x, congrArg Host.Outcome.next ((decision_steps hc hh he hs hm howed cores).trans hsteps), hx, hfol.ctx, hfol.origin, hfol.packet,
      hfol.running rfl, hfol.cores⟩
  · obtain ⟨skip, hsteps⟩ := takeSteps_resumes hc hh hm hf cores h1 h2 hres
    obtain ⟨x, hx, hrun, hcores, hsaved⟩ := resumeCrew_crew hk hr
    obtain ⟨y, hy, hfol⟩ := (takeSteps_crewsFollow ctx cores skip 2047 _).crew hx
    exact ⟨_, y, congrArg Host.Outcome.next ((decision_steps hc hh he hs hm howed cores).trans hsteps), hy, hfol.running hrun,
      hfol.cores.trans hcores, hfol.saved hsaved⟩

end Sys2Proof.Machine
end
